-- ==== Sys2Proof/Word.lean ====
section
/-! DEFINITION. The words of the machine and their plainest arithmetic: bytes, 32-bit lane elements and instruction words,
64-bit scalars and 128-bit lane masks (R10, R92). -/

namespace Sys2Proof

/-- A byte. -/
abbrev Byte := BitVec 8

/-- A 32-bit lane element or instruction word. -/
abbrev Word := BitVec 32

/-- A 64-bit scalar or register pair. -/
abbrev Quad := BitVec 64

/-- One bit for each of the 128 lanes of a wave: predicates and active lanes (R13, R28). -/
abbrev LaneMask := BitVec 128

end Sys2Proof
end

