-- ==== Sys2Proof/Syntax.lean ====
section
/-! DEFINITION. The instruction set as data: the field layouts of Table 3.2 as the rows of the opcode table use them
(one structure per layout, its fields the row's own), the data that the outside world or the firmware brings to an event,
and `Instr`, with one constructor for every row of the opcode table: 303 instruction words and 132 events.
An event's arguments say where it happens and what it brings; DESIGN CHOICE, notes/assumptions/2.md (the table gives events no fields). -/

namespace Sys2Proof

/-- Word layout: d, a, b register codes with C and K (Table 3.2, R64, R65). -/
structure VR where
  c : BitVec 1
  k : BitVec 1
  d : BitVec 7
  a : BitVec 7
  b : BitVec 7
  deriving DecidableEq, Repr

/-- Word layout: d and a register codes with C and K (unary forms, b field 0) (Table 3.2, R64, R65). -/
structure VR1 where
  c : BitVec 1
  k : BitVec 1
  d : BitVec 7
  a : BitVec 7
  deriving DecidableEq, Repr

/-- Word layout: a compare: pd, combination cm, a, b (Table 3.2, R64, R65). -/
structure VP where
  c : BitVec 1
  d : BitVec 3
  m : BitVec 2
  a : BitVec 7
  b : BitVec 7
  deriving DecidableEq, Repr

/-- Word layout: a unary compare: pd, combination cm, a (Table 3.2, R64, R65). -/
structure VP1 where
  c : BitVec 1
  d : BitVec 3
  m : BitVec 2
  a : BitVec 7
  deriving DecidableEq, Repr

/-- Word layout: a conversion with rounding mode and saturation (Table 3.2, R64, R65). -/
structure VCRS where
  c : BitVec 1
  k : BitVec 1
  d : BitVec 7
  a : BitVec 7
  r : BitVec 3
  s : BitVec 1
  deriving DecidableEq, Repr

/-- Word layout: a conversion with rounding mode (Table 3.2, R64, R65). -/
structure VCR where
  c : BitVec 1
  k : BitVec 1
  d : BitVec 7
  a : BitVec 7
  r : BitVec 3
  deriving DecidableEq, Repr

/-- Word layout: a conversion into half h (Table 3.2, R64, R65). -/
structure VCRSH where
  c : BitVec 1
  k : BitVec 1
  d : BitVec 7
  a : BitVec 7
  r : BitVec 3
  s : BitVec 1
  h : BitVec 1
  deriving DecidableEq, Repr

/-- Word layout: an exact conversion from half (or byte pair) h (Table 3.2, R64, R65). -/
structure VCH where
  c : BitVec 1
  k : BitVec 1
  d : BitVec 7
  a : BitVec 7
  h : BitVec 1
  deriving DecidableEq, Repr

/-- Word layout: a conversion into byte j (Table 3.2, R64, R65). -/
structure VCJRS where
  c : BitVec 1
  k : BitVec 1
  d : BitVec 7
  a : BitVec 7
  j : BitVec 2
  r : BitVec 3
  s : BitVec 1
  deriving DecidableEq, Repr

/-- Word layout: an exact conversion from byte j (Table 3.2, R64, R65). -/
structure VCJ where
  c : BitVec 1
  k : BitVec 1
  d : BitVec 7
  a : BitVec 7
  j : BitVec 2
  deriving DecidableEq, Repr

/-- Word layout: VCOMPACT: d, a and a predicate (Table 3.2, R64, R65). -/
structure VRP where
  c : BitVec 1
  k : BitVec 1
  d : BitVec 7
  a : BitVec 7
  p : BitVec 3
  deriving DecidableEq, Repr

/-- Word layout: three register codes, no K (Table 3.2, R64, R65). -/
structure R3 where
  c : BitVec 1
  d : BitVec 7
  a : BitVec 7
  b : BitVec 7
  deriving DecidableEq, Repr

/-- Word layout: vector immediate: d, a, imm7 (Table 3.2, R64, R65). -/
structure VI where
  c : BitVec 1
  k : BitVec 1
  d : BitVec 7
  a : BitVec 7
  i : BitVec 7
  deriving DecidableEq, Repr

/-- Word layout: vector immediate without a: d, imm7 (Table 3.2, R64, R65). -/
structure VI0 where
  c : BitVec 1
  k : BitVec 1
  d : BitVec 7
  i : BitVec 7
  deriving DecidableEq, Repr

/-- Word layout: only d, with C and K (Table 3.2, R64, R65). -/
structure VR0 where
  c : BitVec 1
  k : BitVec 1
  d : BitVec 7
  deriving DecidableEq, Repr

/-- Word layout: VSEL: d, a, b and a predicate (Table 3.2, R64, R65). -/
structure VRS where
  c : BitVec 1
  k : BitVec 1
  d : BitVec 7
  a : BitVec 7
  b : BitVec 7
  p : BitVec 3
  deriving DecidableEq, Repr

/-- Word layout: predicates pd, pa, pb (Table 3.2, R64, R65). -/
structure PR3 where
  c : BitVec 1
  d : BitVec 3
  a : BitVec 3
  b : BitVec 3
  deriving DecidableEq, Repr

/-- Word layout: predicates pd, pa (Table 3.2, R64, R65). -/
structure PR2 where
  c : BitVec 1
  d : BitVec 3
  a : BitVec 3
  deriving DecidableEq, Repr

/-- Word layout: predicate pd (Table 3.2, R64, R65). -/
structure PR1 where
  c : BitVec 1
  d : BitVec 3
  deriving DecidableEq, Repr

/-- Word layout: predicate pd and scalar s (Table 3.2, R64, R65). -/
structure PRDS where
  c : BitVec 1
  d : BitVec 3
  s : BitVec 7
  deriving DecidableEq, Repr

/-- Word layout: predicate pa and scalar s (Table 3.2, R64, R65). -/
structure PRAS where
  c : BitVec 1
  a : BitVec 3
  s : BitVec 7
  deriving DecidableEq, Repr

/-- Word layout: predicate pa (Table 3.2, R64, R65). -/
structure PRA where
  c : BitVec 1
  a : BitVec 3
  deriving DecidableEq, Repr

/-- Word layout: scalar immediate: d, a, imm8 (Table 3.2, R64, R65). -/
structure SI where
  c : BitVec 1
  k : BitVec 1
  d : BitVec 7
  a : BitVec 7
  i : BitVec 8
  deriving DecidableEq, Repr

/-- Word layout: SLI: d, imm17 with K (Table 3.2, R64, R65). -/
structure SKK where
  c : BitVec 1
  k : BitVec 1
  d : BitVec 7
  i : BitVec 17
  deriving DecidableEq, Repr

/-- Word layout: SHI: d, imm17 (Table 3.2, R64, R65). -/
structure SKN where
  c : BitVec 1
  d : BitVec 7
  i : BitVec 17
  deriving DecidableEq, Repr

/-- Word layout: MOVC: s, control-register number n, with K (Table 3.2, R64, R65). -/
structure CTK where
  c : BitVec 1
  k : BitVec 1
  s : BitVec 7
  n : BitVec 10
  deriving DecidableEq, Repr

/-- Word layout: MOVCW: s, control-register number n (Table 3.2, R64, R65). -/
structure CTN where
  c : BitVec 1
  s : BitVec 7
  n : BitVec 10
  deriving DecidableEq, Repr

/-- Word layout: s and a tile register (Table 3.2, R64, R65). -/
structure CTT where
  c : BitVec 1
  s : BitVec 7
  t : BitVec 4
  deriving DecidableEq, Repr

/-- Word layout: a scalar code (Table 3.2, R64, R65). -/
structure S1 where
  c : BitVec 1
  s : BitVec 7
  deriving DecidableEq, Repr

/-- Word layout: a 25-bit word offset (Table 3.2, R64, R65). -/
structure BJ where
  c : BitVec 1
  o : BitVec 25
  deriving DecidableEq, Repr

/-- Word layout: two scalar numbers and a 10-bit word offset (Table 3.2, R64, R65). -/
structure BC where
  c : BitVec 1
  a : BitVec 6
  b : BitVec 6
  o : BitVec 10
  deriving DecidableEq, Repr

/-- Word layout: one scalar number and a 10-bit word offset (Table 3.2, R64, R65). -/
structure BC1 where
  c : BitVec 1
  a : BitVec 6
  o : BitVec 10
  deriving DecidableEq, Repr

/-- Word layout: a predicate and a 20-bit word offset (Table 3.2, R64, R65). -/
structure BQ where
  c : BitVec 1
  p : BitVec 3
  o : BitVec 20
  deriving DecidableEq, Repr

/-- Word layout: only C (Table 3.2, R64, R65). -/
structure C0 where
  c : BitVec 1
  deriving DecidableEq, Repr

/-- Word layout: a 14-bit immediate (Table 3.2, R64, R65). -/
structure FI where
  c : BitVec 1
  i : BitVec 14
  deriving DecidableEq, Repr

/-- Word layout: TRET: the H bit (Table 3.2, R64, R65). -/
structure FH where
  c : BitVec 1
  h : BitVec 1
  deriving DecidableEq, Repr

/-- Word layout: HOSTMSG: s and a 14-bit tag (Table 3.2, R64, R65). -/
structure FSI where
  c : BitVec 1
  s : BitVec 7
  i : BitVec 14
  deriving DecidableEq, Repr

/-- Word layout: a and b codes (Table 3.2, R64, R65). -/
structure RAB where
  c : BitVec 1
  a : BitVec 7
  b : BitVec 7
  deriving DecidableEq, Repr

/-- Word layout: d and a codes, no K (Table 3.2, R64, R65). -/
structure R2 where
  c : BitVec 1
  d : BitVec 7
  a : BitVec 7
  deriving DecidableEq, Repr

/-- Word layout: an a code (Table 3.2, R64, R65). -/
structure RA where
  c : BitVec 1
  a : BitVec 7
  deriving DecidableEq, Repr

/-- Word layout: scratchpad access: v, a, sb, size, full-empty, addressing mode (Table 3.2, R64, R65). -/
structure MS where
  c : BitVec 1
  v : BitVec 7
  a : BitVec 7
  b : BitVec 4
  z : BitVec 2
  e : BitVec 2
  m : BitVec 3
  deriving DecidableEq, Repr

/-- Word layout: contiguous access: v, sb, off10, element size (Table 3.2, R64, R65). -/
structure MC where
  c : BitVec 1
  v : BitVec 7
  b : BitVec 6
  o : BitVec 10
  e : BitVec 2
  deriving DecidableEq, Repr

/-- Word layout: gather or scatter: v, i, sb, es, iw, sg, sc (Table 3.2, R64, R65). -/
structure MG where
  c : BitVec 1
  v : BitVec 7
  i : BitVec 7
  b : BitVec 4
  e : BitVec 2
  w : BitVec 2
  g : BitVec 1
  s : BitVec 2
  deriving DecidableEq, Repr

/-- Word layout: atomic: v, i, sb, ty, n (Table 3.2, R64, R65). -/
structure AT where
  c : BitVec 1
  v : BitVec 7
  i : BitVec 7
  b : BitVec 4
  t : BitVec 2
  n : BitVec 1
  deriving DecidableEq, Repr

/-- Word layout: FENCE: scope and kind (Table 3.2, R64, R65). -/
structure MXF where
  c : BitVec 1
  s : BitVec 4
  f : BitVec 4
  deriving DecidableEq, Repr

/-- Word layout: LR, SC: v, i, sb, width (Table 3.2, R64, R65). -/
structure MXW where
  c : BitVec 1
  v : BitVec 7
  i : BitVec 7
  b : BitVec 4
  w : BitVec 1
  deriving DecidableEq, Repr

/-- Word layout: STRED: v, i, sb, type (Table 3.2, R64, R65). -/
structure MXT where
  c : BitVec 1
  v : BitVec 7
  i : BitVec 7
  b : BitVec 4
  t : BitVec 2
  deriving DecidableEq, Repr

/-- Word layout: PREF: i, sb, level (Table 3.2, R64, R65). -/
structure MXL where
  c : BitVec 1
  i : BitVec 7
  b : BitVec 4
  l : BitVec 1
  deriving DecidableEq, Repr

/-- Word layout: CFLUSH: i, sb, INV (Table 3.2, R64, R65). -/
structure MXN where
  c : BitVec 1
  i : BitVec 7
  b : BitVec 4
  n : BitVec 1
  deriving DecidableEq, Repr

/-- Word layout: ta, tb, accumulator base (Table 3.2, R64, R65). -/
structure MM where
  c : BitVec 1
  a : BitVec 4
  b : BitVec 4
  v : BitVec 7
  deriving DecidableEq, Repr

/-- Word layout: MMAP: ta, tb, acc, LAST, FIRST (Table 3.2, R64, R65). -/
structure MMLF where
  c : BitVec 1
  a : BitVec 4
  b : BitVec 4
  v : BitVec 7
  l : BitVec 1
  f : BitVec 1
  deriving DecidableEq, Repr

/-- Word layout: MDEFER: ta, tb, acc, kind, slot (Table 3.2, R64, R65). -/
structure MMD where
  c : BitVec 1
  a : BitVec 4
  b : BitVec 4
  v : BitVec 7
  y : BitVec 3
  s : BitVec 3
  deriving DecidableEq, Repr

/-- Word layout: MSAVE, MLOAD: ta, acc (Table 3.2, R64, R65). -/
structure MMA1 where
  c : BitVec 1
  a : BitVec 4
  v : BitVec 7
  deriving DecidableEq, Repr

/-- A house-link flit as a gate sees it (R314, R411, Table 17.2a). -/
structure Flit where
  seq : BitVec 32
  ack : BitVec 32
  typ : BitVec 8
  tag : BitVec 16
  pa : BitVec 48
  payload : List Byte
  deriving DecidableEq, Repr

/-- An ATS Translation Completion (R201): a grant (host address, log2 of the page size, write permission), or none. -/
inductive AtsReply where
  | grant (addr : Nat) (log2 : Nat) (w : Bool)
  | noAccess
  | unsupported
  | aborted
  deriving DecidableEq, Repr

/-- A PRG Response (R201). -/
inductive PrgReply where
  | success
  | invalidRequest
  | failure
  deriving DecidableEq, Repr

/-- What the prompter's firmware does with the fault record it serves (R199, R200); the frame number and the page-table
words are the firmware's own choice, which the spec leaves to it. -/
inductive FwAction where
  | firstTouch (frame : Nat)
  | pageIn (ptes : List (Nat × BitVec 64))
  | unserviceable
  deriving DecidableEq, Repr

/-- The address context of a partition as the prompter writes it (Table 10.2). -/
structure AddrContext where
  atroot : BitVec 48 := 0
  heapbase : BitVec 64 := 0
  heaplimit : BitVec 64 := 0
  heapoff : BitVec 64 := 0
  apoff : BitVec 32 := 0
  aplen : BitVec 32 := 0
  pasid : BitVec 20 := 0
  deriving DecidableEq, Repr, Inhabited

/-- An arrival at a stamping gate (R318, Table 17.2): `fn` 0 is the physical function and k + 1 is VF k. -/
inductive Arrival where
  | barWrite (fn bar off : Nat) (data : List Byte)
  | barRead (fn bar off len : Nat)
  | readCompletion (tag : Nat) (data : List Byte)
  | atomicCompletion (tag : Nat) (data : List Byte)
  | atsCompletion (tag : Nat) (r : AtsReply)
  | prgResponse (tag : Nat) (r : PrgReply)
  | atsInvalidate (pasid va log2 : Nat)
  | flit (f : Flit)
  | vaultTemp (vault temp : Nat)
  | coreTemp (core temp : Nat)
  | current (x : Nat)
  | voltage (company mv : Nat)
  | mgmt (code : Nat) (operands : List Byte)
  deriving DecidableEq, Repr

/-- An outbound transaction at an egress gate (R324): what is sent, and its payload. -/
inductive Egress where
  | memWrite (fn : Nat) (pasid : Nat) (addr : Nat) (data : List Byte)
  | memRead (fn : Nat) (pasid : Nat) (addr len tag : Nat)
  | atomic (fn : Nat) (pasid : Nat) (addr : Nat) (op : Nat) (data : List Byte) (tag : Nat)
  | atsRequest (fn : Nat) (pasid : Nat) (va : Nat) (write : Bool) (tag : Nat)
  | prgRequest (fn : Nat) (pasid : Nat) (va : Nat) (write : Bool) (tag : Nat)
  | invalidationCompletion (pasid va : Nat)
  | msix (fn vector : Nat)
  | readReply (fn : Nat) (data : List Byte)
  | unsupportedRequest (fn : Nat)
  | flit (f : Flit)
  | mgmt (data : List Byte)
  deriving DecidableEq, Repr


/-- One constructor per row of spec/opcode_table.json. A word's argument holds exactly the fields that the table gives its row;
the fields that the row fixes at 0 are checked by `decode` (R68, Table 3.5). -/
inductive Instr where
  -- The events come first: Lean compiles only the first 244 constructors that carry data, and the machine itself makes events.
  /-- event WAIT_TIMEOUT: A blocked wait's count exceeds WAITLIMIT and raises WAIT_TIMEOUT. (R60) -/
  | waitTimeout (core : Nat) (slot : Nat) (leader : Nat)
  /-- event TRAP_DELIVERY: Delivers a due trap to its party: enters the handler or kills the cast. (R161) -/
  | trapDelivery (core : Nat) (slot : Nat)
  /-- event BARRIER_RELEASE: Waiters of a completed or killed phase are released 6 cycles after it. (R218) -/
  | barrierRelease (core : Nat)
  /-- event FULL_EMPTY_COMMIT: A blocked full-empty scratchpad access commits when its granules reach the needed state. (R212) -/
  | fullEmptyCommit (core : Nat) (slot : Nat) (leader : Nat)
  /-- event QUEUE_BLOCKED_COMMIT: A blocked QPUSH or QPOP commits once its condition holds. (R297) -/
  | queueBlockedCommit (core : Nat) (slot : Nat) (leader : Nat)
  /-- event RING_WAIT_COMMIT: A blocked RWAIT commits once its slot's phase matches. (R301) -/
  | ringWaitCommit (core : Nat) (slot : Nat) (leader : Nat)
  /-- event SLEEP_END: A slice's SLEEPLEFT reaches 0 and it issues again. (R158) -/
  | sleepEnd (core : Nat) (slot : Nat) (slice : Nat)
  /-- event WAVE_PROMOTION: A wave ready and unstarted for 256 cycles is promoted one class. (R59) -/
  | wavePromotion (core : Nat) (slot : Nat)
  /-- event PROMOTION_END: A promoted wave returns to its cast's class after 4,096 cycles. (R59) -/
  | promotionEnd (core : Nat) (slot : Nat)
  /-- event VXCHG_MATCH: Two matching ready tokens meet and the exchange data moves. (R147) -/
  | vxchgMatch (core : Nat) (slot : Nat) (leader : Nat)
  /-- event VXCHG_COMPLETE: The partner's snapshot lands in d and the blocked party resumes. (R148) -/
  | vxchgComplete (core : Nat) (slot : Nat) (leader : Nat)
  /-- event WAITST_COMPLETE: OUTST reaches 0 and the waiting party continues. (R247) -/
  | waitstComplete (core : Nat) (slot : Nat) (leader : Nat)
  /-- event MWAIT_COMPLETE: The wave's last matrix command completes and MWAIT releases. (R185) -/
  | mwaitComplete (core : Nat) (slot : Nat) (leader : Nat)
  /-- event FENCE_PERFORMED: A fence's conditions hold, including stage replies, and held words issue. (R255) -/
  | fencePerformed (core : Nat) (slot : Nat)
  /-- event ATTACH_WAIT_RETRY: A blocked ATTACH.WAIT is decided again in a later cycle. (R337) -/
  | attachWaitRetry (core : Nat) (slot : Nat)
  /-- event ATTACH_CYCLE_BREAK: The allocator fails one ATTACH.WAIT of a waits-for cycle with status CYCLE. (R338) -/
  | attachCycleBreak (core : Nat)
  /-- event MATRIX_COMMAND_ACCEPT: The array accepts a waiting command through the five-slot rotation. (R181) -/
  | matrixCommandAccept (core : Nat)
  /-- event MATRIX_COMMAND_COMPLETE: A matrix command's last block leaves the chain and its registers become readable. (R183) -/
  | matrixCommandComplete (core : Nat)
  /-- event FOLLOW_SLOT_FIRE: An armed follow slot fires its command after the copy's last landing. (R182) -/
  | followSlotFire (core : Nat) (fslot : Nat)
  /-- event COLLECTIVE_CREATE_RETRY: An arrival blocked for a free collective record creates the collective when one frees. (R279) -/
  | collectiveCreateRetry (core : Nat) (slot : Nat)
  /-- event COLLECTIVE_START: A ready collective starts running in a free running slot. (R279) -/
  | collectiveStart (core : Nat)
  /-- event COPY_REQUEST_RETURN: A copy engine read returns and its elements are gathered and landed. (R287) -/
  | copyRequestReturn (core : Nat) (run : Nat)
  /-- event COPY_FAULT_RESUME: A collective paused on PAGE resumes at the element once translated. (R286) -/
  | copyFaultResume (core : Nat) (rec : Nat)
  /-- event COLLECTIVE_COMPLETE: A collective's landings commit and writes are acknowledged; counter, barrier and status follow. (R289) -/
  | collectiveComplete (core : Nat) (rec : Nat)
  /-- event SLICE_REQUEST: A home slice accepts and applies a request indivisibly in acceptance order. (R238) -/
  | sliceRequest (company : Nat)
  /-- event L2_FILL: A line's data returns from its vault and fills the slice. (R228) -/
  | l2Fill (company : Nat)
  /-- event STORE_ACK: An acknowledgement reaches the core and decrements OUTST. (R231) -/
  | storeAck (core : Nat)
  /-- event LOAD_RETURN: Load data returns to the core and is written to active lanes. (R250) -/
  | loadReturn (core : Nat)
  /-- event FLUSH_MARKER_ARRIVAL: A flush marker reaches a stage's ingress and is recorded in a gather entry. (R260) -/
  | flushMarkerArrival (stage : Nat)
  /-- event GATHER_REPLY: Both markers arrived and earlier requests performed; a reply goes to the source core. (R260) -/
  | gatherReply (stage : Nat)
  /-- event TICKET_RELEASE: Cast TKNEXT has exited or been killed; a release or discard goes to all slices. (R378) -/
  | ticketRelease (entry : Nat)
  /-- event SLICE_RELEASE_APPLY: A slice applies or drops the cast's staged entries and reports. (R378) -/
  | sliceReleaseApply (company : Nat)
  /-- event TICKET_ADVANCE: The last slice report arrives and TKNEXT advances. (R378) -/
  | ticketAdvance (entry : Nat)
  /-- event FAULT_RECORD_SERVICE: The prompter services a fault record in firmware. (R199) -/
  | faultRecordService (act : FwAction)
  /-- event PAGE_RESOLUTION: The page is translated and unfinished lanes are checked again and performed. (R199) -/
  | pageResolution (core : Nat) (slot : Nat)
  /-- event PAGE_WALK: The company walker takes a miss and reads the page tables. (R343) -/
  | pageWalk (company : Nat)
  /-- event WALK_COMPLETE: A walk ends in a translation, PAGE or ACCESS and installs TLB entries. (R345) -/
  | walkComplete (company : Nat)
  /-- event SHOOTDOWN: A prompter shootdown command arrives at a core's translation unit. (R202) -/
  | shootdown (core : Nat) (part : Nat) (va : Nat) (len : Nat)
  /-- event SHOOTDOWN_REMOVAL: Matching TLB entries are removed 32 mesh cycles after arrival. (R202) -/
  | shootdownRemoval (core : Nat)
  /-- event SHOOTDOWN_ACK: Accesses through removed entries have drained; the shootdown is acknowledged. (R202) -/
  | shootdownAck (core : Nat)
  /-- event ATS_TRANSLATION_COMPLETION: An ATS completion arrives, filling TLBs or leading to a page request or ACCESS. (R201) -/
  | atsTranslationCompletion (tag : Nat) (r : AtsReply)
  /-- event PRG_RESPONSE: A PRG Response arrives, leading to a new ATS request or ACCESS. (R201) -/
  | prgResponse (tag : Nat) (r : PrgReply)
  /-- event ATS_INVALIDATE_REQUEST: A host ATS Invalidate Request is stamped at gate 0. (R203) -/
  | atsInvalidateRequest (pasid : Nat) (va : Nat) (log2 : Nat)
  /-- event ATS_INVALIDATE_REMOVAL: Matching ATS entries are removed at stamp plus 64. (R203) -/
  | atsInvalidateRemoval
  /-- event INVALIDATION_COMPLETION: Accesses through removed entries drained; the completion is sent. (R203) -/
  | invalidationCompletion
  /-- event HOST_READ_COMPLETION: A PCIe completion for a host-space load arrives. (R225) -/
  | hostReadCompletion (tag : Nat) (data : List Byte)
  /-- event ATOMICOP_COMPLETION: A PCIe AtomicOp completion returns its old value. (R240) -/
  | atomicopCompletion (tag : Nat) (data : List Byte)
  /-- event HMQ_ENTRY_WRITE: A device or HOSTMSG entry enters the host-message queue when it has room. (R168) -/
  | hmqEntryWrite (part : Nat)
  /-- event CUE_APPEND: The cue unit takes the cycle's cue arrivals in order, appending or refusing each. (R307) -/
  | cueAppend
  /-- event BATCH_FORMATION: A node whose queue reaches threshold, or whose producers retired, forms a batch. (R308) -/
  | batchFormation (part : Nat) (node : Nat)
  /-- event NODE_RETIREMENT: A node whose queue, casts and producers are done retires. (R39) -/
  | nodeRetirement (part : Nat) (node : Nat)
  /-- event DC_UPDATE: Dependence counter decrements and sets arrive and are applied in order. (R381) -/
  | dcUpdate
  /-- event DCWAIT_RELEASE: A blocked DCWAIT is released after its counter reaches 0. (R382) -/
  | dcwaitRelease (core : Nat) (slot : Nat) (leader : Nat)
  /-- event PLACEMENT_PASS: At each tick boundary the prompter places pending casts under admission checks. (R331) -/
  | placementPass
  /-- event LAUNCH: A LAUNCH bind record sets up slots, clears rows, writes the batch and starts waves. (R330) -/
  | launch (core : Nat)
  /-- event RESUME: A RESUME bind record restores a saved context onto a core. (R330) -/
  | resume (core : Nat)
  /-- event PREEMPT: A PREEMPT bind record stops the cast's issue at the first safe point. (R335) -/
  | preempt (core : Nat)
  /-- event CONTEXT_SAVE: Once safe, the core writes the context area, frees resources and reports. (R335) -/
  | contextSave (core : Nat) (cslot : Nat)
  /-- event KILL: A KILL bind record kills the cast. (R330) -/
  | kill (core : Nat)
  /-- event COMPANY_GATING: A company idle 1,250 ticks starts its clock-gating sequence. (R341) -/
  | companyGating (company : Nat)
  /-- event COMPANY_WAKE_END: A gated company's 2 µs wake ends and waiting bind records apply. (R341) -/
  | companyWakeEnd (company : Nat)
  /-- event EPOCH_START: Every 250 ticks counters are snapshot, refresh charged, bids formed and the market cleared. (R352) -/
  | epochStart
  /-- event LEVEL_STEP: At a tick the FLL steps one level or VNOW moves 10 mV toward its target. (R358) -/
  | levelStep (company : Nat)
  /-- event REFRESH_BURST: A refresh burst starts on schedule after a quiet window. (R270) -/
  | refreshBurst (vault : Nat)
  /-- event FROZEN_REFRESH_BURST: While frozen, a burst runs at the class 4 rate outside compared state. (R272) -/
  | frozenRefreshBurst (vault : Nat)
  /-- event VAULT_TURN_START: A partition's 48-cycle vault turn starts, precharging every bank. (R268) -/
  | vaultTurnStart (vault : Nat) (part : Nat)
  /-- event VAULT_REQUEST: A vault controller accepts a request and schedules it. (R268) -/
  | vaultRequest (vault : Nat)
  /-- event RECOVERY_POINT: A recovery point is taken: stop, snapshot, copy counters, empty filters. (R384) -/
  | recoveryPoint (part : Nat)
  /-- event ROLLBACK: An uncorrectable error rolls the partition back to its recovery point. (R386) -/
  | rollback (part : Nat) (unit : Nat)
  /-- event HARDFAIL_FREEZE: After a die-link header failure the package freezes at the next tick. (R387) -/
  | hardfailFreeze
  /-- event DIE_LINK_HEADER_FAILURE: An uncorrectable die-link header is a hard failure of the link. (R313) -/
  | dieLinkHeaderFailure (link : Nat)
  /-- event DIE_LINK_POISON: An uncorrectable die-link data sector is delivered poisoned. (R313) -/
  | dieLinkPoison (link : Nat) (line : Nat) (sector : Nat)
  /-- event BANK_FAILURE: Two failed banks in a group poison the row's granules. (R224) -/
  | bankFailure (core : Nat) (row : Nat) (group : Nat)
  /-- event SLICE_RETIRE_REASSIGN: After the slice drains, its buckets are reassigned and held requests released. (R351) -/
  | sliceRetireReassign (company : Nat)
  /-- event UNDERSTUDY_SWAP: Once all covered cores halt, active and understudy planes are exchanged. (R274) -/
  | understudySwap
  /-- event UNDERSTUDY_SWAP_END: The swap ends and issue resumes at the next tick. (R274) -/
  | understudySwapEnd
  /-- event STOPAT_STOP: The named counter reaches COUNT and the package freezes after edge E. (R368) -/
  | stopatStop
  /-- event POWER_ON_RESET: A power-on, fundamental or conventional reset resets every register, GATEMODE included. (R373) -/
  | powerOnReset (straps : List Nat)
  /-- event FUNCTION_LEVEL_RESET: An FLR of VF k kills partition k's casts and empties its queues. (R317) -/
  | functionLevelReset (part : Nat)
  /-- event GATE_ACCEPT: A stamping gate accepts and stamps an arrival piece, logging it in RECORD. (R318) -/
  | gateAccept (gate : Nat) (a : Arrival)
  /-- event REPLAY_INJECT: In REPLAY a gate injects a logged entry as an acceptance at its cycle. (R323) -/
  | replayInject (gate : Nat)
  /-- event EGRESS_TRANSACTION: An outbound transaction passes an egress gate and is hashed into EGDIG. (R324) -/
  | egressTransaction (gate : Nat) (t : Egress)
  /-- event EGDIGEST: After 1,024 transactions the gate appends or compares an EGDIGEST entry. (R324) -/
  | egdigest (gate : Nat)
  /-- event VAULT_TEMPERATURE_SAMPLE: A stamped vault temperature takes effect in VTEMP. (R269) -/
  | vaultTemperatureSample (vault : Nat) (temp : Nat)
  /-- event CORE_TEMPERATURE_SAMPLE: A stamped core temperature sample takes effect. (R411) -/
  | coreTemperatureSample (core : Nat) (temp : Nat)
  /-- event PACKAGE_CURRENT_SAMPLE: A stamped package current sample takes effect for the clearing. (R361) -/
  | packageCurrentSample (x : Nat)
  /-- event COMPANY_VOLTAGE_SAMPLE: A stamped company voltage sample takes effect. (R411) -/
  | companyVoltageSample (company : Nat) (mv : Nat)
  /-- event HOUSE_FLIT_RECEIVE: A house-link flit arrives at a port's receiver and reorder buffer. (R315) -/
  | houseFlitReceive (port : Nat) (f : Flit) (bad : Bool)
  /-- event HOUSE_RESEND_REQUEST: A receiver asks for one bad sequence number, which the sender resends. (R315) -/
  | houseResendRequest (port : Nat) (seq : Nat)
  /-- event WINDOW_SCRUB: The scrub visits one send-window entry, re-sourcing an uncorrectable one. (R315) -/
  | windowScrub (port : Nat) (bad : Bool)
  /-- event HOUSE_FLIT_DELIVER: The reorder buffer delivers a flit in order to the port's stamping gate. (R316) -/
  | houseFlitDeliver (port : Nat)
  /-- event HOUSE_WRITE: A peer's write flit takes effect. (R411) -/
  | houseWrite (port : Nat) (f : Flit)
  /-- event HOUSE_READ_REQUEST: A peer's read-request flit takes effect. (R411) -/
  | houseReadRequest (port : Nat) (f : Flit)
  /-- event HOUSE_READ_COMPLETION: A read-completion flit from a peer takes effect. (R411) -/
  | houseReadCompletion (port : Nat) (f : Flit)
  /-- event HOUSE_ATOMIC: A peer's atomic flit takes effect. (R411) -/
  | houseAtomic (port : Nat) (f : Flit)
  /-- event HOUSE_ATOMIC_COMPLETION: An atomic-completion flit from a peer takes effect. (R411) -/
  | houseAtomicCompletion (port : Nat) (f : Flit)
  /-- event END_TO_END_ACK: A peer's end-to-end acknowledgement frees the originating queue's copy. (R314) -/
  | endToEndAck (port : Nat) (f : Flit)
  /-- event HOUSE_MANAGEMENT_FLIT: A management flit of the time-alignment exchange takes effect on the prompter. (R376) -/
  | houseManagementFlit (port : Nat) (f : Flit)
  /-- event TIME_SYNC_EXCHANGE: Every 25,000 ticks the leader starts an exchange by sending Sync. (R376) -/
  | timeSyncExchange (port : Nat)
  /-- event HOST_WINDOW_WRITE: A host write to a window register with no row of its own takes effect at a tick boundary. (R91) -/
  | hostWindowWrite (off : Nat) (v : Quad)
  /-- event STATUS_CLEAR: A host write of 1 clears a sticky STATUS bit. (R91) -/
  | statusClear (v : Quad)
  /-- event REPLAYBRK_CLEAR: A host write of 0 clears REPLAYBRK and arms it. (R320) -/
  | replaybrkClear (v : Quad)
  /-- event POWERCAP_WRITE: A POWERCAP write takes effect, clamped to 1,600 W per four stages. (R4) -/
  | powercapWrite (v : Quad)
  /-- event PARTITION_CONFIGURE: A PARTCFG write with a disjoint mask configures a partition. (R340) -/
  | partitionConfigure (k : Nat) (v : Quad) (ctx : AddrContext)
  /-- event PARTITION_SWAP: A PARTCFG write naming a valid partition's mask swaps partitions. (R340) -/
  | partitionSwap (k : Nat) (v : Quad)
  /-- event ORDERED_BIT_WRITE: A write to the ordered bit applies at once or is held pending. (R56) -/
  | orderedBitWrite (k : Nat) (v : Quad)
  /-- event GATEMODE_WRITE: A GATEMODE request takes effect as R55 states. (R55) -/
  | gatemodeWrite (v : Quad)
  /-- event STOPAT_WRITE: An armed STOPAT write takes effect, or sets STOPLATE. (R367) -/
  | stopatWrite (v : Quad)
  /-- event LOGTAIL_WRITE: A host write advances LOGTAIL of a gate's ring. (R319) -/
  | logtailWrite (g : Nat) (v : Quad)
  /-- event HMQTAIL_WRITE: A host write of HMQTAIL frees queue entries or is ignored. (R167) -/
  | hmqtailWrite (k : Nat) (v : Quad)
  /-- event HMQSIZE_WRITE: A host write of HMQSIZE enables or disables the queue, flushing buffered entries. (R168) -/
  | hmqsizeWrite (k : Nat) (v : Quad)
  /-- event TAKE: TABCTL TAKE captures a tableau of the frozen package. (R371) -/
  | take
  /-- event RESTORE: TABCTL RESTORE checks and writes a tableau image. (R372) -/
  | restore
  /-- event THAW: TABCTL THAW runs the preamble and resumes the run. (R372) -/
  | thaw
  /-- event FREEZE: TABCTL FREEZE freezes at the tick boundary of the write. (R371) -/
  | freeze
  /-- event RESET: TABCTL RESET holds a reset at RTICK 0, keeping the R367 registers and the service region. (R373) -/
  | reset
  /-- event TABLEAU_OPERATION_END: A tableau operation finishes; BUSY and OP clear. (R371) -/
  | tableauOperationEnd
  /-- event NODE_COMMIT: A CTRL write with VALID 1 commits a node entry. (R327) -/
  | nodeCommit (k : Nat) (node : Nat) (v : Quad)
  /-- event NODE_WITHDRAW: A CTRL write with VALID 0 withdraws a node that is not open. (R327) -/
  | nodeWithdraw (k : Nat) (node : Nat)
  /-- event NODE_ENTRY_WRITE: A host write to other bytes of a node entry, applied or ignored. (R327) -/
  | nodeEntryWrite (k : Nat) (node : Nat) (off : Nat) (v : Quad)
  /-- event CUE_PUSH: A host posted write appends a record to a root node or is refused. (R309) -/
  | cuePush (k : Nat) (node : Nat) (data : List Byte)
  /-- event CUE_CLOSE: A host close write sets CLOSED of a root node. (R309) -/
  | cueClose (k : Nat) (node : Nat) (v : Quad)
  /-- event NODERC_CLEAR: A host write sets a node's NODERC to 0. (R363) -/
  | nodercClear (k : Nat) (node : Nat)
  /-- event ERROR_COUNTER_CLEAR: A host write sets an error counter to 0. (R388) -/
  | errorCounterClear (idx : Nat)
  /-- event SERVICE_REGION_ACCESS: A BAR 4 access reaches the service region directly, unstamped. (R321) -/
  | serviceRegionAccess (off : Nat) (len : Nat) (data : List Byte)
  /-- event HOST_KILL: Management command 0x01 has the prompter kill a cast. (R330) -/
  | hostKill (part : Nat) (castid : Nat)
  /-- event RETIRE_SLICE: Management command 0x02 starts retirement of an L2 slice. (R351) -/
  | retireSlice (stage : Nat) (company : Nat)
  /-- event WINDOW_WRITE: Management command 0x03 writes a host-window register. (R411) -/
  | windowWrite (off : Nat) (v : Quad)
  /-- event WINDOW_READ: Management command 0x04 returns a window register through management egress. (R411) -/
  | windowRead (off : Nat)
  /-- event CUEEMIT_ANSWER: The cue unit's status answer reaches the emitting core 2 × (40 + 4h + 48d) + 1 mesh cycles after the send, writes s[d] and lets the waiting wave continue. (R306) -/
  | cueemitAnswer (core : Nat) (slot : Nat) (leader : Nat)
  /-- event REFRESH_BURST_END: A refresh burst ends 60 vault cycles after it starts, leaving every bank closed, and the requests held during the quiet window and the burst are scheduled in acceptance order. (R270) -/
  | refreshBurstEnd (vault : Nat)
  /-- event ARRIVAL_JOURNAL_INJECT: During re-execution after a rollback, an arrival from the partition's arrival journal is injected at its stamp plus 64Δ mesh cycles. (R386) -/
  | arrivalJournalInject (part : Nat)
  /-- VADD: Adds two vector registers lane by lane, wrapping modulo 2^32. (R114) -/
  | vadd (w : VR)
  /-- VSUB: Subtracts vector registers lane by lane, wrapping. (R114) -/
  | vsub (w : VR)
  /-- VMUL: Writes the low 32 bits of each lane's product. (R114) -/
  | vmul (w : VR)
  /-- VMULH: Writes the high 32 bits of each lane's signed product. (R114) -/
  | vmulh (w : VR)
  /-- VMULHU: Writes the high 32 bits of each lane's unsigned product. (R114) -/
  | vmulhu (w : VR)
  /-- VMAD: Multiplies two lanes and adds the destination, keeping the low 32 bits. (R114) -/
  | vmad (w : VR)
  /-- VMIN: Writes the signed minimum of two lanes. (R114) -/
  | vmin (w : VR)
  /-- VMAX: Writes the signed maximum of two lanes. (R114) -/
  | vmax (w : VR)
  /-- VMINU: Writes the unsigned minimum of two lanes. (R114) -/
  | vminu (w : VR)
  /-- VMAXU: Writes the unsigned maximum of two lanes. (R114) -/
  | vmaxu (w : VR)
  /-- VADDS: Adds two lanes as signed values, saturating to the I32 range. (R114) -/
  | vadds (w : VR)
  /-- VSUBS: Subtracts two lanes as signed values, saturating to the I32 range. (R114) -/
  | vsubs (w : VR)
  /-- VDIV: Signed per-lane quotient through the bay's divide unit. (R114) -/
  | vdiv (w : VR)
  /-- VDIVU: Unsigned per-lane quotient through the divide unit. (R114) -/
  | vdivu (w : VR)
  /-- VREM: Signed per-lane remainder through the divide unit. (R114) -/
  | vrem (w : VR)
  /-- VREMU: Unsigned per-lane remainder through the divide unit. (R114) -/
  | vremu (w : VR)
  /-- VAND: Bitwise AND of two lanes. (R115) -/
  | vand (w : VR)
  /-- VOR: Bitwise OR of two lanes. (R115) -/
  | vor (w : VR)
  /-- VXOR: Bitwise exclusive OR of two lanes. (R115) -/
  | vxor (w : VR)
  /-- VANDN: Bitwise AND of a with NOT b. (R115) -/
  | vandn (w : VR)
  /-- VSHL: Shifts each lane left by bits 4:0 of b. (R115) -/
  | vshl (w : VR)
  /-- VSHR: Shifts each lane right, shifting in zeros. (R115) -/
  | vshr (w : VR)
  /-- VSRA: Shifts each lane right, shifting in copies of bit 31. (R115) -/
  | vsra (w : VR)
  /-- VROL: Rotates the bits of each lane left. (R115) -/
  | vrol (w : VR)
  /-- VPOPC: Counts the 1 bits of each lane. (R115) -/
  | vpopc (w : VR1)
  /-- VCLZ: Counts the leading zero bits of each lane. (R115) -/
  | vclz (w : VR1)
  /-- VBREV: Reverses the bit order of each lane. (R115) -/
  | vbrev (w : VR1)
  /-- VADD64: Adds register pairs modulo 2^64. (R115) -/
  | vadd64 (w : VR)
  /-- VSUB64: Subtracts register pairs modulo 2^64. (R115) -/
  | vsub64 (w : VR)
  /-- VMULW: Writes the full 64-bit signed product into a pair. (R115) -/
  | vmulw (w : VR)
  /-- VSHL64: Shifts a register pair left by bits 5:0 of b. (R115) -/
  | vshl64 (w : VR)
  /-- VSHR64: Shifts a register pair right, shifting in zeros. (R115) -/
  | vshr64 (w : VR)
  /-- VCMP_I32_EQ: Sets or combines pd with a = b on I32 lanes. (R121) -/
  | vcmpI32Eq (w : VP)
  /-- VCMP_I32_NE: Sets or combines pd with a ≠ b on I32 lanes. (R121) -/
  | vcmpI32Ne (w : VP)
  /-- VCMP_I32_LT: Sets or combines pd with signed a < b. (R121) -/
  | vcmpI32Lt (w : VP)
  /-- VCMP_I32_LE: Sets or combines pd with signed a ≤ b. (R121) -/
  | vcmpI32Le (w : VP)
  /-- VCMP_I32_LTU: Sets or combines pd with unsigned a < b. (R121) -/
  | vcmpI32Ltu (w : VP)
  /-- VCMP_I32_LEU: Sets or combines pd with unsigned a ≤ b. (R121) -/
  | vcmpI32Leu (w : VP)
  /-- VCMP_I32_EQZ: Sets or combines pd with a = 0. (R121) -/
  | vcmpI32Eqz (w : VP1)
  /-- VCMP_I32_NEZ: Sets or combines pd with a ≠ 0. (R121) -/
  | vcmpI32Nez (w : VP1)
  /-- VCMP_I64_EQ: Sets or combines pd with a = b on I64 pairs. (R121) -/
  | vcmpI64Eq (w : VP)
  /-- VCMP_I64_NE: Sets or combines pd with a ≠ b on I64 pairs. (R121) -/
  | vcmpI64Ne (w : VP)
  /-- VCMP_I64_LT: Sets or combines pd with signed a < b on pairs. (R121) -/
  | vcmpI64Lt (w : VP)
  /-- VCMP_I64_LE: Sets or combines pd with signed a ≤ b on pairs. (R121) -/
  | vcmpI64Le (w : VP)
  /-- VCMP_I64_LTU: Sets or combines pd with unsigned a < b on pairs. (R121) -/
  | vcmpI64Ltu (w : VP)
  /-- VCMP_I64_LEU: Sets or combines pd with unsigned a ≤ b on pairs. (R121) -/
  | vcmpI64Leu (w : VP)
  /-- VCMP_I64_EQZ: Sets or combines pd with a pair equal to 0. (R121) -/
  | vcmpI64Eqz (w : VP1)
  /-- VCMP_I64_NEZ: Sets or combines pd with a pair not equal to 0. (R121) -/
  | vcmpI64Nez (w : VP1)
  /-- VCMP_F32_EQ: Sets or combines pd with ordered F32 equality. (R141) -/
  | vcmpF32Eq (w : VP)
  /-- VCMP_F32_LT: Sets or combines pd with ordered F32 a < b. (R141) -/
  | vcmpF32Lt (w : VP)
  /-- VCMP_F32_LE: Sets or combines pd with ordered F32 a ≤ b. (R141) -/
  | vcmpF32Le (w : VP)
  /-- VCMP_F32_NE: Sets or combines pd with F32 a ≠ b or unordered. (R141) -/
  | vcmpF32Ne (w : VP)
  /-- VCMP_F32_UN: Sets or combines pd when either F32 operand is NaN. (R141) -/
  | vcmpF32Un (w : VP)
  /-- VCMP_F32_ORD: Sets or combines pd when neither F32 operand is NaN. (R141) -/
  | vcmpF32Ord (w : VP)
  /-- VCMP_F32_ISNAN: Sets or combines pd when the F32 operand is NaN. (R141) -/
  | vcmpF32Isnan (w : VP1)
  /-- VCMP_F32_ISINF: Sets or combines pd when the F32 operand is infinite. (R141) -/
  | vcmpF32Isinf (w : VP1)
  /-- VCMP_F64_EQ: Sets or combines pd with ordered F64 equality. (R141) -/
  | vcmpF64Eq (w : VP)
  /-- VCMP_F64_LT: Sets or combines pd with ordered F64 a < b. (R141) -/
  | vcmpF64Lt (w : VP)
  /-- VCMP_F64_LE: Sets or combines pd with ordered F64 a ≤ b. (R141) -/
  | vcmpF64Le (w : VP)
  /-- VCMP_F64_NE: Sets or combines pd with F64 a ≠ b or unordered. (R141) -/
  | vcmpF64Ne (w : VP)
  /-- VCMP_F64_UN: Sets or combines pd when either F64 operand is NaN. (R141) -/
  | vcmpF64Un (w : VP)
  /-- VCMP_F64_ORD: Sets or combines pd when neither F64 operand is NaN. (R141) -/
  | vcmpF64Ord (w : VP)
  /-- VCMP_F64_ISNAN: Sets or combines pd when the F64 operand is NaN. (R141) -/
  | vcmpF64Isnan (w : VP1)
  /-- VCMP_F64_ISINF: Sets or combines pd when the F64 operand is infinite. (R141) -/
  | vcmpF64Isinf (w : VP1)
  /-- FADD: F32 add rounded to nearest even. (R130) -/
  | fadd (w : VR)
  /-- FSUB: F32 subtract rounded to nearest even. (R130) -/
  | fsub (w : VR)
  /-- FMUL: F32 multiply rounded to nearest even. (R130) -/
  | fmul (w : VR)
  /-- FMAC: Fused F32 a × b + d with one rounding. (R131) -/
  | fmac (w : VR)
  /-- FNMAC: Fused F32 d − a × b with one rounding. (R131) -/
  | fnmac (w : VR)
  /-- FMIN: F32 minimum under the total order of R104. (R104) -/
  | fmin (w : VR)
  /-- FMAX: F32 maximum under the total order of R104. (R104) -/
  | fmax (w : VR)
  /-- FDIV: F32 divide through the bay's divide unit. (R130) -/
  | fdiv (w : VR)
  /-- FSQRT: F32 square root through the divide unit. (R131) -/
  | fsqrt (w : VR1)
  /-- FRCPE: Exact 12-bit reciprocal estimate of an F32. (R132) -/
  | frcpe (w : VR1)
  /-- FRSQE: Exact 12-bit reciprocal square-root estimate of an F32. (R132) -/
  | frsqe (w : VR1)
  /-- FSGNJ: Copies a with the sign bit of b. (R130) -/
  | fsgnj (w : VR)
  /-- FSGNJN: Copies a with the inverted sign bit of b. (R130) -/
  | fsgnjn (w : VR)
  /-- FSGNJX: Copies a with the XOR of both sign bits. (R130) -/
  | fsgnjx (w : VR)
  /-- FCLASS: Writes a one-hot class mask of an F32. (R133) -/
  | fclass (w : VR1)
  /-- FSCALE: Multiplies an F32 by 2 to a signed integer power, rounding once. (R134) -/
  | fscale (w : VR)
  /-- DADD: F64 add on register pairs. (R135) -/
  | dadd (w : VR)
  /-- DSUB: F64 subtract on register pairs. (R135) -/
  | dsub (w : VR)
  /-- DMUL: F64 multiply on register pairs. (R135) -/
  | dmul (w : VR)
  /-- DMAC: Fused F64 multiply-add on pairs. (R135) -/
  | dmac (w : VR)
  /-- DNMAC: Fused F64 d − a × b on pairs. (R135) -/
  | dnmac (w : VR)
  /-- DMIN: F64 minimum on pairs. (R135) -/
  | dmin (w : VR)
  /-- DMAX: F64 maximum on pairs. (R135) -/
  | dmax (w : VR)
  /-- DDIV: F64 divide through the divide unit. (R135) -/
  | ddiv (w : VR)
  /-- DSQRT: F64 square root through the divide unit. (R135) -/
  | dsqrt (w : VR1)
  /-- DRCPE: Exact 12-bit reciprocal estimate in F64. (R135) -/
  | drcpe (w : VR1)
  /-- DRSQE: Exact 12-bit reciprocal square-root estimate in F64. (R135) -/
  | drsqe (w : VR1)
  /-- DSGNJ: Copies a pair with the sign of b. (R135) -/
  | dsgnj (w : VR)
  /-- DSGNJN: Copies a pair with the inverted sign of b. (R135) -/
  | dsgnjn (w : VR)
  /-- DSGNJX: Copies a pair with the XOR of both signs. (R135) -/
  | dsgnjx (w : VR)
  /-- DCLASS: Writes the class mask of an F64 to the even register. (R135) -/
  | dclass (w : VR1)
  /-- DSCALE: Scales an F64 pair by 2 to an I32 power. (R135) -/
  | dscale (w : VR)
  /-- HADD2: Adds two packed F16 halves per lane. (R136) -/
  | hadd2 (w : VR)
  /-- HSUB2: Subtracts two packed F16 halves per lane. (R136) -/
  | hsub2 (w : VR)
  /-- HMUL2: Multiplies two packed F16 halves per lane. (R136) -/
  | hmul2 (w : VR)
  /-- HMAC2: Fused packed F16 multiply-add. (R136) -/
  | hmac2 (w : VR)
  /-- HMIN2: Packed F16 minimum. (R136) -/
  | hmin2 (w : VR)
  /-- HMAX2: Packed F16 maximum. (R136) -/
  | hmax2 (w : VR)
  /-- BADD2: Adds two packed BF16 halves per lane. (R136) -/
  | badd2 (w : VR)
  /-- BSUB2: Subtracts two packed BF16 halves per lane. (R136) -/
  | bsub2 (w : VR)
  /-- BMUL2: Multiplies two packed BF16 halves per lane. (R136) -/
  | bmul2 (w : VR)
  /-- BMAC2: Fused packed BF16 multiply-add. (R136) -/
  | bmac2 (w : VR)
  /-- BMIN2: Packed BF16 minimum. (R136) -/
  | bmin2 (w : VR)
  /-- BMAX2: Packed BF16 maximum. (R136) -/
  | bmax2 (w : VR)
  /-- HDOT2: Sequential F16 dot of two elements into an F32 start value. (R137) -/
  | hdot2 (w : VR)
  /-- BDOT2: Sequential BF16 dot of two elements into an F32 start value. (R137) -/
  | bdot2 (w : VR)
  /-- QDOT4: Sequential E4M3 dot of four elements into an F32 start value. (R137) -/
  | qdot4 (w : VR)
  /-- IDOT4: I8 dot of four elements into an I32 start value. (R137) -/
  | idot4 (w : VR)
  /-- VCVT_F32_I32: Converts I32 to F32 under rm. (R138) -/
  | vcvtF32I32 (w : VCRS)
  /-- VCVT_F32_U32: Converts U32 to F32 under rm. (R138) -/
  | vcvtF32U32 (w : VCRS)
  /-- VCVT_I32_F32: Converts F32 to I32 under rm, clamping with NV. (R138) -/
  | vcvtI32F32 (w : VCR)
  /-- VCVT_U32_F32: Converts F32 to U32 under rm. (R138) -/
  | vcvtU32F32 (w : VCR)
  /-- VCVT_F32_F64: Converts an F64 pair to F32 under rm. (R138) -/
  | vcvtF32F64 (w : VCRS)
  /-- VCVT_F64_F32: Converts F32 exactly to an F64 pair. (R138) -/
  | vcvtF64F32 (w : VR1)
  /-- VCVT_F64_I32: Converts I32 exactly to an F64 pair. (R138) -/
  | vcvtF64I32 (w : VR1)
  /-- VCVT_F64_U32: Converts U32 exactly to an F64 pair. (R138) -/
  | vcvtF64U32 (w : VR1)
  /-- VCVT_I32_F64: Converts an F64 pair to I32 under rm. (R138) -/
  | vcvtI32F64 (w : VCR)
  /-- VCVT_U32_F64: Converts an F64 pair to U32 under rm. (R138) -/
  | vcvtU32F64 (w : VCR)
  /-- VCVT_F64_I64: Converts an I64 pair to an F64 pair under rm. (R138) -/
  | vcvtF64I64 (w : VCRS)
  /-- VCVT_I64_F64: Converts an F64 pair to an I64 pair under rm. (R138) -/
  | vcvtI64F64 (w : VCR)
  /-- VCVT_F32_I64: Converts an I64 pair to F32 under rm. (R138) -/
  | vcvtF32I64 (w : VCRS)
  /-- VCVT_I64_F32: Converts F32 to an I64 pair under rm. (R138) -/
  | vcvtI64F32 (w : VCR)
  /-- FRINT: Rounds an F32 to an integral F32 under rm. (R140) -/
  | frint (w : VCR)
  /-- DRINT: Rounds an F64 pair to an integral F64 under rm. (R140) -/
  | drint (w : VCR)
  /-- VCVT_F16_F32: Rounds F32 to F16 and merges it into half k of d. (R139) -/
  | vcvtF16F32 (w : VCRSH)
  /-- VCVT_F32_F16: Converts half k of a from F16 exactly to F32. (R138) -/
  | vcvtF32F16 (w : VCH)
  /-- VCVT_BF16_F32: Rounds F32 to BF16 and merges it into half k of d. (R139) -/
  | vcvtBf16F32 (w : VCRSH)
  /-- VCVT_F32_BF16: Converts half k of a from BF16 exactly to F32. (R138) -/
  | vcvtF32Bf16 (w : VCH)
  /-- VCVT_E4M3_F32: Rounds F32 to E4M3 and merges it into byte k of d. (R139) -/
  | vcvtE4m3F32 (w : VCJRS)
  /-- VCVT_E5M2_F32: Rounds F32 to E5M2 and merges it into byte k of d. (R139) -/
  | vcvtE5m2F32 (w : VCJRS)
  /-- VCVT_F32_E4M3: Converts byte k of a from E4M3 exactly to F32. (R138) -/
  | vcvtF32E4m3 (w : VCJ)
  /-- VCVT_F32_E5M2: Converts byte k of a from E5M2 exactly to F32. (R138) -/
  | vcvtF32E5m2 (w : VCJ)
  /-- VCVT_F16_E4M3: Converts two E4M3 bytes exactly to two F16 halves. (R138) -/
  | vcvtF16E4m3 (w : VCH)
  /-- VCVT_F16_E5M2: Converts two E5M2 bytes exactly to two F16 halves. (R138) -/
  | vcvtF16E5m2 (w : VCH)
  /-- VPERM: Each lane reads the snapshot lane named by its b element. (R142) -/
  | vperm (w : VR)
  /-- VBCL: Broadcasts one snapshot lane named by a scalar. (R142) -/
  | vbcl (w : VR)
  /-- VROTL: Rotates the lanes of a register by a scalar amount. (R142) -/
  | vrotl (w : VR)
  /-- VXORL: Reads the snapshot lane j XOR n. (R142) -/
  | vxorl (w : VR)
  /-- VUPL: Shifts lanes up by n, keeping d below n. (R142) -/
  | vupl (w : VR)
  /-- VDNL: Shifts lanes down by n, keeping d past the end. (R142) -/
  | vdnl (w : VR)
  /-- IREDADD: Writes the wrapping I32 sum of the party's active lanes to each of them. (R143) -/
  | iredadd (w : VR1)
  /-- IREDMIN: Writes the signed I32 minimum of the active lanes. (R143) -/
  | iredmin (w : VR1)
  /-- IREDMAX: Writes the signed I32 maximum of the active lanes. (R143) -/
  | iredmax (w : VR1)
  /-- FREDADD: Writes the fixed-tree F32 sum of the active lanes. (R109) -/
  | fredadd (w : VR1)
  /-- FREDMIN: Writes the fixed-tree F32 minimum of the active lanes. (R109) -/
  | fredmin (w : VR1)
  /-- FREDMAX: Writes the fixed-tree F32 maximum of the active lanes. (R109) -/
  | fredmax (w : VR1)
  /-- ISCAN: Inclusive wrapping I32 scan over the active lanes. (R110) -/
  | iscan (w : VR1)
  /-- FSCAN: Inclusive sequential F32 scan over the active lanes. (R110) -/
  | fscan (w : VR1)
  /-- VCOMPACT: Packs the lanes selected by a predicate into the lowest active lanes. (R144) -/
  | vcompact (w : VRP)
  /-- VXCHG: Checks the partner and sends a ready token to exchange va with a partner wave. (R145) -/
  | vxchg (w : R3)
  /-- VADDI: Adds a signed 7-bit immediate to each lane. (R116) -/
  | vaddi (w : VI)
  /-- VMULI: Multiplies each lane by a signed immediate. (R116) -/
  | vmuli (w : VI)
  /-- VANDI: ANDs each lane with a signed immediate. (R116) -/
  | vandi (w : VI)
  /-- VORI: ORs each lane with a signed immediate. (R116) -/
  | vori (w : VI)
  /-- VXORI: XORs each lane with a signed immediate. (R116) -/
  | vxori (w : VI)
  /-- VSHLI: Shifts each lane left by an immediate. (R116) -/
  | vshli (w : VI)
  /-- VSHRI: Shifts each lane right by an immediate, zeros in. (R116) -/
  | vshri (w : VI)
  /-- VSRAI: Shifts each lane right arithmetically by an immediate. (R116) -/
  | vsrai (w : VI)
  /-- VMINI: Signed minimum of each lane and an immediate. (R116) -/
  | vmini (w : VI)
  /-- VMAXI: Signed maximum of each lane and an immediate. (R116) -/
  | vmaxi (w : VI)
  /-- VSHL64I: Shifts a pair left by an immediate. (R116) -/
  | vshl64i (w : VI)
  /-- VSHR64I: Shifts a pair right by an immediate. (R116) -/
  | vshr64i (w : VI)
  /-- VSPLATI: Writes a signed immediate to every active lane. (R116) -/
  | vsplati (w : VI0)
  /-- VIOTA: Writes lane number plus an immediate to each lane. (R116) -/
  | viota (w : VI0)
  /-- VMOV: Copies a vector register. (R117) -/
  | vmov (w : VR1)
  /-- VBCS: Broadcasts the low 32 bits of a scalar to each lane. (R117) -/
  | vbcs (w : VR1)
  /-- VGETL: Reads one lane of a vector register into a scalar. (R118) -/
  | vgetl (w : VR)
  /-- VSETL: Writes a scalar into one lane of a vector register. (R118) -/
  | vsetl (w : VR)
  /-- VMOVXR: Reads the vector register whose number a scalar holds. (R119) -/
  | vmovxr (w : VR1)
  /-- VMOVXW: Writes the vector register whose number a scalar holds. (R119) -/
  | vmovxw (w : VR1)
  /-- VLANE: Writes each lane's number and active rank. (R120) -/
  | vlane (w : VR0)
  /-- VSEL: Selects a or b per lane by a predicate. (R117) -/
  | vsel (w : VRS)
  /-- PAND: ANDs two predicates into pd. (R122) -/
  | pand (w : PR3)
  /-- POR: ORs two predicates into pd. (R122) -/
  | por (w : PR3)
  /-- PXOR: XORs two predicates into pd. (R122) -/
  | pxor (w : PR3)
  /-- PANDN: ANDs pa with NOT pb into pd. (R122) -/
  | pandn (w : PR3)
  /-- PNOT: Inverts a predicate into pd. (R122) -/
  | pnot (w : PR2)
  /-- PSET: Sets pd in every active lane. (R122) -/
  | pset (w : PR1)
  /-- PCLR: Clears pd in every active lane. (R122) -/
  | pclr (w : PR1)
  /-- PFROMS: Loads pd from a 128-bit scalar pair. (R122) -/
  | pfroms (w : PRDS)
  /-- PTOS: Writes a predicate mask into a scalar pair. (R122) -/
  | ptos (w : PRAS)
  /-- PEXEC: Narrows the active mask of the issuing slices by a predicate. (R123) -/
  | pexec (w : PRA)
  /-- PCOUNT: Counts the active lanes whose predicate is set. (R122) -/
  | pcount (w : PRAS)
  /-- SADD: 64-bit scalar add. (R124) -/
  | sadd (w : VR)
  /-- SSUB: 64-bit scalar subtract. (R124) -/
  | ssub (w : VR)
  /-- SMUL: Low 64 bits of a scalar product. (R124) -/
  | smul (w : VR)
  /-- SMULHU: High 64 bits of an unsigned scalar product. (R124) -/
  | smulhu (w : VR)
  /-- SDIV: Signed scalar quotient through the divide unit. (R124) -/
  | sdiv (w : VR)
  /-- SDIVU: Unsigned scalar quotient through the divide unit. (R124) -/
  | sdivu (w : VR)
  /-- SREM: Signed scalar remainder. (R124) -/
  | srem (w : VR)
  /-- SREMU: Unsigned scalar remainder. (R124) -/
  | sremu (w : VR)
  /-- SAND: Scalar bitwise AND. (R124) -/
  | sand (w : VR)
  /-- SOR: Scalar bitwise OR. (R124) -/
  | sor (w : VR)
  /-- SXOR: Scalar bitwise XOR. (R124) -/
  | sxor (w : VR)
  /-- SSHL: Scalar shift left. (R124) -/
  | sshl (w : VR)
  /-- SSHR: Scalar logical shift right. (R124) -/
  | sshr (w : VR)
  /-- SSRA: Scalar arithmetic shift right. (R124) -/
  | ssra (w : VR)
  /-- SSLT: Writes 1 if s[a] < s[b] signed. (R124) -/
  | sslt (w : VR)
  /-- SSLTU: Writes 1 if s[a] < s[b] unsigned. (R124) -/
  | ssltu (w : VR)
  /-- SADDI: Adds a signed 8-bit immediate to a scalar. (R125) -/
  | saddi (w : SI)
  /-- SANDI: ANDs a scalar with a signed immediate. (R125) -/
  | sandi (w : SI)
  /-- SORI: ORs a scalar with a signed immediate. (R125) -/
  | sori (w : SI)
  /-- SXORI: XORs a scalar with a signed immediate. (R125) -/
  | sxori (w : SI)
  /-- SSHLI: Shifts a scalar left by an immediate. (R125) -/
  | sshli (w : SI)
  /-- SSHRI: Shifts a scalar right logically by an immediate. (R125) -/
  | sshri (w : SI)
  /-- SSRAI: Shifts a scalar right arithmetically by an immediate. (R125) -/
  | ssrai (w : SI)
  /-- SSLTI: Writes 1 if a scalar is below a signed immediate. (R125) -/
  | sslti (w : SI)
  /-- SLI: Sets a scalar to a sign-extended 17-bit immediate. (R126) -/
  | sli (w : SKK)
  /-- SHI: Shifts a scalar left 17 and ORs in an immediate. (R126) -/
  | shi (w : SKN)
  /-- MOVC: Reads a control register into a scalar. (R127) -/
  | movc (w : CTK)
  /-- MOVCW: Writes a scalar into a writable control register. (R128) -/
  | movcw (w : CTN)
  /-- TDESC: Checks a descriptor value and writes it into a tile register. (R171) -/
  | tdesc (w : CTT)
  /-- TDESCR: Reads a tile register into a scalar. (R170) -/
  | tdescr (w : CTT)
  /-- PERFREQ: Records the cast's requested power level for the epoch. (R359) -/
  | perfreq (w : S1)
  /-- B: Branches the issuing slices to a relative target. (R152) -/
  | b (w : BJ)
  /-- BL: Writes the return address to s63 and branches. (R152) -/
  | bl (w : BJ)
  /-- BS_EQ: Branches if two scalars are equal. (R152) -/
  | bsEq (w : BC)
  /-- BS_NE: Branches if two scalars differ. (R152) -/
  | bsNe (w : BC)
  /-- BS_LT: Branches if s[sa] < s[sb] signed. (R152) -/
  | bsLt (w : BC)
  /-- BS_GE: Branches if s[sa] ≥ s[sb] signed. (R152) -/
  | bsGe (w : BC)
  /-- BS_LTU: Branches if s[sa] < s[sb] unsigned. (R152) -/
  | bsLtu (w : BC)
  /-- BS_GEU: Branches if s[sa] ≥ s[sb] unsigned. (R152) -/
  | bsGeu (w : BC)
  /-- BS_Z: Branches if a scalar is zero. (R152) -/
  | bsZ (w : BC1)
  /-- BS_NZ: Branches if a scalar is non-zero. (R152) -/
  | bsNz (w : BC1)
  /-- BP_SPLIT: Splits slices and lanes by a predicate, pushing reconvergence entries and parting the party. (R154) -/
  | bpSplit (w : BQ)
  /-- BP_ALL: Branches all issuing slices if every active lane's predicate is set. (R153) -/
  | bpAll (w : BQ)
  /-- BP_ANY: Branches all issuing slices if any active lane's predicate is set. (R153) -/
  | bpAny (w : BQ)
  /-- BP_UNI: Branches on a uniform predicate, raising DIVERGE otherwise. (R153) -/
  | bpUni (w : BQ)
  /-- JR: Jumps to the address held in a scalar. (R155) -/
  | jr (w : S1)
  /-- JLR: Links into s63 and jumps to a scalar address. (R155) -/
  | jlr (w : S1)
  /-- JOIN: Pops the reconvergence stack of each issuing slice. (R156) -/
  | join (w : C0)
  /-- REGANG_ALL: Blocks the party until every party of the wave reaches this REGANG.ALL, then unites them. (R157) -/
  | regangAll (w : C0)
  /-- REGANG_ANY: Unites with every party of the wave at the same counter without waiting. (R157) -/
  | regangAny (w : C0)
  /-- YIELD: Ends the wave's promotion and puts it last in its class rotation. (R158) -/
  | yield (w : C0)
  /-- EXIT: Ends the issuing slices; the wave ends when no slice is live. (R159) -/
  | exit (w : C0)
  /-- NOP: Does nothing. (R155) -/
  | nop (w : C0)
  /-- SLEEP: Puts the issuing slices to sleep for 16 × imm company cycles. (R158) -/
  | sleep (w : FI)
  /-- TRAP: Performs the chain, then raises SOFTWARE. (R164) -/
  | trap (w : S1)
  /-- TRET: Returns from a trap handler, restoring the mask and leaving handler mode unless H is set. (R165) -/
  | tret (w : FH)
  /-- BRK: Performs the chain, then raises BREAK. (R164) -/
  | brk (w : FI)
  /-- HOSTMSG: Waits for stores and queue room, then posts a message to the host-message queue. (R166) -/
  | hostmsg (w : FSI)
  /-- CKPT: Requests a recovery point when RECOV is set. (R370) -/
  | ckpt (w : C0)
  /-- STOPNOW: Freezes the package at the end of its issue cycle when STOPEN is set. (R370) -/
  | stopnow (w : FI)
  /-- ATTACH_TRY: Requests new waves for the cast, answered once by the register allocator. (R337) -/
  | attachTry (w : R3)
  /-- ATTACH_WAIT: Requests new waves, blocking and retrying until registers are free. (R337) -/
  | attachWait (w : R3)
  /-- DETACH: Ends the issuing wave and removes it from the cast's membership. (R339) -/
  | detach (w : C0)
  /-- BINIT: Initialises a barrier object in a scratchpad granule. (R216) -/
  | binit (w : RAB)
  /-- BARRIVE: Records or holds an arrival at a barrier without waiting. (R217) -/
  | barrive (w : R2)
  /-- BWAIT: Waits until the named barrier phase has completed. (R218) -/
  | bwait (w : R3)
  /-- BSYNC: Arrives at a barrier and waits for that phase. (R218) -/
  | bsync (w : R2)
  /-- BKILL: Kills a barrier, releasing or ending its waiters. (R221) -/
  | bkill (w : RA)
  /-- BQUERY: Reads a barrier object into a scalar pair. (R215) -/
  | bquery (w : R2)
  /-- LDS: Loads from the scratchpad, optionally waiting on full-empty state. (R210) -/
  | lds (w : MS)
  /-- STS: Stores to the scratchpad, optionally setting or waiting on full-empty state. (R210) -/
  | sts (w : MS)
  /-- LDC: Contiguous global load of one footprint. (R232) -/
  | ldc (w : MC)
  /-- STC: Contiguous global store of one footprint. (R232) -/
  | stc (w : MC)
  /-- LDG: Global gather load through per-lane indices. (R233) -/
  | ldg (w : MG)
  /-- STG: Global scatter store through per-lane indices. (R233) -/
  | stg (w : MG)
  /-- AMADD: Aggregated atomic add at the home slice. (R237) -/
  | amadd (w : AT)
  /-- AMSMIN: Aggregated atomic signed minimum. (R237) -/
  | amsmin (w : AT)
  /-- AMSMAX: Aggregated atomic signed maximum. (R237) -/
  | amsmax (w : AT)
  /-- AMUMIN: Aggregated atomic unsigned minimum. (R237) -/
  | amumin (w : AT)
  /-- AMUMAX: Aggregated atomic unsigned maximum. (R237) -/
  | amumax (w : AT)
  /-- AMAND: Aggregated atomic AND. (R237) -/
  | amand (w : AT)
  /-- AMOR: Aggregated atomic OR. (R237) -/
  | amor (w : AT)
  /-- AMXOR: Aggregated atomic XOR. (R237) -/
  | amxor (w : AT)
  /-- AMSWAP: Atomic swap, lanes applied in lane order. (R237) -/
  | amswap (w : AT)
  /-- AMCAS: Atomic compare-and-swap, lanes applied in lane order. (R237) -/
  | amcas (w : AT)
  /-- AMFADD: Aggregated atomic floating add rounded to nearest even. (R237) -/
  | amfadd (w : AT)
  /-- AMFMIN: Aggregated atomic floating minimum. (R237) -/
  | amfmin (w : AT)
  /-- AMFMAX: Aggregated atomic floating maximum. (R237) -/
  | amfmax (w : AT)
  /-- FENCE: Holds later memory and sync words of the wave until the release or acquire is performed at its scope. (R254) -/
  | fence (w : MXF)
  /-- LR: Loads at the home slice and sets the wave's reservation on the line. (R241) -/
  | lr (w : MXW)
  /-- SC: Stores all lanes if the reservation holds, writing a status. (R242) -/
  | sc (w : MXW)
  /-- STRED: Reduction store added into memory by the near-cache adders. (R244) -/
  | stred (w : MXT)
  /-- PREF: Prefetches lines into L2 and optionally L1. (R245) -/
  | pref (w : MXL)
  /-- CINV: Invalidates the core's L1 after earlier loads return. (R246) -/
  | cinv (w : C0)
  /-- CFLUSH: Writes back dirty sectors of lines, optionally invalidating them. (R246) -/
  | cflush (w : MXN)
  /-- WAITST: Blocks the party until the wave's OUTST is 0. (R247) -/
  | waitst (w : C0)
  /-- MMA: Matrix multiply-accumulate into the accumulator block. (R177) -/
  | mma (w : MM)
  /-- MMAZ: Matrix multiply into the accumulator block from +0. (R177) -/
  | mmaz (w : MM)
  /-- MMAP: Accumulates into a promotion buffer, promoting with scales on LAST. (R179) -/
  | mmap (w : MMLF)
  /-- MDEFER: Arms a follow slot with a snapshotted matrix command. (R182) -/
  | mdefer (w : MMD)
  /-- MSAVE: Writes a bound promotion buffer to a scratchpad save area. (R184) -/
  | msave (w : MMA1)
  /-- MLOAD: Binds and loads a promotion buffer from a save area. (R184) -/
  | mload (w : MMA1)
  /-- MWAIT: Blocks the wave until all its issued or armed matrix commands complete. (R185) -/
  | mwait (w : C0)
  /-- COPY: Arrives at the cast's next collective copy, creating it if needed. (R278) -/
  | copy (w : R3)
  /-- ENGWAIT: Blocks until a collective completes, then writes its status. (R292) -/
  | engwait (w : R2)
  /-- QINIT: Initialises a scratchpad queue and tags its granules. (R296) -/
  | qinit (w : RAB)
  /-- QPUSH: Pushes an element into a counted queue, blocking while no allowance remains. (R298) -/
  | qpush (w : R3)
  /-- QPOP: Pops an element from a counted queue, blocking while it is empty. (R299) -/
  | qpop (w : R2)
  /-- QTRYPUSH: Pushes once if allowed, writing a status. (R298) -/
  | qtrypush (w : R3)
  /-- QTRYPOP: Pops once if non-empty, writing a status. (R299) -/
  | qtrypop (w : R3)
  /-- RWAIT: Waits for a stage-ring slot's phase and reads its handle. (R301) -/
  | rwait (w : R3)
  /-- RADV: Writes a stage-ring slot's handle and flips its phase. (R302) -/
  | radv (w : R3)
  /-- CUEEMIT: Releases at house scope and sends a record to a successor node's cue queue, awaiting a status. (R306) -/
  | cueemit (w : R3)
  /-- DCSET: Sets a dependence counter's count, target and trigger. (R380) -/
  | dcset (w : RAB)
  /-- DCDEC: Sends a decrement to a dependence counter. (R380) -/
  | dcdec (w : RAB)
  /-- DCWAIT: Waits until a dependence counter is 0, then writes its status. (R382) -/
  | dcwait (w : R2)
  deriving DecidableEq, Repr

end Sys2Proof
end

