-- ==== Sys2Proof/Config.lean ====
section
/-! DEFINITION. What an implementation fixes: sizes that the spec gives as constants of the package, the places of the error counters, and the
values that the spec leaves to the device (opaque: nothing in Lean can evaluate them). -/

namespace Sys2Proof.Config

/-- Bytes backed in a vault (R191): 768 MiB. -/
def vaultBytes : Nat := 0x30000000

/-- The span of a vault in the vault view and in the model's DRAM places (R191). -/
def vaultSpan : Nat := 0x40000000

/-- The first PA of the vault view (R191). -/
def vaultView : Nat := 0x10000000000

/-- Bytes of DRAM in a stage (R18). -/
def stageBytes : Nat := 64 * vaultBytes

/-- The vendor, device and stepping codes of ID (Table 4.6), bits 39:0: fused. Free: notes/assumptions/8.md. -/
opaque fusedId : BitVec 40

/-- The 32 header bytes and the SRC word that a log entry holds for a PCIe arrival (Table 17.2): the spec names the TLP header and gives none of its bits.
Free: notes/assumptions/8.md. -/
opaque tlpHeader : Arrival → List Byte

/-- The payload bytes that a log entry holds for a PCIe arrival without data of its own. Free: notes/assumptions/8.md. -/
opaque tlpBody : Arrival → List Byte

/-- The arrival that a log entry of KIND 0x01 to 0x04 records, from its kind, header and reassembled payload. Free: notes/assumptions/8.md. -/
opaque tlpParse : Nat → List Byte → List Byte → Option Arrival

/-- The 32 header bytes of an outbound PCIe transaction, which its digest covers (R324). Free: notes/assumptions/8.md. -/
opaque egressHeader : Egress → List Byte

/-- What a stage reports on the management interface when its straps conflict (0) or its set of stages is not allowed (1) (R3): the spec names the
reports and gives no layout. Free: notes/assumptions/8.md. -/
opaque strapReport : Nat → List Byte

/-- The payload of a management flit of R376 (message 0 Sync, 1 Follow-up, 2 Delay Request, 3 Delay Response, with its time), and what one says:
the spec gives the four messages and no layout. Free: notes/assumptions/8.md. -/
opaque alignFlit : Nat → Nat → List Byte
opaque alignKind : List Byte → Nat
opaque alignTime : List Byte → Nat

/-- A peer's atomic on 64 bytes of memory (R411): from the flit's payload and the old bytes, the new bytes and the completion's payload. The spec
gives no layout. Free: notes/assumptions/8.md. -/
opaque peerAtomic : List Byte → List Byte → List Byte × List Byte

/-- The address context that the prompter writes for a partition as it configures it (R194): the host and the firmware choose it.
Free: notes/assumptions/8.md. -/
opaque addrContext : Nat → BitVec 64 → AddrContext

/-- The array error code that MLOAD reports for a poisoned granule (R224): Table 9.4 gives none. Free: notes/assumptions/8.md. -/
opaque mloadPoisonCode : Nat

/-- The sectors that a partition's staging region in DRAM holds (R266): the prompter sizes it. Free: notes/assumptions/8.md. -/
opaque stagingSectors : Nat → Nat

/-- The context area that the prompter gives a cast entry, in units of 128 bytes (R326, R335): the prompter allocates it. Free: notes/assumptions/81.md. -/
opaque contextArea : Nat → BitVec 57

/-- The bank and the row of a vault offset (R268): the spec gives their numbers and not the mapping. Free: notes/assumptions/8.md. -/
opaque dramRow : Nat → Nat × Nat

/-- A stamp takes effect 16 mesh cycles after its acceptance (R318). -/
def stampDelay : Nat := 16

/-! The error counters in the order of Table 21.8 (R388): index of the first instance of each row. -/

def errRFCORR : Nat := 0
def errSPCORR : Nat := 256
def errL2CORR : Nat := 512
def errDRAMCORR : Nat := 544
def errDLCORR : Nat := 800
def errHLREPAIR : Nat := 804
def errUNCORR : Nat := 816
def errKILLDROP : Nat := 1360
def errMISSTEMP : Nat := 1616
def errTELDROP : Nat := 1872
def errDENY : Nat := 1873
def errTRAPDROP : Nat := 1905
def errDCUNDER : Nat := 2161
def errRETIREIGN : Nat := 2169
def errEnd : Nat := 2170

/-- What an agent of the package reads at a virtual address that its own partition does not map (the spec states no value): notes/assumptions/8.md. -/
opaque unmappedByte : Nat → BitVec 8

/-- The maximum of a 32-bit and of a 16-bit counter. -/
def max32 : Nat := 4294967295
def max16 : Nat := 65535

end Sys2Proof.Config
end

