-- ==== Sys2Proof/Machine/WaveState.lean ====
section
/-! DEFINITION. The state of a wave and of a cast: every register of Tables 4.1, 4.2, 8.1, 9.3, 10.2, 11.1, 12.1, 13.4,
15.6, 20.2 to 20.4 whose scope is the slice, the wave or the cast, and what a blocked word of a party waits for. -/

namespace Sys2Proof.Machine

/-- ROLE (Table 4.2): 0 GENERAL, 1 COPY, 2 MATRIX, 3 VECTOR. -/
inductive Role where
  | general | copy | matrix | vector
  deriving DecidableEq, Repr

/-- Trap causes (Table 8.5). -/
inductive Cause where
  | illegalOp | illegalOperand | illegalChain | latchWindow | role | regidx | misalign | spRange | barrierClobber
  | barrierState | queueState | page | access | ownership | orderedRet | poison | waitTimeout | xchgPartner | diverge
  | software | brk | stack | engine
  deriving DecidableEq, Repr

/-- The value of a latch entry in one slice: four lanes of a vector or pair entry, or a scalar (R69). -/
inductive LatchVal where
  | vec (lanes : List Word)
  | pair (lanes : List Quad)
  | scalar (v : Quad)
  deriving DecidableEq, Repr

/-- A latch entry with the packet of the party that produced it and its place in the issue order (R69, R70). -/
structure LatchEntry where
  val : LatchVal
  packet : Nat
  seq : Nat
  deriving DecidableEq, Repr

/-- A reconvergence-stack entry: ADDR 0 is a rejoin entry, any other a pending path (R151). -/
structure StackEntry where
  addr : BitVec 62
  mask : BitVec 4
  deriving DecidableEq, Repr

/-- What a party remembers of the packets it issues, for the latch reach and window rules (R70 to R72).
`packet` numbers the packet visits, `seq` the words issued; `start` is the first word issued in the current packet,
`slot` the slot it entered at and `last` the last slot issued; `producers` counts the latched results of the current packet;
the `prev` fields hold the same of the packet before (whether it held an operation of Table 3.6 and whether it was itself the second
packet of a window). -/
structure Window where
  packet : Nat := 0
  seq : Nat := 0
  base : Quad := 0
  start : Quad := 0
  slot : Nat := 0
  last : Nat := 3
  producers : Nat := 0
  forbidden : Bool := false
  second : Bool := false
  prevStart : Quad := 0
  prevProducers : Nat := 0
  prevForbidden : Bool := false
  prevSecond : Bool := false
  deriving DecidableEq, Repr

/-- Who a wave is: its place, its cast and its WAVEID, so that a reply, a token or a command never reaches a later wave of the slot. -/
structure WaveKey where
  core : Nat
  slot : Nat
  castid : BitVec 14
  waveId : BitVec 6
  deriving DecidableEq, Repr

/-- A lane of a scratchpad or global access with its address. -/
structure LaneAddr where
  lane : Nat
  addr : Quad
  deriving DecidableEq, Repr

/-- A full-empty access that waits for its commit condition (R210): size in bytes, `fe` of Table 11.2, register, the lanes, and
for a store the bytes of each lane. -/
structure FeAccess where
  store : Bool
  fe : Nat
  size : Nat
  reg : Nat
  lanes : List LaneAddr
  data : List (List Byte)
  deriving DecidableEq, Repr

/-- The command and slice of a COPY (R276 to R278): chain head, control word, slice descriptor and the scalar that receives the number. -/
structure CopyArgs where
  head : Quad
  ctl : Quad
  slice : Quad
  dest : Nat
  deriving DecidableEq, Repr

/-- An ATTACH request (R336, R337); `due` is the company cycle of its first decision. -/
structure AttachArgs where
  entry : Quad
  n : Nat
  role : Role
  now : Bool
  dest : Nat
  due : Nat
  deriving DecidableEq, Repr

/-- A VXCHG that waits for its pair (R145, R146): the operand s[b] as read, the partner that it names, tag, destination, the snapshot and its active lanes. -/
structure XchgArgs where
  operand : Quad
  partner : WaveKey
  tag : Nat
  dest : Nat
  snapshot : List Word
  act : LaneMask
  deriving DecidableEq, Repr

/-- What a blocked party waits for, with the operands as they were read at issue. -/
inductive BlockOp where
  /-- LDS.F, LDS.T, STS.WF (R210). -/
  | fullEmpty (a : FeAccess)
  /-- QPUSH (R298): control address, element, scalar that receives TAIL. -/
  | qpush (ctl : Quad) (elem : List Word) (dest : Nat)
  /-- QPOP (R299): control address, vector register. -/
  | qpop (ctl : Quad) (dest : Nat)
  /-- RWAIT (R301): control address, slot, expected phase, scalar. -/
  | rwait (ctl : Quad) (slot : Nat) (phase : Bool) (dest : Nat)
  /-- REGANG.ALL (R157). -/
  | regang
  /-- BARRIVE or BSYNC whose arrival is held (R217). -/
  | arrive (addr : Quad) (sync : Bool) (dest : Nat)
  /-- BWAIT or BSYNC waiting for a phase (R218). -/
  | bwait (addr : Quad) (phase : BitVec 32) (sync : Bool) (dest : Nat)
  /-- A barrier word whose completion is scheduled for a company cycle: status to write, or the end of the wave; `sync` is a BSYNC (R218, R221). -/
  | released (dest : Nat) (status : Quad) (ends sync : Bool) (due : Nat)
  /-- BQUERY, which reads the barrier as it stands after the cycle's steps of R50 (R215). -/
  | bquery (addr : Quad) (dest : Nat)
  /-- DCWAIT (R382). -/
  | dcwait (counter : Nat) (dest : Nat)
  /-- ENGWAIT (R292). -/
  | engwait (n : BitVec 32) (dest : Nat)
  /-- A COPY that must create a collective while no record is free (R279). -/
  | create (c : CopyArgs)
  /-- ATTACH before its decision (R337); `wait` is ATTACH.WAIT. -/
  | attach (a : AttachArgs) (wait : Bool)
  /-- VXCHG (R147); `matched` once both tokens have met, with the partner's lanes. -/
  | xchg (x : XchgArgs) (matched : Option (List Word × LaneMask))
  /-- WAITST (R247). -/
  | waitst
  /-- HOSTMSG (R166); `stored` once step 1 is over: the wave's stores have been acknowledged. -/
  | hostmsg (p0 p1 : Quad) (tag : Nat) (stored : Bool)
  /-- MWAIT (R185). -/
  | mwait
  /-- CUEEMIT: `sent` once its release at house scope has been performed (R306). -/
  | cueemit (node : Quad) (record : List Byte) (dest : Nat) (sent : Bool)
  /-- A fetch or an M word whose translation is in progress, with the addresses missed (write, fetch); the word is then issued again (R197). -/
  | translate (pages : List (Quad × Bool × Bool))
  deriving DecidableEq, Repr

/-- A word of a chain that follows what has not performed yet: a control word after a wait (R74, R152, R164), a word that a FENCE of the chain holds (R254): its address and slot's chain (`epc` the first word issued, `next` the
word after the chain), the slices that issue it, its bits, and what it reads, as that stood before the chain: scalars, predicates, the slices' latches and the
party's packet visit; `wrote` lists the scalars that later pipes of the chain write (R84), `more` the words of the chain that follow it, with their bits. -/
structure Late where
  word : Quad
  epc : Quad
  next : Quad
  slices : List Nat
  sregs : List Quad
  preds : List LaneMask
  latches : List (List LatchEntry)
  win : Window
  raw : Word
  wrote : List Nat
  more : List (Quad × Word) := []
  deriving DecidableEq, Repr

/-- A blocked party: what it waits for, the word's address, the slices held and where each goes on, the count of R60, and the control word of
its chain that follows the wait. -/
structure Blocked where
  op : BlockOp
  word : Quad
  slices : List Nat
  resume : List Quad
  count : Nat := 0
  late : Option Late := none
  deriving DecidableEq, Repr

/-- One slice: Table 4.1 and Table 8.1. The party fields are those of the party that this slice leads (R83). -/
structure Slice where
  pc : Quad
  mask : BitVec 4 := 15
  stack : List StackEntry := []
  live : Bool := true
  hmode : Bool := false
  savemask : BitVec 4 := 0
  sleep : BitVec 18 := 0
  leader : BitVec 5 := 0
  latches : List LatchEntry := []
  win : Window := {}
  blocked : Option Blocked := none
  late : Option Late := none
  deriving DecidableEq, Repr

/-- A wide record of a promotion buffer (Table 9.3): VALID, KPOS and P. -/
structure WideRecord where
  valid : Bool
  kpos : BitVec 16
  p : Word
  deriving DecidableEq, Repr

/-- A bound promotion buffer: accumulator code, shape and one record per output in row-major order (R178). -/
structure Promo where
  acc : Nat
  m : Nat
  n : Nat
  recs : List WideRecord
  deriving DecidableEq, Repr

/-- A granule and a phase: the HELD and SYNCWAIT records (Table 11.1). -/
structure PhaseRec where
  granule : BitVec 19
  phase : BitVec 32
  deriving DecidableEq, Repr

/-- The kind of a FENCE (R254). -/
inductive FenceKind where
  | acq | rel | acqrel
  deriving DecidableEq, Repr

/-- A FENCE not yet performed: kind, scope and the stages that still have to reply (Table 13.4). `implied` marks the release that
precedes a CUEEMIT (R306), `attached` the acquire that follows a word of a party (R258); `ready` is the mesh cycle in which the last reply so far reaches the core, `word` the FENCE's address, from
which it is issued again (R267). -/
structure Fence where
  kind : FenceKind
  scope : Nat
  stages : BitVec 4
  implied : Bool := false
  attached : Bool := false
  ready : Nat := 0
  word : Quad := 0
  deriving DecidableEq, Repr

/-- A memory word that has not finished: a parked word or one whose requests are in flight. The operation is given by the instruction
and by the operands read at issue. -/
structure MemOp where
  instr : Instr
  lanes : List LaneAddr
  data : List (List Byte)
  cmp : List (List Byte)
  deriving DecidableEq, Repr

/-- The park record (Table 10.2): the M word, its unfinished lanes and its operands. A wave that waits inside a latch window (R72) or for the page
of its code has no operands: it issues the word again. -/
structure Park where
  word : Quad
  lanes : LaneMask
  op : Option MemOp
  leader : Nat
  slices : List Nat
  deriving DecidableEq, Repr

/-- An asynchronous trap that is due (R160): cause, TRAPADDR, TRAPLANES and the party it goes to. -/
structure AsyncTrap where
  cause : Cause
  addr : Quad
  lanes : LaneMask
  leader : Nat
  deriving DecidableEq, Repr

/-- A load, atomic or other returning request whose data has not come back: the registers it will write (R75). -/
structure Pending where
  id : Nat
  first : Nat
  count : Nat
  left : Nat
  deriving DecidableEq, Repr

/-- A MOVC of NWAVES in the current company cycle: the party, the scalar that it wrote (none with K = 1), the value and its latch entry. A change of membership in
the cycle gives it the value after the change (R88). -/
structure CountRead where
  leader : Nat
  dest : Option Nat
  value : Quad
  packet : Nat
  seq : Nat
  deriving DecidableEq, Repr

/-- A wave (R28, R83, R86). `limit` is WAITLIMIT as it applies in the current company cycle (R128). Its slot, bay and core are its place in the package. `joinNext` holds the granules of the tracking barriers whose next
phase it joins (R48), `arrivedAt` its arrivals at tracking barriers;
`hostOut` counts its host-space writes and atomics not yet acknowledged (Table 13.3); `outstMore` holds the counted requests of a word beyond the 4,095 that OUTST
counts, by whether they are homed on the wave's stage (R231); `settling`: after a resumption its deferred stores are performed before a later word issues (R267). -/
structure Wave where
  waveId : BitVec 6
  cast : Nat
  role : Role
  regbase : List Nat
  sregs : List Quad
  vregs : List (List Word)
  preds : List LaneMask
  slices : List Slice
  turn : Nat := 0
  tiles : List Quad
  promo : List (Option Promo) := [none, none, none, none]
  fpflags : BitVec 5 := 0
  waitlimit : Quad := 4294967296
  limit : Quad := 4294967296
  countRead : Option CountRead := none
  epc : Quad := 0
  trapcause : BitVec 16 := 0
  trapaddr : Quad := 0
  traplanes : LaneMask := 0
  park : Option Park := none
  outst : BitVec 12 := 0
  outl : BitVec 12 := 0
  outstMore : List Bool := []
  settling : Bool := false
  hostOut : Nat := 0
  fence : Option Fence := none
  nextCopy : BitVec 32 := 0
  held : Option PhaseRec := none
  syncwait : Option PhaseRec := none
  joinNext : List Nat := []
  arrivedAt : List PhaseRec := []
  due : List AsyncTrap := []
  pending : List Pending := []
  nextId : Nat := 0
  commands : Nat := 0
  promoted : Nat := 0
  starve : Nat := 0
  promoHeld : Nat := 0
  readySince : Nat := 0
  startAt : Nat := 0
  deriving DecidableEq, Repr

/-- The status of a completed collective: kind (0 DONE, 1 ABORTED, 2 ERROR, 3 not held) and code (R292). -/
structure CopyStatus where
  kind : BitVec 8
  code : BitVec 8
  deriving DecidableEq, Repr

/-- Ownership range OWNRk (Table 19.3). -/
structure OwnRange where
  valid : Bool
  base : Quad
  len : Nat
  deriving DecidableEq, Repr

/-- The registers of a cast that the prompter writes at an epoch's boundary: GROWOK, SHRINKREQ and REFRCOST (Table 4.2), with the tick
of the boundary. -/
structure Hints where
  tick : Nat := 0
  growok : BitVec 7 := 0
  shrinkreq : BitVec 7 := 0
  refrcost : Quad := 0
  deriving DecidableEq, Repr

/-- A resident cast: its cast-slot entry with the cast-scope registers (Table 4.2, Table 15.6, Table 20.3). `before` holds what the epoch's boundary
replaced (R88); `heldCopies` the granules of the copy completions whose arrival is held (R217, R219). -/
structure Cast where
  castid : BitVec 14
  partition : Nat
  node : Nat
  castindex : BitVec 32
  launchid : BitVec 32
  nwaves : BitVec 7
  maxw : Nat
  regcount : BitVec 9
  spsize : BitVec 20
  sprow : Nat
  rows : Nat
  cogroup : BitVec 23
  growok : BitVec 7 := 0
  shrinkreq : BitVec 7 := 0
  refrcost : Quad := 0
  before : Hints := {}
  trappc : Quad
  prio : Nat
  req : BitVec 8 := 255
  reqEpoch : Nat := 0
  cchg : Nat := 0
  cseq : BitVec 32 := 0
  cdone : BitVec 32 := 0
  ring : List (BitVec 32 × CopyStatus) := []
  own : List OwnRange
  codebase : Quad
  codelen : Quad
  heldCopies : List Nat := []
  resident : Nat := 0
  stopping : Option Nat := none
  ordered : Bool := false
  deriving DecidableEq, Repr

end Sys2Proof.Machine
end

