-- ==== Sys2Proof/Machine/CoreState.lean ====
section
/-! DEFINITION. The state of a core: its slots, register units, scratchpad, first-level cache and TLB, matrix array,
copy engine, queue-and-barrier unit and understudy planes (Tables 9.3, 11.1, 12.1, 15.6, 18.1, 19.2, 20.2). -/

namespace Sys2Proof.Machine

/-- The kind of a matrix command (Table 9.2, R182). -/
inductive MmKind where
  | mma | mmaz | mmap (first last : Bool) | mdefer (slot : Nat) (kind : Nat) | msave | mload
  deriving DecidableEq, Repr

/-- A matrix command with the tile registers it read at issue. At acceptance it takes its place: `steps`, the block steps (R173) or the cycles of a transfer, the company
cycles in which it starts to step and is complete (R183), and the bytes that an MSAVE writes. `armed`: an MDEFER that armed its slot as it issued (R409). -/
structure MmCmd where
  key : WaveKey
  kind : MmKind
  acc : Nat
  ta : Quad
  tb : Quad
  steps : Nat := 0
  start : Nat := 0
  done : Nat := 0
  out : List Byte := []
  armed : Bool := false
  deriving DecidableEq, Repr

/-- An armed follow slot (R182): the command it fires, and whether its copy has landed. -/
structure Follow where
  cmd : MmCmd
  fired : Bool
  deriving DecidableEq, Repr

/-- The slice descriptor and tile registers of one arrival at a collective (R278, R285); `ended`: its wave has ended since (R291). -/
structure CopySlice where
  waveId : BitVec 6
  desc : Quad
  tiles : List Quad
  ended : Bool := false
  deriving DecidableEq, Repr

/-- The position of a running collective (R280, R293): slices still to process, record address and ordinal, the record once read,
whether its predicate has passed, the element index within it, and the bytes gathered for the current granule; whether a granule has landed, whether it
is paused on a page, whether that page was refused, host data that has come back or is awaited, and when its last write is acknowledged; the granules gathered that
have still to land (R287); the page it is paused on, and whether it writes there. -/
structure CopyPos where
  slices : List CopySlice
  recAddr : Quad
  ord : Nat
  body : Option (List Byte)
  elem : Nat
  granule : Option Nat
  bytes : List (Nat × Byte)
  go : Bool
  landed : Bool
  paused : Bool
  denied : Bool
  host : Option (Nat × List Byte)
  hostWait : Bool
  ackAt : Nat
  toLand : List (Nat × List (Nat × Byte)) := []
  page : Option (Quad × Bool) := none
  deriving DecidableEq, Repr

/-- A collective record (R278, R279). -/
structure Coll where
  cast : Nat
  num : BitVec 32
  head : Quad
  ctl : Quad
  members : List (BitVec 6)
  arrived : List CopySlice
  pos : Option CopyPos
  finishing : Bool
  deriving DecidableEq, Repr

/-- A COPY or an ENGWAIT at the head of its bay's X pipe, until the copy engine accepts it (R44): the wave, the number of the collective and, for a COPY, its operands. -/
structure CopyCmd where
  key : WaveKey
  num : BitVec 32
  args : Option CopyArgs
  deriving DecidableEq, Repr

/-- An unmatched ready token of a VXCHG (R147), held at the partner's core. -/
structure Token where
  src : WaveKey
  leader : Nat
  dst : WaveKey
  tag : Nat
  seq : Nat
  deriving DecidableEq, Repr

/-- What the queue-and-barrier unit applies at the end of the company cycle (R50, R212, R216, R221): the barrier that a BINIT makes, as its granule's
bytes; the completion arrival of the collective in a running slot; the removal of an ended wave; a kill. -/
inductive BarrierEvent where
  | init (cast : Nat) (granule : Nat) (bytes : List Byte)
  | copyArrival (cast : Nat) (granule : Nat) (slot : Nat)
  | remove (cast : Nat) (waveId : BitVec 6) (arrivedAt : List PhaseRec) (joinNext : List Nat)
  | kill (cast : Nat) (granule : Nat)
  deriving DecidableEq, Repr

/-- The line of a first-level or second-level cache: data by byte; dirty and poison bits per 64-byte sector (Table 12.1). -/
structure Line where
  line : Nat
  data : List Byte
  dirty : BitVec 2 := 0
  poison : BitVec 2 := 0
  deriving DecidableEq, Repr

/-- A set of a cache: its ways and one tree of pseudo-LRU bits per partition that uses it (R226, R228); the first-level cache uses tree 0. -/
structure CacheSet where
  index : Nat
  ways : List (Option Line)
  trees : List (Nat × List Bool)
  deriving DecidableEq, Repr

/-- A TLB entry (Table 19.2). -/
structure TlbEntry where
  part : Nat
  ats : Bool
  size : Nat
  va : Nat
  frame : Nat
  w : Bool
  x : Bool
  deriving DecidableEq, Repr

/-- A set of a TLB with its pseudo-LRU tree. -/
structure TlbSet where
  ways : List (Option TlbEntry)
  tree : List Bool
  deriving DecidableEq, Repr

/-- A reply on its way to a wave (R231, R250): an acknowledgement (of a request homed on the wave's stage, of a host-space write), returned elements
(register, lane, value) with the poisoned lanes, the line to install and whether it acknowledges a counted request, or POISON with an
acknowledgement. -/
inductive ReplyBody where
  | ack (own : Bool)
  | hostAck
  | data (id : Nat) (regs : List (Nat × Nat × Word)) (poisoned : List LaneAddr) (fill : Option Line) (acked : Option Bool)
  | poison (lanes : List LaneAddr) (own : Bool)
  deriving DecidableEq, Repr

/-- A reply, the party whose word it answers, and the mesh cycle from which its company can read it from the crossing FIFO (R389); `due`: the company cycle in which its
data, once read, are in the registers (R27). -/
structure Reply where
  key : WaveKey
  leader : Nat
  arrives : Nat
  body : ReplyBody
  due : Option Nat := none
  deriving DecidableEq, Repr

/-- A bind record (Table 18.4) with the context that its OP needs. -/
inductive BindOp where
  | launch | resume | preempt | kill
  deriving DecidableEq, Repr

/-- Bind record fields (Table 18.4). `entry` is the prompter's number of the cast entry it carries out, `rows` the rows it takes, `arrives` the mesh cycle of its
arrival, `ctxpa` the context area (RESUME, PREEMPT), `recs` the records of the batch that have come from a ring in host space (R189). -/
structure Bind where
  op : BindOp
  arrives : Nat
  entry : Nat
  slots : List Nat
  castid : BitVec 14
  partition : Nat
  node : Nat
  castindex : BitVec 32
  launchid : BitVec 32
  sprow : Nat
  rows : Nat
  regbase : Nat
  units : Nat
  batchn : Nat
  batchpos : Nat
  cogroup : BitVec 23
  ctxpa : Quad := 0
  recs : List (Nat × List Byte) := []
  deriving DecidableEq, Repr

/-- How a walk ends (R343). -/
inductive WalkEnd where
  | entry (e : TlbEntry)
  | page
  | access
  deriving DecidableEq, Repr

/-- A shootdown in progress at a core (R202). At the removal: `before` is the number of the next request of each wave slot, `copyAck` the mesh cycle in which the
copy engine's last write is acknowledged, `tags` the host reads of the copy engine that have not come back. -/
structure Shootdown where
  part : Nat
  va : Nat
  len : Nat
  removed : Bool
  before : List (Nat × Nat)
  copyAck : Nat := 0
  tags : List Nat := []
  deriving DecidableEq, Repr

/-- Register units of an ended wave that wait for its accepted matrix commands (R187). -/
structure Zombie where
  key : WaveKey
  units : List Nat
  commands : Nat
  deriving DecidableEq, Repr

/-- One lane of an atomic: lane number, operand and, for CAS, the new value (R237). -/
structure AtomLane where
  lane : Nat
  x : List Byte
  new : List Byte
  deriving DecidableEq, Repr

/-- An address that a request names in device memory: the lane, its VA (for TRAPADDR) and its place, vault × 2³⁰ + vault offset. -/
structure LanePlace where
  lane : Nat
  va : Quad
  place : Nat
  deriving DecidableEq, Repr

/-- What a request asks its home slice to do (R225 to R248). Bytes are keyed by their place. -/
inductive ReqBody where
  | load (size : Nat) (reg : Nat) (lanes : List LanePlace) (fill : Bool)
  | store (bytes : List (Nat × Byte))
  | atomic (op ty : Nat) (at_ : LanePlace) (lanes : List AtomLane) (ret : Bool) (reg : Nat)
  | lr (size : Nat) (reg : Nat) (lanes : List LanePlace)
  | sc (size : Nat) (reg : Nat) (lanes : List LanePlace) (data : List (List Byte))
  | stred (ty : Nat) (parts : List (LanePlace × List Byte))
  | pref (l1 : Bool)
  | cflush (inv : Bool)
  deriving DecidableEq, Repr

/-- The launch that a staged entry belongs to: partition, node, LAUNCHID and CASTINDEX (R263). -/
structure LaunchKey where
  part : Nat
  node : Nat
  launchid : BitVec 32
  castindex : BitVec 32
  deriving DecidableEq, Repr

/-- A request of a wave on its way to or at its home slice (R229, R238). `staged` carries the launch of a cast in ordered mode; `sent` and `arrives` are the
mesh cycles in which it leaves its core and reaches the slice. -/
structure Req where
  key : WaveKey
  leader : Nat
  part : Nat
  id : Nat
  line : Nat
  own : Bool
  staged : Option LaunchKey
  arrives : Nat
  body : ReqBody
  sent : Nat := 0
  deriving DecidableEq, Repr

/-- The part of a core that a plane swap exchanges (R274; `readyOrder` holds the ready collectives, each with one more than the cycle in which it was found
ready): slots, registers, scratchpad with FE and TAG, and the engines' records; `deferred` holds the requests withdrawn from a full staging
region when issue stopped (R266), `leaving` the rows of casts that have exited: CASTID, first row and rows, kept
while the release of the exit is not complete (R258). -/
structure CoreCtx where
  waves : List (Option Wave) := List.replicate 64 none
  casts : List (Option Cast) := List.replicate 64 none
  units : List (Option Nat) := List.replicate 256 none
  sp : List Host.Cell := []
  fe : List Nat := []
  tags : List (Nat × Nat) := []
  spPoison : List Nat := []
  follow : List (Option Follow) := List.replicate 8 none
  colls : List (Option Coll) := List.replicate 16 none
  running : List (Option Nat) := List.replicate 4 none
  readyOrder : List (Nat × Nat) := []
  deferred : List Req := []
  leaving : List (BitVec 14 × Nat × Nat) := []
  deriving DecidableEq, Repr

/-- What the understudy planes of a core hold (R275). -/
inductive Plane where
  | empty
  | context (part : Nat) (ctx : CoreCtx)
  | snapshot (ctx : CoreCtx)
  deriving DecidableEq, Repr

/-- A core. Of its issue selectors (R58, R59, R356): `rr` holds the last slot started in turn, by bay and class; `picks` the wave and party that each bay starts in the
current company cycle and has not issued; `started` the bays that started one; `lastchg` is LASTCHG; `sweep` how far the cycle's work has gone, `arrayAt` one more than the cycle in which the array
last took a command. -/
structure Core where
  ctx : CoreCtx := {}
  plane : Plane := .empty
  l1 : List CacheSet := []
  tlb : TlbSet := { ways := List.replicate 64 none, tree := List.replicate 63 false }
  xq : List (List MmCmd) := List.replicate 4 []
  arrayQ : List MmCmd := []
  arrayAt : Nat := 0
  mmPtr : Nat := 0
  cq : List (Option CopyCmd) := List.replicate 4 none
  cePtr : Nat := 0
  tokens : List Token := []
  tokensWaiting : List Token := []
  tokenSeq : Nat := 0
  barrier : List BarrierEvent := []
  replies : List Reply := []
  binds : List Bind := []
  shoot : List Shootdown := []
  zombies : List Zombie := []
  kchg : Nat := 0
  lastchg : List Nat := List.replicate 4 0
  rr : List Nat := List.replicate 16 15
  started : List Bool := List.replicate 4 false
  picks : List (Option (Nat × Nat)) := List.replicate 4 none
  sweep : Nat := 0
  stopped : Bool := false
  deriving DecidableEq, Repr

end Sys2Proof.Machine
end

