-- ==== Sys2Proof/Machine/PackageState.lean ====
section
/-! DEFINITION. The state of the package beyond its cores: companies with their L2 slices, stages, vaults, partitions with
their nodes, gates, house ports, the prompter's tables and the host window (Tables 4.6, 10.2, 12.1, 13.4, 14.2, 16.4,
17.3, 17.4, 18.1, 18.5, 19.2, 19.4, 20.2 to 20.4, 21.1 to 21.9). -/

namespace Sys2Proof.Machine

/-- A staged entry of ordered mode (R263). -/
structure Staged where
  key : LaunchKey
  line : Nat
  body : ReqBody
  deriving DecidableEq, Repr

/-- A reservation (Table 12.1). -/
structure Reservation where
  key : WaveKey
  line : Nat
  deriving DecidableEq, Repr

/-- Who waits for a walk: a wave's word, or a copy engine's running collective. -/
inductive Waiter where
  | wave (core slot : Nat)
  | copy (core coll : Nat)
  deriving DecidableEq, Repr

/-- A walk (R343, R344): partition, VA, access kind (write, fetch) and who waits; the level and the table of its next entry and the mesh cycle in which it is read, or in
which the walk's end reaches the walker; its end once the tables are read, and whether it is over. An ended walk stays until the words that wait for it have been
issued again. -/
structure Walk where
  part : Nat
  va : Quad
  write : Bool
  fetch : Bool
  waiters : List Waiter
  started : Bool
  marked : Bool
  end_ : Option WalkEnd
  ended : Bool
  level : Nat := 3
  table : Nat := 0
  readAt : Nat := 0
  deriving DecidableEq, Repr

/-- The clock state of a company under gating (R341). -/
inductive Gating where
  | running (idle : Nat)
  | gating (tick : Nat)
  | gated
  | waking (done : Nat)
  deriving DecidableEq, Repr

/-- A level sequence (R358): target and first tick. -/
structure LevelSeq where
  source : Nat
  target : Nat
  start : Nat
  deriving DecidableEq, Repr

/-- A company with its L2 slice, walker, charge records and level (Tables 12.1, 20.2, 20.3); `shadow` is the understudy shadow of the slice's tags, valid, dirty, poison and
pseudo-LRU bits (R274); `readAt` is one more than the company cycle in which the company last read its crossing FIFO (R389). -/
structure Company where
  level : Nat := 36
  vtarget : Nat := 360
  vnow : Nat := 360
  grant : Nat := 36
  bidlvl : Nat := 0
  bidvt : Nat := 0
  seq : Option LevelSeq := none
  charge : List Nat := [0, 0, 0, 0]
  actc : Nat := 0
  stallc : Nat := 0
  gating : Gating := .running 0
  voltage : Nat := 0
  l2 : List CacheSet := []
  inq : List Req := []
  fills : List (Nat × Nat) := []
  stalled : List Req := []
  stageWait : List Req := []
  resv : List Reservation := []
  staged : List Staged := []
  releases : List (LaunchKey × Bool × Nat) := []
  filter : List (Nat × Nat) := []
  tlb : List (Nat × TlbSet) := []
  shadow : List CacheSet := []
  walks : List Walk := []
  retired : Bool := false
  readAt : Nat := 0
  deriving DecidableEq, Repr

/-- A gather entry (Table 13.4): source core, wave slot and the paths whose marker has arrived; `sent` is the mesh cycle in which the markers were sent. -/
structure Gather where
  core : Nat
  slot : Nat
  paths : BitVec 2
  from_ : Nat
  sent : Nat := 0
  deriving DecidableEq, Repr

/-- A flush marker on its way to a stage's ingress, or waiting there for a gather entry (R260). -/
structure Marker where
  core : Nat
  slot : Nat
  path : Nat
  arrives : Nat
  sent : Nat := 0
  deriving DecidableEq, Repr

/-- A stage: bucket table (Table 19.4), retirement in progress (R351) and gather entries. -/
structure Stage where
  buckets : List Nat := (List.range 256).map (· / 32)
  retiring : Option Nat := none
  retireQ : List Nat := []
  heldReqs : List Req := []
  gather : List Gather := []
  markers : List Marker := []
  deriving DecidableEq, Repr

/-- A request at a vault: the home slice, the line, the partition it is for (8: none) and whether it writes the line back (R268). -/
structure VaultReq where
  company : Nat
  line : Nat
  part : Nat
  write : Bool := false
  deriving DecidableEq, Repr

/-- Table 14.2: temperature, class, place in the epoch, the open row of each of the 48 banks, patrol pointer. -/
structure VaultRegs where
  vtemp : Nat := 0
  vclass : Nat := 4
  refpos : Nat := 0
  rows : List (Option (BitVec 16)) := List.replicate 48 none
  scrubptr : Nat := 0
  deriving DecidableEq, Repr

/-- A vault controller (Table 14.2, R268) with its budget (R333) and its understudy shadow (R274); `turnFrom` is the mesh cycle in which the precharge that begins a turn is
over. -/
structure Vault where
  vtemp : Nat := 0
  vclass : Nat := 4
  refpos : Nat := 0
  rows : List (Option (BitVec 16)) := List.replicate 48 none
  scrubptr : Nat := 0
  stamped : Bool := false
  burst : Bool := false
  frozen : Nat := 0
  turn : Nat := 0
  turnFrom : Nat := 0
  q : List VaultReq := []
  resv : Nat := 0
  coreTemp : Nat := 0
  shadow : VaultRegs := {}
  deriving DecidableEq, Repr

/-- A dependence counter (Table 21.6). -/
structure DepCounter where
  status : Nat
  tv : Bool
  target : Nat
  count : Nat
  deriving DecidableEq, Repr

/-- A node: its 256-byte entry (Table 18.2), its cue-queue state (Table 16.4), its launch and NODERC (Table 20.4). -/
structure Node where
  entry : List Byte := List.replicate 256 0
  checked : Bool := false
  cqtail : BitVec 32 := 0
  cqhead : BitVec 32 := 0
  cqform : BitVec 7 := 0
  cqres : Nat := 0
  closed : Bool := false
  cqdrop : Nat := 0
  noderc : Quad := 0
  open_ : Bool := false
  retired : Bool := false
  launches : BitVec 32 := 0
  launchid : BitVec 32 := 0
  batches : BitVec 32 := 0
  deriving DecidableEq, Repr

/-- A host-message entry before it is written (Table 8.7). -/
structure HmqEntry where
  kind : Nat
  castid : BitVec 14
  castindex : BitVec 32
  info : BitVec 16
  waveId : BitVec 6
  core : Nat
  tick : BitVec 32
  p0 : Quad
  p1 : Quad
  deriving DecidableEq, Repr

/-- A saved cast (Table 18.7): the cast, its waves, its rows and its engine records; `fences` are the FENCEs that will be issued again, by WAVEID (R267). -/
structure SavedCast where
  cast : Cast
  waves : List Wave
  sp : List Host.Cell
  fe : List Nat
  tags : List (Nat × Nat)
  poison : List Nat
  colls : List Coll
  follow : List (Nat × Follow)
  deferred : List Req
  fences : List (BitVec 6 × Fence) := []
  deriving DecidableEq, Repr

/-- Where a formed batch or its cast is (R326): waiting for placement, on its way to a core (with its saved context where it resumes), resident there, resident in a
swapped-out partition, or saved. -/
inductive CastState where
  | pending
  | placed (core : Nat) (ctx : Option SavedCast)
  | resident (core cslot : Nat)
  | swappedOut (core cslot : Nat)
  | saved (ctx : SavedCast)
  | gone (killed : Bool)
  deriving DecidableEq, Repr

/-- A cast entry of the prompter (Table 18.1), from the formation of its batch to the end of its launch. `ctxpa` is the PA of its context area, 0 while it has none. -/
structure CastEntry where
  id : Nat
  part : Nat
  node : Nat
  launchid : BitVec 32
  castindex : BitVec 32
  batchn : Nat
  batchpos : Nat
  castid : Option (BitVec 14)
  state : CastState
  refused : Nat := 0
  cogroup : BitVec 23 := 1
  ctxpa : Quad := 0
  demands : List (Nat × Nat) := []
  deriving DecidableEq, Repr

/-- A ticket entry (Table 21.5). `early`: cast TKNEXT has been released early and writes directly (R266); `reported` is
the mesh cycle in which the last slice report so far arrives. -/
structure Ticket where
  part : Nat
  node : Nat
  launchid : BitVec 32
  tknext : BitVec 32
  tkpend : BitVec 32
  killed : Bool
  early : Bool := false
  reported : Nat := 0
  deriving DecidableEq, Repr

/-- A release or a CUEEMIT on its way to the cue unit (R307); host cues and closes act as they arrive, before these. -/
inductive CueArrival where
  | release (key : LaunchKey) (discard : Bool)
  | emit (key : WaveKey) (leader : Nat) (part from_ : Nat) (node : Quad) (record : List Byte) (staged : Option LaunchKey)
  deriving DecidableEq, Repr

/-- A staged cue record of an ordered cast (R263, R306). -/
structure StagedCue where
  key : LaunchKey
  node : Nat
  record : List Byte
  deriving DecidableEq, Repr

/-- An outstanding non-posted request of the endpoint: who waits and for what (R201, R225, R240; `core` asked for a translation; a read of a cue ring in host space is
for the launch of a cast entry and names the record, R41, R189). -/
inductive PcieWait where
  | ats (core part : Nat) (va : Quad) (write : Bool) (marked : Bool) (waiters : List Waiter)
  | prg (core part : Nat) (va : Quad) (write : Bool) (waiters : List Waiter)
  | cue (core entry record : Nat)
  | load (key : WaveKey) (leader : Nat) (id : Nat) (size reg : Nat) (lanes : List LaneAddr) (base : Nat)
  | copy (core coll : Nat) (castid : BitVec 14) (num : BitVec 32) (addr len : Nat)
  | atomic (key : WaveKey) (leader : Nat) (id : Nat) (op ty : Nat) (addr : Nat) (pasid part : Nat) (todo : List AtomLane) (got : List AtomLane)
      (ret : Bool) (reg : Nat)
  deriving DecidableEq, Repr

/-- A fault record (R199): the waiter, the VA, the partition, the access kind and the mesh cycle in which it reaches the prompter. -/
structure FaultRecord where
  arrives : Nat
  core : Nat
  slot : Nat
  copy : Option Nat
  va : Quad
  part : Nat
  write : Bool
  fetch : Bool
  deriving DecidableEq, Repr

/-- A journal entry of a recovery point (R384): line, old bytes, poison bits. -/
structure JournalEntry where
  line : Nat
  old : List Byte
  poison : BitVec 2
  deriving DecidableEq, Repr

/-- Recovery state of a partition (Table 21.7, R384 to R386). `requested`: a point is due; `stopping`: its cores are stopping for the point `pointAt`, a tick; `dc`,
`nodes`, `tickets`, `casts`, `cueStaged` and `egseq` are the copies of R384 step 3, with the staged entries, fault records, outstanding PCIe requests and
tag count that belong to the same state; `inject` holds the arrivals still to be injected, with their new stamps; `errorOffset` the error's offset from
the point and the units in error, while re-execution has not passed it; `rolling` the tick at which the rollback takes place; `resumeAt` the tick at
which the cores go on. -/
structure Recovery where
  jbase : Quad := 0
  jsize : Word := 0
  ajbase : Quad := 0
  ajsize : Word := 0
  rpmcyc : Nat := 0
  rpseq : Nat := 0
  base : Nat := 0
  pointAt : Nat := 0
  requested : Bool := false
  stopping : Bool := false
  journal : List JournalEntry := []
  arrivals : List (Nat × Nat × Arrival) := []
  liveHeld : List (Nat × Arrival) := []
  inject : List (Nat × Nat × Arrival) := []
  grants : List (Nat × Nat × Nat) := []
  classes : List (Nat × Nat × Nat) := []
  taken : Bool := false
  dc : List (Nat × DepCounter) := []
  nodes : List (Nat × Node) := []
  tickets : List (Option Ticket) := []
  casts : List CastEntry := []
  cueStaged : List StagedCue := []
  egseq : List Nat := []
  staged : List (Nat × Staged) := []
  faults : List FaultRecord := []
  pcie : List (Nat × PcieWait) := []
  nextTag : Nat := 0
  hmqHead : Word := 0
  hmqTail : Word := 0
  hmqBuf : List HmqEntry := []
  dropped : Nat := 0
  errorOffset : Option (Nat × List Nat) := none
  rolling : Option Nat := none
  resumeAt : Option Nat := none
  deriving DecidableEq, Repr

/-- A partition (Tables 10.2, 18.5, 21.6, 21.7, host-message queue R167, R168). -/
structure Partition where
  companies : BitVec 32 := 0
  valid : Bool := false
  ordCur : Bool := false
  ordPend : Bool := false
  recov : Bool := false
  swapped : Bool := false
  ctx : AddrContext := {}
  nodes : List (Nat × Node) := []
  dc : List (Nat × DepCounter) := []
  hmqBase : Quad := 0
  hmqSize : Quad := 0
  hmqHead : Word := 0
  hmqTail : Word := 0
  hmqBuf : List HmqEntry := []
  dropped : Nat := 0
  recovery : Recovery := {}
  nextTag : Nat := 0
  deriving DecidableEq, Repr

/-- An update of a dependence counter on its way to the cue unit, or a DCWAIT that is evaluated after the updates of its cycle (R381, R382). -/
inductive DcUpdate where
  | done (core part n : Nat) (status : Nat)
  | set (core slot part n : Nat) (count target : Nat) (tv : Bool)
  | dec (core slot part n amount : Nat)
  | wait (key : WaveKey) (leader part n : Nat)
  deriving DecidableEq, Repr

/-- A stamping gate (Tables 4.6, 17.3, 17.4). `ingress` holds the arrivals that it withholds, each with its pieces already accepted; `stampAt` and `stampPiece`
the cycle and number of its next piece; `effects` what it has accepted, with the mesh cycle in which it takes effect; `partialData` the payload of an
injected arrival that is not complete; `egacked` the number of the last outbound write that counts as acknowledged (R325). -/
structure Gate where
  logbase : Quad := 0
  logsize : Quad := 0
  loghead : Word := 0
  logtail : Word := 0
  seq : Word := 0
  off : Bool := false
  digests : List (List Byte) := []
  ingress : List (Nat × Arrival) := []
  stampAt : Nat := 0
  stampPiece : Nat := 0
  effects : List (Nat × Arrival) := []
  partialData : List Byte := []
  egseq : Nat := 0
  eghigh : Nat := 0
  egacked : Nat := 0
  egdig : List Byte := List.replicate 32 0
  egcount : Nat := 0
  deriving DecidableEq, Repr

/-- A house-link port (R314 to R316, R376): the send window, the originating queue's copies of writes with their numbers, the flits that wait for room in the window,
the receiver's next sequence number, its reorder buffer and the resends that it asks for, what the port puts on the link, the place of the scrub,
and the time-alignment registers. -/
structure HousePort where
  sendSeq : BitVec 32 := 0
  window : List Flit := []
  origin : List (Nat × Flit) := []
  waiting : List Flit := []
  expect : BitVec 32 := 0
  reorder : List Flit := []
  asks : List (BitVec 32) := []
  out : List Flit := []
  scrub : Nat := 0
  leader : Bool := false
  t1 : Nat := 0
  t2 : Nat := 0
  t3 : Nat := 0
  peeroff : BitVec 48 := 0
  peerdly : BitVec 48 := 0
  deriving DecidableEq, Repr

/-- When a scheduled event falls due: at once, at a mesh cycle, at a cycle of a company, at a vault cycle or at a reference tick. -/
inductive DueAt where
  | now
  | mesh (n : Nat)
  | company (m n : Nat)
  | tick (n : Nat)
  deriving DecidableEq, Repr

/-- A scheduled event. -/
structure Due where
  at_ : DueAt
  ev : Instr
  deriving DecidableEq, Repr

/-- Why the package froze: STATUS.STOPCAUSE (Table 21.4). -/
inductive StopCause where
  | none | stopat | stopnow | emptyRing | freeze | hardFailure | heldReset
  deriving DecidableEq, Repr

/-- The host window registers with no other home (Tables 4.6, 17.3, 21.2 to 21.4). -/
structure Window0 where
  powercap : Nat := 6400
  gatemodeReq : Nat := 0
  gatemodeCur : Nat := 0
  logen : BitVec 15 := 0
  lossy : BitVec 15 := 0
  digest : BitVec 15 := 0
  replaybrk : Quad := 0
  svcbase : Quad := 0
  svcsize : Quad := 0
  stopat : Quad := 0
  tabop : Nat := 0
  tabdram : Bool := false
  tabhost : Bool := false
  stopen : Bool := false
  tabbase : Quad := 0
  tabsize : Quad := 0
  tabtag : BitVec 16 := 0
  taberr : Nat := 0
  tabbusy : Bool := false
  hardfail : Bool := false
  stoplate : Bool := false
  replayBroken : Bool := false
  strapConflict : Bool := false
  recovery : Bool := false
  hfpart : BitVec 8 := 0
  failAt : Nat := 0
  lateAt : Nat := 0
  brokenAt : Nat := 0
  deriving DecidableEq, Repr

/-- A host-window write that waits for its tick boundary (R91). -/
structure HostWrite where
  tick : Nat
  ev : Instr
  deriving DecidableEq, Repr

/-- An invalidation of ATS entries in progress (R203); at the removal, by core: what Shootdown holds. -/
structure AtsInv where
  pasid : Nat
  va : Nat
  log2 : Nat
  due : Nat
  removed : Bool
  before : List (Nat × Nat × Nat)
  copyAcks : List (Nat × Nat) := []
  tags : List Nat := []
  deriving DecidableEq, Repr

/-- A partition swap in progress (R274, R340): the partition that leaves, the one that comes in, the companies, whether it goes through DRAM, and
the tick at which the exchange was made. -/
structure PlaneOp where
  out : Nat
  in_ : Nat
  mask : BitVec 32
  dram : Bool
  startedAt : Option Nat
  deriving DecidableEq, Repr

/-- The package. `dramErr` holds, by 64-byte block, the layers whose symbol is in error (R273). `cueIn` and `dcIn` hold what is on its way to the cue unit with the mesh cycle of its arrival; `answers` the statuses on their way back to a
party (R306, R382) with the cycle in which they reach it; `dcWaiters` the blocked DCWAITs: party, partition and counter. -/
structure Package where
  straps : List Nat := [0, 1, 2, 3]
  stages : BitVec 4 := 15
  cores : List Core := List.replicate 256 {}
  companies : List Company := List.replicate 32 {}
  stage : List Stage := List.replicate 4 {}
  vaults : List Vault := List.replicate 256 {}
  parts : List Partition := List.replicate 8 {}
  gates : List Gate := List.replicate 15 {}
  ports : List HousePort := List.replicate 12 {}
  win : Window0 := {}
  dram : List Host.Cell := []
  dramPoison : List Nat := []
  dramErr : List (Nat × List Nat) := []
  casts : List CastEntry := []
  nextEntry : Nat := 0
  tickets : List (Option Ticket) := List.replicate 64 none
  cueIn : List (Nat × CueArrival) := []
  cueStaged : List StagedCue := []
  answers : List (WaveKey × Nat × Nat × Quad) := []
  dcIn : List (Nat × DcUpdate) := []
  dcWaiters : List (WaveKey × Nat × Nat × Nat) := []
  due : List Due := []
  hostWrites : List HostWrite := []
  faults : List FaultRecord := []
  pcie : List (Nat × PcieWait) := []
  reads : List Nat := []
  readQ : List Egress := []
  atsInv : List AtsInv := []
  planeOp : Option PlaneOp := none
  sent : List (Nat × Egress) := []
  teldrop : Nat := 0
  current : Nat := 0
  errors : List (Nat × Nat) := []
  frames : List (Nat × Nat) := []
  stopcause : StopCause := .none
  stopReq : List (Nat × Nat × Nat × Nat) := []
  deriving DecidableEq, Repr

/-- STATUS.RUN, and the held reset of R373 in which no cycle has begun. -/
inductive RunState where
  | running | frozen
  deriving DecidableEq, Repr

/-- The time counters (Table 21.1). `num / den` is the place of the last edge within the reference tick; `companies` holds each company's CYCLE. -/
structure Clock where
  run : RunState := .running
  rtick : Nat := 0
  mcyc : Nat := 0
  vcyc : Nat := 0
  num : Nat := 0
  den : Nat := 1
  companies : List Nat := List.replicate 32 0
  deriving DecidableEq, Repr

/-- A tableau image (R371): where it is kept, what it holds, and, where that is the service region, what the region's cells were when it was written: with
other contents its header or its digest no longer agrees. -/
structure Image where
  host : Bool
  base : Quad
  size : Nat
  cells : List Host.Cell
  dram : Bool
  pkg : Package
  clk : Clock
  deriving DecidableEq, Repr

end Sys2Proof.Machine
end

