-- ==== Sys2Proof/Machine/State.lean ====
section
/-! DEFINITION. The state of the machine as plain data: the clock, the package, the word being issued, the inputs that the
outside world still brings and the tableau images it holds; the reasons to stop; and the state after a power-on reset (R373). -/

namespace Sys2Proof.Machine

/-- Errors of the hardware that the codes of the banks, the slices, the vaults and the die links find, besides those that are rows of the opcode table (R224, R228, R273,
R313, R386): `fixed` ones are corrected. -/
inductive HwError where
  /-- A register-file bank group of a core. -/
  | registerFixed (core : Nat)
  | registerLost (core group : Nat)
  /-- A scratchpad bank group of a core. -/
  | scratchFixed (core : Nat)
  /-- The FE and TAG bits of a granule of a core. -/
  | tagLost (core granule : Nat)
  /-- A read of a slice's bank: the half of a line. -/
  | sliceFixed (company : Nat)
  | sliceLost (company line half : Nat)
  /-- The symbol of a layer in a 64-byte block of a vault goes bad. -/
  | symbol (vault block layer : Nat)
  /-- A flit of a die link. -/
  | linkFixed (link : Nat)
  deriving DecidableEq, Repr

/-- What the next step is told to do from outside: an event of the opcode table (an arrival, a host action, a failure), or the issue of the
next chain of a party (the selection of R58 made by hand), or an error of the hardware; a run needs none of these. -/
inductive Turn where
  | event (ev : Instr)
  | issue (core slot leader : Nat)
  | error (e : HwError)
  deriving DecidableEq, Repr

/-- A trap that a word raises (R160): cause, TRAPADDR, and TRAPLANES where they are not the active lanes of the issuing slices. -/
structure Trap where
  cause : Cause
  addr : Quad := 0
  lanes : Option LaneMask := none
  epc : Option Quad := none
  window : Bool := false
  deriving DecidableEq, Repr

/-- Why a word must be issued again before anything of its chain performs: walks to make (address, write, fetch; R197), or a page that a
latch window or a fetch waits for (R72, R162). -/
inductive Hold where
  | walk (pages : List (Quad × Bool × Bool))
  | page (addr : Quad) (lanes : LaneMask) (write fetch : Bool)
  deriving DecidableEq, Repr

/-- The word being issued: its place, its address and slot, the first word of its chain (`epc`), the word after the chain (`next`),
the three words of its packet (`keeps`: one of them has K = 1, R71; `ahead`: the packet that the party enters next reads a latch of this one, R71), and how far the chain has gone. `checked`: the checks of R68 have been made for the whole chain;
`final`: the last word to be executed; `src`: the wave before the chain (R74); `wrote`: scalars written by the V and X words of the chain
(R84); `raised`: FPFLAGS bits raised by the chain (R88); `moved`: the counters have been set by a transfer; `blockedOn`: a word of the chain
waits;
`trap`: the trap that a word of a longer chain raised, with its slot;
`hold`: a word must wait for a translation before anything of the chain performs. -/
structure Issue where
  core : Nat
  slot : Nat
  leader : Nat
  word : Quad
  pslot : Nat
  epc : Quad
  next : Quad
  raw : Word
  packet : List (Option Instr)
  keeps : Bool := false
  ahead : Bool := false
  final : Bool := true
  checked : Bool := false
  src : Option Wave := none
  wrote : List Nat := []
  raised : BitVec 5 := 0
  moved : Bool := false
  blockedOn : Bool := false
  trap : Option (Trap × Nat) := none
  hold : Option (Hold × Nat) := none
  deriving DecidableEq, Repr

structure State where
  clk : Clock
  pkg : Package
  cur : Option Issue
  agenda : List Turn
  images : List Image
  deriving DecidableEq, Repr

/-- Faults: the machine has no such step. The spec turns every error of a program into a trap, which is a next state. -/
inductive Fault where
  /-- An instruction word is executed while no live party of a wave is issuing it. Raised by every instruction word; safe: no run
  issues a word without a party. -/
  | noIssuingParty
  deriving DecidableEq, Repr

/-- Refusals. -/
inductive Refusal where
  /-- The instruction has no meaning in this model yet. Raised by the arms of `exec` that name it; safe. -/
  | notModelled (mnemonic : String)
  deriving DecidableEq, Repr

/-- The package right after a power-on reset (R373, Table 4.6): every register at its reset value, nothing launched, no memory
listed, the clocks at 0 and RUNNING in PASS mode. -/
def State.reset : State :=
  { clk := {}, pkg := {}, cur := none, agenda := [], images := [] }

end Sys2Proof.Machine
end

