-- ==== Sys2Proof/Decode.lean ====
section
/-! DEFINITION. Instruction words: the decoder of Tables 3.2 and 3.3, total on any 32 bits, which refuses by name (R68, orders 2 and 3:
an unassigned minor, condition, code, mode or operation; a field or K bit that the row fixes at 0 and that is not 0), and after it the
encoder, written from the same tables. A word is a number below 2^32 whose bit 0 is the least significant bit of its first byte (R62). -/

namespace Sys2Proof

/-- Why a word is no instruction (R68): order 2 or order 3 of Table 3.5. -/
inductive DecodeErr where
  | illegalOp
  | illegalOperand
  deriving DecidableEq, Repr

/-- The instruction, if the bits that its row fixes at 0 are 0. -/
def zeros (p : Bool) (i : Instr) : Except DecodeErr Instr :=
  if p then .ok i else .error .illegalOperand

/-- The fields of layout VR in word n. -/
def VR.ofNat (n : Nat) : VR :=
  ⟨BitVec.ofNat 1 (n / 2147483648), BitVec.ofNat 1 (n / 1073741824), BitVec.ofNat 7 (n / 262144), BitVec.ofNat 7 (n / 2048), BitVec.ofNat 7 (n / 16)⟩

/-- The bits of layout VR. -/
def VR.toNat (w : VR) : Nat :=
  w.c.toNat * 2147483648 + w.k.toNat * 1073741824 + w.d.toNat * 262144 + w.a.toNat * 2048 + w.b.toNat * 16

/-- The fields of layout VR1 in word n. -/
def VR1.ofNat (n : Nat) : VR1 :=
  ⟨BitVec.ofNat 1 (n / 2147483648), BitVec.ofNat 1 (n / 1073741824), BitVec.ofNat 7 (n / 262144), BitVec.ofNat 7 (n / 2048)⟩

/-- The bits of layout VR1. -/
def VR1.toNat (w : VR1) : Nat :=
  w.c.toNat * 2147483648 + w.k.toNat * 1073741824 + w.d.toNat * 262144 + w.a.toNat * 2048

/-- The fields of layout VP in word n. -/
def VP.ofNat (n : Nat) : VP :=
  ⟨BitVec.ofNat 1 (n / 2147483648), BitVec.ofNat 3 (n / 4194304), BitVec.ofNat 2 (n / 1048576), BitVec.ofNat 7 (n / 8192), BitVec.ofNat 7 (n / 64)⟩

/-- The bits of layout VP. -/
def VP.toNat (w : VP) : Nat :=
  w.c.toNat * 2147483648 + w.d.toNat * 4194304 + w.m.toNat * 1048576 + w.a.toNat * 8192 + w.b.toNat * 64

/-- The fields of layout VP1 in word n. -/
def VP1.ofNat (n : Nat) : VP1 :=
  ⟨BitVec.ofNat 1 (n / 2147483648), BitVec.ofNat 3 (n / 4194304), BitVec.ofNat 2 (n / 1048576), BitVec.ofNat 7 (n / 8192)⟩

/-- The bits of layout VP1. -/
def VP1.toNat (w : VP1) : Nat :=
  w.c.toNat * 2147483648 + w.d.toNat * 4194304 + w.m.toNat * 1048576 + w.a.toNat * 8192

/-- The fields of layout VCRS in word n. -/
def VCRS.ofNat (n : Nat) : VCRS :=
  ⟨BitVec.ofNat 1 (n / 2147483648), BitVec.ofNat 1 (n / 1073741824), BitVec.ofNat 7 (n / 262144), BitVec.ofNat 7 (n / 2048), BitVec.ofNat 3 (n / 4), BitVec.ofNat 1 (n / 2)⟩

/-- The bits of layout VCRS. -/
def VCRS.toNat (w : VCRS) : Nat :=
  w.c.toNat * 2147483648 + w.k.toNat * 1073741824 + w.d.toNat * 262144 + w.a.toNat * 2048 + w.r.toNat * 4 + w.s.toNat * 2

/-- The fields of layout VCR in word n. -/
def VCR.ofNat (n : Nat) : VCR :=
  ⟨BitVec.ofNat 1 (n / 2147483648), BitVec.ofNat 1 (n / 1073741824), BitVec.ofNat 7 (n / 262144), BitVec.ofNat 7 (n / 2048), BitVec.ofNat 3 (n / 4)⟩

/-- The bits of layout VCR. -/
def VCR.toNat (w : VCR) : Nat :=
  w.c.toNat * 2147483648 + w.k.toNat * 1073741824 + w.d.toNat * 262144 + w.a.toNat * 2048 + w.r.toNat * 4

/-- The fields of layout VCRSH in word n. -/
def VCRSH.ofNat (n : Nat) : VCRSH :=
  ⟨BitVec.ofNat 1 (n / 2147483648), BitVec.ofNat 1 (n / 1073741824), BitVec.ofNat 7 (n / 262144), BitVec.ofNat 7 (n / 2048), BitVec.ofNat 3 (n / 4), BitVec.ofNat 1 (n / 2), BitVec.ofNat 1 (n / 1)⟩

/-- The bits of layout VCRSH. -/
def VCRSH.toNat (w : VCRSH) : Nat :=
  w.c.toNat * 2147483648 + w.k.toNat * 1073741824 + w.d.toNat * 262144 + w.a.toNat * 2048 + w.r.toNat * 4 + w.s.toNat * 2 + w.h.toNat * 1

/-- The fields of layout VCH in word n. -/
def VCH.ofNat (n : Nat) : VCH :=
  ⟨BitVec.ofNat 1 (n / 2147483648), BitVec.ofNat 1 (n / 1073741824), BitVec.ofNat 7 (n / 262144), BitVec.ofNat 7 (n / 2048), BitVec.ofNat 1 (n / 1)⟩

/-- The bits of layout VCH. -/
def VCH.toNat (w : VCH) : Nat :=
  w.c.toNat * 2147483648 + w.k.toNat * 1073741824 + w.d.toNat * 262144 + w.a.toNat * 2048 + w.h.toNat * 1

/-- The fields of layout VCJRS in word n. -/
def VCJRS.ofNat (n : Nat) : VCJRS :=
  ⟨BitVec.ofNat 1 (n / 2147483648), BitVec.ofNat 1 (n / 1073741824), BitVec.ofNat 7 (n / 262144), BitVec.ofNat 7 (n / 2048), BitVec.ofNat 2 (n / 32), BitVec.ofNat 3 (n / 4), BitVec.ofNat 1 (n / 2)⟩

/-- The bits of layout VCJRS. -/
def VCJRS.toNat (w : VCJRS) : Nat :=
  w.c.toNat * 2147483648 + w.k.toNat * 1073741824 + w.d.toNat * 262144 + w.a.toNat * 2048 + w.j.toNat * 32 + w.r.toNat * 4 + w.s.toNat * 2

/-- The fields of layout VCJ in word n. -/
def VCJ.ofNat (n : Nat) : VCJ :=
  ⟨BitVec.ofNat 1 (n / 2147483648), BitVec.ofNat 1 (n / 1073741824), BitVec.ofNat 7 (n / 262144), BitVec.ofNat 7 (n / 2048), BitVec.ofNat 2 (n / 32)⟩

/-- The bits of layout VCJ. -/
def VCJ.toNat (w : VCJ) : Nat :=
  w.c.toNat * 2147483648 + w.k.toNat * 1073741824 + w.d.toNat * 262144 + w.a.toNat * 2048 + w.j.toNat * 32

/-- The fields of layout VRP in word n. -/
def VRP.ofNat (n : Nat) : VRP :=
  ⟨BitVec.ofNat 1 (n / 2147483648), BitVec.ofNat 1 (n / 1073741824), BitVec.ofNat 7 (n / 262144), BitVec.ofNat 7 (n / 2048), BitVec.ofNat 3 (n / 16)⟩

/-- The bits of layout VRP. -/
def VRP.toNat (w : VRP) : Nat :=
  w.c.toNat * 2147483648 + w.k.toNat * 1073741824 + w.d.toNat * 262144 + w.a.toNat * 2048 + w.p.toNat * 16

/-- The fields of layout R3 in word n. -/
def R3.ofNat (n : Nat) : R3 :=
  ⟨BitVec.ofNat 1 (n / 2147483648), BitVec.ofNat 7 (n / 262144), BitVec.ofNat 7 (n / 2048), BitVec.ofNat 7 (n / 16)⟩

/-- The bits of layout R3. -/
def R3.toNat (w : R3) : Nat :=
  w.c.toNat * 2147483648 + w.d.toNat * 262144 + w.a.toNat * 2048 + w.b.toNat * 16

/-- The fields of layout VI in word n. -/
def VI.ofNat (n : Nat) : VI :=
  ⟨BitVec.ofNat 1 (n / 2147483648), BitVec.ofNat 1 (n / 1073741824), BitVec.ofNat 7 (n / 262144), BitVec.ofNat 7 (n / 2048), BitVec.ofNat 7 (n / 16)⟩

/-- The bits of layout VI. -/
def VI.toNat (w : VI) : Nat :=
  w.c.toNat * 2147483648 + w.k.toNat * 1073741824 + w.d.toNat * 262144 + w.a.toNat * 2048 + w.i.toNat * 16

/-- The fields of layout VI0 in word n. -/
def VI0.ofNat (n : Nat) : VI0 :=
  ⟨BitVec.ofNat 1 (n / 2147483648), BitVec.ofNat 1 (n / 1073741824), BitVec.ofNat 7 (n / 262144), BitVec.ofNat 7 (n / 16)⟩

/-- The bits of layout VI0. -/
def VI0.toNat (w : VI0) : Nat :=
  w.c.toNat * 2147483648 + w.k.toNat * 1073741824 + w.d.toNat * 262144 + w.i.toNat * 16

/-- The fields of layout VR0 in word n. -/
def VR0.ofNat (n : Nat) : VR0 :=
  ⟨BitVec.ofNat 1 (n / 2147483648), BitVec.ofNat 1 (n / 1073741824), BitVec.ofNat 7 (n / 262144)⟩

/-- The bits of layout VR0. -/
def VR0.toNat (w : VR0) : Nat :=
  w.c.toNat * 2147483648 + w.k.toNat * 1073741824 + w.d.toNat * 262144

/-- The fields of layout VRS in word n. -/
def VRS.ofNat (n : Nat) : VRS :=
  ⟨BitVec.ofNat 1 (n / 2147483648), BitVec.ofNat 1 (n / 1073741824), BitVec.ofNat 7 (n / 262144), BitVec.ofNat 7 (n / 2048), BitVec.ofNat 7 (n / 16), BitVec.ofNat 3 (n / 1)⟩

/-- The bits of layout VRS. -/
def VRS.toNat (w : VRS) : Nat :=
  w.c.toNat * 2147483648 + w.k.toNat * 1073741824 + w.d.toNat * 262144 + w.a.toNat * 2048 + w.b.toNat * 16 + w.p.toNat * 1

/-- The fields of layout PR3 in word n. -/
def PR3.ofNat (n : Nat) : PR3 :=
  ⟨BitVec.ofNat 1 (n / 2147483648), BitVec.ofNat 3 (n / 4194304), BitVec.ofNat 3 (n / 524288), BitVec.ofNat 3 (n / 65536)⟩

/-- The bits of layout PR3. -/
def PR3.toNat (w : PR3) : Nat :=
  w.c.toNat * 2147483648 + w.d.toNat * 4194304 + w.a.toNat * 524288 + w.b.toNat * 65536

/-- The fields of layout PR2 in word n. -/
def PR2.ofNat (n : Nat) : PR2 :=
  ⟨BitVec.ofNat 1 (n / 2147483648), BitVec.ofNat 3 (n / 4194304), BitVec.ofNat 3 (n / 524288)⟩

/-- The bits of layout PR2. -/
def PR2.toNat (w : PR2) : Nat :=
  w.c.toNat * 2147483648 + w.d.toNat * 4194304 + w.a.toNat * 524288

/-- The fields of layout PR1 in word n. -/
def PR1.ofNat (n : Nat) : PR1 :=
  ⟨BitVec.ofNat 1 (n / 2147483648), BitVec.ofNat 3 (n / 4194304)⟩

/-- The bits of layout PR1. -/
def PR1.toNat (w : PR1) : Nat :=
  w.c.toNat * 2147483648 + w.d.toNat * 4194304

/-- The fields of layout PRDS in word n. -/
def PRDS.ofNat (n : Nat) : PRDS :=
  ⟨BitVec.ofNat 1 (n / 2147483648), BitVec.ofNat 3 (n / 4194304), BitVec.ofNat 7 (n / 512)⟩

/-- The bits of layout PRDS. -/
def PRDS.toNat (w : PRDS) : Nat :=
  w.c.toNat * 2147483648 + w.d.toNat * 4194304 + w.s.toNat * 512

/-- The fields of layout PRAS in word n. -/
def PRAS.ofNat (n : Nat) : PRAS :=
  ⟨BitVec.ofNat 1 (n / 2147483648), BitVec.ofNat 3 (n / 524288), BitVec.ofNat 7 (n / 512)⟩

/-- The bits of layout PRAS. -/
def PRAS.toNat (w : PRAS) : Nat :=
  w.c.toNat * 2147483648 + w.a.toNat * 524288 + w.s.toNat * 512

/-- The fields of layout PRA in word n. -/
def PRA.ofNat (n : Nat) : PRA :=
  ⟨BitVec.ofNat 1 (n / 2147483648), BitVec.ofNat 3 (n / 524288)⟩

/-- The bits of layout PRA. -/
def PRA.toNat (w : PRA) : Nat :=
  w.c.toNat * 2147483648 + w.a.toNat * 524288

/-- The fields of layout SI in word n. -/
def SI.ofNat (n : Nat) : SI :=
  ⟨BitVec.ofNat 1 (n / 2147483648), BitVec.ofNat 1 (n / 1073741824), BitVec.ofNat 7 (n / 262144), BitVec.ofNat 7 (n / 2048), BitVec.ofNat 8 (n / 8)⟩

/-- The bits of layout SI. -/
def SI.toNat (w : SI) : Nat :=
  w.c.toNat * 2147483648 + w.k.toNat * 1073741824 + w.d.toNat * 262144 + w.a.toNat * 2048 + w.i.toNat * 8

/-- The fields of layout SKK in word n. -/
def SKK.ofNat (n : Nat) : SKK :=
  ⟨BitVec.ofNat 1 (n / 2147483648), BitVec.ofNat 1 (n / 1073741824), BitVec.ofNat 7 (n / 262144), BitVec.ofNat 17 (n / 1)⟩

/-- The bits of layout SKK. -/
def SKK.toNat (w : SKK) : Nat :=
  w.c.toNat * 2147483648 + w.k.toNat * 1073741824 + w.d.toNat * 262144 + w.i.toNat * 1

/-- The fields of layout SKN in word n. -/
def SKN.ofNat (n : Nat) : SKN :=
  ⟨BitVec.ofNat 1 (n / 2147483648), BitVec.ofNat 7 (n / 262144), BitVec.ofNat 17 (n / 1)⟩

/-- The bits of layout SKN. -/
def SKN.toNat (w : SKN) : Nat :=
  w.c.toNat * 2147483648 + w.d.toNat * 262144 + w.i.toNat * 1

/-- The fields of layout CTK in word n. -/
def CTK.ofNat (n : Nat) : CTK :=
  ⟨BitVec.ofNat 1 (n / 2147483648), BitVec.ofNat 1 (n / 1073741824), BitVec.ofNat 7 (n / 262144), BitVec.ofNat 10 (n / 256)⟩

/-- The bits of layout CTK. -/
def CTK.toNat (w : CTK) : Nat :=
  w.c.toNat * 2147483648 + w.k.toNat * 1073741824 + w.s.toNat * 262144 + w.n.toNat * 256

/-- The fields of layout CTN in word n. -/
def CTN.ofNat (n : Nat) : CTN :=
  ⟨BitVec.ofNat 1 (n / 2147483648), BitVec.ofNat 7 (n / 262144), BitVec.ofNat 10 (n / 256)⟩

/-- The bits of layout CTN. -/
def CTN.toNat (w : CTN) : Nat :=
  w.c.toNat * 2147483648 + w.s.toNat * 262144 + w.n.toNat * 256

/-- The fields of layout CTT in word n. -/
def CTT.ofNat (n : Nat) : CTT :=
  ⟨BitVec.ofNat 1 (n / 2147483648), BitVec.ofNat 7 (n / 262144), BitVec.ofNat 4 (n / 256)⟩

/-- The bits of layout CTT. -/
def CTT.toNat (w : CTT) : Nat :=
  w.c.toNat * 2147483648 + w.s.toNat * 262144 + w.t.toNat * 256

/-- The fields of layout S1 in word n. -/
def S1.ofNat (n : Nat) : S1 :=
  ⟨BitVec.ofNat 1 (n / 2147483648), BitVec.ofNat 7 (n / 262144)⟩

/-- The bits of layout S1. -/
def S1.toNat (w : S1) : Nat :=
  w.c.toNat * 2147483648 + w.s.toNat * 262144

/-- The fields of layout BJ in word n. -/
def BJ.ofNat (n : Nat) : BJ :=
  ⟨BitVec.ofNat 1 (n / 2147483648), BitVec.ofNat 25 (n / 1)⟩

/-- The bits of layout BJ. -/
def BJ.toNat (w : BJ) : Nat :=
  w.c.toNat * 2147483648 + w.o.toNat * 1

/-- The fields of layout BC in word n. -/
def BC.ofNat (n : Nat) : BC :=
  ⟨BitVec.ofNat 1 (n / 2147483648), BitVec.ofNat 6 (n / 524288), BitVec.ofNat 6 (n / 8192), BitVec.ofNat 10 (n / 1)⟩

/-- The bits of layout BC. -/
def BC.toNat (w : BC) : Nat :=
  w.c.toNat * 2147483648 + w.a.toNat * 524288 + w.b.toNat * 8192 + w.o.toNat * 1

/-- The fields of layout BC1 in word n. -/
def BC1.ofNat (n : Nat) : BC1 :=
  ⟨BitVec.ofNat 1 (n / 2147483648), BitVec.ofNat 6 (n / 524288), BitVec.ofNat 10 (n / 1)⟩

/-- The bits of layout BC1. -/
def BC1.toNat (w : BC1) : Nat :=
  w.c.toNat * 2147483648 + w.a.toNat * 524288 + w.o.toNat * 1

/-- The fields of layout BQ in word n. -/
def BQ.ofNat (n : Nat) : BQ :=
  ⟨BitVec.ofNat 1 (n / 2147483648), BitVec.ofNat 3 (n / 4194304), BitVec.ofNat 20 (n / 1)⟩

/-- The bits of layout BQ. -/
def BQ.toNat (w : BQ) : Nat :=
  w.c.toNat * 2147483648 + w.p.toNat * 4194304 + w.o.toNat * 1

/-- The fields of layout C0 in word n. -/
def C0.ofNat (n : Nat) : C0 :=
  ⟨BitVec.ofNat 1 (n / 2147483648)⟩

/-- The bits of layout C0. -/
def C0.toNat (w : C0) : Nat :=
  w.c.toNat * 2147483648

/-- The fields of layout FI in word n. -/
def FI.ofNat (n : Nat) : FI :=
  ⟨BitVec.ofNat 1 (n / 2147483648), BitVec.ofNat 14 (n / 16)⟩

/-- The bits of layout FI. -/
def FI.toNat (w : FI) : Nat :=
  w.c.toNat * 2147483648 + w.i.toNat * 16

/-- The fields of layout FH in word n. -/
def FH.ofNat (n : Nat) : FH :=
  ⟨BitVec.ofNat 1 (n / 2147483648), BitVec.ofNat 1 (n / 16)⟩

/-- The bits of layout FH. -/
def FH.toNat (w : FH) : Nat :=
  w.c.toNat * 2147483648 + w.h.toNat * 16

/-- The fields of layout FSI in word n. -/
def FSI.ofNat (n : Nat) : FSI :=
  ⟨BitVec.ofNat 1 (n / 2147483648), BitVec.ofNat 7 (n / 262144), BitVec.ofNat 14 (n / 16)⟩

/-- The bits of layout FSI. -/
def FSI.toNat (w : FSI) : Nat :=
  w.c.toNat * 2147483648 + w.s.toNat * 262144 + w.i.toNat * 16

/-- The fields of layout RAB in word n. -/
def RAB.ofNat (n : Nat) : RAB :=
  ⟨BitVec.ofNat 1 (n / 2147483648), BitVec.ofNat 7 (n / 2048), BitVec.ofNat 7 (n / 16)⟩

/-- The bits of layout RAB. -/
def RAB.toNat (w : RAB) : Nat :=
  w.c.toNat * 2147483648 + w.a.toNat * 2048 + w.b.toNat * 16

/-- The fields of layout R2 in word n. -/
def R2.ofNat (n : Nat) : R2 :=
  ⟨BitVec.ofNat 1 (n / 2147483648), BitVec.ofNat 7 (n / 262144), BitVec.ofNat 7 (n / 2048)⟩

/-- The bits of layout R2. -/
def R2.toNat (w : R2) : Nat :=
  w.c.toNat * 2147483648 + w.d.toNat * 262144 + w.a.toNat * 2048

/-- The fields of layout RA in word n. -/
def RA.ofNat (n : Nat) : RA :=
  ⟨BitVec.ofNat 1 (n / 2147483648), BitVec.ofNat 7 (n / 2048)⟩

/-- The bits of layout RA. -/
def RA.toNat (w : RA) : Nat :=
  w.c.toNat * 2147483648 + w.a.toNat * 2048

/-- The fields of layout MS in word n. -/
def MS.ofNat (n : Nat) : MS :=
  ⟨BitVec.ofNat 1 (n / 2147483648), BitVec.ofNat 7 (n / 262144), BitVec.ofNat 7 (n / 2048), BitVec.ofNat 4 (n / 128), BitVec.ofNat 2 (n / 32), BitVec.ofNat 2 (n / 8), BitVec.ofNat 3 (n / 1)⟩

/-- The bits of layout MS. -/
def MS.toNat (w : MS) : Nat :=
  w.c.toNat * 2147483648 + w.v.toNat * 262144 + w.a.toNat * 2048 + w.b.toNat * 128 + w.z.toNat * 32 + w.e.toNat * 8 + w.m.toNat * 1

/-- The fields of layout MC in word n. -/
def MC.ofNat (n : Nat) : MC :=
  ⟨BitVec.ofNat 1 (n / 2147483648), BitVec.ofNat 7 (n / 262144), BitVec.ofNat 6 (n / 4096), BitVec.ofNat 10 (n / 4), BitVec.ofNat 2 (n / 1)⟩

/-- The bits of layout MC. -/
def MC.toNat (w : MC) : Nat :=
  w.c.toNat * 2147483648 + w.v.toNat * 262144 + w.b.toNat * 4096 + w.o.toNat * 4 + w.e.toNat * 1

/-- The fields of layout MG in word n. -/
def MG.ofNat (n : Nat) : MG :=
  ⟨BitVec.ofNat 1 (n / 2147483648), BitVec.ofNat 7 (n / 262144), BitVec.ofNat 7 (n / 2048), BitVec.ofNat 4 (n / 128), BitVec.ofNat 2 (n / 32), BitVec.ofNat 2 (n / 8), BitVec.ofNat 1 (n / 4), BitVec.ofNat 2 (n / 1)⟩

/-- The bits of layout MG. -/
def MG.toNat (w : MG) : Nat :=
  w.c.toNat * 2147483648 + w.v.toNat * 262144 + w.i.toNat * 2048 + w.b.toNat * 128 + w.e.toNat * 32 + w.w.toNat * 8 + w.g.toNat * 4 + w.s.toNat * 1

/-- The fields of layout AT in word n. -/
def AT.ofNat (n : Nat) : AT :=
  ⟨BitVec.ofNat 1 (n / 2147483648), BitVec.ofNat 7 (n / 262144), BitVec.ofNat 7 (n / 2048), BitVec.ofNat 4 (n / 128), BitVec.ofNat 2 (n / 2), BitVec.ofNat 1 (n / 1)⟩

/-- The bits of layout AT. -/
def AT.toNat (w : AT) : Nat :=
  w.c.toNat * 2147483648 + w.v.toNat * 262144 + w.i.toNat * 2048 + w.b.toNat * 128 + w.t.toNat * 2 + w.n.toNat * 1

/-- The fields of layout MXF in word n. -/
def MXF.ofNat (n : Nat) : MXF :=
  ⟨BitVec.ofNat 1 (n / 2147483648), BitVec.ofNat 4 (n / 128), BitVec.ofNat 4 (n / 1)⟩

/-- The bits of layout MXF. -/
def MXF.toNat (w : MXF) : Nat :=
  w.c.toNat * 2147483648 + w.s.toNat * 128 + w.f.toNat * 1

/-- The fields of layout MXW in word n. -/
def MXW.ofNat (n : Nat) : MXW :=
  ⟨BitVec.ofNat 1 (n / 2147483648), BitVec.ofNat 7 (n / 262144), BitVec.ofNat 7 (n / 2048), BitVec.ofNat 4 (n / 128), BitVec.ofNat 1 (n / 1)⟩

/-- The bits of layout MXW. -/
def MXW.toNat (w : MXW) : Nat :=
  w.c.toNat * 2147483648 + w.v.toNat * 262144 + w.i.toNat * 2048 + w.b.toNat * 128 + w.w.toNat * 1

/-- The fields of layout MXT in word n. -/
def MXT.ofNat (n : Nat) : MXT :=
  ⟨BitVec.ofNat 1 (n / 2147483648), BitVec.ofNat 7 (n / 262144), BitVec.ofNat 7 (n / 2048), BitVec.ofNat 4 (n / 128), BitVec.ofNat 2 (n / 1)⟩

/-- The bits of layout MXT. -/
def MXT.toNat (w : MXT) : Nat :=
  w.c.toNat * 2147483648 + w.v.toNat * 262144 + w.i.toNat * 2048 + w.b.toNat * 128 + w.t.toNat * 1

/-- The fields of layout MXL in word n. -/
def MXL.ofNat (n : Nat) : MXL :=
  ⟨BitVec.ofNat 1 (n / 2147483648), BitVec.ofNat 7 (n / 2048), BitVec.ofNat 4 (n / 128), BitVec.ofNat 1 (n / 1)⟩

/-- The bits of layout MXL. -/
def MXL.toNat (w : MXL) : Nat :=
  w.c.toNat * 2147483648 + w.i.toNat * 2048 + w.b.toNat * 128 + w.l.toNat * 1

/-- The fields of layout MXN in word n. -/
def MXN.ofNat (n : Nat) : MXN :=
  ⟨BitVec.ofNat 1 (n / 2147483648), BitVec.ofNat 7 (n / 2048), BitVec.ofNat 4 (n / 128), BitVec.ofNat 1 (n / 1)⟩

/-- The bits of layout MXN. -/
def MXN.toNat (w : MXN) : Nat :=
  w.c.toNat * 2147483648 + w.i.toNat * 2048 + w.b.toNat * 128 + w.n.toNat * 1

/-- The fields of layout MM in word n. -/
def MM.ofNat (n : Nat) : MM :=
  ⟨BitVec.ofNat 1 (n / 2147483648), BitVec.ofNat 4 (n / 2097152), BitVec.ofNat 4 (n / 131072), BitVec.ofNat 7 (n / 1024)⟩

/-- The bits of layout MM. -/
def MM.toNat (w : MM) : Nat :=
  w.c.toNat * 2147483648 + w.a.toNat * 2097152 + w.b.toNat * 131072 + w.v.toNat * 1024

/-- The fields of layout MMLF in word n. -/
def MMLF.ofNat (n : Nat) : MMLF :=
  ⟨BitVec.ofNat 1 (n / 2147483648), BitVec.ofNat 4 (n / 2097152), BitVec.ofNat 4 (n / 131072), BitVec.ofNat 7 (n / 1024), BitVec.ofNat 1 (n / 32), BitVec.ofNat 1 (n / 16)⟩

/-- The bits of layout MMLF. -/
def MMLF.toNat (w : MMLF) : Nat :=
  w.c.toNat * 2147483648 + w.a.toNat * 2097152 + w.b.toNat * 131072 + w.v.toNat * 1024 + w.l.toNat * 32 + w.f.toNat * 16

/-- The fields of layout MMD in word n. -/
def MMD.ofNat (n : Nat) : MMD :=
  ⟨BitVec.ofNat 1 (n / 2147483648), BitVec.ofNat 4 (n / 2097152), BitVec.ofNat 4 (n / 131072), BitVec.ofNat 7 (n / 1024), BitVec.ofNat 3 (n / 128), BitVec.ofNat 3 (n / 16)⟩

/-- The bits of layout MMD. -/
def MMD.toNat (w : MMD) : Nat :=
  w.c.toNat * 2147483648 + w.a.toNat * 2097152 + w.b.toNat * 131072 + w.v.toNat * 1024 + w.y.toNat * 128 + w.s.toNat * 16

/-- The fields of layout MMA1 in word n. -/
def MMA1.ofNat (n : Nat) : MMA1 :=
  ⟨BitVec.ofNat 1 (n / 2147483648), BitVec.ofNat 4 (n / 2097152), BitVec.ofNat 7 (n / 1024)⟩

/-- The bits of layout MMA1. -/
def MMA1.toNat (w : MMA1) : Nat :=
  w.c.toNat * 2147483648 + w.a.toNat * 2097152 + w.v.toNat * 1024

/-- Major 0x00, VIA (format VR). -/
def decodeVIA (n : Nat) : Except DecodeErr Instr :=
  match n / 1 % 16 with
  | 0 => .ok (.vadd (.ofNat n))
  | 1 => .ok (.vsub (.ofNat n))
  | 2 => .ok (.vmul (.ofNat n))
  | 3 => .ok (.vmulh (.ofNat n))
  | 4 => .ok (.vmulhu (.ofNat n))
  | 5 => .ok (.vmad (.ofNat n))
  | 6 => .ok (.vmin (.ofNat n))
  | 7 => .ok (.vmax (.ofNat n))
  | 8 => .ok (.vminu (.ofNat n))
  | 9 => .ok (.vmaxu (.ofNat n))
  | 10 => .ok (.vadds (.ofNat n))
  | 11 => .ok (.vsubs (.ofNat n))
  | 12 => .ok (.vdiv (.ofNat n))
  | 13 => .ok (.vdivu (.ofNat n))
  | 14 => .ok (.vrem (.ofNat n))
  | _ => .ok (.vremu (.ofNat n))

/-- Major 0x01, VIB (format VR). -/
def decodeVIB (n : Nat) : Except DecodeErr Instr :=
  match n / 1 % 16 with
  | 0 => .ok (.vand (.ofNat n))
  | 1 => .ok (.vor (.ofNat n))
  | 2 => .ok (.vxor (.ofNat n))
  | 3 => .ok (.vandn (.ofNat n))
  | 4 => .ok (.vshl (.ofNat n))
  | 5 => .ok (.vshr (.ofNat n))
  | 6 => .ok (.vsra (.ofNat n))
  | 7 => .ok (.vrol (.ofNat n))
  | 8 => zeros (n / 16 % 128 == 0) (.vpopc (.ofNat n))
  | 9 => zeros (n / 16 % 128 == 0) (.vclz (.ofNat n))
  | 10 => zeros (n / 16 % 128 == 0) (.vbrev (.ofNat n))
  | 11 => .ok (.vadd64 (.ofNat n))
  | 12 => .ok (.vsub64 (.ofNat n))
  | 13 => .ok (.vmulw (.ofNat n))
  | 14 => .ok (.vshl64 (.ofNat n))
  | _ => .ok (.vshr64 (.ofNat n))

/-- Major 0x02, VCMP (format VP). -/
def decodeVCMP (n : Nat) : Except DecodeErr Instr :=
  match n / 1 % 64 with
  | 0 => zeros (n / 1073741824 % 2 == 0) (.vcmpI32Eq (.ofNat n))
  | 1 => zeros (n / 1073741824 % 2 == 0) (.vcmpI32Ne (.ofNat n))
  | 2 => zeros (n / 1073741824 % 2 == 0) (.vcmpI32Lt (.ofNat n))
  | 3 => zeros (n / 1073741824 % 2 == 0) (.vcmpI32Le (.ofNat n))
  | 4 => zeros (n / 1073741824 % 2 == 0) (.vcmpI32Ltu (.ofNat n))
  | 5 => zeros (n / 1073741824 % 2 == 0) (.vcmpI32Leu (.ofNat n))
  | 6 => zeros (n / 64 % 128 == 0 && n / 1073741824 % 2 == 0) (.vcmpI32Eqz (.ofNat n))
  | 7 => zeros (n / 64 % 128 == 0 && n / 1073741824 % 2 == 0) (.vcmpI32Nez (.ofNat n))
  | 8 => zeros (n / 1073741824 % 2 == 0) (.vcmpI64Eq (.ofNat n))
  | 9 => zeros (n / 1073741824 % 2 == 0) (.vcmpI64Ne (.ofNat n))
  | 10 => zeros (n / 1073741824 % 2 == 0) (.vcmpI64Lt (.ofNat n))
  | 11 => zeros (n / 1073741824 % 2 == 0) (.vcmpI64Le (.ofNat n))
  | 12 => zeros (n / 1073741824 % 2 == 0) (.vcmpI64Ltu (.ofNat n))
  | 13 => zeros (n / 1073741824 % 2 == 0) (.vcmpI64Leu (.ofNat n))
  | 14 => zeros (n / 64 % 128 == 0 && n / 1073741824 % 2 == 0) (.vcmpI64Eqz (.ofNat n))
  | 15 => zeros (n / 64 % 128 == 0 && n / 1073741824 % 2 == 0) (.vcmpI64Nez (.ofNat n))
  | 16 => zeros (n / 1073741824 % 2 == 0) (.vcmpF32Eq (.ofNat n))
  | 17 => zeros (n / 1073741824 % 2 == 0) (.vcmpF32Lt (.ofNat n))
  | 18 => zeros (n / 1073741824 % 2 == 0) (.vcmpF32Le (.ofNat n))
  | 19 => zeros (n / 1073741824 % 2 == 0) (.vcmpF32Ne (.ofNat n))
  | 20 => zeros (n / 1073741824 % 2 == 0) (.vcmpF32Un (.ofNat n))
  | 21 => zeros (n / 1073741824 % 2 == 0) (.vcmpF32Ord (.ofNat n))
  | 22 => zeros (n / 64 % 128 == 0 && n / 1073741824 % 2 == 0) (.vcmpF32Isnan (.ofNat n))
  | 23 => zeros (n / 64 % 128 == 0 && n / 1073741824 % 2 == 0) (.vcmpF32Isinf (.ofNat n))
  | 24 => zeros (n / 1073741824 % 2 == 0) (.vcmpF64Eq (.ofNat n))
  | 25 => zeros (n / 1073741824 % 2 == 0) (.vcmpF64Lt (.ofNat n))
  | 26 => zeros (n / 1073741824 % 2 == 0) (.vcmpF64Le (.ofNat n))
  | 27 => zeros (n / 1073741824 % 2 == 0) (.vcmpF64Ne (.ofNat n))
  | 28 => zeros (n / 1073741824 % 2 == 0) (.vcmpF64Un (.ofNat n))
  | 29 => zeros (n / 1073741824 % 2 == 0) (.vcmpF64Ord (.ofNat n))
  | 30 => zeros (n / 64 % 128 == 0 && n / 1073741824 % 2 == 0) (.vcmpF64Isnan (.ofNat n))
  | 31 => zeros (n / 64 % 128 == 0 && n / 1073741824 % 2 == 0) (.vcmpF64Isinf (.ofNat n))
  | _ => .error .illegalOp

/-- Major 0x03, VF (format VR). -/
def decodeVF (n : Nat) : Except DecodeErr Instr :=
  match n / 1 % 16 with
  | 0 => .ok (.fadd (.ofNat n))
  | 1 => .ok (.fsub (.ofNat n))
  | 2 => .ok (.fmul (.ofNat n))
  | 3 => .ok (.fmac (.ofNat n))
  | 4 => .ok (.fnmac (.ofNat n))
  | 5 => .ok (.fmin (.ofNat n))
  | 6 => .ok (.fmax (.ofNat n))
  | 7 => .ok (.fdiv (.ofNat n))
  | 8 => zeros (n / 16 % 128 == 0) (.fsqrt (.ofNat n))
  | 9 => zeros (n / 16 % 128 == 0) (.frcpe (.ofNat n))
  | 10 => zeros (n / 16 % 128 == 0) (.frsqe (.ofNat n))
  | 11 => .ok (.fsgnj (.ofNat n))
  | 12 => .ok (.fsgnjn (.ofNat n))
  | 13 => .ok (.fsgnjx (.ofNat n))
  | 14 => zeros (n / 16 % 128 == 0) (.fclass (.ofNat n))
  | _ => .ok (.fscale (.ofNat n))

/-- Major 0x04, VD (format VR). -/
def decodeVD (n : Nat) : Except DecodeErr Instr :=
  match n / 1 % 16 with
  | 0 => .ok (.dadd (.ofNat n))
  | 1 => .ok (.dsub (.ofNat n))
  | 2 => .ok (.dmul (.ofNat n))
  | 3 => .ok (.dmac (.ofNat n))
  | 4 => .ok (.dnmac (.ofNat n))
  | 5 => .ok (.dmin (.ofNat n))
  | 6 => .ok (.dmax (.ofNat n))
  | 7 => .ok (.ddiv (.ofNat n))
  | 8 => zeros (n / 16 % 128 == 0) (.dsqrt (.ofNat n))
  | 9 => zeros (n / 16 % 128 == 0) (.drcpe (.ofNat n))
  | 10 => zeros (n / 16 % 128 == 0) (.drsqe (.ofNat n))
  | 11 => .ok (.dsgnj (.ofNat n))
  | 12 => .ok (.dsgnjn (.ofNat n))
  | 13 => .ok (.dsgnjx (.ofNat n))
  | 14 => zeros (n / 16 % 128 == 0) (.dclass (.ofNat n))
  | _ => .ok (.dscale (.ofNat n))

/-- Major 0x05, VH (format VR). -/
def decodeVH (n : Nat) : Except DecodeErr Instr :=
  match n / 1 % 16 with
  | 0 => .ok (.hadd2 (.ofNat n))
  | 1 => .ok (.hsub2 (.ofNat n))
  | 2 => .ok (.hmul2 (.ofNat n))
  | 3 => .ok (.hmac2 (.ofNat n))
  | 4 => .ok (.hmin2 (.ofNat n))
  | 5 => .ok (.hmax2 (.ofNat n))
  | 6 => .ok (.badd2 (.ofNat n))
  | 7 => .ok (.bsub2 (.ofNat n))
  | 8 => .ok (.bmul2 (.ofNat n))
  | 9 => .ok (.bmac2 (.ofNat n))
  | 10 => .ok (.bmin2 (.ofNat n))
  | 11 => .ok (.bmax2 (.ofNat n))
  | 12 => .ok (.hdot2 (.ofNat n))
  | 13 => .ok (.bdot2 (.ofNat n))
  | 14 => .ok (.qdot4 (.ofNat n))
  | _ => .ok (.idot4 (.ofNat n))

/-- Major 0x06, VCVT (format VC). -/
noncomputable def decodeVCVT (n : Nat) : Except DecodeErr Instr :=
  match n / 32 % 64 with
  | 0 => zeros (n / 1 % 2 == 0) (.vcvtF32I32 (.ofNat n))
  | 1 => zeros (n / 1 % 2 == 0) (.vcvtF32U32 (.ofNat n))
  | 2 => zeros (n / 1 % 4 == 0) (.vcvtI32F32 (.ofNat n))
  | 3 => zeros (n / 1 % 4 == 0) (.vcvtU32F32 (.ofNat n))
  | 4 => zeros (n / 1 % 2 == 0) (.vcvtF32F64 (.ofNat n))
  | 5 => zeros (n / 1 % 32 == 0) (.vcvtF64F32 (.ofNat n))
  | 6 => zeros (n / 1 % 32 == 0) (.vcvtF64I32 (.ofNat n))
  | 7 => zeros (n / 1 % 32 == 0) (.vcvtF64U32 (.ofNat n))
  | 8 => zeros (n / 1 % 4 == 0) (.vcvtI32F64 (.ofNat n))
  | 9 => zeros (n / 1 % 4 == 0) (.vcvtU32F64 (.ofNat n))
  | 10 => zeros (n / 1 % 2 == 0) (.vcvtF64I64 (.ofNat n))
  | 11 => zeros (n / 1 % 4 == 0) (.vcvtI64F64 (.ofNat n))
  | 12 => zeros (n / 1 % 2 == 0) (.vcvtF32I64 (.ofNat n))
  | 13 => zeros (n / 1 % 4 == 0) (.vcvtI64F32 (.ofNat n))
  | 14 => zeros (n / 1 % 4 == 0) (.frint (.ofNat n))
  | 15 => zeros (n / 1 % 4 == 0) (.drint (.ofNat n))
  | 16 => .ok (.vcvtF16F32 (.ofNat n))
  | 17 => zeros (n / 2 % 16 == 0) (.vcvtF32F16 (.ofNat n))
  | 18 => .ok (.vcvtBf16F32 (.ofNat n))
  | 19 => zeros (n / 2 % 16 == 0) (.vcvtF32Bf16 (.ofNat n))
  | 32 => zeros (n / 1 % 2 == 0) (.vcvtE4m3F32 (.ofNat n))
  | 33 => zeros (n / 1 % 2 == 0) (.vcvtE4m3F32 (.ofNat n))
  | 34 => zeros (n / 1 % 2 == 0) (.vcvtE4m3F32 (.ofNat n))
  | 35 => zeros (n / 1 % 2 == 0) (.vcvtE4m3F32 (.ofNat n))
  | 36 => zeros (n / 1 % 2 == 0) (.vcvtE5m2F32 (.ofNat n))
  | 37 => zeros (n / 1 % 2 == 0) (.vcvtE5m2F32 (.ofNat n))
  | 38 => zeros (n / 1 % 2 == 0) (.vcvtE5m2F32 (.ofNat n))
  | 39 => zeros (n / 1 % 2 == 0) (.vcvtE5m2F32 (.ofNat n))
  | 40 => zeros (n / 1 % 32 == 0) (.vcvtF32E4m3 (.ofNat n))
  | 41 => zeros (n / 1 % 32 == 0) (.vcvtF32E4m3 (.ofNat n))
  | 42 => zeros (n / 1 % 32 == 0) (.vcvtF32E4m3 (.ofNat n))
  | 43 => zeros (n / 1 % 32 == 0) (.vcvtF32E4m3 (.ofNat n))
  | 44 => zeros (n / 1 % 32 == 0) (.vcvtF32E5m2 (.ofNat n))
  | 45 => zeros (n / 1 % 32 == 0) (.vcvtF32E5m2 (.ofNat n))
  | 46 => zeros (n / 1 % 32 == 0) (.vcvtF32E5m2 (.ofNat n))
  | 47 => zeros (n / 1 % 32 == 0) (.vcvtF32E5m2 (.ofNat n))
  | 48 => zeros (n / 2 % 16 == 0) (.vcvtF16E4m3 (.ofNat n))
  | 49 => zeros (n / 2 % 16 == 0) (.vcvtF16E5m2 (.ofNat n))
  | _ => .error .illegalOp

/-- Major 0x07, VX (format VR). -/
noncomputable def decodeVX (n : Nat) : Except DecodeErr Instr :=
  match n / 1 % 16 with
  | 0 => .ok (.vperm (.ofNat n))
  | 1 => .ok (.vbcl (.ofNat n))
  | 2 => .ok (.vrotl (.ofNat n))
  | 3 => .ok (.vxorl (.ofNat n))
  | 4 => .ok (.vupl (.ofNat n))
  | 5 => .ok (.vdnl (.ofNat n))
  | 6 => zeros (n / 16 % 128 == 0) (.iredadd (.ofNat n))
  | 7 => zeros (n / 16 % 128 == 0) (.iredmin (.ofNat n))
  | 8 => zeros (n / 16 % 128 == 0) (.iredmax (.ofNat n))
  | 9 => zeros (n / 16 % 128 == 0) (.fredadd (.ofNat n))
  | 10 => zeros (n / 16 % 128 == 0) (.fredmin (.ofNat n))
  | 11 => zeros (n / 16 % 128 == 0) (.fredmax (.ofNat n))
  | 12 => zeros (n / 16 % 128 == 0) (.iscan (.ofNat n))
  | 13 => zeros (n / 16 % 128 == 0) (.fscan (.ofNat n))
  | 14 => zeros (n / 128 % 16 == 0) (.vcompact (.ofNat n))
  | _ => zeros (n / 1073741824 % 2 == 0) (.vxchg (.ofNat n))

/-- Major 0x08, VIM (format VI). -/
noncomputable def decodeVIM (n : Nat) : Except DecodeErr Instr :=
  match n / 1 % 16 with
  | 0 => .ok (.vaddi (.ofNat n))
  | 1 => .ok (.vmuli (.ofNat n))
  | 2 => .ok (.vandi (.ofNat n))
  | 3 => .ok (.vori (.ofNat n))
  | 4 => .ok (.vxori (.ofNat n))
  | 5 => .ok (.vshli (.ofNat n))
  | 6 => .ok (.vshri (.ofNat n))
  | 7 => .ok (.vsrai (.ofNat n))
  | 8 => .ok (.vmini (.ofNat n))
  | 9 => .ok (.vmaxi (.ofNat n))
  | 10 => .ok (.vshl64i (.ofNat n))
  | 11 => .ok (.vshr64i (.ofNat n))
  | 12 => zeros (n / 2048 % 128 == 0) (.vsplati (.ofNat n))
  | 13 => zeros (n / 2048 % 128 == 0) (.viota (.ofNat n))
  | _ => .error .illegalOp

/-- Major 0x09, VMV (format VR). -/
noncomputable def decodeVMV (n : Nat) : Except DecodeErr Instr :=
  match n / 1 % 16 with
  | 0 => zeros (n / 16 % 128 == 0) (.vmov (.ofNat n))
  | 1 => zeros (n / 16 % 128 == 0) (.vbcs (.ofNat n))
  | 2 => .ok (.vgetl (.ofNat n))
  | 3 => .ok (.vsetl (.ofNat n))
  | 4 => zeros (n / 16 % 128 == 0) (.vmovxr (.ofNat n))
  | 5 => zeros (n / 16 % 128 == 0) (.vmovxw (.ofNat n))
  | 6 => zeros (n / 16 % 16384 == 0) (.vlane (.ofNat n))
  | 8 => .ok (.vsel (.ofNat n))
  | 9 => .ok (.vsel (.ofNat n))
  | 10 => .ok (.vsel (.ofNat n))
  | 11 => .ok (.vsel (.ofNat n))
  | 12 => .ok (.vsel (.ofNat n))
  | 13 => .ok (.vsel (.ofNat n))
  | 14 => .ok (.vsel (.ofNat n))
  | 15 => .ok (.vsel (.ofNat n))
  | _ => .error .illegalOp

/-- Major 0x0A, PRD (format PR). -/
noncomputable def decodePRD (n : Nat) : Except DecodeErr Instr :=
  match n / 1 % 16 with
  | 0 => zeros (n / 16 % 4096 == 0 && n / 1073741824 % 2 == 0) (.pand (.ofNat n))
  | 1 => zeros (n / 16 % 4096 == 0 && n / 1073741824 % 2 == 0) (.por (.ofNat n))
  | 2 => zeros (n / 16 % 4096 == 0 && n / 1073741824 % 2 == 0) (.pxor (.ofNat n))
  | 3 => zeros (n / 16 % 4096 == 0 && n / 1073741824 % 2 == 0) (.pandn (.ofNat n))
  | 4 => zeros (n / 16 % 32768 == 0 && n / 1073741824 % 2 == 0) (.pnot (.ofNat n))
  | 5 => zeros (n / 16 % 262144 == 0 && n / 1073741824 % 2 == 0) (.pset (.ofNat n))
  | 6 => zeros (n / 16 % 262144 == 0 && n / 1073741824 % 2 == 0) (.pclr (.ofNat n))
  | 7 => zeros (n / 16 % 32 == 0 && n / 65536 % 64 == 0 && n / 1073741824 % 2 == 0) (.pfroms (.ofNat n))
  | 8 => zeros (n / 16 % 32 == 0 && n / 65536 % 8 == 0 && n / 4194304 % 8 == 0 && n / 1073741824 % 2 == 0) (.ptos (.ofNat n))
  | 9 => zeros (n / 16 % 32768 == 0 && n / 4194304 % 8 == 0 && n / 1073741824 % 2 == 0) (.pexec (.ofNat n))
  | 10 => zeros (n / 16 % 32 == 0 && n / 65536 % 8 == 0 && n / 4194304 % 8 == 0 && n / 1073741824 % 2 == 0) (.pcount (.ofNat n))
  | _ => .error .illegalOp

/-- Major 0x0B, SA (format SR). -/
noncomputable def decodeSA (n : Nat) : Except DecodeErr Instr :=
  match n / 1 % 16 with
  | 0 => .ok (.sadd (.ofNat n))
  | 1 => .ok (.ssub (.ofNat n))
  | 2 => .ok (.smul (.ofNat n))
  | 3 => .ok (.smulhu (.ofNat n))
  | 4 => .ok (.sdiv (.ofNat n))
  | 5 => .ok (.sdivu (.ofNat n))
  | 6 => .ok (.srem (.ofNat n))
  | 7 => .ok (.sremu (.ofNat n))
  | 8 => .ok (.sand (.ofNat n))
  | 9 => .ok (.sor (.ofNat n))
  | 10 => .ok (.sxor (.ofNat n))
  | 11 => .ok (.sshl (.ofNat n))
  | 12 => .ok (.sshr (.ofNat n))
  | 13 => .ok (.ssra (.ofNat n))
  | 14 => .ok (.sslt (.ofNat n))
  | _ => .ok (.ssltu (.ofNat n))

/-- Major 0x0C, SI (format SI). -/
noncomputable def decodeSI (n : Nat) : Except DecodeErr Instr :=
  match n / 1 % 8 with
  | 0 => .ok (.saddi (.ofNat n))
  | 1 => .ok (.sandi (.ofNat n))
  | 2 => .ok (.sori (.ofNat n))
  | 3 => .ok (.sxori (.ofNat n))
  | 4 => .ok (.sshli (.ofNat n))
  | 5 => .ok (.sshri (.ofNat n))
  | 6 => .ok (.ssrai (.ofNat n))
  | _ => .ok (.sslti (.ofNat n))

/-- Major 0x0D, SK (format SK). -/
noncomputable def decodeSK (n : Nat) : Except DecodeErr Instr :=
  match n / 131072 % 2 with
  | 0 => .ok (.sli (.ofNat n))
  | _ => zeros (n / 1073741824 % 2 == 0) (.shi (.ofNat n))

/-- Major 0x0E, CTL (format CT). -/
noncomputable def decodeCTL (n : Nat) : Except DecodeErr Instr :=
  match n / 16 % 16 with
  | 0 => zeros (n / 1 % 16 == 0) (.movc (.ofNat n))
  | 1 => zeros (n / 1 % 16 == 0 && n / 1073741824 % 2 == 0) (.movcw (.ofNat n))
  | 2 => zeros (n / 1 % 16 == 0 && n / 4096 % 64 == 0 && n / 1073741824 % 2 == 0) (.tdesc (.ofNat n))
  | 3 => zeros (n / 1 % 16 == 0 && n / 4096 % 64 == 0 && n / 1073741824 % 2 == 0) (.tdescr (.ofNat n))
  | 4 => zeros (n / 1 % 16 == 0 && n / 256 % 1024 == 0 && n / 1073741824 % 2 == 0) (.perfreq (.ofNat n))
  | _ => .error .illegalOp

/-- Major 0x0F, B (format BJ). -/
noncomputable def decodeB (n : Nat) : Except DecodeErr Instr :=
  zeros (n / 1073741824 % 2 == 0) (.b (.ofNat n))

/-- Major 0x10, BL (format BJ). -/
noncomputable def decodeBL (n : Nat) : Except DecodeErr Instr :=
  zeros (n / 1073741824 % 2 == 0) (.bl (.ofNat n))

/-- Major 0x11, BS (format BC). -/
noncomputable def decodeBS (n : Nat) : Except DecodeErr Instr :=
  match n / 1024 % 8 with
  | 0 => zeros (n / 1073741824 % 2 == 0) (.bsEq (.ofNat n))
  | 1 => zeros (n / 1073741824 % 2 == 0) (.bsNe (.ofNat n))
  | 2 => zeros (n / 1073741824 % 2 == 0) (.bsLt (.ofNat n))
  | 3 => zeros (n / 1073741824 % 2 == 0) (.bsGe (.ofNat n))
  | 4 => zeros (n / 1073741824 % 2 == 0) (.bsLtu (.ofNat n))
  | 5 => zeros (n / 1073741824 % 2 == 0) (.bsGeu (.ofNat n))
  | 6 => zeros (n / 8192 % 64 == 0 && n / 1073741824 % 2 == 0) (.bsZ (.ofNat n))
  | _ => zeros (n / 8192 % 64 == 0 && n / 1073741824 % 2 == 0) (.bsNz (.ofNat n))

/-- Major 0x12, BP (format BQ). -/
noncomputable def decodeBP (n : Nat) : Except DecodeErr Instr :=
  match n / 1048576 % 4 with
  | 0 => zeros (n / 1073741824 % 2 == 0) (.bpSplit (.ofNat n))
  | 1 => zeros (n / 1073741824 % 2 == 0) (.bpAll (.ofNat n))
  | 2 => zeros (n / 1073741824 % 2 == 0) (.bpAny (.ofNat n))
  | _ => zeros (n / 1073741824 % 2 == 0) (.bpUni (.ofNat n))

/-- Major 0x13, FLW (format FL). -/
noncomputable def decodeFLW (n : Nat) : Except DecodeErr Instr :=
  match n / 1 % 16 with
  | 0 => zeros (n / 16 % 16384 == 0 && n / 1073741824 % 2 == 0) (.jr (.ofNat n))
  | 1 => zeros (n / 16 % 16384 == 0 && n / 1073741824 % 2 == 0) (.jlr (.ofNat n))
  | 2 => zeros (n / 16 % 2097152 == 0 && n / 1073741824 % 2 == 0) (.join (.ofNat n))
  | 3 => zeros (n / 16 % 2097152 == 0 && n / 1073741824 % 2 == 0) (.regangAll (.ofNat n))
  | 4 => zeros (n / 16 % 2097152 == 0 && n / 1073741824 % 2 == 0) (.regangAny (.ofNat n))
  | 5 => zeros (n / 16 % 2097152 == 0 && n / 1073741824 % 2 == 0) (.yield (.ofNat n))
  | 6 => zeros (n / 16 % 2097152 == 0 && n / 1073741824 % 2 == 0) (.exit (.ofNat n))
  | 7 => zeros (n / 16 % 2097152 == 0 && n / 1073741824 % 2 == 0) (.nop (.ofNat n))
  | 8 => zeros (n / 262144 % 128 == 0 && n / 1073741824 % 2 == 0) (.sleep (.ofNat n))
  | _ => .error .illegalOp

/-- Major 0x14, SYS (format FL). -/
noncomputable def decodeSYS (n : Nat) : Except DecodeErr Instr :=
  match n / 1 % 16 with
  | 0 => zeros (n / 16 % 16384 == 0 && n / 1073741824 % 2 == 0) (.trap (.ofNat n))
  | 1 => zeros (n / 32 % 1048576 == 0 && n / 1073741824 % 2 == 0) (.tret (.ofNat n))
  | 2 => zeros (n / 262144 % 128 == 0 && n / 1073741824 % 2 == 0) (.brk (.ofNat n))
  | 3 => zeros (n / 1073741824 % 2 == 0) (.hostmsg (.ofNat n))
  | 4 => zeros (n / 16 % 2097152 == 0 && n / 1073741824 % 2 == 0) (.ckpt (.ofNat n))
  | 5 => zeros (n / 262144 % 128 == 0 && n / 1073741824 % 2 == 0) (.stopnow (.ofNat n))
  | _ => .error .illegalOp

/-- Major 0x15, CST (format SR). -/
noncomputable def decodeCST (n : Nat) : Except DecodeErr Instr :=
  match n / 1 % 16 with
  | 0 => zeros (n / 1073741824 % 2 == 0) (.attachTry (.ofNat n))
  | 1 => zeros (n / 1073741824 % 2 == 0) (.attachWait (.ofNat n))
  | 2 => zeros (n / 16 % 2097152 == 0 && n / 1073741824 % 2 == 0) (.detach (.ofNat n))
  | 3 => zeros (n / 262144 % 128 == 0 && n / 1073741824 % 2 == 0) (.binit (.ofNat n))
  | 4 => zeros (n / 16 % 128 == 0 && n / 1073741824 % 2 == 0) (.barrive (.ofNat n))
  | 5 => zeros (n / 1073741824 % 2 == 0) (.bwait (.ofNat n))
  | 6 => zeros (n / 16 % 128 == 0 && n / 1073741824 % 2 == 0) (.bsync (.ofNat n))
  | 7 => zeros (n / 16 % 128 == 0 && n / 262144 % 128 == 0 && n / 1073741824 % 2 == 0) (.bkill (.ofNat n))
  | 8 => zeros (n / 16 % 128 == 0 && n / 1073741824 % 2 == 0) (.bquery (.ofNat n))
  | _ => .error .illegalOp

/-- Major 0x16, LDS (format MS). -/
noncomputable def decodeLDS (n : Nat) : Except DecodeErr Instr :=
  zeros (n / 1073741824 % 2 == 0) (.lds (.ofNat n))

/-- Major 0x17, STS (format MS). -/
noncomputable def decodeSTS (n : Nat) : Except DecodeErr Instr :=
  zeros (n / 1073741824 % 2 == 0) (.sts (.ofNat n))

/-- Major 0x18, LDC (format MC). -/
noncomputable def decodeLDC (n : Nat) : Except DecodeErr Instr :=
  zeros (n / 1073741824 % 2 == 0) (.ldc (.ofNat n))

/-- Major 0x19, STC (format MC). -/
noncomputable def decodeSTC (n : Nat) : Except DecodeErr Instr :=
  zeros (n / 1073741824 % 2 == 0) (.stc (.ofNat n))

/-- Major 0x1A, LDG (format MG). -/
noncomputable def decodeLDG (n : Nat) : Except DecodeErr Instr :=
  zeros (n / 1073741824 % 2 == 0) (.ldg (.ofNat n))

/-- Major 0x1B, STG (format MG). -/
noncomputable def decodeSTG (n : Nat) : Except DecodeErr Instr :=
  zeros (n / 1073741824 % 2 == 0) (.stg (.ofNat n))

/-- Major 0x1C, ATM (format AT). -/
noncomputable def decodeATM (n : Nat) : Except DecodeErr Instr :=
  match n / 8 % 16 with
  | 0 => zeros (n / 1073741824 % 2 == 0) (.amadd (.ofNat n))
  | 1 => zeros (n / 1073741824 % 2 == 0) (.amsmin (.ofNat n))
  | 2 => zeros (n / 1073741824 % 2 == 0) (.amsmax (.ofNat n))
  | 3 => zeros (n / 1073741824 % 2 == 0) (.amumin (.ofNat n))
  | 4 => zeros (n / 1073741824 % 2 == 0) (.amumax (.ofNat n))
  | 5 => zeros (n / 1073741824 % 2 == 0) (.amand (.ofNat n))
  | 6 => zeros (n / 1073741824 % 2 == 0) (.amor (.ofNat n))
  | 7 => zeros (n / 1073741824 % 2 == 0) (.amxor (.ofNat n))
  | 8 => zeros (n / 1073741824 % 2 == 0) (.amswap (.ofNat n))
  | 9 => zeros (n / 1073741824 % 2 == 0) (.amcas (.ofNat n))
  | 10 => zeros (n / 1073741824 % 2 == 0) (.amfadd (.ofNat n))
  | 11 => zeros (n / 1073741824 % 2 == 0) (.amfmin (.ofNat n))
  | 12 => zeros (n / 1073741824 % 2 == 0) (.amfmax (.ofNat n))
  | _ => .error .illegalOp

/-- Major 0x1D, MEM (format MX). -/
noncomputable def decodeMEM (n : Nat) : Except DecodeErr Instr :=
  match n / 16 % 8 with
  | 0 => zeros (n / 2048 % 16384 == 0 && n / 1073741824 % 2 == 0) (.fence (.ofNat n))
  | 1 => zeros (n / 2 % 8 == 0 && n / 1073741824 % 2 == 0) (.lr (.ofNat n))
  | 2 => zeros (n / 2 % 8 == 0 && n / 1073741824 % 2 == 0) (.sc (.ofNat n))
  | 3 => zeros (n / 4 % 4 == 0 && n / 1073741824 % 2 == 0) (.stred (.ofNat n))
  | 4 => zeros (n / 2 % 8 == 0 && n / 262144 % 128 == 0 && n / 1073741824 % 2 == 0) (.pref (.ofNat n))
  | 5 => zeros (n / 1 % 16 == 0 && n / 128 % 262144 == 0 && n / 1073741824 % 2 == 0) (.cinv (.ofNat n))
  | 6 => zeros (n / 2 % 8 == 0 && n / 262144 % 128 == 0 && n / 1073741824 % 2 == 0) (.cflush (.ofNat n))
  | _ => zeros (n / 1 % 16 == 0 && n / 128 % 262144 == 0 && n / 1073741824 % 2 == 0) (.waitst (.ofNat n))

/-- Major 0x1E, MMA (format MM). -/
noncomputable def decodeMMA (n : Nat) : Except DecodeErr Instr :=
  match n / 1 % 16 with
  | 0 => zeros (n / 16 % 64 == 0 && n / 1073741824 % 2 == 0) (.mma (.ofNat n))
  | 1 => zeros (n / 16 % 64 == 0 && n / 1073741824 % 2 == 0) (.mmaz (.ofNat n))
  | 2 => zeros (n / 64 % 16 == 0 && n / 1073741824 % 2 == 0) (.mmap (.ofNat n))
  | 3 => zeros (n / 1073741824 % 2 == 0) (.mdefer (.ofNat n))
  | 4 => zeros (n / 16 % 64 == 0 && n / 131072 % 16 == 0 && n / 1073741824 % 2 == 0) (.msave (.ofNat n))
  | 5 => zeros (n / 16 % 64 == 0 && n / 131072 % 16 == 0 && n / 1073741824 % 2 == 0) (.mload (.ofNat n))
  | 6 => zeros (n / 16 % 2097152 == 0 && n / 1073741824 % 2 == 0) (.mwait (.ofNat n))
  | _ => .error .illegalOp

/-- Major 0x1F, ENG (format EN). -/
noncomputable def decodeENG (n : Nat) : Except DecodeErr Instr :=
  match n / 1 % 16 with
  | 0 => zeros (n / 1073741824 % 2 == 0) (.copy (.ofNat n))
  | 1 => zeros (n / 16 % 128 == 0 && n / 1073741824 % 2 == 0) (.engwait (.ofNat n))
  | 2 => zeros (n / 262144 % 128 == 0 && n / 1073741824 % 2 == 0) (.qinit (.ofNat n))
  | 3 => zeros (n / 1073741824 % 2 == 0) (.qpush (.ofNat n))
  | 4 => zeros (n / 16 % 128 == 0 && n / 1073741824 % 2 == 0) (.qpop (.ofNat n))
  | 5 => zeros (n / 1073741824 % 2 == 0) (.qtrypush (.ofNat n))
  | 6 => zeros (n / 1073741824 % 2 == 0) (.qtrypop (.ofNat n))
  | 7 => zeros (n / 1073741824 % 2 == 0) (.rwait (.ofNat n))
  | 8 => zeros (n / 1073741824 % 2 == 0) (.radv (.ofNat n))
  | 9 => zeros (n / 1073741824 % 2 == 0) (.cueemit (.ofNat n))
  | 10 => zeros (n / 262144 % 128 == 0 && n / 1073741824 % 2 == 0) (.dcset (.ofNat n))
  | 11 => zeros (n / 262144 % 128 == 0 && n / 1073741824 % 2 == 0) (.dcdec (.ofNat n))
  | 12 => zeros (n / 16 % 128 == 0 && n / 1073741824 % 2 == 0) (.dcwait (.ofNat n))
  | _ => .error .illegalOp

/-- The instruction that a word encodes (Table 3.3; every major is assigned). -/
noncomputable def decodeNat (n : Nat) : Except DecodeErr Instr :=
  match n / 33554432 % 32 with
  | 0 => decodeVIA n
  | 1 => decodeVIB n
  | 2 => decodeVCMP n
  | 3 => decodeVF n
  | 4 => decodeVD n
  | 5 => decodeVH n
  | 6 => decodeVCVT n
  | 7 => decodeVX n
  | 8 => decodeVIM n
  | 9 => decodeVMV n
  | 10 => decodePRD n
  | 11 => decodeSA n
  | 12 => decodeSI n
  | 13 => decodeSK n
  | 14 => decodeCTL n
  | 15 => decodeB n
  | 16 => decodeBL n
  | 17 => decodeBS n
  | 18 => decodeBP n
  | 19 => decodeFLW n
  | 20 => decodeSYS n
  | 21 => decodeCST n
  | 22 => decodeLDS n
  | 23 => decodeSTS n
  | 24 => decodeLDC n
  | 25 => decodeSTC n
  | 26 => decodeLDG n
  | 27 => decodeSTG n
  | 28 => decodeATM n
  | 29 => decodeMEM n
  | 30 => decodeMMA n
  | _ => decodeENG n

/-- The instruction that an instruction word encodes. -/
noncomputable def decode (w : Word) : Except DecodeErr Instr :=
  decodeNat w.toNat

/-- The instruction that the decoder reads from a word of `nbits` bits (every row has 32): none where it refuses. -/
noncomputable def decodeTableWord (nbits w : Nat) : Option Instr :=
  match decodeNat (w % 2 ^ nbits % 4294967296) with
  | .ok i => some i
  | .error _ => none

/-- The word of an instruction; none for an event, which has no encoding. -/
def encodeNat : Instr → Option Nat
  | .vadd w => some (w.toNat)
  | .vsub w => some (1 + w.toNat)
  | .vmul w => some (2 + w.toNat)
  | .vmulh w => some (3 + w.toNat)
  | .vmulhu w => some (4 + w.toNat)
  | .vmad w => some (5 + w.toNat)
  | .vmin w => some (6 + w.toNat)
  | .vmax w => some (7 + w.toNat)
  | .vminu w => some (8 + w.toNat)
  | .vmaxu w => some (9 + w.toNat)
  | .vadds w => some (10 + w.toNat)
  | .vsubs w => some (11 + w.toNat)
  | .vdiv w => some (12 + w.toNat)
  | .vdivu w => some (13 + w.toNat)
  | .vrem w => some (14 + w.toNat)
  | .vremu w => some (15 + w.toNat)
  | .vand w => some (33554432 + w.toNat)
  | .vor w => some (33554433 + w.toNat)
  | .vxor w => some (33554434 + w.toNat)
  | .vandn w => some (33554435 + w.toNat)
  | .vshl w => some (33554436 + w.toNat)
  | .vshr w => some (33554437 + w.toNat)
  | .vsra w => some (33554438 + w.toNat)
  | .vrol w => some (33554439 + w.toNat)
  | .vpopc w => some (33554440 + w.toNat)
  | .vclz w => some (33554441 + w.toNat)
  | .vbrev w => some (33554442 + w.toNat)
  | .vadd64 w => some (33554443 + w.toNat)
  | .vsub64 w => some (33554444 + w.toNat)
  | .vmulw w => some (33554445 + w.toNat)
  | .vshl64 w => some (33554446 + w.toNat)
  | .vshr64 w => some (33554447 + w.toNat)
  | .vcmpI32Eq w => some (67108864 + w.toNat)
  | .vcmpI32Ne w => some (67108865 + w.toNat)
  | .vcmpI32Lt w => some (67108866 + w.toNat)
  | .vcmpI32Le w => some (67108867 + w.toNat)
  | .vcmpI32Ltu w => some (67108868 + w.toNat)
  | .vcmpI32Leu w => some (67108869 + w.toNat)
  | .vcmpI32Eqz w => some (67108870 + w.toNat)
  | .vcmpI32Nez w => some (67108871 + w.toNat)
  | .vcmpI64Eq w => some (67108872 + w.toNat)
  | .vcmpI64Ne w => some (67108873 + w.toNat)
  | .vcmpI64Lt w => some (67108874 + w.toNat)
  | .vcmpI64Le w => some (67108875 + w.toNat)
  | .vcmpI64Ltu w => some (67108876 + w.toNat)
  | .vcmpI64Leu w => some (67108877 + w.toNat)
  | .vcmpI64Eqz w => some (67108878 + w.toNat)
  | .vcmpI64Nez w => some (67108879 + w.toNat)
  | .vcmpF32Eq w => some (67108880 + w.toNat)
  | .vcmpF32Lt w => some (67108881 + w.toNat)
  | .vcmpF32Le w => some (67108882 + w.toNat)
  | .vcmpF32Ne w => some (67108883 + w.toNat)
  | .vcmpF32Un w => some (67108884 + w.toNat)
  | .vcmpF32Ord w => some (67108885 + w.toNat)
  | .vcmpF32Isnan w => some (67108886 + w.toNat)
  | .vcmpF32Isinf w => some (67108887 + w.toNat)
  | .vcmpF64Eq w => some (67108888 + w.toNat)
  | .vcmpF64Lt w => some (67108889 + w.toNat)
  | .vcmpF64Le w => some (67108890 + w.toNat)
  | .vcmpF64Ne w => some (67108891 + w.toNat)
  | .vcmpF64Un w => some (67108892 + w.toNat)
  | .vcmpF64Ord w => some (67108893 + w.toNat)
  | .vcmpF64Isnan w => some (67108894 + w.toNat)
  | .vcmpF64Isinf w => some (67108895 + w.toNat)
  | .fadd w => some (100663296 + w.toNat)
  | .fsub w => some (100663297 + w.toNat)
  | .fmul w => some (100663298 + w.toNat)
  | .fmac w => some (100663299 + w.toNat)
  | .fnmac w => some (100663300 + w.toNat)
  | .fmin w => some (100663301 + w.toNat)
  | .fmax w => some (100663302 + w.toNat)
  | .fdiv w => some (100663303 + w.toNat)
  | .fsqrt w => some (100663304 + w.toNat)
  | .frcpe w => some (100663305 + w.toNat)
  | .frsqe w => some (100663306 + w.toNat)
  | .fsgnj w => some (100663307 + w.toNat)
  | .fsgnjn w => some (100663308 + w.toNat)
  | .fsgnjx w => some (100663309 + w.toNat)
  | .fclass w => some (100663310 + w.toNat)
  | .fscale w => some (100663311 + w.toNat)
  | .dadd w => some (134217728 + w.toNat)
  | .dsub w => some (134217729 + w.toNat)
  | .dmul w => some (134217730 + w.toNat)
  | .dmac w => some (134217731 + w.toNat)
  | .dnmac w => some (134217732 + w.toNat)
  | .dmin w => some (134217733 + w.toNat)
  | .dmax w => some (134217734 + w.toNat)
  | .ddiv w => some (134217735 + w.toNat)
  | .dsqrt w => some (134217736 + w.toNat)
  | .drcpe w => some (134217737 + w.toNat)
  | .drsqe w => some (134217738 + w.toNat)
  | .dsgnj w => some (134217739 + w.toNat)
  | .dsgnjn w => some (134217740 + w.toNat)
  | .dsgnjx w => some (134217741 + w.toNat)
  | .dclass w => some (134217742 + w.toNat)
  | .dscale w => some (134217743 + w.toNat)
  | .hadd2 w => some (167772160 + w.toNat)
  | .hsub2 w => some (167772161 + w.toNat)
  | .hmul2 w => some (167772162 + w.toNat)
  | .hmac2 w => some (167772163 + w.toNat)
  | .hmin2 w => some (167772164 + w.toNat)
  | .hmax2 w => some (167772165 + w.toNat)
  | .badd2 w => some (167772166 + w.toNat)
  | .bsub2 w => some (167772167 + w.toNat)
  | .bmul2 w => some (167772168 + w.toNat)
  | .bmac2 w => some (167772169 + w.toNat)
  | .bmin2 w => some (167772170 + w.toNat)
  | .bmax2 w => some (167772171 + w.toNat)
  | .hdot2 w => some (167772172 + w.toNat)
  | .bdot2 w => some (167772173 + w.toNat)
  | .qdot4 w => some (167772174 + w.toNat)
  | .idot4 w => some (167772175 + w.toNat)
  | .vcvtF32I32 w => some (201326592 + w.toNat)
  | .vcvtF32U32 w => some (201326624 + w.toNat)
  | .vcvtI32F32 w => some (201326656 + w.toNat)
  | .vcvtU32F32 w => some (201326688 + w.toNat)
  | .vcvtF32F64 w => some (201326720 + w.toNat)
  | .vcvtF64F32 w => some (201326752 + w.toNat)
  | .vcvtF64I32 w => some (201326784 + w.toNat)
  | .vcvtF64U32 w => some (201326816 + w.toNat)
  | .vcvtI32F64 w => some (201326848 + w.toNat)
  | .vcvtU32F64 w => some (201326880 + w.toNat)
  | .vcvtF64I64 w => some (201326912 + w.toNat)
  | .vcvtI64F64 w => some (201326944 + w.toNat)
  | .vcvtF32I64 w => some (201326976 + w.toNat)
  | .vcvtI64F32 w => some (201327008 + w.toNat)
  | .frint w => some (201327040 + w.toNat)
  | .drint w => some (201327072 + w.toNat)
  | .vcvtF16F32 w => some (201327104 + w.toNat)
  | .vcvtF32F16 w => some (201327136 + w.toNat)
  | .vcvtBf16F32 w => some (201327168 + w.toNat)
  | .vcvtF32Bf16 w => some (201327200 + w.toNat)
  | .vcvtE4m3F32 w => some (201327616 + w.toNat)
  | .vcvtE5m2F32 w => some (201327744 + w.toNat)
  | .vcvtF32E4m3 w => some (201327872 + w.toNat)
  | .vcvtF32E5m2 w => some (201328000 + w.toNat)
  | .vcvtF16E4m3 w => some (201328128 + w.toNat)
  | .vcvtF16E5m2 w => some (201328160 + w.toNat)
  | .vperm w => some (234881024 + w.toNat)
  | .vbcl w => some (234881025 + w.toNat)
  | .vrotl w => some (234881026 + w.toNat)
  | .vxorl w => some (234881027 + w.toNat)
  | .vupl w => some (234881028 + w.toNat)
  | .vdnl w => some (234881029 + w.toNat)
  | .iredadd w => some (234881030 + w.toNat)
  | .iredmin w => some (234881031 + w.toNat)
  | .iredmax w => some (234881032 + w.toNat)
  | .fredadd w => some (234881033 + w.toNat)
  | .fredmin w => some (234881034 + w.toNat)
  | .fredmax w => some (234881035 + w.toNat)
  | .iscan w => some (234881036 + w.toNat)
  | .fscan w => some (234881037 + w.toNat)
  | .vcompact w => some (234881038 + w.toNat)
  | .vxchg w => some (234881039 + w.toNat)
  | .vaddi w => some (268435456 + w.toNat)
  | .vmuli w => some (268435457 + w.toNat)
  | .vandi w => some (268435458 + w.toNat)
  | .vori w => some (268435459 + w.toNat)
  | .vxori w => some (268435460 + w.toNat)
  | .vshli w => some (268435461 + w.toNat)
  | .vshri w => some (268435462 + w.toNat)
  | .vsrai w => some (268435463 + w.toNat)
  | .vmini w => some (268435464 + w.toNat)
  | .vmaxi w => some (268435465 + w.toNat)
  | .vshl64i w => some (268435466 + w.toNat)
  | .vshr64i w => some (268435467 + w.toNat)
  | .vsplati w => some (268435468 + w.toNat)
  | .viota w => some (268435469 + w.toNat)
  | .vmov w => some (301989888 + w.toNat)
  | .vbcs w => some (301989889 + w.toNat)
  | .vgetl w => some (301989890 + w.toNat)
  | .vsetl w => some (301989891 + w.toNat)
  | .vmovxr w => some (301989892 + w.toNat)
  | .vmovxw w => some (301989893 + w.toNat)
  | .vlane w => some (301989894 + w.toNat)
  | .vsel w => some (301989896 + w.toNat)
  | .pand w => some (335544320 + w.toNat)
  | .por w => some (335544321 + w.toNat)
  | .pxor w => some (335544322 + w.toNat)
  | .pandn w => some (335544323 + w.toNat)
  | .pnot w => some (335544324 + w.toNat)
  | .pset w => some (335544325 + w.toNat)
  | .pclr w => some (335544326 + w.toNat)
  | .pfroms w => some (335544327 + w.toNat)
  | .ptos w => some (335544328 + w.toNat)
  | .pexec w => some (335544329 + w.toNat)
  | .pcount w => some (335544330 + w.toNat)
  | .sadd w => some (369098752 + w.toNat)
  | .ssub w => some (369098753 + w.toNat)
  | .smul w => some (369098754 + w.toNat)
  | .smulhu w => some (369098755 + w.toNat)
  | .sdiv w => some (369098756 + w.toNat)
  | .sdivu w => some (369098757 + w.toNat)
  | .srem w => some (369098758 + w.toNat)
  | .sremu w => some (369098759 + w.toNat)
  | .sand w => some (369098760 + w.toNat)
  | .sor w => some (369098761 + w.toNat)
  | .sxor w => some (369098762 + w.toNat)
  | .sshl w => some (369098763 + w.toNat)
  | .sshr w => some (369098764 + w.toNat)
  | .ssra w => some (369098765 + w.toNat)
  | .sslt w => some (369098766 + w.toNat)
  | .ssltu w => some (369098767 + w.toNat)
  | .saddi w => some (402653184 + w.toNat)
  | .sandi w => some (402653185 + w.toNat)
  | .sori w => some (402653186 + w.toNat)
  | .sxori w => some (402653187 + w.toNat)
  | .sshli w => some (402653188 + w.toNat)
  | .sshri w => some (402653189 + w.toNat)
  | .ssrai w => some (402653190 + w.toNat)
  | .sslti w => some (402653191 + w.toNat)
  | .sli w => some (436207616 + w.toNat)
  | .shi w => some (436338688 + w.toNat)
  | .movc w => some (469762048 + w.toNat)
  | .movcw w => some (469762064 + w.toNat)
  | .tdesc w => some (469762080 + w.toNat)
  | .tdescr w => some (469762096 + w.toNat)
  | .perfreq w => some (469762112 + w.toNat)
  | .b w => some (503316480 + w.toNat)
  | .bl w => some (536870912 + w.toNat)
  | .bsEq w => some (570425344 + w.toNat)
  | .bsNe w => some (570426368 + w.toNat)
  | .bsLt w => some (570427392 + w.toNat)
  | .bsGe w => some (570428416 + w.toNat)
  | .bsLtu w => some (570429440 + w.toNat)
  | .bsGeu w => some (570430464 + w.toNat)
  | .bsZ w => some (570431488 + w.toNat)
  | .bsNz w => some (570432512 + w.toNat)
  | .bpSplit w => some (603979776 + w.toNat)
  | .bpAll w => some (605028352 + w.toNat)
  | .bpAny w => some (606076928 + w.toNat)
  | .bpUni w => some (607125504 + w.toNat)
  | .jr w => some (637534208 + w.toNat)
  | .jlr w => some (637534209 + w.toNat)
  | .join w => some (637534210 + w.toNat)
  | .regangAll w => some (637534211 + w.toNat)
  | .regangAny w => some (637534212 + w.toNat)
  | .yield w => some (637534213 + w.toNat)
  | .exit w => some (637534214 + w.toNat)
  | .nop w => some (637534215 + w.toNat)
  | .sleep w => some (637534216 + w.toNat)
  | .trap w => some (671088640 + w.toNat)
  | .tret w => some (671088641 + w.toNat)
  | .brk w => some (671088642 + w.toNat)
  | .hostmsg w => some (671088643 + w.toNat)
  | .ckpt w => some (671088644 + w.toNat)
  | .stopnow w => some (671088645 + w.toNat)
  | .attachTry w => some (704643072 + w.toNat)
  | .attachWait w => some (704643073 + w.toNat)
  | .detach w => some (704643074 + w.toNat)
  | .binit w => some (704643075 + w.toNat)
  | .barrive w => some (704643076 + w.toNat)
  | .bwait w => some (704643077 + w.toNat)
  | .bsync w => some (704643078 + w.toNat)
  | .bkill w => some (704643079 + w.toNat)
  | .bquery w => some (704643080 + w.toNat)
  | .lds w => some (738197504 + w.toNat)
  | .sts w => some (771751936 + w.toNat)
  | .ldc w => some (805306368 + w.toNat)
  | .stc w => some (838860800 + w.toNat)
  | .ldg w => some (872415232 + w.toNat)
  | .stg w => some (905969664 + w.toNat)
  | .amadd w => some (939524096 + w.toNat)
  | .amsmin w => some (939524104 + w.toNat)
  | .amsmax w => some (939524112 + w.toNat)
  | .amumin w => some (939524120 + w.toNat)
  | .amumax w => some (939524128 + w.toNat)
  | .amand w => some (939524136 + w.toNat)
  | .amor w => some (939524144 + w.toNat)
  | .amxor w => some (939524152 + w.toNat)
  | .amswap w => some (939524160 + w.toNat)
  | .amcas w => some (939524168 + w.toNat)
  | .amfadd w => some (939524176 + w.toNat)
  | .amfmin w => some (939524184 + w.toNat)
  | .amfmax w => some (939524192 + w.toNat)
  | .fence w => some (973078528 + w.toNat)
  | .lr w => some (973078544 + w.toNat)
  | .sc w => some (973078560 + w.toNat)
  | .stred w => some (973078576 + w.toNat)
  | .pref w => some (973078592 + w.toNat)
  | .cinv w => some (973078608 + w.toNat)
  | .cflush w => some (973078624 + w.toNat)
  | .waitst w => some (973078640 + w.toNat)
  | .mma w => some (1006632960 + w.toNat)
  | .mmaz w => some (1006632961 + w.toNat)
  | .mmap w => some (1006632962 + w.toNat)
  | .mdefer w => some (1006632963 + w.toNat)
  | .msave w => some (1006632964 + w.toNat)
  | .mload w => some (1006632965 + w.toNat)
  | .mwait w => some (1006632966 + w.toNat)
  | .copy w => some (1040187392 + w.toNat)
  | .engwait w => some (1040187393 + w.toNat)
  | .qinit w => some (1040187394 + w.toNat)
  | .qpush w => some (1040187395 + w.toNat)
  | .qpop w => some (1040187396 + w.toNat)
  | .qtrypush w => some (1040187397 + w.toNat)
  | .qtrypop w => some (1040187398 + w.toNat)
  | .rwait w => some (1040187399 + w.toNat)
  | .radv w => some (1040187400 + w.toNat)
  | .cueemit w => some (1040187401 + w.toNat)
  | .dcset w => some (1040187402 + w.toNat)
  | .dcdec w => some (1040187403 + w.toNat)
  | .dcwait w => some (1040187404 + w.toNat)
  | .waitTimeout _ _ _ => none
  | .trapDelivery _ _ => none
  | .barrierRelease _ => none
  | .fullEmptyCommit _ _ _ => none
  | .queueBlockedCommit _ _ _ => none
  | .ringWaitCommit _ _ _ => none
  | .sleepEnd _ _ _ => none
  | .wavePromotion _ _ => none
  | .promotionEnd _ _ => none
  | .vxchgMatch _ _ _ => none
  | .vxchgComplete _ _ _ => none
  | .waitstComplete _ _ _ => none
  | .mwaitComplete _ _ _ => none
  | .fencePerformed _ _ => none
  | .attachWaitRetry _ _ => none
  | .attachCycleBreak _ => none
  | .matrixCommandAccept _ => none
  | .matrixCommandComplete _ => none
  | .followSlotFire _ _ => none
  | .collectiveCreateRetry _ _ => none
  | .collectiveStart _ => none
  | .copyRequestReturn _ _ => none
  | .copyFaultResume _ _ => none
  | .collectiveComplete _ _ => none
  | .sliceRequest _ => none
  | .l2Fill _ => none
  | .storeAck _ => none
  | .loadReturn _ => none
  | .flushMarkerArrival _ => none
  | .gatherReply _ => none
  | .ticketRelease _ => none
  | .sliceReleaseApply _ => none
  | .ticketAdvance _ => none
  | .faultRecordService _ => none
  | .pageResolution _ _ => none
  | .pageWalk _ => none
  | .walkComplete _ => none
  | .shootdown _ _ _ _ => none
  | .shootdownRemoval _ => none
  | .shootdownAck _ => none
  | .atsTranslationCompletion _ _ => none
  | .prgResponse _ _ => none
  | .atsInvalidateRequest _ _ _ => none
  | .atsInvalidateRemoval => none
  | .invalidationCompletion => none
  | .hostReadCompletion _ _ => none
  | .atomicopCompletion _ _ => none
  | .hmqEntryWrite _ => none
  | .cueAppend => none
  | .batchFormation _ _ => none
  | .nodeRetirement _ _ => none
  | .dcUpdate => none
  | .dcwaitRelease _ _ _ => none
  | .placementPass => none
  | .launch _ => none
  | .resume _ => none
  | .preempt _ => none
  | .contextSave _ _ => none
  | .kill _ => none
  | .companyGating _ => none
  | .companyWakeEnd _ => none
  | .epochStart => none
  | .levelStep _ => none
  | .refreshBurst _ => none
  | .frozenRefreshBurst _ => none
  | .vaultTurnStart _ _ => none
  | .vaultRequest _ => none
  | .recoveryPoint _ => none
  | .rollback _ _ => none
  | .hardfailFreeze => none
  | .dieLinkHeaderFailure _ => none
  | .dieLinkPoison _ _ _ => none
  | .bankFailure _ _ _ => none
  | .sliceRetireReassign _ => none
  | .understudySwap => none
  | .understudySwapEnd => none
  | .stopatStop => none
  | .powerOnReset _ => none
  | .functionLevelReset _ => none
  | .gateAccept _ _ => none
  | .replayInject _ => none
  | .egressTransaction _ _ => none
  | .egdigest _ => none
  | .vaultTemperatureSample _ _ => none
  | .coreTemperatureSample _ _ => none
  | .packageCurrentSample _ => none
  | .companyVoltageSample _ _ => none
  | .houseFlitReceive _ _ _ => none
  | .houseResendRequest _ _ => none
  | .windowScrub _ _ => none
  | .houseFlitDeliver _ => none
  | .houseWrite _ _ => none
  | .houseReadRequest _ _ => none
  | .houseReadCompletion _ _ => none
  | .houseAtomic _ _ => none
  | .houseAtomicCompletion _ _ => none
  | .endToEndAck _ _ => none
  | .houseManagementFlit _ _ => none
  | .timeSyncExchange _ => none
  | .hostWindowWrite _ _ => none
  | .statusClear _ => none
  | .replaybrkClear _ => none
  | .powercapWrite _ => none
  | .partitionConfigure _ _ _ => none
  | .partitionSwap _ _ => none
  | .orderedBitWrite _ _ => none
  | .gatemodeWrite _ => none
  | .stopatWrite _ => none
  | .logtailWrite _ _ => none
  | .hmqtailWrite _ _ => none
  | .hmqsizeWrite _ _ => none
  | .take => none
  | .restore => none
  | .thaw => none
  | .freeze => none
  | .reset => none
  | .tableauOperationEnd => none
  | .nodeCommit _ _ _ => none
  | .nodeWithdraw _ _ => none
  | .nodeEntryWrite _ _ _ _ => none
  | .cuePush _ _ _ => none
  | .cueClose _ _ _ => none
  | .nodercClear _ _ => none
  | .errorCounterClear _ => none
  | .serviceRegionAccess _ _ _ => none
  | .hostKill _ _ => none
  | .retireSlice _ _ => none
  | .windowWrite _ _ => none
  | .windowRead _ => none
  | .cueemitAnswer _ _ _ => none
  | .refreshBurstEnd _ => none
  | .arrivalJournalInject _ => none

/-- The word of an instruction as 32 bits. -/
def encode (i : Instr) : Option Word :=
  (encodeNat i).map (BitVec.ofNat 32)

/-- The bits of word n from bit `lo`, `w` of them. -/
def bits (n lo w : Nat) : Nat := n / 2 ^ lo % 2 ^ w

/-- The two's-complement value of the low `w` bits of n. -/
def sext (w n : Nat) : Int :=
  if n % 2 ^ w < 2 ^ (w - 1) then (n % 2 ^ w : Nat) else ((n % 2 ^ w : Nat) : Int) - (2 ^ w : Nat)

end Sys2Proof
end

