-- ==== Sys2Proof/WellFormed.lean ====
section
/-! DEFINITION. The static form of an instruction: which fields name which registers (Table 3.4, R65, R66), its pipe and role class
(Tables 2.3 and 3.3), whether it is a latched producer (R69), acts for the whole wave (R32) or is forbidden in a latch window (Table 3.6),
and well-formedness: the part of order 3 of Table 3.5 that the word alone decides and that decoding has not already refused. -/

namespace Sys2Proof

/-- What a register field names: one vector register, an even pair, a quad, a scalar, or an even pair of scalars. -/
inductive OpKind where
  | vec | pair | quad | scalar | spair
  deriving DecidableEq, Repr

/-- A register operand of a word: a source, a destination, a predicate destination, or further registers that must be allocated. -/
inductive Opnd where
  | src (k : OpKind) (c : Nat)
  | dst (k : OpKind) (c : Nat)
  | pdst (p : Nat)
  | more (c n : Nat)
  deriving DecidableEq, Repr

/-- The registers that hold an element of 2^z bytes: one up to 4 bytes, a pair for 8, a quad for 16 (R209, R230). -/
def OpKind.ofSize (z : Nat) : OpKind :=
  if z ≤ 2 then .vec else if z = 3 then .pair else .quad

/-- How many registers an operand kind takes. -/
def OpKind.count : OpKind → Nat
  | .vec => 1 | .pair => 2 | .quad => 4 | .scalar => 1 | .spair => 2

/-- The group of registers of an atomic of width `ty` (R235): .32 and .P16 one, .64 two, .128 four. -/
def groupOf (ty : Nat) : Nat :=
  if ty = 1 then 2 else if ty = 2 then 4 else 1

/-- The operand kind of an atomic's data (R235). -/
def atomicKind (ty : Nat) : OpKind :=
  if ty = 1 then .pair else if ty = 2 then .quad else .vec

/-- The data group of an atomic: a source, and with n = 0 a destination too (R235). -/
def atomicGroup (w : AT) : List Opnd :=
  if w.n = 0 then [.dst (atomicKind w.t.toNat) w.v.toNat] else [.src (atomicKind w.t.toNat) w.v.toNat]

/-- The control-register numbers of Table 4.2. -/
def controlRegister (n : Nat) : Bool :=
  n ≤ 0x00B || (0x010 ≤ n && n ≤ 0x012) || n = 0x018 || n = 0x019 || (0x020 ≤ n && n ≤ 0x023) || (0x030 ≤ n && n ≤ 0x035)

/-- The control registers that MOVCW may write (Table 4.2): FPFLAGS, WAITLIMIT, TRAPPC, EPC. -/
def writableRegister (n : Nat) : Bool :=
  n = 0x018 || n = 0x019 || n = 0x030 || n = 0x031

/-- The register operands of an instruction, in the order of its assembly form. -/
def Instr.operands : Instr → List Opnd
  | .vadd w => [.dst .vec w.d.toNat, .src .vec w.a.toNat, .src .vec w.b.toNat]
  | .vsub w => [.dst .vec w.d.toNat, .src .vec w.a.toNat, .src .vec w.b.toNat]
  | .vmul w => [.dst .vec w.d.toNat, .src .vec w.a.toNat, .src .vec w.b.toNat]
  | .vmulh w => [.dst .vec w.d.toNat, .src .vec w.a.toNat, .src .vec w.b.toNat]
  | .vmulhu w => [.dst .vec w.d.toNat, .src .vec w.a.toNat, .src .vec w.b.toNat]
  | .vmad w => [.dst .vec w.d.toNat, .src .vec w.a.toNat, .src .vec w.b.toNat, .src .vec w.d.toNat]
  | .vmin w => [.dst .vec w.d.toNat, .src .vec w.a.toNat, .src .vec w.b.toNat]
  | .vmax w => [.dst .vec w.d.toNat, .src .vec w.a.toNat, .src .vec w.b.toNat]
  | .vminu w => [.dst .vec w.d.toNat, .src .vec w.a.toNat, .src .vec w.b.toNat]
  | .vmaxu w => [.dst .vec w.d.toNat, .src .vec w.a.toNat, .src .vec w.b.toNat]
  | .vadds w => [.dst .vec w.d.toNat, .src .vec w.a.toNat, .src .vec w.b.toNat]
  | .vsubs w => [.dst .vec w.d.toNat, .src .vec w.a.toNat, .src .vec w.b.toNat]
  | .vdiv w => [.dst .vec w.d.toNat, .src .vec w.a.toNat, .src .vec w.b.toNat]
  | .vdivu w => [.dst .vec w.d.toNat, .src .vec w.a.toNat, .src .vec w.b.toNat]
  | .vrem w => [.dst .vec w.d.toNat, .src .vec w.a.toNat, .src .vec w.b.toNat]
  | .vremu w => [.dst .vec w.d.toNat, .src .vec w.a.toNat, .src .vec w.b.toNat]
  | .vand w => [.dst .vec w.d.toNat, .src .vec w.a.toNat, .src .vec w.b.toNat]
  | .vor w => [.dst .vec w.d.toNat, .src .vec w.a.toNat, .src .vec w.b.toNat]
  | .vxor w => [.dst .vec w.d.toNat, .src .vec w.a.toNat, .src .vec w.b.toNat]
  | .vandn w => [.dst .vec w.d.toNat, .src .vec w.a.toNat, .src .vec w.b.toNat]
  | .vshl w => [.dst .vec w.d.toNat, .src .vec w.a.toNat, .src .vec w.b.toNat]
  | .vshr w => [.dst .vec w.d.toNat, .src .vec w.a.toNat, .src .vec w.b.toNat]
  | .vsra w => [.dst .vec w.d.toNat, .src .vec w.a.toNat, .src .vec w.b.toNat]
  | .vrol w => [.dst .vec w.d.toNat, .src .vec w.a.toNat, .src .vec w.b.toNat]
  | .vpopc w => [.dst .vec w.d.toNat, .src .vec w.a.toNat]
  | .vclz w => [.dst .vec w.d.toNat, .src .vec w.a.toNat]
  | .vbrev w => [.dst .vec w.d.toNat, .src .vec w.a.toNat]
  | .vadd64 w => [.dst .pair w.d.toNat, .src .pair w.a.toNat, .src .pair w.b.toNat]
  | .vsub64 w => [.dst .pair w.d.toNat, .src .pair w.a.toNat, .src .pair w.b.toNat]
  | .vmulw w => [.dst .pair w.d.toNat, .src .vec w.a.toNat, .src .vec w.b.toNat]
  | .vshl64 w => [.dst .pair w.d.toNat, .src .pair w.a.toNat, .src .vec w.b.toNat]
  | .vshr64 w => [.dst .pair w.d.toNat, .src .pair w.a.toNat, .src .vec w.b.toNat]
  | .vcmpI32Eq w => [.pdst w.d.toNat, .src .vec w.a.toNat, .src .vec w.b.toNat]
  | .vcmpI32Ne w => [.pdst w.d.toNat, .src .vec w.a.toNat, .src .vec w.b.toNat]
  | .vcmpI32Lt w => [.pdst w.d.toNat, .src .vec w.a.toNat, .src .vec w.b.toNat]
  | .vcmpI32Le w => [.pdst w.d.toNat, .src .vec w.a.toNat, .src .vec w.b.toNat]
  | .vcmpI32Ltu w => [.pdst w.d.toNat, .src .vec w.a.toNat, .src .vec w.b.toNat]
  | .vcmpI32Leu w => [.pdst w.d.toNat, .src .vec w.a.toNat, .src .vec w.b.toNat]
  | .vcmpI32Eqz w => [.pdst w.d.toNat, .src .vec w.a.toNat]
  | .vcmpI32Nez w => [.pdst w.d.toNat, .src .vec w.a.toNat]
  | .vcmpI64Eq w => [.pdst w.d.toNat, .src .pair w.a.toNat, .src .pair w.b.toNat]
  | .vcmpI64Ne w => [.pdst w.d.toNat, .src .pair w.a.toNat, .src .pair w.b.toNat]
  | .vcmpI64Lt w => [.pdst w.d.toNat, .src .pair w.a.toNat, .src .pair w.b.toNat]
  | .vcmpI64Le w => [.pdst w.d.toNat, .src .pair w.a.toNat, .src .pair w.b.toNat]
  | .vcmpI64Ltu w => [.pdst w.d.toNat, .src .pair w.a.toNat, .src .pair w.b.toNat]
  | .vcmpI64Leu w => [.pdst w.d.toNat, .src .pair w.a.toNat, .src .pair w.b.toNat]
  | .vcmpI64Eqz w => [.pdst w.d.toNat, .src .pair w.a.toNat]
  | .vcmpI64Nez w => [.pdst w.d.toNat, .src .pair w.a.toNat]
  | .vcmpF32Eq w => [.pdst w.d.toNat, .src .vec w.a.toNat, .src .vec w.b.toNat]
  | .vcmpF32Lt w => [.pdst w.d.toNat, .src .vec w.a.toNat, .src .vec w.b.toNat]
  | .vcmpF32Le w => [.pdst w.d.toNat, .src .vec w.a.toNat, .src .vec w.b.toNat]
  | .vcmpF32Ne w => [.pdst w.d.toNat, .src .vec w.a.toNat, .src .vec w.b.toNat]
  | .vcmpF32Un w => [.pdst w.d.toNat, .src .vec w.a.toNat, .src .vec w.b.toNat]
  | .vcmpF32Ord w => [.pdst w.d.toNat, .src .vec w.a.toNat, .src .vec w.b.toNat]
  | .vcmpF32Isnan w => [.pdst w.d.toNat, .src .vec w.a.toNat]
  | .vcmpF32Isinf w => [.pdst w.d.toNat, .src .vec w.a.toNat]
  | .vcmpF64Eq w => [.pdst w.d.toNat, .src .pair w.a.toNat, .src .pair w.b.toNat]
  | .vcmpF64Lt w => [.pdst w.d.toNat, .src .pair w.a.toNat, .src .pair w.b.toNat]
  | .vcmpF64Le w => [.pdst w.d.toNat, .src .pair w.a.toNat, .src .pair w.b.toNat]
  | .vcmpF64Ne w => [.pdst w.d.toNat, .src .pair w.a.toNat, .src .pair w.b.toNat]
  | .vcmpF64Un w => [.pdst w.d.toNat, .src .pair w.a.toNat, .src .pair w.b.toNat]
  | .vcmpF64Ord w => [.pdst w.d.toNat, .src .pair w.a.toNat, .src .pair w.b.toNat]
  | .vcmpF64Isnan w => [.pdst w.d.toNat, .src .pair w.a.toNat]
  | .vcmpF64Isinf w => [.pdst w.d.toNat, .src .pair w.a.toNat]
  | .fadd w => [.dst .vec w.d.toNat, .src .vec w.a.toNat, .src .vec w.b.toNat]
  | .fsub w => [.dst .vec w.d.toNat, .src .vec w.a.toNat, .src .vec w.b.toNat]
  | .fmul w => [.dst .vec w.d.toNat, .src .vec w.a.toNat, .src .vec w.b.toNat]
  | .fmac w => [.dst .vec w.d.toNat, .src .vec w.a.toNat, .src .vec w.b.toNat, .src .vec w.d.toNat]
  | .fnmac w => [.dst .vec w.d.toNat, .src .vec w.a.toNat, .src .vec w.b.toNat, .src .vec w.d.toNat]
  | .fmin w => [.dst .vec w.d.toNat, .src .vec w.a.toNat, .src .vec w.b.toNat]
  | .fmax w => [.dst .vec w.d.toNat, .src .vec w.a.toNat, .src .vec w.b.toNat]
  | .fdiv w => [.dst .vec w.d.toNat, .src .vec w.a.toNat, .src .vec w.b.toNat]
  | .fsqrt w => [.dst .vec w.d.toNat, .src .vec w.a.toNat]
  | .frcpe w => [.dst .vec w.d.toNat, .src .vec w.a.toNat]
  | .frsqe w => [.dst .vec w.d.toNat, .src .vec w.a.toNat]
  | .fsgnj w => [.dst .vec w.d.toNat, .src .vec w.a.toNat, .src .vec w.b.toNat]
  | .fsgnjn w => [.dst .vec w.d.toNat, .src .vec w.a.toNat, .src .vec w.b.toNat]
  | .fsgnjx w => [.dst .vec w.d.toNat, .src .vec w.a.toNat, .src .vec w.b.toNat]
  | .fclass w => [.dst .vec w.d.toNat, .src .vec w.a.toNat]
  | .fscale w => [.dst .vec w.d.toNat, .src .vec w.a.toNat, .src .vec w.b.toNat]
  | .dadd w => [.dst .pair w.d.toNat, .src .pair w.a.toNat, .src .pair w.b.toNat]
  | .dsub w => [.dst .pair w.d.toNat, .src .pair w.a.toNat, .src .pair w.b.toNat]
  | .dmul w => [.dst .pair w.d.toNat, .src .pair w.a.toNat, .src .pair w.b.toNat]
  | .dmac w => [.dst .pair w.d.toNat, .src .pair w.a.toNat, .src .pair w.b.toNat, .src .pair w.d.toNat]
  | .dnmac w => [.dst .pair w.d.toNat, .src .pair w.a.toNat, .src .pair w.b.toNat, .src .pair w.d.toNat]
  | .dmin w => [.dst .pair w.d.toNat, .src .pair w.a.toNat, .src .pair w.b.toNat]
  | .dmax w => [.dst .pair w.d.toNat, .src .pair w.a.toNat, .src .pair w.b.toNat]
  | .ddiv w => [.dst .pair w.d.toNat, .src .pair w.a.toNat, .src .pair w.b.toNat]
  | .dsqrt w => [.dst .pair w.d.toNat, .src .pair w.a.toNat]
  | .drcpe w => [.dst .pair w.d.toNat, .src .pair w.a.toNat]
  | .drsqe w => [.dst .pair w.d.toNat, .src .pair w.a.toNat]
  | .dsgnj w => [.dst .pair w.d.toNat, .src .pair w.a.toNat, .src .pair w.b.toNat]
  | .dsgnjn w => [.dst .pair w.d.toNat, .src .pair w.a.toNat, .src .pair w.b.toNat]
  | .dsgnjx w => [.dst .pair w.d.toNat, .src .pair w.a.toNat, .src .pair w.b.toNat]
  | .dclass w => [.dst .pair w.d.toNat, .src .pair w.a.toNat]
  | .dscale w => [.dst .pair w.d.toNat, .src .pair w.a.toNat, .src .vec w.b.toNat]
  | .hadd2 w => [.dst .vec w.d.toNat, .src .vec w.a.toNat, .src .vec w.b.toNat]
  | .hsub2 w => [.dst .vec w.d.toNat, .src .vec w.a.toNat, .src .vec w.b.toNat]
  | .hmul2 w => [.dst .vec w.d.toNat, .src .vec w.a.toNat, .src .vec w.b.toNat]
  | .hmac2 w => [.dst .vec w.d.toNat, .src .vec w.a.toNat, .src .vec w.b.toNat, .src .vec w.d.toNat]
  | .hmin2 w => [.dst .vec w.d.toNat, .src .vec w.a.toNat, .src .vec w.b.toNat]
  | .hmax2 w => [.dst .vec w.d.toNat, .src .vec w.a.toNat, .src .vec w.b.toNat]
  | .badd2 w => [.dst .vec w.d.toNat, .src .vec w.a.toNat, .src .vec w.b.toNat]
  | .bsub2 w => [.dst .vec w.d.toNat, .src .vec w.a.toNat, .src .vec w.b.toNat]
  | .bmul2 w => [.dst .vec w.d.toNat, .src .vec w.a.toNat, .src .vec w.b.toNat]
  | .bmac2 w => [.dst .vec w.d.toNat, .src .vec w.a.toNat, .src .vec w.b.toNat, .src .vec w.d.toNat]
  | .bmin2 w => [.dst .vec w.d.toNat, .src .vec w.a.toNat, .src .vec w.b.toNat]
  | .bmax2 w => [.dst .vec w.d.toNat, .src .vec w.a.toNat, .src .vec w.b.toNat]
  | .hdot2 w => [.dst .vec w.d.toNat, .src .vec w.a.toNat, .src .vec w.b.toNat, .src .vec w.d.toNat]
  | .bdot2 w => [.dst .vec w.d.toNat, .src .vec w.a.toNat, .src .vec w.b.toNat, .src .vec w.d.toNat]
  | .qdot4 w => [.dst .vec w.d.toNat, .src .vec w.a.toNat, .src .vec w.b.toNat, .src .vec w.d.toNat]
  | .idot4 w => [.dst .vec w.d.toNat, .src .vec w.a.toNat, .src .vec w.b.toNat, .src .vec w.d.toNat]
  | .vcvtF32I32 w => [.dst .vec w.d.toNat, .src .vec w.a.toNat]
  | .vcvtF32U32 w => [.dst .vec w.d.toNat, .src .vec w.a.toNat]
  | .vcvtI32F32 w => [.dst .vec w.d.toNat, .src .vec w.a.toNat]
  | .vcvtU32F32 w => [.dst .vec w.d.toNat, .src .vec w.a.toNat]
  | .vcvtF32F64 w => [.dst .vec w.d.toNat, .src .pair w.a.toNat]
  | .vcvtF64F32 w => [.dst .pair w.d.toNat, .src .vec w.a.toNat]
  | .vcvtF64I32 w => [.dst .pair w.d.toNat, .src .vec w.a.toNat]
  | .vcvtF64U32 w => [.dst .pair w.d.toNat, .src .vec w.a.toNat]
  | .vcvtI32F64 w => [.dst .vec w.d.toNat, .src .pair w.a.toNat]
  | .vcvtU32F64 w => [.dst .vec w.d.toNat, .src .pair w.a.toNat]
  | .vcvtF64I64 w => [.dst .pair w.d.toNat, .src .pair w.a.toNat]
  | .vcvtI64F64 w => [.dst .pair w.d.toNat, .src .pair w.a.toNat]
  | .vcvtF32I64 w => [.dst .vec w.d.toNat, .src .pair w.a.toNat]
  | .vcvtI64F32 w => [.dst .pair w.d.toNat, .src .vec w.a.toNat]
  | .frint w => [.dst .vec w.d.toNat, .src .vec w.a.toNat]
  | .drint w => [.dst .pair w.d.toNat, .src .pair w.a.toNat]
  | .vcvtF16F32 w => [.dst .vec w.d.toNat, .src .vec w.a.toNat, .src .vec w.d.toNat]
  | .vcvtF32F16 w => [.dst .vec w.d.toNat, .src .vec w.a.toNat]
  | .vcvtBf16F32 w => [.dst .vec w.d.toNat, .src .vec w.a.toNat, .src .vec w.d.toNat]
  | .vcvtF32Bf16 w => [.dst .vec w.d.toNat, .src .vec w.a.toNat]
  | .vcvtE4m3F32 w => [.dst .vec w.d.toNat, .src .vec w.a.toNat, .src .vec w.d.toNat]
  | .vcvtE5m2F32 w => [.dst .vec w.d.toNat, .src .vec w.a.toNat, .src .vec w.d.toNat]
  | .vcvtF32E4m3 w => [.dst .vec w.d.toNat, .src .vec w.a.toNat]
  | .vcvtF32E5m2 w => [.dst .vec w.d.toNat, .src .vec w.a.toNat]
  | .vcvtF16E4m3 w => [.dst .vec w.d.toNat, .src .vec w.a.toNat]
  | .vcvtF16E5m2 w => [.dst .vec w.d.toNat, .src .vec w.a.toNat]
  | .vperm w => [.dst .vec w.d.toNat, .src .vec w.a.toNat, .src .vec w.b.toNat]
  | .vbcl w => [.dst .vec w.d.toNat, .src .vec w.a.toNat, .src .scalar w.b.toNat]
  | .vrotl w => [.dst .vec w.d.toNat, .src .vec w.a.toNat, .src .scalar w.b.toNat]
  | .vxorl w => [.dst .vec w.d.toNat, .src .vec w.a.toNat, .src .scalar w.b.toNat]
  | .vupl w => [.dst .vec w.d.toNat, .src .vec w.a.toNat, .src .scalar w.b.toNat, .src .vec w.d.toNat]
  | .vdnl w => [.dst .vec w.d.toNat, .src .vec w.a.toNat, .src .scalar w.b.toNat, .src .vec w.d.toNat]
  | .iredadd w => [.dst .vec w.d.toNat, .src .vec w.a.toNat]
  | .iredmin w => [.dst .vec w.d.toNat, .src .vec w.a.toNat]
  | .iredmax w => [.dst .vec w.d.toNat, .src .vec w.a.toNat]
  | .fredadd w => [.dst .vec w.d.toNat, .src .vec w.a.toNat]
  | .fredmin w => [.dst .vec w.d.toNat, .src .vec w.a.toNat]
  | .fredmax w => [.dst .vec w.d.toNat, .src .vec w.a.toNat]
  | .iscan w => [.dst .vec w.d.toNat, .src .vec w.a.toNat]
  | .fscan w => [.dst .vec w.d.toNat, .src .vec w.a.toNat]
  | .vcompact w => [.dst .vec w.d.toNat, .src .vec w.a.toNat, .src .vec w.d.toNat]
  | .vxchg w => [.dst .vec w.d.toNat, .src .vec w.a.toNat, .src .scalar w.b.toNat]
  | .vaddi w => [.dst .vec w.d.toNat, .src .vec w.a.toNat]
  | .vmuli w => [.dst .vec w.d.toNat, .src .vec w.a.toNat]
  | .vandi w => [.dst .vec w.d.toNat, .src .vec w.a.toNat]
  | .vori w => [.dst .vec w.d.toNat, .src .vec w.a.toNat]
  | .vxori w => [.dst .vec w.d.toNat, .src .vec w.a.toNat]
  | .vshli w => [.dst .vec w.d.toNat, .src .vec w.a.toNat]
  | .vshri w => [.dst .vec w.d.toNat, .src .vec w.a.toNat]
  | .vsrai w => [.dst .vec w.d.toNat, .src .vec w.a.toNat]
  | .vmini w => [.dst .vec w.d.toNat, .src .vec w.a.toNat]
  | .vmaxi w => [.dst .vec w.d.toNat, .src .vec w.a.toNat]
  | .vshl64i w => [.dst .pair w.d.toNat, .src .pair w.a.toNat]
  | .vshr64i w => [.dst .pair w.d.toNat, .src .pair w.a.toNat]
  | .vsplati w => [.dst .vec w.d.toNat]
  | .viota w => [.dst .vec w.d.toNat]
  | .vmov w => [.dst .vec w.d.toNat, .src .vec w.a.toNat]
  | .vbcs w => [.dst .vec w.d.toNat, .src .scalar w.a.toNat]
  | .vgetl w => [.dst .scalar w.d.toNat, .src .vec w.a.toNat, .src .scalar w.b.toNat]
  | .vsetl w => [.dst .vec w.d.toNat, .src .scalar w.a.toNat, .src .scalar w.b.toNat, .src .vec w.d.toNat]
  | .vmovxr w => [.dst .vec w.d.toNat, .src .scalar w.a.toNat]
  | .vmovxw w => (if w.k = 1 then [] else [.src .scalar w.d.toNat]) ++ [.src .vec w.a.toNat]
  | .vlane w => [.dst .vec w.d.toNat]
  | .vsel w => [.dst .vec w.d.toNat, .src .vec w.a.toNat, .src .vec w.b.toNat]
  | .pand w => [.pdst w.d.toNat]
  | .por w => [.pdst w.d.toNat]
  | .pxor w => [.pdst w.d.toNat]
  | .pandn w => [.pdst w.d.toNat]
  | .pnot w => [.pdst w.d.toNat]
  | .pset w => [.pdst w.d.toNat]
  | .pclr w => [.pdst w.d.toNat]
  | .pfroms w => [.pdst w.d.toNat, .src .spair w.s.toNat]
  | .ptos w => [.dst .spair w.s.toNat]
  | .pexec _ => []
  | .pcount w => [.dst .scalar w.s.toNat]
  | .sadd w => [.dst .scalar w.d.toNat, .src .scalar w.a.toNat, .src .scalar w.b.toNat]
  | .ssub w => [.dst .scalar w.d.toNat, .src .scalar w.a.toNat, .src .scalar w.b.toNat]
  | .smul w => [.dst .scalar w.d.toNat, .src .scalar w.a.toNat, .src .scalar w.b.toNat]
  | .smulhu w => [.dst .scalar w.d.toNat, .src .scalar w.a.toNat, .src .scalar w.b.toNat]
  | .sdiv w => [.dst .scalar w.d.toNat, .src .scalar w.a.toNat, .src .scalar w.b.toNat]
  | .sdivu w => [.dst .scalar w.d.toNat, .src .scalar w.a.toNat, .src .scalar w.b.toNat]
  | .srem w => [.dst .scalar w.d.toNat, .src .scalar w.a.toNat, .src .scalar w.b.toNat]
  | .sremu w => [.dst .scalar w.d.toNat, .src .scalar w.a.toNat, .src .scalar w.b.toNat]
  | .sand w => [.dst .scalar w.d.toNat, .src .scalar w.a.toNat, .src .scalar w.b.toNat]
  | .sor w => [.dst .scalar w.d.toNat, .src .scalar w.a.toNat, .src .scalar w.b.toNat]
  | .sxor w => [.dst .scalar w.d.toNat, .src .scalar w.a.toNat, .src .scalar w.b.toNat]
  | .sshl w => [.dst .scalar w.d.toNat, .src .scalar w.a.toNat, .src .scalar w.b.toNat]
  | .sshr w => [.dst .scalar w.d.toNat, .src .scalar w.a.toNat, .src .scalar w.b.toNat]
  | .ssra w => [.dst .scalar w.d.toNat, .src .scalar w.a.toNat, .src .scalar w.b.toNat]
  | .sslt w => [.dst .scalar w.d.toNat, .src .scalar w.a.toNat, .src .scalar w.b.toNat]
  | .ssltu w => [.dst .scalar w.d.toNat, .src .scalar w.a.toNat, .src .scalar w.b.toNat]
  | .saddi w => [.dst .scalar w.d.toNat, .src .scalar w.a.toNat]
  | .sandi w => [.dst .scalar w.d.toNat, .src .scalar w.a.toNat]
  | .sori w => [.dst .scalar w.d.toNat, .src .scalar w.a.toNat]
  | .sxori w => [.dst .scalar w.d.toNat, .src .scalar w.a.toNat]
  | .sshli w => [.dst .scalar w.d.toNat, .src .scalar w.a.toNat]
  | .sshri w => [.dst .scalar w.d.toNat, .src .scalar w.a.toNat]
  | .ssrai w => [.dst .scalar w.d.toNat, .src .scalar w.a.toNat]
  | .sslti w => [.dst .scalar w.d.toNat, .src .scalar w.a.toNat]
  | .sli w => [.dst .scalar w.d.toNat]
  | .shi w => [.dst .scalar w.d.toNat, .src .scalar w.d.toNat]
  | .movc w => [.dst .scalar w.s.toNat]
  | .movcw w => [.src .scalar w.s.toNat]
  | .tdesc w => [.src .scalar w.s.toNat]
  | .tdescr w => [.dst .scalar w.s.toNat]
  | .perfreq w => [.src .scalar w.s.toNat]
  | .b _ => []
  | .bl _ => []
  | .bsEq _ => []
  | .bsNe _ => []
  | .bsLt _ => []
  | .bsGe _ => []
  | .bsLtu _ => []
  | .bsGeu _ => []
  | .bsZ _ => []
  | .bsNz _ => []
  | .bpSplit _ => []
  | .bpAll _ => []
  | .bpAny _ => []
  | .bpUni _ => []
  | .jr w => [.src .scalar w.s.toNat]
  | .jlr w => [.src .scalar w.s.toNat]
  | .join _ => []
  | .regangAll _ => []
  | .regangAny _ => []
  | .yield _ => []
  | .exit _ => []
  | .nop _ => []
  | .sleep _ => []
  | .trap w => [.src .scalar w.s.toNat]
  | .tret _ => []
  | .brk _ => []
  | .hostmsg w => [.src .spair w.s.toNat]
  | .ckpt _ => []
  | .stopnow _ => []
  | .attachTry w => [.dst .scalar w.d.toNat, .src .scalar w.a.toNat, .src .scalar w.b.toNat]
  | .attachWait w => [.dst .scalar w.d.toNat, .src .scalar w.a.toNat, .src .scalar w.b.toNat]
  | .detach _ => []
  | .binit w => [.src .scalar w.a.toNat, .src .scalar w.b.toNat]
  | .barrive w => [.dst .scalar w.d.toNat, .src .scalar w.a.toNat]
  | .bwait w => [.dst .scalar w.d.toNat, .src .scalar w.a.toNat, .src .scalar w.b.toNat]
  | .bsync w => [.dst .scalar w.d.toNat, .src .scalar w.a.toNat]
  | .bkill w => [.src .scalar w.a.toNat]
  | .bquery w => [.dst .spair w.d.toNat, .src .scalar w.a.toNat]
  | .lds w => (if w.m = 0 then [.src .vec w.a.toNat] else []) ++ [.dst (OpKind.ofSize (w.z.toNat + 1)) w.v.toNat]
  | .sts w => (if w.m = 0 then [.src .vec w.a.toNat] else []) ++ [.src (OpKind.ofSize (w.z.toNat + 1)) w.v.toNat]
  | .ldc w => [.dst (OpKind.ofSize w.e.toNat) w.v.toNat]
  | .stc w => [.src (OpKind.ofSize w.e.toNat) w.v.toNat]
  | .ldg w => [.src (if w.w = 3 then .pair else .vec) w.i.toNat, .dst (OpKind.ofSize w.e.toNat) w.v.toNat]
  | .stg w => [.src (if w.w = 3 then .pair else .vec) w.i.toNat, .src (OpKind.ofSize w.e.toNat) w.v.toNat]
  | .amadd w => [.src .vec w.i.toNat] ++ atomicGroup w
  | .amsmin w => [.src .vec w.i.toNat] ++ atomicGroup w
  | .amsmax w => [.src .vec w.i.toNat] ++ atomicGroup w
  | .amumin w => [.src .vec w.i.toNat] ++ atomicGroup w
  | .amumax w => [.src .vec w.i.toNat] ++ atomicGroup w
  | .amand w => [.src .vec w.i.toNat] ++ atomicGroup w
  | .amor w => [.src .vec w.i.toNat] ++ atomicGroup w
  | .amxor w => [.src .vec w.i.toNat] ++ atomicGroup w
  | .amswap w => [.src .vec w.i.toNat] ++ atomicGroup w
  | .amcas w => [.src .vec w.i.toNat] ++ atomicGroup w ++ [.more (w.v.toNat + groupOf w.t.toNat) (groupOf w.t.toNat)]
  | .amfadd w => [.src .vec w.i.toNat] ++ atomicGroup w
  | .amfmin w => [.src .vec w.i.toNat] ++ atomicGroup w
  | .amfmax w => [.src .vec w.i.toNat] ++ atomicGroup w
  | .fence _ => []
  | .lr w => [.src .vec w.i.toNat, .dst (if w.w = 1 then .pair else .vec) w.v.toNat]
  | .sc w => [.src .vec w.i.toNat, .dst (if w.w = 1 then .pair else .vec) w.v.toNat]
  | .stred w => [.src .vec w.i.toNat, .src (if w.t = 1 then .pair else .vec) w.v.toNat]
  | .pref w => [.src .vec w.i.toNat]
  | .cinv _ => []
  | .cflush w => [.src .vec w.i.toNat]
  | .waitst _ => []
  | .mma w => [.dst .vec w.v.toNat]
  | .mmaz w => [.dst .vec w.v.toNat]
  | .mmap w => [.dst .vec w.v.toNat]
  | .mdefer w => [.dst .vec w.v.toNat]
  | .msave w => [.dst .vec w.v.toNat]
  | .mload w => [.dst .vec w.v.toNat]
  | .mwait _ => []
  | .copy w => [.dst .scalar w.d.toNat, .src .spair w.a.toNat, .src .scalar w.b.toNat]
  | .engwait w => [.dst .scalar w.d.toNat, .src .scalar w.a.toNat]
  | .qinit w => [.src .scalar w.a.toNat, .src .scalar w.b.toNat]
  | .qpush w => [.dst .scalar w.d.toNat, .src .scalar w.a.toNat, .src .vec w.b.toNat]
  | .qpop w => [.dst .vec w.d.toNat, .src .scalar w.a.toNat]
  | .qtrypush w => [.dst .scalar w.d.toNat, .src .scalar w.a.toNat, .src .vec w.b.toNat]
  | .qtrypop w => [.dst .vec w.d.toNat, .src .scalar w.a.toNat, .dst .scalar w.b.toNat]
  | .rwait w => [.dst .scalar w.d.toNat, .src .scalar w.a.toNat, .src .scalar w.b.toNat]
  | .radv w => [.src .scalar w.d.toNat, .src .scalar w.a.toNat, .src .scalar w.b.toNat]
  | .cueemit w => [.dst .scalar w.d.toNat, .src .scalar w.a.toNat, .src .scalar w.b.toNat]
  | .dcset w => [.src .scalar w.a.toNat, .src .scalar w.b.toNat]
  | .dcdec w => [.src .scalar w.a.toNat, .src .scalar w.b.toNat]
  | .dcwait w => [.dst .scalar w.d.toNat, .src .scalar w.a.toNat]
  | .waitTimeout _ _ _ => []
  | .trapDelivery _ _ => []
  | .barrierRelease _ => []
  | .fullEmptyCommit _ _ _ => []
  | .queueBlockedCommit _ _ _ => []
  | .ringWaitCommit _ _ _ => []
  | .sleepEnd _ _ _ => []
  | .wavePromotion _ _ => []
  | .promotionEnd _ _ => []
  | .vxchgMatch _ _ _ => []
  | .vxchgComplete _ _ _ => []
  | .waitstComplete _ _ _ => []
  | .mwaitComplete _ _ _ => []
  | .fencePerformed _ _ => []
  | .attachWaitRetry _ _ => []
  | .attachCycleBreak _ => []
  | .matrixCommandAccept _ => []
  | .matrixCommandComplete _ => []
  | .followSlotFire _ _ => []
  | .collectiveCreateRetry _ _ => []
  | .collectiveStart _ => []
  | .copyRequestReturn _ _ => []
  | .copyFaultResume _ _ => []
  | .collectiveComplete _ _ => []
  | .sliceRequest _ => []
  | .l2Fill _ => []
  | .storeAck _ => []
  | .loadReturn _ => []
  | .flushMarkerArrival _ => []
  | .gatherReply _ => []
  | .ticketRelease _ => []
  | .sliceReleaseApply _ => []
  | .ticketAdvance _ => []
  | .faultRecordService _ => []
  | .pageResolution _ _ => []
  | .pageWalk _ => []
  | .walkComplete _ => []
  | .shootdown _ _ _ _ => []
  | .shootdownRemoval _ => []
  | .shootdownAck _ => []
  | .atsTranslationCompletion _ _ => []
  | .prgResponse _ _ => []
  | .atsInvalidateRequest _ _ _ => []
  | .atsInvalidateRemoval => []
  | .invalidationCompletion => []
  | .hostReadCompletion _ _ => []
  | .atomicopCompletion _ _ => []
  | .hmqEntryWrite _ => []
  | .cueAppend => []
  | .batchFormation _ _ => []
  | .nodeRetirement _ _ => []
  | .dcUpdate => []
  | .dcwaitRelease _ _ _ => []
  | .placementPass => []
  | .launch _ => []
  | .resume _ => []
  | .preempt _ => []
  | .contextSave _ _ => []
  | .kill _ => []
  | .companyGating _ => []
  | .companyWakeEnd _ => []
  | .epochStart => []
  | .levelStep _ => []
  | .refreshBurst _ => []
  | .frozenRefreshBurst _ => []
  | .vaultTurnStart _ _ => []
  | .vaultRequest _ => []
  | .recoveryPoint _ => []
  | .rollback _ _ => []
  | .hardfailFreeze => []
  | .dieLinkHeaderFailure _ => []
  | .dieLinkPoison _ _ _ => []
  | .bankFailure _ _ _ => []
  | .sliceRetireReassign _ => []
  | .understudySwap => []
  | .understudySwapEnd => []
  | .stopatStop => []
  | .powerOnReset _ => []
  | .functionLevelReset _ => []
  | .gateAccept _ _ => []
  | .replayInject _ => []
  | .egressTransaction _ _ => []
  | .egdigest _ => []
  | .vaultTemperatureSample _ _ => []
  | .coreTemperatureSample _ _ => []
  | .packageCurrentSample _ => []
  | .companyVoltageSample _ _ => []
  | .houseFlitReceive _ _ _ => []
  | .houseResendRequest _ _ => []
  | .windowScrub _ _ => []
  | .houseFlitDeliver _ => []
  | .houseWrite _ _ => []
  | .houseReadRequest _ _ => []
  | .houseReadCompletion _ _ => []
  | .houseAtomic _ _ => []
  | .houseAtomicCompletion _ _ => []
  | .endToEndAck _ _ => []
  | .houseManagementFlit _ _ => []
  | .timeSyncExchange _ => []
  | .hostWindowWrite _ _ => []
  | .statusClear _ => []
  | .replaybrkClear _ => []
  | .powercapWrite _ => []
  | .partitionConfigure _ _ _ => []
  | .partitionSwap _ _ => []
  | .orderedBitWrite _ _ => []
  | .gatemodeWrite _ => []
  | .stopatWrite _ => []
  | .logtailWrite _ _ => []
  | .hmqtailWrite _ _ => []
  | .hmqsizeWrite _ _ => []
  | .take => []
  | .restore => []
  | .thaw => []
  | .freeze => []
  | .reset => []
  | .tableauOperationEnd => []
  | .nodeCommit _ _ _ => []
  | .nodeWithdraw _ _ => []
  | .nodeEntryWrite _ _ _ _ => []
  | .cuePush _ _ _ => []
  | .cueClose _ _ _ => []
  | .nodercClear _ _ => []
  | .errorCounterClear _ => []
  | .serviceRegionAccess _ _ _ => []
  | .hostKill _ _ => []
  | .retireSlice _ _ => []
  | .windowWrite _ _ => []
  | .windowRead _ => []
  | .cueemitAnswer _ _ _ => []
  | .refreshBurstEnd _ => []
  | .arrivalJournalInject _ => []

/-- The K bit of a word and the field that must then be 0: the destination field (Table 3.5); VMOVXW has none (R119). -/
def Instr.keep : Instr → Bool × Nat
  | .vadd w => (w.k = 1, w.d.toNat)
  | .vsub w => (w.k = 1, w.d.toNat)
  | .vmul w => (w.k = 1, w.d.toNat)
  | .vmulh w => (w.k = 1, w.d.toNat)
  | .vmulhu w => (w.k = 1, w.d.toNat)
  | .vmad w => (w.k = 1, w.d.toNat)
  | .vmin w => (w.k = 1, w.d.toNat)
  | .vmax w => (w.k = 1, w.d.toNat)
  | .vminu w => (w.k = 1, w.d.toNat)
  | .vmaxu w => (w.k = 1, w.d.toNat)
  | .vadds w => (w.k = 1, w.d.toNat)
  | .vsubs w => (w.k = 1, w.d.toNat)
  | .vdiv w => (w.k = 1, w.d.toNat)
  | .vdivu w => (w.k = 1, w.d.toNat)
  | .vrem w => (w.k = 1, w.d.toNat)
  | .vremu w => (w.k = 1, w.d.toNat)
  | .vand w => (w.k = 1, w.d.toNat)
  | .vor w => (w.k = 1, w.d.toNat)
  | .vxor w => (w.k = 1, w.d.toNat)
  | .vandn w => (w.k = 1, w.d.toNat)
  | .vshl w => (w.k = 1, w.d.toNat)
  | .vshr w => (w.k = 1, w.d.toNat)
  | .vsra w => (w.k = 1, w.d.toNat)
  | .vrol w => (w.k = 1, w.d.toNat)
  | .vpopc w => (w.k = 1, w.d.toNat)
  | .vclz w => (w.k = 1, w.d.toNat)
  | .vbrev w => (w.k = 1, w.d.toNat)
  | .vadd64 w => (w.k = 1, w.d.toNat)
  | .vsub64 w => (w.k = 1, w.d.toNat)
  | .vmulw w => (w.k = 1, w.d.toNat)
  | .vshl64 w => (w.k = 1, w.d.toNat)
  | .vshr64 w => (w.k = 1, w.d.toNat)
  | .vcmpI32Eq _ => (false, 0)
  | .vcmpI32Ne _ => (false, 0)
  | .vcmpI32Lt _ => (false, 0)
  | .vcmpI32Le _ => (false, 0)
  | .vcmpI32Ltu _ => (false, 0)
  | .vcmpI32Leu _ => (false, 0)
  | .vcmpI32Eqz _ => (false, 0)
  | .vcmpI32Nez _ => (false, 0)
  | .vcmpI64Eq _ => (false, 0)
  | .vcmpI64Ne _ => (false, 0)
  | .vcmpI64Lt _ => (false, 0)
  | .vcmpI64Le _ => (false, 0)
  | .vcmpI64Ltu _ => (false, 0)
  | .vcmpI64Leu _ => (false, 0)
  | .vcmpI64Eqz _ => (false, 0)
  | .vcmpI64Nez _ => (false, 0)
  | .vcmpF32Eq _ => (false, 0)
  | .vcmpF32Lt _ => (false, 0)
  | .vcmpF32Le _ => (false, 0)
  | .vcmpF32Ne _ => (false, 0)
  | .vcmpF32Un _ => (false, 0)
  | .vcmpF32Ord _ => (false, 0)
  | .vcmpF32Isnan _ => (false, 0)
  | .vcmpF32Isinf _ => (false, 0)
  | .vcmpF64Eq _ => (false, 0)
  | .vcmpF64Lt _ => (false, 0)
  | .vcmpF64Le _ => (false, 0)
  | .vcmpF64Ne _ => (false, 0)
  | .vcmpF64Un _ => (false, 0)
  | .vcmpF64Ord _ => (false, 0)
  | .vcmpF64Isnan _ => (false, 0)
  | .vcmpF64Isinf _ => (false, 0)
  | .fadd w => (w.k = 1, w.d.toNat)
  | .fsub w => (w.k = 1, w.d.toNat)
  | .fmul w => (w.k = 1, w.d.toNat)
  | .fmac w => (w.k = 1, w.d.toNat)
  | .fnmac w => (w.k = 1, w.d.toNat)
  | .fmin w => (w.k = 1, w.d.toNat)
  | .fmax w => (w.k = 1, w.d.toNat)
  | .fdiv w => (w.k = 1, w.d.toNat)
  | .fsqrt w => (w.k = 1, w.d.toNat)
  | .frcpe w => (w.k = 1, w.d.toNat)
  | .frsqe w => (w.k = 1, w.d.toNat)
  | .fsgnj w => (w.k = 1, w.d.toNat)
  | .fsgnjn w => (w.k = 1, w.d.toNat)
  | .fsgnjx w => (w.k = 1, w.d.toNat)
  | .fclass w => (w.k = 1, w.d.toNat)
  | .fscale w => (w.k = 1, w.d.toNat)
  | .dadd w => (w.k = 1, w.d.toNat)
  | .dsub w => (w.k = 1, w.d.toNat)
  | .dmul w => (w.k = 1, w.d.toNat)
  | .dmac w => (w.k = 1, w.d.toNat)
  | .dnmac w => (w.k = 1, w.d.toNat)
  | .dmin w => (w.k = 1, w.d.toNat)
  | .dmax w => (w.k = 1, w.d.toNat)
  | .ddiv w => (w.k = 1, w.d.toNat)
  | .dsqrt w => (w.k = 1, w.d.toNat)
  | .drcpe w => (w.k = 1, w.d.toNat)
  | .drsqe w => (w.k = 1, w.d.toNat)
  | .dsgnj w => (w.k = 1, w.d.toNat)
  | .dsgnjn w => (w.k = 1, w.d.toNat)
  | .dsgnjx w => (w.k = 1, w.d.toNat)
  | .dclass w => (w.k = 1, w.d.toNat)
  | .dscale w => (w.k = 1, w.d.toNat)
  | .hadd2 w => (w.k = 1, w.d.toNat)
  | .hsub2 w => (w.k = 1, w.d.toNat)
  | .hmul2 w => (w.k = 1, w.d.toNat)
  | .hmac2 w => (w.k = 1, w.d.toNat)
  | .hmin2 w => (w.k = 1, w.d.toNat)
  | .hmax2 w => (w.k = 1, w.d.toNat)
  | .badd2 w => (w.k = 1, w.d.toNat)
  | .bsub2 w => (w.k = 1, w.d.toNat)
  | .bmul2 w => (w.k = 1, w.d.toNat)
  | .bmac2 w => (w.k = 1, w.d.toNat)
  | .bmin2 w => (w.k = 1, w.d.toNat)
  | .bmax2 w => (w.k = 1, w.d.toNat)
  | .hdot2 w => (w.k = 1, w.d.toNat)
  | .bdot2 w => (w.k = 1, w.d.toNat)
  | .qdot4 w => (w.k = 1, w.d.toNat)
  | .idot4 w => (w.k = 1, w.d.toNat)
  | .vcvtF32I32 w => (w.k = 1, w.d.toNat)
  | .vcvtF32U32 w => (w.k = 1, w.d.toNat)
  | .vcvtI32F32 w => (w.k = 1, w.d.toNat)
  | .vcvtU32F32 w => (w.k = 1, w.d.toNat)
  | .vcvtF32F64 w => (w.k = 1, w.d.toNat)
  | .vcvtF64F32 w => (w.k = 1, w.d.toNat)
  | .vcvtF64I32 w => (w.k = 1, w.d.toNat)
  | .vcvtF64U32 w => (w.k = 1, w.d.toNat)
  | .vcvtI32F64 w => (w.k = 1, w.d.toNat)
  | .vcvtU32F64 w => (w.k = 1, w.d.toNat)
  | .vcvtF64I64 w => (w.k = 1, w.d.toNat)
  | .vcvtI64F64 w => (w.k = 1, w.d.toNat)
  | .vcvtF32I64 w => (w.k = 1, w.d.toNat)
  | .vcvtI64F32 w => (w.k = 1, w.d.toNat)
  | .frint w => (w.k = 1, w.d.toNat)
  | .drint w => (w.k = 1, w.d.toNat)
  | .vcvtF16F32 w => (w.k = 1, w.d.toNat)
  | .vcvtF32F16 w => (w.k = 1, w.d.toNat)
  | .vcvtBf16F32 w => (w.k = 1, w.d.toNat)
  | .vcvtF32Bf16 w => (w.k = 1, w.d.toNat)
  | .vcvtE4m3F32 w => (w.k = 1, w.d.toNat)
  | .vcvtE5m2F32 w => (w.k = 1, w.d.toNat)
  | .vcvtF32E4m3 w => (w.k = 1, w.d.toNat)
  | .vcvtF32E5m2 w => (w.k = 1, w.d.toNat)
  | .vcvtF16E4m3 w => (w.k = 1, w.d.toNat)
  | .vcvtF16E5m2 w => (w.k = 1, w.d.toNat)
  | .vperm w => (w.k = 1, w.d.toNat)
  | .vbcl w => (w.k = 1, w.d.toNat)
  | .vrotl w => (w.k = 1, w.d.toNat)
  | .vxorl w => (w.k = 1, w.d.toNat)
  | .vupl w => (w.k = 1, w.d.toNat)
  | .vdnl w => (w.k = 1, w.d.toNat)
  | .iredadd w => (w.k = 1, w.d.toNat)
  | .iredmin w => (w.k = 1, w.d.toNat)
  | .iredmax w => (w.k = 1, w.d.toNat)
  | .fredadd w => (w.k = 1, w.d.toNat)
  | .fredmin w => (w.k = 1, w.d.toNat)
  | .fredmax w => (w.k = 1, w.d.toNat)
  | .iscan w => (w.k = 1, w.d.toNat)
  | .fscan w => (w.k = 1, w.d.toNat)
  | .vcompact w => (w.k = 1, w.d.toNat)
  | .vxchg _ => (false, 0)
  | .vaddi w => (w.k = 1, w.d.toNat)
  | .vmuli w => (w.k = 1, w.d.toNat)
  | .vandi w => (w.k = 1, w.d.toNat)
  | .vori w => (w.k = 1, w.d.toNat)
  | .vxori w => (w.k = 1, w.d.toNat)
  | .vshli w => (w.k = 1, w.d.toNat)
  | .vshri w => (w.k = 1, w.d.toNat)
  | .vsrai w => (w.k = 1, w.d.toNat)
  | .vmini w => (w.k = 1, w.d.toNat)
  | .vmaxi w => (w.k = 1, w.d.toNat)
  | .vshl64i w => (w.k = 1, w.d.toNat)
  | .vshr64i w => (w.k = 1, w.d.toNat)
  | .vsplati w => (w.k = 1, w.d.toNat)
  | .viota w => (w.k = 1, w.d.toNat)
  | .vmov w => (w.k = 1, w.d.toNat)
  | .vbcs w => (w.k = 1, w.d.toNat)
  | .vgetl w => (w.k = 1, w.d.toNat)
  | .vsetl w => (w.k = 1, w.d.toNat)
  | .vmovxr w => (w.k = 1, w.d.toNat)
  | .vmovxw w => (w.k = 1, 0)
  | .vlane w => (w.k = 1, w.d.toNat)
  | .vsel w => (w.k = 1, w.d.toNat)
  | .pand _ => (false, 0)
  | .por _ => (false, 0)
  | .pxor _ => (false, 0)
  | .pandn _ => (false, 0)
  | .pnot _ => (false, 0)
  | .pset _ => (false, 0)
  | .pclr _ => (false, 0)
  | .pfroms _ => (false, 0)
  | .ptos _ => (false, 0)
  | .pexec _ => (false, 0)
  | .pcount _ => (false, 0)
  | .sadd w => (w.k = 1, w.d.toNat)
  | .ssub w => (w.k = 1, w.d.toNat)
  | .smul w => (w.k = 1, w.d.toNat)
  | .smulhu w => (w.k = 1, w.d.toNat)
  | .sdiv w => (w.k = 1, w.d.toNat)
  | .sdivu w => (w.k = 1, w.d.toNat)
  | .srem w => (w.k = 1, w.d.toNat)
  | .sremu w => (w.k = 1, w.d.toNat)
  | .sand w => (w.k = 1, w.d.toNat)
  | .sor w => (w.k = 1, w.d.toNat)
  | .sxor w => (w.k = 1, w.d.toNat)
  | .sshl w => (w.k = 1, w.d.toNat)
  | .sshr w => (w.k = 1, w.d.toNat)
  | .ssra w => (w.k = 1, w.d.toNat)
  | .sslt w => (w.k = 1, w.d.toNat)
  | .ssltu w => (w.k = 1, w.d.toNat)
  | .saddi w => (w.k = 1, w.d.toNat)
  | .sandi w => (w.k = 1, w.d.toNat)
  | .sori w => (w.k = 1, w.d.toNat)
  | .sxori w => (w.k = 1, w.d.toNat)
  | .sshli w => (w.k = 1, w.d.toNat)
  | .sshri w => (w.k = 1, w.d.toNat)
  | .ssrai w => (w.k = 1, w.d.toNat)
  | .sslti w => (w.k = 1, w.d.toNat)
  | .sli w => (w.k = 1, w.d.toNat)
  | .shi _ => (false, 0)
  | .movc w => (w.k = 1, w.s.toNat)
  | .movcw _ => (false, 0)
  | .tdesc _ => (false, 0)
  | .tdescr _ => (false, 0)
  | .perfreq _ => (false, 0)
  | .b _ => (false, 0)
  | .bl _ => (false, 0)
  | .bsEq _ => (false, 0)
  | .bsNe _ => (false, 0)
  | .bsLt _ => (false, 0)
  | .bsGe _ => (false, 0)
  | .bsLtu _ => (false, 0)
  | .bsGeu _ => (false, 0)
  | .bsZ _ => (false, 0)
  | .bsNz _ => (false, 0)
  | .bpSplit _ => (false, 0)
  | .bpAll _ => (false, 0)
  | .bpAny _ => (false, 0)
  | .bpUni _ => (false, 0)
  | .jr _ => (false, 0)
  | .jlr _ => (false, 0)
  | .join _ => (false, 0)
  | .regangAll _ => (false, 0)
  | .regangAny _ => (false, 0)
  | .yield _ => (false, 0)
  | .exit _ => (false, 0)
  | .nop _ => (false, 0)
  | .sleep _ => (false, 0)
  | .trap _ => (false, 0)
  | .tret _ => (false, 0)
  | .brk _ => (false, 0)
  | .hostmsg _ => (false, 0)
  | .ckpt _ => (false, 0)
  | .stopnow _ => (false, 0)
  | .attachTry _ => (false, 0)
  | .attachWait _ => (false, 0)
  | .detach _ => (false, 0)
  | .binit _ => (false, 0)
  | .barrive _ => (false, 0)
  | .bwait _ => (false, 0)
  | .bsync _ => (false, 0)
  | .bkill _ => (false, 0)
  | .bquery _ => (false, 0)
  | .lds _ => (false, 0)
  | .sts _ => (false, 0)
  | .ldc _ => (false, 0)
  | .stc _ => (false, 0)
  | .ldg _ => (false, 0)
  | .stg _ => (false, 0)
  | .amadd _ => (false, 0)
  | .amsmin _ => (false, 0)
  | .amsmax _ => (false, 0)
  | .amumin _ => (false, 0)
  | .amumax _ => (false, 0)
  | .amand _ => (false, 0)
  | .amor _ => (false, 0)
  | .amxor _ => (false, 0)
  | .amswap _ => (false, 0)
  | .amcas _ => (false, 0)
  | .amfadd _ => (false, 0)
  | .amfmin _ => (false, 0)
  | .amfmax _ => (false, 0)
  | .fence _ => (false, 0)
  | .lr _ => (false, 0)
  | .sc _ => (false, 0)
  | .stred _ => (false, 0)
  | .pref _ => (false, 0)
  | .cinv _ => (false, 0)
  | .cflush _ => (false, 0)
  | .waitst _ => (false, 0)
  | .mma _ => (false, 0)
  | .mmaz _ => (false, 0)
  | .mmap _ => (false, 0)
  | .mdefer _ => (false, 0)
  | .msave _ => (false, 0)
  | .mload _ => (false, 0)
  | .mwait _ => (false, 0)
  | .copy _ => (false, 0)
  | .engwait _ => (false, 0)
  | .qinit _ => (false, 0)
  | .qpush _ => (false, 0)
  | .qpop _ => (false, 0)
  | .qtrypush _ => (false, 0)
  | .qtrypop _ => (false, 0)
  | .rwait _ => (false, 0)
  | .radv _ => (false, 0)
  | .cueemit _ => (false, 0)
  | .dcset _ => (false, 0)
  | .dcdec _ => (false, 0)
  | .dcwait _ => (false, 0)
  | .waitTimeout _ _ _ => (false, 0)
  | .trapDelivery _ _ => (false, 0)
  | .barrierRelease _ => (false, 0)
  | .fullEmptyCommit _ _ _ => (false, 0)
  | .queueBlockedCommit _ _ _ => (false, 0)
  | .ringWaitCommit _ _ _ => (false, 0)
  | .sleepEnd _ _ _ => (false, 0)
  | .wavePromotion _ _ => (false, 0)
  | .promotionEnd _ _ => (false, 0)
  | .vxchgMatch _ _ _ => (false, 0)
  | .vxchgComplete _ _ _ => (false, 0)
  | .waitstComplete _ _ _ => (false, 0)
  | .mwaitComplete _ _ _ => (false, 0)
  | .fencePerformed _ _ => (false, 0)
  | .attachWaitRetry _ _ => (false, 0)
  | .attachCycleBreak _ => (false, 0)
  | .matrixCommandAccept _ => (false, 0)
  | .matrixCommandComplete _ => (false, 0)
  | .followSlotFire _ _ => (false, 0)
  | .collectiveCreateRetry _ _ => (false, 0)
  | .collectiveStart _ => (false, 0)
  | .copyRequestReturn _ _ => (false, 0)
  | .copyFaultResume _ _ => (false, 0)
  | .collectiveComplete _ _ => (false, 0)
  | .sliceRequest _ => (false, 0)
  | .l2Fill _ => (false, 0)
  | .storeAck _ => (false, 0)
  | .loadReturn _ => (false, 0)
  | .flushMarkerArrival _ => (false, 0)
  | .gatherReply _ => (false, 0)
  | .ticketRelease _ => (false, 0)
  | .sliceReleaseApply _ => (false, 0)
  | .ticketAdvance _ => (false, 0)
  | .faultRecordService _ => (false, 0)
  | .pageResolution _ _ => (false, 0)
  | .pageWalk _ => (false, 0)
  | .walkComplete _ => (false, 0)
  | .shootdown _ _ _ _ => (false, 0)
  | .shootdownRemoval _ => (false, 0)
  | .shootdownAck _ => (false, 0)
  | .atsTranslationCompletion _ _ => (false, 0)
  | .prgResponse _ _ => (false, 0)
  | .atsInvalidateRequest _ _ _ => (false, 0)
  | .atsInvalidateRemoval => (false, 0)
  | .invalidationCompletion => (false, 0)
  | .hostReadCompletion _ _ => (false, 0)
  | .atomicopCompletion _ _ => (false, 0)
  | .hmqEntryWrite _ => (false, 0)
  | .cueAppend => (false, 0)
  | .batchFormation _ _ => (false, 0)
  | .nodeRetirement _ _ => (false, 0)
  | .dcUpdate => (false, 0)
  | .dcwaitRelease _ _ _ => (false, 0)
  | .placementPass => (false, 0)
  | .launch _ => (false, 0)
  | .resume _ => (false, 0)
  | .preempt _ => (false, 0)
  | .contextSave _ _ => (false, 0)
  | .kill _ => (false, 0)
  | .companyGating _ => (false, 0)
  | .companyWakeEnd _ => (false, 0)
  | .epochStart => (false, 0)
  | .levelStep _ => (false, 0)
  | .refreshBurst _ => (false, 0)
  | .frozenRefreshBurst _ => (false, 0)
  | .vaultTurnStart _ _ => (false, 0)
  | .vaultRequest _ => (false, 0)
  | .recoveryPoint _ => (false, 0)
  | .rollback _ _ => (false, 0)
  | .hardfailFreeze => (false, 0)
  | .dieLinkHeaderFailure _ => (false, 0)
  | .dieLinkPoison _ _ _ => (false, 0)
  | .bankFailure _ _ _ => (false, 0)
  | .sliceRetireReassign _ => (false, 0)
  | .understudySwap => (false, 0)
  | .understudySwapEnd => (false, 0)
  | .stopatStop => (false, 0)
  | .powerOnReset _ => (false, 0)
  | .functionLevelReset _ => (false, 0)
  | .gateAccept _ _ => (false, 0)
  | .replayInject _ => (false, 0)
  | .egressTransaction _ _ => (false, 0)
  | .egdigest _ => (false, 0)
  | .vaultTemperatureSample _ _ => (false, 0)
  | .coreTemperatureSample _ _ => (false, 0)
  | .packageCurrentSample _ => (false, 0)
  | .companyVoltageSample _ _ => (false, 0)
  | .houseFlitReceive _ _ _ => (false, 0)
  | .houseResendRequest _ _ => (false, 0)
  | .windowScrub _ _ => (false, 0)
  | .houseFlitDeliver _ => (false, 0)
  | .houseWrite _ _ => (false, 0)
  | .houseReadRequest _ _ => (false, 0)
  | .houseReadCompletion _ _ => (false, 0)
  | .houseAtomic _ _ => (false, 0)
  | .houseAtomicCompletion _ _ => (false, 0)
  | .endToEndAck _ _ => (false, 0)
  | .houseManagementFlit _ _ => (false, 0)
  | .timeSyncExchange _ => (false, 0)
  | .hostWindowWrite _ _ => (false, 0)
  | .statusClear _ => (false, 0)
  | .replaybrkClear _ => (false, 0)
  | .powercapWrite _ => (false, 0)
  | .partitionConfigure _ _ _ => (false, 0)
  | .partitionSwap _ _ => (false, 0)
  | .orderedBitWrite _ _ => (false, 0)
  | .gatemodeWrite _ => (false, 0)
  | .stopatWrite _ => (false, 0)
  | .logtailWrite _ _ => (false, 0)
  | .hmqtailWrite _ _ => (false, 0)
  | .hmqsizeWrite _ _ => (false, 0)
  | .take => (false, 0)
  | .restore => (false, 0)
  | .thaw => (false, 0)
  | .freeze => (false, 0)
  | .reset => (false, 0)
  | .tableauOperationEnd => (false, 0)
  | .nodeCommit _ _ _ => (false, 0)
  | .nodeWithdraw _ _ => (false, 0)
  | .nodeEntryWrite _ _ _ _ => (false, 0)
  | .cuePush _ _ _ => (false, 0)
  | .cueClose _ _ _ => (false, 0)
  | .nodercClear _ _ => (false, 0)
  | .errorCounterClear _ => (false, 0)
  | .serviceRegionAccess _ _ _ => (false, 0)
  | .hostKill _ _ => (false, 0)
  | .retireSlice _ _ => (false, 0)
  | .windowWrite _ _ => (false, 0)
  | .windowRead _ => (false, 0)
  | .cueemitAnswer _ _ _ => (false, 0)
  | .refreshBurstEnd _ => (false, 0)
  | .arrivalJournalInject _ => (false, 0)

/-- The C bit of a word: it is chained to the next word of the packet (R62). -/
def Instr.chained : Instr → Bool
  | .vadd w => w.c = 1
  | .vsub w => w.c = 1
  | .vmul w => w.c = 1
  | .vmulh w => w.c = 1
  | .vmulhu w => w.c = 1
  | .vmad w => w.c = 1
  | .vmin w => w.c = 1
  | .vmax w => w.c = 1
  | .vminu w => w.c = 1
  | .vmaxu w => w.c = 1
  | .vadds w => w.c = 1
  | .vsubs w => w.c = 1
  | .vdiv w => w.c = 1
  | .vdivu w => w.c = 1
  | .vrem w => w.c = 1
  | .vremu w => w.c = 1
  | .vand w => w.c = 1
  | .vor w => w.c = 1
  | .vxor w => w.c = 1
  | .vandn w => w.c = 1
  | .vshl w => w.c = 1
  | .vshr w => w.c = 1
  | .vsra w => w.c = 1
  | .vrol w => w.c = 1
  | .vpopc w => w.c = 1
  | .vclz w => w.c = 1
  | .vbrev w => w.c = 1
  | .vadd64 w => w.c = 1
  | .vsub64 w => w.c = 1
  | .vmulw w => w.c = 1
  | .vshl64 w => w.c = 1
  | .vshr64 w => w.c = 1
  | .vcmpI32Eq w => w.c = 1
  | .vcmpI32Ne w => w.c = 1
  | .vcmpI32Lt w => w.c = 1
  | .vcmpI32Le w => w.c = 1
  | .vcmpI32Ltu w => w.c = 1
  | .vcmpI32Leu w => w.c = 1
  | .vcmpI32Eqz w => w.c = 1
  | .vcmpI32Nez w => w.c = 1
  | .vcmpI64Eq w => w.c = 1
  | .vcmpI64Ne w => w.c = 1
  | .vcmpI64Lt w => w.c = 1
  | .vcmpI64Le w => w.c = 1
  | .vcmpI64Ltu w => w.c = 1
  | .vcmpI64Leu w => w.c = 1
  | .vcmpI64Eqz w => w.c = 1
  | .vcmpI64Nez w => w.c = 1
  | .vcmpF32Eq w => w.c = 1
  | .vcmpF32Lt w => w.c = 1
  | .vcmpF32Le w => w.c = 1
  | .vcmpF32Ne w => w.c = 1
  | .vcmpF32Un w => w.c = 1
  | .vcmpF32Ord w => w.c = 1
  | .vcmpF32Isnan w => w.c = 1
  | .vcmpF32Isinf w => w.c = 1
  | .vcmpF64Eq w => w.c = 1
  | .vcmpF64Lt w => w.c = 1
  | .vcmpF64Le w => w.c = 1
  | .vcmpF64Ne w => w.c = 1
  | .vcmpF64Un w => w.c = 1
  | .vcmpF64Ord w => w.c = 1
  | .vcmpF64Isnan w => w.c = 1
  | .vcmpF64Isinf w => w.c = 1
  | .fadd w => w.c = 1
  | .fsub w => w.c = 1
  | .fmul w => w.c = 1
  | .fmac w => w.c = 1
  | .fnmac w => w.c = 1
  | .fmin w => w.c = 1
  | .fmax w => w.c = 1
  | .fdiv w => w.c = 1
  | .fsqrt w => w.c = 1
  | .frcpe w => w.c = 1
  | .frsqe w => w.c = 1
  | .fsgnj w => w.c = 1
  | .fsgnjn w => w.c = 1
  | .fsgnjx w => w.c = 1
  | .fclass w => w.c = 1
  | .fscale w => w.c = 1
  | .dadd w => w.c = 1
  | .dsub w => w.c = 1
  | .dmul w => w.c = 1
  | .dmac w => w.c = 1
  | .dnmac w => w.c = 1
  | .dmin w => w.c = 1
  | .dmax w => w.c = 1
  | .ddiv w => w.c = 1
  | .dsqrt w => w.c = 1
  | .drcpe w => w.c = 1
  | .drsqe w => w.c = 1
  | .dsgnj w => w.c = 1
  | .dsgnjn w => w.c = 1
  | .dsgnjx w => w.c = 1
  | .dclass w => w.c = 1
  | .dscale w => w.c = 1
  | .hadd2 w => w.c = 1
  | .hsub2 w => w.c = 1
  | .hmul2 w => w.c = 1
  | .hmac2 w => w.c = 1
  | .hmin2 w => w.c = 1
  | .hmax2 w => w.c = 1
  | .badd2 w => w.c = 1
  | .bsub2 w => w.c = 1
  | .bmul2 w => w.c = 1
  | .bmac2 w => w.c = 1
  | .bmin2 w => w.c = 1
  | .bmax2 w => w.c = 1
  | .hdot2 w => w.c = 1
  | .bdot2 w => w.c = 1
  | .qdot4 w => w.c = 1
  | .idot4 w => w.c = 1
  | .vcvtF32I32 w => w.c = 1
  | .vcvtF32U32 w => w.c = 1
  | .vcvtI32F32 w => w.c = 1
  | .vcvtU32F32 w => w.c = 1
  | .vcvtF32F64 w => w.c = 1
  | .vcvtF64F32 w => w.c = 1
  | .vcvtF64I32 w => w.c = 1
  | .vcvtF64U32 w => w.c = 1
  | .vcvtI32F64 w => w.c = 1
  | .vcvtU32F64 w => w.c = 1
  | .vcvtF64I64 w => w.c = 1
  | .vcvtI64F64 w => w.c = 1
  | .vcvtF32I64 w => w.c = 1
  | .vcvtI64F32 w => w.c = 1
  | .frint w => w.c = 1
  | .drint w => w.c = 1
  | .vcvtF16F32 w => w.c = 1
  | .vcvtF32F16 w => w.c = 1
  | .vcvtBf16F32 w => w.c = 1
  | .vcvtF32Bf16 w => w.c = 1
  | .vcvtE4m3F32 w => w.c = 1
  | .vcvtE5m2F32 w => w.c = 1
  | .vcvtF32E4m3 w => w.c = 1
  | .vcvtF32E5m2 w => w.c = 1
  | .vcvtF16E4m3 w => w.c = 1
  | .vcvtF16E5m2 w => w.c = 1
  | .vperm w => w.c = 1
  | .vbcl w => w.c = 1
  | .vrotl w => w.c = 1
  | .vxorl w => w.c = 1
  | .vupl w => w.c = 1
  | .vdnl w => w.c = 1
  | .iredadd w => w.c = 1
  | .iredmin w => w.c = 1
  | .iredmax w => w.c = 1
  | .fredadd w => w.c = 1
  | .fredmin w => w.c = 1
  | .fredmax w => w.c = 1
  | .iscan w => w.c = 1
  | .fscan w => w.c = 1
  | .vcompact w => w.c = 1
  | .vxchg w => w.c = 1
  | .vaddi w => w.c = 1
  | .vmuli w => w.c = 1
  | .vandi w => w.c = 1
  | .vori w => w.c = 1
  | .vxori w => w.c = 1
  | .vshli w => w.c = 1
  | .vshri w => w.c = 1
  | .vsrai w => w.c = 1
  | .vmini w => w.c = 1
  | .vmaxi w => w.c = 1
  | .vshl64i w => w.c = 1
  | .vshr64i w => w.c = 1
  | .vsplati w => w.c = 1
  | .viota w => w.c = 1
  | .vmov w => w.c = 1
  | .vbcs w => w.c = 1
  | .vgetl w => w.c = 1
  | .vsetl w => w.c = 1
  | .vmovxr w => w.c = 1
  | .vmovxw w => w.c = 1
  | .vlane w => w.c = 1
  | .vsel w => w.c = 1
  | .pand w => w.c = 1
  | .por w => w.c = 1
  | .pxor w => w.c = 1
  | .pandn w => w.c = 1
  | .pnot w => w.c = 1
  | .pset w => w.c = 1
  | .pclr w => w.c = 1
  | .pfroms w => w.c = 1
  | .ptos w => w.c = 1
  | .pexec w => w.c = 1
  | .pcount w => w.c = 1
  | .sadd w => w.c = 1
  | .ssub w => w.c = 1
  | .smul w => w.c = 1
  | .smulhu w => w.c = 1
  | .sdiv w => w.c = 1
  | .sdivu w => w.c = 1
  | .srem w => w.c = 1
  | .sremu w => w.c = 1
  | .sand w => w.c = 1
  | .sor w => w.c = 1
  | .sxor w => w.c = 1
  | .sshl w => w.c = 1
  | .sshr w => w.c = 1
  | .ssra w => w.c = 1
  | .sslt w => w.c = 1
  | .ssltu w => w.c = 1
  | .saddi w => w.c = 1
  | .sandi w => w.c = 1
  | .sori w => w.c = 1
  | .sxori w => w.c = 1
  | .sshli w => w.c = 1
  | .sshri w => w.c = 1
  | .ssrai w => w.c = 1
  | .sslti w => w.c = 1
  | .sli w => w.c = 1
  | .shi w => w.c = 1
  | .movc w => w.c = 1
  | .movcw w => w.c = 1
  | .tdesc w => w.c = 1
  | .tdescr w => w.c = 1
  | .perfreq w => w.c = 1
  | .b w => w.c = 1
  | .bl w => w.c = 1
  | .bsEq w => w.c = 1
  | .bsNe w => w.c = 1
  | .bsLt w => w.c = 1
  | .bsGe w => w.c = 1
  | .bsLtu w => w.c = 1
  | .bsGeu w => w.c = 1
  | .bsZ w => w.c = 1
  | .bsNz w => w.c = 1
  | .bpSplit w => w.c = 1
  | .bpAll w => w.c = 1
  | .bpAny w => w.c = 1
  | .bpUni w => w.c = 1
  | .jr w => w.c = 1
  | .jlr w => w.c = 1
  | .join w => w.c = 1
  | .regangAll w => w.c = 1
  | .regangAny w => w.c = 1
  | .yield w => w.c = 1
  | .exit w => w.c = 1
  | .nop w => w.c = 1
  | .sleep w => w.c = 1
  | .trap w => w.c = 1
  | .tret w => w.c = 1
  | .brk w => w.c = 1
  | .hostmsg w => w.c = 1
  | .ckpt w => w.c = 1
  | .stopnow w => w.c = 1
  | .attachTry w => w.c = 1
  | .attachWait w => w.c = 1
  | .detach w => w.c = 1
  | .binit w => w.c = 1
  | .barrive w => w.c = 1
  | .bwait w => w.c = 1
  | .bsync w => w.c = 1
  | .bkill w => w.c = 1
  | .bquery w => w.c = 1
  | .lds w => w.c = 1
  | .sts w => w.c = 1
  | .ldc w => w.c = 1
  | .stc w => w.c = 1
  | .ldg w => w.c = 1
  | .stg w => w.c = 1
  | .amadd w => w.c = 1
  | .amsmin w => w.c = 1
  | .amsmax w => w.c = 1
  | .amumin w => w.c = 1
  | .amumax w => w.c = 1
  | .amand w => w.c = 1
  | .amor w => w.c = 1
  | .amxor w => w.c = 1
  | .amswap w => w.c = 1
  | .amcas w => w.c = 1
  | .amfadd w => w.c = 1
  | .amfmin w => w.c = 1
  | .amfmax w => w.c = 1
  | .fence w => w.c = 1
  | .lr w => w.c = 1
  | .sc w => w.c = 1
  | .stred w => w.c = 1
  | .pref w => w.c = 1
  | .cinv w => w.c = 1
  | .cflush w => w.c = 1
  | .waitst w => w.c = 1
  | .mma w => w.c = 1
  | .mmaz w => w.c = 1
  | .mmap w => w.c = 1
  | .mdefer w => w.c = 1
  | .msave w => w.c = 1
  | .mload w => w.c = 1
  | .mwait w => w.c = 1
  | .copy w => w.c = 1
  | .engwait w => w.c = 1
  | .qinit w => w.c = 1
  | .qpush w => w.c = 1
  | .qpop w => w.c = 1
  | .qtrypush w => w.c = 1
  | .qtrypop w => w.c = 1
  | .rwait w => w.c = 1
  | .radv w => w.c = 1
  | .cueemit w => w.c = 1
  | .dcset w => w.c = 1
  | .dcdec w => w.c = 1
  | .dcwait w => w.c = 1
  | .waitTimeout _ _ _ => false
  | .trapDelivery _ _ => false
  | .barrierRelease _ => false
  | .fullEmptyCommit _ _ _ => false
  | .queueBlockedCommit _ _ _ => false
  | .ringWaitCommit _ _ _ => false
  | .sleepEnd _ _ _ => false
  | .wavePromotion _ _ => false
  | .promotionEnd _ _ => false
  | .vxchgMatch _ _ _ => false
  | .vxchgComplete _ _ _ => false
  | .waitstComplete _ _ _ => false
  | .mwaitComplete _ _ _ => false
  | .fencePerformed _ _ => false
  | .attachWaitRetry _ _ => false
  | .attachCycleBreak _ => false
  | .matrixCommandAccept _ => false
  | .matrixCommandComplete _ => false
  | .followSlotFire _ _ => false
  | .collectiveCreateRetry _ _ => false
  | .collectiveStart _ => false
  | .copyRequestReturn _ _ => false
  | .copyFaultResume _ _ => false
  | .collectiveComplete _ _ => false
  | .sliceRequest _ => false
  | .l2Fill _ => false
  | .storeAck _ => false
  | .loadReturn _ => false
  | .flushMarkerArrival _ => false
  | .gatherReply _ => false
  | .ticketRelease _ => false
  | .sliceReleaseApply _ => false
  | .ticketAdvance _ => false
  | .faultRecordService _ => false
  | .pageResolution _ _ => false
  | .pageWalk _ => false
  | .walkComplete _ => false
  | .shootdown _ _ _ _ => false
  | .shootdownRemoval _ => false
  | .shootdownAck _ => false
  | .atsTranslationCompletion _ _ => false
  | .prgResponse _ _ => false
  | .atsInvalidateRequest _ _ _ => false
  | .atsInvalidateRemoval => false
  | .invalidationCompletion => false
  | .hostReadCompletion _ _ => false
  | .atomicopCompletion _ _ => false
  | .hmqEntryWrite _ => false
  | .cueAppend => false
  | .batchFormation _ _ => false
  | .nodeRetirement _ _ => false
  | .dcUpdate => false
  | .dcwaitRelease _ _ _ => false
  | .placementPass => false
  | .launch _ => false
  | .resume _ => false
  | .preempt _ => false
  | .contextSave _ _ => false
  | .kill _ => false
  | .companyGating _ => false
  | .companyWakeEnd _ => false
  | .epochStart => false
  | .levelStep _ => false
  | .refreshBurst _ => false
  | .frozenRefreshBurst _ => false
  | .vaultTurnStart _ _ => false
  | .vaultRequest _ => false
  | .recoveryPoint _ => false
  | .rollback _ _ => false
  | .hardfailFreeze => false
  | .dieLinkHeaderFailure _ => false
  | .dieLinkPoison _ _ _ => false
  | .bankFailure _ _ _ => false
  | .sliceRetireReassign _ => false
  | .understudySwap => false
  | .understudySwapEnd => false
  | .stopatStop => false
  | .powerOnReset _ => false
  | .functionLevelReset _ => false
  | .gateAccept _ _ => false
  | .replayInject _ => false
  | .egressTransaction _ _ => false
  | .egdigest _ => false
  | .vaultTemperatureSample _ _ => false
  | .coreTemperatureSample _ _ => false
  | .packageCurrentSample _ => false
  | .companyVoltageSample _ _ => false
  | .houseFlitReceive _ _ _ => false
  | .houseResendRequest _ _ => false
  | .windowScrub _ _ => false
  | .houseFlitDeliver _ => false
  | .houseWrite _ _ => false
  | .houseReadRequest _ _ => false
  | .houseReadCompletion _ _ => false
  | .houseAtomic _ _ => false
  | .houseAtomicCompletion _ _ => false
  | .endToEndAck _ _ => false
  | .houseManagementFlit _ _ => false
  | .timeSyncExchange _ => false
  | .hostWindowWrite _ _ => false
  | .statusClear _ => false
  | .replaybrkClear _ => false
  | .powercapWrite _ => false
  | .partitionConfigure _ _ _ => false
  | .partitionSwap _ _ => false
  | .orderedBitWrite _ _ => false
  | .gatemodeWrite _ => false
  | .stopatWrite _ => false
  | .logtailWrite _ _ => false
  | .hmqtailWrite _ _ => false
  | .hmqsizeWrite _ _ => false
  | .take => false
  | .restore => false
  | .thaw => false
  | .freeze => false
  | .reset => false
  | .tableauOperationEnd => false
  | .nodeCommit _ _ _ => false
  | .nodeWithdraw _ _ => false
  | .nodeEntryWrite _ _ _ _ => false
  | .cuePush _ _ _ => false
  | .cueClose _ _ _ => false
  | .nodercClear _ _ => false
  | .errorCounterClear _ => false
  | .serviceRegionAccess _ _ _ => false
  | .hostKill _ _ => false
  | .retireSlice _ _ => false
  | .windowWrite _ _ => false
  | .windowRead _ => false
  | .cueemitAnswer _ _ _ => false
  | .refreshBurstEnd _ => false
  | .arrivalJournalInject _ => false

/-- The field values that an instruction reserves (R65, R116, R125, R138, R175, R235, R244, R254, Table 4.2). -/
def Instr.fieldsOk : Instr → Bool
  | .vadd _ => true
  | .vsub _ => true
  | .vmul _ => true
  | .vmulh _ => true
  | .vmulhu _ => true
  | .vmad _ => true
  | .vmin _ => true
  | .vmax _ => true
  | .vminu _ => true
  | .vmaxu _ => true
  | .vadds _ => true
  | .vsubs _ => true
  | .vdiv _ => true
  | .vdivu _ => true
  | .vrem _ => true
  | .vremu _ => true
  | .vand _ => true
  | .vor _ => true
  | .vxor _ => true
  | .vandn _ => true
  | .vshl _ => true
  | .vshr _ => true
  | .vsra _ => true
  | .vrol _ => true
  | .vpopc _ => true
  | .vclz _ => true
  | .vbrev _ => true
  | .vadd64 _ => true
  | .vsub64 _ => true
  | .vmulw _ => true
  | .vshl64 _ => true
  | .vshr64 _ => true
  | .vcmpI32Eq _ => true
  | .vcmpI32Ne _ => true
  | .vcmpI32Lt _ => true
  | .vcmpI32Le _ => true
  | .vcmpI32Ltu _ => true
  | .vcmpI32Leu _ => true
  | .vcmpI32Eqz _ => true
  | .vcmpI32Nez _ => true
  | .vcmpI64Eq _ => true
  | .vcmpI64Ne _ => true
  | .vcmpI64Lt _ => true
  | .vcmpI64Le _ => true
  | .vcmpI64Ltu _ => true
  | .vcmpI64Leu _ => true
  | .vcmpI64Eqz _ => true
  | .vcmpI64Nez _ => true
  | .vcmpF32Eq _ => true
  | .vcmpF32Lt _ => true
  | .vcmpF32Le _ => true
  | .vcmpF32Ne _ => true
  | .vcmpF32Un _ => true
  | .vcmpF32Ord _ => true
  | .vcmpF32Isnan _ => true
  | .vcmpF32Isinf _ => true
  | .vcmpF64Eq _ => true
  | .vcmpF64Lt _ => true
  | .vcmpF64Le _ => true
  | .vcmpF64Ne _ => true
  | .vcmpF64Un _ => true
  | .vcmpF64Ord _ => true
  | .vcmpF64Isnan _ => true
  | .vcmpF64Isinf _ => true
  | .fadd _ => true
  | .fsub _ => true
  | .fmul _ => true
  | .fmac _ => true
  | .fnmac _ => true
  | .fmin _ => true
  | .fmax _ => true
  | .fdiv _ => true
  | .fsqrt _ => true
  | .frcpe _ => true
  | .frsqe _ => true
  | .fsgnj _ => true
  | .fsgnjn _ => true
  | .fsgnjx _ => true
  | .fclass _ => true
  | .fscale _ => true
  | .dadd _ => true
  | .dsub _ => true
  | .dmul _ => true
  | .dmac _ => true
  | .dnmac _ => true
  | .dmin _ => true
  | .dmax _ => true
  | .ddiv _ => true
  | .dsqrt _ => true
  | .drcpe _ => true
  | .drsqe _ => true
  | .dsgnj _ => true
  | .dsgnjn _ => true
  | .dsgnjx _ => true
  | .dclass _ => true
  | .dscale _ => true
  | .hadd2 _ => true
  | .hsub2 _ => true
  | .hmul2 _ => true
  | .hmac2 _ => true
  | .hmin2 _ => true
  | .hmax2 _ => true
  | .badd2 _ => true
  | .bsub2 _ => true
  | .bmul2 _ => true
  | .bmac2 _ => true
  | .bmin2 _ => true
  | .bmax2 _ => true
  | .hdot2 _ => true
  | .bdot2 _ => true
  | .qdot4 _ => true
  | .idot4 _ => true
  | .vcvtF32I32 w => w.r.toNat ≤ 4
  | .vcvtF32U32 w => w.r.toNat ≤ 4
  | .vcvtI32F32 w => w.r.toNat ≤ 4
  | .vcvtU32F32 w => w.r.toNat ≤ 4
  | .vcvtF32F64 w => w.r.toNat ≤ 4
  | .vcvtF64F32 _ => true
  | .vcvtF64I32 _ => true
  | .vcvtF64U32 _ => true
  | .vcvtI32F64 w => w.r.toNat ≤ 4
  | .vcvtU32F64 w => w.r.toNat ≤ 4
  | .vcvtF64I64 w => w.r.toNat ≤ 4
  | .vcvtI64F64 w => w.r.toNat ≤ 4
  | .vcvtF32I64 w => w.r.toNat ≤ 4
  | .vcvtI64F32 w => w.r.toNat ≤ 4
  | .frint w => w.r.toNat ≤ 4
  | .drint w => w.r.toNat ≤ 4
  | .vcvtF16F32 w => w.r.toNat ≤ 4
  | .vcvtF32F16 _ => true
  | .vcvtBf16F32 w => w.r.toNat ≤ 4
  | .vcvtF32Bf16 _ => true
  | .vcvtE4m3F32 w => w.r.toNat ≤ 4
  | .vcvtE5m2F32 w => w.r.toNat ≤ 4
  | .vcvtF32E4m3 _ => true
  | .vcvtF32E5m2 _ => true
  | .vcvtF16E4m3 _ => true
  | .vcvtF16E5m2 _ => true
  | .vperm _ => true
  | .vbcl _ => true
  | .vrotl _ => true
  | .vxorl _ => true
  | .vupl _ => true
  | .vdnl _ => true
  | .iredadd _ => true
  | .iredmin _ => true
  | .iredmax _ => true
  | .fredadd _ => true
  | .fredmin _ => true
  | .fredmax _ => true
  | .iscan _ => true
  | .fscan _ => true
  | .vcompact _ => true
  | .vxchg _ => true
  | .vaddi _ => true
  | .vmuli _ => true
  | .vandi _ => true
  | .vori _ => true
  | .vxori _ => true
  | .vshli w => w.i.toNat ≤ 31
  | .vshri w => w.i.toNat ≤ 31
  | .vsrai w => w.i.toNat ≤ 31
  | .vmini _ => true
  | .vmaxi _ => true
  | .vshl64i w => w.i.toNat ≤ 63
  | .vshr64i w => w.i.toNat ≤ 63
  | .vsplati _ => true
  | .viota _ => true
  | .vmov _ => true
  | .vbcs _ => true
  | .vgetl _ => true
  | .vsetl _ => true
  | .vmovxr _ => true
  | .vmovxw w => w.k = 0 || (decide (w.d.toNat < 64) || decide (124 ≤ w.d.toNat))
  | .vlane _ => true
  | .vsel _ => true
  | .pand _ => true
  | .por _ => true
  | .pxor _ => true
  | .pandn _ => true
  | .pnot _ => true
  | .pset _ => true
  | .pclr _ => true
  | .pfroms _ => true
  | .ptos _ => true
  | .pexec _ => true
  | .pcount _ => true
  | .sadd _ => true
  | .ssub _ => true
  | .smul _ => true
  | .smulhu _ => true
  | .sdiv _ => true
  | .sdivu _ => true
  | .srem _ => true
  | .sremu _ => true
  | .sand _ => true
  | .sor _ => true
  | .sxor _ => true
  | .sshl _ => true
  | .sshr _ => true
  | .ssra _ => true
  | .sslt _ => true
  | .ssltu _ => true
  | .saddi _ => true
  | .sandi _ => true
  | .sori _ => true
  | .sxori _ => true
  | .sshli w => w.i.toNat ≤ 63
  | .sshri w => w.i.toNat ≤ 63
  | .ssrai w => w.i.toNat ≤ 63
  | .sslti _ => true
  | .sli _ => true
  | .shi _ => true
  | .movc w => controlRegister w.n.toNat
  | .movcw w => writableRegister w.n.toNat
  | .tdesc _ => true
  | .tdescr _ => true
  | .perfreq _ => true
  | .b _ => true
  | .bl _ => true
  | .bsEq _ => true
  | .bsNe _ => true
  | .bsLt _ => true
  | .bsGe _ => true
  | .bsLtu _ => true
  | .bsGeu _ => true
  | .bsZ _ => true
  | .bsNz _ => true
  | .bpSplit _ => true
  | .bpAll _ => true
  | .bpAny _ => true
  | .bpUni _ => true
  | .jr _ => true
  | .jlr _ => true
  | .join _ => true
  | .regangAll _ => true
  | .regangAny _ => true
  | .yield _ => true
  | .exit _ => true
  | .nop _ => true
  | .sleep _ => true
  | .trap _ => true
  | .tret _ => true
  | .brk _ => true
  | .hostmsg _ => true
  | .ckpt _ => true
  | .stopnow _ => true
  | .attachTry _ => true
  | .attachWait _ => true
  | .detach _ => true
  | .binit _ => true
  | .barrive _ => true
  | .bwait _ => true
  | .bsync _ => true
  | .bkill _ => true
  | .bquery _ => true
  | .lds w => w.m.toNat ≤ 2 ∧ w.e.toNat ≤ 2
  | .sts w => w.m.toNat ≤ 2
  | .ldc _ => true
  | .stc _ => true
  | .ldg _ => true
  | .stg _ => true
  | .amadd w => w.t.toNat ≠ 2
  | .amsmin w => w.t.toNat ≠ 2
  | .amsmax w => w.t.toNat ≠ 2
  | .amumin w => w.t.toNat ≠ 2
  | .amumax w => w.t.toNat ≠ 2
  | .amand w => w.t.toNat ≠ 2
  | .amor w => w.t.toNat ≠ 2
  | .amxor w => w.t.toNat ≠ 2
  | .amswap w => w.t.toNat ≤ 2
  | .amcas w => w.t.toNat ≤ 2
  | .amfadd w => w.t.toNat ≠ 2
  | .amfmin w => w.t.toNat ≠ 2
  | .amfmax w => w.t.toNat ≠ 2
  | .fence w => w.s.toNat ≤ 4 ∧ 1 ≤ w.f.toNat ∧ w.f.toNat ≤ 3
  | .lr _ => true
  | .sc _ => true
  | .stred w => w.t.toNat ≤ 2
  | .pref _ => true
  | .cinv _ => true
  | .cflush _ => true
  | .waitst _ => true
  | .mma _ => true
  | .mmaz _ => true
  | .mmap _ => true
  | .mdefer w => w.y.toNat ≤ 5
  | .msave _ => true
  | .mload _ => true
  | .mwait _ => true
  | .copy _ => true
  | .engwait _ => true
  | .qinit _ => true
  | .qpush _ => true
  | .qpop _ => true
  | .qtrypush _ => true
  | .qtrypop _ => true
  | .rwait _ => true
  | .radv _ => true
  | .cueemit _ => true
  | .dcset _ => true
  | .dcdec _ => true
  | .dcwait _ => true
  | .waitTimeout _ _ _ => true
  | .trapDelivery _ _ => true
  | .barrierRelease _ => true
  | .fullEmptyCommit _ _ _ => true
  | .queueBlockedCommit _ _ _ => true
  | .ringWaitCommit _ _ _ => true
  | .sleepEnd _ _ _ => true
  | .wavePromotion _ _ => true
  | .promotionEnd _ _ => true
  | .vxchgMatch _ _ _ => true
  | .vxchgComplete _ _ _ => true
  | .waitstComplete _ _ _ => true
  | .mwaitComplete _ _ _ => true
  | .fencePerformed _ _ => true
  | .attachWaitRetry _ _ => true
  | .attachCycleBreak _ => true
  | .matrixCommandAccept _ => true
  | .matrixCommandComplete _ => true
  | .followSlotFire _ _ => true
  | .collectiveCreateRetry _ _ => true
  | .collectiveStart _ => true
  | .copyRequestReturn _ _ => true
  | .copyFaultResume _ _ => true
  | .collectiveComplete _ _ => true
  | .sliceRequest _ => true
  | .l2Fill _ => true
  | .storeAck _ => true
  | .loadReturn _ => true
  | .flushMarkerArrival _ => true
  | .gatherReply _ => true
  | .ticketRelease _ => true
  | .sliceReleaseApply _ => true
  | .ticketAdvance _ => true
  | .faultRecordService _ => true
  | .pageResolution _ _ => true
  | .pageWalk _ => true
  | .walkComplete _ => true
  | .shootdown _ _ _ _ => true
  | .shootdownRemoval _ => true
  | .shootdownAck _ => true
  | .atsTranslationCompletion _ _ => true
  | .prgResponse _ _ => true
  | .atsInvalidateRequest _ _ _ => true
  | .atsInvalidateRemoval => true
  | .invalidationCompletion => true
  | .hostReadCompletion _ _ => true
  | .atomicopCompletion _ _ => true
  | .hmqEntryWrite _ => true
  | .cueAppend => true
  | .batchFormation _ _ => true
  | .nodeRetirement _ _ => true
  | .dcUpdate => true
  | .dcwaitRelease _ _ _ => true
  | .placementPass => true
  | .launch _ => true
  | .resume _ => true
  | .preempt _ => true
  | .contextSave _ _ => true
  | .kill _ => true
  | .companyGating _ => true
  | .companyWakeEnd _ => true
  | .epochStart => true
  | .levelStep _ => true
  | .refreshBurst _ => true
  | .frozenRefreshBurst _ => true
  | .vaultTurnStart _ _ => true
  | .vaultRequest _ => true
  | .recoveryPoint _ => true
  | .rollback _ _ => true
  | .hardfailFreeze => true
  | .dieLinkHeaderFailure _ => true
  | .dieLinkPoison _ _ _ => true
  | .bankFailure _ _ _ => true
  | .sliceRetireReassign _ => true
  | .understudySwap => true
  | .understudySwapEnd => true
  | .stopatStop => true
  | .powerOnReset _ => true
  | .functionLevelReset _ => true
  | .gateAccept _ _ => true
  | .replayInject _ => true
  | .egressTransaction _ _ => true
  | .egdigest _ => true
  | .vaultTemperatureSample _ _ => true
  | .coreTemperatureSample _ _ => true
  | .packageCurrentSample _ => true
  | .companyVoltageSample _ _ => true
  | .houseFlitReceive _ _ _ => true
  | .houseResendRequest _ _ => true
  | .windowScrub _ _ => true
  | .houseFlitDeliver _ => true
  | .houseWrite _ _ => true
  | .houseReadRequest _ _ => true
  | .houseReadCompletion _ _ => true
  | .houseAtomic _ _ => true
  | .houseAtomicCompletion _ _ => true
  | .endToEndAck _ _ => true
  | .houseManagementFlit _ _ => true
  | .timeSyncExchange _ => true
  | .hostWindowWrite _ _ => true
  | .statusClear _ => true
  | .replaybrkClear _ => true
  | .powercapWrite _ => true
  | .partitionConfigure _ _ _ => true
  | .partitionSwap _ _ => true
  | .orderedBitWrite _ _ => true
  | .gatemodeWrite _ => true
  | .stopatWrite _ => true
  | .logtailWrite _ _ => true
  | .hmqtailWrite _ _ => true
  | .hmqsizeWrite _ _ => true
  | .take => true
  | .restore => true
  | .thaw => true
  | .freeze => true
  | .reset => true
  | .tableauOperationEnd => true
  | .nodeCommit _ _ _ => true
  | .nodeWithdraw _ _ => true
  | .nodeEntryWrite _ _ _ _ => true
  | .cuePush _ _ _ => true
  | .cueClose _ _ _ => true
  | .nodercClear _ _ => true
  | .errorCounterClear _ => true
  | .serviceRegionAccess _ _ _ => true
  | .hostKill _ _ => true
  | .retireSlice _ _ => true
  | .windowWrite _ _ => true
  | .windowRead _ => true
  | .cueemitAnswer _ _ _ => true
  | .refreshBurstEnd _ => true
  | .arrivalJournalInject _ => true

/-- A register operand's code is one that Table 3.4 lets the field hold. -/
def Opnd.codeOk : Opnd → Bool
  | .src .vec _ => true
  | .src .pair c => c % 2 = 0 || 124 ≤ c
  | .src .quad c => c % 4 = 0
  | .src .scalar c => c < 64 || 124 ≤ c
  | .src .spair c => c % 2 = 0 && c ≤ 62
  | .dst .vec c => c < 124
  | .dst .pair c => c % 2 = 0 && c < 124
  | .dst .quad c => c % 4 = 0 && c < 124
  | .dst .scalar c => c < 64
  | .dst .spair c => c % 2 = 0 && c ≤ 62
  | .pdst p => p ≠ 0
  | .more _ _ => true

/-- The word alone breaks no rule of order 3 of Table 3.5. -/
def Instr.wellFormed (i : Instr) : Bool :=
  i.fieldsOk && i.operands.all Opnd.codeOk && (!i.keep.1 || i.keep.2 = 0)

/-- The major opcode of an instruction word (Table 3.3). -/
def Instr.major (i : Instr) : Option Nat :=
  (encodeNat i).map (fun n => n / 33554432 % 32)

/-- The pipes of a bay (R16). -/
inductive Pipe where
  | V | S | M | X
  deriving DecidableEq, Repr

/-- The pipe of a major opcode (Table 3.3). -/
def pipeOf (major : Nat) : Pipe :=
  if major ≤ 0x0A then .V else if major ≤ 0x14 then .S else if major = 0x15 then .X else if major ≤ 0x1D then .M else .X

/-- The pipe of an instruction. -/
def Instr.pipe (i : Instr) : Pipe := pipeOf (i.major.getD 0)

/-- A control word of the S pipe: B, BL, BS, BP, FLW, SYS, whose effect comes after the other words of its chain (R74, R152, R370). -/
def Instr.control (i : Instr) : Bool :=
  match i.major with
  | some m => 0x0F ≤ m && m ≤ 0x14
  | none => false

/-- The instruction classes of Table 2.3. -/
inductive RoleClass where
  | common | vector | memory | copy | matrix | tile
  deriving DecidableEq, Repr

/-- The class of an instruction (Table 2.3). -/
def Instr.roleClass : Instr → RoleClass
  | .copy _ => .copy
  | .engwait _ => .copy
  | .tdesc _ => .tile
  | .tdescr _ => .tile
  | .fence _ => .common
  | i =>
    match i.major with
    | some m => if m ≤ 0x09 then .vector else if 0x16 ≤ m && m ≤ 0x1D then .memory else if m = 0x1E then .matrix else .common
    | none => .common

/-- A latched producer (R69). -/
def Instr.producer : Instr → Bool
  | .vxchg _ => false
  | .sli _ => true
  | .movc _ => true
  | i =>
    match i.major with
    | some m => m = 0 || m = 1 || (3 ≤ m && m ≤ 9) || m = 0x0B || m = 0x0C
    | none => false

/-- An instruction that acts once for the whole wave (R32). -/
def Instr.wholeWave : Instr → Bool
  | .perfreq _ => true
  | i =>
    match i.major with
    | some m => m = 0x15 || m = 0x1E || m = 0x1F
    | none => false

/-- An operation of Table 3.6, forbidden in a latch window. -/
def Instr.windowForbidden : Instr → Bool
  | .lds w => w.e ≠ 0
  | .pref _ => false
  | .vxchg _ => true
  | .movcw _ => true
  | .jr _ => false
  | .jlr _ => false
  | .nop _ => false
  | i =>
    match i.major with
    | some m => m = 0x17 || m = 0x19 || m = 0x1B || m = 0x1C || m = 0x1D || m = 0x13 || m = 0x14 || m = 0x15 || m = 0x1E || m = 0x1F
    | none => false

/-- Refused in handler mode (R163): BP.SPLIT, JOIN, REGANG, the CST, ENG and MMA majors, PERFREQ. -/
def Instr.handlerForbidden : Instr → Bool
  | .bpSplit _ => true
  | .join _ => true
  | .regangAll _ => true
  | .regangAny _ => true
  | i => i.wholeWave

/-- The latches that the sources of an instruction name, with the kind each source needs (Table 3.4). -/
def Instr.latchSources (i : Instr) : List (OpKind × Nat) :=
  i.operands.filterMap fun o => match o with
    | .src k c => if 124 ≤ c then some (k, c - 124) else none
    | _ => none

/-- The vector registers that an instruction names directly: first register and count (R66). -/
def Instr.vectorRegs (i : Instr) : List (Nat × Nat) :=
  i.operands.filterMap fun o => match o with
    | .src .scalar _ => none
    | .src .spair _ => none
    | .dst .scalar _ => none
    | .dst .spair _ => none
    | .src k c => if c < 124 then some (c, k.count) else none
    | .dst k c => some (c, k.count)
    | .more c n => some (c, n)
    | .pdst _ => none

end Sys2Proof
end

