-- ==== Sys2Proof/Machine/Ops.lean ====
section
/-! DEFINITION. The named operations over data: bytes and byte order, memory cells in canonical form, sets and tables, the lanes of a register,
and the accessors of cores, waves, slices and casts. -/

namespace Sys2Proof.Machine

/-! Memory: a list of (address, byte) pairs, addresses strictly rising, no entry 0; an unlisted byte reads 0 (notes/assumptions/6.md). -/

/-- A store of bytes by address. -/
abbrev Memory := List Host.Cell

/-- The byte at an address. -/
def Memory.read : Memory → Nat → Byte
  | [], _ => 0
  | (x, b) :: m, a => if a = x then b else Memory.read m a

/-- List a cell at its place. -/
def Memory.insert : Memory → Nat → Byte → Memory
  | [], a, b => [(a, b)]
  | (x, y) :: m, a, b => if a < x then (a, b) :: (x, y) :: m else (x, y) :: Memory.insert m a b

/-- Write one byte, keeping the canonical form. -/
def Memory.write (m : Memory) (a : Nat) (b : Byte) : Memory :=
  let rest := m.filter fun c => c.1 ≠ a
  if b = 0 then rest else Memory.insert rest a b

/-- The canonical form from an address on: addresses strictly rising and at least `lo`, no byte 0. -/
def Memory.wfFrom : Nat → Memory → Bool
  | _, [] => true
  | lo, (x, b) :: m => lo ≤ x && b ≠ 0 && Memory.wfFrom (x + 1) m

/-- The canonical form of a memory. -/
def Memory.wf (m : Memory) : Bool := Memory.wfFrom 0 m

/-- Write bytes at consecutive addresses. -/
def Memory.writeList (m : Memory) (a : Nat) : List Byte → Memory
  | [] => m
  | b :: bs => Memory.writeList (m.write a b) (a + 1) bs

/-- Write a list of (address, byte) pairs in order. -/
def Memory.writePairs (m : Memory) : List (Nat × Byte) → Memory
  | [] => m
  | (a, b) :: l => Memory.writePairs (m.write a b) l

/-- `n` bytes from an address on. -/
def Memory.readList (m : Memory) (a n : Nat) : List Byte :=
  (List.range n).map fun i => m.read (a + i)

/-! Byte order: every multi-byte value is little-endian (R10). -/

/-- The `n` bytes of a number, lowest first. -/
def leBytes (n v : Nat) : List Byte :=
  (List.range n).map fun i => BitVec.ofNat 8 (v / 256 ^ i)

/-- The number that bytes hold, lowest first. -/
def ofLe : List Byte → Nat
  | [] => 0
  | b :: bs => b.toNat + 256 * ofLe bs

/-! Sets of numbers and tables keyed by a number, sorted, so that equal contents are equal data. -/

/-- Insert into a sorted list without repeats. -/
def setInsert : List Nat → Nat → List Nat
  | [], a => [a]
  | x :: l, a => if a < x then a :: x :: l else if a = x then x :: l else x :: setInsert l a

/-- The value at a key. -/
def tabGet {α : Type} : List (Nat × α) → Nat → Option α
  | [], _ => none
  | (x, v) :: l, k => if k = x then some v else tabGet l k

/-- Set the value at a key. -/
def tabSet {α : Type} : List (Nat × α) → Nat → α → List (Nat × α)
  | [], k, v => [(k, v)]
  | (x, y) :: l, k, v => if k < x then (k, v) :: (x, y) :: l else if k = x then (k, v) :: l else (x, y) :: tabSet l k v

/-- Remove a key. -/
def tabErase {α : Type} (l : List (Nat × α)) (k : Nat) : List (Nat × α) :=
  l.filter fun p => p.1 ≠ k

/-- Change one element of a list; a list too short is unchanged. -/
def modAt {α : Type} : List α → Nat → (α → α) → List α
  | [], _, _ => []
  | x :: l, 0, f => f x :: l
  | x :: l, i + 1, f => x :: modAt l i f

/-- Replace one element of a list. -/
def setAt {α : Type} (l : List α) (i : Nat) (v : α) : List α := modAt l i fun _ => v

/-- The first index at which a test holds. -/
def findIdx? {α : Type} (p : α → Bool) : List α → Option Nat
  | [] => none
  | x :: l => if p x then some 0 else (findIdx? p l).map (· + 1)

/-- Insert by rank, after what has the same rank. -/
def insertRank {α : Type} (rank : α → Nat) (x : α) : List α → List α
  | [] => [x]
  | y :: l => if rank x < rank y then x :: y :: l else y :: insertRank rank x l

/-- Order by rank. -/
def byRank {α : Type} (rank : α → Nat) (l : List α) : List α := l.foldl (fun a x => insertRank rank x a) []

/-- An address register whose bits 1:0 ignore writes (R87). -/
def alignPc (x : Quad) : Quad := x &&& ~~~3

/-! Lanes. -/

/-- The register that holds `f j` in each active lane j and keeps `old` in every other (R84). -/
def mergeLanes (act : LaneMask) (f : Nat → Word) (old : List Word) : List Word :=
  (List.range 128).map fun j => if act.getLsbD j then f j else old.getD j 0

/-- A mask of lanes from a test. -/
def laneMask (p : Nat → Bool) : LaneMask :=
  BitVec.ofNat 128 ((List.range 128).foldr (fun j n => 2 * n + (if p j then 1 else 0)) 0)

/-- The lanes of a mask in ascending order. -/
def lanesOf (m : LaneMask) : List Nat :=
  (List.range 128).filter fun j => m.getLsbD j

/-- The number of lanes of a mask. -/
def popcount (m : LaneMask) : Nat := (lanesOf m).length

/-! Waves. -/

/-- The element of a vector register in a lane. -/
def Wave.v (w : Wave) (r j : Nat) : Word := (w.vregs.getD r []).getD j 0

/-- A scalar register. -/
def Wave.s (w : Wave) (n : Nat) : Quad := w.sregs.getD n 0

/-- A predicate register; p0 is constant true (R83). -/
def Wave.p (w : Wave) (n : Nat) : LaneMask :=
  if n = 0 then BitVec.allOnes 128 else w.preds.getD n 0

/-- Write the active lanes of a vector register. -/
def Wave.setV (w : Wave) (r : Nat) (act : LaneMask) (f : Nat → Word) : Wave :=
  { w with vregs := modAt w.vregs r (mergeLanes act f) }

/-- Write the active lanes of an even pair: bits 31:0 to the even register (R92). -/
def Wave.setPair (w : Wave) (r : Nat) (act : LaneMask) (f : Nat → Quad) : Wave :=
  (w.setV r act fun j => (f j).setWidth 32).setV (r + 1) act fun j => ((f j) >>> 32).setWidth 32

/-- Write a scalar register. -/
def Wave.setS (w : Wave) (n : Nat) (x : Quad) : Wave :=
  { w with sregs := setAt w.sregs n x }

/-- Write the active lanes of a predicate register; p0 is never written (R83). -/
def Wave.setP (w : Wave) (n : Nat) (act x : LaneMask) : Wave :=
  if n = 0 then w else { w with preds := modAt w.preds n fun old => (x &&& act) ||| (old &&& ~~~act) }

/-- Change one slice. -/
def Wave.modSlice (w : Wave) (k : Nat) (f : Slice → Slice) : Wave :=
  { w with slices := modAt w.slices k f }

/-- Change the slices of a list. -/
def Wave.modSlices (w : Wave) (ks : List Nat) (f : Nat → Slice → Slice) : Wave :=
  { w with slices := (w.slices.zipIdx).map fun p => if ks.contains p.2 then f p.2 p.1 else p.1 }

/-- A slice by number. -/
def Wave.slice? (w : Wave) (k : Nat) : Option Slice := w.slices[k]?

/-- The numbers of the live slices that a test admits, ascending. -/
def Wave.liveSlices (w : Wave) (p : Slice → Bool := fun _ => true) : List Nat :=
  (w.slices.zipIdx).filterMap fun q => if q.1.live && p q.1 then some q.2 else none

/-- The live slices of the party that slice `leader` leads (R29, R83). -/
def Wave.party (w : Wave) (leader : Nat) : List Nat :=
  w.liveSlices fun s => s.leader.toNat = leader

/-- The leaders of the wave's parties, ascending: a party with no live slice does not exist (R159). -/
def Wave.leaders (w : Wave) : List Nat :=
  (List.range 32).filter fun k => !(w.party k).isEmpty

/-- The leader of a wave of one party (R32). -/
def Wave.sole (w : Wave) : Nat := w.leaders.headD 0

/-- Some slice is in handler mode. -/
def Wave.handling (w : Wave) : Bool := w.slices.any fun s => s.live && s.hmode

/-- The lowest of a list of addresses. -/
def lowest : List Quad → Option Quad
  | [] => none
  | a :: l => match lowest l with
    | none => some a
    | some b => some (if a ≤ b then a else b)

/-- The slices of a party that may issue: live, awake, and in handler mode if any slice of the wave is (R150). -/
def Wave.awake (w : Wave) (leader : Nat) : List Nat :=
  w.liveSlices fun s => s.leader.toNat = leader && s.sleep = 0 && (!w.handling || s.hmode)

/-- The party's issue counter: the lowest counter of its live slices that are not asleep (R150). -/
def Wave.issueCounter (w : Wave) (leader : Nat) : Option Quad :=
  lowest ((w.awake leader).map fun k => ((w.slices[k]?).map Slice.pc).getD 0)

/-- The issuing slices of a party (R150). -/
def Wave.issuing (w : Wave) (leader : Nat) : List Nat :=
  match w.issueCounter leader with
  | none => []
  | some pc => (w.awake leader).filter fun k => ((w.slices[k]?).map Slice.pc) = some pc

/-- The active lanes of a list of slices. -/
def Wave.activeOf (w : Wave) (ks : List Nat) : LaneMask :=
  laneMask fun j => ks.contains (j / 4) && (((w.slices[j / 4]?).map Slice.mask).getD 0).getLsbD (j % 4)

/-- What the party that slice `leader` leads waits for. -/
def Wave.blockedAt (w : Wave) (leader : Nat) : Option Blocked :=
  (w.slices[leader]?).bind Slice.blocked

/-- Unblock a party and send each held slice to where it goes on; the word of its chain that is left, if one is, comes next (R74, R254). -/
def Wave.unblock (w : Wave) (leader : Nat) : Wave :=
  match w.blockedAt leader with
  | none => w
  | some b =>
    let w := (b.slices.zip b.resume).foldl (fun w p => w.modSlice p.1 fun s => { s with pc := p.2 }) w
    w.modSlice leader fun s => { s with blocked := none, late := b.late.or s.late }

/-- A blocking wait completes: the party goes on, and the wave's promotion ends (R59). -/
def Wave.endWait (w : Wave) (leader : Nat) : Wave :=
  { w.unblock leader with promoted := 0, promoHeld := 0 }

/-- An acquire at cast scope (R256, R258): performed at once when every earlier load has returned, else held like a FENCE. -/
def Wave.acquireCast (w : Wave) : Wave :=
  match w.fence with
  | some f => { w with fence := some { f with kind := if f.kind = .rel then .acqrel else f.kind } }
  | none => if w.pending.isEmpty then w else { w with fence := some { kind := .acq, scope := 0, stages := 0, attached := true } }

/-- Empty the latches of every slice: a wave switch (R69). -/
def Wave.clearLatches (w : Wave) : Wave :=
  { w with slices := w.slices.map fun s => { s with latches := [], win := { packet := s.win.packet + 1 } } }

/-! Cores, casts and the package. -/

/-- A core of the package. -/
def Package.core (p : Package) (c : Nat) : Core := p.cores.getD c {}

/-- A company of the package. -/
def Package.company (p : Package) (m : Nat) : Company := p.companies.getD m {}

/-- A stage of the package. -/
def Package.stageAt (p : Package) (i : Nat) : Stage := p.stage.getD i {}

/-- A vault. -/
def Package.vault (p : Package) (v : Nat) : Vault := p.vaults.getD v {}

/-- A partition. -/
def Package.part (p : Package) (k : Nat) : Partition := p.parts.getD k {}

/-- A gate. -/
def Package.gate (p : Package) (g : Nat) : Gate := p.gates.getD g {}

/-- Change a core. -/
def Package.modCore (p : Package) (c : Nat) (f : Core → Core) : Package := { p with cores := modAt p.cores c f }

/-- Change the swappable part of a core. -/
def Package.modCtx (p : Package) (c : Nat) (f : CoreCtx → CoreCtx) : Package :=
  p.modCore c fun k => { k with ctx := f k.ctx }

/-- Change a company. -/
def Package.modCompany (p : Package) (m : Nat) (f : Company → Company) : Package :=
  { p with companies := modAt p.companies m f }

/-- Change a stage. -/
def Package.modStage (p : Package) (i : Nat) (f : Stage → Stage) : Package := { p with stage := modAt p.stage i f }

/-- Change a vault. -/
def Package.modVault (p : Package) (v : Nat) (f : Vault → Vault) : Package := { p with vaults := modAt p.vaults v f }

/-- Change a partition. -/
def Package.modPart (p : Package) (k : Nat) (f : Partition → Partition) : Package := { p with parts := modAt p.parts k f }

/-- Change a gate. -/
def Package.modGate (p : Package) (g : Nat) (f : Gate → Gate) : Package := { p with gates := modAt p.gates g f }

/-- The wave in a slot of a core. -/
def Package.wave? (p : Package) (core slot : Nat) : Option Wave :=
  ((p.cores[core]?).bind fun c => c.ctx.waves[slot]?).join

/-- Change the wave in a slot of a core. -/
def Package.modWave (p : Package) (core slot : Nat) (f : Wave → Wave) : Package :=
  p.modCtx core fun c => { c with waves := modAt c.waves slot (·.map f) }

/-- The cast in a cast slot of a core. -/
def Package.cast? (p : Package) (core cslot : Nat) : Option Cast :=
  ((p.cores[core]?).bind fun c => c.ctx.casts[cslot]?).join

/-- Change the cast in a cast slot. -/
def Package.modCast (p : Package) (core cslot : Nat) (f : Cast → Cast) : Package :=
  p.modCtx core fun c => { c with casts := modAt c.casts cslot (·.map f) }

/-- The wave slots of a core that hold live waves of a cast, in ascending bay and slot order. -/
def CoreCtx.slotsOf (c : CoreCtx) (cslot : Nat) : List Nat :=
  (c.waves.zipIdx).filterMap fun p => match p.1 with
    | some w => if w.cast = cslot then some p.2 else none
    | none => none

/-- The company of a core and its stage (R15). -/
def companyOf (core : Nat) : Nat := core / 8

/-- The stage of a core (R15). -/
def stageOf (core : Nat) : Nat := core / 64

/-- Schedule an event. -/
def Package.later (p : Package) (t : DueAt) (ev : Instr) : Package :=
  { p with due := p.due ++ [{ at_ := t, ev := ev }] }

/-- Increment an error counter of Table 21.8, saturating at its maximum. -/
def Package.count (p : Package) (idx max : Nat) : Package :=
  let n := (tabGet p.errors idx).getD 0
  { p with errors := tabSet p.errors idx (if n < max then n + 1 else max) }

/-- Who a wave is, for the replies and commands that come back to it. -/
def Package.keyOf (p : Package) (core slot : Nat) : WaveKey :=
  let w := p.wave? core slot
  let c := w.bind fun w => p.cast? core w.cast
  { core := core, slot := slot, castid := (c.map Cast.castid).getD 0, waveId := (w.map Wave.waveId).getD 0 }

/-- The wave of a key, if it still lives in its slot. -/
def Package.waveOf? (p : Package) (k : WaveKey) : Option Wave :=
  if p.keyOf k.core k.slot = k then p.wave? k.core k.slot else none

/-- Change the package of a state. -/
def State.modPkg (s : State) (f : Package → Package) : State := { s with pkg := f s.pkg }

/-- Change the wave of the word being issued. -/
def State.modWave (s : State) (core slot : Nat) (f : Wave → Wave) : State :=
  { s with pkg := s.pkg.modWave core slot f }

/-- The meaning of an event: it changes the package, reading the clock (the clock itself moves only in the step and in the run control). -/
def State.event (s : State) (f : Clock → Package → Package) : Host.Outcome State Fault Refusal :=
  .next { s with pkg := f s.clk s.pkg }

/-- The CYCLE of a company. -/
def Clock.cycleOf (k : Clock) (m : Nat) : Nat := k.companies.getD m 0

/-- The first mesh edge at or after the present moment: where a company-to-mesh crossing starts (R389). -/
def Clock.meshFrom (k : Clock) : Nat := if 64 * k.num % k.den = 0 then k.mcyc else k.mcyc + 1

/-- A company clock of a level has an edge at the present moment. -/
def Clock.atEdge (k : Clock) (level : Nat) : Bool := (16 + level) * k.num % k.den = 0

/-! Distances on the package (R19, R20, R148, R229, R260, R312). -/

/-- Whether a stage is present (R3). -/
def Package.present (p : Package) (st : Nat) : Bool := p.stages.getLsbD st

/-- The stages that path `path` from stage `a` to stage `b` crosses after `a` (R260); absent stages carry no path. -/
def Package.route (p : Package) (a b path : Nat) : List Nat :=
  let via := fun l : List Nat => if l.all p.present then some l else none
  let adjacent := (a % 2 = b % 2) ≠ (a / 2 = b / 2)
  if a = b then []
  else if adjacent then
    let round := via (if a % 2 = b % 2 then [a ^^^ 1, b ^^^ 1, b] else [a ^^^ 2, b ^^^ 2, b])
    if path = 1 then round.getD [b] else [b]
  else
    let lo := min (a ^^^ 1) (a ^^^ 2)
    let hi := max (a ^^^ 1) (a ^^^ 2)
    if path = 1 then ((via [hi, b]).or (via [lo, b])).getD [b] else ((via [lo, b]).or (via [hi, b])).getD [b]

/-- The hops and die links from a stop (column, row) of stage `a` along a route to stop `m` of the last stage (R229, R312). -/
def pathLength : Nat → Nat → Nat → List Nat → Nat → Nat × Nat
  | c, r, _, [], m => ((max c (m % 4) - min c (m % 4)) + (max r (m / 4) - min r (m / 4)), 0)
  | c, r, a, b :: l, m =>
    let (h, c', r') :=
      if a / 2 = b / 2 then (if a % 2 = 0 then (3 - c, 0, r) else (c, 3, r))
      else (if a / 2 = 0 then (1 - r, c, 0) else (r, c, 1))
    let (h2, d) := pathLength c' r' b l m
    (h + h2, d + 1)

/-- The mesh cycles 40 + 4h + 48d between a core's company stop and the stop of company 0 of stage 0, where the cue unit, the
ticket unit and the PCIe endpoint sit (R225, R305, R306, R378). -/
def Package.transit (p : Package) (core : Nat) : Nat :=
  let m := companyOf core % 8
  let (h, d) := pathLength (m % 4) (m / 4) (stageOf core) (p.route (stageOf core) 0 0) 0
  40 + 4 * h + 48 * d

/-! Leaving the package: egress and the host-message queue (R166 to R168, R324). -/

/-- Send a transaction out through the egress side of a gate (R324): the event of that row carries it. -/
def Package.egress (p : Package) (gate : Nat) (t : Egress) : Package :=
  p.later .now (.egressTransaction gate t)

/-- HMQSIZE holds a value that R167 allows. -/
def Partition.hmqEnabled (k : Partition) : Bool :=
  (List.range 16).any fun i => k.hmqSize.toNat = 2 ^ (i + 1)

/-- The queue has a free entry (R167). -/
def Partition.hmqRoom (k : Partition) : Bool :=
  k.hmqEnabled && (k.hmqHead - k.hmqTail).toNat < k.hmqSize.toNat

/-- The 32 bytes of a host-message entry (Table 8.7). -/
def HmqEntry.bytes (e : HmqEntry) (dropped : Nat) : List Byte :=
  leBytes 1 e.kind ++ leBytes 1 dropped ++ leBytes 2 e.castid.toNat ++ leBytes 4 e.castindex.toNat ++ leBytes 2 e.info.toNat
    ++ leBytes 1 e.waveId.toNat ++ leBytes 1 e.core ++ leBytes 4 e.tick.toNat ++ leBytes 8 e.p0.toNat ++ leBytes 8 e.p1.toNat

/-- Write one entry at HEAD mod SIZE, advance HEAD and signal the host (R167). DROPPED is carried by a device entry only. -/
def Package.hmqWrite (p : Package) (k : Nat) (e : HmqEntry) : Package :=
  let q := p.part k
  let device := e.kind ≠ 1
  let addr := q.hmqBase.toNat / 32 * 32 + 32 * (q.hmqHead.toNat % q.hmqSize.toNat)
  let p := p.egress 0 (.memWrite (k + 1) q.ctx.pasid.toNat addr (e.bytes (if device then q.dropped else 0)))
  let p := p.modPart k fun q => { q with hmqHead := q.hmqHead + 1, dropped := if device then 0 else q.dropped }
  if q.hmqHead = q.hmqTail then p.egress 0 (.msix (k + 1) 0) else p

/-- A device-originated entry joins the partition's 8-entry buffer, or is dropped and counted (R168). -/
def Package.hmqPost (p : Package) (k : Nat) (e : HmqEntry) : Package :=
  if (p.part k).hmqBuf.length < 8 then
    (p.modPart k fun q => { q with hmqBuf := q.hmqBuf ++ [e] }).later .now (.hmqEntryWrite k)
  else p.modPart k fun q => { q with dropped := min 255 (q.dropped + 1) }

/-! The end of a wave and of a cast (R49, R187, R221, R222, R243, R290, R363). -/

/-- A collective all of whose members have arrived or ended is ready; it starts when a running slot is free (R279). -/
def Package.collReady (p : Package) (core i : Nat) : Package :=
  match ((p.core core).ctx.colls.getD i none) with
  | none => p
  | some c =>
    if c.pos.isNone && (c.members.all fun m => c.arrived.any fun a => a.waveId = m) && !(p.core core).ctx.readyOrder.any fun r => r.1 = i then
      (p.modCtx core fun k => { k with readyOrder := k.readyOrder ++ [(i, 0)] }).later .now (.collectiveStart core)
    else p

/-- The dependence counter, barrier and follow slot of a collective's control word (Table 15.1). -/
def Coll.counter (c : Coll) : Nat := bits c.ctl.toNat 0 10

/-- BARV and BAR (Table 15.1). -/
def Coll.barrier? (c : Coll) : Option Nat :=
  if bits c.ctl.toNat 25 1 = 1 then some (bits c.ctl.toNat 10 15) else none

/-- FOLLOWV and FOLLOW (Table 15.1). -/
def Coll.follow? (c : Coll) : Option Nat :=
  if bits c.ctl.toNat 29 1 = 1 then some (bits c.ctl.toNat 26 3) else none

/-- A copy-completion decrement goes to the cue unit (R289, R381); 1,023 names no counter. -/
def Package.copyDone (p : Package) (core part : Nat) (c : Coll) (status : Nat) : Package :=
  if c.counter = 1023 then p
  else ({ p with dcIn := p.dcIn ++ [(0, DcUpdate.done core part c.counter status)] }).later .now .dcUpdate

/-- Collective n of a cast has completed (R292). -/
def Cast.copyOver (c : Cast) (n : BitVec 32) : Bool := (c.cdone - n - 1).toNat < 2147483648

/-- The word that ENGWAIT writes: kind 3 when the status is no longer held (R292). -/
def Cast.copyResult (c : Cast) (n : BitVec 32) : Quad :=
  match c.ring.find? fun r => r.1 = n with
  | some (_, s) => BitVec.ofNat 64 (s.kind.toNat + 256 * s.code.toNat)
  | none => 3

/-- A wave whose ENGWAIT is satisfied goes on, with an acquire at cast scope (R258, R292). -/
def Wave.engwaitOver (w : Wave) (c : Cast) : Wave :=
  match w.blockedAt w.sole with
  | some { op := .engwait n d, .. } => if c.copyOver n then ((w.setS d (c.copyResult n)).endWait w.sole).acquireCast else w
  | _ => w

/-- Record the status of an ended collective in its cast: CDONE advances, the last 8 statuses are kept, and waiting ENGWAITs are released (R289, R292). -/
def Package.collStatus (p : Package) (core : Nat) (c : Coll) (kind code : BitVec 8) : Package :=
  let p := p.modCast core c.cast fun k =>
    { k with cdone := k.cdone + 1, ring := ((c.num, { kind := kind, code := code }) :: k.ring).take 8 }
  match p.cast? core c.cast with
  | none => p
  | some k => ((p.core core).ctx.slotsOf c.cast).foldl (fun p s => p.modWave core s fun w => w.engwaitOver k) p

/-- Nobody of a core: a walk whose waiter has gone fills the TLB of its core all the same (R197). -/
def Waiter.nobody (core : Nat) : Waiter := .wave core 64

/-- No translation and no page that the named agents of a core wait for concerns them any more (R199, R201); a walk under way goes on for nobody. -/
def Package.dropWaiters (p : Package) (core : Nat) (gone : Waiter → Bool) : Package :=
  let keep := fun l : List Waiter => l.filter fun x => !gone x
  let leave := fun k : Walk => if k.ended then keep k.waiters else k.waiters.map fun x => if gone x then Waiter.nobody core else x
  let f := fun x : Nat × PcieWait => match x.2 with
    | .ats c k va w m l => (x.1, PcieWait.ats c k va w m (keep l))
    | .prg c k va w l => (x.1, PcieWait.prg c k va w (keep l))
    | _ => x
  ({ p with pcie := p.pcie.map f } : Package).modCompany (companyOf core) fun c =>
    { c with walks := (c.walks.map fun k : Walk => { k with waiters := leave k }).filter fun k => !(k.ended && k.waiters.isEmpty) }

/-- The same for one agent. -/
def Package.dropWaiter (p : Package) (core : Nat) (w : Waiter) : Package := p.dropWaiters core (· = w)

/-- Free a collective's record and its running slot; another ready collective may start, and a blocked creator may retry. -/
def Package.collFree (p : Package) (core i : Nat) : Package :=
  (((({ p with faults := p.faults.filter fun r => !(r.core = core && r.copy = some i) } : Package).dropWaiter core (.copy core i)).modCtx core fun k =>
    { k with colls := setAt k.colls i none, running := k.running.map (fun r => if r = some i then none else r),
             readyOrder := k.readyOrder.filter fun r : Nat × Nat => r.1 ≠ i })).later .now (.collectiveStart core)

/-- A command of the wave is over. -/
def Wave.commandOver (w : Wave) : Wave := { w with commands := w.commands - 1 }

/-- Disarm the follow slot that a collective names (R182): the command will not fire, and its wave's MWAIT no longer waits for it
(R185, notes/assumptions/113.md). -/
def Package.disarm (p : Package) (core : Nat) (c : Coll) : Package :=
  match c.follow? with
  | none => p
  | some f =>
    match (p.core core).ctx.follow.getD f none with
    | none => p
    | some a =>
      let p := p.modCtx core fun k => { k with follow := setAt k.follow f none }
      if (p.waveOf? a.cmd.key).isSome then p.modWave a.cmd.key.core a.cmd.key.slot Wave.commandOver else p

/-- End a collective of an ending cast (R290): status ABORTED, no barrier arrival, its follow slot disarmed, its record free. -/
def Package.collAbort (p : Package) (core part i : Nat) : Package :=
  match ((p.core core).ctx.colls.getD i none) with
  | none => p
  | some c => (((p.copyDone core part c 1).disarm core c).collStatus core c 1 0).collFree core i

/-- The waiting token that enters a core's table next: that of the lowest core, the oldest of its own (R147, notes/assumptions/116.md). -/
def firstWaiting : List Token → Option Token
  | [] => none
  | t :: l => match firstWaiting l with
    | none => some t
    | some u => if u.src.core < t.src.core || (u.src.core = t.src.core && u.seq < t.seq) then some u else some t

/-- Let waiting tokens into a core's table of 64 while entries are free, at most `n`: the core and the tokens let in (R147). -/
def Core.admitTokens : Nat → Core → Core × List Token
  | 0, k => (k, [])
  | n + 1, k =>
    if k.tokens.length < 64 then
      match firstWaiting k.tokensWaiting with
      | none => (k, [])
      | some t =>
        let r := Core.admitTokens n { k with tokens := k.tokens ++ [t], tokensWaiting := k.tokensWaiting.erase t }
        (r.1, t :: r.2)
    else (k, [])

/-- Keep the tokens of a test at a core; waiting ones take the entries that are freed (R147). -/
def Core.keepTokens (k : Core) (keep : Token → Bool) : Core × List Token :=
  Core.admitTokens k.tokensWaiting.length { k with tokens := k.tokens.filter keep, tokensWaiting := k.tokensWaiting.filter keep }

/-- A token that has just entered a table may find its pair (R147). -/
def Package.tryMatches (p : Package) (l : List Token) : Package :=
  l.foldl (fun (p : Package) t => p.later .now (.vxchgMatch t.src.core t.src.slot t.leader)) p

/-- Keep the tokens of a test at every core. -/
def Package.keepTokens (p : Package) (keep : Token → Bool) : Package :=
  ({ p with cores := p.cores.map fun k => (k.keepTokens keep).1 } : Package).tryMatches (p.cores.flatMap fun k => (k.keepTokens keep).2)

/-- Remove the ready tokens of a wave (R147). -/
def Package.withdrawTokens (p : Package) (key : WaveKey) : Package := p.keepTokens fun t => t.src ≠ key

/-- What a slice holds of a blocked party that waits for an unmatched exchange with a wave that ends: XCHG_PARTNER falls due (R147). -/
def Wave.partnerEnded (w : Wave) (key : WaveKey) : Wave :=
  { w with due := w.due ++ (w.leaders.filterMap fun l =>
      match w.blockedAt l with
      | some { op := .xchg x none, slices := ks, .. } =>
        if x.partner = key then some { cause := .xchgPartner, addr := x.operand, lanes := w.activeOf ks, leader := l } else none
      | _ => none) }

/-- The casts of a cast's co-group, the cast itself among them: one launch, consecutive CASTINDEX values from its own less its rank (R46). -/
def sameGroup (a b : Cast) : Bool :=
  a.partition = b.partition && a.node = b.node && a.launchid = b.launchid
    && a.castindex.toNat - bits a.cogroup.toNat 16 7 = b.castindex.toNat - bits b.cogroup.toNat 16 7

/-- Every wave of a core that waits for an ending wave is told (R147). -/
def Core.tellPartners (k : Core) (key : WaveKey) : Core :=
  { k with ctx := { k.ctx with waves := k.ctx.waves.map (Option.map fun w : Wave => w.partnerEnded key) } }

/-- Every core of the package is told (R147). -/
def Package.tellPartners (p : Package) (key : WaveKey) : Package := { p with cores := p.cores.map fun k => k.tellPartners key }

/-- The cast of an event of the queue-and-barrier unit. -/
def BarrierEvent.castOf : BarrierEvent → Nat
  | .init c _ _ => c
  | .copyArrival c _ _ => c
  | .remove c _ _ _ => c
  | .kill c _ => c

/-- A completion arrival of a copy (R219). -/
def BarrierEvent.isArrival : BarrierEvent → Bool
  | .copyArrival _ _ _ => true
  | _ => false

/-- The events of a cast that leaves are over; the completion arrivals among them are dropped and counted (R219, R222). -/
def Package.dropEvents (p : Package) (core cslot : Nat) : Package :=
  let evs := (p.core core).barrier
  (evs.filter fun e => e.isArrival && e.castOf = cslot).foldl (fun (p : Package) _ => p.count (Config.errKILLDROP + core) Config.max16)
    (p.modCore core fun k => { k with barrier := evs.filter fun e => e.castOf ≠ cslot })

/-- The cast leaves its core (R222): its granules become empty and plain, its collectives end, its reservations and budgets are returned,
its REFRCOST is added to its node, and its cast slot is free. -/
def Package.exitCast (p : Package) (core cslot : Nat) (killed : Bool) : Package :=
  match p.cast? core cslot with
  | none => p
  | some c =>
    let p := (List.range 16).foldl (fun p i =>
      match (p.core core).ctx.colls.getD i none with
      | some k => if k.cast = cslot then p.collAbort core c.partition i else p
      | none => p) p
    let p := p.dropEvents core cslot
    let inRows := fun g : Nat => 256 * c.sprow ≤ g && g < 256 * (c.sprow + c.rows)
    let p := p.modCtx core fun k =>
      { k with fe := k.fe.filter (fun g => !inRows g), tags := k.tags.filter (fun t => !inRows t.1),
               casts := setAt k.casts cslot none,
               leaving := if killed then k.leaving else k.leaving ++ [(c.castid, c.sprow, c.rows)] }
    let gone := fun e : CastEntry => if e.state = .resident core cslot then { e with state := .gone killed, castid := none } else e
    let demands := (p.casts.find? fun e => e.state = .resident core cslot).map CastEntry.demands
    let p := (demands.getD []).foldl (fun p d => p.modVault d.1 fun v => { v with resv := v.resv - d.2 }) p
    let p := ({ p with casts := p.casts.map gone }).later .now (.nodeRetirement c.partition c.node)
    p.modPart c.partition fun q =>
      match tabGet q.nodes c.node with
      | some n => { q with nodes := tabSet q.nodes c.node { n with noderc := n.noderc + c.refrcost } }
      | none => q

/-- Give register units back to the pool (R336). -/
def freeUnits (units : List (Option Nat)) (l : List Nat) : List (Option Nat) :=
  units.zipIdx.map fun u : Option Nat × Nat => if l.contains u.2 then none else u.1

/-- The markers and gather entries of a wave are abandoned (R267). -/
def Package.dropMarkers (p : Package) (core slot : Nat) : Package :=
  let mine := fun c s : Nat => c = core && s = slot
  { p with stage := p.stage.map fun t : Stage =>
      { t with gather := t.gather.filter (fun g => !mine g.core g.slot), markers := t.markers.filter fun m => !mine m.core m.slot } }

/-- No request for a page goes on for a wave that leaves its slot (R199, R201). -/
def Package.dropFaults (p : Package) (core slot : Nat) : Package :=
  ({ p with faults := p.faults.filter fun r => !(r.core = core && r.slot = slot && r.copy.isNone) } : Package).dropWaiter core (.wave core slot)

/-- A follow slot of a wave: armed by it. -/
def CoreCtx.armedBy (x : CoreCtx) (key : WaveKey) (i : Nat) : Bool := (x.follow.getD i none).any fun f => f.cmd.key = key

/-- No fire comes any more to the slots that a wave has armed (R187). -/
def Package.dropFires (p : Package) (core : Nat) (key : WaveKey) : Package :=
  { p with due := p.due.filter fun d => match d.ev with
      | .followSlotFire c i => !(c = core && (p.core core).ctx.armedBy key i)
      | _ => true }

/-- Take a wave out of its slot: its units go back to the pool once its accepted matrix commands have completed (R187), its follow slots
are disarmed, its tokens withdrawn, its reservation cleared and its command at the head of an X pipe dropped. -/
def Package.removeWave (p : Package) (core slot : Nat) : Package :=
  match p.wave? core slot with
  | none => p
  | some w =>
    let key := p.keyOf core slot
    let left := ((p.core core).arrayQ.filter fun m => m.key = key).length
    let p := (((p.withdrawTokens key).dropMarkers core slot).dropFaults core slot).dropFires core key
    let p := { p with companies := p.companies.map fun m : Company => { m with resv := m.resv.filter fun r => r.key ≠ key } }
    let p := p.modCore core fun k =>
      { k with xq := k.xq.map (fun q : List MmCmd => q.filter fun m => m.key ≠ key), cq := k.cq.map (Option.filter fun m : CopyCmd => m.key ≠ key),
               zombies := if left = 0 then k.zombies else k.zombies ++ [{ key := key, units := w.regbase, commands := left }] }
    p.modCtx core fun k =>
      { k with waves := setAt k.waves slot none,
               units := if left = 0 then freeUnits k.units w.regbase else k.units,
               follow := k.follow.map (Option.filter fun f : Follow => f.cmd.key ≠ key) }

/-- A member of an open collective that ends before it arrives counts as an empty slice (R49, R279). -/
def Coll.memberEnded (k : Coll) (waveId : BitVec 6) : Coll :=
  { k with members := k.members.filter fun m => m ≠ waveId || k.arrived.any fun a => a.waveId = m }

/-- A running collective remembers that the wave of a slice has ended (R291). -/
def Coll.waveEnded (k : Coll) (waveId : BitVec 6) : Coll :=
  let f := fun a : CopySlice => if a.waveId = waveId then { a with ended := true } else a
  { k with pos := k.pos.map fun q : CopyPos => { q with slices := q.slices.map f } }

/-- The asynchronous traps that a wave leaves behind are discarded and counted (R160). -/
def Package.dropTraps (p : Package) (core : Nat) (w : Wave) : Package :=
  w.due.foldl (fun (p : Package) _ => p.count (Config.errTRAPDROP + core) Config.max16) p

/-- NWAVES and the collectives without a wave that has ended (R47, R49, R51). -/
def Package.leaveCast (p : Package) (core cslot : Nat) (waveId : BitVec 6) : Package :=
  (List.range 16).foldl (fun p i =>
    match (p.core core).ctx.colls.getD i none with
    | some k =>
      if k.cast = cslot && k.pos.isNone then
        (p.modCtx core fun x => { x with colls := setAt x.colls i (some (k.memberEnded waveId)) }).collReady core i
      else if k.cast = cslot then p.modCtx core fun x => { x with colls := setAt x.colls i (some (k.waveEnded waveId)) }
      else p
    | none => p) (p.modCast core cslot fun c => { c with nwaves := c.nwaves - 1 })

/-- A wave ends (R49): its slot and registers are free; NWAVES, the barriers and the open collectives change together at the end of the company cycle
(R47, R50); the last live wave makes the cast exit. -/
def Package.endWave (p : Package) (core slot : Nat) : Package :=
  match p.wave? core slot with
  | none => p
  | some w =>
    match p.cast? core w.cast with
    | none => p
    | some _ =>
      let key := p.keyOf core slot
      let p := ((p.removeWave core slot).dropTraps core w).tellPartners key
      if ((p.core core).ctx.slotsOf w.cast).isEmpty then p.exitCast core w.cast false
      else p.modCore core fun k => { k with barrier := k.barrier ++ [.remove w.cast w.waveId w.arrivedAt w.joinNext] }

/-- A cast is killed (R222, R330): every wave is taken out and the cast leaves the core. -/
def Package.killCast (p : Package) (core cslot : Nat) : Package :=
  let slots := (p.core core).ctx.slotsOf cslot
  let p := slots.foldl (fun p i =>
    match p.wave? core i with
    | some w => ((p.removeWave core i).dropTraps core w).tellPartners (p.keyOf core i)
    | none => p) p
  p.exitCast core cslot true

/-! Taking an exception and returning from one (R160 to R162, R165). -/

/-- The code of a trap cause (Table 8.5). -/
def Cause.code : Cause → Nat
  | .illegalOp => 0x01 | .illegalOperand => 0x02 | .illegalChain => 0x03 | .latchWindow => 0x04 | .role => 0x05 | .regidx => 0x06
  | .misalign => 0x07 | .spRange => 0x08 | .barrierClobber => 0x09 | .barrierState => 0x0A | .queueState => 0x0B | .page => 0x0C
  | .access => 0x0D | .ownership => 0x0E | .orderedRet => 0x0F | .poison => 0x10 | .waitTimeout => 0x11 | .xchgPartner => 0x12
  | .diverge => 0x13 | .software => 0x14 | .brk => 0x15 | .stack => 0x16 | .engine => 0x17

/-- TRAPCAUSE (Table 4.3). -/
def trapcauseOf (c : Cause) (slot : Nat) (window : Bool) : BitVec 16 :=
  BitVec.ofNat 16 ((if window then 1024 else 0) + 256 * (slot % 4) + c.code)

/-- A trap about to be delivered: where, to which slices, and what the trap registers take. -/
structure Delivery where
  core : Nat
  slot : Nat
  leader : Nat
  slices : List Nat
  cause : Cause
  word : Nat
  epc : Quad
  addr : Quad
  lanes : LaneMask
  window : Bool
  deriving DecidableEq, Repr

/-- The wave's side of R161: SAVEMASK on entering handler mode, the trap registers, the trapping slices at TRAPPC with every lane active,
the party's wait abandoned (R60, R160), every latch empty. -/
def Wave.takeTrap (w : Wave) (d : Delivery) (trappc : Quad) (start : Nat) : Wave :=
  let w := match w.blockedAt d.leader with
    | some { op := .arrive _ _ _, .. } => { w with held := none }
    | _ => w
  let w := w.modSlice d.leader fun s => { s with blocked := none, late := none }
  let w := if w.handling then w else w.modSlices d.slices fun _ s => { s with savemask := s.mask }
  let w := { w with epc := d.epc, trapaddr := d.addr, trapcause := trapcauseOf d.cause d.word d.window, traplanes := d.lanes,
                    startAt := start }
  (w.modSlices d.slices fun _ s => { s with hmode := true, mask := 15, pc := trappc }).clearLatches

/-- Taking an exception (R161): with TRAPPC 0 the cast is killed and CASTKILL is posted; otherwise the handler is entered. -/
def Package.deliver (k : Clock) (p : Package) (d : Delivery) : Package :=
  match p.wave? d.core d.slot with
  | none => p
  | some w =>
    match p.cast? d.core w.cast with
    | none => p
    | some c =>
      if c.trappc = 0 then
        (p.killCast d.core w.cast).hmqPost c.partition
          { kind := 2, castid := c.castid, castindex := c.castindex, info := trapcauseOf d.cause d.word d.window, waveId := w.waveId,
            core := d.core, tick := BitVec.ofNat 32 k.rtick, p0 := d.epc, p1 := d.addr }
      else p.modWave d.core d.slot fun w => w.takeTrap d c.trappc (k.cycleOf (companyOf d.core) + 4)

/-- The return from an exception (R165): TRET restores SAVEMASK and leaves handler mode, TRET.H stays in it; the latches are emptied. -/
def Wave.returnFromTrap (w : Wave) (slices : List Nat) (stay : Bool) : Wave :=
  (w.modSlices slices fun _ s =>
    if stay then { s with mask := 15, pc := w.epc } else { s with mask := s.savemask, hmode := false, pc := w.epc }).clearLatches

end Sys2Proof.Machine
end

