-- ==== Sys2Proof/Machine/Home.lean ====
section
/-! DEFINITION. Device memory below the translation: the two physical views (R191 to R193), the home slice of a line (R350), the L2 slices with their
way masks and pseudo-LRU trees (R226, R228), poison, the undo journal (R384), and reads and writes performed at the home. A byte's place is
vault × 2³⁰ + vault offset; a line's number is its place ÷ 128. -/

namespace Sys2Proof.Machine

/-! Physical addresses. -/

/-- The present stages in ascending order. -/
def Package.presentStages (p : Package) : List Nat := (List.range 4).filter p.present

/-- The interleaved view (R192 with four stages, R193 with fewer): vault and offset. -/
def Package.interleaved (p : Package) (pa : Nat) : Nat × Nat :=
  let st := p.presentStages
  let b := pa / 4096
  if st.length = 4 then
    let q := b / 256
    ((b % 256) ^^^ (q % 256) ^^^ (q / 256 % 256), q * 4096 + pa % 4096)
  else
    let n := 64 * st.length
    let q := b / n
    let pos := b % n
    let σ := (pos / 64 + q) % st.length
    (64 * st.getD σ 0 + ((pos % 64) ^^^ (q % 64) ^^^ (q / 64 % 64)), q * 4096 + pa % 4096)

/-- The place that a device PA names; none outside both views or in an unbacked part (R191). -/
def Package.placeOf (p : Package) (pa : Nat) : Option Nat :=
  if pa < Config.stageBytes * p.presentStages.length then
    let x := p.interleaved pa
    some (x.1 * Config.vaultSpan + x.2)
  else if Config.vaultView ≤ pa && pa < Config.vaultView + 256 * Config.vaultSpan then
    let x := pa - Config.vaultView
    if x % Config.vaultSpan < Config.vaultBytes && p.present (x / Config.vaultSpan / 64) then some x else none
  else none

/-- The interleaved PA of a place: the inverse of R192 with four stages, of R193 with fewer. -/
def Package.paOf (p : Package) (place : Nat) : Nat :=
  let v := place / Config.vaultSpan
  let o := place % Config.vaultSpan
  let q := o / 4096
  let st := p.presentStages
  if st.length = 4 then (256 * q + (v ^^^ (q % 256) ^^^ (q / 256 % 256))) * 4096 + o % 4096
  else
    let σ := (st.filter fun s => s < v / 64).length
    let w := (v % 64) ^^^ (q % 64) ^^^ (q / 64 % 64)
    (64 * st.length * q + 64 * ((σ + st.length - q % max st.length 1) % max st.length 1) + w) * 4096 + o % 4096

/-- The home company of a line: the slice that its bucket names (R350). -/
def Package.homeOf (p : Package) (line : Nat) : Nat :=
  let v := line / 8388608
  let st := v / 64
  st * 8 + (p.stageAt st).buckets.getD (4 * (v % 64) + line % 4) 0

/-- The vault of a line. -/
def vaultOf (line : Nat) : Nat := line / 8388608

/-- The path of a line (R260): the parity of bits 46:7 of its PA, that of the interleaved view (notes/assumptions/117.md). -/
def Package.linePath (p : Package) (line : Nat) : Nat :=
  ((List.range 40).filter fun i => (p.paOf (128 * line) / 128).testBit i).length % 2

/-- The mesh cycles one way between a core and a home slice for a line: half of 40 + 4h + 48d (R229). -/
def Package.oneWay (p : Package) (core home line : Nat) : Nat :=
  let m := companyOf core % 8
  let x := pathLength (m % 4) (m / 4) (stageOf core) (p.route (stageOf core) (home / 8) (p.linePath line)) (home % 8)
  20 + 2 * x.1 + 24 * x.2

/-- The mesh cycles one way between a core and the endpoint. -/
def Package.hostWay (p : Package) (core : Nat) : Nat := p.transit core / 2

/-- The service region: its base and its size in bytes (R321), a multiple of 64 KiB up to 4 GiB (notes/assumptions/118.md). -/
def Window0.svc (w : Window0) : Nat × Nat := (w.svcbase.toNat / 65536 * 65536, min (w.svcsize.toNat / 65536 * 65536) 0x100000000)

/-- Some byte of a 64 KiB frame lies in the service region. -/
def Package.inService (p : Package) (vault off : Nat) : Bool :=
  (List.range 16).any fun i =>
    let pa := p.paOf (vault * Config.vaultSpan + off + 4096 * i)
    decide (p.win.svc.1 ≤ pa) && decide (pa < p.win.svc.1 + p.win.svc.2)

/-! Trees of pseudo-LRU (R226, R228): node 1 is the root, node n has children 2n and 2n + 1; a bit points to the half that holds the victim. -/

/-- The levels of a tree over w leaves. -/
def plruLevels (w : Nat) : Nat := if w ≤ 1 then 0 else Nat.log2 (w - 1) + 1

/-- The leaf that the bits point to; a walk into a half with no leaf takes the other half. -/
def plruVictim (w : Nat) (tree : List Bool) : Nat → Nat → Nat → Nat
  | 0, _, base => base
  | l + 1, node, base =>
    if tree.getD (node - 1) false && base + 2 ^ l < w then plruVictim w tree l (2 * node + 1) (base + 2 ^ l)
    else plruVictim w tree l (2 * node) base

/-- Point every bit on the path of a leaf away from it. -/
def plruTouch (way : Nat) : Nat → Nat → List Bool → List Bool
  | 0, _, t => t
  | l + 1, node, t =>
    let right := decide (way / 2 ^ l % 2 = 1)
    plruTouch way l (2 * node + (if right then 1 else 0)) (setAt t (node - 1) (!right))

/-- The set of an index in a sparse cache; a set not listed is empty. -/
def getSet (l : List CacheSet) (ways idx : Nat) : CacheSet :=
  (l.find? fun c => c.index = idx).getD { index := idx, ways := List.replicate ways none, trees := [] }

/-- Put a set back, by rising index. -/
def putSet (c : CacheSet) : List CacheSet → List CacheSet
  | [] => [c]
  | x :: l => if c.index < x.index then c :: x :: l else if c.index = x.index then c :: l else x :: putSet c l

/-- The way that holds a line. -/
def CacheSet.wayOf (c : CacheSet) (line : Nat) : Option Nat :=
  findIdx? (fun w : Option Line => w.any fun x => x.line = line) c.ways

/-- The line in a way. -/
def CacheSet.at_ (c : CacheSet) (way : Nat) : Option Line := c.ways.getD way none

/-- A partition's tree over a run of w ways. -/
def CacheSet.tree (c : CacheSet) (part w : Nat) : List Bool :=
  (tabGet c.trees part).getD (List.replicate (2 ^ plruLevels w - 1) false)

/-- Note an access to the way `k` of a run. -/
def CacheSet.touch (c : CacheSet) (part w k : Nat) : CacheSet :=
  { c with trees := tabSet c.trees part (plruTouch k (plruLevels w) 1 (c.tree part w)) }

/-- The way of a run that a fill takes: the lowest invalid one, else the victim of the tree. -/
def CacheSet.victim (c : CacheSet) (part start w : Nat) : Nat :=
  match findIdx? Option.isNone ((c.ways.drop start).take w) with
  | some k => k
  | none => plruVictim w (c.tree part w) (plruLevels w) 1 0

/-! Way masks (R228). -/

/-- The valid partitions, ascending (R35). -/
def Package.validParts (p : Package) : List Nat := (List.range 8).filter fun k => (p.part k).valid

/-- The run of ways of a partition: ⌊16 ÷ P⌋ ways, and one more for each of the lowest partitions while any are left over. -/
def Package.wayRun (p : Package) (part : Nat) : Nat × Nat :=
  let vs := p.validParts
  match findIdx? (fun k => k = part) vs with
  | none => (0, 0)
  | some i =>
    let q := 16 / vs.length
    let r := 16 % vs.length
    (i * q + min i r, q + (if i < r then 1 else 0))

/-! DRAM and L2. -/

/-- A sector's number from a line and a half. -/
def sectorOf (line h : Nat) : Nat := 2 * line + h

/-- The layers of a block whose symbol is in error. -/
def Package.badLayers (p : Package) (sector : Nat) : List Nat := (tabGet p.dramErr sector).getD []

/-- A block decodes as poisoned: by its mark, or as uncorrectable (R273). -/
def Package.badBlock (p : Package) (sector : Nat) : Bool := p.dramPoison.contains sector || 2 ≤ (p.badLayers sector).length

/-- A line as DRAM holds it, with the poison of its sectors (R273). -/
def Package.dramLine (p : Package) (line : Nat) : Line :=
  { line := line, data := Memory.readList p.dram (128 * line) 128,
    poison := BitVec.ofNat 2 ((if p.badBlock (sectorOf line 0) then 1 else 0) + (if p.badBlock (sectorOf line 1) then 2 else 0)) }

/-- An uncorrectable error reaches data of a partition: with recovery points it is rolled back (R386). -/
def Package.errorReaches (p : Package) (part unit : Nat) : Package :=
  if (p.part part).recov then p.later .now (.rollback part unit) else p

/-- A block is decoded on a fill (R273): a correction is counted, an uncorrectable block too. -/
def Package.decodeBlock (p : Package) (part sector : Nat) : Package :=
  let v := vaultOf (sector / 2)
  match p.badLayers sector with
  | [] => p
  | [_] => p.count (Config.errDRAMCORR + v) Config.max32
  | l :: _ => (p.count (Config.errUNCORR + 288 + v) Config.max32).errorReaches part (0x4000 + 16 * v + l)

/-- Write one sector of a line to DRAM, with its poison mark. -/
def Package.writeSector (p : Package) (x : Line) (h : Nat) : Package :=
  { p with dram := Memory.writeList p.dram (128 * x.line + 64 * h) ((x.data.drop (64 * h)).take 64), dramErr := tabErase p.dramErr (sectorOf x.line h),
           dramPoison := if x.poison.getLsbD h then setInsert p.dramPoison (sectorOf x.line h)
             else p.dramPoison.filter (· ≠ sectorOf x.line h) }

/-- A line that is written back takes its place at its vault, which opens its row (R268). -/
def Package.queueWrite (p : Package) (part : Nat) (x : Line) : Package :=
  if x.dirty = 0 then p
  else
    let v := vaultOf x.line
    let r : VaultReq := { company := p.homeOf x.line, line := x.line, part := part, write := true }
    (p.modVault v fun c => { c with q := c.q ++ [r] }).later .now (.vaultRequest v)

/-- Write the dirty sectors of a line back to DRAM (R228). -/
def Package.writeBack (p : Package) (part : Nat) (x : Line) : Package :=
  let p := if x.dirty.getLsbD 0 then p.writeSector x 0 else p
  (if x.dirty.getLsbD 1 then p.writeSector x 1 else p).queueWrite part x

/-- The line in its home slice, if it is there. -/
def Package.l2Find (p : Package) (line : Nat) : Option Line :=
  let c := getSet (p.company (p.homeOf line)).l2 16 (line % 4096)
  (c.wayOf line).bind c.at_

/-- The contents of a line as its home gives them. -/
def Package.lineNow (p : Package) (line : Nat) : Line := (p.l2Find line).getD (p.dramLine line)

/-- A byte of device memory, released contents (R252). -/
def Package.readByte (p : Package) (place : Nat) : Byte := (p.lineNow (place / 128)).data.getD (place % 128) 0

/-- Bytes of device memory from a place on. -/
def Package.readBytes (p : Package) (place n : Nat) : List Byte := (List.range n).map fun i => p.readByte (place + i)

/-- The sector of a place is poisoned. -/
def Package.poisonedAt (p : Package) (place : Nat) : Bool :=
  (p.lineNow (place / 128)).poison.getLsbD (place / 64 % 2)

/-- An access of a partition to a line at its home: a hit updates the partition's tree; a miss fills, writing the victim back (R228). An agent
that no valid partition owns allocates nothing. -/
def Package.touchLine (p : Package) (part line : Nat) : Package :=
  let m := p.homeOf line
  let c := getSet (p.company m).l2 16 (line % 4096)
  let run := p.wayRun part
  match c.wayOf line with
  | some w =>
    if run.1 ≤ w && w < run.1 + run.2 then
      p.modCompany m fun k => { k with l2 := putSet (c.touch part run.2 (w - run.1)) k.l2 }
    else p
  | none =>
    if run.2 = 0 then p
    else
      let k := c.victim part run.1 run.2
      let new := p.dramLine line
      let p := (p.decodeBlock part (sectorOf line 0)).decodeBlock part (sectorOf line 1)
      let p := match c.at_ (run.1 + k) with
        | some x => p.writeBack part x
        | none => p
      let c := ({ c with ways := setAt c.ways (run.1 + k) (some new) } : CacheSet).touch part run.2 k
      p.modCompany m fun q => { q with l2 := putSet c q.l2 }

/-- Change a line at its home, or in DRAM where it is not held. -/
def Package.putLine (p : Package) (x : Line) : Package :=
  let m := p.homeOf x.line
  let c := getSet (p.company m).l2 16 (x.line % 4096)
  match c.wayOf x.line with
  | some w => p.modCompany m fun q => { q with l2 := putSet { c with ways := setAt c.ways w (some x) } q.l2 }
  | none => (p.writeSector x 0).writeSector x 1

/-- The line after a write of bytes (offset, byte) under the poison rule of R228: a partial write to a poisoned sector is dropped, a whole-sector
write clears the mark. -/
def Line.write (x : Line) (bytes : List (Nat × Byte)) : Line :=
  let half := fun h : Nat => bytes.filter fun b => b.1 / 64 = h
  let whole := fun h : Nat => (List.range 64).all fun i => bytes.any fun b => b.1 = 64 * h + i
  (List.range 2).foldl (fun x h =>
    let bs := half h
    if bs.isEmpty then x
    else if x.poison.getLsbD h && !whole h then x
    else
      let bit := BitVec.ofNat 2 (2 ^ h)
      { x with data := bs.foldl (fun d b => setAt d b.1 b.2) x.data, dirty := x.dirty ||| bit, poison := x.poison &&& ~~~bit }) x

/-- The undo journal of a partition with recovery points: the first write of a line since the point appends its old contents (R384). -/
def Package.journal (p : Package) (part line : Nat) : Package :=
  let q := p.part part
  let m := p.homeOf line
  if q.recov && q.recovery.taken && !(p.company m).filter.contains (part, line) then
    let x := p.lineNow line
    let p := p.modPart part fun q =>
      { q with recovery := { q.recovery with journal := q.recovery.journal ++ [{ line := line, old := x.data, poison := x.poison }] } }
    let p := p.modCompany m fun k => { k with filter := k.filter ++ [(part, line)] }
    if 14336 ≤ ((p.company m).filter.filter fun f => f.1 = part).length
        || q.recovery.jsize ≠ 0 && 7 * q.recovery.jsize.toNat ≤ 8 * 144 * (q.recovery.journal.length + 1) then
      p.modPart part fun q => { q with recovery := { q.recovery with requested := true } }
    else p
  else p

/-- Any write to a line clears the reservations on it (R243). -/
def Package.clearReservations (p : Package) (line : Nat) : Package :=
  p.modCompany (p.homeOf line) fun m => { m with resv := m.resv.filter fun r => r.line ≠ line }

/-- A write of bytes of one line performed at its home (R225, R250). -/
def Package.storeLine (p : Package) (part line : Nat) (bytes : List (Nat × Byte)) : Package :=
  let p := ((p.journal part line).clearReservations line).touchLine part line
  p.putLine ((p.lineNow line).write bytes)

/-- The lines that a list of places touches, in ascending order. -/
def linesOf (places : List Nat) : List Nat := places.foldl (fun l a => setInsert l (a / 128)) []

/-- A write of bytes keyed by place performed at their homes. -/
def Package.storeBytes (p : Package) (part : Nat) (bytes : List (Nat × Byte)) : Package :=
  (linesOf (bytes.map Prod.fst)).foldl (fun p line =>
    p.storeLine part line ((bytes.filter fun b => b.1 / 128 = line).map fun b => (b.1 % 128, b.2))) p

/-- Bytes at consecutive places. -/
def bytesFrom (place : Nat) (l : List Byte) : List (Nat × Byte) := l.zipIdx.map fun b => (place + b.2, b.1)

/-- Write a line back and, if asked, drop it from its slice (R246). -/
def Package.flushLine (p : Package) (line : Nat) (drop : Bool) : Package :=
  let m := p.homeOf line
  let c := getSet (p.company m).l2 16 (line % 4096)
  match c.wayOf line with
  | none => p
  | some w =>
    match c.at_ w with
    | none => p
    | some x =>
      let p := p.writeBack 8 x
      let c := { c with ways := setAt c.ways w (if drop then none else some { x with dirty := 0 }) }
      p.modCompany m fun q => { q with l2 := putSet c q.l2 }

/-- Write every dirty sector of a slice back and empty it (R228 at a change of masks, R351). -/
def Package.flushSlice (p : Package) (m : Nat) (keep : CacheSet → Nat → Bool) : Package :=
  let sets := (p.company m).l2
  let p := sets.foldl (fun p c => (c.ways.zipIdx).foldl (fun p w => match w.1 with
    | some x => if keep c w.2 then p else p.writeBack 8 x
    | none => p) p) p
  p.modCompany m fun q => { q with l2 := sets.map fun c =>
    { c with ways := c.ways.zipIdx.map (fun w : Option Line × Nat => if keep c w.2 then w.1 else none), trees := [] } }

end Sys2Proof.Machine
end

