-- ==== Sys2Proof/Machine/Address.lean ====
section
/-! DEFINITION. How a virtual address reaches memory (R190 to R203, R342 to R347): regions, heap window, aperture, page tables, the two TLBs,
the company walker, shootdown and ATS invalidation, page faults and their service. -/

namespace Sys2Proof.Machine

/-- The outcome of a translation check (R190, R197, R201): a place of device memory, a host address, or PAGE, ACCESS, or a walk that must
be made first. -/
inductive Xlate where
  | dev (place : Nat)
  | host (addr : Nat)
  | page
  | access
  | walk
  deriving DecidableEq, Repr

/-- The two canonical halves (R190). -/
def isDeviceVa (va : Quad) : Bool := va.toNat / 2 ^ 47 = 0

/-- Host space (Table 10.1). -/
def isHostVa (va : Quad) : Bool := va.toNat / 2 ^ 47 = 131071

/-- A canonical VA (R190). -/
def canonicalVa (va : Quad) : Bool := isDeviceVa va || isHostVa va

/-- The aperture (Table 10.1). -/
def isAperture (va : Quad) : Bool := 0x7F0000000000 ≤ va.toNat && va.toNat < 0x7F4000000000

/-- A register whose bits 15:0 read 0 (Table 10.2). -/
def low16Clear (x : Nat) : Nat := x / 65536 * 65536

/-- The heap window (Table 10.1). -/
def inHeap (c : AddrContext) (va : Quad) : Bool :=
  low16Clear (c.heapbase.toNat % 2 ^ 47) ≤ va.toNat && va.toNat < low16Clear (c.heaplimit.toNat % 2 ^ 47)

/-- A device place, or ACCESS where the PA is not backed (R191). -/
def Package.devOrAccess (p : Package) (pa : Nat) : Xlate :=
  match p.placeOf pa with
  | some x => .dev x
  | none => .access

/-- The heap window (R195). -/
def Package.heapXlate (p : Package) (c : AddrContext) (va : Quad) : Xlate :=
  let pa := (va.toNat + low16Clear c.heapoff.toNat) % 2 ^ 64
  if pa < Config.stageBytes * p.presentStages.length then p.devOrAccess pa else .access

/-- The aperture (R196). -/
def Package.apertureXlate (p : Package) (q : Partition) (va : Quad) : Xlate :=
  let v := bits va.toNat 30 8
  let o := bits va.toNat 0 30
  let off := low16Clear (q.ctx.apoff.toNat % 2 ^ 30)
  let len := low16Clear (q.ctx.aplen.toNat % 2 ^ 30)
  if !q.companies.getLsbD (v / 8) || len ≤ o || Config.vaultBytes < off + len then .access
  else p.devOrAccess (Config.vaultView + v * Config.vaultSpan + off + o)

/-! TLBs (R345). -/

/-- The page number of a VA for a size: host and device addresses drop their sign bits. -/
def vaPage (va : Quad) (size : Nat) : Nat := va.toNat % 2 ^ 47 / 2 ^ size

/-- An entry matches a VA of a partition and kind. -/
def TlbEntry.hits (e : TlbEntry) (part : Nat) (ats : Bool) (va : Quad) : Bool :=
  e.part = part && e.ats = ats && e.va = vaPage va e.size

/-- The better of two matches: the smaller page, then the lower entry number. -/
def betterHit (a b : Option (Nat × TlbEntry)) : Option (Nat × TlbEntry) :=
  match a, b with
  | some x, some y => if y.2.size < x.2.size then some y else some x
  | none, y => y
  | x, none => x

/-- The match of a lookup in one set (R345). -/
def TlbSet.lookup (t : TlbSet) (part : Nat) (ats : Bool) (va : Quad) : Option (Nat × TlbEntry) :=
  (t.ways.zipIdx).foldl (fun best w => match w.1 with
    | some e => if e.hits part ats va then betterHit best (some (w.2, e)) else best
    | none => best) none

/-- Note a use of an entry. -/
def TlbSet.touch (t : TlbSet) (k : Nat) : TlbSet :=
  { t with tree := plruTouch k (plruLevels t.ways.length) 1 t.tree }

/-- The way that a fill takes: an entry with the same tag, else the lowest invalid one, else the victim (R345). -/
def TlbSet.slotFor (t : TlbSet) (e : TlbEntry) : Nat :=
  let same := fun x : Option TlbEntry => x.any fun y => y.part = e.part && y.ats = e.ats && y.size = e.size && y.va = e.va
  match findIdx? same t.ways with
  | some k => k
  | none => match findIdx? Option.isNone t.ways with
    | some k => k
    | none => plruVictim t.ways.length t.tree (plruLevels t.ways.length) 1 0

/-- Fill a set. -/
def TlbSet.fill (t : TlbSet) (e : TlbEntry) : TlbSet :=
  let k := t.slotFor e
  ({ t with ways := setAt t.ways k (some e) } : TlbSet).touch k

/-- A set of a company TLB. -/
def Company.tlbSet (m : Company) (i : Nat) : TlbSet :=
  (tabGet m.tlb i).getD { ways := List.replicate 8 none, tree := List.replicate 7 false }

/-- The page sizes of a kind: 64 KiB, 2 MiB, 1 GiB for the device, 4 KiB to 1 GiB for the host. -/
def tlbSizes (ats : Bool) : List Nat := if ats then (List.range 19).map (· + 12) else [16, 21, 30]

/-- The match of a lookup in the company TLB, which probes the sets of every size, smallest page first. -/
def Company.tlbLookup (m : Company) (part : Nat) (ats : Bool) (va : Quad) : Option (Nat × Nat × TlbEntry) :=
  (tlbSizes ats).findSome? fun s =>
    let i := vaPage va s % 256
    ((m.tlbSet i).ways.zipIdx).findSome? fun w => match w.1 with
      | some e => if e.size = s && e.hits part ats va then some (i, w.2, e) else none
      | none => none

/-- Fill the company TLB. -/
def Company.tlbFill (m : Company) (e : TlbEntry) : Company :=
  let i := e.va % 256
  { m with tlb := tabSet m.tlb i ((m.tlbSet i).fill e) }

/-- Fill a core's TLB. -/
def Package.coreFill (p : Package) (core : Nat) (e : TlbEntry) : Package :=
  p.modCore core fun k => { k with tlb := k.tlb.fill e }

/-- What an entry gives for an access (R197, R201): a denied device access is ACCESS; a write through an ATS entry without W is a miss. -/
def Package.entryXlate (p : Package) (e : TlbEntry) (va : Quad) (write fetch : Bool) : Xlate :=
  let a := e.frame + va.toNat % 2 ^ e.size
  if e.ats then (if write && !e.w then .page else .host a)
  else if (write && !e.w) || (fetch && !e.x) then .access
  else p.devOrAccess a

/-- The entry that the core TLB, then the company TLB, holds for an address (R197). -/
def Package.tlbEntry? (p : Package) (core part : Nat) (ats : Bool) (va : Quad) : Option TlbEntry :=
  (((p.core core).tlb.lookup part ats va).map Prod.snd).or
    (((p.company (companyOf core)).tlbLookup part ats va).map fun x => x.2.2)

/-- Two addresses lie in one 64 KiB page. -/
def samePage (a b : Quad) : Bool := a.toNat / 65536 = b.toNat / 65536

/-- An ended walk that this waiter made for an address (R343). -/
def Package.walkEnd? (p : Package) (core part : Nat) (w : Waiter) (va : Quad) : Option WalkEnd :=
  ((p.company (companyOf core)).walks.findSome? fun k =>
    if k.part = part && k.ended && samePage k.va va && k.waiters.contains w then k.end_ else none)

/-- The translation check of one address (R190, R195 to R197, R201). -/
def Package.xlate (p : Package) (core part : Nat) (w : Waiter) (va : Quad) (write fetch : Bool) : Xlate :=
  let q := p.part part
  if isHostVa va then
    if fetch then .access
    else match p.tlbEntry? core part true va with
      | some e => p.entryXlate e va write fetch
      | none => .page
  else if !isDeviceVa va then .access
  else if isAperture va then p.apertureXlate q va
  else if inHeap q.ctx va then p.heapXlate q.ctx va
  else if q.ctx.atroot = 0 then .access
  else match p.tlbEntry? core part false va with
    | some e => p.entryXlate e va write fetch
    | none => match p.walkEnd? core part w va with
      | some (.entry e) => p.entryXlate e va write fetch
      | some .page => .page
      | some .access => .access
      | none => .walk

/-- The address goes through a TLB: host space or the paged device space. -/
def Package.viaTlb (p : Package) (part : Nat) (va : Quad) : Bool :=
  isHostVa va || (isDeviceVa va && !isAperture va && !inHeap (p.part part).ctx va)

/-- The use of the TLBs by an address: a core hit updates its tree, a company hit fills the core TLB (R197). -/
def Package.noteXlate (p : Package) (core part : Nat) (va : Quad) : Package :=
  if !p.viaTlb part va then p
  else
    let ats := isHostVa va
    match (p.core core).tlb.lookup part ats va with
    | some (k, _) => p.modCore core fun c => { c with tlb := c.tlb.touch k }
    | none =>
      let m := companyOf core
      match (p.company m).tlbLookup part ats va with
      | some (i, k, e) =>
        (p.modCompany m fun c => { c with tlb := tabSet c.tlb i ((c.tlbSet i).touch k) }).coreFill core e
      | none => p

/-! Walks (R342 to R344). -/

/-- The core of a waiter. -/
def Waiter.core : Waiter → Nat
  | .wave c _ => c
  | .copy c _ => c

/-- The index of a VA at a level and the size of a table in bytes (R342). -/
def levelIndex (va : Quad) : Nat → Nat
  | 0 => bits va.toNat 16 5
  | 1 => bits va.toNat 21 9
  | 2 => bits va.toNat 30 9
  | _ => bits va.toNat 39 8

/-- The alignment of the tables of a level (R342). -/
def tableBytes : Nat → Nat
  | 0 => 256
  | 1 => 4096
  | 2 => 4096
  | _ => 2048

/-- The log₂ of the leaf page of a level (R342). -/
def leafSize : Nat → Nat
  | 0 => 16
  | 1 => 21
  | _ => 30

/-- What one entry says (R343): the end of the walk, or the next table. -/
inductive PteStep where
  | stop (e : WalkEnd)
  | next (table : Nat)
  deriving DecidableEq, Repr

/-- One entry of level `lev` (Table 19.1, R343). -/
def Package.pteStep (p : Package) (part : Nat) (va : Quad) (write fetch : Bool) (lev e : Nat) : PteStep :=
  let addr := bits e 8 40 * 256
  if bits e 0 1 = 0 then
    if bits e 4 1 = 1 && lev ≠ 0 then .stop .access else .stop .page
  else if bits e 48 16 ≠ 0 || bits e 5 3 ≠ 0 then .stop .access
  else if bits e 1 1 = 1 then
    if lev = 3 || addr % 2 ^ leafSize lev ≠ 0 then .stop .access
    else
      let t : TlbEntry := { part := part, ats := false, size := leafSize lev, va := vaPage va (leafSize lev), frame := addr,
                            w := bits e 2 1 = 1, x := bits e 3 1 = 1 }
      match p.entryXlate t va write fetch with
      | .dev _ => .stop (.entry t)
      | _ => .stop .access
  else if lev = 0 || addr % tableBytes (lev - 1) ≠ 0 then .stop .access
  else .next addr

/-- The walk from a table of level `n − 1` on, with the lines it read (R343). -/
def Package.walkFrom (p : Package) (part : Nat) (va : Quad) (write fetch : Bool) : Nat → Nat → WalkEnd × List Nat
  | 0, _ => (.access, [])
  | n + 1, t =>
    match p.placeOf (t + 8 * levelIndex va n) with
    | none => (.access, [])
    | some place =>
      match p.pteStep part va write fetch n (ofLe (p.readBytes place 8)) with
      | .stop e => (e, [place / 128])
      | .next t' =>
        let r := p.walkFrom part va write fetch n t'
        (r.1, place / 128 :: r.2)

/-- The mesh cycles one way between a company's walker and the home slice of a table entry; none where its PA is not backed. -/
def Package.walkWay (p : Package) (company table lev : Nat) (va : Quad) : Nat :=
  match p.placeOf (table + 8 * levelIndex va lev) with
  | some place => p.oneWay (8 * company) (p.homeOf (place / 128)) (place / 128)
  | none => 0

/-- One entry of a walk is read at its home slice (R343, R344): the walk goes on to the entry of the next level, which its slice reads one L2 access later (R197), or
its end goes back to the walker. -/
def Package.walkRead (k : Clock) (p : Package) (company i : Nat) (w : Walk) : Package :=
  let upd := fun (p : Package) (t : Nat) (f : Walk → Walk) =>
    p.modCompany company fun c => { c with walks := modAt c.walks i fun w => { f w with readAt := t } }
  let back := p.walkWay company w.table w.level w.va
  let stop := fun (p : Package) (e : WalkEnd) =>
    (upd p (k.mcyc + back) fun w => { w with end_ := some e }).later (.mesh (k.mcyc + back)) (.walkComplete company)
  match p.placeOf (w.table + 8 * levelIndex w.va w.level) with
  | none => stop p .access
  | some place =>
    let q := p.touchLine w.part (place / 128)
    match p.pteStep w.part w.va w.write w.fetch w.level (ofLe (p.readBytes place 8)) with
    | .stop e => stop q e
    | .next t =>
      let at_ := k.mcyc + back + p.walkWay company t (w.level - 1) w.va
      (upd q at_ fun w => { w with level := w.level - 1, table := t }).later (.mesh at_) (.pageWalk company)

/-- Queue a miss: it joins a walk in flight for the same partition and 64 KiB page, or starts its own (R344). -/
def Package.addWalk (p : Package) (core part : Nat) (w : Waiter) (va : Quad) (write fetch : Bool) : Package :=
  let m := companyOf core
  let same := fun k : Walk => k.part = part && !k.ended && samePage k.va va && k.write = write && k.fetch = fetch
  if (p.company m).walks.any same then
    let join := fun k : Walk => if same k && !k.waiters.contains w then { k with waiters := k.waiters ++ [w] } else k
    p.modCompany m fun c => { c with walks := c.walks.map join }
  else
    (p.modCompany m fun c => { c with walks := c.walks ++
      [{ part := part, va := va, write := write, fetch := fetch, waiters := [w], started := false, marked := false, end_ := none,
         ended := false }] }).later .now (.pageWalk m)

/-- The waiter's walks are all over. -/
def Package.walksOver (p : Package) (core : Nat) (w : Waiter) : Bool :=
  (p.company (companyOf core)).walks.all fun k => !k.waiters.contains w || k.ended

/-- A word has been issued again after its walks: they are forgotten. -/
def Package.dropWalks (p : Package) (core : Nat) (w : Waiter) : Package :=
  let drop := fun k : Walk => if k.ended then { k with waiters := k.waiters.filter (· ≠ w) } else k
  let keep := fun k : Walk => !(k.ended && k.waiters.isEmpty)
  p.modCompany (companyOf core) fun c => { c with walks := (c.walks.map drop).filter keep }

/-- Blocked on a translation. -/
def Blocked.isTranslate (b : Blocked) : Bool :=
  match b.op with
  | .translate _ => true
  | _ => false

/-- A waiter whose walks are over goes on: the wave's parties issue their words again, the engine retries its element. -/
def Package.wakeWaiter (p : Package) (w : Waiter) : Package :=
  match w with
  | .wave core slot =>
    if !p.walksOver core w then p
    else if (p.wave? core slot).any fun x => x.park.isSome then p.later .now (.pageResolution core slot)
    else
      p.modWave core slot fun x => x.leaders.foldl (fun x l =>
        if (x.blockedAt l).any Blocked.isTranslate then x.unblock l else x) x
  | .copy core coll => if p.walksOver core w then p.later .now (.copyFaultResume core coll) else p

/-- A walk whose next entry is read in this mesh cycle. -/
def Walk.reads (w : Walk) (mcyc : Nat) : Bool := w.started && !w.ended && w.end_.isNone && decide (w.readAt ≤ mcyc)

/-- A walk begins at level 3, at ATROOT (R343). -/
def Package.walkBegin (k : Clock) (p : Package) (company i : Nat) (w : Walk) : Package :=
  let root := (p.part w.part).ctx.atroot.toNat
  let at_ := k.mcyc + p.walkWay company root 3 w.va
  (p.modCompany company fun c => { c with walks := modAt c.walks i fun w => { w with started := true, level := 3, table := root, readAt := at_ } }).later
    (.mesh at_) (.pageWalk company)

/-- PAGE_WALK (R343, R344): a walk under way reads its next entry; otherwise the walker takes the oldest waiting miss while fewer than 8 walks run. -/
def pageWalkAt (company : Nat) (k : Clock) (p : Package) : Package :=
  let ws := (p.company company).walks
  match findIdx? (fun w : Walk => w.reads k.mcyc) ws with
  | some i => match ws[i]? with
    | some w => p.walkRead k company i w
    | none => p
  | none =>
    match findIdx? (fun w : Walk => !w.started && !w.marked) ws with
    | none => p
    | some i =>
      match ws[i]? with
      | none => p
      | some w => if 8 ≤ (ws.filter fun w => w.started && !w.ended).length then p else p.walkBegin k company i w

/-- WALK_COMPLETE (R345, R347): a walk that ends in a translation fills both TLBs; a marked walk is discarded and restarts. -/
def walkCompleteAt (company : Nat) (k : Clock) (p : Package) : Package :=
  let ws := (p.company company).walks
  match findIdx? (fun w : Walk => w.started && !w.ended && w.end_.isSome && decide (w.readAt ≤ k.mcyc)) ws with
  | none => p
  | some i =>
    match ws[i]? with
    | none => p
    | some w =>
      if w.marked then
        p.modCompany company fun c => { c with walks := modAt c.walks i fun w => { w with started := false, end_ := none } }
      else
        let p := match w.end_ with
          | some (.entry e) =>
            let p := p.modCompany company fun c => c.tlbFill e
            w.waiters.foldl (fun (p : Package) (x : Waiter) => p.coreFill x.core e) p
          | _ => p
        let finish := fun w : Walk => { w with ended := true, waiters := w.waiters.filter fun x => x ≠ Waiter.nobody x.core }
        let p := p.modCompany company fun c => { c with walks := (modAt c.walks i finish).filter fun k => !(k.ended && k.waiters.isEmpty) }
        (w.waiters.foldl Package.wakeWaiter p).later .now (.pageWalk company)

/-! Requests for pages (R199, R201). -/

/-- A tag of the endpoint for a request of a partition: its number mod 8 is the partition, whose function has tags of 10 bits (R317); the next free one. -/
def Package.takeTag (p : Package) (part : Nat) (w : PcieWait) : Package × Nat :=
  let next := (p.part part).nextTag
  let n := (((List.range 1024).map fun i => (next + i) % 1024).find? fun n => !p.pcie.any fun x => x.1 = 8 * n + part).getD next
  ((({ p with pcie := p.pcie ++ [(8 * n + part, w)] } : Package).modPart part fun q => { q with nextTag := (n + 1) % 1024 }), 8 * n + part)

/-- An outstanding request by tag. -/
def Package.pcieWait? (p : Package) (tag : Nat) : Option PcieWait := (p.pcie.find? fun x => x.1 = tag).map Prod.snd

/-- The request is answered. -/
def Package.dropTag (p : Package) (tag : Nat) : Package := { p with pcie := p.pcie.filter fun x => x.1 ≠ tag }

/-- Send an ATS Translation Request of a core with the partition's PASID, through its function (R201); requests are page-aligned. -/
def Package.atsRequest (p : Package) (core part : Nat) (va : Quad) (write : Bool) (ws : List Waiter) : Package :=
  let (p, tag) := p.takeTag part (.ats core part va write false ws)
  p.egress 0 (.atsRequest (part + 1) (p.part part).ctx.pasid.toNat (va.toNat % 2 ^ 47 / 4096 * 4096) write tag)

/-- Send a PRI Page Request (R201): a partition holds at most 64 outstanding; the rest wait their turn. -/
def Package.prgRequest (p : Package) (core part : Nat) (va : Quad) (write : Bool) (ws : List Waiter) : Package :=
  let (p, tag) := p.takeTag part (.prg core part va write ws)
  let mine := (p.pcie.filter fun x => match x.2 with
    | .prg _ q _ _ _ => q = part
    | _ => false).length
  if mine ≤ 64 then p.egress 0 (.prgRequest (part + 1) (p.part part).ctx.pasid.toNat (va.toNat % 2 ^ 47 / 4096 * 4096) write tag) else p

/-- Ask for the page of an address: the endpoint for host space, a fault record to the prompter otherwise (R199, R201). The record reaches the prompter after the way
from the core's company stop to its own (notes/assumptions/119.md). -/
def Package.requestPage (t : Clock) (p : Package) (core slot : Nat) (copy : Option Nat) (part : Nat) (va : Quad) (write fetch : Bool) : Package :=
  if isHostVa va then
    p.atsRequest core part va write [(match copy with
      | some c => Waiter.copy core c
      | none => Waiter.wave core slot)]
  else
    { p with faults := p.faults ++ [{ arrives := t.mcyc + p.hostWay core, core := core, slot := slot, copy := copy, va := va, part := part, write := write,
                                      fetch := fetch }] }

/-- The fault record that the prompter takes next (R199, R200): the first to have arrived, the lowest core of those of one mesh cycle. -/
def firstFault (t : Nat) (l : List FaultRecord) : Option Nat :=
  ((l.zipIdx).foldl (fun (b : Option (Nat × Nat)) (r : FaultRecord × Nat) =>
    if t < r.1.arrives then b else
      let rank := 256 * r.1.arrives + r.1.core
      match b with
      | some x => if rank < x.1 then some (rank, r.2) else b
      | none => some (rank, r.2)) none).map Prod.snd

/-- The waiter's page is translated (R199 step 3): the wave's lanes are checked again, or the engine goes on. -/
def Package.resolved (p : Package) : Waiter → Package
  | .wave core slot => p.later .now (.pageResolution core slot)
  | .copy core c => p.later .now (.copyFaultResume core c)

/-- Take a wave out of its park and deliver ACCESS with the same EPC and lanes (R162). -/
def Package.accessParked (k : Clock) (p : Package) (core slot : Nat) : Package :=
  match p.wave? core slot with
  | none => p
  | some w =>
    match w.park with
    | none => p
    | some r =>
      let p := p.modWave core slot fun w => { w with park := none }
      let d : Delivery := { core := core, slot := slot, leader := r.leader, slices := r.slices, cause := .access,
                            word := bits w.trapcause.toNat 8 2, epc := w.epc, addr := w.trapaddr, lanes := w.traplanes,
                            window := w.trapcause.getLsbD 10 }
      p.deliver k d

/-- A collective's page is refused: the access at its element ends in ACCESS (R162, R286). -/
def Package.denyCopy (p : Package) (core coll : Nat) : Package :=
  (p.modCtx core fun k => { k with colls := modAt k.colls coll fun c => c.map fun c : Coll =>
    { c with pos := c.pos.map fun x : CopyPos => { x with denied := true } } }).later .now (.copyFaultResume core coll)

/-- The 64 KiB frame of the vault view that a leaf maps. -/
def leafFrame (e : Nat) : Option (Nat × Nat) :=
  let a := bits e 8 40 * 256
  if bits e 0 2 = 3 && Config.vaultView ≤ a then some ((a - Config.vaultView) / Config.vaultSpan, (a - Config.vaultView) % Config.vaultSpan) else none

/-- The prompter writes a table entry: the frame of a leaf that it evicts is free again, that of a leaf that it makes present is not (R200). -/
def Package.writePte (p : Package) (place new : Nat) : Package :=
  let old := leafFrame (ofLe (p.readBytes place 8))
  let frames := p.frames.filter fun f => some f ≠ old
  let frames := match leafFrame new with
    | some f => frames ++ [f]
    | none => frames
  ({ p with frames := frames } : Package).storeBytes 8 (bytesFrom place (leBytes 8 new))

/-- A frame that the allocator may give: backed, outside the service region (R321) and not in use. -/
def Package.frameFree (p : Package) (vault off : Nat) : Bool :=
  off < Config.vaultBytes && vault < 256 && p.present (vault / 64) && !p.frames.contains (vault, off) && !p.inService vault off

/-- A vault has a free frame among its first n. -/
def Package.hasFree (p : Package) (vault : Nat) : Nat → Bool
  | 0 => false
  | n + 1 => p.frameFree vault (65536 * n) || p.hasFree vault n

/-- The vaults in the order of R200: the core's own, those of its company, its stage, the package. -/
def touchOrder (core : Nat) : List Nat :=
  core :: ((List.range 8).map (core / 8 * 8 + ·) ++ (List.range 64).map (core / 64 * 64 + ·) ++ List.range 256)

/-- The vault of a first touch by a core (R200). -/
def Package.touchVault (p : Package) (core : Nat) : Option Nat := (touchOrder core).find? fun v => p.hasFree v 12288

/-- FAULT_RECORD_SERVICE (R199, R200, R162): the prompter serves the first record. First touch: the frame named by the firmware (vault × 16384
 + index) must be free and lie in the vault of R200; it is zeroed and the leaf written present, unless an earlier record has done so. -/
def serviceFault (act : FwAction) (k : Clock) (p : Package) : Package :=
  match (firstFault k.mcyc p.faults).bind fun i => (p.faults[i]?).map fun r => (i, r) with
  | none => p
  | some (i, r) =>
    let rest := p.faults.eraseIdx i
    let waiter : Waiter := match r.copy with
      | some c => .copy r.core c
      | none => .wave r.core r.slot
    let q := { p with faults := rest }
    match act with
    | .unserviceable =>
      match r.copy with
      | some c => q.denyCopy r.core c
      | none => q.accessParked k r.core r.slot
    | .pageIn ptes =>
      (ptes.foldl (fun (q : Package) e => match q.placeOf (e.1 / 8 * 8) with
        | some place => q.writePte place e.2.toNat
        | none => q) q).resolved waiter
    | .firstTouch frame =>
      let root := (p.part r.part).ctx.atroot.toNat
      let vault := frame / 16384
      let off := frame % 16384 * 65536
      let walk := fun n t => match p.placeOf (t + 8 * levelIndex r.va n) with
        | some place => some (place, ofLe (p.readBytes place 8))
        | none => none
      let down := fun (t : Option Nat) n => t.bind fun t => (walk n t).bind fun e =>
        match p.pteStep r.part r.va r.write r.fetch n e.2 with
        | .next t' => some t'
        | .stop _ => none
      let leaf := (((some root |> (down · 3)) |> (down · 2)) |> (down · 1)).bind (walk 0)
      match leaf with
      | none => q.resolved waiter
      | some (place, e) =>
        if bits e 0 1 = 1 then q.resolved waiter
        else if bits e 4 1 = 1 && p.frameFree vault off && p.touchVault r.core = some vault then
          let base := vault * Config.vaultSpan + off
          let q := (List.range 512).foldl (fun q i => q.storeBytes 8 (bytesFrom (base + 128 * i) (List.replicate 128 0))) q
          let new := Config.vaultView + base + bits e 2 2 * 4 + 3
          (q.writePte place new).resolved waiter
        else p

/-! Shootdown and invalidation (R202, R203, R347). -/

/-- The entry's pages overlap a range of the low 47 bits. -/
def TlbEntry.overlaps (e : TlbEntry) (va len : Nat) : Bool :=
  e.va * 2 ^ e.size < va + len && va < (e.va + 1) * 2 ^ e.size

/-- Remove matching entries of a set. -/
def TlbSet.remove (t : TlbSet) (f : TlbEntry → Bool) : TlbSet := { t with ways := t.ways.map (Option.filter fun e => !f e) }

/-- Remove matching entries of a company TLB. -/
def Company.tlbRemove (m : Company) (f : TlbEntry → Bool) : Company := { m with tlb := m.tlb.map fun x => (x.1, x.2.remove f) }

/-- A walk of the range. -/
def Walk.overlaps (w : Walk) (part va len : Nat) : Bool :=
  w.part = part && !w.ended && w.va.toNat / 65536 * 65536 < va + len && va < (w.va.toNat / 65536 + 1) * 65536

/-- A shootdown of host space. -/
def Shootdown.host (s : Shootdown) : Bool := decide (2 ^ 47 ≤ s.va)

/-- An entry that a shootdown removes: of its partition and kind, with a page of its range. -/
def Shootdown.covers (s : Shootdown) (e : TlbEntry) : Bool := e.part = s.part && e.ats = s.host && e.overlaps (s.va % 2 ^ 47) s.len

/-- A walk that a shootdown overlaps. -/
def Shootdown.meets (s : Shootdown) (w : Walk) : Bool := !s.host && w.overlaps s.part s.va s.len

/-- Mark the ATS requests in flight of some partitions that a range of host addresses overlaps (R347). -/
def Package.markAts (p : Package) (parts : List Nat) (base len : Nat) : Package :=
  { p with pcie := p.pcie.map fun x => match x.2 with
    | .ats core part va w m ws =>
      let a := va.toNat % 2 ^ 47 / 4096 * 4096
      (x.1, .ats core part va w (m || (parts.contains part && decide (a < base + len) && decide (base < a + 4096))) ws)
    | y => (x.1, y) }

/-- What a shootdown marks besides walks. -/
def Package.markShot (p : Package) (s : Shootdown) : Package := if s.host then p.markAts [s.part] (s.va % 2 ^ 47) s.len else p

/-- SHOOTDOWN (R202, R347): the command arrives at a core; walks and requests that it overlaps are marked; the entries leave at the end of the mesh cycle 32 cycles
later. -/
def shootdownAt (core part va len : Nat) (k : Clock) (p : Package) : Package :=
  let s : Shootdown := { part := part, va := va, len := len, removed := false, before := [] }
  let p := p.modCore core fun c => { c with shoot := c.shoot ++ [s] }
  let mark := fun w : Walk => if s.meets w then { w with marked := true } else w
  let p := (p.modCompany (companyOf core) fun m => { m with walks := m.walks.map mark }).markShot s
  p.later (.mesh (k.mcyc + 33)) (.shootdownRemoval core)

/-- The number of the next request of every wave slot of a core. -/
def Core.requestNumbers (c : Core) : List (Nat × Nat) :=
  (c.ctx.waves.zipIdx).filterMap fun w => w.1.map fun x => (w.2, x.nextId)

/-- The mesh cycle in which the last write of a core's copy engine is acknowledged. -/
def Core.copyAck (c : Core) : Nat := (c.ctx.colls.filterMap fun x => (x.bind Coll.pos).map CopyPos.ackAt).foldl max 0

/-- The host reads of the copy engines of some cores that have not come back. -/
def Package.copyTags (p : Package) (on : Nat → Bool) : List Nat :=
  p.pcie.filterMap fun x => match x.2 with
    | .copy core _ _ _ _ _ => if on core then some x.1 else none
    | _ => none

/-- SHOOTDOWN_REMOVAL (R202, R347): the matching entries leave the core TLB and the company TLB, after the checks of the removal cycle; marked walks restart. -/
def shootdownRemovalAt (core : Nat) (p : Package) : Package :=
  match (p.core core).shoot.find? fun s => !s.removed with
  | none => p
  | some s =>
    let tags := p.copyTags (· = core)
    let p := p.modCore core fun c => { c with
      tlb := c.tlb.remove s.covers
      shoot := match findIdx? (fun s : Shootdown => !s.removed) c.shoot with
        | some i => modAt c.shoot i fun s => { s with removed := true, before := c.requestNumbers, copyAck := c.copyAck, tags := tags }
        | none => c.shoot }
    let m := companyOf core
    let restart := fun w : Walk => if s.meets w then { w with marked := false, started := false, end_ := none } else w
    let p := (p.modCompany m fun c => { c.tlbRemove s.covers with walks := c.walks.map restart }).markShot s
    ((p.later .now (.pageWalk m))).later .now (.shootdownAck core)

/-- A request of a wave slot, older than a number, is still in flight. -/
def Package.olderInFlight (p : Package) (core slot n : Nat) : Bool :=
  let old := fun r : Req => r.key.core = core && r.key.slot = slot && decide (r.id < n)
  (p.companies.any fun m => (m.inq ++ m.stalled ++ m.stageWait).any old) || (p.stage.any fun s => s.heldReqs.any old)
    || ((p.core core).replies.any fun r => r.key.slot = slot)
    || (p.pcie.any fun x => match x.2 with
      | .load key _ id _ _ _ _ => key.core = core && key.slot = slot && id < n
      | .atomic key _ id _ _ _ _ _ _ _ _ _ => key.core = core && key.slot = slot && id < n
      | _ => false)

/-- SHOOTDOWN_ACK (R202): once the accesses that could have used a removed entry have drained, the shootdown is acknowledged. -/
def shootdownAckAt (core : Nat) (k : Clock) (p : Package) : Package :=
  match (p.core core).shoot.find? fun s => s.removed with
  | none => p
  | some s =>
    if s.before.any (fun b => p.olderInFlight core b.1 b.2) || decide (k.mcyc < s.copyAck) || (p.pcie.any fun x => s.tags.contains x.1) then
      p.later (.mesh (k.mcyc + 1)) (.shootdownAck core)
    else p.modCore core fun c => { c with shoot := match findIdx? (fun s : Shootdown => s.removed) c.shoot with
      | some i => c.shoot.eraseIdx i
      | none => c.shoot }

/-- The partitions whose PASID this is. -/
def Package.partsOfPasid (p : Package) (pasid : Nat) : List Nat :=
  (List.range 8).filter fun k => (p.part k).ctx.pasid.toNat = pasid

/-- The range of an invalidation, in the low 47 bits. -/
def AtsInv.range (i : AtsInv) : Nat × Nat := (i.va % 2 ^ 47 / 2 ^ i.log2 * 2 ^ i.log2, 2 ^ i.log2)

/-- Mark what an invalidation overlaps (R347). -/
def Package.markInv (p : Package) (i : AtsInv) : Package := p.markAts (p.partsOfPasid i.pasid) i.range.1 i.range.2

/-- ATS_INVALIDATE_REQUEST (R203): stamped at mesh cycle c, it removes at c + 64, after the checks of that cycle. -/
def atsInvalidateAt (pasid va log2 : Nat) (k : Clock) (p : Package) : Package :=
  let i : AtsInv := { pasid := pasid, va := va, log2 := max 12 log2, due := k.mcyc + 64, removed := false, before := [] }
  (({ p with atsInv := p.atsInv ++ [i] }).markInv i).later (.mesh (k.mcyc + 65)) .atsInvalidateRemoval

/-- ATS_INVALIDATE_REMOVAL (R203): every ATS entry of the PASID that overlaps the range leaves every TLB. -/
def atsRemovalNow (p : Package) : Package :=
  match p.atsInv.find? fun i => !i.removed with
  | none => p
  | some i =>
    let ps := p.partsOfPasid i.pasid
    let gone := fun e : TlbEntry => e.ats && ps.contains e.part && e.overlaps i.range.1 i.range.2
    let before := (p.cores.zipIdx).flatMap fun c => c.1.requestNumbers.map fun r => (c.2, r.1, r.2)
    let acks := (p.cores.zipIdx).map fun c => (c.2, c.1.copyAck)
    let tags := p.copyTags fun _ => true
    let p := p.markInv i
    let p := { p with cores := p.cores.map (fun c : Core => { c with tlb := c.tlb.remove gone }),
                      companies := p.companies.map fun m : Company => m.tlbRemove gone }
    let p := { p with atsInv := match findIdx? (fun i : AtsInv => !i.removed) p.atsInv with
      | some n => modAt p.atsInv n fun i => { i with removed := true, before := before, copyAcks := acks, tags := tags }
      | none => p.atsInv }
    p.later .now .invalidationCompletion

/-- INVALIDATION_COMPLETION (R203): sent through the egress gate once the accesses that used the entries have drained. -/
def invalidationCompletionAt (k : Clock) (p : Package) : Package :=
  match p.atsInv.find? fun i => i.removed with
  | none => p
  | some i =>
    if i.before.any (fun b => p.olderInFlight b.1 b.2.1 b.2.2) || (i.copyAcks.any fun a => decide (k.mcyc < a.2))
        || (p.pcie.any fun x => i.tags.contains x.1) then
      p.later (.mesh (k.mcyc + 1)) .invalidationCompletion
    else
      let p := { p with atsInv := match findIdx? (fun i : AtsInv => i.removed) p.atsInv with
        | some n => p.atsInv.eraseIdx n
        | none => p.atsInv }
      p.egress 0 (.invalidationCompletion i.pasid i.va)

/-! ATS and PRI answers (R201, R346). -/

/-- The entry of a grant: a page larger than 1 GiB is installed as the 1 GiB that holds the address (R346); no execute. -/
def atsEntry (part : Nat) (va : Quad) (addr log2 : Nat) (w : Bool) : TlbEntry :=
  let size := min 30 (max 12 log2)
  let base := addr / 2 ^ (max 12 log2) * 2 ^ (max 12 log2)
  let off := va.toNat % 2 ^ (max 12 log2) / 2 ^ size * 2 ^ size
  { part := part, ats := true, size := size, va := vaPage va size, frame := base + off, w := w, x := false }

/-- A page that host space refuses: ACCESS for the waiters (R201 step 5). -/
def Package.refuseWaiters (k : Clock) (p : Package) (ws : List Waiter) : Package :=
  ws.foldl (fun p (w : Waiter) => match w with
    | .wave c s => p.accessParked k c s
    | .copy c n => p.denyCopy c n) p

/-- ATS_TRANSLATION_COMPLETION (R201 steps 3 to 5, R346, R347): a grant fills the TLBs of the core that asked, whoever still waits. -/
def atsCompletionAt (tag : Nat) (r : AtsReply) (k : Clock) (p : Package) : Package :=
  match p.pcieWait? tag with
  | some (.ats core part va write marked ws) =>
    let p := p.dropTag tag
    if marked then p.atsRequest core part va write ws
    else match r with
      | .grant addr log2 w =>
        let e := atsEntry part va addr log2 w
        let p := (p.modCompany (companyOf core) fun m => m.tlbFill e).coreFill core e
        if write && !w then p.prgRequest core part va write ws else ws.foldl Package.resolved p
      | .noAccess => p.prgRequest core part va write ws
      | .unsupported => p.refuseWaiters k ws
      | .aborted => p.refuseWaiters k ws
  | _ => p

/-- PRG_RESPONSE (R201 steps 4 and 5): Success leads to a new ATS request; a waiting page request of the partition takes the free entry. -/
def prgResponseAt (tag : Nat) (r : PrgReply) (k : Clock) (p : Package) : Package :=
  match p.pcieWait? tag with
  | some (.prg core part va write ws) =>
    let isMine := fun x : Nat × PcieWait => match x.2 with
      | .prg _ q _ _ _ => q = part
      | _ => false
    let p := match (p.pcie.filter isMine)[64]? with
      | some (t, .prg _ _ v w _) =>
        p.egress 0 (.prgRequest (part + 1) (p.part part).ctx.pasid.toNat (v.toNat % 2 ^ 47 / 4096 * 4096) w t)
      | _ => p
    let p := p.dropTag tag
    match r with
    | .success => p.atsRequest core part va write ws
    | .invalidRequest => p.refuseWaiters k ws
    | .failure => p.refuseWaiters k ws
  | _ => p

def execFAULT_RECORD_SERVICE (act : FwAction) (s : State) : Host.Outcome State Fault Refusal := s.event (serviceFault act)

def execPAGE_WALK (company : Nat) (s : State) : Host.Outcome State Fault Refusal := s.event (pageWalkAt company)

def execWALK_COMPLETE (company : Nat) (s : State) : Host.Outcome State Fault Refusal := s.event (walkCompleteAt company)

def execSHOOTDOWN (core part va len : Nat) (s : State) : Host.Outcome State Fault Refusal := s.event (shootdownAt core part va len)

def execSHOOTDOWN_REMOVAL (core : Nat) (s : State) : Host.Outcome State Fault Refusal := s.event fun _ => shootdownRemovalAt core

def execSHOOTDOWN_ACK (core : Nat) (s : State) : Host.Outcome State Fault Refusal := s.event (shootdownAckAt core)

def execATS_TRANSLATION_COMPLETION (tag : Nat) (r : AtsReply) (s : State) : Host.Outcome State Fault Refusal :=
  s.event (atsCompletionAt tag r)

def execPRG_RESPONSE (tag : Nat) (r : PrgReply) (s : State) : Host.Outcome State Fault Refusal := s.event (prgResponseAt tag r)

def execATS_INVALIDATE_REQUEST (pasid va log2 : Nat) (s : State) : Host.Outcome State Fault Refusal :=
  s.event (atsInvalidateAt pasid va log2)

def execATS_INVALIDATE_REMOVAL (s : State) : Host.Outcome State Fault Refusal := s.event fun _ => atsRemovalNow

def execINVALIDATION_COMPLETION (s : State) : Host.Outcome State Fault Refusal := s.event invalidationCompletionAt

end Sys2Proof.Machine
end

