-- ==== Sys2Proof/Machine/Alloc.lean ====
section
/-! DEFINITION. The resources of a core: wave slots, register units and roles (R332, R336, R337), and a new wave (R41, R83, R337). -/

namespace Sys2Proof.Machine

/-- The number of valid slots in a bay. -/
def baySlots (ws : List (Option Wave)) (bay : Nat) : Nat := (((ws.drop (16 * bay)).take 16).filter Option.isSome).length

/-- The bay with the fewest valid slots among those with a free one, the lowest on a tie. -/
def pickBay (ws : List (Option Wave)) : Option Nat :=
  let free := (List.range 4).filter fun b => baySlots ws b < 16
  free.foldl (fun best b => match best with
    | none => some b
    | some a => if baySlots ws b < baySlots ws a then some b else some a) none

/-- The slot of the next wave (R332): the emptiest bay, its lowest free slot. -/
def pickSlot (ws : List (Option Wave)) : Option Nat :=
  (pickBay ws).bind fun b => (findIdx? Option.isNone ((ws.drop (16 * b)).take 16)).map (16 * b + ·)

/-- The slots of `n` further waves, in order; each taken slot counts for the next. -/
def pickSlots (ws : List (Option Wave)) (dummy : Wave) : Nat → Option (List Nat)
  | 0 => some []
  | n + 1 => (pickSlot ws).bind fun s => (pickSlots (setAt ws s (some dummy)) dummy n).map (s :: ·)

/-- `n` consecutive free units start at `i`. -/
def unitsFree (us : List (Option Nat)) (i n : Nat) : Bool := i + n ≤ us.length && ((us.drop i).take n).all Option.isNone

/-- The lowest run of `n` consecutive free units. -/
def freeRun (us : List (Option Nat)) (n : Nat) : Option Nat := (List.range us.length).find? fun i => unitsFree us i n

/-- Take the units of a run. -/
def takeUnits (us : List (Option Nat)) (i n owner : Nat) : List (Option Nat) :=
  (List.range n).foldl (fun us k => setAt us (i + k) (some owner)) us

/-- `n` runs of `size` free units, the lowest first (R337). -/
def freeRuns (us : List (Option Nat)) (size owner : Nat) : Nat → Option (List Nat)
  | 0 => some []
  | n + 1 => (freeRun us size).bind fun i => (freeRuns (takeUnits us i size owner) size owner n).map (i :: ·)

/-- The waves of a role on a core. -/
def CoreCtx.roleCount (x : CoreCtx) (r : Role) : Nat := (x.waves.filter fun w => w.any fun y => y.role = r).length

/-- Check 4 of R332: at most 8 MATRIX and 8 COPY waves after `n` more of a role. -/
def CoreCtx.rolesOk (x : CoreCtx) (r : Role) (n : Nat) : Bool :=
  match r with
  | .matrix => x.roleCount .matrix + n ≤ 8
  | .copy => x.roleCount .copy + n ≤ 8
  | _ => true

/-- The lowest WAVEID that no live wave of a cast uses (R34). -/
def CoreCtx.freeWaveId (x : CoreCtx) (cslot : Nat) : Nat :=
  let used := (x.slotsOf cslot).map fun s => (((x.waves.getD s none).map Wave.waveId).getD 0).toNat
  ((List.range 64).find? fun i => !used.contains i).getD 0

/-- A wave at its start (R41, R83, R337): one party, every register 0 but p0 and the scalars given, WAITLIMIT 2³², no latch. -/
def newWave (waveId cslot : Nat) (role : Role) (units : List Nat) (regs : Nat) (entry : Quad) (sregs : List Quad) (nextCopy : BitVec 32)
    (start : Nat) : Wave :=
  { waveId := BitVec.ofNat 6 waveId, cast := cslot, role := role, regbase := units,
    sregs := sregs ++ List.replicate (64 - sregs.length) 0,
    vregs := List.replicate regs (List.replicate 128 0),
    preds := BitVec.allOnes 128 :: List.replicate 7 0,
    slices := List.replicate 32 { pc := entry },
    tiles := List.replicate 16 0,
    nextCopy := nextCopy, startAt := start }

/-- A role by its code (Table 4.2). -/
def roleOf (n : Nat) : Role :=
  match n with
  | 0 => .general
  | 1 => .copy
  | 2 => .matrix
  | _ => .vector

/-- An address lies in the cast's code segment (R63). -/
def Cast.inCode (c : Cast) (a : Quad) : Bool := c.codebase.toNat ≤ a.toNat && a.toNat + 4 ≤ c.codebase.toNat + c.codelen.toNat

end Sys2Proof.Machine
end

