-- ==== Sys2Proof/Machine/Operands.lean ====
section
/-! DEFINITION. What a word sees when it issues, and every operand form: vector, pair, quad and scalar sources with the latches among
them (Table 3.4, R69), predicates, immediates, and the destinations with the latch entry that a producer leaves. -/

namespace Sys2Proof.Machine

/-- The packet visit that issuing at `slot` of the packet at `base` belongs to: a packet entered again, or another packet, is a new visit (R70). -/
def Window.enter (w : Window) (base start : Quad) (slot : Nat) : Window :=
  if w.base = base ∧ w.last < slot ∧ w.last < 3 then w
  else { packet := w.packet + 1, seq := w.seq, base := base, start := start, slot := slot, last := 3, producers := 0,
         forbidden := false, second := false, prevStart := w.start, prevProducers := w.producers, prevForbidden := w.forbidden,
         prevSecond := w.second }

/-- What a word sees: the word's place, the wave whose registers it reads (as it stood before the chain, R74), the wave as it stands
(its masks are not held back, R123), its cast, the issuing slices, the active lanes and the packet visit. -/
structure View where
  iss : Issue
  src : Wave
  now : Wave
  cast : Cast
  slices : List Nat
  act : LaneMask
  win : Window
  deriving DecidableEq, Repr

/-- The view of the word being issued; none when no live party of a wave is there to issue it. -/
def State.view (s : State) : Option View :=
  match s.cur with
  | none => none
  | some iss =>
    match s.pkg.wave? iss.core iss.slot with
    | none => none
    | some w =>
      match s.pkg.cast? iss.core w.cast with
      | none => none
      | some c =>
        let src := iss.src.getD w
        let ks := src.issuing iss.leader
        if ks.isEmpty then none
        else
          let base := iss.word - BitVec.ofNat 64 (4 * iss.pslot)
          some { iss := iss, src := src, now := w, cast := c, slices := ks, act := w.activeOf ks,
                 win := (((src.slices[iss.leader]?).map Slice.win).getD {}).enter base iss.epc ((iss.epc - base).toNat / 4) }

/-- The latch entry Ln of a slice. -/
def Slice.latch? (s : Slice) (n : Nat) : Option LatchEntry := s.latches[n]?

/-- The element of a latch of vector kind in lane j. -/
def LatchVal.vec? : LatchVal → Nat → Word
  | .vec l, j => l.getD j 0
  | _, _ => 0

/-- The element of a latch of pair kind in lane j. -/
def LatchVal.pair? : LatchVal → Nat → Quad
  | .pair l, j => l.getD j 0
  | _, _ => 0

/-- The value of a latch of scalar kind. -/
def LatchVal.scalar? : LatchVal → Quad
  | .scalar v => v
  | _ => 0

/-- The value of latch n in slice k of the wave that is read. -/
def View.latch (v : View) (k n : Nat) : LatchVal :=
  (((v.src.slices[k]?).bind (Slice.latch? · n)).map LatchEntry.val).getD (.scalar 0)

/-- A vector source: register 0 to 123, or latch code 124 to 127 (Table 3.4). -/
def View.vec (v : View) (c j : Nat) : Word :=
  if c < 124 then v.src.v c j else (v.latch (j / 4) (c - 124)).vec? (j % 4)

/-- A pair source: the even register holds bits 31:0 (R92). -/
def View.pair (v : View) (c j : Nat) : Quad :=
  if c < 124 then v.src.v (c + 1) j ++ v.src.v c j else (v.latch (j / 4) (c - 124)).pair? (j % 4)

/-- A scalar source: s0 to s63, or a latch of scalar kind, which every slice of the party holds (R69). -/
def View.sc (v : View) (c : Nat) : Quad :=
  if c < 64 then v.src.s c else (v.latch (v.slices.headD 0) (c - 124)).scalar?

/-- A predicate source. -/
def View.pred (v : View) (p : Nat) : LaneMask := v.src.p p

/-- Lane j of a predicate source. -/
def View.predAt (v : View) (p j : Nat) : Bool := (v.pred p).getLsbD j

/-- The lane is active (R28). -/
def View.active (v : View) (j : Nat) : Bool := v.act.getLsbD j

/-- The active lanes in ascending order. -/
def View.lanes (v : View) : List Nat := lanesOf v.act

/-- The bytes of lane j of a data operand of `size` bytes that starts at register r: a register holds four of them (R210, R232). -/
def View.bytes (v : View) (r size j : Nat) : List Byte :=
  leBytes size ((List.range ((size + 3) / 4)).foldr (fun k n => (v.src.v (r + k) j).toNat + 4294967296 * n) 0)

/-- The same through a latch code where the operand is a source (Table 3.4). -/
def View.dataBytes (v : View) (r size j : Nat) : List Byte :=
  if r < 124 then v.bytes r size j
  else if size = 8 then leBytes 8 (v.pair r j).toNat else leBytes size (v.vec r j).toNat

/-- A sign-extended field as a word. -/
def immWord {n : Nat} (i : BitVec n) : Word := i.signExtend 32

/-- A sign-extended field as a scalar. -/
def immQuad {n : Nat} (i : BitVec n) : Quad := i.signExtend 64

/-- The registers that `size` bytes read from memory fill, from register r on, zero-extended to whole registers (R210, R232). -/
def regsOfBytes (r lane : Nat) (bs : List Byte) : List (Nat × Nat × Word) :=
  (List.range ((bs.length + 3) / 4)).map fun k => (r + k, lane, BitVec.ofNat 32 (ofLe ((bs.drop (4 * k)).take 4)))

/-- Write elements (register, lane, value) of a wave. -/
def Wave.setElems (w : Wave) (l : List (Nat × Nat × Word)) : Wave :=
  l.foldl (fun w e => { w with vregs := modAt w.vregs e.1 fun old => (List.range 128).map fun j => if j = e.2.1 then e.2.2 else old.getD j 0 }) w

/-- Insert a latch entry by issue order, newest first, keeping four (R69). -/
def insertLatch (e : LatchEntry) : List LatchEntry → List LatchEntry
  | [] => [e]
  | x :: l => if x.seq ≤ e.seq then e :: x :: l else x :: insertLatch e l

/-- A latched producer leaves an entry in every live slice of its party; lanes that do not issue or are inactive hold 0 (R69). -/
def Wave.pushLatch (w : Wave) (leader packet seq : Nat) (val : Nat → LatchVal) : Wave :=
  w.modSlices (w.party leader) fun k s =>
    { s with latches := (insertLatch { val := val k, packet := packet, seq := seq } s.latches).take 4 }

/-- The result of a latched producer. -/
inductive Result where
  | vec (f : Nat → Word)
  | pair (f : Nat → Quad)
  | scalar (x : Quad)

/-- The latch entry of a result in slice k. -/
def Result.latch (act : LaneMask) : Result → Nat → LatchVal
  | .vec f, k => .vec ((List.range 4).map fun i => if act.getLsbD (4 * k + i) then f (4 * k + i) else 0)
  | .pair f, k => .pair ((List.range 4).map fun i => if act.getLsbD (4 * k + i) then f (4 * k + i) else 0)
  | .scalar x, _ => .scalar x

/-- A value computed once and then looked up by lane. -/
def tabulate {α : Type} (d : α) (f : Nat → α) : Nat → α :=
  let t := (List.range 128).map f
  fun j => t.getD j d

end Sys2Proof.Machine
end

