-- ==== Sys2Proof/Machine/Issue.lean ====
section
/-! DEFINITION. The issue of a word: the checks of Table 3.5 in their order, the charge (R353, R354), the advance of the counters, the trap or
the wait that a word ends in, and the shared forms of the meanings (a producer, a scalar write, a predicate write). -/

namespace Sys2Proof.Machine

/-! The checks of R68. -/

/-- M and N of two tile registers (R172): rows of ta and of tb. -/
def tileRows (t : Quad) : Nat := bits t.toNat 18 7 + 1

/-- A valid tile register: KBYTES holds 64 (R169). -/
def tileValid (t : Quad) : Bool := bits t.toNat 25 7 = 64

/-- FMT of a tile register (Table 9.1). -/
def tileFmt (t : Quad) : Nat := bits t.toNat 15 3

/-- SCALEMODE of a tile register (Table 9.1). -/
def tileScaleMode (t : Quad) : Nat := bits t.toNat 57 2

/-- The tile checks of R176 for two operands; `promo` is MMAP or an MMAP kind of MDEFER. -/
def tilesOk (ta tb : Quad) (promo : Bool) : Bool :=
  tileValid ta && tileValid tb
    && ((tileFmt ta ≤ 1 && tileFmt tb ≤ 1) || (2 ≤ tileFmt ta && tileFmt ta ≤ 4 && tileFmt ta = tileFmt tb))
    && tileRows ta % 8 = 0 && tileRows tb % 16 = 0
    && !(promo && (tileScaleMode ta = 2 || tileScaleMode tb = 1))

/-- The registers of an accumulator block (R174). -/
def blockSize (ta tb : Quad) : Nat := (tileRows ta / 8) * (tileRows tb / 16)

/-- The tile operands of an MMA-major word of minor 0 to 3: ta, tb, acc, and whether it is of an MMAP kind. -/
def tileUse : Instr → Option (Nat × Nat × Nat × Bool)
  | .mma w => some (w.a.toNat, w.b.toNat, w.v.toNat, false)
  | .mmaz w => some (w.a.toNat, w.b.toNat, w.v.toNat, false)
  | .mmap w => some (w.a.toNat, w.b.toNat, w.v.toNat, true)
  | .mdefer w => some (w.a.toNat, w.b.toNat, w.v.toNat, 2 ≤ w.y.toNat)
  | _ => none

/-- The tile register that MSAVE and MLOAD name, which must be valid (R176). -/
def saveTile : Instr → Option Nat
  | .msave w => some w.a.toNat
  | .mload w => some w.a.toNat
  | _ => none

/-- The role admits the class (Table 2.3). -/
def Role.admits : Role → RoleClass → Bool
  | _, .common => true
  | .general, _ => true
  | .copy, .copy => true
  | .copy, .tile => true
  | .matrix, .matrix => true
  | .matrix, .tile => true
  | .vector, .vector => true
  | .vector, .memory => true
  | _, _ => false

/-- A latch entry has the kind that a source needs (R69). -/
def latchKindOk : OpKind → LatchVal → Bool
  | .vec, .vec _ => true
  | .pair, .pair _ => true
  | .scalar, .scalar _ => true
  | _, _ => false

/-- Every latch source names an empty entry or one of matching kind, in every issuing slice. -/
def View.latchKindsOk (v : View) (i : Instr) : Bool :=
  i.latchSources.all fun q => v.slices.all fun k =>
    match (v.src.slices[k]?).bind (Slice.latch? · q.2) with
    | some e => latchKindOk q.1 e.val
    | none => true

/-- The slot at which the chain that holds slot j of a packet starts (R74), no earlier than the slot entered at. -/
def chainStart (packet : List (Option Instr)) (entry : Nat) : Nat → Nat
  | 0 => 0
  | j + 1 =>
    if j + 1 ≤ entry then j + 1
    else match (packet.getD j none) with
      | some i => if i.chained then chainStart packet entry j else j + 1
      | none => j + 1

/-- The latched results of a packet visit that stand before the chain of slot j (R70). -/
def producersBefore (packet : List (Option Instr)) (entry j : Nat) : Nat :=
  ((List.range (chainStart packet entry j)).filter fun k =>
    entry ≤ k && match packet.getD k none with
      | some i => i.producer
      | none => false).length

/-- Some word of the packet visit reads a latch that names an earlier word of itself (`back` false) or a result of the previous packet
(`back` true) (R71). -/
def packetReads (w : Window) (packet : List (Option Instr)) (back : Bool) : Bool :=
  (List.range 3).any fun j => w.slot ≤ j && match packet.getD j none with
    | some i =>
      let n := producersBefore packet w.slot j
      i.latchSources.any fun q => if back then n ≤ q.2 && q.2 < n + w.prevProducers else q.2 < n
    | none => false

/-- The packet is part of a latch window (R71). -/
def View.inWindow (v : View) : Bool :=
  v.iss.keeps || packetReads v.win v.iss.packet false || packetReads v.win v.iss.packet true

/-- The packet is the second of a window (R71). -/
def View.secondPacket (v : View) : Bool := packetReads v.win v.iss.packet true

/-- The reach and window rules (R70, R71) for one word. -/
def View.latchesOk (v : View) (i : Instr) : Bool :=
  (i.latchSources.all fun q => v.slices.all fun k =>
    match (v.src.slices[k]?).bind (Slice.latch? · q.2) with
    | none => false
    | some e => e.packet = v.win.packet
        || (e.packet + 1 = v.win.packet && !v.win.prevForbidden && !v.win.prevSecond && !v.iss.keeps))
  && !(v.inWindow && i.windowForbidden)
  && !(v.secondPacket && i.keep.1)

/-- A window that another wave switch must not cut: the packet being issued is in a window, or is the first of two (R72; for a packet that only the next
one makes a window of, notes/assumptions/106.md). -/
def View.windowStart (v : View) : Option Quad :=
  if v.secondPacket then some v.win.prevStart else if v.inWindow || v.iss.ahead then some v.win.start else none

/-- The registers that an instruction names lie below the allocation (R66, R85). -/
def View.regsOk (v : View) (i : Instr) : Bool :=
  (i.vectorRegs.all fun q => q.1 + q.2 ≤ v.cast.regcount.toNat)
  && match tileUse i with
    | some (a, b, acc, _) => acc + blockSize (v.src.tiles.getD a 0) (v.src.tiles.getD b 0) ≤ v.cast.regcount.toNat
    | none => true

/-- The tile registers of an MMA-major word pass R176. -/
def View.tileOk (v : View) (i : Instr) : Bool :=
  (match tileUse i with
    | some (a, b, _, promo) => tilesOk (v.src.tiles.getD a 0) (v.src.tiles.getD b 0) promo
    | none => true)
  && match saveTile i with
    | some a => tileValid (v.src.tiles.getD a 0)
    | none => true

/-- A word refused in handler mode, or TRET outside it (R163). -/
def View.modeOk (v : View) (i : Instr) : Bool :=
  let h := v.slices.any fun k => ((v.src.slices[k]?).map Slice.hmode).getD false
  match i with
  | .tret _ => v.slices.all fun k => ((v.src.slices[k]?).map Slice.hmode).getD false
  | i => !(h && i.handlerForbidden)

/-- One word of a chain as the checks see it: its slot, its raw bits, and what it decodes to. -/
structure ChainWord where
  slot : Nat
  addr : Quad
  raw : Word
  dec : Except DecodeErr Instr

/-- The pipe of a raw word (Table 3.3). -/
def rawPipe (w : Word) : Pipe := pipeOf (bits w.toNat 25 5)

/-- The first word of a chain whose pipe an earlier word has (R74): the later of the two is the failing word (notes/assumptions/107.md). -/
def pipesClash : List ChainWord → Option ChainWord
  | [] => none
  | c :: l => match l.find? (fun d => rawPipe d.raw = rawPipe c.raw) with
    | some d => some d
    | none => pipesClash l

/-- The first word for which a test fails. -/
def firstBad (l : List ChainWord) (bad : ChainWord → Bool) : Option ChainWord := l.find? bad

/-- Bits that a handler may not issue, whatever the rest of the word holds (R163): the CST, ENG and MMA majors, BP.SPLIT, JOIN, REGANG and PERFREQ. -/
def rawForbidden (raw : Word) : Bool :=
  let n := raw.toNat
  let m := bits n 25 5
  m = 0x15 || m = 0x1E || m = 0x1F || (m = 0x12 && bits n 20 2 = 0) || (m = 0x13 && 2 ≤ bits n 0 4 && bits n 0 4 ≤ 4)
    || (m = 0x0E && bits n 4 4 = 4)

/-- A word of the TRET minor, whatever the rest of it holds. -/
def rawTret (raw : Word) : Bool := bits raw.toNat 25 5 = 0x14 && bits raw.toNat 0 4 = 1

/-- Order 2 of Table 3.5 for a word that breaks a rule of order 3 only: the mode check of R163 comes first. -/
def View.rawModeOk (v : View) (raw : Word) : Bool :=
  let mode := fun k => ((v.src.slices[k]?).map Slice.hmode).getD false
  !(v.slices.any mode && rawForbidden raw) && !(rawTret raw && !v.slices.all mode)

/-- The decoded instruction of a chain word fails a test. -/
def ChainWord.fails (c : ChainWord) (p : Instr → Bool) : Bool :=
  match c.dec with
  | .ok i => !p i
  | .error _ => false

/-- The checks of Table 3.5, in order and within one order by slot: the cause and the failing word. -/
def View.chainCheck (v : View) (l : List ChainWord) : Option (Cause × ChainWord) :=
  let c1 := (pipesClash l).or (firstBad l fun c => c.slot = 2 && c.raw.getLsbD 31)
  let c2 := firstBad l fun c => (match c.dec with
    | .error .illegalOp => true
    | .error .illegalOperand => !v.rawModeOk c.raw
    | _ => false) || c.fails v.modeOk
  let c3 := firstBad l fun c => (match c.dec with | .error .illegalOperand => true | _ => false)
    || c.fails (fun i => i.wellFormed && v.latchKindsOk i && v.tileOk i)
  let c4 := firstBad l fun c => c.fails fun i => v.src.role.admits i.roleClass
  let c5 := firstBad l fun c => c.fails fun i => !(i.wholeWave && 1 < v.src.leaders.length)
  let c6 := firstBad l fun c => c.fails v.regsOk
  let c7 := firstBad l fun c => c.fails v.latchesOk
  ((c1.map (Cause.illegalChain, ·)).or ((c2.map (Cause.illegalOp, ·)).or ((c3.map (Cause.illegalOperand, ·)).or
    ((c4.map (Cause.role, ·)).or ((c5.map (Cause.diverge, ·)).or ((c6.map (Cause.regidx, ·)).or
      (c7.map (Cause.latchWindow, ·))))))))

/-- TRAPADDR of an issue check (Table 8.5): the failing word, or 0 for REGIDX and DIVERGE. -/
def checkAddr (c : Cause) (raw : Word) : Quad :=
  match c with
  | .regidx => 0
  | .diverge => 0
  | _ => raw.setWidth 64

/-- The check of one word issued alone. -/
def View.check (v : View) (i : Instr) : Option Trap :=
  (v.chainCheck [{ slot := v.iss.pslot, addr := v.iss.word, raw := v.iss.raw, dec := .ok i }]).map fun r =>
    { cause := r.1, addr := checkAddr r.1 v.iss.raw, window := false }

/-- A trap whose TRAPADDR is the word itself (Table 8.5). -/
def View.operandTrap (v : View) : Trap := { cause := .illegalOperand, addr := v.iss.raw.setWidth 64 }

/-! The charge (R353, R354). -/

/-- The weight per lane of a V-pipe or M-pipe word (Table 20.1). -/
def chargeWeight : Instr → Nat
  | .vdiv _ => 6 | .vdivu _ => 6 | .vrem _ => 6 | .vremu _ => 6
  | .fdiv _ => 8 | .fsqrt _ => 8 | .ddiv _ => 16 | .dsqrt _ => 16
  | i => match i.major with
    | some m => if m = 3 || m = 5 then 3 else if m = 7 then 4 else if m = 4 then 6 else if 0x18 ≤ m && m ≤ 0x1D then 4 else 2
    | none => 0

/-- The charge of an issue: w for each active lane on the V and M pipes, 16 on the S and X pipes. -/
def chargeOf (i : Instr) (act : LaneMask) : Nat :=
  match i.pipe with
  | .V => chargeWeight i * popcount act
  | .M => chargeWeight i * popcount act
  | .S => 16
  | .X => 16

/-- The counters of Table 20.2 saturate at 2^40 − 1. -/
def satCharge (n : Nat) : Nat := min n 1099511627775

/-- Add a charge to the company's CHARGE of the cast's class, to the cast's CCHG and to the core's KCHG (R354). -/
def Package.charge (p : Package) (core cslot prio n : Nat) : Package :=
  let p := p.modCompany (companyOf core) fun m => { m with charge := modAt m.charge prio fun c => satCharge (c + n) }
  let p := p.modCore core fun k => { k with kchg := satCharge (k.kchg + n) }
  p.modCast core cslot fun c => { c with cchg := satCharge (c.cchg + n) }

/-! How a word ends. -/

/-- The outcome of a word's meaning: performed, performed with the counters already set, a trap before anything is performed, a trap
after the chain performs (TRAP, BRK), a wait, or an issue to be repeated. -/
inductive Out where
  | hold (h : Hold)
  | done (s : State)
  | jump (s : State)
  | trap (t : Trap)
  | after (s : State) (t : Trap)
  | block (s : State) (op : BlockOp)

/-- The scalars that the word of a wait will write (R84). -/
def BlockOp.writes : BlockOp → List Nat
  | .qpush _ _ d => [d]
  | .rwait _ _ _ d => [d]
  | .arrive _ _ d => [d]
  | .bwait _ _ _ d => [d]
  | .released d _ _ _ _ => [d]
  | .bquery _ d => [d, d + 1]
  | .dcwait _ d => [d]
  | .engwait _ d => [d]
  | .create c => [c.dest]
  | .attach a _ => [a.dest]
  | .cueemit _ _ d _ => [d]
  | _ => []

/-- Change the word being issued. -/
def State.modCur (s : State) (f : Issue → Issue) : State := { s with cur := s.cur.map f }

/-- Change the issuing wave. -/
def State.onWave (s : State) (v : View) (f : Wave → Wave) : State := s.modWave v.iss.core v.iss.slot f

/-- The packet visit after a word: the slot issued, the producers and forbidden operations it held (R70 to R72). -/
def View.windowAfter (v : View) (i : Instr) (cur : Window) : Window :=
  let same := cur.packet = v.win.packet
  { v.win with
      last := if same && cur.last < 3 then max cur.last v.iss.pslot else v.iss.pslot
      producers := (if same then cur.producers else v.win.producers) + (if i.producer then 1 else 0)
      forbidden := (same && cur.forbidden) || v.win.forbidden || i.windowForbidden
      second := v.win.second || v.secondPacket }

/-- Advance the counters after the last word of a chain: the issuing slices go to the next word unless a transfer has set them; if a word of
the chain waits, its party's slices stay at that word and go on from there when the wait ends. -/
def Wave.advance (w : Wave) (v : View) (moved : Bool) (waiting : Option Quad) : Wave :=
  let w := if moved then w else w.modSlices v.slices fun _ s => { s with pc := v.iss.next }
  match waiting with
  | none => w
  | some word =>
    let ks := v.slices.filter fun k => ((w.slices[k]?).map fun s => decide (s.leader.toNat = v.iss.leader)).getD false
    let pcs := ks.map fun k => ((w.slices[k]?).map Slice.pc).getD 0
    let w := w.modSlices ks fun _ s => { s with pc := word }
    w.modSlice v.iss.leader fun s =>
      { s with blocked := s.blocked.map fun b => { b with slices := ks, resume := pcs } }

/-- A control word whose chain has a word that waits takes effect after that word (R74, R152, R164), a word that a FENCE of its chain holds once that is performed
(R254): the party goes on with it then, reading what stood before the chain. -/
def State.deferControl (s : State) (word : Quad) (raw : Word) : State :=
  match s.view with
  | none => s
  | some v =>
    s.onWave v fun w =>
      let b := w.blockedAt v.iss.leader
      let late : Late := { word := word, epc := v.iss.epc, next := v.iss.next, slices := v.slices, sregs := v.src.sregs, preds := v.src.preds,
                           latches := v.src.slices.map Slice.latches, win := ((v.src.slices[v.iss.leader]?).map Slice.win).getD {}, raw := raw,
                           wrote := v.iss.wrote ++ ((b.map fun x => x.op.writes).getD []).map (· + 64) }
      let add := fun old : Option Late => match old with
        | some l => some { l with more := l.more ++ [(word, raw)] }
        | none => some late
      let first := ((b.bind Blocked.late).or ((w.slices[v.iss.leader]?).bind Slice.late)).isNone
      let w := if first then w.advance { v with iss := { v.iss with next := word } } false (b.map Blocked.word) else w
      let w := w.modSlice v.iss.leader fun x => match x.blocked with
        | some y => { x with blocked := some { y with late := add y.late } }
        | none => { x with late := add x.late }
      if w.park.isSome then w.clearLatches else w

/-- Close the issue of a performed or waiting word: the packet visit, the charge, and after the last word of the chain the counters. -/
def State.finish (s : State) (v : View) (i : Instr) (moved : Bool) : State :=
  let s := s.onWave v fun w => w.modSlice v.iss.leader fun k => { k with win := v.windowAfter i k.win }
  let s := s.modPkg fun p => p.charge v.iss.core v.src.cast v.cast.prio (chargeOf i v.act)
  let s := s.modCur fun c => { c with moved := c.moved || moved }
  if v.iss.final then
    let moved := moved || v.iss.moved
    s.onWave v fun w =>
      let w := w.advance v moved (((w.blockedAt v.iss.leader).map Blocked.word))
      if w.park.isSome then w.clearLatches else w
  else s

/-- Where a trap's EPC lies and whether it restarts a latch window (R68, R71, R72, Table 8.5). -/
def View.trapEpc (v : View) (t : Trap) : Quad × Bool :=
  match t.cause with
  | .latchWindow => (v.win.start, false)
  | _ =>
    match v.windowStart with
    | some a => (a, true)
    | none => (t.epc.getD v.iss.epc, false)

/-- Deliver a trap to the issuing slices (R161). -/
def State.trapNow (s : State) (v : View) (t : Trap) (slot : Nat) : State :=
  let e := v.trapEpc t
  let d : Delivery := { core := v.iss.core, slot := v.iss.slot, leader := v.iss.leader, slices := v.slices, cause := t.cause,
                        word := slot, epc := e.1, addr := t.addr, lanes := t.lanes.getD v.act, window := e.2 }
  s.modPkg fun p => p.deliver s.clk d

/-- A trap of a word: taken at once when the word issues alone, kept for the step when it is part of a longer chain, whose other words must
then not perform. -/
def State.raise (s : State) (v : View) (t : Trap) : State :=
  if v.iss.checked then s.modCur fun c => { c with trap := c.trap.or (some (t, v.iss.pslot)) }
  else s.trapNow v t v.iss.pslot

/-- The waiter that the issuing wave is. -/
def View.waiter (v : View) : Waiter := .wave v.iss.core v.iss.slot

/-- Ask for a page and park the wave until it is there (R162, R198): the park record, the trap registers and the request. -/
def State.parkFor (s : State) (v : View) (r : Park) (epc addr : Quad) (lanes : LaneMask) (window write fetch : Bool) (slot : Nat) : State :=
  let s := s.onWave v fun w =>
    { w with park := some r, epc := epc, trapaddr := addr, traplanes := lanes, trapcause := trapcauseOf .page slot window }
  s.modPkg fun p => p.requestPage s.clk v.iss.core v.iss.slot none v.cast.partition addr write fetch

/-- The word must be issued again: after its walks (R197), or, inside a latch window or at a fetch, once its page is there (R72). A page at a fetch empties the latches
as the parking of a memory instruction does (R69, notes/assumptions/110.md). -/
def State.holdNow (s : State) (v : View) (h : Hold) (slot : Nat) : State :=
  match h with
  | .walk pages =>
    let b : Blocked := { op := .translate pages, word := v.iss.epc, slices := v.slices, resume := v.slices.map fun _ => v.iss.epc }
    let s := s.onWave v fun w => w.modSlice v.iss.leader fun k => { k with blocked := some b }
    s.modPkg fun p => pages.foldl (fun p a => p.addWalk v.iss.core v.cast.partition v.waiter a.1 a.2.1 a.2.2) p
  | .page addr lanes write fetch =>
    let epc := v.windowStart.getD v.iss.epc
    let r : Park := { word := epc, lanes := lanes, op := none, leader := v.iss.leader, slices := v.slices }
    let s := s.onWave v fun w => (w.modSlices v.slices fun _ k => { k with pc := epc }).clearLatches
    s.parkFor v r epc addr lanes v.windowStart.isSome write fetch slot

/-- A hold of a word: at once when the word issues alone, kept for the step when it is part of a longer chain. -/
def State.holdWord (s : State) (v : View) (h : Hold) : State :=
  if v.iss.checked then s.modCur fun c => { c with hold := c.hold.or (some (h, v.iss.pslot)) }
  else s.holdNow v h v.iss.pslot

/-- Block the party at the word (R60). -/
def State.blockParty (s : State) (v : View) (op : BlockOp) : State :=
  (s.onWave v fun w => w.modSlice v.iss.leader fun k =>
    { k with blocked := some { op := op, word := v.iss.word, slices := v.slices, resume := v.slices.map fun _ => v.iss.next } }).modCur
      fun c => { c with blockedOn := true }

/-- The meaning of a word: its checks, its effect, and how it ends. -/
def State.word (i : Instr) (f : View → State → Out) (s : State) : Host.Outcome State Fault Refusal :=
  match s.view with
  | none => .fault .noIssuingParty
  | some v =>
    match (if v.iss.checked then none else v.check i) with
    | some t => .next (s.trapNow v t v.iss.pslot)
    | none =>
      match f v s with
      | .done t => .next (t.finish v i false)
      | .jump t => .next (t.finish v i true)
      | .trap t => .next (s.raise v t)
      | .hold h => .next (s.holdWord v h)
      | .after t tr =>
        .next ((t.finish v i false).trapNow v { tr with epc := some v.iss.next } v.iss.pslot)
      | .block t op => .next ((t.blockParty v op).finish v i false)

/-! The shared forms of the meanings. -/

/-- Write a result to the destination register unless K keeps it, and leave its latch entry (R69, R84). -/
def State.produce (s : State) (v : View) (keep : Bool) (d : Nat) (r : Result) : State :=
  s.onWave v fun w =>
    let w := w.pushLatch v.iss.leader v.win.packet (4 * v.win.packet + v.iss.pslot) (r.latch v.act)
    if keep then w
    else match r with
      | .vec f => w.setV d v.act f
      | .pair f => w.setPair d v.act f
      | .scalar x => w.setS d x

/-- Write a scalar from the S pipe: a V-pipe or X-pipe word of the same chain that writes it stands (R84, R113). `wrote` lists the scalars that
V-pipe words have written, and 64 more than those that X-pipe words have written. -/
def State.writeS (s : State) (v : View) (d : Nat) (x : Quad) : State :=
  if v.iss.wrote.contains d || v.iss.wrote.contains (d + 64) then s else s.onWave v fun w => w.setS d x

/-- Write a scalar from the V pipe (R84, R113): an X-pipe word of the same chain that writes it stands. -/
def State.writeV (s : State) (v : View) (d : Nat) (x : Quad) : State :=
  if v.iss.wrote.contains (d + 64) then s
  else (s.onWave v fun w => w.setS d x).modCur fun c => { c with wrote := d :: c.wrote }

/-- Write a scalar from the X pipe: a status or a count (R84, R113). -/
def State.writeX (s : State) (v : View) (d : Nat) (x : Quad) : State :=
  (s.onWave v fun w => w.setS d x).modCur fun c => { c with wrote := (d + 64) :: c.wrote }

/-- A vector producer: each active lane j takes `f v j`. -/
def execVec (i : Instr) (keep : BitVec 1) (d : BitVec 7) (f : View → Nat → Word) (s : State) : Host.Outcome State Fault Refusal :=
  s.word i fun v s => .done (s.produce v (keep = 1) d.toNat (.vec (tabulate 0 (f v))))

/-- A producer of register pairs. -/
def execPair (i : Instr) (keep : BitVec 1) (d : BitVec 7) (f : View → Nat → Quad) (s : State) : Host.Outcome State Fault Refusal :=
  s.word i fun v s => .done (s.produce v (keep = 1) d.toNat (.pair (tabulate 0 (f v))))

/-- A scalar producer of the S pipe. -/
def execScalar (i : Instr) (keep : BitVec 1) (d : BitVec 7) (f : View → Quad) (s : State) : Host.Outcome State Fault Refusal :=
  s.word i fun v s =>
    let x := f v
    let s := s.produce v true d.toNat (.scalar x)
    .done (if keep = 1 then s else s.writeS v d.toNat x)

/-- A write of a predicate in the active lanes (R122). -/
def execPred (i : Instr) (d : BitVec 3) (f : View → Nat → Bool) (s : State) : Host.Outcome State Fault Refusal :=
  s.word i fun v s => .done (s.onWave v fun w => w.setP d.toNat v.act (laneMask (f v)))

/-- A compare combined into pd: SET, AND, OR, ANDN (R65, R121). -/
def combine (cm : BitVec 2) (old c : Bool) : Bool :=
  match cm.toNat with
  | 0 => c
  | 1 => old && c
  | 2 => old || c
  | _ => old && !c

/-- A compare (R121, R141). -/
def execCompare (i : Instr) (d : BitVec 3) (cm : BitVec 2) (f : View → Nat → Bool) (s : State) : Host.Outcome State Fault Refusal :=
  execPred i d (fun v j => combine cm (v.predAt d.toNat j) (f v j)) s

/-- OR flags into FPFLAGS, now and for a MOVCW of the same chain (R88). -/
def State.raiseFlags (s : State) (v : View) (fl : BitVec 5) : State :=
  (s.onWave v fun w => { w with fpflags := w.fpflags ||| fl }).modCur fun c => { c with raised := c.raised ||| fl }

end Sys2Proof.Machine
end

