-- ==== Sys2Proof/Machine/Fetch.lean ====
section
/-! DEFINITION. From a party's counter to its next chain: fetch from the code segment (R63), the packet and its slots, the words of the chain (R74), the
checks over the whole chain, and the order in which its words perform. -/

namespace Sys2Proof.Machine

/-- What a fetch brings. -/
inductive Fetched where
  | word (w : Word)
  | access
  | hold (h : Hold)
  deriving DecidableEq, Repr

/-- Fetch one word: outside the segment, in host space or denied, ACCESS (R63, R197, R201). It reads what the home of the line holds now: the 64 KiB instruction cache
of Table 1.2 holds no contents of its own (R16, notes/assumptions/120.md). -/
def Package.fetch (p : Package) (core slot : Nat) (c : Cast) (lanes : LaneMask) (va : Quad) : Fetched :=
  if va.toNat < c.codebase.toNat || c.codebase.toNat + c.codelen.toNat < va.toNat + 4 then .access
  else match p.xlate core c.partition (.wave core slot) va false true with
    | .dev place => .word (BitVec.ofNat 32 (ofLe (p.readBytes place 4)))
    | .host _ => .access
    | .access => .access
    | .page => .hold (.page va lanes false true)
    | .walk => .hold (.walk [(va, false, true)])

/-- The slot of a word in its packet (R63). -/
def slotOf (base va : Quad) : Nat := (va - base).toNat % 12 / 4

/-- The words from an address to the end of their chain, at most `n`, or the fetch that fails. -/
noncomputable def fetchChain (get : Quad → Fetched) : Nat → Nat → Quad → List ChainWord × Option (Quad × Fetched)
  | 0, _, _ => ([], none)
  | n + 1, slot, va =>
    match get va with
    | .word w =>
      let c : ChainWord := { slot := slot, addr := va, raw := w, dec := decode w }
      if w.getLsbD 31 then
        let r := fetchChain get n (slot + 1) (va + 4)
        (c :: r.1, r.2)
      else ([c], none)
    | f => ([], some (va, f))

/-- The three words of a packet as instructions; a word that cannot be fetched or decoded is none. -/
noncomputable def packetOf (get : Quad → Fetched) (base : Quad) : List (Option Instr) :=
  (List.range 3).map fun j => match get (base + BitVec.ofNat 64 (4 * j)) with
    | .word w => (decode w).toOption
    | _ => none

/-- Some word of a packet has K = 1, whatever it encodes (R62, R71). -/
def packetKeeps (get : Quad → Fetched) (base : Quad) : Bool :=
  (List.range 3).any fun j => match get (base + BitVec.ofNat 64 (4 * j)) with
    | .word w => w.getLsbD 30
    | _ => false

/-- The last slot of the chain that holds slot j (R74), at most `n` slots on. -/
def chainEnd (packet : List (Option Instr)) : Nat → Nat → Nat
  | 0, j => j
  | n + 1, j => if (packet.getD j none).any Instr.chained then chainEnd packet n (j + 1) else j

/-- The offset of a relative branch (R65). -/
def Instr.offset? : Instr → Option Quad
  | .b w => some (immQuad w.o)
  | .bl w => some (immQuad w.o)
  | .bsEq w => some (immQuad w.o)
  | .bsNe w => some (immQuad w.o)
  | .bsLt w => some (immQuad w.o)
  | .bsGe w => some (immQuad w.o)
  | .bsLtu w => some (immQuad w.o)
  | .bsGeu w => some (immQuad w.o)
  | .bsZ w => some (immQuad w.o)
  | .bsNz w => some (immQuad w.o)
  | .bpSplit w => some (immQuad w.o)
  | .bpAll w => some (immQuad w.o)
  | .bpAny w => some (immQuad w.o)
  | .bpUni w => some (immQuad w.o)
  | _ => none

/-- No word after this transfer and its chain is issued in the packet visit. -/
def Instr.leaves : Instr → Bool
  | .b _ => true
  | .bl _ => true
  | .jr _ => true
  | .jlr _ => true
  | _ => false

/-- The latched results of a packet visit from slot `entry` to slot `last`. -/
def producersTo (packet : List (Option Instr)) (entry last : Nat) : Nat :=
  ((List.range (last + 1)).filter fun k => entry ≤ k && (packet.getD k none).any Instr.producer).length

/-- Where a packet visit can go on, as far as its own words say, with the latched results that it then holds: the packet after it, and the targets of its
relative branches; from slot j on (`n` slots are left). -/
def followers (base : Quad) (packet : List (Option Instr)) (entry : Nat) : Nat → Nat → List (Quad × Nat)
  | 0, _ => [(base + 12, producersTo packet entry 2)]
  | n + 1, j =>
    match packet.getD j none with
    | none => []
    | some i =>
      let go := match Instr.offset? i with
        | some o => [(base + BitVec.ofNat 64 (4 * j) + 4 * o, producersTo packet entry (chainEnd packet (2 - j) j))]
        | none => []
      if Instr.leaves i then go else go ++ followers base packet entry n (j + 1)

/-- The packet that the party enters next reads a latch of this one, which makes a window of the two (R71, R72, notes/assumptions/106.md): one of the packets that may
follow does, and neither holds what would make it trap instead. -/
noncomputable def readsAhead (get : Quad → Fetched) (codebase : Quad) (w : Window) (base : Quad) (packet : List (Option Instr)) : Bool :=
  !packetReads w packet true && !((List.range 3).any fun j => w.slot ≤ j && (packet.getD j none).any Instr.windowForbidden)
    && (followers base packet w.slot (3 - w.slot) w.slot).any fun t =>
      let j := slotOf codebase t.1
      packetReads { slot := j, prevProducers := t.2 } (packetOf get (t.1 - BitVec.ofNat 64 (4 * j))) true

/-- The party that slice `leader` leads stands inside a latch window: the packet it is issuing is one, or makes one with the packet to come, and has words
left, or the next packet reads a latch of the packet before (R71, R72). No wave switch takes place there. -/
noncomputable def Package.midWindow (p : Package) (core slot leader : Nat) : Bool :=
  match p.wave? core slot with
  | none => false
  | some w =>
    match p.cast? core w.cast, w.issueCounter leader with
    | some c, some pc =>
      let j := slotOf c.codebase pc
      let base := pc - BitVec.ofNat 64 (4 * j)
      let packet := packetOf (p.fetch core slot c 0) base
      let old := ((w.slices[leader]?).map Slice.win).getD {}
      let win := old.enter base pc j
      let get := p.fetch core slot c 0
      packetReads win packet true || (decide (win.packet = old.packet)
        && (packetKeeps get base || packetReads win packet false || readsAhead get c.codebase win base packet))
    | _, _ => false

/-- The chain word is a control transfer or another word that acts after the rest of its chain (R74, R164, R370). -/
def ChainWord.control (c : ChainWord) : Bool :=
  match c.dec with
  | .ok i => i.control
  | .error _ => false

/-- The words that a FENCE holds until it is performed (R254). -/
def Instr.fenceHeld : Instr → Bool
  | .copy _ => true
  | .qpush _ => true
  | .qpop _ => true
  | .qtrypush _ => true
  | .qtrypop _ => true
  | .radv _ => true
  | .rwait _ => true
  | .cueemit _ => true
  | .barrive _ => true
  | .bsync _ => true
  | .hostmsg _ => true
  | i => decide (i.pipe = .M)

/-- The words with a release before their commit (Table 13.5): earlier loads must have returned (R255). -/
def Instr.releasesFirst : Instr → Bool
  | .sts w => w.e = 1 || w.e = 2
  | .barrive _ => true
  | .bsync _ => true
  | .qpush _ => true
  | .qtrypush _ => true
  | .radv _ => true
  | .cueemit _ => true
  | .hostmsg _ => true
  | .cinv _ => true
  | _ => false

/-- The wave of the word being issued. -/
def State.curWave (s : State) : Option Wave := s.cur.bind fun q => s.pkg.wave? q.core q.slot

/-- A word of the chain must wait: a control word for those before it (R74), a word that FENCE holds for a FENCE of the chain (R254), a word with a release for the loads of
the chain (R255, R258). -/
def State.mustDefer (s : State) (c : ChainWord) (i : Instr) : Bool :=
  let late := s.cur.any fun q => s.curWave.any fun w =>
    ((w.slices[q.leader]?).any fun x => x.late.isSome || x.blocked.any fun b => b.late.isSome)
  (c.control && (s.cur.any Issue.blockedOn || late)) || (Instr.fenceHeld i && s.curWave.any fun w => w.fence.isSome)
    || (Instr.releasesFirst i && s.curWave.any fun w => !w.pending.isEmpty)

/-- Perform the words of a chain in turn. A control word comes last; with a word of the chain waiting it comes after the wait, unless it traps: the chain then performs
nothing (R68, R74). -/
def runChain (run : Instr → State → Host.Outcome State Fault Refusal) : List ChainWord → State → Host.Outcome State Fault Refusal
  | [], s => .next s
  | c :: l, s =>
    match c.dec with
    | .error _ => .next s
    | .ok i =>
      match run i (s.modCur fun q => { q with word := c.addr, pslot := c.slot, raw := c.raw, final := l.isEmpty }) with
      | .next t =>
        runChain run l (if s.mustDefer c i && !t.cur.any (fun q => q.trap.isSome || q.hold.isSome) then s.deferControl c.addr c.raw else t)
      | o => o

/-- Close the issue: a trap or a hold of the chain leaves everything as it was before the chain and is then taken (R68, R76). -/
def closeChain (before after : State) (v : View) : State :=
  match after.cur with
  | none => after
  | some q =>
    match q.trap, q.hold with
    | some (t, slot), _ => before.trapNow v t slot
    | none, some (h, slot) => before.holdNow v h slot
    | none, none => after

/-- The next chain of a party, fetched: the state with the chain's first word as the word being issued, the view of it, its words or the fetch that fails, and
the slot that it starts at. -/
structure NextChain where
  start : State
  view : View
  words : List ChainWord
  stop : Option (Quad × Fetched)
  slot : Nat

/-- The word that a party has still to issue of the chain that waited (R74, R254): it reads what stood before the chain, and acts on the slices that
issued the chain. -/
noncomputable def State.lateChain (s : State) (core slot leader : Nat) (w : Wave) (c : Cast) (l : Late) : Option NextChain :=
  let j := slotOf c.codebase l.word
  let src := { w with sregs := l.sregs, preds := l.preds, slices := (w.slices.zipIdx).map fun x : Slice × Nat =>
    { x.1 with latches := l.latches.getD x.2 [], sleep := if l.slices.contains x.2 then 0 else 1, win := if x.2 = leader then l.win else x.1.win } }
  let iss : Issue := { core := core, slot := slot, leader := leader, word := l.word, pslot := j, epc := l.epc, next := ((l.more.head?).map Prod.fst).getD l.next, raw := l.raw, packet := [],
                       checked := true, src := some src, wrote := l.wrote }
  let s0 := { s with cur := some iss }.modWave core slot fun w => w.modSlice leader fun x => { x with late := match l.more with
    | [] => none
    | y :: more => some { l with word := y.1, raw := y.2, more := more } }
  s0.view.map fun v => { start := s0, view := v, words := [{ slot := j, addr := l.word, raw := l.raw, dec := decode l.raw }], stop := none, slot := j }

/-- The use of the TLBs by a fetch (R197). -/
def State.noteFetch (s : State) (core part : Nat) (l : List Quad) : State :=
  s.modPkg fun p => l.foldl (fun (p : Package) va => p.noteXlate core part va) p

/-- Fetch the next chain of a party. -/
noncomputable def State.nextChain (s : State) (core slot leader : Nat) : Option NextChain :=
  match s.pkg.wave? core slot with
  | none => none
  | some w =>
    match s.pkg.cast? core w.cast, w.issueCounter leader with
    | some c, some pc =>
      if w.park.isSome || (w.blockedAt leader).isSome then none
      else match (w.slices[leader]?).bind Slice.late with
      | some l => s.lateChain core slot leader w c l
      | none =>
        let get := s.pkg.fetch core slot c (w.activeOf (w.issuing leader))
        let j := slotOf c.codebase pc
        let base := pc - BitVec.ofNat 64 (4 * j)
        let r := fetchChain get (3 - j) j pc
        let packet := packetOf get base
        let win := (((w.slices[leader]?).map Slice.win).getD {}).enter base pc j
        let iss : Issue := { core := core, slot := slot, leader := leader, word := pc, pslot := j, epc := pc,
                             next := pc + BitVec.ofNat 64 (4 * r.1.length), raw := (r.1.head?.map ChainWord.raw).getD 0,
                             packet := packet, keeps := packetKeeps get base, ahead := readsAhead get c.codebase win base packet }
        let s0 := ({ s with cur := some iss } : State).noteFetch core c.partition (r.1.map ChainWord.addr)
        s0.view.map fun v => { start := s0, view := v, words := r.1, stop := r.2, slot := j }
    | _, _ => none

/-- The issue of the next chain of a party: a word alone is executed as it stands; the words of a longer chain are checked together, read the wave
as it stood before the chain (R74), and perform in slot order, a transfer last. -/
noncomputable def issueChain (run : Instr → State → Host.Outcome State Fault Refusal) (core slot leader : Nat) (s : State) :
    Host.Outcome State Fault Refusal :=
  match s.nextChain core slot leader with
  | none => .next s
  | some n =>
    match n.stop, n.words with
    | some (_, .hold h), _ => .next (n.start.holdNow n.view h n.slot)
    | some (va, _), _ => .next (n.start.trapNow n.view { cause := .access, addr := va, epc := some va } n.slot)
    | none, [{ dec := .ok i, .. }] => match run i n.start with
      | .next t => .next (closeChain n.start t n.view)
      | o => o
    | none, l =>
      match n.view.chainCheck l with
      | some (t, bad) => .next (n.start.trapNow n.view { cause := t, addr := checkAddr t bad.raw } bad.slot)
      | none =>
        let s1 := n.start.modCur fun q => { q with checked := true, src := some n.view.src }
        match runChain run (l.filter (!·.control) ++ l.filter (·.control)) s1 with
        | .next t => .next (closeChain n.start t n.view)
        | o => o

/-- After an issue, the ended walks of the wave are forgotten unless its word waits for further ones (R197). -/
def settleWalks (core slot leader : Nat) (s : State) : State :=
  if ((s.pkg.wave? core slot).bind fun w => w.blockedAt leader).any Blocked.isTranslate then s
  else s.modPkg fun p => p.dropWalks core (.wave core slot)

/-- The issue of the next chain of a party, and what follows it. -/
noncomputable def issueNext (run : Instr → State → Host.Outcome State Fault Refusal) (core slot leader : Nat) (s : State) :
    Host.Outcome State Fault Refusal :=
  match issueChain run core slot leader s with
  | .next t => .next (settleWalks core slot leader t)
  | o => o

end Sys2Proof.Machine
end

