-- ==== Sys2Proof/Machine/Flow.lean ====
section
/-! DEFINITION. Control flow and traps (R149 to R168, R370): B, BL, BS, BP, FLW, SYS, and the events that end a sleep, a wait or a promotion,
deliver a trap and write the host-message queue. -/

namespace Sys2Proof.Machine

/-! Transfers. -/

/-- The target of a relative branch: the word's address + 4 × offset (R152). -/
def View.target (v : View) {n : Nat} (o : BitVec n) : Quad := v.iss.word + 4 * immQuad o

/-- Send slices to an address. -/
def Wave.sendTo (w : Wave) (ks : List Nat) (pc : Quad) : Wave := w.modSlices ks fun _ s => { s with pc := pc }

/-- The issuing slices go to the target, or on to the next word. -/
def branch (s : State) (v : View) (taken : Bool) (target : Quad) : Out :=
  if taken then .jump (s.onWave v fun w => w.sendTo v.slices target) else .done s

/-- Write a scalar that a flow word names (BL, JLR). -/
def State.link (s : State) (v : View) : State := s.writeS v 63 v.iss.next

/-- BS: a 64-bit compare and a branch (Table 8.3). -/
def execBS (i : Instr) (a b : Nat) (o : BitVec 10) (c : Quad → Quad → Bool) (s : State) : Host.Outcome State Fault Refusal :=
  s.word i fun v s => branch s v (c (v.src.s a) (v.src.s b)) (v.target o)

/-- The active lanes of the issuing slices with the predicate (R153). -/
def View.trueLanes (v : View) (p : Nat) : LaneMask := v.act &&& v.pred p

/-- BP.ALL, ANY: all issuing slices go one way (R153); p0 is an unconditional branch. -/
def execBP (i : Instr) (w : BQ) (c : LaneMask → LaneMask → Bool) (s : State) : Host.Outcome State Fault Refusal :=
  s.word i fun v s => branch s v (w.p = 0 || c (v.trueLanes w.p.toNat) v.act) (v.target w.o)

/-- The lanes of a slice with the predicate. -/
def View.sliceTrue (v : View) (p k : Nat) : BitVec 4 := ((v.trueLanes p) >>> (4 * k)).setWidth 4

/-- What BP.SPLIT does to a slice (R154). -/
inductive SplitWay where
  | taken | not | mixed
  deriving DecidableEq, Repr

/-- The way of a slice with mask m and true lanes mt (R154). -/
def splitWay (m mt : BitVec 4) : SplitWay := if mt = 0 then .not else if mt = m then .taken else .mixed

/-- The mask of a slice of the wave as it stands. -/
def View.maskOf (v : View) (k : Nat) : BitVec 4 := ((v.now.slices[k]?).map Slice.mask).getD 0

/-- The leader of a set of slices is its lowest. -/
def leaderOf (ks : List Nat) : BitVec 5 := BitVec.ofNat 5 (ks.foldl min 31)

/-- Divide a party (R154): the slices that go to the target form one party and its other slices a second; each leader keeps the packet visits
of the party. -/
def Wave.divide (w : Wave) (go stay : List Nat) (win : Window) : Wave :=
  if go.isEmpty || stay.isEmpty then w
  else
    let set := fun (w : Wave) (ks : List Nat) =>
      (w.modSlices ks fun _ s => { s with leader := leaderOf ks }).modSlice (leaderOf ks).toNat fun s => { s with win := win }
    set (set w go) stay

/-- BP.SPLIT on a wave (R154). -/
def Wave.split (w : Wave) (v : View) (p : Nat) (target : Quad) (win : Window) : Wave :=
  let way := fun k => splitWay (v.maskOf k) (v.sliceTrue p k)
  let go := v.slices.filter fun k => way k ≠ .not
  let stay := (w.party v.iss.leader).filter fun k => !go.contains k
  let w := w.modSlices v.slices fun k s =>
    match way k with
    | .not => { s with pc := v.iss.next }
    | .taken => { s with pc := target }
    | .mixed =>
      let mt := v.sliceTrue p k
      { s with pc := target, mask := mt,
               stack := { addr := (v.iss.next >>> 2).setWidth 62, mask := s.mask &&& ~~~mt } :: { addr := 0, mask := s.mask } :: s.stack }
  w.divide go stay win

/-- A mixed slice has no room for its two entries (R154). -/
def View.splitFull (v : View) (p : Nat) : Bool :=
  v.slices.any fun k => splitWay (v.maskOf k) (v.sliceTrue p k) = .mixed && 4 < (((v.now.slices[k]?).map Slice.stack).getD []).length

/-! Joining. -/

/-- JOIN on one slice (R156). -/
def Slice.join (s : Slice) (next : Quad) : Slice :=
  match s.stack with
  | [] => { s with pc := next }
  | e :: l => if e.addr = 0 then { s with stack := l, mask := e.mask, pc := next }
    else { s with stack := l, mask := e.mask, pc := (e.addr.setWidth 64) <<< 2 }

/-- Some issuing slice holds stack entries. -/
def View.stacked (v : View) : Bool := v.slices.any fun k => !(((v.now.slices[k]?).map Slice.stack).getD []).isEmpty

/-- A party blocked at REGANG.ALL at X. -/
def Wave.regangAt (w : Wave) (leader : Nat) (x : Quad) : Bool :=
  match w.blockedAt leader with
  | some b => b.op = .regang && b.word = x
  | none => false

/-- Every live slice holds counter X and every party is blocked at a REGANG.ALL at X; the slices of `mine` and the party `me` stand there now (R157). -/
def Wave.regangReady (w : Wave) (x : Quad) (me : Option Nat) (mine : List Nat) : Bool :=
  (w.liveSlices.all fun k => mine.contains k || ((w.slices[k]?).map Slice.pc) = some x)
    && w.leaders.all fun l => me = some l || w.regangAt l x

/-- Unite slices (R157): one leader, nobody blocked; no latch of the parties stays within reach of the united party. -/
def Wave.unite (w : Wave) (ks : List Nat) (win : Window) : Wave :=
  let w := w.modSlices ks fun _ s =>
    { s with leader := leaderOf ks, blocked := none, late := none, latches := s.latches.map fun e => { e with packet := 0, seq := 0 } }
  w.modSlice (leaderOf ks).toNat fun s => { s with win := { win with packet := win.packet + 2 } }

/-- The slices at X go on with every lane active. -/
def Wave.goOn (w : Wave) (ks : List Nat) (x : Quad) : Wave := w.modSlices ks fun _ s => { s with mask := 15, pc := x + 4 }

/-- REGANG.ALL completes: every live slice unites, and the wait ends (R59, R157). -/
def Wave.regangAll (w : Wave) (x : Quad) (win : Window) : Wave :=
  { (w.goOn w.liveSlices x).unite w.liveSlices win with promoted := 0, promoHeld := 0 }

/-- After slices have ended, the parties that are left may all stand at one REGANG.ALL (R157). -/
def Wave.regangLeft (w : Wave) : Wave :=
  match (w.leaders.filterMap w.blockedAt).head? with
  | none => w
  | some b => if w.regangReady b.word none [] then w.regangAll b.word {} else w

/-- The parties whose issue counter is X, other than one (R157). -/
def Wave.partiesAt (w : Wave) (x : Quad) (me : Nat) : List Nat :=
  w.leaders.filter fun l => l ≠ me && w.issueCounter l = some x && ((w.blockedAt l).isNone || w.regangAt l x)

/-- REGANG.ANY unites the issuing party with the others at X (R157). -/
def Wave.regangAny (w : Wave) (x : Quad) (me : Nat) (mine : List Nat) (win : Window) : Wave :=
  let all := ((me :: w.partiesAt x me).flatMap w.party).foldl setInsert []
  let at_ := all.filter fun k => mine.contains k || ((w.slices[k]?).map Slice.pc) = some x
  (w.goOn at_ x).unite all win

/-- End slices (R159): the active mask of an ended slice stays as it was (notes/assumptions/108.md). -/
def Wave.endSlices (w : Wave) (ks : List Nat) : Wave :=
  w.modSlices ks fun _ s => { s with live := false, stack := [], hmode := false, sleep := 0 }

/-- EXIT (R159): the wave ends with its last slice. -/
def State.exit (s : State) (v : View) : State :=
  let s := s.onWave v fun w => (w.endSlices v.slices).regangLeft
  s.modPkg fun p => match p.wave? v.iss.core v.iss.slot with
    | some w => if w.liveSlices.isEmpty then p.endWave v.iss.core v.iss.slot else p
    | none => p

/-! Waits and their ends. -/

/-- What a party waits for counts towards WAITLIMIT (R60, R147, R157, R166, R185, R217, R279, R292, R301). -/
def BlockOp.timed : BlockOp → Bool
  | .fullEmpty _ => true
  | .qpush _ _ _ => true
  | .qpop _ _ => true
  | .rwait _ _ _ _ => true
  | .regang => true
  | .arrive _ _ _ => true
  | .bwait _ _ _ _ => true
  | .released _ _ _ _ _ => true
  | .bquery _ _ => false
  | .dcwait _ _ => true
  | .engwait _ _ => true
  | .create _ => true
  | .attach _ _ => false
  | .xchg _ m => m.isNone
  | .waitst => false
  | .hostmsg _ _ _ stored => stored
  | .mwait => true
  | .cueemit _ _ _ _ => false
  | .translate _ => false

/-- A wait that a trap must let end: its effect is already under way elsewhere. -/
def BlockOp.underWay : BlockOp → Bool
  | .xchg _ m => m.isSome
  | .cueemit _ _ _ sent => sent
  | .attach _ wait => !wait
  | _ => false

/-- A wait is abandoned (R60, R160): the token of an unmatched exchange is withdrawn (R147). -/
def Package.abandon (p : Package) (core slot leader : Nat) : Package :=
  match (p.wave? core slot).bind fun w => w.blockedAt leader with
  | some { op := .xchg _ none, .. } =>
    let key := p.keyOf core slot
    p.keepTokens fun t => !(t.src = key && t.leader = leader)
  | _ => p

/-- The slot of a word in its packet, from the cast's code base (R63). -/
def Cast.slotOf (c : Cast) (pc : Quad) : Nat := Machine.slotOf c.codebase pc

/-- Deliver a trap to a party that waits: EPC is the blocked word (R60, R160). -/
def Package.trapBlocked (k : Clock) (p : Package) (core slot leader : Nat) (cause : Cause) (word : Nat) (addr : Quad)
    (lanes : Option LaneMask) : Package :=
  match p.wave? core slot with
  | none => p
  | some w =>
    match w.blockedAt leader with
    | none => p
    | some b =>
      let d : Delivery := { core := core, slot := slot, leader := leader, slices := b.slices, cause := cause, word := word, epc := b.word,
                            addr := addr, lanes := lanes.getD (w.activeOf b.slices), window := false }
      (p.abandon core slot leader).deliver k d

/-- WAIT_TIMEOUT (R60): the count of a blocked wait exceeds WAITLIMIT. A party that handler mode keeps from issuing does not count (R150). -/
def waitTimeoutAt (core slot leader : Nat) (k : Clock) (p : Package) : Package :=
  match p.wave? core slot with
  | none => p
  | some w =>
    match w.blockedAt leader, p.cast? core w.cast with
    | some b, some c =>
      if b.op.timed && w.limit ≠ 0 && w.limit.toNat < b.count then
        let p := p.trapBlocked k core slot leader .waitTimeout (c.slotOf b.word) 0 none
        p.modWave core slot Wave.regangLeft
      else p
    | _, _ => p

/-- TRAP_DELIVERY (R160, R161): the first asynchronous trap that is due and can be taken goes to its party; with no live slice it is discarded. -/
def trapDeliveryAt (mid : Nat → Bool) (core slot : Nat) (k : Clock) (p : Package) : Package :=
  match p.wave? core slot with
  | none => p
  | some w =>
    if w.handling || w.park.isSome then p
    else match w.due with
      | [] => p
      | t :: rest =>
        let q := p.modWave core slot fun w => { w with due := rest }
        let leader := ((w.slices[t.leader]?).map fun s => s.leader.toNat).getD t.leader
        if (w.party leader).isEmpty then q.count (Config.errTRAPDROP + core) Config.max16
        else match w.blockedAt leader with
          | some b =>
            if b.op.underWay then p
            else
              let word := if t.cause = .xchgPartner then ((p.cast? core w.cast).map fun c => c.slotOf b.word).getD 0 else 0
              q.trapBlocked k core slot leader t.cause word t.addr (some t.lanes)
          | none =>
            match w.issueCounter leader with
            | none => p
            | some pc =>
              if mid leader || ((w.slices[leader]?).bind Slice.late).isSome then p
              else q.deliver k { core := core, slot := slot, leader := leader, slices := w.issuing leader, cause := t.cause, word := 0,
                                 epc := pc, addr := t.addr, lanes := t.lanes, window := false }

/-- SLEEP_END (R158): the count stands at its last company cycle. -/
def sleepEndAt (core slot slice : Nat) (p : Package) : Package :=
  p.modWave core slot fun w => w.modSlice slice fun s => if s.sleep = 1 then { s with sleep := 0 } else s

/-- The class of a wave: its cast's priority and its promotions (R58, R59). -/
def waveClass (c : Cast) (w : Wave) : Nat := min 3 (c.prio + w.promoted)

/-- WAVE_PROMOTION (R59): the 4,096 cycles of a promotion count from the latest one (notes/assumptions/109.md). -/
def wavePromotionAt (core slot : Nat) (p : Package) : Package :=
  match p.wave? core slot with
  | none => p
  | some w =>
    match p.cast? core w.cast with
    | none => p
    | some c =>
      if 256 ≤ w.starve then
        p.modWave core slot fun w =>
          if waveClass c w < 3 then { w with starve := 0, promoted := w.promoted + 1, promoHeld := 0 } else { w with starve := 0 }
      else p

/-- PROMOTION_END (R59). -/
def promotionEndAt (core slot : Nat) (p : Package) : Package :=
  p.modWave core slot fun w => if 0 < w.promoted && 4096 ≤ w.promoHeld then { w with promoted := 0, promoHeld := 0 } else w

/-! The host-message queue. -/

/-- A HOSTMSG that has reached step 2 (R166): the stores issued before it have been acknowledged. -/
def Wave.hostmsgReady (w : Wave) (leader : Nat) : Option (Quad × Quad × Nat) :=
  match w.blockedAt leader with
  | some { op := .hostmsg p0 p1 tag true, .. } => some (p0, p1, tag)
  | _ => none

/-- The first HOSTMSG of a partition in the order of core, bay and wave slot (R168). -/
def Package.firstHostmsg (p : Package) (k : Nat) : Option (Nat × Nat × Nat × Wave × Cast × Quad × Quad × Nat) :=
  (p.cores.zipIdx).findSome? fun x =>
    (x.1.ctx.waves.zipIdx).findSome? fun y =>
      match y.1 with
      | none => none
      | some w =>
        match p.cast? x.2 w.cast with
        | none => none
        | some c =>
          if c.partition = k then
            w.leaders.findSome? fun l => (w.hostmsgReady l).map fun m => (x.2, y.2, l, w, c, m.1, m.2.1, m.2.2)
          else none

/-- HMQ_ENTRY_WRITE (R166 to R168): a buffered device entry first, then one HOSTMSG; with the queue disabled a HOSTMSG is discarded. -/
def hmqEntryWriteAt (part : Nat) (k : Clock) (p : Package) : Package :=
  let q := p.part part
  let rest := fun p : Package => match p.firstHostmsg part with
    | none => p
    | some (core, slot, leader, w, c, p0, p1, tag) =>
      if q.hmqEnabled && !q.hmqRoom then p
      else
        let p := if q.hmqEnabled then
            p.hmqWrite part { kind := 1, castid := c.castid, castindex := c.castindex, info := BitVec.ofNat 16 tag, waveId := w.waveId,
                              core := core, tick := BitVec.ofNat 32 k.rtick, p0 := p0, p1 := p1 }
          else p
        p.modWave core slot fun w => w.endWait leader
  match q.hmqBuf with
  | e :: l =>
    if q.hmqRoom then ((p.modPart part fun q => { q with hmqBuf := l }).hmqWrite part e).later .now (.hmqEntryWrite part)
    else if q.hmqEnabled then p else rest p
  | [] => rest p

noncomputable section

/-! B, BL, BS, BP. -/

def execB (w : BJ) (s : State) : Host.Outcome State Fault Refusal :=
  State.word (.b w) (fun v s => branch s v true (v.target w.o)) s
def execBL (w : BJ) (s : State) : Host.Outcome State Fault Refusal :=
  State.word (.bl w) (fun v s => branch (s.link v) v true (v.target w.o)) s
def execBS_EQ (w : BC) (s : State) : Host.Outcome State Fault Refusal :=
  execBS (.bsEq w) w.a.toNat w.b.toNat w.o (fun a b => a = b) s
def execBS_NE (w : BC) (s : State) : Host.Outcome State Fault Refusal :=
  execBS (.bsNe w) w.a.toNat w.b.toNat w.o (fun a b => a ≠ b) s
def execBS_LT (w : BC) (s : State) : Host.Outcome State Fault Refusal :=
  execBS (.bsLt w) w.a.toNat w.b.toNat w.o (fun a b => a.slt b) s
def execBS_GE (w : BC) (s : State) : Host.Outcome State Fault Refusal :=
  execBS (.bsGe w) w.a.toNat w.b.toNat w.o (fun a b => b.sle a) s
def execBS_LTU (w : BC) (s : State) : Host.Outcome State Fault Refusal :=
  execBS (.bsLtu w) w.a.toNat w.b.toNat w.o (fun a b => a.ult b) s
def execBS_GEU (w : BC) (s : State) : Host.Outcome State Fault Refusal :=
  execBS (.bsGeu w) w.a.toNat w.b.toNat w.o (fun a b => b.ule a) s
def execBS_Z (w : BC1) (s : State) : Host.Outcome State Fault Refusal :=
  execBS (.bsZ w) w.a.toNat w.a.toNat w.o (fun a _ => a = 0) s
def execBS_NZ (w : BC1) (s : State) : Host.Outcome State Fault Refusal :=
  execBS (.bsNz w) w.a.toNat w.a.toNat w.o (fun a _ => a ≠ 0) s

def execBP_SPLIT (w : BQ) (s : State) : Host.Outcome State Fault Refusal :=
  State.word (.bpSplit w) (fun v s =>
    if w.p = 0 then branch s v true (v.target w.o)
    else if v.splitFull w.p.toNat then .trap { cause := .stack }
    else .jump (s.onWave v fun x => x.split v w.p.toNat (v.target w.o) (v.windowAfter (.bpSplit w) v.win))) s
def execBP_ALL (w : BQ) (s : State) : Host.Outcome State Fault Refusal :=
  execBP (.bpAll w) w (fun t a => t = a) s
def execBP_ANY (w : BQ) (s : State) : Host.Outcome State Fault Refusal :=
  execBP (.bpAny w) w (fun t _ => t ≠ 0) s
def execBP_UNI (w : BQ) (s : State) : Host.Outcome State Fault Refusal :=
  State.word (.bpUni w) (fun v s =>
    let t := v.trueLanes w.p.toNat
    if w.p = 0 then branch s v true (v.target w.o)
    else if t = 0 || t = v.act then branch s v (t = v.act) (v.target w.o)
    else .trap { cause := .diverge }) s

/-! FLW. -/

def execJR (w : S1) (s : State) : Host.Outcome State Fault Refusal :=
  State.word (.jr w) (fun v s =>
    let t := v.sc w.s.toNat
    if t.toNat % 4 ≠ 0 then .trap { cause := .misalign, addr := t } else branch s v true t) s
def execJLR (w : S1) (s : State) : Host.Outcome State Fault Refusal :=
  State.word (.jlr w) (fun v s =>
    let t := v.sc w.s.toNat
    if t.toNat % 4 ≠ 0 then .trap { cause := .misalign, addr := t } else branch (s.link v) v true t) s
def execJOIN (w : C0) (s : State) : Host.Outcome State Fault Refusal :=
  State.word (.join w) (fun v s => .jump (s.onWave v fun x => x.modSlices v.slices fun _ k => k.join v.iss.next)) s
def execREGANG_ALL (w : C0) (s : State) : Host.Outcome State Fault Refusal :=
  State.word (.regangAll w) (fun v s =>
    if v.stacked then .trap { cause := .stack }
    else if v.now.regangReady v.iss.word (some v.iss.leader) v.slices then
      .jump (s.onWave v fun x => x.regangAll v.iss.word (v.windowAfter (.regangAll w) v.win))
    else .block s .regang) s
def execREGANG_ANY (w : C0) (s : State) : Host.Outcome State Fault Refusal :=
  State.word (.regangAny w) (fun v s =>
    if v.stacked then .trap { cause := .stack }
    else .jump (s.onWave v fun x => x.regangAny v.iss.word v.iss.leader v.slices (v.windowAfter (.regangAny w) v.win))) s

/-- YIELD (R158): the promotion ends, and the wave takes the last place in the rotation of its class. -/
def execYIELD (w : C0) (s : State) : Host.Outcome State Fault Refusal :=
  State.word (.yield w) (fun v s =>
    .done ((s.onWave v fun x => { x with promoted := 0, promoHeld := 0 }).modPkg fun p =>
      p.modCore v.iss.core fun k => { k with rr := setAt k.rr (4 * (v.iss.slot / 16) + v.cast.prio) (v.iss.slot % 16) })) s

def execEXIT (w : C0) (s : State) : Host.Outcome State Fault Refusal :=
  State.word (.exit w) (fun v s => .jump (s.exit v)) s
def execNOP (w : C0) (s : State) : Host.Outcome State Fault Refusal :=
  State.word (.nop w) (fun _ s => .done s) s
def execSLEEP (w : FI) (s : State) : Host.Outcome State Fault Refusal :=
  State.word (.sleep w) (fun v s =>
    .done (s.onWave v fun x => x.modSlices v.slices fun _ k => { k with sleep := w.i.setWidth 18 <<< 4 })) s

/-! SYS. -/

def execTRAP (w : S1) (s : State) : Host.Outcome State Fault Refusal :=
  State.word (.trap w) (fun v s => .after s { cause := .software, addr := v.sc w.s.toNat }) s
def execTRET (w : FH) (s : State) : Host.Outcome State Fault Refusal :=
  State.word (.tret w) (fun v s => .jump (s.onWave v fun x => x.returnFromTrap v.slices (w.h = 1))) s
def execBRK (w : FI) (s : State) : Host.Outcome State Fault Refusal :=
  State.word (.brk w) (fun _ s => .after s { cause := .brk, addr := w.i.setWidth 64 }) s
def execHOSTMSG (w : FSI) (s : State) : Host.Outcome State Fault Refusal :=
  State.word (.hostmsg w) (fun v s => .block s (.hostmsg (v.sc w.s.toNat) (v.sc (w.s.toNat + 1)) w.i.toNat (v.now.outst = 0))) s

/-- CKPT (R370, R383): a recovery point of the partition is asked for. -/
def execCKPT (w : C0) (s : State) : Host.Outcome State Fault Refusal :=
  State.word (.ckpt w) (fun v s =>
    .done (s.modPkg fun p => p.modPart v.cast.partition fun q =>
      if q.recov then { q with recovery := { q.recovery with requested := true } } else q)) s

/-- STOPNOW (R370): the package stops at the company edge that ends this cycle. -/
def execSTOPNOW (w : FI) (s : State) : Host.Outcome State Fault Refusal :=
  State.word (.stopnow w) (fun v s =>
    .done (s.modPkg fun p => if p.win.stopen then
      { p with stopReq := p.stopReq ++ [(companyOf v.iss.core, v.iss.core, v.iss.slot, w.i.toNat)] } else p)) s

def execTRAP_DELIVERY (core slot : Nat) (s : State) : Host.Outcome State Fault Refusal :=
  s.event (trapDeliveryAt (s.pkg.midWindow core slot) core slot)

end

def execWAIT_TIMEOUT (core slot leader : Nat) (s : State) : Host.Outcome State Fault Refusal :=
  s.event (waitTimeoutAt core slot leader)

def execSLEEP_END (core slot slice : Nat) (s : State) : Host.Outcome State Fault Refusal :=
  s.event fun _ => sleepEndAt core slot slice

def execWAVE_PROMOTION (core slot : Nat) (s : State) : Host.Outcome State Fault Refusal :=
  s.event fun _ => wavePromotionAt core slot

def execPROMOTION_END (core slot : Nat) (s : State) : Host.Outcome State Fault Refusal :=
  s.event fun _ => promotionEndAt core slot

def execHMQ_ENTRY_WRITE (part : Nat) (s : State) : Host.Outcome State Fault Refusal :=
  s.event (hmqEntryWriteAt part)

end Sys2Proof.Machine
end

