-- ==== Sys2Proof/Machine/Scratch.lean ====
section
/-! DEFINITION. The scratchpad (R204 to R213, R224): bytes, full-empty bits, tags and poison of a cast's granules, LDS and STS in every form, the
commit of a blocked full-empty access, and a bank failure. A byte's place in a core is 4,096 × row + offset; a granule's number is its place ÷ 16. -/

namespace Sys2Proof.Machine

/-! Granules and bytes of a cast. -/

/-- The place of a cast-relative address (R204). -/
def Cast.spPlace (c : Cast) (a : Nat) : Nat := 4096 * c.sprow + a

/-- The number of a cast-relative granule in its core. -/
def Cast.granule (c : Cast) (g : Nat) : Nat := 256 * c.sprow + g

/-- Bytes of a cast from an address on. -/
def CoreCtx.spRead (x : CoreCtx) (c : Cast) (a n : Nat) : List Byte := Memory.readList x.sp (c.spPlace a) n

/-- FE of a cast-relative granule. -/
def CoreCtx.full (x : CoreCtx) (c : Cast) (g : Nat) : Bool := x.fe.contains (c.granule g)

/-- TAG of a cast-relative granule (Table 11.1). -/
def CoreCtx.tag (x : CoreCtx) (c : Cast) (g : Nat) : Nat := (tabGet x.tags (c.granule g)).getD 0

/-- Set FE of a granule. -/
def CoreCtx.setFe (x : CoreCtx) (c : Cast) (g : Nat) (full : Bool) : CoreCtx :=
  { x with fe := if full then setInsert x.fe (c.granule g) else x.fe.filter (· ≠ c.granule g) }

/-- Set TAG of a granule. -/
def CoreCtx.setTag (x : CoreCtx) (c : Cast) (g tag : Nat) : CoreCtx :=
  { x with tags := if tag = 0 then tabErase x.tags (c.granule g) else tabSet x.tags (c.granule g) tag }

/-- A granule is poisoned (R224). -/
def CoreCtx.poisoned (x : CoreCtx) (c : Cast) (g : Nat) : Bool := x.spPoison.contains (c.granule g)

/-- The granules that `n` bytes from an address on touch. -/
def granulesOf (a n : Nat) : List Nat := if n = 0 then [] else (List.range ((a + n - 1) / 16 - a / 16 + 1)).map (a / 16 + ·)

/-- Write bytes keyed by cast-relative address, in order; a granule overwritten whole loses its poison (R224). -/
def CoreCtx.spWrite (x : CoreCtx) (c : Cast) (bytes : List (Nat × Byte)) : CoreCtx :=
  let gs := bytes.foldl (fun l b => setInsert l (b.1 / 16)) []
  let whole := gs.filter fun g => (List.range 16).all fun i => bytes.any fun b => b.1 = 16 * g + i
  { x with sp := Memory.writePairs x.sp (bytes.map fun b => (c.spPlace b.1, b.2))
           spPoison := x.spPoison.filter fun g => !(whole.map c.granule).contains g }

/-- Bytes with their addresses. -/
def keyed (a : Nat) (l : List Byte) : List (Nat × Byte) := l.zipIdx.map fun b => (a + b.2, b.1)

/-! LDS and STS (R209 to R211). -/

/-- The address of lane j in the three forms of Table 3.8 (R65). -/
def View.spAddr (v : View) (w : MS) (size j : Nat) : Quad :=
  let b := v.src.s w.b.toNat
  match w.m.toNat with
  | 0 => b + (v.vec w.a.toNat j).setWidth 64
  | 1 => b + BitVec.ofNat 64 ((w.a.toNat * 128 + j) * size)
  | _ => b + BitVec.ofNat 64 (w.a.toNat * size)

/-- The lanes of a failing check, with the address of the lowest (R211). -/
def laneTrap (cause : Cause) (lanes : List LaneAddr) : Option Trap :=
  match lanes with
  | [] => none
  | l :: _ => some { cause := cause, addr := l.addr, lanes := some (laneMask fun j => lanes.any fun x => x.lane = j) }

/-- The lanes touch a granule with a tag that a test admits. -/
def CoreCtx.touches (x : CoreCtx) (c : Cast) (a size : Nat) (p : Nat → Bool) : Bool :=
  (granulesOf a size).any fun g => p (x.tag c g)

/-- The checks of R211 in their order; `plain` is a plain LDS. -/
def CoreCtx.spCheck (x : CoreCtx) (c : Cast) (size : Nat) (plain : Bool) (lanes : List LaneAddr) : Option Trap :=
  (laneTrap .misalign (lanes.filter fun l => l.addr.toNat % size ≠ 0)).or
    ((laneTrap .spRange (lanes.filter fun l => c.spsize.toNat < l.addr.toNat + size)).or
      (if plain then none
       else (laneTrap .barrierClobber (lanes.filter fun l => x.touches c l.addr.toNat size (· = 1))).or
        (laneTrap .queueState (lanes.filter fun l => x.touches c l.addr.toNat size (2 ≤ ·)))))

/-- The granules of an access. -/
def FeAccess.granules (a : FeAccess) : List Nat :=
  a.lanes.foldl (fun l x => (granulesOf x.addr.toNat a.size).foldl setInsert l) []

/-- The commit condition (Table 11.2). -/
def CoreCtx.commits (x : CoreCtx) (c : Cast) (a : FeAccess) : Bool :=
  if a.store then a.fe ≠ 2 || a.granules.all fun g => !x.full c g
  else a.fe = 0 || a.granules.all fun g => x.full c g

/-- FE after the commit (Table 11.2): unchanged, or the value that every granule takes. -/
def FeAccess.feAfter (a : FeAccess) : Option Bool :=
  match a.store, a.fe with
  | _, 0 => none
  | false, 1 => some true
  | false, _ => some false
  | true, 3 => some false
  | true, _ => some true

/-- The core's side of a commit: the stores in ascending lane order, then FE of every granule. -/
def CoreCtx.commit (x : CoreCtx) (c : Cast) (a : FeAccess) : CoreCtx :=
  let x := if a.store then x.spWrite c ((a.lanes.zip a.data).flatMap fun l => keyed l.1.addr.toNat l.2) else x
  match a.feAfter with
  | none => x
  | some b => a.granules.foldl (fun x g => x.setFe c g b) x

/-- The lanes of a load that read a poisoned granule (R224). -/
def CoreCtx.poisonedLanes (x : CoreCtx) (c : Cast) (a : FeAccess) : List LaneAddr :=
  if a.store then [] else a.lanes.filter fun l => (granulesOf l.addr.toNat a.size).any fun g => x.poisoned c g

/-- The wave's side of a commit: a load's elements in the lanes that are not poisoned; POISON falls due for the others (R160). -/
def Wave.loaded (w : Wave) (x : CoreCtx) (c : Cast) (a : FeAccess) (leader : Nat) : Wave :=
  if a.store then w
  else
    let bad := x.poisonedLanes c a
    let good := a.lanes.filter fun l => !bad.contains l
    let w := w.setElems (good.flatMap fun l => regsOfBytes a.reg l.lane (x.spRead c l.addr.toNat a.size))
    match bad with
    | [] => w
    | l :: _ => { w with due := w.due ++ [{ cause := .poison, addr := l.addr, lanes := laneMask fun j => bad.any fun y => y.lane = j,
                                            leader := leader }] }

/-- A commit in one step (R210). -/
def Package.spCommit (p : Package) (core slot leader : Nat) (c : Cast) (a : FeAccess) : Package :=
  let x := (p.core core).ctx
  (p.modWave core slot fun w =>
    let w := w.loaded x c a leader
    if a.store || a.fe = 0 then w else w.acquireCast).modCtx core fun x => x.commit c a

/-- An LDS or STS: the checks, then the commit or the wait (R210). -/
def execScratch (i : Instr) (w : MS) (store : Bool) (s : State) : Host.Outcome State Fault Refusal :=
  s.word i fun v s =>
    let size := 2 ^ (w.z.toNat + 1)
    let lanes := v.lanes.map fun j => ({ lane := j, addr := v.spAddr w size j } : LaneAddr)
    let x := (s.pkg.core v.iss.core).ctx
    match x.spCheck v.cast size (!store && w.e = 0) lanes with
    | some t => .trap t
    | none =>
      let a : FeAccess := { store := store, fe := w.e.toNat, size := size, reg := w.v.toNat, lanes := lanes,
                            data := if store then lanes.map fun l => v.dataBytes w.v.toNat size l.lane else [] }
      if x.commits v.cast a then .done (s.modPkg fun p => p.spCommit v.iss.core v.iss.slot v.iss.leader v.cast a)
      else .block s (.fullEmpty a)

/-- FULL_EMPTY_COMMIT (R210, R212): a blocked access commits once its condition holds. -/
def fullEmptyCommitAt (core slot leader : Nat) (p : Package) : Package :=
  match p.wave? core slot with
  | none => p
  | some w =>
    match w.blockedAt leader, p.cast? core w.cast with
    | some { op := .fullEmpty a, .. }, some c =>
      if (p.core core).ctx.commits c a then
        (p.spCommit core slot leader c a).modWave core slot fun w => w.endWait leader
      else p
    | _, _ => p

/-- The cast that owns a row of a core. -/
def CoreCtx.castOfRow (x : CoreCtx) (row : Nat) : Option Cast :=
  (x.casts.filterMap id).find? fun c => c.sprow ≤ row && row < c.sprow + c.rows

/-- The granules of a row that lie in a bank group: granule i is in bank i XOR the row's number in its cast (R204, R224). -/
def groupGranules (rel group : Nat) : List Nat := (List.range 256).filter fun i => (i ^^^ (rel % 256)) / 16 = group

/-- BANK_FAILURE (R224, R386): two banks of a group fail in a row; its granules there are poisoned, and a partition with recovery points rolls back. -/
def bankFailureAt (core row group : Nat) (p : Package) : Package :=
  let owner := (p.core core).ctx.castOfRow row
  let rel := match owner with
    | some c => row - c.sprow
    | none => row
  let p := p.modCtx core fun x => { x with spPoison := (groupGranules rel group).foldl (fun l i => setInsert l (256 * row + i)) x.spPoison }
  let p := p.count (Config.errUNCORR + core) Config.max32
  match owner with
  | some c => p.errorReaches c.partition (0x2000 + 16 * core + group)
  | none => p

noncomputable section

def execLDS (w : MS) (s : State) : Host.Outcome State Fault Refusal := execScratch (.lds w) w false s
def execSTS (w : MS) (s : State) : Host.Outcome State Fault Refusal := execScratch (.sts w) w true s

end

def execFULL_EMPTY_COMMIT (core slot leader : Nat) (s : State) : Host.Outcome State Fault Refusal :=
  s.event fun _ => fullEmptyCommitAt core slot leader

def execBANK_FAILURE (core row group : Nat) (s : State) : Host.Outcome State Fault Refusal := s.event fun _ => bankFailureAt core row group

end Sys2Proof.Machine
end

