-- ==== Sys2Proof/Machine/Barrier.lean ====
section
/-! DEFINITION. CST (R47 to R52, R214 to R221, R336 to R339): ATTACH, DETACH, the barrier objects and their words, the steps that the
queue-and-barrier unit applies at the end of each company cycle (R50), and the events that retry, break and release. -/

namespace Sys2Proof.Machine

/-- A barrier object (Table 11.4). -/
structure Bar where
  phase : BitVec 32
  arrived : Nat
  expected : Nat
  nextexp : Nat
  track : Bool
  killed : Bool
  owned : Bool
  kend : Bool
  owner : Nat
  deriving DecidableEq, Repr

/-- A barrier from its granule. -/
def Bar.ofBytes (l : List Byte) : Bar :=
  let n := ofLe l
  { phase := BitVec.ofNat 32 n, arrived := bits n 32 16, expected := bits n 48 16, nextexp := bits n 64 16, track := bits n 86 1 = 1,
    killed := bits n 87 1 = 1, owned := bits n 88 1 = 1, kend := bits n 89 1 = 1, owner := bits n 90 6 }

/-- A flag at a bit position. -/
def bitAt (b : Bool) (i : Nat) : Nat := if b then 2 ^ i else 0

/-- The granule of a barrier. -/
def Bar.bytes (b : Bar) : List Byte :=
  leBytes 16 (b.phase.toNat + b.arrived % 65536 * 2 ^ 32 + b.expected % 65536 * 2 ^ 48 + b.nextexp % 65536 * 2 ^ 64 + bitAt b.track 86
    + bitAt b.killed 87 + bitAt b.owned 88 + bitAt b.kend 89 + b.owner % 64 * 2 ^ 90)

/-- The barrier in a cast's granule. -/
def CoreCtx.bar (x : CoreCtx) (c : Cast) (g : Nat) : Bar := Bar.ofBytes (x.spRead c (16 * g) 16)

/-- The barrier in a granule, if it is one. -/
def CoreCtx.bar? (x : CoreCtx) (c : Cast) (g : Nat) : Option Bar := if x.tag c g = 1 then some (x.bar c g) else none

/-- Write a barrier back. -/
def CoreCtx.setBar (x : CoreCtx) (c : Cast) (g : Nat) (b : Bar) : CoreCtx := x.spWrite c (keyed (16 * g) b.bytes)

/-- The granules of a cast's barriers, ascending. -/
def CoreCtx.barriers (x : CoreCtx) (c : Cast) : List Nat :=
  x.tags.filterMap fun t => if t.2 = 1 && 256 * c.sprow ≤ t.1 && t.1 < 256 * (c.sprow + c.rows) then some (t.1 - 256 * c.sprow) else none

/-- Change the waves of a cast. -/
def CoreCtx.mapWaves (x : CoreCtx) (cslot : Nat) (f : Wave → Wave) : CoreCtx :=
  { x with waves := x.waves.map fun o => o.map fun w => if w.cast = cslot then f w else w }

/-- The status of a barrier word (R215, R221). -/
def barStatus (phase : BitVec 32) (killed : Bool) : Quad := BitVec.ofNat 64 (phase.toNat + bitAt killed 32)

/-- A phase has completed (R218). -/
def phaseDone (now named : BitVec 32) : Bool := 1 ≤ (now - named).toNat && (now - named).toNat ≤ 2147483648

/-- The cast-relative granule of an address. -/
def granuleOf (a : Quad) : Nat := a.toNat / 16

/-- A 19-bit granule number. -/
def granuleNo (g : Nat) : BitVec 19 := BitVec.ofNat 19 g

/-- A party waits on the barrier's phase, or holds an arrival for it or has just issued one: address, destination, BSYNC, and the phase awaited. -/
def Wave.barWait? (w : Wave) (g leader : Nat) : Option (Nat × Option (BitVec 32) × Bool) :=
  match w.blockedAt leader with
  | some { op := .bwait a ph sync d, .. } => if granuleOf a = g then some (d, some ph, sync) else none
  | some { op := .arrive a sync d, .. } => if granuleOf a = g then some (d, none, sync) else none
  | _ => none

/-- Replace what a blocked party waits for. -/
def Wave.setOp (w : Wave) (leader : Nat) (op : BlockOp) : Wave :=
  w.modSlice leader fun s => { s with blocked := s.blocked.map fun b => { b with op := op } }

/-- An arrival of a wave is held (R217): a NEXT joiner before its first phase, a second arrival in a phase of a tracking barrier, or one too many. -/
def Wave.mustHold (w : Wave) (g : Nat) (b : Bar) : Bool :=
  if b.track then w.joinNext.contains g || w.arrivedAt.contains { granule := granuleNo g, phase := b.phase }
  else b.expected < b.arrived + 1

/-- A wave's arrival recorded in the current phase. -/
def Wave.noteArrival (w : Wave) (g : Nat) (b : Bar) : Wave :=
  if b.track then { w with arrivedAt := { granule := granuleNo g, phase := b.phase } :: w.arrivedAt.filter (·.granule ≠ granuleNo g) } else w

/-- The leader of the wave's party that waits on a barrier. -/
def Wave.barLeader? (w : Wave) (g : Nat) : Option (Nat × Nat × Option (BitVec 32) × Bool) :=
  w.leaders.findSome? fun l => (w.barWait? g l).map fun x => (l, x.1, x.2.1, x.2.2)

/-- A SYNCWAIT record that names a granule is cleared. -/
def Wave.clearSync (w : Wave) (g : Nat) : Wave :=
  if (w.syncwait.map PhaseRec.granule) = some (granuleNo g) then { w with syncwait := none } else w

/-- A HELD record that names a granule is cleared. -/
def Wave.clearHeld (w : Wave) (g : Nat) : Wave :=
  if (w.held.map PhaseRec.granule) = some (granuleNo g) then { w with held := none } else w

/-! The steps of R50. -/

/-- A completed phase frees a waiting wave 6 cycles later (R26, R218); `cyc` is the cycle of the completion. -/
def Wave.phaseOver (w : Wave) (g : Nat) (b : Bar) (cyc : Nat) : Wave :=
  let w := { w with joinNext := w.joinNext.filter (· ≠ g) }
  match w.barLeader? g with
  | some (l, d, some ph, sync) =>
    if phaseDone b.phase ph then w.setOp l (.released d (barStatus ph false) false sync (cyc + 6)) else w
  | _ => w

/-- An arrival is recorded in the current phase (R217): a BSYNC goes on to wait for this phase; a BARRIVE completes, and one that was held ends a wait (R59). -/
def Wave.recordArrival (w : Wave) (l : Nat) (d : Nat) (sync : Bool) (g : Nat) (b : Bar) : Wave :=
  let heldOne := w.held.isSome
  let w := { (w.noteArrival g b) with held := none }
  if sync then
    { (w.setOp l (.bwait (BitVec.ofNat 64 (16 * g)) b.phase true d)) with syncwait := some { granule := granuleNo g, phase := b.phase } }
  else if heldOne then (w.setS d (barStatus b.phase false)).endWait l
  else (w.setS d (barStatus b.phase false)).unblock l

/-- The waves of a cast whose arrival at a barrier a test admits arrive in turn, in ascending bay and slot order; the arrivals that must be held are (R50 step 1, R217). -/
def CoreCtx.recordAll (x : CoreCtx) (cslot : Nat) (g : Nat) (b : Bar) (which : Wave → Bool) : CoreCtx × Bar :=
  (x.slotsOf cslot).foldl (fun r s =>
    match (r.1.waves.getD s none) with
    | none => r
    | some w =>
      match w.barLeader? g with
      | some (l, d, none, sync) =>
        if !which w then r
        else if w.mustHold g r.2 then
          ({ r.1 with waves := setAt r.1.waves s (some { w with held := some { granule := granuleNo g, phase := r.2.phase } }) }, r.2)
        else ({ r.1 with waves := setAt r.1.waves s (some (w.recordArrival l d sync g r.2)) }, { r.2 with arrived := r.2.arrived + 1 })
      | _ => r) (x, b)

/-- Record the held copy arrivals of a granule that the phase has room for (R217, R219): the granules still held, and the barrier. -/
def recordCopies (g : Nat) : List Nat → Bar → List Nat × Bar
  | [], b => ([], b)
  | x :: l, b =>
    if x = g && b.arrived + 1 ≤ b.expected then recordCopies g l { b with arrived := b.arrived + 1 }
    else
      let r := recordCopies g l b
      (x :: r.1, r.2)

/-- The phase advance (R50 step 5): the held arrivals of the waves, then those of the copies. -/
def CoreCtx.advancePhase (x : CoreCtx) (cslot : Nat) (c : Cast) (g : Nat) (b : Bar) (cyc : Nat) : CoreCtx :=
  let b := { b with phase := b.phase + 1, arrived := 0, expected := b.nextexp }
  let x := x.mapWaves cslot fun w => w.phaseOver g b cyc
  let r := x.recordAll cslot g b fun w => w.held.isSome
  let copies := recordCopies g (((r.1.casts.getD cslot none).map Cast.heldCopies).getD []) r.2
  { (r.1.setBar c g copies.2) with casts := modAt r.1.casts cslot (Option.map fun q => { q with heldCopies := copies.1 }) }

/-- The completion check of one barrier (R50 step 4). -/
def CoreCtx.checkBarrier (x : CoreCtx) (cslot : Nat) (c : Cast) (cyc g : Nat) : CoreCtx :=
  let b := x.bar c g
  if !b.killed && b.arrived = b.expected then x.advancePhase cslot c g b cyc else x

/-- A removal of an ended wave (R49, R50 step 2, R220): the expected counts, and its arrival in the current phase. -/
def CoreCtx.removeFrom (x : CoreCtx) (c : Cast) (arrivedAt : List PhaseRec) (joinNext : List Nat) (g : Nat) : CoreCtx :=
  let b := x.bar c g
  if !b.track then x
  else
    let member := !joinNext.contains g
    let came := arrivedAt.contains { granule := granuleNo g, phase := b.phase }
    x.setBar c g { b with expected := if member then b.expected - 1 else b.expected, nextexp := b.nextexp - 1,
                          arrived := if came then b.arrived - 1 else b.arrived }

/-- New waves join the tracking barriers of their cast (R48, R50 step 3). -/
def CoreCtx.joinBarriers (x : CoreCtx) (c : Cast) (n : Nat) (now : Bool) : CoreCtx :=
  (x.barriers c).foldl (fun x g =>
    let b := x.bar c g
    if b.track then x.setBar c g { b with expected := if now then b.expected + n else b.expected, nextexp := b.nextexp + n } else x) x

/-- The tracking barriers of a cast. -/
def CoreCtx.tracking (x : CoreCtx) (c : Cast) : List Nat := (x.barriers c).filter fun g => (x.bar c g).track

/-- A completion arrival of a copy (R219): dropped, and counted, at a tracking or killed barrier or another granule;
one that would exceed EXPECTED is held until the phase advances, as a wave's is (R217). -/
def Package.copyArrival (p : Package) (core cslot g : Nat) : Package :=
  match p.cast? core cslot with
  | none => p
  | some c =>
    match (p.core core).ctx.bar? c g with
    | some b =>
      if b.track || b.killed then p.count (Config.errKILLDROP + core) Config.max16
      else if b.expected < b.arrived + 1 then p.modCast core cslot fun c => { c with heldCopies := c.heldCopies ++ [g] }
      else p.modCtx core fun x => x.setBar c g { b with arrived := b.arrived + 1 }
    | none => p.count (Config.errKILLDROP + core) Config.max16

/-- The kill of a barrier (R221): every waiting or holding wave is released, or ends, 6 cycles later. -/
def CoreCtx.killBarrier (x : CoreCtx) (cslot : Nat) (c : Cast) (g cyc : Nat) : CoreCtx :=
  match x.bar? c g with
  | none => x
  | some b =>
    let x := x.setBar c g { b with killed := true }
    x.mapWaves cslot fun w =>
      let w := match w.barLeader? g with
        | some (l, d, _, _) => w.setOp l (.released d (barStatus b.phase true) b.kend false (cyc + 6))
        | none => w
      (w.clearSync g).clearHeld g

/-- The copy arrivals held for a killed barrier are dropped and counted (R219, R221, notes/assumptions/111.md). -/
def Package.dropHeldCopies (p : Package) (core cslot g : Nat) : Package :=
  let l := ((p.cast? core cslot).map Cast.heldCopies).getD []
  (l.filter (· = g)).foldl (fun (p : Package) _ => p.count (Config.errKILLDROP + core) Config.max16)
    (p.modCast core cslot fun c => { c with heldCopies := l.filter (· ≠ g) })

/-- A kill with what it drops (R221). -/
def Package.killBarrier (p : Package) (core cslot : Nat) (c : Cast) (g cyc : Nat) : Package :=
  (p.modCtx core fun x => x.killBarrier cslot c g cyc).dropHeldCopies core cslot g

/-- The OWNED barriers whose owner a wave was, still live (R221). -/
def CoreCtx.ownedBy (x : CoreCtx) (c : Cast) (waveId : BitVec 6) : List Nat :=
  (x.barriers c).filter fun g => (x.bar c g).owned && !(x.bar c g).killed && (x.bar c g).owner = waveId.toNat

/-! ATTACH (R336, R337). -/

/-- The status word of an ATTACH. -/
def attachStatus (code nwaves : Nat) : Quad := BitVec.ofNat 64 (code + 256 * nwaves)

/-- The decision on a request (R337): a refusal's code, or the runs of units. -/
def CoreCtx.attachDecide (x : CoreCtx) (c : Cast) (a : AttachArgs) (owner : Nat) : Except Nat (List Nat) :=
  if c.maxw < c.nwaves.toNat + a.n then .error 3
  else if (x.waves.filter Option.isNone).length < a.n then .error 1
  else if !x.rolesOk a.role a.n then .error 2
  else match freeRuns x.units (c.regcount.toNat / 8) owner a.n with
    | none => .error 4
    | some l => .ok l

/-- One new wave of a grant. -/
def CoreCtx.addWave (x : CoreCtx) (cslot : Nat) (c : Cast) (a : AttachArgs) (issuer : BitVec 6) (rank unit : Nat) (joins : List Nat)
    (start : Nat) : CoreCtx :=
  match pickSlot x.waves with
  | none => x
  | some s =>
    let size := c.regcount.toNat / 8
    let w := newWave (x.freeWaveId cslot) cslot a.role ((List.range size).map (unit + ·)) c.regcount.toNat a.entry
      [issuer.setWidth 64, BitVec.ofNat 64 rank] c.cseq start
    { x with waves := setAt x.waves s (some { w with joinNext := if a.now then [] else joins }),
             units := takeUnits x.units unit size cslot }

/-- A grant (R47, R337): the waves, NWAVES, and the tracking barriers change together. -/
def Package.attachGrant (p : Package) (core cslot : Nat) (c : Cast) (a : AttachArgs) (issuer : BitVec 6) (runs : List Nat) (start : Nat) :
    Package :=
  let p := p.modCtx core fun x =>
    let joins := x.tracking c
    let x := (runs.zipIdx).foldl (fun (x : CoreCtx) (r : Nat × Nat) => x.addWave cslot c a issuer r.2 r.1 joins start) x
    x.joinBarriers c a.n a.now
  p.modCast core cslot fun c => { c with nwaves := c.nwaves + BitVec.ofNat 7 a.n }

/-- Decide the request of a blocked ATTACH (R337); ATTACH.WAIT goes on waiting after status 1, 2 or 4. -/
def Package.decideAttach (p : Package) (core slot cyc : Nat) : Package :=
  match p.wave? core slot with
  | none => p
  | some w =>
    match w.blockedAt w.sole, p.cast? core w.cast with
    | some { op := .attach a wait, .. }, some c =>
      if cyc < a.due then p
      else
        let answer := fun (p : Package) (code nwaves : Nat) =>
          p.modWave core slot fun w => (w.setS a.dest (attachStatus code nwaves)).endWait w.sole
        match (p.core core).ctx.attachDecide c a w.cast with
        | .ok runs => answer (p.attachGrant core w.cast c a w.waveId runs (cyc + 4)) 0 (c.nwaves.toNat + a.n)
        | .error code => if wait && code ≠ 3 then p else answer p code c.nwaves.toNat
    | _, _ => p

/-- The blocked ATTACH.WAIT of a wave after its first decision. -/
def Wave.attachWaiting (w : Wave) (cyc : Nat) : Option AttachArgs :=
  match w.blockedAt w.sole with
  | some { op := .attach a true, .. } => if a.due ≤ cyc then some a else none
  | _ => none

/-- The units that a cast holds, as if they were free (R338). -/
def CoreCtx.unitsWithout (x : CoreCtx) (cslot : Nat) : List (Option Nat) := x.units.map (Option.filter fun o => o ≠ cslot)

/-- An ATTACH.WAIT of cast A gives an edge to cast B (R338). -/
def CoreCtx.waitsFor (x : CoreCtx) (c : Cast) (a : AttachArgs) (cslot other : Nat) : Bool :=
  let size := c.regcount.toNat / 8
  cslot ≠ other && (freeRuns x.units size cslot a.n).isNone && (freeRuns (x.unitsWithout other) size cslot a.n).isSome

/-- The edges of the waits-for relation: wave slot, its cast, the cast it waits for (R338). -/
def CoreCtx.waitEdges (x : CoreCtx) (cyc : Nat) : List (Nat × Nat × Nat) :=
  (List.range 64).flatMap fun s => match x.waves.getD s none with
    | none => []
    | some w => match w.attachWaiting cyc, x.casts.getD w.cast none with
      | some a, some c => ((List.range 64).filter fun o => (x.casts.getD o none).isSome && x.waitsFor c a w.cast o).map fun o => (s, w.cast, o)
      | _, _ => []

/-- The casts that a cast reaches along edges in at most `n` steps. -/
def reach (edges : List (Nat × Nat × Nat)) : Nat → List Nat → List Nat
  | 0, l => l
  | n + 1, l => reach edges n (edges.foldl (fun l e => if l.contains e.2.1 && !l.contains e.2.2 then e.2.2 :: l else l) l)

/-- Cast b reaches cast a. -/
def reaches (edges : List (Nat × Nat × Nat)) (b a : Nat) : Bool := (reach edges 64 [b]).contains a

/-- The order of R52: CASTINDEX, then CASTID. -/
def castRank (c : Cast) : Nat := c.castindex.toNat * 16384 + c.castid.toNat

/-- The wait that the allocator fails (R52, R338): of the casts on a cycle the one with the highest rank, its first wait with an edge of the cycle. -/
def CoreCtx.cycleVictim (x : CoreCtx) (cyc : Nat) : Option (Nat × AttachArgs × Cast) :=
  let edges := x.waitEdges cyc
  let on := edges.filter fun e => reaches edges e.2.2 e.2.1
  let rank := fun e : Nat × Nat × Nat => ((x.casts.getD e.2.1 none).map castRank).getD 0
  let best := on.foldl (fun (b : Option (Nat × Nat × Nat)) e => match b with
    | none => some e
    | some d => if rank d < rank e then some e else some d) none
  best.bind fun e => match x.waves.getD e.1 none, x.casts.getD e.2.1 none with
    | some w, some c => (w.attachWaiting cyc).map fun a => (e.1, a, c)
    | _, _ => none

/-- ATTACH_CYCLE_BREAK (R52, R338): that wait takes status 5, and its wave goes on. -/
def Package.breakAttachCycle (p : Package) (core cyc : Nat) : Package :=
  match (p.core core).ctx.cycleVictim cyc with
  | none => p
  | some (slot, a, c) => p.modWave core slot fun w => (w.setS a.dest (attachStatus 5 c.nwaves.toNat)).endWait w.sole

/-! The end of a company cycle. -/

/-- The barrier that a BINIT makes (R216): it clears what waves remember of the granule. -/
def CoreCtx.applyInit (x : CoreCtx) (cslot : Nat) (c : Cast) (g : Nat) (bytes : List Byte) : CoreCtx :=
  (((x.spWrite c (keyed (16 * g) bytes)).setTag c g 1).setFe c g true).mapWaves cslot fun y =>
    { (y.clearSync g) with joinNext := y.joinNext.filter (· ≠ g), arrivedAt := y.arrivedAt.filter (·.granule ≠ granuleNo g) }

/-- A barrier word that needs no arrival (R218, R221): at a killed barrier, or with its phase over, it ends 4 cycles after its issue; a BSYNC whose arrival stands waits
for that phase. -/
def Wave.barrierTurn (w : Wave) (g : Nat) (b : Bar) (cyc : Nat) : Wave :=
  let wait := fun (l d : Nat) (ph : BitVec 32) (sync : Bool) =>
    if phaseDone b.phase ph then w.setOp l (.released d (barStatus ph false) false sync (cyc + 4))
    else w.setOp l (.bwait (BitVec.ofNat 64 (16 * g)) ph sync d)
  match w.barLeader? g with
  | none => w
  | some (l, d, ph?, sync) =>
    if b.killed then (if ph?.isNone && w.held.isSome then w else w.setOp l (.released d (barStatus b.phase true) false sync (cyc + 4)))
    else match ph? with
      | some ph => wait l d ph sync
      | none =>
        if w.held.isSome || !sync then w
        else match w.syncwait.filter (·.granule = granuleNo g) with
          | some r => wait l d r.phase true
          | none => w

/-- The wave arrivals of a cycle at one barrier (R50 step 1). -/
def CoreCtx.arriveAll (x : CoreCtx) (cslot : Nat) (c : Cast) (cyc g : Nat) : CoreCtx :=
  let b := x.bar c g
  let x := x.mapWaves cslot fun w => w.barrierTurn g b cyc
  if b.killed then x
  else
    let r := x.recordAll cslot g b fun w => w.held.isNone
    if r.2.arrived = b.arrived then r.1 else r.1.setBar c g r.2

/-- A count of live waves that a MOVC read in this cycle becomes the count after the cycle's changes (R88). -/
def Wave.settleCount (w : Wave) (n : Quad) : Wave :=
  match w.countRead with
  | none => w
  | some r =>
    if r.value = n then w
    else
      let w := match r.dest with
        | some d => if w.s d = r.value then w.setS d n else w
        | none => w
      w.modSlices (w.party r.leader) fun _ s => { s with latches := s.latches.map fun e =>
        if e.packet = r.packet && e.seq = r.seq && e.val = .scalar r.value then { e with val := .scalar n } else e }

/-- BQUERY reads the barrier as it stands (R215). -/
def Package.answerQueries (p : Package) (core : Nat) : Package :=
  (List.range 64).foldl (fun p s =>
    match p.wave? core s with
    | none => p
    | some w =>
      match w.blockedAt w.sole, p.cast? core w.cast with
      | some { op := .bquery a d, .. }, some c =>
        let n := ofLe ((p.core core).ctx.spRead c a.toNat 16)
        p.modWave core s fun w => ((w.setS d (BitVec.ofNat 64 n)).setS (d + 1) (BitVec.ofNat 64 (n / 2 ^ 64))).endWait w.sole
      | _, _ => p) p

/-- The running slot of a copy's arrival (R50 step 1). -/
def BarrierEvent.slotRank : BarrierEvent → Nat
  | .copyArrival _ _ s => s
  | _ => 0

/-- What the queue-and-barrier unit of a core applies at the end of company cycle `cyc`: BINITs (R216), then the steps of R50; kills come after step 5 (R221), and
queries last (R215; one in the cycle of a kill sees it: notes/assumptions/112.md). -/
def Package.barrierCycle (p : Package) (core cyc : Nat) : Package :=
  let evs := (p.core core).barrier
  let p := p.modCore core fun k => { k with barrier := [] }
  let eachCast := fun (f : Nat → Cast → CoreCtx → CoreCtx) (p : Package) => (List.range 64).foldl (fun (p : Package) cs => match p.cast? core cs with
    | some c => p.modCtx core (f cs c)
    | none => p) p
  let p := evs.foldl (fun (p : Package) e => match e with
    | .init cs g bytes => match p.cast? core cs with
      | some c => p.modCtx core fun x => x.applyInit cs c g bytes
      | none => p
    | _ => p) p
  let p := eachCast (fun cs c x => (x.barriers c).foldl (fun x g => x.arriveAll cs c cyc g) x) p
  let p := (byRank BarrierEvent.slotRank evs).foldl (fun (p : Package) e => match e with
    | .copyArrival cs g _ => p.copyArrival core cs g
    | _ => p) p
  let p := evs.foldl (fun (p : Package) e => match e with
    | .remove cs id arr joins => match p.cast? core cs with
      | some c => (p.modCtx core fun x => (x.barriers c).foldl (fun x g => x.removeFrom c arr joins g) x).leaveCast core cs id
      | none => p
    | _ => p) p
  let p := (List.range 64).foldl (fun (p : Package) s => p.decideAttach core s cyc) p
  let p := p.breakAttachCycle core cyc
  let p := eachCast (fun cs c x => (x.barriers c).foldl (fun x g => x.checkBarrier cs c cyc g) x) p
  let p := evs.foldl (fun (p : Package) e => match e with
    | .kill cs g => match p.cast? core cs with
      | some c => p.killBarrier core cs c g cyc
      | none => p
    | .remove cs id _ _ => match p.cast? core cs with
      | some c => ((p.core core).ctx.ownedBy c id).foldl (fun (p : Package) g => p.killBarrier core cs c g cyc) p
      | none => p
    | _ => p) p
  eachCast (fun cs c x => x.mapWaves cs fun w => w.settleCount (c.nwaves.setWidth 64)) (p.answerQueries core)

/-- A released wave goes on, or ends (R218, R221). -/
def Package.releaseWave (p : Package) (core cyc slot : Nat) : Package :=
  match p.wave? core slot with
  | none => p
  | some w =>
    match w.blockedAt w.sole with
    | some { op := .released d st ends sync due, .. } =>
      if cyc < due then p
      else if ends then p.endWave core slot
      else p.modWave core slot fun w =>
        { ((w.setS d st).endWait w.sole).acquireCast with syncwait := if sync then none else w.syncwait }
    | _ => p

/-- BARRIER_RELEASE (R218): every wave of the core whose release has come. -/
def barrierReleaseAt (core : Nat) (k : Clock) (p : Package) : Package :=
  (List.range 64).foldl (fun p s => p.releaseWave core (k.cycleOf (companyOf core)) s) p

/-! The words. -/

/-- The address checks of a barrier word (R215): alignment, range, tag. -/
def View.barTrap (v : View) (x : CoreCtx) (a : Quad) (needBarrier : Bool) : Option Trap :=
  let t := x.tag v.cast (granuleOf a)
  if a.toNat % 16 ≠ 0 then some { cause := .misalign, addr := a }
  else if v.cast.spsize.toNat < a.toNat + 16 then some { cause := .spRange, addr := a }
  else if needBarrier && t ≠ 1 then some { cause := .barrierState, addr := a }
  else if 2 ≤ t then some { cause := .queueState, addr := a }
  else none

/-- A barrier word of an address operand: its checks, then its effect on the barrier. -/
def execBar (i : Instr) (a : BitVec 7) (f : View → State → Quad → Bar → Out) (s : State) : Host.Outcome State Fault Refusal :=
  s.word i fun v s =>
    let x := (s.pkg.core v.iss.core).ctx
    let addr := v.sc a.toNat
    match v.barTrap x addr true with
    | some t => .trap t
    | none => f v s addr (x.bar v.cast (granuleOf addr))

/-- Change the core's part of a word's cast. -/
def State.onCtx (s : State) (v : View) (f : CoreCtx → CoreCtx) : State := s.modPkg fun p => p.modCtx v.iss.core f

/-- Leave an event to the queue-and-barrier unit, which applies it at the end of the cycle (R50, R212). -/
def State.onUnit (s : State) (v : View) (e : BarrierEvent) : State :=
  s.modPkg fun p => p.modCore v.iss.core fun k => { k with barrier := k.barrier ++ [e] }

/-- The configuration word of BINIT is well formed (R216). -/
def binitConfigOk (cfg : Nat) : Bool :=
  bits cfg 19 45 = 0 && (if bits cfg 16 1 = 1 then bits cfg 0 16 = 0 else bits cfg 0 16 ≠ 0)

/-- A wave of the cast waits on the barrier or holds an arrival for it; a word issued in this cycle does neither yet. -/
def CoreCtx.barBusy (x : CoreCtx) (cslot g : Nat) : Bool :=
  x.waves.any fun o => o.any fun w => w.cast = cslot && match w.barLeader? g with
    | some (_, _, none, _) => w.held.isSome
    | some (l, _, some _, _) => ((w.blockedAt l).map Blocked.count).getD 0 ≠ 0
    | none => false

/-- The barrier that BINIT makes (R216). -/
def View.newBar (v : View) (cfg members : Nat) : Bar :=
  let track := bits cfg 16 1 = 1
  let n := if track then members else bits cfg 0 16
  { phase := 0, arrived := 0, expected := n, nextexp := n, track := track, killed := false, owned := bits cfg 17 1 = 1,
    kend := bits cfg 18 1 = 1, owner := v.src.waveId.toNat }

/-- The checks of ATTACH (R336). -/
def View.attachTrap (v : View) (entry cfg : Quad) : Option Trap :=
  if bits cfg.toNat 7 1 ≠ 0 || bits cfg.toNat 11 53 ≠ 0 || bits cfg.toNat 0 7 = 0 then some v.operandTrap
  else if entry.toNat % 4 ≠ 0 then some { cause := .misalign, addr := entry }
  else if !v.cast.inCode entry then some { cause := .access, addr := entry }
  else none

/-- ATTACH (R336, R337): the request is decided in the company cycle two after issue. -/
def execATTACH (i : Instr) (w : R3) (wait : Bool) (s : State) : Host.Outcome State Fault Refusal :=
  s.word i fun v s =>
    let entry := v.sc w.a.toNat
    let cfg := v.sc w.b.toNat
    match v.attachTrap entry cfg with
    | some t => .trap t
    | none =>
      .block s (.attach { entry := entry, n := bits cfg.toNat 0 7, role := roleOf (bits cfg.toNat 8 2), now := bits cfg.toNat 10 1 = 1,
                          dest := w.d.toNat, due := s.clk.cycleOf (companyOf v.iss.core) + 2 } wait)

noncomputable section

def execATTACH_TRY (w : R3) (s : State) : Host.Outcome State Fault Refusal := execATTACH (.attachTry w) w false s
def execATTACH_WAIT (w : R3) (s : State) : Host.Outcome State Fault Refusal := execATTACH (.attachWait w) w true s

/-- DETACH (R339): the wave ends. -/
def execDETACH (w : C0) (s : State) : Host.Outcome State Fault Refusal :=
  State.word (.detach w) (fun v s => .jump (s.modPkg fun p => p.endWave v.iss.core v.iss.slot)) s

def execBINIT (w : RAB) (s : State) : Host.Outcome State Fault Refusal :=
  State.word (.binit w) (fun v s =>
    let k := s.pkg.core v.iss.core
    let addr := v.sc w.a.toNat
    let cfg := (v.sc w.b.toNat).toNat
    let g := granuleOf addr
    match v.barTrap k.ctx addr false with
    | some t => .trap t
    | none =>
      if !binitConfigOk cfg then .trap v.operandTrap
      else
        let old := k.ctx.bar v.cast g
        if k.ctx.tag v.cast g = 1 && (k.ctx.barBusy v.src.cast g || (old.owned && old.owner ≠ v.src.waveId.toNat)) then
          .trap { cause := .barrierState, addr := addr }
        else
          .done (s.onUnit v (.init v.src.cast g (v.newBar cfg v.cast.nwaves.toNat).bytes))) s

def execBARRIVE (w : R2) (s : State) : Host.Outcome State Fault Refusal :=
  execBar (.barrive w) w.a (fun _ s addr _ => .block s (.arrive addr false w.d.toNat)) s

def execBWAIT (w : R3) (s : State) : Host.Outcome State Fault Refusal :=
  execBar (.bwait w) w.a (fun v s addr _ => .block s (.bwait addr ((v.sc w.b.toNat).setWidth 32) false w.d.toNat)) s

def execBSYNC (w : R2) (s : State) : Host.Outcome State Fault Refusal :=
  execBar (.bsync w) w.a (fun _ s addr _ => .block s (.arrive addr true w.d.toNat)) s

def execBKILL (w : RA) (s : State) : Host.Outcome State Fault Refusal :=
  execBar (.bkill w) w.a (fun v s addr b =>
    if b.owned && b.owner ≠ v.src.waveId.toNat then .trap { cause := .barrierState, addr := addr }
    else .done (s.onUnit v (.kill v.src.cast (granuleOf addr)))) s

def execBQUERY (w : R2) (s : State) : Host.Outcome State Fault Refusal :=
  execBar (.bquery w) w.a (fun _ s addr _ => .block s (.bquery addr w.d.toNat)) s

end

/-- ATTACH_WAIT_RETRY (R337). -/
def execATTACH_WAIT_RETRY (core slot : Nat) (s : State) : Host.Outcome State Fault Refusal :=
  s.event fun k p => p.decideAttach core slot (k.cycleOf (companyOf core))

def execATTACH_CYCLE_BREAK (core : Nat) (s : State) : Host.Outcome State Fault Refusal :=
  s.event fun k p => p.breakAttachCycle core (k.cycleOf (companyOf core))

def execBARRIER_RELEASE (core : Nat) (s : State) : Host.Outcome State Fault Refusal := s.event (barrierReleaseAt core)

end Sys2Proof.Machine
end

