-- ==== Sys2Proof/Machine/Flags.lean ====
section
/-! DEFINITION. Number formats and the arithmetic rules (R92 to R110): exact values, RoundTo in every format and mode, the FPFLAGS bits that
each step raises (Table 4.4, Table 5.9), the special cases of Table 5.8, and the fixed orders of summation. -/

namespace Sys2Proof.Machine

/-! FPFLAGS (Table 4.4). -/

/-- NV, invalid operation. -/
def flagNV : BitVec 5 := 16
/-- DZ, division by zero. -/
def flagDZ : BitVec 5 := 8
/-- OF, overflow. -/
def flagOF : BitVec 5 := 4
/-- UF, underflow. -/
def flagUF : BitVec 5 := 2
/-- NX, inexact. -/
def flagNX : BitVec 5 := 1

/-- A flag if a condition holds. -/
def flagIf (c : Bool) (f : BitVec 5) : BitVec 5 := if c then f else 0

/-- An encoding with the flags its computation raised. -/
structure Flagged where
  bits : Nat
  flags : BitVec 5 := 0
  deriving DecidableEq, Repr

/-! Formats (Tables 5.3 and 5.4). -/

/-- A floating format: exponent and fraction widths; `noInf` is the all-ones exponent of E4M3, which has no infinity. -/
structure Fmt where
  ebits : Nat
  mbits : Nat
  noInf : Bool := false
  deriving DecidableEq, Repr

def fmtF64 : Fmt := { ebits := 11, mbits := 52 }
def fmtF32 : Fmt := { ebits := 8, mbits := 23 }
def fmtF16 : Fmt := { ebits := 5, mbits := 10 }
def fmtBF16 : Fmt := { ebits := 8, mbits := 7 }
def fmtE4M3 : Fmt := { ebits := 4, mbits := 3, noInf := true }
def fmtE5M2 : Fmt := { ebits := 5, mbits := 2 }

/-- The bias of Table 5.3. -/
def Fmt.bias (f : Fmt) : Nat := 2 ^ (f.ebits - 1) - 1

/-- The weight of the sign bit. -/
def Fmt.signBit (f : Fmt) : Nat := 2 ^ (f.ebits + f.mbits)

/-- The all-ones exponent with fraction 0. -/
def Fmt.top (f : Fmt) : Nat := (2 ^ f.ebits - 1) * 2 ^ f.mbits

/-- The magnitude bits of the largest finite value. -/
def Fmt.maxMag (f : Fmt) : Nat := if f.noInf then f.top + 2 ^ f.mbits - 2 else f.top - 1

/-- The canonical NaN of Table 5.4. -/
def Fmt.nan (f : Fmt) : Nat := if f.noInf then f.top + 2 ^ f.mbits - 1 else f.top + 2 ^ (f.mbits - 1)

/-- The exponent of the least significant bit of the subnormal range. -/
def Fmt.qmin (f : Fmt) : Int := 1 - (f.bias : Int) - (f.mbits : Int)

/-- An exact value: NaN, an infinity, a zero with its sign, or ±m × 2^e with m not 0. -/
inductive Exact where
  | nan
  | inf (neg : Bool)
  | zero (neg : Bool)
  | fin (neg : Bool) (m : Nat) (e : Int)
  deriving DecidableEq, Repr

/-- Value(fmt, bits) (R95, Table 5.4). -/
def Fmt.value (f : Fmt) (x : Nat) : Exact :=
  let neg := x / f.signBit % 2 = 1
  let mag := x % f.signBit
  let e := mag / 2 ^ f.mbits
  let m := mag % 2 ^ f.mbits
  if f.maxMag < mag then (if !f.noInf && m = 0 then .inf neg else .nan)
  else if e = 0 then (if m = 0 then .zero neg else .fin neg m f.qmin)
  else .fin neg (2 ^ f.mbits + m) (f.qmin + (e : Int) - 1)

/-- The sign-and-magnitude encoding. -/
def Fmt.pack (f : Fmt) (neg : Bool) (mag : Nat) : Nat := (if neg then f.signBit else 0) + mag

/-- An infinity of a format: in E4M3, which has none, the canonical NaN. -/
def Fmt.inf (f : Fmt) (neg : Bool) : Nat := if f.noInf then f.nan else f.pack neg f.top

/-! Rounding (R101 to R103). -/

/-- The number of bits of a number. -/
def bitLength (m : Nat) : Nat := if m = 0 then 0 else Nat.log2 m + 1

/-- m ÷ 2^sh rounded to an integer by mode rm (Table 5.6), and whether it is inexact. A shift past the number's length needs no more bits. -/
def roundShift (rm : Nat) (neg : Bool) (m sh : Nat) : Nat × Bool :=
  let k := min sh (bitLength m + 2)
  let n := m / 2 ^ k
  let r := m % 2 ^ k
  let half := 2 ^ k
  let up := match rm with
    | 0 => half < 2 * r || (half = 2 * r && n % 2 = 1)
    | 1 => false
    | 2 => neg && r ≠ 0
    | 3 => !neg && r ≠ 0
    | _ => half ≤ 2 * r && r ≠ 0
  (if up then n + 1 else n, r ≠ 0)

/-- The overflow result of Table 5.7 by direction: true for the largest finite value. -/
def overflowFinite (rm : Nat) (neg : Bool) : Bool :=
  rm = 1 || (rm = 2 && !neg) || (rm = 3 && neg)

/-- RoundTo(fmt, rm[, SAT]) of ±m × 2^e (R102 steps 4 and 5, R103, R107). -/
def Fmt.roundFin (f : Fmt) (rm : Nat) (sat : Bool) (neg : Bool) (m : Nat) (e : Int) : Flagged :=
  let top := e + (bitLength m : Int)
  let free := top - (f.mbits : Int) - 1
  let q := max free f.qmin
  let (n, nx) := if q ≤ e then (m * 2 ^ (e - q).toNat, false) else roundShift rm neg m (q - e).toNat
  let mag := (q - f.qmin).toNat * 2 ^ f.mbits + n
  let small := if free ≤ e then m * 2 ^ (e - free).toNat else (roundShift rm neg m (free - e).toNat).1
  let tiny := free < f.qmin && (free + 1 < f.qmin || small < 2 ^ (f.mbits + 1))
  if f.maxMag < mag then
    let r := if sat || overflowFinite rm neg then f.pack neg f.maxMag else f.inf neg
    { bits := r, flags := flagOF ||| flagNX }
  else { bits := f.pack neg mag, flags := flagIf (tiny && nx) flagUF ||| flagIf nx flagNX }

/-- RoundTo(fmt, rm[, SAT]) (R102, R103, R107). -/
def Fmt.roundTo (f : Fmt) (rm : Nat) (sat : Bool) : Exact → Flagged
  | .nan => { bits := f.nan }
  | .inf neg =>
    if sat then { bits := f.pack neg f.maxMag }
    else { bits := f.inf neg, flags := flagIf f.noInf flagNV }
  | .zero neg => { bits := f.pack neg 0 }
  | .fin neg m e => f.roundFin rm sat neg m e

/-- RoundTo(fmt, RNE): every operation but a conversion (R101). -/
def Fmt.rne (f : Fmt) (x : Exact) : Flagged := f.roundTo 0 false x

/-- The integer nearest to an exact value by a mode, with its inexactness. -/
def integral (rm : Nat) (neg : Bool) (m : Nat) (e : Int) : Nat × Bool :=
  if 0 ≤ e then (m * 2 ^ e.toNat, false) else roundShift rm neg m (-e).toNat

/-- RoundTo for an integer format of w bits (R103): a NaN gives 0 with NV, a value out of range the nearer end with NV and no NX. -/
def roundToInt (w : Nat) (signed : Bool) (rm : Nat) (x : Exact) : Flagged :=
  let lo : Int := if signed then -(2 ^ (w - 1) : Int) else 0
  let hi : Int := if signed then (2 ^ (w - 1) : Int) - 1 else (2 ^ w : Int) - 1
  let enc := fun v : Int => (v % (2 ^ w : Int)).toNat
  match x with
  | .nan => { bits := 0, flags := flagNV }
  | .inf neg => { bits := enc (if neg then lo else hi), flags := flagNV }
  | .zero _ => { bits := 0 }
  | .fin neg m e =>
    let (n, nx) := integral rm neg m e
    let v : Int := if neg then -(n : Int) else n
    if v < lo then { bits := enc lo, flags := flagNV }
    else if hi < v then { bits := enc hi, flags := flagNV }
    else { bits := enc v, flags := flagIf nx flagNX }

/-- An integer as an exact value; 0 is +0. -/
def exactInt (v : Int) : Exact := if v = 0 then .zero false else .fin (v < 0) v.natAbs 0

/-! Arithmetic over exact values (R104, R105, Table 5.8). -/

/-- An exact result with the flag of Table 5.8. -/
abbrev ExactFlag := Exact × BitVec 5

/-- Negate. -/
def Exact.neg : Exact → Exact
  | .nan => .nan
  | .inf s => .inf !s
  | .zero s => .zero !s
  | .fin s m e => .fin (!s) m e

/-- The exact sum; an exact zero sum of operands of opposite sign is +0 (every sum rounds to nearest even). -/
def Exact.add : Exact → Exact → ExactFlag
  | .inf a, .inf b => if a = b then (.inf a, 0) else (.nan, flagNV)
  | .nan, _ => (.nan, 0)
  | _, .nan => (.nan, 0)
  | .inf a, _ => (.inf a, 0)
  | _, .inf b => (.inf b, 0)
  | .zero a, .zero b => (.zero (a && b), 0)
  | .zero _, y => (y, 0)
  | x, .zero _ => (x, 0)
  | .fin a m e, .fin b n f =>
    let q := min e f
    let x : Int := (m * 2 ^ (e - q).toNat : Nat)
    let y : Int := (n * 2 ^ (f - q).toNat : Nat)
    let v := (if a then -x else x) + (if b then -y else y)
    (if v = 0 then .zero false else .fin (v < 0) v.natAbs q, 0)

/-- The sign of an exact value; a NaN has none. -/
def Exact.sign : Exact → Bool
  | .nan => false
  | .inf s => s
  | .zero s => s
  | .fin s _ _ => s

/-- The exact product. -/
def Exact.mul : Exact → Exact → ExactFlag
  | .zero _, .inf _ => (.nan, flagNV)
  | .inf _, .zero _ => (.nan, flagNV)
  | .nan, _ => (.nan, 0)
  | _, .nan => (.nan, 0)
  | .inf a, y => (.inf (a != y.sign), 0)
  | x, .inf b => (.inf (x.sign != b), 0)
  | .zero a, y => (.zero (a != y.sign), 0)
  | x, .zero b => (.zero (x.sign != b), 0)
  | .fin a m e, .fin b n f => (.fin (a != b) (m * n) (e + f), 0)

/-- The exact a × b + c: 0 × ∞ raises NV whatever the addend (R105). -/
def Exact.fma (a b c : Exact) : ExactFlag :=
  let p := a.mul b
  let s := p.1.add c
  (s.1, p.2 ||| s.2)

/-- m ÷ n × 2^e with at least `k` bits and a sticky bit below them: enough for one rounding. -/
def quotient (neg : Bool) (m n : Nat) (e : Int) (k : Nat) : Exact :=
  let sh := k + bitLength n
  let q := m * 2 ^ sh / n
  let r := m * 2 ^ sh % n
  .fin neg (2 * q + (if r = 0 then 0 else 1)) (e - sh - 1)

/-- The quotient. -/
def Exact.div : Exact → Exact → ExactFlag
  | .nan, _ => (.nan, 0)
  | _, .nan => (.nan, 0)
  | .zero _, .zero _ => (.nan, flagNV)
  | .inf _, .inf _ => (.nan, flagNV)
  | .inf a, y => (.inf (a != y.sign), 0)
  | x, .inf b => (.zero (x.sign != b), 0)
  | .zero a, y => (.zero (a != y.sign), 0)
  | x, .zero b => (.inf (x.sign != b), flagDZ)
  | .fin a m e, .fin b n f => (quotient (a != b) m n (e - f) 64, 0)

/-- The integer square root of n below 2^(2k), bit by bit. -/
def isqrtFrom : Nat → Nat → Nat → Nat
  | 0, _, r => r
  | k + 1, n, r => isqrtFrom k n (if (r + 2 ^ k) * (r + 2 ^ k) ≤ n then r + 2 ^ k else r)

/-- √(n × 2^e) for even e, with a sticky bit. -/
def rootOf (n : Nat) (e : Int) : Exact :=
  let r := isqrtFrom (bitLength n / 2 + 1) n 0
  .fin false (2 * r + (if r * r = n then 0 else 1)) (e / 2 - 1)

/-- The square root (R131). -/
def Exact.sqrt : Exact → ExactFlag
  | .nan => (.nan, 0)
  | .inf neg => if neg then (.nan, flagNV) else (.inf false, 0)
  | .zero neg => (.zero neg, 0)
  | .fin neg m e =>
    if neg then (.nan, flagNV)
    else if e % 2 = 0 then (rootOf (m * 2 ^ 128) (e - 128), 0)
    else (rootOf (m * 2 ^ 129) (e - 129), 0)

/-- a × 2^k (R134). -/
def Exact.scale (k : Int) : Exact → Exact
  | .fin s m e => .fin s m (e + k)
  | x => x

/-- E12 (R132): nearest even to 12 significant bits, the exponent unbounded. -/
def e12 : Exact → Exact
  | .fin s m e =>
    let sh := bitLength m - 12
    .fin s (roundShift 0 s m sh).1 (e + sh)
  | x => x

/-- 1 ÷ a estimated (R132): OF only, beside DZ for ±0. -/
def Fmt.rcpe (f : Fmt) (a : Exact) : Flagged :=
  match a with
  | .nan => { bits := f.nan }
  | .zero neg => { bits := f.inf neg, flags := flagDZ }
  | .inf neg => { bits := f.pack neg 0 }
  | .fin neg m e =>
    let r := f.rne (e12 (quotient neg 1 m (-e) 16))
    { bits := r.bits, flags := r.flags &&& flagOF }

/-- 1 ÷ √a estimated (R132). -/
def Fmt.rsqe (f : Fmt) (a : Exact) : Flagged :=
  match a with
  | .nan => { bits := f.nan }
  | .zero neg => { bits := f.inf neg, flags := flagDZ }
  | .inf neg => if neg then { bits := f.nan, flags := flagNV } else { bits := f.pack false 0 }
  | .fin neg m e =>
    if neg then { bits := f.nan, flags := flagNV }
    else
      let (m, e) := if e % 2 = 0 then (m, e) else (2 * m, e - 1)
      let k := bitLength m + 16
      let n := 2 ^ (2 * k) / m
      let r := isqrtFrom (bitLength n / 2 + 1) n 0
      let x := Exact.fin false (2 * r + (if r * r * m = 2 ^ (2 * k) then 0 else 1)) (-(e / 2) - (k : Int) - 1)
      let q := f.rne (e12 x)
      { bits := q.bits, flags := q.flags &&& flagOF }

/-- a < b over exact values, neither a NaN. -/
def Exact.lt : Exact → Exact → Bool
  | .nan, _ => false
  | _, .nan => false
  | .inf a, .inf b => a && !b
  | .inf a, _ => a
  | _, .inf b => !b
  | x, y => match (x.add y.neg).1 with
    | .fin s _ _ => s
    | _ => false

/-- a = b over exact values, neither a NaN; −0 and +0 are equal (R141). -/
def Exact.eq : Exact → Exact → Bool
  | .nan, _ => false
  | _, .nan => false
  | .inf a, .inf b => a = b
  | .inf _, _ => false
  | _, .inf _ => false
  | x, y => match (x.add y.neg).1 with
    | .zero _ => true
    | _ => false

/-- NaN. -/
def Exact.isNan : Exact → Bool
  | .nan => true
  | _ => false

/-- ±∞. -/
def Exact.isInf : Exact → Bool
  | .inf _ => true
  | _ => false

/-- The order of R104, −0 below +0. -/
def Exact.below (x y : Exact) : Bool :=
  match x, y with
  | .zero a, .zero b => a && !b
  | x, y => x.lt y

/-- FMIN and FMAX (R104): an operand's bits, or the canonical NaN. -/
def Fmt.minMax (f : Fmt) (mx : Bool) (x y : Nat) : Nat :=
  let a := f.value x
  let b := f.value y
  if a.isNan then (if b.isNan then f.nan else y)
  else if b.isNan then x
  else if (if mx then a.below b else b.below a) then y else x

/-! The operations on encodings. -/

/-- Round an exact result and join its flags. -/
def Fmt.finish (f : Fmt) (r : ExactFlag) : Flagged :=
  let q := f.rne r.1
  { bits := q.bits, flags := q.flags ||| r.2 }

def Fmt.add (f : Fmt) (x y : Nat) : Flagged := f.finish ((f.value x).add (f.value y))
def Fmt.sub (f : Fmt) (x y : Nat) : Flagged := f.finish ((f.value x).add (f.value y).neg)
def Fmt.mul (f : Fmt) (x y : Nat) : Flagged := f.finish ((f.value x).mul (f.value y))
def Fmt.div (f : Fmt) (x y : Nat) : Flagged := f.finish ((f.value x).div (f.value y))
def Fmt.sqrt (f : Fmt) (x : Nat) : Flagged := f.finish (f.value x).sqrt

/-- a × b + c, fused. -/
def Fmt.mac (f : Fmt) (x y z : Nat) : Flagged := f.finish ((f.value x).fma (f.value y) (f.value z))

/-- c − a × b, fused (R131). -/
def Fmt.nmac (f : Fmt) (x y z : Nat) : Flagged := f.finish ((f.value x).neg.fma (f.value y) (f.value z))

/-- a × 2^k, rounded once (R134). -/
def Fmt.scale (f : Fmt) (x : Nat) (k : Int) : Flagged := f.rne ((f.value x).scale k)

/-- The class mask of Table 7.2. -/
def Fmt.classOf (f : Fmt) (x : Nat) : Nat :=
  match f.value x with
  | .nan => 256
  | .inf neg => if neg then 1 else 128
  | .zero neg => if neg then 8 else 16
  | .fin neg m _ =>
    let normal := 2 ^ f.mbits ≤ m
    if neg then (if normal then 2 else 4) else (if normal then 64 else 32)

/-- FRINT and DRINT (R140). -/
def Fmt.rint (f : Fmt) (rm : Nat) (x : Nat) : Flagged :=
  match f.value x with
  | .nan => { bits := f.nan }
  | .inf neg => { bits := f.inf neg }
  | .zero neg => { bits := f.pack neg 0 }
  | .fin neg m e =>
    let (n, nx) := integral rm neg m e
    if n = 0 then { bits := f.pack neg 0, flags := flagIf nx flagNX }
    else { bits := (f.rne (.fin neg n 0)).bits, flags := flagIf nx flagNX }

/-- The step of a sequential dot (R108): the product of two encodings of `g` exact, one rounding to `f`. -/
def Fmt.dotStep (f ga gb : Fmt) (acc x y : Nat) : Flagged := f.finish ((ga.value x).fma (gb.value y) (f.value acc))

/-- A sequential dot over a list of element pairs. -/
def Fmt.dot (f ga gb : Fmt) (c : Nat) (l : List (Nat × Nat)) : Flagged :=
  l.foldl (fun acc p => let r := f.dotStep ga gb acc.bits p.1 p.2
    { bits := r.bits, flags := r.flags ||| acc.flags }) { bits := c }

/-! Reductions and scans (R109, R110). -/

/-- Join two nodes of the tree. -/
def treeNode {α : Type} (f : α → α → α) : Option α → Option α → Option α
  | none, h => h
  | l, none => l
  | some x, some y => some (f x y)

/-- One level of the tree. -/
def treeLevel {α : Type} (f : α → α → α) : List (Option α) → List (Option α)
  | a :: b :: l => treeNode f a b :: treeLevel f l
  | l => l

/-- The tree reduction over the 128 leaves: seven levels (R109). -/
def treeReduce {α : Type} (f : α → α → α) (l : List (Option α)) : Option α :=
  ((List.range 7).foldl (fun l _ => treeLevel f l) l).headD none

/-- The inclusive scan over the leaves in ascending order (R110). -/
def scanFrom {α : Type} (f : α → α → α) : Option α → List (Option α) → List (Option α)
  | _, [] => []
  | run, none :: l => none :: scanFrom f run l
  | none, some x :: l => some x :: scanFrom f (some x) l
  | some r, some x :: l => let y := f r x; some y :: scanFrom f (some y) l

/-- An add step that carries its flags. -/
def Flagged.addStep (f : Fmt) (x y : Flagged) : Flagged :=
  let r := f.add x.bits y.bits
  { bits := r.bits, flags := r.flags ||| x.flags ||| y.flags }

end Sys2Proof.Machine
end

