-- ==== Sys2Proof/Machine/Global.lean ====
section
/-! DEFINITION. Global memory (R225 to R248): LDC, STC, LDG, STG, the atomics, LR, SC, STRED, PREF, CINV, CFLUSH and WAITST; the checks of R230, the
first-level cache (R227), the requests and their ways, the home slices that apply them one by one (R238, R263), the replies, and the resumption of
a parked word (R199). -/

namespace Sys2Proof.Machine

/-! What a memory word does. -/

/-- A memory word by what it does at memory: element size in bytes, destination register; the atomics by op and ty of Table 12.3. -/
inductive MemKind where
  | load (size reg : Nat)
  | store (size : Nat)
  | atomic (op ty size : Nat) (ret : Bool) (reg : Nat)
  | lr (size reg : Nat)
  | sc (size reg : Nat)
  | stred (ty size : Nat)
  | pref (l1 : Bool)
  | cflush (inv : Bool)
  deriving DecidableEq, Repr

/-- The bytes of an atomic's width (R235): .32, .64, .128, .P16. -/
def atomSize (ty : Nat) : Nat :=
  match ty with
  | 1 => 8
  | 2 => 16
  | _ => 4

/-- The bytes of a STRED type (R244): .F32, .F64, .I32. -/
def stredSize (ty : Nat) : Nat := if ty = 1 then 8 else 4

/-- An atomic word with its op. -/
def atomicWord : Instr → Option (Nat × AT)
  | .amadd w => some (0, w)
  | .amsmin w => some (1, w)
  | .amsmax w => some (2, w)
  | .amumin w => some (3, w)
  | .amumax w => some (4, w)
  | .amand w => some (5, w)
  | .amor w => some (6, w)
  | .amxor w => some (7, w)
  | .amswap w => some (8, w)
  | .amcas w => some (9, w)
  | .amfadd w => some (10, w)
  | .amfmin w => some (11, w)
  | .amfmax w => some (12, w)
  | _ => none

/-- What an instruction does at memory. -/
def memKind (i : Instr) : MemKind :=
  match atomicWord i with
  | some (op, w) => .atomic op w.t.toNat (atomSize w.t.toNat) (w.n = 0) w.v.toNat
  | none => match i with
    | .ldc w => .load (2 ^ w.e.toNat) w.v.toNat
    | .ldg w => .load (2 ^ w.e.toNat) w.v.toNat
    | .stc w => .store (2 ^ w.e.toNat)
    | .stg w => .store (2 ^ w.e.toNat)
    | .lr w => .lr (if w.w = 1 then 8 else 4) w.v.toNat
    | .sc w => .sc (if w.w = 1 then 8 else 4) w.v.toNat
    | .stred w => .stred w.t.toNat (stredSize w.t.toNat)
    | .pref w => .pref (w.l = 1)
    | .cflush w => .cflush (w.n = 1)
    | _ => .pref false

/-- The access size (R230). -/
def MemKind.size : MemKind → Nat
  | .load n _ => n
  | .store n => n
  | .atomic _ _ n _ _ => n
  | .lr n _ => n
  | .sc n _ => n
  | .stred _ n => n
  | .pref _ => 1
  | .cflush _ => 1

/-- The access needs write permission. -/
def MemKind.writes : MemKind → Bool
  | .load _ _ => false
  | .lr _ _ => false
  | .pref _ => false
  | .cflush _ => false
  | _ => true

/-- A hint drops its failing lanes without a trap (R245, R246). -/
def MemKind.hint : MemKind → Bool
  | .pref _ => true
  | .cflush _ => true
  | _ => false

/-- The line of every lane must be that of the lowest (R241, R242). -/
def MemKind.oneLine : MemKind → Bool
  | .lr _ _ => true
  | .sc _ _ => true
  | _ => false

/-- Host space carries the access (R240). -/
def MemKind.hostOk : MemKind → Bool
  | .load _ _ => true
  | .store _ => true
  | .atomic op ty _ _ _ => (op = 0 && ty ≤ 1) || (op = 8 && ty ≤ 1) || (op = 9 && ty ≤ 2)
  | .pref _ => false
  | .cflush _ => false
  | _ => false

/-- The cause of check 3 in ordered mode, if the access is checked (R264). -/
def MemKind.ownCause : MemKind → Option Cause
  | .store _ => some .ownership
  | .stred _ _ => some .ownership
  | .atomic _ _ _ ret _ => some (if ret then .orderedRet else .ownership)
  | .lr _ _ => some .orderedRet
  | .sc _ _ => some .orderedRet
  | _ => none

/-- The registers that a reply writes: the first and how many. -/
def MemKind.dest : MemKind → Option (Nat × Nat)
  | .load n r => some (r, (n + 3) / 4)
  | .atomic _ _ n true r => some (r, (n + 3) / 4)
  | .lr n r => some (r, (n + 3) / 4)
  | .sc n r => some (r, (n + 3) / 4)
  | _ => none

/-! The checks of R230. -/

/-- A byte lies in an ownership range (R349). -/
def OwnRange.holds (r : OwnRange) (a : Quad) : Bool := r.valid && (a - r.base).toNat < r.len

/-- Every byte of an access lies in one range; a host-space byte is never owned (R264, R349). -/
def Cast.owns (c : Cast) (a : Quad) (size : Nat) : Bool :=
  !isHostVa a && c.own.any fun r => (List.range size).all fun i => r.holds (a + BitVec.ofNat 64 i)

/-- One lane of a memory word: VA, its place in device memory or its host address, and its operands. -/
structure Elem where
  lane : Nat
  va : Quad
  place : Nat
  data : List Byte
  cmp : List Byte
  deriving DecidableEq, Repr

/-- What the checks of a memory word find. -/
inductive MemCheck where
  | trap (t : Trap)
  | walk (pages : List (Quad × Bool × Bool))
  | go (dev host : List Elem) (page : List LaneAddr)

/-- The lanes of a memory word with their operands. -/
def MemOp.elems (op : MemOp) : List Elem :=
  (op.lanes.zipIdx).map fun l =>
    { lane := l.1.lane, va := l.1.addr, place := 0, data := op.data.getD l.2 [], cmp := op.cmp.getD l.2 [] }

/-- A lane with its address. -/
def Elem.la (e : Elem) : LaneAddr := { lane := e.lane, addr := e.va }

/-- The lanes that fail check 1 (R230, R241). -/
def misaligned (k : MemKind) (l : List LaneAddr) : List LaneAddr :=
  l.filter fun x => x.addr.toNat % k.size ≠ 0
    || k.oneLine && x.addr.toNat / 128 ≠ ((l.head?.map LaneAddr.addr).getD 0).toNat / 128

/-- The lanes that check 3 fails. -/
def unowned (k : MemKind) (c : Cast) (l : List LaneAddr) : List LaneAddr :=
  if c.ordered && k.ownCause.isSome then l.filter fun x => !c.owns x.addr k.size else []

/-- The lanes of a memory word by what their translation gives. -/
structure Sorted where
  dev : List Elem
  host : List Elem
  pages : List LaneAddr
  denied : List LaneAddr
  walks : List Quad

/-- Translate every lane of a memory word. -/
def Package.sortLanes (p : Package) (core : Nat) (w : Waiter) (part : Nat) (op : MemOp) : Sorted :=
  let k := memKind op.instr
  let x := op.elems.map fun e => (e, p.xlate core part w e.va k.writes false)
  { walks := (x.filter fun y => y.2 = .walk).map fun y => y.1.va
    denied := (x.filter fun y => y.2 = .access || (isHostVa y.1.va && !k.hostOk)).map fun y => y.1.la
    pages := (x.filter fun y => y.2 = .page).map fun y => y.1.la
    dev := x.filterMap fun y => match y.2 with
      | .dev a => some { y.1 with place := a }
      | _ => none
    host := x.filterMap fun y => match y.2 with
      | .host a => if k.hostOk then some { y.1 with place := a } else none
      | _ => none }

/-- The checks of R230 over the lanes of a memory word, in their order. -/
def Package.memCheck (p : Package) (core : Nat) (w : Waiter) (c : Cast) (op : MemOp) : MemCheck :=
  let k := memKind op.instr
  let x := p.sortLanes core w c.partition op
  if k.hint then (if x.walks.isEmpty then .go x.dev [] [] else .walk (x.walks.map fun a => (a, false, false)))
  else
    match laneTrap .misalign (misaligned k op.lanes) with
    | some t => .trap t
    | none =>
      if !x.walks.isEmpty then .walk (x.walks.map fun a => (a, k.writes, false))
      else
        match (laneTrap .access x.denied).or (laneTrap (k.ownCause.getD .ownership) (unowned k c op.lanes)) with
        | some t => .trap t
        | none => .go x.dev x.host x.pages

/-! The atomics (R235 to R237, R244). -/

/-- Two's complement value of w bits. -/
def signedOf (w x : Nat) : Int := if 2 ^ (w - 1) ≤ x then (x : Int) - (2 ^ w : Nat) else x

/-- f of Table 12.3 on one w-bit element. -/
def atomElem (op w : Nat) (fmt : Fmt) (old x : Nat) : Nat :=
  match op with
  | 0 => (old + x) % 2 ^ w
  | 1 => if signedOf w x < signedOf w old then x else old
  | 2 => if signedOf w old < signedOf w x then x else old
  | 3 => min old x
  | 4 => max old x
  | 5 => Nat.land old x
  | 6 => Nat.lor old x
  | 7 => Nat.xor old x
  | 8 => x
  | 10 => (fmt.add old x).bits
  | 11 => fmt.minMax false old x
  | 12 => fmt.minMax true old x
  | _ => old

/-- f of Table 12.3: .P16 acts on each half (R236). -/
def atomF (op ty old x : Nat) : Nat :=
  match ty with
  | 0 => atomElem op 32 fmtF32 old x
  | 1 => atomElem op 64 fmtF64 old x
  | 2 => atomElem op 128 fmtF64 old x
  | _ => atomElem op 16 fmtBF16 (old % 65536) (x % 65536) + 65536 * atomElem op 16 fmtBF16 (old / 65536) (x / 65536)

/-- The effect of one lane: f, or the compare and exchange. -/
def atomLane (op ty : Nat) (r : Nat) (l : AtomLane) : Nat :=
  if op = 9 then (if r = ofLe l.x then ofLe l.new else r) else atomF op ty r (ofLe l.x)

/-- The operands of the lanes folded in lane order (R237). -/
def atomPart (op ty : Nat) : List AtomLane → Nat
  | [] => 0
  | l :: rest => rest.foldl (fun x m => atomF op ty x (ofLe m.x)) (ofLe l.x)

/-- What each lane is returned, from the old value on (R237). -/
def atomReturns (op ty : Nat) : Nat → List AtomLane → List (Nat × Nat)
  | _, [] => []
  | r, l :: rest => (l.lane, r) :: atomReturns op ty (atomLane op ty r l) rest

/-- The new value of memory (R237): SWAP and CAS apply lane by lane, the others the folded operand. -/
def atomNew (op ty old : Nat) (lanes : List AtomLane) : Nat :=
  if op = 8 || op = 9 then lanes.foldl (atomLane op ty) old
  else if lanes.isEmpty then old else atomF op ty old (atomPart op ty lanes)

/-- The op and ty with which STRED combines and applies (R244). -/
def stredAtom (ty : Nat) : Nat × Nat := if ty = 2 then (0, 0) else (10, ty)

/-! Grouping lanes into requests. -/

/-- The groups of equal keys, by first occurrence. -/
def groupBy {α : Type} (f : α → Nat) (l : List α) : List (List α) :=
  (l.foldl (fun ks x => if ks.contains (f x) then ks else ks ++ [f x]) []).map fun key => l.filter fun x => f x = key

/-- One group per gang of 32 lanes and line (R226, R232). -/
def byGangLine (l : List Elem) : List (List Elem) :=
  (List.range 4).flatMap fun g => groupBy (fun e => e.place / 128) (l.filter fun e => e.lane / 32 = g)

/-- A lane's place. -/
def Elem.lp (e : Elem) : LanePlace := { lane := e.lane, va := e.va, place := e.place }

/-- The line of a group. -/
def lineOfGroup (l : List Elem) : Nat := (l.head?.map Elem.place).getD 0 / 128

/-- A lane's operand of an atomic. -/
def Elem.atom (e : Elem) : AtomLane := { lane := e.lane, x := e.data, new := e.cmp }

/-- The requests of a memory word to device memory: a line and a body each, in the order sent (R226, R232, R237, R244). Lanes are combined by the place that they name,
whatever the address or the view (notes/assumptions/121.md). -/
def devRequests (k : MemKind) (l : List Elem) : List (Nat × ReqBody) :=
  match k with
  | .load n r => (byGangLine l).map fun g => (lineOfGroup g, .load n r (g.map Elem.lp) true)
  | .store _ => (byGangLine l).map fun g => (lineOfGroup g, .store (g.flatMap fun e => bytesFrom e.place e.data))
  | .atomic op ty _ ret r =>
    (groupBy Elem.place l).map fun g =>
      (lineOfGroup g, .atomic op ty ((g.head?.map Elem.lp).getD { lane := 0, va := 0, place := 0 }) (g.map Elem.atom) ret r)
  | .lr n r => if l.isEmpty then [] else [(lineOfGroup l, .lr n r (l.map Elem.lp))]
  | .sc n r => if l.isEmpty then [] else [(lineOfGroup l, .sc n r (l.map Elem.lp) (l.map Elem.data))]
  | .stred ty _ => (groupBy (fun e => e.place / 128) l).map fun g => (lineOfGroup g, .stred ty (g.map fun e => (e.lp, e.data)))
  | .pref l1 => (byGangLine l).map fun g => (lineOfGroup g, .pref l1)
  | .cflush inv => (groupBy (fun e => e.place / 128) l).map fun g => (lineOfGroup g, .cflush inv)

/-- A request that OUTST counts (R226, R231). -/
def ReqBody.counted : ReqBody → Bool
  | .store _ => true
  | .atomic _ _ _ _ _ _ => true
  | .sc _ _ _ _ => true
  | .stred _ _ => true
  | _ => false

/-- The words that OUTST counts, which stall at 4,095 (R231). -/
def Instr.counts : Instr → Bool
  | .stc _ => true
  | .stg _ => true
  | .sc _ => true
  | .stred _ => true
  | i => (atomicWord i).isSome

/-- One more counted request of a wave, homed on its stage or not (R231, R257). -/
def Wave.sendCounted (w : Wave) (own : Bool) : Wave :=
  if w.outst = 4095 then { w with outstMore := w.outstMore ++ [own] }
  else { w with outst := w.outst + 1, outl := if own then w.outl + 1 else w.outl }

/-- A request that brings data back. -/
def ReqBody.returns : ReqBody → Bool
  | .load _ _ _ _ => true
  | .atomic _ _ _ _ ret _ => ret
  | .lr _ _ _ => true
  | .sc _ _ _ _ => true
  | _ => false

/-! The first-level cache (R227). -/

/-- A line in a core's L1. -/
def Core.l1Find (c : Core) (line : Nat) : Option Line :=
  let s := getSet c.l1 8 (line % 128)
  (s.wayOf line).bind s.at_

/-- Note a hit. -/
def Core.l1Touch (c : Core) (line : Nat) : Core :=
  let s := getSet c.l1 8 (line % 128)
  match s.wayOf line with
  | some w => { c with l1 := putSet (s.touch 0 8 w) c.l1 }
  | none => c

/-- Fill a line. -/
def Core.l1Fill (c : Core) (x : Line) : Core :=
  let s := getSet c.l1 8 (x.line % 128)
  let w := (s.wayOf x.line).getD (s.victim 0 0 8)
  { c with l1 := putSet (({ s with ways := setAt s.ways w (some x) } : CacheSet).touch 0 8 w) c.l1 }

/-- Invalidate a line. -/
def Core.l1Drop (c : Core) (line : Nat) : Core :=
  let s := getSet c.l1 8 (line % 128)
  match s.wayOf line with
  | some w => { c with l1 := putSet { s with ways := setAt s.ways w none } c.l1 }
  | none => c

/-- Update a line that a store hits. -/
def Core.l1Store (c : Core) (line : Nat) (bytes : List (Nat × Byte)) : Core :=
  match c.l1Find line with
  | none => c
  | some x =>
    let s := getSet c.l1 8 (line % 128)
    let new := { x with data := bytes.foldl (fun d b => setAt d (b.1 % 128) b.2) x.data }
    match s.wayOf line with
    | some w => { c with l1 := putSet (({ s with ways := setAt s.ways w (some new) } : CacheSet).touch 0 8 w) c.l1 }
    | none => c

/-- A load no longer installs its line. -/
def ReqBody.noFill : ReqBody → ReqBody
  | .load n r l _ => .load n r l false
  | .pref _ => .pref false
  | b => b

/-- A reply no longer installs its line. -/
def ReplyBody.noFill : ReplyBody → ReplyBody
  | .data id regs bad _ acked => .data id regs bad none acked
  | b => b

/-- Cancel the installation of the fills in flight for a core's lines (R250, R253). -/
def Package.cancelFills (p : Package) (core : Nat) (test : Nat → Bool) : Package :=
  let f := fun r : Req => if r.key.core = core && test r.line then { r with body := r.body.noFill } else r
  let g := fun r : Reply => match r.body with
    | .data _ _ _ (some x) _ => if test x.line then { r with body := r.body.noFill } else r
    | _ => r
  let h := fun m : Company => { m with inq := m.inq.map f, stalled := m.stalled.map f, stageWait := m.stageWait.map f }
  { p with companies := p.companies.map h
           stage := p.stage.map (fun s : Stage => { s with heldReqs := s.heldReqs.map f })
           cores := modAt p.cores core fun c => { c with replies := c.replies.map g } }

/-- Invalidate the whole L1 of a core (R227, R246, R256). -/
def Package.l1Clear (p : Package) (core : Nat) : Package :=
  (p.modCore core fun c => { c with l1 := [] }).cancelFills core fun _ => true

/-! Ways of requests and replies (R225, R229, R260). -/

/-- The mesh cycles from one on to the next slot of a partition in the 33-slot frame (R238, R311): slot k belongs to the owner of company k. -/
def Package.slotWait (p : Package) (part t : Nat) : Nat :=
  (((List.range 33).find? fun d => (t + d) % 33 ≠ 32 && (p.part part).companies.getLsbD ((t + d) % 33)).getD 0)

/-- A request arrives at its home in a slot of its partition, or waits at its source stop while its bucket is held (R238, R311, R351, R389). `late` is the time that its
translation takes (R197); it never passes an earlier request of its core to its line (R250, R252). -/
def Package.sendReq (k : Clock) (p : Package) (late : Nat) (r : Req) : Package :=
  let home := p.homeOf r.line
  let r := { r with sent := k.mcyc }
  if (p.stageAt (home / 8)).retiring = some (home % 8) then
    p.modStage (home / 8) fun s => { s with heldReqs := s.heldReqs ++ [r] }
  else
    let t := k.meshFrom + late + p.oneWay r.key.core home r.line
    let ahead := (p.company home).inq.filter fun x => x.key.core = r.key.core && x.line = r.line
    let t := ahead.foldl (fun t x => max t x.arrives) t
    let t := t + p.slotWait r.part t
    (p.modCompany home fun m => { m with inq := m.inq ++ [{ r with arrives := t }] }).later (.mesh t) (.sliceRequest home)

/-- A reply sets out for its core. -/
def Package.sendReply (k : Clock) (p : Package) (key : WaveKey) (leader way : Nat) (body : ReplyBody) : Package :=
  let t := k.mcyc + way
  let ev : Instr := match body with
    | .data _ _ _ _ _ => .loadReturn key.core
    | _ => .storeAck key.core
  (p.modCore key.core fun c => { c with replies := c.replies ++ [{ key := key, leader := leader, arrives := t, body := body }] }).later
    (.mesh t) ev

/-! Performing a memory word. -/

/-- The launch key of an ordered cast (R263). -/
def Cast.launchKey (c : Cast) : Option LaunchKey :=
  if c.ordered then some { part := c.partition, node := c.node, launchid := c.launchid, castindex := c.castindex } else none

/-- What a request does to the issuing core's L1 (R227, R250). -/
def Package.l1Effect (p : Package) (core line : Nat) (ordered : Bool) (b : ReqBody) : Package :=
  match b with
  | .load _ _ _ _ => p
  | .pref _ => p
  | .cflush inv => if inv then (p.modCore core fun c => c.l1Drop line).cancelFills core (· = line) else p
  | .store bytes =>
    if ordered then (p.modCore core fun c => c.l1Drop line).cancelFills core (· = line)
    else (if ((p.core core).l1Find line).isSome then p.modCore core fun c => c.l1Store line bytes else p).cancelFills core (· = line)
  | _ => (p.modCore core fun c => c.l1Drop line).cancelFills core (· = line)

/-- A load or PREF.L1 served by the L1: its elements, if the line is there. -/
def Core.l1Load (c : Core) (line : Nat) : ReqBody → Option (List (Nat × Nat × Word))
  | .load n r lanes _ => (c.l1Find line).map fun x =>
    lanes.flatMap fun l => regsOfBytes r l.lane ((x.data.drop (l.place % 128)).take n)
  | .pref true => (c.l1Find line).map fun _ => []
  | _ => none

/-- Issue one request: an L1 hit is performed at once; any other goes to its home, counted if it is acknowledged (R226, R257). Answers whether its
reply writes registers. -/
def Package.issueReq (k : Clock) (p : Package) (core slot leader id late : Nat) (c : Cast) (line : Nat) (b : ReqBody) : Package × Bool :=
  match (p.core core).l1Load line b with
  | some regs => ((p.modCore core fun x => x.l1Touch line).modWave core slot fun w => w.setElems regs, false)
  | none =>
    let own : Bool := p.homeOf line / 8 = stageOf core
    let p := p.l1Effect core line c.ordered b
    let p := if b.counted then p.modWave core slot fun w => w.sendCounted own else p
    (p.sendReq k late { key := p.keyOf core slot, leader := leader, part := c.partition, id := id, line := line, own := own,
                        staged := c.launchKey, arrives := 0, body := b }, b.returns)

/-- Bytes at consecutive addresses, as runs. -/
def runsOf : List (Nat × Byte) → List (Nat × List Byte)
  | [] => []
  | (a, b) :: l => match runsOf l with
    | (a', bs) :: rest => if a + 1 = a' then (a, b :: bs) :: rest else (a, [b]) :: (a', bs) :: rest
    | [] => [(a, [b])]

/-- Insert a byte by address, the later write standing (R234). -/
def putByte (a : Nat) (b : Byte) : List (Nat × Byte) → List (Nat × Byte)
  | [] => [(a, b)]
  | (x, y) :: l => if a < x then (a, b) :: (x, y) :: l else if a = x then (a, b) :: l else (x, y) :: putByte a b l

/-- The lowest and the end of the bytes that lanes of a size touch. -/
def spanOf (size : Nat) (l : List Elem) : Nat × Nat :=
  let lo := l.foldl (fun m e => min m e.place) ((l.head?.map Elem.place).getD 0)
  (lo, l.foldl (fun m e => max m (e.place + size)) lo)

/-- An AtomicOp goes out: FetchAdd with the folded operand, Swap, or CAS (R240). -/
def Package.sendAtomic (k : Clock) (p : Package) (core part pasid op ty addr tag way : Nat) (todo : List AtomLane) : Package :=
  let size := atomSize ty
  let data := if op = 0 then leBytes size (atomPart op ty todo)
    else match todo with
      | [] => []
      | l :: _ => if op = 9 then l.x ++ l.new else l.x
  let _ := core
  p.later (.mesh (k.mcyc + way)) (.egressTransaction 0 (.atomic (part + 1) pasid addr op data tag))

/-- One request of a memory word to host space (R225, R240). Answers whether its reply writes registers. -/
def Package.issueHost (k : Clock) (p : Package) (core slot leader id : Nat) (c : Cast) (kind : MemKind) (g : List Elem) : Package × Bool :=
  let way := p.hostWay core
  let pasid := (p.part c.partition).ctx.pasid.toNat
  let key := p.keyOf core slot
  let counted := fun (p : Package) (n : Nat) =>
    p.modWave core slot fun w => { (List.range n).foldl (fun (w : Wave) _ => w.sendCounted false) w with hostOut := w.hostOut + n }
  match kind with
  | .load n r =>
    let x := spanOf n g
    let (p, tag) := p.takeTag c.partition (.load key leader id n r (g.map fun e => { lane := e.lane, addr := BitVec.ofNat 64 e.place }) x.1)
    (p.later (.mesh (k.mcyc + way)) (.egressTransaction 0 (.memRead (c.partition + 1) pasid x.1 (x.2 - x.1) tag)), true)
  | .store _ =>
    let bytes := (g.flatMap fun e => bytesFrom e.place e.data).foldl (fun l b => putByte b.1 b.2 l) []
    let p := (runsOf bytes).foldl (fun (p : Package) r =>
      p.later (.mesh (k.mcyc + way)) (.egressTransaction 0 (.memWrite (c.partition + 1) pasid r.1 r.2))) p
    ((counted p 1).sendReply k key leader (2 * way) .hostAck, false)
  | .atomic op ty _ ret r =>
    let lanes := g.map Elem.atom
    let addr := (g.head?.map Elem.place).getD 0
    let (p, tag) := p.takeTag c.partition (.atomic key leader id op ty addr pasid c.partition lanes [] ret r)
    ((counted p (if op = 0 then 1 else lanes.length)).sendAtomic k core c.partition pasid op ty addr tag way lanes, ret)
  | _ => (p, false)

/-- The requests of a memory word to host space. -/
def hostGroups (k : MemKind) (l : List Elem) : List (List Elem) :=
  match k with
  | .atomic _ _ _ _ _ => groupBy Elem.place l
  | _ => byGangLine l

/-- Perform the lanes of a memory word that translated: its requests go out, and its destination registers wait for their replies (R75). -/
def Package.performMem (k : Clock) (p : Package) (core slot leader : Nat) (c : Cast) (op : MemOp) (dev host : List Elem) : Package :=
  let kind := memKind op.instr
  let late := if dev.any fun e => p.viaTlb c.partition e.va && ((p.core core).tlb.lookup c.partition false e.va).isNone then 24 else 0
  let p := (dev ++ host).foldl (fun (p : Package) (e : Elem) => p.noteXlate core c.partition e.va) p
  let id := ((p.wave? core slot).map Wave.nextId).getD 0
  let p := p.modWave core slot fun w => { w with nextId := w.nextId + 1 }
  let step := fun (q : Package × Nat) (r : Package × Bool) => (r.1, if r.2 then q.2 + 1 else q.2)
  let q := (devRequests kind dev).foldl (fun (q : Package × Nat) (r : Nat × ReqBody) =>
    step q (q.1.issueReq k core slot leader id late c r.1 r.2)) (p, 0)
  let q := (hostGroups kind host).foldl (fun (q : Package × Nat) (g : List Elem) => step q (q.1.issueHost k core slot leader id c kind g)) q
  match kind.dest with
  | some (r, n) =>
    if q.2 = 0 then q.1
    else q.1.modWave core slot fun w => { w with pending := w.pending ++ [{ id := id, first := r, count := n, left := q.2 }] }
  | none => q.1

/-- A memory word: the checks of R230, the hold for its walks, the window rule of R72, and the park of R76 and R198 for the lanes that take PAGE. -/
def execMem (i : Instr) (addr : View → Nat → Quad) (data cmp : View → Nat → List Byte) (s : State) : Host.Outcome State Fault Refusal :=
  s.word i fun v s =>
    let op : MemOp := { instr := i, lanes := v.lanes.map (fun j => { lane := j, addr := addr v j }),
                        data := v.lanes.map (data v), cmp := v.lanes.map (cmp v) }
    let k := memKind i
    match s.pkg.memCheck v.iss.core v.waiter v.cast op with
    | .trap t => .trap t
    | .walk pages => .hold (.walk pages)
    | .go dev host page =>
      let run := s.modPkg fun p => p.performMem s.clk v.iss.core v.iss.slot v.iss.leader v.cast op dev host
      match page with
      | [] => .done run
      | l :: _ =>
        if v.windowStart.isSome then .hold (.page l.addr v.act k.writes false)
        else
          let lanes := laneMask fun j => page.any fun x => x.lane = j
          let left := op.elems.filter fun e => page.any fun x => x.lane = e.lane
          let rest : MemOp := { instr := i, lanes := left.map Elem.la, data := left.map Elem.data, cmp := left.map Elem.cmp }
          let r : Park := { word := v.iss.word, lanes := lanes, op := some rest, leader := v.iss.leader, slices := v.slices }
          .done (run.parkFor v r v.iss.word l.addr lanes false k.writes false v.iss.pslot)

/-! The home slices. -/

/-- A write performed at its home: the reservations on its line are cleared. -/
def Package.writeLine (p : Package) (part line : Nat) (bytes : List (Nat × Byte)) : Package :=
  p.storeLine part line (bytes.map fun b => (b.1 % 128, b.2))

/-- A no-return atomic or STRED on a line's bytes: nothing where a target sector is poisoned. -/
def Line.stred (x : Line) (ty : Nat) (parts : List (LanePlace × List Byte)) : List (Nat × Byte) :=
  let a := stredAtom ty
  let n := stredSize ty
  (groupBy (fun q : LanePlace × List Byte => q.1.place) parts).flatMap fun g =>
    match g with
    | [] => []
    | q :: _ =>
      let off := q.1.place % 128
      let old := ofLe ((x.data.drop off).take n)
      let lanes := g.map fun y => ({ lane := y.1.lane, x := y.2, new := [] } : AtomLane)
      bytesFrom q.1.place (leBytes n (atomNew a.1 a.2 old lanes))

/-- The poisoned lanes of a line. -/
def Line.poisoned (x : Line) (place : Nat) : Bool := x.poison.getLsbD (place / 64 % 2)

/-- The bytes that a staged body writes over the line as it stands (R263). -/
def Line.stagedBytes (x : Line) : ReqBody → List (Nat × Byte)
  | .store bytes => bytes
  | .atomic op ty at_ lanes _ _ =>
    if x.poisoned at_.place then []
    else bytesFrom at_.place (leBytes (atomSize ty) (atomNew op ty (ofLe ((x.data.drop (at_.place % 128)).take (atomSize ty))) lanes))
  | .stred ty parts => if parts.any fun q => x.poisoned q.1.place then [] else x.stred ty parts
  | _ => []

/-- Apply a staged body to a line. -/
def Line.stage (x : Line) (b : ReqBody) : Line := x.write ((x.stagedBytes b).map fun y => (y.1 % 128, y.2))

/-- The staged entries of a cast on a line, in staging order. -/
def Package.stagedOn (p : Package) (key : LaunchKey) (line : Nat) : List Staged :=
  (p.company (p.homeOf line)).staged.filter fun s => s.key = key && s.line = line

/-- A line as an agent sees it: the released contents, with the cast's own staged writes over them (R263). -/
def Package.viewLine (p : Package) (key : Option LaunchKey) (line : Nat) : Line :=
  match key with
  | none => p.lineNow line
  | some key => (p.stagedOn key line).foldl (fun x s => x.stage s.body) (p.lineNow line)

/-- The ticket entry of a launch (R378). -/
def Package.ticketOf (p : Package) (key : LaunchKey) : Option Ticket :=
  (p.tickets.filterMap id).find? fun t => t.part = key.part && t.node = key.node && t.launchid = key.launchid

/-- The cast is the lowest unreleased of its launch. -/
def Package.isLowest (p : Package) (key : LaunchKey) : Bool :=
  (p.ticketOf key).any fun t => t.tknext = key.castindex

/-- The cast has been released early (R266). -/
def Package.isEarly (p : Package) (key : LaunchKey) : Bool :=
  (p.ticketOf key).any fun t => t.tknext = key.castindex && t.early

/-- The sectors that a staged body writes. -/
def ReqBody.sectors : ReqBody → Nat
  | .store bytes => (bytes.foldl (fun l b => setInsert l (b.1 / 64)) []).length
  | .atomic _ _ _ _ _ _ => 1
  | .stred _ parts => (parts.foldl (fun l q => setInsert l (q.1.place / 64)) []).length
  | .sc _ _ lanes _ => (lanes.foldl (fun l q => setInsert l (q.place / 64)) []).length
  | _ => 0

/-- The staged sectors of a slice. -/
def Company.stagedSectors (m : Company) : Nat := (m.staged.map fun s => s.body.sectors).foldl (· + ·) 0

/-- The sectors of a partition among staged entries that lie past the first 8,192 of their slice, `n` of which stand before them. -/
def spillOf (part : Nat) : Nat → List Staged → Nat
  | _, [] => 0
  | n, s :: l =>
    let after := n + s.body.sectors
    (if s.key.part = part then after - max n 8192 else 0) + spillOf part after l

/-- The sectors that the slices have spilled to a partition's staging region (R266). -/
def Package.spilled (p : Package) (part : Nat) : Nat := (p.companies.map fun m => spillOf part 0 m.staged).foldl (· + ·) 0

/-- No room to stage a request at a slice (R266). -/
def Package.stagingFull (p : Package) (m : Nat) (part : Nat) (b : ReqBody) : Bool :=
  8192 < (p.company m).stagedSectors + b.sectors && Config.stagingSectors part < p.spilled part + b.sectors

/-- Apply staged entries of a cast at a slice in staging order (R263). -/
def Package.applyStaged (p : Package) (m : Nat) (key : LaunchKey) (discard : Bool) : Package :=
  let mine := (p.company m).staged.filter fun s => s.key = key
  let p := p.modCompany m fun c => { c with staged := c.staged.filter fun s => s.key ≠ key }
  if discard then p
  else mine.foldl (fun (p : Package) (s : Staged) =>
    let bytes := (p.lineNow s.line).stagedBytes s.body
    if bytes.isEmpty then p else p.writeLine key.part s.line bytes) p

/-- Release the lowest unreleased cast early (R266): its staged entries are applied and its later writes go straight to memory. -/
def Package.releaseEarly (p : Package) (key : LaunchKey) : Package :=
  let mark := fun t : Ticket =>
    if t.part = key.part && t.node = key.node && t.launchid = key.launchid then { t with early := true } else t
  (List.range 32).foldl (fun (p : Package) m => p.applyStaged m key false) { p with tickets := p.tickets.map (Option.map mark) }

/-- Perform a write of an agent on a line: staged for an ordered cast, at once otherwise. The cast's own reservations on the line end as it
sees the write. -/
def Package.writeFor (p : Package) (r : Req) (b : ReqBody) (bytes : List (Nat × Byte)) : Package :=
  match r.staged with
  | some key =>
    if p.isEarly key then p.writeLine r.part r.line bytes
    else p.modCompany (p.homeOf r.line) fun m =>
      { m with staged := m.staged ++ [{ key := key, line := r.line, body := b }]
               resv := m.resv.filter fun x => !(x.line = r.line && x.key.core = r.key.core && x.key.castid = r.key.castid) }
  | none => p.writeLine r.part r.line bytes

/-- The wave's reservation ends in every slice. -/
def Package.dropReservation (p : Package) (key : WaveKey) : Package :=
  { p with companies := p.companies.map fun m : Company => { m with resv := m.resv.filter fun r => r.key ≠ key } }

/-- A poisoned or good lane with its address. -/
def LanePlace.la (l : LanePlace) : LaneAddr := { lane := l.lane, addr := l.va }

/-- A home slice applies one request indivisibly and replies (R237, R238, R241 to R248, R263). A slice never lacks a reservation entry (R226, notes/assumptions/122.md). -/
def Package.applyReq (k : Clock) (p : Package) (r : Req) : Package :=
  let home := p.homeOf r.line
  let way := p.oneWay r.key.core home r.line
  let x := p.viewLine r.staged r.line
  let mine := (r.staged.map fun key => !(p.stagedOn key r.line).isEmpty).getD false
  let reply := fun (p : Package) (b : ReplyBody) => p.sendReply k r.key r.leader way b
  let bad := fun l : List LanePlace => l.filter fun y => x.poisoned y.place
  let good := fun l : List LanePlace => l.filter fun y => !x.poisoned y.place
  let ack := fun (p : Package) (b : List LanePlace) => reply p (if b.isEmpty then .ack r.own else .poison (b.map LanePlace.la) r.own)
  let read := fun (n reg : Nat) (l : List LanePlace) => l.flatMap fun y => regsOfBytes reg y.lane ((x.data.drop (y.place % 128)).take n)
  match r.body with
  | .load n reg lanes fill =>
    let p := p.touchLine r.part r.line
    reply p (.data r.id (read n reg (good lanes)) ((bad lanes).map LanePlace.la)
      (if fill && !mine && x.poison = 0 then some { x with dirty := 0 } else none) none)
  | .store bytes => ack (p.writeFor r (.store bytes) bytes) []
  | .atomic op ty at_ lanes ret reg =>
    let n := atomSize ty
    let all := lanes.map fun l => ({ lane := l.lane, va := at_.va, place := at_.place } : LanePlace)
    if x.poisoned at_.place then
      if ret then reply p (.data r.id [] (all.map LanePlace.la) none (some r.own)) else ack p all
    else
      let old := ofLe ((x.data.drop (at_.place % 128)).take n)
      let bytes := bytesFrom at_.place (leBytes n (atomNew op ty old lanes))
      let p := (p.touchLine r.part r.line).writeFor r (if ret then .store bytes else r.body) bytes
      if ret then
        reply p (.data r.id ((atomReturns op ty old lanes).flatMap fun y => regsOfBytes reg y.1 (leBytes n y.2)) [] none (some r.own))
      else ack p []
  | .lr n reg lanes =>
    let p := (p.touchLine r.part r.line).dropReservation r.key
    let p := p.modCompany home fun m => { m with resv := m.resv ++ [{ key := r.key, line := r.line }] }
    reply p (.data r.id (read n reg (good lanes)) ((bad lanes).map LanePlace.la) none none)
  | .sc n reg lanes data =>
    let held := (p.company home).resv.any fun y => y.key = r.key && y.line = r.line
    let p := p.dropReservation r.key
    let ok := held && (bad lanes).isEmpty
    let bytes := (lanes.zip data).flatMap fun y => bytesFrom y.1.place y.2
    let p := if ok then p.writeFor r (.store bytes) bytes else p
    let status := leBytes n (if ok then 0 else 1)
    reply p (.data r.id ((good lanes).flatMap fun y => regsOfBytes reg y.lane status) ((bad lanes).map LanePlace.la) none (some r.own))
  | .stred ty parts =>
    let b := bad (parts.map Prod.fst)
    if b.isEmpty then ack ((p.touchLine r.part r.line).writeFor r r.body (x.stred ty parts)) [] else ack p b
  | .pref l1 =>
    let p := p.touchLine r.part r.line
    if l1 && !mine && x.poison = 0 then reply p (.data r.id [] [] (some { x with dirty := 0 }) none) else p
  | .cflush inv => p.flushLine r.line inv

/-- A store that covers whole sectors only, which needs no fill (R228). -/
def wholeSectors (bytes : List (Nat × Byte)) : Bool :=
  (bytes.foldl (fun l b => setInsert l (b.1 / 64)) []).all fun s => (List.range 64).all fun i => bytes.any fun b => b.1 = 64 * s + i

/-- The request can be applied without the line being in the slice. -/
def Req.noLine (r : Req) : Bool :=
  match r.body with
  | .store bytes => r.staged.isSome || wholeSectors bytes
  | .cflush _ => true
  | .atomic _ _ _ _ false _ => r.staged.isSome
  | .stred _ _ => r.staged.isSome
  | _ => false

/-- A request that writes, which an ordered cast stages. -/
def ReqBody.stages : ReqBody → Bool
  | b => b.counted

/-- Take a request at its slice: behind an earlier one of its core and line that waits; at a full staging region (R266); behind a missing
line's fill (R228), which every request to the line that arrives later waits for too, so that arrival order stands (R238); else it is applied. -/
def Package.takeReq (k : Clock) (p : Package) (r : Req) : Package :=
  let m := p.homeOf r.line
  let behind := (p.company m).stageWait.any fun x => x.key.core = r.key.core && x.line = r.line
  let wait := fun p : Package => p.modCompany m fun c => { c with stageWait := c.stageWait ++ [r] }
  if behind then wait p
  else
    let full := match r.staged with
      | some key => r.body.stages && !p.isEarly key && p.stagingFull m r.part r.body
      | none => false
    let lowest := (r.staged.map p.isLowest).getD false
    if full && !lowest then wait p
    else
      let p := match r.staged with
        | some key => if full then p.releaseEarly key else p
        | none => p
      if (r.noLine || (p.l2Find r.line).isSome) && !(p.company m).stalled.any (fun x => x.line = r.line) then p.applyReq k r
      else
        let p := p.modCompany m fun c => { c with stalled := c.stalled ++ [r] }
        if (p.company m).fills.any fun f => f.1 = r.line then p
        else
          let v := vaultOf r.line
          ((p.modCompany m fun c => { c with fills := c.fills ++ [(r.line, 0)] }).modVault v
            fun q => { q with q := q.q ++ [{ company := m, line := r.line, part := r.part }] }).later .now (.vaultRequest v)

/-- The index of the request of a slice that arrived first, if one has arrived. -/
def firstArrived (t : Nat) (l : List Req) : Option Nat :=
  ((l.zipIdx).foldl (fun (b : Option (Nat × Nat)) (r : Req × Nat) =>
    if t < r.1.arrives then b else match b with
      | some x => if r.1.arrives < x.1 then some (r.1.arrives, r.2) else b
      | none => some (r.1.arrives, r.2)) none).map Prod.snd

/-- SLICE_REQUEST (R238): the slice takes the request that arrived first. -/
def sliceRequestAt (m : Nat) (k : Clock) (p : Package) : Package :=
  let l := (p.company m).inq
  match firstArrived k.mcyc l with
  | none => p
  | some i =>
    match l[i]? with
    | none => p
    | some r => (p.modCompany m fun c => { c with inq := c.inq.eraseIdx i }).takeReq k r

/-- Try the requests again that waited for room to stage (R266). -/
def Package.retryStaged (k : Clock) (p : Package) : Package :=
  (List.range 32).foldl (fun (p : Package) m =>
    let l := (p.company m).stageWait
    l.foldl (fun (p : Package) (r : Req) => p.takeReq k r) (p.modCompany m fun c => { c with stageWait := [] })) p

/-- L2_FILL (R228): a line comes back from its vault, is installed in a way of its partition, and the requests that waited for it are applied in
order. -/
def l2FillAt (m : Nat) (k : Clock) (p : Package) : Package :=
  match (p.company m).fills.find? fun f => f.2 ≠ 0 && f.2 ≤ k.mcyc with
  | none => p
  | some f =>
    let mine := (p.company m).stalled.filter fun r => r.line = f.1
    let p := p.modCompany m fun c =>
      { c with fills := c.fills.filter (fun x => x.1 ≠ f.1), stalled := c.stalled.filter fun r => r.line ≠ f.1 }
    let p := p.touchLine ((mine.head?.map Req.part).getD 8) f.1
    mine.foldl (fun (p : Package) (r : Req) => p.applyReq k r) p

/-! Replies at the core. -/

/-- Step 1 of a HOSTMSG is over (R166). -/
def BlockOp.storesOver : BlockOp → BlockOp
  | .hostmsg p0 p1 tag _ => .hostmsg p0 p1 tag true
  | b => b

/-- A counted request is acknowledged (R231, R257): one beyond the count takes its place; with none left the waiting HOSTMSGs go on to step 2 (R166). -/
def Wave.acked (w : Wave) (own : Bool) : Wave :=
  let w := { w with outst := w.outst - 1, outl := if own then w.outl - 1 else w.outl }
  match w.outstMore with
  | o :: l => ({ w with outstMore := l } : Wave).sendCounted o
  | [] =>
    if w.outst = 0 then
      { w with slices := w.slices.map fun s : Slice => { s with blocked := s.blocked.map fun b : Blocked => { b with op := b.op.storesOver } } }
    else w

/-- POISON falls due for lanes of a word (R160, R248). -/
def Wave.poisonDue (w : Wave) (leader : Nat) (bad : List LaneAddr) : Wave :=
  match bad with
  | [] => w
  | l :: _ =>
    { w with due := w.due ++ [{ cause := .poison, addr := (bad.foldl (fun m x => if x.lane < m.lane then x else m) l).addr,
                                lanes := laneMask fun j => bad.any fun x => x.lane = j, leader := leader }] }

/-- One returned request of a word: the last frees its destination registers. -/
def Wave.returned (w : Wave) (id : Nat) : Wave :=
  { w with pending := (w.pending.map fun q : Pending => if q.id = id then { q with left := q.left - 1 } else q).filter fun q => q.left ≠ 0 }

/-- Change the wave that a reply answers, if it still lives; the asynchronous trap of a wave that has ended is counted (R160). -/
def Package.answer (p : Package) (key : WaveKey) (bad : Bool) (f : Wave → Wave) : Package :=
  if (p.waveOf? key).isSome then p.modWave key.core key.slot f
  else if bad then p.count (Config.errTRAPDROP + key.core) Config.max16 else p

/-- The first reply of a core that can be read and that a test admits, with its index. -/
def Core.nextReply (c : Core) (t : Nat) (f : ReplyBody → Bool) : Option (Nat × Reply) :=
  (findIdx? (fun r : Reply => r.due.isNone && r.arrives ≤ t && f r.body) c.replies).bind fun i => (c.replies[i]?).map fun r => (i, r)

/-- The first reply of a core whose data reach the registers in a company cycle. -/
def Core.landing (c : Core) (cyc : Nat) : Option (Nat × Reply) :=
  (findIdx? (fun r : Reply => r.due.any fun d => decide (d ≤ cyc)) c.replies).bind fun i => (c.replies[i]?).map fun r => (i, r)

/-- The company reads this reply now (R389): at an edge of its clock, one entry in a company cycle, in the order in which they were written. -/
def Package.canRead (k : Clock) (p : Package) (core : Nat) (r : Reply) : Bool :=
  let m := companyOf core
  k.atEdge (p.company m).level && (p.company m).readAt ≠ k.cycleOf m + 1
    && ((p.cores.drop (8 * m)).take 8).all fun c => c.replies.all fun x => x.due.isSome || decide (r.arrives ≤ x.arrives)

/-- The company has read its FIFO in this cycle. -/
def Package.noteRead (k : Clock) (p : Package) (core : Nat) : Package :=
  p.modCompany (companyOf core) fun m => { m with readAt := k.cycleOf (companyOf core) + 1 }

/-- A reply that carries data. -/
def ReplyBody.isData : ReplyBody → Bool
  | .data _ _ _ _ _ => true
  | _ => false

/-- STORE_ACK (R231): an acknowledgement reaches the core. -/
def storeAckAt (core : Nat) (k : Clock) (p : Package) : Package :=
  match (p.core core).nextReply k.mcyc fun b => !b.isData with
  | none => p
  | some (i, r) =>
    if !p.canRead k core r then p.later (.company (companyOf core) (k.cycleOf (companyOf core) + 1)) (.storeAck core)
    else
      let p := (p.noteRead k core).modCore core fun c => { c with replies := c.replies.eraseIdx i }
      match r.body with
      | .ack own => p.answer r.key false fun w => w.acked own
      | .hostAck => p.answer r.key false fun w => { w.acked false with hostOut := w.hostOut - 1 }
      | .poison lanes own => p.answer r.key true fun w => (w.acked own).poisonDue r.leader lanes
      | .data _ _ _ _ _ => p

/-- The data of a reply reach the registers (R227, R250): the active lanes are written, the line is installed unless its fill was cancelled. -/
def Package.landReply (p : Package) (core i : Nat) (r : Reply) : Package :=
  let p := p.modCore core fun c => { c with replies := c.replies.eraseIdx i }
  match r.body with
  | .data id regs bad fill acked =>
    let p := match fill with
      | some x => p.modCore core fun c => c.l1Fill x
      | none => p
    p.answer r.key (!bad.isEmpty) fun w =>
      let w := ((w.setElems regs).returned id).poisonDue r.leader bad
      match acked with
      | some own => w.acked own
      | none => w
  | _ => p

/-- LOAD_RETURN (R27, R227, R250, R389): data that were read from the crossing FIFO reach the registers, 15 company cycles after that; otherwise the next reply is read. -/
def loadReturnAt (core : Nat) (k : Clock) (p : Package) : Package :=
  let m := companyOf core
  let cyc := k.cycleOf m
  match (p.core core).landing cyc with
  | some (i, r) => p.landReply core i r
  | none =>
    match (p.core core).nextReply k.mcyc ReplyBody.isData with
    | none => p
    | some (i, r) =>
      if !p.canRead k core r then p.later (.company m (cyc + 1)) (.loadReturn core)
      else ((p.noteRead k core).modCore core fun c =>
        { c with replies := modAt c.replies i fun x => { x with due := some (cyc + 15) } }).later (.company m (cyc + 15)) (.loadReturn core)

/-- The record of a cue ring in host space reaches the LAUNCH that waits for it (R189). -/
def Package.cueRead (p : Package) (core entry i : Nat) (data : List Byte) : Package :=
  (p.modCore core fun c => { c with binds := c.binds.map fun b => if b.entry = entry then { b with recs := b.recs ++ [(i, data)] } else b }).later .now
    (.launch core)

/-- A read of the endpoint has been answered: the next of those that wait for one of the 512 goes out (R317). -/
def Package.readOver (p : Package) (tag : Nat) : Package :=
  if !p.reads.contains tag then p
  else match p.readQ with
    | [] => { p with reads := p.reads.erase tag }
    | e :: rest => ({ p with reads := p.reads.erase tag, readQ := rest } : Package).later .now (.egressTransaction 0 e)

/-- HOST_READ_COMPLETION (R225): the data of a host-space load goes to its core. -/
def hostReadAt (tag : Nat) (data : List Byte) (k : Clock) (p : Package) : Package :=
  let p := p.readOver tag
  match p.pcieWait? tag with
  | some (.cue core entry i) => (p.dropTag tag).cueRead core entry i data
  | some (.load key leader id n reg lanes base) =>
    let regs := lanes.flatMap fun l =>
      regsOfBytes reg l.lane ((List.range n).map fun i => data.getD (l.addr.toNat - base + i) 0)
    (p.dropTag tag).sendReply k key leader (p.hostWay key.core) (.data id regs [] none none)
  | some (.copy core i castid num addr len) =>
    let mine := fun (c : Coll) => c.num = num && ((p.cast? core c.cast).map Cast.castid) = some castid
    let bytes := (List.range len).map fun j => data.getD j 0
    let take := fun x : CopyPos => { x with host := some (addr, bytes), hostWait := false }
    (p.dropTag tag).modCtx core fun x => { x with colls := modAt x.colls i (Option.map fun c : Coll =>
      if mine c then { c with pos := c.pos.map take } else c) }
  | _ => p

/-- ATOMICOP_COMPLETION (R240): an AtomicOp returns the old value; the next of a SWAP or CAS word goes out. The lanes of an ADD follow R237. -/
def atomicCompletionAt (tag : Nat) (data : List Byte) (k : Clock) (p : Package) : Package :=
  match p.pcieWait? tag with
  | some (.atomic key leader id op ty addr pasid part todo got ret reg) =>
    let n := atomSize ty
    let old := ofLe ((List.range n).map fun i => data.getD i 0)
    let one := fun p : Package => p.answer key false fun w => { w.acked false with hostOut := w.hostOut - 1 }
    let p := one (p.dropTag tag)
    let fin := fun (p : Package) (l : List (Nat × Nat)) =>
      if ret then p.sendReply k key leader (p.hostWay key.core)
        (.data id (l.flatMap fun y => regsOfBytes reg y.1 (leBytes n y.2)) [] none none)
      else p
    if op = 0 then fin p (atomReturns op ty old todo)
    else
      match todo with
      | [] => p
      | l :: rest =>
        let got := got ++ [{ lane := l.lane, x := leBytes n old, new := [] }]
        if rest.isEmpty then fin p (got.map fun g => (g.lane, ofLe g.x))
        else
          let (p, tag) := p.takeTag part (.atomic key leader id op ty addr pasid part rest got ret reg)
          p.sendAtomic k key.core part pasid op ty addr tag 0 rest
  | _ => p

/-! The resumption of a parked word (R199). -/

/-- PAGE_RESOLUTION (R199 step 3): every unfinished lane is checked again; those that translate perform, those that still take PAGE leave a new
record, and with a lane that is denied ACCESS is delivered once the lanes that translate have performed (R162). A wave that waited for code or in a window goes on. -/
def pageResolutionAt (core slot : Nat) (k : Clock) (p : Package) : Package :=
  match p.wave? core slot with
  | none => p
  | some w =>
    match w.park, p.cast? core w.cast with
    | some r, some c =>
      match r.op with
      | none => (p.dropWalks core (.wave core slot)).modWave core slot fun w => { w with park := none }
      | some op =>
        match p.memCheck core (.wave core slot) { c with ordered := false } op with
        | .walk pages =>
          pages.foldl (fun (p : Package) (a : Quad × Bool × Bool) => p.addWalk core c.partition (.wave core slot) a.1 a.2.1 a.2.2) p
        | .trap t =>
          let x := p.sortLanes core (.wave core slot) c.partition op
          let p := (p.dropWalks core (.wave core slot)).performMem k core slot r.leader c op x.dev x.host
          let p := p.modWave core slot fun w => { w with trapaddr := t.addr, traplanes := t.lanes.getD 0 }
          p.accessParked k core slot
        | .go dev host page =>
          let p := (p.dropWalks core (.wave core slot)).performMem k core slot r.leader c op dev host
          match page with
          | [] => p.modWave core slot fun w => { w with park := none }
          | l :: _ =>
            let lanes := laneMask fun j => page.any fun x => x.lane = j
            let left := op.elems.filter fun e => page.any fun x => x.lane = e.lane
            let rest : MemOp := { op with lanes := left.map Elem.la, data := left.map Elem.data, cmp := left.map Elem.cmp }
            let p := p.modWave core slot fun w =>
              { w with park := some { r with lanes := lanes, op := some rest }, trapaddr := l.addr, traplanes := lanes }
            p.requestPage k core slot none c.partition l.addr (memKind op.instr).writes false
    | _, _ => p

/-- WAITST_COMPLETE (R247): the party goes on once OUTST is 0. -/
def waitstCompleteAt (core slot leader : Nat) (p : Package) : Package :=
  match p.wave? core slot with
  | some w => match w.blockedAt leader with
    | some { op := .waitst, .. } => if w.outst = 0 then p.modWave core slot fun w => w.endWait leader else p
    | _ => p
  | none => p

/-! The words. -/

/-- The address of lane j of LDC and STC (R232). -/
def View.contAddr (v : View) (w : MC) (j : Nat) : Quad :=
  v.src.s w.b.toNat + (immQuad w.o * 128 + BitVec.ofNat 64 j) * BitVec.ofNat 64 (2 ^ w.e.toNat)

/-- The index of a lane (R233). -/
def View.gatherIndex (v : View) (w : MG) (j : Nat) : Quad :=
  let n := 8 * 2 ^ w.w.toNat
  if w.w = 3 then v.pair w.i.toNat j
  else
    let x := BitVec.ofNat n (v.vec w.i.toNat j).toNat
    if w.g = 1 then x.signExtend 64 else x.setWidth 64

/-- The address of lane j of LDG and STG (R233). -/
def View.gatherAddr (v : View) (w : MG) (j : Nat) : Quad :=
  v.src.s w.b.toNat + v.gatherIndex w j * BitVec.ofNat 64 (2 ^ w.s.toNat)

/-- s[sb] + Zext(i[j], 32) (R235, R241). -/
def View.indexAddr (v : View) (b : BitVec 4) (i : BitVec 7) (j : Nat) : Quad :=
  v.src.s b.toNat + (v.vec i.toNat j).setWidth 64

/-- No operand. -/
def noData (_ : View) (_ : Nat) : List Byte := []

/-- An atomic: the operand in the group at v; AMCAS compares with it and takes its new value from the next group (R235). -/
def execAtom (i : Instr) (w : AT) (cas : Bool) (s : State) : Host.Outcome State Fault Refusal :=
  let n := atomSize w.t.toNat
  execMem i (fun v => v.indexAddr w.b w.i) (fun v => v.bytes w.v.toNat n)
    (fun v j => if cas then v.bytes (w.v.toNat + n / 4) n j else []) s

noncomputable section

def execLDC (w : MC) (s : State) : Host.Outcome State Fault Refusal :=
  execMem (.ldc w) (fun v => v.contAddr w) noData noData s

def execSTC (w : MC) (s : State) : Host.Outcome State Fault Refusal :=
  execMem (.stc w) (fun v => v.contAddr w) (fun v => v.dataBytes w.v.toNat (2 ^ w.e.toNat)) noData s

def execLDG (w : MG) (s : State) : Host.Outcome State Fault Refusal :=
  execMem (.ldg w) (fun v => v.gatherAddr w) noData noData s

def execSTG (w : MG) (s : State) : Host.Outcome State Fault Refusal :=
  execMem (.stg w) (fun v => v.gatherAddr w) (fun v => v.dataBytes w.v.toNat (2 ^ w.e.toNat)) noData s

def execAMADD (w : AT) (s : State) : Host.Outcome State Fault Refusal := execAtom (.amadd w) w false s
def execAMSMIN (w : AT) (s : State) : Host.Outcome State Fault Refusal := execAtom (.amsmin w) w false s
def execAMSMAX (w : AT) (s : State) : Host.Outcome State Fault Refusal := execAtom (.amsmax w) w false s
def execAMUMIN (w : AT) (s : State) : Host.Outcome State Fault Refusal := execAtom (.amumin w) w false s
def execAMUMAX (w : AT) (s : State) : Host.Outcome State Fault Refusal := execAtom (.amumax w) w false s
def execAMAND (w : AT) (s : State) : Host.Outcome State Fault Refusal := execAtom (.amand w) w false s
def execAMOR (w : AT) (s : State) : Host.Outcome State Fault Refusal := execAtom (.amor w) w false s
def execAMXOR (w : AT) (s : State) : Host.Outcome State Fault Refusal := execAtom (.amxor w) w false s
def execAMSWAP (w : AT) (s : State) : Host.Outcome State Fault Refusal := execAtom (.amswap w) w false s
def execAMCAS (w : AT) (s : State) : Host.Outcome State Fault Refusal := execAtom (.amcas w) w true s
def execAMFADD (w : AT) (s : State) : Host.Outcome State Fault Refusal := execAtom (.amfadd w) w false s
def execAMFMIN (w : AT) (s : State) : Host.Outcome State Fault Refusal := execAtom (.amfmin w) w false s
def execAMFMAX (w : AT) (s : State) : Host.Outcome State Fault Refusal := execAtom (.amfmax w) w false s

def execLR (w : MXW) (s : State) : Host.Outcome State Fault Refusal :=
  execMem (.lr w) (fun v => v.indexAddr w.b w.i) noData noData s

def execSC (w : MXW) (s : State) : Host.Outcome State Fault Refusal :=
  execMem (.sc w) (fun v => v.indexAddr w.b w.i) (fun v => v.bytes w.v.toNat (if w.w = 1 then 8 else 4)) noData s

def execSTRED (w : MXT) (s : State) : Host.Outcome State Fault Refusal :=
  execMem (.stred w) (fun v => v.indexAddr w.b w.i) (fun v => v.dataBytes w.v.toNat (stredSize w.t.toNat)) noData s

def execPREF (w : MXL) (s : State) : Host.Outcome State Fault Refusal :=
  execMem (.pref w) (fun v => v.indexAddr w.b w.i) noData noData s

def execCFLUSH (w : MXN) (s : State) : Host.Outcome State Fault Refusal :=
  execMem (.cflush w) (fun v => v.indexAddr w.b w.i) noData noData s

/-- CINV (R246). -/
def execCINV (w : C0) (s : State) : Host.Outcome State Fault Refusal :=
  s.word (.cinv w) fun v s => .done (s.modPkg fun p => p.l1Clear v.iss.core)

/-- WAITST (R247). -/
def execWAITST (w : C0) (s : State) : Host.Outcome State Fault Refusal :=
  s.word (.waitst w) fun v s => if v.now.outst = 0 then .done s else .block s .waitst

end

def execSLICE_REQUEST (company : Nat) (s : State) : Host.Outcome State Fault Refusal := s.event (sliceRequestAt company)
def execL2_FILL (company : Nat) (s : State) : Host.Outcome State Fault Refusal := s.event (l2FillAt company)
def execSTORE_ACK (core : Nat) (s : State) : Host.Outcome State Fault Refusal := s.event (storeAckAt core)
def execLOAD_RETURN (core : Nat) (s : State) : Host.Outcome State Fault Refusal := s.event (loadReturnAt core)
def execPAGE_RESOLUTION (core slot : Nat) (s : State) : Host.Outcome State Fault Refusal := s.event (pageResolutionAt core slot)
def execHOST_READ_COMPLETION (tag : Nat) (data : List Byte) (s : State) : Host.Outcome State Fault Refusal := s.event (hostReadAt tag data)
def execATOMICOP_COMPLETION (tag : Nat) (data : List Byte) (s : State) : Host.Outcome State Fault Refusal :=
  s.event (atomicCompletionAt tag data)
def execWAITST_COMPLETE (core slot leader : Nat) (s : State) : Host.Outcome State Fault Refusal :=
  s.event fun _ => waitstCompleteAt core slot leader

end Sys2Proof.Machine
end

