-- ==== Sys2Proof/Machine/Order.lean ====
section
/-! DEFINITION. Memory ordering (R254 to R267): FENCE and its flush markers, gather entries and performance, the words it holds, and the ticket unit
that releases ordered casts (R377, R378). -/

namespace Sys2Proof.Machine

/-! FENCE (R254 to R256, R260). -/

/-- The kind of the f field (R254). -/
def fenceKind (f : Nat) : FenceKind :=
  match f with
  | 1 => .acq
  | 2 => .rel
  | _ => .acqrel

/-- The kind holds a release. -/
def FenceKind.releases : FenceKind → Bool
  | .acq => false
  | _ => true

/-- The kind holds an acquire. -/
def FenceKind.acquires : FenceKind → Bool
  | .rel => false
  | _ => true

/-- The other stages present, which a house or system release must hear from (R260). -/
def Package.otherStages (p : Package) (core : Nat) : List Nat := p.presentStages.filter fun s => s ≠ stageOf core

/-- Start a fence: a house or system release sends a marker down each path to every other stage present (R260). Half of the 120 mesh cycles of
Table 13.3 is the way there. -/
def Package.startFence (k : Clock) (p : Package) (core slot : Nat) (kind : FenceKind) (scope : Nat) (implied : Bool) (word : Quad) : Package :=
  let others := if kind.releases && 3 ≤ scope then p.otherStages core else []
  let t := k.mcyc + 60
  let p := others.foldl (fun (p : Package) st =>
    ((p.modStage st fun s => { s with markers := s.markers ++ [{ core := core, slot := slot, path := 0, arrives := t, sent := k.mcyc },
      { core := core, slot := slot, path := 1, arrives := t, sent := k.mcyc }] }).later (.mesh t) (.flushMarkerArrival st)).later (.mesh t) (.flushMarkerArrival st)) p
  let mask := others.foldl (fun (m : BitVec 4) s => m ||| BitVec.ofNat 4 (2 ^ s)) 0
  p.modWave core slot fun w => { w with fence := some { kind := kind, scope := scope, stages := mask, implied := implied, word := word } }

/-- The scratchpad accesses of a wave that have not committed: the loads among them, or any (R255, R256). -/
def Wave.uncommitted (w : Wave) (loads : Bool) : Bool :=
  w.leaders.any fun l => (w.blockedAt l).any fun b => match b.op with
    | .fullEmpty a => !loads || !a.store
    | _ => false

/-- What a release waits for (Table 13.3); the scratchpad accesses that were under way before it have committed. -/
def Wave.releaseDone (w : Wave) (f : Fence) (mcyc : Nat) : Bool :=
  !w.uncommitted false && match f.scope with
  | 0 => true
  | 1 => w.outst = 0
  | 2 => w.outst = 0
  | 3 => w.outl = 0 && f.stages = 0 && f.ready ≤ mcyc
  | _ => w.outl = 0 && f.stages = 0 && f.ready ≤ mcyc && w.hostOut = 0

/-- The conditions of a pending fence hold (R255, R256). -/
def Wave.fenceDone (w : Wave) (mcyc : Nat) : Bool :=
  match w.fence with
  | none => false
  | some f => w.pending.isEmpty && (!f.kind.releases || w.releaseDone f mcyc) && (f.attached || !w.uncommitted true)

/-- The record of a CUEEMIT goes to the cue unit once its release has been performed (R306). -/
def Package.sendCue (k : Clock) (p : Package) (core slot : Nat) : Package :=
  match p.wave? core slot with
  | none => p
  | some w =>
    match w.blockedAt w.sole, p.cast? core w.cast with
    | some { op := .cueemit node rec_ _ _, .. }, some c =>
      let t := k.mcyc + p.transit core
      let e := CueArrival.emit (p.keyOf core slot) w.sole c.partition c.node node rec_ c.launchKey
      ({ p with cueIn := p.cueIn ++ [(t, e)] }).later (.mesh t) .cueAppend
    | _, _ => p

/-- FENCE_PERFORMED (R255, R256): the held words may issue; an acquire at company scope or wider empties the core's L1; the release before a CUEEMIT
lets it send (R306). -/
def fencePerformedAt (core slot : Nat) (k : Clock) (p : Package) : Package :=
  match p.wave? core slot with
  | none => p
  | some w =>
    match w.fence with
    | none => p
    | some f =>
      if !w.fenceDone k.mcyc then p
      else
        let p := if f.kind.acquires && 1 ≤ f.scope then p.l1Clear core else p
        let send := fun s : Slice => { s with blocked := s.blocked.map fun b => match b.op with
          | .cueemit node rec_ dest _ => { b with op := .cueemit node rec_ dest f.implied }
          | _ => b }
        let p := p.modWave core slot fun w => { w with fence := none, slices := if f.implied then w.slices.map send else w.slices }
        if f.implied then p.sendCue k core slot else p

/-- The ingress has an entry of a marker's fence, or room for one: 256 entries per source stage (R260). -/
def Stage.hasRoom (s : Stage) (m : Marker) : Bool :=
  (s.gather.any fun g => g.core = m.core && g.slot = m.slot) || decide ((s.gather.filter fun g => g.from_ = stageOf m.core).length < 256)

/-- The first marker that has arrived at a stage and can be taken; one that finds the table full waits at the head of its path, and those behind it wait too (R260). -/
def Stage.nextMarker (s : Stage) (t : Nat) : Option Nat :=
  findIdx? (fun m : Marker => m.arrives ≤ t && s.hasRoom m
    && !s.markers.any fun x => x.arrives ≤ m.arrives && !s.hasRoom x && stageOf x.core = stageOf m.core && x.path = m.path) s.markers

/-- FLUSH_MARKER_ARRIVAL (R260): a marker reaches the ingress and sets its path bit. -/
def flushMarkerAt (stage : Nat) (k : Clock) (p : Package) : Package :=
  let s := p.stageAt stage
  match (s.nextMarker k.mcyc).bind fun i => (s.markers[i]?).map fun m => (i, m) with
  | none => p
  | some (i, m) =>
    let bit := BitVec.ofNat 2 (2 ^ m.path)
    let mine := fun g : Gather => g.core = m.core && g.slot = m.slot
    let gather := if s.gather.any mine then s.gather.map fun g => if mine g then { g with paths := g.paths ||| bit } else g
      else s.gather ++ [{ core := m.core, slot := m.slot, paths := bit, from_ := stageOf m.core, sent := m.sent }]
    p.modStage stage fun s => { s with markers := s.markers.eraseIdx i, gather := gather }

/-- A request that entered a stage from another ahead of markers, sent no later than they were, has not been performed there (R260). -/
def Package.unperformed (p : Package) (stage sent : Nat) : Bool :=
  let mine := fun r : Req => stageOf r.key.core ≠ stage && decide (r.sent ≤ sent)
  ((p.companies.drop (8 * stage)).take 8).any (fun m => (m.inq ++ m.stalled ++ m.stageWait).any mine)
    || (p.stageAt stage).heldReqs.any mine

/-- A gather entry that is complete. -/
def Package.gatherReady (p : Package) (stage : Nat) : Option Gather :=
  (p.stageAt stage).gather.find? fun g => g.paths = 3 && !p.unperformed stage g.sent

/-- GATHER_REPLY (R260): the entry is freed and the stage replies to the source core. -/
def gatherReplyAt (stage : Nat) (k : Clock) (p : Package) : Package :=
  match p.gatherReady stage with
  | none => p
  | some g =>
    let t := k.mcyc + 60
    let reply := fun f : Fence => { f with stages := f.stages &&& ~~~BitVec.ofNat 4 (2 ^ stage), ready := max f.ready t }
    let p := p.modStage stage fun s => { s with gather := s.gather.filter fun x => !(x.core = g.core && x.slot = g.slot) }
    let p := p.modWave g.core g.slot fun w => { w with fence := w.fence.map reply }
    let p := p.later (.mesh t) (.fencePerformed g.core g.slot)
    if ((p.stageAt stage).nextMarker k.mcyc).isSome then p.later .now (.flushMarkerArrival stage) else p

/-! The ticket unit (R263, R377, R378). -/

/-- The launch key of a ticket's next cast. -/
def Ticket.key (t : Ticket) : LaunchKey := { part := t.part, node := t.node, launchid := t.launchid, castindex := t.tknext }

/-- The entry of a launch's cast. -/
def CastEntry.isKey (e : CastEntry) (key : LaunchKey) : Bool :=
  e.part = key.part && e.node = key.node && e.launchid = key.launchid && e.castindex = key.castindex

/-- Whether the cast of a key has exited (some false) or been killed (some true). -/
def Package.goneCast (p : Package) (key : LaunchKey) : Option Bool :=
  (p.casts.find? fun e => e.isKey key).bind fun e => match e.state with
    | .gone killed => some killed
    | _ => none

/-- An entry of the ticket unit. -/
def Package.ticket? (p : Package) (i : Nat) : Option Ticket := (p.tickets[i]?).join

/-- The mesh cycles between the ticket unit's stop and a slice's stop (R378). -/
def Package.ticketWay (p : Package) (m : Nat) : Nat := p.transit (8 * m)

/-- The companies of the stages present. -/
def Package.presentCompanies (p : Package) : List Nat := (List.range 32).filter fun m => p.present (m / 8)

/-- A request of a launch's cast has not reached its slice's staging (R263). -/
def Package.castInFlight (p : Package) (key : LaunchKey) : Bool :=
  let mine := fun r : Req => r.staged = some key
  (p.companies.any fun m => (m.inq ++ m.stalled ++ m.stageWait).any mine) || p.stage.any fun s => s.heldReqs.any mine

/-- TICKET_RELEASE (R263, R378): the next cast has exited or been killed, and its last requests have been staged: the release or discard goes to every slice and to the cue
unit. -/
def ticketReleaseAt (i : Nat) (k : Clock) (p : Package) : Package :=
  match p.ticket? i with
  | none => p
  | some t =>
    match p.goneCast t.key with
    | none => p
    | some killed =>
      if t.tkpend ≠ 0 || p.castInFlight t.key then p
      else
        let ms := p.presentCompanies
        let mask := ms.foldl (fun (x : BitVec 32) m => x ||| BitVec.ofNat 32 (2 ^ m)) 0
        let p := { p with tickets := setAt p.tickets i (some { t with tkpend := mask, killed := killed, reported := 0 }) }
        let p := ms.foldl (fun (p : Package) m =>
          let at_ := k.mcyc + p.ticketWay m
          (p.modCompany m fun c => { c with releases := c.releases ++ [(t.key, killed, at_)] }).later (.mesh at_) (.sliceReleaseApply m)) p
        ({ p with cueIn := p.cueIn ++ [(k.mcyc, CueArrival.release t.key killed)] }).later .now .cueAppend

/-- The ticket entry of a key, by index. -/
def Package.ticketIdx (p : Package) (key : LaunchKey) : Option Nat :=
  findIdx? (fun t : Option Ticket => t.any fun t => t.key = key) p.tickets

/-- SLICE_RELEASE_APPLY (R263, R378): a slice applies or drops the cast's staged entries, in staging order, and reports. -/
def sliceReleaseAt (m : Nat) (k : Clock) (p : Package) : Package :=
  let l := (p.company m).releases
  match (findIdx? (fun r : LaunchKey × Bool × Nat => decide (r.2.2 ≤ k.mcyc)) l).bind fun i => (l[i]?).map fun r => (i, r) with
  | none => p
  | some (i, key, discard, _) =>
    let n := ((p.company m).staged.filter fun s => s.key = key).map (fun s => s.body.sectors) |>.foldl (· + ·) 0
    let p := (p.modCompany m fun c => { c with releases := c.releases.eraseIdx i }).applyStaged m key discard
    match p.ticketIdx key with
    | none => p
    | some j =>
      let t := k.mcyc + n + p.ticketWay m
      let report := fun x : Ticket =>
        { x with tkpend := x.tkpend &&& ~~~BitVec.ofNat 32 (2 ^ m), reported := max x.reported t }
      ({ p with tickets := modAt p.tickets j (Option.map report) }).later (.mesh (t + 1)) (.ticketAdvance j)

/-- The node of a ticket has retired, or gone on to another launch, and TKNEXT has passed every cast of the ticket's launch (R377). -/
def Package.ticketOver (p : Package) (t : Ticket) : Bool :=
  let node := (tabGet (p.part t.part).nodes t.node).getD {}
  (node.retired || node.launchid ≠ t.launchid || !node.open_)
    && !p.casts.any fun e => e.part = t.part && e.node = t.node && e.launchid = t.launchid && decide (t.tknext ≤ e.castindex)

/-- Exited casts that no ticket still waits for are forgotten. -/
def Package.sweepCasts (p : Package) : Package :=
  let waits := fun e : CastEntry => p.tickets.any fun t : Option Ticket => t.any fun t =>
    t.part = e.part && t.node = e.node && t.launchid = e.launchid && decide (t.tknext ≤ e.castindex)
  let gone := fun e : CastEntry => match e.state with
    | .gone _ => true
    | _ => false
  { p with casts := p.casts.filter fun e => !gone e || waits e }

/-- TICKET_ADVANCE (R378): the last report has arrived and TKNEXT advances; requests held at a full staging region are tried again (R266). -/
def ticketAdvanceAt (i : Nat) (k : Clock) (p : Package) : Package :=
  match p.ticket? i with
  | none => p
  | some t =>
    if t.reported = 0 || t.tkpend ≠ 0 || k.mcyc ≤ t.reported then p
    else
      let t := { t with tknext := t.tknext + 1, killed := false, early := false, reported := 0 }
      let p := { p with tickets := setAt p.tickets i (if p.ticketOver t then none else some t) }
      p.sweepCasts.retryStaged k

/-- A ticket entry whose next cast is gone and that has nothing pending. -/
def Package.ticketReady (p : Package) : Option Nat :=
  findIdx? (fun t : Option Ticket => t.any fun t => t.tkpend = 0 && t.reported = 0 && (p.goneCast t.key).isSome && !p.castInFlight t.key) p.tickets

/-- The entries of nodes that have retired are freed (R377). -/
def Package.freeTickets (p : Package) : Package :=
  { p with tickets := p.tickets.map fun t : Option Ticket => t.bind fun t => if t.tkpend = 0 && p.ticketOver t then none else some t }

noncomputable section

/-- FENCE (R254). -/
def execFENCE (w : MXF) (s : State) : Host.Outcome State Fault Refusal :=
  s.word (.fence w) fun v s =>
    .done (s.modPkg fun p => p.startFence s.clk v.iss.core v.iss.slot (fenceKind w.f.toNat) w.s.toNat false v.iss.word)

end

def execFENCE_PERFORMED (core slot : Nat) (s : State) : Host.Outcome State Fault Refusal := s.event (fencePerformedAt core slot)
def execFLUSH_MARKER_ARRIVAL (stage : Nat) (s : State) : Host.Outcome State Fault Refusal := s.event (flushMarkerAt stage)
def execGATHER_REPLY (stage : Nat) (s : State) : Host.Outcome State Fault Refusal := s.event (gatherReplyAt stage)
def execTICKET_RELEASE (entry : Nat) (s : State) : Host.Outcome State Fault Refusal := s.event (ticketReleaseAt entry)
def execSLICE_RELEASE_APPLY (company : Nat) (s : State) : Host.Outcome State Fault Refusal := s.event (sliceReleaseAt company)
def execTICKET_ADVANCE (entry : Nat) (s : State) : Host.Outcome State Fault Refusal := s.event (ticketAdvanceAt entry)

end Sys2Proof.Machine
end

