-- ==== Sys2Proof/Machine/Cue.lean ====
section
/-! DEFINITION. The cue unit (R36 to R40, R305 to R309, R327): node entries and their cue queues, appends, batches, retirement, host cues, CUEEMIT and its
answer, and the dependence counters (R379 to R382). -/

namespace Sys2Proof.Machine

/-! Node entries (Table 18.2). -/

/-- A little-endian field of the entry. -/
def Node.field (n : Node) (off len : Nat) : Nat := ofLe ((n.entry.drop off).take len)

/-- Overwrite bytes of the entry. -/
def Node.put (n : Node) (off len v : Nat) : Node :=
  { n with entry := n.entry.take off ++ leBytes len v ++ n.entry.drop (off + len) }

def Node.codebase (n : Node) : Nat := n.field 0 8
def Node.codelen (n : Node) : Nat := n.field 8 4
def Node.entryoff (n : Node) : Nat := n.field 12 4
def Node.trappc (n : Node) : Nat := n.field 16 8
def Node.cqbase (n : Node) : Nat := n.field 24 8
def Node.cqcap (n : Node) : Nat := n.field 32 4
def Node.recsz (n : Node) : Nat := 16 * (bits (n.field 36 4) 0 2 + 1)
def Node.threshold (n : Node) : Nat := bits (n.field 36 4) 2 6 + 1
def Node.prodcnt (n : Node) : Nat := bits (n.field 36 4) 8 4
def Node.initw (n : Node) : Nat := bits (n.field 40 8) 0 7
def Node.maxw (n : Node) : Nat := bits (n.field 40 8) 8 7
def Node.regs (n : Node) : Nat := bits (n.field 40 8) 16 9
def Node.spbytes (n : Node) : Nat := bits (n.field 40 8) 25 20
def Node.prio (n : Node) : Nat := bits (n.field 40 8) 46 2
def Node.cog (n : Node) : Nat := bits (n.field 40 8) 48 2
def Node.cogn (n : Node) : Nat := bits (n.field 40 8) 50 7
def Node.roleOf (n : Node) (i : Nat) : Nat := bits (n.field 48 16) (2 * i) 2
def Node.demand (n : Node) (i : Nat) : Nat := n.field (64 + 4 * i) 4

/-- The producer nodes (R37). -/
def Node.prods (n : Node) : List Nat := (List.range (min n.prodcnt 8)).map fun i => bits (n.field (80 + 2 * i) 2) 0 12

def Node.ctrl (n : Node) : Nat := n.field 248 8
def Node.valid (n : Node) : Bool := n.ctrl.testBit 0
def Node.fault (n : Node) : Bool := n.ctrl.testBit 1

/-- A root node (R39, R327). -/
def Node.root (n : Node) : Bool := n.valid && n.prodcnt = 0

/-- A node of a partition; an entry never written reads as zeros. -/
def Package.node (p : Package) (k node : Nat) : Node := (tabGet (p.part k).nodes node).getD {}

/-- Change a node. -/
def Package.modNode (p : Package) (k node : Nat) (f : Node → Node) : Package :=
  p.modPart k fun q => { q with nodes := tabSet q.nodes node (f ((tabGet q.nodes node).getD {})) }

/-! The ring (R189, R305): the cue unit is an agent of its own, and the ring lies at global VAs; what a partition does not map it neither reads nor writes. -/

/-- The place that an agent of the prompter reaches at a VA of a partition. -/
def Package.agentPlace (p : Package) (part : Nat) (va : Quad) (write : Bool) : Option Nat :=
  let q := p.part part
  let place := fun x : Xlate => match x with
    | .dev a => some a
    | _ => none
  if !isDeviceVa va then none
  else if isAperture va then place (p.apertureXlate q va)
  else if inHeap q.ctx va then place (p.heapXlate q.ctx va)
  else if q.ctx.atroot = 0 then none
  else match (p.walkFrom part va write false 4 q.ctx.atroot.toNat).1 with
    | .entry e => place (p.entryXlate e va write false)
    | _ => none

/-- Bytes written from a VA on: through the endpoint to host space, with the partition's PASID, else in device memory. -/
def Package.agentWrite (p : Package) (part va : Nat) (l : List Byte) : Package :=
  if isHostVa (BitVec.ofNat 64 va) then p.egress 0 (.memWrite (part + 1) (p.part part).ctx.pasid.toNat (va % 2 ^ 47) l)
  else p.storeBytes part (l.zipIdx.filterMap fun b => (p.agentPlace part (BitVec.ofNat 64 (va + b.2)) true).map fun a => (a, b.1))

/-- Bytes of device memory read by an agent. -/
def Package.agentRead (p : Package) (part va n : Nat) : List Byte :=
  (List.range n).map fun i =>
    match p.agentPlace part (BitVec.ofNat 64 (va + i)) false with
    | some a => p.readByte a
    | none => Config.unmappedByte (va + i)

/-- The records between the head and the tail. -/
def Node.held (n : Node) : Nat := (n.cqtail - n.cqhead).toNat

/-- The queue is full (Table 16.4). -/
def Node.full (n : Node) : Bool := n.cqcap ≤ n.held + n.cqres

/-- The records not yet in a batch. -/
def Node.unformed (n : Node) : Nat := n.held - n.cqform.toNat

/-- The VA of a ring slot. -/
def Node.slotVa (n : Node) (i : Nat) : Nat := n.cqbase + i % max n.cqcap 1 * n.recsz

/-! Retirement and batches (R39, R40, R308). -/

/-- A cast entry that is resident, pending or saved. -/
def CastEntry.live (e : CastEntry) : Bool :=
  match e.state with
  | .gone _ => false
  | _ => true

/-- Every producer of a node has retired, or the close record of a root node has arrived (R40); a withdrawn node is no producer (R327). -/
def Package.lastRecords (p : Package) (k node : Nat) : Bool :=
  let n := p.node k node
  if n.prodcnt = 0 then n.closed else n.prods.all fun m => (p.node k m).retired || !(p.node k m).valid

/-- The next batch of a node (R40): the threshold, or all that remains once no more can come; it is held back while CQFORM, of 7 bits, has no room for it. -/
def Package.batchSize (p : Package) (k node : Nat) : Nat :=
  let n := p.node k node
  let b := if !n.valid || n.fault then 0 else if n.threshold ≤ n.unformed then n.threshold else if p.lastRecords k node then n.unformed else 0
  if n.cqform.toNat + b < 128 then b else 0

/-- The four conditions of R39. A node that has retired without receiving a record since does not retire again, but a close on a root node is a
launch of its own. -/
def Package.mayRetire (p : Package) (k node : Nat) : Bool :=
  let n := p.node k node
  n.valid && (n.prodcnt = 0 || !n.retired) && n.cqtail = n.cqhead && n.cqres = 0
    && !(p.casts.any fun e => e.part = k && e.node = node && e.live) && p.lastRecords k node

/-- After a record, a close or a retirement: the node may form one batch in the next mesh cycle (R308). -/
def Package.checkNode (t : Clock) (p : Package) (k node : Nat) : Package :=
  let next : Due := { at_ := .mesh (t.mcyc + 1), ev := .batchFormation k node }
  let p := if p.batchSize k node = 0 || p.due.contains next then p else p.later (.mesh (t.mcyc + 1)) (.batchFormation k node)
  if p.mayRetire k node then p.later (.mesh (t.mcyc + 1)) (.nodeRetirement k node) else p

/-- A free ticket entry. -/
def Package.freeTicket (p : Package) : Option Nat := findIdx? Option.isNone p.tickets

/-- The first cast of a launch that a ticket taken now still releases: the lowest CASTINDEX not gone. -/
def Package.firstOf (p : Package) (key : LaunchKey) : BitVec 32 :=
  let l := (p.casts.filter fun e => e.part = key.part && e.node = key.node && e.launchid = key.launchid && e.live).map CastEntry.castindex
  (l.foldl (fun (b : Option (BitVec 32)) i => match b with
    | some x => if i.toNat < x.toNat then some i else some x
    | none => some i) none).getD 0

/-- A launch in ordered mode takes its ticket entry, if one is free (R377). -/
def Package.takeTicket (p : Package) (key : LaunchKey) : Package :=
  if (p.ticketOf key).isSome then p
  else match p.freeTicket with
    | none => p
    | some i =>
      { p with tickets := setAt p.tickets i (some
          { part := key.part, node := key.node, launchid := key.launchid, tknext := p.firstOf key, tkpend := 0, killed := false }) }

/-! Ordered mode (R56, R377). -/

/-- The partition holds a live cast, resident or pre-empted. -/
def Package.liveCast (p : Package) (k : Nat) : Bool :=
  p.casts.any fun e => e.part = k && match e.state with
    | .resident _ _ => true
    | .swappedOut _ _ => true
    | .saved _ => true
    | .placed _ (some _) => true
    | _ => false

/-- The next launch of the partition is ordered. -/
def Package.nextOrdered (p : Package) (k : Nat) : Bool := if p.liveCast k then (p.part k).ordCur else (p.part k).ordPend

/-- BATCH_FORMATION (R40, R308): one batch; further batches follow in later cycles. -/
def batchFormationAt (k node : Nat) (t : Clock) (p : Package) : Package :=
  let b := p.batchSize k node
  if b = 0 then p
  else
    let n := p.node k node
    let e : CastEntry := { id := p.nextEntry, part := k, node := node, launchid := n.launchid, castindex := n.batches, batchn := b,
                           batchpos := (n.cqhead.toNat + n.cqform.toNat) % max n.cqcap 1, castid := none, state := .pending }
    let p := { p with casts := p.casts ++ [e], nextEntry := p.nextEntry + 1 }
    let p := p.modNode k node fun n => { n with cqform := n.cqform + BitVec.ofNat 7 b, batches := n.batches + 1 }
    let p := if p.nextOrdered k then p.takeTicket { part := k, node := node, launchid := n.launchid, castindex := 0 } else p
    p.checkNode t k node

/-- NODE_RETIREMENT (R39): the launch is over; the consumers may form their last batches. -/
def nodeRetirementAt (k node : Nat) (t : Clock) (p : Package) : Package :=
  if !p.mayRetire k node then p
  else
    let p := (p.modNode k node fun n => { n with open_ := false, retired := true, closed := false }).freeTickets.sweepCasts
    let next := ((p.part k).nodes.filter fun x => x.2.prods.contains node).map Prod.fst
    next.foldl (fun p m => p.checkNode t k m) p

/-! Appends (R305 to R309). -/

/-- A record enters a queue: the ring is written as one write request (R402), the tail advances, and a node that is not open starts a launch (R39). -/
def Package.append (t : Clock) (p : Package) (k node : Nat) (record : List Byte) : Package :=
  let n := p.node k node
  let p := p.agentWrite k (n.slotVa n.cqtail.toNat) (record.take n.recsz)
  let p := p.modNode k node fun n =>
    let n := if n.open_ then n
      else { n with open_ := true, retired := false, launchid := n.launches, launches := n.launches + 1, batches := 0 }
    { n with cqtail := n.cqtail + 1 }
  p.checkNode t k node

/-- A host cue, or the cue of a dependence counter: appended to a root node, or refused and counted (R309, R381). -/
def Package.hostCue (t : Clock) (p : Package) (k node : Nat) (data : List Byte) : Package :=
  let n := p.node k node
  if data.length = n.recsz && n.root && !n.fault && !n.closed && !n.full then p.append t k node data
  else p.modNode k node fun n => { n with cqdrop := min 65535 (n.cqdrop + 1) }

/-- CUE_CLOSE (R309). -/
def cueCloseAt (k node : Nat) (v : Quad) (t : Clock) (p : Package) : Package :=
  let n := p.node k node
  if v = 1 && n.root && !n.fault then (p.modNode k node fun n => { n with closed := true }).checkNode t k node else p

/-- An ordered launch has not yet been released up to this cast. -/
def Package.unreleased (p : Package) (key : LaunchKey) : Bool :=
  (p.casts.find? fun e => e.isKey key).any CastEntry.live || (p.ticketOf key).any fun t => decide (t.tknext ≤ key.castindex) && t.tkpend = 0

/-- The status of a CUEEMIT (R306). -/
def Package.emitStatus (p : Package) (part from_ : Nat) (node : Quad) : Nat :=
  let n := p.node part node.toNat
  if 4096 ≤ node.toNat || !n.valid || n.fault || n.prodcnt = 0 || !n.prods.contains from_ || !(p.node part from_).valid then 1
  else if n.full then 2
  else 0

/-- The cue unit takes one arrival (R306, R307). -/
def Package.takeCue (t : Clock) (p : Package) : CueArrival → Package
  | .release key discard =>
    let mine := p.cueStaged.filter fun c => c.key = key
    let p := { p with cueStaged := p.cueStaged.filter fun c => c.key ≠ key }
    mine.foldl (fun (p : Package) c =>
      let p := p.modNode key.part c.node fun n => { n with cqres := n.cqres - 1 }
      if discard then p.checkNode t key.part c.node else p.append t key.part c.node c.record) p
  | .emit key leader part from_ node record staged =>
    let status := p.emitStatus part from_ node
    let at_ := t.mcyc + p.transit key.core + 1
    let p := if status ≠ 0 then p
      else match staged with
        | none => p.append t part node.toNat record
        | some l =>
          if !p.unreleased l then p
          else
            let p := p.modNode part node.toNat fun n => { n with cqres := n.cqres + 1 }
            { p with cueStaged := p.cueStaged ++ [{ key := l, node := node.toNat, record := record }] }
    ({ p with answers := p.answers ++ [(key, leader, at_, BitVec.ofNat 64 status)] }).later (.mesh at_) (.cueemitAnswer key.core key.slot leader)

/-- The place of an arrival in the order of its cycle (R307): releases, then CUEEMITs by core, bay and slot. -/
def CueArrival.rank : CueArrival → Nat
  | .release _ _ => 0
  | .emit key _ _ _ _ _ _ => 1 + 64 * key.core + key.slot

/-- CUE_APPEND (R307): the arrivals of the cycle, in order. -/
def cueAppendAt (t : Clock) (p : Package) : Package :=
  let here := (p.cueIn.filter fun a => a.1 ≤ t.mcyc).map Prod.snd
  let p := { p with cueIn := p.cueIn.filter fun a => t.mcyc < a.1 }
  (byRank CueArrival.rank here).foldl (fun p a => p.takeCue t a) p

/-- Take the answer that has reached a party. -/
def Package.takeAnswer (t : Clock) (p : Package) (core slot leader : Nat) : Option (WaveKey × Quad × Package) :=
  let mine := fun a : WaveKey × Nat × Nat × Quad => a.1.core = core && a.1.slot = slot && a.2.1 = leader && decide (a.2.2.1 ≤ t.mcyc)
  match findIdx? mine p.answers with
  | none => none
  | some i => (p.answers[i]?).map fun a => (a.1, a.2.2.2, { p with answers := p.answers.eraseIdx i })

/-- CUEEMIT_ANSWER (R306): the status is written and the wave goes on. -/
def cueemitAnswerAt (core slot leader : Nat) (t : Clock) (p : Package) : Package :=
  match p.takeAnswer t core slot leader with
  | none => p
  | some (key, status, p) =>
    match p.waveOf? key with
    | none => p
    | some w =>
      match w.blockedAt leader with
      | some { op := .cueemit _ _ d _, .. } => p.modWave core slot fun w => (w.setS d status).unblock leader
      | _ => p

/-! The node table (R327). -/

/-- NODE_COMMIT: a CTRL write with VALID 1 to a node that is not open; the prompter checks the entry at its next pass. The host writes no other field. -/
def nodeCommitAt (k node : Nat) (v : Quad) (p : Package) : Package :=
  if (p.node k node).open_ || !v.getLsbD 0 then p else p.modNode k node fun n => { (n.put 248 8 1) with checked := false }

/-- NODE_WITHDRAW: a CTRL write with VALID 0 to a node that is not open. -/
def nodeWithdrawAt (k node : Nat) (p : Package) : Package :=
  let n := p.node k node
  if n.open_ then p else p.modNode k node fun n => n.put 248 8 (n.ctrl / 2 * 2)

/-- NODE_ENTRY_WRITE: eight bytes other than CTRL, while the entry is neither open nor committed. -/
def nodeEntryWriteAt (k node off : Nat) (v : Quad) (p : Package) : Package :=
  let n := p.node k node
  if n.open_ || n.valid || 248 ≤ off || off % 8 ≠ 0 then p else p.modNode k node fun n => n.put off 8 v.toNat

/-! Dependence counters (R379 to R382). -/

/-- A dependence counter of a partition. -/
def Package.dcAt (p : Package) (k n : Nat) : DepCounter := (tabGet (p.part k).dc n).getD { status := 0, tv := false, target := 0, count := 0 }

/-- Change a dependence counter. -/
def Package.setDc (p : Package) (k n : Nat) (c : DepCounter) : Package :=
  p.modPart k fun q => { q with dc := tabSet q.dc n c }

/-- A decrement; the answer says whether a cue is due. -/
def Package.dcDown (p : Package) (k n amount : Nat) : Package × Bool :=
  let c := p.dcAt k n
  let p := if c.count < amount then p.count (Config.errDCUNDER + k) Config.max16 else p
  (p.setDc k n { c with count := c.count - amount }, c.count ≠ 0 && c.count ≤ amount && c.tv)

/-- One update; counters that are due a cue are noted. -/
def Package.dcApply (x : Package × List (Nat × Nat)) (u : DcUpdate) : Package × List (Nat × Nat) :=
  let (p, due) := x
  match u with
  | .done _ k n status =>
    let (p, cue) := p.dcDown k n 1
    let c := p.dcAt k n
    (p.setDc k n { c with status := max c.status status }, if cue then due ++ [(k, n)] else due)
  | .set _ _ k n count target tv => (p.setDc k n { status := 0, tv := tv, target := target, count := count }, due)
  | .dec _ _ k n amount =>
    let (p, cue) := p.dcDown k n amount
    (p, if cue then due ++ [(k, n)] else due)
  | .wait key leader k n => ({ p with dcWaiters := p.dcWaiters ++ [(key, leader, k, n)] }, due)

/-- The place of an update in the order of its cycle (R381). -/
def DcUpdate.rank : DcUpdate → Nat
  | .done core _ _ _ => core
  | .set core slot _ _ _ _ _ => 256 + 64 * core + slot
  | .dec core slot _ _ _ => 256 + 64 * core + slot
  | .wait key _ _ _ => 16640 + 64 * key.core + key.slot

/-- The record that a counter appends (R381). -/
def dcRecord (n status size : Nat) : List Byte := leBytes 8 (n + 65536 * status) ++ List.replicate (size - 8) 0

/-- The DCWAITs whose counter is 0 are answered (R382): one that has just been evaluated after 40 + 4h + 48d + 1 more mesh cycles, a blocked one after 40 + 4h + 48d. -/
def Package.dcAnswer (t : Clock) (p : Package) (fresh : List (WaveKey × Nat)) : Package :=
  let isOver := fun (p : Package) (w : WaveKey × Nat × Nat × Nat) => (p.dcAt w.2.2.1 w.2.2.2).count = 0
  let done_ := p.dcWaiters.filter fun w => isOver p w
  let p := { p with dcWaiters := p.dcWaiters.filter fun w => !isOver p w }
  done_.foldl (fun (p : Package) w =>
    let at_ := t.mcyc + p.transit w.1.core + (if fresh.contains (w.1, w.2.1) then 1 else 0)
    let status := BitVec.ofNat 64 (p.dcAt w.2.2.1 w.2.2.2).status
    ({ p with answers := p.answers ++ [(w.1, w.2.1, at_, status)] }).later (.mesh at_) (.dcwaitRelease w.1.core w.1.slot w.2.1)) p

/-- DC_UPDATE (R381, R382): the updates of the cycle in order, then the cues in ascending counter number, then the waits. -/
def dcUpdateAt (t : Clock) (p : Package) : Package :=
  let p := cueAppendAt t p
  let here := byRank DcUpdate.rank ((p.dcIn.filter fun a => a.1 ≤ t.mcyc).map Prod.snd)
  let p := { p with dcIn := p.dcIn.filter fun a => t.mcyc < a.1 }
  let (p, due) := here.foldl Package.dcApply (p, [])
  let p := (byRank (fun d : Nat × Nat => 1024 * d.1 + d.2) due).foldl (fun (p : Package) d =>
    let c := p.dcAt d.1 d.2
    p.hostCue t d.1 c.target (dcRecord d.2 c.status (p.node d.1 c.target).recsz)) p
  let fresh := here.filterMap fun u => match u with
    | .wait key leader _ _ => some (key, leader)
    | _ => none
  p.dcAnswer t fresh

/-- What a party has asked the cue unit before is forgotten: a wait that was abandoned. -/
def Package.forgetWait (p : Package) (key : WaveKey) (leader : Nat) : Package :=
  let other := fun (k : WaveKey) (l : Nat) => !(k = key && l = leader)
  let wait := fun u : Nat × DcUpdate => match u.2 with
    | .wait k l _ _ => other k l
    | _ => true
  { p with dcWaiters := p.dcWaiters.filter (fun w => other w.1 w.2.1), answers := p.answers.filter (fun a => other a.1 a.2.1),
           dcIn := p.dcIn.filter wait }

/-- DCWAIT_RELEASE (R382): the status is written, with the acquire of Table 13.5. -/
def dcwaitReleaseAt (core slot leader : Nat) (t : Clock) (p : Package) : Package :=
  match p.takeAnswer t core slot leader with
  | none => p
  | some (key, status, p) =>
    match p.waveOf? key with
    | none => p
    | some w =>
      match w.blockedAt leader with
      | some { op := .dcwait _ d, .. } => p.modWave core slot fun w => ((w.setS d status).endWait leader).acquireCast
      | _ => p

/-! The words. -/

/-- The operand checks of CUEEMIT (R306). -/
def cueTrap (v : View) (a : Quad) : Option Trap :=
  if a.toNat % 16 ≠ 0 then some { cause := .misalign, addr := a }
  else if v.cast.spsize.toNat < a.toNat + 64 then some { cause := .spRange, addr := a }
  else none

/-- The counter number of s[a] (R380). -/
def dcNumber (s : Quad) : Option Nat := if s.toNat < 1023 then some s.toNat else none

/-- Send an update to the cue unit (R380). -/
def State.sendDc (s : State) (v : View) (u : DcUpdate) : State :=
  let at_ := s.clk.mcyc + s.pkg.transit v.iss.core
  s.modPkg fun p => ({ p with dcIn := p.dcIn ++ [(at_, u)] }).later (.mesh at_) .dcUpdate

noncomputable section

/-- CUEEMIT (R306): the record is read, a release at house scope is started, and the wave waits for the cue unit's answer. -/
def execCUEEMIT (w : R3) (s : State) : Host.Outcome State Fault Refusal :=
  s.word (.cueemit w) fun v s =>
    let a := v.sc w.b.toNat
    match cueTrap v a with
    | some t => .trap t
    | none =>
      let rec_ := (s.pkg.core v.iss.core).ctx.spRead v.cast a.toNat 64
      let s := s.modPkg fun p => p.startFence s.clk v.iss.core v.iss.slot .rel 3 true v.iss.word
      .block s (.cueemit (v.sc w.a.toNat) rec_ w.d.toNat false)

/-- DCSET (R380). -/
def execDCSET (w : RAB) (s : State) : Host.Outcome State Fault Refusal :=
  s.word (.dcset w) fun v s =>
    let cfg := (v.sc w.b.toNat).toNat
    match dcNumber (v.sc w.a.toNat) with
    | some n =>
      if 2 ^ 37 ≤ cfg then .trap v.operandTrap
      else .done (s.sendDc v (.set v.iss.core v.iss.slot v.cast.partition n (bits cfg 0 24) (bits cfg 24 12) (cfg.testBit 36)))
    | none => .trap v.operandTrap

/-- DCDEC (R380). -/
def execDCDEC (w : RAB) (s : State) : Host.Outcome State Fault Refusal :=
  s.word (.dcdec w) fun v s =>
    let amount := (v.sc w.b.toNat).toNat
    match dcNumber (v.sc w.a.toNat) with
    | some n =>
      if amount = 0 || 2 ^ 24 ≤ amount then .trap v.operandTrap
      else .done (s.sendDc v (.dec v.iss.core v.iss.slot v.cast.partition n amount))
    | none => .trap v.operandTrap

/-- DCWAIT (R380, R382). -/
def execDCWAIT (w : R2) (s : State) : Host.Outcome State Fault Refusal :=
  s.word (.dcwait w) fun v s =>
    match dcNumber (v.sc w.a.toNat) with
    | some n =>
      let key := s.pkg.keyOf v.iss.core v.iss.slot
      let s := s.modPkg fun p => p.forgetWait key v.iss.leader
      .block (s.sendDc v (.wait key v.iss.leader v.cast.partition n)) (.dcwait n w.d.toNat)
    | none => .trap v.operandTrap

end

def execCUE_APPEND (s : State) : Host.Outcome State Fault Refusal := s.event cueAppendAt
def execBATCH_FORMATION (part node : Nat) (s : State) : Host.Outcome State Fault Refusal := s.event (batchFormationAt part node)
def execNODE_RETIREMENT (part node : Nat) (s : State) : Host.Outcome State Fault Refusal := s.event (nodeRetirementAt part node)
def execDC_UPDATE (s : State) : Host.Outcome State Fault Refusal := s.event dcUpdateAt
def execDCWAIT_RELEASE (core slot leader : Nat) (s : State) : Host.Outcome State Fault Refusal := s.event (dcwaitReleaseAt core slot leader)
def execCUEEMIT_ANSWER (core slot leader : Nat) (s : State) : Host.Outcome State Fault Refusal := s.event (cueemitAnswerAt core slot leader)
def execNODE_COMMIT (k node : Nat) (v : Quad) (s : State) : Host.Outcome State Fault Refusal := s.event fun _ => nodeCommitAt k node v
def execNODE_WITHDRAW (k node : Nat) (s : State) : Host.Outcome State Fault Refusal := s.event fun _ => nodeWithdrawAt k node
def execNODE_ENTRY_WRITE (k node off : Nat) (v : Quad) (s : State) : Host.Outcome State Fault Refusal := s.event fun _ => nodeEntryWriteAt k node off v
def execCUE_PUSH (k node : Nat) (data : List Byte) (s : State) : Host.Outcome State Fault Refusal := s.event fun t p => p.hostCue t k node data
def execCUE_CLOSE (k node : Nat) (v : Quad) (s : State) : Host.Outcome State Fault Refusal := s.event (cueCloseAt k node v)
def execNODERC_CLEAR (k node : Nat) (s : State) : Host.Outcome State Fault Refusal :=
  s.event fun _ p => p.modNode k node fun n => { n with noderc := 0 }

end Sys2Proof.Machine
end

