-- ==== Sys2Proof/Machine/Sha3.lean ====
section
/-! DEFINITION. SHA3-256, the hash that R324 and R371 name (FIPS 202: PRESUMED, notes/assumptions/9.md): Keccak over 25 lanes of 64 bits, lane x + 5y. -/

namespace Sys2Proof.Machine.Sha3

/-- The round constants. -/
def rounds : List (BitVec 64) :=
  [0x0000000000000001, 0x0000000000008082, 0x800000000000808A, 0x8000000080008000, 0x000000000000808B, 0x0000000080000001,
   0x8000000080008081, 0x8000000000008009, 0x000000000000008A, 0x0000000000000088, 0x0000000080008009, 0x000000008000000A]
  ++ [0x000000008000808B, 0x800000000000008B, 0x8000000000008089, 0x8000000000008003, 0x8000000000008002, 0x8000000000000080,
   0x000000000000800A, 0x800000008000000A, 0x8000000080008081, 0x8000000000008080, 0x0000000080000001, 0x8000000080008008]

/-- The rotations by lane. -/
def rotations : List Nat :=
  [0, 1, 62, 28, 27, 36, 44, 6, 55, 20, 3, 10, 43, 25, 39, 41, 45, 15, 21, 8, 18, 2, 61, 56, 14]

/-- Lane (x, y) of a state, the coordinates taken modulo 5. -/
def lane (s : List (BitVec 64)) (x y : Nat) : BitVec 64 := s.getD (x % 5 + 5 * (y % 5)) 0

/-- One round. -/
def round (s : List (BitVec 64)) (rc : BitVec 64) : List (BitVec 64) :=
  let c := (List.range 5).map fun x => (List.range 5).foldl (fun a y => a ^^^ lane s x y) 0
  let d := (List.range 5).map fun x => c.getD ((x + 4) % 5) 0 ^^^ (c.getD ((x + 1) % 5) 0).rotateLeft 1
  let t := (List.range 25).map fun i => s.getD i 0 ^^^ d.getD (i % 5) 0
  let b := (List.range 25).map fun i =>
    let x := (i % 5 + 3 * (i / 5)) % 5
    let y := i % 5
    (lane t x y).rotateLeft (rotations.getD (x + 5 * y) 0)
  let e := (List.range 25).map fun i => lane b (i % 5) (i / 5) ^^^ (~~~lane b (i % 5 + 1) (i / 5) &&& lane b (i % 5 + 2) (i / 5))
  match e with
  | [] => []
  | h :: l => (h ^^^ rc) :: l

/-- The permutation. -/
def permute (s : List (BitVec 64)) : List (BitVec 64) := rounds.foldl round s

/-- The lane of eight bytes, least significant first. -/
def laneOf (l : List Byte) : BitVec 64 := l.foldr (fun b a => (a <<< 8) ||| b.setWidth 64) 0

/-- The bytes of a lane. -/
def bytesOf (l : BitVec 64) : List Byte := (List.range 8).map fun i => (l >>> (8 * i)).setWidth 8

/-- Absorb a block of 136 bytes. -/
def absorb (s : List (BitVec 64)) (block : List Byte) : List (BitVec 64) :=
  permute ((List.range 25).map fun i => s.getD i 0 ^^^ laneOf ((block.drop (8 * i)).take 8))

/-- The message with its padding. -/
def pad (m : List Byte) : List Byte :=
  let n := 136 - m.length % 136
  if n = 1 then m ++ [0x86] else m ++ [0x06] ++ List.replicate (n - 2) 0 ++ [0x80]

/-- SHA3-256. -/
def hash (m : List Byte) : List Byte :=
  let l := pad m
  let s := (List.range (l.length / 136)).foldl (fun s i => absorb s ((l.drop (136 * i)).take 136)) (List.replicate 25 0)
  (s.take 4).flatMap bytesOf

end Sys2Proof.Machine.Sha3
end

