-- ==== Sys2Proof/Machine/Gates.lean ====
section
/-! DEFINITION. The stamping gates (R90, R91, R317 to R325, R403 to R406, R411): what an arrival is, how a gate stamps, logs, withholds and injects it, what the BARs show
and where their writes go, the egress side with its numbering and digests, and the service region. -/

namespace Sys2Proof.Machine

/-! The service region (R321). -/

/-- The place of an interleaved-view PA, and a byte written or read there past the L2 slices (R321). -/
def Package.paWrite (p : Package) (pa : Nat) (l : List Byte) : Package :=
  let bytes := l.zipIdx.filterMap fun b => (p.placeOf (pa + b.2)).map fun a => (a, b.1)
  let whole := (bytes.foldl (fun s b => setInsert s (b.1 / 64)) []).filter fun s => (bytes.filter fun b => b.1 / 64 = s).length = 64
  { p with dram := Memory.writePairs p.dram bytes, dramPoison := p.dramPoison.filter (fun s => !whole.contains s),
           dramErr := p.dramErr.filter fun e => !whole.contains e.1 }

/-- Bytes read past the L2 slices. -/
def Package.paRead (p : Package) (pa n : Nat) : List Byte :=
  (List.range n).map fun i => ((p.placeOf (pa + i)).map (Memory.read p.dram)).getD 0

/-- SERVICE_REGION_ACCESS (R321): a BAR 4 write, or a read when it carries no data; at most 512 aligned bytes. -/
def serviceAccess (off len : Nat) (data : List Byte) (p : Package) : Package :=
  let (base, size) := p.win.svc
  let n := if data.isEmpty then len else data.length
  let ok := 0 < n && n ≤ 512 && off % 4 = 0 && n % 4 = 0
  let reply := fun t : Egress => { p with sent := p.sent ++ [(0, t)] }
  if !ok then reply (.unsupportedRequest 0)
  else if data.isEmpty then
    reply (.readReply 0 ((List.range n).map fun i => if off + i < size then (p.paRead (base + off + i) 1).headD 0 else 0))
  else if size ≤ off then p
  else p.paWrite (base + off) (data.take (size - off))

/-! The host window (Table 4.6): what is read there, and the row of the opcode table that a write is. -/

/-- PARTCFGk (Table 18.5). -/
def Partition.cfg (q : Partition) : Nat :=
  q.companies.toNat + (if q.valid then 2 ^ 32 else 0) + (if q.ordCur then 2 ^ 33 else 0) + (if q.ordPend then 2 ^ 34 else 0)
    + (if q.recov then 2 ^ 35 else 0) + (if q.swapped then 2 ^ 36 else 0)

/-- STOPCAUSE (Table 21.4). -/
def StopCause.code : StopCause → Nat
  | .none => 0
  | .stopat => 1
  | .stopnow => 2
  | .emptyRing => 3
  | .freeze => 4
  | .hardFailure => 5
  | .heldReset => 6

/-- STATUS (Table 21.4). -/
def Package.status (k : Clock) (p : Package) : Nat :=
  let w := p.win
  (if w.recovery then 1 else 0) + (if k.run = .frozen then 2 else 0) + (if w.strapConflict then 16 else 0) + (if w.replayBroken then 32 else 0)
    + (if w.stoplate then 64 else 0) + (if w.hardfail then 128 else 0) + 65536 * w.hfpart.toNat + 16777216 * p.stopcause.code

/-- The MiB that a tableau without DRAM needs (Table 21.3). -/
def Package.tabNeed (p : Package) : Nat := 320 * p.presentStages.length

/-- The value of a window register; an offset that Table 4.6 does not list reads 0 (R90). -/
def Package.windowValue (k : Clock) (p : Package) (off : Nat) : Nat :=
  let w := p.win
  if off = 0 then Config.fusedId.toNat + 2 ^ 40 * p.stages.toNat
  else if off = 8 then p.status k
  else if off = 0x10 then w.powercap
  else if 0x100 ≤ off && off < 0x140 then (p.part ((off - 0x100) / 8)).cfg
  else if off = 0x200 then w.gatemodeReq + 256 * w.gatemodeCur
  else if off = 0x208 then w.logen.toNat + 2 ^ 16 * w.lossy.toNat + 2 ^ 32 * w.digest.toNat
  else if off = 0x210 then w.stopat.toNat
  else if off = 0x218 then w.replaybrk.toNat
  else if off = 0x220 then w.svcbase.toNat
  else if off = 0x228 then w.svcsize.toNat
  else if off = 0x300 then w.tabop + (if w.tabdram then 16 else 0) + (if w.tabhost then 32 else 0) + (if w.stopen then 256 else 0)
  else if off = 0x308 then w.tabbase.toNat
  else if off = 0x310 then w.tabsize.toNat
  else if off = 0x318 then (if w.tabbusy then 1 else 0) + 256 * w.taberr + 65536 * w.tabtag.toNat + 2 ^ 32 * p.tabNeed
  else if 0x400 ≤ off && off < 0x400 + 32 * 15 then
    let g := p.gate ((off - 0x400) / 32)
    match (off - 0x400) % 32 / 8 with
    | 0 => g.logbase.toNat
    | 1 => g.logsize.toNat
    | 2 => g.loghead.toNat
    | _ => g.logtail.toNat
  else if 0x800 ≤ off && off < 0x900 then
    let q := p.part ((off - 0x800) / 32)
    match (off - 0x800) % 32 / 8 with
    | 0 => q.hmqBase.toNat
    | 1 => q.hmqSize.toNat
    | 2 => q.hmqHead.toNat
    | _ => q.hmqTail.toNat
  else 0

/-- A register that R367 names: never stamped, acting live. -/
def liveRegister (off : Nat) : Bool :=
  [0x200, 0x208, 0x210, 0x220, 0x228, 0x300, 0x308, 0x310].contains off || (0x400 ≤ off && off < 0x400 + 32 * 15)

/-- The rows that a write of a window register is; writes of what a host does not write are none. -/
def windowRows (off : Nat) (v : Quad) : List Instr :=
  if off = 8 then [.statusClear v]
  else if off = 0x10 then [.powercapWrite v]
  else if 0x100 ≤ off && off < 0x140 then
    let k := (off - 0x100) / 8
    if v.getLsbD 32 then [.partitionSwap k v, .partitionConfigure k v (Config.addrContext k v), .orderedBitWrite k v]
    else [.hostWindowWrite off v, .orderedBitWrite k v]
  else if off = 0x200 then [.gatemodeWrite v]
  else if off = 0x210 then [.stopatWrite v]
  else if off = 0x218 then [.replaybrkClear v]
  else if 0x400 ≤ off && off < 0x400 + 32 * 15 && (off - 0x400) % 32 = 24 then [.logtailWrite ((off - 0x400) / 32) v]
  else if 0x800 ≤ off && off < 0x900 && (off - 0x800) % 32 = 8 then [.hmqsizeWrite ((off - 0x800) / 32) v]
  else if 0x800 ≤ off && off < 0x900 && (off - 0x800) % 32 = 24 then [.hmqtailWrite ((off - 0x800) / 32) v]
  else [.hostWindowWrite off v]

/-- A window write waits for its tick boundary (R91): the first at or after this mesh cycle for a stamped write, the next one for a live register. -/
def Package.hostWindow (k : Clock) (p : Package) (off : Nat) (v : Quad) (live : Bool) : Package :=
  let t := if live then k.rtick + 1 else (k.mcyc + 63) / 64
  { p with hostWrites := p.hostWrites ++ (windowRows off v).map fun ev => ({ tick := t, ev := ev } : HostWrite) }

/-- An access of R90: aligned 8 bytes, or an aligned 4-byte read. -/
def accessOk (off len : Nat) (write : Bool) : Bool := (len = 8 && off % 8 = 0) || (!write && len = 4 && off % 4 = 0)

/-! Arrivals (R411, Table 17.2, Table 17.2a). -/

end Sys2Proof.Machine

namespace Sys2Proof

open Machine

/-- The data of an arrival. -/
def Arrival.payload (a : Arrival) : List Byte :=
  match a with
  | .barWrite _ _ _ data => data
  | .readCompletion _ data => data
  | .atomicCompletion _ data => data
  | .flit f => (f.payload ++ List.replicate 64 0).take 64
  | .vaultTemp _ t => leBytes 2 t
  | .coreTemp _ t => leBytes 2 t
  | .current x => leBytes 4 x
  | .voltage _ mv => leBytes 2 mv
  | .mgmt code operands => (leBytes 1 code ++ List.replicate 7 0 ++ operands ++ List.replicate 64 0).take 64
  | a => Config.tlpBody a

/-- KIND (Table 17.2). -/
def Arrival.kind : Arrival → Nat
  | .barWrite _ _ _ _ => 0x01
  | .barRead _ _ _ _ => 0x04
  | .readCompletion _ _ => 0x02
  | .atomicCompletion _ _ => 0x02
  | .atsCompletion _ _ => 0x02
  | .prgResponse _ _ => 0x03
  | .atsInvalidate _ _ _ => 0x03
  | .flit _ => 0x10
  | .vaultTemp _ _ => 0x20
  | .coreTemp _ _ => 0x21
  | .current _ => 0x22
  | .voltage _ _ => 0x23
  | .mgmt _ _ => 0x30

/-- The header of a flit (Table 17.2a). -/
def Flit.header (f : Flit) : List Byte :=
  leBytes 4 f.seq.toNat ++ leBytes 4 f.ack.toNat ++ leBytes 1 f.typ.toNat ++ leBytes 2 f.tag.toNat ++ leBytes 6 f.pa.toNat ++ List.replicate 15 0

/-- HDR: 32 bytes. -/
def Arrival.header (a : Arrival) : List Byte :=
  if a.kind < 0x10 then ((Config.tlpHeader a).take 32 ++ List.replicate 32 0).take 32
  else match a with
    | .flit f => f.header
    | _ => List.replicate 32 0

/-- SRC: the requester word of a PCIe arrival, the port, or the sensor number. -/
def Arrival.src (a : Arrival) (gate : Nat) : List Byte :=
  match a with
  | .flit _ => leBytes 4 (gate - 1)
  | .vaultTemp v _ => leBytes 4 v
  | .coreTemp c _ => leBytes 4 (256 + c)
  | .current _ => leBytes 4 512
  | .voltage m _ => leBytes 4 (768 + m)
  | .mgmt _ _ => leBytes 4 0
  | a => ((Config.tlpHeader a).drop 32 ++ List.replicate 4 0).take 4

/-- The pieces of an arrival (R318). -/
def Arrival.pieces (a : Arrival) : Nat := max 1 ((a.payload.length + 63) / 64)

end Sys2Proof

namespace Sys2Proof.Machine

/-- A log entry (Table 17.2). -/
def logEntry (cycle seq kind piece : Nat) (last : Bool) (src payload hdr : List Byte) : List Byte :=
  leBytes 8 cycle ++ leBytes 4 seq ++ leBytes 1 kind ++ leBytes 1 (piece + (if last then 128 else 0)) ++ leBytes 1 payload.length ++ leBytes 1 0
    ++ src ++ List.replicate 12 0 ++ (payload ++ List.replicate 64 0).take 64 ++ hdr

/-- The arrival that a complete log record holds (Table 17.2a, R323). -/
def parseArrival (kind src : Nat) (hdr payload : List Byte) : Option Arrival :=
  let n := fun off len => ofLe ((payload.drop off).take len)
  let h := fun off len => ofLe ((hdr.drop off).take len)
  match kind with
  | 0x10 => some (.flit { seq := BitVec.ofNat 32 (h 0 4), ack := BitVec.ofNat 32 (h 4 4), typ := BitVec.ofNat 8 (h 8 1),
                          tag := BitVec.ofNat 16 (h 9 2), pa := BitVec.ofNat 48 (h 11 6), payload := payload })
  | 0x20 => some (.vaultTemp src (n 0 2))
  | 0x21 => some (.coreTemp (src - 256) (n 0 2))
  | 0x22 => some (.current (n 0 4))
  | 0x23 => some (.voltage (src - 768) (n 0 2))
  | 0x30 => some (.mgmt (n 0 1) (payload.drop 8))
  | _ => if kind ≤ 4 then Config.tlpParse kind hdr payload else none

end Sys2Proof.Machine

namespace Sys2Proof

open Machine

/-- A write to a register of R367, by PCIe or by the management interface: its offset and value. -/
def Arrival.liveWrite? (a : Arrival) : Option (Nat × Quad) :=
  let w := fun (off : Nat) (l : List Byte) => if liveRegister off then some (off, BitVec.ofNat 64 (ofLe l)) else none
  match a with
  | .barWrite 0 0 off data => if accessOk off data.length true then w off data else none
  | .mgmt 3 l => if accessOk (ofLe (l.take 4)) 8 true then w (ofLe (l.take 4)) ((l.drop 8).take 8) else none
  | _ => none

end Sys2Proof

namespace Sys2Proof.Machine

/-- A port of the package. -/
def Package.port (p : Package) (i : Nat) : HousePort := p.ports.getD i {}

/-- Change a port. -/
def Package.modPort (p : Package) (i : Nat) (f : HousePort → HousePort) : Package := { p with ports := modAt p.ports i f }

/-- An acknowledgement frees the window entries before it, and flits that waited for room are sent (R314). -/
def HousePort.acked (x : HousePort) (ack : BitVec 32) : HousePort :=
  let window := x.window.filter fun f => decide ((f.seq - ack).toNat < 2147483648)
  let n := 1024 - window.length
  { x with window := window ++ x.waiting.take n, out := x.out ++ x.waiting.take n, waiting := x.waiting.drop n }

/-- Gate g is there (R2, R3): a house port belongs to a stage, three to each; every other gate is stage 0's. -/
def Package.gatePresent (p : Package) (g : Nat) : Bool := p.present (if 1 ≤ g && g ≤ 12 then (g - 1) / 3 else 0)

/-- The partition that an arrival is directed to (R385). -/
def Package.arrivalPart (p : Package) (a : Arrival) : Option Nat :=
  let fn := fun f : Nat => if 1 ≤ f && f ≤ 8 then some (f - 1) else none
  let cue := fun (f bar off : Nat) => if f = 0 && bar = 2 && off < 0x300000 then some 0 else fn f
  let tag := fun t => (p.pcieWait? t).map fun _ => t % 8
  match a with
  | .barWrite f bar off _ => cue f bar off
  | .barRead f bar off _ => cue f bar off
  | .readCompletion t _ => tag t
  | .atomicCompletion t _ => tag t
  | .atsCompletion t _ => tag t
  | .prgResponse t _ => tag t
  | .mgmt 1 l => some ((l.headD 0).toNat % 8)
  | _ => none

/-! Accepting (R318, R322). -/

/-- Gate g has a ring that R320 allows. -/
def Package.ringOk (p : Package) (g : Nat) : Bool :=
  let x := p.gate g
  let (base, size) := p.win.svc
  x.logbase.toNat % 128 = 0 && ((List.range 24).any fun i => x.logsize.toNat = 2 ^ (i + 1))
    && base ≤ x.logbase.toNat && x.logbase.toNat + 128 * x.logsize.toNat ≤ base + size

/-- Gate g logs in RECORD (R322). -/
def Package.logging (p : Package) (g : Nat) : Bool := p.win.gatemodeCur = 1 && p.win.logen.getLsbD g && p.ringOk g && !(p.gate g).off

/-- The ring is full (R322). -/
def Gate.ringFull (x : Gate) : Bool := x.logsize.toNat ≤ (x.loghead - x.logtail).toNat

/-- REPLAY_BROKEN, and the first event in REPLAYBRK (R322, R324). -/
def Package.breakReplay (k : Clock) (p : Package) (g event : Nat) : Package :=
  let brk := if p.win.replaybrk = 0 then BitVec.ofNat 64 (256 * k.mcyc + 16 * event + g) else p.win.replaybrk
  { p with win := { p.win with replayBroken := true, brokenAt := k.mcyc + 1, replaybrk := brk } }

/-- Write an entry at LOGHEAD. -/
def Package.writeEntry (p : Package) (g : Nat) (entry : Nat → List Byte) : Package :=
  let x := p.gate g
  let p := p.paWrite (x.logbase.toNat + 128 * (x.loghead.toNat % max x.logsize.toNat 1)) (entry x.seq.toNat)
  p.modGate g fun x => { x with loghead := x.loghead + 1, seq := x.seq + 1 }

/-- The entry of a digest (R324). -/
def digestEntry (cycle : Nat) (d : List Byte) (seq : Nat) : List Byte :=
  logEntry cycle seq 0x40 0 true (List.replicate 4 0) d (List.replicate 32 0)

/-- Digest entries that wait go into the ring as soon as it has room (R324). -/
def Package.flushDigests (k : Clock) (p : Package) (g : Nat) : Package :=
  (p.gate g).digests.foldl (fun (p : Package) d =>
    if p.logging g && !(p.gate g).ringFull then (p.writeEntry g (digestEntry k.mcyc d)).modGate g fun x => { x with digests := x.digests.drop 1 }
    else p) p

/-- The cycle and number of the gate's next piece: four in a cycle (R318). -/
def Gate.nextStamp (x : Gate) (t : Nat) : Nat × Nat :=
  if x.stampAt < t then (t, 0) else if x.stampPiece < 4 then (x.stampAt, x.stampPiece) else (x.stampAt + 1, 0)

/-- What a gate does with the next piece that it withholds: it accepts it, or drops the arrival, or goes on withholding. -/
inductive GateTurn where
  | taken (p : Package)
  | waits
  deriving DecidableEq, Repr

/-- Re-execution of a partition holds its live arrivals (R386). -/
def Package.reexecuting (p : Package) (k : Nat) : Bool := (p.part k).recovery.errorOffset.isSome

/-- An arrival accepted in mesh cycle c, live or injected (R318): it takes effect 16 mesh cycles later, an ATS Invalidate counting from its stamp (R203); one for a
partition with recovery points is journaled with its stamp, whatever the mode (R385). -/
def Package.accept (p : Package) (c g : Nat) (a : Arrival) : Package :=
  let at_ := match a with
    | .atsInvalidate _ _ _ => c
    | _ => c + Config.stampDelay
  let p := p.modGate g fun x => { x with effects := x.effects ++ [(at_, a)] }
  match p.arrivalPart a with
  | some k =>
    if (p.part k).recov then p.modPart k fun q => { q with recovery := { q.recovery with arrivals := q.recovery.arrivals ++ [(c, g, a)] } } else p
  | none => p

/-- Accept a piece: stamp it, log it, and with its last piece accept the arrival. -/
def Package.stampPiece (p : Package) (t g : Nat) (i : Nat) (a : Arrival) (log : Bool) : Package :=
  let (c, n) := (p.gate g).nextStamp t
  let last := a.pieces ≤ i + 1
  let piece := ((a.payload.drop (64 * i)).take 64)
  let p := if log then p.writeEntry g fun seq => logEntry c seq a.kind n last (a.src g) piece a.header else p
  let p := p.modGate g fun x => { x with stampAt := c, stampPiece := n + 1 }
  if !last then p.modGate g fun x => { x with ingress := (i + 1, a) :: x.ingress.drop 1 }
  else (p.modGate g fun x => { x with ingress := x.ingress.drop 1 }).accept c g a

/-- The next piece that gate g withholds (R322, R323, R369). -/
def Package.gateTurn (k : Clock) (p : Package) (g : Nat) : GateTurn :=
  match (p.gate g).ingress with
  | [] => .waits
  | (i, a) :: _ =>
    if k.run = .frozen || p.win.gatemodeCur = 2 then .waits
    else match (p.arrivalPart a).filter fun q => i = 0 && p.reexecuting q with
      | some q =>
        .taken ((p.modGate g fun x => { x with ingress := x.ingress.drop 1 }).modPart q fun r =>
          { r with recovery := { r.recovery with liveHeld := r.recovery.liveHeld ++ [(g, a)] } })
      | none =>
        let p := p.flushDigests k g
        if !p.logging g then .taken (p.stampPiece k.mcyc g i a false)
        else if !((p.gate g).ringFull || !(p.gate g).digests.isEmpty) then .taken (p.stampPiece k.mcyc g i a true)
        else if p.win.lossy.getLsbD g then
          .taken (((p.modGate g fun x => { x with off := true }).breakReplay k g 0).stampPiece k.mcyc g i a false)
        else if g = 13 then .taken ((p.modGate g fun x => { x with ingress := x.ingress.drop 1 }).count Config.errTELDROP Config.max16)
        else .waits

/-- Accept as much as the gate may. -/
def Package.drainFrom (k : Clock) (g : Nat) : Nat → Package → Package
  | 0, p => p
  | n + 1, p => match p.gateTurn k g with
    | .taken p => Package.drainFrom k g n p
    | .waits => p

/-- Accept what gate g withholds. -/
def Package.drainGate (k : Clock) (p : Package) (g : Nat) : Package :=
  Package.drainFrom k g (((p.gate g).ingress.map fun a => a.2.pieces).foldl (· + ·) 0) p

/-- GATE_ACCEPT (R2, R318, R321, R367, R403): a gate of an absent stage takes nothing; BAR 4 accesses and the registers of R367 pass unstamped in every mode; anything else is stamped in its turn. -/
def gateAcceptAt (g : Nat) (a : Arrival) (k : Clock) (p : Package) : Package :=
  if !p.gatePresent g then p
  else match a with
  | .barWrite 0 4 off data => serviceAccess off data.length data p
  | .barRead 0 4 off len => serviceAccess off len [] p
  | a => match a.liveWrite? with
    | some (off, v) => p.hostWindow k off v true
    | none => (p.modGate g fun x => { x with ingress := x.ingress ++ [(0, a)] }).drainGate k g

/-! Effects (R317, R318). -/

/-- What a BAR read returns (R90, R309, R327, R363, R388). -/
def Package.barValue (k : Clock) (p : Package) (fn bar off : Nat) : Nat :=
  let part := fn - 1
  let word := fun (x : Nat) => if off % 8 = 4 then x / 2 ^ 32 else x
  let at_ := off / 8 * 8
  if bar = 0 then
    if fn = 0 then word (p.windowValue k at_)
    else if at_ = 0x100 then word (p.part part).cfg
    else if 0x800 + 32 * part ≤ at_ && at_ < 0x820 + 32 * part then word (p.windowValue k at_)
    else 0
  else if bar = 2 then
    if 0x300000 ≤ at_ then if fn = 0 then word ((tabGet p.errors ((at_ - 0x300000) / 8)).getD 0) else 0
    else if at_ < 0x40000 && at_ % 64 = 0 then
      let n := p.node part (at_ / 64)
      word (n.held + 2 ^ 32 * n.cqdrop)
    else if 0x100000 ≤ at_ && at_ < 0x200000 then word ((p.node part ((at_ - 0x100000) / 256)).field (at_ % 256) 8)
    else if 0x200000 ≤ at_ && at_ < 0x208000 then word (p.node part ((at_ - 0x200000) / 8)).noderc.toNat
    else 0
  else 0

/-- The rows that a BAR write is. Function 0's BAR 2 is that of partition 0, with the error counters after it (R317, R388). -/
def barRows (fn bar off : Nat) (data : List Byte) : List Instr :=
  let v := BitVec.ofNat 64 (ofLe data)
  let k := fn - 1
  let ur : Instr := .egressTransaction 0 (.unsupportedRequest fn)
  if bar = 2 && off < 0x40000 then if off % 64 = 0 then [.cuePush k (off / 64) data] else [ur]
  else if !accessOk off data.length true then [ur]
  else if bar = 0 && fn ≠ 0 then if 0x800 + 32 * k ≤ off && off < 0x820 + 32 * k then windowRows off v else []
  else if bar = 2 && 0x300000 ≤ off then
    if fn = 0 && off < 0x300000 + 8 * Config.errEnd then [.errorCounterClear ((off - 0x300000) / 8)] else []
  else if bar = 2 then
    if off < 0x48000 then [.cueClose k ((off - 0x40000) / 8) v]
    else if 0x100000 ≤ off && off < 0x200000 then
      let node := (off - 0x100000) / 256
      if off % 256 = 248 then (if v.getLsbD 0 then [.nodeCommit k node v] else [.nodeWithdraw k node])
      else [.nodeEntryWrite k node (off % 256) v]
    else if 0x200000 ≤ off && off < 0x208000 then [.nodercClear k ((off - 0x200000) / 8)]
    else []
  else []

/-- The row of a house flit by its type (Table 17.2a). -/
def flitRows (port : Nat) (f : Flit) : List Instr :=
  match f.typ.toNat with
  | 1 => [.houseWrite port f]
  | 2 => [.houseReadRequest port f]
  | 3 => [.houseReadCompletion port f]
  | 4 => [.houseAtomic port f]
  | 5 => [.houseAtomicCompletion port f]
  | 6 => [.endToEndAck port f]
  | 7 => [.houseManagementFlit port f]
  | _ => []

/-- The row of a management command (Table 17.2b); any other code is ignored. Byte n of the payload is operand byte n − 8. -/
def mgmtRows (code : Nat) (l : List Byte) : List Instr :=
  let n := fun off len => ofLe ((l.drop off).take len)
  match code with
  | 1 => [.hostKill (n 0 1) (n 2 2 % 16384)]
  | 2 => [.retireSlice (n 0 1) (n 1 1)]
  | 3 => [.windowWrite (n 0 4) (BitVec.ofNat 64 (n 8 8))]
  | 4 => [.windowRead (n 0 4)]
  | _ => []

/-- The rows by which an accepted arrival takes effect; a BAR read answers through gate 0. -/
def Package.arrivalRows (k : Clock) (p : Package) (g : Nat) : Arrival → List Instr
  | .barWrite fn bar off data => barRows fn bar off data
  | .barRead fn bar off len =>
    if accessOk off len false then [.egressTransaction 0 (.readReply fn (leBytes len (p.barValue k fn bar off)))]
    else [.egressTransaction 0 (.unsupportedRequest fn)]
  | .readCompletion tag data => [.hostReadCompletion tag data]
  | .atomicCompletion tag data => [.atomicopCompletion tag data]
  | .atsCompletion tag r => [.atsTranslationCompletion tag r]
  | .prgResponse tag r => [.prgResponse tag r]
  | .atsInvalidate pasid va log2 => [.atsInvalidateRequest pasid va log2]
  | .flit f => flitRows (g - 1) f
  | .vaultTemp v t => [.vaultTemperatureSample v t]
  | .coreTemp c t => [.coreTemperatureSample c t]
  | .current x => [.packageCurrentSample x]
  | .voltage m mv => [.companyVoltageSample m mv]
  | .mgmt code l => mgmtRows code l

/-- A write of the host window made through a BAR waits for its tick boundary; the cue aperture acts at once. -/
def Package.applyArrival (k : Clock) (p : Package) (g : Nat) (a : Arrival) : Package :=
  match a with
  | .barWrite 0 0 off data =>
    if accessOk off data.length true then p.hostWindow k off (BitVec.ofNat 64 (ofLe data)) false
    else p.later .now (.egressTransaction 0 (.unsupportedRequest 0))
  | .barWrite fn 0 off data =>
    let rows := (barRows fn 0 off data).map fun ev => ({ tick := (k.mcyc + 63) / 64, ev := ev } : HostWrite)
    if accessOk off data.length true then { p with hostWrites := p.hostWrites ++ rows }
    else p.later .now (.egressTransaction 0 (.unsupportedRequest fn))
  | a => (p.arrivalRows k g a).foldl (fun (p : Package) ev => p.later .now ev) p

/-- The lowest gate with an arrival that is due, and the package after it has been handed on (R318). -/
def Package.dueEffect (k : Clock) (p : Package) : Option Package :=
  (List.range 15).findSome? fun g =>
    match findIdx? (fun e : Nat × Arrival => decide (e.1 ≤ k.mcyc)) (p.gate g).effects with
    | none => none
    | some i => ((p.gate g).effects[i]?).map fun e => (p.modGate g fun x => { x with effects := x.effects.eraseIdx i }).applyArrival k g e.2

/-! REPLAY (R323, R405, R406). -/

/-- Gate g injects. -/
def Package.injecting (p : Package) (g : Nat) : Bool := p.win.gatemodeCur = 2 && p.win.logen.getLsbD g && p.ringOk g

/-- The entry at LOGHEAD. -/
def Package.ringEntry (p : Package) (g : Nat) : List Byte :=
  let x := p.gate g
  p.paRead (x.logbase.toNat + 128 * (x.loghead.toNat % max x.logsize.toNat 1)) 128

/-- The gate's ring is empty (R323). -/
def Gate.ringEmpty (x : Gate) : Bool := x.loghead = x.logtail

/-- An entry is due in its cycle; a digest entry as soon as that cycle's own digest stands, or once the cycle has passed without one (R324). -/
def Package.entryDue (p : Package) (mcyc g : Nat) : Bool :=
  let c := ofLe ((p.ringEntry g).take 8)
  if ofLe (((p.ringEntry g).drop 12).take 1) = 0x40 && (p.gate g).digests.isEmpty then c < mcyc else c ≤ mcyc

/-- A gate whose next entry is due. -/
def Package.injectReady (k : Clock) (p : Package) : Option Nat :=
  (List.range 15).find? fun g => p.injecting g && !(p.gate g).ringEmpty && p.entryDue k.mcyc g

/-- An injected flit: its port goes on behind it, as when the reorder buffer delivers it (R315, R411). -/
def Package.flitInjected (p : Package) (g : Nat) : Arrival → Package
  | .flit f => p.modPort (g - 1) fun x =>
      let x := x.acked f.ack
      { x with expect := f.seq + 1, reorder := x.reorder.filter fun y => y.seq ≠ f.seq, asks := x.asks.filter (· ≠ f.seq) }
  | _ => p

/-- A gate whose ring has run dry. -/
def Package.ringDry (p : Package) : Bool := (List.range 15).any fun g => p.injecting g && (p.gate g).ringEmpty

/-- REPLAY_INJECT (R323, R324): the entry acts as an acceptance at its cycle; a digest entry is compared. -/
def replayInjectAt (g : Nat) (k : Clock) (p : Package) : Package :=
  let e := p.ringEntry g
  let n := fun off len => ofLe ((e.drop off).take len)
  if !p.injecting g || (p.gate g).ringEmpty || !p.entryDue k.mcyc g then p
  else
    let kind := n 12 1
    let payload := (e.drop 32).take (n 14 1)
    if kind = 0x40 then
      let same := (p.gate g).digests.head? = some payload
      let p := p.modGate g fun x => { x with loghead := x.loghead + 1, digests := x.digests.drop 1 }
      if same then p else p.breakReplay k g 1
    else
      let data := (p.gate g).partialData ++ payload
      let last := n 13 1 / 128 = 1
      let p := p.modGate g fun x => { x with loghead := x.loghead + 1, partialData := if last then [] else data }
      match if last then parseArrival kind (n 16 4) ((e.drop 96).take 32) data else none with
      | some a => (p.flitInjected g a).accept (n 0 8) g a
      | none => p

/-! Egress (R324, R325). -/

end Sys2Proof.Machine

namespace Sys2Proof

open Machine

/-- The payload of an outbound transaction. -/
def Egress.payload : Egress → List Byte
  | .memWrite _ _ _ data => data
  | .atomic _ _ _ _ data _ => data
  | .readReply _ data => data
  | .flit f => (f.payload ++ List.replicate 64 0).take 64
  | .mgmt data => data
  | _ => []

/-- The header that its digest covers. -/
def Egress.header : Egress → List Byte
  | .flit f => f.header
  | .mgmt _ => List.replicate 32 0
  | t => ((Config.egressHeader t).take 32 ++ List.replicate 32 0).take 32

/-- An outbound write (R325). -/
def Egress.isWrite : Egress → Bool
  | .memWrite _ _ _ _ => true
  | .msix _ _ => true
  | .flit f => f.typ = 1
  | _ => false

/-- The serialisation of R324. -/
def Egress.serial (t : Egress) (mcyc : Nat) : List Byte := leBytes 8 mcyc ++ t.header ++ leBytes 4 t.payload.length ++ t.payload

end Sys2Proof

namespace Sys2Proof.Machine

/-- Hash a transaction into EGDIG; after every 1,024 a digest entry is due, before anything else leaves (R324). -/
def Package.hashEgress (k : Clock) (p : Package) (g : Nat) (t : Egress) : Package :=
  if 13 ≤ g || !p.win.digest.getLsbD g then p
  else
    let p := p.modGate g fun x => { x with egdig := Sha3.hash (x.egdig ++ t.serial k.mcyc), egcount := x.egcount + 1 }
    if (p.gate g).egcount % 1024 = 0 then { p with due := { at_ := .now, ev := .egdigest g } :: p.due } else p

/-- A flit goes into its port's send window, or waits for room there (R314). -/
def HousePort.send (x : HousePort) (number : Nat) (f : Flit) : HousePort :=
  let x := if f.typ = 1 then { x with origin := x.origin ++ [(number, f)] } else x
  if x.waiting.isEmpty && x.window.length < 1024 then { x with window := x.window ++ [f], out := x.out ++ [f] }
  else { x with waiting := x.waiting ++ [f] }

/-- The sequence number and the acknowledgement of a flit that leaves through a port: the acknowledgement names the next flit that the port's gate will accept. -/
def Package.numberFlit (p : Package) (g : Nat) : Egress → Egress × Package
  | .flit f =>
    let x := p.ports.getD (g - 1) {}
    (.flit { f with seq := x.sendSeq, ack := x.expect },
      { p with ports := modAt p.ports (g - 1) fun x : HousePort => { x with sendSeq := x.sendSeq + 1 } })
  | t => (t, p)

/-- A transaction leaves (R324, R325): numbered, hashed, and sent unless the run is a replay or re-execution has sent it before. -/
def egressOut (g : Nat) (t : Egress) (k : Clock) (p : Package) : Package :=
  let (t, p) := p.numberFlit g t
  let p := if t.isWrite then p.modGate g fun x => { x with egseq := x.egseq + 1 } else p
  let p := p.hashEgress k g t
  let n := (p.gate g).egseq
  if p.win.gatemodeCur = 2 || (t.isWrite && decide (n ≤ (p.gate g).eghigh)) then p
  else
    let p := { p with sent := p.sent ++ [(g, t)] }
    match t with
    | .flit f => { p with ports := modAt p.ports (g - 1) fun x : HousePort => x.send n f }
    | t => if t.isWrite then p.modGate g fun x => { x with egacked := n } else p

/-- EGRESS_TRANSACTION: a host read waits while 512 are outstanding (R317). -/
def egressAt (g : Nat) (t : Egress) (k : Clock) (p : Package) : Package :=
  match t with
  | .memRead _ _ _ _ tag => if p.reads.length < 512 then egressOut g t k { p with reads := p.reads ++ [tag] } else { p with readQ := p.readQ ++ [t] }
  | t => egressOut g t k p

/-- EGDIGEST (R324): in RECORD the entry goes into the ring, waits in the digest buffer, or is lost; in REPLAY it waits to be compared. -/
def egdigestAt (g : Nat) (k : Clock) (p : Package) : Package :=
  let d := (p.gate g).egdig ++ leBytes 8 (p.gate g).egcount
  let p := p.flushDigests k g
  let keep := p.modGate g fun x => { x with digests := x.digests ++ [d] }
  if p.injecting g then keep
  else if !p.logging g then p
  else if !(p.gate g).ringFull then p.writeEntry g (digestEntry k.mcyc d)
  else if (p.gate g).digests.length < 16 then keep
  else p.breakReplay k g 0

/-! The gate registers that have rows of their own. -/

/-- LOGTAIL_WRITE (R319, R322, R374): the host frees entries, or in REPLAY adds them; what the gate withheld goes on. -/
def logtailAt (g : Nat) (v : Quad) (k : Clock) (p : Package) : Package :=
  let p := (p.modGate g fun x => { x with logtail := v.setWidth 32 }).flushDigests k g
  let p := p.drainGate k g
  if 1 ≤ g && g ≤ 12 then p.later .now (.houseFlitDeliver (g - 1)) else p

/-- GATEMODE takes a mode (R55, R322, R324): EGDIG starts at 0 and a gate that stopped logging under LOSSY starts again. -/
def Package.enterMode (p : Package) (m : Nat) : Package :=
  let reset := fun x : Gate => if m = 0 then x
    else { x with off := if m = 1 then false else x.off, egdig := List.replicate 32 0, egcount := 0, digests := [], partialData := [] }
  if p.win.gatemodeCur = m then p
  else { p with win := { p.win with gatemodeCur := m }, gates := p.gates.map reset }

/-- What every gate withholds goes on: after a change of mode or a thaw. -/
def Package.drainAll (k : Clock) (p : Package) : Package :=
  (List.range 15).foldl (fun (p : Package) g =>
    let p := p.drainGate k g
    if 1 ≤ g && g ≤ 12 && !(p.ports.getD (g - 1) {}).reorder.isEmpty then p.later .now (.houseFlitDeliver (g - 1)) else p) p

/-- GATEMODE_WRITE (R55): a request of 3 is ignored; REPLAY waits for a held reset or a restore. -/
def gatemodeAt (v : Quad) (k : Clock) (p : Package) : Package :=
  let req := v.toNat % 4
  if req = 3 then p
  else
    let p := { p with win := { p.win with gatemodeReq := req } }
    if req = 2 then p else (p.enterMode req).drainAll k

/-- REPLAYBRK_CLEAR (R320): only a write of 0 has an effect. -/
def replaybrkAt (v : Quad) (p : Package) : Package := if v = 0 then { p with win := { p.win with replaybrk := 0 } } else p

def execGATE_ACCEPT (gate : Nat) (a : Arrival) (s : State) : Host.Outcome State Fault Refusal := s.event (gateAcceptAt gate a)
def execREPLAY_INJECT (gate : Nat) (s : State) : Host.Outcome State Fault Refusal := s.event (replayInjectAt gate)
def execEGRESS_TRANSACTION (gate : Nat) (t : Egress) (s : State) : Host.Outcome State Fault Refusal := s.event (egressAt gate t)
def execEGDIGEST (gate : Nat) (s : State) : Host.Outcome State Fault Refusal := s.event (egdigestAt gate)
def execSERVICE_REGION_ACCESS (off len : Nat) (data : List Byte) (s : State) : Host.Outcome State Fault Refusal :=
  s.event fun _ => serviceAccess off len data
def execLOGTAIL_WRITE (g : Nat) (v : Quad) (s : State) : Host.Outcome State Fault Refusal := s.event (logtailAt g v)
def execGATEMODE_WRITE (v : Quad) (s : State) : Host.Outcome State Fault Refusal := s.event (gatemodeAt v)
def execREPLAYBRK_CLEAR (v : Quad) (s : State) : Host.Outcome State Fault Refusal := s.event fun _ => replaybrkAt v
def execWINDOW_WRITE (off : Nat) (v : Quad) (s : State) : Host.Outcome State Fault Refusal :=
  s.event fun k p => if accessOk off 8 true then p.hostWindow k off v (liveRegister off) else p
def execWINDOW_READ (off : Nat) (s : State) : Host.Outcome State Fault Refusal :=
  s.event fun k p => p.later .now (.egressTransaction 14 (.mgmt (leBytes 8 (if accessOk off 8 false then p.windowValue k off else 0))))
def execERROR_COUNTER_CLEAR (idx : Nat) (s : State) : Host.Outcome State Fault Refusal :=
  s.event fun _ p => { p with errors := tabErase p.errors idx }

end Sys2Proof.Machine
end

