-- ==== Sys2Proof/Machine/House.lean ====
section
/-! DEFINITION. The house links (R314 to R316, R376, R411): receiver, reorder buffer and send window of a port, what a peer's flits do, and the time-alignment exchange. -/

namespace Sys2Proof.Machine

/-- Send a flit of the device's own through a port's egress gate. -/
def Package.sendFlit (p : Package) (port typ : Nat) (tag : BitVec 16) (pa : Nat) (payload : List Byte) : Package :=
  p.later .now (.egressTransaction (port + 1)
    (.flit { seq := 0, ack := 0, typ := BitVec.ofNat 8 typ, tag := tag, pa := BitVec.ofNat 48 pa, payload := payload }))

/-- A flit within the reorder buffer's reach that it does not hold yet (R315). -/
def HousePort.wants (x : HousePort) (seq : BitVec 32) : Bool :=
  decide ((seq - x.expect).toNat < 1024) && !x.reorder.any fun f => f.seq = seq

/-- HOUSE_FLIT_RECEIVE (R2, R315): a port of an absent stage receives nothing; a good flit enters the reorder buffer; a bad one is asked for again. -/
def houseReceiveAt (port : Nat) (f : Flit) (bad : Bool) (p : Package) : Package :=
  if !p.gatePresent (port + 1) then p
  else if bad then p.modPort port fun x => if x.wants f.seq then { x with asks := x.asks ++ [f.seq] } else x
  else
    let p := p.modPort port fun x =>
      let x := x.acked f.ack
      if x.wants f.seq then { x with reorder := x.reorder ++ [f], asks := x.asks.filter (· ≠ f.seq) } else x
    p.later .now (.houseFlitDeliver port)

/-- HOUSE_RESEND_REQUEST (R315): the sender sends that flit again from its window. -/
def houseResendAt (port seq : Nat) (p : Package) : Package :=
  match (p.port port).window.find? fun f => f.seq.toNat = seq with
  | none => p
  | some f => (p.modPort port fun x => { x with out := x.out ++ [f] }).count (Config.errHLREPAIR + port) Config.max32

/-- WINDOW_SCRUB (R315): one window entry is visited; one that cannot be corrected is sourced again from the originating queue's copy, which is the same flit. -/
def windowScrubAt (port : Nat) (bad : Bool) (p : Package) : Package :=
  let p := p.modPort port fun x => { x with scrub := if x.scrub + 1 < x.window.length then x.scrub + 1 else 0 }
  if bad then p.count (Config.errHLREPAIR + port) Config.max32 else p

/-- HOUSE_FLIT_DELIVER (R315, R316): the next flit in order meets its gate; while the gate withholds it, it stays in the buffer unacknowledged. -/
def houseDeliverAt (port : Nat) (k : Clock) (p : Package) : Package :=
  match (p.port port).reorder.find? fun f => f.seq = (p.port port).expect with
  | none => p
  | some f =>
    let q := (p.modGate (port + 1) fun g => { g with ingress := g.ingress ++ [(0, .flit f)] }).drainGate k (port + 1)
    if !(q.gate (port + 1)).ingress.isEmpty then p
    else
      let q := q.modPort port fun x => { x with expect := x.expect + 1, reorder := x.reorder.filter fun y => y.seq ≠ f.seq }
      q.later .now (.houseFlitDeliver port)

/-! What a peer's flits do (R411). The device PA of a flit is a PA of either view; what is not backed is neither read nor written. -/

/-- A peer's write, at the homes of its lines. -/
def Package.peerStore (p : Package) (pa : Nat) (l : List Byte) : Package :=
  let bytes := l.zipIdx.filterMap fun b => (p.placeOf (pa + b.2)).map fun a => (a, b.1)
  (linesOf (bytes.map Prod.fst)).foldl (fun (p : Package) line =>
    let mine := (bytes.filter fun b => b.1 / 128 = line).map fun b => (b.1 % 128, b.2)
    (p.clearReservations line).putLine (((p.clearReservations line).lineNow line).write mine)) p

/-- What a peer reads. -/
def Package.peerRead (p : Package) (pa n : Nat) : List Byte :=
  (List.range n).map fun i => ((p.placeOf (pa + i)).map p.readByte).getD (Config.unmappedByte (pa + i))

/-- HOUSE_WRITE: the payload is written and the write is acknowledged end to end. -/
def houseWriteAt (port : Nat) (f : Flit) (p : Package) : Package :=
  (p.peerStore f.pa.toNat ((f.payload ++ List.replicate 64 0).take 64)).sendFlit port 6 f.tag 0 (List.replicate 64 0)

/-- HOUSE_READ_REQUEST: answered with the 64 bytes. -/
def houseReadAt (port : Nat) (f : Flit) (p : Package) : Package := p.sendFlit port 3 f.tag 0 (p.peerRead f.pa.toNat 64)

/-- HOUSE_ATOMIC: the memory and the completion take the values that the flit's operation gives. -/
def houseAtomicAt (port : Nat) (f : Flit) (p : Package) : Package :=
  let r := Config.peerAtomic f.payload (p.peerRead f.pa.toNat 64)
  (p.peerStore f.pa.toNat (r.1.take 64)).sendFlit port 5 f.tag 0 ((r.2 ++ List.replicate 64 0).take 64)

/-- END_TO_END_ACK (R314, R325): the originating queue's copy is freed, and the write counts as acknowledged. -/
def endToEndAckAt (port : Nat) (f : Flit) (p : Package) : Package :=
  match (p.port port).origin.find? fun o => o.2.tag = f.tag with
  | none => p
  | some o =>
    (p.modPort port fun x => { x with origin := x.origin.filter fun y => y.2.tag ≠ f.tag }).modGate (port + 1) fun g => { g with egacked := max g.egacked o.1 }

/-! Time alignment (R376). A stamp lies 16 mesh cycles before its effect. -/

/-- TIME_SYNC_EXCHANGE: the leader sends Sync and its Follow-up. -/
def timeSyncAt (port : Nat) (k : Clock) (p : Package) : Package :=
  let p := p.modPort port fun x => { x with leader := true, t1 := k.mcyc }
  (p.sendFlit port 7 0 0 (Config.alignFlit 0 0)).sendFlit port 7 0 0 (Config.alignFlit 1 k.mcyc)

/-- The offset and the delay that the follower computes, rounded toward zero. -/
def alignResult (t1 t2 t3 t4 : Int) : Int × Int := (Int.tdiv ((t2 - t1) - (t4 - t3)) 2, Int.tdiv ((t2 - t1) + (t4 - t3)) 2)

/-- HOUSE_MANAGEMENT_FLIT: the four messages of an exchange. -/
def houseManagementAt (port : Nat) (f : Flit) (k : Clock) (p : Package) : Package :=
  let stamp := k.mcyc - Config.stampDelay
  match Config.alignKind f.payload with
  | 0 => p.modPort port fun x => { x with t2 := stamp }
  | 1 => (p.modPort port fun x => { x with t1 := Config.alignTime f.payload, t3 := k.mcyc }).sendFlit port 7 0 0 (Config.alignFlit 2 0)
  | 2 => p.sendFlit port 7 0 0 (Config.alignFlit 3 stamp)
  | 3 => p.modPort port fun x =>
      let r := alignResult x.t1 x.t2 x.t3 (Config.alignTime f.payload)
      { x with peeroff := BitVec.ofInt 48 r.1, peerdly := BitVec.ofInt 48 r.2 }
  | _ => p

def execHOUSE_FLIT_RECEIVE (port : Nat) (f : Flit) (bad : Bool) (s : State) : Host.Outcome State Fault Refusal := s.event fun _ => houseReceiveAt port f bad
def execHOUSE_RESEND_REQUEST (port seq : Nat) (s : State) : Host.Outcome State Fault Refusal := s.event fun _ => houseResendAt port seq
def execWINDOW_SCRUB (port : Nat) (bad : Bool) (s : State) : Host.Outcome State Fault Refusal := s.event fun _ => windowScrubAt port bad
def execHOUSE_FLIT_DELIVER (port : Nat) (s : State) : Host.Outcome State Fault Refusal := s.event (houseDeliverAt port)
def execHOUSE_WRITE (port : Nat) (f : Flit) (s : State) : Host.Outcome State Fault Refusal := s.event fun _ => houseWriteAt port f
def execHOUSE_READ_REQUEST (port : Nat) (f : Flit) (s : State) : Host.Outcome State Fault Refusal := s.event fun _ => houseReadAt port f
/-- A read completion answers a read of this package; no instruction of the device reads a peer, so nothing waits for it. -/
def execHOUSE_READ_COMPLETION (_ : Nat) (_ : Flit) (s : State) : Host.Outcome State Fault Refusal := s.event fun _ p => p
def execHOUSE_ATOMIC (port : Nat) (f : Flit) (s : State) : Host.Outcome State Fault Refusal := s.event fun _ => houseAtomicAt port f
/-- As a read completion: nothing of this package waits for it. -/
def execHOUSE_ATOMIC_COMPLETION (_ : Nat) (_ : Flit) (s : State) : Host.Outcome State Fault Refusal := s.event fun _ p => p
def execEND_TO_END_ACK (port : Nat) (f : Flit) (s : State) : Host.Outcome State Fault Refusal := s.event fun _ => endToEndAckAt port f
def execHOUSE_MANAGEMENT_FLIT (port : Nat) (f : Flit) (s : State) : Host.Outcome State Fault Refusal := s.event (houseManagementAt port f)
def execTIME_SYNC_EXCHANGE (port : Nat) (s : State) : Host.Outcome State Fault Refusal := s.event (timeSyncAt port)

end Sys2Proof.Machine
end

