-- ==== Sys2Proof/Machine/Matrix.lean ====
section
/-! DEFINITION. The matrix array (R44, R169 to R187): the canonical layout, accumulator blocks, promotion buffers, save areas, follow slots, the
engine slot rotation, and the MMA words and events. A command takes effect when the array accepts it; its registers are readable when it completes. -/

namespace Sys2Proof.Machine

/-! The engine slot rotation (R44). -/

/-- The bay that a rotation slot serves: its own, or for slot 4 the first bay from the pointer on whose head command belongs to the specialised role. -/
def slotBay (waiting special : Nat → Bool) (ptr : Nat) : Nat → Option Nat
  | 4 => ((List.range 4).map fun i => (ptr + i) % 4).find? special
  | s => if waiting s then some s else none

/-- The grant of a company cycle: the bay, and the pointer afterwards. -/
def grantBay (cyc : Nat) (waiting special : Nat → Bool) (ptr : Nat) : Option (Nat × Nat) :=
  ((List.range 5).map fun i => (cyc + i) % 5).findSome? fun s =>
    (slotBay waiting special ptr s).map fun b => (b, if s = 4 then (b + 1) % 4 else ptr)

/-! Operands (R172). -/

/-- The format of a tile (Table 9.1). -/
def fmtOf (n : Nat) : Fmt :=
  match n with
  | 0 => fmtE4M3
  | 1 => fmtE5M2
  | 2 => fmtF16
  | 3 => fmtBF16
  | _ => fmtF32

/-- The bytes of an element. -/
def fmtSize (n : Nat) : Nat := if n ≤ 1 then 1 else if n ≤ 3 then 2 else 4

/-- The address of row r of a tile. -/
def tileRowAt (t : Quad) (r : Nat) : Nat := 16 * tileBase' t + 16 * bits t.toNat 32 10 * r
where
  /-- BASE. -/
  tileBase' (t : Quad) : Nat := bits t.toNat 0 15

/-- The elements of row r of a tile. -/
def CoreCtx.tileRow (x : CoreCtx) (c : Cast) (t : Quad) (r : Nat) : List Nat :=
  let size := fmtSize (tileFmt t)
  let b := x.spRead c (tileRowAt t r) 64
  (List.range (64 / size)).map fun k => ofLe ((b.drop (k * size)).take size)

/-- The rows of a tile. -/
def CoreCtx.tileRowsOf (x : CoreCtx) (c : Cast) (t : Quad) : List (List Nat) := (List.range (tileRows t)).map fun r => x.tileRow c t r

/-- Row r of a tile touches a poisoned granule. -/
def CoreCtx.rowPoisoned (x : CoreCtx) (c : Cast) (t : Quad) (r : Nat) : Bool :=
  (granulesOf (tileRowAt t r) 64).any fun g => x.poisoned c g

/-- The address of the scale of row i of an A operand, or of a B operand (R179). -/
def scaleAt (t : Quad) (i : Nat) : Option Nat :=
  let base := 16 * bits t.toNat 42 15
  match tileScaleMode t with
  | 1 => some (base + 4 * i)
  | 2 => some base
  | _ => none

/-- A scale as a single, 1.0 where there is none. -/
def CoreCtx.scale (x : CoreCtx) (c : Cast) (t : Quad) (i : Nat) : Nat :=
  match scaleAt t i with
  | some a => ofLe (x.spRead c a 4)
  | none => 0x3F800000

/-- A scale lies in a poisoned granule. -/
def CoreCtx.scalePoisoned (x : CoreCtx) (c : Cast) (t : Quad) (i : Nat) : Bool :=
  match scaleAt t i with
  | some a => (granulesOf a 4).any fun g => x.poisoned c g
  | none => false

/-! Accumulators (R174, R177). -/

/-- The row and column of the result that lane l of the k-th block register holds, for N columns. -/
def outputOf (n k l : Nat) : Nat × Nat := (8 * (k / (n / 16)) + l / 16, 16 * (k % (n / 16)) + l % 16)

/-- The sum over k, one rounding a step (R177). -/
def mmaDot (fa fb : Fmt) (c : Nat) (a b : List Nat) : Nat := ((fmtF32.dot fa fb c (a.zip b))).bits

/-- The k-th block register: element (i, j) takes `f i j old`. -/
def blockReg (n k : Nat) (f : Nat → Nat → Word → Word) (old : List Word) : List Word :=
  (List.range 128).map fun l => f (outputOf n k l).1 (outputOf n k l).2 (old.getD l 0)

/-- Replace the block registers. -/
def Wave.setBlock (w : Wave) (acc m n : Nat) (f : Nat → Nat → Word → Word) : Wave :=
  (List.range ((m / 8) * (n / 16))).foldl (fun w k => { w with vregs := modAt w.vregs (acc + k) (blockReg n k f) }) w

/-! Traps of the array (R180, R224). -/

/-- ENGINE with an array error code: it goes to the party of the wave's lowest live slice. -/
def Wave.arrayError (w : Wave) (code : Nat) : Wave :=
  let k := (w.liveSlices).headD 0
  let leader := ((w.slices[k]?).map fun s => s.leader.toNat).getD 0
  { w with due := w.due ++ [{ cause := .engine, addr := BitVec.ofNat 64 (0x100 + code), lanes := w.activeOf (w.party leader),
                              leader := leader }] }

/-- POISON from operand rows: the lanes of the outputs that are not written, and the lowest poisoned granule. -/
def Wave.arrayPoison (w : Wave) (addr : Nat) (lanes : LaneMask) : Wave :=
  { w with due := w.due ++ [{ cause := .poison, addr := BitVec.ofNat 64 addr, lanes := lanes, leader := w.sole }] }

/-! Promotion buffers (R178, R179). -/

/-- The buffer bound to an accumulator base. -/
def Wave.promoOf (w : Wave) (acc : Nat) : Option Nat := findIdx? (fun b : Option Promo => b.any fun p => p.acc = acc) w.promo

/-- The buffer that FIRST or MLOAD binds: the one bound to the base, else the lowest free one. -/
def Wave.promoFor (w : Wave) (acc : Nat) : Option Nat := (w.promoOf acc).or (findIdx? Option.isNone w.promo)

/-- The record of an output. -/
def Promo.rec_ (p : Promo) (i j : Nat) : WideRecord := p.recs.getD (i * p.n + j) { valid := true, kpos := 0, p := 0 }

/-- A record as 64 bits (Table 9.3). -/
def WideRecord.word (r : WideRecord) : Quad :=
  BitVec.ofNat 64 (r.p.toNat + r.kpos.toNat * 2 ^ 32 + (if r.valid then 2 ^ 48 else 0))

/-- A record from 64 bits. -/
def WideRecord.ofWord (x : Quad) : WideRecord :=
  { valid := x.getLsbD 48, kpos := (x >>> 32).setWidth 16, p := x.setWidth 32 }

/-! One command. -/

/-- What an MMA-kind command needs: its cast, operand rows, and which rows are poisoned. -/
structure MmaIn where
  m : Nat
  n : Nat
  fa : Fmt
  fb : Fmt
  a : List (List Nat)
  b : List (List Nat)
  badA : List Bool
  badB : List Bool

/-- Read the operands of a command. -/
def CoreCtx.mmaIn (x : CoreCtx) (c : Cast) (ta tb : Quad) (scales : Bool) : MmaIn :=
  { m := tileRows ta, n := tileRows tb, fa := fmtOf (tileFmt ta), fb := fmtOf (tileFmt tb),
    a := x.tileRowsOf c ta, b := x.tileRowsOf c tb,
    badA := (List.range (tileRows ta)).map fun r => x.rowPoisoned c ta r || (scales && x.scalePoisoned c ta r),
    badB := (List.range (tileRows tb)).map fun r => x.rowPoisoned c tb r || (scales && x.scalePoisoned c tb r) }

/-- Output (i, j) rests on no poisoned granule. -/
def MmaIn.clean (q : MmaIn) (i j : Nat) : Bool := !(q.badA.getD i false) && !(q.badB.getD j false)

/-- The running sum of output (i, j) from c. -/
def MmaIn.sum (q : MmaIn) (i j c : Nat) : Nat := mmaDot q.fa q.fb c (q.a.getD i []) (q.b.getD j [])

/-- POISON for the outputs that were not written. -/
def MmaIn.poison (q : MmaIn) (ta : Quad) (w : Wave) : Wave :=
  if q.badA.any id || q.badB.any id then
    w.arrayPoison (tileRowAt ta ((findIdx? id q.badA).getD 0))
      (laneMask fun l => (List.range ((q.m / 8) * (q.n / 16))).any fun k => !q.clean (outputOf q.n k l).1 (outputOf q.n k l).2)
  else w

/-- MMA and MMAZ (R177). -/
def Wave.runMma (w : Wave) (q : MmaIn) (acc : Nat) (zero : Bool) : Wave :=
  w.setBlock acc q.m q.n fun i j old =>
    if q.clean i j then BitVec.ofNat 32 (q.sum i j (if zero then 0 else old.toNat)) else old

/-- The records of an MMAP (R179). -/
def MmaIn.records (q : MmaIn) (old : Option Promo) : List WideRecord :=
  (List.range (q.m * q.n)).map fun o =>
    let i := o / q.n
    let j := o % q.n
    let r := match old with
      | some p => p.rec_ i j
      | none => { valid := true, kpos := 0, p := 0 }
    if q.clean i j then
      { valid := true, kpos := r.kpos + BitVec.ofNat 16 (q.a.getD i []).length, p := BitVec.ofNat 32 (q.sum i j r.p.toNat) }
    else r

/-- MMAP (R178, R179), with the error codes of Table 9.4. -/
def Wave.runMmap (w : Wave) (x : CoreCtx) (c : Cast) (q : MmaIn) (cmd : MmCmd) (first last : Bool) : Except Nat Wave :=
  match (if first then w.promoFor cmd.acc else w.promoOf cmd.acc) with
  | none => .error (if first then 2 else 1)
  | some i =>
    let old := if first then none else w.promo.getD i none
    if old.any fun p => p.m ≠ q.m || p.n ≠ q.n then .error 3
    else
      let p : Promo := { acc := cmd.acc, m := q.m, n := q.n, recs := q.records old }
      let w := { w with promo := setAt w.promo i (if last then none else some p) }
      if !last then .ok w
      else .ok (w.setBlock cmd.acc q.m q.n fun i j old =>
        if q.clean i j then
          let t := (fmtF32.mul (x.scale c cmd.ta i) (x.scale c cmd.tb j)).bits
          BitVec.ofNat 32 (fmtF32.mac (p.rec_ i j).p.toNat t old.toNat).bits
        else old)

/-- The bytes of a save area (R184). -/
def saveBytes : Option Promo → List Byte
  | none => List.replicate 16 0
  | some p => leBytes 2 p.m ++ leBytes 2 p.n ++ List.replicate 12 0 ++ p.recs.flatMap fun r => leBytes 8 r.word.toNat

/-- MSAVE (R184): the bytes that it writes, or an error code. -/
def CoreCtx.runMsave (x : CoreCtx) (w : Wave) (c : Cast) (cmd : MmCmd) : Except Nat (List Byte) :=
  let b := saveBytes ((w.promoOf cmd.acc).bind fun i => w.promo.getD i none)
  let a := 16 * bits cmd.ta.toNat 0 15
  if c.spsize.toNat < a + b.length then .error 5
  else if (granulesOf a b.length).any fun g => x.tag c g ≠ 0 then .error 6
  else .ok b

/-- The save area of an accepted MSAVE is written, every granule full (R184), in the rows of its cast while that is resident. -/
def CoreCtx.landSave (x : CoreCtx) (cmd : MmCmd) : CoreCtx :=
  match cmd.out, (x.casts.filterMap id).find? fun c => c.castid = cmd.key.castid with
  | b :: l, some c =>
    let a := 16 * bits cmd.ta.toNat 0 15
    (granulesOf a (l.length + 1)).foldl (fun x g => x.setFe c g true) (x.spWrite c (keyed a (b :: l)))
  | _, _ => x

/-- What a command that the array takes reads: the scratchpad with the output of every MSAVE accepted before it (R181). -/
def Core.arrayView (k : Core) : CoreCtx := k.arrayQ.foldl CoreCtx.landSave k.ctx

/-- MLOAD (R184): the wave's side, or an error code. -/
def Wave.runMload (w : Wave) (x : CoreCtx) (c : Cast) (cmd : MmCmd) : Except Nat Wave :=
  let a := 16 * bits cmd.ta.toNat 0 15
  let bad := fun n => (granulesOf a n).any fun g => x.poisoned c g
  if c.spsize.toNat < a + 16 then .error 5
  else if bad 16 then .error Config.mloadPoisonCode
  else
    let h := x.spRead c a 16
    let m := ofLe (h.take 2)
    let n := ofLe ((h.drop 2).take 2)
    if m = 0 && n = 0 && ofLe (h.drop 4) = 0 then
      .ok { w with promo := w.promo.map (Option.filter fun p => p.acc ≠ cmd.acc) }
    else if ofLe (h.drop 4) ≠ 0 || m % 8 ≠ 0 || n % 16 ≠ 0 || m = 0 || n = 0 || 128 < m || 128 < n
        || c.regcount.toNat < cmd.acc + (m / 8) * (n / 16) then .error 7
    else if c.spsize.toNat < a + 16 + 8 * m * n then .error 5
    else if bad (16 + 8 * m * n) then .error Config.mloadPoisonCode
    else
      let words := (List.range (m * n)).map fun i => BitVec.ofNat 64 (ofLe (x.spRead c (a + 16 + 8 * i) 8))
      if words.any fun (q : Quad) => !q.getLsbD 48 || q >>> 49 ≠ 0 then .error 7
      else match w.promoFor cmd.acc with
        | none => .error 2
        | some i => .ok { w with promo := setAt w.promo i (some { acc := cmd.acc, m := m, n := n, recs := words.map WideRecord.ofWord }) }

/-- The kind of a deferred command (Table 9.2). -/
def deferKind (n : Nat) : MmKind :=
  match n with
  | 0 => .mma
  | 1 => .mmaz
  | 2 => .mmap false false
  | 3 => .mmap true false
  | 4 => .mmap false true
  | _ => .mmap true true

/-- Arm a follow slot (R182). -/
def CoreCtx.arm (x : CoreCtx) (slot kind : Nat) (cmd : MmCmd) : CoreCtx :=
  { x with follow := setAt x.follow slot (some { cmd := { cmd with kind := deferKind kind }, fired := false }) }

/-- A command on its core and its wave, reading `seen`: the core's context and the wave afterwards with the bytes still to be written, or an array error (R180).
An MDEFER that found its slot free as it issued has armed it (R409). -/
def CoreCtx.runCmd (x seen : CoreCtx) (w : Wave) (c : Cast) (cmd : MmCmd) : Except Nat (CoreCtx × Wave × List Byte) :=
  match cmd.kind with
  | .mma => let q := seen.mmaIn c cmd.ta cmd.tb false
            .ok (x, q.poison cmd.ta (w.runMma q cmd.acc false), [])
  | .mmaz => let q := seen.mmaIn c cmd.ta cmd.tb false
             .ok (x, q.poison cmd.ta (w.runMma q cmd.acc true), [])
  | .mmap first last =>
    let q := seen.mmaIn c cmd.ta cmd.tb last
    (w.runMmap seen c q cmd first last).map fun w => (x, q.poison cmd.ta w, [])
  | .mdefer slot kind =>
    if cmd.armed then .ok (x, w, [])
    else if (x.follow.getD slot none).isSome then .error 4
    else .ok (x.arm slot kind cmd, w, [])
  | .msave => (seen.runMsave w c cmd).map fun b => (x, w, b)
  | .mload => (w.runMload seen c cmd).map fun w => (x, w, [])

/-- A command takes no place in the array once accepted. -/
def MmKind.arms : MmKind → Bool
  | .mdefer _ _ => true
  | _ => false

/-- Block steps of a command (R173), or company cycles of a transfer of 16 granules each (R183), when the array takes it. -/
def MmCmd.stepsOf (cmd : MmCmd) (x : CoreCtx) (w : Wave) (c : Cast) : Nat :=
  let area := fun mn => (16 + 8 * mn + 255) / 256
  match cmd.kind with
  | .msave => area (((w.promoOf cmd.acc).bind fun i => w.promo.getD i none).elim 0 fun p => p.m * p.n)
  | .mload =>
    let h := x.spRead c (16 * bits cmd.ta.toNat 0 15) 4
    area (ofLe (h.take 2) * ofLe (h.drop 2))
  | _ => ((tileRows cmd.ta + 15) / 16) * (tileRows cmd.tb / 16)

/-- The depth of the chain (R183). -/
def MmCmd.depth (cmd : MmCmd) : Nat := 64 / fmtSize (tileFmt cmd.ta)

/-- The cycles from its start until the registers are readable, when every step costs 1 (R183). -/
def MmCmd.latency (cmd : MmCmd) : Nat :=
  match cmd.kind with
  | .mmap _ true => cmd.steps + cmd.depth + 6
  | .msave => cmd.steps
  | .mload => cmd.steps
  | _ => cmd.steps + cmd.depth + 2

/-- A command that steps over a block. -/
def MmKind.blocks : MmKind → Bool
  | .msave => false
  | .mload => false
  | _ => true

/-- When a command that is accepted in a cycle starts to step (R181, R183): after every command before it has entered the chain, and one more than the chain's depth
after the start of a command of its wave over the same block. -/
def Core.startOf (k : Core) (cyc : Nat) (cmd : MmCmd) : Nat :=
  k.arrayQ.foldl (fun t m => max t (max (m.start + m.steps)
    (if m.key = cmd.key && m.acc = cmd.acc && m.kind.blocks && cmd.kind.blocks then m.start + m.depth + 1 else 0))) cyc

/-- The array can take a command (R181): at most four wait behind the one that steps, and it takes one in a cycle. -/
def Core.arrayRoom (k : Core) (cyc : Nat) : Bool :=
  decide ((k.arrayQ.filter fun m => cyc < m.start + m.steps).length < 5) && decide (k.arrayAt ≠ cyc + 1)

/-- The charge of a command (Table 20.1). -/
def MmCmd.charge (cmd : MmCmd) : Nat :=
  match cmd.kind with
  | .msave => 16 * cmd.steps
  | .mload => 16 * cmd.steps
  | _ => (if tileFmt cmd.ta ≤ 1 then 256 else if tileFmt cmd.ta ≤ 3 then 192 else 128) * cmd.steps

/-- The array takes a command: it performs it, or raises ENGINE and drops it (R180). -/
def Package.takeCommand (p : Package) (core cyc : Nat) (cmd : MmCmd) : Package :=
  match p.waveOf? cmd.key with
  | none => p
  | some w =>
    match p.cast? core w.cast with
    | none => p
    | some c =>
      let seen := (p.core core).arrayView
      match (p.core core).ctx.runCmd seen w c cmd with
      | .error code => p.modWave core cmd.key.slot fun w => (w.arrayError code).commandOver
      | .ok (x, w', out) =>
        let cmd := { cmd with steps := cmd.stepsOf seen w c, out := out }
        let start := (p.core core).startOf cyc cmd
        let cmd := { cmd with start := start, done := start + cmd.latency }
        let p := p.modCtx core fun _ => { x with waves := setAt x.waves cmd.key.slot (some w') }
        if cmd.kind.arms then p
        else (p.modCore core fun k => { k with arrayQ := k.arrayQ ++ [cmd] }).later (.company (companyOf core) cmd.done) (.matrixCommandComplete core)

/-- The head command of a bay's X pipe. -/
def Core.xhead (k : Core) (bay : Nat) : Option MmCmd := (k.xq.getD bay []).head?

/-- MATRIX_COMMAND_ACCEPT (R44, R181): one waiting command, through the rotation, while the array has room. -/
def matrixAcceptAt (core : Nat) (k : Clock) (p : Package) : Package :=
  let c := p.core core
  let cyc := k.cycleOf (companyOf core)
  if !c.arrayRoom cyc then p
  else
    let special := fun b => (c.xhead b).any fun m => (p.waveOf? m.key).any fun w => w.role = .matrix
    match grantBay cyc (fun b => (c.xhead b).isSome) special c.mmPtr with
    | none => p
    | some (bay, ptr) =>
      match c.xhead bay with
      | none => p
      | some cmd =>
        (p.modCore core fun c => { c with xq := modAt c.xq bay List.tail, mmPtr := ptr, arrayAt := cyc + 1 }).takeCommand core cyc cmd

/-- MATRIX_COMMAND_COMPLETE (R183, R187, R353): the oldest command whose time has come is complete; an MSAVE's area is written, the command's charge is made, and an
ended wave's units go back to the pool with its last command. -/
def matrixCompleteAt (core : Nat) (k : Clock) (p : Package) : Package :=
  match (findIdx? (fun m : MmCmd => m.done ≤ k.cycleOf (companyOf core)) (p.core core).arrayQ).bind fun i => ((p.core core).arrayQ[i]?).map fun m => (i, m) with
  | none => p
  | some (i, cmd) =>
    let p := p.modCore core fun c => { c with arrayQ := c.arrayQ.eraseIdx i, ctx := c.ctx.landSave cmd }
    match p.waveOf? cmd.key with
    | some w =>
      let prio := ((p.cast? core w.cast).map Cast.prio).getD 0
      (p.modWave core cmd.key.slot Wave.commandOver).charge core w.cast prio cmd.charge
    | none =>
      p.modCore core fun c =>
        let z := c.zombies.map fun z : Zombie => if z.key = cmd.key then { z with commands := z.commands - 1 } else z
        let gone := z.filter fun z : Zombie => z.commands = 0
        { c with zombies := z.filter (fun z : Zombie => z.commands ≠ 0),
                 ctx := { c.ctx with units := freeUnits c.ctx.units (gone.flatMap Zombie.units) } }

/-- FOLLOW_SLOT_FIRE (R182): the armed command enters the array ahead of the rotation, and its slot is free; a full array keeps it waiting. -/
def followFireAt (core fslot : Nat) (k : Clock) (p : Package) : Package :=
  let cyc := k.cycleOf (companyOf core)
  match (p.core core).ctx.follow.getD fslot none with
  | none => p
  | some f =>
    if !(p.core core).arrayRoom cyc then
      (p.modCtx core fun x => { x with follow := setAt x.follow fslot (some { f with fired := true }) }).later
        (.company (companyOf core) (cyc + 1)) (.followSlotFire core fslot)
    else (p.modCore core fun c => { c with arrayAt := cyc + 1, ctx := { c.ctx with follow := setAt c.ctx.follow fslot none } }).takeCommand core cyc f.cmd

/-- MWAIT_COMPLETE (R185). -/
def mwaitCompleteAt (core slot leader : Nat) (p : Package) : Package :=
  match p.wave? core slot with
  | none => p
  | some w =>
    match w.blockedAt leader with
    | some { op := .mwait, .. } => if w.commands = 0 then p.modWave core slot fun w => w.endWait leader else p
    | _ => p

/-- A command waits at the head of its bay's X pipe (R44). -/
def State.sendCommand (s : State) (v : View) (cmd : MmCmd) : State :=
  (s.onWave v fun w => { w with commands := w.commands + 1 }).modPkg fun p =>
    p.modCore v.iss.core fun k => { k with xq := modAt k.xq (v.iss.slot / 16) fun q => q ++ [cmd] }

/-- The command of an MMA word, with the tile registers as they stand (R175). -/
def View.command (v : View) (s : State) (kind : MmKind) (acc ta tb : Nat) : MmCmd :=
  { key := s.pkg.keyOf v.iss.core v.iss.slot, kind := kind, acc := acc, ta := v.src.tiles.getD ta 0, tb := v.src.tiles.getD tb 0 }

/-- An MMA word sends its command to the array (R44, R175). -/
def execMatrix (i : Instr) (kind : MmKind) (acc ta tb : Nat) (s : State) : Host.Outcome State Fault Refusal :=
  s.word i fun v s => .done (s.sendCommand v (v.command s kind acc ta tb))

noncomputable section

def execMMA (w : MM) (s : State) : Host.Outcome State Fault Refusal := execMatrix (.mma w) .mma w.v.toNat w.a.toNat w.b.toNat s
def execMMAZ (w : MM) (s : State) : Host.Outcome State Fault Refusal := execMatrix (.mmaz w) .mmaz w.v.toNat w.a.toNat w.b.toNat s
def execMMAP (w : MMLF) (s : State) : Host.Outcome State Fault Refusal :=
  execMatrix (.mmap w) (.mmap (w.f = 1) (w.l = 1)) w.v.toNat w.a.toNat w.b.toNat s
/-- MDEFER (R182, R409): a free slot is armed as the word issues; the command goes to the array all the same, which refuses it if it finds the slot
armed by another. -/
def execMDEFER (w : MMD) (s : State) : Host.Outcome State Fault Refusal :=
  State.word (.mdefer w) (fun v s =>
    let cmd := v.command s (.mdefer w.s.toNat w.y.toNat) w.v.toNat w.a.toNat w.b.toNat
    if ((s.pkg.core v.iss.core).ctx.follow.getD w.s.toNat none).isSome then .done (s.sendCommand v cmd)
    else .done ((s.sendCommand v { cmd with armed := true }).modPkg fun p => p.modCtx v.iss.core fun x => x.arm w.s.toNat w.y.toNat cmd)) s
def execMSAVE (w : MMA1) (s : State) : Host.Outcome State Fault Refusal :=
  execMatrix (.msave w) .msave w.v.toNat w.a.toNat w.a.toNat s
def execMLOAD (w : MMA1) (s : State) : Host.Outcome State Fault Refusal :=
  execMatrix (.mload w) .mload w.v.toNat w.a.toNat w.a.toNat s
def execMWAIT (w : C0) (s : State) : Host.Outcome State Fault Refusal :=
  State.word (.mwait w) (fun v s => if v.src.commands = 0 then .done s else .block s .mwait) s

end

def execMATRIX_COMMAND_ACCEPT (core : Nat) (s : State) : Host.Outcome State Fault Refusal := s.event (matrixAcceptAt core)

def execMATRIX_COMMAND_COMPLETE (core : Nat) (s : State) : Host.Outcome State Fault Refusal := s.event (matrixCompleteAt core)

def execFOLLOW_SLOT_FIRE (core fslot : Nat) (s : State) : Host.Outcome State Fault Refusal := s.event (followFireAt core fslot)

def execMWAIT_COMPLETE (core slot leader : Nat) (s : State) : Host.Outcome State Fault Refusal :=
  s.event fun _ => mwaitCompleteAt core slot leader

end Sys2Proof.Machine
end

