-- ==== Sys2Proof/Machine/Vault.lean ====
section
/-! DEFINITION. The vault controllers (R268 to R273): requests and open rows, the turns of partitions, refresh bursts; and the errors that the codes of banks, slices, layers
and die links find (R224, R228, R273, R313). -/

namespace Sys2Proof.Machine

/-- The partition that a vault may serve now: any when fewer than two are valid, else the one whose turn it is (R268); what belongs to none may always go. -/
def Package.vaultServes (p : Package) (v part : Nat) : Bool :=
  p.validParts.length ≤ 1 || (p.vault v).turn = part || part = 8

/-- Bursts of an epoch in a class (Table 14.1). -/
def burstsOf (cls : Nat) : Nat :=
  match cls with
  | 0 => 5
  | 1 => 10
  | 2 => 20
  | 3 => 40
  | _ => 80

/-- The vault cycle of the epoch at which burst i of a class starts (R270). -/
def burstStart (cls i : Nat) : Nat := i * 12000 / burstsOf cls

/-- The vault is in a burst or in the 12 cycles before one: no request is scheduled (R270). -/
def Vault.quiet (v : Vault) : Bool :=
  (List.range (burstsOf v.vclass + 1)).any fun i => burstStart v.vclass i ≤ v.refpos + 12 && decide (v.refpos < burstStart v.vclass i + 60)

/-- Twelve cycles before a burst every bank is precharged (R270). -/
def Vault.precharge (v : Vault) : Bool := (List.range (burstsOf v.vclass + 1)).any fun i => burstStart v.vclass i = v.refpos + 12

/-- No bank open. -/
def noRows : List (Option (BitVec 16)) := List.replicate 48 none

/-- The bank and the row of a line in its vault (R268). -/
def lineRow (line : Nat) : Nat × BitVec 16 :=
  let r := Config.dramRow (128 * line % Config.vaultSpan)
  (r.1 % 48, BitVec.ofNat 16 r.2)

/-- The vault starts a burst at this cycle of the epoch. -/
def Vault.burstNow (v : Vault) : Bool := (List.range (burstsOf v.vclass)).any fun i => burstStart v.vclass i = v.refpos

/-- VAULT_REQUEST (R268, R229): the oldest request that may be scheduled opens its row; the data of a read come back 158 mesh cycles later on a row hit, 198
on a row miss (Table 12.2: the 112 vault cycles of a hit and the way to the slice). -/
def vaultRequestAt (v : Nat) (k : Clock) (p : Package) : Package :=
  let c := p.vault v
  if c.burst || c.quiet || k.mcyc < c.turnFrom then p
  else
    match (findIdx? (fun q : VaultReq => p.vaultServes v q.part) c.q).bind fun i => (c.q[i]?).map fun q => (i, q) with
    | none => p
    | some (i, q) =>
      let r := lineRow q.line
      let t := k.mcyc + (if c.rows.getD r.1 none = some r.2 then 158 else 198)
      let p := p.modVault v fun c => { c with q := c.q.eraseIdx i, rows := setAt c.rows r.1 (some r.2) }
      let p := if (p.vault v).q.isEmpty then p else p.later .now (.vaultRequest v)
      if q.write then p
      else
        let come := fun f : Nat × Nat => if f.1 = q.line && f.2 = 0 then (f.1, t) else f
        (p.modCompany q.company fun c => { c with fills := c.fills.map come }).later (.mesh t) (.l2Fill q.company)

/-- VAULT_TURN_START (R268): the turn of a partition starts; after another partition's turn its first 12 vault cycles precharge every bank. -/
def vaultTurnAt (v part : Nat) (k : Clock) (p : Package) : Package :=
  if (p.vault v).turn = part then p
  else (p.modVault v fun c => { c with turn := part, turnFrom := k.mcyc + 16, rows := noRows }).later (.mesh (k.mcyc + 16)) (.vaultRequest v)

/-- The blocks of a vault that the patrol visits (R270): 768 MiB of 64 bytes. -/
def vaultBlocks : Nat := 12582912

/-- The patrol reads, corrects and rewrites a block (R270): only error counters change. -/
def Package.patrol (p : Package) (v block : Nat) : Package :=
  let sector := v * (Config.vaultSpan / 64) + block
  match p.badLayers sector with
  | [] => p
  | [_] => ({ p with dramErr := tabErase p.dramErr sector } : Package).count (Config.errDRAMCORR + v) Config.max32
  | _ => p.count (Config.errUNCORR + 288 + v) Config.max32

/-- REFRESH_BURST (R270): every bank is precharged, the patrol takes the next block, and requests wait until the burst ends 60 vault cycles later. -/
def refreshBurstAt (v : Nat) (p : Package) : Package :=
  (p.modVault v fun c => { c with burst := true, rows := noRows, scrubptr := (c.scrubptr + 1) % vaultBlocks }).patrol v (p.vault v).scrubptr

/-- REFRESH_BURST_END (R270): every bank is closed; the waiting requests are scheduled in acceptance order. -/
def refreshBurstEndAt (v : Nat) (p : Package) : Package :=
  (p.modVault v fun c => { c with burst := false, rows := noRows }).later .now (.vaultRequest v)

/-- FROZEN_REFRESH_BURST (R272): a burst of the frozen refresh, which its own counter times; no register of Table 14.2 changes. -/
def frozenBurstAt (v : Nat) (k : Clock) (p : Package) : Package :=
  if k.run = .frozen then p.modVault v fun c => { c with frozen := c.frozen + 1 } else p

/-! Errors that the codes find. -/

/-- The partition whose way of a slice holds a line, if the slice holds it. -/
def Package.wayOwner (p : Package) (m line : Nat) : Option Nat :=
  ((getSet (p.company m).l2 16 (line % 4096)).wayOf line).bind fun w =>
    p.validParts.find? fun k => (p.wayRun k).1 ≤ w && decide (w < (p.wayRun k).1 + (p.wayRun k).2)

/-- The partition of a core's context in its registers or a row. -/
def Core.partOfRow (k : Core) (row : Nat) : Option Nat :=
  ((k.ctx.casts.filterMap id).find? fun c => c.sprow ≤ row && decide (row < c.sprow + c.rows)).map Cast.partition

/-- What an error of the hardware does (R224, R228, R273, R313, R386, R388). -/
def Package.hwError (p : Package) : HwError → Package
  | .registerFixed core => p.count (Config.errRFCORR + core) Config.max32
  | .registerLost core group =>
    let l := ((p.core core).ctx.casts.filterMap id).map Cast.partition
    (l.take 1).foldl (fun (p : Package) k => p.errorReaches k (0x1000 + 16 * core + group)) (p.count (Config.errUNCORR + core) Config.max32)
  | .scratchFixed core => p.count (Config.errSPCORR + core) Config.max32
  | .tagLost core g =>
    let q := (p.modCtx core fun x => { x with spPoison := setInsert x.spPoison g }).count (Config.errUNCORR + core) Config.max32
    match (p.core core).partOfRow (g / 256) with
    | some k => q.errorReaches k (0x2000 + 16 * core + g % 256 / 16)
    | none => q
  | .sliceFixed m => p.count (Config.errL2CORR + m) Config.max32
  | .sliceLost m line half =>
    match p.l2Find line with
    | none => p
    | some x =>
      let q := (p.putLine { x with poison := x.poison ||| BitVec.ofNat 2 (2 ^ (half % 2)) }).count (Config.errUNCORR + 256 + m) Config.max32
      match p.wayOwner m line with
      | some k => q.errorReaches k (0x3000 + m)
      | none => q
  | .symbol v block layer =>
    let s := v * (Config.vaultSpan / 64) + block
    let l := p.badLayers s
    if l.length < 3 && !l.contains layer then { p with dramErr := tabSet p.dramErr s (setInsert l layer) } else p
  | .linkFixed link => p.count (Config.errDLCORR + link) Config.max32

/-- Poison a sector of a line as it is delivered (R313): in its slice where it holds the line, in DRAM otherwise. -/
def Package.poisonSector (p : Package) (line sector : Nat) : Package :=
  let x := p.lineNow line
  let bit := BitVec.ofNat 2 (2 ^ (sector % 2))
  p.putLine { x with poison := x.poison ||| bit, dirty := x.dirty ||| bit }

def execVAULT_REQUEST (vault : Nat) (s : State) : Host.Outcome State Fault Refusal := s.event (vaultRequestAt vault)
def execVAULT_TURN_START (vault part : Nat) (s : State) : Host.Outcome State Fault Refusal := s.event (vaultTurnAt vault part)
def execREFRESH_BURST (vault : Nat) (s : State) : Host.Outcome State Fault Refusal := s.event fun _ => refreshBurstAt vault
def execREFRESH_BURST_END (vault : Nat) (s : State) : Host.Outcome State Fault Refusal := s.event fun _ => refreshBurstEndAt vault
def execFROZEN_REFRESH_BURST (vault : Nat) (s : State) : Host.Outcome State Fault Refusal := s.event (frozenBurstAt vault)

end Sys2Proof.Machine
end

