-- ==== Sys2Proof/Machine/Copy.lean ====
section
/-! DEFINITION. The copy engine (R276 to R293): COPY and its arrivals, ENGWAIT, the collectives, the walk of a chain of layout records, the elements
moved, landings, completion and errors. A collective advances by one request at a time: a record, a predicate, or a run of elements of one line. -/

namespace Sys2Proof.Machine

/-! Arrivals (R277 to R279). -/

/-- The role admits COPY (R51). -/
def Role.copies : Role → Bool
  | .general => true
  | .copy => true
  | _ => false

/-- Change a collective record. -/
def Package.modColl (p : Package) (core i : Nat) (f : Coll → Coll) : Package :=
  p.modCtx core fun x => { x with colls := modAt x.colls i (Option.map f) }

/-- A collective record. -/
def Package.coll? (p : Package) (core i : Nat) : Option Coll := ((p.core core).ctx.colls[i]?).join

/-- The record of collective n of a cast. -/
def CoreCtx.collOf (x : CoreCtx) (cslot : Nat) (n : BitVec 32) : Option Nat :=
  findIdx? (fun c : Option Coll => c.any fun c => c.cast = cslot && c.num = n) x.colls

/-- A free collective record. -/
def CoreCtx.freeColl (x : CoreCtx) : Option Nat := findIdx? Option.isNone x.colls

/-- Fields of a slice descriptor (Table 15.2). -/
def CopySlice.first (s : CopySlice) : Nat := bits s.desc.toNat 0 16

/-- COUNT of a slice descriptor. -/
def CopySlice.count (s : CopySlice) : Nat := bits s.desc.toNat 16 16

/-- SDELTA, a signed byte offset, as an address term. -/
def CopySlice.delta (s : CopySlice) : Quad := (BitVec.ofNat 32 (bits s.desc.toNat 32 32)).signExtend 64

/-- ENGINE falls due for a wave: TRAPADDR 0x200 + code, to the party that holds the lowest live slice, with its active lanes (R291). -/
def Wave.engineDue (w : Wave) (code : Nat) : Wave :=
  let k := (w.liveSlices).headD 0
  let leader := ((w.slices[k]?).map fun s => s.leader.toNat).getD 0
  { w with due := w.due ++ [{ cause := .engine, addr := BitVec.ofNat 64 (0x200 + code), lanes := w.activeOf (w.party leader), leader := leader }] }

/-- The COPYs that wait at the X pipes of a core and create a collective there: the cast's slot and the number (R44, R279). -/
def Package.promised (p : Package) (core : Nat) : List (Nat × BitVec 32) :=
  (((p.core core).cq.filterMap id).filterMap fun m => (p.waveOf? m.key).bind fun w =>
    if m.args.isSome && ((p.core core).ctx.collOf w.cast m.num).isNone then some (w.cast, m.num) else none).eraseDups

/-- An arrival at collective n of a cast finds its record: the collective exists, will be created by a COPY on its way, or a record is free that none of those takes (R279). -/
def Package.recordFor (p : Package) (core cslot : Nat) (n : BitVec 32) : Bool :=
  let x := (p.core core).ctx
  (x.collOf cslot n).isSome || (x.freeColl.isSome && ((p.promised core).contains (cslot, n)
    || decide ((p.promised core).length < (x.colls.filter Option.isNone).length)))

/-- One arrival at collective n (R278): the collective is joined, or created in a free record; none when it must be created and no record is free. A command that
differs from the collective's makes an empty slice and raises ENGINE code 0x09. -/
def Package.arrive (p : Package) (core slot : Nat) (n : BitVec 32) (a : CopyArgs) : Option Package :=
  match p.wave? core slot with
  | none => some p
  | some w =>
    let x := (p.core core).ctx
    let slice : CopySlice := { waveId := w.waveId, desc := a.slice, tiles := w.tiles }
    match x.collOf w.cast n with
    | some i =>
      match p.coll? core i with
      | none => some p
      | some c =>
        let same := c.head = a.head && c.ctl = a.ctl
        let p := p.modColl core i fun c => { c with arrived := c.arrived ++ [if same then slice else { slice with desc := 0 }] }
        let p := if same then p else p.modWave core slot fun w => w.engineDue 9
        some (p.collReady core i)
    | none =>
      match x.freeColl with
      | none => none
      | some i =>
        let members := (x.slotsOf w.cast).filterMap fun s => (p.wave? core s).bind fun y =>
          if y.role.copies then some y.waveId else none
        let c : Coll := { cast := w.cast, num := n, head := a.head, ctl := a.ctl, members := members, arrived := [slice], pos := none,
                          finishing := false }
        let p := p.modCtx core fun x => { x with colls := setAt x.colls i (some c) }
        some ((p.modCast core w.cast fun k => { k with cseq := k.cseq + 1 }).collReady core i)

/-- A COPY or an ENGWAIT takes its place at the head of its bay's X pipe (R44). -/
def Package.sendCopy (p : Package) (core slot : Nat) (n : BitVec 32) (a : Option CopyArgs) : Package :=
  let key := p.keyOf core slot
  p.modCore core fun k => { k with cq := setAt k.cq (slot / 16) (some { key := key, num := n, args := a }) }

/-- The copy engine accepts at most one command in a company cycle, through the rotation (R44); an arrival that finds no record stays at its X pipe. -/
def Package.copyAccept (k : Clock) (p : Package) (core : Nat) : Package :=
  let c := p.core core
  let cmd := fun b : Nat => c.cq.getD b none
  let special := fun b => (cmd b).any fun m => (p.waveOf? m.key).any fun w => w.role = .copy
  match grantBay (k.cycleOf (companyOf core)) (fun b => (cmd b).isSome) special c.cePtr with
  | none => p
  | some (bay, ptr) =>
    match cmd bay with
    | none => p
    | some m =>
      let q := match m.args with
        | some a => p.arrive core m.key.slot m.num a
        | none => some p
      match q with
      | some q => q.modCore core fun c => { c with cq := setAt c.cq bay none, cePtr := ptr }
      | none => p

/-- COLLECTIVE_CREATE_RETRY (R279): an arrival that waited for a free record is made. -/
def createRetryAt (core slot : Nat) (p : Package) : Package :=
  match p.wave? core slot with
  | none => p
  | some w =>
    match w.blockedAt w.sole with
    | some { op := .create a, .. } =>
      if !p.recordFor core w.cast w.nextCopy then p
      else match p.arrive core slot w.nextCopy a with
        | some p => p.modWave core slot fun w => ({ (w.setS a.dest (w.nextCopy.setWidth 64)) with nextCopy := w.nextCopy + 1 } : Wave).endWait w.sole
        | none => p
    | _ => p

/-! Starting (R279, R280). -/

/-- The slices still to process from a chain head: empty ones are passed over; a chain of no record ends every slice. -/
def pendingSlices (head : Quad) : List CopySlice → List CopySlice
  | [] => []
  | s :: l => if head = 0 || s.count = 0 then pendingSlices head l else s :: l

/-- Sort arrivals by ascending WAVEID. -/
def insertSlice (s : CopySlice) : List CopySlice → List CopySlice
  | [] => [s]
  | x :: l => if s.waveId.toNat < x.waveId.toNat then s :: x :: l else x :: insertSlice s l

/-- The position at the start of a collective. -/
def Coll.start (c : Coll) : CopyPos :=
  { slices := pendingSlices c.head (c.arrived.foldl (fun l s => insertSlice s l) []), recAddr := c.head, ord := 0, body := none, elem := 0,
    granule := none, bytes := [], go := false, landed := false, paused := false, denied := false, host := none, hostWait := false, ackAt := 0 }

/-- The first wave slot of a collective's cast. -/
def CoreCtx.firstSlot (x : CoreCtx) (i : Nat) : Nat :=
  (((x.colls[i]?).join).bind fun c => (x.slotsOf c.cast).head?).getD 64

/-- Insert a ready collective: by the cycle in which it became ready, then by its cast's first wave slot. -/
def insertReady (x : CoreCtx) (r : Nat × Nat) : List (Nat × Nat) → List (Nat × Nat)
  | [] => [r]
  | y :: l => if r.2 < y.2 || (r.2 = y.2 && x.firstSlot r.1 < x.firstSlot y.1) then r :: y :: l else y :: insertReady x r l

/-- COLLECTIVE_START (R279): ready collectives start in free running slots in the order in which they became ready, the cycle after. -/
def collectiveStartAt (core : Nat) (k : Clock) (p : Package) : Package :=
  let cyc := k.cycleOf (companyOf core)
  let x := (p.core core).ctx
  let fresh := x.readyOrder.any fun r => r.2 = 0
  let order := (x.readyOrder.map fun r : Nat × Nat => if r.2 = 0 then (r.1, cyc + 1) else r).foldl (fun l r => insertReady x r l) []
  let p := p.modCtx core fun x => { x with readyOrder := order }
  let p := if fresh then p.later (.company (companyOf core) (cyc + 1)) (.collectiveStart core) else p
  (List.range 4).foldl (fun (p : Package) j =>
    let x := (p.core core).ctx
    match (x.running.getD j none), x.readyOrder with
    | none, r :: rest =>
      if r.2 ≤ cyc then
        (p.modCtx core fun x => { x with running := setAt x.running j (some r.1), readyOrder := rest }).modColl core r.1 fun c =>
          { c with pos := some (c.pos.getD c.start) }
      else p
    | _, _ => p) p

/-! Layout records (R281 to R283). -/

/-- A layout record as a 512-bit number (Table 15.3). -/
abbrev LayoutRec := Nat

/-- GADDR. -/
def gaddrOf (r : LayoutRec) : Quad := BitVec.ofNat 64 (bits r 0 64)
/-- NEXT. -/
def nextOf (r : LayoutRec) : Quad := BitVec.ofNat 64 (bits r 64 64)
/-- PRED. -/
def predOf (r : LayoutRec) : Quad := BitVec.ofNat 64 (bits r 128 64)
/-- EXPECT. -/
def expectOf (r : LayoutRec) : Nat := bits r 192 32
/-- SIZE0 to SIZE3. -/
def sizeOf' (r : LayoutRec) (d : Nat) : Nat := bits r (224 + 16 * d) 16
/-- STRIDE0 to STRIDE3, signed. -/
def strideOf (r : LayoutRec) (d : Nat) : Quad := (BitVec.ofNat 32 (bits r (288 + 32 * d) 32)).signExtend 64
/-- LOCAL. -/
def localOf (r : LayoutRec) : Nat := bits r 416 32
/-- CTRL. -/
def ctrlOf (r : LayoutRec) : Nat := bits r 448 32
/-- FMT. -/
def fmtOfRec (r : LayoutRec) : Nat := bits r 448 4
/-- DIR: 1 is scratchpad to global. -/
def dirOf (r : LayoutRec) : Bool := bits r 452 1 = 1
/-- TILE. -/
def tileOf (r : LayoutRec) : Bool := bits r 453 1 = 1
/-- SKIP. -/
def skipOf (r : LayoutRec) : Bool := bits r 454 1 = 1

/-- The bytes of an element in the scratchpad, and in memory (Table 15.4; E2M1 reads the byte of its nibble). -/
def elemSize (r : LayoutRec) : Nat := if fmtOfRec r ≤ 3 then 2 ^ fmtOfRec r else 1

/-- The tile register of a record. -/
def recTile (r : LayoutRec) (tiles : List Quad) : Quad := tiles.getD (bits (localOf r) 0 4) 0

/-- The tile's FMT admits the storage format (R285). -/
def tileFmtOk (fmt tfmt : Nat) : Bool :=
  match fmt with
  | 0 => tfmt ≤ 1
  | 1 => tfmt = 2 || tfmt = 3
  | 2 => tfmt = 4
  | 4 => tfmt = 0
  | _ => false

/-- The tile conditions (R285). -/
def tileCond (r : LayoutRec) (t : Quad) : Bool :=
  tileValid t && sizeOf' r 0 * elemSize r = 64 && sizeOf' r 2 = 1 && sizeOf' r 3 = 1
    && bits (localOf r) 16 7 + sizeOf' r 1 ≤ tileRows t && tileFmtOk (fmtOfRec r) (tileFmt t)

/-- The number of elements of a record. -/
def recCount (r : LayoutRec) : Nat := sizeOf' r 0 * sizeOf' r 1 * sizeOf' r 2 * sizeOf' r 3

/-- The record checks in their order (R283); a record of no element fails none for its SIZEs. -/
def recError (r : LayoutRec) (addr : Quad) (tiles : List Quad) : Option Nat :=
  let e2m1 := fmtOfRec r = 4
  if addr.toNat % 64 ≠ 0 || (nextOf r).toNat % 64 ≠ 0 || (skipOf r && (predOf r).toNat % 4 ≠ 0) then some 1
  else if bits r 480 32 ≠ 0 || ctrlOf r / 128 ≠ 0 || 5 ≤ fmtOfRec r
      || (e2m1 && (dirOf r || strideOf r 0 ≠ 0 || sizeOf' r 0 % 2 = 1)) || (tileOf r && dirOf r)
      || (if tileOf r then bits (localOf r) 4 12 ≠ 0 || localOf r / 8388608 ≠ 0 else localOf r / 524288 ≠ 0) then some 2
  else if tileOf r && recCount r ≠ 0 && !tileCond r (recTile r tiles) then some 7
  else none

/-! Elements (R284 to R286). -/

/-- One element of a record: its global byte address with the nibble of E2M1, and its scratchpad byte address. -/
structure CopyElem where
  global : Quad
  nibble : Nat
  loc : Nat
  deriving DecidableEq, Repr

/-- Element n of a record (R284, R285). -/
def recElem (r : LayoutRec) (delta : Quad) (tiles : List Quad) (n : Nat) : CopyElem :=
  let i0 := n % sizeOf' r 0
  let i1 := n / sizeOf' r 0 % sizeOf' r 1
  let i2 := n / (sizeOf' r 0 * sizeOf' r 1) % sizeOf' r 2
  let i3 := n / (sizeOf' r 0 * sizeOf' r 1 * sizeOf' r 2)
  let e2m1 := fmtOfRec r = 4
  let inner := if e2m1 then BitVec.ofNat 64 (i0 / 2) else BitVec.ofNat 64 i0 * strideOf r 0
  let t := recTile r tiles
  { global := gaddrOf r + delta + inner + BitVec.ofNat 64 i1 * strideOf r 1 + BitVec.ofNat 64 i2 * strideOf r 2
      + BitVec.ofNat 64 i3 * strideOf r 3
    nibble := if e2m1 then i0 % 2 else 0
    loc := if tileOf r then tileRowAt t (bits (localOf r) 16 7 + i1) + i0 * elemSize r
      else bits (localOf r) 0 19 + n * elemSize r }

/-- E2M1 to E4M3 (Table 5.5). -/
def e2m1 (x : Nat) : Nat :=
  (if x / 8 % 2 = 1 then 128 else 0) + ([0x00, 0x30, 0x38, 0x3C, 0x40, 0x44, 0x48, 0x4C].getD (x % 8) 0)

/-- The scratchpad bytes of an element read from memory. -/
def expandElem (r : LayoutRec) (e : CopyElem) (bs : List Byte) : List Byte :=
  if fmtOfRec r = 4 then [BitVec.ofNat 8 (e2m1 (ofLe bs / 16 ^ e.nibble % 16))] else bs

/-- What the checks of an element say before its data is read. -/
inductive ElemCheck where
  | dev (place : Nat)
  | host (addr : Nat)
  | walk
  | page
  | err (code : Nat)
  deriving DecidableEq, Repr

/-- The checks of R286 that need no global data, in the order of its table. -/
def Package.elemCheck (p : Package) (core i : Nat) (c : Cast) (r : LayoutRec) (e : CopyElem) : ElemCheck :=
  let n := elemSize r
  let x := (p.core core).ctx
  let rest : Option Nat :=
    if c.spsize.toNat < e.loc + n then some 5
    else if !dirOf r && (granulesOf e.loc n).any (fun g => x.tag c g ≠ 0) then some 6
    else if dirOf r && (granulesOf e.loc n).any (fun g => x.poisoned c g) then some 8
    else if dirOf r && c.ordered && !c.owns e.global n then some 11
    else none
  if e.global.toNat % n ≠ 0 then .err 4
  else match p.xlate core c.partition (.copy core i) e.global (dirOf r) false with
    | .access => .err 3
    | .walk => .walk
    | .page => .page
    | .dev a => (rest.map ElemCheck.err).getD (.dev a)
    | .host a => (rest.map ElemCheck.err).getD (.host a)

/-- The run of elements from n on whose checks pass and whose bytes lie in the line of the first (R287), among the next `f`. -/
def Package.copyRun (p : Package) (core i : Nat) (c : Cast) (r : LayoutRec) (s : CopySlice) (line : Nat) : Nat → Nat → List (CopyElem × Nat)
  | 0, _ => []
  | f + 1, n =>
    let e := recElem r s.delta s.tiles n
    if e.global.toNat / 128 ≠ line then []
    else match p.elemCheck core i c r e with
      | .dev a => (e, a) :: p.copyRun core i c r s line f (n + 1)
      | .host a => (e, a) :: p.copyRun core i c r s line f (n + 1)
      | _ => []

/-- Change the position of a collective. -/
def Package.modPos (p : Package) (core i : Nat) (f : CopyPos → CopyPos) : Package :=
  p.modColl core i fun k => { k with pos := k.pos.map f }

/-! Landing (R287). -/

/-- The gathered granule is left: it lands in its turn. -/
def CopyPos.leaveGranule (q : CopyPos) : CopyPos :=
  match q.granule with
  | none => q
  | some g => { q with toLand := q.toLand ++ [(g, q.bytes)], granule := none, bytes := [] }

/-- One local byte joins the gathered granule; a byte of another granule leaves it first. -/
def CopyPos.gather (q : CopyPos) (b : Nat × Byte) : CopyPos :=
  let q := if q.granule = some (b.1 / 16) then q else q.leaveGranule
  { q with granule := some (b.1 / 16), bytes := q.bytes ++ [b] }

/-- The first granule of a collective that is to land does: its bytes are written and it is set full. -/
def Package.land (p : Package) (core i : Nat) : Package :=
  match p.coll? core i with
  | none => p
  | some k =>
    match p.cast? core k.cast, (k.pos.map CopyPos.toLand).getD [] with
    | some c, g :: rest =>
      ((p.modCtx core fun x => (x.spWrite c g.2).setFe c g.1 true).charge core k.cast c.prio 8).modPos core i fun q => { q with toLand := rest, landed := true }
    | _, _ => p

/-- The granules that a running slot lands, at most `n`. -/
def Package.landSlot (p : Package) (core j n : Nat) : Package × Nat :=
  match (p.core core).ctx.running.getD j none with
  | none => (p, n)
  | some i =>
    let m := min n (((p.coll? core i).bind Coll.pos).elim 0 fun q => q.toLand.length)
    ((List.range m).foldl (fun (p : Package) _ => p.land core i) p, n - m)

/-- The landings of a company cycle: at most 4, from the running slot whose turn it is on (R279, R287). -/
def Package.landings (p : Package) (core cyc : Nat) : Package :=
  ((List.range 4).foldl (fun (x : Package × Nat) j => x.1.landSlot core ((cyc + j) % 4) x.2) (p, 4)).1

/-! The ways in which a collective goes on or ends. -/

/-- The wave of a cast that an error of a collective traps (R291): that of the slice, if it has not ended, else the lowest live one. -/
def Package.errorWave (p : Package) (core : Nat) (k : Coll) : Option Nat :=
  let waves := byRank (fun s => ((p.wave? core s).map fun w : Wave => w.waveId.toNat).getD 64) ((p.core core).ctx.slotsOf k.cast)
  ((k.pos.bind fun q => q.slices.head?).bind fun z => waves.find? fun s => !z.ended && ((p.wave? core s).map Wave.waveId) = some z.waveId).or waves.head?

/-- A collective ends in an error (R291): the counter is decremented with ERROR, the follow slot disarmed, status 2 recorded, and ENGINE falls due. -/
def Package.copyError (p : Package) (core i : Nat) (c : Cast) (k : Coll) (code : Nat) : Package :=
  let p := match p.errorWave core k with
    | some s => p.modWave core s fun w => w.engineDue code
    | none => p
  (((p.copyDone core c.partition k 2).disarm core k).collStatus core k 2 (BitVec.ofNat 8 code)).collFree core i

/-- A check fails: what was gathered lands, and then the collective ends (R286). -/
def Package.copyFail (p : Package) (core i : Nat) (c : Cast) (k : Coll) (code : Nat) : Package :=
  if k.pos.any fun q => q.granule.isSome then p.modPos core i CopyPos.leaveGranule else p.copyError core i c k code

/-- The follow request of a collective is made (R289): its slot, if armed then, fires in a company cycle. -/
def Package.fireFollow (p : Package) (core : Nat) (c : Coll) (cyc : Nat) : Package :=
  match c.follow? with
  | none => p
  | some f =>
    (p.modCtx core fun x => { x with follow := modAt x.follow f (Option.map fun y : Follow => { y with fired := true }) }).later
      (.company (companyOf core) cyc) (.followSlotFire core f)

/-- The walk is over: the follow slot fires on the company cycle after the last landing, and the completion follows (R289). That a landing was the last is known when the
walk is over (notes/assumptions/53.md). -/
def Package.copyFinish (k : Clock) (p : Package) (core i : Nat) (c : Coll) (landed : Bool) : Package :=
  let cyc := k.cycleOf (companyOf core) + 1
  let p := p.modColl core i fun c => { c with finishing := true }
  (if landed then p.fireFollow core c cyc else p).later (.company (companyOf core) cyc) (.collectiveComplete core i)

/-- The next record of the slice, the next slice, or the end. -/
def Package.nextRecord (k : Clock) (p : Package) (core i : Nat) (c : Coll) (r : LayoutRec) (q : CopyPos) : Package :=
  match q.slices with
  | [] => p.copyFinish k core i c q.landed
  | s :: l =>
    let last := nextOf r = 0 || s.first + s.count ≤ q.ord + 1
    let slices := if last then pendingSlices c.head l else q.slices
    let p := p.modPos core i fun q =>
      { q with body := none, go := false, elem := 0, slices := slices, ord := if last then 0 else q.ord + 1,
               recAddr := if last then c.head else nextOf r }
    if slices.isEmpty then p.copyFinish k core i c (((p.coll? core i).bind Coll.pos).any CopyPos.landed) else p

/-- Pause at a page or a walk (R286). -/
def Package.copyPause (k : Clock) (p : Package) (core i : Nat) (c : Cast) (va : Quad) (write walk : Bool) : Package :=
  let p := p.modPos core i fun q => { q with paused := true, page := if walk then none else some (va, write) }
  if walk then p.addWalk core c.partition (.copy core i) va write false
  else (p.dropWalks core (.copy core i)).requestPage k core 64 (some i) c.partition va write false

/-! Global reads of the engine. -/

/-- The identity under which the engine acts for a cast. -/
def Cast.engineKey (c : Cast) (core : Nat) : WaveKey := { core := core, slot := 64, castid := c.castid, waveId := 0 }

/-- A request of the core is ahead of the engine on the way to a line (R250). -/
def Package.ahead (p : Package) (core line : Nat) : Bool :=
  let m := p.homeOf line
  let mine := fun r : Req => r.key.core = core && r.line = line
  ((p.company m).inq ++ (p.company m).stalled ++ (p.company m).stageWait ++ (p.stageAt (m / 8)).heldReqs).any mine

/-- What a running collective does next: it waits, makes a step that sends no request, or sends its next global request (R279). -/
inductive CopyAct where
  | wait
  | step (p : Package)
  | request (p : Package)

/-- What a global read of the engine gives: bytes with their poison, from what a request has brought or by a request now; nothing yet; a request sent to the host, a
pause; or an error. -/
inductive EngRead where
  | bytes (bs : List Byte) (poisoned sent : Bool)
  | hold
  | act (a : CopyAct)
  | err (code : Nat)

/-- Go on with what was read, in the same request if it was sent now. -/
def CopyAct.after (sent : Bool) (p : Package) : CopyAct := if sent then .request p else .step p

/-- Read `n` bytes of host space: from what has come back, or by a request (R225). -/
def Package.hostFetch (k : Clock) (p : Package) (core i : Nat) (c : Cast) (num : BitVec 32) (addr n : Nat) : EngRead :=
  match (p.coll? core i).bind Coll.pos with
  | none => .err 3
  | some q =>
    match q.host with
    | some (a, bs) => if a = addr && bs.length = n then .bytes bs false false else .act (.step (p.modPos core i fun q => { q with host := none }))
    | none =>
      let (p, tag) := p.takeTag c.partition (.copy core i c.castid num addr n)
      let p := p.modPos core i fun q => { q with hostWait := true }
      .act (.request (p.later (.mesh (k.mcyc + p.hostWay core))
        (.egressTransaction 0 (.memRead (c.partition + 1) (p.part c.partition).ctx.pasid.toNat addr n tag))))

/-- Bytes of device memory as the engine's cast sees them, with their poison (R263). -/
def Package.engineBytes (p : Package) (c : Cast) (place n : Nat) : List Byte × Bool :=
  let x := fun a => p.viewLine c.launchKey (a / 128)
  ((List.range n).map fun i => (x (place + i)).data.getD ((place + i) % 128) 0,
    (List.range n).any fun i => (x (place + i)).poisoned (place + i))

/-- Read `n` bytes at a VA: a record or a predicate word. -/
def Package.engineRead (k : Clock) (p : Package) (core i : Nat) (c : Cast) (num : BitVec 32) (va : Quad) (n : Nat) : EngRead :=
  match p.xlate core c.partition (.copy core i) va false false with
  | .access => .err 3
  | .walk => .act (.step (p.copyPause k core i c va false true))
  | .page => .act (.step (p.copyPause k core i c va false false))
  | .host a => p.hostFetch k core i c num a n
  | .dev place =>
    if p.ahead core (place / 128) then .hold
    else
      let b := p.engineBytes c place n
      .bytes b.1 b.2 true

/-! One request of a running collective (R287). -/

/-- Gather the elements of a run, given the bytes of each (DIR 0). -/
def Package.copyIn (p : Package) (core i : Nat) (r : LayoutRec) (l : List (CopyElem × List Byte)) : Package :=
  p.modPos core i fun q => (l.flatMap fun e => keyed e.1.loc (expandElem r e.1 e.2)).foldl CopyPos.gather q

/-- The elements of a run up to the first with poisoned data. -/
def untilPoison (x : Line) : List (CopyElem × Nat) → List (CopyElem × Nat)
  | [] => []
  | e :: l => if x.poisoned e.2 then [] else e :: untilPoison x l

/-- A request of `m` elements has been made: the collective stands at the next one. -/
def Package.copyMoved (p : Package) (core i : Nat) (c : Cast) (cslot m : Nat) : Package :=
  ((p.modPos core i fun q => { q with elem := q.elem + m, host := none, denied := false }).dropWalks core (.copy core i)).charge core cslot c.prio 8

/-- The run is not empty: perform it as one request. -/
def Package.copyRequest (k : Clock) (p : Package) (core i : Nat) (c : Cast) (coll : Coll) (r : LayoutRec) (run : List (CopyElem × Nat))
    (host : Bool) : CopyAct :=
  let n := elemSize r
  let cs := coll.cast
  let noted := fun p : Package => run.foldl (fun (p : Package) e => p.noteXlate core c.partition e.1.global) p
  let local_ := fun (e : CopyElem) => (p.core core).ctx.spRead c e.loc n
  let first := (run.head?.map Prod.snd).getD 0
  if host then
    if dirOf r then
      let bytes := (run.flatMap fun e => bytesFrom e.2 (local_ e.1)).foldl (fun l b => putByte b.1 b.2 l) []
      let way := p.hostWay core
      let p := (runsOf bytes).foldl (fun (p : Package) b =>
        p.later (.mesh (k.mcyc + way)) (.egressTransaction 0 (.memWrite (c.partition + 1) (p.part c.partition).ctx.pasid.toNat b.1 b.2))) (noted p)
      .request ((p.modPos core i fun q => { q with ackAt := max q.ackAt (k.mcyc + 2 * way) }).copyMoved core i c cs run.length)
    else
      let lo := run.foldl (fun m e => min m e.2) first
      let hi := run.foldl (fun m e => max m (e.2 + n)) first
      match (noted p).hostFetch k core i c coll.num lo (hi - lo) with
      | .bytes bs _ _ =>
        .step (((noted p).copyIn core i r (run.map fun e => (e.1, (bs.drop (e.2 - lo)).take n))).copyMoved core i c cs run.length)
      | .hold => .wait
      | .act a => a
      | .err code => .step (p.copyFail core i c coll code)
  else
    let line := first / 128
    if p.ahead core line then .wait
    else if dirOf r then
      let bytes := run.flatMap fun e => bytesFrom e.2 (local_ e.1)
      let req : Req := { key := c.engineKey core, leader := 0, part := c.partition, id := 0, line := line,
                         own := false, staged := c.launchKey, arrives := 0, body := .store bytes }
      let full := match c.launchKey with
        | some key => !p.isEarly key && p.stagingFull (p.homeOf line) c.partition req.body
        | none => false
      if full && !(c.launchKey.map p.isLowest).getD false then .wait
      else
        let p := match c.launchKey with
          | some key => if full then (noted p).releaseEarly key else noted p
          | none => noted p
        .request (((p.writeFor req req.body bytes).modPos core i fun q =>
          { q with ackAt := max q.ackAt (k.mcyc + 2 * p.oneWay core (p.homeOf line) line) }).copyMoved core i c cs run.length)
    else
      let x := p.viewLine c.launchKey line
      let good := untilPoison x run
      if good.isEmpty && coll.pos.any (fun q => q.granule.isSome) then .step (p.copyFail core i c coll 8)
      else
        let p := (noted p).touchLine c.partition line
        if good.isEmpty then .request (p.copyError core i c coll 8)
        else .request ((p.copyIn core i r (good.map fun e => (e.1, (x.data.drop (e.2 % 128)).take n))).copyMoved core i c cs good.length)

/-- The elements of a record that passed its checks: the next run, or the end of the record, at which its last granule lands. -/
def Package.copyElems (k : Clock) (p : Package) (core i : Nat) (c : Cast) (coll : Coll) (r : LayoutRec) (s : CopySlice) (q : CopyPos) : CopyAct :=
  if recCount r ≤ q.elem then .step (if q.granule.isSome then p.modPos core i CopyPos.leaveGranule else p.nextRecord k core i coll r q)
  else
    let e := recElem r s.delta s.tiles q.elem
    let run := p.copyRun core i c r s (e.global.toNat / 128) (recCount r - q.elem) q.elem
    match p.elemCheck core i c r e with
    | .err code => .step (p.copyFail core i c coll code)
    | .walk => .step (p.copyPause k core i c e.global (dirOf r) true)
    | .page => .step (if q.denied then p.copyFail core i c coll 3 else p.copyPause k core i c e.global (dirOf r) false)
    | .dev _ => p.copyRequest k core i c coll r run false
    | .host _ => p.copyRequest k core i c coll r run true

/-- A record that has been read: passed over before FIRST; else checked, its predicate read, and performed (R280). -/
def Package.copyRecord (k : Clock) (p : Package) (core i : Nat) (c : Cast) (coll : Coll) (r : LayoutRec) (s : CopySlice) (q : CopyPos) : CopyAct :=
  if q.ord < s.first then .step (p.nextRecord k core i coll r q)
  else if q.go then p.copyElems k core i c coll r s q
  else
    match recError r q.recAddr s.tiles with
    | some code => .step (p.copyFail core i c coll code)
    | none =>
      let go := fun p : Package => (p.dropWalks core (.copy core i)).modPos core i fun q => { q with go := true, host := none, denied := false }
      if !skipOf r then .step (go p)
      else match p.engineRead k core i c coll.num (predOf r) 4 with
        | .err code => .step (p.copyFail core i c coll code)
        | .hold => .wait
        | .act a => if q.denied then .step (p.copyFail core i c coll 3) else a
        | .bytes bs poisoned sent =>
          let p := (p.noteXlate core c.partition (predOf r)).charge core coll.cast c.prio 8
          CopyAct.after sent (if poisoned then p.copyFail core i c coll 8
            else if ofLe bs = expectOf r then go p else p.nextRecord k core i coll r { q with host := none })

/-- What a collective does next (R279, R280). One that has granules to land waits for them. -/
def Package.copyAct (k : Clock) (p : Package) (core i : Nat) : CopyAct :=
  match p.coll? core i with
  | none => .wait
  | some coll =>
    match coll.pos, p.cast? core coll.cast with
    | some q, some c =>
      if q.paused || q.hostWait || coll.finishing || !q.toLand.isEmpty then .wait
      else
        match q.slices with
        | [] => .step (p.copyFinish k core i coll q.landed)
        | s :: _ =>
          match q.body with
          | some bs => p.copyRecord k core i c coll (ofLe bs) s q
          | none =>
            match p.engineRead k core i c coll.num q.recAddr 64 with
            | .err code => .step (p.copyFail core i c coll code)
            | .hold => .wait
            | .act a => if q.denied then .step (p.copyFail core i c coll 3) else a
            | .bytes bs poisoned sent =>
              let p := ((p.noteXlate core c.partition q.recAddr).dropWalks core (.copy core i)).charge core coll.cast c.prio 8
              CopyAct.after sent (if poisoned then p.copyFail core i c coll 8
                else p.modPos core i fun q => { q with body := some bs, elem := 0, go := false, host := none, denied := false })
    | _, _ => .wait

/-- COPY_REQUEST_RETURN (R279, R280, R284, R287): the next request of the collective in a running slot, or the step before it. -/
def copyRequestAt (core run : Nat) (k : Clock) (p : Package) : Package :=
  match (p.core core).ctx.running.getD run none with
  | none => p
  | some i =>
    match p.copyAct k core i with
    | .wait => p
    | .step q => q
    | .request q => q

/-- The steps of a collective that send no request, at most `n` (R279). -/
def Package.copySteps (k : Clock) (core i : Nat) : Nat → Package → Package
  | 0, p => p
  | n + 1, p => match p.copyAct k core i with
    | .step q => q.copySteps k core i n
    | _ => p

/-- The running slots of a core that may go on, from the one whose turn it is (R279, R293). -/
def Package.copySlots (p : Package) (core cyc : Nat) : List (Nat × Nat) :=
  ((List.range 4).map fun j => (cyc + j) % 4).filterMap fun j =>
    ((p.core core).ctx.running.getD j none).bind fun i => (p.coll? core i).bind fun c =>
      if (p.cast? core c.cast).any fun k => k.stopping = some 1 || k.stopping = some 3 then none else some (j, i)

/-- The engine's company cycle before its request: a command is accepted, granules land, and the collectives take the steps that send no request (R44, R279, R287). -/
def Package.copyCycle (k : Clock) (p : Package) (core : Nat) : Package :=
  let cyc := k.cycleOf (companyOf core)
  let p := (p.copyAccept k core).landings core cyc
  (p.copySlots core cyc).foldl (fun (p : Package) r => p.copySteps k core r.2 16) p

/-- The running slot whose collective has the engine's request of a company cycle: the first from the one whose turn it is that has one ready (R279). -/
def Package.copyTurn (k : Clock) (p : Package) (core : Nat) : Option Nat :=
  ((p.copySlots core (k.cycleOf (companyOf core))).find? fun r => match p.copyAct k core r.2 with
    | .request _ => true
    | _ => false).map Prod.fst

/-- COPY_FAULT_RESUME (R286): the page is there, the walk is over, or the page was refused: the collective goes on at its element. -/
def copyFaultResumeAt (core i : Nat) (p : Package) : Package :=
  if p.walksOver core (.copy core i) then p.modPos core i fun q => { q with paused := false, page := none } else p

/-- The running slot of a collective. -/
def CoreCtx.runningAt (x : CoreCtx) (i : Nat) : Nat := (findIdx? (fun r : Option Nat => r = some i) x.running).getD 4

/-- COLLECTIVE_COMPLETE (R289): counter, barrier, status, in this order; the record is free. A collective that landed nothing fires its follow slot on the next
cycle. -/
def collectiveCompleteAt (core i : Nat) (k : Clock) (p : Package) : Package :=
  match p.coll? core i with
  | none => p
  | some c =>
    match c.pos, p.cast? core c.cast with
    | some q, some cast =>
      if !c.finishing then p
      else if k.mcyc < q.ackAt then p.later (.company (companyOf core) (k.cycleOf (companyOf core) + 1)) (.collectiveComplete core i)
      else
        let p := p.copyDone core cast.partition c 0
        let p := match c.barrier? with
          | some g => p.modCore core fun x => { x with barrier := x.barrier ++ [BarrierEvent.copyArrival c.cast g (x.ctx.runningAt i)] }
          | none => p
        let p := if q.landed then p else p.fireFollow core c (k.cycleOf (companyOf core) + 1)
        (p.collStatus core c 0 0).collFree core i
    | _, _ => p

/-! The words. -/

/-- The operand checks of COPY (R277). -/
def copyTrap (v : View) (head ctl : Quad) : Option Trap :=
  if head.toNat % 64 ≠ 0 then some { cause := .misalign, addr := head }
  else if ctl.toNat / 2 ^ 30 ≠ 0 then some v.operandTrap
  else if bits ctl.toNat 25 1 = 1 && v.cast.spsize.toNat < 16 * bits ctl.toNat 10 15 + 16 then
    some { cause := .spRange, addr := BitVec.ofNat 64 (16 * bits ctl.toNat 10 15) }
  else none

noncomputable section

/-- COPY (R276 to R279): the checks, the number and the place at the X pipe, from which the arrival reaches the engine (R44); with no record for it the wave waits. -/
def execCOPY (w : R3) (s : State) : Host.Outcome State Fault Refusal :=
  s.word (.copy w) fun v s =>
    let head := v.sc w.a.toNat
    let ctl := v.sc (w.a.toNat + 1)
    match copyTrap v head ctl with
    | some t => .trap t
    | none =>
      let a : CopyArgs := { head := head, ctl := ctl, slice := v.sc w.b.toNat, dest := w.d.toNat }
      let n := v.now.nextCopy
      if s.pkg.recordFor v.iss.core v.now.cast n then
        .done (((s.modPkg fun p => p.sendCopy v.iss.core v.iss.slot n (some a)).onWave v fun w => { w with nextCopy := w.nextCopy + 1 }).writeX v
          w.d.toNat (n.setWidth 64))
      else .block s (.create a)

/-- ENGWAIT (R292): it goes through its X pipe (R44); satisfied at issue, it completes 4 company cycles later. -/
def execENGWAIT (w : R2) (s : State) : Host.Outcome State Fault Refusal :=
  s.word (.engwait w) fun v s =>
    let n := (v.sc w.a.toNat).setWidth 32
    let met := (s.pkg.cast? v.iss.core v.src.cast).filter fun c => c.copyOver n
    let due := s.clk.cycleOf (companyOf v.iss.core) + 4
    .block (s.modPkg fun p => p.sendCopy v.iss.core v.iss.slot n none) (match met with
      | some c => .released w.d.toNat (c.copyResult n) false false due
      | none => .engwait n w.d.toNat)

end

def execCOLLECTIVE_CREATE_RETRY (core slot : Nat) (s : State) : Host.Outcome State Fault Refusal := s.event fun _ => createRetryAt core slot
def execCOLLECTIVE_START (core : Nat) (s : State) : Host.Outcome State Fault Refusal := s.event (collectiveStartAt core)
def execCOPY_REQUEST_RETURN (core run : Nat) (s : State) : Host.Outcome State Fault Refusal := s.event (copyRequestAt core run)
def execCOPY_FAULT_RESUME (core rec_ : Nat) (s : State) : Host.Outcome State Fault Refusal := s.event fun _ => copyFaultResumeAt core rec_
def execCOLLECTIVE_COMPLETE (core rec_ : Nat) (s : State) : Host.Outcome State Fault Refusal := s.event (collectiveCompleteAt core rec_)

end Sys2Proof.Machine
end

