-- ==== Sys2Proof/Machine/Queue.lean ====
section
/-! DEFINITION. Scratchpad queues and stage rings (R294 to R304): the queue-control word, QINIT, and the words of the COUNTED and PHASED modes with the commits of
those that wait. -/

namespace Sys2Proof.Machine

/-- A queue-control word (Table 16.1) as a number. -/
abbrev QCtl := Nat

/-- BASE. -/
def qBase (w : QCtl) : Nat := bits w 0 15
/-- DEPTH. -/
def qDepth (w : QCtl) : Nat := bits w 15 11
/-- E: granules of an element. -/
def qElem (w : QCtl) : Nat := 2 ^ bits w 26 3
/-- MODE: PHASED. -/
def qPhased (w : QCtl) : Bool := bits w 29 1 = 1
/-- ALLOW0. -/
def qAllow0 (w : QCtl) : Nat := bits w 30 16
/-- HEAD. -/
def qHead (w : QCtl) : Nat := bits w 80 16
/-- TAIL. -/
def qTail (w : QCtl) : Nat := bits w 96 16
/-- ALLOW. -/
def qAllow (w : QCtl) : Nat := bits w 112 16

/-- The word with other counts. -/
def qCounts (w : QCtl) (head tail allow : Nat) : QCtl :=
  w % 2 ^ 80 + head % 65536 * 2 ^ 80 + tail % 65536 * 2 ^ 96 + allow % 65536 * 2 ^ 112

/-- The region of a queue. -/
def qRegion (w : QCtl) : List Nat := (List.range (qDepth w * qElem w)).map fun i => qBase w + i

/-- The control word at an address. -/
def CoreCtx.qctl (x : CoreCtx) (c : Cast) (a : Nat) : QCtl := ofLe (x.spRead c a 16)

/-- Write the control word. -/
def CoreCtx.setQctl (x : CoreCtx) (c : Cast) (a : Nat) (w : QCtl) : CoreCtx := x.spWrite c (keyed a (leBytes 16 w))

/-- The checks of the words on a queue (R295): alignment, range, tag and mode. -/
def queueTrap (v : View) (x : CoreCtx) (a : Quad) (phased : Bool) : Option Trap :=
  if a.toNat % 16 ≠ 0 then some { cause := .misalign, addr := a }
  else if v.cast.spsize.toNat < a.toNat + 16 then some { cause := .spRange, addr := a }
  else if x.tag v.cast (a.toNat / 16) ≠ 3 || qPhased (x.qctl v.cast a.toNat) ≠ phased then some { cause := .queueState, addr := a }
  else none

/-- A wave of the cast is blocked on the queue at an address (R296). -/
def CoreCtx.queueWaited (x : CoreCtx) (cslot : Nat) (a : Quad) : Bool :=
  x.waves.any fun w => w.any fun w => w.cast = cslot && w.leaders.any fun l => match w.blockedAt l with
    | some b => match b.op with
      | .qpush ctl _ _ => ctl = a
      | .qpop ctl _ => ctl = a
      | .rwait ctl _ _ _ => ctl = a
      | _ => false
    | none => false

/-- The checks of QINIT (R296). -/
def qinitTrap (v : View) (x : CoreCtx) (a cfg : Quad) : Option Trap :=
  let c := v.cast
  let g := a.toNat / 16
  let w := cfg.toNat % 2 ^ 46
  let stop := qBase w + qDepth w * qElem w
  let old := if x.tag c g = 3 then qRegion (x.qctl c a.toNat) else []
  if a.toNat % 16 ≠ 0 then some { cause := .misalign, addr := a }
  else if c.spsize.toNat < a.toNat + 16 then some { cause := .spRange, addr := a }
  else if x.tag c g = 1 then some { cause := .barrierState, addr := a }
  else if cfg.toNat / 2 ^ 46 ≠ 0 || qDepth w = 0 || 1024 < qDepth w || 6 ≤ bits w 26 3
      || (if qPhased w then bits w 26 3 ≠ 0 || qAllow0 w ≠ 0 else qAllow0 w = 0 || qDepth w < qAllow0 w) then some v.operandTrap
  else if c.spsize.toNat < 16 * stop then some { cause := .spRange, addr := BitVec.ofNat 64 (16 * stop) }
  else if (qBase w ≤ g && g < stop) || (qRegion w).any (fun r => x.tag c r ≠ 0 && !old.contains r)
      || (x.tag c g = 3 && x.queueWaited v.src.cast a) || x.tag c g = 2 then some { cause := .queueState, addr := a }
  else none

/-- The effect of QINIT (R296). -/
def CoreCtx.qinit (x : CoreCtx) (c : Cast) (a : Nat) (cfg : Nat) : CoreCtx :=
  let w := cfg % 2 ^ 46
  let old := if x.tag c (a / 16) = 3 then qRegion (x.qctl c a) else []
  let x := old.foldl (fun (x : CoreCtx) g => (x.setTag c g 0).setFe c g false) x
  let x := (qRegion w).foldl (fun (x : CoreCtx) g => (x.setTag c g 2).setFe c g false) x
  ((x.setQctl c a (qCounts w 0 0 (qAllow0 w))).setTag c (a / 16) 3).setFe c (a / 16) true

/-- The bytes of an element from the lanes of a register (R298). -/
def elemBytes (n : Nat) (l : List Word) : List Byte := (l.take n).flatMap fun x => leBytes 4 x.toNat

/-- A push, if the allowance admits it (R298): the core's part afterwards and TAIL before. -/
def CoreCtx.push (x : CoreCtx) (c : Cast) (a : Nat) (elem : List Word) : Option (CoreCtx × Nat) :=
  let w := x.qctl c a
  if qAllow w = 0 then none
  else
    let g := qBase w + qTail w % qDepth w * qElem w
    let x := x.spWrite c (keyed (16 * g) (elemBytes (4 * qElem w) elem))
    let x := (List.range (qElem w)).foldl (fun (x : CoreCtx) i => x.setFe c (g + i) true) x
    some (x.setQctl c a (qCounts w (qHead w) (qTail w + 1) (qAllow w + 65535)), qTail w)

/-- A pop, if the queue holds an element (R299): the core's part afterwards and the element. -/
def CoreCtx.pop (x : CoreCtx) (c : Cast) (a : Nat) : Option (CoreCtx × List Word) :=
  let w := x.qctl c a
  if qTail w = qHead w then none
  else
    let g := qBase w + qHead w % qDepth w * qElem w
    let bs := x.spRead c (16 * g) (16 * qElem w)
    let x := (List.range (qElem w)).foldl (fun (x : CoreCtx) i => x.setFe c (g + i) false) x
    some (x.setQctl c a (qCounts w (qHead w + 1) (qTail w) (qAllow w + 1)),
      (List.range (4 * qElem w)).map fun j => BitVec.ofNat 32 (ofLe ((bs.drop (4 * j)).take 4)))

/-- Write an element to the low lanes of a register, whatever the masks. -/
def Wave.putElem (w : Wave) (r : Nat) (l : List Word) : Wave := w.setElems (l.zipIdx.map fun e => (r, e.2, e.1))

/-- The phase of a slot. -/
def CoreCtx.phase (x : CoreCtx) (c : Cast) (a slot : Nat) : Bool := x.full c (qBase (x.qctl c a) + slot)

/-- The handle of a slot. -/
def CoreCtx.handle (x : CoreCtx) (c : Cast) (a slot : Nat) : Quad :=
  BitVec.ofNat 64 (ofLe (x.spRead c (16 * (qBase (x.qctl c a) + slot)) 8))

/-- Advance a slot (R302). -/
def CoreCtx.radv (x : CoreCtx) (c : Cast) (a slot : Nat) (keep : Bool) (h : Quad) : CoreCtx :=
  let g := qBase (x.qctl c a) + slot
  let x' := if keep then x else x.spWrite c (keyed (16 * g) (leBytes 8 h.toNat ++ leBytes 8 0))
  x'.setFe c g (!x.full c g)

/-- The slot word of RWAIT and RADV: its slot, phase and KEEP, if its other bits are 0 and the slot exists (R301, R302). -/
def ringSlot (x : CoreCtx) (c : Cast) (a : Nat) (s : Quad) (n : Nat) : Option (Nat × Bool × Bool) :=
  let i := bits s.toNat 0 16
  if s.toNat / 2 ^ n ≠ 0 || qDepth (x.qctl c a) ≤ i then none else some (i, s.getLsbD 16, s.getLsbD 17)

/-- QUEUE_BLOCKED_COMMIT (R297): a blocked QPUSH or QPOP commits once its condition holds. -/
def queueCommitAt (core slot leader : Nat) (p : Package) : Package :=
  match p.wave? core slot with
  | none => p
  | some w =>
    match w.blockedAt leader, p.cast? core w.cast with
    | some { op := .qpush a elem d, .. }, some c =>
      match (p.core core).ctx.push c a.toNat elem with
      | some (x, tail) => (p.modCtx core fun _ => x).modWave core slot fun w => (w.setS d (BitVec.ofNat 64 tail)).endWait leader
      | none => p
    | some { op := .qpop a d, .. }, some c =>
      match (p.core core).ctx.pop c a.toNat with
      | some (x, l) => (p.modCtx core fun _ => x).modWave core slot fun w => ((w.putElem d l).endWait leader).acquireCast
      | none => p
    | _, _ => p

/-- RING_WAIT_COMMIT (R301): a blocked RWAIT commits once its slot's phase matches. -/
def ringCommitAt (core slot leader : Nat) (p : Package) : Package :=
  match p.wave? core slot with
  | none => p
  | some w =>
    match w.blockedAt leader, p.cast? core w.cast with
    | some { op := .rwait a i phase d, .. }, some c =>
      let x := (p.core core).ctx
      if x.phase c a.toNat i = phase then
        p.modWave core slot fun w => ((w.setS d (x.handle c a.toNat i)).endWait leader).acquireCast
      else p
    | _, _ => p

/-- A word on a queue: its checks, then its effect. -/
def execQueue (i : Instr) (a : BitVec 7) (phased : Bool) (f : View → State → CoreCtx → Quad → Out) (s : State) : Host.Outcome State Fault Refusal :=
  s.word i fun v s =>
    let x := (s.pkg.core v.iss.core).ctx
    let addr := v.sc a.toNat
    match queueTrap v x addr phased with
    | some t => .trap t
    | none => f v s x addr

/-- The lanes of a register, whatever the masks. -/
def View.allLanes (v : View) (r : Nat) : List Word := (List.range 128).map fun j => v.vec r j

noncomputable section

/-- QINIT (R296). -/
def execQINIT (w : RAB) (s : State) : Host.Outcome State Fault Refusal :=
  s.word (.qinit w) fun v s =>
    let a := v.sc w.a.toNat
    let cfg := v.sc w.b.toNat
    match qinitTrap v (s.pkg.core v.iss.core).ctx a cfg with
    | some t => .trap t
    | none => .done (s.onCtx v fun x => x.qinit v.cast a.toNat cfg.toNat)

/-- QPUSH (R298). -/
def execQPUSH (w : R3) (s : State) : Host.Outcome State Fault Refusal :=
  execQueue (.qpush w) w.a false (fun v s x a =>
    let elem := v.allLanes w.b.toNat
    match x.push v.cast a.toNat elem with
    | some (x, tail) => .done ((s.onCtx v fun _ => x).writeX v w.d.toNat (BitVec.ofNat 64 tail))
    | none => .block s (.qpush a elem w.d.toNat)) s

/-- QPOP (R299). -/
def execQPOP (w : R2) (s : State) : Host.Outcome State Fault Refusal :=
  execQueue (.qpop w) w.a false (fun v s x a =>
    match x.pop v.cast a.toNat with
    | some (x, l) => .done ((s.onCtx v fun _ => x).onWave v fun y => (y.putElem w.d.toNat l).acquireCast)
    | none => .block s (.qpop a w.d.toNat)) s

/-- QTRYPUSH (R298). -/
def execQTRYPUSH (w : R3) (s : State) : Host.Outcome State Fault Refusal :=
  execQueue (.qtrypush w) w.a false (fun v s x a =>
    match x.push v.cast a.toNat (v.allLanes w.b.toNat) with
    | some (x, _) => .done ((s.onCtx v fun _ => x).writeX v w.d.toNat 0)
    | none => .done (s.writeX v w.d.toNat 1)) s

/-- QTRYPOP (R299). -/
def execQTRYPOP (w : R3) (s : State) : Host.Outcome State Fault Refusal :=
  execQueue (.qtrypop w) w.a false (fun v s x a =>
    match x.pop v.cast a.toNat with
    | some (x, l) => .done (((s.onCtx v fun _ => x).onWave v fun y => (y.putElem w.d.toNat l).acquireCast).writeX v w.b.toNat 0)
    | none => .done (s.writeX v w.b.toNat 1)) s

/-- RWAIT (R301). -/
def execRWAIT (w : R3) (s : State) : Host.Outcome State Fault Refusal :=
  execQueue (.rwait w) w.a true (fun v s x a =>
    match ringSlot x v.cast a.toNat (v.sc w.b.toNat) 17 with
    | none => .trap { cause := .queueState, addr := a }
    | some (i, phase, _) =>
      if x.phase v.cast a.toNat i = phase then
        .done ((s.onWave v Wave.acquireCast).writeX v w.d.toNat (x.handle v.cast a.toNat i))
      else .block s (.rwait a i phase w.d.toNat)) s

/-- RADV (R302). -/
def execRADV (w : R3) (s : State) : Host.Outcome State Fault Refusal :=
  execQueue (.radv w) w.a true (fun v s x a =>
    match ringSlot x v.cast a.toNat (v.sc w.b.toNat) 18 with
    | none => .trap { cause := .queueState, addr := a }
    | some (i, phase, keep) =>
      if x.phase v.cast a.toNat i ≠ phase then .trap { cause := .queueState, addr := a }
      else .done (s.onCtx v fun x => x.radv v.cast a.toNat i keep (v.sc w.d.toNat))) s

end

def execQUEUE_BLOCKED_COMMIT (core slot leader : Nat) (s : State) : Host.Outcome State Fault Refusal :=
  s.event fun _ => queueCommitAt core slot leader
def execRING_WAIT_COMMIT (core slot leader : Nat) (s : State) : Host.Outcome State Fault Refusal := s.event fun _ => ringCommitAt core slot leader

end Sys2Proof.Machine
end

