-- ==== Sys2Proof/Machine/Sched.lean ====
section
/-! DEFINITION. The prompter's scheduling (R38, R42, R45, R46, R53, R57, R61, R326 to R335, R341): node checks, placement passes and admission, bind records, launch, pre-emption
and resumption, kills, and clock gating of idle companies. -/

namespace Sys2Proof.Machine

/-! Node checks (R328). -/

/-- Some bit of a number outside a mask of (low bit, width) fields is set. -/
def strayBits (x : Nat) (fields : List (Nat × Nat)) : Bool := (List.range 64).any fun i => x.testBit i && !fields.any fun f => f.1 ≤ i && i < f.1 + f.2

/-- Reserved bytes or bits are not 0 (Table 18.2, Table 19.3). -/
def Node.reservedSet (n : Node) : Bool :=
  strayBits (n.field 36 4) [(0, 12)]
    || strayBits (n.field 40 8) [(0, 7), (8, 7), (16, 9), (25, 20), (46, 2), (48, 2), (50, 7)]
    || (List.range 64).any (fun i => n.initw ≤ i && n.roleOf i ≠ 0)
    || (List.range 4).any (fun i => strayBits (n.demand i) [(31, 1), (30, 1), (22, 8), (0, 17)])
    || (List.range 8).any (fun i => if i < n.prodcnt then 4096 ≤ n.field (80 + 2 * i) 2 else n.field (80 + 2 * i) 2 ≠ 0)
    || (List.range 4).any (fun i => n.field (96 + 16 * i + 14) 2 % 32768 ≠ 0)
    || (List.range 88).any (fun i => n.field (160 + i) 1 ≠ 0)

/-- The initial waves of a role. -/
def Node.roleCount (n : Node) (r : Nat) : Nat := ((List.range (min n.initw 64)).filter fun i => n.roleOf i = r).length

/-- A demand entry: valid, OWN, vault, rate (Table 18.2). -/
def Node.demandOf (n : Node) (i : Nat) : Option (Bool × Nat × Nat) :=
  let d := n.demand i
  if d.testBit 31 then some (d.testBit 30, bits d 22 8, bits d 0 17) else none

/-- The valid demand entries. -/
def Node.demands (n : Node) : List (Bool × Nat × Nat) := (List.range 4).filterMap n.demandOf

/-- FCODE of a committed entry, 0 if every check passes (Table 18.3). -/
def Package.nodeCode (p : Package) (k node : Nat) : Nat :=
  let n := p.node k node
  let ds := n.demands
  let vaults := (ds.filter fun d => !d.1).map fun d => d.2.1
  if n.reservedSet then 1
  else if n.initw = 0 || n.maxw < n.initw || 64 < n.maxw || n.regs < 8 || 256 < n.regs || n.regs % 8 ≠ 0 || n.spbytes % 16 ≠ 0 || 524288 < n.spbytes
      || 8 < n.roleCount 2 || 8 < n.roleCount 1 then 2
  else if n.codebase = 0 || n.codebase % 64 ≠ 0 || n.codelen % 4 ≠ 0 || n.entryoff % 4 ≠ 0 || n.codelen ≤ n.entryoff then 3
  else if n.spbytes < n.threshold * n.recsz || n.cqcap < n.threshold || 1048576 < n.cqcap || n.cqbase = 0 || n.cqbase % n.recsz ≠ 0 then 4
  else if 8 < n.prodcnt || n.prods.any (fun m => m = node || !(p.node k m).valid || (p.node k m).fault) then 5
  else if ds.any (fun d => 128000 < d.2.2 || (!d.1 && !p.present (d.2.1 / 64))) || !decide vaults.Nodup || 1 < (ds.filter fun d => d.1).length then 6
  else if n.cog = 3 || (n.cog = 1 && !(2 ≤ n.cogn && n.cogn ≤ 8)) || (n.cog = 2 && !(2 ≤ n.cogn && n.cogn ≤ 64)) || (n.cog = 0 && n.cogn ≠ 0) then 7
  else 0

/-- Check an entry committed since the last pass (R327, R328): a fault is recorded and reported. -/
def Package.checkEntry (t : Clock) (p : Package) (k node : Nat) : Package :=
  let n := p.node k node
  if !n.valid || n.checked then p
  else
    let code := p.nodeCode k node
    let p := p.modNode k node fun n => { n with checked := true }
    if code = 0 then p
    else
      (p.modNode k node fun n => (n.put 248 1 3).put 249 1 code).hmqPost k
        { kind := 3, castid := 0, castindex := 0, info := BitVec.ofNat 16 node, waveId := 0, core := 0, tick := BitVec.ofNat 32 t.rtick, p0 := 0, p1 := 0 }

/-! What a cast needs, and what a core has (R331, R332). -/

/-- The shape of a cast that waits for a core: roles of its waves, registers, rows, demands and saved armed follow slots. -/
structure Want where
  part : Nat
  roles : List Role
  regs : Nat
  rows : Nat
  demands : List (Bool × Nat × Nat)
  follow : List Nat
  deriving DecidableEq, Repr

/-- The rows of a number of scratchpad bytes. -/
def rowsOf (bytes : Nat) : Nat := (bytes + 4095) / 4096

/-- The saved context of an entry. -/
def CastEntry.ctx? (e : CastEntry) : Option SavedCast :=
  match e.state with
  | .saved c => some c
  | .placed _ c => c
  | _ => none

/-- What an entry needs. -/
def Package.want (p : Package) (e : CastEntry) : Want :=
  let n := p.node e.part e.node
  match e.ctx? with
  | some c => { part := e.part, roles := c.waves.map Wave.role, regs := c.cast.regcount.toNat, rows := c.cast.rows, demands := n.demands,
                follow := c.follow.map Prod.fst }
  | none => { part := e.part, roles := (List.range n.initw).map fun i => roleOf (n.roleOf i), regs := n.regs, rows := rowsOf n.spbytes,
              demands := n.demands, follow := [] }

/-- An entry by its number. -/
def Package.entry? (p : Package) (id : Nat) : Option CastEntry := p.casts.find? fun e => e.id = id

/-- Change an entry. -/
def Package.modEntry (p : Package) (id : Nat) (f : CastEntry → CastEntry) : Package :=
  { p with casts := p.casts.map fun e => if e.id = id then f e else e }

/-- The slots, units and rows of a core as a pass counts them: those taken, and those of bind records on their way. -/
structure CoreRoom where
  waves : List (Option Wave)
  units : List (Option Nat)
  rows : List (Nat × Nat)
  deriving DecidableEq, Repr

/-- A wave that stands for one on its way. -/
def comingWave (r : Role) : Wave := newWave 0 0 r [] 0 0 [] 0 0

/-- A request of an exited cast, or its acknowledgement, is on its way: the release of the exit is not complete (R258). -/
def Package.exitBusy (p : Package) (core : Nat) (castid : BitVec 14) : Bool :=
  let mine := fun r : Req => r.key.core = core && r.key.castid = castid
  p.companies.any (fun m => (m.inq ++ m.stalled ++ m.stageWait).any mine) || p.stage.any (fun s => s.heldReqs.any mine)
    || (p.core core).replies.any fun r => r.key.castid = castid

/-- The rows of a core that are not free: those of its casts, and those of exited casts whose release is not complete (R49, R258). -/
def Package.rowsTaken (p : Package) (core : Nat) : List (Nat × Nat) :=
  let x := (p.core core).ctx
  (x.casts.filterMap fun c : Option Cast => c.map fun k => (k.sprow, k.rows))
    ++ (x.leaving.filter fun l => p.exitBusy core l.1).map fun l => (l.2.1, l.2.2)

/-- The room of a core. -/
def Package.room (p : Package) (core : Nat) : CoreRoom :=
  let c := p.core core
  let start : CoreRoom := { waves := c.ctx.waves, units := c.ctx.units, rows := p.rowsTaken core }
  c.binds.foldl (fun (r : CoreRoom) b =>
    if b.op = .launch || b.op = .resume then
      let roles := ((p.entry? b.entry).map fun e => (p.want e).roles).getD []
      let waves := (b.slots.zip (roles ++ List.replicate 64 Role.general)).foldl (fun ws x => setAt ws x.1 (some (comingWave x.2))) r.waves
      { waves := waves, units := takeUnits r.units b.regbase b.units 0, rows := r.rows ++ [(b.sprow, b.rows)] }
    else r) start

/-- A row that no cast holds. -/
def rowFree (used : List (Nat × Nat)) (r : Nat) : Bool := !used.any fun u => u.1 ≤ r && r < u.1 + u.2

/-- The lowest run of consecutive free rows: 128 in a core. -/
def freeRows (used : List (Nat × Nat)) (n : Nat) : Option Nat :=
  (List.range (129 - n)).find? fun i => (List.range n).all fun j => rowFree used (i + j)

/-- AVAIL in MB/s by class (Table 14.1, R332). -/
def vaultAvail (c : Nat) : Nat := [124800, 121600, 115200, 102400, 76800].getD c 76800

/-- The demands of a cast on a core: the OWN entry names the vault above it. -/
def demandsOn (l : List (Bool × Nat × Nat)) (core : Nat) : List (Nat × Nat) := l.map fun d => (if d.1 then core else d.2.1, d.2.2)

/-- What a partition's casts reserve on a vault. -/
def Package.partResv (p : Package) (part v : Nat) : Nat :=
  (p.casts.map fun e => if e.part = part then ((e.demands.filter fun d => d.1 = v).map Prod.snd).foldl (· + ·) 0 else 0).foldl (· + ·) 0

/-- A demand is admitted (R332), within the partition's share of the vault where several partitions are valid (R268). -/
def Package.admits (p : Package) (part v d : Nat) : Bool :=
  let avail := vaultAvail (p.vault v).vclass
  let n := p.validParts.length
  decide (10 * ((p.vault v).resv + d) ≤ 9 * avail) && (n ≤ 1 || decide (40 * n * (p.partResv part v + d) ≤ 27 * avail))

/-- All of a cast's demands on a core are admitted; entries on one vault count together. -/
def Package.admitAll (p : Package) (part : Nat) (ds : List (Nat × Nat)) : Bool :=
  ds.all fun d => p.admits part d.1 (((ds.filter fun x => x.1 = d.1).map Prod.snd).foldl (· + ·) 0)

/-- Where a cast goes on a core. -/
structure Spot where
  slots : List Nat
  regbase : Nat
  units : Nat
  sprow : Nat
  rows : Nat
  demands : List (Nat × Nat)
  deriving DecidableEq, Repr

/-- Check 4 for a list of roles. -/
def rolesFit (ws : List (Option Wave)) (roles : List Role) : Bool :=
  let have_ := fun r : Role => (ws.filter fun w => w.any fun y => y.role = r).length
  let new := fun r : Role => (roles.filter (· = r)).length
  have_ .matrix + new .matrix ≤ 8 && have_ .copy + new .copy ≤ 8

/-- The checks of Table 18.6 at a core: the spot, or the first reason of refusal. -/
def Package.tryCore (p : Package) (w : Want) (core : Nat) : Except Nat Spot :=
  let r := p.room core
  let units := w.roles.length * (w.regs / 8)
  let ds := demandsOn w.demands core
  match pickSlots r.waves (comingWave .general) w.roles.length with
  | none => .error 1
  | some slots =>
    match freeRun r.units units with
    | none => .error 2
    | some base =>
      match freeRows r.rows w.rows with
      | none => .error 3
      | some row =>
        if !rolesFit r.waves w.roles then .error 4
        else if (p.vault core).vclass = 4 then .error 5
        else if !p.admitAll w.part ds then .error 6
        else if w.follow.any fun f => (((p.core core).ctx.follow[f]?).join).isSome then .error 7
        else .ok { slots := slots.foldl setInsert [], regbase := base, units := units, sprow := row, rows := w.rows, demands := ds }

/-- A company whose clock has stopped. -/
def Company.gatedNow (m : Company) : Bool :=
  match m.gating with
  | .gated => true
  | .waking _ => true
  | _ => false

/-- The cores of a partition. -/
def Package.partCores (p : Package) (k : Nat) : List Nat :=
  (List.range 256).filter fun c => (p.part k).companies.getLsbD (companyOf c) && p.present (stageOf c)

/-- The candidate cores of a partition (R331): ungated companies first, then fewest allocated units, then core number. -/
def Package.candidates (p : Package) (k : Nat) : List Nat :=
  byRank (fun c => (if (p.company (companyOf c)).gatedNow then 1000 else 0) + ((p.room c).units.filter Option.isSome).length) (p.partCores k)

/-! Sending bind records (R329). -/

/-- The lowest CASTID that no cast holds (R34). -/
def Package.freeCastid (p : Package) : BitVec 14 :=
  let used := p.casts.filterMap fun e => e.castid.map BitVec.toNat
  BitVec.ofNat 14 (((List.range (used.length + 1)).find? fun i => !used.contains i).getD 0)

/-- The row by which a record is applied. -/
def BindOp.row (core : Nat) : BindOp → Instr
  | .launch => .launch core
  | .resume => .resume core
  | .preempt => .preempt core
  | .kill => .kill core

/-- Send a record; dispatch applies it from the mesh cycle after it arrives. -/
def Package.sendBind (t : Clock) (p : Package) (core : Nat) (b : Bind) : Package :=
  let at_ := t.mcyc + p.transit core
  (p.modCore core fun c => { c with binds := c.binds ++ [{ b with arrives := at_ }] }).later (.mesh (at_ + 1)) (b.op.row core)

/-- A record of an entry. -/
def CastEntry.bind (e : CastEntry) (op : BindOp) (s : Spot) : Bind :=
  { op := op, arrives := 0, entry := e.id, slots := s.slots, castid := e.castid.getD 0, partition := e.part, node := e.node, castindex := e.castindex,
    launchid := e.launchid, sprow := s.sprow, rows := s.rows, regbase := s.regbase, units := s.units, batchn := e.batchn, batchpos := e.batchpos,
    cogroup := e.cogroup, ctxpa := e.ctxpa }

/-- No place: the record of a PREEMPT or KILL. -/
def noSpot : Spot := { slots := [], regbase := 0, units := 0, sprow := 0, rows := 0, demands := [] }

/-- Reservations grow or shrink (R333). -/
def Package.reserve (p : Package) (ds : List (Nat × Nat)) (add : Bool) : Package :=
  ds.foldl (fun (p : Package) d => p.modVault d.1 fun v => { v with resv := if add then v.resv + d.2 else v.resv - d.2 }) p

/-- Place an entry: CASTID, reservations and the LAUNCH or RESUME record. -/
def Package.place (t : Clock) (p : Package) (e : CastEntry) (core : Nat) (s : Spot) (cogroup : BitVec 23) : Package :=
  let e' := { e with castid := some (e.castid.getD p.freeCastid), state := .placed core e.ctx?, demands := s.demands, refused := 0, cogroup := cogroup }
  ((p.reserve s.demands true).modEntry e.id fun _ => e').sendBind t core (e'.bind (if e.ctx?.isSome then .resume else .launch) s)

/-- LASTREF and REFTICK of a node (Table 18.2). -/
def Package.refuseNode (t : Clock) (p : Package) (k node reason : Nat) : Package :=
  p.modNode k node fun n => (n.put 250 1 reason).put 252 4 t.rtick

/-- A refusal at a pass: reasons 0x01 to 0x04 count toward R334. -/
def Package.refuse (t : Clock) (p : Package) (e : CastEntry) (reason : Nat) : Package :=
  (p.refuseNode t e.part e.node reason).modEntry e.id fun e => { e with refused := if 1 ≤ reason && reason ≤ 4 then e.refused + 1 else 0 }

/-! Ordered mode at a placement (R56, R377). -/

/-- The launch key of an entry. -/
def CastEntry.key (e : CastEntry) : LaunchKey := { part := e.part, node := e.node, launchid := e.launchid, castindex := e.castindex }

/-- An entry that needs a ticket has or can take one. -/
def Package.ticketFor (p : Package) (e : CastEntry) : Bool :=
  e.ctx?.isSome || !p.nextOrdered e.part || (p.ticketOf e.key).isSome || p.freeTicket.isSome

/-- Take it. -/
def Package.withTicket (p : Package) (e : CastEntry) : Package :=
  if e.ctx?.isSome || !p.nextOrdered e.part then p else p.takeTicket e.key

/-! Pre-emption by the prompter (R266, R334). -/

/-- The priority class of an entry. -/
def Package.entryPrio (p : Package) (e : CastEntry) : Nat := (p.node e.part e.node).prio

/-- The co-group of an entry within its launch. -/
def Package.groupOf (p : Package) (e : CastEntry) : List CastEntry :=
  let n := p.node e.part e.node
  if n.cog = 0 then [e]
  else p.casts.filter fun x => x.part = e.part && x.node = e.node && x.launchid = e.launchid && x.castindex.toNat / max n.cogn 1 = e.castindex.toNat / max n.cogn 1

/-- Send PREEMPT for a cast, and for the rest of its co-group, which is resident together (R57), each with the context area that it gets (R335). -/
def Package.preemptCast (t : Clock) (p : Package) (e : CastEntry) : Package :=
  (p.groupOf e).foldl (fun (p : Package) x => match x.state with
    | .resident core _ =>
      let x := { x with ctxpa := Config.contextArea x.id ++ (0 : BitVec 7) }
      (p.modEntry x.id fun _ => x).sendBind t core (x.bind .preempt noSpot)
    | _ => p) p

/-- The cast of a resident entry, unless it is being pre-empted already. -/
def Package.victim? (p : Package) (e : CastEntry) : Option Cast :=
  match e.state with
  | .resident core cslot =>
    if (p.core core).binds.any fun b => b.entry = e.id then none else (p.cast? core cslot).filter fun c => c.stopping.isNone
  | _ => none

/-- The cast that R334 pre-empts for an entry on a core: of a lower class, lowest class first, then highest CASTID, resident for 250 ticks. -/
def Package.starveVictim (t : Clock) (p : Package) (e : CastEntry) (core : Nat) : Option CastEntry :=
  let ok := p.casts.filter fun x => (match x.state with
    | .resident c _ => c = core
    | _ => false) && (p.victim? x).any fun c => c.prio < p.entryPrio e && c.resident + 250 ≤ t.rtick
  (byRank (fun x => p.entryPrio x * 16384 + (16383 - (x.castid.getD 0).toNat)) ok).head?

/-- A launch with requests held at a full staging region (R266). -/
def Package.heldLaunch (p : Package) (key : LaunchKey) : Bool :=
  p.companies.any fun m => m.stageWait.any fun r => r.staged.any fun l => l.part = key.part && l.node = key.node && l.launchid = key.launchid

/-- The cast that R266 pre-empts for an entry: a held cast of its launch, highest CASTINDEX first. -/
def Package.stagingVictim (p : Package) (e : CastEntry) : Option CastEntry :=
  let held := fun x : CastEntry => p.companies.any fun m => m.stageWait.any fun r => r.staged = some x.key
  let ok := p.casts.filter fun x => x.id ≠ e.id && x.part = e.part && x.node = e.node && x.launchid = e.launchid && held x && (p.victim? x).isSome
  (byRank (fun x => 4294967295 - x.castindex.toNat) ok).head?

/-- The entry that R266 puts first: the lowest unreleased cast of a launch with held requests. -/
def Package.precedes (p : Package) (e : CastEntry) : Bool := p.isLowest e.key && p.heldLaunch e.key

/-! The pass (R331). -/

/-- An entry that waits for a core. -/
def CastEntry.waiting (e : CastEntry) : Bool :=
  match e.state with
  | .pending => true
  | .saved _ => true
  | _ => false

/-- The order of R331: the cast of R266 first, then pre-empted casts, then the classes from the highest. -/
def Package.passRank (p : Package) (e : CastEntry) : Nat :=
  if p.precedes e then 0 else (if e.ctx?.isSome then 1 else 5) + (3 - p.entryPrio e)

/-- Starving batches (R334). -/
def Package.starving (p : Package) (k : Nat) : List CastEntry := p.casts.filter fun e => e.part = k && e.state = .pending && 64 ≤ e.refused

/-- A starving batch keeps this entry out (R334). -/
def Package.keptOut (p : Package) (e : CastEntry) : Bool :=
  !p.precedes e && (p.starving e.part).any fun s => s.id ≠ e.id && p.entryPrio e ≤ p.entryPrio s
    && !(64 ≤ e.refused && e.state = .pending && p.entryPrio e = p.entryPrio s && e.id < s.id)

/-- After a refusal: R266's and R334's pre-emptions. -/
def Package.afterRefusal (t : Clock) (p : Package) (e : CastEntry) (cands : List Nat) : Package :=
  if p.precedes e then
    match p.stagingVictim e with
    | some v => p.preemptCast t v
    | none => p
  else if e.state = .pending && ((p.entry? e.id).any fun x => 64 ≤ x.refused) then
    match cands.head?.bind fun c => p.starveVictim t e c with
    | some v => p.preemptCast t v
    | none => p
  else p

/-- The first core of a list that passes every check. -/
def Package.firstFit (p : Package) (w : Want) (cores : List Nat) : Option (Nat × Spot) :=
  cores.findSome? fun c => match p.tryCore w c with
    | .ok s => some (c, s)
    | .error _ => none

/-- The reason of the first failing check at the first candidate core. -/
def Package.firstReason (p : Package) (w : Want) (cores : List Nat) : Option Nat :=
  cores.head?.bind fun c => match p.tryCore w c with
    | .ok _ => none
    | .error r => some r

/-- Place one entry, or refuse it. -/
def Package.passSingle (t : Clock) (p : Package) (e : CastEntry) : Package :=
  let cands := p.candidates e.part
  let w := p.want e
  match p.firstFit w cands with
  | some (c, s) => (p.withTicket e).place t e c s e.cogroup
  | none =>
    match p.firstReason w cands with
    | some r => (p.refuse t e r).afterRefusal t e cands
    | none => p

/-- The core of an entry that is resident or on its way. -/
def CastEntry.core? (e : CastEntry) : Option Nat :=
  match e.state with
  | .placed c _ => some c
  | .resident c _ => some c
  | _ => none

/-- An entry whose record is on its way. -/
def CastEntry.coming (e : CastEntry) : Bool :=
  match e.state with
  | .placed _ _ => true
  | _ => false

/-- Place the members of a co-group on cores in ascending order, each checked with the members before it counted (R45, R331); a member that stands on a core keeps it
when another one's record has come back (R330). COGROUP stays as it was first made (R46). -/
def Package.placeGroup (t : Clock) (size : Nat) : Package → Nat → List CastEntry → List Nat → Option Package
  | p, _, [], _ => some p
  | _, _, _ :: _, [] => none
  | p, rank, e :: l, c :: cores =>
    match e.core? with
    | some home => if c = home then Package.placeGroup t size p (rank + 1) l cores else Package.placeGroup t size p rank (e :: l) cores
    | none =>
      match p.tryCore (p.want e) c with
      | .ok s =>
        let g := if e.ctx?.isSome || e.cogroup ≠ 1 then e.cogroup else BitVec.ofNat 23 (size + 65536 * rank)
        Package.placeGroup t size ((p.withTicket e).place t e c s g) (rank + 1) l cores
      | .error _ => Package.placeGroup t size p rank (e :: l) cores

/-- The companies or stages in which a co-group may go, as lists of the partition's cores. -/
def Package.groupRegions (p : Package) (k cog : Nat) : List (List Nat) :=
  let cores := p.partCores k
  if cog = 1 then (List.range 32).map fun m => cores.filter fun c => companyOf c = m
  else (List.range 4).map fun s => cores.filter fun c => stageOf c = s

/-- A co-group can be placed (R45, R46): all its batches have formed and wait, or the launch can form no more; of one that has been placed before, every cast still
alive waits, or the rest run on and none of them is being pre-empted. -/
def Package.groupWhole (p : Package) (e : CastEntry) (g : List CastEntry) : Bool :=
  let n := p.node e.part e.node
  if e.ctx?.isSome || e.cogroup ≠ 1 then
    g.all (fun x => x.waiting) || g.all fun x => x.waiting || (p.victim? x).isSome || x.coming
  else (g.all fun x => x.state = .pending) && (g.length = n.cogn || (p.lastRecords e.part e.node && n.unformed = 0))

/-- Place a co-group, or refuse it. -/
def Package.passGroup (t : Clock) (p : Package) (e : CastEntry) (g : List CastEntry) : Package :=
  let cands := p.candidates e.part
  let w := p.want e
  match (p.groupRegions e.part (p.node e.part e.node).cog).findSome? fun r => p.placeGroup t g.length 0 (byRank (fun x : CastEntry => x.castindex.toNat) g) r with
  | some q => q
  | none =>
    let reason := if (p.firstFit w cands).isSome then some 8 else p.firstReason w cands
    match reason with
    | some r => ((g.filter CastEntry.waiting).foldl (fun (p : Package) x => p.refuse t x r) p).afterRefusal t e cands
    | none => p

/-- The progress of a pass: the package, the nodes held back by a refused batch, and the entries already considered. -/
structure PassState where
  pkg : Package
  held : List Nat
  seen : List Nat

/-- Consider one entry; from a faulted node nothing is launched (R38, R42). -/
def passEntry (t : Clock) (x : PassState) (id : Nat) : PassState :=
  let p := x.pkg
  match p.entry? id with
  | none => x
  | some e =>
    let fresh := e.state = .pending
    if !e.waiting || x.seen.contains id || (fresh && (x.held.contains e.node || (p.node e.part e.node).fault)) then x
    else if p.keptOut e || !p.ticketFor e then { x with held := if fresh then x.held ++ [e.node] else x.held }
    else
      let g := ((p.groupOf e).filter CastEntry.live)
      let q := if (p.node e.part e.node).cog = 0 then p.passSingle t e
        else if p.groupWhole e g then p.passGroup t e g
        else p
      let placed := (q.entry? id).any fun y => !y.waiting
      { pkg := q, held := if fresh && !placed then x.held ++ [e.node] else x.held, seen := x.seen ++ g.map CastEntry.id }

/-- The pass of one partition: its nodes are checked, then its entries considered in order. -/
def Package.passPart (t : Clock) (p : Package) (k : Nat) : Package :=
  let p := ((p.part k).nodes.map Prod.fst).foldl (fun (p : Package) node => p.checkEntry t k node) p
  if (p.planeOp.any fun o => o.out = k || o.in_ = k) || (p.part k).recovery.stopping || (p.part k).recovery.resumeAt.isSome then p
  else
    let order := byRank p.passRank (p.casts.filter fun e => e.part = k && e.waiting)
    ((order.map CastEntry.id).foldl (passEntry t) { pkg := p, held := [], seen := [] }).pkg

/-- PLACEMENT_PASS (R331): the valid partitions in turn. -/
def placementAt (t : Clock) (p : Package) : Package := p.validParts.foldl (fun p k => p.passPart t k) p

/-! Applying bind records (R329, R330, R341). -/

/-- The first record that has arrived at a core. -/
def Package.arrivedBind (t : Clock) (p : Package) (core : Nat) : Option Bind := (p.core core).binds.find? fun b => b.arrives < t.mcyc

/-- The record that dispatch applies now: a gating sequence that has not committed is aborted, a gated company is woken first. -/
def Package.takeBind (t : Clock) (p : Package) (core : Nat) : Package × Option Bind :=
  match p.arrivedBind t core with
  | none => (p, none)
  | some b =>
    let m := companyOf core
    let rest := fun p : Package => p.modCore core fun c => { c with binds := c.binds.erase b }
    match (p.company m).gating with
    | .running _ => (rest (p.modCompany m fun c => { c with gating := .running 0 }), some b)
    | .gating tick =>
      if b.arrives ≤ 64 * (tick + 1) then (rest (p.modCompany m fun c => { c with gating := .running 0 }), some b) else (p, none)
    | .gated =>
      let done_ := b.arrives + 3200
      ((p.modCompany m fun c => { c with gating := .waking done_ }).later (.mesh (done_ + 1)) (.companyWakeEnd m), none)
    | .waking _ => (p, none)

/-- The first resource of a record that is not free (R330), with the collective records and follow slots that a saved cast brings back. -/
def Package.taken (p : Package) (core : Nat) (b : Bind) (s : Option SavedCast) : Option Nat :=
  let x := (p.core core).ctx
  let rows := p.rowsTaken core
  if b.slots.any fun i => ((x.waves[i]?).join).isSome then some 1
  else if !unitsFree x.units b.regbase b.units then some 2
  else if (List.range b.rows).any fun i => !rowFree rows (b.sprow + i) then some 3
  else match s with
    | none => none
    | some c =>
      if (c.follow.any fun f => ((x.follow[f.1]?).join).isSome) || (x.colls.filter Option.isNone).length < c.colls.length then some 7 else none

/-- A record that is not applied goes back (R330): the cast is pending again. -/
def Package.returnBind (t : Clock) (p : Package) (b : Bind) (reason : Nat) : Package :=
  match p.entry? b.entry with
  | none => p
  | some e =>
    let back := fun e : CastEntry => match e.ctx? with
      | some c => { e with state := .saved c, demands := [] }
      | none => { e with state := .pending, demands := [], castid := none }
    ((p.reserve e.demands false).modEntry e.id back).refuseNode t e.part e.node reason

/-- The ownership ranges of a node (Table 19.3, R348). -/
def Node.ownRanges (n : Node) : List OwnRange :=
  (List.range 4).map fun i =>
    { valid := (n.field (96 + 16 * i + 15) 1).testBit 7, base := BitVec.ofNat 64 (n.field (96 + 16 * i) 8), len := n.field (96 + 16 * i + 8) 6 }

/-- The units of wave i of a record. -/
def Bind.unitsOf (b : Bind) (i : Nat) : List Nat :=
  let u := b.units / max b.slots.length 1
  (List.range u).map fun j => b.regbase + i * u + j

/-- The cells of a scratchpad outside a cast's rows. -/
def outsideRows (row rows : Nat) (a : Nat) : Bool := a < 4096 * row || 4096 * (row + rows) ≤ a

/-- Clear rows: every byte 0, every granule empty and plain (R205). -/
def CoreCtx.clearRows (x : CoreCtx) (row rows : Nat) : CoreCtx :=
  let out := fun g : Nat => outsideRows row rows (16 * g)
  { x with sp := x.sp.filter (fun c => outsideRows row rows c.1), fe := x.fe.filter out, tags := x.tags.filter (fun t => out t.1),
           spPoison := x.spPoison.filter out }

/-- The cast that a LAUNCH sets up (Table 4.2, R330, R348). -/
def Package.launchCast (t : Clock) (p : Package) (b : Bind) : Cast :=
  let n := p.node b.partition b.node
  { castid := b.castid, partition := b.partition, node := b.node, castindex := b.castindex, launchid := b.launchid,
    nwaves := BitVec.ofNat 7 b.slots.length, maxw := n.maxw, regcount := BitVec.ofNat 9 n.regs, spsize := BitVec.ofNat 20 n.spbytes, sprow := b.sprow,
    rows := b.rows, cogroup := b.cogroup, trappc := alignPc (BitVec.ofNat 64 n.trappc), prio := n.prio, own := n.ownRanges,
    codebase := BitVec.ofNat 64 n.codebase, codelen := BitVec.ofNat 64 n.codelen, resident := t.rtick, ordered := (p.part b.partition).ordCur }

/-- The records of a batch, read from the ring (R41, R330). -/
def Package.batchBytes (p : Package) (b : Bind) : List Byte :=
  let n := p.node b.partition b.node
  (List.range b.batchn).flatMap fun i => match b.recs.find? fun r => r.1 = i with
    | some r => (List.range n.recsz).map fun j => r.2.getD j 0
    | none => p.agentRead b.partition (n.slotVa (b.batchpos + i)) n.recsz

/-- The ring lies in host space and records of the batch are not here yet: those not yet asked for are read through the endpoint (R189). -/
def Package.ringReads (t : Clock) (p : Package) (core : Nat) (b : Bind) : Option Package :=
  let n := p.node b.partition b.node
  let left := (List.range b.batchn).filter fun i => !b.recs.any fun r => r.1 = i
  if !isHostVa (BitVec.ofNat 64 n.cqbase) || left.isEmpty then none
  else some (left.foldl (fun (p : Package) i =>
    if p.pcie.any fun x => x.2 = .cue core b.entry i then p
    else
      let (p, tag) := p.takeTag b.partition (.cue core b.entry i)
      p.later (.mesh (t.mcyc + p.hostWay core))
        (.egressTransaction 0 (.memRead (b.partition + 1) (p.part b.partition).ctx.pasid.toNat (n.slotVa (b.batchpos + i) % 2 ^ 47) n.recsz tag))) p)

/-- Write the batch from offset 0, every granule full (R41). -/
def CoreCtx.writeBatch (x : CoreCtx) (c : Cast) (l : List Byte) : CoreCtx :=
  (granulesOf 0 l.length).foldl (fun (x : CoreCtx) g => x.setFe c g true) (x.spWrite c (keyed 0 l))

/-- The pending ordered value takes effect at the first launch after the partition holds no live cast (R56). -/
def Package.settleOrder (p : Package) (k : Nat) : Package :=
  if p.liveCast k then p else p.modPart k fun q => { q with ordCur := q.ordPend }

/-- Set up a launched cast and its waves (R41, R330). -/
def Package.launchOn (t : Clock) (p : Package) (core : Nat) (b : Bind) : Package :=
  let p := p.settleOrder b.partition
  let n := p.node b.partition b.node
  let c := p.launchCast t b
  let bytes := p.batchBytes b
  let cslot := (findIdx? Option.isNone (p.core core).ctx.casts).getD 0
  let start := t.cycleOf (companyOf core) + b.rows + 1
  let entry := BitVec.ofNat 64 (n.codebase + n.entryoff)
  let sregs := [BitVec.ofNat 64 b.batchn, BitVec.ofNat 64 n.recsz, 0, BitVec.ofNat 64 b.node]
  let wave := fun i : Nat => newWave i cslot (roleOf (n.roleOf i)) (b.unitsOf i) n.regs entry sregs 0 start
  let p := p.modCtx core fun x =>
    let x := (x.clearRows b.sprow b.rows).writeBatch c bytes
    let waves := (b.slots.zipIdx).foldl (fun ws s => setAt ws s.1 (some (wave s.2))) x.waves
    let units := (b.slots.zipIdx).foldl (fun us s => (b.unitsOf s.2).foldl (fun us u => setAt us u (some cslot)) us) x.units
    { x with casts := setAt x.casts cslot (some c), waves := waves, units := units }
  let p := (p.l1Clear core).modEntry b.entry fun e => { e with state := .resident core cslot }
  let p := p.modNode b.partition b.node fun n => { n with cqhead := n.cqhead + BitVec.ofNat 32 b.batchn, cqform := n.cqform - BitVec.ofNat 7 b.batchn }
  p.checkNode t b.partition b.node

/-- The entry that a LAUNCH or RESUME record carries out, while it is still on its way. -/
def Package.coming (p : Package) (core : Nat) (b : Bind) : Option CastEntry :=
  (p.entry? b.entry).filter fun e => match e.state with
    | .placed c _ => c = core
    | _ => false

/-- The records that have arrived at a core are looked at again: one before them had to wait. -/
def Package.wakeBinds (t : Clock) (p : Package) (core : Nat) : Package :=
  ((p.core core).binds.filter fun b => b.arrives < t.mcyc).foldl (fun (p : Package) b => p.later .now (b.op.row core)) p

/-- LAUNCH (R330); a batch whose ring lies in host space is waited for. -/
def launchAt (core : Nat) (t : Clock) (p : Package) : Package :=
  if !((p.arrivedBind t core).any fun b => b.op = .launch) then p
  else match p.takeBind t core with
    | (p, none) => p
    | (p, some b) =>
      match p.coming core b with
      | none => p
      | some _ =>
        match p.taken core b none with
        | some reason => (p.returnBind t b reason).wakeBinds t core
        | none =>
          match p.ringReads t core b with
          | some q => q.modCore core fun c => { c with binds := b :: c.binds }
          | none => (p.launchOn t core b).wakeBinds t core

/-! Resumption (R89, R223, R266, R267, R293, R335). -/

/-- The slot of a wave of a resumed cast. -/
def slotOfWave (waves : List Wave) (slots : List Nat) (id : BitVec 6) : Nat :=
  (((waves.zip slots).find? fun x => x.1.waveId = id).map Prod.snd).getD 0

/-- Put a saved collective back into a free record; one that was running or ready is ready again. One that was paused on a page stays so, and asks for it from its new
core (R293). -/
def Package.restoreColl (t : Clock) (p : Package) (core cslot part : Nat) (c : Coll) : Package :=
  match findIdx? Option.isNone (p.core core).ctx.colls with
  | none => p
  | some i =>
    let pos := c.pos.map fun x : CopyPos => { x with paused := x.page.isSome, denied := false }
    let p := match c.pos.bind CopyPos.page with
      | some (va, write) => p.requestPage t core 64 (some i) part va write false
      | none => p
    (p.modCtx core fun x => { x with colls := setAt x.colls i (some { c with cast := cslot, pos := pos }) }) |> fun p =>
      if pos.isSome then (p.modCtx core fun x => { x with readyOrder := x.readyOrder ++ [(i, 0)] }).later .now (.collectiveStart core)
      else p.collReady core i

/-- A request withdrawn before pre-emption is the wave's first on resumption, and is performed before it issues a word (R266, R267). -/
def Package.resend (t : Clock) (p : Package) (r : Req) : Package :=
  let own : Bool := p.homeOf r.line / 8 = stageOf r.key.core
  (p.modWave r.key.core r.key.slot fun w => { w.sendCounted own with settling := true }).sendReq t 0 { r with own := own }

/-- The park record holds stores (R267). -/
def Park.stores (r : Park) : Bool := r.op.any fun o => (memKind o.instr).writes

/-- Issue again the FENCE of a wave that was abandoned (R267), and ask again for the page of a parked wave, whose stores are performed before it issues a word. -/
def Package.reviveWave (t : Clock) (p : Package) (core slot : Nat) (fence : Option Fence) : Package :=
  match p.wave? core slot with
  | none => p
  | some w =>
    let p := match fence with
      | some f => (p.startFence t core slot f.kind f.scope false f.word).modWave core slot fun w =>
          { w with fence := w.fence.map fun g => { g with attached := f.attached } }
      | none => p
    if w.park.isSome then (p.modWave core slot fun w => { w with settling := w.settling || w.park.any Park.stores }).later .now (.pageResolution core slot) else p

/-- Restore a saved cast. -/
def Package.resumeOn (t : Clock) (p : Package) (core : Nat) (b : Bind) (s : SavedCast) : Package :=
  let cslot := (findIdx? Option.isNone (p.core core).ctx.casts).getD 0
  let own := (p.node b.partition b.node).ownRanges
  let c := { s.cast with sprow := b.sprow, rows := b.rows, own := own, cchg := 0, stopping := none, resident := t.rtick }
  let start := t.cycleOf (companyOf core) + 1
  let key := fun id : BitVec 6 => ({ core := core, slot := slotOfWave s.waves b.slots id, castid := c.castid, waveId := id } : WaveKey)
  let rekey := fun f : Follow => { f with cmd := { f.cmd with key := key f.cmd.key.waveId } }
  let place := fun w : Wave × Nat => { w.1 with cast := cslot, regbase := b.unitsOf w.2, startAt := start }
  let p := p.modCtx core fun x =>
    let x := x.clearRows b.sprow b.rows
    let cells := s.sp.map fun h => (4096 * b.sprow + h.1, h.2)
    let waves := ((s.waves.zipIdx).zip b.slots).foldl (fun ws y => setAt ws y.2 (some (place y.1))) x.waves
    let units := (b.slots.zipIdx).foldl (fun us q => (b.unitsOf q.2).foldl (fun us u => setAt us u (some cslot)) us) x.units
    let fe := s.fe.foldl (fun l g => setInsert l (256 * b.sprow + g)) x.fe
    let tags := s.tags.foldl (fun l g => tabSet l (256 * b.sprow + g.1) g.2) x.tags
    let poison := s.poison.foldl (fun l g => setInsert l (256 * b.sprow + g)) x.spPoison
    let follow := s.follow.foldl (fun l f => setAt l f.1 (some (rekey f.2))) x.follow
    { x with sp := Memory.writePairs x.sp cells, fe := fe, tags := tags, spPoison := poison, follow := follow, casts := setAt x.casts cslot (some c),
             waves := waves, units := units }
  let p := (p.l1Clear core).modEntry b.entry fun e => { e with state := .resident core cslot, ctxpa := 0 }
  let p := s.colls.foldl (fun (p : Package) x => p.restoreColl t core cslot c.partition x) p
  let p := s.deferred.foldl (fun (p : Package) r => p.resend t { r with key := key r.key.waveId }) p
  b.slots.foldl (fun (p : Package) i => p.reviveWave t core i
    (((p.wave? core i).bind fun w => s.fences.find? fun f => f.1 = w.waveId).map Prod.snd)) p

/-- RESUME (R330). -/
def resumeAt (core : Nat) (t : Clock) (p : Package) : Package :=
  if !((p.arrivedBind t core).any fun b => b.op = .resume) then p
  else match p.takeBind t core with
    | (p, none) => p
    | (p, some b) =>
      match (p.coming core b).bind CastEntry.ctx? with
      | none => p
      | some s =>
        match p.taken core b (some s) with
        | some reason => p.returnBind t b reason
        | none => p.resumeOn t core b s

/-! Pre-emption (R61, R335). -/

/-- The cast slot of a CASTID on a core. -/
def Package.castSlot (p : Package) (core : Nat) (id : BitVec 14) : Option Nat :=
  findIdx? (fun c : Option Cast => c.any fun x => x.castid = id) (p.core core).ctx.casts

/-- PREEMPT: the cast's issue stops at the first point that R335 allows; CONTEXT_SAVE is that point. `Cast.stopping` is 0 from the record to that point
and 1 from there until the array and the engine have done; 2 and 3 say the same of a stop for a plane swap or a recovery point. -/
def preemptAt (core : Nat) (t : Clock) (p : Package) : Package :=
  if !((p.arrivedBind t core).any fun b => b.op = .preempt) then p
  else match p.takeBind t core with
    | (p, none) => p
    | (p, some b) =>
      match p.castSlot core b.castid with
      | none => p
      | some i => p.modCast core i fun c => { c with stopping := if c.stopping = some 1 then some 1 else some 0 }

/-- The requests of a wave that a full staging region holds (R266). -/
def Package.heldOf (p : Package) (key : WaveKey) : List Req := p.companies.flatMap fun m => m.stageWait.filter fun r => r.key = key

/-- A party's wait that must end before its wave may leave (R147, R306, R335, R61). -/
def BlockOp.holdsSave : BlockOp → Bool
  | .xchg _ m => m.isSome
  | .cueemit _ _ _ _ => true
  | .attach _ wait => !wait
  | _ => false

/-- The conditions of R335 on one wave, but for latch windows. -/
def Package.waveQuiet (p : Package) (core slot : Nat) : Bool :=
  match p.wave? core slot with
  | none => true
  | some w =>
    w.outst.toNat + w.outstMore.length ≤ (p.heldOf (p.keyOf core slot)).length && w.pending.isEmpty
      && w.leaders.all fun l => !((w.blockedAt l).any fun b => b.op.holdsSave)

/-- The array and the engine have nothing of the cast under way (R186, R293): no command at an X pipe or in the array, no follow slot that has fired, no copy with requests
or landings to come. -/
def Package.enginesQuiet (t : Clock) (p : Package) (core cslot : Nat) : Bool :=
  let k := p.core core
  match p.cast? core cslot with
  | none => true
  | some c =>
    (k.arrayQ ++ k.xq.flatten).all (fun m => m.key.castid ≠ c.castid)
      && (k.cq.all fun m : Option CopyCmd => m.all fun m => m.key.castid ≠ c.castid)
      && (k.ctx.follow.all fun f : Option Follow => f.all fun f => !f.fired || f.cmd.key.castid ≠ c.castid)
      && k.ctx.colls.all fun x : Option Coll => x.all fun q =>
        q.cast ≠ cslot || (!q.finishing && q.pos.all fun y => !y.hostWait && y.toLand.isEmpty && decide (y.ackAt ≤ t.mcyc))

/-- A wait that travels with its wave: an arrival that is held (R220). -/
def Blocked.kept (b : Blocked) : Bool :=
  match b.op with
  | .arrive _ _ _ => true
  | _ => false

/-- Abandon the blocked waits of a wave (R223): each party stands at its word again. A held arrival is kept with its HELD record (R220). -/
def Package.abandonWaits (p : Package) (core slot : Nat) : Package :=
  match p.wave? core slot with
  | none => p
  | some w =>
    let key := p.keyOf core slot
    let p := w.leaders.foldl (fun (p : Package) l => (p.abandon core slot l).forgetWait key l) p
    p.modWave core slot fun w => ({ w with slices := w.slices.map fun s => { s with blocked := s.blocked.filter Blocked.kept } } : Wave).clearLatches

/-- Issue of a cast stops: held requests are withdrawn, waits are abandoned, markers dropped. Answers the withdrawn requests. -/
def Package.stopCast (p : Package) (core cslot : Nat) : Package × List Req :=
  ((p.core core).ctx.slotsOf cslot).foldl (fun (x : Package × List Req) slot =>
    let key := x.1.keyOf core slot
    let held := x.1.heldOf key
    let p := { x.1 with companies := x.1.companies.map fun m : Company => { m with stageWait := m.stageWait.filter fun r => r.key ≠ key } }
    let own := (held.filter fun r => r.own).length
    let p := p.modWave core slot fun w => { w with outst := w.outst - BitVec.ofNat 12 (held.length - w.outstMore.length), outl := w.outl - BitVec.ofNat 12 (own - (w.outstMore.filter id).length), outstMore := [] }
    ((p.abandonWaits core slot).dropMarkers core slot, x.2 ++ held)) (p, [])

/-- The saved context (Table 18.7). -/
def CoreCtx.savedOf (x : CoreCtx) (cslot : Nat) (c : Cast) (deferred : List Req) : SavedCast :=
  let mine := fun g : Nat => !outsideRows c.sprow c.rows (16 * g)
  let waves := byRank (fun w : Wave => w.waveId.toNat) ((x.slotsOf cslot).filterMap fun i => (x.waves[i]?).join)
  { cast := c, waves := waves.map fun w => { w with fence := none },
    fences := waves.filterMap fun w : Wave => w.fence.map fun f => (w.waveId, f),
    sp := (x.sp.filter fun h => !outsideRows c.sprow c.rows h.1).map (fun h => (h.1 - 4096 * c.sprow, h.2)),
    fe := (x.fe.filter mine).map (· - 256 * c.sprow),
    tags := (x.tags.filter fun t => mine t.1).map fun t => (t.1 - 256 * c.sprow, t.2),
    poison := (x.spPoison.filter mine).map (· - 256 * c.sprow),
    colls := x.colls.filterMap fun q : Option Coll => q.filter fun k => k.cast = cslot,
    follow := (x.follow.zipIdx).filterMap fun f : Option Follow × Nat => (f.1.filter fun y => y.cmd.key.castid = c.castid).map fun y => (f.2, y),
    deferred := deferred }

/-- Take a saved cast off its core: slots, units and rows are free, its reservations and follow slots go. -/
def Package.leaveCore (p : Package) (core cslot : Nat) : Package :=
  let slots := (p.core core).ctx.slotsOf cslot
  let colls := (p.core core).ctx.colls
  let p := (List.range 16).foldl (fun (p : Package) i => if ((colls[i]?).join).any fun q => q.cast = cslot then p.collFree core i else p) p
  (slots.foldl (fun (p : Package) i => p.removeWave core i) p).modCtx core fun x => { x with casts := setAt x.casts cslot none }

/-- Save a stopped cast: the context goes to the prompter, which lists the cast after those pre-empted before. -/
def Package.saveCast (p : Package) (core cslot : Nat) (deferred : List Req) : Package :=
  match p.cast? core cslot with
  | none => p
  | some c =>
    let s := (p.core core).ctx.savedOf cslot { c with stopping := none } deferred
    match p.casts.find? fun e => e.state = .resident core cslot with
    | none => p
    | some e =>
      let p := (p.reserve e.demands false).leaveCore core cslot
      let e' := { e with state := .saved s, demands := [], refused := 0 }
      { p with casts := p.casts.filter (fun x => x.id ≠ e.id) ++ [e'] }

/-! Kills (R53, R222, R317, R330). -/

/-- KILL: the record kills the cast. -/
def killAt (core : Nat) (t : Clock) (p : Package) : Package :=
  if !((p.arrivedBind t core).any fun b => b.op = .kill) then p
  else match p.takeBind t core with
    | (p, none) => p
    | (p, some b) =>
      match p.castSlot core b.castid with
      | none => p
      | some i => p.killCast core i

/-- A cast that is not on a core is killed: its collectives end with status ABORTED, its refresh cost goes to its node (R290, R363). -/
def Package.killAway (t : Clock) (p : Package) (e : CastEntry) : Package :=
  let p := match e.ctx? with
    | some s =>
      let p := s.colls.foldl (fun (p : Package) c => p.copyDone 0 e.part c 1) p
      p.modNode e.part e.node fun n => { n with noderc := n.noderc + s.cast.refrcost }
    | none =>
      p.modNode e.part e.node fun n => { n with cqhead := n.cqhead + BitVec.ofNat 32 e.batchn, cqform := n.cqform - BitVec.ofNat 7 e.batchn }
  let p := (p.reserve e.demands false).modEntry e.id fun e => { e with state := .gone true, castid := none, demands := [] }
  p.checkNode t e.part e.node

/-- A context without a cast: its slots, units, rows' marks, collectives and follow slots are free. -/
def CoreCtx.without (x : CoreCtx) (cslot : Nat) (c : Cast) : CoreCtx :=
  let slots := x.slotsOf cslot
  let keep := fun q : Coll => q.cast ≠ cslot
  let mine := fun i : Nat => ((x.colls[i]?).join).any fun q => q.cast = cslot
  let out := fun g : Nat => outsideRows c.sprow c.rows (16 * g)
  { x with waves := (x.waves.zipIdx).map (fun w : Option Wave × Nat => if slots.contains w.2 then none else w.1),
           casts := setAt x.casts cslot none,
           units := x.units.map (fun u : Option Nat => if u = some cslot then none else u),
           colls := x.colls.map (Option.filter keep), running := x.running.map (Option.filter fun i => !mine i),
           readyOrder := x.readyOrder.filter (fun r => !mine r.1),
           follow := x.follow.map (Option.filter fun f : Follow => f.cmd.key.castid ≠ c.castid),
           fe := x.fe.filter out, tags := x.tags.filter (fun g => out g.1), deferred := x.deferred.filter (fun r => r.key.castid ≠ c.castid) }

/-- A cast of a swapped-out partition is killed in the planes that hold it (R222, R274, R290). -/
def Package.killInPlane (t : Clock) (p : Package) (e : CastEntry) (core cslot : Nat) : Package :=
  match (p.core core).plane with
  | .context k x =>
    match (x.casts[cslot]?).join with
    | none => p
    | some c =>
      let p := ((x.colls.filterMap id).filter fun q => q.cast = cslot).foldl (fun (p : Package) q => p.copyDone core e.part q 1) p
      let p := p.modNode e.part e.node fun n => { n with noderc := n.noderc + c.refrcost }
      let p := (p.reserve e.demands false).modEntry e.id fun e => { e with state := .gone true, castid := none, demands := [] }
      (p.modCore core fun y => { y with plane := .context k (x.without cslot c) }).checkNode t e.part e.node
  | _ => p

/-- Kill a cast wherever it is: on a core by a KILL record, in the planes of a swapped-out partition where it stands. -/
def Package.killEntry (t : Clock) (p : Package) (e : CastEntry) : Package :=
  match e.state with
  | .resident core _ => p.sendBind t core (e.bind .kill noSpot)
  | .placed core _ => p.sendBind t core (e.bind .kill noSpot)
  | .saved _ => p.killAway t e
  | .pending => p.killAway t e
  | .swappedOut core cslot => p.killInPlane t e core cslot
  | .gone _ => p

/-- HOST_KILL (R330, Table 17.2b). -/
def hostKillAt (part castid : Nat) (t : Clock) (p : Package) : Package :=
  match p.casts.find? fun e => e.part = part && e.castid = some (BitVec.ofNat 14 castid) && e.live with
  | none => p
  | some e => p.killEntry t e

/-- FUNCTION_LEVEL_RESET (Table 17.1): every cast of the partition is killed, its host-message queue and its cue queues empty. -/
def functionResetAt (part : Nat) (t : Clock) (p : Package) : Package :=
  let p := (p.casts.filter fun e => e.part = part && e.live).foldl (fun (p : Package) e => p.killEntry t e) p
  let empty := fun n : Node => { n with cqhead := n.cqtail, cqform := 0 }
  let p := p.modPart part fun q =>
    { q with hmqTail := q.hmqHead, hmqBuf := [], nodes := q.nodes.map fun x : Nat × Node => (x.1, empty x.2) }
  ((p.part part).nodes.map Prod.fst).foldl (fun (p : Package) node => p.checkNode t part node) p

/-! Clock gating (R341). -/

/-- A company holds no resident cast and no record is in flight to it. -/
def Package.companyIdle (p : Package) (m : Nat) : Bool :=
  ((p.cores.drop (8 * m)).take 8).all fun c => c.binds.isEmpty && c.ctx.casts.all Option.isNone

/-- COMPANY_GATING: the sequence starts at a tick boundary, and commits at mesh cycle 64 (t + 1) unless a record has come. -/
def companyGatingAt (m : Nat) (t : Clock) (p : Package) : Package :=
  match (p.company m).gating with
  | .running n =>
    if n < 1250 || !p.companyIdle m then p
    else (p.modCompany m fun c => { c with gating := .gating t.rtick }).later (.mesh (64 * (t.rtick + 1))) (.companyGating m)
  | .gating tick =>
    let came := ((p.cores.drop (8 * m)).take 8).any fun c => c.binds.any fun b => b.arrives ≤ 64 * (tick + 1)
    if t.mcyc < 64 * (tick + 1) then p
    else if came then p.modCompany m fun c => { c with gating := .running 0 }
    else p.modCompany m fun c => { c with gating := .gated, level := 0, vtarget := 50, vnow := 50, seq := none }
  | _ => p

/-- COMPANY_WAKE_END: the wake ends and the waiting records are applied in arrival order. -/
def companyWakeAt (m : Nat) (t : Clock) (p : Package) : Package :=
  match (p.company m).gating with
  | .waking done_ =>
    if t.mcyc < done_ then p
    else
      let p := p.modCompany m fun c => { c with gating := .running 0 }
      let waiting := (List.range 8).flatMap fun i => ((p.core (8 * m + i)).binds.filter fun b => b.arrives < t.mcyc).map fun b => (8 * m + i, b)
      (byRank (fun x : Nat × Bind => x.2.arrives) waiting).foldl (fun (p : Package) x => p.later .now (x.2.op.row x.1)) p
  | _ => p

noncomputable section

/-- The conditions of R335 on a cast. -/
def Package.castSafe (p : Package) (core cslot : Nat) : Bool :=
  ((p.core core).ctx.slotsOf cslot).all (fun i => p.waveQuiet core i && ((p.wave? core i).map Wave.leaders).all fun l => l.all fun x => !p.midWindow core i x)
    && (p.core core).barrier.all fun b => match b with
      | .remove c _ _ _ => c ≠ cslot
      | _ => true

/-- CONTEXT_SAVE (R335): issue stops once the cast is safe; when the array and the engine have done, the context is saved and the core is free. -/
def contextSaveAt (core cslot : Nat) (t : Clock) (p : Package) : Package :=
  match (p.cast? core cslot).bind Cast.stopping with
  | none => p
  | some 0 =>
    if !p.castSafe core cslot then p
    else
      let (p, held) := p.stopCast core cslot
      if p.enginesQuiet t core cslot then p.saveCast core cslot held
      else (held.foldl (fun (p : Package) r => p.resend t r) p).modCast core cslot fun c => { c with stopping := some 1 }
  | some _ =>
    if !p.enginesQuiet t core cslot || !p.castSafe core cslot then p
    else
      let (p, held) := p.stopCast core cslot
      p.saveCast core cslot held

def execCONTEXT_SAVE (core cslot : Nat) (s : State) : Host.Outcome State Fault Refusal := s.event (contextSaveAt core cslot)

end

def execPLACEMENT_PASS (s : State) : Host.Outcome State Fault Refusal := s.event placementAt
def execLAUNCH (core : Nat) (s : State) : Host.Outcome State Fault Refusal := s.event (launchAt core)
def execRESUME (core : Nat) (s : State) : Host.Outcome State Fault Refusal := s.event (resumeAt core)
def execPREEMPT (core : Nat) (s : State) : Host.Outcome State Fault Refusal := s.event (preemptAt core)
def execKILL (core : Nat) (s : State) : Host.Outcome State Fault Refusal := s.event (killAt core)
def execHOST_KILL (part castid : Nat) (s : State) : Host.Outcome State Fault Refusal := s.event (hostKillAt part castid)
def execFUNCTION_LEVEL_RESET (part : Nat) (s : State) : Host.Outcome State Fault Refusal := s.event (functionResetAt part)
def execCOMPANY_GATING (company : Nat) (s : State) : Host.Outcome State Fault Refusal := s.event (companyGatingAt company)
def execCOMPANY_WAKE_END (company : Nat) (s : State) : Host.Outcome State Fault Refusal := s.event (companyWakeAt company)

end Sys2Proof.Machine
end

