-- ==== Sys2Proof/Machine/Power.lean ====
section
/-! DEFINITION. Charge, power and refresh (R268, R269, R333, R352 to R364, R411): the epoch start with its snapshot, refresh charge, class decisions, bids and
clearing, the level sequences, the power cap, and the telemetry samples. -/

namespace Sys2Proof.Machine

/-- Reference ticks of an epoch (R269, R352). -/
def epochTicks : Nat := 250

/-- cost(n) in tokens (R357). -/
def levelCost (n : Nat) : Nat := 20 + 2 * n + n * n / 16

/-- V(n) less 500 mV, as VTARGET and VNOW hold it (R357, Table 20.3). -/
def levelVolt (n : Nat) : Nat := 10 * n

/-- The DLDO's floor of 550 mV in the same form. -/
def voltFloor : Nat := 50

/-! Level sequences (R358). -/

/-- Set VTARGET for a level: a target below the floor is replaced and counted (R357). -/
def Package.setTarget (p : Package) (m level : Nat) : Package :=
  let p := p.modCompany m fun c => { c with vtarget := max (levelVolt level) voltFloor }
  if levelVolt level < voltFloor then p.count (Config.errDENY + m) Config.max16 else p

/-- VNOW moves 10 mV toward VTARGET. -/
def Company.stepVolt (c : Company) : Company :=
  if c.vnow < c.vtarget then { c with vnow := min (c.vnow + 10) c.vtarget }
  else { c with vnow := max (c.vnow - 10) c.vtarget }

/-- The level in force at a tick of a sequence (R358). -/
def LevelSeq.levelAt (q : LevelSeq) (t : Nat) : Nat :=
  if q.source < q.target then
    let k := q.target - q.source
    min q.target (q.source + (t + 1 - (q.start + k)))
  else max q.target (q.source - (t + 1 - q.start))

/-- The sequence lowers the level, and this is the tick at which it ends and VTARGET follows. -/
def LevelSeq.lowered (q : LevelSeq) (t : Nat) : Bool := q.target < q.source && t + 1 = q.start + (q.source - q.target)

/-- The tick at which a raise sets VTARGET. -/
def LevelSeq.raising (q : LevelSeq) (t : Nat) : Bool := q.source < q.target && t = q.start

/-- A company with a step to make at a tick: a sequence that has started, or VNOW not at VTARGET. -/
def Company.stepDue (c : Company) (t : Nat) : Bool :=
  !c.gatedNow && ((c.seq.any fun q => q.start ≤ t) || c.vnow ≠ c.vtarget)

/-- The sequence is over once its level is reached and VTARGET is set. -/
def LevelSeq.over (q : LevelSeq) (t : Nat) : Bool := q.levelAt t = q.target

/-- LEVEL_STEP (R358): one tick of a company's sequence. -/
def levelStepAt (m : Nat) (t : Clock) (p : Package) : Package :=
  let c := p.company m
  if !c.stepDue t.rtick then p
  else match c.seq with
    | none => p.modCompany m Company.stepVolt
    | some q =>
      if t.rtick < q.start then p.modCompany m Company.stepVolt
      else
        let p := if q.raising t.rtick then p.setTarget m q.target else p
        let p := p.modCompany m fun c => { c.stepVolt with level := q.levelAt t.rtick, seq := if q.over t.rtick then none else some q }
        if q.lowered t.rtick then p.setTarget m q.target else p

/-! The epoch start (R352). -/

/-- The resident casts of a core: cast slot and cast. -/
def Core.residents (k : Core) : List (Nat × Cast) := (k.ctx.casts.zipIdx).filterMap fun x : Option Cast × Nat => x.1.map fun c => (x.2, c)

/-- EXTRA in bytes by class (R362). -/
def refreshExtra (cls : Nat) : Nat := [0, 32000, 96000, 224000, 480000].getD cls 480000

/-- The refresh charge of a cast (R362). -/
def refreshShare (cls cchg kchg : Nat) : Nat := if kchg = 0 then 0 else refreshExtra cls * cchg / kchg

/-- The casts of a core pay for the refresh of its vault, and the core's and the casts' charges restart at 0 (R352, R362); a MOVC of the cycle that begins here still
reads what the prompter replaces (R88). -/
def Core.chargeRefresh (k : Core) (tick cls : Nat) : Core :=
  let pay := fun c : Cast =>
    { c with before := { tick := tick, growok := c.growok, shrinkreq := c.shrinkreq, refrcost := c.refrcost },
             refrcost := c.refrcost + BitVec.ofNat 64 (refreshShare cls c.cchg k.kchg), cchg := 0 }
  { k with kchg := 0, ctx := { k.ctx with casts := k.ctx.casts.map (Option.map pay) } }

/-- Step 2 of R352. -/
def Package.chargeAll (p : Package) (tick : Nat) : Package :=
  { p with cores := (p.cores.zipIdx).map fun x : Core × Nat => x.1.chargeRefresh tick (p.vault x.2).vclass }

/-- The lower bounds of the classes in 0.25 °C (Table 14.1). -/
def classBound (c : Nat) : Nat := [0, 260, 320, 360, 400].getD c 400

/-- The highest class whose lower bound a temperature reaches. -/
def classOf (temp : Nat) : Nat := ((List.range 5).filter fun c => classBound c ≤ temp).length - 1

/-- The class of the next epoch for a vault that was stamped (R269): rise, or fall by one when 3 °C below the bound. -/
def nextClass (cls temp : Nat) : Nat :=
  if cls < classOf temp then classOf temp else if temp + 12 ≤ classBound cls then cls - 1 else cls

/-- The class decision of a vault (R269): without a stamp, class 4 and MISSTEMP. -/
def Package.decideClass (p : Package) (v : Nat) : Package :=
  let x := p.vault v
  let p := p.modVault v fun x => { x with vclass := if x.stamped then nextClass x.vclass x.vtemp else 4, stamped := false, refpos := 0 }
  if x.stamped then p else p.count (Config.errMISSTEMP + v) Config.max16

/-- The vaults of the stages present. -/
def Package.presentVaults (p : Package) : List Nat := (List.range 256).filter fun v => p.present (v / 64)

/-! Bids and the market (R360, R361). -/

/-- CAP[c] (R360). -/
def levelCap (c : Nat) : Nat := [36, 44, 50, 56].getD c 56

/-- eff(REQ) (R360). -/
def effReq (q : BitVec 8) : Nat := if q = 255 then 36 else q.toNat

/-- The stall ratio (R355). -/
def stallRatio (stallc actc : Nat) : Nat := if actc = 0 then 0 else 1024 * stallc / actc

/-- W (R360): the charges of the classes, weighted. -/
def weightedCharge (l : List Nat) : Nat := ((l.zipIdx).map fun x : Nat × Nat => (x.2 + 1) * x.1).foldl (· + ·) 0

/-- BIDVT from the snapshot of epoch e − 1 (R360). -/
def bidValue (charge : List Nat) (actc stallc lvl : Nat) : Nat :=
  let v := (weightedCharge charge / 256) * (1024 - stallRatio stallc actc) / 1024
  if lvl = 0 then 0 else min Config.max32 (v / (levelCost lvl - levelCost 0))

/-- The casts resident on a company. -/
def Package.companyCasts (p : Package) (m : Nat) : List Cast := ((p.cores.drop (8 * m)).take 8).flatMap fun k => k.residents.map Prod.snd

/-- BIDLVL of a company: 0 without a resident cast or gated (R360). -/
def Package.bidLevel (p : Package) (m : Nat) : Nat :=
  if (p.company m).gatedNow then 0
  else (p.companyCasts m).foldl (fun n c => max n (min (effReq c.req) (levelCap c.prio))) 0

/-- Step 1 and the bid of a company: the counters are read and restart at 0 (R352, R360). -/
def Package.bid (p : Package) (m : Nat) : Package :=
  let l := p.bidLevel m
  p.modCompany m fun c => { c with bidlvl := l, bidvt := bidValue c.charge c.actc c.stallc l, charge := [0, 0, 0, 0], actc := 0, stallc := 0 }

/-- The companies in the order of clearing: BIDVT descending, then company number (R361). -/
def Package.clearOrder (p : Package) : List Nat := byRank (fun m => Config.max32 - (p.company m).bidvt) p.presentCompanies

/-- The highest level of at most `lvl` whose cost above cost(0) fits (R361); none fits below level 0. -/
def affordable (left : Int) : Nat → Nat
  | 0 => 0
  | n + 1 => if ((levelCost (n + 1) : Int) - (levelCost 0 : Int)) ≤ max left 0 then n + 1 else affordable left n

/-- The tokens left before the loop (R361). -/
def Package.tokensLeft (p : Package) : Int :=
  let ms := p.presentCompanies
  let fixed : Int := 400 + 100 * (p.presentStages.length : Int)
  let pred : Int := fixed + (ms.map fun m => (levelCost (p.company m).grant : Int)).foldl (· + ·) 0
  let err : Int := max 0 (3 * (p.current : Int) - pred)
  (p.win.powercap : Int) - fixed - err - (ms.length : Int) * (levelCost 0 : Int)

/-- The grants of the clearing, company by company. -/
def Package.clearing (p : Package) : Int → List Nat → List (Nat × Nat)
  | _, [] => []
  | left, m :: l =>
    let g := affordable left (p.company m).bidlvl
    (m, g) :: Package.clearing p (left - ((levelCost g : Int) - (levelCost 0 : Int))) l

/-- The partition of a company, if it re-executes or keeps a recovery record (R385, R386). -/
def Package.recovOf (p : Package) (m : Nat) : Option Nat :=
  (List.range 8).find? fun k => (p.part k).valid && (p.part k).recov && (p.part k).companies.getLsbD m

/-- A recorded value of an epoch, while the partition re-executes. -/
def Package.recorded (p : Package) (k : Nat) (l : List (Nat × Nat × Nat)) (epoch x : Nat) : Option Nat :=
  if (p.part k).recovery.errorOffset.isSome then (l.find? fun r => r.1 = epoch && r.2.1 = x).map fun r => r.2.2 else none

/-- Take a GRANT: a recorded one while the partition re-executes, else recorded where the partition has recovery points (R385, R386). -/
def Package.takeGrant (t : Clock) (p : Package) (m g : Nat) : Package :=
  let e := t.rtick / epochTicks
  match p.recovOf m with
  | none => p.modCompany m fun c => { c with grant := g }
  | some k =>
    match p.recorded k (p.part k).recovery.grants e m with
    | some x => p.modCompany m fun c => { c with grant := x }
    | none => (p.modCompany m fun c => { c with grant := g }).modPart k fun q =>
        { q with recovery := { q.recovery with grants := q.recovery.grants ++ [(e, m, g)] } }

/-- The same for the class of a vault. -/
def Package.takeClass (t : Clock) (p : Package) (v : Nat) : Package :=
  let e := t.rtick / epochTicks
  match p.recovOf (companyOf v) with
  | none => p
  | some k =>
    match p.recorded k (p.part k).recovery.classes e v with
    | some x => p.modVault v fun c => { c with vclass := x }
    | none => p.modPart k fun q => { q with recovery := { q.recovery with classes := q.recovery.classes ++ [(e, v, (p.vault v).vclass)] } }

/-- Start the sequence from a company's level to its grant at tick 250e + 1 (R358); a gated company has none. -/
def Company.startSeq (c : Company) (t : Nat) : Company :=
  if c.level = c.grant || c.gatedNow then c else { c with seq := some { source := c.level, target := c.grant, start := t + 1 } }

/-! GROWOK and SHRINKREQ (R53, R333). -/

/-- Ten times what a vault's reservations lie above 0.9 of AVAIL. -/
def Package.excess (p : Package) (v : Nat) : Nat := 10 * (p.vault v).resv - 9 * vaultAvail (p.vault v).vclass

/-- SHRINKREQ for a cast with a demand on a vault. -/
def Package.shrinkFor (p : Package) (nwaves v : Nat) : Nat :=
  let e := p.excess v
  let d := 10 * (p.vault v).resv
  if e = 0 then 0 else min (nwaves - 1) ((nwaves * e + d - 1) / d)

/-- The waves that could attach on a core now: free slots, and runs of free units. -/
def CoreCtx.roomFor (x : CoreCtx) (regs : Nat) : Nat :=
  ((List.range 65).filter fun n => n ≤ (x.waves.filter Option.isNone).length && (freeRuns x.units (regs / 8) 0 n).isSome).length - 1

/-- GROWOK and SHRINKREQ of a resident cast. -/
def Package.growShrink (p : Package) (core cslot : Nat) (demands : List (Nat × Nat)) : Package :=
  let x := (p.core core).ctx
  p.modCast core cslot fun c =>
    let grow := min (c.maxw - c.nwaves.toNat) (x.roomFor c.regcount.toNat)
    let shrink := demands.foldl (fun n d => max n (p.shrinkFor c.nwaves.toNat d.1)) 0
    { c with growok := BitVec.ofNat 7 grow, shrinkreq := BitVec.ofNat 7 shrink }

/-- Those of every resident cast. -/
def Package.growShrinkAll (p : Package) : Package :=
  p.casts.foldl (fun (p : Package) e => match e.state with
    | .resident core cslot => p.growShrink core cslot e.demands
    | _ => p) p

/-- EPOCH_START (R352): nothing at RTICK 0; else the refresh charge, the classes, the bids, the clearing, the sequences, and the prompter's words. -/
def epochStartAt (t : Clock) (p : Package) : Package :=
  if t.rtick = 0 || t.rtick % epochTicks ≠ 0 then p
  else
    let p := p.chargeAll t.rtick
    let p := p.presentVaults.foldl (fun (p : Package) v => (p.decideClass v).takeClass t v) p
    let p := p.presentCompanies.foldl Package.bid p
    let p := (p.clearing p.tokensLeft p.clearOrder).foldl (fun (p : Package) g => p.takeGrant t g.1 g.2) p
    let p := p.presentCompanies.foldl (fun (p : Package) m => p.modCompany m fun c => c.startSeq t.rtick) p
    p.growShrinkAll

/-! The cap and the samples. -/

/-- POWERCAP_WRITE (R4): clamped to 1,600 tokens for each stage present. -/
def powercapAt (v : Quad) (p : Package) : Package :=
  { p with win := { p.win with powercap := min v.toNat (1600 * p.presentStages.length) } }

/-- VAULT_TEMPERATURE_SAMPLE (R269, R411). -/
def vaultTempAt (v temp : Nat) (p : Package) : Package := p.modVault v fun x => { x with vtemp := min temp 1023, stamped := true }

/-- CORE_TEMPERATURE_SAMPLE (R411). -/
def coreTempAt (core temp : Nat) (p : Package) : Package := p.modVault core fun x => { x with coreTemp := min temp 1023 }

def execEPOCH_START (s : State) : Host.Outcome State Fault Refusal := s.event epochStartAt
def execLEVEL_STEP (company : Nat) (s : State) : Host.Outcome State Fault Refusal := s.event (levelStepAt company)
def execPOWERCAP_WRITE (v : Quad) (s : State) : Host.Outcome State Fault Refusal := s.event fun _ => powercapAt v
def execVAULT_TEMPERATURE_SAMPLE (vault temp : Nat) (s : State) : Host.Outcome State Fault Refusal := s.event fun _ => vaultTempAt vault temp
def execCORE_TEMPERATURE_SAMPLE (core temp : Nat) (s : State) : Host.Outcome State Fault Refusal := s.event fun _ => coreTempAt core temp
def execPACKAGE_CURRENT_SAMPLE (x : Nat) (s : State) : Host.Outcome State Fault Refusal := s.event fun _ p => { p with current := x }
def execCOMPANY_VOLTAGE_SAMPLE (company mv : Nat) (s : State) : Host.Outcome State Fault Refusal :=
  s.event fun _ p => p.modCompany company fun c => { c with voltage := mv }

end Sys2Proof.Machine
end

