-- ==== Sys2Proof/Machine/Partition.lean ====
section
/-! DEFINITION. Partitions (R35, R54, R56, R194, R228, R274, R275, R340): configuration, the shares that follow it, the swap of two partitions through the understudy
planes or through DRAM, the stop and the resumption of a core, and the retirement of an L2 slice (R351). -/

namespace Sys2Proof.Machine

/-! Way masks after a change of the valid partitions (R228). -/

/-- The valid partition that owns a way. -/
def Package.ownerOfWay (p : Package) (w : Nat) : Option Nat :=
  p.validParts.find? fun k => (p.wayRun k).1 ≤ w && w < (p.wayRun k).1 + (p.wayRun k).2

/-- The masks of every slice after a change: lines in ways that change hands are written back and dropped, every tree starts at 0. -/
def Package.repartition (p old : Package) : Package :=
  if p.validParts = old.validParts then p
  else p.presentCompanies.foldl (fun (p : Package) m => p.flushSlice m fun _ w => p.ownerOfWay w = old.ownerOfWay w) p

/-! Configuration (R340). -/

/-- The partition holds casts on cores, in planes or on their way. -/
def Package.holdsCasts (p : Package) (k : Nat) : Bool :=
  p.casts.any fun e => e.part = k && match e.state with
    | .resident _ _ => true
    | .swappedOut _ _ => true
    | .placed _ _ => true
    | _ => false

/-- COMPANIES of a PARTCFG value. -/
def cfgMask (v : Quad) : BitVec 32 := v.setWidth 32

/-- A mask meets another valid partition's. -/
def Package.overlaps (p : Package) (k : Nat) (m : BitVec 32) : Bool :=
  p.validParts.any fun j => j ≠ k && m &&& (p.part j).companies ≠ 0

/-- RECOV of a PARTCFG value: a partition that turns recovery points off forgets its point; RPMCYC and RPSEQ, which only a point writes, stay (Table 21.7). -/
def Partition.setRecov (q : Partition) (on : Bool) : Partition :=
  let r := q.recovery
  { q with recov := on, recovery := if on then r else { jbase := r.jbase, jsize := r.jsize, ajbase := r.ajbase, ajsize := r.ajsize,
                                                        rpmcyc := r.rpmcyc, rpseq := r.rpseq } }

/-- The journal filter entries of a partition are forgotten. -/
def Package.emptyFilters (p : Package) (k : Nat) : Package :=
  { p with companies := p.companies.map fun c : Company => { c with filter := c.filter.filter fun f => f.1 ≠ k } }

/-- PARTITION_CONFIGURE (R340): a mask disjoint from every other valid partition's; ignored while casts are resident and the field changes. With each configuration
the prompter writes the address context as it then is (R194). A partition that the planes hold is brought back. -/
def configureAt (k : Nat) (v : Quad) (ctx : AddrContext) (t : Clock) (p : Package) : Package :=
  let m := cfgMask v
  let busy := p.holdsCasts k
  if !v.getLsbD 32 || 8 ≤ k || p.overlaps k m || (busy && m ≠ (p.part k).companies) then p
  else if p.planeOp.any fun o => o.in_ = k || o.out = k then p.later (.tick (t.rtick + 1)) (.partitionConfigure k v ctx)
  else if (p.part k).swapped && busy then
    if p.planeOp.isSome then p.later (.tick (t.rtick + 1)) (.partitionConfigure k v ctx)
    else ({ p with planeOp := some { out := k, in_ := k, mask := m, dram := true, startedAt := none } }).later .now .understudySwap
  else
    let q := (p.modPart k fun q =>
      { q.setRecov (v.getLsbD 35) with companies := m, valid := true, swapped := false, ctx := ctx }).repartition p
    if v.getLsbD 35 then q else q.emptyFilters k

/-- A write of PARTCFG with VALID 0: the partition is no longer valid, unless it holds casts. -/
def Package.unconfigure (p : Package) (k : Nat) (v : Quad) : Package :=
  if p.holdsCasts k || (p.part k).swapped || p.planeOp.any (fun o => o.in_ = k || o.out = k) then p
  else (p.modPart k fun q => { q.setRecov (v.getLsbD 35) with companies := cfgMask v, valid := false }).repartition p

/-- ORDERED_BIT_WRITE (R54, R56): pending until the first launch after the partition holds no live cast. -/
def orderedBitAt (k : Nat) (v : Quad) (p : Package) : Package := p.modPart k fun q => { q with ordPend := v.getLsbD 34 }

/-! The stop of a core's casts, saving nothing (R335, R340, R384). `Cast.stopping` is 2 from the command to the first point of R335, then 3. -/

/-- Casts are asked to stop. -/
def Package.askStop (p : Package) (core : Nat) : Package :=
  p.modCtx core fun x => { x with casts := x.casts.map (Option.map fun c : Cast => if c.stopping.isNone then { c with stopping := some 2 } else c) }

/-- Every cast of a core has stopped, its array and its engine have done, and nothing is on its way to it. -/
def Package.coreHalted (t : Clock) (p : Package) (core : Nat) : Bool :=
  let k := p.core core
  k.binds.isEmpty && k.barrier.isEmpty && k.residents.all fun c => c.2.stopping = some 3 && p.enginesQuiet t core c.1

/-- The casts of a core go on: held requests are sent again (R266), and what was abandoned starts again. -/
def Package.releaseCore (t : Clock) (p : Package) (core : Nat) : Package :=
  let deferred := (p.core core).ctx.deferred
  let p := p.modCore core fun k =>
    { k with stopped := false,
             ctx := { k.ctx with deferred := [], casts := k.ctx.casts.map (Option.map fun c : Cast => { c with stopping := none }) } }
  let p := deferred.foldl (fun (p : Package) r => p.resend t r) p
  ((List.range 64).foldl (fun (p : Package) i => p.reviveWave t core i ((p.wave? core i).bind Wave.fence)) p).later .now (.collectiveStart core)

/-! The exchange (R89, R243, R274, R275). -/

/-- What the core's waves had asked of the translation leaves with them. -/
def Package.dropCoreFaults (p : Package) (core : Nat) : Package :=
  ({ p with faults := p.faults.filter fun r => r.core ≠ core } : Package).dropWaiters core fun w => match w with
    | .wave c _ => c = core
    | .copy c _ => c = core

/-- A context on its way out: no cast is stopping, and no cast carries its charge (R354). -/
def CoreCtx.parkCasts (x : CoreCtx) : CoreCtx := { x with casts := x.casts.map (Option.map fun c : Cast => { c with stopping := none, cchg := 0 }) }

/-- A context on its way in: a collective that waited for a page tries its element again. -/
def CoreCtx.wakeColls (x : CoreCtx) : CoreCtx :=
  { x with colls := x.colls.map (Option.map fun c : Coll => { c with pos := c.pos.map fun q => { q with paused := false, denied := false } }) }

/-- The planes of a core after the partition `k` leaves it: through DRAM nothing is left behind. -/
def planeAfter (k : Nat) (dram : Bool) (x : CoreCtx) : Plane := if dram then .empty else .context k x.parkCasts

/-- What the planes of a core bring back for a partition. -/
def Plane.of (x : Plane) (k : Nat) : Option CoreCtx :=
  match x with
  | .context j c => if j = k then some c else none
  | _ => none

/-- Exchange one core: the leaving partition's context to the planes, the coming one's, if it is there, to the core; the L1 is emptied. Through DRAM the planes are used
only to bring back what they hold. -/
def Package.exchangeCore (p : Package) (o : PlaneOp) (core : Nat) : Package :=
  let back := (p.core core).plane.of o.in_
  let p := (p.dropCoreFaults core).l1Clear core
  if o.dram && back.isNone then p
  else
    let ctx := (back.getD {}).wakeColls
    let move := fun e : CastEntry => match e.state with
      | .resident c i => if c = core then { e with state := CastState.swappedOut c i } else e
      | .swappedOut c i => if c = core && e.part = o.in_ then { e with state := CastState.resident c i } else e
      | _ => e
    let p := { p with casts := p.casts.map move,
                      companies := p.companies.map fun m : Company => { m with resv := m.resv.filter fun r => r.key.core ≠ core } }
    p.modCore core fun k => { k with plane := planeAfter o.out o.dram k.ctx, ctx := ctx, stopped := true }

/-- The cores of a mask. -/
def Package.maskCores (p : Package) (m : BitVec 32) : List Nat := (List.range 256).filter fun c => m.getLsbD (companyOf c) && p.present (stageOf c)

/-- The planes of a core allow an exchange that brings partition `k` in (R275). -/
def Plane.allows (x : Plane) (k : Nat) : Bool :=
  match x with
  | .empty => true
  | .context j _ => j = k
  | .snapshot _ => false

/-- The valid partition whose mask a swap request names (R340). -/
def Package.swapTarget (p : Package) (k : Nat) (v : Quad) : Option Nat :=
  let m := cfgMask v
  if !v.getLsbD 32 || m = 0 then none else p.validParts.find? fun j => j ≠ k && (p.part j).companies = m

/-- PARTITION_SWAP (R340): issue is told to stop on the cores of the mask; through DRAM every cast of the leaving partition is pre-empted. -/
def partitionSwapAt (k : Nat) (v : Quad) (t : Clock) (p : Package) : Package :=
  match p.swapTarget k v with
  | none => p
  | some j =>
    let m := cfgMask v
    if 8 ≤ k || (p.holdsCasts k && m ≠ (p.part k).companies) then p
    else if p.planeOp.isSome then p.later (.tick (t.rtick + 1)) (.partitionSwap k v)
    else
      let cores := p.maskCores m
      let dram := (p.part j).recov || v.getLsbD 35 || !cores.all fun c => (p.core c).plane.allows k
      let q := (p.modPart k fun q => { q.setRecov (v.getLsbD 35) with companies := m, valid := false, ctx := Config.addrContext k v }).repartition p
      let q := { q with planeOp := some { out := j, in_ := k, mask := m, dram := dram, startedAt := none } }
      let q := if dram then (q.casts.filter fun e => e.part = j).foldl (fun (q : Package) e => q.preemptCast t e) q
        else cores.foldl Package.askStop q
      q.later .now .understudySwap

/-- The cores of a swap hold nothing that keeps it from starting. -/
def Package.swapReady (t : Clock) (p : Package) (o : PlaneOp) : Bool :=
  let cores := p.maskCores o.mask
  if o.dram then cores.all fun c => (p.core c).binds.isEmpty && (p.core c).residents.isEmpty
  else cores.all fun c => p.coreHalted t c

/-- The swap starts (R274, R340): planes and casts change places, VALID and SWAPPED follow, the shares are divided afresh. -/
def Package.startSwap (t : Clock) (p : Package) (o : PlaneOp) : Package :=
  let cores := p.maskCores o.mask
  let planes := !o.dram || cores.any fun c => ((p.core c).plane.of o.in_).isSome
  let q := cores.foldl (fun (p : Package) c => p.exchangeCore o c) p
  let q := q.modPart o.out fun x => { x with valid := false, swapped := !o.dram }
  let q := (q.modPart o.in_ fun x => { x with valid := true, swapped := false }).repartition p
  if planes then
    ({ q with planeOp := some { o with startedAt := some t.rtick } }).later (.mesh (t.mcyc + 960)) .understudySwapEnd
  else { q with planeOp := none }

/-- UNDERSTUDY_SWAP_END (R274): 960 mesh cycles after the start; issue resumes at the first tick after. -/
def swapEndAt (t : Clock) (p : Package) : Package :=
  match p.planeOp with
  | some { mask := m, startedAt := some u, .. } =>
    if t.rtick < u + 16 then p.later (.tick (u + 16)) .understudySwapEnd
    else (p.maskCores m).foldl (fun (p : Package) c => p.releaseCore t c) { p with planeOp := none }
  | _ => p

/-! Retirement of an L2 slice (R351). -/

/-- The live slices of a stage. -/
def Package.liveSlices (p : Package) (stage : Nat) : List Nat := (List.range 8).filter fun m => !(p.company (8 * stage + m)).retired

/-- The hops between two stops of a stage (R148). -/
def stopHops (a b : Nat) : Nat := (max (a % 4) (b % 4) - min (a % 4) (b % 4)) + (max (a / 4) (b / 4) - min (a / 4) (b / 4))

/-- The live slices of a stage at the smallest distance from slice m, ascending. -/
def Package.heirs (p : Package) (stage m : Nat) : List Nat :=
  let live := (p.liveSlices stage).filter (· ≠ m)
  let best := live.foldl (fun n x => min n (stopHops m x)) 100
  live.filter fun x => stopHops m x = best

/-- RETIRE_SLICE (R351): at a tick boundary the buckets of the slice are held; a command that may not be carried out is counted, one that comes during another waits. -/
def retireSliceAt (stage company : Nat) (t : Clock) (p : Package) : Package :=
  if t.mcyc % 64 ≠ 0 then p.later (.tick (t.rtick + 1)) (.retireSlice stage company)
  else if 4 ≤ stage || 8 ≤ company || !p.present stage || !(p.liveSlices stage).contains company then p.count Config.errRETIREIGN Config.max16
  else if ((p.stageAt stage).retiring).isSome then p.modStage stage fun s => { s with retireQ := s.retireQ ++ [company] }
  else if (p.liveSlices stage).length ≤ 1 then p.count Config.errRETIREIGN Config.max16
  else p.modStage stage fun s => { s with retiring := some company }

/-- Step 2 is over: the slice has completed every request that it accepted. -/
def Package.sliceDrained (p : Package) (m : Nat) : Bool :=
  let c := p.company m
  c.inq.isEmpty && c.stalled.isEmpty && c.fills.isEmpty && c.releases.isEmpty

/-- The new bucket table: the buckets of slice m in ascending order, round-robin over its heirs. -/
def reassign (m : Nat) (heirs : List Nat) : Nat → List Nat → List Nat
  | _, [] => []
  | i, b :: l => if b = m then heirs.getD (i % max heirs.length 1) m :: reassign m heirs (i + 1) l else b :: reassign m heirs i l

/-- SLICE_RETIRE_REASSIGN (R351): at the first tick boundary after the slice has drained, it is emptied, its buckets go to its heirs with its staged sectors, and the
held requests are released in arrival order. -/
def sliceReassignAt (company : Nat) (t : Clock) (p : Package) : Package :=
  let st := company / 8
  let m := company % 8
  if (p.stageAt st).retiring ≠ some m || t.mcyc % 64 ≠ 0 || !p.sliceDrained company then p
  else
    let old := p.company company
    let heirs := p.heirs st m
    let p := (p.flushSlice company fun _ _ => false).modCompany company fun c =>
      { c with l2 := [], resv := [], filter := [], staged := [], stageWait := [], retired := true }
    let s := p.stageAt st
    let p := p.modStage st fun s => { s with buckets := reassign m heirs 0 s.buckets, retiring := none, heldReqs := [], retireQ := s.retireQ.drop 1 }
    let p := old.staged.foldl (fun (p : Package) x => p.modCompany (p.homeOf x.line) fun c => { c with staged := c.staged ++ [x] }) p
    let p := (old.stageWait ++ s.heldReqs).foldl (fun (p : Package) r => p.sendReq t 0 r) p
    match s.retireQ with
    | n :: _ => p.later .now (.retireSlice st n)
    | [] => p

noncomputable section

/-- A cast that was asked to stop reaches the first point of R335: its issue stops, its waits are abandoned, its held requests withdrawn. -/
def Package.stopStep (p : Package) (core : Nat) : Package :=
  (p.core core).residents.foldl (fun (p : Package) c =>
    if c.2.stopping = some 2 && p.castSafe core c.1 then
      let (p, held) := p.stopCast core c.1
      p.modCtx core fun x => { x with deferred := x.deferred ++ held, casts := modAt x.casts c.1 (Option.map fun c : Cast => { c with stopping := some 3 }) }
    else p) p

/-- UNDERSTUDY_SWAP (R274, R340): casts that can stop do; at the first tick after every core has, the planes are exchanged. -/
def understudySwapAt (t : Clock) (p : Package) : Package :=
  match p.planeOp with
  | none => p
  | some o =>
    if o.startedAt.isSome then p
    else
      let cores := p.maskCores o.mask
      let p := if o.dram then (p.casts.filter fun e => e.part = o.out && (p.victim? e).isSome).foldl (fun (p : Package) e => p.preemptCast t e) p
        else cores.foldl (fun (p : Package) c => (p.askStop c).stopStep c) p
      if t.mcyc % 64 = 0 && p.swapReady t o then p.startSwap t o else p

def execUNDERSTUDY_SWAP (s : State) : Host.Outcome State Fault Refusal := s.event understudySwapAt

end

def execPARTITION_CONFIGURE (k : Nat) (v : Quad) (ctx : AddrContext) (s : State) : Host.Outcome State Fault Refusal :=
  s.event (configureAt k v ctx)
def execPARTITION_SWAP (k : Nat) (v : Quad) (s : State) : Host.Outcome State Fault Refusal := s.event (partitionSwapAt k v)
def execORDERED_BIT_WRITE (k : Nat) (v : Quad) (s : State) : Host.Outcome State Fault Refusal := s.event fun _ => orderedBitAt k v
def execUNDERSTUDY_SWAP_END (s : State) : Host.Outcome State Fault Refusal := s.event swapEndAt
def execRETIRE_SLICE (stage company : Nat) (s : State) : Host.Outcome State Fault Refusal := s.event (retireSliceAt stage company)
def execSLICE_RETIRE_REASSIGN (company : Nat) (s : State) : Host.Outcome State Fault Refusal := s.event (sliceReassignAt company)

end Sys2Proof.Machine
end

