-- ==== Sys2Proof/Machine/Recovery.lean ====
section
/-! DEFINITION. Recovery points, rollback and re-execution (R274, R313, R325, R383 to R387), and hard failures. -/

namespace Sys2Proof.Machine

/-- Change the recovery state of a partition. -/
def Package.modRecovery (p : Package) (k : Nat) (f : Recovery → Recovery) : Package :=
  p.modPart k fun q => { q with recovery := f q.recovery }

/-- The recovery state of a partition. -/
def Package.recov (p : Package) (k : Nat) : Recovery := (p.part k).recovery

/-- A partition that can be rolled back: recovery points on and one taken. -/
def Package.canRollBack (p : Package) (k : Nat) : Bool := (p.part k).recov && (p.recov k).taken

/-! Taking a point (R384). -/

/-- A point may start: recovery points on, the partition active, not re-executing, and no swap in progress. -/
def Package.mayPoint (p : Package) (k : Nat) : Bool :=
  let q := p.part k
  q.recov && q.valid && !q.recovery.stopping && q.recovery.errorOffset.isNone && q.recovery.resumeAt.isNone && p.planeOp.isNone

/-- The partition of what is on its way to the cue unit. -/
def Package.cuePart (p : Package) : CueArrival → Option Nat
  | .release key _ => some key.part
  | .emit _ _ part _ _ _ _ => let _ := p; some part

/-- The partition of an update of a dependence counter. -/
def DcUpdate.part : DcUpdate → Nat
  | .done _ k _ _ => k
  | .set _ _ k _ _ _ _ => k
  | .dec _ _ k _ _ => k
  | .wait _ _ k _ => k

/-- Nothing of the partition is on its way to or from the cue and ticket units. -/
def Package.cueQuiet (p : Package) (k : Nat) : Bool :=
  p.cueIn.all (fun c => p.cuePart c.2 ≠ some k) && p.dcIn.all (fun d => d.2.part ≠ k)
    && p.tickets.all fun t : Option Ticket => t.all fun t => t.part ≠ k || (t.tkpend = 0 && t.reported = 0)

/-- The staged entries of a partition, by slice. -/
def Package.stagedOf (p : Package) (k : Nat) : List (Nat × Staged) :=
  (p.companies.zipIdx).flatMap fun c : Company × Nat => (c.1.staged.filter fun s => s.key.part = k).map fun s => (c.2, s)

/-- A swapped-out partition's casts in the planes of a core become saved ones, so that a snapshot may take their place (R275, R340). -/
def Package.planeToDram (p : Package) (core : Nat) : Package :=
  match (p.core core).plane with
  | .context k x =>
    let saved := fun e : CastEntry => match e.state with
      | .swappedOut c i => if c = core && e.part = k then match (x.casts[i]?).join with
          | some q => { e with state := CastState.saved (x.savedOf i q (x.deferred.filter fun r => r.key.castid = q.castid)), demands := [] }
          | none => e
        else e
      | _ => e
    let gone := (p.casts.filter fun e => match e.state with
      | .swappedOut c _ => c = core && e.part = k
      | _ => false).flatMap CastEntry.demands
    let p := (p.reserve gone false).modCore core fun c => { c with plane := .empty }
    ({ p with casts := p.casts.map saved }).modPart k fun q => { q with swapped := false }
  | _ => p

/-- Step 3 of R384: the copies that a rollback restores. -/
def Package.copyFor (p : Package) (k : Nat) (r : Recovery) : Recovery :=
  let q := p.part k
  { r with
    taken := true, dc := q.dc, nodes := q.nodes, tickets := p.tickets.filter (fun t : Option Ticket => t.any fun x => x.part = k),
    casts := p.casts.filter (fun e => e.part = k), cueStaged := p.cueStaged.filter (fun s => s.key.part = k), egseq := p.gates.map Gate.egseq,
    hmqHead := q.hmqHead, hmqTail := q.hmqTail, hmqBuf := q.hmqBuf, dropped := q.dropped,
    staged := p.stagedOf k, faults := p.faults.filter (fun f => f.part = k), pcie := p.pcie.filter (fun w => w.1 % 8 = k), nextTag := q.nextTag }

/-- The shadow of a slice: tags, valid, dirty and poison bits and the trees, without the data (R274). -/
def CacheSet.shadow (x : CacheSet) : CacheSet := { x with ways := x.ways.map (Option.map fun l : Line => { l with data := [] }) }

/-- The snapshot and steps 3 and 4 of R384; the shadows of the slices and of the vault controllers are taken with it (R274). -/
def Package.takePoint (t : Clock) (p : Package) (k : Nat) : Package :=
  let cores := p.partCores k
  let p := cores.foldl (fun (p : Package) c => (p.planeToDram c).modCore c fun x => { x with plane := .snapshot x.ctx }) p
  let p := { p with companies := p.companies.map fun c : Company => { c with shadow := c.l2.map CacheSet.shadow },
                    vaults := p.vaults.map fun v : Vault =>
                      { v with shadow := { vtemp := v.vtemp, vclass := v.vclass, refpos := v.refpos, rows := v.rows, scrubptr := v.scrubptr } } }
  let p := p.modRecovery k fun r => { p.copyFor k r with
    rpmcyc := 64 * r.pointAt, base := 64 * r.pointAt, rpseq := r.rpseq + 1, requested := false, stopping := false, journal := [], arrivals := [], grants := [], classes := [],
    resumeAt := some (t.rtick + 8) }
  (p.emptyFilters k).later (.tick (t.rtick + 8)) (.recoveryPoint k)

/-- Issue resumes on the partition's cores, after a point or a rollback. -/
def Package.resumePart (t : Clock) (p : Package) (k : Nat) : Package :=
  (p.partCores k).foldl (fun (p : Package) c => p.releaseCore t c) (p.modRecovery k fun r => { r with resumeAt := none })

/-! Hard failures (R386, R387). -/

/-- A hard failure is reported to a partition: the HARDFAIL entry, STATUS.HARDFAIL and the partition's bit of HFPART. -/
def Package.reportFail (t : Clock) (p : Package) (k unit : Nat) : Package :=
  let e : HmqEntry := { kind := 4, castid := 0, castindex := 0, info := BitVec.ofNat 16 unit, waveId := 0, core := 0, tick := BitVec.ofNat 32 t.rtick, p0 := 0, p1 := 0 }
  ({ p with win := { p.win with hardfail := true, failAt := t.mcyc + 1, hfpart := p.win.hfpart ||| BitVec.ofNat 8 (2 ^ k) } } : Package).hmqPost k e

/-- Live arrivals that re-execution held go back to their gates, in order. -/
def Package.freeLive (t : Clock) (p : Package) (k : Nat) : Package :=
  let held := (p.recov k).liveHeld
  let p := p.modRecovery k fun r => { r with liveHeld := [], errorOffset := none }
  held.foldl (fun (p : Package) a => (p.modGate a.1 fun x => { x with ingress := x.ingress ++ [(0, a.2)] }).drainGate t a.1) p

/-- Under R386 a partition's casts are killed and the failure is reported; the rest of the package runs on. -/
def Package.failPart (t : Clock) (p : Package) (k unit : Nat) : Package :=
  let p := (p.casts.filter fun e => e.part = k && e.live).foldl (fun (p : Package) e => p.killEntry t e) p
  let p := p.modRecovery k fun r => { r with taken := false, stopping := false, resumeAt := none, rolling := none, inject := [], arrivals := [] }
  ((p.freeLive t k).reportFail t k unit)

/-! Rollback (R386). -/

/-- Undo the journal, newest entry first. -/
def Package.undo (p : Package) (l : List JournalEntry) : Package :=
  l.reverse.foldl (fun (p : Package) e =>
    (p.clearReservations e.line).putLine { line := e.line, data := e.old, dirty := 3, poison := e.poison }) p

/-- What the partition has under way is gone: its requests, whose effects the journal would undo, and what was on its way to or from its cores and the cue unit. -/
def Package.dropFlight (p : Package) (k : Nat) : Package :=
  let other := fun r : Req => r.part ≠ k
  let cores := p.partCores k
  let company := fun c : Company =>
    { c with inq := c.inq.filter other, stalled := c.stalled.filter other, stageWait := c.stageWait.filter other,
             resv := c.resv.filter (fun r => !cores.contains r.key.core), staged := c.staged.filter (fun s => s.key.part ≠ k),
             releases := c.releases.filter (fun r => r.1.part ≠ k) }
  let core := fun x : Core =>
    { x with xq := List.replicate 4 [], arrayQ := [], arrayAt := 0, cq := List.replicate 4 none, tokens := [], tokensWaiting := [], barrier := [], replies := [], binds := [], zombies := [] }
  let p := { p with companies := p.companies.map company, stage := p.stage.map (fun s : Stage => { s with heldReqs := s.heldReqs.filter other }),
                    cueIn := p.cueIn.filter (fun c => p.cuePart c.2 ≠ some k), dcIn := p.dcIn.filter (fun d => d.2.part ≠ k),
                    answers := p.answers.filter (fun a => !cores.contains a.1.core), dcWaiters := p.dcWaiters.filter (fun w => w.2.2.1 ≠ k),
                    gates := p.gates.map (fun g : Gate => { g with effects := g.effects.filter fun e => p.arrivalPart e.2 ≠ some k }) }
  cores.foldl (fun (p : Package) c => (((List.range 64).foldl (fun (p : Package) i => p.dropMarkers c i) p).dropCoreFaults c).modCore c core) p

/-- Put the tickets of a partition back into free entries. -/
def Package.restoreTickets (p : Package) (k : Nat) (l : List (Option Ticket)) : Package :=
  let free := p.tickets.map fun t : Option Ticket => t.filter fun x => x.part ≠ k
  { p with tickets := l.foldl (fun ts t => match findIdx? Option.isNone ts with
      | some i => setAt ts i t
      | none => ts) free }

/-- The nodes of a point, with the NODERC of now, which only an exit, a kill and a host write change (Table 20.4). -/
def restoredNodes (old now : List (Nat × Node)) : List (Nat × Node) :=
  now.foldl (fun l x => if x.2.noderc = ((tabGet l x.1).getD {}).noderc then l else tabSet l x.1 { (tabGet l x.1).getD {} with noderc := x.2.noderc })
    (old.map fun x : Nat × Node => (x.1, { x.2 with noderc := ((tabGet now x.1).getD {}).noderc }))

/-- The planes and the copies of R384 go back into place, with the pointers of the host-message queue, so that a write of re-execution is the one made before (R325). -/
def Package.restorePoint (p : Package) (k : Nat) : Package :=
  let r := p.recov k
  let p := (p.partCores k).foldl (fun (p : Package) c => match (p.core c).plane with
    | .snapshot x => (p.modCore c fun y => { y with ctx := x }).l1Clear c
    | _ => p) p
  let now := (p.casts.filter fun e => e.part = k).flatMap CastEntry.demands
  let p := (p.reserve now false).reserve (r.casts.flatMap CastEntry.demands) true
  let gates := (p.gates.zipIdx).map fun g : Gate × Nat => { g.1 with eghigh := g.1.egacked, egseq := r.egseq.getD g.2 g.1.egseq }
  let p := { p with casts := p.casts.filter (fun e => e.part ≠ k) ++ r.casts, cueStaged := p.cueStaged.filter (fun s => s.key.part ≠ k) ++ r.cueStaged,
                    gates := gates, faults := p.faults.filter (fun f => f.part ≠ k) ++ r.faults,
                    pcie := p.pcie.filter (fun w => w.1 % 8 ≠ k) ++ r.pcie }
  let p := r.staged.foldl (fun (p : Package) s => p.modCompany (p.homeOf s.2.line) fun c => { c with staged := c.staged ++ [s.2] }) p
  (p.restoreTickets k r.tickets).modPart k fun q =>
    { q with dc := r.dc, nodes := restoredNodes r.nodes q.nodes, nextTag := r.nextTag, hmqHead := r.hmqHead, hmqTail := r.hmqTail, hmqBuf := r.hmqBuf,
             dropped := r.dropped }

/-- The first epoch start at or after a tick. -/
def nextEpoch (t : Nat) : Nat := (t + epochTicks - 1) / epochTicks * epochTicks

/-- Re-execution lies Δ ticks later: the point, the recorded arrivals, grants and classes move with it (R386 steps 4 and 5). -/
def Recovery.shift (r : Recovery) (start : Nat) : Recovery :=
  let d := start - r.base / 64
  let arrivals := r.arrivals.map fun a => (a.1 + 64 * d, a.2)
  let e := fun x : Nat × Nat × Nat => (x.1 + d / epochTicks, x.2)
  { r with base := 64 * start, arrivals := arrivals, inject := arrivals, grants := r.grants.map e, classes := r.classes.map e, journal := [],
           stopping := false, requested := false, rolling := none, resumeAt := some start }

/-- The rollback itself, at a tick boundary. -/
def Package.rollBack (t : Clock) (p : Package) (k : Nat) : Package :=
  let start := nextEpoch t.rtick
  let p := (p.undo (p.recov k).journal).dropFlight k
  let p := ((p.emptyFilters k).restorePoint k).modRecovery k fun r => r.shift start
  (p.later (.tick start) (.recoveryPoint k)).later (.mesh (p.recov k).base) (.arrivalJournalInject k)

/-- An error is noted: its offset from the point and its unit; a second one in a unit before that offset is a hard failure. -/
def Recovery.noteError (r : Recovery) (mcyc unit : Nat) : Recovery :=
  let o := mcyc - r.base
  { r with errorOffset := match r.errorOffset with
      | none => some (o, [unit])
      | some (o', us) => some (max o o', us ++ [unit]) }

/-- A second error of re-execution in the same unit, before the first one's offset. -/
def Recovery.second (r : Recovery) (mcyc unit : Nat) : Bool :=
  r.errorOffset.any fun e => e.2.contains unit && decide (mcyc < r.base + e.1)

/-- ROLLBACK (R386): the error is noted, and at the next tick boundary the partition goes back to its point. A partition without a point keeps the default policy. -/
def rollbackAt (k unit : Nat) (t : Clock) (p : Package) : Package :=
  let r := p.recov k
  if !p.canRollBack k then p
  else match r.rolling with
    | some u => if u ≤ t.rtick && t.mcyc % 64 = 0 then p.rollBack t k else p.modRecovery k fun r => r.noteError t.mcyc unit
    | none =>
      if r.second t.mcyc unit then p.failPart t k unit
      else
        let p := p.modRecovery k fun r => r.noteError t.mcyc unit
        if t.mcyc % 64 = 0 then p.rollBack t k
        else (p.modRecovery k fun r => { r with rolling := some (t.rtick + 1) }).later (.tick (t.rtick + 1)) (.rollback k unit)

/-- ARRIVAL_JOURNAL_INJECT (R386): a recorded arrival is accepted at its new stamp; past the error's offset live arrivals are accepted again. -/
def journalInjectAt (k : Nat) (t : Clock) (p : Package) : Package :=
  let r := p.recov k
  let due := r.inject.filter fun a => a.1 ≤ t.mcyc
  let p := due.foldl (fun (p : Package) a => p.modGate a.2.1 fun g => { g with effects := g.effects ++ [(a.1 + Config.stampDelay, a.2.2)] }) p
  let p := p.modRecovery k fun r => { r with inject := r.inject.filter fun a => t.mcyc < a.1 }
  let next := fun (p : Package) => match (p.recov k).inject with
    | a :: _ => p.later (.mesh a.1) (.arrivalJournalInject k)
    | [] => p
  match r.errorOffset with
  | some (o, _) =>
    if r.resumeAt.isNone && r.rolling.isNone && r.base + o ≤ t.mcyc then next (p.freeLive t k)
    else (next p).later (.mesh (max (t.mcyc + 1) (r.base + o))) (.arrivalJournalInject k)
  | none => next p

/-! Die links (R313, R386, R387). -/

/-- DIE_LINK_HEADER_FAILURE (R313, R387): every valid partition rolls back where all can; otherwise each is told, and the package freezes at the next tick. -/
def headerFailureAt (link : Nat) (t : Clock) (p : Package) : Package :=
  let unit := 0x5000 + link % 4
  let ks := p.validParts
  if ks.all p.canRollBack && !ks.isEmpty then ks.foldl (fun (p : Package) k => rollbackAt k unit t p) p
  else (ks.foldl (fun (p : Package) k => p.reportFail t k unit) { p with win := { p.win with hardfail := true, failAt := t.mcyc + 1 } }).later (.tick (t.rtick + 1)) .hardfailFreeze

/-- A request for a line is under way. -/
def Package.wantsLine (p : Package) (k line : Nat) : Bool :=
  p.companies.any (fun c => (c.inq ++ c.stalled ++ c.stageWait).any fun r => r.part = k && r.line = line)
    || p.cores.any fun c => c.replies.any fun r => match r.body with
      | .data _ _ _ (some x) _ => x.line = line && ((p.waveOf? r.key).bind fun w => p.cast? r.key.core w.cast).any fun q => q.partition = k
      | _ => false

/-- DIE_LINK_POISON (R313, R248): partitions with recovery points that the data was for roll back; for any other the sector is delivered poisoned. -/
def dieLinkPoisonAt (link line sector : Nat) (p : Package) : Package :=
  let ks := p.validParts.filter fun k => p.wantsLine k line
  let p := (ks.filter p.canRollBack).foldl (fun (p : Package) k => p.later .now (.rollback k (0x5000 + link % 4))) p
  if ks.all p.canRollBack && !ks.isEmpty then p else p.poisonSector line sector

noncomputable section

/-- RECOVERY_POINT (R384): at an epoch start a requested point tells the cores to stop; once they have, the snapshot is taken at a tick boundary; eight ticks later, and
at the start of re-execution after a rollback, issue resumes. -/
def recoveryPointAt (k : Nat) (t : Clock) (p : Package) : Package :=
  let r := p.recov k
  let tick : Bool := t.mcyc % 64 = 0
  match r.resumeAt with
  | some u => if u ≤ t.rtick then p.resumePart t k else p
  | none =>
    if r.stopping then
      let p := (p.partCores k).foldl (fun (p : Package) c => (p.askStop c).stopStep c) p
      if tick && p.cueQuiet k && (p.partCores k).all fun c => p.coreHalted t c then p.takePoint t k else p
    else if !p.mayPoint k then p
    else if !tick || t.rtick % epochTicks ≠ 0 then p.modRecovery k fun r => { r with requested := true }
    else
      let p := (p.partCores k).foldl (fun (p : Package) c => p.askStop c) p
      (p.modRecovery k fun r => { r with stopping := true, pointAt := t.rtick }).later .now (.recoveryPoint k)

def execRECOVERY_POINT (part : Nat) (s : State) : Host.Outcome State Fault Refusal := s.event (recoveryPointAt part)

end

def execROLLBACK (part unit : Nat) (s : State) : Host.Outcome State Fault Refusal := s.event (rollbackAt part unit)
def execDIE_LINK_HEADER_FAILURE (link : Nat) (s : State) : Host.Outcome State Fault Refusal := s.event (headerFailureAt link)
def execDIE_LINK_POISON (link line sector : Nat) (s : State) : Host.Outcome State Fault Refusal := s.event fun _ => dieLinkPoisonAt link line sector
def execARRIVAL_JOURNAL_INJECT (part : Nat) (s : State) : Host.Outcome State Fault Refusal := s.event (journalInjectAt part)

end Sys2Proof.Machine
end

