-- ==== Sys2Proof/Machine/Control.lean ====
section
/-! DEFINITION. The host window's own registers and run control (R3, R55, R90, R91, R166 to R168, R272, R275, R365 to R373, R387): writes, stops, tableaux, resets. -/

namespace Sys2Proof.Machine

/-! Writes (R8, R90, R91): reserved bits of a register stay 0. -/

/-- TABCTL (Table 21.3): ignored while BUSY; an OP of 1 to 5 starts its operation, any other is ignored. -/
def tabctlAt (v : Quad) (p : Package) : Package :=
  if p.win.tabbusy then p
  else
    let op := bits v.toNat 0 4
    let known : Bool := 1 ≤ op && op ≤ 5
    let w := { p.win with tabop := if known then op else 0, tabdram := v.getLsbD 4, tabhost := v.getLsbD 5, stopen := v.getLsbD 8 }
    if !known then { p with win := w }
    else
      let ev : Instr := match op with
        | 1 => .take
        | 2 => .restore
        | 3 => .thaw
        | 4 => .freeze
        | _ => .reset
      ({ p with win := { w with tabbusy := true, taberr := 0 } } : Package).later .now ev

/-- A register of a gate's ring: LOGBASE and LOGSIZE; writes of LOGHEAD are ignored (R91). -/
def logRegAt (g i : Nat) (v : Quad) (p : Package) : Package :=
  match i with
  | 0 => p.modGate g fun x => { x with logbase := v }
  | 1 => p.modGate g fun x => { x with logsize := v }
  | _ => p

/-- HOST_WINDOW_WRITE (R91): the registers without a row of their own; an offset that takes no write is ignored. -/
def hostWindowAt (off : Nat) (v : Quad) (k : Clock) (p : Package) : Package :=
  if off = 0x208 then
    let b := fun lo => BitVec.ofNat 15 (v.toNat / 2 ^ lo)
    ({ p with win := { p.win with logen := b 0, lossy := b 16, digest := b 32 } } : Package).drainAll k
  else if off = 0x220 then { p with win := { p.win with svcbase := BitVec.ofNat 64 (low16Clear v.toNat) } }
  else if off = 0x228 then { p with win := { p.win with svcsize := v } }
  else if off = 0x300 then tabctlAt v p
  else if off = 0x308 then { p with win := { p.win with tabbase := BitVec.ofNat 64 (v.toNat / 4096 * 4096) } }
  else if off = 0x310 then { p with win := { p.win with tabsize := v } }
  else if 0x100 ≤ off && off < 0x140 then if v.getLsbD 32 then p else p.unconfigure ((off - 0x100) / 8) v
  else if 0x400 ≤ off && off < 0x400 + 32 * 15 then (logRegAt ((off - 0x400) / 32) ((off - 0x400) % 32 / 8) v p).drainAll k
  else if 0x800 ≤ off && off < 0x900 && (off - 0x800) % 32 = 0 then p.modPart ((off - 0x800) / 32) fun q => { q with hmqBase := v }
  else p

/-- STATUS_CLEAR (R91, Table 21.4): a 1 clears REPLAY_BROKEN, STOPLATE or HARDFAIL, but not what the device sets in this very cycle. -/
def statusClearAt (v : Quad) (k : Clock) (p : Package) : Package :=
  let w := p.win
  let stays := fun (bit : Bool) (i since : Nat) => bit && (!v.getLsbD i || since = k.mcyc + 1)
  { p with win := { w with replayBroken := stays w.replayBroken 5 w.brokenAt, stoplate := stays w.stoplate 6 w.lateAt, hardfail := stays w.hardfail 7 w.failAt } }

/-- HMQTAIL_WRITE (R167): a value that would put HEAD − TAIL below 0 or above SIZE is ignored; room lets waiting entries in, and a HEAD that becomes unequal to TAIL
signals the host. -/
def hmqtailAt (k : Nat) (v : Quad) (p : Package) : Package :=
  let q := p.part k
  let tail : Word := v.setWidth 32
  if q.hmqSize.toNat < (q.hmqHead - tail).toNat then p
  else
    let p := (p.modPart k fun q => { q with hmqTail := tail }).later .now (.hmqEntryWrite k)
    if q.hmqHead = q.hmqTail && q.hmqHead ≠ tail then p.egress 0 (.msix (k + 1) 0) else p

/-- HMQSIZE_WRITE (R168): once the size is allowed, the buffered entries enter the queue. -/
def hmqsizeAt (k : Nat) (v : Quad) (p : Package) : Package :=
  (p.modPart k fun q => { q with hmqSize := v }).later .now (.hmqEntryWrite k)

/-! STOPAT (Table 21.2, R367, R368). -/

/-- ARM. -/
def Window0.stopArmed (w : Window0) : Bool := w.stopat.getLsbD 63

/-- DOMAIN, INDEX and COUNT of a STOPAT value. -/
def stopDomain (v : Quad) : Nat := bits v.toNat 56 2
def stopIndex (v : Quad) : Nat := bits v.toNat 51 5
def stopCount (v : Quad) : Nat := bits v.toNat 0 51

/-- The counter that a STOPAT value names. -/
def Clock.counter (k : Clock) (v : Quad) : Nat :=
  match stopDomain v with
  | 0 => k.rtick
  | 1 => k.mcyc
  | 2 => k.vcyc
  | _ => k.cycleOf (stopIndex v)

/-- The counter of a STOPAT value can never be counted up to: DOMAIN 3 names a company that is gated or absent. -/
def Package.stopIdle (p : Package) (v : Quad) : Bool :=
  stopDomain v = 3 && (!p.present (stopIndex v / 8) || (p.company (stopIndex v)).gatedNow)

/-- Clear ARM. -/
def Window0.disarm (w : Window0) : Window0 := { w with stopat := w.stopat &&& ~~~(1#64 <<< 63) }

/-- STOPAT_WRITE (R367): reserved bits stay 0; an armed write whose COUNT is not ahead of the counter sets STOPLATE and does not stay armed. -/
def stopatWriteAt (v : Quad) (k : Clock) (p : Package) : Package :=
  let w := { p.win with stopat := v &&& ~~~(0x1F#64 <<< 58) }
  if w.stopArmed && (stopCount v ≤ k.counter v || p.stopIdle v) then { p with win := { w.disarm with stoplate := true, lateAt := k.mcyc + 1 } }
  else { p with win := w }

/-- The package freezes (R368, R272): STATUS.RUN and STOPCAUSE; the open rows stay recorded as they are. -/
def State.freezeNow (s : State) (c : StopCause) : State :=
  { s with clk := { s.clk with run := .frozen }, pkg := { s.pkg with stopcause := c } }

/-- STOPAT_STOP (R368, R370): the named counter has become COUNT. -/
def stopatStopAt (s : State) : State :=
  let w := s.pkg.win
  if !w.stopArmed || s.clk.run = .frozen || s.clk.counter w.stopat ≠ stopCount w.stopat then s
  else ({ s with pkg := { s.pkg with win := w.disarm, stopReq := [] } }).freezeNow .stopat

/-! Operations of TABCTL (R371 to R373). -/

/-- An operation ends: with an error code, or with none. -/
def Package.endOp (p : Package) (err : Nat) : Package :=
  ({ p with win := { p.win with taberr := err } } : Package).later .now .tableauOperationEnd

/-- TABLEAU_OPERATION_END: BUSY and OP are cleared. -/
def tableauEndAt (p : Package) : Package := { p with win := { p.win with tabbusy := false, tabop := 0 } }

/-- The cells of DRAM in a range of the interleaved view. -/
def Package.regionCells (p : Package) (base size : Nat) : List Host.Cell :=
  p.dram.filter fun c => base ≤ p.paOf c.1 && p.paOf c.1 < base + size

/-- The bytes that a tableau needs (Table 21.3, R371). -/
def Package.tabBytes (p : Package) : Nat :=
  p.tabNeed * 2 ^ 20 + if p.win.tabdram then Config.stageBytes * p.presentStages.length else 0

/-- The region of TABBASE lies in the service region. -/
def Package.tabInService (p : Package) : Bool :=
  let (base, size) := p.win.svc
  base ≤ p.win.tabbase.toNat && p.win.tabbase.toNat + p.win.tabsize.toNat ≤ base + size

/-- The image that TAKE writes. -/
def State.imageNow (s : State) : Image :=
  let w := s.pkg.win
  { host := w.tabhost, base := w.tabbase, size := w.tabsize.toNat,
    cells := if w.tabhost then [] else s.pkg.regionCells w.tabbase.toNat w.tabsize.toNat, dram := w.tabdram, pkg := s.pkg, clk := s.clk }

/-- TAKE (R371): the sequence of R275 leaves every plane as it was; the image holds the state. -/
def takeAt (s : State) : State :=
  let p := s.pkg
  let w := p.win
  let fail := fun e : Nat => { s with pkg := p.endOp e }
  if s.clk.run ≠ .frozen then fail 2
  else if w.tabsize.toNat < p.tabBytes || (!w.tabhost && !p.tabInService) then fail 1
  else
    let other := fun i : Image => !(i.host = w.tabhost && i.base = w.tabbase)
    { s with pkg := p.endOp 0, images := s.images.filter other ++ [s.imageNow] }

/-- The registers of R367 keep the host's values: all of them but LOGHEAD and the mode in force. -/
def Package.keepR367 (new old : Package) : Package :=
  let w := old.win
  let gate := fun x : Gate × Gate => { x.1 with logbase := x.2.logbase, logsize := x.2.logsize, logtail := x.2.logtail, ingress := x.2.ingress }
  { new with
    straps := old.straps,
    win := { new.win with gatemodeReq := w.gatemodeReq, logen := w.logen, lossy := w.lossy, digest := w.digest, stopat := w.stopat, svcbase := w.svcbase,
                          svcsize := w.svcsize, tabop := w.tabop, tabdram := w.tabdram, tabhost := w.tabhost, stopen := w.stopen, tabbase := w.tabbase,
                          tabsize := w.tabsize },
    gates := (new.gates.zip old.gates).map gate, sent := old.sent }

/-- The image at TABBASE agrees with its header and digest, and with this package (R372). -/
def Package.imageGood (p : Package) (i : Image) : Bool :=
  i.pkg.stages = p.stages && (i.host || p.regionCells i.base.toNat i.size = i.cells)

/-- What a restore puts in place (R272, R371, R372): the image, but for the registers of R367, the frozen-refresh counters, and DRAM that the image does not hold. -/
def Package.restoreFrom (p : Package) (i : Image) : Package :=
  let q := i.pkg.keepR367 p
  let vaults := (q.vaults.zip p.vaults).map fun v : Vault × Vault => { v.1 with frozen := v.2.frozen }
  let q := { q with vaults := vaults, dram := if i.dram then q.dram else p.dram, dramPoison := if i.dram then q.dramPoison else p.dramPoison, dramErr := p.dramErr,
                    win := { q.win with tabbusy := true } }
  (q.enterMode q.win.gatemodeReq).endOp 0

/-- RESTORE (R372): frozen at the image's edge. -/
def restoreAt (s : State) : State :=
  let p := s.pkg
  let w := p.win
  if s.clk.run ≠ .frozen then { s with pkg := p.endOp 2 }
  else match s.images.find? fun i => i.host = w.tabhost && i.base = w.tabbase with
    | none => { s with pkg := p.endOp 3 }
    | some i =>
      if p.imageGood i then { s with pkg := p.restoreFrom i, clk := { i.clk with run := .frozen } } else { s with pkg := p.endOp 3 }

/-- THAW (R3, R372, R387): stages held in reset stay there; else the preamble reopens the recorded rows, which `Vault.rows` still holds, and the run goes on; refused after a hard failure. -/
def thawAt (s : State) : State :=
  let p := s.pkg
  if p.stages = 0 then s
  else if s.clk.run ≠ .frozen then { s with pkg := p.endOp 2 }
  else if p.stopcause = .hardFailure then { s with pkg := p.endOp 4 }
  else
    let clk := { s.clk with run := .running }
    { s with clk := clk, pkg := (p.drainAll clk).endOp 0 }

/-- FREEZE (R371): E is this tick boundary; a frozen package stays as it is. -/
def freezeAt (s : State) : State :=
  let s := { s with pkg := s.pkg.endOp 0 }
  if s.clk.run = .frozen then s else s.freezeNow .freeze

/-- A package at its reset values with a set of stages (R373, Table 4.6). -/
def Package.fresh (stages : BitVec 4) : Package :=
  let p : Package := { stages := stages }
  { p with win := { p.win with powercap := 1600 * p.presentStages.length } }

/-! The straps, read at every reset (R3). -/

/-- The stages whose index only one stage has strapped. -/
def strapSet (straps : List Nat) : BitVec 4 :=
  (List.range 4).foldl (fun (m : BitVec 4) i => if (straps.filter fun x => x = i).length = 1 then m ||| BitVec.ofNat 4 (2 ^ i) else m) 0

/-- Two stages strap one index. -/
def strapConflict (straps : List Nat) : Bool := (List.range 4).any fun i => 1 < (straps.filter fun x => x = i).length

/-- The sets of stages that R3 allows. -/
def stageSetOk (m : BitVec 4) : Bool := [1#4, 3#4, 5#4, 7#4, 11#4, 13#4, 15#4].contains m

/-- A stage whose strapped index another stage has too stops in reset and reports it; of a set that is not allowed every other stage does. -/
def strapReports (straps : List Nat) : List (Nat × Egress) :=
  let report := fun n : Nat => ((14, Egress.mgmt (Config.strapReport n)) : Nat × Egress)
  let alone := fun i : Nat => (straps.filter fun x => x = i).length = 1
  (straps.filter fun i => !alone i).map (fun _ => report 0) ++ if stageSetOk (strapSet straps) then [] else (straps.filter alone).map fun _ => report 1

/-- The stages that the straps let out of reset. -/
def strapStages (straps : List Nat) : BitVec 4 := if stageSetOk (strapSet straps) then strapSet straps else 0

/-- What the straps make of a package at its reset values. -/
def Package.strapped (p : Package) (straps : List Nat) : Package :=
  { p with straps := straps, sent := p.sent ++ strapReports straps, win := { p.win with strapConflict := strapConflict straps } }

/-- RESET (R3, R373): the held reset; the registers of R367 and the contents of the service region stay, the rings start at 0, CUR takes REQ, and the stages read
their straps. -/
def resetAt (s : State) : State :=
  let p := s.pkg
  let (base, size) := p.win.svc
  let q := (Package.fresh (strapStages p.straps)).keepR367 p
  let q := { q with dram := p.regionCells base size, win := { q.win with tabop := 0 }, stopcause := .heldReset,
                    gates := q.gates.map (fun g : Gate => { g with logtail := 0 }) }
  { s with clk := { run := .frozen }, pkg := (q.strapped p.straps).enterMode q.win.gatemodeReq }

/-! Power-on (R3, R373). -/

/-- POWER_ON_RESET (R3, R373): every register at its reset value, running in PASS; the straps decide which stages run. Host memory keeps its images. -/
def powerOnAt (straps : List Nat) (s : State) : State :=
  let q := ({ Package.fresh (strapStages straps) with sent := s.pkg.sent } : Package).strapped straps
  { s with clk := { run := if q.stages = 0 then .frozen else .running }, pkg := q, images := s.images.filter Image.host }

/-- HARDFAIL_FREEZE (R387): the package freezes with STOPCAUSE 5. -/
def hardfailFreezeAt (s : State) : State := if s.clk.run = .frozen then s else s.freezeNow .hardFailure

def execHOST_WINDOW_WRITE (off : Nat) (v : Quad) (s : State) : Host.Outcome State Fault Refusal := s.event (hostWindowAt off v)
def execSTATUS_CLEAR (v : Quad) (s : State) : Host.Outcome State Fault Refusal := s.event (statusClearAt v)
def execSTOPAT_WRITE (v : Quad) (s : State) : Host.Outcome State Fault Refusal := s.event (stopatWriteAt v)
def execHMQTAIL_WRITE (k : Nat) (v : Quad) (s : State) : Host.Outcome State Fault Refusal := s.event fun _ => hmqtailAt k v
def execHMQSIZE_WRITE (k : Nat) (v : Quad) (s : State) : Host.Outcome State Fault Refusal := s.event fun _ => hmqsizeAt k v
def execSTOPAT_STOP (s : State) : Host.Outcome State Fault Refusal := .next (stopatStopAt s)
def execTAKE (s : State) : Host.Outcome State Fault Refusal := .next (takeAt s)
def execRESTORE (s : State) : Host.Outcome State Fault Refusal := .next (restoreAt s)
def execTHAW (s : State) : Host.Outcome State Fault Refusal := .next (thawAt s)
def execFREEZE (s : State) : Host.Outcome State Fault Refusal := .next (freezeAt s)
def execRESET (s : State) : Host.Outcome State Fault Refusal := .next (resetAt s)
def execTABLEAU_OPERATION_END (s : State) : Host.Outcome State Fault Refusal := s.event fun _ => tableauEndAt
def execPOWER_ON_RESET (straps : List Nat) (s : State) : Host.Outcome State Fault Refusal := .next (powerOnAt straps s)
def execHARDFAIL_FREEZE (s : State) : Host.Outcome State Fault Refusal := .next (hardfailFreezeAt s)

end Sys2Proof.Machine
end

