-- ==== Sys2Proof/Machine/VectorFp.lean ====
section
/-! DEFINITION. Floating-point vector words (R129 to R141): VF, VD, VH, VCVT and the floating compares. -/

namespace Sys2Proof.Machine

/-- The flags of the active lanes together (R106). -/
def View.allFlags (v : View) (f : Nat → Flagged) : BitVec 5 := v.lanes.foldl (fun fl j => fl ||| (f j).flags) 0

/-- A vector producer that raises flags. -/
def execFp (i : Instr) (keep : BitVec 1) (d : BitVec 7) (f : View → Nat → Flagged) (s : State) : Host.Outcome State Fault Refusal :=
  s.word i fun v s =>
    let t := tabulate { bits := 0 } (f v)
    .done ((s.produce v (keep = 1) d.toNat (.vec fun j => BitVec.ofNat 32 (t j).bits)).raiseFlags v (v.allFlags t))

/-- A pair producer that raises flags. -/
def execFpPair (i : Instr) (keep : BitVec 1) (d : BitVec 7) (f : View → Nat → Flagged) (s : State) : Host.Outcome State Fault Refusal :=
  s.word i fun v s =>
    let t := tabulate { bits := 0 } (f v)
    .done ((s.produce v (keep = 1) d.toNat (.pair fun j => BitVec.ofNat 64 (t j).bits)).raiseFlags v (v.allFlags t))

/-- The bits of a vector source and of a pair source. -/
def View.fv (v : View) (c : BitVec 7) (j : Nat) : Nat := (v.vec c.toNat j).toNat
def View.fp (v : View) (c : BitVec 7) (j : Nat) : Nat := (v.pair c.toNat j).toNat

/-- The d register as an addend, v0 with K = 1 (R129). -/
def View.dv (v : View) (d : BitVec 7) (j : Nat) : Nat := (v.src.v d.toNat j).toNat
def View.dp (v : View) (d : BitVec 7) (j : Nat) : Nat := (v.src.v (d.toNat + 1) j ++ v.src.v d.toNat j).toNat

/-- VF with two sources. -/
def execVF (i : Instr) (w : VR) (f : Nat → Nat → Flagged) (s : State) : Host.Outcome State Fault Refusal :=
  execFp i w.k w.d (fun v j => f (v.fv w.a j) (v.fv w.b j)) s

/-- VF with one source. -/
def execVF1 (i : Instr) (w : VR1) (f : Nat → Flagged) (s : State) : Host.Outcome State Fault Refusal :=
  execFp i w.k w.d (fun v j => f (v.fv w.a j)) s

/-- VD with two sources. -/
def execVDf (i : Instr) (w : VR) (f : Nat → Nat → Flagged) (s : State) : Host.Outcome State Fault Refusal :=
  execFpPair i w.k w.d (fun v j => f (v.fp w.a j) (v.fp w.b j)) s

/-- VD with one source. -/
def execVD1 (i : Instr) (w : VR1) (f : Nat → Flagged) (s : State) : Host.Outcome State Fault Refusal :=
  execFpPair i w.k w.d (fun v j => f (v.fp w.a j)) s

/-- A result without flags. -/
def plain (x : Nat) : Flagged := { bits := x }

/-- The sign injections: the magnitude of a with a sign (R130, R135). -/
def Fmt.signed (f : Fmt) (a : Nat) (neg : Bool) : Flagged := plain (f.pack neg (a % f.signBit))

/-- The sign bit of an encoding. -/
def Fmt.signOf (f : Fmt) (a : Nat) : Bool := a / f.signBit % 2 = 1

/-- Element e of a lane in 16-bit halves. -/
def half (x e : Nat) : Nat := x / 65536 ^ e % 65536

/-- Element e of a lane in bytes. -/
def byteOf (x e : Nat) : Nat := x / 256 ^ e % 256

/-- An operation on both halves of a lane, each with its own rounding and flags (R96). -/
def halves (f : Nat → Nat → Nat → Flagged) (d a b : Nat) : Flagged :=
  let lo := f (half d 0) (half a 0) (half b 0)
  let hi := f (half d 1) (half a 1) (half b 1)
  { bits := lo.bits + 65536 * hi.bits, flags := lo.flags ||| hi.flags }

/-- VH (R136): the operation takes d, a and b. -/
def execVHf (i : Instr) (w : VR) (f : Nat → Nat → Nat → Flagged) (s : State) : Host.Outcome State Fault Refusal :=
  execFp i w.k w.d (fun v j => f (v.dv w.d j) (v.fv w.a j) (v.fv w.b j)) s

/-- The element pairs of a dot. -/
def pairsOf (n : Nat) (el : Nat → Nat → Nat) (a b : Nat) : List (Nat × Nat) :=
  (List.range n).map fun e => (el a e, el b e)

/-- IDOT4 (R137). -/
def idot4 (d a b : Nat) : Flagged :=
  let sx := fun x : Nat => (BitVec.ofNat 8 x).toInt
  plain (BitVec.ofInt 32 ((d : Int) + ((pairsOf 4 byteOf a b).map fun p => sx p.1 * sx p.2).sum)).toNat

/-- Replace field e of width 2^(8n) of a lane. -/
def mergeField (n e d x : Nat) : Nat :=
  let b := 256 ^ (n * e)
  d - d / b % 256 ^ n * b + x * b

/-- A merging conversion: field e of d takes the result (R139). -/
def mergeInto (n e d : Nat) (r : Flagged) : Flagged := { bits := mergeField n e d r.bits, flags := r.flags }

/-- An F32 operand rounded to another format (R138). -/
def fromF32 (f : Fmt) (rm : BitVec 3) (sat : Bool) (x : Nat) : Flagged := f.roundTo rm.toNat sat (fmtF32.value x)

/-- An exact conversion: a NaN becomes the canonical NaN, and no flag is raised (R138). -/
def widen (g f : Fmt) (x : Nat) : Flagged := plain (f.rne (g.value x)).bits

/-- A signed integer operand of w bits. -/
def sintOf (w x : Nat) : Exact := exactInt (BitVec.ofNat w x).toInt

/-- An unsigned integer operand. -/
def uintOf (x : Nat) : Exact := exactInt x

/-- A floating compare of two encodings (R141, Table 7.4). -/
def fpLt (f : Fmt) (a b : Nat) : Bool := (f.value a).lt (f.value b)
def fpEq (f : Fmt) (a b : Nat) : Bool := (f.value a).eq (f.value b)
def fpUn (f : Fmt) (a b : Nat) : Bool := (f.value a).isNan || (f.value b).isNan
def fpLe (f : Fmt) (a b : Nat) : Bool := fpLt f a b || fpEq f a b

/-- A floating compare on single registers. -/
def execCmpF32 (i : Instr) (w : VP) (f : Nat → Nat → Bool) (s : State) : Host.Outcome State Fault Refusal :=
  execCompare i w.d w.m (fun v j => f (v.fv w.a j) (v.fv w.b j)) s

/-- A floating compare on pairs. -/
def execCmpF64 (i : Instr) (w : VP) (f : Nat → Nat → Bool) (s : State) : Host.Outcome State Fault Refusal :=
  execCompare i w.d w.m (fun v j => f (v.fp w.a j) (v.fp w.b j)) s

noncomputable section

/-! VF (R130, Table 7.1). -/

def execFADD (w : VR) (s : State) : Host.Outcome State Fault Refusal :=
  execVF (.fadd w) w fmtF32.add s
def execFSUB (w : VR) (s : State) : Host.Outcome State Fault Refusal :=
  execVF (.fsub w) w fmtF32.sub s
def execFMUL (w : VR) (s : State) : Host.Outcome State Fault Refusal :=
  execVF (.fmul w) w fmtF32.mul s
def execFMAC (w : VR) (s : State) : Host.Outcome State Fault Refusal :=
  execFp (.fmac w) w.k w.d (fun v j => fmtF32.mac (v.fv w.a j) (v.fv w.b j) (v.dv w.d j)) s
def execFNMAC (w : VR) (s : State) : Host.Outcome State Fault Refusal :=
  execFp (.fnmac w) w.k w.d (fun v j => fmtF32.nmac (v.fv w.a j) (v.fv w.b j) (v.dv w.d j)) s
def execFMIN (w : VR) (s : State) : Host.Outcome State Fault Refusal :=
  execVF (.fmin w) w (fun a b => plain (fmtF32.minMax false a b)) s
def execFMAX (w : VR) (s : State) : Host.Outcome State Fault Refusal :=
  execVF (.fmax w) w (fun a b => plain (fmtF32.minMax true a b)) s
def execFDIV (w : VR) (s : State) : Host.Outcome State Fault Refusal :=
  execVF (.fdiv w) w fmtF32.div s
def execFSQRT (w : VR1) (s : State) : Host.Outcome State Fault Refusal :=
  execVF1 (.fsqrt w) w fmtF32.sqrt s
def execFRCPE (w : VR1) (s : State) : Host.Outcome State Fault Refusal :=
  execVF1 (.frcpe w) w (fun a => fmtF32.rcpe (fmtF32.value a)) s
def execFRSQE (w : VR1) (s : State) : Host.Outcome State Fault Refusal :=
  execVF1 (.frsqe w) w (fun a => fmtF32.rsqe (fmtF32.value a)) s
def execFSGNJ (w : VR) (s : State) : Host.Outcome State Fault Refusal :=
  execVF (.fsgnj w) w (fun a b => fmtF32.signed a (fmtF32.signOf b)) s
def execFSGNJN (w : VR) (s : State) : Host.Outcome State Fault Refusal :=
  execVF (.fsgnjn w) w (fun a b => fmtF32.signed a (!fmtF32.signOf b)) s
def execFSGNJX (w : VR) (s : State) : Host.Outcome State Fault Refusal :=
  execVF (.fsgnjx w) w (fun a b => fmtF32.signed a (fmtF32.signOf a != fmtF32.signOf b)) s
def execFCLASS (w : VR1) (s : State) : Host.Outcome State Fault Refusal :=
  execVF1 (.fclass w) w (fun a => plain (fmtF32.classOf a)) s
def execFSCALE (w : VR) (s : State) : Host.Outcome State Fault Refusal :=
  execFp (.fscale w) w.k w.d (fun v j => fmtF32.scale (v.fv w.a j) (v.vec w.b.toNat j).toInt) s

/-! VD (R135). -/

def execDADD (w : VR) (s : State) : Host.Outcome State Fault Refusal :=
  execVDf (.dadd w) w fmtF64.add s
def execDSUB (w : VR) (s : State) : Host.Outcome State Fault Refusal :=
  execVDf (.dsub w) w fmtF64.sub s
def execDMUL (w : VR) (s : State) : Host.Outcome State Fault Refusal :=
  execVDf (.dmul w) w fmtF64.mul s
def execDMAC (w : VR) (s : State) : Host.Outcome State Fault Refusal :=
  execFpPair (.dmac w) w.k w.d (fun v j => fmtF64.mac (v.fp w.a j) (v.fp w.b j) (v.dp w.d j)) s
def execDNMAC (w : VR) (s : State) : Host.Outcome State Fault Refusal :=
  execFpPair (.dnmac w) w.k w.d (fun v j => fmtF64.nmac (v.fp w.a j) (v.fp w.b j) (v.dp w.d j)) s
def execDMIN (w : VR) (s : State) : Host.Outcome State Fault Refusal :=
  execVDf (.dmin w) w (fun a b => plain (fmtF64.minMax false a b)) s
def execDMAX (w : VR) (s : State) : Host.Outcome State Fault Refusal :=
  execVDf (.dmax w) w (fun a b => plain (fmtF64.minMax true a b)) s
def execDDIV (w : VR) (s : State) : Host.Outcome State Fault Refusal :=
  execVDf (.ddiv w) w fmtF64.div s
def execDSQRT (w : VR1) (s : State) : Host.Outcome State Fault Refusal :=
  execVD1 (.dsqrt w) w fmtF64.sqrt s
def execDRCPE (w : VR1) (s : State) : Host.Outcome State Fault Refusal :=
  execVD1 (.drcpe w) w (fun a => fmtF64.rcpe (fmtF64.value a)) s
def execDRSQE (w : VR1) (s : State) : Host.Outcome State Fault Refusal :=
  execVD1 (.drsqe w) w (fun a => fmtF64.rsqe (fmtF64.value a)) s
def execDSGNJ (w : VR) (s : State) : Host.Outcome State Fault Refusal :=
  execVDf (.dsgnj w) w (fun a b => fmtF64.signed a (fmtF64.signOf b)) s
def execDSGNJN (w : VR) (s : State) : Host.Outcome State Fault Refusal :=
  execVDf (.dsgnjn w) w (fun a b => fmtF64.signed a (!fmtF64.signOf b)) s
def execDSGNJX (w : VR) (s : State) : Host.Outcome State Fault Refusal :=
  execVDf (.dsgnjx w) w (fun a b => fmtF64.signed a (fmtF64.signOf a != fmtF64.signOf b)) s
def execDCLASS (w : VR1) (s : State) : Host.Outcome State Fault Refusal :=
  execVD1 (.dclass w) w (fun a => plain (fmtF64.classOf a)) s
def execDSCALE (w : VR) (s : State) : Host.Outcome State Fault Refusal :=
  execFpPair (.dscale w) w.k w.d (fun v j => fmtF64.scale (v.fp w.a j) (v.vec w.b.toNat j).toInt) s

/-! VH (R136, R137). -/

def execHADD2 (w : VR) (s : State) : Host.Outcome State Fault Refusal :=
  execVHf (.hadd2 w) w (halves (fun _ a b => fmtF16.add a b)) s
def execHSUB2 (w : VR) (s : State) : Host.Outcome State Fault Refusal :=
  execVHf (.hsub2 w) w (halves (fun _ a b => fmtF16.sub a b)) s
def execHMUL2 (w : VR) (s : State) : Host.Outcome State Fault Refusal :=
  execVHf (.hmul2 w) w (halves (fun _ a b => fmtF16.mul a b)) s
def execHMAC2 (w : VR) (s : State) : Host.Outcome State Fault Refusal :=
  execVHf (.hmac2 w) w (halves (fun d a b => fmtF16.mac a b d)) s
def execHMIN2 (w : VR) (s : State) : Host.Outcome State Fault Refusal :=
  execVHf (.hmin2 w) w (halves (fun _ a b => plain (fmtF16.minMax false a b))) s
def execHMAX2 (w : VR) (s : State) : Host.Outcome State Fault Refusal :=
  execVHf (.hmax2 w) w (halves (fun _ a b => plain (fmtF16.minMax true a b))) s
def execHDOT2 (w : VR) (s : State) : Host.Outcome State Fault Refusal :=
  execVHf (.hdot2 w) w (fun d a b => fmtF32.dot fmtF16 fmtF16 d (pairsOf 2 half a b)) s
def execBADD2 (w : VR) (s : State) : Host.Outcome State Fault Refusal :=
  execVHf (.badd2 w) w (halves (fun _ a b => fmtBF16.add a b)) s
def execBSUB2 (w : VR) (s : State) : Host.Outcome State Fault Refusal :=
  execVHf (.bsub2 w) w (halves (fun _ a b => fmtBF16.sub a b)) s
def execBMUL2 (w : VR) (s : State) : Host.Outcome State Fault Refusal :=
  execVHf (.bmul2 w) w (halves (fun _ a b => fmtBF16.mul a b)) s
def execBMAC2 (w : VR) (s : State) : Host.Outcome State Fault Refusal :=
  execVHf (.bmac2 w) w (halves (fun d a b => fmtBF16.mac a b d)) s
def execBMIN2 (w : VR) (s : State) : Host.Outcome State Fault Refusal :=
  execVHf (.bmin2 w) w (halves (fun _ a b => plain (fmtBF16.minMax false a b))) s
def execBMAX2 (w : VR) (s : State) : Host.Outcome State Fault Refusal :=
  execVHf (.bmax2 w) w (halves (fun _ a b => plain (fmtBF16.minMax true a b))) s
def execBDOT2 (w : VR) (s : State) : Host.Outcome State Fault Refusal :=
  execVHf (.bdot2 w) w (fun d a b => fmtF32.dot fmtBF16 fmtBF16 d (pairsOf 2 half a b)) s
def execQDOT4 (w : VR) (s : State) : Host.Outcome State Fault Refusal :=
  execVHf (.qdot4 w) w (fun d a b => fmtF32.dot fmtE4M3 fmtE4M3 d (pairsOf 4 byteOf a b)) s
def execIDOT4 (w : VR) (s : State) : Host.Outcome State Fault Refusal :=
  execVHf (.idot4 w) w idot4 s

/-! VCVT (R138 to R140, Table 7.3). -/

def execVCVT_F32_I32 (w : VCRS) (s : State) : Host.Outcome State Fault Refusal :=
  execFp (.vcvtF32I32 w) w.k w.d (fun v j => fmtF32.roundTo w.r.toNat (w.s = 1) (sintOf 32 (v.fv w.a j))) s
def execVCVT_F32_U32 (w : VCRS) (s : State) : Host.Outcome State Fault Refusal :=
  execFp (.vcvtF32U32 w) w.k w.d (fun v j => fmtF32.roundTo w.r.toNat (w.s = 1) (uintOf (v.fv w.a j))) s
def execVCVT_I32_F32 (w : VCR) (s : State) : Host.Outcome State Fault Refusal :=
  execFp (.vcvtI32F32 w) w.k w.d (fun v j => roundToInt 32 true w.r.toNat (fmtF32.value (v.fv w.a j))) s
def execVCVT_U32_F32 (w : VCR) (s : State) : Host.Outcome State Fault Refusal :=
  execFp (.vcvtU32F32 w) w.k w.d (fun v j => roundToInt 32 false w.r.toNat (fmtF32.value (v.fv w.a j))) s
def execVCVT_F32_F64 (w : VCRS) (s : State) : Host.Outcome State Fault Refusal :=
  execFp (.vcvtF32F64 w) w.k w.d (fun v j => fmtF32.roundTo w.r.toNat (w.s = 1) (fmtF64.value (v.fp w.a j))) s
def execVCVT_F64_F32 (w : VR1) (s : State) : Host.Outcome State Fault Refusal :=
  execFpPair (.vcvtF64F32 w) w.k w.d (fun v j => widen fmtF32 fmtF64 (v.fv w.a j)) s
def execVCVT_F64_I32 (w : VR1) (s : State) : Host.Outcome State Fault Refusal :=
  execFpPair (.vcvtF64I32 w) w.k w.d (fun v j => plain (fmtF64.rne (sintOf 32 (v.fv w.a j))).bits) s
def execVCVT_F64_U32 (w : VR1) (s : State) : Host.Outcome State Fault Refusal :=
  execFpPair (.vcvtF64U32 w) w.k w.d (fun v j => plain (fmtF64.rne (uintOf (v.fv w.a j))).bits) s
def execVCVT_I32_F64 (w : VCR) (s : State) : Host.Outcome State Fault Refusal :=
  execFp (.vcvtI32F64 w) w.k w.d (fun v j => roundToInt 32 true w.r.toNat (fmtF64.value (v.fp w.a j))) s
def execVCVT_U32_F64 (w : VCR) (s : State) : Host.Outcome State Fault Refusal :=
  execFp (.vcvtU32F64 w) w.k w.d (fun v j => roundToInt 32 false w.r.toNat (fmtF64.value (v.fp w.a j))) s
def execVCVT_F64_I64 (w : VCRS) (s : State) : Host.Outcome State Fault Refusal :=
  execFpPair (.vcvtF64I64 w) w.k w.d (fun v j => fmtF64.roundTo w.r.toNat (w.s = 1) (sintOf 64 (v.fp w.a j))) s
def execVCVT_I64_F64 (w : VCR) (s : State) : Host.Outcome State Fault Refusal :=
  execFpPair (.vcvtI64F64 w) w.k w.d (fun v j => roundToInt 64 true w.r.toNat (fmtF64.value (v.fp w.a j))) s
def execVCVT_F32_I64 (w : VCRS) (s : State) : Host.Outcome State Fault Refusal :=
  execFp (.vcvtF32I64 w) w.k w.d (fun v j => fmtF32.roundTo w.r.toNat (w.s = 1) (sintOf 64 (v.fp w.a j))) s
def execVCVT_I64_F32 (w : VCR) (s : State) : Host.Outcome State Fault Refusal :=
  execFpPair (.vcvtI64F32 w) w.k w.d (fun v j => roundToInt 64 true w.r.toNat (fmtF32.value (v.fv w.a j))) s
def execFRINT (w : VCR) (s : State) : Host.Outcome State Fault Refusal :=
  execFp (.frint w) w.k w.d (fun v j => fmtF32.rint w.r.toNat (v.fv w.a j)) s
def execDRINT (w : VCR) (s : State) : Host.Outcome State Fault Refusal :=
  execFpPair (.drint w) w.k w.d (fun v j => fmtF64.rint w.r.toNat (v.fp w.a j)) s
def execVCVT_F16_F32 (w : VCRSH) (s : State) : Host.Outcome State Fault Refusal :=
  execFp (.vcvtF16F32 w) w.k w.d (fun v j => mergeInto 2 w.h.toNat (v.dv w.d j) (fromF32 fmtF16 w.r (w.s = 1) (v.fv w.a j))) s
def execVCVT_F32_F16 (w : VCH) (s : State) : Host.Outcome State Fault Refusal :=
  execFp (.vcvtF32F16 w) w.k w.d (fun v j => widen fmtF16 fmtF32 (half (v.fv w.a j) w.h.toNat)) s
def execVCVT_BF16_F32 (w : VCRSH) (s : State) : Host.Outcome State Fault Refusal :=
  execFp (.vcvtBf16F32 w) w.k w.d (fun v j => mergeInto 2 w.h.toNat (v.dv w.d j) (fromF32 fmtBF16 w.r (w.s = 1) (v.fv w.a j))) s
def execVCVT_F32_BF16 (w : VCH) (s : State) : Host.Outcome State Fault Refusal :=
  execFp (.vcvtF32Bf16 w) w.k w.d (fun v j => widen fmtBF16 fmtF32 (half (v.fv w.a j) w.h.toNat)) s
def execVCVT_E4M3_F32 (w : VCJRS) (s : State) : Host.Outcome State Fault Refusal :=
  execFp (.vcvtE4m3F32 w) w.k w.d (fun v j => mergeInto 1 w.j.toNat (v.dv w.d j) (fromF32 fmtE4M3 w.r (w.s = 1) (v.fv w.a j))) s
def execVCVT_E5M2_F32 (w : VCJRS) (s : State) : Host.Outcome State Fault Refusal :=
  execFp (.vcvtE5m2F32 w) w.k w.d (fun v j => mergeInto 1 w.j.toNat (v.dv w.d j) (fromF32 fmtE5M2 w.r (w.s = 1) (v.fv w.a j))) s
def execVCVT_F32_E4M3 (w : VCJ) (s : State) : Host.Outcome State Fault Refusal :=
  execFp (.vcvtF32E4m3 w) w.k w.d (fun v j => widen fmtE4M3 fmtF32 (byteOf (v.fv w.a j) w.j.toNat)) s
def execVCVT_F32_E5M2 (w : VCJ) (s : State) : Host.Outcome State Fault Refusal :=
  execFp (.vcvtF32E5m2 w) w.k w.d (fun v j => widen fmtE5M2 fmtF32 (byteOf (v.fv w.a j) w.j.toNat)) s
def execVCVT_F16_E4M3 (w : VCH) (s : State) : Host.Outcome State Fault Refusal :=
  execFp (.vcvtF16E4m3 w) w.k w.d (fun v j => plain ((widen fmtE4M3 fmtF16 (byteOf (v.fv w.a j) (2 * w.h.toNat))).bits + 65536 * (widen fmtE4M3 fmtF16 (byteOf (v.fv w.a j) (2 * w.h.toNat + 1))).bits)) s
def execVCVT_F16_E5M2 (w : VCH) (s : State) : Host.Outcome State Fault Refusal :=
  execFp (.vcvtF16E5m2 w) w.k w.d (fun v j => plain ((widen fmtE5M2 fmtF16 (byteOf (v.fv w.a j) (2 * w.h.toNat))).bits + 65536 * (widen fmtE5M2 fmtF16 (byteOf (v.fv w.a j) (2 * w.h.toNat + 1))).bits)) s

/-! Floating compares (R141, Table 7.4). -/

def execVCMP_F32_EQ (w : VP) (s : State) : Host.Outcome State Fault Refusal :=
  execCmpF32 (.vcmpF32Eq w) w (fpEq fmtF32) s
def execVCMP_F32_LT (w : VP) (s : State) : Host.Outcome State Fault Refusal :=
  execCmpF32 (.vcmpF32Lt w) w (fpLt fmtF32) s
def execVCMP_F32_LE (w : VP) (s : State) : Host.Outcome State Fault Refusal :=
  execCmpF32 (.vcmpF32Le w) w (fpLe fmtF32) s
def execVCMP_F32_NE (w : VP) (s : State) : Host.Outcome State Fault Refusal :=
  execCmpF32 (.vcmpF32Ne w) w (fun a b => !fpEq fmtF32 a b) s
def execVCMP_F32_UN (w : VP) (s : State) : Host.Outcome State Fault Refusal :=
  execCmpF32 (.vcmpF32Un w) w (fpUn fmtF32) s
def execVCMP_F32_ORD (w : VP) (s : State) : Host.Outcome State Fault Refusal :=
  execCmpF32 (.vcmpF32Ord w) w (fun a b => !fpUn fmtF32 a b) s
def execVCMP_F32_ISNAN (w : VP1) (s : State) : Host.Outcome State Fault Refusal :=
  execCompare (.vcmpF32Isnan w) w.d w.m (fun v j => (fmtF32.value (v.fv w.a j)).isNan) s
def execVCMP_F32_ISINF (w : VP1) (s : State) : Host.Outcome State Fault Refusal :=
  execCompare (.vcmpF32Isinf w) w.d w.m (fun v j => (fmtF32.value (v.fv w.a j)).isInf) s
def execVCMP_F64_EQ (w : VP) (s : State) : Host.Outcome State Fault Refusal :=
  execCmpF64 (.vcmpF64Eq w) w (fpEq fmtF64) s
def execVCMP_F64_LT (w : VP) (s : State) : Host.Outcome State Fault Refusal :=
  execCmpF64 (.vcmpF64Lt w) w (fpLt fmtF64) s
def execVCMP_F64_LE (w : VP) (s : State) : Host.Outcome State Fault Refusal :=
  execCmpF64 (.vcmpF64Le w) w (fpLe fmtF64) s
def execVCMP_F64_NE (w : VP) (s : State) : Host.Outcome State Fault Refusal :=
  execCmpF64 (.vcmpF64Ne w) w (fun a b => !fpEq fmtF64 a b) s
def execVCMP_F64_UN (w : VP) (s : State) : Host.Outcome State Fault Refusal :=
  execCmpF64 (.vcmpF64Un w) w (fpUn fmtF64) s
def execVCMP_F64_ORD (w : VP) (s : State) : Host.Outcome State Fault Refusal :=
  execCmpF64 (.vcmpF64Ord w) w (fun a b => !fpUn fmtF64 a b) s
def execVCMP_F64_ISNAN (w : VP1) (s : State) : Host.Outcome State Fault Refusal :=
  execCompare (.vcmpF64Isnan w) w.d w.m (fun v j => (fmtF64.value (v.fp w.a j)).isNan) s
def execVCMP_F64_ISINF (w : VP1) (s : State) : Host.Outcome State Fault Refusal :=
  execCompare (.vcmpF64Isinf w) w.d w.m (fun v j => (fmtF64.value (v.fp w.a j)).isInf) s

end

end Sys2Proof.Machine
end

