-- ==== Sys2Proof/Machine/VectorInt.lean ====
section
/-! DEFINITION. Integer vector words (R112 to R123): VIA, VIB, integer VCMP, VIM, VMV and PRD. -/

namespace Sys2Proof.Machine

/-! Element operations. -/

/-- Signed clamp to 32 bits (R93). -/
def clamp32 (x : Int) : Word := BitVec.ofInt 32 (max (-2147483648) (min 2147483647 x))

/-- The high 32 bits of a signed product (Table 6.1). -/
def mulhS (a b : Word) : Word := BitVec.ofInt 32 (a.toInt * b.toInt / 4294967296)

/-- The high 32 bits of an unsigned product. -/
def mulhU (a b : Word) : Word := BitVec.ofNat 32 (a.toNat * b.toNat / 4294967296)

/-- The full signed product. -/
def mulWide (a b : Word) : Quad := BitVec.ofInt 64 (a.toInt * b.toInt)

/-- Signed quotient (R94, Table 5.2). -/
def divS {w : Nat} (a b : BitVec w) : BitVec w := if b = 0 then BitVec.allOnes w else BitVec.ofInt w (a.toInt.tdiv b.toInt)

/-- Unsigned quotient. -/
def divU {w : Nat} (a b : BitVec w) : BitVec w := if b = 0 then BitVec.allOnes w else BitVec.ofNat w (a.toNat / b.toNat)

/-- Signed remainder (R94, Table 5.2). -/
def remS {w : Nat} (a b : BitVec w) : BitVec w := if b = 0 then a else BitVec.ofInt w (a.toInt.tmod b.toInt)

/-- Unsigned remainder. -/
def remU {w : Nat} (a b : BitVec w) : BitVec w := if b = 0 then a else BitVec.ofNat w (a.toNat % b.toNat)

def minS {w : Nat} (a b : BitVec w) : BitVec w := if b.slt a then b else a
def maxS {w : Nat} (a b : BitVec w) : BitVec w := if a.slt b then b else a
def minU {w : Nat} (a b : BitVec w) : BitVec w := if b.ult a then b else a
def maxU {w : Nat} (a b : BitVec w) : BitVec w := if a.ult b then b else a

/-- The number of 1 bits. -/
def popc32 (a : Word) : Word := BitVec.ofNat 32 ((List.range 32).filter fun i => a.getLsbD i).length

/-- The number of leading 0 bits; 32 for 0. -/
def clz32 (a : Word) : Word := BitVec.ofNat 32 (((List.range 32).map fun i => a.getLsbD (31 - i)).takeWhile (!·)).length

/-- Bit k moved to bit 31 − k. -/
def brev32 (a : Word) : Word := BitVec.ofNat 32 ((List.range 32).foldl (fun n i => 2 * n + (if a.getLsbD i then 1 else 0)) 0)

/-- A shift amount: bits 4:0 or 5:0 (R115). -/
def amount5 (b : Word) : Nat := b.toNat % 32
def amount6 (b : Word) : Nat := b.toNat % 64

/-- The rank of lane j among the active lanes (R120). -/
def View.rank (v : View) (j : Nat) : Nat := ((List.range j).filter fun k => v.act.getLsbD k).length

/-- The index that VMOVXR and VMOVXW name: none at or above REGCOUNT (R119). -/
def View.indexReg (v : View) (x : Quad) : Option Nat :=
  if x.toNat < v.cast.regcount.toNat then some x.toNat else none

/-- REGIDX with TRAPADDR 0 (R119). -/
def regidxTrap : Trap := { cause := .regidx }

/-- A vector producer of the VR format with two vector sources. -/
def execVR (i : Instr) (w : VR) (f : Word → Word → Word) (s : State) : Host.Outcome State Fault Refusal :=
  execVec i w.k w.d (fun v j => f (v.vec w.a.toNat j) (v.vec w.b.toNat j)) s

/-- A unary vector producer. -/
def execVR1 (i : Instr) (w : VR1) (f : Word → Word) (s : State) : Host.Outcome State Fault Refusal :=
  execVec i w.k w.d (fun v j => f (v.vec w.a.toNat j)) s

/-- A vector producer with an immediate. -/
def execVI (i : Instr) (w : VI) (f : Word → BitVec 7 → Word) (s : State) : Host.Outcome State Fault Refusal :=
  execVec i w.k w.d (fun v j => f (v.vec w.a.toNat j) w.i) s

/-- An integer compare on 32-bit elements (R121). -/
def execCmp32 (i : Instr) (w : VP) (f : Word → Word → Bool) (s : State) : Host.Outcome State Fault Refusal :=
  execCompare i w.d w.m (fun v j => f (v.vec w.a.toNat j) (v.vec w.b.toNat j)) s

/-- An integer compare on pairs (R121). -/
def execCmp64 (i : Instr) (w : VP) (f : Quad → Quad → Bool) (s : State) : Host.Outcome State Fault Refusal :=
  execCompare i w.d w.m (fun v j => f (v.pair w.a.toNat j) (v.pair w.b.toNat j)) s

noncomputable section

/-! VIA (R114, Table 6.1). -/

def execVADD (w : VR) (s : State) : Host.Outcome State Fault Refusal := execVR (.vadd w) w (· + ·) s
def execVSUB (w : VR) (s : State) : Host.Outcome State Fault Refusal := execVR (.vsub w) w (· - ·) s
def execVMUL (w : VR) (s : State) : Host.Outcome State Fault Refusal := execVR (.vmul w) w (· * ·) s
def execVMULH (w : VR) (s : State) : Host.Outcome State Fault Refusal := execVR (.vmulh w) w mulhS s
def execVMULHU (w : VR) (s : State) : Host.Outcome State Fault Refusal := execVR (.vmulhu w) w mulhU s

/-- The addend is the register that the d field names, v0 with K = 1. -/
def execVMAD (w : VR) (s : State) : Host.Outcome State Fault Refusal :=
  execVec (.vmad w) w.k w.d (fun v j => v.vec w.a.toNat j * v.vec w.b.toNat j + v.src.v w.d.toNat j) s

def execVMIN (w : VR) (s : State) : Host.Outcome State Fault Refusal := execVR (.vmin w) w minS s
def execVMAX (w : VR) (s : State) : Host.Outcome State Fault Refusal := execVR (.vmax w) w maxS s
def execVMINU (w : VR) (s : State) : Host.Outcome State Fault Refusal := execVR (.vminu w) w minU s
def execVMAXU (w : VR) (s : State) : Host.Outcome State Fault Refusal := execVR (.vmaxu w) w maxU s
def execVADDS (w : VR) (s : State) : Host.Outcome State Fault Refusal :=
  execVR (.vadds w) w (fun a b => clamp32 (a.toInt + b.toInt)) s
def execVSUBS (w : VR) (s : State) : Host.Outcome State Fault Refusal :=
  execVR (.vsubs w) w (fun a b => clamp32 (a.toInt - b.toInt)) s
def execVDIV (w : VR) (s : State) : Host.Outcome State Fault Refusal := execVR (.vdiv w) w divS s
def execVDIVU (w : VR) (s : State) : Host.Outcome State Fault Refusal := execVR (.vdivu w) w divU s
def execVREM (w : VR) (s : State) : Host.Outcome State Fault Refusal := execVR (.vrem w) w remS s
def execVREMU (w : VR) (s : State) : Host.Outcome State Fault Refusal := execVR (.vremu w) w remU s

/-! VIB (R115, Table 6.2). -/

def execVAND (w : VR) (s : State) : Host.Outcome State Fault Refusal := execVR (.vand w) w (· &&& ·) s
def execVOR (w : VR) (s : State) : Host.Outcome State Fault Refusal := execVR (.vor w) w (· ||| ·) s
def execVXOR (w : VR) (s : State) : Host.Outcome State Fault Refusal := execVR (.vxor w) w (· ^^^ ·) s
def execVANDN (w : VR) (s : State) : Host.Outcome State Fault Refusal := execVR (.vandn w) w (fun a b => a &&& ~~~b) s
def execVSHL (w : VR) (s : State) : Host.Outcome State Fault Refusal := execVR (.vshl w) w (fun a b => a <<< amount5 b) s
def execVSHR (w : VR) (s : State) : Host.Outcome State Fault Refusal := execVR (.vshr w) w (fun a b => a >>> amount5 b) s
def execVSRA (w : VR) (s : State) : Host.Outcome State Fault Refusal :=
  execVR (.vsra w) w (fun a b => a.sshiftRight (amount5 b)) s
def execVROL (w : VR) (s : State) : Host.Outcome State Fault Refusal :=
  execVR (.vrol w) w (fun a b => a.rotateLeft (amount5 b)) s
def execVPOPC (w : VR1) (s : State) : Host.Outcome State Fault Refusal := execVR1 (.vpopc w) w popc32 s
def execVCLZ (w : VR1) (s : State) : Host.Outcome State Fault Refusal := execVR1 (.vclz w) w clz32 s
def execVBREV (w : VR1) (s : State) : Host.Outcome State Fault Refusal := execVR1 (.vbrev w) w brev32 s
def execVADD64 (w : VR) (s : State) : Host.Outcome State Fault Refusal :=
  execPair (.vadd64 w) w.k w.d (fun v j => v.pair w.a.toNat j + v.pair w.b.toNat j) s
def execVSUB64 (w : VR) (s : State) : Host.Outcome State Fault Refusal :=
  execPair (.vsub64 w) w.k w.d (fun v j => v.pair w.a.toNat j - v.pair w.b.toNat j) s
def execVMULW (w : VR) (s : State) : Host.Outcome State Fault Refusal :=
  execPair (.vmulw w) w.k w.d (fun v j => mulWide (v.vec w.a.toNat j) (v.vec w.b.toNat j)) s
def execVSHL64 (w : VR) (s : State) : Host.Outcome State Fault Refusal :=
  execPair (.vshl64 w) w.k w.d (fun v j => v.pair w.a.toNat j <<< amount6 (v.vec w.b.toNat j)) s
def execVSHR64 (w : VR) (s : State) : Host.Outcome State Fault Refusal :=
  execPair (.vshr64 w) w.k w.d (fun v j => v.pair w.a.toNat j >>> amount6 (v.vec w.b.toNat j)) s

/-! Integer compares (R121, Table 6.5). -/

def execVCMP_I32_EQ (w : VP) (s : State) : Host.Outcome State Fault Refusal := execCmp32 (.vcmpI32Eq w) w (· == ·) s
def execVCMP_I32_NE (w : VP) (s : State) : Host.Outcome State Fault Refusal := execCmp32 (.vcmpI32Ne w) w (· != ·) s
def execVCMP_I32_LT (w : VP) (s : State) : Host.Outcome State Fault Refusal := execCmp32 (.vcmpI32Lt w) w BitVec.slt s
def execVCMP_I32_LE (w : VP) (s : State) : Host.Outcome State Fault Refusal := execCmp32 (.vcmpI32Le w) w BitVec.sle s
def execVCMP_I32_LTU (w : VP) (s : State) : Host.Outcome State Fault Refusal := execCmp32 (.vcmpI32Ltu w) w BitVec.ult s
def execVCMP_I32_LEU (w : VP) (s : State) : Host.Outcome State Fault Refusal := execCmp32 (.vcmpI32Leu w) w BitVec.ule s
def execVCMP_I32_EQZ (w : VP1) (s : State) : Host.Outcome State Fault Refusal :=
  execCompare (.vcmpI32Eqz w) w.d w.m (fun v j => v.vec w.a.toNat j == 0) s
def execVCMP_I32_NEZ (w : VP1) (s : State) : Host.Outcome State Fault Refusal :=
  execCompare (.vcmpI32Nez w) w.d w.m (fun v j => v.vec w.a.toNat j != 0) s
def execVCMP_I64_EQ (w : VP) (s : State) : Host.Outcome State Fault Refusal := execCmp64 (.vcmpI64Eq w) w (· == ·) s
def execVCMP_I64_NE (w : VP) (s : State) : Host.Outcome State Fault Refusal := execCmp64 (.vcmpI64Ne w) w (· != ·) s
def execVCMP_I64_LT (w : VP) (s : State) : Host.Outcome State Fault Refusal := execCmp64 (.vcmpI64Lt w) w BitVec.slt s
def execVCMP_I64_LE (w : VP) (s : State) : Host.Outcome State Fault Refusal := execCmp64 (.vcmpI64Le w) w BitVec.sle s
def execVCMP_I64_LTU (w : VP) (s : State) : Host.Outcome State Fault Refusal := execCmp64 (.vcmpI64Ltu w) w BitVec.ult s
def execVCMP_I64_LEU (w : VP) (s : State) : Host.Outcome State Fault Refusal := execCmp64 (.vcmpI64Leu w) w BitVec.ule s
def execVCMP_I64_EQZ (w : VP1) (s : State) : Host.Outcome State Fault Refusal :=
  execCompare (.vcmpI64Eqz w) w.d w.m (fun v j => v.pair w.a.toNat j == 0) s
def execVCMP_I64_NEZ (w : VP1) (s : State) : Host.Outcome State Fault Refusal :=
  execCompare (.vcmpI64Nez w) w.d w.m (fun v j => v.pair w.a.toNat j != 0) s

/-! VIM (R116, Table 6.3). -/

def execVADDI (w : VI) (s : State) : Host.Outcome State Fault Refusal := execVI (.vaddi w) w (fun a i => a + immWord i) s
def execVMULI (w : VI) (s : State) : Host.Outcome State Fault Refusal := execVI (.vmuli w) w (fun a i => a * immWord i) s
def execVANDI (w : VI) (s : State) : Host.Outcome State Fault Refusal := execVI (.vandi w) w (fun a i => a &&& immWord i) s
def execVORI (w : VI) (s : State) : Host.Outcome State Fault Refusal := execVI (.vori w) w (fun a i => a ||| immWord i) s
def execVXORI (w : VI) (s : State) : Host.Outcome State Fault Refusal := execVI (.vxori w) w (fun a i => a ^^^ immWord i) s
def execVSHLI (w : VI) (s : State) : Host.Outcome State Fault Refusal := execVI (.vshli w) w (fun a i => a <<< i.toNat) s
def execVSHRI (w : VI) (s : State) : Host.Outcome State Fault Refusal := execVI (.vshri w) w (fun a i => a >>> i.toNat) s
def execVSRAI (w : VI) (s : State) : Host.Outcome State Fault Refusal :=
  execVI (.vsrai w) w (fun a i => a.sshiftRight i.toNat) s
def execVMINI (w : VI) (s : State) : Host.Outcome State Fault Refusal := execVI (.vmini w) w (fun a i => minS a (immWord i)) s
def execVMAXI (w : VI) (s : State) : Host.Outcome State Fault Refusal := execVI (.vmaxi w) w (fun a i => maxS a (immWord i)) s
def execVSHL64I (w : VI) (s : State) : Host.Outcome State Fault Refusal :=
  execPair (.vshl64i w) w.k w.d (fun v j => v.pair w.a.toNat j <<< w.i.toNat) s
def execVSHR64I (w : VI) (s : State) : Host.Outcome State Fault Refusal :=
  execPair (.vshr64i w) w.k w.d (fun v j => v.pair w.a.toNat j >>> w.i.toNat) s
def execVSPLATI (w : VI0) (s : State) : Host.Outcome State Fault Refusal :=
  execVec (.vsplati w) w.k w.d (fun _ _ => immWord w.i) s
def execVIOTA (w : VI0) (s : State) : Host.Outcome State Fault Refusal :=
  execVec (.viota w) w.k w.d (fun _ j => BitVec.ofNat 32 j + immWord w.i) s

/-! VMV (R117 to R120, Table 6.4). -/

def execVMOV (w : VR1) (s : State) : Host.Outcome State Fault Refusal := execVR1 (.vmov w) w id s

def execVBCS (w : VR1) (s : State) : Host.Outcome State Fault Refusal :=
  execVec (.vbcs w) w.k w.d (fun v _ => (v.sc w.a.toNat).setWidth 32) s

/-- The element of lane idx, active or not; of a latch only within the issuing party (R118). -/
def execVGETL (w : VR) (s : State) : Host.Outcome State Fault Refusal :=
  State.word (.vgetl w) (fun v s =>
    let idx := (v.sc w.b.toNat).toNat % 128
    let x : Quad :=
      if w.a.toNat < 124 then (v.src.v w.a.toNat idx).setWidth 64
      else if (v.src.party v.iss.leader).contains (idx / 4) then (v.vec w.a.toNat idx).setWidth 64 else 0
    let s := s.produce v true w.d.toNat (.scalar x)
    .done (if w.k = 1 then s else s.writeV v w.d.toNat x)) s

/-- Lane idx of d, if it is active, and no other lane; the latch entry holds the active lanes of d after the write (R117, R118). -/
def execVSETL (w : VR) (s : State) : Host.Outcome State Fault Refusal :=
  State.word (.vsetl w) (fun v s =>
    let idx := (v.sc w.b.toNat).toNat % 128
    let x := (v.sc w.a.toNat).setWidth 32
    let t := s.produce v true w.d.toNat (.vec (tabulate 0 fun j => if j = idx then x else v.src.v w.d.toNat j))
    .done (if w.k = 1 then t else t.onWave v fun y => y.setV w.d.toNat (v.act &&& laneMask fun j => j = idx) fun _ => x)) s

/-- v[x] for x = s[a] (R119). -/
def execVMOVXR (w : VR1) (s : State) : Host.Outcome State Fault Refusal :=
  State.word (.vmovxr w) (fun v s =>
    match v.indexReg (v.sc w.a.toNat) with
    | none => .trap regidxTrap
    | some x => .done (s.produce v (w.k = 1) w.d.toNat (.vec (tabulate 0 fun j => v.src.v x j)))) s

/-- v[x] := a for x = s[d]; with K = 1 the index is neither read nor checked (R119). -/
def execVMOVXW (w : VR1) (s : State) : Host.Outcome State Fault Refusal :=
  State.word (.vmovxw w) (fun v s =>
    let r : Result := .vec (tabulate 0 fun j => v.vec w.a.toNat j)
    if w.k = 1 then .done (s.produce v true 0 r)
    else match v.indexReg (v.sc w.d.toNat) with
      | none => .trap regidxTrap
      | some x => .done (s.produce v false x r)) s

def execVLANE (w : VR0) (s : State) : Host.Outcome State Fault Refusal :=
  execVec (.vlane w) w.k w.d (fun v j => BitVec.ofNat 32 (j + 65536 * v.rank j)) s

def execVSEL (w : VRS) (s : State) : Host.Outcome State Fault Refusal :=
  execVec (.vsel w) w.k w.d (fun v j => if v.predAt w.p.toNat j then v.vec w.a.toNat j else v.vec w.b.toNat j) s

/-! PRD (R122, R123, Table 6.6). -/

def execPAND (w : PR3) (s : State) : Host.Outcome State Fault Refusal :=
  execPred (.pand w) w.d (fun v j => v.predAt w.a.toNat j && v.predAt w.b.toNat j) s
def execPOR (w : PR3) (s : State) : Host.Outcome State Fault Refusal :=
  execPred (.por w) w.d (fun v j => v.predAt w.a.toNat j || v.predAt w.b.toNat j) s
def execPXOR (w : PR3) (s : State) : Host.Outcome State Fault Refusal :=
  execPred (.pxor w) w.d (fun v j => v.predAt w.a.toNat j != v.predAt w.b.toNat j) s
def execPANDN (w : PR3) (s : State) : Host.Outcome State Fault Refusal :=
  execPred (.pandn w) w.d (fun v j => v.predAt w.a.toNat j && !v.predAt w.b.toNat j) s
def execPNOT (w : PR2) (s : State) : Host.Outcome State Fault Refusal :=
  execPred (.pnot w) w.d (fun v j => !v.predAt w.a.toNat j) s
def execPSET (w : PR1) (s : State) : Host.Outcome State Fault Refusal := execPred (.pset w) w.d (fun _ _ => true) s
def execPCLR (w : PR1) (s : State) : Host.Outcome State Fault Refusal := execPred (.pclr w) w.d (fun _ _ => false) s
def execPFROMS (w : PRDS) (s : State) : Host.Outcome State Fault Refusal :=
  execPred (.pfroms w) w.d (fun v j => (v.src.s (w.s.toNat + j / 64)).getLsbD (j % 64)) s

/-- The mask of the active lanes with pa, into a scalar pair. -/
def execPTOS (w : PRAS) (s : State) : Host.Outcome State Fault Refusal :=
  State.word (.ptos w) (fun v s =>
    let m := v.pred w.a.toNat &&& v.act
    .done ((s.writeV v w.s.toNat (m.setWidth 64)).writeV v (w.s.toNat + 1) ((m >>> 64).setWidth 64))) s

/-- The masks of the issuing slices narrow (R123). -/
def execPEXEC (w : PRA) (s : State) : Host.Outcome State Fault Refusal :=
  State.word (.pexec w) (fun v s =>
    .done (s.onWave v fun x => x.modSlices v.slices fun k q =>
      { q with mask := q.mask &&& BitVec.ofNat 4 ((v.pred w.a.toNat).toNat / 2 ^ (4 * k)) })) s

def execPCOUNT (w : PRAS) (s : State) : Host.Outcome State Fault Refusal :=
  State.word (.pcount w) (fun v s =>
    .done (s.writeV v w.s.toNat (BitVec.ofNat 64 (popcount (v.pred w.a.toNat &&& v.act))))) s

end

end Sys2Proof.Machine
end

