-- ==== Sys2Proof/Machine/CrossLane.lean ====
section
/-! DEFINITION. Cross-lane words (R142 to R144) and the exchange between waves (R145 to R148): VX, VXCHG_MATCH and VXCHG_COMPLETE. -/

namespace Sys2Proof.Machine

/-- The whole source register A across all 128 lanes (R142); a latch has no lanes outside the issuing party (R69, R118). -/
def View.whole (v : View) (c j : Nat) : Word :=
  if c < 124 then v.src.v c j
  else if (v.src.party v.iss.leader).contains (j / 4) then v.vec c j else 0

/-- A lane index or shift amount from a scalar: bits 6:0. -/
def View.laneArg (v : View) (c : BitVec 7) : Nat := (v.sc c.toNat).toNat % 128

/-- The leaves of a reduction or scan: A in the active lanes (R143). -/
def View.leaves (v : View) (c : BitVec 7) : List (Option Nat) :=
  (List.range 128).map fun j => if v.active j then some (v.whole c.toNat j).toNat else none

/-- A reduction: one result in every active lane, 0 for an empty set (R143). -/
def execReduce (i : Instr) (w : VR1) (f : Nat → Nat → Nat) (s : State) : Host.Outcome State Fault Refusal :=
  s.word i fun v s =>
    let r := BitVec.ofNat 32 ((treeReduce f (v.leaves w.a)).getD 0)
    .done (s.produce v (w.k = 1) w.d.toNat (.vec fun _ => r))

/-- A result by lane from a scan; a lane that takes no part holds 0 here and is not written. -/
def scanAt (l : List (Option Nat)) : Nat → Word := tabulate 0 fun j => BitVec.ofNat 32 ((l.getD j none).getD 0)

/-- Signed order of 32-bit patterns. -/
def sle32 (a b : Nat) : Bool := (BitVec.ofNat 32 a).sle (BitVec.ofNat 32 b)

/-- The lanes of the active set with a predicate, ascending (R144). -/
def View.compact (v : View) (p : Nat) : List Nat := v.lanes.filter fun j => v.predAt p j

/-- Mesh hops between the company stops of two cores of one stage (R19, R148). -/
def hopsBetween (a b : Nat) : Nat :=
  let x := companyOf a % 8
  let y := companyOf b % 8
  (max (x % 4) (y % 4) - min (x % 4) (y % 4)) + (max (x / 4) (y / 4) - min (x / 4) (y / 4))

/-- ⌈a ÷ b⌉. -/
def ceilDiv (a b : Nat) : Nat := (a + b - 1) / b

/-- The exchange's latency in company cycles of the core at level nA (R148). -/
def xchgLatency (nA nB h : Nat) : Nat :=
  let m := if h = 0 then 12 else 19 + 2 * (h - 1)
  8 + ceilDiv (8 * (16 + nA)) (16 + nB) + ceilDiv (m * (16 + nA)) 64

/-- The slot of the live wave that an operand names on a core, of the issuing cast or its co-group (R145). -/
def Package.partner? (p : Package) (v : View) (core wave : Nat) : Option Nat :=
  if core / 64 ≠ v.iss.core / 64 then none
  else
    ((p.core core).ctx.waves.zipIdx).findSome? fun x => match x.1 with
      | some w =>
        match p.cast? core w.cast with
        | some c =>
          let kin := if core = v.iss.core then w.cast = v.src.cast else sameGroup c v.cast
          if w.waveId.toNat = wave && kin && !(core = v.iss.core && x.2 = v.iss.slot) then some x.2 else none
        | none => none
      | none => none

/-- A core's table of unmatched tokens holds 64 (R147): a token that finds it full waits, and enters in order. -/
def Core.addToken (k : Core) (t : Token) : Core :=
  let t := { t with seq := k.tokenSeq }
  let k := { k with tokenSeq := k.tokenSeq + 1 }
  if k.tokens.length < 64 && k.tokensWaiting.isEmpty then { k with tokens := k.tokens ++ [t] }
  else { k with tokensWaiting := k.tokensWaiting ++ [t] }

/-- The oldest token at a core from a wave to a wave with a tag (R146). -/
def Core.token? (k : Core) (src dst : WaveKey) (tag : Nat) : Option Token :=
  k.tokens.find? fun t => t.src = src && t.dst = dst && t.tag = tag

/-- Mark a blocked exchange as matched, with the partner's lanes. -/
def Wave.matchXchg (w : Wave) (leader : Nat) (lanes : List Word) (act : LaneMask) : Wave :=
  w.modSlice leader fun s => { s with blocked := s.blocked.map fun b => match b.op with
    | .xchg x none => { b with op := .xchg x (some (lanes, act)) }
    | _ => b }

/-- The operands of a party that waits in an unmatched exchange. -/
def Wave.xchgWaiting (w : Wave) (leader : Nat) : Option XchgArgs :=
  match w.blockedAt leader with
  | some { op := .xchg x none, .. } => some x
  | _ => none

/-- The first cycle of a company that begins now or later (R148). -/
def Clock.cycleFrom (k : Clock) (p : Package) (m : Nat) : Nat :=
  k.cycleOf m + if (16 + (p.company m).level) * k.num % k.den = 0 then 0 else 1

/-- VXCHG_MATCH (R146, R147): the oldest tokens of the two directions meet; the data of both sides moves. -/
def vxchgMatchAt (core slot leader : Nat) (k : Clock) (p : Package) : Package :=
  match p.wave? core slot with
  | none => p
  | some w =>
    match w.xchgWaiting leader with
    | none => p
    | some x =>
      let mine := p.keyOf core slot
      let pcore := x.partner.core
      match (p.core core).token? x.partner mine x.tag with
      | none => p
      | some back =>
        match (p.core pcore).token? mine x.partner x.tag with
        | none => p
        | some forth =>
          let a := w.xchgWaiting forth.leader
          let b := (p.waveOf? x.partner).bind fun w => w.xchgWaiting back.leader
          match a, b with
          | some xa, some xb =>
            let nA := (p.company (companyOf core)).level
            let nB := (p.company (companyOf pcore)).level
            let h := hopsBetween core pcore
            let p := p.modWave core slot fun w => w.matchXchg forth.leader xb.snapshot xb.act
            let p := p.modWave pcore back.src.slot fun w => w.matchXchg back.leader xa.snapshot xa.act
            let p := p.keepTokens fun t => t ≠ back && t ≠ forth
            let due := fun c n m => DueAt.company (companyOf c) (k.cycleFrom p (companyOf c) + xchgLatency n m h)
            (p.later (due core nA nB) (.vxchgComplete core slot forth.leader)).later (due pcore nB nA)
              (.vxchgComplete pcore back.src.slot back.leader)
          | _, _ => p

/-- VXCHG_COMPLETE (R146, R148): d takes the partner's lanes that were active on both sides; the party goes on. -/
def vxchgCompleteAt (core slot leader : Nat) (p : Package) : Package :=
  match p.wave? core slot with
  | none => p
  | some w =>
    match w.blockedAt leader with
    | some { op := .xchg x (some (lanes, act)), .. } =>
      p.modWave core slot fun w => (w.setV x.dest (x.act &&& act) fun j => lanes.getD j 0).endWait leader
    | _ => p

noncomputable section

/-! VX (R142 to R144, Table 7.5). -/

def execVPERM (w : VR) (s : State) : Host.Outcome State Fault Refusal :=
  execVec (.vperm w) w.k w.d (fun v j => v.whole w.a.toNat ((v.vec w.b.toNat j).toNat % 128)) s
def execVBCL (w : VR) (s : State) : Host.Outcome State Fault Refusal :=
  execVec (.vbcl w) w.k w.d (fun v _ => v.whole w.a.toNat (v.laneArg w.b)) s
def execVROTL (w : VR) (s : State) : Host.Outcome State Fault Refusal :=
  execVec (.vrotl w) w.k w.d (fun v j => v.whole w.a.toNat ((j + v.laneArg w.b) % 128)) s
def execVXORL (w : VR) (s : State) : Host.Outcome State Fault Refusal :=
  execVec (.vxorl w) w.k w.d (fun v j => v.whole w.a.toNat (j ^^^ v.laneArg w.b)) s
def execVUPL (w : VR) (s : State) : Host.Outcome State Fault Refusal :=
  execVec (.vupl w) w.k w.d (fun v j =>
    if v.laneArg w.b ≤ j then v.whole w.a.toNat (j - v.laneArg w.b) else v.src.v w.d.toNat j) s
def execVDNL (w : VR) (s : State) : Host.Outcome State Fault Refusal :=
  execVec (.vdnl w) w.k w.d (fun v j =>
    if j + v.laneArg w.b ≤ 127 then v.whole w.a.toNat (j + v.laneArg w.b) else v.src.v w.d.toNat j) s
def execIREDADD (w : VR1) (s : State) : Host.Outcome State Fault Refusal :=
  execReduce (.iredadd w) w (fun a b => (a + b) % 4294967296) s
def execIREDMIN (w : VR1) (s : State) : Host.Outcome State Fault Refusal :=
  execReduce (.iredmin w) w (fun a b => if sle32 a b then a else b) s
def execIREDMAX (w : VR1) (s : State) : Host.Outcome State Fault Refusal :=
  execReduce (.iredmax w) w (fun a b => if sle32 a b then b else a) s

/-- The tree sum, with the flags of each add step (R109, R143). -/
def execFREDADD (w : VR1) (s : State) : Host.Outcome State Fault Refusal :=
  State.word (.fredadd w) (fun v s =>
    let r := (treeReduce (Flagged.addStep fmtF32) ((v.leaves w.a).map (Option.map plain))).getD (plain 0)
    .done ((s.produce v (w.k = 1) w.d.toNat (.vec fun _ => BitVec.ofNat 32 r.bits)).raiseFlags v r.flags)) s

def execFREDMIN (w : VR1) (s : State) : Host.Outcome State Fault Refusal := execReduce (.fredmin w) w (fmtF32.minMax false) s
def execFREDMAX (w : VR1) (s : State) : Host.Outcome State Fault Refusal := execReduce (.fredmax w) w (fmtF32.minMax true) s

def execISCAN (w : VR1) (s : State) : Host.Outcome State Fault Refusal :=
  State.word (.iscan w) (fun v s =>
    .done (s.produce v (w.k = 1) w.d.toNat
      (.vec (scanAt (scanFrom (fun a b => (a + b) % 4294967296) none (v.leaves w.a)))))) s

def execFSCAN (w : VR1) (s : State) : Host.Outcome State Fault Refusal :=
  State.word (.fscan w) (fun v s =>
    let l := scanFrom (Flagged.addStep fmtF32) none ((v.leaves w.a).map (Option.map plain))
    let fl := l.foldl (fun f x => f ||| ((x.map Flagged.flags).getD 0)) 0
    .done ((s.produce v (w.k = 1) w.d.toNat (.vec (scanAt (l.map (Option.map Flagged.bits))))).raiseFlags v fl)) s

def execVCOMPACT (w : VRP) (s : State) : Host.Outcome State Fault Refusal :=
  State.word (.vcompact w) (fun v s =>
    let l := v.compact w.p.toNat
    .done (s.produce v (w.k = 1) w.d.toNat (.vec (tabulate 0 fun j =>
      match l[v.rank j]? with
      | some q => v.whole w.a.toNat q
      | none => v.src.v w.d.toNat j)))) s

/-- VXCHG (R145 to R147): the operand names the partner; a token goes to its core, and the party waits for its pair. -/
def execVXCHG (w : R3) (s : State) : Host.Outcome State Fault Refusal :=
  State.word (.vxchg w) (fun v s =>
    let x := v.sc w.b.toNat
    let pcore := bits x.toNat 0 8
    let pwave := bits x.toNat 8 6
    let tag := bits x.toNat 16 16
    match s.pkg.partner? v pcore pwave with
    | none => .trap { cause := .xchgPartner, addr := x }
    | some ps =>
      let partner := s.pkg.keyOf pcore ps
      let a : XchgArgs := { operand := x, partner := partner, tag := tag, dest := w.d.toNat,
                            snapshot := (List.range 128).map fun j => v.vec w.a.toNat j, act := v.act }
      let t : Token := { src := s.pkg.keyOf v.iss.core v.iss.slot, leader := v.iss.leader, dst := partner, tag := tag, seq := 0 }
      .block (s.modPkg fun p => (p.modCore pcore fun k => k.addToken t).later .now (.vxchgMatch v.iss.core v.iss.slot v.iss.leader))
        (.xchg a none)) s

end

def execVXCHG_MATCH (core slot leader : Nat) (s : State) : Host.Outcome State Fault Refusal :=
  s.event (vxchgMatchAt core slot leader)

def execVXCHG_COMPLETE (core slot leader : Nat) (s : State) : Host.Outcome State Fault Refusal :=
  s.event fun _ => vxchgCompleteAt core slot leader

end Sys2Proof.Machine
end

