-- ==== Sys2Proof/Machine/Scalar.lean ====
section
/-! DEFINITION. Scalar words (R124 to R128, R170, R171, R359): SA, SI, SK and CTL. -/

namespace Sys2Proof.Machine

/-- A shift amount: bits 5:0. -/
def amountQ (b : Quad) : Nat := b.toNat % 64

/-- Bits 127:64 of the unsigned product. -/
def mulhQ (a b : Quad) : Quad := BitVec.ofNat 64 (a.toNat * b.toNat / 2 ^ 64)

/-- 1 or 0. -/
def bitQ (c : Bool) : Quad := if c then 1 else 0

/-- SA: a scalar producer of two sources. -/
def execSA (i : Instr) (w : VR) (f : Quad → Quad → Quad) (s : State) : Host.Outcome State Fault Refusal :=
  execScalar i w.k w.d (fun v => f (v.sc w.a.toNat) (v.sc w.b.toNat)) s

/-- SI: a scalar producer with an immediate. -/
def execSI (i : Instr) (w : SI) (f : Quad → BitVec 8 → Quad) (s : State) : Host.Outcome State Fault Refusal :=
  execScalar i w.k w.d (fun v => f (v.sc w.a.toNat) w.i) s

/-- MODE (Table 4.5). -/
def Package.modeReg (p : Package) (part : Nat) : Nat :=
  16 + (if (p.part part).recov then 8 else 0) + (if (p.part part).ordCur then 4 else 0) + p.win.gatemodeCur % 4

/-- The control registers of Table 4.2 as MOVC reads them: in the cycle that a reference-tick boundary begins, what the prompter writes there is not read yet (R88). -/
def View.control (v : View) (s : State) (n : Nat) : Quad :=
  let w := v.src
  let c := (s.pkg.cast? v.iss.core w.cast).getD v.cast
  let m := companyOf v.iss.core
  let h : Hints := if s.clk.num = 0 && c.before.tick = s.clk.rtick then c.before
    else { growok := c.growok, shrinkreq := c.shrinkreq, refrcost := c.refrcost }
  match n with
  | 0x000 => w.waveId.setWidth 64
  | 0x001 => c.castid.setWidth 64
  | 0x002 => c.castindex.setWidth 64
  | 0x003 => c.launchid.setWidth 64
  | 0x004 => c.nwaves.setWidth 64
  | 0x005 => match w.role with | .general => 0 | .copy => 1 | .matrix => 2 | .vector => 3
  | 0x006 => c.regcount.setWidth 64
  | 0x007 => c.spsize.setWidth 64
  | 0x008 => BitVec.ofNat 64 v.iss.core
  | 0x009 => BitVec.ofNat 64 m
  | 0x00A => BitVec.ofNat 64 (stageOf v.iss.core)
  | 0x00B => c.cogroup.setWidth 64
  | 0x010 => h.growok.setWidth 64
  | 0x011 => h.shrinkreq.setWidth 64
  | 0x012 => h.refrcost
  | 0x018 => w.fpflags.setWidth 64
  | 0x019 => w.waitlimit
  | 0x020 => BitVec.ofNat 64 (s.clk.cycleOf m)
  | 0x021 => BitVec.ofNat 64 s.clk.rtick
  | 0x022 => BitVec.ofNat 64 (256 * c.req.toNat + (s.pkg.company m).level % 64)
  | 0x023 => BitVec.ofNat 64 (s.pkg.modeReg c.partition)
  | 0x030 => c.trappc
  | 0x031 => w.epc
  | 0x032 => w.trapcause.setWidth 64
  | 0x033 => w.trapaddr
  | 0x034 => w.traplanes.setWidth 64
  | 0x035 => (w.traplanes >>> 64).setWidth 64
  | _ => 0

/-- A MOVC of NWAVES is remembered until the end of its cycle: a change of membership in that cycle gives it the value after the change (R88). -/
def State.noteCount (s : State) (v : View) (keep : Bool) (d : Nat) (x : Quad) : State :=
  let r : CountRead :=
    { leader := v.iss.leader, dest := if keep then none else some d, value := x, packet := v.win.packet, seq := 4 * v.win.packet + v.iss.pslot }
  s.onWave v fun w => { w with countRead := some r }

/-- A write to a control register (R128). FPFLAGS takes the flags that the chain raises besides (R88). -/
def State.movcw (s : State) (v : View) (n : Nat) (x : Quad) : State :=
  match n with
  | 0x018 => s.onWave v fun w => { w with fpflags := x.setWidth 5 ||| ((s.cur.map Issue.raised).getD 0) }
  | 0x019 => s.onWave v fun w => { w with waitlimit := x }
  | 0x030 => s.modPkg fun p => p.modCast v.iss.core v.src.cast fun c => { c with trappc := alignPc x }
  | 0x031 => s.onWave v fun w => { w with epc := alignPc x }
  | _ => s

/-- Fields of a tile register (Table 9.1). -/
def tileBase (t : Quad) : Nat := bits t.toNat 0 15
def tilePitch (t : Quad) : Nat := bits t.toNat 32 10
def tileScaleBase (t : Quad) : Nat := bits t.toNat 42 15

/-- The end of a tile and of its scales (R171): one past the last byte. -/
def tileEnd (t : Quad) : Nat := 16 * tileBase t + 16 * tilePitch t * (tileRows t - 1) + 64
def scaleEnd (t : Quad) : Nat :=
  16 * tileScaleBase t + (if tileScaleMode t = 1 then 4 * tileRows t else if tileScaleMode t = 2 then 4 else 0)

/-- The checks of TDESC in their order (R171). -/
def View.tdescTrap (v : View) (t : Quad) : Option Trap :=
  let size := v.cast.spsize.toNat
  if bits t.toNat 59 5 ≠ 0 || 5 ≤ tileFmt t || tileScaleMode t = 3 || !tileValid t || tilePitch t < 4 then some v.operandTrap
  else if size < tileEnd t then some { cause := .spRange, addr := BitVec.ofNat 64 (tileEnd t) }
  else if tileScaleMode t ≠ 0 && size < scaleEnd t then some { cause := .spRange, addr := BitVec.ofNat 64 (scaleEnd t) }
  else none

/-- A request as PERFREQ takes it: 57 to 254 are 56 (R359). -/
def perfRequest (x : Quad) : BitVec 8 :=
  let q := x.setWidth 8
  if q = 255 then 255 else if 56 < q.toNat then 56 else q

/-- The rank of a request: a withdrawal is below level 0. -/
def perfRank (q : BitVec 8) : Nat := if q = 255 then 0 else q.toNat + 1

/-- REQ after a request in an epoch (R359); `reqEpoch` is the epoch of the last request plus 1. -/
def Cast.request (c : Cast) (epoch : Nat) (q : BitVec 8) : Cast :=
  if c.reqEpoch = epoch + 1 then { c with req := if perfRank c.req < perfRank q then q else c.req }
  else { c with req := q, reqEpoch := epoch + 1 }

noncomputable section

/-! SA (R124, Table 6.7). -/

def execSADD (w : VR) (s : State) : Host.Outcome State Fault Refusal := execSA (.sadd w) w (· + ·) s
def execSSUB (w : VR) (s : State) : Host.Outcome State Fault Refusal := execSA (.ssub w) w (· - ·) s
def execSMUL (w : VR) (s : State) : Host.Outcome State Fault Refusal := execSA (.smul w) w (· * ·) s
def execSMULHU (w : VR) (s : State) : Host.Outcome State Fault Refusal := execSA (.smulhu w) w mulhQ s
def execSDIV (w : VR) (s : State) : Host.Outcome State Fault Refusal := execSA (.sdiv w) w divS s
def execSDIVU (w : VR) (s : State) : Host.Outcome State Fault Refusal := execSA (.sdivu w) w divU s
def execSREM (w : VR) (s : State) : Host.Outcome State Fault Refusal := execSA (.srem w) w remS s
def execSREMU (w : VR) (s : State) : Host.Outcome State Fault Refusal := execSA (.sremu w) w remU s
def execSAND (w : VR) (s : State) : Host.Outcome State Fault Refusal := execSA (.sand w) w (· &&& ·) s
def execSOR (w : VR) (s : State) : Host.Outcome State Fault Refusal := execSA (.sor w) w (· ||| ·) s
def execSXOR (w : VR) (s : State) : Host.Outcome State Fault Refusal := execSA (.sxor w) w (· ^^^ ·) s
def execSSHL (w : VR) (s : State) : Host.Outcome State Fault Refusal := execSA (.sshl w) w (fun a b => a <<< amountQ b) s
def execSSHR (w : VR) (s : State) : Host.Outcome State Fault Refusal := execSA (.sshr w) w (fun a b => a >>> amountQ b) s
def execSSRA (w : VR) (s : State) : Host.Outcome State Fault Refusal :=
  execSA (.ssra w) w (fun a b => a.sshiftRight (amountQ b)) s
def execSSLT (w : VR) (s : State) : Host.Outcome State Fault Refusal := execSA (.sslt w) w (fun a b => bitQ (a.slt b)) s
def execSSLTU (w : VR) (s : State) : Host.Outcome State Fault Refusal := execSA (.ssltu w) w (fun a b => bitQ (a.ult b)) s

/-! SI (R125). -/

def execSADDI (w : SI) (s : State) : Host.Outcome State Fault Refusal := execSI (.saddi w) w (fun a i => a + immQuad i) s
def execSANDI (w : SI) (s : State) : Host.Outcome State Fault Refusal := execSI (.sandi w) w (fun a i => a &&& immQuad i) s
def execSORI (w : SI) (s : State) : Host.Outcome State Fault Refusal := execSI (.sori w) w (fun a i => a ||| immQuad i) s
def execSXORI (w : SI) (s : State) : Host.Outcome State Fault Refusal := execSI (.sxori w) w (fun a i => a ^^^ immQuad i) s
def execSSHLI (w : SI) (s : State) : Host.Outcome State Fault Refusal := execSI (.sshli w) w (fun a i => a <<< i.toNat) s
def execSSHRI (w : SI) (s : State) : Host.Outcome State Fault Refusal := execSI (.sshri w) w (fun a i => a >>> i.toNat) s
def execSSRAI (w : SI) (s : State) : Host.Outcome State Fault Refusal :=
  execSI (.ssrai w) w (fun a i => a.sshiftRight i.toNat) s
def execSSLTI (w : SI) (s : State) : Host.Outcome State Fault Refusal :=
  execSI (.sslti w) w (fun a i => bitQ (a.slt (immQuad i))) s

/-! SK (R126). -/

def execSLI (w : SKK) (s : State) : Host.Outcome State Fault Refusal :=
  execScalar (.sli w) w.k w.d (fun _ => immQuad w.i) s

/-- SHI shifts the register in; it is no latched producer. -/
def execSHI (w : SKN) (s : State) : Host.Outcome State Fault Refusal :=
  State.word (.shi w) (fun v s => .done (s.writeS v w.d.toNat (v.src.s w.d.toNat <<< 17 ||| w.i.setWidth 64))) s

/-! CTL (R127, R128, R170, R171, R359). -/

def execMOVC (w : CTK) (s : State) : Host.Outcome State Fault Refusal :=
  State.word (.movc w) (fun v s =>
    let x := v.control s w.n.toNat
    let t := s.produce v true w.s.toNat (.scalar x)
    let t := if w.k = 1 then t else t.writeS v w.s.toNat x
    .done (if w.n = 4 then t.noteCount v (w.k = 1) w.s.toNat x else t)) s

def execMOVCW (w : CTN) (s : State) : Host.Outcome State Fault Refusal :=
  State.word (.movcw w) (fun v s => .done (s.movcw v w.n.toNat (v.sc w.s.toNat))) s

def execTDESC (w : CTT) (s : State) : Host.Outcome State Fault Refusal :=
  State.word (.tdesc w) (fun v s =>
    let t := v.sc w.s.toNat
    match v.tdescTrap t with
    | some tr => .trap tr
    | none => .done (s.onWave v fun x => { x with tiles := setAt x.tiles w.t.toNat t })) s

def execTDESCR (w : CTT) (s : State) : Host.Outcome State Fault Refusal :=
  State.word (.tdescr w) (fun v s => .done (s.writeS v w.s.toNat (v.src.tiles.getD w.t.toNat 0))) s

def execPERFREQ (w : S1) (s : State) : Host.Outcome State Fault Refusal :=
  State.word (.perfreq w) (fun v s =>
    .done (s.modPkg fun p => p.modCast v.iss.core v.src.cast fun c =>
      c.request (s.clk.rtick / 250) (perfRequest (v.sc w.s.toNat)))) s

end

end Sys2Proof.Machine
end

