-- ==== Sys2Proof/Machine/Dispatch.lean ====
section
/-! DEFINITION. The meaning of every instruction: one arm per constructor of Instr, each a direct call. -/

namespace Sys2Proof.Machine

open Sys2Proof in noncomputable def exec (i : Instr) (s : State) : Host.Outcome State Fault Refusal :=
  match i with
  | .waitTimeout core slot leader => Sys2Proof.Machine.execWAIT_TIMEOUT core slot leader s
  | .trapDelivery core slot => Sys2Proof.Machine.execTRAP_DELIVERY core slot s
  | .barrierRelease core => Sys2Proof.Machine.execBARRIER_RELEASE core s
  | .fullEmptyCommit core slot leader => Sys2Proof.Machine.execFULL_EMPTY_COMMIT core slot leader s
  | .queueBlockedCommit core slot leader => Sys2Proof.Machine.execQUEUE_BLOCKED_COMMIT core slot leader s
  | .ringWaitCommit core slot leader => Sys2Proof.Machine.execRING_WAIT_COMMIT core slot leader s
  | .sleepEnd core slot slice => Sys2Proof.Machine.execSLEEP_END core slot slice s
  | .wavePromotion core slot => Sys2Proof.Machine.execWAVE_PROMOTION core slot s
  | .promotionEnd core slot => Sys2Proof.Machine.execPROMOTION_END core slot s
  | .vxchgMatch core slot leader => Sys2Proof.Machine.execVXCHG_MATCH core slot leader s
  | .vxchgComplete core slot leader => Sys2Proof.Machine.execVXCHG_COMPLETE core slot leader s
  | .waitstComplete core slot leader => Sys2Proof.Machine.execWAITST_COMPLETE core slot leader s
  | .mwaitComplete core slot leader => Sys2Proof.Machine.execMWAIT_COMPLETE core slot leader s
  | .fencePerformed core slot => Sys2Proof.Machine.execFENCE_PERFORMED core slot s
  | .attachWaitRetry core slot => Sys2Proof.Machine.execATTACH_WAIT_RETRY core slot s
  | .attachCycleBreak core => Sys2Proof.Machine.execATTACH_CYCLE_BREAK core s
  | .matrixCommandAccept core => Sys2Proof.Machine.execMATRIX_COMMAND_ACCEPT core s
  | .matrixCommandComplete core => Sys2Proof.Machine.execMATRIX_COMMAND_COMPLETE core s
  | .followSlotFire core fslot => Sys2Proof.Machine.execFOLLOW_SLOT_FIRE core fslot s
  | .collectiveCreateRetry core slot => Sys2Proof.Machine.execCOLLECTIVE_CREATE_RETRY core slot s
  | .collectiveStart core => Sys2Proof.Machine.execCOLLECTIVE_START core s
  | .copyRequestReturn core run => Sys2Proof.Machine.execCOPY_REQUEST_RETURN core run s
  | .copyFaultResume core rec => Sys2Proof.Machine.execCOPY_FAULT_RESUME core rec s
  | .collectiveComplete core rec => Sys2Proof.Machine.execCOLLECTIVE_COMPLETE core rec s
  | .sliceRequest company => Sys2Proof.Machine.execSLICE_REQUEST company s
  | .l2Fill company => Sys2Proof.Machine.execL2_FILL company s
  | .storeAck core => Sys2Proof.Machine.execSTORE_ACK core s
  | .loadReturn core => Sys2Proof.Machine.execLOAD_RETURN core s
  | .flushMarkerArrival stage => Sys2Proof.Machine.execFLUSH_MARKER_ARRIVAL stage s
  | .gatherReply stage => Sys2Proof.Machine.execGATHER_REPLY stage s
  | .ticketRelease entry => Sys2Proof.Machine.execTICKET_RELEASE entry s
  | .sliceReleaseApply company => Sys2Proof.Machine.execSLICE_RELEASE_APPLY company s
  | .ticketAdvance entry => Sys2Proof.Machine.execTICKET_ADVANCE entry s
  | .faultRecordService act => Sys2Proof.Machine.execFAULT_RECORD_SERVICE act s
  | .pageResolution core slot => Sys2Proof.Machine.execPAGE_RESOLUTION core slot s
  | .pageWalk company => Sys2Proof.Machine.execPAGE_WALK company s
  | .walkComplete company => Sys2Proof.Machine.execWALK_COMPLETE company s
  | .shootdown core part va len => Sys2Proof.Machine.execSHOOTDOWN core part va len s
  | .shootdownRemoval core => Sys2Proof.Machine.execSHOOTDOWN_REMOVAL core s
  | .shootdownAck core => Sys2Proof.Machine.execSHOOTDOWN_ACK core s
  | .atsTranslationCompletion tag r => Sys2Proof.Machine.execATS_TRANSLATION_COMPLETION tag r s
  | .prgResponse tag r => Sys2Proof.Machine.execPRG_RESPONSE tag r s
  | .atsInvalidateRequest pasid va log2 => Sys2Proof.Machine.execATS_INVALIDATE_REQUEST pasid va log2 s
  | .atsInvalidateRemoval => Sys2Proof.Machine.execATS_INVALIDATE_REMOVAL s
  | .invalidationCompletion => Sys2Proof.Machine.execINVALIDATION_COMPLETION s
  | .hostReadCompletion tag data => Sys2Proof.Machine.execHOST_READ_COMPLETION tag data s
  | .atomicopCompletion tag data => Sys2Proof.Machine.execATOMICOP_COMPLETION tag data s
  | .hmqEntryWrite part => Sys2Proof.Machine.execHMQ_ENTRY_WRITE part s
  | .cueAppend => Sys2Proof.Machine.execCUE_APPEND s
  | .batchFormation part node => Sys2Proof.Machine.execBATCH_FORMATION part node s
  | .nodeRetirement part node => Sys2Proof.Machine.execNODE_RETIREMENT part node s
  | .dcUpdate => Sys2Proof.Machine.execDC_UPDATE s
  | .dcwaitRelease core slot leader => Sys2Proof.Machine.execDCWAIT_RELEASE core slot leader s
  | .placementPass => Sys2Proof.Machine.execPLACEMENT_PASS s
  | .launch core => Sys2Proof.Machine.execLAUNCH core s
  | .resume core => Sys2Proof.Machine.execRESUME core s
  | .preempt core => Sys2Proof.Machine.execPREEMPT core s
  | .contextSave core cslot => Sys2Proof.Machine.execCONTEXT_SAVE core cslot s
  | .kill core => Sys2Proof.Machine.execKILL core s
  | .companyGating company => Sys2Proof.Machine.execCOMPANY_GATING company s
  | .companyWakeEnd company => Sys2Proof.Machine.execCOMPANY_WAKE_END company s
  | .epochStart => Sys2Proof.Machine.execEPOCH_START s
  | .levelStep company => Sys2Proof.Machine.execLEVEL_STEP company s
  | .refreshBurst vault => Sys2Proof.Machine.execREFRESH_BURST vault s
  | .frozenRefreshBurst vault => Sys2Proof.Machine.execFROZEN_REFRESH_BURST vault s
  | .vaultTurnStart vault part => Sys2Proof.Machine.execVAULT_TURN_START vault part s
  | .vaultRequest vault => Sys2Proof.Machine.execVAULT_REQUEST vault s
  | .recoveryPoint part => Sys2Proof.Machine.execRECOVERY_POINT part s
  | .rollback part unit => Sys2Proof.Machine.execROLLBACK part unit s
  | .hardfailFreeze => Sys2Proof.Machine.execHARDFAIL_FREEZE s
  | .dieLinkHeaderFailure link => Sys2Proof.Machine.execDIE_LINK_HEADER_FAILURE link s
  | .dieLinkPoison link line sector => Sys2Proof.Machine.execDIE_LINK_POISON link line sector s
  | .bankFailure core row group => Sys2Proof.Machine.execBANK_FAILURE core row group s
  | .sliceRetireReassign company => Sys2Proof.Machine.execSLICE_RETIRE_REASSIGN company s
  | .understudySwap => Sys2Proof.Machine.execUNDERSTUDY_SWAP s
  | .understudySwapEnd => Sys2Proof.Machine.execUNDERSTUDY_SWAP_END s
  | .stopatStop => Sys2Proof.Machine.execSTOPAT_STOP s
  | .powerOnReset straps => Sys2Proof.Machine.execPOWER_ON_RESET straps s
  | .functionLevelReset part => Sys2Proof.Machine.execFUNCTION_LEVEL_RESET part s
  | .gateAccept gate a => Sys2Proof.Machine.execGATE_ACCEPT gate a s
  | .replayInject gate => Sys2Proof.Machine.execREPLAY_INJECT gate s
  | .egressTransaction gate t => Sys2Proof.Machine.execEGRESS_TRANSACTION gate t s
  | .egdigest gate => Sys2Proof.Machine.execEGDIGEST gate s
  | .vaultTemperatureSample vault temp => Sys2Proof.Machine.execVAULT_TEMPERATURE_SAMPLE vault temp s
  | .coreTemperatureSample core temp => Sys2Proof.Machine.execCORE_TEMPERATURE_SAMPLE core temp s
  | .packageCurrentSample x => Sys2Proof.Machine.execPACKAGE_CURRENT_SAMPLE x s
  | .companyVoltageSample company mv => Sys2Proof.Machine.execCOMPANY_VOLTAGE_SAMPLE company mv s
  | .houseFlitReceive port f bad => Sys2Proof.Machine.execHOUSE_FLIT_RECEIVE port f bad s
  | .houseResendRequest port seq => Sys2Proof.Machine.execHOUSE_RESEND_REQUEST port seq s
  | .windowScrub port bad => Sys2Proof.Machine.execWINDOW_SCRUB port bad s
  | .houseFlitDeliver port => Sys2Proof.Machine.execHOUSE_FLIT_DELIVER port s
  | .houseWrite port f => Sys2Proof.Machine.execHOUSE_WRITE port f s
  | .houseReadRequest port f => Sys2Proof.Machine.execHOUSE_READ_REQUEST port f s
  | .houseReadCompletion port f => Sys2Proof.Machine.execHOUSE_READ_COMPLETION port f s
  | .houseAtomic port f => Sys2Proof.Machine.execHOUSE_ATOMIC port f s
  | .houseAtomicCompletion port f => Sys2Proof.Machine.execHOUSE_ATOMIC_COMPLETION port f s
  | .endToEndAck port f => Sys2Proof.Machine.execEND_TO_END_ACK port f s
  | .houseManagementFlit port f => Sys2Proof.Machine.execHOUSE_MANAGEMENT_FLIT port f s
  | .timeSyncExchange port => Sys2Proof.Machine.execTIME_SYNC_EXCHANGE port s
  | .hostWindowWrite off v => Sys2Proof.Machine.execHOST_WINDOW_WRITE off v s
  | .statusClear v => Sys2Proof.Machine.execSTATUS_CLEAR v s
  | .replaybrkClear v => Sys2Proof.Machine.execREPLAYBRK_CLEAR v s
  | .powercapWrite v => Sys2Proof.Machine.execPOWERCAP_WRITE v s
  | .partitionConfigure k v ctx => Sys2Proof.Machine.execPARTITION_CONFIGURE k v ctx s
  | .partitionSwap k v => Sys2Proof.Machine.execPARTITION_SWAP k v s
  | .orderedBitWrite k v => Sys2Proof.Machine.execORDERED_BIT_WRITE k v s
  | .gatemodeWrite v => Sys2Proof.Machine.execGATEMODE_WRITE v s
  | .stopatWrite v => Sys2Proof.Machine.execSTOPAT_WRITE v s
  | .logtailWrite g v => Sys2Proof.Machine.execLOGTAIL_WRITE g v s
  | .hmqtailWrite k v => Sys2Proof.Machine.execHMQTAIL_WRITE k v s
  | .hmqsizeWrite k v => Sys2Proof.Machine.execHMQSIZE_WRITE k v s
  | .take => Sys2Proof.Machine.execTAKE s
  | .restore => Sys2Proof.Machine.execRESTORE s
  | .thaw => Sys2Proof.Machine.execTHAW s
  | .freeze => Sys2Proof.Machine.execFREEZE s
  | .reset => Sys2Proof.Machine.execRESET s
  | .tableauOperationEnd => Sys2Proof.Machine.execTABLEAU_OPERATION_END s
  | .nodeCommit k node v => Sys2Proof.Machine.execNODE_COMMIT k node v s
  | .nodeWithdraw k node => Sys2Proof.Machine.execNODE_WITHDRAW k node s
  | .nodeEntryWrite k node off v => Sys2Proof.Machine.execNODE_ENTRY_WRITE k node off v s
  | .cuePush k node data => Sys2Proof.Machine.execCUE_PUSH k node data s
  | .cueClose k node v => Sys2Proof.Machine.execCUE_CLOSE k node v s
  | .nodercClear k node => Sys2Proof.Machine.execNODERC_CLEAR k node s
  | .errorCounterClear idx => Sys2Proof.Machine.execERROR_COUNTER_CLEAR idx s
  | .serviceRegionAccess off len data => Sys2Proof.Machine.execSERVICE_REGION_ACCESS off len data s
  | .hostKill part castid => Sys2Proof.Machine.execHOST_KILL part castid s
  | .retireSlice stage company => Sys2Proof.Machine.execRETIRE_SLICE stage company s
  | .windowWrite off v => Sys2Proof.Machine.execWINDOW_WRITE off v s
  | .windowRead off => Sys2Proof.Machine.execWINDOW_READ off s
  | .cueemitAnswer core slot leader => Sys2Proof.Machine.execCUEEMIT_ANSWER core slot leader s
  | .refreshBurstEnd vault => Sys2Proof.Machine.execREFRESH_BURST_END vault s
  | .arrivalJournalInject part => Sys2Proof.Machine.execARRIVAL_JOURNAL_INJECT part s
  | .vadd w => Sys2Proof.Machine.execVADD w s
  | .vsub w => Sys2Proof.Machine.execVSUB w s
  | .vmul w => Sys2Proof.Machine.execVMUL w s
  | .vmulh w => Sys2Proof.Machine.execVMULH w s
  | .vmulhu w => Sys2Proof.Machine.execVMULHU w s
  | .vmad w => Sys2Proof.Machine.execVMAD w s
  | .vmin w => Sys2Proof.Machine.execVMIN w s
  | .vmax w => Sys2Proof.Machine.execVMAX w s
  | .vminu w => Sys2Proof.Machine.execVMINU w s
  | .vmaxu w => Sys2Proof.Machine.execVMAXU w s
  | .vadds w => Sys2Proof.Machine.execVADDS w s
  | .vsubs w => Sys2Proof.Machine.execVSUBS w s
  | .vdiv w => Sys2Proof.Machine.execVDIV w s
  | .vdivu w => Sys2Proof.Machine.execVDIVU w s
  | .vrem w => Sys2Proof.Machine.execVREM w s
  | .vremu w => Sys2Proof.Machine.execVREMU w s
  | .vand w => Sys2Proof.Machine.execVAND w s
  | .vor w => Sys2Proof.Machine.execVOR w s
  | .vxor w => Sys2Proof.Machine.execVXOR w s
  | .vandn w => Sys2Proof.Machine.execVANDN w s
  | .vshl w => Sys2Proof.Machine.execVSHL w s
  | .vshr w => Sys2Proof.Machine.execVSHR w s
  | .vsra w => Sys2Proof.Machine.execVSRA w s
  | .vrol w => Sys2Proof.Machine.execVROL w s
  | .vpopc w => Sys2Proof.Machine.execVPOPC w s
  | .vclz w => Sys2Proof.Machine.execVCLZ w s
  | .vbrev w => Sys2Proof.Machine.execVBREV w s
  | .vadd64 w => Sys2Proof.Machine.execVADD64 w s
  | .vsub64 w => Sys2Proof.Machine.execVSUB64 w s
  | .vmulw w => Sys2Proof.Machine.execVMULW w s
  | .vshl64 w => Sys2Proof.Machine.execVSHL64 w s
  | .vshr64 w => Sys2Proof.Machine.execVSHR64 w s
  | .vcmpI32Eq w => Sys2Proof.Machine.execVCMP_I32_EQ w s
  | .vcmpI32Ne w => Sys2Proof.Machine.execVCMP_I32_NE w s
  | .vcmpI32Lt w => Sys2Proof.Machine.execVCMP_I32_LT w s
  | .vcmpI32Le w => Sys2Proof.Machine.execVCMP_I32_LE w s
  | .vcmpI32Ltu w => Sys2Proof.Machine.execVCMP_I32_LTU w s
  | .vcmpI32Leu w => Sys2Proof.Machine.execVCMP_I32_LEU w s
  | .vcmpI32Eqz w => Sys2Proof.Machine.execVCMP_I32_EQZ w s
  | .vcmpI32Nez w => Sys2Proof.Machine.execVCMP_I32_NEZ w s
  | .vcmpI64Eq w => Sys2Proof.Machine.execVCMP_I64_EQ w s
  | .vcmpI64Ne w => Sys2Proof.Machine.execVCMP_I64_NE w s
  | .vcmpI64Lt w => Sys2Proof.Machine.execVCMP_I64_LT w s
  | .vcmpI64Le w => Sys2Proof.Machine.execVCMP_I64_LE w s
  | .vcmpI64Ltu w => Sys2Proof.Machine.execVCMP_I64_LTU w s
  | .vcmpI64Leu w => Sys2Proof.Machine.execVCMP_I64_LEU w s
  | .vcmpI64Eqz w => Sys2Proof.Machine.execVCMP_I64_EQZ w s
  | .vcmpI64Nez w => Sys2Proof.Machine.execVCMP_I64_NEZ w s
  | .vcmpF32Eq w => Sys2Proof.Machine.execVCMP_F32_EQ w s
  | .vcmpF32Lt w => Sys2Proof.Machine.execVCMP_F32_LT w s
  | .vcmpF32Le w => Sys2Proof.Machine.execVCMP_F32_LE w s
  | .vcmpF32Ne w => Sys2Proof.Machine.execVCMP_F32_NE w s
  | .vcmpF32Un w => Sys2Proof.Machine.execVCMP_F32_UN w s
  | .vcmpF32Ord w => Sys2Proof.Machine.execVCMP_F32_ORD w s
  | .vcmpF32Isnan w => Sys2Proof.Machine.execVCMP_F32_ISNAN w s
  | .vcmpF32Isinf w => Sys2Proof.Machine.execVCMP_F32_ISINF w s
  | .vcmpF64Eq w => Sys2Proof.Machine.execVCMP_F64_EQ w s
  | .vcmpF64Lt w => Sys2Proof.Machine.execVCMP_F64_LT w s
  | .vcmpF64Le w => Sys2Proof.Machine.execVCMP_F64_LE w s
  | .vcmpF64Ne w => Sys2Proof.Machine.execVCMP_F64_NE w s
  | .vcmpF64Un w => Sys2Proof.Machine.execVCMP_F64_UN w s
  | .vcmpF64Ord w => Sys2Proof.Machine.execVCMP_F64_ORD w s
  | .vcmpF64Isnan w => Sys2Proof.Machine.execVCMP_F64_ISNAN w s
  | .vcmpF64Isinf w => Sys2Proof.Machine.execVCMP_F64_ISINF w s
  | .fadd w => Sys2Proof.Machine.execFADD w s
  | .fsub w => Sys2Proof.Machine.execFSUB w s
  | .fmul w => Sys2Proof.Machine.execFMUL w s
  | .fmac w => Sys2Proof.Machine.execFMAC w s
  | .fnmac w => Sys2Proof.Machine.execFNMAC w s
  | .fmin w => Sys2Proof.Machine.execFMIN w s
  | .fmax w => Sys2Proof.Machine.execFMAX w s
  | .fdiv w => Sys2Proof.Machine.execFDIV w s
  | .fsqrt w => Sys2Proof.Machine.execFSQRT w s
  | .frcpe w => Sys2Proof.Machine.execFRCPE w s
  | .frsqe w => Sys2Proof.Machine.execFRSQE w s
  | .fsgnj w => Sys2Proof.Machine.execFSGNJ w s
  | .fsgnjn w => Sys2Proof.Machine.execFSGNJN w s
  | .fsgnjx w => Sys2Proof.Machine.execFSGNJX w s
  | .fclass w => Sys2Proof.Machine.execFCLASS w s
  | .fscale w => Sys2Proof.Machine.execFSCALE w s
  | .dadd w => Sys2Proof.Machine.execDADD w s
  | .dsub w => Sys2Proof.Machine.execDSUB w s
  | .dmul w => Sys2Proof.Machine.execDMUL w s
  | .dmac w => Sys2Proof.Machine.execDMAC w s
  | .dnmac w => Sys2Proof.Machine.execDNMAC w s
  | .dmin w => Sys2Proof.Machine.execDMIN w s
  | .dmax w => Sys2Proof.Machine.execDMAX w s
  | .ddiv w => Sys2Proof.Machine.execDDIV w s
  | .dsqrt w => Sys2Proof.Machine.execDSQRT w s
  | .drcpe w => Sys2Proof.Machine.execDRCPE w s
  | .drsqe w => Sys2Proof.Machine.execDRSQE w s
  | .dsgnj w => Sys2Proof.Machine.execDSGNJ w s
  | .dsgnjn w => Sys2Proof.Machine.execDSGNJN w s
  | .dsgnjx w => Sys2Proof.Machine.execDSGNJX w s
  | .dclass w => Sys2Proof.Machine.execDCLASS w s
  | .dscale w => Sys2Proof.Machine.execDSCALE w s
  | .hadd2 w => Sys2Proof.Machine.execHADD2 w s
  | .hsub2 w => Sys2Proof.Machine.execHSUB2 w s
  | .hmul2 w => Sys2Proof.Machine.execHMUL2 w s
  | .hmac2 w => Sys2Proof.Machine.execHMAC2 w s
  | .hmin2 w => Sys2Proof.Machine.execHMIN2 w s
  | .hmax2 w => Sys2Proof.Machine.execHMAX2 w s
  | .badd2 w => Sys2Proof.Machine.execBADD2 w s
  | .bsub2 w => Sys2Proof.Machine.execBSUB2 w s
  | .bmul2 w => Sys2Proof.Machine.execBMUL2 w s
  | .bmac2 w => Sys2Proof.Machine.execBMAC2 w s
  | .bmin2 w => Sys2Proof.Machine.execBMIN2 w s
  | .bmax2 w => Sys2Proof.Machine.execBMAX2 w s
  | .hdot2 w => Sys2Proof.Machine.execHDOT2 w s
  | .bdot2 w => Sys2Proof.Machine.execBDOT2 w s
  | .qdot4 w => Sys2Proof.Machine.execQDOT4 w s
  | .idot4 w => Sys2Proof.Machine.execIDOT4 w s
  | .vcvtF32I32 w => Sys2Proof.Machine.execVCVT_F32_I32 w s
  | .vcvtF32U32 w => Sys2Proof.Machine.execVCVT_F32_U32 w s
  | .vcvtI32F32 w => Sys2Proof.Machine.execVCVT_I32_F32 w s
  | .vcvtU32F32 w => Sys2Proof.Machine.execVCVT_U32_F32 w s
  | .vcvtF32F64 w => Sys2Proof.Machine.execVCVT_F32_F64 w s
  | .vcvtF64F32 w => Sys2Proof.Machine.execVCVT_F64_F32 w s
  | .vcvtF64I32 w => Sys2Proof.Machine.execVCVT_F64_I32 w s
  | .vcvtF64U32 w => Sys2Proof.Machine.execVCVT_F64_U32 w s
  | .vcvtI32F64 w => Sys2Proof.Machine.execVCVT_I32_F64 w s
  | .vcvtU32F64 w => Sys2Proof.Machine.execVCVT_U32_F64 w s
  | .vcvtF64I64 w => Sys2Proof.Machine.execVCVT_F64_I64 w s
  | .vcvtI64F64 w => Sys2Proof.Machine.execVCVT_I64_F64 w s
  | .vcvtF32I64 w => Sys2Proof.Machine.execVCVT_F32_I64 w s
  | .vcvtI64F32 w => Sys2Proof.Machine.execVCVT_I64_F32 w s
  | .frint w => Sys2Proof.Machine.execFRINT w s
  | .drint w => Sys2Proof.Machine.execDRINT w s
  | .vcvtF16F32 w => Sys2Proof.Machine.execVCVT_F16_F32 w s
  | .vcvtF32F16 w => Sys2Proof.Machine.execVCVT_F32_F16 w s
  | .vcvtBf16F32 w => Sys2Proof.Machine.execVCVT_BF16_F32 w s
  | .vcvtF32Bf16 w => Sys2Proof.Machine.execVCVT_F32_BF16 w s
  | .vcvtE4m3F32 w => Sys2Proof.Machine.execVCVT_E4M3_F32 w s
  | .vcvtE5m2F32 w => Sys2Proof.Machine.execVCVT_E5M2_F32 w s
  | .vcvtF32E4m3 w => Sys2Proof.Machine.execVCVT_F32_E4M3 w s
  | .vcvtF32E5m2 w => Sys2Proof.Machine.execVCVT_F32_E5M2 w s
  | .vcvtF16E4m3 w => Sys2Proof.Machine.execVCVT_F16_E4M3 w s
  | .vcvtF16E5m2 w => Sys2Proof.Machine.execVCVT_F16_E5M2 w s
  | .vperm w => Sys2Proof.Machine.execVPERM w s
  | .vbcl w => Sys2Proof.Machine.execVBCL w s
  | .vrotl w => Sys2Proof.Machine.execVROTL w s
  | .vxorl w => Sys2Proof.Machine.execVXORL w s
  | .vupl w => Sys2Proof.Machine.execVUPL w s
  | .vdnl w => Sys2Proof.Machine.execVDNL w s
  | .iredadd w => Sys2Proof.Machine.execIREDADD w s
  | .iredmin w => Sys2Proof.Machine.execIREDMIN w s
  | .iredmax w => Sys2Proof.Machine.execIREDMAX w s
  | .fredadd w => Sys2Proof.Machine.execFREDADD w s
  | .fredmin w => Sys2Proof.Machine.execFREDMIN w s
  | .fredmax w => Sys2Proof.Machine.execFREDMAX w s
  | .iscan w => Sys2Proof.Machine.execISCAN w s
  | .fscan w => Sys2Proof.Machine.execFSCAN w s
  | .vcompact w => Sys2Proof.Machine.execVCOMPACT w s
  | .vxchg w => Sys2Proof.Machine.execVXCHG w s
  | .vaddi w => Sys2Proof.Machine.execVADDI w s
  | .vmuli w => Sys2Proof.Machine.execVMULI w s
  | .vandi w => Sys2Proof.Machine.execVANDI w s
  | .vori w => Sys2Proof.Machine.execVORI w s
  | .vxori w => Sys2Proof.Machine.execVXORI w s
  | .vshli w => Sys2Proof.Machine.execVSHLI w s
  | .vshri w => Sys2Proof.Machine.execVSHRI w s
  | .vsrai w => Sys2Proof.Machine.execVSRAI w s
  | .vmini w => Sys2Proof.Machine.execVMINI w s
  | .vmaxi w => Sys2Proof.Machine.execVMAXI w s
  | .vshl64i w => Sys2Proof.Machine.execVSHL64I w s
  | .vshr64i w => Sys2Proof.Machine.execVSHR64I w s
  | .vsplati w => Sys2Proof.Machine.execVSPLATI w s
  | .viota w => Sys2Proof.Machine.execVIOTA w s
  | .vmov w => Sys2Proof.Machine.execVMOV w s
  | .vbcs w => Sys2Proof.Machine.execVBCS w s
  | .vgetl w => Sys2Proof.Machine.execVGETL w s
  | .vsetl w => Sys2Proof.Machine.execVSETL w s
  | .vmovxr w => Sys2Proof.Machine.execVMOVXR w s
  | .vmovxw w => Sys2Proof.Machine.execVMOVXW w s
  | .vlane w => Sys2Proof.Machine.execVLANE w s
  | .vsel w => Sys2Proof.Machine.execVSEL w s
  | .pand w => Sys2Proof.Machine.execPAND w s
  | .por w => Sys2Proof.Machine.execPOR w s
  | .pxor w => Sys2Proof.Machine.execPXOR w s
  | .pandn w => Sys2Proof.Machine.execPANDN w s
  | .pnot w => Sys2Proof.Machine.execPNOT w s
  | .pset w => Sys2Proof.Machine.execPSET w s
  | .pclr w => Sys2Proof.Machine.execPCLR w s
  | .pfroms w => Sys2Proof.Machine.execPFROMS w s
  | .ptos w => Sys2Proof.Machine.execPTOS w s
  | .pexec w => Sys2Proof.Machine.execPEXEC w s
  | .pcount w => Sys2Proof.Machine.execPCOUNT w s
  | .sadd w => Sys2Proof.Machine.execSADD w s
  | .ssub w => Sys2Proof.Machine.execSSUB w s
  | .smul w => Sys2Proof.Machine.execSMUL w s
  | .smulhu w => Sys2Proof.Machine.execSMULHU w s
  | .sdiv w => Sys2Proof.Machine.execSDIV w s
  | .sdivu w => Sys2Proof.Machine.execSDIVU w s
  | .srem w => Sys2Proof.Machine.execSREM w s
  | .sremu w => Sys2Proof.Machine.execSREMU w s
  | .sand w => Sys2Proof.Machine.execSAND w s
  | .sor w => Sys2Proof.Machine.execSOR w s
  | .sxor w => Sys2Proof.Machine.execSXOR w s
  | .sshl w => Sys2Proof.Machine.execSSHL w s
  | .sshr w => Sys2Proof.Machine.execSSHR w s
  | .ssra w => Sys2Proof.Machine.execSSRA w s
  | .sslt w => Sys2Proof.Machine.execSSLT w s
  | .ssltu w => Sys2Proof.Machine.execSSLTU w s
  | .saddi w => Sys2Proof.Machine.execSADDI w s
  | .sandi w => Sys2Proof.Machine.execSANDI w s
  | .sori w => Sys2Proof.Machine.execSORI w s
  | .sxori w => Sys2Proof.Machine.execSXORI w s
  | .sshli w => Sys2Proof.Machine.execSSHLI w s
  | .sshri w => Sys2Proof.Machine.execSSHRI w s
  | .ssrai w => Sys2Proof.Machine.execSSRAI w s
  | .sslti w => Sys2Proof.Machine.execSSLTI w s
  | .sli w => Sys2Proof.Machine.execSLI w s
  | .shi w => Sys2Proof.Machine.execSHI w s
  | .movc w => Sys2Proof.Machine.execMOVC w s
  | .movcw w => Sys2Proof.Machine.execMOVCW w s
  | .tdesc w => Sys2Proof.Machine.execTDESC w s
  | .tdescr w => Sys2Proof.Machine.execTDESCR w s
  | .perfreq w => Sys2Proof.Machine.execPERFREQ w s
  | .b w => Sys2Proof.Machine.execB w s
  | .bl w => Sys2Proof.Machine.execBL w s
  | .bsEq w => Sys2Proof.Machine.execBS_EQ w s
  | .bsNe w => Sys2Proof.Machine.execBS_NE w s
  | .bsLt w => Sys2Proof.Machine.execBS_LT w s
  | .bsGe w => Sys2Proof.Machine.execBS_GE w s
  | .bsLtu w => Sys2Proof.Machine.execBS_LTU w s
  | .bsGeu w => Sys2Proof.Machine.execBS_GEU w s
  | .bsZ w => Sys2Proof.Machine.execBS_Z w s
  | .bsNz w => Sys2Proof.Machine.execBS_NZ w s
  | .bpSplit w => Sys2Proof.Machine.execBP_SPLIT w s
  | .bpAll w => Sys2Proof.Machine.execBP_ALL w s
  | .bpAny w => Sys2Proof.Machine.execBP_ANY w s
  | .bpUni w => Sys2Proof.Machine.execBP_UNI w s
  | .jr w => Sys2Proof.Machine.execJR w s
  | .jlr w => Sys2Proof.Machine.execJLR w s
  | .join w => Sys2Proof.Machine.execJOIN w s
  | .regangAll w => Sys2Proof.Machine.execREGANG_ALL w s
  | .regangAny w => Sys2Proof.Machine.execREGANG_ANY w s
  | .yield w => Sys2Proof.Machine.execYIELD w s
  | .exit w => Sys2Proof.Machine.execEXIT w s
  | .nop w => Sys2Proof.Machine.execNOP w s
  | .sleep w => Sys2Proof.Machine.execSLEEP w s
  | .trap w => Sys2Proof.Machine.execTRAP w s
  | .tret w => Sys2Proof.Machine.execTRET w s
  | .brk w => Sys2Proof.Machine.execBRK w s
  | .hostmsg w => Sys2Proof.Machine.execHOSTMSG w s
  | .ckpt w => Sys2Proof.Machine.execCKPT w s
  | .stopnow w => Sys2Proof.Machine.execSTOPNOW w s
  | .attachTry w => Sys2Proof.Machine.execATTACH_TRY w s
  | .attachWait w => Sys2Proof.Machine.execATTACH_WAIT w s
  | .detach w => Sys2Proof.Machine.execDETACH w s
  | .binit w => Sys2Proof.Machine.execBINIT w s
  | .barrive w => Sys2Proof.Machine.execBARRIVE w s
  | .bwait w => Sys2Proof.Machine.execBWAIT w s
  | .bsync w => Sys2Proof.Machine.execBSYNC w s
  | .bkill w => Sys2Proof.Machine.execBKILL w s
  | .bquery w => Sys2Proof.Machine.execBQUERY w s
  | .lds w => Sys2Proof.Machine.execLDS w s
  | .sts w => Sys2Proof.Machine.execSTS w s
  | .ldc w => Sys2Proof.Machine.execLDC w s
  | .stc w => Sys2Proof.Machine.execSTC w s
  | .ldg w => Sys2Proof.Machine.execLDG w s
  | .stg w => Sys2Proof.Machine.execSTG w s
  | .amadd w => Sys2Proof.Machine.execAMADD w s
  | .amsmin w => Sys2Proof.Machine.execAMSMIN w s
  | .amsmax w => Sys2Proof.Machine.execAMSMAX w s
  | .amumin w => Sys2Proof.Machine.execAMUMIN w s
  | .amumax w => Sys2Proof.Machine.execAMUMAX w s
  | .amand w => Sys2Proof.Machine.execAMAND w s
  | .amor w => Sys2Proof.Machine.execAMOR w s
  | .amxor w => Sys2Proof.Machine.execAMXOR w s
  | .amswap w => Sys2Proof.Machine.execAMSWAP w s
  | .amcas w => Sys2Proof.Machine.execAMCAS w s
  | .amfadd w => Sys2Proof.Machine.execAMFADD w s
  | .amfmin w => Sys2Proof.Machine.execAMFMIN w s
  | .amfmax w => Sys2Proof.Machine.execAMFMAX w s
  | .fence w => Sys2Proof.Machine.execFENCE w s
  | .lr w => Sys2Proof.Machine.execLR w s
  | .sc w => Sys2Proof.Machine.execSC w s
  | .stred w => Sys2Proof.Machine.execSTRED w s
  | .pref w => Sys2Proof.Machine.execPREF w s
  | .cinv w => Sys2Proof.Machine.execCINV w s
  | .cflush w => Sys2Proof.Machine.execCFLUSH w s
  | .waitst w => Sys2Proof.Machine.execWAITST w s
  | .mma w => Sys2Proof.Machine.execMMA w s
  | .mmaz w => Sys2Proof.Machine.execMMAZ w s
  | .mmap w => Sys2Proof.Machine.execMMAP w s
  | .mdefer w => Sys2Proof.Machine.execMDEFER w s
  | .msave w => Sys2Proof.Machine.execMSAVE w s
  | .mload w => Sys2Proof.Machine.execMLOAD w s
  | .mwait w => Sys2Proof.Machine.execMWAIT w s
  | .copy w => Sys2Proof.Machine.execCOPY w s
  | .engwait w => Sys2Proof.Machine.execENGWAIT w s
  | .qinit w => Sys2Proof.Machine.execQINIT w s
  | .qpush w => Sys2Proof.Machine.execQPUSH w s
  | .qpop w => Sys2Proof.Machine.execQPOP w s
  | .qtrypush w => Sys2Proof.Machine.execQTRYPUSH w s
  | .qtrypop w => Sys2Proof.Machine.execQTRYPOP w s
  | .rwait w => Sys2Proof.Machine.execRWAIT w s
  | .radv w => Sys2Proof.Machine.execRADV w s
  | .cueemit w => Sys2Proof.Machine.execCUEEMIT w s
  | .dcset w => Sys2Proof.Machine.execDCSET w s
  | .dcdec w => Sys2Proof.Machine.execDCDEC w s
  | .dcwait w => Sys2Proof.Machine.execDCWAIT w s

end Sys2Proof.Machine
end

