-- ==== Sys2Proof/Machine/Edge.lean ====
section
/-! DEFINITION. The clock edges (R22, R23, R365 to R370): the next edge of the package, the work that ends with a company cycle, and what a vault edge and a reference tick
set off. -/

namespace Sys2Proof.Machine

/-! The place of an edge in its reference tick. -/

/-- The cycles of a company in a reference tick (R22, R366). -/
def Company.rate (c : Company) : Nat := 16 + c.level

/-- The edges of a domain with `n` cycles in a tick that lie at or before the place num / den. -/
def passed (n num den : Nat) : Nat := n * num / den

/-- The earlier of two places. -/
def earlier (a b : Nat × Nat) : Nat × Nat := if b.1 * a.2 < a.1 * b.2 then b else a

/-- The companies whose clocks run: present and not gated (R341). -/
def Package.runningCompanies (p : Package) : List Nat := p.presentCompanies.filter fun m => !(p.company m).gatedNow

/-- The place of the next edge: mesh, vault and running company clocks. -/
def State.nextPlace (s : State) : Nat × Nat :=
  let next := fun n : Nat => (passed n s.clk.num s.clk.den + 1, n)
  (s.pkg.runningCompanies.map fun m => (s.pkg.company m).rate).foldl (fun b n => earlier b (next n)) (earlier (next 64) (next 48))

/-- A domain with `n` cycles in a tick has an edge between two places. -/
def edgeBetween (n : Nat) (k : Clock) (x : Nat × Nat) : Bool := passed n k.num k.den < passed n x.1 x.2

/-! The end of a company cycle. -/

/-- A blocked party's count advances (R60, R150). -/
def Slice.countWait (w : Wave) (s : Slice) : Slice :=
  { s with blocked := s.blocked.map fun b =>
      let suspended := w.handling && !b.slices.any fun k => ((w.slices[k]?).map Slice.hmode).getD false
      if b.op.timed && !suspended then { b with count := b.count + 1 } else b }

/-- SLEEPLEFT counts down (R158); the last cycle is SLEEP_END's. -/
def Slice.countSleep (s : Slice) : Slice := if 1 < s.sleep.toNat then { s with sleep := s.sleep - 1 } else s

/-- A wave at the end of a company cycle: a parked wave counts no wait (R198); one whose deferred stores have been performed goes on (R267). -/
def Wave.endCycle (w : Wave) : Wave :=
  { w with countRead := none, settling := w.settling && (w.park.isSome || w.outst ≠ 0 || w.hostOut ≠ 0), slices := w.slices.map fun s => (if w.park.isSome then s else s.countWait w).countSleep }

/-- A core at the end of a company cycle. -/
def Core.endCycle (k : Core) : Core :=
  { k with ctx := { k.ctx with waves := k.ctx.waves.map (Option.map Wave.endCycle) }, started := List.replicate 4 false, picks := List.replicate 4 none,
           sweep := 0 }

/-- The counters of R355. -/
def Package.countStall (p : Package) (m : Nat) : Package :=
  let cores := (p.cores.drop (8 * m)).take 8
  let held := cores.any fun k => k.ctx.waves.any Option.isSome
  let idle := !cores.any fun k => k.started.any id
  p.modCompany m fun c =>
    { c with actc := if held then min Config.max32 (c.actc + 1) else c.actc, stallc := if held && idle then min Config.max32 (c.stallc + 1) else c.stallc }

/-- Company m ends its cycle `cyc`: the queue-and-barrier units (R50), the counts, and a new cycle's selection. -/
def Package.endCycle (p : Package) (m cyc : Nat) : Package :=
  (List.range 8).foldl (fun (p : Package) i =>
    if (p.core (8 * m + i)).stopped then p else (p.barrierCycle (8 * m + i) cyc).modCore (8 * m + i) Core.endCycle) (p.countStall m)

/-! The vaults. -/

/-- A vault edge: the place in the epoch advances; before a burst every bank is precharged (R270). -/
def Package.vaultEdge (p : Package) : Package :=
  p.presentVaults.foldl (fun (p : Package) v => p.modVault v fun c =>
    let c := { c with refpos := c.refpos + 1 }
    if c.precharge then { c with rows := noRows } else c) p

/-- The vault ends a burst at this cycle of the epoch, 60 cycles after its start (R270). -/
def Vault.burstOver (v : Vault) : Bool := v.burst && (List.range (burstsOf v.vclass)).any fun i => burstStart v.vclass i + 60 = v.refpos

/-! The reference tick. -/

/-- A company's idle ticks (R341). -/
def Package.countIdle (p : Package) (m : Nat) : Package :=
  match (p.company m).gating with
  | .running n => p.modCompany m fun c => { c with gating := .running (if p.companyIdle m then n + 1 else 0) }
  | _ => p

/-- The companies that start their gating sequence. -/
def Package.gatingDue (p : Package) : List Nat :=
  p.presentCompanies.filter fun m => match (p.company m).gating with
    | .running n => 1250 ≤ n
    | _ => false

/-- A recovery point is looked at: one that is stopping at every tick, one that is due at an epoch start (R384: each 25,000 ticks, or when asked for). -/
def Package.pointDue (p : Package) (t k : Nat) : Bool :=
  let r := p.recov k
  r.stopping || ((p.part k).recov && t % epochTicks = 0 && (r.requested || t % 25000 = 0))

/-- The slices that can give up their buckets (R351). -/
def Package.retireDue (p : Package) : List Nat :=
  (List.range 4).filterMap fun st => match (p.stageAt st).retiring with
    | some m => if p.sliceDrained (8 * st + m) then some (8 * st + m) else none
    | none => none

/-- The turn of the vaults in a tick: 48 vault cycles of one valid partition (R268). -/
def Package.turnRows (p : Package) (t : Nat) : List Instr :=
  let l := p.validParts
  if l.length ≤ 1 then [] else p.presentVaults.map fun v => .vaultTurnStart v (l.getD (t % l.length) 0)

/-- The ports that start a time-alignment exchange (R376). -/
def Package.syncRows (p : Package) (t : Nat) : List Instr :=
  if t % 25000 = 0 then ((List.range 12).filter fun i => ((p.ports[i]?).map HousePort.leader).getD false).map fun i => .timeSyncExchange i else []

/-- What a tick boundary brings, in order (R91, R331, R341, R351, R352, R358): the epoch start, level steps, the turns, then the prompter's work. -/
def Package.tickRows (p : Package) (t : Nat) : List Instr :=
  (if t % epochTicks = 0 then [Instr.epochStart] else []) ++ (p.presentCompanies.filter fun m => (p.company m).stepDue t).map Instr.levelStep
    ++ p.turnRows t ++ (if p.planeOp.any fun o => o.startedAt.isNone then [Instr.understudySwap] else [])
    ++ ((List.range 8).filter (p.pointDue t)).map Instr.recoveryPoint ++ p.retireDue.map Instr.sliceRetireReassign ++ [Instr.placementPass]
    ++ p.gatingDue.map Instr.companyGating ++ p.syncRows t

/-- A tick boundary: its actions belong to the cycles that begin there (R368). -/
def Package.tickEdge (p : Package) (t : Nat) : Package :=
  let p := p.presentCompanies.foldl Package.countIdle p
  (p.tickRows t).foldl (fun (p : Package) ev => p.later (.tick t) ev) p

/-! The edge. -/

/-- The clock after an edge. -/
def Clock.advance (k : Clock) (x : Nat × Nat) (companies : List Nat) : Clock :=
  let tick := x.1 = x.2
  { k with
    rtick := if tick then k.rtick + 1 else k.rtick, mcyc := 64 * k.rtick + passed 64 x.1 x.2, vcyc := 48 * k.rtick + passed 48 x.1 x.2,
    num := if tick then 0 else x.1, den := if tick then 1 else x.2,
    companies := (k.companies.zipIdx).map fun c : Nat × Nat => if companies.contains c.2 then c.1 + 1 else c.1 }

/-- The STOPNOW whose E is an edge of these companies, the lowest company, bay and slot first (R370). -/
def Package.stopNow (p : Package) (companies : List Nat) : Option Nat :=
  ((byRank (fun r : Nat × Nat × Nat × Nat => 65536 * r.1 + 256 * r.2.2.1 + r.2.1 % 8) (p.stopReq.filter fun r => companies.contains r.1)).head?).map
    fun r => r.2.2.2

/-- Stops at an edge (R323, R368, R370): STOPAT before STOPNOW before a ring that has run dry, which stops at a mesh edge. -/
def State.stopAtEdge (s : State) (before : Clock) (companies : List Nat) (mesh dry : Bool) : State :=
  let v := s.pkg.win.stopat
  if s.pkg.win.stopArmed && before.counter v ≠ s.clk.counter v && s.clk.counter v = stopCount v then stopatStopAt s
  else match s.pkg.stopNow companies with
    | some tag => ({ s with pkg := { s.pkg with stopReq := [], win := { s.pkg.win with tabtag := BitVec.ofNat 16 tag } } }).freezeNow .stopnow
    | none => if mesh && dry then s.freezeNow .emptyRing else s

/-- The next clock edge (R23, R366): the cycles that end at it end, companies first in ascending order, then meshes, vaults and the reference (R368). -/
def State.edge (s : State) : State :=
  let x := s.nextPlace
  let ms := s.pkg.runningCompanies.filter fun m => edgeBetween (s.pkg.company m).rate s.clk x
  let clk := s.clk.advance x ms
  let p := ms.foldl (fun (p : Package) m => p.endCycle m (s.clk.cycleOf m)) s.pkg
  let p := if edgeBetween 48 s.clk x then p.vaultEdge else p
  let p := if x.1 = x.2 then p.tickEdge clk.rtick else p
  ({ s with clk := clk, pkg := p }).stopAtEdge s.clk ms (edgeBetween 64 s.clk x) s.pkg.ringDry

end Sys2Proof.Machine
end

