-- ==== Sys2Proof/Machine/Select.lean ====
section
/-! DEFINITION. What the machine does next: what is due, what a waiting wave or unit can now do, the work of a company cycle in the order of R212 with the instruction
selection of R58, R59 and R356, and the next clock edge. -/

namespace Sys2Proof.Machine

/-- What the next step is: an event, the issue of a party's next chain, or a change of the machine's own (a selection, a clock edge). -/
inductive Choice where
  | event (ev : Instr) (p : Package)
  | issue (core slot leader : Nat) (p : Package)
  | go (s : State)

/-! What comes from outside. -/

/-- The events that the outside world brings: arrivals, resets, link and sensor traffic, failures, the prompter's firmware and the frozen refresh of the stacks. Every
other event is the machine's own. -/
def Instr.external : Instr → Bool
  | .gateAccept _ _ => true
  | .serviceRegionAccess _ _ _ => true
  | .powerOnReset _ => true
  | .functionLevelReset _ => true
  | .houseFlitReceive _ _ _ => true
  | .houseResendRequest _ _ => true
  | .windowScrub _ _ => true
  | .bankFailure _ _ _ => true
  | .dieLinkHeaderFailure _ => true
  | .dieLinkPoison _ _ _ => true
  | .rollback _ _ => true
  | .faultRecordService _ => true
  | .shootdown _ _ _ _ => true
  | .frozenRefreshBurst _ => true
  | _ => false

/-! What is due. -/

/-- The time has come. -/
def DueAt.reached (k : Clock) : DueAt → Bool
  | .now => true
  | .mesh n => n ≤ k.mcyc
  | .company m n => n ≤ k.cycleOf m
  | .tick n => n ≤ k.rtick

/-- The order within one moment: arrivals and completions; the cue unit (R307), the dependence counters (R381) and the batches they form; last what belongs to a tick boundary.
The start of an epoch comes before the stamps that take effect in its first mesh cycle (R269). -/
def Due.rank (d : Due) : Nat :=
  match d.at_, d.ev with
  | .tick _, .epochStart => 5
  | .tick _, _ => 4
  | _, .cueAppend => 1
  | _, .dcUpdate => 2
  | _, .batchFormation _ _ => 3
  | _, .nodeRetirement _ _ => 3
  | _, _ => 0

/-- Take the first event that is due in one of the given ranks. -/
def Package.takeDue (k : Clock) (p : Package) (ranks : List Nat) : Option Choice :=
  ranks.findSome? fun r =>
    match findIdx? (fun d : Due => d.at_.reached k && d.rank = r) p.due with
    | none => none
    | some i => (p.due[i]?).map fun d => .event d.ev { p with due := p.due.eraseIdx i }

/-- An operation of TABCTL, which acts in either run state. -/
def Instr.runControl : Instr → Bool
  | .take => true
  | .restore => true
  | .thaw => true
  | .freeze => true
  | .reset => true
  | .tableauOperationEnd => true
  | _ => false

/-- The first operation of TABCTL that waits. -/
def Package.takeControl (p : Package) : Option Choice :=
  match findIdx? (fun d : Due => d.at_ = .now && Instr.runControl d.ev) p.due with
  | none => none
  | some i => (p.due[i]?).map fun d => .event d.ev { p with due := p.due.eraseIdx i }

/-- A write of a register of R367. -/
def Instr.liveWrite : Instr → Bool
  | .gatemodeWrite _ => true
  | .stopatWrite _ => true
  | .logtailWrite _ _ => true
  | .hostWindowWrite off _ => liveRegister off
  | _ => false

/-- The first host write that takes effect: live ones before the others of a boundary, and at once while the package is frozen (R91, R368, R369). -/
def Package.takeWrite (k : Clock) (p : Package) (live : Bool) : Option Choice :=
  let ok := fun w : HostWrite => Instr.liveWrite w.ev = live && (k.run = .frozen || decide (w.tick ≤ k.rtick))
  match findIdx? ok p.hostWrites with
  | none => none
  | some i => (p.hostWrites[i]?).map fun w => .event w.ev { p with hostWrites := p.hostWrites.eraseIdx i }

/-! Readiness (R58): interlocks (R75, R174, R181), fences (R254, R255), the stall of R231 and the X pipe (R44). -/

/-- Two runs of registers meet. -/
def runsMeet (a b : Nat × Nat) : Bool := decide (a.1 < b.1 + b.2) && decide (b.1 < a.1 + a.2)

/-- The commands of a wave that are in flight or armed. -/
def Core.commandsOf (k : Core) (key : WaveKey) : List MmCmd :=
  (k.xq.flatten ++ k.arrayQ ++ (k.ctx.follow.filterMap id).map Follow.cmd).filter fun m => m.key = key

/-- The block registers of a command; MSAVE and MLOAD name a buffer. -/
def MmCmd.block (m : MmCmd) : Nat × Nat :=
  match m.kind with
  | .msave => (0, 0)
  | .mload => (0, 0)
  | _ => (m.acc, blockSize m.ta m.tb)

/-- The registers of a wave that wait for loads or belong to commands under way; the matrix words themselves are not held by the wave's commands, which step in
order (R174, R181). -/
def Package.busyRegs (p : Package) (core : Nat) (key : WaveKey) (w : Wave) (matrix : Bool) : List (Nat × Nat) :=
  (w.pending.map fun q => (q.first, q.count)) ++ if matrix then [] else ((p.core core).commandsOf key).map MmCmd.block

/-- The registers that an instruction reads or writes: those it names, and the whole accumulator block of a matrix word (R174). -/
def View.usedRegs (v : View) (i : Instr) : List (Nat × Nat) :=
  i.vectorRegs ++ match tileUse i with
    | some (a, b, acc, _) => [(acc, blockSize (v.src.tiles.getD a 0) (v.src.tiles.getD b 0))]
    | none => []

/-- The registers that blocked words of a wave have still to write: a word that reads whole registers across lanes sees every earlier write of any party (R142). -/
def Wave.laneWrites (w : Wave) : List (Nat × Nat) :=
  w.leaders.filterMap fun l => (w.blockedAt l).bind fun b => match b.op with
    | .fullEmpty a => if a.store then none else some (a.reg, (a.size + 3) / 4)
    | .qpop _ d => some (d, 1)
    | .xchg x _ => some (x.dest, 1)
    | _ => none

/-- A word of VX other than VXCHG, which reads whole registers (R142). -/
def Instr.acrossLanes : Instr → Bool
  | .vxchg _ => false
  | i => i.major = some 7

/-- A register named by a scalar's value (R119): such a word waits for every busy register. -/
def Instr.indexed : Instr → Bool
  | .vmovxr _ => true
  | .vmovxw _ => true
  | _ => false

/-- The granules that a command has still to read: its tiles, the scales where it promotes (R179), or a save area. -/
def MmCmd.reads (m : MmCmd) : List Nat :=
  let rows := fun t : Quad => (List.range (tileRows t)).flatMap fun r => granulesOf (tileRowAt t r) 64
  let scales := fun t : Quad => (List.range (tileRows t)).flatMap fun r => match scaleAt t r with
    | some a => granulesOf a 4
    | none => []
  let promotes := match m.kind with
    | .mmap _ last => last
    | .mdefer _ n => n = 4 || n = 5
    | _ => false
  match m.kind with
  | .msave => []
  | .mload => granulesOf (16 * bits m.ta.toNat 0 15) 131088
  | _ => rows m.ta ++ rows m.tb ++ if promotes then scales m.ta ++ scales m.tb else []

/-- The commands of a wave that the array has not accepted or that are armed. -/
def Core.unread (k : Core) (key : WaveKey) : List MmCmd :=
  (k.xq.flatten ++ (k.ctx.follow.filterMap id).map Follow.cmd).filter fun m => m.key = key

/-- An STS over a granule that an earlier command of the wave has still to read waits (R181). -/
def View.storeFree (v : View) (k : Core) (key : WaveKey) : Instr → Bool
  | .sts w =>
    let l := k.unread key
    l.isEmpty || (lanesOf v.act).all fun j =>
      (granulesOf (v.spAddr w (2 ^ (w.z.toNat + 1)) j).toNat (2 ^ (w.z.toNat + 1))).all fun g => !l.any fun m => m.reads.contains g
  | _ => true

/-- No command waits at the head of a bay's X pipe (R44). -/
def Core.xFree (k : Core) (bay : Nat) : Bool := (k.xq.getD bay []).isEmpty && (k.cq.getD bay none).isNone

/-- A word may issue. -/
def State.wordReady (s : State) (v : View) (i : Instr) : Bool :=
  let core := v.iss.core
  let k := s.pkg.core core
  let key := s.pkg.keyOf core v.iss.slot
  let busy := s.pkg.busyRegs core key v.now (i.major = some 0x1E) ++ if Instr.acrossLanes i then v.now.laneWrites else []
  ((v.usedRegs i).all fun r => !busy.any (runsMeet r)) && (!Instr.indexed i || busy.isEmpty)
    && (v.now.fence.isNone || !Instr.fenceHeld i) && (!Instr.releasesFirst i || v.now.pending.isEmpty)
    && (!Instr.counts i || v.now.outst ≠ 4095) && (i.pipe ≠ .X || k.xFree (v.iss.slot / 16)) && v.storeFree k key i

/-- A wave may issue at all: its company runs, its core and cast have not been stopped, its first cycle has come, its deferred stores have been
performed (R37, R161, R267, R335, R341). -/
def State.waveMay (s : State) (core slot : Nat) : Bool :=
  let m := companyOf core
  s.pkg.present (stageOf core) && !(s.pkg.company m).gatedNow && !(s.pkg.core core).stopped
    && (s.pkg.wave? core slot).any fun w => decide (w.startAt ≤ s.clk.cycleOf m) && w.park.isNone && !w.settling
      && (s.pkg.cast? core w.cast).any fun c => c.stopping ≠ some 1 && c.stopping ≠ some 3

/-- The parties of a wave in the order of their turns (R31). -/
def Wave.partyOrder (w : Wave) : List Nat := (w.leaders.filter fun l => w.turn < l) ++ w.leaders.filter fun l => l ≤ w.turn

noncomputable section

/-- A party's next chain, if it is ready. -/
def State.readyChain (s : State) (core slot leader : Nat) : Option NextChain :=
  if !s.waveMay core slot then none
  else (s.nextChain core slot leader).filter fun n =>
    n.stop.isSome || n.words.all fun c => match c.dec with
      | .ok i => s.wordReady n.view i
      | .error _ => true

/-- The charge that a chain's first gang makes: that of its greatest word, over the active lanes of the lowest octet that issues (R356). -/
def NextChain.firstCharge (n : NextChain) : Nat :=
  let octet := (n.view.slices.headD 0) / 8
  let lanes := n.view.act &&& laneMask fun j => j / 32 = octet
  (n.words.map fun c => match c.dec with
    | .ok i => chargeOf i lanes
    | .error _ => 0).foldl max 0

/-- A wave that could start in its bay: slot, party, class, cycles ready, predicted charge, and whether it issues a BINIT. -/
structure Candidate where
  slot : Nat
  leader : Nat
  cls : Nat
  since : Nat
  pred : Nat

/-- The ready party of a wave slot whose turn it is. -/
def State.candidate (s : State) (core slot : Nat) : Option Candidate :=
  match s.pkg.wave? core slot with
  | none => none
  | some w =>
    w.partyOrder.findSome? fun l => (s.readyChain core slot l).map fun n =>
      { slot := slot, leader := l, cls := waveClass n.view.cast w, since := w.readySince, pred := n.firstCharge }

/-- The candidates of a bay, by rising slot. -/
def State.bayCandidates (s : State) (core bay : Nat) : List Candidate := (List.range 16).filterMap fun i => s.candidate core (16 * bay + i)

/-- The candidates of a class in rotation order after the slot last started. -/
def rotation (l : List Candidate) (last : Nat) : List Candidate :=
  (l.filter fun c => last < c.slot % 16) ++ l.filter fun c => c.slot % 16 ≤ last

/-- The choice of a bay (R58, R356), and whether it moves the rotation. -/
def pickOf (l : List Candidate) (rr : Nat → Nat) (lastchg : Nat) : Option (Candidate × Bool) :=
  let longest := (l.filter fun c => 96 ≤ c.since).foldl (fun (b : Option Candidate) c => match b with
    | some x => if x.since < c.since then some c else some x
    | none => some c) none
  match longest with
  | some c => some (c, false)
  | none =>
    let cls := (l.map Candidate.cls).foldl max 0
    match rotation (l.filter fun c => c.cls = cls) (rr cls) with
    | [] => none
    | c :: rest =>
      if 256 < lastchg && 64 ≤ c.pred then
        match rest.find? fun x => x.pred < 64 with
        | some x => some (x, false)
        | none => some (c, true)
      else some (c, true)

/-- A wave after the choice: the cycles it has been ready without a start, the cycles of its promotion (R58, R59), and the WAITLIMIT of the cycle (R128). -/
def Wave.waited (w : Wave) (ready started : Bool) : Wave :=
  { w with limit := w.waitlimit, readySince := if ready && !started then w.readySince + 1 else 0, starve := if ready && !started then w.starve + 1 else w.starve,
           promoHeld := if 0 < w.promoted then w.promoHeld + 1 else 0 }

/-- The choice of one bay at the start of a company cycle. -/
def State.beginBay (s : State) (core bay : Nat) : State :=
  let l := s.bayCandidates core bay
  let k := s.pkg.core core
  let pick := pickOf l (fun c => k.rr.getD (4 * bay + c) 15) (k.lastchg.getD bay 0)
  let chosen := pick.map Prod.fst
  s.modPkg fun p =>
    let p := p.modCore core fun k =>
      { k with picks := setAt k.picks bay (chosen.map fun c => (c.slot, c.leader)), started := setAt k.started bay chosen.isSome,
               lastchg := setAt k.lastchg bay (min 65535 ((chosen.map Candidate.pred).getD 0)),
               rr := match pick with
                 | some (c, true) => setAt k.rr (4 * bay + c.cls) (c.slot % 16)
                 | _ => k.rr }
    (List.range 16).foldl (fun (p : Package) i =>
      let slot := 16 * bay + i
      p.modWave core slot fun w =>
        let w := w.waited (l.any fun c => c.slot = slot) (chosen.any fun c => c.slot = slot)
        match chosen with
        | some c => if c.slot = slot then { w with turn := c.leader } else w
        | none => w) p

/-- The start of a core's company cycle: its bays choose, then the copy engine does what sends no request. -/
def State.beginCycle (s : State) (core : Nat) : State :=
  let s := (List.range 4).foldl (fun (s : State) bay => s.beginBay core bay) s
  s.modPkg fun p => (p.copyCycle s.clk core).modCore core fun k => { k with sweep := 1 }

/-! The work of a company cycle (R212). -/

/-- A waiting scratchpad or queue word can commit. -/
def Package.commitOf (p : Package) (core slot : Nat) (w : Wave) : Option Instr :=
  match p.cast? core w.cast with
  | none => none
  | some c =>
    let x := (p.core core).ctx
    if c.stopping = some 1 || c.stopping = some 3 then none
    else w.leaders.findSome? fun l => (w.blockedAt l).bind fun b => match b.op with
      | .fullEmpty a => if x.commits c a then some (.fullEmptyCommit core slot l) else none
      | .qpush a e _ => if (x.push c a.toNat e).isSome then some (.queueBlockedCommit core slot l) else none
      | .qpop a _ => if (x.pop c a.toNat).isSome then some (.queueBlockedCommit core slot l) else none
      | .rwait a i phase _ => if x.phase c a.toNat i = phase then some (.ringWaitCommit core slot l) else none
      | _ => none

/-- The package with the core's work marked as far as a stage. -/
def Package.sweptTo (p : Package) (core n : Nat) : Package := p.modCore core fun k => { k with sweep := n }

/-- A pick is issued: it leaves the list. -/
def Package.unpick (p : Package) (core slot n : Nat) : Package :=
  p.modCore core fun k => { k with picks := setAt k.picks (slot / 16) none, sweep := n }

/-- What a slot does at its place in the order: a waiting word commits, then the bay's pick issues. -/
def State.slotWork (s : State) (core slot : Nat) : Option Choice :=
  let p := s.pkg
  match p.wave? core slot with
  | none => none
  | some w =>
    match p.commitOf core slot w with
    | some ev => some (.event ev (p.sweptTo core (4 + slot)))
    | none =>
      match ((p.core core).picks.getD (slot / 16) none).filter fun q => q.1 = slot with
      | some q => some (.issue core q.1 q.2 (p.unpick core slot (4 + slot)))
      | none => none

/-- The waits and asynchronous traps of a wave are taken after the issue of the cycle, one in a cycle (R160). While a slice of the wave is in handler mode only the waits
of the handler's own words are (R150, R163). -/
def State.trapDue (s : State) (core slot : Nat) (w : Wave) : Option Instr :=
  if !s.waveMay core slot then none
  else
    let late := fun b : Blocked => b.op.timed && w.limit ≠ 0 && decide (w.limit.toNat < b.count)
    let may := fun b : Blocked => !w.handling || b.slices.all fun k => ((w.slices[k]?).map Slice.hmode).getD false
    match w.leaders.find? fun l => (w.blockedAt l).any fun b => late b && may b with
    | some l => some (.waitTimeout core slot l)
    | none =>
      match w.due with
      | [] => none
      | t :: _ =>
        let l := ((w.slices[t.leader]?).map fun x => x.leader.toNat).getD t.leader
        let can := (w.party l).isEmpty || match w.blockedAt l with
          | some b => !b.op.underWay
          | none => (w.issueCounter l).isSome && ((w.slices[l]?).bind Slice.late).isNone && !s.pkg.midWindow core slot l
        if can && !w.handling then some (.trapDelivery core slot) else none

/-- The last of a slot's cycle: a trap, or the end of a slice's sleep. -/
def State.lateWork (s : State) (core slot : Nat) : Option Instr :=
  match s.pkg.wave? core slot with
  | none => none
  | some w => (s.trapDue core slot w).or ((findIdx? (fun x : Slice => x.live && x.sleep = 1) w.slices).map fun j => .sleepEnd core slot j)

/-- The next piece of a core's company cycle: the choice of its bays, one copy request, one command of the array, the wave slots in order, traps and ends of sleep. -/
def State.coreWork (s : State) (core : Nat) : Option Choice :=
  let p := s.pkg
  let k := p.core core
  let m := companyOf core
  if !p.present (stageOf core) || (p.company m).gatedNow || k.stopped || k.ctx.waves.all Option.isNone then none
  else if k.sweep = 0 then some (.go (s.beginCycle core))
  else
    let copy := if k.sweep ≤ 1 then (p.copyTurn s.clk core).map fun r => Choice.event (.copyRequestReturn core r) (p.sweptTo core 2) else none
    let array := if k.sweep ≤ 2 && k.xq.any (!·.isEmpty) then some (Choice.event (.matrixCommandAccept core) (p.sweptTo core 3)) else none
    let slots := ((List.range 64).filter fun i => k.sweep ≤ 4 + i).findSome? (s.slotWork core)
    let late := ((List.range 64).findSome? (s.lateWork core)).map fun ev => Choice.event ev (p.sweptTo core 68)
    copy.or (array.or (slots.or late))

/-! What a waiting wave, cast or unit can now do. -/

/-- A wait of a wave that has been met, a fence that has been performed, or a change of its class. -/
def State.waveWake (s : State) (core slot : Nat) (w : Wave) : Option Instr :=
  let p := s.pkg
  let wait := w.leaders.findSome? fun l => (w.blockedAt l).bind fun b => match b.op with
    | .waitst => if w.outst = 0 then some (Instr.waitstComplete core slot l) else none
    | .mwait => if w.commands = 0 then some (.mwaitComplete core slot l) else none
    | .create _ => if p.recordFor core w.cast w.nextCopy then some (.collectiveCreateRetry core slot) else none
    | .released _ _ _ _ due => if due ≤ s.clk.cycleOf (companyOf core) then some (.barrierRelease core) else none
    | _ => none
  wait.or ((if w.fenceDone s.clk.mcyc then some (.fencePerformed core slot) else none).or
    (if 256 ≤ w.starve then some (.wavePromotion core slot)
     else if 0 < w.promoted && 4096 ≤ w.promoHeld then some (.promotionEnd core slot) else none))

/-- A cast that was told to stop can: for a pre-emption, a plane swap or a recovery point (R335, R340, R384). -/
def State.castWake (s : State) (core cslot : Nat) (c : Cast) : Option Instr :=
  let p := s.pkg
  match c.stopping with
  | some 0 => if p.castSafe core cslot then some (.contextSave core cslot) else none
  | some 1 => if p.castSafe core cslot && p.enginesQuiet s.clk core cslot then some (.contextSave core cslot) else none
  | some 2 =>
    if !p.castSafe core cslot then none
    else if (p.part c.partition).recovery.stopping then some (.recoveryPoint c.partition)
    else if p.planeOp.any fun o => o.out = c.partition && o.startedAt.isNone && !o.dram then some .understudySwap
    else none
  | _ => none

/-- The first wave or cast of a core that can go on. -/
def State.coreWake (s : State) (core : Nat) : Option Instr :=
  let x := (s.pkg.core core).ctx
  ((x.waves.zipIdx).findSome? fun w : Option Wave × Nat => w.1.bind (s.waveWake core w.2)).or
    ((x.casts.zipIdx).findSome? fun c : Option Cast × Nat => c.1.bind (s.castWake core c.2))

/-- The first partition with a device entry that can be written (R168). -/
def Package.hmqWake (p : Package) : Option Nat := (List.range 8).find? fun k => !(p.part k).hmqBuf.isEmpty && (p.part k).hmqRoom

/-- The first partition with a HOSTMSG that can be written, or discarded (R166): the device entries formed in its mesh cycle and the HOSTMSGs of lower cores
go first (R168), so it is looked at when the cycle is over. -/
def Package.hostmsgWake (p : Package) : Option Nat :=
  (List.range 8).find? fun k =>
    let q := p.part k
    (q.hmqBuf.isEmpty || !q.hmqEnabled) && (p.firstHostmsg k).isSome && (!q.hmqEnabled || q.hmqRoom)

/-- The vaults that start or end a burst (R270). -/
def Package.vaultWake (p : Package) : Option Instr :=
  p.presentVaults.findSome? fun v =>
    let c := p.vault v
    if c.burstOver then some (.refreshBurstEnd v) else if c.burstNow && !c.burst then some (.refreshBurst v) else none

/-- What can go on without being due at a time. -/
def State.wake (s : State) : Option Instr :=
  let p := s.pkg
  (((List.range 4).find? fun st => (p.gatherReady st).isSome).map Instr.gatherReply).or ((p.ticketReady.map Instr.ticketRelease).or
    ((p.hmqWake.map Instr.hmqEntryWrite).or (p.vaultWake.or ((List.range 256).findSome? s.coreWake))))

/-! The choice. -/

/-- What a running package does next. Operations of TABCTL and live writes come before the other actions of a boundary (R368). -/
def State.chooseRunning (s : State) : Choice :=
  let k := s.clk
  let p := s.pkg
  let arrive := (p.dueEffect k).map fun q => Choice.go { s with pkg := q }
  let inject := (p.injectReady k).map fun g => Choice.event (.replayInject g) p
  let wake := s.wake.map fun ev => Choice.event ev p
  let work := (List.range 256).findSome? s.coreWork
  let epoch := if p.due.any fun d => d.at_.reached k && d.rank = 5 then (p.takeWrite k false).or (p.takeDue k [5]) else none
  let host := if edgeBetween 64 k s.nextPlace then p.hostmsgWake.map fun i => Choice.event (.hmqEntryWrite i) p else none
  (((((((((p.takeControl.or (p.takeWrite k true)).or (p.takeDue k [0])).or epoch).or arrive).or inject).or (p.takeDue k [1, 2, 3])).or (p.takeWrite k false)).or wake).or
    (((p.takeDue k [4]).or work).or host)).getD (.go s.edge)

/-- What a frozen package does: operations of TABCTL and writes of the registers of R367 (R369); else nothing changes. -/
def State.chooseFrozen (s : State) : Choice := (s.pkg.takeControl.or (s.pkg.takeWrite s.clk true)).getD (.go s)

/-- The choice. -/
def State.choose (s : State) : Choice :=
  match s.clk.run with
  | .frozen => s.chooseFrozen
  | .running => s.chooseRunning

end

end Sys2Proof.Machine
end

