-- ==== Sys2Proof/Machine/Step.lean ====
section
/-! DEFINITION. One step of the machine: the next turn from outside, else, while the package runs, the next due event, the next ready wave's
chain, or the next clock edge. -/

namespace Sys2Proof.Machine

noncomputable section

/-- A turn from outside: an external event, the selection of a ready party by hand, or an error of the hardware; any other turn passes. -/
def State.takeTurn (s : State) : Turn → Host.Outcome State Fault Refusal
  | .event ev => if Instr.external ev then exec ev s else .next s
  | .issue core slot leader =>
    if s.clk.run = .running && (s.readyChain core slot leader).isSome then issueNext exec core slot leader s else .next s
  | .error e => .next (s.modPkg fun p => p.hwError e)

/-- What the machine does of its own. -/
def State.takeChoice (s : State) : Choice → Host.Outcome State Fault Refusal
  | .event ev p => exec ev { s with pkg := p }
  | .issue core slot leader p => issueNext exec core slot leader { s with pkg := p }
  | .go t => .next t

/-- One step. -/
def step (s : State) : Host.Outcome State Fault Refusal :=
  let s := { s with cur := none }
  match s.agenda with
  | t :: rest => ({ s with agenda := rest }).takeTurn t
  | [] => s.takeChoice s.choose

end

/-! The placement of one instruction for the next step. A program comes to run by a launch: a partition is configured, a node committed, its queue filled, and the
placement pass sends a LAUNCH record (notes/assumptions/1.md). `withFetchWord` stands for that launch. -/

/-- Where the placed word lies: a VA of the heap window of partition 0, equal to its PA. -/
def fetchVa : Nat := 0x10000

/-- The cast that fetches it. -/
def fetchCast : Cast :=
  { castid := 0, partition := 0, node := 0, castindex := 0, launchid := 0, nwaves := 1, maxw := 1, regcount := 256, spsize := 524288, sprow := 0, rows := 128,
    cogroup := 1, trappc := 0, prio := 0, own := [], codebase := BitVec.ofNat 64 fetchVa, codelen := 64 }

/-- The wave that issues it: GENERAL, at its first cycle. -/
def fetchWave (cycle : Nat) : Wave := newWave 0 0 .general (List.range 32) 256 (BitVec.ofNat 64 fetchVa) [] 0 cycle

/-- Core 0 with that cast and wave in its first slots. -/
def Core.forFetch (k : Core) (cycle : Nat) : Core :=
  { k with stopped := false, ctx := { k.ctx with casts := setAt k.ctx.casts 0 (some fetchCast), waves := setAt k.ctx.waves 0 (some (fetchWave cycle)) } }

/-- Partition 0 with company 0 and a heap window over its first GiB. -/
def Partition.forFetch (q : Partition) : Partition :=
  { q with companies := q.companies ||| 1, valid := true, ctx := { q.ctx with heapbase := 0, heaplimit := 0x40000000, heapoff := 0 } }

/-- The package with the word in memory. -/
def Package.withWord (p : Package) (cycle nbits w : Nat) : Package :=
  let place := ((p.placeOf fetchVa).getD 0)
  let p := p.flushLine (place / 128) true
  let p := { p with dram := Memory.writeList p.dram place (leBytes 12 (w % 2 ^ nbits)) }
  ((p.modPart 0 Partition.forFetch).modCompany 0 fun c => { c with gating := .running 0 }).modCore 0 fun k => k.forFetch cycle

/-- A state in which the very next step fetches and runs the word `w` (of `nbits` bits, the rest 0): the package runs, a wave of core 0 stands at the word, and it is the
wave that issues next. -/
def State.withFetchWord (s : State) (nbits w : Nat) : State :=
  { s with clk := { s.clk with run := .running }, pkg := s.pkg.withWord (s.clk.cycleOf 0) nbits w, cur := none, agenda := [.issue 0 0 0] }

end Sys2Proof.Machine
end

