-- ==== Sys2Proof/Safety.lean ====
section
/-! DEFINITION. What a safe step and a safe run are, and the terms in which the statements speak of one word: when it issues, what it leaves
alone, and where its result is read. -/

namespace Sys2Proof

/-- An outcome is a next state. -/
def Completes (o : Host.Outcome Machine.State Machine.Fault Machine.Refusal) : Prop := ∃ t, o = .next t

/-- Every step from a state on, for n steps, is a next state. -/
def SafeFor : Nat → Machine.State → Prop
  | 0, _ => True
  | n + 1, s => ∃ t, Machine.step s = .next t ∧ SafeFor n t

namespace Machine

/-- The word `i` issues: `v` is what it sees, and it passes the checks of Table 3.5, or they have been made for its whole chain (R68). -/
def Issues (s : State) (v : View) (i : Instr) : Prop :=
  s.view = some v ∧ (v.iss.checked = true ∨ v.check i = none)

/-- The wave that issues, as it stands in a state. -/
def State.issuer (t : State) (v : View) : Option Wave := t.pkg.wave? v.iss.core v.iss.slot

/-- All that lies outside the issuing wave, but for the charge of the word (R354): the clock, the images and inputs, all memory, every other
unit of the package, every other core, wave and cast. -/
structure Outside (s t : State) (v : View) (i : Instr) : Prop where
  clk : t.clk = s.clk
  agenda : t.agenda = s.agenda
  images : t.images = s.images
  pkg : t.pkg = { s.pkg with cores := t.pkg.cores, companies := t.pkg.companies }
  companies : ∀ m, m ≠ companyOf v.iss.core → t.pkg.company m = s.pkg.company m
  company : companyOf v.iss.core < s.pkg.companies.length →
    t.pkg.company (companyOf v.iss.core) = { s.pkg.company (companyOf v.iss.core) with
      charge := modAt (s.pkg.company (companyOf v.iss.core)).charge v.cast.prio fun c => satCharge (c + chargeOf i v.act) }
  cores : ∀ c, c ≠ v.iss.core → t.pkg.core c = s.pkg.core c
  core : t.pkg.core v.iss.core = { s.pkg.core v.iss.core with
    kchg := satCharge ((s.pkg.core v.iss.core).kchg + chargeOf i v.act)
    ctx := { (s.pkg.core v.iss.core).ctx with waves := (t.pkg.core v.iss.core).ctx.waves, casts := (t.pkg.core v.iss.core).ctx.casts } }
  waves : ∀ k, k ≠ v.iss.slot → t.pkg.wave? v.iss.core k = s.pkg.wave? v.iss.core k
  casts : ∀ k, k ≠ v.src.cast → t.pkg.cast? v.iss.core k = s.pkg.cast? v.iss.core k
  cast : t.pkg.cast? v.iss.core v.src.cast =
    (s.pkg.cast? v.iss.core v.src.cast).map fun c => { c with cchg := satCharge (c.cchg + chargeOf i v.act) }

/-- A slice but for its counter, its latches, and what its party remembers of its packets and waits for. -/
def SliceKept (a b : Slice) : Prop := b = { a with pc := b.pc, latches := b.latches, win := b.win, blocked := b.blocked }

/-- The counters after a word (R74, R150): the last word of a chain sends the issuing slices on, an earlier one moves none, and no other slice moves. -/
structure CountersAdvance (v : View) (w : Wave) : Prop where
  others : ∀ (k : Nat) (a b : Slice), k ∉ v.slices → v.now.slices[k]? = some a → w.slices[k]? = some b → b.pc = a.pc
  early : ∀ (k : Nat) (a b : Slice), v.iss.final = false → v.now.slices[k]? = some a → w.slices[k]? = some b → b.pc = a.pc ∧ b.blocked = a.blocked
  last : ∀ (k : Nat) (b : Slice), v.iss.final = true → v.iss.moved = false → v.now.blockedAt v.iss.leader = none → k ∈ v.slices → w.slices[k]? = some b →
    b.pc = v.iss.next
  waits : ∀ (k : Nat) (a b : Slice), v.now.blockedAt v.iss.leader = none → v.now.slices[k]? = some a → w.slices[k]? = some b → b.blocked = a.blocked

/-- A wave after a word that writes registers at most: everything but the registers and the slices is as it was, and every slice keeps its masks,
stack, mode and party. -/
structure WaveKept (v : View) (w : Wave) : Prop where
  wave : w = { v.now with vregs := w.vregs, sregs := w.sregs, preds := w.preds, fpflags := w.fpflags, slices := w.slices }
  slices : w.slices.length = v.now.slices.length ∧ w.vregs.length = v.now.vregs.length ∧ w.sregs.length = v.now.sregs.length
    ∧ w.preds.length = v.now.preds.length
  slice : ∀ (k : Nat) (a b : Slice), v.now.slices[k]? = some a → w.slices[k]? = some b → SliceKept a b

/-- The latches after a word (R69): the entry `val` joins those of every live slice of the party, or none does; a parked wave's are emptied by
the switch. -/
def Latched (v : View) (val : Option (Nat → LatchVal)) (w : Wave) : Prop :=
  v.now.park = none → ∀ (k : Nat) (a b : Slice), v.now.slices[k]? = some a → w.slices[k]? = some b →
    b.latches = match val with
      | none => a.latches
      | some f => if k ∈ v.now.party v.iss.leader then
          (insertLatch { val := f k, packet := v.win.packet, seq := 4 * v.win.packet + v.iss.pslot } a.latches).take 4 else a.latches

/-- A word has performed and changed at most the registers of its wave. -/
structure RegisterWord (s t : State) (v : View) (i : Instr) (w : Wave) : Prop where
  outside : Outside s t v i
  issuer : t.issuer v = some w
  kept : WaveKept v w
  counters : CountersAdvance v w

/-- Every vector register is as it was. -/
def SameVectors (v : View) (w : Wave) : Prop := w.vregs = v.now.vregs

/-- Every scalar register is as it was. -/
def SameScalars (v : View) (w : Wave) : Prop := w.sregs = v.now.sregs

/-- Every predicate register is as it was. -/
def SamePredicates (v : View) (w : Wave) : Prop := w.preds = v.now.preds

/-- FPFLAGS is as it was. -/
def SameFlags (v : View) (w : Wave) : Prop := w.fpflags = v.now.fpflags

/-- Register d holds `f j` in each active lane j unless K keeps the result in the latches alone; every other element is as it was (R69, R84). -/
def VectorsBecome (v : View) (w : Wave) (keep : BitVec 1) (d : Nat) (f : Nat → Word) : Prop :=
  ∀ r j, r < v.now.vregs.length → j < 128 →
    w.v r j = if keep = 0 ∧ r = d ∧ v.active j = true then f j else v.now.v r j

/-- The pair at register d holds `f j` in each active lane j, bits 31:0 in the first register (R92). -/
def PairsBecome (v : View) (w : Wave) (keep : BitVec 1) (d : Nat) (f : Nat → Quad) : Prop :=
  ∀ r j, r < v.now.vregs.length → j < 128 →
    w.v r j = if keep = 0 ∧ r = d ∧ v.active j = true then (f j).setWidth 32
      else if keep = 0 ∧ r = d + 1 ∧ v.active j = true then ((f j) >>> 32).setWidth 32 else v.now.v r j

/-- A word of a pipe writes scalar d unless a word of the same chain that is applied later has written it (R84, R113): over the S pipe stand the V and
X pipes, over the V pipe the X pipe. `wrote` lists the scalars of V words, and 64 more than those of X words. -/
def Stands (v : View) (pipe : Pipe) (d : Nat) : Bool :=
  match pipe with
  | .S => !(v.iss.wrote.contains d || v.iss.wrote.contains (d + 64))
  | .V => !v.iss.wrote.contains (d + 64)
  | _ => true

/-- Scalar d holds x if the word writes it; every other scalar is as it was. -/
def ScalarBecomes (v : View) (w : Wave) (written : Bool) (d : Nat) (x : Quad) : Prop :=
  ∀ n, n < v.now.sregs.length → w.s n = if written = true ∧ n = d then x else v.now.s n

/-- The active lanes of predicate d hold f; its other lanes and every other predicate are as they were, p0 always (R83, R122). -/
def PredicateBecomes (v : View) (w : Wave) (d : Nat) (f : Nat → Bool) : Prop :=
  ∀ n j, n < v.now.preds.length → j < 128 →
    (w.p n).getLsbD j = if n ≠ 0 ∧ n = d ∧ v.active j = true then f j else (v.now.p n).getLsbD j

/-- The word performs and writes vector register d, or only the latches. -/
def VectorWrite (s : State) (v : View) (i : Instr) (keep : BitVec 1) (d : Nat) (f : Nat → Word) : Prop :=
  ∃ t w, exec i s = .next t ∧ RegisterWord s t v i w ∧ VectorsBecome v w keep d f ∧ SameScalars v w ∧ SamePredicates v w ∧ SameFlags v w
    ∧ Latched v (some fun k => .vec ((List.range 4).map fun l => if v.active (4 * k + l) then f (4 * k + l) else 0)) w

/-- The same with the register code of a d field. -/
def VectorResult (s : State) (v : View) (i : Instr) (keep : BitVec 1) (d : BitVec 7) (f : Nat → Word) : Prop :=
  VectorWrite s v i keep d.toNat f

/-- The word performs and writes a register pair, or only the latches. -/
def PairResult (s : State) (v : View) (i : Instr) (keep : BitVec 1) (d : BitVec 7) (f : Nat → Quad) : Prop :=
  ∃ t w, exec i s = .next t ∧ RegisterWord s t v i w ∧ PairsBecome v w keep d.toNat f ∧ SameScalars v w ∧ SamePredicates v w ∧ SameFlags v w
    ∧ Latched v (some fun k => .pair ((List.range 4).map fun l => if v.active (4 * k + l) then f (4 * k + l) else 0)) w

/-- The word performs and writes a scalar register, or only the latches. -/
def ScalarResult (s : State) (v : View) (i : Instr) (pipe : Pipe) (keep : BitVec 1) (d : BitVec 7) (x : Quad) : Prop :=
  ∃ t w, exec i s = .next t ∧ RegisterWord s t v i w ∧ ScalarBecomes v w (keep = 0 && Stands v pipe d.toNat) d.toNat x ∧ SameVectors v w
    ∧ SamePredicates v w ∧ SameFlags v w ∧ Latched v (some fun _ => .scalar x) w

/-- The word performs and writes scalar registers, and no latch: register n takes `x n` where it has one. -/
def ScalarsWritten (s : State) (v : View) (i : Instr) (x : Nat → Option Quad) : Prop :=
  ∃ t w, exec i s = .next t ∧ RegisterWord s t v i w ∧ (∀ n, n < v.now.sregs.length → w.s n = (x n).getD (v.now.s n)) ∧ SameVectors v w
    ∧ SamePredicates v w ∧ SameFlags v w ∧ Latched v none w

/-- The word performs and writes the active lanes of a predicate. -/
def PredicateResult (s : State) (v : View) (i : Instr) (d : BitVec 3) (f : Nat → Bool) : Prop :=
  ∃ t w, exec i s = .next t ∧ RegisterWord s t v i w ∧ PredicateBecomes v w d.toNat f ∧ SameVectors v w ∧ SameScalars v w ∧ SameFlags v w
    ∧ Latched v none w

/-- The flags that the results of the active lanes raise (R95, R100). -/
def RaisedBy (v : View) (f : Nat → Flagged) (n : Nat) : Bool :=
  (List.range 128).any fun j => v.active j && (f j).flags.getLsbD n

/-- FPFLAGS gains the flags that the active lanes raise and loses none. -/
def FlagsRaised (v : View) (w : Wave) (f : Nat → Flagged) : Prop :=
  ∀ n, w.fpflags.getLsbD n = (v.now.fpflags.getLsbD n || (decide (n < 5) && RaisedBy v f n))

/-- The word performs, writes a vector register of results, or only the latches, and raises their flags. -/
def FlaggedResult (s : State) (v : View) (i : Instr) (keep : BitVec 1) (d : BitVec 7) (f : Nat → Flagged) : Prop :=
  ∃ t w, exec i s = .next t ∧ RegisterWord s t v i w ∧ VectorsBecome v w keep d.toNat (fun j => BitVec.ofNat 32 (f j).bits)
    ∧ SameScalars v w ∧ SamePredicates v w ∧ FlagsRaised v w f
    ∧ Latched v (some fun k => .vec ((List.range 4).map fun l => if v.active (4 * k + l) then BitVec.ofNat 32 (f (4 * k + l)).bits else 0)) w

/-- The same for register pairs. -/
def FlaggedPairResult (s : State) (v : View) (i : Instr) (keep : BitVec 1) (d : BitVec 7) (f : Nat → Flagged) : Prop :=
  ∃ t w, exec i s = .next t ∧ RegisterWord s t v i w ∧ PairsBecome v w keep d.toNat (fun j => BitVec.ofNat 64 (f j).bits)
    ∧ SameScalars v w ∧ SamePredicates v w ∧ FlagsRaised v w f
    ∧ Latched v (some fun k => .pair ((List.range 4).map fun l => if v.active (4 * k + l) then BitVec.ofNat 64 (f (4 * k + l)).bits else 0)) w

/-! The words that do more than write registers. -/

/-- What a word that performs leaves of its wave, `u` being the wave with the word's effect made: the counters of the issuing slices go to the next
word after the last word of a chain unless a transfer has set them (R74), and what the party remembers of its packets changes; nothing else. The
latches of a parked wave are emptied, and the counters of a party that an earlier word of the chain holds stay with that word. -/
structure Closed (v : View) (moved : Bool) (u w : Wave) : Prop where
  wave : w = { u with slices := w.slices }
  length : w.slices.length = u.slices.length
  slice : ∀ (k : Nat) (a b : Slice), u.slices[k]? = some a → w.slices[k]? = some b → SliceKept a b
  latches : u.park = none → ∀ (k : Nat) (a b : Slice), u.slices[k]? = some a → w.slices[k]? = some b → b.latches = a.latches
  counters : u.blockedAt v.iss.leader = none → ∀ (k : Nat) (a b : Slice), u.slices[k]? = some a → w.slices[k]? = some b →
    b.blocked = a.blocked ∧ b.pc = if v.iss.final = true ∧ moved = false ∧ v.iss.moved = false ∧ k ∈ v.slices then v.iss.next else a.pc

/-- The word performs: `p` is the package with its effect on everything but its wave made, `u` its wave with its effect made, `moved` whether it sets
the counters itself. Nothing else changes but the charge (R354). -/
def Performs (s : State) (v : View) (i : Instr) (moved : Bool) (p : Package) (u : Wave) : Prop :=
  ∃ t w, exec i s = .next t ∧ Outside { s with pkg := p } t v i ∧ t.issuer v = some w ∧ Closed v moved u w

/-- The word is held (R60): its party is blocked at it, waiting for `op`; the counters of the party's issuing slices stay at the word once the chain
has issued. `p` and `u` are as for `Performs`. -/
def Waits (s : State) (v : View) (i : Instr) (p : Package) (u : Wave) (op : BlockOp) : Prop :=
  ∃ t w b, exec i s = .next t ∧ Outside { s with pkg := p } t v i ∧ t.issuer v = some w ∧ w = { u with slices := w.slices }
    ∧ w.slices.length = u.slices.length
    ∧ (∀ (k : Nat) (x y : Slice), u.slices[k]? = some x → w.slices[k]? = some y → SliceKept x y ∧ (k ≠ v.iss.leader → y.blocked = x.blocked))
    ∧ w.blockedAt v.iss.leader = some b ∧ b.op = op ∧ b.word = v.iss.word ∧ b.count = 0
    ∧ (v.iss.final = true → ∀ (k : Nat) (x : Slice), k ∈ v.slices → w.slices[k]? = some x → x.leader.toNat = v.iss.leader → x.pc = v.iss.word)

/-- The word traps before it performs anything: at once where it issues alone, and kept for the end of its chain where it does not (R68, R160). -/
def Traps (s : State) (v : View) (i : Instr) (t : Trap) : Prop := exec i s = .next (s.raise v t)

/-- A wave with its slices changed alone, each as R says. -/
def SlicesBecome (a u : Wave) (R : Nat → Slice → Slice → Prop) : Prop :=
  u = { a with slices := u.slices } ∧ u.slices.length = a.slices.length
    ∧ ∀ (k : Nat) (x y : Slice), a.slices[k]? = some x → u.slices[k]? = some y → R k x y

/-- The issuing slices go to an address, and nothing else of the wave changes. -/
def GoTo (v : View) (u : Wave) (pc : Quad) : Prop :=
  SlicesBecome v.now u fun k x y => y = if k ∈ v.slices then { x with pc := pc } else x

/-- A word that sends its issuing slices to an address on a condition, and changes nothing else. -/
def Branches (s : State) (v : View) (i : Instr) (c : Prop) (pc : Quad) : Prop :=
  (c → ∃ u, Performs s v i true s.pkg u ∧ GoTo v u pc) ∧ (¬ c → Performs s v i false s.pkg v.now)

/-- A compare of two scalars and a branch (R152, Table 8.3); the target is the word's address + 4 × offset. -/
def ScalarBranch (i : BC → Instr) (c : Quad → Quad → Prop) : Prop :=
  ∀ (s : State) (v : View) (w : BC), Issues s v (i w) →
    Branches s v (i w) (c (v.src.s w.a.toNat) (v.src.s w.b.toNat)) (v.iss.word + 4 * w.o.signExtend 64)

/-- The same of one scalar and 0. -/
def ScalarTest (i : BC1 → Instr) (c : Quad → Prop) : Prop :=
  ∀ (s : State) (v : View) (w : BC1), Issues s v (i w) → Branches s v (i w) (c (v.src.s w.a.toNat)) (v.iss.word + 4 * w.o.signExtend 64)

/-- Every live slice of a wave unites in one party at X + 4 with every lane active, and the wave's promotion ends (R59, R157). What the latches of a
united party hold is out of its reach (R69), and its leader starts a new packet visit. -/
def Unites (a u : Wave) (x : Quad) : Prop :=
  u = { a with slices := u.slices, promoted := 0, promoHeld := 0 } ∧ u.slices.length = a.slices.length
    ∧ ∀ (k : Nat) (p q : Slice), a.slices[k]? = some p → u.slices[k]? = some q →
      q = if p.live then { p with mask := 15, pc := x + 4, leader := leaderOf a.liveSlices, blocked := none, late := none, latches := q.latches, win := q.win }
        else { p with win := q.win }

/-- The word performs with the rest of its chain, and then the trap of a cause is taken (R160, R161, R164): EPC is the word after the chain, or the start of
the latch window that the trap restarts (Table 8.5). -/
def TrapsAfter (s : State) (v : View) (i : Instr) (cause : Cause) (addr : Quad) : Prop :=
  ∃ m w, exec i s = .next (m.modPkg fun p => p.deliver s.clk
      { core := v.iss.core, slot := v.iss.slot, leader := v.iss.leader, slices := v.slices, cause := cause, word := v.iss.pslot,
        epc := v.windowStart.getD v.iss.next, addr := addr, lanes := v.act, window := v.windowStart.isSome })
    ∧ Outside s m v i ∧ m.issuer v = some w ∧ Closed v false v.now w

/-- A barrier word of address operand a (R215): misaligned, past SPSIZE, or not at a barrier, it traps with its address; at a barrier its effect is as
`body` says. The party's leader is a slice of the wave. -/
def BarrierWord {α : Type} (i : α → Instr) (a : α → BitVec 7) (body : State → View → α → Quad → Bar → Prop) : Prop :=
  ∀ (s : State) (v : View) (w : α), Issues s v (i w) →
    let addr := v.sc (a w).toNat
    let x := (s.pkg.core v.iss.core).ctx
    (addr.toNat % 16 ≠ 0 → Traps s v (i w) { cause := .misalign, addr := addr })
    ∧ (addr.toNat % 16 = 0 → v.cast.spsize.toNat < addr.toNat + 16 → Traps s v (i w) { cause := .spRange, addr := addr })
    ∧ (addr.toNat % 16 = 0 → addr.toNat + 16 ≤ v.cast.spsize.toNat → x.tag v.cast (addr.toNat / 16) ≠ 1 →
        Traps s v (i w) { cause := .barrierState, addr := addr })
    ∧ (addr.toNat % 16 = 0 → addr.toNat + 16 ≤ v.cast.spsize.toNat → x.tag v.cast (addr.toNat / 16) = 1 → v.iss.leader < v.now.slices.length →
        body s v w addr (x.bar v.cast (addr.toNat / 16)))

/-- A wave with its arrival noted: a tracking barrier remembers the phase in which each wave has arrived (R217). -/
def Arrived (w : Wave) (g : Nat) (b : Bar) : Wave :=
  if b.track then
    { w with arrivedAt := { granule := BitVec.ofNat 19 g, phase := b.phase } :: w.arrivedAt.filter (·.granule ≠ BitVec.ofNat 19 g) }
  else w

/-- ATTACH (R336, R337): n is bits 6:0 of the configuration, the role bits 9:8, NOW bit 10. -/
def Attaches (i : R3 → Instr) (wait : Bool) : Prop :=
  ∀ (s : State) (v : View) (w : R3), Issues s v (i w) →
    let entry := v.sc w.a.toNat
    let cfg := (v.sc w.b.toNat).toNat
    let wrong := bits cfg 7 1 ≠ 0 ∨ bits cfg 11 53 ≠ 0 ∨ bits cfg 0 7 = 0
    (wrong → Traps s v (i w) v.operandTrap)
    ∧ (¬ wrong → entry.toNat % 4 ≠ 0 → Traps s v (i w) { cause := .misalign, addr := entry })
    ∧ (¬ wrong → entry.toNat % 4 = 0 → v.cast.inCode entry = false → Traps s v (i w) { cause := .access, addr := entry })
    ∧ (¬ wrong → entry.toNat % 4 = 0 → v.cast.inCode entry = true → v.iss.leader < v.now.slices.length →
        Waits s v (i w) s.pkg v.now (.attach { entry := entry, n := bits cfg 0 7, role := roleOf (bits cfg 8 2), now := decide (bits cfg 10 1 = 1), dest := w.d.toNat, due := s.clk.companies.getD (v.iss.core / 8) 0 + 2 } wait))

/-! The shapes of the register words: one statement for each layout of operands (Table 3.2). -/

/-- Each active lane of d becomes a function of the elements of a and b. -/
def EachLane2 (i : VR → Instr) (f : Word → Word → Word) : Prop :=
  ∀ (s : State) (v : View) (w : VR), Issues s v (i w) → VectorResult s v (i w) w.k w.d fun j => f (v.vec w.a.toNat j) (v.vec w.b.toNat j)

/-- Each active lane of d becomes a function of the element of a. -/
def EachLane1 (i : VR1 → Instr) (f : Word → Word) : Prop :=
  ∀ (s : State) (v : View) (w : VR1), Issues s v (i w) → VectorResult s v (i w) w.k w.d fun j => f (v.vec w.a.toNat j)

/-- Each active lane of d becomes a function of the element of a and of the 7-bit immediate. -/
def EachLaneImm (i : VI → Instr) (f : Word → BitVec 7 → Word) : Prop :=
  ∀ (s : State) (v : View) (w : VI), Issues s v (i w) → VectorResult s v (i w) w.k w.d fun j => f (v.vec w.a.toNat j) w.i

/-- Each active lane of the pair d becomes a function of the pairs a and b. -/
def EachPair2 (i : VR → Instr) (f : Quad → Quad → Quad) : Prop :=
  ∀ (s : State) (v : View) (w : VR), Issues s v (i w) → PairResult s v (i w) w.k w.d fun j => f (v.pair w.a.toNat j) (v.pair w.b.toNat j)

/-- Each active lane of the pair d becomes a function of the pair a and the element of b. -/
def EachPairBy (i : VR → Instr) (f : Quad → Word → Quad) : Prop :=
  ∀ (s : State) (v : View) (w : VR), Issues s v (i w) → PairResult s v (i w) w.k w.d fun j => f (v.pair w.a.toNat j) (v.vec w.b.toNat j)

/-- Each active lane of the pair d becomes a function of the pair a and of the immediate. -/
def EachPairImm (i : VI → Instr) (f : Quad → BitVec 7 → Quad) : Prop :=
  ∀ (s : State) (v : View) (w : VI), Issues s v (i w) → PairResult s v (i w) w.k w.d fun j => f (v.pair w.a.toNat j) w.i

/-- Scalar d becomes a function of the scalars a and b. -/
def Scalar2 (i : VR → Instr) (f : Quad → Quad → Quad) : Prop :=
  ∀ (s : State) (v : View) (w : VR), Issues s v (i w) → ScalarResult s v (i w) .S w.k w.d (f (v.sc w.a.toNat) (v.sc w.b.toNat))

/-- Scalar d becomes a function of the scalar a and of the 8-bit immediate. -/
def ScalarImm (i : SI → Instr) (f : Quad → BitVec 8 → Quad) : Prop :=
  ∀ (s : State) (v : View) (w : SI), Issues s v (i w) → ScalarResult s v (i w) .S w.k w.d (f (v.sc w.a.toNat) w.i)

/-- How a compare combines its outcome c into pd (R121). -/
def Combined (m : BitVec 2) (old c : Bool) : Bool :=
  if m = 0 then c else if m = 1 then old && c else if m = 2 then old || c else old && !c

/-- A compare of the elements of a and b. -/
def Compares (i : VP → Instr) (c : Word → Word → Bool) : Prop :=
  ∀ (s : State) (v : View) (w : VP), Issues s v (i w) →
    PredicateResult s v (i w) w.d fun j => Combined w.m (v.predAt w.d.toNat j) (c (v.vec w.a.toNat j) (v.vec w.b.toNat j))

/-- A compare of the pairs a and b. -/
def ComparesPair (i : VP → Instr) (c : Quad → Quad → Bool) : Prop :=
  ∀ (s : State) (v : View) (w : VP), Issues s v (i w) →
    PredicateResult s v (i w) w.d fun j => Combined w.m (v.predAt w.d.toNat j) (c (v.pair w.a.toNat j) (v.pair w.b.toNat j))

/-- A test of the element of a. -/
def Tests (i : VP1 → Instr) (c : Word → Bool) : Prop :=
  ∀ (s : State) (v : View) (w : VP1), Issues s v (i w) →
    PredicateResult s v (i w) w.d fun j => Combined w.m (v.predAt w.d.toNat j) (c (v.vec w.a.toNat j))

/-- A test of the pair a. -/
def TestsPair (i : VP1 → Instr) (c : Quad → Bool) : Prop :=
  ∀ (s : State) (v : View) (w : VP1), Issues s v (i w) →
    PredicateResult s v (i w) w.d fun j => Combined w.m (v.predAt w.d.toNat j) (c (v.pair w.a.toNat j))

/-- Each active lane of d becomes a value computed from the bits of a and b, with its flags. -/
def EachFloat2 (i : VR → Instr) (f : Nat → Nat → Flagged) : Prop :=
  ∀ (s : State) (v : View) (w : VR), Issues s v (i w) →
    FlaggedResult s v (i w) w.k w.d fun j => f (v.vec w.a.toNat j).toNat (v.vec w.b.toNat j).toNat

/-- The same with one source. -/
def EachFloat1 (i : VR1 → Instr) (f : Nat → Flagged) : Prop :=
  ∀ (s : State) (v : View) (w : VR1), Issues s v (i w) → FlaggedResult s v (i w) w.k w.d fun j => f (v.vec w.a.toNat j).toNat

/-- The same with the element of the register that d names as the third operand: v0's with K = 1 (R129). -/
def EachFloat3 (i : VR → Instr) (f : Nat → Nat → Nat → Flagged) : Prop :=
  ∀ (s : State) (v : View) (w : VR), Issues s v (i w) →
    FlaggedResult s v (i w) w.k w.d fun j => f (v.src.v w.d.toNat j).toNat (v.vec w.a.toNat j).toNat (v.vec w.b.toNat j).toNat

/-- The same over pairs. -/
def EachDouble2 (i : VR → Instr) (f : Nat → Nat → Flagged) : Prop :=
  ∀ (s : State) (v : View) (w : VR), Issues s v (i w) →
    FlaggedPairResult s v (i w) w.k w.d fun j => f (v.pair w.a.toNat j).toNat (v.pair w.b.toNat j).toNat

/-- The same over pairs with one source. -/
def EachDouble1 (i : VR1 → Instr) (f : Nat → Flagged) : Prop :=
  ∀ (s : State) (v : View) (w : VR1), Issues s v (i w) → FlaggedPairResult s v (i w) w.k w.d fun j => f (v.pair w.a.toNat j).toNat

/-- The same over pairs with the pair that d names as the third operand. -/
def EachDouble3 (i : VR → Instr) (f : Nat → Nat → Nat → Flagged) : Prop :=
  ∀ (s : State) (v : View) (w : VR), Issues s v (i w) →
    FlaggedPairResult s v (i w) w.k w.d fun j =>
      f (v.src.v (w.d.toNat + 1) j ++ v.src.v w.d.toNat j).toNat (v.pair w.a.toNat j).toNat (v.pair w.b.toNat j).toNat

/-- Both halves of a lane, element 0 in bits 15:0, each with its own rounding and flags (R96, R136): the operation takes d, a and b. -/
def EachHalves (i : VR → Instr) (f : Nat → Nat → Nat → Flagged) : Prop :=
  EachFloat3 i fun d a b =>
    let lo := f (d % 2 ^ 16) (a % 2 ^ 16) (b % 2 ^ 16)
    let hi := f (d / 2 ^ 16) (a / 2 ^ 16) (b / 2 ^ 16)
    { bits := lo.bits + 2 ^ 16 * hi.bits, flags := lo.flags ||| hi.flags }

/-- The sequential dot of R108 over elements of `w` bits of format g, into an F32 accumulator: one fused step for each element. -/
def DotSteps (g : Fmt) (l : List Nat) (w acc a b : Nat) : Flagged :=
  match l with
  | [] => { bits := acc }
  | e :: l =>
    let r := fmtF32.finish ((g.value (a / 2 ^ (w * e) % 2 ^ w)).fma (g.value (b / 2 ^ (w * e) % 2 ^ w)) (fmtF32.value acc))
    let q := DotSteps g l w r.bits a b
    { bits := q.bits, flags := r.flags ||| q.flags }

/-- Byte e of a lane, sign-extended. -/
def ByteOf (x : Word) (e : Nat) : Word := ((x >>> (8 * e)).setWidth 8).signExtend 32

/-- A lane with its field e of n bits replaced (R139). -/
def FieldReplaced (n e old : Nat) (r : Flagged) : Flagged :=
  { bits := old / 2 ^ (n * (e + 1)) * 2 ^ (n * (e + 1)) + r.bits * 2 ^ (n * e) + old % 2 ^ (n * e), flags := r.flags }

/-- The tree of R109 over leaves that may be absent: a node joins what is present of its two children. -/
def TreeOver {α : Type} (f : α → α → α) (leaf : Nat → Option α) : Nat → Nat → Option α
  | 0, i => leaf i
  | n + 1, i => match TreeOver f leaf n (2 * i), TreeOver f leaf n (2 * i + 1) with
    | none, h => h
    | l, none => l
    | some x, some y => some (f x y)

/-- A reduction: every active lane takes the value of the tree over the active lanes, 0 where there is none (R143). -/
def Reduces (i : VR1 → Instr) (f : Nat → Nat → Nat) : Prop :=
  ∀ (s : State) (v : View) (w : VR1), Issues s v (i w) →
    VectorResult s v (i w) w.k w.d fun _ =>
      BitVec.ofNat 32 ((TreeOver f (fun j => if v.active j then some (v.whole w.a.toNat j).toNat else none) 7 0).getD 0)

/-- The class mask of Table 7.2 for a format of e exponent and m fraction bits. -/
def ClassMask (e m x : Nat) : Nat :=
  let neg := x / 2 ^ (e + m) % 2 = 1
  let ex := x / 2 ^ m % 2 ^ e
  let fr := x % 2 ^ m
  if ex = 2 ^ e - 1 then (if fr ≠ 0 then 256 else if neg then 1 else 128)
  else if ex = 0 then (if fr ≠ 0 then (if neg then 4 else 32) else if neg then 8 else 16)
  else if neg then 2 else 64

/-! The words over memory and units, and the events: what each statement needs to say. -/

/-- A check over the active lanes fails (R211, R234): the lanes that fail it, and the address of the lowest. -/
def LanesTrap (s : State) (v : View) (i : Instr) (cause : Cause) (addr : Nat → Quad) (P : Nat → Prop) : Prop :=
  ∀ j, j < 128 → v.active j = true → P j → (∀ k, k < j → v.active k = true → ¬ P k) →
    ∃ m : LaneMask, Traps s v i { cause := cause, addr := addr j, lanes := some m } ∧ ∀ k, k < 128 → (m.getLsbD k = true ↔ v.active k = true ∧ P k)

/-- No active lane is so. -/
def NoLane (v : View) (P : Nat → Prop) : Prop := ∀ j, j < 128 → v.active j = true → ¬ P j

/-- POISON falls due for the lanes that are bad (R160, R224), and only then. -/
def PoisonDue (v : View) (a u : Wave) (addr : Nat → Quad) (P : Nat → Prop) : Prop :=
  (NoLane v P → u.due = a.due)
  ∧ ∀ j, j < 128 → v.active j = true → P j → (∀ k, k < j → v.active k = true → ¬ P k) →
      ∃ m : LaneMask, u.due = a.due ++ [{ cause := .poison, addr := addr j, lanes := m, leader := v.iss.leader }]
        ∧ ∀ k, k < 128 → (m.getLsbD k = true ↔ v.active k = true ∧ P k)

/-- The address of lane j in the three forms of Table 3.8 (R65): scalar and lane, scalar and gang, scalar alone. -/
def LaneAddress (v : View) (b a am size j : Nat) : Quad :=
  v.src.s b + if am = 0 then (v.vec a j).setWidth 64 else if am = 1 then BitVec.ofNat 64 ((a * 128 + j) * size) else BitVec.ofNat 64 (a * size)

/-- The checks of an LDS or STS in their order (R211), and what it does when every lane passes; `tagged`: it may not touch a tagged granule. -/
def SpAccess (s : State) (v : View) (i : Instr) (size : Nat) (tagged : Prop) (addr : Nat → Quad) (body : Prop) : Prop :=
  let mis := fun j : Nat => (addr j).toNat % size ≠ 0
  let late := fun j : Nat => v.cast.spsize.toNat < (addr j).toNat + size
  let tag := fun j : Nat => (s.pkg.core v.iss.core).ctx.tag v.cast ((addr j).toNat / 16)
  LanesTrap s v i .misalign addr mis
  ∧ (NoLane v mis → LanesTrap s v i .spRange addr late)
  ∧ (NoLane v mis → NoLane v late → tagged → LanesTrap s v i .barrierClobber addr fun j => tag j = 1)
  ∧ (NoLane v mis → NoLane v late → tagged → (NoLane v fun j => tag j = 1) → LanesTrap s v i .queueState addr fun j => 2 ≤ tag j)
  ∧ (NoLane v mis → NoLane v late → (tagged → NoLane v fun j => tag j ≠ 0) → body)

/-- A blocked party goes on (R60): each held slice at the address kept for it, what its chain has put off until the wait is over now due (R152, R164), and the wave's promotion ends (R59). -/
def GoesOn (a u : Wave) (leader : Nat) (b : Blocked) : Prop :=
  u = { a with slices := u.slices, promoted := 0, promoHeld := 0 } ∧ u.slices.length = a.slices.length
    ∧ ∀ (k : Nat) (x y : Slice), a.slices[k]? = some x → u.slices[k]? = some y →
      y = { x with
        pc := (((b.slices.zip b.resume).reverse.find? fun p => p.1 = k).map Prod.snd).getD x.pc
        blocked := if k = leader then none else x.blocked
        late := if k = leader then b.late.or x.late else x.late }

/-- An event whose whole effect is on one wave. -/
def OnWave (s : State) (i : Instr) (core slot : Nat) (u : Wave) : Prop :=
  exec i s = .next { s with pkg := s.pkg.modWave core slot fun _ => u }

/-- The wave that an exchange names: a live wave of the issuing wave's stage, of its cast or its co-group, other than itself (R145). -/
def XchgPartner (s : State) (v : View) (core wave : Nat) : Prop :=
  core / 64 = v.iss.core / 64 ∧ ∃ (k : Nat) (x : Wave) (c : Cast), (s.pkg.core core).ctx.waves[k]? = some (some x) ∧ s.pkg.cast? core x.cast = some c
    ∧ x.waveId.toNat = wave ∧ (if core = v.iss.core then x.cast = v.src.cast else sameGroup c v.cast = true) ∧ ¬ (core = v.iss.core ∧ k = v.iss.slot)

/-- The requests on their way to a home slice, or held at their source stop (R229, R351). -/
def Requests (p : Package) : List Req := p.companies.flatMap Company.inq ++ p.stage.flatMap Stage.heldReqs

/-- Where an address lies in device memory, where it does: vault × 2³⁰ + vault offset (R190, R195). -/
def DevicePlace (s : State) (v : View) (writes : Bool) (a : Quad) : Option Nat :=
  match s.pkg.xlate v.iss.core v.cast.partition (.wave v.iss.core v.iss.slot) a writes false with
  | .dev x => some x
  | _ => none

/-- What a memory word leaves that performs for the lanes `place` maps (R75, R226, R231, R232, R250): a request on its way to the home slice of each such
lane's line, unless the first-level cache holds the line and serves it; OUTST counts the requests that will be acknowledged, up to 4,095, and those beyond
wait for their place in it; the destination registers wait
for the replies; the lanes served at once take `got`. No byte of memory changes. -/
structure Sent (s : State) (v : View) (p : Package) (u : Wave) (place : Nat → Option Nat) (hit : Nat → Prop) (carries : Nat → Nat → ReqBody → Prop)
    (counted : Bool) (ret : Option (Nat × Nat)) (got : Nat → Nat → Option Word) : Prop where
  requests : ∀ j a, j < 128 → v.active j = true → place j = some a → ¬ hit (a / 128) → s.pkg.homeOf (a / 128) < s.pkg.companies.length →
    ∃ r, r ∈ Requests p ∧ r.key = s.pkg.keyOf v.iss.core v.iss.slot ∧ r.leader = v.iss.leader ∧ r.part = v.cast.partition ∧ r.id = v.now.nextId
      ∧ r.line = a / 128 ∧ r.staged = v.cast.launchKey ∧ carries j a r.body
  counts : ∃ n, (0 < n ↔ ∃ j a, j < 128 ∧ v.active j = true ∧ place j = some a ∧ ¬ hit (a / 128))
    ∧ (let c := if counted then n else 0
       u.outst = BitVec.ofNat 12 (min 4095 (v.now.outst.toNat + c)) ∧ u.outstMore.length = v.now.outstMore.length + (v.now.outst.toNat + c - 4095))
    ∧ u.pending = v.now.pending ++ match ret with
      | some (r, c) => if n = 0 then [] else [{ id := v.now.nextId, first := r, count := c, left := n }]
      | none => []
  regs : u.vregs.length = v.now.vregs.length ∧ ∀ r j, r < v.now.vregs.length → j < 128 → u.v r j = (got r j).getD (v.now.v r j)
  wave : u = { v.now with vregs := u.vregs, outst := u.outst, outl := u.outl, outstMore := u.outstMore, pending := u.pending, nextId := v.now.nextId + 1 }
  package : p = { s.pkg with cores := p.cores, companies := p.companies, stage := p.stage, due := p.due }
  cores : ∀ c, c ≠ v.iss.core → p.core c = s.pkg.core c
  core : p.core v.iss.core = { s.pkg.core v.iss.core with
    l1 := (p.core v.iss.core).l1, tlb := (p.core v.iss.core).tlb, replies := (p.core v.iss.core).replies }
  companies : ∀ m, p.company m = { s.pkg.company m with
    inq := (p.company m).inq, stalled := (p.company m).stalled, stageWait := (p.company m).stageWait, tlb := (p.company m).tlb }

/-- A memory word (R230, R234, R241, R264): its checks in their order, each over all its lanes, and, where every lane passes and lies in device memory, its
effect. `oneLine`: every lane must lie in the line of the lowest; `cause`: what a lane outside the ownership ranges raises in ordered mode. -/
def MemWord (s : State) (v : View) (i : Instr) (size : Nat) (writes hostOk oneLine : Bool) (cause : Option Cause) (addr : Nat → Quad) (hit : Nat → Prop)
    (carries : Nat → Nat → ReqBody → Prop) (counted : Bool) (ret : Option (Nat × Nat)) (got : (Nat → Option Nat) → Nat → Nat → Option Word) : Prop :=
  let x := fun j : Nat => s.pkg.xlate v.iss.core v.cast.partition (.wave v.iss.core v.iss.slot) (addr j) writes false
  let mis := fun j : Nat => (addr j).toNat % size ≠ 0
    ∨ (oneLine = true ∧ ∃ k, k < 128 ∧ v.active k = true ∧ (∀ l, l < k → v.active l = false) ∧ (addr j).toNat / 128 ≠ (addr k).toNat / 128)
  let denied := fun j : Nat => x j = .access ∨ (isHostVa (addr j) = true ∧ hostOk = false)
  let unowned := fun j : Nat => v.cast.ordered = true ∧ v.cast.owns (addr j) size = false
  let place := fun j : Nat => DevicePlace s v writes (addr j)
  LanesTrap s v i .misalign addr mis
  ∧ (NoLane v mis → (NoLane v fun j => x j = .walk) → LanesTrap s v i .access addr denied)
  ∧ (∀ c, cause = some c → NoLane v mis → (NoLane v fun j => x j = .walk) → NoLane v denied → LanesTrap s v i c addr unowned)
  ∧ (NoLane v mis → NoLane v denied → (NoLane v fun j => place j = none) → (cause = none ∨ NoLane v unowned) →
      (oneLine = true → ∀ j k a b, j < 128 → k < 128 → v.active j = true → v.active k = true → place j = some a → place k = some b → a / 128 = b / 128) →
      ∃ p u, Performs s v i false p u ∧ Sent s v p u place hit carries counted ret (got place))

/-- An atomic of op `op` of Table 12.3 (R235 to R237): one request for each address, with every lane of that address; `cas` compares with the group at v and
takes its new value from the next. A return waits for the old values; in ordered mode it raises ORDERED_RET outside the ownership ranges. -/
def Atomic (i : AT → Instr) (op : Nat) (cas : Bool) (host : Nat → Bool) : Prop :=
  ∀ (s : State) (v : View) (w : AT), Issues s v (i w) →
    let size := if w.t = 1 then 8 else if w.t = 2 then 16 else 4
    MemWord s v (i w) size true (host w.t.toNat) false (some (if w.n = 0 then .orderedRet else .ownership))
      (fun j => v.src.s w.b.toNat + (v.vec w.i.toNat j).setWidth 64) (fun _ => False)
      (fun j a b => ∃ at_ lanes, b = .atomic op w.t.toNat at_ lanes (decide (w.n = 0)) w.v.toNat ∧ at_.place = a
        ∧ { lane := j, x := v.bytes w.v.toNat size j, new := if cas then v.bytes (w.v.toNat + size / 4) size j else [] } ∈ lanes)
      true (if w.n = 0 then some (w.v.toNat, (size + 3) / 4) else none) fun _ _ _ => none

/-- The elements that a line of the first-level cache gives at once: register r of lane j (R227, R232). -/
def L1Elements (s : State) (v : View) (reg size : Nat) (place : Nat → Option Nat) (r j : Nat) : Option Word :=
  if v.active j = false then none
  else match place j with
    | none => none
    | some a => match (s.pkg.core v.iss.core).l1Find (a / 128) with
      | none => none
      | some x =>
        let l := (x.data.drop (a % 128)).take size
        if reg ≤ r ∧ 4 * (r - reg) < l.length then some (BitVec.ofNat 32 (ofLe ((l.drop (4 * (r - reg))).take 4))) else none

/-- A load (R226, R232, R233): 2 ^ e bytes for each lane, zero-extended to whole registers. -/
def Loads (s : State) (v : View) (i : Instr) (e reg : Nat) (addr : Nat → Quad) : Prop :=
  MemWord s v i (2 ^ e) false true false none addr (fun line => (s.pkg.core v.iss.core).l1Find line ≠ none)
    (fun j a b => ∃ lanes fill, b = .load (2 ^ e) reg lanes fill ∧ ∃ l ∈ lanes, l.lane = j ∧ l.place = a)
    false (some (reg, (2 ^ e + 3) / 4)) (L1Elements s v reg (2 ^ e))

/-- A store (R226, R232, R234): 2 ^ e bytes of each lane. -/
def Stores (s : State) (v : View) (i : Instr) (e reg : Nat) (addr : Nat → Quad) : Prop :=
  MemWord s v i (2 ^ e) true true false (some .ownership) addr (fun _ => False)
    (fun j a b => ∃ bytes, b = .store bytes ∧ ∀ n, n < 2 ^ e → (a + n, (v.dataBytes reg (2 ^ e) j).getD n 0) ∈ bytes)
    true none fun _ _ _ => none

/-- The address of lane j of LDC and STC: s[b] + (128 × offset + j) × the element size (R232). -/
def LineAddress (v : View) (w : MC) (j : Nat) : Quad :=
  v.src.s w.b.toNat + (w.o.signExtend 64 * 128 + BitVec.ofNat 64 j) * BitVec.ofNat 64 (2 ^ w.e.toNat)

/-- The address of lane j of LDG and STG: s[b] + index × 2 ^ s, the index of 8 × 2 ^ w bits sign- or zero-extended (R233). -/
def IndexedAddress (v : View) (w : MG) (j : Nat) : Quad :=
  let x := (v.vec w.i.toNat j).toNat
  let z := fun n : Nat => if w.g = 1 then (BitVec.ofNat n x).signExtend 64 else (BitVec.ofNat n x).setWidth 64
  v.src.s w.b.toNat + (if w.w = 0 then z 8 else if w.w = 1 then z 16 else if w.w = 2 then z 32 else v.pair w.i.toNat j) * BitVec.ofNat 64 (2 ^ w.s.toNat)

/-- s[b] + the element of the index register, zero-extended (R235, R241). -/
def LaneIndexAddress (v : View) (b : BitVec 4) (i : BitVec 7) (j : Nat) : Quad := v.src.s b.toNat + (v.vec i.toNat j).setWidth 64

/-- A hint (R245, R246): it traps on no lane; a lane that does not translate takes no part. -/
def MemHints (s : State) (v : View) (i : Instr) (addr : Nat → Quad) (hit : Nat → Prop) (carries : Nat → Nat → ReqBody → Prop) : Prop :=
  (NoLane v fun j => s.pkg.xlate v.iss.core v.cast.partition (.wave v.iss.core v.iss.slot) (addr j) false false = .walk) →
    ∃ p u, Performs s v i false p u
      ∧ Sent s v p u (fun j => DevicePlace s v false (addr j)) hit carries false none fun _ _ => none

/-- A matrix word joins the commands of its bay at the X pipe, with the tile registers as they stand when its chain issues (R44, R75, R175). -/
def QueuesCommand (s : State) (v : View) (i : Instr) (kind : MmKind) (acc ta tb : Nat) : Prop :=
  Performs s v i false (s.pkg.modCore v.iss.core fun k => { k with xq := modAt k.xq (v.iss.slot / 16) fun q => q ++
      [{ key := s.pkg.keyOf v.iss.core v.iss.slot, kind := kind, acc := acc, ta := v.src.tiles.getD ta 0, tb := v.src.tiles.getD tb 0 }] })
    { v.now with commands := v.now.commands + 1 }

/-- A wait that ends when `ended` holds: before, its event changes nothing; then, its party goes on. -/
def EndsWhen (i : Nat → Nat → Nat → Instr) (op : BlockOp) (ended : Wave → Prop) : Prop :=
  ∀ (s : State) (core slot leader : Nat) (w : Wave) (b : Blocked), s.pkg.wave? core slot = some w → w.blockedAt leader = some b → b.op = op →
    (¬ ended w → exec (i core slot leader) s = .next s)
    ∧ (ended w → ∃ u, OnWave s (i core slot leader) core slot u ∧ GoesOn w u leader b)

/-- Element kk of row r of a tile (R172). -/
def TileElement (x : CoreCtx) (c : Cast) (t : Quad) (r kk : Nat) : Nat :=
  let size := fmtSize (bits t.toNat 15 3)
  ofLe (Memory.readList x.sp (c.spPlace (16 * bits t.toNat 0 15 + 16 * bits t.toNat 32 10 * r + kk * size)) size)

/-- The sum over k of R177, from `old`: an exact product and one rounding at each step. -/
def MatrixSum (x : CoreCtx) (c : Cast) (ta tb : Quad) (i j old : Nat) : Nat :=
  (List.range (64 / fmtSize (bits ta.toNat 15 3))).foldl (fun acc k =>
    (fmtF32.finish (((fmtOf (bits ta.toNat 15 3)).value (TileElement x c ta i k)).fma ((fmtOf (bits tb.toNat 15 3)).value (TileElement x c tb j k))
      (fmtF32.value acc))).bits) old

/-- No row of a tile lies in a poisoned granule. -/
def TileClean (x : CoreCtx) (c : Cast) (t : Quad) : Prop :=
  ∀ r g, r ≤ bits t.toNat 18 7 → g < 4 → c.granule (bits t.toNat 0 15 + bits t.toNat 32 10 * r + g) ∉ x.spPoison

/-- The 16 bytes of a granule that begins at an address of a cast, as one number (R204). -/
def GranuleWord (x : CoreCtx) (c : Cast) (a : Nat) : Nat := ofLe (Memory.readList x.sp (c.spPlace a) 16)

/-- A word on a queue of mode PHASED or COUNTED (R295): misaligned, past SPSIZE, or not at a control word of its mode, it traps with its address. -/
def QueueWord (s : State) (v : View) (i : Instr) (a : Quad) (phased : Bool) (body : CoreCtx → Nat → Prop) : Prop :=
  let x := (s.pkg.core v.iss.core).ctx
  (a.toNat % 16 ≠ 0 → Traps s v i { cause := .misalign, addr := a })
  ∧ (a.toNat % 16 = 0 → v.cast.spsize.toNat < a.toNat + 16 → Traps s v i { cause := .spRange, addr := a })
  ∧ (a.toNat % 16 = 0 → a.toNat + 16 ≤ v.cast.spsize.toNat →
      (x.tag v.cast (a.toNat / 16) ≠ 3 ∨ decide (bits (GranuleWord x v.cast a.toNat) 29 1 = 1) ≠ phased) → Traps s v i { cause := .queueState, addr := a })
  ∧ (a.toNat % 16 = 0 → a.toNat + 16 ≤ v.cast.spsize.toNat → x.tag v.cast (a.toNat / 16) = 3 →
      decide (bits (GranuleWord x v.cast a.toNat) 29 1 = 1) = phased → v.iss.leader < v.now.slices.length → body x (GranuleWord x v.cast a.toNat))

/-- The scratchpad of a core but for its bytes, full-empty bits and poison is as it was. -/
def ScratchChange (x y : CoreCtx) : Prop := y = { x with sp := y.sp, fe := y.fe, spPoison := y.spPoison }

/-- An element of a queue moves between the ring and a party (R297 to R299): HEAD, TAIL and ALLOW count it, and FE of its granules says whether they hold one.
`at_` is its first granule; no other byte and no other full-empty bit changes but the control word's counts. -/
structure ElementMoves (x y : CoreCtx) (c : Cast) (a q at_ head tail allow : Nat) (full : Bool) : Prop where
  change : ScratchChange x y
  counts : GranuleWord y c a = q % 2 ^ 80 + head % 65536 * 2 ^ 80 + tail % 65536 * 2 ^ 96 + allow % 65536 * 2 ^ 112
  bytes : ∀ n, (n < c.spPlace a ∨ c.spPlace a + 16 ≤ n) → (n < c.spPlace (16 * at_) ∨ c.spPlace (16 * at_) + 16 * 2 ^ bits q 26 3 ≤ n) →
    Memory.read y.sp n = Memory.read x.sp n
  states : ∀ g, g ∈ y.fe ↔ if c.granule at_ ≤ g ∧ g < c.granule at_ + 2 ^ bits q 26 3 then full = true else g ∈ x.fe

/-- A push (R297, R298): the element goes to the granules at TAIL; 4 lanes of the source fill each granule, whatever the masks. -/
def Pushes (x y : CoreCtx) (c : Cast) (a q : Nat) (elem : Nat → Word) : Prop :=
  let at_ := bits q 0 15 + bits q 96 16 % bits q 15 11 * 2 ^ bits q 26 3
  ElementMoves x y c a q at_ (bits q 80 16) (bits q 96 16 + 1) (bits q 112 16 + 65535) true
  ∧ ∀ j, j < 4 * 2 ^ bits q 26 3 → BitVec.ofNat 32 (ofLe (Memory.readList y.sp (c.spPlace (16 * at_ + 4 * j)) 4)) = elem j

/-- A pop (R297, R299): the element leaves the granules at HEAD, whose bytes stay. -/
def Pops (x y : CoreCtx) (c : Cast) (a q : Nat) : Prop :=
  let at_ := bits q 0 15 + bits q 80 16 % bits q 15 11 * 2 ^ bits q 26 3
  ElementMoves x y c a q at_ (bits q 80 16 + 1) (bits q 96 16) (bits q 112 16 + 1) false
  ∧ ∀ n, (n < c.spPlace a ∨ c.spPlace a + 16 ≤ n) → Memory.read y.sp n = Memory.read x.sp n

/-- The granules of the element at a count carry the tag of a queue's region, as QINIT leaves them (R294, R296). -/
def ElementTagged (x : CoreCtx) (c : Cast) (q count : Nat) : Prop :=
  bits q 26 3 ≤ 5 ∧ ∀ i, i < 2 ^ bits q 26 3 → x.tag c (bits q 0 15 + count % bits q 15 11 * 2 ^ bits q 26 3 + i) = 2

/-- The registers of a wave after a pop: the low lanes of d take the element at HEAD, whatever the masks, and an acquire at cast scope is made, held while
a load is pending (R258, R299). -/
def TakesElement (x : CoreCtx) (c : Cast) (q d : Nat) (w u : Wave) : Prop :=
  let at_ := bits q 0 15 + bits q 80 16 % bits q 15 11 * 2 ^ bits q 26 3
  u = { w with vregs := u.vregs, fence := w.acquireCast.fence }
  ∧ ∀ r j, r < w.vregs.length → j < 128 → u.v r j =
      if r = d ∧ j < 4 * 2 ^ bits q 26 3 then BitVec.ofNat 32 (ofLe (Memory.readList x.sp (c.spPlace (16 * at_ + 4 * j)) 4)) else w.v r j

/-- A collective record with one arrival more (R278): a command that differs from the collective's makes an empty slice. -/
def Joined (k : Coll) (a : CopyArgs) (w : Wave) : Coll :=
  { k with arrived := k.arrived ++ [{ waveId := w.waveId, desc := if k.head = a.head ∧ k.ctl = a.ctl then a.slice else 0, tiles := w.tiles }] }

/-- Every member of a collective has arrived (R279). -/
def AllArrived (k : Coll) : Prop := ∀ m, m ∈ k.members → ∃ x, x ∈ k.arrived ∧ x.waveId = m

/-- A COPY takes the number of its collective (R278): it goes to the destination scalar, and the wave's count advances. -/
def Numbered (w : Wave) (d : Nat) : Wave := { w.setS d (w.nextCopy.setWidth 64) with nextCopy := w.nextCopy + 1 }

/-- One arrival at a collective (R277 to R279): it joins record i, or creates it, as `k`; `w` and `u` are its wave before and after, which falls due for ENGINE where the
command differs from the collective's. -/
structure Arrives (p q : Package) (core : Nat) (w u : Wave) (i : Nat) (k : Coll) (ends : Bool) : Prop where
  error : if ends then ∃ t : AsyncTrap, u = { w with due := w.due ++ [t] } ∧ t.cause = .engine ∧ t.addr = 0x209 else u = w
  package : q = { p with cores := q.cores, due := q.due }
  others : ∀ c, c ≠ core → q.core c = p.core c
  records : ∀ j, (q.core core).ctx.colls[j]? = if j = i then ((p.core core).ctx.colls[j]?).map fun _ => some k else (p.core core).ctx.colls[j]?
  ready : (∃ r, (i, r) ∈ (q.core core).ctx.readyOrder) ↔ (∃ r, (i, r) ∈ (p.core core).ctx.readyOrder) ∨ (k.pos = none ∧ AllArrived k)
  rest : (q.core core).ctx.sp = (p.core core).ctx.sp ∧ (q.core core).ctx.fe = (p.core core).ctx.fe ∧ (q.core core).ctx.tags = (p.core core).ctx.tags

/-- The record that an arrival creates (R278): its members are the waves of the cast that may issue COPY. -/
def CreatedRecord (p : Package) (core : Nat) (w : Wave) (n : BitVec 32) (a : CopyArgs) (k : Coll) : Prop :=
  k = { k with cast := w.cast, num := n, head := a.head, ctl := a.ctl,
               arrived := [{ waveId := w.waveId, desc := a.slice, tiles := w.tiles }], pos := none, finishing := false }
  ∧ ∀ m, m ∈ k.members ↔ ∃ (s : Nat) (y : Wave), p.wave? core s = some y ∧ y.cast = w.cast ∧ y.waveId = m ∧ (y.role = .general ∨ y.role = .copy)

/-- What stands in the record of collective n of a cast: record i is it, or none is and i is the lowest free one, or none is and none is free. -/
def HasRecord (p : Package) (core cast : Nat) (n : BitVec 32) (i : Nat) (k : Coll) : Prop :=
  (p.core core).ctx.colls[i]? = some (some k) ∧ k.cast = cast ∧ k.num = n
    ∧ ∀ (j : Nat) (y : Coll), j < i → (p.core core).ctx.colls[j]? = some (some y) → ¬ (y.cast = cast ∧ y.num = n)

/-- No record is that of collective n of a cast. -/
def NoRecord (p : Package) (core cast : Nat) (n : BitVec 32) : Prop :=
  ∀ (j : Nat) (y : Coll), (p.core core).ctx.colls[j]? = some (some y) → ¬ (y.cast = cast ∧ y.num = n)

/-- Record i is the lowest free one. -/
def FreeRecord (p : Package) (core i : Nat) : Prop :=
  (p.core core).ctx.colls[i]? = some none ∧ ∀ j : Nat, j < i → (p.core core).ctx.colls[j]? ≠ some none

/-- No record is free. -/
def NoFreeRecord (p : Package) (core : Nat) : Prop := ∀ j : Nat, (p.core core).ctx.colls[j]? ≠ some none

/-- An answer of the cue unit that has reached a party: the first of its party's whose cycle has come (R306, R382). -/
def AnswerAt (s : State) (core slot leader k : Nat) (key : WaveKey) (status : Quad) : Prop :=
  let mine := fun a : WaveKey × Nat × Nat × Quad => a.1.core = core ∧ a.1.slot = slot ∧ a.2.1 = leader ∧ a.2.2.1 ≤ s.clk.mcyc
  (∃ at_, s.pkg.answers[k]? = some (key, leader, at_, status)) ∧ (∀ a, s.pkg.answers[k]? = some a → mine a)
    ∧ ∀ (j : Nat) (a : WaveKey × Nat × Nat × Quad), j < k → s.pkg.answers[j]? = some a → ¬ mine a

/-- No answer has reached a party. -/
def NoAnswer (s : State) (core slot leader : Nat) : Prop :=
  ∀ a, a ∈ s.pkg.answers → ¬ (a.1.core = core ∧ a.1.slot = slot ∧ a.2.1 = leader ∧ a.2.2.1 ≤ s.clk.mcyc)

/-- A word sends an update to the cue unit: it arrives after the one-way transit (R380). -/
def SendsUpdate (s : State) (v : View) (i : Instr) (u : DcUpdate) : Prop :=
  Performs s v i false { s.pkg with dcIn := s.pkg.dcIn ++ [(s.clk.mcyc + s.pkg.transit v.iss.core, u)],
                                    due := s.pkg.due ++ [{ at_ := .mesh (s.clk.mcyc + s.pkg.transit v.iss.core), ev := .dcUpdate }] } v.now

/-- The state with one node of one partition changed. -/
def WithNode (s : State) (k node : Nat) (n : Node) : State :=
  { s with pkg := s.pkg.modPart k fun q => { q with nodes := tabSet q.nodes node n } }

/-- Bytes of an entry written at an offset, little-endian (Table 18.2). -/
def EntryWith (n : Node) (off len v : Nat) : Node := { n with entry := n.entry.take off ++ leBytes len v ++ n.entry.drop (off + len) }

/-- What a pending fence waits for (R255, R256, Table 13.3): every earlier load has returned and, for a release, its scope's stores are acknowledged and every
other stage has answered. -/
def FenceOver (w : Wave) (f : Fence) (mcyc : Nat) : Prop :=
  w.pending = [] ∧ (f.attached = true ∨ w.uncommitted true = false)
    ∧ (f.kind = .acq ∨ (w.uncommitted false = false ∧ (f.scope = 0 ∨ (f.scope < 3 ∧ w.outst = 0)
      ∨ (3 ≤ f.scope ∧ w.outl = 0 ∧ f.stages = 0 ∧ f.ready ≤ mcyc ∧ (3 < f.scope → w.hostOut = 0)))))

/-- A party waits in an unmatched exchange. -/
def XchgWaits (w : Wave) (leader : Nat) (b : Blocked) (x : XchgArgs) : Prop := w.blockedAt leader = some b ∧ b.op = .xchg x none

/-- The first reply to a core that its company can read and has not read, and that is of a kind: data, or no data. -/
def FirstReply (s : State) (core i : Nat) (r : Reply) (data : Bool) : Prop :=
  let here := fun q : Reply => q.due = none ∧ q.arrives ≤ s.clk.mcyc ∧ q.body.isData = data
  (s.pkg.core core).replies[i]? = some r ∧ here r ∧ ∀ (j : Nat) (q : Reply), j < i → (s.pkg.core core).replies[j]? = some q → ¬ here q

/-- The first reply of a core whose data are in the registers in the present company cycle (R27). -/
def FirstLanding (s : State) (core i : Nat) (r : Reply) : Prop :=
  let here := fun q : Reply => ∃ d, q.due = some d ∧ d ≤ s.clk.cycleOf (companyOf core)
  (s.pkg.core core).replies[i]? = some r ∧ here r ∧ ∀ (j : Nat) (q : Reply), j < i → (s.pkg.core core).replies[j]? = some q → ¬ here q

/-- No data read before reach the registers of a core in the present company cycle. -/
def NoLanding (s : State) (core : Nat) : Prop :=
  ∀ q d, q ∈ (s.pkg.core core).replies → q.due = some d → s.clk.cycleOf (companyOf core) < d

/-- A company reads a reply from its crossing FIFO (R389): at an edge of its clock, with no other entry read in that cycle, and no reply to its cores before this one. -/
def ReadsNow (s : State) (core : Nat) (r : Reply) : Prop :=
  let m := companyOf core
  s.clk.atEdge (s.pkg.company m).level = true ∧ (s.pkg.company m).readAt ≠ s.clk.cycleOf m + 1
    ∧ ∀ c x, c ∈ (s.pkg.cores.drop (8 * m)).take 8 → x ∈ c.replies → x.due = none → r.arrives ≤ x.arrives

/-- The package whose company has read its FIFO in the present cycle. -/
def FifoRead (s : State) (core : Nat) : Package :=
  s.pkg.modCompany (companyOf core) fun m => { m with readAt := s.clk.cycleOf (companyOf core) + 1 }

/-- The state with one reply of a core read and its wave changed. -/
def ReplyTaken (s : State) (core i : Nat) (r : Reply) (u : Wave) : State :=
  { s with pkg := ((FifoRead s core).modCore core fun k => { k with replies := k.replies.eraseIdx i }).modWave r.key.core r.key.slot fun _ => u }

/-- A wave one of whose counted requests is acknowledged (R231, R257): OUTST falls, and OUTL for a line of the wave's stage; a request beyond the count takes the place;
with none left, a HOSTMSG goes on to its second step (R166). -/
def Acked (w u : Wave) (own : Bool) : Prop :=
  let l := if own = true then w.outl - 1 else w.outl
  (∀ o rest, w.outst ≠ 0 → w.outstMore = o :: rest → u = { w with outl := if o = true then l + 1 else l, outstMore := rest })
  ∧ (w.outstMore = [] → w.outst ≠ 1 → u = { w with outst := w.outst - 1, outl := l })
  ∧ (w.outstMore = [] → w.outst = 1 → u = { w with outst := 0, outl := l, slices := u.slices } ∧ u.slices.length = w.slices.length
      ∧ ∀ (k : Nat) (x : Slice), w.slices[k]? = some x →
        u.slices[k]? = some { x with blocked := x.blocked.map fun b : Blocked => { b with op := match b.op with
          | .hostmsg a b tag _ => .hostmsg a b tag true
          | o => o } })

/-- The lanes of a wave after its elements have been returned: the last element listed for a place stands. -/
def Returned (w u : Wave) (regs : List (Nat × Nat × Word)) : Prop :=
  u.vregs.length = w.vregs.length ∧ ∀ r j, r < w.vregs.length → j < 128 →
    u.v r j = ((regs.reverse.find? fun e => e.1 = r ∧ e.2.1 = j).map fun e => e.2.2).getD (w.v r j)

/-- One entry of a page table at a level, 3 the root (Table 19.1, R342, R343): what the walk ends in, or the table it goes on to. -/
def EntrySays (p : Package) (part : Nat) (va : Quad) (write fetch : Bool) (lev e : Nat) (r : PteStep) : Prop :=
  let addr := bits e 8 40 * 256
  let size := if lev = 0 then 16 else if lev = 1 then 21 else 30
  let table := if lev = 1 then 256 else if lev = 2 then 4096 else 4096
  let reserved : Prop := bits e 48 16 ≠ 0 ∨ bits e 5 3 ≠ 0
  let t : TlbEntry := { part := part, ats := false, size := size, va := va.toNat % 2 ^ 47 / 2 ^ size, frame := addr, w := decide (bits e 2 1 = 1), x := decide (bits e 3 1 = 1) }
  (bits e 0 1 = 0 → r = .stop (if bits e 4 1 = 1 ∧ lev ≠ 0 then .access else .page))
  ∧ (bits e 0 1 = 1 → reserved → r = .stop .access)
  ∧ (bits e 0 1 = 1 → ¬ reserved → bits e 1 1 = 1 → lev = 3 ∨ addr % 2 ^ size ≠ 0 → r = .stop .access)
  ∧ (bits e 0 1 = 1 → ¬ reserved → bits e 1 1 = 1 → lev < 3 → addr % 2 ^ size = 0 →
      r = .stop (if (write = true ∧ bits e 2 1 = 0) ∨ (fetch = true ∧ bits e 3 1 = 0) ∨ p.placeOf (addr + va.toNat % 2 ^ size) = none then .access else .entry t))
  ∧ (bits e 0 1 = 1 → ¬ reserved → bits e 1 1 = 0 → lev = 0 ∨ addr % table ≠ 0 → r = .stop .access)
  ∧ (bits e 0 1 = 1 → ¬ reserved → bits e 1 1 = 0 → lev ≠ 0 → addr % table = 0 → r = .next addr)

/-- A TLB entry that a shootdown removes (R202): of its partition and of its kind of space, with a page of its range. -/
def Shot (x : Shootdown) (e : TlbEntry) : Prop :=
  (e.ats = true ↔ 2 ^ 47 ≤ x.va) ∧ e.part = x.part ∧ e.va * 2 ^ e.size < x.va % 2 ^ 47 + x.len ∧ x.va % 2 ^ 47 < (e.va + 1) * 2 ^ e.size

/-- A walk under way, or one that waits, of a page of a shootdown's range (R347). -/
def ShotWalk (x : Shootdown) (w : Walk) : Prop :=
  x.va < 2 ^ 47 ∧ w.part = x.part ∧ w.ended = false ∧ w.va.toNat / 65536 * 65536 < x.va + x.len ∧ x.va < (w.va.toNat / 65536 + 1) * 65536

/-- The ATS requests in flight for pages of a host range in partitions that a test admits are marked; nothing else of the endpoint's requests changes (R347). -/
def AtsMarked (old new : List (Nat × PcieWait)) (P : Nat → Prop) (base len : Nat) : Prop :=
  new.length = old.length ∧ ∀ (n tag : Nat) (x : PcieWait), old[n]? = some (tag, x) → ∃ y, new[n]? = some (tag, y) ∧
    ((∀ core part va write m ws, x ≠ .ats core part va write m ws) → y = x)
    ∧ ∀ core part va write m ws, x = .ats core part va write m ws → ∃ b, y = .ats core part va write b ws
      ∧ (b = true ↔ m = true ∨ (P part ∧ va.toNat % 2 ^ 47 / 4096 * 4096 < base + len ∧ base < va.toNat % 2 ^ 47 / 4096 * 4096 + 4096))

/-- The start of an invalidation's range (R203): a whole aligned range of host addresses. -/
def InvBase (i : AtsInv) : Nat := i.va % 2 ^ 47 / 2 ^ i.log2 * 2 ^ i.log2

/-- The walks of a company whose next entry its slice reads in the present mesh cycle (R343). -/
def ReadsEntry (s : State) (w : Walk) : Prop := w.started = true ∧ w.ended = false ∧ w.end_ = none ∧ w.readAt ≤ s.clk.mcyc

/-- The place of the entry that a walk reads in a table of a level (R342). -/
def EntryPlace (p : Package) (table : Nat) (va : Quad) (lev : Nat) : Option Nat :=
  p.placeOf (table + 8 * (if lev = 0 then bits va.toNat 16 5 else if lev = 1 then bits va.toNat 21 9 else if lev = 2 then bits va.toNat 30 9 else bits va.toNat 39 8))

/-- The mesh cycles between a company's walker and the home slice of an entry (R197, R229). -/
def EntryWay (p : Package) (m table : Nat) (va : Quad) (lev : Nat) : Nat :=
  match EntryPlace p table va lev with
  | some x => p.oneWay (8 * m) (p.homeOf (x / 128)) (x / 128)
  | none => 0

/-- The fault record that the prompter takes (R199, R200): the first to have arrived, the lowest core of those of one cycle, the first of that core. -/
def FirstRecord (s : State) (i : Nat) (r : FaultRecord) : Prop :=
  s.pkg.faults[i]? = some r ∧ r.arrives ≤ s.clk.mcyc ∧ ∀ (j : Nat) (q : FaultRecord), s.pkg.faults[j]? = some q →
    q.core < 256 ∧ (j ≠ i → r.arrives < q.arrives ∨ (r.arrives = q.arrives ∧ (r.core < q.core ∨ (r.core = q.core ∧ i < j))))

/-- How far a vault is from a core (R200): its own, its company's, its stage's, another stage's. -/
def FarVault (core v : Nat) : Nat := if v = core then 0 else if v / 8 = core / 8 then 1 else if v / 64 = core / 64 then 2 else 3

/-- A set holds the entries it held but those that are removed. -/
def SetKeeps (a b : TlbSet) (gone : TlbEntry → Prop) : Prop :=
  b.ways.length = a.ways.length ∧ b.tree = a.tree ∧ ∀ (k : Nat) (e : TlbEntry), b.ways[k]? = some (some e) ↔ a.ways[k]? = some (some e) ∧ ¬ gone e

/-- A bind record has arrived at a core whose company runs, and dispatch applies it now (R329, R341): `q` is the package without it. -/
def Applies (s : State) (core : Nat) (b : Bind) (q : Package) : Prop :=
  (s.pkg.core core).binds.find? (fun x => decide (x.arrives < s.clk.mcyc)) = some b ∧ (∃ n, (s.pkg.company (companyOf core)).gating = .running n)
    ∧ q = (s.pkg.modCompany (companyOf core) fun c => { c with gating := .running 0 }).modCore core fun c => { c with binds := c.binds.erase b }

/-- No record of an operation is the next to be applied at a core. -/
def NoRecordOf (s : State) (core : Nat) (op : BindOp) : Prop :=
  ∀ b, (s.pkg.core core).binds.find? (fun x => decide (x.arrives < s.clk.mcyc)) = some b → b.op ≠ op

/-- A LAUNCH record finds its resource taken: a wave slot (1), a register unit (2), a scratchpad row (3: of a cast, or of an exited
cast whose release is not complete, R258), the first that holds (R330, Table 18.6). -/
def TakenFirst (s : State) (core : Nat) (b : Bind) (reason : Nat) : Prop :=
  let x := (s.pkg.core core).ctx
  let slot : Prop := ∃ i w, i ∈ b.slots ∧ x.waves[i]? = some (some w)
  let unit : Prop := x.units.length < b.regbase + b.units ∨ ∃ k o, b.regbase ≤ k ∧ k < b.regbase + b.units ∧ x.units[k]? = some (some o)
  let row : Prop := ∃ r, b.sprow ≤ r ∧ r < b.sprow + b.rows ∧ ((∃ c, some c ∈ x.casts ∧ c.sprow ≤ r ∧ r < c.sprow + c.rows)
    ∨ ∃ l, l ∈ x.leaving ∧ s.pkg.exitBusy core l.1 = true ∧ l.2.1 ≤ r ∧ r < l.2.1 + l.2.2)
  (reason = 1 ∧ slot) ∨ (reason = 2 ∧ ¬ slot ∧ unit) ∨ (reason = 3 ∧ ¬ slot ∧ ¬ unit ∧ row) ∨ (reason = 0 ∧ ¬ slot ∧ ¬ unit ∧ ¬ row)

/-- The host kills a resident cast: a KILL record goes to its core, applied from the mesh cycle after it arrives (R330). -/
def KillSent (s : State) (e : CastEntry) (core : Nat) (q : Package) : Prop :=
  let at_ := s.clk.mcyc + s.pkg.transit core
  ∃ b : Bind, b.op = .kill ∧ b.arrives = at_ ∧ b.entry = e.id ∧ b.castid = e.castid.getD 0
    ∧ q = (s.pkg.modCore core fun c => { c with binds := c.binds ++ [b] }).later (.mesh (at_ + 1)) (.kill core)

/-- The records still on their way to a company, or waiting at it. -/
def ComingTo (s : State) (m : Nat) (c : Core) : Prop := c ∈ (s.pkg.cores.drop (8 * m)).take 8

/-- The class of a stamped vault for the next epoch (R269, Table 14.1): up to the highest class whose lower bound its temperature reaches, or down by one when it
is 3 °C below its own class's. -/
def ClassStep (cls temp cls2 : Nat) : Prop :=
  let bound := fun c => [0, 260, 320, 360, 400].getD c 400
  ∃ c, c ≤ 4 ∧ bound c ≤ temp ∧ (∀ d, c < d → d ≤ 4 → temp < bound d)
    ∧ cls2 = if cls < c then c else if temp + 12 ≤ bound cls then cls - 1 else cls

/-- A voltage that moves 10 mV toward its target (R358). -/
def MovedVolt (v target : Nat) : Nat := if v < target then min (v + 10) target else max (v - 10) target

/-- LEVEL_STEP at a tick of a sequence that has started (R357, R358): the raise sets VTARGET at its first tick and the levels follow once the voltage has moved; the
lowering takes one level a tick and sets VTARGET at its last. A target below the floor of 550 mV is replaced and counted. -/
def LevelStep (s : State) (m : Nat) (q : LevelSeq) : Prop :=
  let c := s.pkg.company m
  let t := s.clk.rtick
  let lv := if q.source < q.target then min q.target (q.source + (t + 1 - (q.start + (q.target - q.source)))) else max q.target (q.source - (t + 1 - q.start))
  let floor := max (10 * q.target) 50
  let d : Company := { c with level := lv, vtarget := c.vtarget, seq := if lv = q.target then none else some q }
  let p := s.pkg.modCompany m fun _ =>
    if q.source < q.target ∧ t = q.start then { d with vtarget := floor, vnow := MovedVolt c.vnow floor }
    else if q.target < q.source ∧ t + 1 = q.start + (q.source - q.target) then { d with vtarget := floor, vnow := MovedVolt c.vnow c.vtarget }
    else { d with vnow := MovedVolt c.vnow c.vtarget }
  exec (.levelStep m) s = .next { s with pkg := if (q.source < q.target ∧ t = q.start ∨ q.target < q.source ∧ t + 1 = q.start + (q.source - q.target)) ∧ 10 * q.target < 50 then p.count (Config.errDENY + m) Config.max16 else p }

/-- The partition is back at its point (R386): its casts, nodes and counters are the copies of R384, but for NODERC (Table 20.4), and so are the pointers of its
host-message queue; RPMCYC and RPSEQ stay (Table 21.7); a core whose planes hold a snapshot has it back, and re-execution starts at the first epoch start. -/
def RolledBack (s t : State) (k : Nat) : Prop :=
  let r := s.pkg.recov k
  let start := (s.clk.rtick + 249) / 250 * 250
  t.clk = s.clk ∧ t.pkg.casts = s.pkg.casts.filter (fun e => e.part ≠ k) ++ r.casts ∧ (t.pkg.part k).dc = r.dc
    ∧ (((s.pkg.part k).nodes.map Prod.fst).Nodup → ∀ n, t.pkg.node k n = { (tabGet r.nodes n).getD {} with noderc := (s.pkg.node k n).noderc })
    ∧ (t.pkg.part k).hmqHead = r.hmqHead ∧ (t.pkg.part k).hmqTail = r.hmqTail ∧ (t.pkg.part k).hmqBuf = r.hmqBuf
    ∧ (t.pkg.recov k).rpmcyc = r.rpmcyc ∧ (t.pkg.recov k).rpseq = r.rpseq ∧ (t.pkg.recov k).base = 64 * start ∧ (t.pkg.recov k).journal = [] ∧ (t.pkg.recov k).resumeAt = some start ∧ (t.pkg.recov k).rolling = none
    ∧ ∀ core x, core ∈ s.pkg.partCores k → core < s.pkg.cores.length → (s.pkg.core core).plane = .snapshot x →
        (t.pkg.core core).ctx = x ∧ (t.pkg.core core).l1 = [] ∧ (t.pkg.core core).arrayQ = [] ∧ (t.pkg.core core).replies = []

/-- A host window's view of a hard failure (R386, R387): STATUS.HARDFAIL is set, and the partition's bit of HFPART. -/
def FailReported (t : State) (k : Nat) : Prop := t.pkg.win.hardfail = true ∧ t.pkg.win.hfpart.getLsbD k = true

/-- The lowest valid partition other than k whose mask a PARTCFG value names (R340): a write of it asks for a swap. -/
def SwapWith (s : State) (k : Nat) (x : Quad) (j : Nat) : Prop :=
  let named := fun i => i < 8 ∧ (s.pkg.part i).valid = true ∧ i ≠ k ∧ (s.pkg.part i).companies = x.setWidth 32
  x.getLsbD 32 = true ∧ x.setWidth 32 ≠ (0 : BitVec 32) ∧ named j ∧ ∀ i, i < j → ¬ named i

/-- A mask meets another valid partition's. -/
def Overlaps (s : State) (k : Nat) (m : BitVec 32) : Prop :=
  ∃ j, j < 8 ∧ (s.pkg.part j).valid = true ∧ j ≠ k ∧ m &&& (s.pkg.part j).companies ≠ 0

/-- The partition holds casts on cores, in planes or on their way. -/
def HoldsCasts (s : State) (k : Nat) : Prop :=
  ∃ e, e ∈ s.pkg.casts ∧ e.part = k ∧ ((∃ c i, e.state = .resident c i) ∨ (∃ c i, e.state = .swappedOut c i) ∨ ∃ c x, e.state = .placed c x)

/-- A retirement command that may not be carried out (R351): no such stage, no such slice, or a slice already retired. -/
def NoSuchSlice (s : State) (stage company : Nat) : Prop :=
  4 ≤ stage ∨ 8 ≤ company ∨ s.pkg.present stage = false ∨ (s.pkg.company (8 * stage + company)).retired = true

/-- Another slice of the stage than this one serves. -/
def OtherSlice (s : State) (stage company : Nat) : Prop :=
  ∃ m, m < 8 ∧ m ≠ company ∧ (s.pkg.company (8 * stage + m)).retired = false

/-- A register that R367 names: it acts live, and a write of it is never stamped (GATEMODE, the gate masks, STOPAT, the service region, TABCTL, TABBASE, TABSIZE and
the ring registers of the gates). -/
def LiveRegister (off : Nat) : Prop :=
  off ∈ [0x200, 0x208, 0x210, 0x220, 0x228, 0x300, 0x308, 0x310] ∨ (0x400 ≤ off ∧ off < 0x5E0)

/-- An arrival that its gate stamps (R318, R321, R367): no access of BAR 4, no write of a live register; and of one piece. -/
def StampedArrival (a : Arrival) : Prop :=
  (∀ off data, a ≠ .barWrite 0 4 off data) ∧ (∀ off len, a ≠ .barRead 0 4 off len) ∧ a.liveWrite? = none
    ∧ (∀ pasid va l, a ≠ .atsInvalidate pasid va l) ∧ a.payload.length ≤ 64

/-- A gate is there (R2, R3): a house port with its stage, three to each; every other gate with stage 0. -/
def GateThere (s : State) (g : Nat) : Prop := s.pkg.stages.getLsbD (if 1 ≤ g ∧ g ≤ 12 then (g - 1) / 3 else 0) = true

/-- An outbound transaction that asks the host for data, of which 512 may be outstanding (R317): the outstanding reads with it. -/
def ReadsAfter (s : State) (t : Egress) : List Nat :=
  match t with
  | .memRead _ _ _ _ tag => s.pkg.reads ++ [tag]
  | _ => s.pkg.reads

/-- A gate as it stands, with an arrival accepted at a cycle (R318): the stamp, and the effect 16 mesh cycles later. -/
def AcceptedAt (s : State) (g : Nat) (a : Arrival) (x : Gate) : Gate :=
  let c := if (s.pkg.gate g).stampAt < s.clk.mcyc then s.clk.mcyc else if (s.pkg.gate g).stampPiece < 4 then (s.pkg.gate g).stampAt else (s.pkg.gate g).stampAt + 1
  let n := if (s.pkg.gate g).stampAt < s.clk.mcyc then 0 else if (s.pkg.gate g).stampPiece < 4 then (s.pkg.gate g).stampPiece else 0
  { x with stampAt := c, stampPiece := n + 1, effects := x.effects ++ [(c + 16, a)] }

/-- An arrival that no partition's recovery concerns (R385, R386). -/
def NoRecoveryOf (s : State) (a : Arrival) : Prop := ∀ k, s.pkg.arrivalPart a = some k → (s.pkg.part k).recov = false ∧ (s.pkg.recov k).errorOffset = none

/-- A gate has counted an outbound transaction: a write takes the next number (R325), and with its digest on its serialisation enters EGDIG (R324). -/
def Counted (s : State) (g : Nat) (t : Egress) (x : Gate) : Gate :=
  let x : Gate := if t.isWrite = true then { x with egseq := x.egseq + 1 } else x
  if g < 13 ∧ s.pkg.win.digest.getLsbD g = true then { x with egdig := Sha3.hash (x.egdig ++ t.serial s.clk.mcyc), egcount := x.egcount + 1 } else x

/-- The events that a count of 1,024 transactions makes due (R324). -/
def DigestDue (s : State) (g : Nat) (x : Gate) : List Due :=
  if g < 13 ∧ s.pkg.win.digest.getLsbD g = true ∧ x.egcount % 1024 = 0 then [{ at_ := .now, ev := .egdigest g }] else []

/-- The host-message entry that a queue takes (R167, Table 8.7): 32 bytes at BASE + 32 × (HEAD mod SIZE), HEAD advances, and a HEAD that was equal to TAIL signals the host. -/
def EntryWritten (s t : State) (k : Nat) (e : HmqEntry) (due : List Due) : Prop :=
  let q := s.pkg.part k
  let device : Prop := e.kind ≠ 1
  let at_ := q.hmqBase.toNat / 32 * 32 + 32 * (q.hmqHead.toNat % q.hmqSize.toNat)
  t.clk = s.clk ∧ (t.pkg.part k).hmqHead = q.hmqHead + 1 ∧ (t.pkg.part k).hmqTail = q.hmqTail ∧ (device → (t.pkg.part k).dropped = 0)
    ∧ t.pkg.due = s.pkg.due ++ { at_ := .now, ev := .egressTransaction 0 (.memWrite (k + 1) q.ctx.pasid.toNat at_ (e.bytes (if e.kind ≠ 1 then q.dropped else 0))) }
      :: ((if q.hmqHead = q.hmqTail then [{ at_ := .now, ev := .egressTransaction 0 (.msix (k + 1) 0) }] else []) ++ due)

/-- A flit of the device's own leaves through the gate of a port. -/
def FlitSent (port typ : Nat) (tag : BitVec 16) (payload : List Byte) : Due :=
  { at_ := .now, ev := .egressTransaction (port + 1) (.flit { seq := 0, ack := 0, typ := BitVec.ofNat 8 typ, tag := tag, pa := 0, payload := payload }) }

/-- A flit that a port still wants: within 1,024 of the next in order, and not in its reorder buffer (R315). -/
def Wanted (x : HousePort) (f : Flit) : Prop := (f.seq - x.expect).toNat < 1024 ∧ ∀ y, y ∈ x.reorder → y.seq ≠ f.seq

/-- The offset and the delay of an exchange (R376), rounded toward zero: half of (t2 − t1) ∓ (t4 − t3). -/
def Halved (x : Int) : BitVec 48 := BitVec.ofInt 48 (Int.tdiv x 2)

/-- An operation of TABCTL is over, with its error code (R371 to R373): TABSTAT.ERR, and the end of the operation. -/
def OpOver (p : Package) (err : Nat) : Package :=
  { p with win := { p.win with taberr := err }, due := p.due ++ [{ at_ := .now, ev := .tableauOperationEnd }] }

/-- The counter that a STOPAT value names (Table 21.2): RTICK, MCYC, VCYC, or CYCLE of company INDEX. -/
def StopCounter (s : State) (x : Quad) : Nat :=
  let d := (x >>> 56).toNat % 4
  if d = 0 then s.clk.rtick else if d = 1 then s.clk.mcyc else if d = 2 then s.clk.vcyc else s.clk.companies.getD ((x >>> 51).toNat % 32) 0

/-- COUNT of a STOPAT value. -/
def StopCount (x : Quad) : Nat := x.toNat % 2 ^ 51

/-- Gates that hold nothing back, with no ring of a house port waiting. -/
def NothingHeld (s : State) : Prop := (∀ g, (s.pkg.gate g).ingress = []) ∧ ∀ i, (s.pkg.port i).reorder = []

/-- The registers of R367 that a held reset or a restore leaves to the host. -/
def HostKeeps (old new : Window0) : Prop :=
  new.gatemodeReq = old.gatemodeReq ∧ new.logen = old.logen ∧ new.lossy = old.lossy ∧ new.digest = old.digest ∧ new.stopat = old.stopat
    ∧ new.svcbase = old.svcbase ∧ new.svcsize = old.svcsize ∧ new.tabbase = old.tabbase ∧ new.tabsize = old.tabsize

/-- A clock whose counters agree with its place in the reference tick (R22, R366): num / den of a tick has passed since the last boundary. -/
def ClockOk (k : Clock) : Prop :=
  k.num < k.den ∧ k.mcyc = 64 * k.rtick + 64 * k.num / k.den ∧ k.vcyc = 48 * k.rtick + 48 * k.num / k.den

/-- The clock agrees, and so does the clock of every tableau image, which a restore brings back (R372). -/
def ClocksAgree (s : State) : Prop := ClockOk s.clk ∧ ∀ i, i ∈ s.images → ClockOk i.clk

/-- A state in which a word is the one being issued, alone in its chain: the first word of the party's chain, the next word four bytes on. -/
def IssuedAt (s t : State) (core slot leader : Nat) (pc : Quad) (x : Word) : Prop :=
  ∃ q : Issue, t = { s with cur := some q } ∧ q.core = core ∧ q.slot = slot ∧ q.leader = leader ∧ q.word = pc ∧ q.epc = pc ∧ q.next = pc + 4 ∧ q.raw = x
    ∧ q.final = true ∧ q.checked = false ∧ q.src = none ∧ q.trap = none ∧ q.hold = none ∧ q.moved = false

/-- What a step does with the outcome of an issue: a word that waits for no walk forgets the walks of its wave that are over (R197). -/
def AfterIssue (core slot leader : Nat) : Host.Outcome State Fault Refusal → Host.Outcome State Fault Refusal
  | .next t => .next (settleWalks core slot leader t)
  | o => o

end Machine

end Sys2Proof
end

