-- ==== Sys2Proof/Certificates/Slice0/Obligations.lean ====
section
/-! DEFINITION. The statements about the machine, one for each family of the opcode table and each kind of state. -/

open Sys2Proof Sys2Proof.Machine

/-- VDIV, VDIVU, VREM, VREMU over 32 bits in each active lane, and SDIV, SDIVU, SREM, SREMU over 64 bits (R94): division truncates toward zero, the
remainder takes the sign of the dividend, and the cases of Table 5.2 give all ones and the dividend for a divisor of 0, and the dividend and 0 for the
most negative number by −1. Each word completes, and nothing but its destination, the latches of its party and the counters changes. -/
def Obligations.IntegerDivision : Prop :=
  EachLane2 .vdiv (fun a b => if b = 0 then -1 else if a.toInt = -2 ^ 31 ∧ b.toInt = -1 then a else BitVec.ofInt 32 (a.toInt.tdiv b.toInt))
  ∧ EachLane2 .vdivu (fun a b => if b = 0 then -1 else BitVec.ofNat 32 (a.toNat / b.toNat))
  ∧ EachLane2 .vrem (fun a b => if b = 0 then a else if a.toInt = -2 ^ 31 ∧ b.toInt = -1 then 0 else BitVec.ofInt 32 (a.toInt.tmod b.toInt))
  ∧ EachLane2 .vremu (fun a b => if b = 0 then a else BitVec.ofNat 32 (a.toNat % b.toNat))
  ∧ Scalar2 .sdiv (fun a b => if b = 0 then -1 else if a.toInt = -2 ^ 63 ∧ b.toInt = -1 then a else BitVec.ofInt 64 (a.toInt.tdiv b.toInt))
  ∧ Scalar2 .sdivu (fun a b => if b = 0 then -1 else BitVec.ofNat 64 (a.toNat / b.toNat))
  ∧ Scalar2 .srem (fun a b => if b = 0 then a else if a.toInt = -2 ^ 63 ∧ b.toInt = -1 then 0 else BitVec.ofInt 64 (a.toInt.tmod b.toInt))
  ∧ Scalar2 .sremu (fun a b => if b = 0 then a else BitVec.ofNat 64 (a.toNat % b.toNat))

/-- VIA (R114, Table 6.1): each active lane of d takes the entry of the table; the divisions as R94 and Table 5.2 give them. Frame: nothing but register
d, the latches of the party and the counters (`VectorResult`). Integer compares (R121, Table 6.5): the active lanes of pd combine the condition as
SET, AND, OR or ANDN; the others keep their bit. -/
def Obligations.VectorIntegersAndCompares : Prop :=
  EachLane2 .vadd (fun a b => a + b)
  ∧ EachLane2 .vsub (fun a b => a - b)
  ∧ EachLane2 .vmul (fun a b => BitVec.ofNat 32 (a.toNat * b.toNat))
  ∧ EachLane2 .vmulh (fun a b => BitVec.ofInt 32 (a.toInt * b.toInt / 2 ^ 32))
  ∧ EachLane2 .vmulhu (fun a b => BitVec.ofNat 32 (a.toNat * b.toNat / 2 ^ 32))
  ∧ (∀ (s : State) (v : View) (w : VR), Issues s v (.vmad w) →
      VectorResult s v (.vmad w) w.k w.d fun j => v.vec w.a.toNat j * v.vec w.b.toNat j + v.src.v w.d.toNat j)
  ∧ EachLane2 .vmin (fun a b => if a.toInt ≤ b.toInt then a else b)
  ∧ EachLane2 .vmax (fun a b => if a.toInt ≤ b.toInt then b else a)
  ∧ EachLane2 .vminu (fun a b => if a.toNat ≤ b.toNat then a else b)
  ∧ EachLane2 .vmaxu (fun a b => if a.toNat ≤ b.toNat then b else a)
  ∧ EachLane2 .vadds (fun a b => BitVec.ofInt 32 (max (-2 ^ 31) (min (2 ^ 31 - 1) (a.toInt + b.toInt))))
  ∧ EachLane2 .vsubs (fun a b => BitVec.ofInt 32 (max (-2 ^ 31) (min (2 ^ 31 - 1) (a.toInt - b.toInt))))
  ∧ Compares .vcmpI32Eq (fun a b => decide (a = b))
  ∧ Compares .vcmpI32Ne (fun a b => decide (a ≠ b))
  ∧ Compares .vcmpI32Lt (fun a b => decide (a.toInt < b.toInt))
  ∧ Compares .vcmpI32Le (fun a b => decide (a.toInt ≤ b.toInt))
  ∧ Compares .vcmpI32Ltu (fun a b => decide (a.toNat < b.toNat))
  ∧ Compares .vcmpI32Leu (fun a b => decide (a.toNat ≤ b.toNat))
  ∧ Tests .vcmpI32Eqz (fun a => decide (a = 0))
  ∧ Tests .vcmpI32Nez (fun a => decide (a ≠ 0))
  ∧ ComparesPair .vcmpI64Eq (fun a b => decide (a = b))
  ∧ ComparesPair .vcmpI64Ne (fun a b => decide (a ≠ b))
  ∧ ComparesPair .vcmpI64Lt (fun a b => decide (a.toInt < b.toInt))
  ∧ ComparesPair .vcmpI64Le (fun a b => decide (a.toInt ≤ b.toInt))
  ∧ ComparesPair .vcmpI64Ltu (fun a b => decide (a.toNat < b.toNat))
  ∧ ComparesPair .vcmpI64Leu (fun a b => decide (a.toNat ≤ b.toNat))
  ∧ TestsPair .vcmpI64Eqz (fun a => decide (a = 0))
  ∧ TestsPair .vcmpI64Nez (fun a => decide (a ≠ 0))

/-- VIB (R115, Table 6.2): logic, shifts by bits 4:0 or 5:0 of b, bit counts, and the 64-bit results in pairs. VIM (R116, Table 6.3): the same with an
immediate, sign-extended but for shift counts; VSPLATI and VIOTA have no source. -/
def Obligations.VectorLogicAndImmediates : Prop :=
  EachLane2 .vand (fun a b => a &&& b)
  ∧ EachLane2 .vor (fun a b => a ||| b)
  ∧ EachLane2 .vxor (fun a b => a ^^^ b)
  ∧ EachLane2 .vandn (fun a b => a &&& ~~~b)
  ∧ EachLane2 .vshl (fun a b => a <<< (b.toNat % 32))
  ∧ EachLane2 .vshr (fun a b => a >>> (b.toNat % 32))
  ∧ EachLane2 .vsra (fun a b => a.sshiftRight (b.toNat % 32))
  ∧ EachLane2 .vrol (fun a b => (a <<< (b.toNat % 32)) ||| (a >>> (32 - b.toNat % 32)))
  ∧ EachLane1 .vpopc (fun a => BitVec.ofNat 32 ((List.range 32).countP fun i => a.getLsbD i))
  ∧ EachLane1 .vclz (fun a => BitVec.ofNat 32 (if a = 0 then 32 else 31 - Nat.log2 a.toNat))
  ∧ (∀ (s : State) (v : View) (w : VR1), Issues s v (.vbrev w) →
      ∃ f : Nat → Word, VectorResult s v (.vbrev w) w.k w.d f ∧ ∀ j k, k < 32 → (f j).getLsbD k = (v.vec w.a.toNat j).getLsbD (31 - k))
  ∧ EachPair2 .vadd64 (fun a b => a + b)
  ∧ EachPair2 .vsub64 (fun a b => a - b)
  ∧ (∀ (s : State) (v : View) (w : VR), Issues s v (.vmulw w) →
      PairResult s v (.vmulw w) w.k w.d fun j => (v.vec w.a.toNat j).signExtend 64 * (v.vec w.b.toNat j).signExtend 64)
  ∧ EachPairBy .vshl64 (fun a b => a <<< (b.toNat % 64))
  ∧ EachPairBy .vshr64 (fun a b => a >>> (b.toNat % 64))
  ∧ EachLaneImm .vaddi (fun a i => a + i.signExtend 32)
  ∧ EachLaneImm .vmuli (fun a i => a * i.signExtend 32)
  ∧ EachLaneImm .vandi (fun a i => a &&& i.signExtend 32)
  ∧ EachLaneImm .vori (fun a i => a ||| i.signExtend 32)
  ∧ EachLaneImm .vxori (fun a i => a ^^^ i.signExtend 32)
  ∧ EachLaneImm .vshli (fun a i => a <<< i.toNat)
  ∧ EachLaneImm .vshri (fun a i => a >>> i.toNat)
  ∧ EachLaneImm .vsrai (fun a i => a.sshiftRight i.toNat)
  ∧ EachLaneImm .vmini (fun a i => if a.toInt ≤ i.toInt then a else i.signExtend 32)
  ∧ EachLaneImm .vmaxi (fun a i => if a.toInt ≤ i.toInt then i.signExtend 32 else a)
  ∧ EachPairImm .vshl64i (fun a i => a <<< i.toNat)
  ∧ EachPairImm .vshr64i (fun a i => a >>> i.toNat)
  ∧ (∀ (s : State) (v : View) (w : VI0), Issues s v (.vsplati w) → VectorResult s v (.vsplati w) w.k w.d fun _ => w.i.signExtend 32)
  ∧ (∀ (s : State) (v : View) (w : VI0), Issues s v (.viota w) →
      VectorResult s v (.viota w) w.k w.d fun j => BitVec.ofInt 32 ((j : Int) + w.i.toInt))

/-- SA (R124, Table 6.7) over 64 bits. Frame: nothing but scalar d, the latches and the counters. SI and SLI (R125, R126): scalar results from an
immediate. -/
def Obligations.ScalarArithmeticWords : Prop :=
  Scalar2 .sadd (fun a b => a + b)
  ∧ Scalar2 .ssub (fun a b => a - b)
  ∧ Scalar2 .smul (fun a b => a * b)
  ∧ Scalar2 .smulhu (fun a b => BitVec.ofNat 64 (a.toNat * b.toNat / 2 ^ 64))
  ∧ Scalar2 .sand (fun a b => a &&& b)
  ∧ Scalar2 .sor (fun a b => a ||| b)
  ∧ Scalar2 .sxor (fun a b => a ^^^ b)
  ∧ Scalar2 .sshl (fun a b => a <<< (b.toNat % 64))
  ∧ Scalar2 .sshr (fun a b => a >>> (b.toNat % 64))
  ∧ Scalar2 .ssra (fun a b => a.sshiftRight (b.toNat % 64))
  ∧ Scalar2 .sslt (fun a b => if a.toInt < b.toInt then 1 else 0)
  ∧ Scalar2 .ssltu (fun a b => if a.toNat < b.toNat then 1 else 0)
  ∧ ScalarImm .saddi (fun a i => a + i.signExtend 64)
  ∧ ScalarImm .sandi (fun a i => a &&& i.signExtend 64)
  ∧ ScalarImm .sori (fun a i => a ||| i.signExtend 64)
  ∧ ScalarImm .sxori (fun a i => a ^^^ i.signExtend 64)
  ∧ ScalarImm .sshli (fun a i => a <<< i.toNat)
  ∧ ScalarImm .sshri (fun a i => a >>> i.toNat)
  ∧ ScalarImm .ssrai (fun a i => a.sshiftRight i.toNat)
  ∧ ScalarImm .sslti (fun a i => if a.toInt < i.toInt then 1 else 0)
  ∧ (∀ (s : State) (v : View) (w : SKK), Issues s v (.sli w) → ScalarResult s v (.sli w) .S w.k w.d (w.i.signExtend 64))

/-- VF (R130, Table 7.1): the exact result of the operation on the values of the operands, rounded once to F32 by RNE, with the flags of the case and of
the rounding; the sign injections and FCLASS from the bits. Frame: nothing but register d, the latches, FPFLAGS and the counters. VD (R135): the same
in F64 over register pairs. VH (R136, R137): both halves of a lane, each with its own rounding and flags, and the dots of R108 into the start value of
d. Floating compares (R141, Table 7.4): the condition on the values of the operands, combined into the active lanes of pd; no flag is raised. -/
def Obligations.FloatingPointWords : Prop :=
  EachFloat2 .fadd (fun a b => fmtF32.finish ((fmtF32.value a).add (fmtF32.value b)))
  ∧ EachFloat2 .fsub (fun a b => fmtF32.finish ((fmtF32.value a).add (fmtF32.value b).neg))
  ∧ EachFloat2 .fmul (fun a b => fmtF32.finish ((fmtF32.value a).mul (fmtF32.value b)))
  ∧ EachFloat3 .fmac (fun d a b => fmtF32.finish ((fmtF32.value a).fma (fmtF32.value b) (fmtF32.value d)))
  ∧ EachFloat3 .fnmac (fun d a b => fmtF32.finish ((fmtF32.value a).neg.fma (fmtF32.value b) (fmtF32.value d)))
  ∧ EachFloat2 .fmin (fun a b => { bits := fmtF32.minMax false a b })
  ∧ EachFloat2 .fmax (fun a b => { bits := fmtF32.minMax true a b })
  ∧ EachFloat2 .fdiv (fun a b => fmtF32.finish ((fmtF32.value a).div (fmtF32.value b)))
  ∧ EachFloat1 .fsqrt (fun a => fmtF32.finish (fmtF32.value a).sqrt)
  ∧ EachFloat1 .frcpe (fun a => fmtF32.rcpe (fmtF32.value a))
  ∧ EachFloat1 .frsqe (fun a => fmtF32.rsqe (fmtF32.value a))
  ∧ EachFloat2 .fsgnj (fun a b => { bits := b / 2 ^ 31 % 2 * 2 ^ 31 + a % 2 ^ 31 })
  ∧ EachFloat2 .fsgnjn (fun a b => { bits := (1 - b / 2 ^ 31 % 2) * 2 ^ 31 + a % 2 ^ 31 })
  ∧ EachFloat2 .fsgnjx (fun a b => { bits := (a / 2 ^ 31 + b / 2 ^ 31) % 2 * 2 ^ 31 + a % 2 ^ 31 })
  ∧ EachFloat1 .fclass (fun a => { bits := ClassMask 8 23 a })
  ∧ EachFloat2 .fscale (fun a b => fmtF32.roundTo 0 false ((fmtF32.value a).scale (BitVec.ofNat 32 b).toInt))
  ∧ EachDouble2 .dadd (fun a b => fmtF64.finish ((fmtF64.value a).add (fmtF64.value b)))
  ∧ EachDouble2 .dsub (fun a b => fmtF64.finish ((fmtF64.value a).add (fmtF64.value b).neg))
  ∧ EachDouble2 .dmul (fun a b => fmtF64.finish ((fmtF64.value a).mul (fmtF64.value b)))
  ∧ EachDouble3 .dmac (fun d a b => fmtF64.finish ((fmtF64.value a).fma (fmtF64.value b) (fmtF64.value d)))
  ∧ EachDouble3 .dnmac (fun d a b => fmtF64.finish ((fmtF64.value a).neg.fma (fmtF64.value b) (fmtF64.value d)))
  ∧ EachDouble2 .dmin (fun a b => { bits := fmtF64.minMax false a b })
  ∧ EachDouble2 .dmax (fun a b => { bits := fmtF64.minMax true a b })
  ∧ EachDouble2 .ddiv (fun a b => fmtF64.finish ((fmtF64.value a).div (fmtF64.value b)))
  ∧ EachDouble1 .dsqrt (fun a => fmtF64.finish (fmtF64.value a).sqrt)
  ∧ EachDouble1 .drcpe (fun a => fmtF64.rcpe (fmtF64.value a))
  ∧ EachDouble1 .drsqe (fun a => fmtF64.rsqe (fmtF64.value a))
  ∧ EachDouble2 .dsgnj (fun a b => { bits := b / 2 ^ 63 % 2 * 2 ^ 63 + a % 2 ^ 63 })
  ∧ EachDouble2 .dsgnjn (fun a b => { bits := (1 - b / 2 ^ 63 % 2) * 2 ^ 63 + a % 2 ^ 63 })
  ∧ EachDouble2 .dsgnjx (fun a b => { bits := (a / 2 ^ 63 + b / 2 ^ 63) % 2 * 2 ^ 63 + a % 2 ^ 63 })
  ∧ EachDouble1 .dclass (fun a => { bits := ClassMask 11 52 a })
  ∧ (∀ (s : State) (v : View) (w : VR), Issues s v (.dscale w) → FlaggedPairResult s v (.dscale w) w.k w.d fun j =>
      fmtF64.roundTo 0 false ((fmtF64.value (v.pair w.a.toNat j).toNat).scale (v.vec w.b.toNat j).toInt))
  ∧ EachHalves .hadd2 (fun _ a b => fmtF16.finish ((fmtF16.value a).add (fmtF16.value b)))
  ∧ EachHalves .hsub2 (fun _ a b => fmtF16.finish ((fmtF16.value a).add (fmtF16.value b).neg))
  ∧ EachHalves .hmul2 (fun _ a b => fmtF16.finish ((fmtF16.value a).mul (fmtF16.value b)))
  ∧ EachHalves .hmac2 (fun d a b => fmtF16.finish ((fmtF16.value a).fma (fmtF16.value b) (fmtF16.value d)))
  ∧ EachHalves .hmin2 (fun _ a b => { bits := fmtF16.minMax false a b })
  ∧ EachHalves .hmax2 (fun _ a b => { bits := fmtF16.minMax true a b })
  ∧ EachHalves .badd2 (fun _ a b => fmtBF16.finish ((fmtBF16.value a).add (fmtBF16.value b)))
  ∧ EachHalves .bsub2 (fun _ a b => fmtBF16.finish ((fmtBF16.value a).add (fmtBF16.value b).neg))
  ∧ EachHalves .bmul2 (fun _ a b => fmtBF16.finish ((fmtBF16.value a).mul (fmtBF16.value b)))
  ∧ EachHalves .bmac2 (fun d a b => fmtBF16.finish ((fmtBF16.value a).fma (fmtBF16.value b) (fmtBF16.value d)))
  ∧ EachHalves .bmin2 (fun _ a b => { bits := fmtBF16.minMax false a b })
  ∧ EachHalves .bmax2 (fun _ a b => { bits := fmtBF16.minMax true a b })
  ∧ EachFloat3 .hdot2 (fun d a b => DotSteps fmtF16 (List.range 2) 16 d a b)
  ∧ EachFloat3 .bdot2 (fun d a b => DotSteps fmtBF16 (List.range 2) 16 d a b)
  ∧ EachFloat3 .qdot4 (fun d a b => DotSteps fmtE4M3 (List.range 4) 8 d a b)
  ∧ (∀ (s : State) (v : View) (w : VR), Issues s v (.idot4 w) → VectorResult s v (.idot4 w) w.k w.d fun j =>
      v.src.v w.d.toNat j + (ByteOf (v.vec w.a.toNat j) 0 * ByteOf (v.vec w.b.toNat j) 0 + ByteOf (v.vec w.a.toNat j) 1 * ByteOf (v.vec w.b.toNat j) 1
        + ByteOf (v.vec w.a.toNat j) 2 * ByteOf (v.vec w.b.toNat j) 2 + ByteOf (v.vec w.a.toNat j) 3 * ByteOf (v.vec w.b.toNat j) 3))
  ∧ Compares .vcmpF32Eq (fun a b => (fmtF32.value a.toNat).eq (fmtF32.value b.toNat))
  ∧ Compares .vcmpF32Lt (fun a b => (fmtF32.value a.toNat).lt (fmtF32.value b.toNat))
  ∧ Compares .vcmpF32Le (fun a b => (fmtF32.value a.toNat).lt (fmtF32.value b.toNat) || (fmtF32.value a.toNat).eq (fmtF32.value b.toNat))
  ∧ Compares .vcmpF32Ne (fun a b => !(fmtF32.value a.toNat).eq (fmtF32.value b.toNat))
  ∧ Compares .vcmpF32Un (fun a b => (fmtF32.value a.toNat).isNan || (fmtF32.value b.toNat).isNan)
  ∧ Compares .vcmpF32Ord (fun a b => !((fmtF32.value a.toNat).isNan || (fmtF32.value b.toNat).isNan))
  ∧ Tests .vcmpF32Isnan (fun a => (fmtF32.value a.toNat).isNan)
  ∧ Tests .vcmpF32Isinf (fun a => (fmtF32.value a.toNat).isInf)
  ∧ ComparesPair .vcmpF64Eq (fun a b => (fmtF64.value a.toNat).eq (fmtF64.value b.toNat))
  ∧ ComparesPair .vcmpF64Lt (fun a b => (fmtF64.value a.toNat).lt (fmtF64.value b.toNat))
  ∧ ComparesPair .vcmpF64Le (fun a b => (fmtF64.value a.toNat).lt (fmtF64.value b.toNat) || (fmtF64.value a.toNat).eq (fmtF64.value b.toNat))
  ∧ ComparesPair .vcmpF64Ne (fun a b => !(fmtF64.value a.toNat).eq (fmtF64.value b.toNat))
  ∧ ComparesPair .vcmpF64Un (fun a b => (fmtF64.value a.toNat).isNan || (fmtF64.value b.toNat).isNan)
  ∧ ComparesPair .vcmpF64Ord (fun a b => !((fmtF64.value a.toNat).isNan || (fmtF64.value b.toNat).isNan))
  ∧ TestsPair .vcmpF64Isnan (fun a => (fmtF64.value a.toNat).isNan)
  ∧ TestsPair .vcmpF64Isinf (fun a => (fmtF64.value a.toNat).isInf)

/-- VCVT codes 0x00 to 0x0F (R138, R140, Table 7.3): RoundTo in the mode that the word names, saturating with SAT; an exact code raises no flag. VCVT
codes 0x10 to 0x31 (R138, R139, Table 7.3): a merging conversion replaces the named half or byte of the register that d names; the widening ones are
exact. -/
def Obligations.Conversions : Prop :=
  (∀ (s : State) (v : View) (w : VCRS), Issues s v (.vcvtF32I32 w) → FlaggedResult s v (.vcvtF32I32 w) w.k w.d fun j =>
      fmtF32.roundTo w.r.toNat (w.s = 1) (exactInt (v.vec w.a.toNat j).toInt))
  ∧ (∀ (s : State) (v : View) (w : VCRS), Issues s v (.vcvtF32U32 w) → FlaggedResult s v (.vcvtF32U32 w) w.k w.d fun j =>
      fmtF32.roundTo w.r.toNat (w.s = 1) (exactInt (v.vec w.a.toNat j).toNat))
  ∧ (∀ (s : State) (v : View) (w : VCR), Issues s v (.vcvtI32F32 w) → FlaggedResult s v (.vcvtI32F32 w) w.k w.d fun j =>
      roundToInt 32 true w.r.toNat (fmtF32.value (v.vec w.a.toNat j).toNat))
  ∧ (∀ (s : State) (v : View) (w : VCR), Issues s v (.vcvtU32F32 w) → FlaggedResult s v (.vcvtU32F32 w) w.k w.d fun j =>
      roundToInt 32 false w.r.toNat (fmtF32.value (v.vec w.a.toNat j).toNat))
  ∧ (∀ (s : State) (v : View) (w : VCRS), Issues s v (.vcvtF32F64 w) → FlaggedResult s v (.vcvtF32F64 w) w.k w.d fun j =>
      fmtF32.roundTo w.r.toNat (w.s = 1) (fmtF64.value (v.pair w.a.toNat j).toNat))
  ∧ (∀ (s : State) (v : View) (w : VR1), Issues s v (.vcvtF64F32 w) → FlaggedPairResult s v (.vcvtF64F32 w) w.k w.d fun j =>
      { bits := (fmtF64.roundTo 0 false (fmtF32.value (v.vec w.a.toNat j).toNat)).bits })
  ∧ (∀ (s : State) (v : View) (w : VR1), Issues s v (.vcvtF64I32 w) → FlaggedPairResult s v (.vcvtF64I32 w) w.k w.d fun j =>
      { bits := (fmtF64.roundTo 0 false (exactInt (v.vec w.a.toNat j).toInt)).bits })
  ∧ (∀ (s : State) (v : View) (w : VR1), Issues s v (.vcvtF64U32 w) → FlaggedPairResult s v (.vcvtF64U32 w) w.k w.d fun j =>
      { bits := (fmtF64.roundTo 0 false (exactInt (v.vec w.a.toNat j).toNat)).bits })
  ∧ (∀ (s : State) (v : View) (w : VCR), Issues s v (.vcvtI32F64 w) → FlaggedResult s v (.vcvtI32F64 w) w.k w.d fun j =>
      roundToInt 32 true w.r.toNat (fmtF64.value (v.pair w.a.toNat j).toNat))
  ∧ (∀ (s : State) (v : View) (w : VCR), Issues s v (.vcvtU32F64 w) → FlaggedResult s v (.vcvtU32F64 w) w.k w.d fun j =>
      roundToInt 32 false w.r.toNat (fmtF64.value (v.pair w.a.toNat j).toNat))
  ∧ (∀ (s : State) (v : View) (w : VCRS), Issues s v (.vcvtF64I64 w) → FlaggedPairResult s v (.vcvtF64I64 w) w.k w.d fun j =>
      fmtF64.roundTo w.r.toNat (w.s = 1) (exactInt (v.pair w.a.toNat j).toInt))
  ∧ (∀ (s : State) (v : View) (w : VCR), Issues s v (.vcvtI64F64 w) → FlaggedPairResult s v (.vcvtI64F64 w) w.k w.d fun j =>
      roundToInt 64 true w.r.toNat (fmtF64.value (v.pair w.a.toNat j).toNat))
  ∧ (∀ (s : State) (v : View) (w : VCRS), Issues s v (.vcvtF32I64 w) → FlaggedResult s v (.vcvtF32I64 w) w.k w.d fun j =>
      fmtF32.roundTo w.r.toNat (w.s = 1) (exactInt (v.pair w.a.toNat j).toInt))
  ∧ (∀ (s : State) (v : View) (w : VCR), Issues s v (.vcvtI64F32 w) → FlaggedPairResult s v (.vcvtI64F32 w) w.k w.d fun j =>
      roundToInt 64 true w.r.toNat (fmtF32.value (v.vec w.a.toNat j).toNat))
  ∧ (∀ (s : State) (v : View) (w : VCR), Issues s v (.frint w) → FlaggedResult s v (.frint w) w.k w.d fun j =>
      fmtF32.rint w.r.toNat (v.vec w.a.toNat j).toNat)
  ∧ (∀ (s : State) (v : View) (w : VCR), Issues s v (.drint w) → FlaggedPairResult s v (.drint w) w.k w.d fun j =>
      fmtF64.rint w.r.toNat (v.pair w.a.toNat j).toNat)
  ∧ (∀ (s : State) (v : View) (w : VCRSH), Issues s v (.vcvtF16F32 w) → FlaggedResult s v (.vcvtF16F32 w) w.k w.d fun j =>
      FieldReplaced 16 w.h.toNat (v.src.v w.d.toNat j).toNat (fmtF16.roundTo w.r.toNat (w.s = 1) (fmtF32.value (v.vec w.a.toNat j).toNat)))
  ∧ (∀ (s : State) (v : View) (w : VCH), Issues s v (.vcvtF32F16 w) → FlaggedResult s v (.vcvtF32F16 w) w.k w.d fun j =>
      { bits := (fmtF32.roundTo 0 false (fmtF16.value ((v.vec w.a.toNat j).toNat / 2 ^ (16 * w.h.toNat) % 2 ^ 16))).bits })
  ∧ (∀ (s : State) (v : View) (w : VCRSH), Issues s v (.vcvtBf16F32 w) → FlaggedResult s v (.vcvtBf16F32 w) w.k w.d fun j =>
      FieldReplaced 16 w.h.toNat (v.src.v w.d.toNat j).toNat (fmtBF16.roundTo w.r.toNat (w.s = 1) (fmtF32.value (v.vec w.a.toNat j).toNat)))
  ∧ (∀ (s : State) (v : View) (w : VCH), Issues s v (.vcvtF32Bf16 w) → FlaggedResult s v (.vcvtF32Bf16 w) w.k w.d fun j =>
      { bits := (fmtF32.roundTo 0 false (fmtBF16.value ((v.vec w.a.toNat j).toNat / 2 ^ (16 * w.h.toNat) % 2 ^ 16))).bits })
  ∧ (∀ (s : State) (v : View) (w : VCJRS), Issues s v (.vcvtE4m3F32 w) → FlaggedResult s v (.vcvtE4m3F32 w) w.k w.d fun j =>
      FieldReplaced 8 w.j.toNat (v.src.v w.d.toNat j).toNat (fmtE4M3.roundTo w.r.toNat (w.s = 1) (fmtF32.value (v.vec w.a.toNat j).toNat)))
  ∧ (∀ (s : State) (v : View) (w : VCJRS), Issues s v (.vcvtE5m2F32 w) → FlaggedResult s v (.vcvtE5m2F32 w) w.k w.d fun j =>
      FieldReplaced 8 w.j.toNat (v.src.v w.d.toNat j).toNat (fmtE5M2.roundTo w.r.toNat (w.s = 1) (fmtF32.value (v.vec w.a.toNat j).toNat)))
  ∧ (∀ (s : State) (v : View) (w : VCJ), Issues s v (.vcvtF32E4m3 w) → FlaggedResult s v (.vcvtF32E4m3 w) w.k w.d fun j =>
      { bits := (fmtF32.roundTo 0 false (fmtE4M3.value ((v.vec w.a.toNat j).toNat / 2 ^ (8 * w.j.toNat) % 2 ^ 8))).bits })
  ∧ (∀ (s : State) (v : View) (w : VCJ), Issues s v (.vcvtF32E5m2 w) → FlaggedResult s v (.vcvtF32E5m2 w) w.k w.d fun j =>
      { bits := (fmtF32.roundTo 0 false (fmtE5M2.value ((v.vec w.a.toNat j).toNat / 2 ^ (8 * w.j.toNat) % 2 ^ 8))).bits })
  ∧ (∀ (s : State) (v : View) (w : VCH), Issues s v (.vcvtF16E4m3 w) → FlaggedResult s v (.vcvtF16E4m3 w) w.k w.d fun j =>
      { bits := (fmtF16.roundTo 0 false (fmtE4M3.value ((v.vec w.a.toNat j).toNat / 2 ^ (16 * w.h.toNat) % 256))).bits
        + 65536 * (fmtF16.roundTo 0 false (fmtE4M3.value ((v.vec w.a.toNat j).toNat / 2 ^ (16 * w.h.toNat + 8) % 256))).bits })
  ∧ (∀ (s : State) (v : View) (w : VCH), Issues s v (.vcvtF16E5m2 w) → FlaggedResult s v (.vcvtF16E5m2 w) w.k w.d fun j =>
      { bits := (fmtF16.roundTo 0 false (fmtE5M2.value ((v.vec w.a.toNat j).toNat / 2 ^ (16 * w.h.toNat) % 256))).bits
        + 65536 * (fmtF16.roundTo 0 false (fmtE5M2.value ((v.vec w.a.toNat j).toNat / 2 ^ (16 * w.h.toNat + 8) % 256))).bits })

/-- VMV (R117 to R120, Table 6.4). VGETL and VSETL name a lane by bits 6:0 of a scalar; VMOVXR and VMOVXW name a register by value, raise REGIDX at or
above REGCOUNT, and with K = 1 VMOVXW only leaves its latch entry. PRD (R122, R123, Table 6.6): the predicate minors that write pd, the two that write
scalars from the V pipe, and PEXEC, which narrows the masks of the issuing slices and of no other. -/
def Obligations.MovesAndPredicates : Prop :=
  EachLane1 .vmov (fun a => a)
  ∧ (∀ (s : State) (v : View) (w : VR1), Issues s v (.vbcs w) →
      VectorResult s v (.vbcs w) w.k w.d fun _ => (v.sc w.a.toNat).setWidth 32)
  ∧ (∀ (s : State) (v : View) (w : VR), Issues s v (.vgetl w) → w.a.toNat < 124 →
      ScalarResult s v (.vgetl w) .V w.k w.d ((v.src.v w.a.toNat ((v.sc w.b.toNat).toNat % 128)).setWidth 64))
  ∧ (∀ (s : State) (v : View) (w : VR), Issues s v (.vgetl w) → 124 ≤ w.a.toNat →
      ScalarResult s v (.vgetl w) .V w.k w.d
        (if (v.sc w.b.toNat).toNat % 128 / 4 ∈ v.src.party v.iss.leader then (v.vec w.a.toNat ((v.sc w.b.toNat).toNat % 128)).setWidth 64 else 0))
  ∧ (∀ (s : State) (v : View) (w : VR), Issues s v (.vsetl w) →
      let idx := (v.sc w.b.toNat).toNat % 128
      let x := (v.sc w.a.toNat).setWidth 32
      ∃ t u, exec (.vsetl w) s = .next t ∧ RegisterWord s t v (.vsetl w) u
        ∧ (∀ r j, r < v.now.vregs.length → j < 128 →
            u.v r j = if w.k = 0 ∧ r = w.d.toNat ∧ j = idx ∧ v.active idx = true then x else v.now.v r j)
        ∧ SameScalars v u ∧ SamePredicates v u ∧ SameFlags v u
        ∧ Latched v (some fun k => .vec ((List.range 4).map fun l =>
            if v.active (4 * k + l) then (if 4 * k + l = idx then x else v.src.v w.d.toNat (4 * k + l)) else 0)) u)
  ∧ (∀ (s : State) (v : View) (w : VR1), Issues s v (.vmovxr w) → (v.sc w.a.toNat).toNat < v.cast.regcount.toNat →
      VectorResult s v (.vmovxr w) w.k w.d fun j => v.src.v (v.sc w.a.toNat).toNat j)
  ∧ (∀ (s : State) (v : View) (w : VR1), Issues s v (.vmovxr w) → v.cast.regcount.toNat ≤ (v.sc w.a.toNat).toNat →
      Traps s v (.vmovxr w) { cause := .regidx })
  ∧ (∀ (s : State) (v : View) (w : VR1), Issues s v (.vmovxw w) → w.k = 0 → (v.sc w.d.toNat).toNat < v.cast.regcount.toNat →
      VectorWrite s v (.vmovxw w) 0 (v.sc w.d.toNat).toNat fun j => v.vec w.a.toNat j)
  ∧ (∀ (s : State) (v : View) (w : VR1), Issues s v (.vmovxw w) → w.k = 0 → v.cast.regcount.toNat ≤ (v.sc w.d.toNat).toNat →
      Traps s v (.vmovxw w) { cause := .regidx })
  ∧ (∀ (s : State) (v : View) (w : VR1), Issues s v (.vmovxw w) → w.k = 1 →
      VectorWrite s v (.vmovxw w) 1 0 fun j => v.vec w.a.toNat j)
  ∧ (∀ (s : State) (v : View) (w : VR0), Issues s v (.vlane w) →
      VectorResult s v (.vlane w) w.k w.d fun j => BitVec.ofNat 32 (j + 65536 * (List.range j).countP fun k => v.active k))
  ∧ (∀ (s : State) (v : View) (w : VRS), Issues s v (.vsel w) →
      VectorResult s v (.vsel w) w.k w.d fun j => if v.predAt w.p.toNat j then v.vec w.a.toNat j else v.vec w.b.toNat j)
  ∧ (∀ (s : State) (v : View) (w : PR3), Issues s v (.pand w) →
      PredicateResult s v (.pand w) w.d fun j => v.predAt w.a.toNat j && v.predAt w.b.toNat j)
  ∧ (∀ (s : State) (v : View) (w : PR3), Issues s v (.por w) →
      PredicateResult s v (.por w) w.d fun j => v.predAt w.a.toNat j || v.predAt w.b.toNat j)
  ∧ (∀ (s : State) (v : View) (w : PR3), Issues s v (.pxor w) →
      PredicateResult s v (.pxor w) w.d fun j => v.predAt w.a.toNat j != v.predAt w.b.toNat j)
  ∧ (∀ (s : State) (v : View) (w : PR3), Issues s v (.pandn w) →
      PredicateResult s v (.pandn w) w.d fun j => v.predAt w.a.toNat j && !v.predAt w.b.toNat j)
  ∧ (∀ (s : State) (v : View) (w : PR2), Issues s v (.pnot w) → PredicateResult s v (.pnot w) w.d fun j => !v.predAt w.a.toNat j)
  ∧ (∀ (s : State) (v : View) (w : PR1), Issues s v (.pset w) → PredicateResult s v (.pset w) w.d fun _ => true)
  ∧ (∀ (s : State) (v : View) (w : PR1), Issues s v (.pclr w) → PredicateResult s v (.pclr w) w.d fun _ => false)
  ∧ (∀ (s : State) (v : View) (w : PRDS), Issues s v (.pfroms w) →
      PredicateResult s v (.pfroms w) w.d fun j => (v.src.s (w.s.toNat + j / 64)).getLsbD (j % 64))
  ∧ (∀ (s : State) (v : View) (w : PRAS), Issues s v (.ptos w) →
      ∃ m : LaneMask, (∀ j, j < 128 → m.getLsbD j = (v.predAt w.a.toNat j && v.active j)) ∧
        ScalarsWritten s v (.ptos w) fun n =>
          if n = w.s.toNat ∧ Stands v .V n = true then some (m.setWidth 64)
          else if n = w.s.toNat + 1 ∧ Stands v .V n = true then some ((m >>> 64).setWidth 64) else none)
  ∧ (∀ (s : State) (v : View) (w : PRAS), Issues s v (.pcount w) →
      ScalarsWritten s v (.pcount w) fun n => if n = w.s.toNat ∧ Stands v .V n = true then
        some (BitVec.ofNat 64 ((List.range 128).countP fun j => v.predAt w.a.toNat j && v.active j)) else none)
  ∧ (∀ (s : State) (v : View) (w : PRA), Issues s v (.pexec w) →
      ∃ u, Performs s v (.pexec w) false s.pkg u ∧ u = { v.now with slices := u.slices } ∧ u.slices.length = v.now.slices.length ∧
        ∀ (k : Nat) (a b : Slice), v.now.slices[k]? = some a → u.slices[k]? = some b →
          b = { a with mask := b.mask } ∧ ∀ i, i < 4 → b.mask.getLsbD i = (a.mask.getLsbD i && (decide (k ∉ v.slices) || v.predAt w.a.toNat (4 * k + i))))

/-- VX but VXCHG (R142 to R144, Table 7.5): lane moves over the whole source register, reductions and scans over the active lanes, and VCOMPACT. Readings
the model takes here: log entries 12. -/
def Obligations.CrossLaneWords : Prop :=
  (∀ (s : State) (v : View) (w : VR), Issues s v (.vperm w) →
      VectorResult s v (.vperm w) w.k w.d fun j => v.whole w.a.toNat ((v.vec w.b.toNat j).toNat % 128))
  ∧ (∀ (s : State) (v : View) (w : VR), Issues s v (.vbcl w) →
      VectorResult s v (.vbcl w) w.k w.d fun _ => v.whole w.a.toNat ((v.sc w.b.toNat).toNat % 128))
  ∧ (∀ (s : State) (v : View) (w : VR), Issues s v (.vrotl w) →
      VectorResult s v (.vrotl w) w.k w.d fun j => v.whole w.a.toNat ((j + (v.sc w.b.toNat).toNat) % 128))
  ∧ (∀ (s : State) (v : View) (w : VR), Issues s v (.vxorl w) →
      VectorResult s v (.vxorl w) w.k w.d fun j => v.whole w.a.toNat (j ^^^ ((v.sc w.b.toNat).toNat % 128)))
  ∧ (∀ (s : State) (v : View) (w : VR), Issues s v (.vupl w) →
      VectorResult s v (.vupl w) w.k w.d fun j =>
        let n := (v.sc w.b.toNat).toNat % 128
        if n ≤ j then v.whole w.a.toNat (j - n) else v.src.v w.d.toNat j)
  ∧ (∀ (s : State) (v : View) (w : VR), Issues s v (.vdnl w) →
      VectorResult s v (.vdnl w) w.k w.d fun j =>
        let n := (v.sc w.b.toNat).toNat % 128
        if j + n ≤ 127 then v.whole w.a.toNat (j + n) else v.src.v w.d.toNat j)
  ∧ (∀ (s : State) (v : View) (w : VR1), Issues s v (.iredadd w) →
      VectorResult s v (.iredadd w) w.k w.d fun _ =>
        BitVec.ofNat 32 (((List.range 128).filter fun k => v.active k).map fun k => (v.whole w.a.toNat k).toNat).sum)
  ∧ Reduces .iredmin (fun a b => if (BitVec.ofNat 32 a).toInt ≤ (BitVec.ofNat 32 b).toInt then a else b)
  ∧ Reduces .iredmax (fun a b => if (BitVec.ofNat 32 a).toInt ≤ (BitVec.ofNat 32 b).toInt then b else a)
  ∧ Reduces .fredmin (fmtF32.minMax false)
  ∧ Reduces .fredmax (fmtF32.minMax true)
  ∧ (∀ (s : State) (v : View) (w : VR1), Issues s v (.fredadd w) →
      FlaggedResult s v (.fredadd w) w.k w.d fun _ =>
        (TreeOver (fun x y => x.addStep fmtF32 y) (fun j => if v.active j then some { bits := (v.whole w.a.toNat j).toNat } else none) 7 0).getD
          { bits := 0 })
  ∧ (∀ (s : State) (v : View) (w : VR1), Issues s v (.iscan w) →
      VectorResult s v (.iscan w) w.k w.d fun j =>
        BitVec.ofNat 32 (((List.range (j + 1)).filter fun k => v.active k).map fun k => (v.whole w.a.toNat k).toNat).sum)
  ∧ (∀ (s : State) (v : View) (w : VR1), Issues s v (.fscan w) →
      FlaggedResult s v (.fscan w) w.k w.d fun j =>
        match ((List.range (j + 1)).filter fun k => v.active k).map fun k => ({ bits := (v.whole w.a.toNat k).toNat } : Flagged) with
        | [] => { bits := 0 }
        | x :: l => l.foldl (fun x y => x.addStep fmtF32 y) x)
  ∧ (∀ (s : State) (v : View) (w : VRP), Issues s v (.vcompact w) →
      VectorResult s v (.vcompact w) w.k w.d fun j =>
        match ((List.range 128).filter fun q => v.active q && v.predAt w.p.toNat q)[(List.range j).countP fun k => v.active k]? with
        | some q => v.whole w.a.toNat q
        | none => v.src.v w.d.toNat j)

/-- MOVC (R86, R127, Table 4.2): every control register, zero-extended, into a scalar register or the latches. MOVC of NWAVES (R86, R88): the count of
live waves now, remembered until the end of the cycle, when a change of membership gives the register and the latch entry the count after it. MOVCW
(R87, R88, R128): FPFLAGS takes bits 4:0 and the flags that its chain has raised, WAITLIMIT all bits, TRAPPC and EPC bits 63:2. -/
def Obligations.ControlRegisters : Prop :=
  (∀ (s : State) (v : View) (w : CTK) (c : Cast) (x : Quad), Issues s v (.movc w) → s.pkg.cast? v.iss.core v.src.cast = some c →
    (w.n.toNat, x) ∈ [
      (0x000, v.src.waveId.setWidth 64),
      (0x001, c.castid.setWidth 64),
      (0x002, c.castindex.setWidth 64),
      (0x003, c.launchid.setWidth 64),
      (0x005, match v.src.role with | .general => 0 | .copy => 1 | .matrix => 2 | .vector => 3),
      (0x006, c.regcount.setWidth 64),
      (0x007, c.spsize.setWidth 64),
      (0x008, BitVec.ofNat 64 v.iss.core),
      (0x009, BitVec.ofNat 64 (v.iss.core / 8)),
      (0x00A, BitVec.ofNat 64 (v.iss.core / 64)),
      (0x00B, c.cogroup.setWidth 64),
      (0x010, (if s.clk.num = 0 ∧ c.before.tick = s.clk.rtick then c.before.growok else c.growok).setWidth 64),
      (0x011, (if s.clk.num = 0 ∧ c.before.tick = s.clk.rtick then c.before.shrinkreq else c.shrinkreq).setWidth 64),
      (0x012, if s.clk.num = 0 ∧ c.before.tick = s.clk.rtick then c.before.refrcost else c.refrcost),
      (0x018, v.src.fpflags.setWidth 64),
      (0x019, v.src.waitlimit),
      (0x020, BitVec.ofNat 64 (s.clk.companies.getD (v.iss.core / 8) 0)),
      (0x021, BitVec.ofNat 64 s.clk.rtick),
      (0x022, BitVec.ofNat 64 (256 * c.req.toNat + (s.pkg.company (v.iss.core / 8)).level % 64)),
      (0x023, BitVec.ofNat 64 (16 + (if (s.pkg.part c.partition).recov then 8 else 0) + (if (s.pkg.part c.partition).ordCur then 4 else 0)
        + s.pkg.win.gatemodeCur % 4)),
      (0x030, c.trappc),
      (0x031, v.src.epc),
      (0x032, v.src.trapcause.setWidth 64),
      (0x033, v.src.trapaddr),
      (0x034, v.src.traplanes.setWidth 64),
      (0x035, (v.src.traplanes >>> 64).setWidth 64)] →
    ScalarResult s v (.movc w) .S w.k w.s x)
  ∧ (∀ (s : State) (v : View) (w : CTK) (c : Cast), Issues s v (.movc w) → s.pkg.cast? v.iss.core v.src.cast = some c → w.n = 0x004 →
    let x : Quad := c.nwaves.setWidth 64
    ∃ u r, Performs s v (.movc w) false s.pkg u ∧ u = { v.now with sregs := u.sregs, slices := u.slices, countRead := some r }
      ∧ (∀ n, n < v.now.sregs.length → u.s n = if w.k = 0 ∧ Stands v .S w.s.toNat = true ∧ n = w.s.toNat then x else v.now.s n)
      ∧ u.slices.length = v.now.slices.length
      ∧ (∀ (k : Nat) (a b : Slice), v.now.slices[k]? = some a → u.slices[k]? = some b →
          b = if k ∈ v.now.party v.iss.leader then
            { a with latches := (insertLatch { val := .scalar x, packet := v.win.packet, seq := 4 * v.win.packet + v.iss.pslot } a.latches).take 4 } else a)
      ∧ r = { leader := v.iss.leader, dest := if w.k = 1 then none else some w.s.toNat, value := x, packet := v.win.packet,
              seq := 4 * v.win.packet + v.iss.pslot })
  ∧ (∀ (s : State) (v : View) (w : CTN), Issues s v (.movcw w) →
    (w.n = 0x018 → Performs s v (.movcw w) false s.pkg { v.now with fpflags := (v.sc w.s.toNat).setWidth 5 ||| v.iss.raised })
    ∧ (w.n = 0x019 → Performs s v (.movcw w) false s.pkg { v.now with waitlimit := v.sc w.s.toNat })
    ∧ (w.n = 0x031 → Performs s v (.movcw w) false s.pkg { v.now with epc := v.sc w.s.toNat &&& ~~~3 })
    ∧ (w.n = 0x030 → Performs s v (.movcw w) false
        (s.pkg.modCast v.iss.core v.src.cast fun c => { c with trappc := v.sc w.s.toNat &&& ~~~3 }) v.now))

/-- SHI (R126), TDESC with its checks in their order and TDESCR (R170, R171), PERFREQ (R359). -/
def Obligations.ScalarBuildTilesAndRequests : Prop :=
  (∀ (s : State) (v : View) (w : SKN), Issues s v (.shi w) →
      ScalarsWritten s v (.shi w) fun n => if n = w.d.toNat ∧ Stands v .S n = true then
        some (BitVec.ofNat 64 ((v.src.s w.d.toNat).toNat * 2 ^ 17 + w.i.toNat)) else none)
  ∧ (∀ (s : State) (v : View) (w : CTT), Issues s v (.tdescr w) →
      ScalarsWritten s v (.tdescr w) fun n => if n = w.s.toNat ∧ Stands v .S n = true then some (v.src.tiles.getD w.t.toNat 0) else none)
  ∧ (∀ (s : State) (v : View) (w : CTT), Issues s v (.tdesc w) →
      let x := (v.sc w.s.toNat).toNat
      let bad := bits x 59 5 ≠ 0 ∨ 5 ≤ bits x 15 3 ∨ bits x 57 2 = 3 ∨ bits x 25 7 ≠ 64 ∨ bits x 32 10 < 4
      let tile := 16 * bits x 0 15 + 16 * bits x 32 10 * bits x 18 7 + 64
      let scales := 16 * bits x 42 15 + (if bits x 57 2 = 1 then 4 * (bits x 18 7 + 1) else 4)
      let past := bits x 57 2 ≠ 0 ∧ v.cast.spsize.toNat < scales
      (bad → Traps s v (.tdesc w) v.operandTrap)
      ∧ (¬ bad → v.cast.spsize.toNat < tile → Traps s v (.tdesc w) { cause := .spRange, addr := BitVec.ofNat 64 tile })
      ∧ (¬ bad → tile ≤ v.cast.spsize.toNat → past → Traps s v (.tdesc w) { cause := .spRange, addr := BitVec.ofNat 64 scales })
      ∧ (¬ bad → tile ≤ v.cast.spsize.toNat → ¬ past → ∃ u, Performs s v (.tdesc w) false s.pkg u
          ∧ u = { v.now with tiles := u.tiles } ∧ ∀ k, u.tiles[k]? = if k = w.t.toNat then v.now.tiles[k]?.map fun _ => v.sc w.s.toNat else v.now.tiles[k]?))
  ∧ (∀ (s : State) (v : View) (w : S1), Issues s v (.perfreq w) →
      Performs s v (.perfreq w) false (s.pkg.modCast v.iss.core v.src.cast fun c =>
        let x := (v.sc w.s.toNat).toNat % 256
        let q : BitVec 8 := if x = 255 then 255 else BitVec.ofNat 8 (min x 56)
        let above := q ≠ 255 ∧ (c.req = 255 ∨ c.req.toNat < q.toNat)
        if c.reqEpoch = s.clk.rtick / 250 + 1 then { c with req := if above then q else c.req }
        else { c with req := q, reqEpoch := s.clk.rtick / 250 + 1 }) v.now)

/-- B, BL and BS (R152, Tables 8.2 and 8.3). BL writes the address after its chain to s63. JR and JLR raise MISALIGN for a target that is no multiple of 4
(R155). -/
def Obligations.BranchesAndJumps : Prop :=
  (∀ (s : State) (v : View) (w : BJ), Issues s v (.b w) → Branches s v (.b w) True (v.iss.word + 4 * w.o.signExtend 64))
  ∧ (∀ (s : State) (v : View) (w : BJ), Issues s v (.bl w) → ∃ u, Performs s v (.bl w) true s.pkg u
      ∧ u = { v.now with slices := u.slices, sregs := u.sregs }
      ∧ (∀ n, n < v.now.sregs.length → u.s n = if n = 63 ∧ Stands v .S n = true then v.iss.next else v.now.s n)
      ∧ GoTo v { u with sregs := v.now.sregs } (v.iss.word + 4 * w.o.signExtend 64))
  ∧ ScalarBranch .bsEq (fun a b => a = b)
  ∧ ScalarBranch .bsNe (fun a b => a ≠ b)
  ∧ ScalarBranch .bsLt (fun a b => a.toInt < b.toInt)
  ∧ ScalarBranch .bsGe (fun a b => b.toInt ≤ a.toInt)
  ∧ ScalarBranch .bsLtu (fun a b => a.toNat < b.toNat)
  ∧ ScalarBranch .bsGeu (fun a b => b.toNat ≤ a.toNat)
  ∧ ScalarTest .bsZ (fun a => a = 0)
  ∧ ScalarTest .bsNz (fun a => a ≠ 0)
  ∧ (∀ (s : State) (v : View) (w : S1), Issues s v (.jr w) → (v.sc w.s.toNat).toNat % 4 ≠ 0 →
      Traps s v (.jr w) { cause := .misalign, addr := v.sc w.s.toNat })
  ∧ (∀ (s : State) (v : View) (w : S1), Issues s v (.jr w) → (v.sc w.s.toNat).toNat % 4 = 0 → Branches s v (.jr w) True (v.sc w.s.toNat))
  ∧ (∀ (s : State) (v : View) (w : S1), Issues s v (.jlr w) → (v.sc w.s.toNat).toNat % 4 ≠ 0 →
      Traps s v (.jlr w) { cause := .misalign, addr := v.sc w.s.toNat })
  ∧ (∀ (s : State) (v : View) (w : S1), Issues s v (.jlr w) → (v.sc w.s.toNat).toNat % 4 = 0 → ∃ u, Performs s v (.jlr w) true s.pkg u
      ∧ u = { v.now with slices := u.slices, sregs := u.sregs }
      ∧ (∀ n, n < v.now.sregs.length → u.s n = if n = 63 ∧ Stands v .S n = true then v.iss.next else v.now.s n)
      ∧ GoTo v { u with sregs := v.now.sregs } (v.sc w.s.toNat))

/-- BP (R153, R154): T is the set of the active lanes with the predicate, A the set of the active lanes. ALL, ANY and UNI send every issuing slice one
way, UNI raising DIVERGE where T is neither empty nor A; p0 is an unconditional branch in every mode. BP.SPLIT treats each slice by its own lanes,
raises STACK for a mixed slice deeper than 4, and parts the party into the slices that went to the target and the others. Readings the model takes
here: log entries 19, 20. -/
def Obligations.PredicateBranches : Prop :=
  (∀ (s : State) (v : View) (w : BQ), Issues s v (.bpAll w) →
      Branches s v (.bpAll w) (w.p = 0 ∨ ∀ j, v.active j = true → v.predAt w.p.toNat j = true) (v.iss.word + 4 * w.o.signExtend 64))
  ∧ (∀ (s : State) (v : View) (w : BQ), Issues s v (.bpAny w) →
      Branches s v (.bpAny w) (w.p = 0 ∨ ∃ j, v.active j = true ∧ v.predAt w.p.toNat j = true) (v.iss.word + 4 * w.o.signExtend 64))
  ∧ (∀ (s : State) (v : View) (w : BQ), Issues s v (.bpUni w) →
      let all := ∀ j, v.active j = true → v.predAt w.p.toNat j = true
      let none := ∀ j, v.active j = true → v.predAt w.p.toNat j = false
      (w.p = 0 ∨ all ∨ none → Branches s v (.bpUni w) (w.p = 0 ∨ all) (v.iss.word + 4 * w.o.signExtend 64))
      ∧ (w.p ≠ 0 → ¬ all → ¬ none → Traps s v (.bpUni w) { cause := .diverge }))
  ∧ (∀ (s : State) (v : View) (w : BQ), Issues s v (.bpSplit w) → w.p = 0 →
      Branches s v (.bpSplit w) True (v.iss.word + 4 * w.o.signExtend 64))
  ∧ (∀ (s : State) (v : View) (w : BQ), Issues s v (.bpSplit w) → w.p ≠ 0 →
      let full := ∃ k x, k ∈ v.slices ∧ v.now.slices[k]? = some x ∧ v.sliceTrue w.p.toNat k ≠ 0 ∧ v.sliceTrue w.p.toNat k ≠ x.mask ∧ 4 < x.stack.length
      let go := v.slices.filter fun k => v.sliceTrue w.p.toNat k ≠ 0
      let stay := (v.now.party v.iss.leader).filter fun k => !go.contains k
      (full → Traps s v (.bpSplit w) { cause := .stack })
      ∧ (¬ full → ∃ u, Performs s v (.bpSplit w) true s.pkg u ∧ SlicesBecome v.now u fun k x y =>
          (y.leader = if go = [] ∨ stay = [] then x.leader else if k ∈ go then leaderOf go else if k ∈ stay then leaderOf stay else x.leader)
          ∧ { y with leader := x.leader, win := x.win } =
            if k ∉ v.slices then x
            else if v.sliceTrue w.p.toNat k = 0 then { x with pc := v.iss.next }
            else if v.sliceTrue w.p.toNat k = x.mask then { x with pc := v.iss.word + 4 * w.o.signExtend 64 }
            else { x with
              pc := v.iss.word + 4 * w.o.signExtend 64
              mask := v.sliceTrue w.p.toNat k
              stack := { addr := (v.iss.next >>> 2).setWidth 62, mask := x.mask &&& ~~~(v.sliceTrue w.p.toNat k) } :: { addr := 0, mask := x.mask }
                :: x.stack }))

/-- JOIN acts in each issuing slice (R156): at depth 0 it only goes to the next word; a pending path restores its mask and goes to its address, a rejoin
entry restores its mask and goes to the next word. The stack loses that entry, and nothing else of the wave, of memory or of the package changes but
the charge. -/
def Obligations.JoinWord : Prop :=
  (∀ (s : State) (v : View) (w : C0), Issues s v (.join w) → ∃ u, Performs s v (.join w) true s.pkg u ∧ SlicesBecome v.now u fun k x y =>
      y = if k ∉ v.slices then x
        else match x.stack with
          | [] => { x with pc := v.iss.next }
          | e :: l => { x with stack := l, mask := e.mask, pc := if e.addr = 0 then v.iss.next else BitVec.ofNat 64 (4 * e.addr.toNat) })

/-- REGANG (R157): an issuing slice with stack entries raises STACK. REGANG.ALL unites every live slice once each stands at its word and each other party
waits there, and waits till then; REGANG.ANY unites the party with every party whose issue counter is there and that is ready or waits there. YIELD,
EXIT, NOP and SLEEP (R158, R159, Table 8.4). Readings the model takes here: log entries 17, 21, 25, 26. -/
def Obligations.RegangAndFlow : Prop :=
  (∀ (s : State) (v : View) (w : C0), Issues s v (.regangAll w) →
      let deep := ∃ k x, k ∈ v.slices ∧ v.now.slices[k]? = some x ∧ x.stack ≠ []
      let here := (∀ k x, v.now.slices[k]? = some x → x.live = true → k ∈ v.slices ∨ x.pc = v.iss.word)
        ∧ ∀ l, l ∈ v.now.leaders → l ≠ v.iss.leader → ∃ b, v.now.blockedAt l = some b ∧ b.op = .regang ∧ b.word = v.iss.word
      (deep → Traps s v (.regangAll w) { cause := .stack })
      ∧ (¬ deep → here → ∃ u, Performs s v (.regangAll w) true s.pkg u ∧ Unites v.now u v.iss.word)
      ∧ (¬ deep → ¬ here → v.iss.leader < v.now.slices.length → Waits s v (.regangAll w) s.pkg v.now .regang))
  ∧ (∀ (s : State) (v : View) (w : C0), Issues s v (.regangAny w) →
      let deep := ∃ k x, k ∈ v.slices ∧ v.now.slices[k]? = some x ∧ x.stack ≠ []
      let joins := fun l : Nat => l = v.iss.leader ∨ (l ∈ v.now.leaders ∧ v.now.issueCounter l = some v.iss.word
        ∧ ∀ b, v.now.blockedAt l = some b → b.op = .regang ∧ b.word = v.iss.word)
      (deep → Traps s v (.regangAny w) { cause := .stack })
      ∧ (¬ deep → ∀ n, n < 32 → (∃ x, v.now.slices[n]? = some x ∧ x.live = true ∧ joins x.leader.toNat)
          → (∀ k x, v.now.slices[k]? = some x → x.live = true → joins x.leader.toNat → n ≤ k)
          → ∃ u, Performs s v (.regangAny w) true s.pkg u
          ∧ SlicesBecome v.now u fun k x y =>
            if x.live = true ∧ joins x.leader.toNat then
              y.leader = BitVec.ofNat 5 n ∧ y.blocked = none ∧ y.late = none
              ∧ (y.mask, y.pc) = (if k ∈ v.slices ∨ x.pc = v.iss.word then (15, v.iss.word + 4) else (x.mask, x.pc))
              ∧ y = { x with leader := y.leader, blocked := y.blocked, late := y.late, mask := y.mask, pc := y.pc, latches := y.latches, win := y.win }
            else y = x))
  ∧ (∀ (s : State) (v : View) (w : C0), Issues s v (.yield w) → ∃ p, Performs s v (.yield w) false p { v.now with promoted := 0, promoHeld := 0 }
      ∧ p = s.pkg.modCore v.iss.core fun k => { k with rr := k.rr.set (4 * (v.iss.slot / 16) + v.cast.prio) (v.iss.slot % 16) })
  ∧ (∀ (s : State) (v : View) (w : C0), Issues s v (.nop w) → Performs s v (.nop w) false s.pkg v.now)
  ∧ (∀ (s : State) (v : View) (w : FI), Issues s v (.sleep w) → ∃ u, Performs s v (.sleep w) false s.pkg u ∧ SlicesBecome v.now u fun k x y =>
      y = if k ∈ v.slices then { x with sleep := BitVec.ofNat 18 (16 * w.i.toNat) } else x)
  ∧ (∀ (s : State) (v : View) (w : C0), Issues s v (.exit w) →
      let lives := fun k : Nat => ∃ x, v.now.slices[k]? = some x ∧ x.live = true ∧ k ∉ v.slices
      let ended := fun u : Wave => SlicesBecome v.now u fun k x y =>
        y = if k ∈ v.slices then { x with live := false, stack := [], hmode := false, sleep := 0 } else x
      let met := fun (e : Wave) (x : Quad) => (∀ k y, lives k → e.slices[k]? = some y → y.pc = x)
        ∧ ∀ l, l ∈ e.leaders → ∃ b, e.blockedAt l = some b ∧ b.op = .regang ∧ b.word = x
      ((∃ k, lives k) → ∃ e u, ended e ∧ Performs s v (.exit w) true s.pkg u
          ∧ ((∀ x, ¬ met e x) → u = e) ∧ ∀ x, met e x → Unites e u x)
      ∧ (¬ (∃ k, lives k) → ∃ t, exec (.exit w) s = .next t ∧ t.issuer v = none ∧ t.clk = s.clk))

/-- SYS (R164 to R166, R370, Table 8.6). HOSTMSG is held until its stores are acknowledged and the queue has room; the event HMQ_ENTRY_WRITE then writes
its entry and lets the party go on. Trap delivery (R161). With TRAPPC 0 the cast is killed and CASTKILL is posted with the cause, EPC and TRAPADDR.
Otherwise the trap registers are written, SAVEMASK takes the masks unless a slice is in handler mode already, the trapping slices enter handler mode
at TRAPPC with every lane active, every latch is emptied, no party changes, the wait of the trapping party is abandoned with what its chain put off,
and no word issues before 4 company cycles have passed. Readings the model takes here: log entries 27. -/
def Obligations.SystemWordsAndTrapEntry : Prop :=
  (∀ (s : State) (v : View) (w : S1), Issues s v (.trap w) → TrapsAfter s v (.trap w) .software (v.sc w.s.toNat))
  ∧ (∀ (s : State) (v : View) (w : FI), Issues s v (.brk w) → TrapsAfter s v (.brk w) .brk (w.i.setWidth 64))
  ∧ (∀ (s : State) (v : View) (w : FSI), Issues s v (.hostmsg w) → v.iss.leader < v.now.slices.length →
      Waits s v (.hostmsg w) s.pkg v.now (.hostmsg (v.sc w.s.toNat) (v.sc (w.s.toNat + 1)) w.i.toNat (decide (v.now.outst = 0))))
  ∧ (∀ (s : State) (v : View) (w : C0), Issues s v (.ckpt w) → Performs s v (.ckpt w) false
      (s.pkg.modPart v.cast.partition fun q => { q with recovery := { q.recovery with requested := q.recovery.requested || q.recov } }) v.now)
  ∧ (∀ (s : State) (v : View) (w : FI), Issues s v (.stopnow w) → Performs s v (.stopnow w) false
      { s.pkg with stopReq := s.pkg.stopReq ++ if s.pkg.win.stopen then [(v.iss.core / 8, v.iss.core, v.iss.slot, w.i.toNat)] else [] } v.now)
  ∧ (∀ (k : Clock) (p : Package) (d : Delivery) (w : Wave) (c : Cast), p.wave? d.core d.slot = some w → p.cast? d.core w.cast = some c →
    let cause := BitVec.ofNat 16 ((if d.window then 2 ^ 10 else 0) + 2 ^ 8 * (d.word % 4) + d.cause.code)
    (c.trappc = 0 → p.deliver k d = (p.killCast d.core w.cast).hmqPost c.partition
        { kind := 2, castid := c.castid, castindex := c.castindex, info := cause, waveId := w.waveId, core := d.core,
          tick := BitVec.ofNat 32 k.rtick, p0 := d.epc, p1 := d.addr })
    ∧ (c.trappc ≠ 0 → ∃ u, p.deliver k d = p.modWave d.core d.slot (fun _ => u)
        ∧ u = { w with slices := u.slices, held := u.held, epc := d.epc, trapaddr := d.addr, trapcause := cause, traplanes := d.lanes,
                       startAt := k.companies.getD (d.core / 8) 0 + 4 }
        ∧ u.slices.length = w.slices.length
        ∧ ∀ (n : Nat) (x y : Slice), w.slices[n]? = some x → u.slices[n]? = some y →
          y.latches = [] ∧ y.blocked = (if n = d.leader then none else x.blocked) ∧ y.late = (if n = d.leader then none else x.late)
          ∧ { y with latches := x.latches, blocked := x.blocked, late := x.late, win := x.win } =
            if n ∈ d.slices then { x with hmode := true, mask := 15, pc := c.trappc, savemask := if w.handling then x.savemask else x.mask } else x))

/-- TRET (R165): with H = 0 the issuing slices take SAVEMASK, leave handler mode and go to EPC; with H = 1 every lane is active and they stay in handler
mode. The latches are emptied (R69). -/
def Obligations.TrapReturn : Prop :=
  (∀ (s : State) (v : View) (w : FH), Issues s v (.tret w) → ∃ u, Performs s v (.tret w) true s.pkg u ∧ SlicesBecome v.now u fun k x y =>
    y = if k ∈ v.slices then
        { x with mask := if w.h = 1 then 15 else x.savemask, hmode := if w.h = 1 then x.hmode else false, pc := v.now.epc, latches := [], win := y.win }
      else { x with latches := [], win := y.win })

/-- BARRIVE, BWAIT and BSYNC (R50, R212, R215, R217, R218, R221). Each word checks its barrier and waits for the end of its company cycle, where the
barrier steps take it: an arrival counts in the current phase unless it must be held: on a tracking barrier when its wave joined with NEXT or has
arrived in the phase already, on a counting one when it would raise ARRIVED above EXPECTED. A word at a killed barrier, and one whose phase is over,
is released four cycles later; the status of a killed barrier has bit 32 set, and no arrival is recorded. A BSYNC whose SYNCWAIT names the granule
waits on the saved phase without arriving. BINIT, BKILL and BQUERY (R212, R215, R216, R221). BINIT checks its address, its configuration and the
barrier's state; with the barrier steps of the cycle's end it makes the barrier, the granule's tag and its full bit. BKILL is refused on an OWNED
barrier to another wave than its OWNER, and is applied with the barrier steps of the cycle's end; BQUERY waits for them, and then reads the barrier
into d and d + 1. Readings the model takes here: log entries 29. -/
def Obligations.BarrierWords : Prop :=
  BarrierWord .barrive R2.a (fun s v w addr _ => Waits s v (.barrive w) s.pkg v.now (.arrive addr false w.d.toNat))
  ∧ BarrierWord .bwait R3.a (fun s v w addr _ =>
      Waits s v (.bwait w) s.pkg v.now (.bwait addr ((v.sc w.b.toNat).setWidth 32) false w.d.toNat))
  ∧ BarrierWord .bsync R2.a (fun s v w addr _ => Waits s v (.bsync w) s.pkg v.now (.arrive addr true w.d.toNat))
  ∧ (∀ (x : CoreCtx) (cs g cyc n l d : Nat) (c : Cast) (w : Wave) (ph : Option (BitVec 32)) (sync : Bool), n < 64 → x.waves[n]? = some (some w) → w.cast = cs →
      w.leaders.filterMap (w.barWait? g) = [(d, ph, sync)] → w.barLeader? g = some (l, d, ph, sync) →
      (∀ (m : Nat) (y : Wave), m ≠ n → x.waves[m]? = some (some y) → y.cast = cs → y.barLeader? g = none) →
      let b := x.bar c g
      let put := fun u : Wave => { x with waves := setAt x.waves n (some u) }
      let freed := fun (p : BitVec 32) (k : Nat) => put (w.setOp l (.released d (BitVec.ofNat 64 (p.toNat + 2 ^ 32 * k)) false sync (cyc + 4)))
      let onto := fun p : BitVec 32 => put (w.setOp l (.bwait (BitVec.ofNat 64 (16 * g)) p sync d))
      let past := fun p : BitVec 32 => 1 ≤ (b.phase - p).toNat ∧ (b.phase - p).toNat ≤ 2 ^ 31
      let again := fun r : PhaseRec => w.syncwait = some r ∧ r.granule = BitVec.ofNat 19 g
      let held : Prop := if b.track then g ∈ w.joinNext ∨ { granule := BitVec.ofNat 19 g, phase := b.phase } ∈ w.arrivedAt else b.expected ≤ b.arrived
      (∀ p, ph = some p → b.killed = true → x.arriveAll cs c cyc g = freed b.phase 1)
      ∧ (∀ p, ph = some p → b.killed = false → past p → x.arriveAll cs c cyc g = freed p 0)
      ∧ (∀ p, ph = some p → b.killed = false → ¬ past p → x.arriveAll cs c cyc g = onto p)
      ∧ (ph = none → w.held = none → b.killed = true → x.arriveAll cs c cyc g = freed b.phase 1)
      ∧ (∀ r, ph = none → w.held = none → b.killed = false → sync = true → again r → past r.phase → x.arriveAll cs c cyc g = freed r.phase 0)
      ∧ (∀ r, ph = none → w.held = none → b.killed = false → sync = true → again r → ¬ past r.phase → x.arriveAll cs c cyc g = onto r.phase)
      ∧ (ph = none → w.held = none → b.killed = false → (sync = true → ∀ r, ¬ again r) → held →
          x.arriveAll cs c cyc g = put { w with held := some { granule := BitVec.ofNat 19 g, phase := b.phase } })
      ∧ (ph = none → w.held = none → b.killed = false → sync = false → ¬ held →
          x.arriveAll cs c cyc g = (put (((Arrived w g b).setS d (BitVec.ofNat 64 b.phase.toNat)).unblock l)).setBar c g { b with arrived := b.arrived + 1 })
      ∧ (ph = none → w.held = none → b.killed = false → sync = true → (∀ r, ¬ again r) → ¬ held →
          x.arriveAll cs c cyc g = (put { ((Arrived w g b).setOp l (.bwait (BitVec.ofNat 64 (16 * g)) b.phase true d)) with
            syncwait := some { granule := BitVec.ofNat 19 g, phase := b.phase } }).setBar c g { b with arrived := b.arrived + 1 }))
  ∧ (∀ (s : State) (v : View) (w : RAB), Issues s v (.binit w) →
      let addr := v.sc w.a.toNat
      let g := addr.toNat / 16
      let x := (s.pkg.core v.iss.core).ctx
      let cfg := (v.sc w.b.toNat).toNat
      let track := bits cfg 16 1 = 1
      let wrong := bits cfg 19 45 ≠ 0 ∨ (track ∧ bits cfg 0 16 ≠ 0) ∨ (¬ track ∧ bits cfg 0 16 = 0)
      let old := x.bar v.cast g
      let busy := x.tag v.cast g = 1 ∧ (x.barBusy v.src.cast g = true ∨ (old.owned = true ∧ old.owner ≠ v.src.waveId.toNat))
      let fits := addr.toNat % 16 = 0 ∧ addr.toNat + 16 ≤ v.cast.spsize.toNat
      let n := if track then v.cast.nwaves.toNat else bits cfg 0 16
      let made : Bar := { phase := 0, arrived := 0, expected := n, nextexp := n, track := decide track, killed := false, owned := decide (bits cfg 17 1 = 1),
                          kend := decide (bits cfg 18 1 = 1), owner := v.src.waveId.toNat }
      let clears := fun y : Wave => { (y.clearSync g) with joinNext := y.joinNext.filter (· ≠ g), arrivedAt := y.arrivedAt.filter (·.granule ≠ BitVec.ofNat 19 g) }
      (addr.toNat % 16 ≠ 0 → Traps s v (.binit w) { cause := .misalign, addr := addr })
      ∧ (addr.toNat % 16 = 0 → v.cast.spsize.toNat < addr.toNat + 16 → Traps s v (.binit w) { cause := .spRange, addr := addr })
      ∧ (fits → 2 ≤ x.tag v.cast g → Traps s v (.binit w) { cause := .queueState, addr := addr })
      ∧ (fits → x.tag v.cast g < 2 → wrong → Traps s v (.binit w) v.operandTrap)
      ∧ (fits → x.tag v.cast g < 2 → ¬ wrong → busy → Traps s v (.binit w) { cause := .barrierState, addr := addr })
      ∧ (fits → x.tag v.cast g < 2 → ¬ wrong → ¬ busy → Performs s v (.binit w) false
          (s.pkg.modCore v.iss.core fun k => { k with barrier := k.barrier ++ [.init v.src.cast g made.bytes] }) v.now)
      ∧ (∀ (y : CoreCtx), y.applyInit v.src.cast v.cast g made.bytes =
          (((y.setBar v.cast g made).setTag v.cast g 1).setFe v.cast g true).mapWaves v.src.cast clears))
  ∧ BarrierWord .bkill RA.a (fun s v w addr b =>
    (b.owned = true → b.owner ≠ v.src.waveId.toNat → Traps s v (.bkill w) { cause := .barrierState, addr := addr })
    ∧ (¬ (b.owned = true ∧ b.owner ≠ v.src.waveId.toNat) → Performs s v (.bkill w) false
        (s.pkg.modCore v.iss.core fun k => { k with barrier := k.barrier ++ [.kill v.src.cast (addr.toNat / 16)] }) v.now))
  ∧ BarrierWord .bquery R2.a (fun s v w addr _ => Waits s v (.bquery w) s.pkg v.now (.bquery addr w.d.toNat))
  ∧ (∀ (p : Package) (core slot : Nat) (w : Wave) (c : Cast) (b : Blocked) (a : Quad) (d : Nat), slot < 64 → p.wave? core slot = some w →
      p.cast? core w.cast = some c → w.blockedAt w.sole = some b → b.op = .bquery a d →
      let n := ofLe (Memory.readList (p.core core).ctx.sp (c.spPlace a.toNat) 16)
      ∃ u, (p.answerQueries core).wave? core slot = some u
        ∧ GoesOn ((w.setS d (BitVec.ofNat 64 n)).setS (d + 1) (BitVec.ofNat 64 (n / 2 ^ 64))) u w.sole b)

/-- ATTACH and DETACH (R336, R337, R339). An ATTACH is decided two company cycles after it issues; DETACH ends its wave as EXIT of its last slice does.
Readings the model takes here: log entries 26. -/
def Obligations.MembershipWords : Prop :=
  Attaches .attachTry false ∧ Attaches .attachWait true
  ∧ (∀ (s : State) (v : View) (w : C0), Issues s v (.detach w) → ∃ t, exec (.detach w) s = .next t ∧ t.issuer v = none ∧ t.clk = s.clk)

/-- LDS (R209 to R211, R224, Table 11.2). Every active lane that reads no poisoned granule takes its bytes, zero-extended to whole registers; POISON falls
due for the others. .F and .T wait until every granule is full, .T empties them, and both acquire at cast scope (R258): held while a load is pending.
Memory is unchanged. Readings the model takes here: log entries 49. -/
def Obligations.ScratchLoads : Prop :=
  (∀ (s : State) (v : View) (w : MS), Issues s v (.lds w) → v.iss.leader < v.now.slices.length →
    let size := 2 ^ (w.z.toNat + 1)
    let addr := LaneAddress v w.b.toNat w.a.toNat w.m.toNat size
    let x := (s.pkg.core v.iss.core).ctx
    let gran := fun j : Nat => v.cast.granule ((addr j).toNat / 16)
    let bad := fun j : Nat => gran j ∈ x.spPoison
    let commits : Prop := w.e = 0 ∨ NoLane v fun j => gran j ∉ x.fe
    SpAccess s v (.lds w) size (w.e ≠ 0) addr
      ((commits → ∃ (u : Wave) (fe : List Nat), Performs s v (.lds w) false (s.pkg.modCtx v.iss.core fun x => { x with fe := fe }) u
          ∧ (∀ n, n ∈ fe ↔ n ∈ x.fe ∧ ¬ (2 ≤ w.e.toNat ∧ ∃ j, j < 128 ∧ v.active j = true ∧ gran j = n))
          ∧ u = { v.now with vregs := u.vregs, due := u.due, fence := u.fence }
          ∧ (∀ r j, r < v.now.vregs.length → j < 128 → u.v r j =
              if v.active j = true ∧ ¬ bad j ∧ w.v.toNat ≤ r ∧ 4 * (r - w.v.toNat) < size then
                BitVec.ofNat 32 (ofLe (Memory.readList x.sp (v.cast.spPlace (addr j).toNat + 4 * (r - w.v.toNat)) (min 4 size)))
              else v.now.v r j)
          ∧ PoisonDue v v.now u addr bad
          ∧ u.fence = if w.e = 0 then v.now.fence else match v.now.fence with
              | some f => some { f with kind := if f.kind = .rel then .acqrel else f.kind }
              | none => if v.now.pending = [] then none else some { kind := .acq, scope := 0, stages := 0, attached := true })
      ∧ (¬ commits → ∃ a : FeAccess, Waits s v (.lds w) s.pkg v.now (.fullEmpty a) ∧ a.store = false ∧ a.fe = w.e.toNat ∧ a.size = size
          ∧ a.reg = w.v.toNat ∧ ∀ l : LaneAddr, l ∈ a.lanes ↔ l.lane < 128 ∧ v.active l.lane = true ∧ l.addr = addr l.lane)))

/-- STS (R209 to R211, R224, Table 11.2). Each active lane's bytes are stored, the highest lane's where lanes overlap, and every other byte is as it was;
FE of every granule touched becomes full with .F and .WF, empty with .E; .WF waits until every granule is empty. No register changes. Readings the
model takes here: log entries 49. -/
def Obligations.ScratchStores : Prop :=
  (∀ (s : State) (v : View) (w : MS), Issues s v (.sts w) → v.iss.leader < v.now.slices.length →
    let size := 2 ^ (w.z.toNat + 1)
    let addr := LaneAddress v w.b.toNat w.a.toNat w.m.toNat size
    let x := (s.pkg.core v.iss.core).ctx
    let place := fun j : Nat => v.cast.spPlace (addr j).toNat
    let gran := fun j : Nat => v.cast.granule ((addr j).toNat / 16)
    let covers := fun (n j : Nat) => v.active j = true ∧ place j ≤ n ∧ n < place j + size
    let touched := fun n : Nat => ∃ j, j < 128 ∧ v.active j = true ∧ gran j = n
    let commits : Prop := w.e ≠ 2 ∨ NoLane v fun j => gran j ∈ x.fe
    SpAccess s v (.sts w) size True addr
      ((commits → ∃ (sp : List Host.Cell) (fe bad : List Nat),
          Performs s v (.sts w) false (s.pkg.modCtx v.iss.core fun x => { x with sp := sp, fe := fe, spPoison := bad }) v.now
          ∧ (∀ n j, j < 128 → covers n j → (∀ k, j < k → k < 128 → ¬ covers n k) →
              Memory.read sp n = (v.dataBytes w.v.toNat size j).getD (n - place j) 0)
          ∧ (∀ n, (∀ j, j < 128 → ¬ covers n j) → Memory.read sp n = Memory.read x.sp n)
          ∧ (∀ n, n ∈ fe ↔ if w.e = 0 then n ∈ x.fe else if w.e = 3 then n ∈ x.fe ∧ ¬ touched n else n ∈ x.fe ∨ touched n)
          ∧ (∀ n, n ∈ bad ↔ n ∈ x.spPoison ∧ ¬ ∀ i, i < 16 → ∃ j, j < 128 ∧ covers (16 * n + i) j))
      ∧ (¬ commits → ∃ a : FeAccess, Waits s v (.sts w) s.pkg v.now (.fullEmpty a) ∧ a.store = true ∧ a.fe = w.e.toNat ∧ a.size = size
          ∧ (∀ l : LaneAddr, l ∈ a.lanes ↔ l.lane < 128 ∧ v.active l.lane = true ∧ l.addr = addr l.lane)
          ∧ a.data = a.lanes.map fun l => v.dataBytes w.v.toNat size l.lane)))

/-- VXCHG (R145 to R148). The operand names the partner: core in bits 7:0, WAVEID in 13:8, tag in 31:16; without such a wave it traps. Otherwise the party
waits with its operand and active lanes, and its token goes to the partner's core. VXCHG_COMPLETE: d takes the partner's lanes that were active on
both sides, and the party goes on. Readings the model takes here: log entries 50, 51. -/
def Obligations.Exchange : Prop :=
  (∀ (s : State) (v : View) (w : R3), Issues s v (.vxchg w) →
    let x := v.sc w.b.toNat
    let core := x.toNat % 2 ^ 8
    let wave := x.toNat / 2 ^ 8 % 2 ^ 6
    let tag := x.toNat / 2 ^ 16 % 2 ^ 16
    (¬ XchgPartner s v core wave → Traps s v (.vxchg w) { cause := .xchgPartner, addr := x })
    ∧ (XchgPartner s v core wave → v.iss.leader < v.now.slices.length → ∃ (a : XchgArgs) (k : Nat),
        (∃ y : Wave, (s.pkg.core core).ctx.waves[k]? = some (some y) ∧ y.waveId.toNat = wave) ∧ ¬ (core = v.iss.core ∧ k = v.iss.slot)
        ∧ Waits s v (.vxchg w) ((s.pkg.modCore core fun c => c.addToken
            { src := s.pkg.keyOf v.iss.core v.iss.slot, leader := v.iss.leader, dst := s.pkg.keyOf core k, tag := tag, seq := 0 }).later .now
              (.vxchgMatch v.iss.core v.iss.slot v.iss.leader)) v.now (.xchg a none)
        ∧ a.partner = s.pkg.keyOf core k ∧ a.operand = x ∧ a.tag = tag ∧ a.dest = w.d.toNat ∧ a.act = v.act
        ∧ ∀ j, j < 128 → a.snapshot.getD j 0 = v.vec w.a.toNat j))
  ∧ (∀ (s : State) (core slot leader : Nat) (w : Wave) (b : Blocked) (a : XchgArgs) (lanes : List Word) (act : LaneMask),
      s.pkg.wave? core slot = some w → w.blockedAt leader = some b → b.op = .xchg a (some (lanes, act)) →
      ∃ u x, OnWave s (.vxchgComplete core slot leader) core slot u ∧ GoesOn { w with vregs := x } u leader b ∧ x.length = w.vregs.length
        ∧ ∀ r j, r < w.vregs.length → j < 128 → (x.getD r []).getD j 0 =
            if r = a.dest ∧ a.act.getLsbD j = true ∧ act.getLsbD j = true then lanes.getD j 0 else w.v r j)

/-- FULL_EMPTY_COMMIT (R210, R212): a blocked access whose condition does not hold yet changes nothing; one whose condition holds is committed in one
step, and its party goes on. Readings the model takes here: log entries 48. -/
def Obligations.BlockedScratchAccess : Prop :=
  (∀ (s : State) (core slot leader : Nat) (w : Wave) (c : Cast) (b : Blocked) (a : FeAccess), s.pkg.wave? core slot = some w → s.pkg.cast? core w.cast = some c →
    w.blockedAt leader = some b → b.op = .fullEmpty a →
    let x := (s.pkg.core core).ctx
    let ready : Prop := ∀ g, g ∈ a.granules → if a.store then c.granule g ∉ x.fe else c.granule g ∈ x.fe
    (¬ ready → (if a.store then a.fe = 2 else a.fe ≠ 0) → exec (.fullEmptyCommit core slot leader) s = .next s)
    ∧ (ready → ∃ u z : Wave, exec (.fullEmptyCommit core slot leader) s =
          .next { s with pkg := (s.pkg.modCtx core fun x => x.commit c a).modWave core slot fun _ => u }
        ∧ GoesOn z u leader b ∧ z = { w with vregs := z.vregs, due := z.due, fence := z.fence } ∧ (a.store = true → z = w)
        ∧ (a.store = false → (∀ l, l ∈ a.lanes → ∀ g, g ∈ granulesOf l.addr.toNat a.size → c.granule g ∉ x.spPoison) →
            z.due = w.due ∧ (∀ r j, r < w.vregs.length → j < 128 → (∀ l, l ∈ a.lanes → l.lane ≠ j) → z.v r j = w.v r j)
            ∧ (a.lanes.Pairwise (fun l m => l.lane ≠ m.lane) → ∀ l k, l ∈ a.lanes → l.lane < 128 → 4 * k < a.size → a.reg + k < w.vregs.length →
                z.v (a.reg + k) l.lane = BitVec.ofNat 32 (ofLe (Memory.readList x.sp (c.spPlace l.addr.toNat + 4 * k) (min 4 (a.size - 4 * k))))))))

/-- LDC, STC, LDG and STG (R225 to R234): the checks, the addresses, and the requests with their operands; a load that the first-level cache serves writes
its lanes at once. Readings the model takes here: log entries 41, 47, 98. -/
def Obligations.GlobalLoadsAndStores : Prop :=
  (∀ (s : State) (v : View) (w : MC), Issues s v (.ldc w) → Loads s v (.ldc w) w.e.toNat w.v.toNat (LineAddress v w))
  ∧ (∀ (s : State) (v : View) (w : MC), Issues s v (.stc w) → Stores s v (.stc w) w.e.toNat w.v.toNat (LineAddress v w))
  ∧ (∀ (s : State) (v : View) (w : MG), Issues s v (.ldg w) → Loads s v (.ldg w) w.e.toNat w.v.toNat (IndexedAddress v w))
  ∧ (∀ (s : State) (v : View) (w : MG), Issues s v (.stg w) → Stores s v (.stg w) w.e.toNat w.v.toNat (IndexedAddress v w))

/-- The atomics (R235 to R237, R240, Table 12.3): AMADD to AMFMAX are ops 0 to 12. Host space carries ADD and SWAP of 32 and 64 bits and CAS of up to 128.
Readings the model takes here: log entries 47. -/
def Obligations.AtomicWords : Prop :=
  Atomic .amadd 0 false (fun t => t ≤ 1) ∧ Atomic .amsmin 1 false (fun _ => false) ∧ Atomic .amsmax 2 false (fun _ => false)
  ∧ Atomic .amumin 3 false (fun _ => false) ∧ Atomic .amumax 4 false (fun _ => false) ∧ Atomic .amand 5 false (fun _ => false)
  ∧ Atomic .amor 6 false (fun _ => false) ∧ Atomic .amxor 7 false (fun _ => false) ∧ Atomic .amswap 8 false (fun t => t ≤ 1)
  ∧ Atomic .amcas 9 true (fun t => t ≤ 2) ∧ Atomic .amfadd 10 false (fun _ => false) ∧ Atomic .amfmin 11 false (fun _ => false)
  ∧ Atomic .amfmax 12 false (fun _ => false)

/-- LR, SC, STRED, PREF and CFLUSH (R241 to R246): LR and SC take one line, and SC and STRED carry their operands; the hints never trap, and a PREF.L1
whose line the first-level cache holds sends nothing. Readings the model takes here: log entries 47. -/
def Obligations.ReservedAndHintWords : Prop :=
  (∀ (s : State) (v : View) (w : MXW), Issues s v (.lr w) →
    let size := if w.w = 1 then 8 else 4
    MemWord s v (.lr w) size false false true (some .orderedRet) (LaneIndexAddress v w.b w.i) (fun _ => False)
      (fun j a b => ∃ lanes, b = .lr size w.v.toNat lanes ∧ ∃ l ∈ lanes, l.lane = j ∧ l.place = a) false (some (w.v.toNat, (size + 3) / 4)) fun _ _ _ => none)
  ∧ (∀ (s : State) (v : View) (w : MXW), Issues s v (.sc w) →
    let size := if w.w = 1 then 8 else 4
    MemWord s v (.sc w) size true false true (some .orderedRet) (LaneIndexAddress v w.b w.i) (fun _ => False)
      (fun j a b => ∃ lanes data, b = .sc size w.v.toNat lanes data ∧ ∃ l, (l, v.bytes w.v.toNat size j) ∈ lanes.zip data ∧ l.lane = j ∧ l.place = a)
      true (some (w.v.toNat, (size + 3) / 4)) fun _ _ _ => none)
  ∧ (∀ (s : State) (v : View) (w : MXT), Issues s v (.stred w) →
    let size := if w.t = 1 then 8 else 4
    MemWord s v (.stred w) size true false false (some .ownership) (LaneIndexAddress v w.b w.i) (fun _ => False)
      (fun j a b => ∃ parts, b = .stred w.t.toNat parts ∧ ∃ l, (l, v.dataBytes w.v.toNat size j) ∈ parts ∧ l.lane = j ∧ l.place = a)
      true none fun _ _ _ => none)
  ∧ (∀ (s : State) (v : View) (w : MXL), Issues s v (.pref w) → MemHints s v (.pref w) (LaneIndexAddress v w.b w.i)
      (fun line => w.l = 1 ∧ (s.pkg.core v.iss.core).l1Find line ≠ none) fun _ _ b => ∃ l1, b = .pref l1)
  ∧ (∀ (s : State) (v : View) (w : MXN), Issues s v (.cflush w) → MemHints s v (.cflush w) (LaneIndexAddress v w.b w.i) (fun _ => False)
      fun _ _ b => b = .cflush (decide (w.n = 1)))

/-- FENCE, CINV and WAITST (R246, R247, R254 to R256, R260). A FENCE is pending from its issue on; a release at house or system scope sends a marker down
both paths to every other stage present, and waits for each. CINV empties the first-level cache and cancels the installation of its fills in flight.
WAITST goes on when OUTST is 0 and waits otherwise; WAITST_COMPLETE lets it go on. Readings the model takes here: log entries 37, 40. -/
def Obligations.OrderingWords : Prop :=
  (∀ (s : State) (v : View) (w : MXF), Issues s v (.fence w) →
    let kind : FenceKind := if w.f = 1 then .acq else if w.f = 2 then .rel else .acqrel
    let far : Prop := kind ≠ .acq ∧ 3 ≤ w.s.toNat
    let peer := fun n : Nat => n < 4 ∧ s.pkg.stages.getLsbD n = true ∧ n ≠ v.iss.core / 64
    ∃ p u f, Performs s v (.fence w) false p u ∧ u = { v.now with fence := some f } ∧ f.kind = kind ∧ f.scope = w.s.toNat ∧ f.implied = false ∧ f.ready = 0 ∧ f.attached = false ∧ f.word = v.iss.word
      ∧ (∀ n, n < 4 → (f.stages.getLsbD n = true ↔ far ∧ peer n))
      ∧ p = { s.pkg with stage := p.stage, due := p.due }
      ∧ (∀ n, n < s.pkg.stage.length → p.stageAt n = if far ∧ peer n then
          { s.pkg.stageAt n with markers := (s.pkg.stageAt n).markers ++ [{ core := v.iss.core, slot := v.iss.slot, path := 0, arrives := s.clk.mcyc + 60, sent := s.clk.mcyc },
              { core := v.iss.core, slot := v.iss.slot, path := 1, arrives := s.clk.mcyc + 60, sent := s.clk.mcyc }] }
        else s.pkg.stageAt n))
  ∧ (∀ (s : State) (v : View) (w : C0), Issues s v (.cinv w) → ∃ p, Performs s v (.cinv w) false p v.now
      ∧ p = { s.pkg with cores := p.cores, companies := p.companies, stage := p.stage } ∧ (p.core v.iss.core).l1 = []
      ∧ (∀ c, c ≠ v.iss.core → p.core c = s.pkg.core c) ∧ (p.core v.iss.core).ctx = (s.pkg.core v.iss.core).ctx
      ∧ (∀ r, r ∈ Requests p → r.key.core = v.iss.core → ∀ n q l, r.body ≠ .load n q l true))
  ∧ (∀ (s : State) (v : View) (w : C0), Issues s v (.waitst w) →
      (v.now.outst = 0 → Performs s v (.waitst w) false s.pkg v.now)
      ∧ (v.now.outst ≠ 0 → v.iss.leader < v.now.slices.length → Waits s v (.waitst w) s.pkg v.now .waitst))
  ∧ (∀ (s : State) (core slot leader : Nat) (w : Wave) (b : Blocked), s.pkg.wave? core slot = some w → w.blockedAt leader = some b → b.op = .waitst →
      (w.outst ≠ 0 → exec (.waitstComplete core slot leader) s = .next s)
      ∧ (w.outst = 0 → ∃ u, OnWave s (.waitstComplete core slot leader) core slot u ∧ GoesOn w u leader b))

/-- The matrix words (R44, R75, R175, R182 to R185, R409): a command waits at the X pipe for the array, an MDEFER that finds its follow slot free arms it
besides as it issues, and MWAIT waits until the wave has no command outstanding. MATRIX_COMMAND_ACCEPT, MATRIX_COMMAND_COMPLETE and FOLLOW_SLOT_FIRE
(R44, R181 to R183): the array takes one command in a cycle, and none while five of its commands have still to step; a command completes when its time
has come, and an MSAVE's area is written then; an armed slot fires once, its slot is then free, and an array without room keeps it for the next cycle.
Readings the model takes here: log entries 32, 33. -/
def Obligations.MatrixWordsAndArray : Prop :=
  (∀ (s : State) (v : View) (w : MM), Issues s v (.mma w) → QueuesCommand s v (.mma w) .mma w.v.toNat w.a.toNat w.b.toNat)
  ∧ (∀ (s : State) (v : View) (w : MM), Issues s v (.mmaz w) → QueuesCommand s v (.mmaz w) .mmaz w.v.toNat w.a.toNat w.b.toNat)
  ∧ (∀ (s : State) (v : View) (w : MMLF), Issues s v (.mmap w) →
      QueuesCommand s v (.mmap w) (.mmap (decide (w.f = 1)) (decide (w.l = 1))) w.v.toNat w.a.toNat w.b.toNat)
  ∧ (∀ (s : State) (v : View) (w : MMD), Issues s v (.mdefer w) →
      let cmd : MmCmd := { key := s.pkg.keyOf v.iss.core v.iss.slot, kind := .mdefer w.s.toNat w.y.toNat, acc := w.v.toNat, ta := v.src.tiles.getD w.a.toNat 0,
                           tb := v.src.tiles.getD w.b.toNat 0, armed := true }
      let fires : MmKind := match w.y.toNat with
        | 0 => .mma
        | 1 => .mmaz
        | n => .mmap (decide (n ≠ 2 ∧ n ≠ 4)) (decide (4 ≤ n))
      let slot := (s.pkg.core v.iss.core).ctx.follow.getD w.s.toNat none
      (slot ≠ none → QueuesCommand s v (.mdefer w) (.mdefer w.s.toNat w.y.toNat) w.v.toNat w.a.toNat w.b.toNat)
      ∧ (slot = none → Performs s v (.mdefer w) false
          ((s.pkg.modCore v.iss.core fun k => { k with xq := modAt k.xq (v.iss.slot / 16) fun q => q ++ [cmd] }).modCtx v.iss.core fun x =>
            { x with follow := setAt x.follow w.s.toNat (some { cmd := { cmd with kind := fires, armed := false }, fired := false }) })
          { v.now with commands := v.now.commands + 1 }))
  ∧ (∀ (s : State) (v : View) (w : MMA1), Issues s v (.msave w) → QueuesCommand s v (.msave w) .msave w.v.toNat w.a.toNat w.a.toNat)
  ∧ (∀ (s : State) (v : View) (w : MMA1), Issues s v (.mload w) → QueuesCommand s v (.mload w) .mload w.v.toNat w.a.toNat w.a.toNat)
  ∧ (∀ (s : State) (v : View) (w : C0), Issues s v (.mwait w) →
      (v.src.commands = 0 → Performs s v (.mwait w) false s.pkg v.now)
      ∧ (v.src.commands ≠ 0 → v.iss.leader < v.now.slices.length → Waits s v (.mwait w) s.pkg v.now .mwait))
  ∧ EndsWhen .mwaitComplete .mwait fun w => w.commands = 0
  ∧ (∀ (s : State) (core bay : Nat) (cmd : MmCmd),
      let k := s.pkg.core core
      let cyc := s.clk.companies.getD (companyOf core) 0
      let room := (k.arrayQ.filter fun m => cyc < m.start + m.steps).length < 5 ∧ k.arrayAt ≠ cyc + 1
      (¬ room → exec (.matrixCommandAccept core) s = .next s)
      ∧ ((∀ b, b < 4 → k.xq.getD b [] = []) → exec (.matrixCommandAccept core) s = .next s)
      ∧ (room → bay < 4 → (k.xq.getD bay []).head? = some cmd → (∀ b, b < 4 → b ≠ bay → k.xq.getD b [] = []) →
          ∃ ptr, exec (.matrixCommandAccept core) s = .next { s with
            pkg := (s.pkg.modCore core fun k => { k with xq := modAt k.xq bay List.tail, mmPtr := ptr, arrayAt := cyc + 1 }).takeCommand core cyc cmd }))
  ∧ (∀ (s : State) (core : Nat),
      let k := s.pkg.core core
      let cyc := s.clk.companies.getD (companyOf core) 0
      ((∀ m, m ∈ k.arrayQ → cyc < m.done) → exec (.matrixCommandComplete core) s = .next s)
      ∧ (∀ (i : Nat) (cmd : MmCmd) (w : Wave), k.arrayQ[i]? = some cmd → cmd.done ≤ cyc → (∀ j m, j < i → k.arrayQ[j]? = some m → cyc < m.done) →
          cmd.key.core = core → s.pkg.waveOf? cmd.key = some w →
          ∃ t, exec (.matrixCommandComplete core) s = .next t ∧ (t.pkg.core core).arrayQ = k.arrayQ.eraseIdx i
            ∧ (t.pkg.core core).ctx.sp = (k.ctx.landSave cmd).sp ∧ (t.pkg.core core).ctx.fe = (k.ctx.landSave cmd).fe
            ∧ t.pkg.wave? core cmd.key.slot = some { w with commands := w.commands - 1 }))
  ∧ (∀ (s : State) (core fslot : Nat),
      let k := s.pkg.core core
      let cyc := s.clk.companies.getD (companyOf core) 0
      let room := (k.arrayQ.filter fun m => cyc < m.start + m.steps).length < 5 ∧ k.arrayAt ≠ cyc + 1
      (k.ctx.follow.getD fslot none = none → exec (.followSlotFire core fslot) s = .next s)
      ∧ (∀ f : Follow, k.ctx.follow.getD fslot none = some f → room → exec (.followSlotFire core fslot) s = .next { s with
          pkg := (s.pkg.modCore core fun c => { c with arrayAt := cyc + 1, ctx := { c.ctx with follow := setAt c.ctx.follow fslot none } }).takeCommand
            core cyc f.cmd })
      ∧ (∀ f : Follow, k.ctx.follow.getD fslot none = some f → ¬ room → exec (.followSlotFire core fslot) s = .next { s with
          pkg := { s.pkg.modCtx core (fun x => { x with follow := setAt x.follow fslot (some { f with fired := true }) }) with
            due := s.pkg.due ++ [{ at_ := .company (companyOf core) (cyc + 1), ev := .followSlotFire core fslot }] } }))

/-- MMA and MMAZ when the array takes them (R172, R174, R177): element (i, j) of the block becomes the sum over k of exact products, rounded once a step,
from its old value or from +0; no other register changes, and FPFLAGS does not. The array reads the scratchpad with the output of every MSAVE that it
took before. Readings the model takes here: log entries 32. -/
def Obligations.MatrixProducts : Prop :=
  (∀ (p : Package) (core cyc : Nat) (cmd : MmCmd) (w : Wave) (c : Cast), cmd.kind = .mma ∨ cmd.kind = .mmaz → cmd.key.core = core →
    p.waveOf? cmd.key = some w → p.cast? core w.cast = some c →
    let x := (p.core core).arrayView
    let m := bits cmd.ta.toNat 18 7 + 1
    let n := bits cmd.tb.toNat 18 7 + 1
    m % 8 = 0 → n % 16 = 0 → cmd.acc + m / 8 * (n / 16) ≤ w.vregs.length →
    bits cmd.ta.toNat 15 3 ≤ 4 → fmtSize (bits cmd.ta.toNat 15 3) = fmtSize (bits cmd.tb.toNat 15 3) → TileClean x c cmd.ta → TileClean x c cmd.tb →
    ∃ u : Wave, (p.takeCommand core cyc cmd).wave? core cmd.key.slot = some u ∧ u = { w with vregs := u.vregs }
      ∧ (∀ r l, r < w.vregs.length → l < 128 →
          u.v r l = if cmd.acc ≤ r ∧ r < cmd.acc + m / 8 * (n / 16) then
              let i := 8 * ((r - cmd.acc) / (n / 16)) + l / 16
              let j := 16 * ((r - cmd.acc) % (n / 16)) + l % 16
              BitVec.ofNat 32 (MatrixSum x c cmd.ta cmd.tb i j (if cmd.kind = .mma then (w.v r l).toNat else 0))
            else w.v r l))

/-- QINIT (R294 to R296). b holds BASE, DEPTH, the element size, MODE and ALLOW0; its checks come in the order of R296. Where they pass, the old queue's
region is untagged and empty, the new region is tagged and empty, and the control word holds the configuration with HEAD = TAIL = 0, ALLOW = ALLOW0.
QPUSH, QTRYPUSH, QPOP and QTRYPOP (R297 to R299). A push is admitted while ALLOW is not 0, and a pop while TAIL differs from HEAD. QPUSH answers the
TAIL before it, the TRY words 0 where they succeed and 1 where they do not; QPUSH and QPOP wait instead. RWAIT and RADV (R301, R302). The slot word
names slot, phase and, for RADV, KEEP; a slot past DEPTH, or a bit that must be 0, traps QUEUE_STATE. RWAIT reads the slot's handle once its phase
matches, with an acquire, and waits until then; RADV needs its phase, writes the handle unless KEEP, and turns the phase. -/
def Obligations.QueueAndRingWords : Prop :=
  (∀ (s : State) (v : View) (w : RAB), Issues s v (.qinit w) →
    let x := (s.pkg.core v.iss.core).ctx
    let c := v.cast
    let a := v.sc w.a.toNat
    let cfg := (v.sc w.b.toNat).toNat
    let g := a.toNat / 16
    let stop := bits cfg 0 15 + bits cfg 15 11 * 2 ^ bits cfg 26 3
    let fresh := fun n : Nat => bits cfg 0 15 ≤ n ∧ n < stop
    let o := GranuleWord x c a.toNat
    let old := fun n : Nat => x.tag c g = 3 ∧ bits o 0 15 ≤ n ∧ n < bits o 0 15 + bits o 15 11 * 2 ^ bits o 26 3
    let late : Prop := c.spsize.toNat < a.toNat + 16
    let wrong : Prop := 2 ^ 46 ≤ cfg ∨ bits cfg 15 11 = 0 ∨ 1024 < bits cfg 15 11 ∨ 6 ≤ bits cfg 26 3
      ∨ (bits cfg 29 1 = 1 ∧ (bits cfg 26 3 ≠ 0 ∨ bits cfg 30 16 ≠ 0)) ∨ (bits cfg 29 1 = 0 ∧ (bits cfg 30 16 = 0 ∨ bits cfg 15 11 < bits cfg 30 16))
    let busy : Prop := fresh g ∨ (∃ n, fresh n ∧ x.tag c n ≠ 0 ∧ ¬ old n) ∨ (x.tag c g = 3 ∧ x.queueWaited v.src.cast a = true) ∨ x.tag c g = 2
    let ok : Prop := a.toNat % 16 = 0 ∧ ¬ late
    (a.toNat % 16 ≠ 0 → Traps s v (.qinit w) { cause := .misalign, addr := a })
    ∧ (a.toNat % 16 = 0 → late → Traps s v (.qinit w) { cause := .spRange, addr := a })
    ∧ (ok → x.tag c g = 1 → Traps s v (.qinit w) { cause := .barrierState, addr := a })
    ∧ (ok → x.tag c g ≠ 1 → wrong → Traps s v (.qinit w) v.operandTrap)
    ∧ (ok → x.tag c g ≠ 1 → ¬ wrong → c.spsize.toNat < 16 * stop → Traps s v (.qinit w) { cause := .spRange, addr := BitVec.ofNat 64 (16 * stop) })
    ∧ (ok → x.tag c g ≠ 1 → ¬ wrong → 16 * stop ≤ c.spsize.toNat → busy → Traps s v (.qinit w) { cause := .queueState, addr := a })
    ∧ (ok → x.tag c g ≠ 1 → ¬ wrong → 16 * stop ≤ c.spsize.toNat → ¬ busy →
        ∃ y : CoreCtx, Performs s v (.qinit w) false (s.pkg.modCtx v.iss.core fun x => { x with sp := y.sp, fe := y.fe, spPoison := y.spPoison, tags := y.tags }) v.now
          ∧ GranuleWord y c a.toNat = cfg + bits cfg 30 16 * 2 ^ 112
          ∧ (∀ n, (n < c.spPlace a.toNat ∨ c.spPlace a.toNat + 16 ≤ n) → Memory.read y.sp n = Memory.read x.sp n)
          ∧ (∀ n, y.tag c n = if n = g then 3 else if fresh n then 2 else if old n then 0 else x.tag c n)
          ∧ (∀ n, c.granule n ∈ y.fe ↔ if n = g then True else if fresh n ∨ old n then False else c.granule n ∈ x.fe)))
  ∧ (∀ (s : State) (v : View) (w : R3), Issues s v (.qpush w) → QueueWord s v (.qpush w) (v.sc w.a.toNat) false fun x q =>
    (bits q 112 16 ≠ 0 → ElementTagged x v.cast q (bits q 96 16) →
      ∃ y, Performs s v (.qpush w) false (s.pkg.modCtx v.iss.core fun x => { x with sp := y.sp, fe := y.fe, spPoison := y.spPoison })
          (v.now.setS w.d.toNat (BitVec.ofNat 64 (bits q 96 16)))
        ∧ Pushes x y v.cast (v.sc w.a.toNat).toNat q fun j => v.vec w.b.toNat j)
    ∧ (bits q 112 16 = 0 → ∃ elem, Waits s v (.qpush w) s.pkg v.now (.qpush (v.sc w.a.toNat) elem w.d.toNat)
        ∧ ∀ j, j < 128 → elem.getD j 0 = v.vec w.b.toNat j))
  ∧ (∀ (s : State) (v : View) (w : R3), Issues s v (.qtrypush w) → QueueWord s v (.qtrypush w) (v.sc w.a.toNat) false fun x q =>
    (bits q 112 16 ≠ 0 → ElementTagged x v.cast q (bits q 96 16) →
      ∃ y, Performs s v (.qtrypush w) false (s.pkg.modCtx v.iss.core fun x => { x with sp := y.sp, fe := y.fe, spPoison := y.spPoison })
          (v.now.setS w.d.toNat 0) ∧ Pushes x y v.cast (v.sc w.a.toNat).toNat q fun j => v.vec w.b.toNat j)
    ∧ (bits q 112 16 = 0 → Performs s v (.qtrypush w) false s.pkg (v.now.setS w.d.toNat 1)))
  ∧ (∀ (s : State) (v : View) (w : R2), Issues s v (.qpop w) → QueueWord s v (.qpop w) (v.sc w.a.toNat) false fun x q =>
    (bits q 96 16 ≠ bits q 80 16 → ElementTagged x v.cast q (bits q 80 16) →
      ∃ y u, Performs s v (.qpop w) false (s.pkg.modCtx v.iss.core fun x => { x with sp := y.sp, fe := y.fe, spPoison := y.spPoison }) u
        ∧ Pops x y v.cast (v.sc w.a.toNat).toNat q ∧ TakesElement x v.cast q w.d.toNat v.now u)
    ∧ (bits q 96 16 = bits q 80 16 → Waits s v (.qpop w) s.pkg v.now (.qpop (v.sc w.a.toNat) w.d.toNat)))
  ∧ (∀ (s : State) (v : View) (w : R3), Issues s v (.qtrypop w) → QueueWord s v (.qtrypop w) (v.sc w.a.toNat) false fun x q =>
    (bits q 96 16 ≠ bits q 80 16 → ElementTagged x v.cast q (bits q 80 16) →
      ∃ y u, Performs s v (.qtrypop w) false (s.pkg.modCtx v.iss.core fun x => { x with sp := y.sp, fe := y.fe, spPoison := y.spPoison }) (u.setS w.b.toNat 0)
        ∧ Pops x y v.cast (v.sc w.a.toNat).toNat q ∧ TakesElement x v.cast q w.d.toNat v.now u)
    ∧ (bits q 96 16 = bits q 80 16 → Performs s v (.qtrypop w) false s.pkg (v.now.setS w.b.toNat 1)))
  ∧ (∀ (s : State) (v : View) (w : R3), Issues s v (.rwait w) → QueueWord s v (.rwait w) (v.sc w.a.toNat) true fun x q =>
    let n := (v.sc w.b.toNat).toNat
    let g := bits q 0 15 + bits n 0 16
    let turned := decide (v.cast.granule g ∈ x.fe) = decide (bits n 16 1 = 1)
    let wrong : Prop := 2 ^ 17 ≤ n ∨ bits q 15 11 ≤ bits n 0 16
    (wrong → Traps s v (.rwait w) { cause := .queueState, addr := v.sc w.a.toNat })
    ∧ (¬ wrong → turned → Performs s v (.rwait w) false s.pkg
        ({ v.now with fence := v.now.acquireCast.fence }.setS w.d.toNat (BitVec.ofNat 64 (ofLe (Memory.readList x.sp (v.cast.spPlace (16 * g)) 8)))))
    ∧ (¬ wrong → ¬ turned → Waits s v (.rwait w) s.pkg v.now (.rwait (v.sc w.a.toNat) (bits n 0 16) (decide (bits n 16 1 = 1)) w.d.toNat)))
  ∧ (∀ (s : State) (v : View) (w : R3), Issues s v (.radv w) → QueueWord s v (.radv w) (v.sc w.a.toNat) true fun x q =>
    let n := (v.sc w.b.toNat).toNat
    let g := bits q 0 15 + bits n 0 16
    let turned := decide (v.cast.granule g ∈ x.fe) = decide (bits n 16 1 = 1)
    let wrong : Prop := 2 ^ 18 ≤ n ∨ bits q 15 11 ≤ bits n 0 16 ∨ ¬ turned
    (wrong → Traps s v (.radv w) { cause := .queueState, addr := v.sc w.a.toNat })
    ∧ (¬ wrong → ∃ y : CoreCtx, Performs s v (.radv w) false
          (s.pkg.modCtx v.iss.core fun x => { x with sp := y.sp, fe := y.fe, spPoison := y.spPoison }) v.now
        ∧ (∀ k, k ∈ y.fe ↔ if k = v.cast.granule g then ¬ k ∈ x.fe else k ∈ x.fe)
        ∧ (bits n 17 1 = 1 → y.sp = x.sp ∧ y.spPoison = x.spPoison)
        ∧ (bits n 17 1 = 0 → GranuleWord y v.cast (16 * g) = (v.sc w.d.toNat).toNat
            ∧ ∀ k, (k < v.cast.spPlace (16 * g) ∨ v.cast.spPlace (16 * g) + 16 ≤ k) → Memory.read y.sp k = Memory.read x.sp k)))

/-- QUEUE_BLOCKED_COMMIT and RING_WAIT_COMMIT (R297, R301): a blocked word whose condition does not hold changes nothing; one whose condition holds has
its effect, and its party goes on. -/
def Obligations.BlockedQueueWords : Prop :=
  (∀ (s : State) (core slot leader : Nat) (w : Wave) (c : Cast) (b : Blocked), s.pkg.wave? core slot = some w → s.pkg.cast? core w.cast = some c →
    w.blockedAt leader = some b →
    let x := (s.pkg.core core).ctx
    (∀ a elem d, b.op = .qpush a elem d →
      let q := GranuleWord x c a.toNat
      (bits q 112 16 = 0 → exec (.queueBlockedCommit core slot leader) s = .next s)
      ∧ (bits q 112 16 ≠ 0 → a.toNat % 16 = 0 → x.tag c (a.toNat / 16) = 3 → ElementTagged x c q (bits q 96 16) → elem.length = 128 → ∃ y u,
          exec (.queueBlockedCommit core slot leader) s = .next { s with pkg := (s.pkg.modCtx core fun _ => y).modWave core slot fun _ => u }
          ∧ Pushes x y c a.toNat q (fun j => elem.getD j 0) ∧ GoesOn (w.setS d (BitVec.ofNat 64 (bits q 96 16))) u leader b))
    ∧ (∀ a d, b.op = .qpop a d →
      let q := GranuleWord x c a.toNat
      (bits q 96 16 = bits q 80 16 → exec (.queueBlockedCommit core slot leader) s = .next s)
      ∧ (bits q 96 16 ≠ bits q 80 16 → a.toNat % 16 = 0 → x.tag c (a.toNat / 16) = 3 → ElementTagged x c q (bits q 80 16) → ∃ y z u,
          exec (.queueBlockedCommit core slot leader) s = .next { s with pkg := (s.pkg.modCtx core fun _ => y).modWave core slot fun _ => u }
          ∧ Pops x y c a.toNat q ∧ TakesElement x c q d w z ∧ GoesOn z u leader b))
    ∧ (∀ a i phase d, b.op = .rwait a i phase d →
      let g := bits (GranuleWord x c a.toNat) 0 15 + i
      (decide (c.granule g ∈ x.fe) ≠ phase → exec (.ringWaitCommit core slot leader) s = .next s)
      ∧ (decide (c.granule g ∈ x.fe) = phase → ∃ u,
          OnWave s (.ringWaitCommit core slot leader) core slot u
          ∧ GoesOn ({ w with fence := w.acquireCast.fence }.setS d (BitVec.ofNat 64 (ofLe (Memory.readList x.sp (c.spPlace (16 * g)) 8)))) u leader b)))

/-- COPY and COLLECTIVE_CREATE_RETRY (R44, R276 to R279). a and a + 1 hold the chain head and the control word, b the slice; d takes the collective's
number, and the command goes to the head of its bay's X pipe. From there the engine accepts it: the arrival joins its collective, raising ENGINE 0x09
where its command differs, or creates it in the lowest free record. With no record for it the wave waits, and the retry makes the arrival once there
is one. Readings the model takes here: log entries 52. -/
def Obligations.CopyArrivals : Prop :=
  (∀ (s : State) (v : View) (w : R3), Issues s v (.copy w) →
    let head := v.sc w.a.toNat
    let ctl := v.sc (w.a.toNat + 1)
    let bar := 16 * bits ctl.toNat 10 15
    let a : CopyArgs := { head := head, ctl := ctl, slice := v.sc w.b.toNat, dest := w.d.toNat }
    let late : Prop := bits ctl.toNat 25 1 = 1 ∧ v.cast.spsize.toNat < bar + 16
    let ok : Prop := head.toNat % 64 = 0 ∧ ctl.toNat < 2 ^ 30 ∧ ¬ late
    let fits := s.pkg.recordFor v.iss.core v.now.cast v.now.nextCopy
    (head.toNat % 64 ≠ 0 → Traps s v (.copy w) { cause := .misalign, addr := head })
    ∧ (head.toNat % 64 = 0 → 2 ^ 30 ≤ ctl.toNat → Traps s v (.copy w) v.operandTrap)
    ∧ (head.toNat % 64 = 0 → ctl.toNat < 2 ^ 30 → late → Traps s v (.copy w) { cause := .spRange, addr := BitVec.ofNat 64 bar })
    ∧ (ok → fits = true → Performs s v (.copy w) false (s.pkg.modCore v.iss.core fun k => { k with cq := setAt k.cq (v.iss.slot / 16) (some { key := s.pkg.keyOf v.iss.core v.iss.slot, num := v.now.nextCopy, args := some a }) }) (Numbered v.now w.d.toNat))
    ∧ (ok → fits = false → v.iss.leader < v.now.slices.length → Waits s v (.copy w) s.pkg v.now (.create a)))
  ∧ (∀ (p : Package) (core cast : Nat) (n : BitVec 32),
      (∀ i k, HasRecord p core cast n i k → p.recordFor core cast n = true)
      ∧ (∀ i, (p.core core).cq.all Option.isNone = true → FreeRecord p core i → p.recordFor core cast n = true)
      ∧ (NoRecord p core cast n → NoFreeRecord p core → p.recordFor core cast n = false))
  ∧ (∀ (p : Package) (core slot : Nat) (n : BitVec 32) (a : CopyArgs) (w : Wave), p.wave? core slot = some w →
      (∀ i k, HasRecord p core w.cast n i k → ∃ q u, p.arrive core slot n a = some q ∧ q.wave? core slot = some u
        ∧ Arrives p q core w u i (Joined k a w) (!decide (k.head = a.head ∧ k.ctl = a.ctl)))
      ∧ (∀ i, NoRecord p core w.cast n → FreeRecord p core i → ∃ q k, p.arrive core slot n a = some q ∧ q.wave? core slot = some w
        ∧ CreatedRecord p core w n a k ∧ Arrives p q core w w i k false
        ∧ q.cast? core w.cast = (p.cast? core w.cast).map fun c => { c with cseq := c.cseq + 1 })
      ∧ (NoRecord p core w.cast n → NoFreeRecord p core → p.arrive core slot n a = none))
  ∧ (∀ (k : Clock) (p : Package) (core bay : Nat) (m : CopyCmd), bay < 4 → (∀ b, (p.core core).cq.getD b none = if b = bay then some m else none) →
      (m.args = none → ∃ ptr, p.copyAccept k core = p.modCore core fun c => { c with cq := setAt c.cq bay none, cePtr := ptr })
      ∧ (∀ a q, m.args = some a → p.arrive core m.key.slot m.num a = some q →
          ∃ ptr, p.copyAccept k core = q.modCore core fun c => { c with cq := setAt c.cq bay none, cePtr := ptr })
      ∧ (∀ a, m.args = some a → p.arrive core m.key.slot m.num a = none → p.copyAccept k core = p))
  ∧ (∀ (s : State) (core slot : Nat) (w : Wave) (b : Blocked) (a : CopyArgs), s.pkg.wave? core slot = some w → w.blockedAt w.sole = some b → b.op = .create a →
      (s.pkg.recordFor core w.cast w.nextCopy = false → exec (.collectiveCreateRetry core slot) s = .next s)
      ∧ (∀ q z, s.pkg.recordFor core w.cast w.nextCopy = true → s.pkg.arrive core slot w.nextCopy a = some q → q.wave? core slot = some z →
          ∃ u, exec (.collectiveCreateRetry core slot) s = .next { s with pkg := q.modWave core slot fun _ => u } ∧ GoesOn (Numbered z a.dest) u w.sole b))

/-- ENGWAIT and the running of a collective (R44, R258, R279, R286, R289, R292). ENGWAIT goes through its X pipe: once CDONE has passed collective a it is
released four cycles later with its status, and it waits until then. A ready collective starts in a free running slot; a paused one does nothing until
its page or walk is there; one whose walk is over frees its record, and its status, counter and barrier follow. Readings the model takes here: log
entries 52, 53. -/
def Obligations.CopyProgress : Prop :=
  (∀ (s : State) (v : View) (w : R2), Issues s v (.engwait w) → v.iss.leader < v.now.slices.length →
    let n := (v.sc w.a.toNat).setWidth 32
    let status := fun c : Cast => match c.ring.find? fun r => r.1 = n with
      | some (_, x) => BitVec.ofNat 64 (x.kind.toNat + 256 * x.code.toNat)
      | none => 3
    let q := s.pkg.modCore v.iss.core fun k => { k with cq := setAt k.cq (v.iss.slot / 16) (some { key := s.pkg.keyOf v.iss.core v.iss.slot, num := n, args := none }) }
    ∀ c, s.pkg.cast? v.iss.core v.src.cast = some c →
      ((c.cdone - n - 1).toNat < 2 ^ 31 →
        Waits s v (.engwait w) q v.now (.released w.d.toNat (status c) false false (s.clk.companies.getD (v.iss.core / 8) 0 + 4)))
      ∧ (2 ^ 31 ≤ (c.cdone - n - 1).toNat → Waits s v (.engwait w) q v.now (.engwait n w.d.toNat)))
  ∧ (∀ (s : State) (core i since j : Nat) (k : Coll), (s.pkg.core core).ctx.readyOrder = [(i, since)] → since ≠ 0 →
      since ≤ s.clk.companies.getD (companyOf core) 0 → j < 4 → (s.pkg.core core).ctx.running.length = 4 →
      (s.pkg.core core).ctx.running[j]? = some none → (∀ l, l < j → (s.pkg.core core).ctx.running[l]? ≠ some none) → s.pkg.coll? core i = some k → k.pos = none →
      exec (.collectiveStart core) s = .next { s with pkg := s.pkg.modCtx core fun x =>
        { x with readyOrder := [], running := setAt x.running j (some i), colls := setAt x.colls i (some { k with pos := some k.start }) } })
  ∧ (∀ (s : State) (core run : Nat), (s.pkg.core core).ctx.running.getD run none = none → exec (.copyRequestReturn core run) s = .next s)
  ∧ (∀ (s : State) (core run i : Nat) (k : Coll) (q : CopyPos), (s.pkg.core core).ctx.running.getD run none = some i → s.pkg.coll? core i = some k →
      k.pos = some q → (q.paused = true ∨ q.hostWait = true ∨ k.finishing = true ∨ q.toLand ≠ []) → exec (.copyRequestReturn core run) s = .next s)
  ∧ (∀ (s : State) (core run i place : Nat) (k : Coll) (q : CopyPos) (c : Cast) (z : CopySlice) (l : List CopySlice),
      (s.pkg.core core).ctx.running.getD run none = some i → s.pkg.coll? core i = some k → k.pos = some q → s.pkg.cast? core k.cast = some c →
      q.paused = false → q.hostWait = false → k.finishing = false → q.toLand = [] → q.slices = z :: l → q.body = none →
      s.pkg.xlate core c.partition (.copy core i) q.recAddr false false = .dev place → s.pkg.ahead core (place / 128) = false →
      (s.pkg.engineBytes c place 64).2 = false →
      ∃ t, exec (.copyRequestReturn core run) s = .next t ∧ t.pkg.coll? core i = some { k with pos := some { q with
        body := some (s.pkg.engineBytes c place 64).1, elem := 0, go := false, host := none, denied := false } })
  ∧ (∀ (s : State) (core i : Nat), (s.pkg.walksOver core (.copy core i) = false → exec (.copyFaultResume core i) s = .next s)
      ∧ (∀ k q, s.pkg.walksOver core (.copy core i) = true → s.pkg.coll? core i = some k → k.pos = some q →
          exec (.copyFaultResume core i) s = .next { s with pkg := s.pkg.modCtx core fun x =>
            { x with colls := setAt x.colls i (some { k with pos := some { q with paused := false, page := none } }) } }))
  ∧ (∀ (s : State) (core i : Nat) (k : Coll) (q : CopyPos) (c : Cast), s.pkg.coll? core i = some k → k.pos = some q → s.pkg.cast? core k.cast = some c →
      (k.finishing = false → exec (.collectiveComplete core i) s = .next s)
      ∧ (k.finishing = true → q.ackAt ≤ s.clk.mcyc → ∃ t, exec (.collectiveComplete core i) s = .next t ∧ t.pkg.coll? core i = none
          ∧ (bits k.ctl.toNat 0 10 ≠ 1023 → (0, DcUpdate.done core c.partition (bits k.ctl.toNat 0 10) 0) ∈ t.pkg.dcIn)
          ∧ (bits k.ctl.toNat 25 1 = 1 → .copyArrival k.cast (bits k.ctl.toNat 10 15) ((s.pkg.core core).ctx.runningAt i) ∈ (t.pkg.core core).barrier)
          ∧ ∃ y, t.pkg.cast? core k.cast = some y ∧ y = { c with cdone := c.cdone + 1, ring := ((k.num, { kind := 0, code := 0 }) :: c.ring).take 8 }))

/-- CUEEMIT and its answer (R306). s[b] names a record of 64 bytes in the scratchpad, s[a] the node. A release at house scope is started and the party
waits; the answer is written to s[d] and the party goes on. DCSET, DCDEC, DCWAIT and DCWAIT_RELEASE (R379 to R382). s[a] names a counter below 1,023;
DCSET's s[b] holds COUNT 23:0, TARGET 35:24 and TV 36, DCDEC's an amount of 1 to 2^24 − 1. The update goes to the cue unit; DCWAIT waits for its
answer, which is written with an acquire at cast scope. Readings the model takes here: log entries 58. -/
def Obligations.CueAndDependenceWords : Prop :=
  (∀ (s : State) (v : View) (w : R3), Issues s v (.cueemit w) →
    let a := v.sc w.b.toNat
    (a.toNat % 16 ≠ 0 → Traps s v (.cueemit w) { cause := .misalign, addr := a })
    ∧ (a.toNat % 16 = 0 → v.cast.spsize.toNat < a.toNat + 64 → Traps s v (.cueemit w) { cause := .spRange, addr := a })
    ∧ (a.toNat % 16 = 0 → a.toNat + 64 ≤ v.cast.spsize.toNat → v.iss.leader < v.now.slices.length →
        ∃ p u f, Waits s v (.cueemit w) p u (.cueemit (v.sc w.a.toNat)
            (Memory.readList (s.pkg.core v.iss.core).ctx.sp (v.cast.spPlace a.toNat) 64) w.d.toNat false)
          ∧ u = { v.now with fence := some f } ∧ f.kind = .rel ∧ f.scope = 3 ∧ f.implied = true ∧ f.word = v.iss.word
          ∧ (∀ n, n < 4 → (f.stages.getLsbD n = true ↔ s.pkg.stages.getLsbD n = true ∧ n ≠ v.iss.core / 64))
          ∧ p = { s.pkg with stage := p.stage, due := p.due }))
  ∧ (∀ (s : State) (core slot leader : Nat), NoAnswer s core slot leader → exec (.cueemitAnswer core slot leader) s = .next s)
  ∧ (∀ (s : State) (core slot leader k : Nat) (key : WaveKey) (status : Quad) (w : Wave) (b : Blocked) (node : Quad) (rec_ : List Byte) (d : Nat) (sent : Bool),
      AnswerAt s core slot leader k key status → s.pkg.waveOf? key = some w → w.blockedAt leader = some b → b.op = .cueemit node rec_ d sent →
      ∃ u, exec (.cueemitAnswer core slot leader) s =
          .next { s with pkg := ({ s.pkg with answers := s.pkg.answers.eraseIdx k } : Package).modWave core slot fun _ => u }
        ∧ ∃ z, GoesOn (w.setS d status) z leader b ∧ u = { z with promoted := w.promoted, promoHeld := w.promoHeld })
  ∧ (∀ (s : State) (v : View) (w : RAB), Issues s v (.dcset w) →
    let n := (v.sc w.a.toNat).toNat
    let c := (v.sc w.b.toNat).toNat
    (1023 ≤ n ∨ 2 ^ 37 ≤ c → Traps s v (.dcset w) v.operandTrap)
    ∧ (n < 1023 → c < 2 ^ 37 → SendsUpdate s v (.dcset w)
        (.set v.iss.core v.iss.slot v.cast.partition n (c % 2 ^ 24) (c / 2 ^ 24 % 2 ^ 12) (decide (c / 2 ^ 36 = 1)))))
  ∧ (∀ (s : State) (v : View) (w : RAB), Issues s v (.dcdec w) →
    let n := (v.sc w.a.toNat).toNat
    let c := (v.sc w.b.toNat).toNat
    (1023 ≤ n ∨ c = 0 ∨ 2 ^ 24 ≤ c → Traps s v (.dcdec w) v.operandTrap)
    ∧ (n < 1023 → 0 < c → c < 2 ^ 24 → SendsUpdate s v (.dcdec w) (.dec v.iss.core v.iss.slot v.cast.partition n c)))
  ∧ (∀ (s : State) (v : View) (w : R2), Issues s v (.dcwait w) →
    let n := (v.sc w.a.toNat).toNat
    let key := s.pkg.keyOf v.iss.core v.iss.slot
    (1023 ≤ n → Traps s v (.dcwait w) v.operandTrap)
    ∧ (n < 1023 → v.iss.leader < v.now.slices.length → ∃ p, Waits s v (.dcwait w) p v.now (.dcwait n w.d.toNat)
        ∧ (s.clk.mcyc + s.pkg.transit v.iss.core, .wait key v.iss.leader v.cast.partition n) ∈ p.dcIn
        ∧ p = { s.pkg with dcIn := p.dcIn, dcWaiters := p.dcWaiters, answers := p.answers, due := p.due }
        ∧ (∀ x, x ∈ p.dcWaiters ↔ x ∈ s.pkg.dcWaiters ∧ ¬ (x.1 = key ∧ x.2.1 = v.iss.leader))
        ∧ (∀ x, x ∈ p.answers ↔ x ∈ s.pkg.answers ∧ ¬ (x.1 = key ∧ x.2.1 = v.iss.leader))))
  ∧ (∀ (s : State) (core slot leader : Nat), NoAnswer s core slot leader → exec (.dcwaitRelease core slot leader) s = .next s)
  ∧ (∀ (s : State) (core slot leader k : Nat) (key : WaveKey) (status : Quad) (w : Wave) (b : Blocked) (n d : Nat),
      AnswerAt s core slot leader k key status → s.pkg.waveOf? key = some w → w.blockedAt leader = some b → b.op = .dcwait n d →
      ∃ u, exec (.dcwaitRelease core slot leader) s =
          .next { s with pkg := ({ s.pkg with answers := s.pkg.answers.eraseIdx k } : Package).modWave core slot fun _ => u }
        ∧ GoesOn ({ w with fence := w.acquireCast.fence }.setS d status) u leader b)

/-- The cue unit (R39, R40, R305 to R309, R379 to R382): with nothing arrived it changes nothing; a CUEEMIT that its node refuses, or a record that it
appends, is answered after the transit and one cycle; an update of a dependence counter sets it, or lowers it to 0 at least; a node forms a batch of
its threshold; and a host record that a node refuses is counted. The node table (R327, R363): the host writes an entry while it is neither open nor
committed, commits and withdraws it while it is not open, and clears NODERC. Readings the model takes here: log entries 46, 54, 55, 94. -/
def Obligations.CueUnitAndNodes : Prop :=
  (∀ s : State, (∀ a, a ∈ s.pkg.cueIn → s.clk.mcyc < a.1) → exec .cueAppend s = .next s)
  ∧ (∀ (s : State) (at_ leader part from_ : Nat) (key : WaveKey) (node : Quad) (rec_ : List Byte) (l : Option LaunchKey), at_ ≤ s.clk.mcyc →
      s.pkg.cueIn = [(at_, .emit key leader part from_ node rec_ l)] →
      let n := s.pkg.node part node.toNat
      let back := s.clk.mcyc + s.pkg.transit key.core + 1
      let status : Nat := if 4096 ≤ node.toNat ∨ n.valid = false ∨ n.fault = true ∨ from_ ∉ n.prods ∨ (s.pkg.node part from_).valid = false then 1 else if n.cqcap ≤ (n.cqtail - n.cqhead).toNat + n.cqres then 2 else 0
      ∃ t, exec .cueAppend s = .next t ∧ (key, leader, back, BitVec.ofNat 64 status) ∈ t.pkg.answers ∧ t.pkg.cueIn = []
        ∧ { at_ := .mesh back, ev := .cueemitAnswer key.core key.slot leader } ∈ t.pkg.due
        ∧ (status ≠ 0 → t.pkg.parts = s.pkg.parts ∧ t.pkg.dram = s.pkg.dram)
        ∧ (status = 0 → l = none → ∃ m, t.pkg.node part node.toNat = m ∧ m.cqtail = n.cqtail + 1 ∧ m.open_ = true ∧ m.cqhead = n.cqhead
            ∧ m.launchid = if n.open_ then n.launchid else n.launches))
  ∧ (∀ s : State, (∀ a, a ∈ s.pkg.cueIn → s.clk.mcyc < a.1) → (∀ a, a ∈ s.pkg.dcIn → s.clk.mcyc < a.1) → s.pkg.dcWaiters = [] → exec .dcUpdate s = .next s)
  ∧ (∀ (s : State) (at_ core slot part n amount : Nat), (∀ a, a ∈ s.pkg.cueIn → s.clk.mcyc < a.1) → at_ ≤ s.clk.mcyc → part < s.pkg.parts.length →
      s.pkg.dcIn = [(at_, .dec core slot part n amount)] → (s.pkg.dcAt part n).tv = false →
      ∃ t, exec .dcUpdate s = .next t ∧ t.pkg.dcIn = []
        ∧ t.pkg.dcAt part n = { s.pkg.dcAt part n with count := (s.pkg.dcAt part n).count - amount })
  ∧ (∀ (s : State) (at_ core slot part n count target : Nat) (tv : Bool), (∀ a, a ∈ s.pkg.cueIn → s.clk.mcyc < a.1) → at_ ≤ s.clk.mcyc →
      part < s.pkg.parts.length → s.pkg.dcIn = [(at_, .set core slot part n count target tv)] →
      ∃ t, exec .dcUpdate s = .next t ∧ t.pkg.dcIn = [] ∧ t.pkg.dcAt part n = { status := 0, tv := tv, target := target, count := count })
  ∧ (∀ (s : State) (part node : Nat), s.pkg.batchSize part node = 0 → exec (.batchFormation part node) s = .next s)
  ∧ (∀ (s : State) (part node b : Nat), part < s.pkg.parts.length → s.pkg.batchSize part node = b → b ≠ 0 →
      let n := s.pkg.node part node
      ∃ t e, exec (.batchFormation part node) s = .next t ∧ t.pkg.casts = s.pkg.casts ++ [e] ∧ e.part = part ∧ e.node = node ∧ e.batchn = b
        ∧ e.castindex = n.batches ∧ e.launchid = n.launchid ∧ e.state = .pending
        ∧ t.pkg.node part node = { n with cqform := n.cqform + BitVec.ofNat 7 b, batches := n.batches + 1 })
  ∧ (∀ (s : State) (part node : Nat), s.pkg.mayRetire part node = false → exec (.nodeRetirement part node) s = .next s)
  ∧ (∀ (s : State) (part node : Nat), s.pkg.mayRetire part node = true → part < s.pkg.parts.length →
      ∃ t, exec (.nodeRetirement part node) s = .next t ∧ t.pkg.node part node = { s.pkg.node part node with open_ := false, retired := true, closed := false })
  ∧ (∀ (s : State) (k node : Nat) (data : List Byte),
      let n := s.pkg.node k node
      (data.length ≠ n.recsz ∨ n.valid = false ∨ n.prodcnt ≠ 0 ∨ n.fault = true ∨ n.closed = true ∨ n.full = true) →
        exec (.cuePush k node data) s = .next (WithNode s k node { n with cqdrop := min 65535 (n.cqdrop + 1) }))
  ∧ (∀ (s : State) (k node : Nat) (data : List Byte), k < s.pkg.parts.length →
      let n := s.pkg.node k node
      data.length = n.recsz → n.valid = true → n.prodcnt = 0 → n.fault = false → n.closed = false → n.full = false →
        ∃ t, exec (.cuePush k node data) s = .next t ∧ (t.pkg.node k node).cqtail = n.cqtail + 1 ∧ (t.pkg.node k node).open_ = true
          ∧ (t.pkg.node k node).cqdrop = n.cqdrop)
  ∧ (∀ (s : State) (k node : Nat) (x : Quad),
      let n := s.pkg.node k node
      (x ≠ 1 ∨ n.valid = false ∨ n.prodcnt ≠ 0 ∨ n.fault = true → exec (.cueClose k node x) s = .next s)
      ∧ (k < s.pkg.parts.length → x = 1 → n.valid = true → n.prodcnt = 0 → n.fault = false →
          ∃ t, exec (.cueClose k node x) s = .next t ∧ t.pkg.node k node = { n with closed := true }))
  ∧ (∀ (s : State) (k node : Nat) (x : Quad),
    let n := s.pkg.node k node
    (n.open_ = true ∨ x.getLsbD 0 = false → exec (.nodeCommit k node x) s = .next s)
    ∧ (n.open_ = false → x.getLsbD 0 = true →
        exec (.nodeCommit k node x) s = .next (WithNode s k node { EntryWith n 248 8 1 with checked := false })))
  ∧ (∀ (s : State) (k node : Nat),
    let n := s.pkg.node k node
    (n.open_ = true → exec (.nodeWithdraw k node) s = .next s)
    ∧ (n.open_ = false → exec (.nodeWithdraw k node) s = .next (WithNode s k node (EntryWith n 248 8 (n.ctrl - n.ctrl % 2)))))
  ∧ (∀ (s : State) (k node off : Nat) (x : Quad),
    let n := s.pkg.node k node
    let ignored : Prop := n.open_ = true ∨ n.valid = true ∨ 248 ≤ off ∨ off % 8 ≠ 0
    (ignored → exec (.nodeEntryWrite k node off x) s = .next s)
    ∧ (¬ ignored → exec (.nodeEntryWrite k node off x) s = .next (WithNode s k node (EntryWith n off 8 x.toNat))))
  ∧ (∀ (s : State) (k node : Nat), exec (.nodercClear k node) s = .next (WithNode s k node { s.pkg.node k node with noderc := 0 }))

/-- WAIT_TIMEOUT and TRAP_DELIVERY (R60, R160, R161): a timed wait whose count exceeds the cycle's WAITLIMIT, where that is not 0, traps at its word; a
trap that is due goes to its party's next word, one at a time and not in handler mode, or is dropped and counted where no slice of its party lives.
SLEEP_END, WAVE_PROMOTION and PROMOTION_END (R58, R59, R158): a slice in its last cycle of sleep wakes; a wave that has been ready for 256 cycles
rises one class, to class 3 at most, and falls back after 4,096 cycles. Readings the model takes here: log entries 22, 23, 25. -/
def Obligations.TrapsAndWaveClock : Prop :=
  (∀ (s : State) (core slot leader : Nat) (w : Wave) (c : Cast) (b : Blocked), s.pkg.wave? core slot = some w → s.pkg.cast? core w.cast = some c →
      w.blockedAt leader = some b →
      (w.limit = 0 ∨ b.count ≤ w.limit.toNat → exec (.waitTimeout core slot leader) s = .next s)
      ∧ (b.op.timed = true → w.limit ≠ 0 → w.limit.toNat < b.count → exec (.waitTimeout core slot leader) s = .next { s with pkg :=
          ((s.pkg.abandon core slot leader).deliver s.clk { core := core, slot := slot, leader := leader, slices := b.slices, cause := .waitTimeout, word := c.slotOf b.word, epc := b.word, addr := 0, lanes := w.activeOf b.slices, window := false }).modWave core slot Wave.regangLeft }))
  ∧ (∀ (s : State) (core slot : Nat) (w : Wave), s.pkg.wave? core slot = some w → w.due = [] ∨ w.handling = true ∨ w.park ≠ none →
      exec (.trapDelivery core slot) s = .next s)
  ∧ (∀ (s : State) (core slot l : Nat) (w : Wave) (t : AsyncTrap) (rest : List AsyncTrap) (x : Slice), s.pkg.wave? core slot = some w → w.handling = false →
      w.park = none → w.due = t :: rest → w.slices[t.leader]? = some x → x.leader.toNat = l →
      let q := s.pkg.modWave core slot fun w => { w with due := rest }
      (w.party l = [] → exec (.trapDelivery core slot) s = .next { s with pkg := q.count (Config.errTRAPDROP + core) Config.max16 })
      ∧ (∀ pc, w.party l ≠ [] → w.blockedAt l = none → w.issueCounter l = some pc → s.pkg.midWindow core slot l = false → x.late = none →
          exec (.trapDelivery core slot) s = .next { s with pkg := q.deliver s.clk { core := core, slot := slot, leader := l, slices := w.issuing l, cause := t.cause, word := 0, epc := pc, addr := t.addr, lanes := t.lanes, window := false } }))
  ∧ (∀ (s : State) (core slot slice : Nat) (w : Wave), s.pkg.wave? core slot = some w → ∃ u, OnWave s (.sleepEnd core slot slice) core slot u
      ∧ SlicesBecome w u fun k x y => y = if k = slice ∧ x.sleep = 1 then { x with sleep := 0 } else x)
  ∧ (∀ (s : State) (core slot : Nat) (w : Wave) (c : Cast), s.pkg.wave? core slot = some w → s.pkg.cast? core w.cast = some c →
      (w.starve < 256 → exec (.wavePromotion core slot) s = .next s)
      ∧ (256 ≤ w.starve → OnWave s (.wavePromotion core slot) core slot
          (if c.prio + w.promoted < 3 then { w with starve := 0, promoted := w.promoted + 1, promoHeld := 0 } else { w with starve := 0 }))
      ∧ OnWave s (.promotionEnd core slot) core slot
          (if w.promoted ≠ 0 ∧ 4096 ≤ w.promoHeld then { w with promoted := 0, promoHeld := 0 } else w))

/-- VXCHG_MATCH and FENCE_PERFORMED (R146 to R148, R255, R256, R306): two waves whose tokens have met hold each other's lanes, and each lands them after
its own latency; a fence whose conditions hold is over, empties the first-level cache if it acquires at company scope or wider, and sends the cue it
preceded. Readings the model takes here: log entries 50, 51. -/
def Obligations.MeetingEvents : Prop :=
  (∀ (s : State) (core slot leader : Nat) (w : Wave) (b : Blocked) (x : XchgArgs), s.pkg.wave? core slot = some w → XchgWaits w leader b x →
      (∀ t, t ∈ (s.pkg.core core).tokens → t.src ≠ x.partner ∨ t.dst ≠ s.pkg.keyOf core slot ∨ t.tag ≠ x.tag) →
      exec (.vxchgMatch core slot leader) s = .next s)
  ∧ (∀ (s : State) (core slot leader slot2 leader2 : Nat) (w w2 : Wave) (b b2 : Blocked) (x x2 : XchgArgs) (t1 t2 : Token),
      let core2 := x.partner.core
      s.pkg.wave? core slot = some w → XchgWaits w leader b x → s.pkg.wave? core2 slot2 = some w2 → XchgWaits w2 leader2 b2 x2 →
      ¬ (core = core2 ∧ slot = slot2) → x.partner = s.pkg.keyOf core2 slot2 →
      (s.pkg.core core).tokens.find? (fun t => t.src = x.partner && t.dst = s.pkg.keyOf core slot && t.tag = x.tag) = some t2 → t2.leader = leader2 →
      (s.pkg.core core2).tokens.find? (fun t => t.src = s.pkg.keyOf core slot && t.dst = x.partner && t.tag = x.tag) = some t1 → t1.leader = leader →
      let n := (s.pkg.company (core / 8)).level
      let n2 := (s.pkg.company (core2 / 8)).level
      let h := hopsBetween core core2
      let first := fun (m level : Nat) => s.clk.companies.getD m 0 + if (16 + level) * s.clk.num % s.clk.den = 0 then 0 else 1
      ∃ t u u2 l, exec (.vxchgMatch core slot leader) s = .next t ∧ t.pkg.wave? core slot = some u ∧ t.pkg.wave? core2 slot2 = some u2
        ∧ u.blockedAt leader = some { b with op := .xchg x (some (x2.snapshot, x2.act)) }
        ∧ u2.blockedAt leader2 = some { b2 with op := .xchg x2 (some (x.snapshot, x.act)) }
        ∧ (∀ d, d ∈ l → ∃ c i j, d = { at_ := .now, ev := .vxchgMatch c i j })
        ∧ t.pkg.due = s.pkg.due ++ l ++ [{ at_ := .company (core / 8) (first (core / 8) n + xchgLatency n n2 h), ev := .vxchgComplete core slot leader },
            { at_ := .company (core2 / 8) (first (core2 / 8) n2 + xchgLatency n2 n h), ev := .vxchgComplete core2 slot2 leader2 }])
  ∧ (∀ (s : State) (core slot : Nat) (w : Wave), s.pkg.wave? core slot = some w →
      (w.fence = none → exec (.fencePerformed core slot) s = .next s)
      ∧ (∀ f, w.fence = some f → ¬ FenceOver w f s.clk.mcyc → exec (.fencePerformed core slot) s = .next s)
      ∧ (∀ f, w.fence = some f → FenceOver w f s.clk.mcyc → f.implied = false → ∃ p, exec (.fencePerformed core slot) s =
            .next { s with pkg := p.modWave core slot fun _ => { w with fence := none } }
          ∧ if f.kind ≠ .rel ∧ 1 ≤ f.scope then p = { s.pkg with cores := p.cores, companies := p.companies, stage := p.stage } ∧ (p.core core).l1 = []
              ∧ ∀ c, c ≠ core → p.core c = s.pkg.core c
            else p = s.pkg)
      ∧ (∀ f b c node rec_ d sent, w.fence = some f → FenceOver w f s.clk.mcyc → f.implied = true → f.kind = .rel → w.blockedAt w.sole = some b →
          b.op = .cueemit node rec_ d sent → s.pkg.cast? core w.cast = some c →
          ∃ t u, exec (.fencePerformed core slot) s = .next t ∧ t.pkg.wave? core slot = some u ∧ u.fence = none
            ∧ t.pkg.cueIn = s.pkg.cueIn ++ [(s.clk.mcyc + s.pkg.transit core,
                .emit (s.pkg.keyOf core slot) w.sole c.partition c.node node rec_ c.launchKey)]))

/-- ATTACH_WAIT_RETRY, ATTACH_CYCLE_BREAK, BARRIER_RELEASE and BANK_FAILURE (R47, R52, R218, R224, R337, R338). A request is decided in the order of R337:
the cast's limit, the wave slots, the roles, the register units; a refused ATTACH.WAIT waits on but for the first. Readings the model takes here: log
entries 31, 34. -/
def Obligations.MembershipEvents : Prop :=
  (∀ (s : State) (core slot : Nat) (w : Wave) (c : Cast) (b : Blocked) (a : AttachArgs) (wait : Bool), s.pkg.wave? core slot = some w →
      s.pkg.cast? core w.cast = some c → w.blockedAt w.sole = some b → b.op = .attach a wait →
      let x := (s.pkg.core core).ctx
      let cyc := s.clk.companies.getD (core / 8) 0
      let size := c.regcount.toNat / 8
      let refused := fun code : Nat => if wait = true ∧ code ≠ 3 then exec (.attachWaitRetry core slot) s = .next s
        else ∃ u, OnWave s (.attachWaitRetry core slot) core slot u ∧ GoesOn (w.setS a.dest (BitVec.ofNat 64 (code + 256 * c.nwaves.toNat))) u w.sole b
      (cyc < a.due → exec (.attachWaitRetry core slot) s = .next s)
      ∧ (a.due ≤ cyc → c.maxw < c.nwaves.toNat + a.n → refused 3)
      ∧ (a.due ≤ cyc → c.nwaves.toNat + a.n ≤ c.maxw → (x.waves.filter Option.isNone).length < a.n → refused 1)
      ∧ (a.due ≤ cyc → c.nwaves.toNat + a.n ≤ c.maxw → a.n ≤ (x.waves.filter Option.isNone).length → x.rolesOk a.role a.n = false → refused 2)
      ∧ (a.due ≤ cyc → c.nwaves.toNat + a.n ≤ c.maxw → a.n ≤ (x.waves.filter Option.isNone).length → x.rolesOk a.role a.n = true →
          freeRuns x.units size w.cast a.n = none → refused 4)
      ∧ (∀ runs, a.due ≤ cyc → c.nwaves.toNat + a.n ≤ c.maxw → a.n ≤ (x.waves.filter Option.isNone).length → x.rolesOk a.role a.n = true →
          freeRuns x.units size w.cast a.n = some runs → ∃ t u, exec (.attachWaitRetry core slot) s = .next t ∧ t.pkg.wave? core slot = some u
            ∧ (a.dest < w.sregs.length → u.s a.dest = BitVec.ofNat 64 (256 * (c.nwaves.toNat + a.n)))
            ∧ u.blockedAt w.sole = none ∧ t.pkg.cast? core w.cast = some { c with nwaves := c.nwaves + BitVec.ofNat 7 a.n }))
  ∧ (∀ (s : State) (core : Nat), (s.pkg.core core).ctx.cycleVictim (s.clk.companies.getD (core / 8) 0) = none → exec (.attachCycleBreak core) s = .next s)
  ∧ (∀ (s : State) (core slot : Nat) (a : AttachArgs) (c : Cast) (w : Wave) (b : Blocked),
      (s.pkg.core core).ctx.cycleVictim (s.clk.companies.getD (core / 8) 0) = some (slot, a, c) → s.pkg.wave? core slot = some w → w.blockedAt w.sole = some b →
      ∃ u, OnWave s (.attachCycleBreak core) core slot u ∧ GoesOn (w.setS a.dest (BitVec.ofNat 64 (5 + 256 * c.nwaves.toNat))) u w.sole b)
  ∧ (∀ (s : State) (core : Nat), (∀ (slot : Nat) (w : Wave) (b : Blocked) (d : Nat) (x : Quad) (ends sync : Bool) (due : Nat), s.pkg.wave? core slot = some w →
        w.blockedAt w.sole = some b → b.op = .released d x ends sync due → s.clk.companies.getD (core / 8) 0 < due) →
      exec (.barrierRelease core) s = .next s)
  ∧ (∀ (s : State) (core slot : Nat) (w : Wave) (b : Blocked) (d : Nat) (x : Quad) (sync : Bool) (due : Nat), slot < 64 → s.pkg.wave? core slot = some w →
      w.blockedAt w.sole = some b → b.op = .released d x false sync due → due ≤ s.clk.companies.getD (core / 8) 0 →
      (∀ (k : Nat) (w : Wave) (b : Blocked) (d : Nat) (x : Quad) (ends sync : Bool) (due : Nat), k ≠ slot → s.pkg.wave? core k = some w →
        w.blockedAt w.sole = some b → b.op = .released d x ends sync due → s.clk.companies.getD (core / 8) 0 < due) →
      ∃ z u, OnWave s (.barrierRelease core) core slot u ∧ GoesOn (w.setS d x) z w.sole b
        ∧ u = { z with fence := w.acquireCast.fence, syncwait := if sync then none else w.syncwait })
  ∧ (∀ (s : State) (core slot : Nat) (w : Wave) (b : Blocked) (d : Nat) (x : Quad) (sync : Bool) (due : Nat), slot < 64 → s.pkg.wave? core slot = some w →
      w.blockedAt w.sole = some b → b.op = .released d x true sync due → due ≤ s.clk.companies.getD (core / 8) 0 →
      (∀ k, k ≠ slot → s.pkg.wave? core k = none) → exec (.barrierRelease core) s = .next { s with pkg := s.pkg.endWave core slot })
  ∧ (∀ (s : State) (core row group : Nat), core < s.pkg.cores.length → ∃ t, exec (.bankFailure core row group) s = .next t
      ∧ (∀ n, n ∈ (t.pkg.core core).ctx.spPoison ↔ n ∈ (s.pkg.core core).ctx.spPoison
          ∨ ∃ i, i < 256 ∧ n = 256 * row + i ∧ (i ^^^ ((match (s.pkg.core core).ctx.castOfRow row with | some c => row - c.sprow | none => row) % 256)) / 16 = group)
      ∧ (t.pkg.core core).ctx.sp = (s.pkg.core core).ctx.sp)

/-- A store performed at its home (R225, R228, R250): each byte written reads as written and every other byte of the line as before; a sector that was
poisoned takes no part of it unless all of it is written. -/
def Obligations.HomeStores : Prop :=
  (∀ (p : Package) (part line : Nat) (bytes : List (Nat × Byte)), (p.lineNow line).data.length = 128 → bytes.Pairwise (fun a b => a.1 ≠ b.1) →
    (∀ b, b ∈ bytes → b.1 < 128) →
    let whole := fun h : Nat => ∀ i, i < 64 → ∃ b, b ∈ bytes ∧ b.1 = 64 * h + i
    let taken := fun i : Nat => (p.lineNow line).poison.getLsbD (i / 64) = false ∨ whole (i / 64)
    ∀ i, i < 128 →
      (∀ b, (i, b) ∈ bytes → taken i → (p.storeLine part line bytes).readByte (128 * line + i) = b)
      ∧ ((∀ b, (i, b) ∉ bytes) ∨ ¬ taken i → (p.storeLine part line bytes).readByte (128 * line + i) = p.readByte (128 * line + i))
      ∧ ((p.storeLine part line bytes).poisonedAt (128 * line + i) = true ↔ p.poisonedAt (128 * line + i) = true ∧ ¬ whole (i / 64)))

/-- The requests and replies of memory (R27, R225, R227, R228, R231, R238, R240, R250, R389): a slice applies the request that has arrived, and a fill
those that waited for its line; a company reads one entry of its crossing FIFO in a cycle; an acknowledgement lowers OUTST, and OUTL for a line of its
own stage; data that are read reach the registers 15 company cycles later, in the lanes they are for; a host-space load goes to its core. Readings the
model takes here: log entries 37, 99. -/
def Obligations.MemoryEvents : Prop :=
  (∀ (s : State) (m : Nat), (∀ r, r ∈ (s.pkg.company m).inq → s.clk.mcyc < r.arrives) → exec (.sliceRequest m) s = .next s)
  ∧ (∀ (s : State) (m : Nat) (r : Req), m < s.pkg.companies.length → (s.pkg.company m).inq = [r] → r.arrives ≤ s.clk.mcyc → r.staged = none → s.pkg.homeOf r.line = m →
      (s.pkg.company m).stageWait = [] → (∀ x, x ∈ (s.pkg.company m).stalled → x.line ≠ r.line) → (s.pkg.l2Find r.line).isSome = true →
      exec (.sliceRequest m) s = .next { s with pkg := (s.pkg.modCompany m fun c => { c with inq := [] }).applyReq s.clk r })
  ∧ (∀ (s : State) (m : Nat), (∀ f, f ∈ (s.pkg.company m).fills → f.2 = 0 ∨ s.clk.mcyc < f.2) → exec (.l2Fill m) s = .next s)
  ∧ (∀ (s : State) (m line at_ : Nat) (r : Req), (s.pkg.company m).fills = [(line, at_)] → at_ ≠ 0 → at_ ≤ s.clk.mcyc → (s.pkg.company m).stalled = [r] → r.line = line →
      exec (.l2Fill m) s = .next { s with pkg := ((s.pkg.modCompany m fun c => { c with fills := [], stalled := [] }).touchLine r.part line).applyReq s.clk r })
  ∧ (∀ (s : State) (core : Nat), (∀ r, r ∈ (s.pkg.core core).replies → r.due = none → s.clk.mcyc < r.arrives) →
      exec (.storeAck core) s = .next s ∧ (NoLanding s core → exec (.loadReturn core) s = .next s))
  ∧ (∀ (s : State) (core i : Nat) (r : Reply) (data : Bool), FirstReply s core i r data → ¬ ReadsNow s core r → (data = true → NoLanding s core) →
      let ev : Instr := if data = true then .loadReturn core else .storeAck core
      exec ev s = .next { s with pkg := s.pkg.later (.company (companyOf core) (s.clk.cycleOf (companyOf core) + 1)) ev })
  ∧ (∀ (s : State) (core i : Nat) (r : Reply) (w : Wave), FirstReply s core i r false → ReadsNow s core r → s.pkg.waveOf? r.key = some w →
      (∀ own, r.body = .ack own → ∃ u, Acked w u own ∧ exec (.storeAck core) s = .next (ReplyTaken s core i r u))
      ∧ (r.body = .hostAck → ∃ u, Acked w u false ∧ exec (.storeAck core) s = .next (ReplyTaken s core i r { u with hostOut := w.hostOut - 1 }))
      ∧ (∀ lanes own, r.body = .poison lanes own → lanes ≠ [] → ∃ (t : AsyncTrap) (u : Wave), Acked w u own
          ∧ exec (.storeAck core) s = .next (ReplyTaken s core i r { u with due := w.due ++ [t] })
          ∧ t.cause = .poison ∧ t.leader = r.leader ∧ ∀ j, j < 128 → (t.lanes.getLsbD j = true ↔ ∃ l, l ∈ lanes ∧ l.lane = j)))
  ∧ (∀ (s : State) (core i : Nat) (r : Reply), NoLanding s core → FirstReply s core i r true → ReadsNow s core r →
      let at_ := s.clk.cycleOf (companyOf core) + 15
      exec (.loadReturn core) s = .next { s with pkg := ((FifoRead s core).modCore core fun c =>
        { c with replies := c.replies.set i { r with due := some at_ } }).later (.company (companyOf core) at_) (.loadReturn core) })
  ∧ (∀ (s : State) (core i id : Nat) (r : Reply) (w : Wave) (regs : List (Nat × Nat × Word)) (fill : Option Line), FirstLanding s core i r →
      s.pkg.waveOf? r.key = some w → r.body = .data id regs [] fill none →
      ∃ t u, exec (.loadReturn core) s = .next t ∧ t.pkg.wave? r.key.core r.key.slot = some u ∧ Returned w u regs
        ∧ u = { w with vregs := u.vregs, pending := u.pending }
        ∧ u.pending = (w.pending.map fun q => if q.id = id then { q with left := q.left - 1 } else q).filter (fun q => q.left ≠ 0)
        ∧ (∀ x, fill = some x → (∀ c, c ∈ (s.pkg.core core).l1 → c.ways.length = 8) → ∃ y, (t.pkg.core core).l1Find x.line = some y ∧ y.data = x.data)
        ∧ (fill = none → (t.pkg.core core).l1 = (s.pkg.core core).l1))
  ∧ (∀ (s : State) (tag : Nat) (data : List Byte), s.pkg.pcieWait? tag = none → exec (.atomicopCompletion tag data) s = .next s
      ∧ (tag ∉ s.pkg.reads → exec (.hostReadCompletion tag data) s = .next s)
      ∧ (tag ∈ s.pkg.reads → s.pkg.readQ = [] → exec (.hostReadCompletion tag data) s = .next { s with pkg := { s.pkg with reads := s.pkg.reads.erase tag } })
      ∧ (∀ e rest, tag ∈ s.pkg.reads → s.pkg.readQ = e :: rest → exec (.hostReadCompletion tag data) s = .next { s with pkg := ({ s.pkg with reads := s.pkg.reads.erase tag, readQ := rest } : Package).later .now (.egressTransaction 0 e) }))
  ∧ (∀ (s : State) (tag leader id n reg base : Nat) (key : WaveKey) (lanes : List LaneAddr) (data : List Byte),
      s.pkg.pcieWait? tag = some (.load key leader id n reg lanes base) → ∃ t r, exec (.hostReadCompletion tag data) s = .next t
        ∧ (t.pkg.core key.core).replies = (s.pkg.core key.core).replies ++ (if key.core < s.pkg.cores.length then [r] else []) ∧ r.key = key ∧ r.leader = leader
        ∧ r.arrives = s.clk.mcyc + s.pkg.transit key.core / 2
        ∧ r.body = .data id (lanes.flatMap fun l => regsOfBytes reg l.lane ((List.range n).map fun i => data.getD (l.addr.toNat - base + i) 0)) [] none none)
  ∧ (∀ (s : State) (tag leader id ty addr pasid part reg : Nat) (key : WaveKey) (todo : List AtomLane) (data : List Byte) (w : Wave),
      s.pkg.pcieWait? tag = some (.atomic key leader id 0 ty addr pasid part todo [] false reg) → s.pkg.waveOf? key = some w →
      ∃ u, Acked w u false ∧ exec (.atomicopCompletion tag data) s =
        .next { s with pkg := (s.pkg.dropTag tag).modWave key.core key.slot fun _ => { u with hostOut := w.hostOut - 1 } })

/-- Flush markers and gather entries, and the release of an ordered cast (R260, R263, R377, R378, R56). Readings the model takes here: log entries 40, 56,
57. -/
def Obligations.OrderingEvents : Prop :=
  (∀ (s : State) (stage : Nat), (∀ m, m ∈ (s.pkg.stageAt stage).markers → s.clk.mcyc < m.arrives) → exec (.flushMarkerArrival stage) s = .next s)
  ∧ (∀ (s : State) (stage : Nat) (m : Marker) (l : List Marker), (s.pkg.stageAt stage).markers = m :: l → m.arrives ≤ s.clk.mcyc → stage < s.pkg.stage.length →
      (s.pkg.stageAt stage).gather = [] → exec (.flushMarkerArrival stage) s = .next { s with pkg := s.pkg.modStage stage fun x =>
        { x with markers := l, gather := [{ core := m.core, slot := m.slot, paths := BitVec.ofNat 2 (2 ^ m.path), from_ := m.core / 64, sent := m.sent }] } })
  ∧ (∀ (s : State) (stage : Nat) (m : Marker) (l : List Marker) (g : Gather), (s.pkg.stageAt stage).markers = m :: l → m.arrives ≤ s.clk.mcyc →
      (s.pkg.stageAt stage).gather = [g] → g.core = m.core → g.slot = m.slot →
      exec (.flushMarkerArrival stage) s = .next { s with pkg := s.pkg.modStage stage fun x =>
        { x with markers := l, gather := [{ g with paths := g.paths ||| BitVec.ofNat 2 (2 ^ m.path) }] } })
  ∧ (∀ (s : State) (stage : Nat), s.pkg.gatherReady stage = none → exec (.gatherReply stage) s = .next s)
  ∧ (∀ (s : State) (stage : Nat) (g : Gather) (w : Wave) (f : Fence), s.pkg.gatherReady stage = some g → s.pkg.wave? g.core g.slot = some w → w.fence = some f →
      ∃ t, exec (.gatherReply stage) s = .next t ∧ t.pkg.wave? g.core g.slot = some { w with fence := some { f with
          stages := f.stages &&& ~~~BitVec.ofNat 4 (2 ^ stage), ready := max f.ready (s.clk.mcyc + 60) } }
        ∧ { at_ := .mesh (s.clk.mcyc + 60), ev := .fencePerformed g.core g.slot } ∈ t.pkg.due)
  ∧ (∀ (s : State) (i : Nat), s.pkg.ticket? i = none → exec (.ticketRelease i) s = .next s ∧ exec (.ticketAdvance i) s = .next s)
  ∧ (∀ (s : State) (i : Nat) (x : Ticket), s.pkg.ticket? i = some x →
      (s.pkg.goneCast x.key = none ∨ x.tkpend ≠ 0 ∨ s.pkg.castInFlight x.key = true → exec (.ticketRelease i) s = .next s)
      ∧ (∀ killed, s.pkg.goneCast x.key = some killed → x.tkpend = 0 → s.pkg.castInFlight x.key = false → ∃ t y, exec (.ticketRelease i) s = .next t ∧ t.pkg.ticket? i = some y
          ∧ y = { x with tkpend := y.tkpend, killed := killed, reported := 0 } ∧ (∀ m, m < 32 → (y.tkpend.getLsbD m = true ↔ s.pkg.stages.getLsbD (m / 8) = true))
          ∧ (s.clk.mcyc, .release x.key killed) ∈ t.pkg.cueIn)
      ∧ (x.reported = 0 ∨ x.tkpend ≠ 0 ∨ s.clk.mcyc ≤ x.reported → exec (.ticketAdvance i) s = .next s)
      ∧ (x.reported ≠ 0 → x.tkpend = 0 → x.reported < s.clk.mcyc → (∀ m, (s.pkg.company m).stageWait = []) → ∃ t, exec (.ticketAdvance i) s = .next t
          ∧ t.pkg.ticket? i = (let y := { x with tknext := x.tknext + 1, killed := false, early := false, reported := 0 }
              if s.pkg.ticketOver y then none else some y)))
  ∧ (∀ (s : State) (m : Nat), (∀ r, r ∈ (s.pkg.company m).releases → s.clk.mcyc < r.2.2) → exec (.sliceReleaseApply m) s = .next s)
  ∧ (∀ (s : State) (m : Nat) (key : LaunchKey) (killed : Bool) (at_ : Nat), (s.pkg.company m).releases = [(key, killed, at_)] → at_ ≤ s.clk.mcyc →
      s.pkg.ticketIdx key = none → exec (.sliceReleaseApply m) s = .next { s with pkg := (s.pkg.modCompany m fun c => { c with releases := [] }).applyStaged m key killed })
  ∧ (∀ (s : State) (k : Nat) (v : Quad), exec (.orderedBitWrite k v) s = .next { s with pkg := s.pkg.modPart k fun q =>
      { q with ordPend := v.getLsbD 34 } })

/-- The vault controllers (R268, R270, R272, R273): the oldest request that may be scheduled opens its row, and the data of a read return after 158 mesh
cycles, or 198 on a miss; a turn of another partition and a burst close every bank; no request is scheduled in the precharge of a turn, in a burst or
the cycles before one; the patrol takes one block at each burst and changes error counters only; the frozen refresh counts its bursts while the
package is frozen. Readings the model takes here: log entries 86, 100. -/
def Obligations.VaultEvents : Prop :=
  (∀ (s : State) (v : Nat), (s.pkg.vault v).burst = true ∨ (s.pkg.vault v).quiet = true ∨ s.clk.mcyc < (s.pkg.vault v).turnFrom
      ∨ (∀ q, q ∈ (s.pkg.vault v).q → s.pkg.vaultServes v q.part = false) → exec (.vaultRequest v) s = .next s)
  ∧ (∀ (s : State) (v i : Nat) (r : VaultReq), (s.pkg.vault v).burst = false → (s.pkg.vault v).quiet = false → (s.pkg.vault v).turnFrom ≤ s.clk.mcyc →
      (s.pkg.vault v).q[i]? = some r → s.pkg.vaultServes v r.part = true →
      (∀ (j : Nat) (q : VaultReq), j < i → (s.pkg.vault v).q[j]? = some q → s.pkg.vaultServes v q.part = false) →
      let row := Config.dramRow (128 * r.line % Config.vaultSpan)
      let open_ := (s.pkg.vault v).rows[row.1 % 48]?
      let at_ := s.clk.mcyc + if open_ = some (some (BitVec.ofNat 16 row.2)) then 158 else 198
      let more : List Due := if (s.pkg.vault v).q.length = 1 then [] else [{ at_ := .now, ev := .vaultRequest v }]
      ∃ t, exec (.vaultRequest v) s = .next t
        ∧ t.pkg.due = s.pkg.due ++ more ++ (if r.write = true then [] else [{ at_ := .mesh at_, ev := .l2Fill r.company }])
        ∧ (v < s.pkg.vaults.length → t.pkg.vault v = { s.pkg.vault v with
            q := (s.pkg.vault v).q.eraseIdx i, rows := (s.pkg.vault v).rows.set (row.1 % 48) (some (BitVec.ofNat 16 row.2)) })
        ∧ (r.company < s.pkg.companies.length → (t.pkg.company r.company).fills =
            if r.write = true then (s.pkg.company r.company).fills
            else (s.pkg.company r.company).fills.map fun f => if f.1 = r.line ∧ f.2 = 0 then (f.1, at_) else f))
  ∧ (∀ (s : State) (v part : Nat), ((s.pkg.vault v).turn = part → exec (.vaultTurnStart v part) s = .next s)
      ∧ ((s.pkg.vault v).turn ≠ part → exec (.vaultTurnStart v part) s = .next { s with pkg :=
          (s.pkg.modVault v fun c => { c with turn := part, turnFrom := s.clk.mcyc + 16, rows := List.replicate 48 none }).later (.mesh (s.clk.mcyc + 16)) (.vaultRequest v) }))
  ∧ (∀ (s : State) (v : Nat), v < s.pkg.vaults.length → ∃ t, exec (.refreshBurst v) s = .next t
      ∧ t.pkg.vault v = { s.pkg.vault v with
          burst := true, rows := List.replicate 48 none, scrubptr := ((s.pkg.vault v).scrubptr + 1) % (768 * 2 ^ 20 / 64) }
      ∧ (let sector := v * (Config.vaultSpan / 64) + (s.pkg.vault v).scrubptr
        (s.pkg.badLayers sector = [] → t.pkg.errors = s.pkg.errors ∧ t.pkg.dramErr = s.pkg.dramErr)
        ∧ (∀ l, s.pkg.badLayers sector = [l] → t.pkg.errors = (s.pkg.count (Config.errDRAMCORR + v) Config.max32).errors ∧ t.pkg.badLayers sector = [])
        ∧ (2 ≤ (s.pkg.badLayers sector).length →
            t.pkg.errors = (s.pkg.count (Config.errUNCORR + 288 + v) Config.max32).errors ∧ t.pkg.dramErr = s.pkg.dramErr))
      ∧ t.pkg.dram = s.pkg.dram ∧ t.pkg.dramPoison = s.pkg.dramPoison ∧ t.pkg.due = s.pkg.due)
  ∧ (∀ (s : State) (v : Nat), exec (.refreshBurstEnd v) s = .next { s with pkg :=
      (s.pkg.modVault v fun c => { c with burst := false, rows := List.replicate 48 none }).later .now (.vaultRequest v) })
  ∧ (∀ (s : State) (v : Nat), (s.clk.run = .running → exec (.frozenRefreshBurst v) s = .next s)
      ∧ (s.clk.run = .frozen → exec (.frozenRefreshBurst v) s = .next { s with pkg := s.pkg.modVault v fun c => { c with frozen := c.frozen + 1 } }))

/-- Page walks (R342 to R347, Table 19.1): the entry of a level ends the walk or names the next table; a walker takes the oldest miss while fewer than 8
walks run; a walk that ends in a translation fills the core's and the company's TLB, and one that a shootdown has marked starts again. Shootdowns and
ATS invalidations (R202, R203, R347): the entries that overlap the range leave the TLBs after the checks of the cycle 32 mesh cycles after a shootdown
arrives, and 64 after an invalidation is stamped; each is acknowledged once the accesses that could have used them have drained. Readings the model
takes here: log entries 44. -/
def Obligations.WalksAndInvalidations : Prop :=
  (∀ (p : Package) (part : Nat) (va : Quad) (write fetch : Bool) (lev e : Nat), lev ≤ 3 →
      EntrySays p part va write fetch lev e (p.pteStep part va write fetch lev e))
  ∧ (∀ (s : State) (m : Nat), (∀ w, w ∈ (s.pkg.company m).walks → ¬ ReadsEntry s w) →
      ((∀ w, w ∈ (s.pkg.company m).walks → w.started = true ∨ w.marked = true) ∨ 8 ≤ ((s.pkg.company m).walks.filter fun w => w.started && !w.ended).length) →
      exec (.pageWalk m) s = .next s)
  ∧ (∀ (s : State) (m : Nat) (w : Walk) (l : List Walk), (s.pkg.company m).walks = w :: l → (∀ x, x ∈ l → ¬ ReadsEntry s x) → w.started = false → w.marked = false →
      (l.filter fun w => w.started && !w.ended).length < 8 →
      let root := (s.pkg.part w.part).ctx.atroot.toNat
      let at_ := s.clk.mcyc + EntryWay s.pkg m root w.va 3
      exec (.pageWalk m) s = .next { s with pkg := (s.pkg.modCompany m fun c =>
        { c with walks := { w with started := true, level := 3, table := root, readAt := at_ } :: l }).later (.mesh at_) (.pageWalk m) })
  ∧ (∀ (s : State) (m : Nat) (w : Walk) (l : List Walk), (s.pkg.company m).walks = w :: l → ReadsEntry s w → w.level ≤ 3 →
      let back := EntryWay s.pkg m w.table w.va w.level
      (EntryPlace s.pkg w.table w.va w.level = none → exec (.pageWalk m) s = .next { s with pkg := (s.pkg.modCompany m fun c =>
        { c with walks := { w with end_ := some .access, readAt := s.clk.mcyc } :: l }).later (.mesh s.clk.mcyc) (.walkComplete m) })
      ∧ ∀ place, EntryPlace s.pkg w.table w.va w.level = some place →
        let said := s.pkg.pteStep w.part w.va w.write w.fetch w.level (ofLe (s.pkg.readBytes place 8))
        (∀ e, said = .stop e → ∃ t, exec (.pageWalk m) s = .next t
          ∧ (t.pkg.company m).walks = { w with end_ := some e, readAt := s.clk.mcyc + back } :: l ∧ { at_ := .mesh (s.clk.mcyc + back), ev := .walkComplete m } ∈ t.pkg.due)
        ∧ ∀ table, said = .next table → ∃ t at_, exec (.pageWalk m) s = .next t ∧ at_ = s.clk.mcyc + back + EntryWay s.pkg m table w.va (w.level - 1)
          ∧ (t.pkg.company m).walks = { w with level := w.level - 1, table := table, readAt := at_ } :: l ∧ { at_ := .mesh at_, ev := .pageWalk m } ∈ t.pkg.due)
  ∧ (∀ (s : State) (m : Nat), (∀ w, w ∈ (s.pkg.company m).walks → w.started = false ∨ w.ended = true ∨ w.end_ = none ∨ s.clk.mcyc < w.readAt) →
      exec (.walkComplete m) s = .next s)
  ∧ (∀ (s : State) (m : Nat) (w : Walk) (l : List Walk), (s.pkg.company m).walks = w :: l → w.started = true → w.ended = false → w.end_ ≠ none →
      w.readAt ≤ s.clk.mcyc → w.marked = true →
      exec (.walkComplete m) s = .next { s with pkg := s.pkg.modCompany m fun c => { c with walks := { w with started := false, end_ := none } :: l } })
  ∧ (∀ (s : State) (m core slot : Nat) (w : Walk) (e : TlbEntry) (x : Wave) (b : Blocked) (k : List (Quad × Bool × Bool)), (s.pkg.company m).walks = [w] → w.started = true →
      w.ended = false → w.marked = false → w.end_ = some (.entry e) → w.readAt ≤ s.clk.mcyc → w.waiters = [.wave core slot] → slot < 64 → m = core / 8 →
      s.pkg.wave? core slot = some x → x.park = none → x.blockedAt x.sole = some b → b.op = .translate k → x.leaders = [x.sole] →
      ∃ t u, exec (.walkComplete m) s = .next t ∧ (t.pkg.company m).walks = [{ w with ended := true }] ∧ t.pkg.wave? core slot = some u
        ∧ u.blockedAt x.sole = none ∧ (t.pkg.core core).tlb = (s.pkg.core core).tlb.fill e ∧ (t.pkg.company m).tlb = ((s.pkg.company m).tlbFill e).tlb)
  ∧ (∀ (s : State) (core part va len : Nat), core < s.pkg.cores.length →
      let x : Shootdown := { part := part, va := va, len := len, removed := false, before := [] }
      ∃ t, exec (.shootdown core part va len) s = .next t
      ∧ t.pkg.core core = { s.pkg.core core with shoot := (s.pkg.core core).shoot ++ [x] }
      ∧ t.pkg.due = s.pkg.due ++ [{ at_ := .mesh (s.clk.mcyc + 33), ev := .shootdownRemoval core }]
      ∧ (core / 8 < s.pkg.companies.length → ∀ (n : Nat) (w : Walk), (s.pkg.company (core / 8)).walks[n]? = some w → ∃ b,
          (t.pkg.company (core / 8)).walks[n]? = some { w with marked := b } ∧ (b = true ↔ w.marked = true ∨ ShotWalk x w))
      ∧ (va < 2 ^ 47 → t.pkg.pcie = s.pkg.pcie) ∧ (2 ^ 47 ≤ va → AtsMarked s.pkg.pcie t.pkg.pcie (· = part) (va % 2 ^ 47) len))
  ∧ (∀ (s : State) (core : Nat), (∀ x, x ∈ (s.pkg.core core).shoot → x.removed = true) → exec (.shootdownRemoval core) s = .next s)
  ∧ (∀ (s : State) (core : Nat) (x : Shootdown) (l : List Shootdown), (s.pkg.core core).shoot = x :: l → x.removed = false → ∃ t,
      exec (.shootdownRemoval core) s = .next t
      ∧ (t.pkg.core core).shoot = { x with removed := true, before := (s.pkg.core core).requestNumbers, copyAck := (s.pkg.core core).copyAck,
                                           tags := s.pkg.copyTags (· = core) } :: l
      ∧ SetKeeps (s.pkg.core core).tlb (t.pkg.core core).tlb (Shot x)
      ∧ (core / 8 < s.pkg.companies.length → (∀ i, i < 256 → (tabGet (s.pkg.company (core / 8)).tlb i).isSome = true →
            SetKeeps ((s.pkg.company (core / 8)).tlbSet i) ((t.pkg.company (core / 8)).tlbSet i) (Shot x))
          ∧ ∀ (n : Nat) (w : Walk), (s.pkg.company (core / 8)).walks[n]? = some w →
            (ShotWalk x w → (t.pkg.company (core / 8)).walks[n]? = some { w with marked := false, started := false, end_ := none })
            ∧ (¬ ShotWalk x w → (t.pkg.company (core / 8)).walks[n]? = some w))
      ∧ { at_ := .now, ev := .shootdownAck core } ∈ t.pkg.due)
  ∧ (∀ (s : State) (core : Nat), (∀ x, x ∈ (s.pkg.core core).shoot → x.removed = false) → exec (.shootdownAck core) s = .next s)
  ∧ (∀ (s : State) (core : Nat) (x : Shootdown) (l : List Shootdown), (s.pkg.core core).shoot = x :: l → x.removed = true →
      let drained := (∀ b, b ∈ x.before → s.pkg.olderInFlight core b.1 b.2 = false) ∧ x.copyAck ≤ s.clk.mcyc ∧ ∀ w, w ∈ s.pkg.pcie → w.1 ∉ x.tags
      (¬ drained → exec (.shootdownAck core) s = .next { s with pkg := s.pkg.later (.mesh (s.clk.mcyc + 1)) (.shootdownAck core) })
      ∧ (drained → exec (.shootdownAck core) s = .next { s with pkg := s.pkg.modCore core fun k => { k with shoot := l } }))
  ∧ (∀ (s : State) (pasid va log2 : Nat),
      let i : AtsInv := { pasid := pasid, va := va, log2 := max 12 log2, due := s.clk.mcyc + 64, removed := false, before := [] }
      ∃ t, exec (.atsInvalidateRequest pasid va log2) s = .next t ∧ t.pkg.atsInv = s.pkg.atsInv ++ [i]
      ∧ t.pkg.due = s.pkg.due ++ [{ at_ := .mesh (s.clk.mcyc + 65), ev := .atsInvalidateRemoval }]
      ∧ AtsMarked s.pkg.pcie t.pkg.pcie (fun k => k < 8 ∧ (s.pkg.part k).ctx.pasid.toNat = pasid) (InvBase i) (2 ^ i.log2))
  ∧ (∀ s : State, (∀ i, i ∈ s.pkg.atsInv → i.removed = true) → exec .atsInvalidateRemoval s = .next s)
  ∧ (∀ (s : State) (i : AtsInv) (l : List AtsInv), s.pkg.atsInv = i :: l → i.removed = false → ∃ t y, exec .atsInvalidateRemoval s = .next t
      ∧ t.pkg.atsInv = y :: l ∧ y = { i with removed := true, before := y.before, copyAcks := y.copyAcks, tags := s.pkg.copyTags fun _ => true }
      ∧ (∀ core slot w, core < s.pkg.cores.length → s.pkg.wave? core slot = some w → (core, slot, w.nextId) ∈ y.before)
      ∧ (∀ core, core < s.pkg.cores.length → (core, (s.pkg.core core).copyAck) ∈ y.copyAcks)
      ∧ (∀ c, SetKeeps (s.pkg.core c).tlb (t.pkg.core c).tlb fun e => c < s.pkg.cores.length ∧ e.ats = true ∧ e.part < 8 ∧ (s.pkg.part e.part).ctx.pasid.toNat = i.pasid
          ∧ e.va * 2 ^ e.size < InvBase i + 2 ^ i.log2 ∧ InvBase i < (e.va + 1) * 2 ^ e.size)
      ∧ AtsMarked s.pkg.pcie t.pkg.pcie (fun k => k < 8 ∧ (s.pkg.part k).ctx.pasid.toNat = i.pasid) (InvBase i) (2 ^ i.log2)
      ∧ t.pkg.due = s.pkg.due ++ [{ at_ := .now, ev := .invalidationCompletion }])
  ∧ (∀ s : State, (∀ i, i ∈ s.pkg.atsInv → i.removed = false) → exec .invalidationCompletion s = .next s)
  ∧ (∀ (s : State) (i : AtsInv) (l : List AtsInv), s.pkg.atsInv = i :: l → i.removed = true →
      let drained := (∀ b, b ∈ i.before → s.pkg.olderInFlight b.1 b.2.1 b.2.2 = false) ∧ (∀ a, a ∈ i.copyAcks → a.2 ≤ s.clk.mcyc) ∧ ∀ w, w ∈ s.pkg.pcie → w.1 ∉ i.tags
      (¬ drained → exec .invalidationCompletion s = .next { s with pkg := s.pkg.later (.mesh (s.clk.mcyc + 1)) .invalidationCompletion })
      ∧ (drained → exec .invalidationCompletion s = .next { s with pkg := ({ s.pkg with atsInv := l } : Package).egress 0 (.invalidationCompletion i.pasid i.va) }))

/-- Page faults and the host's answers (R162, R199 to R201, R346): the prompter serves the first fault record to arrive, and lets its waiter go on or
delivers ACCESS; a first touch takes a free frame of the vault that R200 names; a page that is there takes a parked word on, and with a lane that is
denied ACCESS follows the lanes that perform; an ATS grant fills the TLBs of the core that asked, a refusal of a write or of the page leads to a page
request, and a page request that is granted to a new translation. Readings the model takes here: log entries 42, 43, 45. -/
def Obligations.PageFaults : Prop :=
  (∀ (s : State) (a : FwAction), (∀ r, r ∈ s.pkg.faults → s.clk.mcyc < r.arrives) → exec (.faultRecordService a) s = .next s)
  ∧ (∀ (s : State) (i : Nat) (r : FaultRecord), FirstRecord s i r →
      let q : Package := { s.pkg with faults := s.pkg.faults.eraseIdx i }
      (r.copy = none → exec (.faultRecordService .unserviceable) s = .next { s with pkg := q.accessParked s.clk r.core r.slot }
        ∧ exec (.faultRecordService (.pageIn [])) s = .next { s with pkg := q.later .now (.pageResolution r.core r.slot) }
        ∧ ∀ pa v place, s.pkg.placeOf (pa / 8 * 8) = some place →
            exec (.faultRecordService (.pageIn [(pa, v)])) s = .next { s with pkg := (q.writePte place v.toNat).later .now (.pageResolution r.core r.slot) })
      ∧ (∀ c, r.copy = some c → exec (.faultRecordService .unserviceable) s = .next { s with pkg := q.denyCopy r.core c }
        ∧ exec (.faultRecordService (.pageIn [])) s = .next { s with pkg := q.later .now (.copyFaultResume r.core c) }))
  ∧ (∀ (s : State) (i : Nat) (r : FaultRecord) (frame t2 t1 t0 p3 p2 p1 p0 : Nat), FirstRecord s i r → r.copy = none →
      let entry := fun place : Nat => ofLe (s.pkg.readBytes place 8)
      let step := fun (lev e : Nat) => s.pkg.pteStep r.part r.va r.write r.fetch lev e
      let vault := frame / 16384
      let off := frame % 16384 * 65536
      EntryPlace s.pkg (s.pkg.part r.part).ctx.atroot.toNat r.va 3 = some p3 → step 3 (entry p3) = .next t2 →
      EntryPlace s.pkg t2 r.va 2 = some p2 → step 2 (entry p2) = .next t1 → EntryPlace s.pkg t1 r.va 1 = some p1 → step 1 (entry p1) = .next t0 →
      EntryPlace s.pkg t0 r.va 0 = some p0 → bits (entry p0) 0 1 = 0 → bits (entry p0) 4 1 = 1 →
      (off < 768 * 2 ^ 20 → vault < 256 → s.pkg.stages.getLsbD (vault / 64) = true → (vault, off) ∉ s.pkg.frames → s.pkg.inService vault off = false →
        s.pkg.touchVault r.core = some vault →
        exec (.faultRecordService (.firstTouch frame)) s = .next { s with pkg :=
          (((List.range 512).foldl (fun (q : Package) i => q.storeBytes 8 (bytesFrom (vault * 2 ^ 30 + off + 128 * i) (List.replicate 128 0)))
              { s.pkg with faults := s.pkg.faults.eraseIdx i }).writePte p0 (Config.vaultView + vault * 2 ^ 30 + off + 4 * bits (entry p0) 2 2 + 3)).later .now (.pageResolution r.core r.slot) })
      ∧ (s.pkg.touchVault r.core ≠ some vault ∨ s.pkg.inService vault off = true ∨ (vault, off) ∈ s.pkg.frames →
        exec (.faultRecordService (.firstTouch frame)) s = .next s))
  ∧ (∀ (p : Package) (core v : Nat), core < 256 → p.touchVault core = some v → (∃ n, n < 12288 ∧ p.frameFree v (65536 * n) = true)
      ∧ ∀ u n, u < 256 → n < 12288 → p.frameFree u (65536 * n) = true → FarVault core v < FarVault core u ∨ (FarVault core v = FarVault core u ∧ v ≤ u))
  ∧ (∀ (p : Package) (place new : Nat),
      let made : List (Nat × Nat) := match leafFrame new with
        | some f => [f]
        | none => []
      p.writePte place new = ({ p with frames := p.frames.filter (fun f => some f ≠ leafFrame (ofLe (p.readBytes place 8))) ++ made } : Package).storeBytes 8
        (bytesFrom place (leBytes 8 new)))
  ∧ (∀ (s : State) (core slot : Nat) (w : Wave) (c : Cast) (r : Park), s.pkg.wave? core slot = some w → s.pkg.cast? core w.cast = some c →
      (w.park = none → exec (.pageResolution core slot) s = .next s)
      ∧ (w.park = some r → r.op = none → exec (.pageResolution core slot) s =
          .next { s with pkg := (s.pkg.dropWalks core (.wave core slot)).modWave core slot fun _ => { w with park := none } })
      ∧ (∀ op t, w.park = some r → r.op = some op → s.pkg.memCheck core (.wave core slot) { c with ordered := false } op = .trap t →
          let x := s.pkg.sortLanes core (.wave core slot) c.partition op
          exec (.pageResolution core slot) s = .next { s with pkg := (((s.pkg.dropWalks core (.wave core slot)).performMem s.clk core slot r.leader c op x.dev x.host).modWave
            core slot fun w => { w with trapaddr := t.addr, traplanes := t.lanes.getD 0 }).accessParked s.clk core slot })
      ∧ (∀ op dev host, w.park = some r → r.op = some op → s.pkg.memCheck core (.wave core slot) { c with ordered := false } op = .go dev host [] →
          ∃ u, exec (.pageResolution core slot) s = .next { s with pkg := ((s.pkg.dropWalks core (.wave core slot)).performMem s.clk core slot r.leader c op dev host).modWave core slot fun _ => u } ∧ u.park = none))
  ∧ (∀ (s : State) (p : Package) (core slot : Nat) (w : Wave) (r : Park), p.wave? core slot = some w → w.park = some r →
      p.accessParked s.clk core slot = (p.modWave core slot fun _ => { w with park := none }).deliver s.clk
        { core := core, slot := slot, leader := r.leader, slices := r.slices, cause := .access, word := bits w.trapcause.toNat 8 2, epc := w.epc, addr := w.trapaddr, lanes := w.traplanes, window := w.trapcause.getLsbD 10 })
  ∧ (∀ (s : State) (tag : Nat) (a : AtsReply) (b : PrgReply), s.pkg.pcieWait? tag = none →
      exec (.atsTranslationCompletion tag a) s = .next s ∧ exec (.prgResponse tag b) s = .next s)
  ∧ (∀ (s : State) (tag core part : Nat) (va : Quad) (write marked : Bool) (ws : List Waiter), s.pkg.pcieWait? tag = some (.ats core part va write marked ws) →
      (marked = true → ∀ a, exec (.atsTranslationCompletion tag a) s = .next { s with pkg := (s.pkg.dropTag tag).atsRequest core part va write ws })
      ∧ (marked = false → exec (.atsTranslationCompletion tag .noAccess) s = .next { s with pkg := (s.pkg.dropTag tag).prgRequest core part va write ws })
      ∧ (marked = false → ∀ c slot, ws = [.wave c slot] →
          exec (.atsTranslationCompletion tag .unsupported) s = .next { s with pkg := (s.pkg.dropTag tag).accessParked s.clk c slot }
          ∧ exec (.atsTranslationCompletion tag .aborted) s = .next { s with pkg := (s.pkg.dropTag tag).accessParked s.clk c slot })
      ∧ (marked = false → ∀ addr log2 (w : Bool),
          let e := atsEntry part va addr log2 w
          let filled := ((s.pkg.dropTag tag).modCompany (core / 8) fun m => m.tlbFill e).modCore core fun k => { k with tlb := k.tlb.fill e }
          (write = true → w = false → exec (.atsTranslationCompletion tag (.grant addr log2 w)) s = .next { s with pkg := filled.prgRequest core part va write ws })
          ∧ (write = false ∨ w = true → ∃ q, exec (.atsTranslationCompletion tag (.grant addr log2 w)) s = .next { s with pkg := q }
              ∧ q = { filled with due := q.due } ∧ q.due.length = s.pkg.due.length + ws.length
              ∧ ∀ c slot, .wave c slot ∈ ws → { at_ := .now, ev := .pageResolution c slot } ∈ q.due)))
  ∧ (∀ (s : State) (tag core part : Nat) (va : Quad) (write : Bool) (ws : List Waiter), s.pkg.pcieWait? tag = some (.prg core part va write ws) →
      (s.pkg.pcie.filter fun x => match x.2 with | .prg _ q _ _ _ => q = part | _ => false).length ≤ 64 →
      exec (.prgResponse tag .success) s = .next { s with pkg := (s.pkg.dropTag tag).atsRequest core part va write ws }
      ∧ ∀ c slot, ws = [.wave c slot] → exec (.prgResponse tag .failure) s = .next { s with pkg := (s.pkg.dropTag tag).accessParked s.clk c slot })

/-- PLACEMENT_PASS, LAUNCH and RESUME (R41, R329 to R335). With one waiting batch the pass sends a LAUNCH record to the first candidate core that passes
every check of Table 18.6, or notes the refusal at the node; a record whose resource is taken goes back; nothing is launched from a faulted node; a
launch sets up the cast, its waves (s0 the records, s1 their size, s2 0, s3 the node) and its reservations; a resumed cast takes its place again with
the registers it was saved with. Readings the model takes here: log entries 56, 64, 65, 67. -/
def Obligations.Placement : Prop :=
  (∀ s : State, (∀ k, k < 8 → (s.pkg.part k).valid = false) → exec .placementPass s = .next s)
  ∧ (∀ (s : State) (k : Nat) (e : CastEntry), (∀ j, j < 8 → ((s.pkg.part j).valid = true ↔ j = k)) → k < 8 → s.pkg.cores.length = 256 → s.pkg.planeOp = none →
      (s.pkg.part k).recovery.stopping = false → (s.pkg.part k).recovery.resumeAt = none →
      (∀ x, x ∈ (s.pkg.part k).nodes → (s.pkg.node k x.1).checked = true) → s.pkg.casts = [e] → e.part = k → e.state = .pending → e.refused < 63 →
      (s.pkg.node k e.node).cog = 0 → (s.pkg.part k).ordPend = false → s.pkg.heldLaunch e.key = false →
      ((s.pkg.node k e.node).fault = true → exec .placementPass s = .next s)
      ∧ ((s.pkg.node k e.node).fault = false →
      let cands := s.pkg.candidates k
      let try_ := fun c => s.pkg.tryCore (s.pkg.want e) c
      (∀ (i c : Nat) (spot : Spot), cands[i]? = some c → try_ c = .ok spot → (∀ j d, j < i → cands[j]? = some d → ∃ r, try_ d = .error r) →
        let at_ := s.clk.mcyc + s.pkg.transit c
        ∃ t b, exec .placementPass s = .next t ∧ (t.pkg.core c).binds = (s.pkg.core c).binds ++ [b] ∧ b.op = .launch ∧ b.arrives = at_ ∧ b.entry = e.id
          ∧ b.slots = spot.slots ∧ b.regbase = spot.regbase ∧ b.sprow = spot.sprow ∧ b.batchn = e.batchn ∧ b.node = e.node
          ∧ t.pkg.due = s.pkg.due ++ [{ at_ := .mesh (at_ + 1), ev := .launch c }] ∧ ∃ x, t.pkg.casts = [x] ∧ x.state = .placed c none ∧ x.refused = 0)
      ∧ (∀ c r, cands[0]? = some c → try_ c = .error r → (∀ d, d ∈ cands → ∃ r, try_ d = .error r) →
        let q := (WithNode s k e.node (EntryWith (EntryWith (s.pkg.node k e.node) 250 1 r) 252 4 s.clk.rtick)).pkg
        exec .placementPass s = .next { s with pkg := { q with casts := [{ e with refused := if 1 ≤ r ∧ r ≤ 4 then e.refused + 1 else 0 }] } })))
  ∧ (∀ (s : State) (core : Nat), (NoRecordOf s core .launch → exec (.launch core) s = .next s) ∧ (NoRecordOf s core .resume → exec (.resume core) s = .next s))
  ∧ (∀ (s : State) (core : Nat) (b : Bind) (q : Package) (e : CastEntry) (reason : Nat), Applies s core b q → b.op = .launch → s.pkg.casts = [e] → e.id = b.entry →
      e.state = .placed core none → TakenFirst s core b reason → reason ≠ 0 →
      ∃ t, exec (.launch core) s = .next t ∧ t.pkg.casts = [{ e with state := .pending, demands := [], castid := none }] ∧ t.pkg.cores = q.cores
        ∧ (e.part < s.pkg.parts.length → t.pkg.node e.part e.node = EntryWith (EntryWith (s.pkg.node e.part e.node) 250 1 reason) 252 4 s.clk.rtick))
  ∧ (∀ (s : State) (core cslot : Nat) (b : Bind) (q : Package) (e : CastEntry), Applies s core b q → b.op = .launch → s.pkg.casts = [e] → e.id = b.entry →
      e.state = .placed core none → TakenFirst s core b 0 → core < s.pkg.cores.length → b.partition < s.pkg.parts.length → b.slots.Nodup →
      (∀ i, i ∈ b.slots → i < (s.pkg.core core).ctx.waves.length) → findIdx? Option.isNone (s.pkg.core core).ctx.casts = some cslot →
      let n := s.pkg.node b.partition b.node
      isHostVa (BitVec.ofNat 64 n.cqbase) = false ∨ b.batchn = b.recs.length ∧ (∀ i, i < b.batchn → ∃ x, x ∈ b.recs ∧ x.1 = i) →
      ∃ t c, exec (.launch core) s = .next t ∧ t.pkg.casts = [{ e with state := .resident core cslot }] ∧ t.pkg.cast? core cslot = some c
        ∧ c.castid = b.castid ∧ c.partition = b.partition ∧ c.node = b.node ∧ c.castindex = b.castindex ∧ c.launchid = b.launchid
        ∧ c.nwaves = BitVec.ofNat 7 b.slots.length ∧ c.spsize = BitVec.ofNat 20 n.spbytes ∧ c.sprow = b.sprow ∧ c.rows = b.rows ∧ c.prio = n.prio
        ∧ c.trappc = alignPc (BitVec.ofNat 64 n.trappc) ∧ c.resident = s.clk.rtick ∧ c.ordered = (s.pkg.part b.partition).ordPend
        ∧ (∀ (i j : Nat), b.slots[i]? = some j → ∃ w, t.pkg.wave? core j = some w ∧ w.waveId = BitVec.ofNat 6 i ∧ w.cast = cslot ∧ w.role = roleOf (n.roleOf i)
            ∧ w.s 0 = BitVec.ofNat 64 b.batchn ∧ w.s 1 = BitVec.ofNat 64 n.recsz ∧ w.s 2 = 0 ∧ w.s 3 = BitVec.ofNat 64 b.node ∧ (∀ r, 4 ≤ r → w.s r = 0)
            ∧ w.p 0 = BitVec.allOnes 128 ∧ w.waitlimit = 2 ^ 32 ∧ (∀ r k, w.v r k = 0)
            ∧ ∀ x : Slice, x ∈ w.slices → x.pc = BitVec.ofNat 64 (n.codebase + n.entryoff) ∧ x.mask = 15 ∧ x.live = true)
        ∧ (∀ j, j ∉ b.slots → t.pkg.wave? core j = s.pkg.wave? core j)
        ∧ (∀ i j u, i < b.slots.length → j < b.units / max b.slots.length 1 → u = b.regbase + i * (b.units / max b.slots.length 1) + j →
            u < (s.pkg.core core).ctx.units.length → (t.pkg.core core).ctx.units[u]? = some (some cslot))
        ∧ (t.pkg.node b.partition b.node).cqhead = n.cqhead + BitVec.ofNat 32 b.batchn)
  ∧ (∀ (s : State) (core : Nat) (b : Bind) (q : Package) (e : CastEntry), Applies s core b q → b.op = .launch → s.pkg.casts = [e] → e.id = b.entry →
      e.state = .placed core none → TakenFirst s core b 0 → core < s.pkg.cores.length →
      isHostVa (BitVec.ofNat 64 (s.pkg.node b.partition b.node).cqbase) = true → (∃ i, i < b.batchn ∧ ∀ x, x ∈ b.recs → x.1 ≠ i) →
      ∃ t, exec (.launch core) s = .next t ∧ t.pkg.casts = s.pkg.casts ∧ b ∈ (t.pkg.core core).binds ∧ (t.pkg.core core).ctx = (s.pkg.core core).ctx
        ∧ ∀ i, i < b.batchn → (∀ x, x ∈ b.recs → x.1 ≠ i) → (∀ x, x ∈ s.pkg.pcie → x.2 ≠ .cue core b.entry i) →
            ∃ tag, (tag, PcieWait.cue core b.entry i) ∈ t.pkg.pcie)
  ∧ (∀ (s : State) (core cslot : Nat) (b : Bind) (q : Package) (e : CastEntry) (x : SavedCast), Applies s core b q → b.op = .resume → s.pkg.casts = [e] →
      e.id = b.entry → e.state = .placed core (some x) → TakenFirst s core b 0 → x.colls = [] → x.follow = [] → x.deferred = [] → x.fences = [] →
      core < s.pkg.cores.length → b.slots.Nodup → b.slots.length = x.waves.length → (∀ w, w ∈ x.waves → w.fence = none ∧ w.park = none) →
      (∀ i, i ∈ b.slots → i < (s.pkg.core core).ctx.waves.length) → findIdx? Option.isNone (s.pkg.core core).ctx.casts = some cslot →
      ∃ t c, exec (.resume core) s = .next t ∧ t.pkg.casts = [{ e with state := .resident core cslot, ctxpa := 0 }] ∧ t.pkg.cast? core cslot = some c
        ∧ c = { x.cast with sprow := b.sprow, rows := b.rows, own := c.own, cchg := 0, stopping := none, resident := s.clk.rtick }
        ∧ (∀ (i j : Nat) (w : Wave), b.slots[i]? = some j → x.waves[i]? = some w → ∃ u, t.pkg.wave? core j = some u
            ∧ u = { w with cast := cslot, regbase := u.regbase, startAt := u.startAt })
        ∧ (∀ j, j ∉ b.slots → t.pkg.wave? core j = s.pkg.wave? core j))

/-- PREEMPT, CONTEXT_SAVE, KILL, HOST_KILL and FUNCTION_LEVEL_RESET (R53, R61, R330, R335). A PREEMPT record stops the cast's issue at the next point that
R335 allows; there the context goes to the prompter and the core is free again; a KILL record ends the cast; a host kill sends one, and to a cast that
no partition holds it does nothing; the reset of a function empties its host-message queue and its cue queues. Readings the model takes here: log
entries 28, 66, 68. -/
def Obligations.CastExits : Prop :=
  (∀ (s : State) (core : Nat), (NoRecordOf s core .preempt → exec (.preempt core) s = .next s) ∧ (NoRecordOf s core .kill → exec (.kill core) s = .next s))
  ∧ (∀ (s : State) (core i : Nat) (b : Bind) (q : Package), Applies s core b q →
      findIdx? (fun c : Option Cast => c.any fun x => x.castid = b.castid) (s.pkg.core core).ctx.casts = some i →
      (b.op = .preempt → exec (.preempt core) s = .next { s with pkg := q.modCast core i fun c => { c with stopping := if c.stopping = some 1 then some 1 else some 0 } })
      ∧ (b.op = .kill → core < s.pkg.cores.length → ∃ t, exec (.kill core) s = .next t ∧ t.pkg.cast? core i = none
          ∧ (∀ k w, t.pkg.wave? core k = some w → w.cast ≠ i)
          ∧ ∀ (k : Nat) (w : Wave), s.pkg.wave? core k = some w → w.cast ≠ i → ∃ u, t.pkg.wave? core k = some u))
  ∧ (∀ (s : State) (core cslot : Nat) (c : Cast), s.pkg.cast? core cslot = some c →
      (c.stopping = none → exec (.contextSave core cslot) s = .next s)
      ∧ (c.stopping ≠ none → s.pkg.castSafe core cslot = false → exec (.contextSave core cslot) s = .next s)
      ∧ (∀ e, c.stopping ≠ none → s.pkg.castSafe core cslot = true → s.pkg.enginesQuiet s.clk core cslot = true → s.pkg.casts = [e] → e.state = .resident core cslot →
          ∃ t x, exec (.contextSave core cslot) s = .next t ∧ t.pkg.casts = [{ e with state := .saved x, demands := [], refused := 0 }]
            ∧ x.cast = { c with stopping := none } ∧ t.pkg.cast? core cslot = none ∧ (∀ k w, t.pkg.wave? core k = some w → w.cast ≠ cslot)
            ∧ x.waves.length = ((s.pkg.core core).ctx.slotsOf cslot).length))
  ∧ (∀ (s : State) (part castid : Nat),
      ((∀ e, e ∈ s.pkg.casts → e.part = part → e.castid = some (BitVec.ofNat 14 castid) → e.live = false) → exec (.hostKill part castid) s = .next s)
      ∧ (∀ e core cslot, s.pkg.casts = [e] → e.part = part → e.castid = some (BitVec.ofNat 14 castid) → e.state = .resident core cslot →
          ∃ q, KillSent s e core q ∧ exec (.hostKill part castid) s = .next { s with pkg := q }))
  ∧ (∀ (s : State) (part : Nat), part < s.pkg.parts.length → (∀ e, e ∈ s.pkg.casts → e.part = part → e.live = false) →
      ∃ t, exec (.functionLevelReset part) s = .next t ∧ t.pkg.cores = s.pkg.cores ∧ t.pkg.casts = s.pkg.casts
        ∧ (t.pkg.part part).hmqBuf = [] ∧ (t.pkg.part part).hmqTail = (s.pkg.part part).hmqHead ∧ (t.pkg.part part).hmqHead = (s.pkg.part part).hmqHead
        ∧ ∀ x, x ∈ (t.pkg.part part).nodes → x.2.cqhead = x.2.cqtail)

/-- The epoch start (R352, R358, R360 to R362): nothing happens at reference tick 0 or between the epochs. At the start of an epoch each resident cast
pays EXTRA × its charge ÷ its core's charge, the charges restart at 0, a stamped vault steps its class and an unstamped one goes to class 4, no
company is granted more than it bids, what is granted fits the tokens left under the cap, and a level that differs starts a sequence at the next tick.
Readings the model takes here: log entries 7. -/
def Obligations.EpochStart : Prop :=
  (∀ s : State, s.clk.rtick = 0 ∨ s.clk.rtick % 250 ≠ 0 → exec .epochStart s = .next s)
  ∧ (∀ s : State, s.clk.rtick ≠ 0 → s.clk.rtick % 250 = 0 → s.pkg.companies.length = 32 → s.pkg.vaults.length = 256 → (∀ m, s.pkg.recovOf m = none) →
      let extra := fun c => [0, 32000, 96000, 224000, 480000].getD c 480000
      let cost := fun n : Nat => ((2 * n + n * n / 16 : Nat) : Int)
      ∃ t, exec .epochStart s = .next t
        ∧ (∀ core cslot c, s.pkg.cast? core cslot = some c → ∃ u, t.pkg.cast? core cslot = some u
            ∧ u = { c with refrcost := c.refrcost + BitVec.ofNat 64 (extra (s.pkg.vault core).vclass * c.cchg / (s.pkg.core core).kchg), cchg := 0, growok := u.growok, shrinkreq := u.shrinkreq, before := { tick := s.clk.rtick, growok := c.growok, shrinkreq := c.shrinkreq, refrcost := c.refrcost } })
        ∧ (∀ core, (t.pkg.core core).kchg = 0)
        ∧ (∀ v, v < 256 → s.pkg.present (v / 64) = true → (t.pkg.vault v).stamped = false ∧ (t.pkg.vault v).refpos = 0
            ∧ ((s.pkg.vault v).stamped = true → ClassStep (s.pkg.vault v).vclass (s.pkg.vault v).vtemp (t.pkg.vault v).vclass)
            ∧ ((s.pkg.vault v).stamped = false → (t.pkg.vault v).vclass = 4))
        ∧ (∀ m, m ∈ s.pkg.presentCompanies → let c := t.pkg.company m
            c.charge = [0, 0, 0, 0] ∧ c.actc = 0 ∧ c.stallc = 0 ∧ c.grant ≤ c.bidlvl ∧ c.level = (s.pkg.company m).level
            ∧ (c.level ≠ c.grant → (s.pkg.company m).gatedNow = false → c.seq = some { source := c.level, target := c.grant, start := s.clk.rtick + 1 })
            ∧ (c.level = c.grant → c.seq = (s.pkg.company m).seq))
        ∧ (s.pkg.presentCompanies.map fun m => cost (t.pkg.company m).grant).foldl (· + ·) 0 ≤ max s.pkg.tokensLeft 0)

/-- LEVEL_STEP, POWERCAP_WRITE and the four samples (R4, R269, R357, R358, R411). COMPANY_GATING and COMPANY_WAKE_END (R341). A company that has been idle
for 1,250 ticks starts to gate at a tick boundary and is gated at the next one, at level 0 and 50, unless a record has come; the wake of a gated
company ends 3,200 mesh cycles after the record that woke it, and the waiting records are applied. Readings the model takes here: log entries 83. -/
def Obligations.PowerAndGating : Prop :=
  (∀ (s : State) (m : Nat), (s.pkg.company m).gatedNow = true ∨ ((s.pkg.company m).vnow = (s.pkg.company m).vtarget
        ∧ ∀ q, (s.pkg.company m).seq = some q → s.clk.rtick < q.start) → exec (.levelStep m) s = .next s)
  ∧ (∀ (s : State) (m : Nat), (s.pkg.company m).gatedNow = false → (s.pkg.company m).vnow ≠ (s.pkg.company m).vtarget →
      (∀ q, (s.pkg.company m).seq = some q → s.clk.rtick < q.start) →
      exec (.levelStep m) s = .next { s with pkg := s.pkg.modCompany m fun c => { c with vnow := MovedVolt c.vnow c.vtarget } })
  ∧ (∀ (s : State) (m : Nat) (q : LevelSeq), (s.pkg.company m).gatedNow = false → (s.pkg.company m).seq = some q → q.start ≤ s.clk.rtick → LevelStep s m q)
  ∧ (∀ (s : State) (x : Quad), exec (.powercapWrite x) s = .next { s with pkg := { s.pkg with win := { s.pkg.win with powercap := min x.toNat (1600 * ((List.range 4).filter fun i => s.pkg.stages.getLsbD i).length) } } })
  ∧ (∀ (s : State) (v temp : Nat), exec (.vaultTemperatureSample v temp) s = .next { s with pkg := s.pkg.modVault v fun x => { x with vtemp := min temp 1023, stamped := true } })
  ∧ (∀ (s : State) (core temp : Nat), exec (.coreTemperatureSample core temp) s = .next { s with pkg := s.pkg.modVault core fun x => { x with coreTemp := min temp 1023 } })
  ∧ (∀ (s : State) (x : Nat), exec (.packageCurrentSample x) s = .next { s with pkg := { s.pkg with current := x } })
  ∧ (∀ (s : State) (m mv : Nat), exec (.companyVoltageSample m mv) s = .next { s with pkg := s.pkg.modCompany m fun c => { c with voltage := mv } })
  ∧ (∀ (s : State) (m : Nat), m < s.pkg.companies.length →
    let idle : Prop := ∀ c, ComingTo s m c → c.binds = [] ∧ ∀ x : Option Cast, x ∈ c.ctx.casts → x = none
    (∀ n, (s.pkg.company m).gating = .running n → n < 1250 ∨ ¬ idle → exec (.companyGating m) s = .next s)
    ∧ (∀ n, (s.pkg.company m).gating = .running n → 1250 ≤ n → idle → exec (.companyGating m) s = .next { s with pkg := (s.pkg.modCompany m fun c => { c with gating := .gating s.clk.rtick }).later (.mesh (64 * (s.clk.rtick + 1))) (.companyGating m) })
    ∧ (∀ tick, (s.pkg.company m).gating = .gating tick →
        let came : Prop := ∃ c b, ComingTo s m c ∧ b ∈ c.binds ∧ b.arrives ≤ 64 * (tick + 1)
        (s.clk.mcyc < 64 * (tick + 1) → exec (.companyGating m) s = .next s)
        ∧ (64 * (tick + 1) ≤ s.clk.mcyc → came → exec (.companyGating m) s = .next { s with pkg := s.pkg.modCompany m fun c => { c with gating := .running 0 } })
        ∧ (64 * (tick + 1) ≤ s.clk.mcyc → ¬ came → exec (.companyGating m) s = .next { s with pkg := s.pkg.modCompany m fun c => { c with gating := .gated, level := 0, vtarget := 50, vnow := 50, seq := none } }))
    ∧ (∀ n, (s.pkg.company m).gating = .running n → exec (.companyWakeEnd m) s = .next s)
    ∧ (∀ done_, (s.pkg.company m).gating = .waking done_ →
        (s.clk.mcyc < done_ → exec (.companyWakeEnd m) s = .next s)
        ∧ (done_ ≤ s.clk.mcyc → ∃ l : List Due, exec (.companyWakeEnd m) s = .next { s with pkg := { (s.pkg.modCompany m fun c => { c with gating := .running 0 }) with due := s.pkg.due ++ l } }
            ∧ (∀ d, d ∈ l → d.at_ = .now ∧ ∃ (i : Nat) (b : Bind), i < 8 ∧ b ∈ (s.pkg.core (8 * m + i)).binds ∧ b.arrives < s.clk.mcyc ∧ d.ev = b.op.row (8 * m + i))
            ∧ ∀ (i : Nat) (b : Bind), i < 8 → b ∈ (s.pkg.core (8 * m + i)).binds → b.arrives < s.clk.mcyc → { at_ := .now, ev := b.op.row (8 * m + i) } ∈ l)))

/-- RECOVERY_POINT, ROLLBACK and ARRIVAL_JOURNAL_INJECT (R384 to R386). A point is requested, its cores stop at an epoch start, and once all has stopped
the snapshot and the copies are taken and issue resumes eight ticks later; an error of a partition with a point rolls it back at the next tick
boundary, a second one in the same unit before the first one's offset is a hard failure; recorded arrivals are accepted again 16 mesh cycles after
their new stamps. DIE_LINK_HEADER_FAILURE, DIE_LINK_POISON and HARDFAIL_FREEZE (R313, R386, R387). A lost header rolls back a partition that can;
where one cannot, every valid partition is told and the package freezes with STOPCAUSE 5 at the next tick; a lost payload poisons its sector, where no
partition that it is for can be rolled back. Readings the model takes here: log entries 72, 73, 74. -/
def Obligations.RecoveryAndFailure : Prop :=
  (∀ (s : State) (k : Nat),
    let r := s.pkg.recov k
    let q := s.pkg.part k
    (∀ u, r.resumeAt = some u → s.clk.rtick < u → exec (.recoveryPoint k) s = .next s)
    ∧ (∀ u, k < s.pkg.parts.length → r.resumeAt = some u → u ≤ s.clk.rtick → ∃ t, exec (.recoveryPoint k) s = .next t ∧ (t.pkg.recov k).resumeAt = none
        ∧ ∀ core, core ∈ s.pkg.partCores k → core < s.pkg.cores.length → (t.pkg.core core).stopped = false
          ∧ ∀ i c, s.pkg.cast? core i = some c → ∃ d, t.pkg.cast? core i = some d ∧ d.stopping = none)
    ∧ (r.resumeAt = none → r.stopping = false → q.recov = false ∨ q.valid = false ∨ r.errorOffset ≠ none ∨ s.pkg.planeOp ≠ none →
        exec (.recoveryPoint k) s = .next s)
    ∧ (r.resumeAt = none → r.stopping = false → q.recov = true → q.valid = true → r.errorOffset = none → s.pkg.planeOp = none →
        (s.clk.mcyc % 64 ≠ 0 ∨ s.clk.rtick % 250 ≠ 0 →
          exec (.recoveryPoint k) s = .next { s with pkg := s.pkg.modRecovery k fun r => { r with requested := true } })
        ∧ (s.clk.mcyc % 64 = 0 → s.clk.rtick % 250 = 0 → k < s.pkg.parts.length → ∃ t, exec (.recoveryPoint k) s = .next t
            ∧ t.pkg.recov k = { r with stopping := true, pointAt := s.clk.rtick } ∧ { at_ := .now, ev := .recoveryPoint k } ∈ t.pkg.due
            ∧ ∀ core i c, core ∈ s.pkg.partCores k → s.pkg.cast? core i = some c →
                t.pkg.cast? core i = some { c with stopping := if c.stopping = none then some 2 else c.stopping }))
    ∧ (k < s.pkg.parts.length → r.resumeAt = none → r.stopping = true → s.clk.mcyc % 64 = 0 → s.pkg.cueQuiet k = true →
        (∀ core, core ∈ s.pkg.partCores k → s.pkg.coreHalted s.clk core = true) →
        ∃ t, exec (.recoveryPoint k) s = .next t ∧ (t.pkg.recov k).taken = true ∧ (t.pkg.recov k).rpmcyc = 64 * r.pointAt ∧ (t.pkg.recov k).base = 64 * r.pointAt
          ∧ (t.pkg.recov k).hmqHead = q.hmqHead ∧ (t.pkg.recov k).hmqTail = q.hmqTail ∧ (t.pkg.recov k).hmqBuf = q.hmqBuf ∧ (t.pkg.recov k).rpseq = r.rpseq + 1
          ∧ (t.pkg.recov k).journal = [] ∧ (t.pkg.recov k).arrivals = [] ∧ (t.pkg.recov k).resumeAt = some (s.clk.rtick + 8)
          ∧ (t.pkg.recov k).nodes = q.nodes ∧ (t.pkg.recov k).dc = q.dc
          ∧ ∀ core, core ∈ s.pkg.partCores k → core < s.pkg.cores.length →
              (t.pkg.core core).plane = .snapshot (s.pkg.core core).ctx ∧ (t.pkg.core core).ctx = (s.pkg.core core).ctx))
  ∧ (∀ (s : State) (k unit : Nat),
    let r := s.pkg.recov k
    let back : Prop := (s.pkg.part k).recov = true ∧ r.taken = true
    let o := s.clk.mcyc - r.base
    (¬ back → exec (.rollback k unit) s = .next s)
    ∧ (back → k < s.pkg.parts.length → (∃ u, r.rolling = some u ∧ u ≤ s.clk.rtick) ∧ s.clk.mcyc % 64 = 0 ∨ r.rolling = none ∧ r.errorOffset = none ∧ s.clk.mcyc % 64 = 0 →
        ∃ t, exec (.rollback k unit) s = .next t ∧ RolledBack s t k ∧ (r.rolling = none → (t.pkg.recov k).errorOffset = some (o, [unit])))
    ∧ (back → r.rolling = none → r.errorOffset = none → s.clk.mcyc % 64 ≠ 0 → exec (.rollback k unit) s = .next { s with pkg := (s.pkg.modRecovery k fun r => { r with errorOffset := some (o, [unit]), rolling := some (s.clk.rtick + 1) }).later (.tick (s.clk.rtick + 1)) (.rollback k unit) })
    ∧ (∀ us o1, back → k < s.pkg.parts.length → k < 8 → r.rolling = none → r.errorOffset = some (o1, us) → unit ∈ us → s.clk.mcyc < r.base + o1 → r.liveHeld = [] →
        (∀ e, e ∈ s.pkg.casts → e.part = k → e.live = false) →
        ∃ t, exec (.rollback k unit) s = .next t ∧ (t.pkg.recov k).taken = false ∧ (t.pkg.recov k).errorOffset = none ∧ FailReported t k))
  ∧ (∀ (s : State) (k : Nat),
    let r := s.pkg.recov k
    (r.inject = [] → r.errorOffset = none → exec (.arrivalJournalInject k) s = .next s)
    ∧ (∀ stamp g a, r.inject = [(stamp, g, a)] → stamp ≤ s.clk.mcyc → r.errorOffset = none → k < s.pkg.parts.length → exec (.arrivalJournalInject k) s = .next { s with pkg := (s.pkg.modGate g fun x => { x with effects := x.effects ++ [(stamp + 16, a)] }).modRecovery k fun r => { r with inject := [] } })
    ∧ (∀ o us, r.inject = [] → r.errorOffset = some (o, us) → r.resumeAt = none → r.rolling = none → r.base + o ≤ s.clk.mcyc → r.liveHeld = [] →
        exec (.arrivalJournalInject k) s = .next { s with pkg := s.pkg.modRecovery k fun r => { r with errorOffset := none } }))
  ∧ (∀ (s : State) (link k : Nat), s.pkg.validParts = [k] → (s.pkg.part k).recov = true → (s.pkg.recov k).taken = true →
      exec (.dieLinkHeaderFailure link) s = exec (.rollback k (0x5000 + link % 4)) s)
  ∧ (∀ (s : State) (link k : Nat), k ∈ s.pkg.validParts → (s.pkg.part k).recov = false ∨ (s.pkg.recov k).taken = false →
      ∃ t, exec (.dieLinkHeaderFailure link) s = .next t ∧ (∀ j, j ∈ s.pkg.validParts → FailReported t j)
        ∧ { at_ := .tick (s.clk.rtick + 1), ev := .hardfailFreeze } ∈ t.pkg.due ∧ t.pkg.cores = s.pkg.cores)
  ∧ (∀ (s : State) (link line sector : Nat), (∀ k, k ∈ s.pkg.validParts → (s.pkg.part k).recov = false ∨ (s.pkg.recov k).taken = false) →
      exec (.dieLinkPoison link line sector) s = .next { s with pkg := s.pkg.poisonSector line sector })
  ∧ (∀ (s : State) (link line sector k : Nat), s.pkg.validParts = [k] → (s.pkg.part k).recov = true → (s.pkg.recov k).taken = true → s.pkg.wantsLine k line = true →
      exec (.dieLinkPoison link line sector) s = .next { s with pkg := s.pkg.later .now (.rollback k (0x5000 + link % 4)) })
  ∧ (∀ s : State, (s.clk.run = .frozen → exec .hardfailFreeze s = .next s)
      ∧ (s.clk.run = .running → exec .hardfailFreeze s = .next { s with clk := { s.clk with run := .frozen }, pkg := { s.pkg with stopcause := .hardFailure } }))

/-- PARTITION_CONFIGURE and PARTITION_SWAP (R274, R275, R340). A mask that meets another valid partition's is ignored, and so is a new mask of a partition
that holds casts; otherwise the partition takes COMPANIES, VALID, RECOV and the address context (R194); RPMCYC and RPSEQ stay (Table 21.7). A mask
that is another valid partition's starts a swap: the cores of the mask are told to stop. UNDERSTUDY_SWAP and UNDERSTUDY_SWAP_END (R274, R275, R340).
Once every core of the mask has halted, at a tick boundary, the leaving partition's contexts go to the planes and what the planes hold for the coming
one to the cores; issue resumes 16 ticks later. RETIRE_SLICE and SLICE_RETIRE_REASSIGN (R351). A command acts at a tick boundary; one that may not be
carried out is counted, one that comes during another waits. Once the slice has drained its buckets go to the nearest live slices of its stage in
turn. Readings the model takes here: log entries 63, 69, 70, 71, 75, 76. -/
def Obligations.PartitionsAndSlices : Prop :=
  (∀ (s : State) (k : Nat) (x : Quad) (ctx : AddrContext),
    let m : BitVec 32 := x.setWidth 32
    let q := s.pkg.part k
    let ignored : Prop := x.getLsbD 32 = false ∨ 8 ≤ k ∨ Overlaps s k m ∨ (HoldsCasts s k ∧ m ≠ q.companies)
    (ignored → exec (.partitionConfigure k x ctx) s = .next s)
    ∧ (¬ ignored → s.pkg.planeOp = none → q.swapped = false ∨ ¬ HoldsCasts s k → k < s.pkg.parts.length →
        ∃ t, exec (.partitionConfigure k x ctx) s = .next t ∧ (t.pkg.part k).companies = m ∧ (t.pkg.part k).valid = true ∧ (t.pkg.part k).swapped = false
          ∧ (t.pkg.part k).recov = x.getLsbD 35 ∧ (t.pkg.part k).ctx = ctx
          ∧ (t.pkg.recov k).rpmcyc = (s.pkg.recov k).rpmcyc ∧ (t.pkg.recov k).rpseq = (s.pkg.recov k).rpseq
          ∧ (t.pkg.part k).nodes = q.nodes ∧ (∀ j, j ≠ k → t.pkg.part j = s.pkg.part j) ∧ t.pkg.cores = s.pkg.cores)
    ∧ (¬ ignored → s.pkg.planeOp = none → q.swapped = true → HoldsCasts s k → exec (.partitionConfigure k x ctx) s = .next { s with pkg := ({ s.pkg with planeOp := some { out := k, in_ := k, mask := m, dram := true, startedAt := none } } : Package).later .now .understudySwap })
    ∧ (∀ o, ¬ ignored → s.pkg.planeOp = some o → o.in_ = k ∨ o.out = k →
        exec (.partitionConfigure k x ctx) s = .next { s with pkg := s.pkg.later (.tick (s.clk.rtick + 1)) (.partitionConfigure k x ctx) }))
  ∧ (∀ (s : State) (k : Nat) (x : Quad),
    let m : BitVec 32 := x.setWidth 32
    let q := s.pkg.part k
    ((∀ j, ¬ SwapWith s k x j) ∨ 8 ≤ k ∨ (HoldsCasts s k ∧ m ≠ q.companies) → exec (.partitionSwap k x) s = .next s)
    ∧ (∀ j o, SwapWith s k x j → k < 8 → ¬ (HoldsCasts s k ∧ m ≠ q.companies) → s.pkg.planeOp = some o →
        exec (.partitionSwap k x) s = .next { s with pkg := s.pkg.later (.tick (s.clk.rtick + 1)) (.partitionSwap k x) })
    ∧ (∀ j, SwapWith s k x j → k < 8 → k < s.pkg.parts.length → ¬ (HoldsCasts s k ∧ m ≠ q.companies) → s.pkg.planeOp = none →
        let free : Prop := ∀ core, core ∈ s.pkg.maskCores m → (s.pkg.core core).plane = .empty ∨ ∃ c, (s.pkg.core core).plane = .context k c
        ∃ t o, exec (.partitionSwap k x) s = .next t ∧ t.pkg.planeOp = some o ∧ o.out = j ∧ o.in_ = k ∧ o.mask = m ∧ o.startedAt = none
          ∧ (o.dram = true ↔ (s.pkg.part j).recov = true ∨ x.getLsbD 35 = true ∨ ¬ free)
          ∧ (t.pkg.part k).companies = m ∧ (t.pkg.part k).ctx = Config.addrContext k x ∧ (t.pkg.part k).valid = false ∧ (t.pkg.part k).recov = x.getLsbD 35
          ∧ { at_ := .now, ev := .understudySwap } ∈ t.pkg.due
          ∧ (o.dram = false → ∀ core i c, core ∈ s.pkg.maskCores m → s.pkg.cast? core i = some c →
              t.pkg.cast? core i = some { c with stopping := if c.stopping = none then some 2 else c.stopping })))
  ∧ (∀ s : State, (∀ o, s.pkg.planeOp = some o → o.startedAt ≠ none) → exec .understudySwap s = .next s)
  ∧ (∀ (s : State) (o : PlaneOp), s.pkg.planeOp = some o → o.startedAt = none → o.dram = false → o.out ≠ o.in_ → o.out < s.pkg.parts.length →
      o.in_ < s.pkg.parts.length → s.clk.mcyc % 64 = 0 → (∀ core, core ∈ s.pkg.maskCores o.mask → s.pkg.coreHalted s.clk core = true) →
      ∃ t, exec .understudySwap s = .next t ∧ t.pkg.planeOp = some { o with startedAt := some s.clk.rtick }
        ∧ (t.pkg.part o.out).valid = false ∧ (t.pkg.part o.out).swapped = true ∧ (t.pkg.part o.in_).valid = true ∧ (t.pkg.part o.in_).swapped = false
        ∧ { at_ := .mesh (s.clk.mcyc + 960), ev := .understudySwapEnd } ∈ t.pkg.due
        ∧ ∀ core, core ∈ s.pkg.maskCores o.mask → core < s.pkg.cores.length →
            let a := s.pkg.core core
            let b := t.pkg.core core
            b.stopped = true ∧ b.l1 = [] ∧ (∃ y, b.plane = .context o.out y ∧ y = { a.ctx with casts := y.casts })
              ∧ ((∀ c, a.plane ≠ .context o.in_ c) → b.ctx = {}) ∧ ∀ c, a.plane = .context o.in_ c → b.ctx = { c with colls := b.ctx.colls })
  ∧ (∀ s : State, (∀ o u, s.pkg.planeOp = some o → o.startedAt ≠ some u) → exec .understudySwapEnd s = .next s)
  ∧ (∀ (s : State) (o : PlaneOp) (u : Nat), s.pkg.planeOp = some o → o.startedAt = some u →
      (s.clk.rtick < u + 16 → exec .understudySwapEnd s = .next { s with pkg := s.pkg.later (.tick (u + 16)) .understudySwapEnd })
      ∧ (u + 16 ≤ s.clk.rtick → ∃ t, exec .understudySwapEnd s = .next t ∧ t.pkg.planeOp = none
          ∧ ∀ core, core ∈ s.pkg.maskCores o.mask → core < s.pkg.cores.length → (t.pkg.core core).stopped = false
            ∧ ∀ i c, s.pkg.cast? core i = some c → t.pkg.cast? core i = some { c with stopping := none }))
  ∧ (∀ (s : State) (stage company : Nat),
    (s.clk.mcyc % 64 ≠ 0 → exec (.retireSlice stage company) s = .next { s with pkg := s.pkg.later (.tick (s.clk.rtick + 1)) (.retireSlice stage company) })
    ∧ (s.clk.mcyc % 64 = 0 → NoSuchSlice s stage company ∨ ((s.pkg.stageAt stage).retiring = none ∧ ¬ OtherSlice s stage company) →
        exec (.retireSlice stage company) s = .next { s with pkg := s.pkg.count Config.errRETIREIGN Config.max16 })
    ∧ (s.clk.mcyc % 64 = 0 → ¬ NoSuchSlice s stage company →
        ((s.pkg.stageAt stage).retiring ≠ none → exec (.retireSlice stage company) s = .next { s with pkg := s.pkg.modStage stage fun x => { x with retireQ := x.retireQ ++ [company] } })
        ∧ ((s.pkg.stageAt stage).retiring = none → OtherSlice s stage company →
            exec (.retireSlice stage company) s = .next { s with pkg := s.pkg.modStage stage fun x => { x with retiring := some company } })))
  ∧ (∀ (s : State) (company : Nat),
    let st := company / 8
    let m := company % 8
    let c := s.pkg.company company
    let old := s.pkg.stageAt st
    let drained : Prop := c.inq = [] ∧ c.stalled = [] ∧ c.fills = [] ∧ c.releases = []
    (old.retiring ≠ some m ∨ s.clk.mcyc % 64 ≠ 0 ∨ ¬ drained → exec (.sliceRetireReassign company) s = .next s)
    ∧ (old.retiring = some m → s.clk.mcyc % 64 = 0 → drained → company < s.pkg.companies.length → c.staged = [] → c.stageWait = [] → old.heldReqs = [] →
        let heirs := s.pkg.heirs st m
        ∃ t, exec (.sliceRetireReassign company) s = .next t ∧ (t.pkg.company company).retired = true ∧ (t.pkg.company company).l2 = []
          ∧ (t.pkg.stageAt st).retiring = none ∧ (t.pkg.stageAt st).buckets.length = old.buckets.length
          ∧ (∀ i b, old.buckets[i]? = some b → (t.pkg.stageAt st).buckets[i]? =
              some (if b = m then heirs.getD (((old.buckets.take i).filter (· = m)).length % max heirs.length 1) m else b))
          ∧ ∀ h, h ∈ heirs → h ≠ m ∧ h < 8 ∧ (s.pkg.company (8 * st + h)).retired = false
              ∧ ∀ g, g < 8 → g ≠ m → (s.pkg.company (8 * st + g)).retired = false → stopHops m h ≤ stopHops m g))

/-- The walks, shootdowns and invalidations complete (R202, R203, R342 to R345, R347): a waiting miss is begun and the root's entry is read; a walk that a
shootdown marked starts again and one that ends in a translation fills the company's TLB and leaves; a shootdown removes at the end of the mesh cycle
32 after its arrival and is acknowledged when what could have used the entries has drained; an invalidation removes 64 after its stamp and is answered
through the egress gate. Configuration, swap and slice retirement complete (R274, R275, R340, R351): a configuration takes effect, a swap with another
partition's mask is started, carried out at a tick boundary once the leaving partition is off the cores, and ended 16 ticks later; a slice is told to
retire and, drained, hands its buckets on. Readings the model takes here: log entries 44, 63, 75, 76. -/
def Obligations.WalksAndPartitionsComplete : Prop :=
  (∀ (s : State) (m : Nat) (w : Walk), (s.pkg.company m).walks = [w] → w.started = false → w.marked = false →
      let root := (s.pkg.part w.part).ctx.atroot.toNat
      let at_ := s.clk.mcyc + EntryWay s.pkg m root w.va 3
      exec (.pageWalk m) s = .next { s with pkg := (s.pkg.modCompany m fun c =>
        { c with walks := [{ w with started := true, level := 3, table := root, readAt := at_ }] }).later (.mesh at_) (.pageWalk m) })
  ∧ (∀ (s : State) (m : Nat) (w : Walk), (s.pkg.company m).walks = [w] → w.started = true → w.ended = false → w.end_ ≠ none → w.readAt ≤ s.clk.mcyc → w.marked = true →
      exec (.walkComplete m) s = .next { s with pkg := s.pkg.modCompany m fun c => { c with walks := [{ w with started := false, end_ := none }] } })
  ∧ (∀ (s : State) (m : Nat) (w : Walk) (e : TlbEntry), m < s.pkg.companies.length → (s.pkg.company m).walks = [w] → w.started = true → w.ended = false →
      w.marked = false → w.end_ = some (.entry e) → w.readAt ≤ s.clk.mcyc → w.waiters = [] →
      ∃ t, exec (.walkComplete m) s = .next t ∧ (t.pkg.company m).walks = [] ∧ (t.pkg.company m).tlb = ((s.pkg.company m).tlbFill e).tlb
        ∧ t.pkg.due = s.pkg.due ++ [{ at_ := .now, ev := .pageWalk m }])
  ∧ (∀ (s : State) (core part va len : Nat), core < s.pkg.cores.length →
      ∃ t, exec (.shootdown core part va len) s = .next t
      ∧ (t.pkg.core core).shoot = (s.pkg.core core).shoot ++ [{ part := part, va := va, len := len, removed := false, before := [] }]
      ∧ t.pkg.due = s.pkg.due ++ [{ at_ := .mesh (s.clk.mcyc + 33), ev := .shootdownRemoval core }])
  ∧ (∀ (s : State) (core : Nat) (x : Shootdown), core < s.pkg.cores.length → (s.pkg.core core).shoot = [x] → x.removed = false → ∃ t y,
      exec (.shootdownRemoval core) s = .next t ∧ (t.pkg.core core).shoot = [y] ∧ y.removed = true ∧ y.part = x.part ∧ y.va = x.va ∧ y.len = x.len
      ∧ SetKeeps (s.pkg.core core).tlb (t.pkg.core core).tlb (Shot x)
      ∧ { at_ := .now, ev := .shootdownAck core } ∈ t.pkg.due)
  ∧ (∀ (s : State) (core : Nat) (x : Shootdown), (s.pkg.core core).shoot = [x] → x.removed = true →
      (∀ b, b ∈ x.before → s.pkg.olderInFlight core b.1 b.2 = false) → x.copyAck ≤ s.clk.mcyc → (∀ w, w ∈ s.pkg.pcie → w.1 ∉ x.tags) →
      exec (.shootdownAck core) s = .next { s with pkg := s.pkg.modCore core fun k => { k with shoot := [] } })
  ∧ (∀ (s : State) (pasid va log2 : Nat), ∃ t, exec (.atsInvalidateRequest pasid va log2) s = .next t
      ∧ t.pkg.atsInv = s.pkg.atsInv ++ [{ pasid := pasid, va := va, log2 := max 12 log2, due := s.clk.mcyc + 64, removed := false, before := [] }]
      ∧ t.pkg.due = s.pkg.due ++ [{ at_ := .mesh (s.clk.mcyc + 65), ev := .atsInvalidateRemoval }])
  ∧ (∀ (s : State) (i : AtsInv), s.pkg.atsInv = [i] → i.removed = false → ∃ t y, exec .atsInvalidateRemoval s = .next t
      ∧ t.pkg.atsInv = [y] ∧ y.removed = true ∧ y.pasid = i.pasid ∧ y.va = i.va ∧ y.log2 = i.log2
      ∧ (∀ core, core < s.pkg.cores.length → SetKeeps (s.pkg.core core).tlb (t.pkg.core core).tlb fun e => e.ats = true ∧ e.part < 8
          ∧ (s.pkg.part e.part).ctx.pasid.toNat = i.pasid ∧ e.va * 2 ^ e.size < InvBase i + 2 ^ i.log2 ∧ InvBase i < (e.va + 1) * 2 ^ e.size)
      ∧ t.pkg.due = s.pkg.due ++ [{ at_ := .now, ev := .invalidationCompletion }])
  ∧ (∀ (s : State) (i : AtsInv), s.pkg.atsInv = [i] → i.removed = true → (∀ b, b ∈ i.before → s.pkg.olderInFlight b.1 b.2.1 b.2.2 = false) →
      (∀ a, a ∈ i.copyAcks → a.2 ≤ s.clk.mcyc) → (∀ w, w ∈ s.pkg.pcie → w.1 ∉ i.tags) →
      exec .invalidationCompletion s = .next { s with pkg := ({ s.pkg with atsInv := [] } : Package).egress 0 (.invalidationCompletion i.pasid i.va) })
  ∧ (∀ (s : State) (k : Nat) (x : Quad) (ctx : AddrContext), x.getLsbD 32 = true → k < 8 → k < s.pkg.parts.length → ¬ Overlaps s k (x.setWidth 32) → ¬ HoldsCasts s k →
      s.pkg.planeOp = none → ∃ t, exec (.partitionConfigure k x ctx) s = .next t ∧ (t.pkg.part k).companies = x.setWidth 32 ∧ (t.pkg.part k).valid = true
        ∧ (t.pkg.part k).recov = x.getLsbD 35 ∧ (t.pkg.part k).ctx = ctx ∧ ∀ j, j ≠ k → t.pkg.part j = s.pkg.part j)
  ∧ (∀ (s : State) (k j : Nat) (x : Quad), SwapWith s k x j → k < 8 → k < s.pkg.parts.length → ¬ HoldsCasts s k → s.pkg.planeOp = none → (s.pkg.part j).recov = false →
      x.getLsbD 35 = false → (∀ core, core ∈ s.pkg.maskCores (x.setWidth 32) → (s.pkg.core core).plane = .empty) →
      ∃ t, exec (.partitionSwap k x) s = .next t
        ∧ t.pkg.planeOp = some { out := j, in_ := k, mask := x.setWidth 32, dram := false, startedAt := none }
        ∧ (t.pkg.part k).companies = x.setWidth 32 ∧ (t.pkg.part k).ctx = Config.addrContext k x ∧ { at_ := .now, ev := .understudySwap } ∈ t.pkg.due)
  ∧ (∀ (s : State) (o : PlaneOp), s.pkg.planeOp = some o → o.startedAt = none → o.dram = true → o.out ≠ o.in_ → o.out < s.pkg.parts.length →
      o.in_ < s.pkg.parts.length → s.clk.mcyc % 64 = 0 → (∀ e, e ∈ s.pkg.casts → e.part ≠ o.out) →
      (∀ core, core ∈ s.pkg.maskCores o.mask → (s.pkg.core core).binds = [] ∧ (s.pkg.core core).residents = []) →
      ∃ t, exec .understudySwap s = .next t ∧ (t.pkg.part o.out).valid = false ∧ (t.pkg.part o.out).swapped = false
        ∧ (t.pkg.part o.in_).valid = true ∧ (t.pkg.part o.in_).swapped = false
        ∧ ((∀ core, core ∈ s.pkg.maskCores o.mask → ∀ c, (s.pkg.core core).plane ≠ .context o.in_ c) → t.pkg.planeOp = none))
  ∧ (∀ (s : State) (o : PlaneOp) (u : Nat), s.pkg.planeOp = some o → o.startedAt = some u → u + 16 ≤ s.clk.rtick →
      (∀ core, core ∈ s.pkg.maskCores o.mask → (s.pkg.core core).ctx.deferred = [] ∧ ∀ i, s.pkg.wave? core i = none) →
      ∃ t, exec .understudySwapEnd s = .next t ∧ t.pkg.planeOp = none ∧ t.pkg.parts = s.pkg.parts
        ∧ ∀ core, core ∈ s.pkg.maskCores o.mask → core < s.pkg.cores.length → (t.pkg.core core).stopped = false)
  ∧ (∀ (s : State) (stage company : Nat), s.clk.mcyc % 64 = 0 → ¬ NoSuchSlice s stage company → (s.pkg.stageAt stage).retiring = none → OtherSlice s stage company →
      exec (.retireSlice stage company) s = .next { s with pkg := s.pkg.modStage stage fun x => { x with retiring := some company } })
  ∧ (∀ (s : State) (company : Nat), company < s.pkg.companies.length → (s.pkg.stageAt (company / 8)).retiring = some (company % 8) → s.clk.mcyc % 64 = 0 →
      (let c := s.pkg.company company
       c.inq = [] ∧ c.stalled = [] ∧ c.fills = [] ∧ c.releases = [] ∧ c.staged = [] ∧ c.stageWait = [] ∧ c.l2 = []) →
      (s.pkg.stageAt (company / 8)).heldReqs = [] → (s.pkg.stageAt (company / 8)).retireQ = [] →
      let m := company % 8
      let old := (s.pkg.stageAt (company / 8)).buckets
      let heirs := s.pkg.heirs (company / 8) m
      ∃ t, exec (.sliceRetireReassign company) s = .next t ∧ (t.pkg.company company).retired = true ∧ (t.pkg.stageAt (company / 8)).retiring = none
        ∧ ∀ i b, old[i]? = some b → (t.pkg.stageAt (company / 8)).buckets[i]? =
            some (if b = m then heirs.getD (((old.take i).filter (· = m)).length % max heirs.length 1) m else b))

/-- GATE_ACCEPT and REPLAY_INJECT (R2, R318, R321 to R323, R367, R385, R411). A gate of an absent stage takes nothing. Accesses of BAR 4 and the live
registers pass unstamped; anything else is stamped and takes effect 16 mesh cycles later. In RECORD it is logged first; a full ring withholds it, or
under LOSSY breaks the replay, and telemetry is dropped. In REPLAY the entries of the ring take its place at their own cycles, and act as acceptances:
an arrival for a partition with recovery points is journaled, and a flit moves its port's receiver on. Readings the model takes here: log entries 88,
96. -/
def Obligations.Gates : Prop :=
  (∀ (s : State) (g : Nat) (a : Arrival), ¬ GateThere s g → exec (.gateAccept g a) s = .next s)
  ∧ (∀ (s : State) (g off len : Nat) (data : List Byte), GateThere s g →
    exec (.gateAccept g (.barWrite 0 4 off data)) s = exec (.serviceRegionAccess off data.length data) s
    ∧ exec (.gateAccept g (.barRead 0 4 off len)) s = exec (.serviceRegionAccess off len []) s)
  ∧ (∀ (s : State) (g off : Nat) (data : List Byte), GateThere s g → LiveRegister off → off % 8 = 0 → data.length = 8 →
      exec (.gateAccept g (.barWrite 0 0 off data)) s = .next { s with pkg := { s.pkg with hostWrites := s.pkg.hostWrites ++ (windowRows off (BitVec.ofNat 64 (ofLe data))).map fun ev => { tick := s.clk.rtick + 1, ev := ev } } })
  ∧ (∀ (s : State) (g : Nat) (a : Arrival), GateThere s g → StampedArrival a → s.clk.run = .frozen ∨ s.pkg.win.gatemodeCur = 2 →
      exec (.gateAccept g a) s = .next { s with pkg := s.pkg.modGate g fun x => { x with ingress := x.ingress ++ [(0, a)] } })
  ∧ (∀ (s : State) (g : Nat) (a : Arrival), GateThere s g → StampedArrival a → s.clk.run = .running → s.pkg.win.gatemodeCur ≠ 2 → g < s.pkg.gates.length → NoRecoveryOf s a →
      (s.pkg.gate g).ingress = [] → (s.pkg.gate g).digests = [] →
      let x := s.pkg.gate g
      let full : Prop := x.logsize.toNat ≤ (x.loghead - x.logtail).toNat
      (s.pkg.logging g = false → exec (.gateAccept g a) s = .next { s with pkg := s.pkg.modGate g (AcceptedAt s g a) })
      ∧ (s.pkg.logging g = true → ¬ full →
          let entry := logEntry (AcceptedAt s g a x).stampAt x.seq.toNat a.kind ((AcceptedAt s g a x).stampPiece - 1) true (a.src g) (a.payload.take 64) a.header
          let p := s.pkg.paWrite (x.logbase.toNat + 128 * (x.loghead.toNat % max x.logsize.toNat 1)) entry
          exec (.gateAccept g a) s = .next { s with pkg := p.modGate g fun y => AcceptedAt s g a { y with loghead := y.loghead + 1, seq := y.seq + 1 } })
      ∧ (s.pkg.logging g = true → full → s.pkg.win.lossy.getLsbD g = true → ∃ t, exec (.gateAccept g a) s = .next t ∧ t.pkg.win.replayBroken = true
          ∧ t.pkg.gate g = AcceptedAt s g a { x with off := true })
      ∧ (s.pkg.logging g = true → full → s.pkg.win.lossy.getLsbD g = false → g ≠ 13 →
          exec (.gateAccept g a) s = .next { s with pkg := s.pkg.modGate g fun x => { x with ingress := [(0, a)] } })
      ∧ (s.pkg.logging g = true → full → s.pkg.win.lossy.getLsbD g = false → g = 13 →
          exec (.gateAccept g a) s = .next { s with pkg := s.pkg.count Config.errTELDROP Config.max16 }))
  ∧ (∀ (s : State) (g k : Nat) (a : Arrival), GateThere s g → StampedArrival a → s.clk.run = .running → s.pkg.win.gatemodeCur ≠ 2 → g < s.pkg.gates.length →
      s.pkg.arrivalPart a = some k → (s.pkg.part k).recov = true → (s.pkg.recov k).errorOffset = none → (s.pkg.gate g).ingress = [] →
      (s.pkg.gate g).digests = [] → s.pkg.logging g = false →
      exec (.gateAccept g a) s = .next { s with pkg := (s.pkg.modGate g (AcceptedAt s g a)).modRecovery k fun r =>
        { r with arrivals := r.arrivals ++ [((AcceptedAt s g a (s.pkg.gate g)).stampAt, g, a)] } })
  ∧ (∀ (s : State) (g : Nat),
    let x := s.pkg.gate g
    let e := s.pkg.ringEntry g
    let n := fun off len => ofLe ((e.drop off).take len)
    let payload := (e.drop 32).take (n 14 1)
    let due : Prop := if n 12 1 = 0x40 ∧ x.digests = [] then n 0 8 < s.clk.mcyc else n 0 8 ≤ s.clk.mcyc
    let got := fun a : Arrival => parseArrival (n 12 1) (n 16 4) ((e.drop 96).take 32) (x.partialData ++ payload) = some a
    let onward := fun y : Gate => { y with loghead := y.loghead + 1, partialData := [] }
    (s.pkg.injecting g = false ∨ x.loghead = x.logtail ∨ ¬ due → exec (.replayInject g) s = .next s)
    ∧ (s.pkg.injecting g = true → x.loghead ≠ x.logtail → due →
        (n 12 1 = 0x40 → x.digests.head? = some payload →
          exec (.replayInject g) s = .next { s with pkg := s.pkg.modGate g fun x => { x with loghead := x.loghead + 1, digests := x.digests.drop 1 } })
        ∧ (n 12 1 = 0x40 → x.digests.head? ≠ some payload → ∃ t, exec (.replayInject g) s = .next t ∧ t.pkg.win.replayBroken = true
            ∧ t.pkg.gates = modAt s.pkg.gates g fun x => { x with loghead := x.loghead + 1, digests := x.digests.drop 1 })
        ∧ (n 12 1 ≠ 0x40 → n 13 1 < 128 → exec (.replayInject g) s = .next { s with pkg := s.pkg.modGate g fun x => { x with loghead := x.loghead + 1, partialData := (s.pkg.gate g).partialData ++ payload } })
        ∧ (n 12 1 ≠ 0x40 → 128 ≤ n 13 1 → n 13 1 < 256 →
            ((∀ a, ¬ got a) → exec (.replayInject g) s = .next { s with pkg := s.pkg.modGate g onward })
            ∧ (∀ a, got a → (∀ pasid va l, a ≠ .atsInvalidate pasid va l) → (∀ f, a ≠ .flit f) →
                let p := s.pkg.modGate g fun y => { onward y with effects := y.effects ++ [(n 0 8 + 16, a)] }
                ((∀ k, s.pkg.arrivalPart a = some k → (s.pkg.part k).recov = false) → exec (.replayInject g) s = .next { s with pkg := p })
                ∧ ∀ k, s.pkg.arrivalPart a = some k → (s.pkg.part k).recov = true →
                    exec (.replayInject g) s = .next { s with pkg := p.modRecovery k fun r => { r with arrivals := r.arrivals ++ [(n 0 8, g, a)] } })
            ∧ (∀ f, got (.flit f) → g - 1 < s.pkg.ports.length → ∃ t, exec (.replayInject g) s = .next t ∧ (t.pkg.port (g - 1)).expect = f.seq + 1
                ∧ t.pkg.gates = modAt s.pkg.gates g fun y => { onward y with effects := y.effects ++ [(n 0 8 + 16, .flit f)] }))))

/-- EGRESS_TRANSACTION, EGDIGEST and HMQ_ENTRY_WRITE (R166 to R168, R314, R324, R325). A transaction is counted and sent, a host read once fewer than 512
are outstanding (R317), but not in REPLAY, and a write not where re-execution has sent it before; a flit takes its port's next number and its place in
the send window. A buffered device entry goes out before a HOSTMSG. Readings the model takes here: log entries 27, 62. -/
def Obligations.OutboundTraffic : Prop :=
  (∀ (s : State) (g fn pasid a n tag : Nat), 512 ≤ s.pkg.reads.length → exec (.egressTransaction g (.memRead fn pasid a n tag)) s =
      .next { s with pkg := { s.pkg with readQ := s.pkg.readQ ++ [.memRead fn pasid a n tag] } })
  ∧ (∀ (s : State) (g : Nat) (t : Egress), (∀ f, t ≠ .flit f) → ((∃ fn pasid a n tag, t = .memRead fn pasid a n tag) → s.pkg.reads.length < 512) → g < s.pkg.gates.length →
    let x := Counted s g t (s.pkg.gate g)
    let silent : Prop := s.pkg.win.gatemodeCur = 2 ∨ (t.isWrite = true ∧ x.egseq ≤ x.eghigh)
    (silent → exec (.egressTransaction g t) s = .next { s with pkg := { (s.pkg.modGate g fun _ => x) with reads := ReadsAfter s t, due := DigestDue s g x ++ s.pkg.due } })
    ∧ (¬ silent → exec (.egressTransaction g t) s = .next { s with pkg := { (s.pkg.modGate g fun _ => if t.isWrite = true then { x with egacked := x.egseq } else x) with reads := ReadsAfter s t, due := DigestDue s g x ++ s.pkg.due, sent := s.pkg.sent ++ [(g, t)] } }))
  ∧ (∀ (s : State) (g : Nat) (f : Flit), g < s.pkg.gates.length → g - 1 < s.pkg.ports.length →
    let port := s.pkg.port (g - 1)
    let t : Egress := .flit { f with seq := port.sendSeq, ack := port.expect }
    let x := Counted s g t (s.pkg.gate g)
    let silent : Prop := s.pkg.win.gatemodeCur = 2 ∨ (f.typ = 1 ∧ x.egseq ≤ x.eghigh)
    ∃ q, exec (.egressTransaction g (.flit f)) s = .next q ∧ q.pkg.gate g = x ∧ (q.pkg.port (g - 1)).sendSeq = port.sendSeq + 1
      ∧ q.pkg.due = DigestDue s g x ++ s.pkg.due
      ∧ (silent → q.pkg.sent = s.pkg.sent ∧ (q.pkg.port (g - 1)).window = port.window)
      ∧ (¬ silent → q.pkg.sent = s.pkg.sent ++ [(g, t)] ∧ (if port.waiting = [] ∧ port.window.length < 1024
          then (q.pkg.port (g - 1)).window = port.window ++ [{ f with seq := port.sendSeq, ack := port.expect }]
          else (q.pkg.port (g - 1)).waiting = port.waiting ++ [{ f with seq := port.sendSeq, ack := port.expect }])))
  ∧ (∀ (s : State) (g : Nat),
    let x := s.pkg.gate g
    let d := x.egdig ++ leBytes 8 x.egcount
    let full : Prop := x.logsize.toNat ≤ (x.loghead - x.logtail).toNat
    let keep := s.pkg.modGate g fun x => { x with digests := x.digests ++ [d] }
    (x.digests = [] → s.pkg.injecting g = true → exec (.egdigest g) s = .next { s with pkg := keep })
    ∧ (x.digests = [] → s.pkg.injecting g = false → s.pkg.logging g = false → exec (.egdigest g) s = .next s)
    ∧ (x.digests = [] → s.pkg.injecting g = false → s.pkg.logging g = true → ¬ full →
        let entry := logEntry s.clk.mcyc x.seq.toNat 0x40 0 true (List.replicate 4 0) d (List.replicate 32 0)
        let p := s.pkg.paWrite (x.logbase.toNat + 128 * (x.loghead.toNat % max x.logsize.toNat 1)) entry
        exec (.egdigest g) s = .next { s with pkg := p.modGate g fun x => { x with loghead := x.loghead + 1, seq := x.seq + 1 } })
    ∧ (s.pkg.injecting g = false → s.pkg.logging g = true → full → x.digests.length < 16 → exec (.egdigest g) s = .next { s with pkg := keep })
    ∧ (s.pkg.injecting g = false → s.pkg.logging g = true → full → 16 ≤ x.digests.length →
        ∃ t, exec (.egdigest g) s = .next t ∧ t.pkg.win.replayBroken = true ∧ t.pkg.gates = s.pkg.gates))
  ∧ (∀ (s : State) (k : Nat), k < s.pkg.parts.length →
    let q := s.pkg.part k
    (q.hmqEnabled = true → q.hmqRoom = false → exec (.hmqEntryWrite k) s = .next s)
    ∧ (q.hmqBuf = [] → s.pkg.firstHostmsg k = none → exec (.hmqEntryWrite k) s = .next s)
    ∧ (∀ e l, q.hmqRoom = true → q.hmqBuf = e :: l → ∃ t, exec (.hmqEntryWrite k) s = .next t
        ∧ EntryWritten s t k e [{ at_ := .now, ev := .hmqEntryWrite k }] ∧ (t.pkg.part k).hmqBuf = l ∧ t.pkg.cores = s.pkg.cores)
    ∧ (∀ core slot leader w c p0 p1 tag b, q.hmqBuf = [] → s.pkg.firstHostmsg k = some (core, slot, leader, w, c, p0, p1, tag) →
        w.blockedAt leader = some b →
        (q.hmqRoom = true → ∃ t u, exec (.hmqEntryWrite k) s = .next t ∧ t.pkg.wave? core slot = some u ∧ GoesOn w u leader b
          ∧ EntryWritten s t k { kind := 1, castid := c.castid, castindex := c.castindex, info := BitVec.ofNat 16 tag, waveId := w.waveId, core := core, tick := BitVec.ofNat 32 s.clk.rtick, p0 := p0, p1 := p1 } [])
        ∧ (q.hmqEnabled = false → ∃ u, OnWave s (.hmqEntryWrite k) core slot u ∧ GoesOn w u leader b)))

/-- HOUSE_FLIT_RECEIVE, HOUSE_RESEND_REQUEST, WINDOW_SCRUB, HOUSE_FLIT_DELIVER and END_TO_END_ACK (R2, R314 to R316, R325). A port of an absent stage
receives nothing. A good flit frees the window entries that it acknowledges and enters the reorder buffer, a bad one is asked for again; the next flit
in order is delivered once its gate accepts it, and stays unacknowledged until then. HOUSE_WRITE, HOUSE_READ_REQUEST, HOUSE_ATOMIC, the two
completions, HOUSE_MANAGEMENT_FLIT and TIME_SYNC_EXCHANGE (R376, R411). A peer's write is made and acknowledged end to end, its read answered with 64
bytes; a completion finds no reader here; four messages fix the offset and the delay of two packages, stamps 16 mesh cycles early. Readings the model
takes here: log entries 59, 60, 61. -/
def Obligations.HouseLinksAndTraffic : Prop :=
  (∀ (s : State) (port : Nat) (f : Flit) (bad : Bool), ¬ GateThere s (port + 1) → exec (.houseFlitReceive port f bad) s = .next s)
  ∧ (∀ (s : State) (port : Nat) (f : Flit), port < s.pkg.ports.length → GateThere s (port + 1) →
    let x := s.pkg.port port
    (Wanted x f → exec (.houseFlitReceive port f true) s = .next { s with pkg := s.pkg.modPort port fun x => { x with asks := x.asks ++ [f.seq] } })
    ∧ (¬ Wanted x f → exec (.houseFlitReceive port f true) s = .next s)
    ∧ (let kept := x.window.filter fun y => decide ((y.seq - f.ack).toNat < 2147483648)
       let more := x.waiting.take (1024 - kept.length)
       ∃ t y, exec (.houseFlitReceive port f false) s = .next t ∧ t.pkg.port port = y ∧ y.window = kept ++ more ∧ y.out = x.out ++ more
        ∧ y.waiting = x.waiting.drop (1024 - kept.length) ∧ y.expect = x.expect ∧ t.pkg.due = s.pkg.due ++ [{ at_ := .now, ev := .houseFlitDeliver port }]
        ∧ (Wanted x f → y.reorder = x.reorder ++ [f] ∧ y.asks = x.asks.filter (· ≠ f.seq)) ∧ (¬ Wanted x f → y.reorder = x.reorder ∧ y.asks = x.asks)))
  ∧ (∀ (s : State) (port seq : Nat),
    ((s.pkg.port port).window.find? (fun f => decide (f.seq.toNat = seq)) = none → exec (.houseResendRequest port seq) s = .next s)
    ∧ (∀ f, (s.pkg.port port).window.find? (fun f => decide (f.seq.toNat = seq)) = some f → exec (.houseResendRequest port seq) s = .next { s with pkg := (s.pkg.modPort port fun x => { x with out := x.out ++ [f] }).count (Config.errHLREPAIR + port) Config.max32 }))
  ∧ (∀ (s : State) (port : Nat) (bad : Bool),
    let p := s.pkg.modPort port fun x => { x with scrub := if x.scrub + 1 < x.window.length then x.scrub + 1 else 0 }
    exec (.windowScrub port bad) s = .next { s with pkg := if bad = true then p.count (Config.errHLREPAIR + port) Config.max32 else p })
  ∧ (∀ (s : State) (port : Nat),
    let x := s.pkg.port port
    let g := s.pkg.gate (port + 1)
    ((∀ f, f ∈ x.reorder → f.seq ≠ x.expect) → exec (.houseFlitDeliver port) s = .next s)
    ∧ (∀ f, x.reorder.find? (fun f => decide (f.seq = x.expect)) = some f → port + 1 < s.pkg.gates.length → s.clk.run = .frozen ∨ s.pkg.win.gatemodeCur = 2 →
        exec (.houseFlitDeliver port) s = .next s)
    ∧ (∀ f, x.reorder.find? (fun f => decide (f.seq = x.expect)) = some f → port + 1 < s.pkg.gates.length → port < s.pkg.ports.length → s.clk.run = .running →
        s.pkg.win.gatemodeCur = 0 → g.ingress = [] → g.digests = [] →
        exec (.houseFlitDeliver port) s = .next { s with pkg := ((s.pkg.modGate (port + 1) (AcceptedAt s (port + 1) (.flit f))).modPort port fun x =>
          { x with expect := x.expect + 1, reorder := x.reorder.filter fun y => y.seq ≠ f.seq }).later .now (.houseFlitDeliver port) }))
  ∧ (∀ (s : State) (port : Nat) (f : Flit),
    ((s.pkg.port port).origin.find? (fun o => decide (o.2.tag = f.tag)) = none → exec (.endToEndAck port f) s = .next s)
    ∧ (∀ o, (s.pkg.port port).origin.find? (fun o => decide (o.2.tag = f.tag)) = some o → exec (.endToEndAck port f) s = .next { s with pkg := (s.pkg.modPort port fun x => { x with origin := x.origin.filter fun y => y.2.tag ≠ f.tag }).modGate (port + 1) fun g => { g with egacked := max g.egacked o.1 } }))
  ∧ (∀ (s : State) (port : Nat) (f : Flit),
    let old := s.pkg.peerRead f.pa.toNat 64
    let new := Config.peerAtomic f.payload old
    let after := fun (p : Package) (d : Due) => { s with pkg := { p with due := p.due ++ [d] } }
    exec (.houseWrite port f) s = .next (after (s.pkg.peerStore f.pa.toNat ((f.payload ++ List.replicate 64 0).take 64)) (FlitSent port 6 f.tag (List.replicate 64 0)))
    ∧ exec (.houseReadRequest port f) s = .next (after s.pkg (FlitSent port 3 f.tag old))
    ∧ exec (.houseAtomic port f) s = .next (after (s.pkg.peerStore f.pa.toNat (new.1.take 64)) (FlitSent port 5 f.tag ((new.2 ++ List.replicate 64 0).take 64)))
    ∧ exec (.houseReadCompletion port f) s = .next s ∧ exec (.houseAtomicCompletion port f) s = .next s)
  ∧ (∀ (s : State) (port : Nat) (f : Flit),
    let kind := Config.alignKind f.payload
    let t := Config.alignTime f.payload
    (kind = 0 → exec (.houseManagementFlit port f) s = .next { s with pkg := s.pkg.modPort port fun x => { x with t2 := s.clk.mcyc - 16 } })
    ∧ (kind = 1 → exec (.houseManagementFlit port f) s = .next { s with pkg := { (s.pkg.modPort port fun x => { x with t1 := t, t3 := s.clk.mcyc }) with due := s.pkg.due ++ [FlitSent port 7 0 (Config.alignFlit 2 0)] } })
    ∧ (kind = 2 → exec (.houseManagementFlit port f) s = .next { s with pkg := { s.pkg with due := s.pkg.due ++ [FlitSent port 7 0 (Config.alignFlit 3 (s.clk.mcyc - 16))] } })
    ∧ (kind = 3 → exec (.houseManagementFlit port f) s = .next { s with pkg := s.pkg.modPort port fun x =>
        { x with peeroff := Halved (((x.t2 : Int) - x.t1) - ((t : Int) - x.t3)), peerdly := Halved (((x.t2 : Int) - x.t1) + ((t : Int) - x.t3)) } })
    ∧ (3 < kind → exec (.houseManagementFlit port f) s = .next s))
  ∧ (∀ (s : State) (port : Nat), exec (.timeSyncExchange port) s = .next { s with pkg := { (s.pkg.modPort port fun x => { x with leader := true, t1 := s.clk.mcyc }) with
        due := s.pkg.due ++ [FlitSent port 7 0 (Config.alignFlit 0 0), FlitSent port 7 0 (Config.alignFlit 1 s.clk.mcyc)] } })

/-- STOPAT_STOP, STOPAT_WRITE, FREEZE, THAW, TAKE, RESTORE, RESET, POWER_ON_RESET and TABLEAU_OPERATION_END (R3, R55, R366 to R373, R387). A stop freezes
the package at the edge at which the named counter becomes COUNT; a tableau is taken and restored while frozen; a thaw is refused after a hard failure
and runs no stage that is held in reset; every reset reads the straps, and each stage that stops in reset reports it. Readings the model takes here:
log entries 77, 78, 79, 80, 82. -/
def Obligations.RunControl : Prop :=
  (∀ s : State,
    let x := s.pkg.win.stopat
    (x.getLsbD 63 = false ∨ s.clk.run = .frozen ∨ StopCounter s x ≠ StopCount x → exec .stopatStop s = .next s)
    ∧ (x.getLsbD 63 = true → s.clk.run = .running → StopCounter s x = StopCount x → exec .stopatStop s = .next { s with clk := { s.clk with run := .frozen }, pkg := { s.pkg with win := { s.pkg.win with stopat := x &&& 0x7FFFFFFFFFFFFFFF#64 }, stopReq := [], stopcause := .stopat } }))
  ∧ (∀ (s : State) (x : Quad),
    let kept := x &&& ~~~(0x1F#64 <<< 58)
    let late : Prop := StopCount kept ≤ StopCounter s kept
        ∨ ((kept >>> 56).toNat % 4 = 3 ∧ let m := (kept >>> 51).toNat % 32
            s.pkg.present (m / 8) = false ∨ (s.pkg.company m).gatedNow = true)
    (kept.getLsbD 63 = true → late → exec (.stopatWrite x) s = .next { s with pkg := { s.pkg with win := { s.pkg.win with stopat := kept &&& 0x7FFFFFFFFFFFFFFF#64, stoplate := true, lateAt := s.clk.mcyc + 1 } } })
    ∧ (kept.getLsbD 63 = false ∨ ¬ late → exec (.stopatWrite x) s = .next { s with pkg := { s.pkg with win := { s.pkg.win with stopat := kept } } }))
  ∧ (∀ s : State,
    (s.clk.run = .frozen → exec .freeze s = .next { s with pkg := OpOver s.pkg 0 })
    ∧ (s.clk.run = .running → exec .freeze s = .next { s with clk := { s.clk with run := .frozen }, pkg := { OpOver s.pkg 0 with stopcause := .freeze } })
    ∧ (s.pkg.stages = 0 → exec .thaw s = .next s)
    ∧ (s.clk.run = .running → s.pkg.stages ≠ 0 → exec .thaw s = .next { s with pkg := OpOver s.pkg 2 })
    ∧ (s.clk.run = .running → exec .take s = .next { s with pkg := OpOver s.pkg 2 }
        ∧ exec .restore s = .next { s with pkg := OpOver s.pkg 2 })
    ∧ (s.clk.run = .frozen → s.pkg.stages ≠ 0 → s.pkg.stopcause = .hardFailure → exec .thaw s = .next { s with pkg := OpOver s.pkg 4 })
    ∧ (s.clk.run = .frozen → s.pkg.stages ≠ 0 → s.pkg.stopcause ≠ .hardFailure → NothingHeld s →
        exec .thaw s = .next { s with clk := { s.clk with run := .running }, pkg := OpOver s.pkg 0 })
    ∧ (let w := s.pkg.win
       let short : Prop := w.tabsize.toNat < s.pkg.tabBytes ∨ (w.tabhost = false ∧ (w.tabbase.toNat < w.svc.1 ∨ w.svc.1 + w.svc.2 < w.tabbase.toNat + w.tabsize.toNat))
       (s.clk.run = .frozen → short → exec .take s = .next { s with pkg := OpOver s.pkg 1 })
       ∧ (s.clk.run = .frozen → ¬ short → ∃ t i, exec .take s = .next t ∧ t.clk = s.clk ∧ t.pkg = OpOver s.pkg 0
          ∧ t.images = s.images.filter (fun j => !(j.host = w.tabhost && j.base = w.tabbase)) ++ [i] ∧ i.host = w.tabhost ∧ i.base = w.tabbase ∧ i.pkg = s.pkg ∧ i.clk = s.clk)
       ∧ (s.clk.run = .frozen → (∀ i, s.images.find? (fun i => decide (i.host = w.tabhost) && decide (i.base = w.tabbase)) = some i → s.pkg.imageGood i = false) →
          exec .restore s = .next { s with pkg := OpOver s.pkg 3 })
       ∧ (∀ i, s.clk.run = .frozen → s.images.find? (fun i => decide (i.host = w.tabhost) && decide (i.base = w.tabbase)) = some i → s.pkg.imageGood i = true →
          ∃ t, exec .restore s = .next t ∧ t.clk = { i.clk with run := .frozen } ∧ t.images = s.images ∧ t.pkg.cores = i.pkg.cores ∧ t.pkg.casts = i.pkg.casts
            ∧ t.pkg.parts = i.pkg.parts ∧ t.pkg.dram = (if i.dram then i.pkg.dram else s.pkg.dram) ∧ HostKeeps s.pkg.win t.pkg.win ∧ t.pkg.win.taberr = 0))
    ∧ (∃ t, exec .reset s = .next t ∧ t.clk = { run := .frozen } ∧ t.images = s.images ∧ t.pkg.stopcause = .heldReset ∧ t.pkg.straps = s.pkg.straps
        ∧ t.pkg.stages = (if stageSetOk (strapSet s.pkg.straps) = true then strapSet s.pkg.straps else 0)
        ∧ (t.pkg.win.strapConflict = true ↔ ∃ i, i < 4 ∧ 1 < (s.pkg.straps.filter fun x => x = i).length)
        ∧ t.pkg.cores = List.replicate 256 {} ∧ t.pkg.parts = List.replicate 8 {} ∧ t.pkg.casts = [] ∧ HostKeeps s.pkg.win t.pkg.win
        ∧ t.pkg.win.gatemodeCur = s.pkg.win.gatemodeReq ∧ (∀ g, (t.pkg.gate g).loghead = 0 ∧ (t.pkg.gate g).logtail = 0)
        ∧ t.pkg.dram = s.pkg.regionCells s.pkg.win.svc.1 s.pkg.win.svc.2)
    ∧ exec .tableauOperationEnd s = .next { s with pkg := { s.pkg with win := { s.pkg.win with tabbusy := false, tabop := 0 } } })
  ∧ (∀ (s : State) (straps : List Nat),
    let once := fun i => (straps.filter fun x => x = i).length = 1
    let twice : Prop := ∃ i, i < 4 ∧ 1 < (straps.filter fun x => x = i).length
    ∃ t, exec (.powerOnReset straps) s = .next t ∧ t.clk.rtick = 0 ∧ t.clk.mcyc = 0 ∧ t.clk.vcyc = 0 ∧ (∀ m, t.clk.companies.getD m 0 = 0) ∧ t.agenda = s.agenda
      ∧ t.pkg.cores = List.replicate 256 {} ∧ t.pkg.dram = [] ∧ t.pkg.win.gatemodeCur = 0 ∧ (t.pkg.win.strapConflict = true ↔ twice)
      ∧ (t.clk.run = .running ↔ stageSetOk (strapSet straps) = true)
      ∧ t.pkg.straps = straps ∧ (∃ l, t.pkg.sent = s.pkg.sent ++ l
          ∧ l.length = (if stageSetOk (strapSet straps) = true then (straps.filter fun i => decide (¬ once i)).length else straps.length)
          ∧ ∀ x, x ∈ l → x = (14, .mgmt (Config.strapReport 0)) ∨ x = (14, .mgmt (Config.strapReport 1)))
      ∧ (t.clk.run = .running → ∀ i, i < 4 → (t.pkg.stages.getLsbD i = true ↔ once i)) ∧ (t.clk.run = .frozen → t.pkg.stages = 0))

/-- HOST_WINDOW_WRITE, STATUS_CLEAR, HMQTAIL_WRITE, HMQSIZE_WRITE, WINDOW_WRITE, WINDOW_READ, ERROR_COUNTER_CLEAR and SERVICE_REGION_ACCESS (R8, R90, R91,
R167, R168, R321, R388, Tables 4.6 and 21.4). A write of the window waits for its tick boundary; what takes no write ignores it, and an offset that is
not aligned reads 0; a bit of STATUS that the device sets in the very cycle stays set; BAR 4 shows the service region. LOGTAIL_WRITE and
GATEMODE_WRITE (R55, R319, R322, R324). The host frees entries of a ring; PASS and RECORD are entered at once, with EGDIG and its count 0 and logging
on again in RECORD; REPLAY is only requested, and a request of 3 is ignored. Readings the model takes here: log entries 28, 63, 88, 96. -/
def Obligations.HostWindowAndGateRegisters : Prop :=
  (∀ (s : State) (x : Quad),
    let w := s.pkg.win
    let to_ := fun (u : Window0) => Host.Outcome.next ({ s with pkg := { s.pkg with win := u } } : State)
    exec (.hostWindowWrite 0x220 x) s = to_ { w with svcbase := BitVec.ofNat 64 (x.toNat / 65536 * 65536) }
    ∧ exec (.hostWindowWrite 0x228 x) s = to_ { w with svcsize := x } ∧ exec (.hostWindowWrite 0x310 x) s = to_ { w with tabsize := x }
    ∧ exec (.hostWindowWrite 0x308 x) s = to_ { w with tabbase := BitVec.ofNat 64 (x.toNat / 4096 * 4096) }
    ∧ (NothingHeld s → exec (.hostWindowWrite 0x208 x) s =
        to_ { w with logen := x.setWidth 15, lossy := (x >>> 16).setWidth 15, digest := (x >>> 32).setWidth 15 })
    ∧ (w.tabbusy = true → exec (.hostWindowWrite 0x300 x) s = .next s)
    ∧ (w.tabbusy = false → 1 ≤ x.toNat % 16 → x.toNat % 16 ≤ 5 → ∃ ev, exec (.hostWindowWrite 0x300 x) s = .next { s with pkg := { s.pkg with win := { w with tabop := x.toNat % 16, tabdram := x.getLsbD 4, tabhost := x.getLsbD 5, stopen := x.getLsbD 8, tabbusy := true, taberr := 0 }, due := s.pkg.due ++ [{ at_ := .now, ev := ev }] } }
      ∧ [(1, Instr.take), (2, .restore), (3, .thaw), (4, .freeze), (5, .reset)].lookup (x.toNat % 16) = some ev)
    ∧ (∀ k, k < 8 → exec (.hostWindowWrite (0x800 + 32 * k) x) s = .next { s with pkg := s.pkg.modPart k fun q => { q with hmqBase := x } })
    ∧ (∀ off, off < 0x100 ∨ 0x900 ≤ off → exec (.hostWindowWrite off x) s = .next s)
    ∧ (w.brokenAt ≠ s.clk.mcyc + 1 → w.lateAt ≠ s.clk.mcyc + 1 → w.failAt ≠ s.clk.mcyc + 1 → exec (.statusClear x) s =
        to_ { w with replayBroken := w.replayBroken && !x.getLsbD 5, stoplate := w.stoplate && !x.getLsbD 6, hardfail := w.hardfail && !x.getLsbD 7 })
    ∧ (∃ u, exec (.statusClear x) s = to_ u ∧ u = { w with replayBroken := u.replayBroken, stoplate := u.stoplate, hardfail := u.hardfail }
        ∧ (w.brokenAt = s.clk.mcyc + 1 → u.replayBroken = w.replayBroken) ∧ (w.lateAt = s.clk.mcyc + 1 → u.stoplate = w.stoplate)
        ∧ (w.failAt = s.clk.mcyc + 1 → u.hardfail = w.hardfail))
    ∧ (x = 0 → exec (.replaybrkClear x) s = to_ { w with replaybrk := 0 }) ∧ (x ≠ 0 → exec (.replaybrkClear x) s = .next s))
  ∧ (∀ (s : State) (k : Nat) (x : Quad),
    let q := s.pkg.part k
    let tail : Word := x.setWidth 32
    let set := (s.pkg.modPart k fun q => { q with hmqTail := tail }).later .now (.hmqEntryWrite k)
    (q.hmqSize.toNat < (q.hmqHead - tail).toNat → exec (.hmqtailWrite k x) s = .next s)
    ∧ ((q.hmqHead - tail).toNat ≤ q.hmqSize.toNat → exec (.hmqtailWrite k x) s = .next { s with pkg := if q.hmqHead = q.hmqTail ∧ q.hmqHead ≠ tail then set.later .now (.egressTransaction 0 (.msix (k + 1) 0)) else set })
    ∧ exec (.hmqsizeWrite k x) s = .next { s with pkg := (s.pkg.modPart k fun q => { q with hmqSize := x }).later .now (.hmqEntryWrite k) })
  ∧ (∀ (s : State) (off : Nat) (x : Quad),
    let at_ := fun t : Nat => Host.Outcome.next ({ s with pkg := { s.pkg with hostWrites := s.pkg.hostWrites ++ (windowRows off x).map fun ev => { tick := t, ev := ev } } } : State)
    (off % 8 ≠ 0 → exec (.windowWrite off x) s = .next s)
    ∧ (off % 8 = 0 → LiveRegister off → exec (.windowWrite off x) s = at_ (s.clk.rtick + 1))
    ∧ (off % 8 = 0 → ¬ LiveRegister off → exec (.windowWrite off x) s = at_ ((s.clk.mcyc + 63) / 64))
    ∧ exec (.windowRead off) s = .next { s with pkg := s.pkg.later .now (.egressTransaction 14 (.mgmt (leBytes 8 (if off % 8 = 0 then s.pkg.windowValue s.clk off else 0)))) }
    ∧ exec (.errorCounterClear off) s = .next { s with pkg := { s.pkg with errors := tabErase s.pkg.errors off } })
  ∧ (∀ (s : State) (off len : Nat) (data : List Byte),
    let base := s.pkg.win.svc.1
    let size := s.pkg.win.svc.2
    let n := if data = [] then len else data.length
    let bad : Prop := n = 0 ∨ 512 < n ∨ off % 4 ≠ 0 ∨ n % 4 ≠ 0
    let reply := fun t : Egress => Host.Outcome.next ({ s with pkg := { s.pkg with sent := s.pkg.sent ++ [(0, t)] } } : State)
    (bad → exec (.serviceRegionAccess off len data) s = reply (.unsupportedRequest 0))
    ∧ (¬ bad → data = [] → exec (.serviceRegionAccess off len data) s =
        reply (.readReply 0 ((List.range n).map fun i => if off + i < size then (s.pkg.paRead (base + off + i) 1).headD 0 else 0)))
    ∧ (¬ bad → data ≠ [] → size ≤ off → exec (.serviceRegionAccess off len data) s = .next s)
    ∧ (¬ bad → data ≠ [] → off < size → exec (.serviceRegionAccess off len data) s = .next { s with pkg := s.pkg.paWrite (base + off) (data.take (size - off)) }))
  ∧ (∀ (s : State) (g : Nat) (x : Quad), (s.pkg.gate g).ingress = [] → (s.pkg.gate g).digests = [] →
    let p := s.pkg.modGate g fun y => { y with logtail := x.setWidth 32 }
    exec (.logtailWrite g x) s = .next { s with pkg := if 1 ≤ g ∧ g ≤ 12 then p.later .now (.houseFlitDeliver (g - 1)) else p })
  ∧ (∀ (s : State) (x : Quad),
    (x.toNat % 4 = 3 → exec (.gatemodeWrite x) s = .next s)
    ∧ (x.toNat % 4 = 2 → exec (.gatemodeWrite x) s = .next { s with pkg := { s.pkg with win := { s.pkg.win with gatemodeReq := 2 } } })
    ∧ (x.toNat % 4 < 2 → NothingHeld s → ∃ t, exec (.gatemodeWrite x) s = .next t
        ∧ t.pkg.win = { s.pkg.win with gatemodeReq := x.toNat % 4, gatemodeCur := x.toNat % 4 } ∧ t.pkg.cores = s.pkg.cores
        ∧ (x.toNat % 4 = s.pkg.win.gatemodeCur ∨ x.toNat % 4 = 0 → t.pkg.gates = s.pkg.gates)
        ∧ (x.toNat % 4 = 1 → s.pkg.win.gatemodeCur ≠ 1 → ∀ g, g < s.pkg.gates.length → ∃ y, t.pkg.gate g = y
            ∧ y = { s.pkg.gate g with off := false, egdig := List.replicate 32 0, egcount := 0, digests := [], partialData := [] })))

/-- A step runs the word that the fetch brings (R58, R63, R74): where a party of a running package is ready and a word without a chain bit stands at its
counter, the step is exec of the decoded instruction at the state in which that word is being issued. An input from outside and a due event run the
event itself. Readings the model takes here: log entries 2, 3. -/
def Obligations.StepRunsWord : Prop :=
  (∀ (s : State) (core slot leader : Nat) (rest : List Turn) (w : Wave) (c : Cast) (pc : Quad) (x : Word) (i : Instr),
    s.agenda = .issue core slot leader :: rest → s.clk.run = .running → (({ s with cur := none, agenda := rest } : State).readyChain core slot leader).isSome = true →
    s.pkg.wave? core slot = some w → s.pkg.cast? core w.cast = some c → w.issueCounter leader = some pc →
    s.pkg.fetch core slot c (w.activeOf (w.issuing leader)) pc = .word x → x.getLsbD 31 = false → decode x = .ok i →
    ∃ t, IssuedAt { s with agenda := rest } t core slot leader pc x ∧ step s = AfterIssue core slot leader (exec i t))
  ∧ (∀ (s : State) (core slot leader : Nat) (p : Package) (w : Wave) (c : Cast) (pc : Quad) (x : Word) (i : Instr),
    s.agenda = [] → ({ s with cur := none } : State).choose = .issue core slot leader p →
    p.wave? core slot = some w → p.cast? core w.cast = some c → w.issueCounter leader = some pc → w.park = none → w.blockedAt leader = none → w.issuing leader ≠ [] →
    p.fetch core slot c (w.activeOf (w.issuing leader)) pc = .word x → x.getLsbD 31 = false → decode x = .ok i →
    ∃ t, IssuedAt { s with pkg := p } t core slot leader pc x ∧ step s = AfterIssue core slot leader (exec i t))
  ∧ (∀ (s : State) (ev : Instr) (rest : List Turn), s.agenda = .event ev :: rest → Instr.external ev = true →
    step s = exec ev { s with cur := none, agenda := rest })
  ∧ (∀ (s : State) (ev : Instr) (p : Package), s.agenda = [] → ({ s with cur := none } : State).choose = .event ev p → step s = exec ev { s with cur := none, pkg := p })
  ∧ (∀ s t : State, s.agenda = [] → ({ s with cur := none } : State).choose = .go t → step s = .next t)

/-- Words written out from Tables 3.2 and 3.3 are the instructions that they stand for, and an unassigned minor or a set bit in a field that its row fixes
at 0 is refused by name (R62, R64, R68). -/
def Obligations.WordsDecode : Prop :=
  decode 0xC0001030#32 = .ok (.vadd { c := 1, k := 1, d := 0, a := 2, b := 3 })
  ∧ decode 0x1A0DFFFF#32 = .ok (.sli { c := 0, k := 0, d := 3, i := 131071 })
  ∧ decode 0x06102863#32 = .ok (.fmac { c := 0, k := 0, d := 4, a := 5, b := 6 })
  ∧ decode 0x26000006#32 = .ok (.exit { c := 0 })
  ∧ decode 0x06102863#32 ≠ decode 0x06102862#32 ∧ decode 0x2600000F#32 = .error .illegalOp ∧ decode 0x26000016#32 = .error .illegalOperand

/-- Every instruction word decodes to the instruction that it was encoded from, at every value of every field, and every word that decodes is the encoding
of what it decodes to: no bit of an encoding is dropped (R62, R64, Tables 3.2 and 3.3). -/
def Obligations.DecodeAndEncodeAgree : Prop :=
  (∀ (i : Instr) (x : Word), encode i = some x → decode x = .ok i) ∧ (∀ (x : Word) (i : Instr), decode x = .ok i → encode i = some x)

/-- The package right after a power-on reset (R373, Tables 4.6, 18.5, 20.3, 21.1): it runs in PASS with the counters at 0, four stages, no partition
valid, nothing resident, every company at level 36. The clock of the state after reset agrees with its place in the reference tick (R366): the
invariant of `ClockKept` holds there. Readings the model takes here: log entries 6. -/
def Obligations.ResetState : Prop :=
  (let s := State.reset
  s.clk.run = .running ∧ s.clk.rtick = 0 ∧ s.clk.mcyc = 0 ∧ s.clk.vcyc = 0 ∧ (∀ m, s.clk.companies.getD m 0 = 0)
    ∧ s.pkg.win.gatemodeReq = 0 ∧ s.pkg.win.gatemodeCur = 0 ∧ s.pkg.win.stopat = 0 ∧ s.pkg.win.replaybrk = 0 ∧ s.pkg.win.powercap = 6400 ∧ s.pkg.stopcause = .none
    ∧ (∀ k, (s.pkg.part k).valid = false ∧ (s.pkg.part k).companies = 0 ∧ (s.pkg.part k).hmqHead = 0 ∧ (s.pkg.part k).hmqTail = 0)
    ∧ (∀ core slot, s.pkg.wave? core slot = none ∧ s.pkg.cast? core slot = none) ∧ (∀ m, (s.pkg.company m).level = 36 ∧ (s.pkg.company m).staged = [])
    ∧ (∀ g, (s.pkg.gate g).loghead = 0 ∧ (s.pkg.gate g).logtail = 0 ∧ (s.pkg.gate g).egcount = 0) ∧ s.pkg.casts = [] ∧ s.pkg.dram = [] ∧ s.agenda = [])
  ∧ ClocksAgree State.reset

/-- Every step keeps the clocks in agreement (R22, R365, R366, R372): MCYC = 64 × RTICK and VCYC = 48 × RTICK at every tick boundary, and in between the
edges that have passed. -/
def Obligations.ClockKept : Prop :=
  (∀ s t : State, ClocksAgree s → step s = .next t → ClocksAgree t)
end

