-- ==== Sys2Proof/Laws/Words.lean ====
section
/-! SUPPORT. What a register word does, said once for each shared form: the lemmas about lists, waves and the close of a word, and one lemma each for
the vector, pair, scalar, predicate and flagged results (Sys2Proof/Machine/Issue.lean, VectorFp.lean). -/

namespace Sys2Proof.Machine

theorem modAt_length {α : Type} (l : List α) (i : Nat) (f : α → α) : (modAt l i f).length = l.length := by
  induction l generalizing i with
  | nil => rfl
  | cons x l ih => cases i <;> simp [modAt, ih]

theorem modAt_get? {α : Type} (l : List α) (i k : Nat) (f : α → α) : (modAt l i f)[k]? = if k = i then l[k]?.map f else l[k]? := by
  induction l generalizing i k with
  | nil => simp [modAt]
  | cons x l ih =>
    cases i <;> cases k <;> simp [modAt, ih]

theorem modAt_getD {α : Type} (l : List α) (i k : Nat) (f : α → α) (d : α) (h : k ≠ i) : (modAt l i f).getD k d = l.getD k d := by
  simp [List.getD_eq_getElem?_getD, modAt_get?, h]

theorem modAt_getD_self {α : Type} (l : List α) (i : Nat) (f : α → α) (d : α) (h : i < l.length) : (modAt l i f).getD i d = f (l.getD i d) := by
  simp [List.getD_eq_getElem?_getD, modAt_get?, h]

theorem modSlices_get? (w : Wave) (ks : List Nat) (f : Nat → Slice → Slice) (k : Nat) :
    (w.modSlices ks f).slices[k]? = if k ∈ ks then w.slices[k]?.map (f k) else w.slices[k]? := by
  simp only [Wave.modSlices, List.getElem?_map, List.getElem?_zipIdx]
  cases w.slices[k]? <;> simp
  split <;> rfl

theorem view_spec {s : State} {v : View} (h : s.view = some v) :
    s.cur = some v.iss ∧ s.pkg.wave? v.iss.core v.iss.slot = some v.now ∧ s.pkg.cast? v.iss.core v.now.cast = some v.cast
      ∧ v.src = v.iss.src.getD v.now ∧ v.slices = v.src.issuing v.iss.leader ∧ v.slices ≠ [] ∧ v.act = v.now.activeOf v.slices := by
  unfold State.view at h
  split at h
  · cases h
  split at h
  · cases h
  split at h
  · cases h
  simp only at h
  split at h
  · cases h
  rename_i hk
  cases h
  refine ⟨by assumption, by assumption, by assumption, rfl, rfl, ?_, rfl⟩
  simpa [List.isEmpty_iff] using hk

/-- What the close of a word makes of its wave. -/
def Wave.close (w : Wave) (v : View) (i : Instr) (moved : Bool) : Wave :=
  let w := w.modSlice v.iss.leader fun k => { k with win := v.windowAfter i k.win }
  if v.iss.final then
    let w := w.advance v (moved || v.iss.moved) ((w.blockedAt v.iss.leader).map Blocked.word)
    if w.park.isSome then w.clearLatches else w
  else w

theorem wave?_modWave (p : Package) (c k c' k' : Nat) (f : Wave → Wave) :
    (p.modWave c k f).wave? c' k' = if c' = c ∧ k' = k then (p.wave? c' k').map f else p.wave? c' k' := by
  simp only [Package.wave?, Package.modWave, Package.modCtx, Package.modCore, modAt_get?]
  by_cases hc : c' = c
  · subst hc
    cases h : p.cores[c']? with
    | none => simp
    | some x =>
      simp [modAt_get?]
      by_cases hk : k' = k
      · subst hk; cases h2 : x.ctx.waves[k']? with
        | none => simp
        | some y => cases y <;> simp
      · simp [hk]
  · simp [hc]

theorem cast?_modWave (p : Package) (c k c' k' : Nat) (f : Wave → Wave) : (p.modWave c k f).cast? c' k' = p.cast? c' k' := by
  simp only [Package.cast?, Package.modWave, Package.modCtx, Package.modCore, modAt_get?]
  by_cases hc : c' = c
  · subst hc; cases p.cores[c']? <;> simp
  · simp [hc]

theorem wave?_modCompany (p : Package) (m c k : Nat) (f : Company → Company) : (p.modCompany m f).wave? c k = p.wave? c k := rfl

theorem wave?_charge (p : Package) (c cs pr n c' k' : Nat) : (p.charge c cs pr n).wave? c' k' = p.wave? c' k' := by
  simp only [Package.charge, Package.wave?, Package.modCast, Package.modCtx, Package.modCore, Package.modCompany, modAt_get?]
  by_cases hc : c' = c
  · subst hc; cases p.cores[c']? <;> simp
  · simp [hc]

theorem finish_issuer (s : State) (v : View) (i : Instr) (m : Bool) :
    (s.finish v i m).issuer v = (s.issuer v).map fun w => w.close v i m := by
  unfold State.finish State.issuer Wave.close
  by_cases hf : v.iss.final <;>
    simp [hf, State.onWave, State.modWave, State.modPkg, State.modCur, wave?_modWave, wave?_charge, Function.comp_def]


theorem core_modCore_self (p : Package) (c : Nat) (f : Core → Core) (h : c < p.cores.length) : (p.modCore c f).core c = f (p.core c) :=
  modAt_getD_self _ _ _ _ h

theorem core_modCore_ne (p : Package) (c c' : Nat) (f : Core → Core) (h : c' ≠ c) : (p.modCore c f).core c' = p.core c' :=
  modAt_getD _ _ _ _ _ h

theorem company_modCompany_self (p : Package) (c : Nat) (f : Company → Company) (h : c < p.companies.length) :
    (p.modCompany c f).company c = f (p.company c) := modAt_getD_self _ _ _ _ h

theorem company_modCompany_ne (p : Package) (c c' : Nat) (f : Company → Company) (h : c' ≠ c) : (p.modCompany c f).company c' = p.company c' :=
  modAt_getD _ _ _ _ _ h

@[simp] theorem company_modCore (p : Package) (c m : Nat) (f : Core → Core) : (p.modCore c f).company m = p.company m := rfl
@[simp] theorem core_modCompany (p : Package) (c m : Nat) (f : Company → Company) : (p.modCompany m f).core c = p.core c := rfl
@[simp] theorem cores_modCore (p : Package) (c : Nat) (f : Core → Core) : (p.modCore c f).cores.length = p.cores.length := modAt_length _ _ _
@[simp] theorem cores_modCompany (p : Package) (m : Nat) (f : Company → Company) : (p.modCompany m f).cores = p.cores := rfl
@[simp] theorem companies_modCore (p : Package) (c : Nat) (f : Core → Core) : (p.modCore c f).companies = p.companies := rfl

theorem core_lt_of_wave? {p : Package} {c k : Nat} {w : Wave} (h : p.wave? c k = some w) : c < p.cores.length := by
  by_contra hc
  simp [Package.wave?, List.getElem?_eq_none (Nat.le_of_not_lt hc)] at h

theorem cast?_charge (p : Package) (c cs pr n c' k' : Nat) :
    (p.charge c cs pr n).cast? c' k' =
      if c' = c ∧ k' = cs then (p.cast? c' k').map fun x => { x with cchg := satCharge (x.cchg + n) } else p.cast? c' k' := by
  simp only [Package.charge, Package.cast?, Package.modCast, Package.modCtx, Package.modCore, Package.modCompany, modAt_get?]
  by_cases hc : c' = c
  · subst hc
    simp only [if_true, true_and]
    cases h : p.cores[c']? with
    | none => simp
    | some x =>
      simp only [Option.map_some, Option.bind_some, modAt_get?]
      by_cases hk : k' = cs
      · subst hk; cases h2 : x.ctx.casts[k']? with
        | none => simp
        | some y => cases y <;> simp
      · simp [hk]
  · simp [hc]

theorem core_modWave_self (p : Package) (c k : Nat) (f : Wave → Wave) (h : c < p.cores.length) :
    (p.modWave c k f).core c = { p.core c with ctx := { (p.core c).ctx with waves := modAt (p.core c).ctx.waves k (·.map f) } } :=
  core_modCore_self _ _ _ h

theorem core_modWave_ne (p : Package) (c c' k : Nat) (f : Wave → Wave) (h : c' ≠ c) : (p.modWave c k f).core c' = p.core c' :=
  core_modCore_ne _ _ _ _ h

theorem cores_modWave (p : Package) (c k : Nat) (f : Wave → Wave) : (p.modWave c k f).cores.length = p.cores.length := cores_modCore _ _ _

theorem cores_charge (p : Package) (c cs pr n : Nat) : (p.charge c cs pr n).cores.length = p.cores.length :=
  (cores_modCore _ _ _).trans (cores_modCore _ _ _)

theorem core_charge_self (p : Package) (c cs pr n : Nat) (h : c < p.cores.length) :
    (p.charge c cs pr n).core c = { p.core c with
      kchg := satCharge ((p.core c).kchg + n)
      ctx := { (p.core c).ctx with casts := modAt (p.core c).ctx.casts cs (·.map fun x => { x with cchg := satCharge (x.cchg + n) }) } } := by
  unfold Package.charge Package.modCast Package.modCtx
  have h1 : c < (p.modCompany (companyOf c) fun m => { m with charge := modAt m.charge pr fun c => satCharge (c + n) }).cores.length := h
  rw [core_modCore_self _ _ _ (by rw [cores_modCore]; exact h1), core_modCore_self _ _ _ h1, core_modCompany]

theorem core_charge_ne (p : Package) (c c' cs pr n : Nat) (h : c' ≠ c) : (p.charge c cs pr n).core c' = p.core c' := by
  unfold Package.charge Package.modCast Package.modCtx
  rw [core_modCore_ne _ _ _ _ h, core_modCore_ne _ _ _ _ h, core_modCompany]

/-- A package change that is one of the register words: the wave and the charge. -/
theorem pkg_finish (s : State) (v : View) (i : Instr) (m : Bool) :
    ∃ g : Wave → Wave, (s.finish v i m).pkg =
      ((s.pkg.modWave v.iss.core v.iss.slot fun w => w.modSlice v.iss.leader fun k => { k with win := v.windowAfter i k.win }).charge
        v.iss.core v.src.cast v.cast.prio (chargeOf i v.act)).modWave v.iss.core v.iss.slot g := by
  unfold State.finish
  split
  · exact ⟨_, rfl⟩
  · refine ⟨id, ?_⟩
    simp only [State.onWave, State.modWave, State.modPkg, State.modCur]
    generalize ((s.pkg.modWave _ _ _).charge _ _ _ _) = p
    unfold Package.modWave Package.modCtx Package.modCore
    have h1 : ∀ {α : Type} (l : List α) (i : Nat), modAt l i (fun x => x) = l := by
      intro α l; induction l with
      | nil => intro i; rfl
      | cons x l ih => intro i; cases i <;> simp [modAt, ih]
    have h2 : (fun k : Core => { k with ctx := { k.ctx with waves := modAt k.ctx.waves v.iss.slot (·.map id) } }) = fun k => k := by
      funext k; simp [h1]
    rw [h2, h1]

theorem outside_finish' (s s1 : State) (v : View) (i : Instr) (m : Bool) (f : Wave → Wave) (x : Wave)
    (hw : s.pkg.wave? v.iss.core v.iss.slot = some x)
    (hp : s1.pkg = s.pkg.modWave v.iss.core v.iss.slot f) (hc : s1.clk = s.clk) (ha : s1.agenda = s.agenda) (hi : s1.images = s.images) :
    Outside s (s1.finish v i m) v i := by
  have hlt := core_lt_of_wave? hw
  obtain ⟨g, hg⟩ := pkg_finish s1 v i m
  rw [hp] at hg
  refine ⟨?_, ?_, ?_, ?_, ?_, ?_, ?_, ?_, ?_, ?_, ?_⟩
  · rw [← hc]; unfold State.finish; split <;> rfl
  · rw [← ha]; unfold State.finish; split <;> rfl
  · rw [← hi]; unfold State.finish; split <;> rfl
  · rw [hg]; rfl
  · intro k hk
    rw [hg]
    exact company_modCompany_ne _ _ _ _ hk
  · intro hk
    rw [hg]
    exact company_modCompany_self _ _ _ hk
  · intro c hk
    rw [hg, core_modWave_ne _ _ _ _ _ hk, core_charge_ne _ _ _ _ _ _ hk, core_modWave_ne _ _ _ _ _ hk, core_modWave_ne _ _ _ _ _ hk]
  · rw [hg, core_modWave_self _ _ _ _ (by rw [cores_charge, cores_modWave, cores_modWave]; exact hlt),
      core_charge_self _ _ _ _ _ (by rw [cores_modWave, cores_modWave]; exact hlt), core_modWave_self _ _ _ _ (by rw [cores_modWave]; exact hlt),
      core_modWave_self _ _ _ _ hlt]
  · intro k hk
    rw [hg]; simp [wave?_modWave, wave?_charge, hk]
  · intro k hk
    rw [hg]; simp [cast?_modWave, cast?_charge, hk]
  · rw [hg]; simp [cast?_modWave, cast?_charge]


theorem outside_finish (s s1 : State) (v : View) (i : Instr) (m : Bool) (f : Wave → Wave)
    (hw : s.pkg.wave? v.iss.core v.iss.slot = some v.now)
    (hp : s1.pkg = s.pkg.modWave v.iss.core v.iss.slot f) (hc : s1.clk = s.clk) (ha : s1.agenda = s.agenda) (hi : s1.images = s.images) :
    Outside s (s1.finish v i m) v i := outside_finish' s s1 v i m f v.now hw hp hc ha hi

theorem modSlice_get? (w : Wave) (k k' : Nat) (f : Slice → Slice) :
    (w.modSlice k f).slices[k']? = if k' = k then w.slices[k']?.map f else w.slices[k']? := modAt_get? _ _ _ _

/-- Only the slices of a wave differ. -/
def OnlySlices (a b : Wave) : Prop := b = { a with slices := b.slices }

theorem advance_only (w : Wave) (v : View) (m : Bool) (x : Option Quad) : OnlySlices w (w.advance v m x) := by
  unfold OnlySlices Wave.advance
  cases m <;> cases x <;> rfl

theorem clearLatches_only (w : Wave) : OnlySlices w w.clearLatches := rfl

theorem OnlySlices.trans {a b c : Wave} (h1 : OnlySlices a b) (h2 : OnlySlices b c) : OnlySlices a c := by
  unfold OnlySlices at *; rw [h2, h1]

theorem modSlice_only (w : Wave) (k : Nat) (f : Slice → Slice) : OnlySlices w (w.modSlice k f) := rfl

theorem close_only (w : Wave) (v : View) (i : Instr) (m : Bool) : OnlySlices w (w.close v i m) := by
  unfold Wave.close
  split
  · dsimp only
    split
    · exact ((modSlice_only w _ _).trans (advance_only _ _ _ _)).trans (clearLatches_only _)
    · exact (modSlice_only w _ _).trans (advance_only _ _ _ _)
  · rfl

theorem modSlices_length (w : Wave) (ks : List Nat) (f : Nat → Slice → Slice) : (w.modSlices ks f).slices.length = w.slices.length := by
  simp [Wave.modSlices]

theorem modSlice_length (w : Wave) (k : Nat) (f : Slice → Slice) : (w.modSlice k f).slices.length = w.slices.length := modAt_length _ _ _

theorem advance_length (w : Wave) (v : View) (m : Bool) (x : Option Quad) : (w.advance v m x).slices.length = w.slices.length := by
  unfold Wave.advance
  cases m <;> cases x <;> simp [modSlices_length, modSlice_length]

theorem close_length (w : Wave) (v : View) (i : Instr) (m : Bool) : (w.close v i m).slices.length = w.slices.length := by
  unfold Wave.close
  split
  · dsimp only
    split
    · simp [Wave.clearLatches, advance_length, modSlice_length]
    · simp [advance_length, modSlice_length]
  · simp [modSlice_length]

theorem SliceKept.refl (a : Slice) : SliceKept a a := rfl

theorem SliceKept.trans {a b c : Slice} (h1 : SliceKept a b) (h2 : SliceKept b c) : SliceKept a c := by
  unfold SliceKept at *; rw [h2, h1]

/-- Every slice of two waves is related. -/
def EachSlice (R : Nat → Slice → Slice → Prop) (w w' : Wave) : Prop :=
  ∀ (k : Nat) (a b : Slice), w.slices[k]? = some a → w'.slices[k]? = some b → R k a b

theorem EachSlice.trans {R S T : Nat → Slice → Slice → Prop} {a b c : Wave} (h1 : EachSlice R a b) (h2 : EachSlice S b c)
    (hl : b.slices.length = a.slices.length) (h : ∀ k x y z, R k x y → S k y z → T k x z) : EachSlice T a c := by
  intro k x z hx hz
  have : k < b.slices.length := by rw [hl]; exact (List.getElem?_eq_some_iff.1 hx).1
  exact h k x _ z (h1 k x _ hx (List.getElem?_eq_getElem this)) (h2 k _ z (List.getElem?_eq_getElem this) hz)

theorem eachSlice_modSlices (w : Wave) (ks : List Nat) (f : Nat → Slice → Slice) :
    EachSlice (fun k a b => b = if k ∈ ks then f k a else a) w (w.modSlices ks f) := by
  intro k a b ha hb
  rw [modSlices_get?, ha] at hb
  split at hb <;> simp_all

theorem eachSlice_modSlice (w : Wave) (k' : Nat) (f : Slice → Slice) :
    EachSlice (fun k a b => b = if k = k' then f a else a) w (w.modSlice k' f) := by
  intro k a b ha hb
  rw [modSlice_get?, ha] at hb
  split at hb <;> simp_all

theorem eachSlice_clearLatches (w : Wave) :
    EachSlice (fun _ a b => b = { a with latches := [], win := { packet := a.win.packet + 1 } }) w w.clearLatches := by
  intro k a b ha hb
  simp only [Wave.clearLatches, List.getElem?_map, ha, Option.map_some, Option.some.injEq] at hb
  exact hb.symm

theorem EachSlice.mono {R S : Nat → Slice → Slice → Prop} {a b : Wave} (h : EachSlice R a b) (hs : ∀ k x y, R k x y → S k x y) : EachSlice S a b :=
  fun k x y hx hy => hs k x y (h k x y hx hy)

theorem eachSlice_refl (w : Wave) : EachSlice (fun _ a b => b = a) w w := by
  intro k a b ha hb; rw [ha] at hb; exact (Option.some.inj hb).symm

theorem keptOf (f : Slice → Slice) (h : ∀ x, SliceKept x (f x)) (c : Prop) [Decidable c] (x : Slice) : SliceKept x (if c then f x else x) := by
  split
  · exact h x
  · rfl

theorem eachKept_modSlices (w : Wave) (ks : List Nat) (f : Nat → Slice → Slice) (h : ∀ k x, SliceKept x (f k x)) :
    EachSlice (fun _ => SliceKept) w (w.modSlices ks f) :=
  (eachSlice_modSlices w ks f).mono fun k x y e => by subst e; exact keptOf (f k) (h k) _ x

theorem eachKept_modSlice (w : Wave) (k : Nat) (f : Slice → Slice) (h : ∀ x, SliceKept x (f x)) :
    EachSlice (fun _ => SliceKept) w (w.modSlice k f) :=
  (eachSlice_modSlice w k f).mono fun k x y e => by subst e; exact keptOf f h _ x

theorem eachKept_trans {a b c : Wave} (h1 : EachSlice (fun _ => SliceKept) a b) (h2 : EachSlice (fun _ => SliceKept) b c)
    (hl : b.slices.length = a.slices.length) : EachSlice (fun _ => SliceKept) a c :=
  EachSlice.trans h1 h2 hl fun _ _ _ _ => SliceKept.trans

theorem advance_slice (w : Wave) (v : View) (m : Bool) (x : Option Quad) : EachSlice (fun _ => SliceKept) w (w.advance v m x) := by
  unfold Wave.advance
  have h1 : EachSlice (fun _ => SliceKept) w (if m then w else w.modSlices v.slices fun _ s => { s with pc := v.iss.next }) := by
    split
    · exact (eachSlice_refl w).mono fun k x y h => by subst h; rfl
    · exact eachKept_modSlices w _ _ fun _ _ => rfl
  have hl : (if m then w else w.modSlices v.slices fun _ s => { s with pc := v.iss.next }).slices.length = w.slices.length := by
    split <;> simp [modSlices_length]
  cases x with
  | none => exact h1
  | some q =>
    refine eachKept_trans h1 (eachKept_trans (eachKept_modSlices _ _ _ ?_) (eachKept_modSlice _ _ _ ?_) (modSlices_length _ _ _)) hl
    · intro _ _; rfl
    · intro _; rfl

/-- What the close of a word does to a slice, at most: the counters, the latches, the packet visit and the wait. -/
theorem close_slice (w : Wave) (v : View) (i : Instr) (m : Bool) : EachSlice (fun _ => SliceKept) w (w.close v i m) := by
  have h0 : EachSlice (fun _ => SliceKept) w (w.modSlice v.iss.leader fun k => { k with win := v.windowAfter i k.win }) :=
    eachKept_modSlice w _ _ fun _ => rfl
  unfold Wave.close
  split
  · have h2 := eachKept_trans h0 (advance_slice _ v (m || v.iss.moved)
      (((w.modSlice v.iss.leader fun k => { k with win := v.windowAfter i k.win }).blockedAt v.iss.leader).map Blocked.word)) (modSlice_length _ _ _)
    dsimp only
    split
    · exact eachKept_trans h2 ((eachSlice_clearLatches _).mono fun _ _ _ h => by subst h; rfl) (by simp [advance_length, modSlice_length])
    · exact h2
  · exact h0

theorem blockedAt_win (w : Wave) (v : View) (i : Instr) :
    (w.modSlice v.iss.leader fun k => { k with win := v.windowAfter i k.win }).blockedAt v.iss.leader = w.blockedAt v.iss.leader := by
  unfold Wave.blockedAt
  rw [modSlice_get?]
  simp only [if_true]
  cases w.slices[v.iss.leader]? <;> rfl

/-- The close of a word that has changed nothing of the slices but their latches: the counters (R74). -/
theorem close_counters (w : Wave) (v : View) (i : Instr)
    (hf : EachSlice (fun _ a b => b = { a with latches := b.latches }) v.now w) (hl : w.slices.length = v.now.slices.length) :
    CountersAdvance v (w.close v i false) := by
  have hb : w.blockedAt v.iss.leader = v.now.blockedAt v.iss.leader := by
    unfold Wave.blockedAt
    by_cases h : v.iss.leader < w.slices.length
    · have h' : v.iss.leader < v.now.slices.length := hl ▸ h
      rw [List.getElem?_eq_getElem h, List.getElem?_eq_getElem h']
      have := hf _ _ _ (List.getElem?_eq_getElem h') (List.getElem?_eq_getElem h)
      simp only [Option.bind_some]; rw [this]
    · rw [List.getElem?_eq_none (Nat.le_of_not_lt h), List.getElem?_eq_none (by omega)]
  -- the slices after the packet visit is noted
  have h0 : EachSlice (fun _ a b => b.pc = a.pc ∧ b.blocked = a.blocked) v.now
      (w.modSlice v.iss.leader fun k => { k with win := v.windowAfter i k.win }) :=
    EachSlice.trans hf (eachSlice_modSlice w _ _) hl fun k x y z h1 h2 => by
      subst h2; rw [h1]; split <;> exact ⟨rfl, rfl⟩
  have hl0 : (w.modSlice v.iss.leader fun k => { k with win := v.windowAfter i k.win }).slices.length = v.now.slices.length := by
    rw [modSlice_length, hl]
  unfold Wave.close
  dsimp only
  rw [blockedAt_win, hb]
  generalize (w.modSlice v.iss.leader fun k => { k with win := v.windowAfter i k.win }) = w0 at h0 hl0
  by_cases hfin : v.iss.final = true
  · rw [if_pos hfin]
    have key : ∀ w1, w1 = w0.advance v (false || v.iss.moved) (Option.map Blocked.word (v.now.blockedAt v.iss.leader)) → 
        w1.slices.length = w0.slices.length ∧ CountersAdvance v w1 := by
      intro w1 e
      refine ⟨by rw [e, advance_length], ?_⟩
      have s1 : EachSlice (fun k a b => b = if v.iss.moved then a else if k ∈ v.slices then { a with pc := v.iss.next } else a) w0
          (if v.iss.moved then w0 else w0.modSlices v.slices fun _ s => { s with pc := v.iss.next }) := by
        cases v.iss.moved
        · simpa using eachSlice_modSlices w0 v.slices fun _ s => { s with pc := v.iss.next }
        · simpa using eachSlice_refl w0
      have l1 : (if v.iss.moved then w0 else w0.modSlices v.slices fun _ s => { s with pc := v.iss.next }).slices.length = w0.slices.length := by
        split <;> simp [modSlices_length]
      cases hbl : v.now.blockedAt v.iss.leader with
      | none =>
        have e' : w1 = (if v.iss.moved then w0 else w0.modSlices v.slices fun _ s => { s with pc := v.iss.next }) := by
          rw [e, hbl]; rfl
        rw [← e'] at s1
        have s2 := EachSlice.trans h0 s1 hl0 (T := fun k a b => b.blocked = a.blocked ∧
            b.pc = if v.iss.moved then a.pc else if k ∈ v.slices then v.iss.next else a.pc) (by
          intro k x y z h1 h2; subst h2; rw [← h1.1, ← h1.2]; split
          · exact ⟨rfl, rfl⟩
          · split <;> exact ⟨rfl, rfl⟩)
        refine ⟨?_, ?_, ?_, ?_⟩
        · intro k a b hk ha hb2
          have := (s2 k a b ha hb2).2
          simpa [hk] using this
        · intro k a b h; rw [hfin] at h; cases h
        · intro k b _ hm _ hk hb2
          have hlen : k < v.now.slices.length := by
            have := (List.getElem?_eq_some_iff.1 hb2).1
            rw [e', l1, hl0] at this; exact this
          have := (s2 k _ b (List.getElem?_eq_getElem hlen) hb2).2
          simpa [hm, hk] using this
        · intro k a b _ ha hb2
          exact (s2 k a b ha hb2).1
      | some q =>
        refine ⟨?_, ?_, ?_, ?_⟩
        · intro k a b hk ha hb2
          have e' : w1 = w0.advance v v.iss.moved (some q.word) := by rw [e, hbl]; rfl
          unfold Wave.advance at e'
          dsimp only at e'
          generalize hks : (List.filter _ v.slices) = ks at e'
          have hkk : k ∉ ks := by
            intro hin; rw [← hks] at hin; exact hk (List.mem_filter.1 hin).1
          have s3 : EachSlice (fun k a b => k ∉ ks → k ∉ v.slices → b.pc = a.pc) v.now w1 := by
            rw [e']
            refine EachSlice.trans h0 (EachSlice.trans s1 (EachSlice.trans (eachSlice_modSlices _ ks _) (eachSlice_modSlice _ v.iss.leader _)
              (modSlices_length _ _ _) (T := fun k a b => k ∉ ks → b.pc = a.pc) ?_) l1
              (T := fun k a b => k ∉ ks → k ∉ v.slices → b.pc = a.pc) ?_) hl0 ?_
            · intro k x y z h1 h2 hn; subst h2; rw [if_neg hn] at h1; subst h1; split <;> rfl
            · intro k x y z h1 h2 hn hn2; rw [h2 hn, h1]; simp [hn2]
            · intro k x y z h1 h2 hn hn2; rw [h2 hn hn2, h1.1]
          exact s3 k a b ha hb2 hkk hk
        · intro k a b h; rw [hfin] at h; cases h
        · intro k b _ _ hn; rw [hbl] at hn; cases hn
        · intro k a b hn; rw [hbl] at hn; cases hn
    obtain ⟨hlen, hc⟩ := key _ rfl
    split
    · -- a parked wave: the latches alone
      have hcl := eachSlice_clearLatches (w0.advance v (false || v.iss.moved) (Option.map Blocked.word (v.now.blockedAt v.iss.leader)))
      have get : ∀ (k : Nat) (b : Slice), ((w0.advance v (false || v.iss.moved) (Option.map Blocked.word (v.now.blockedAt v.iss.leader))).clearLatches).slices[k]? = some b →
          ∃ y, (w0.advance v (false || v.iss.moved) (Option.map Blocked.word (v.now.blockedAt v.iss.leader))).slices[k]? = some y ∧ b.pc = y.pc ∧ b.blocked = y.blocked := by
        intro k b hb2
        have : k < (w0.advance v (false || v.iss.moved) (Option.map Blocked.word (v.now.blockedAt v.iss.leader))).slices.length := by
          have := (List.getElem?_eq_some_iff.1 hb2).1
          simpa [Wave.clearLatches] using this
        refine ⟨_, List.getElem?_eq_getElem this, ?_⟩
        rw [hcl k _ b (List.getElem?_eq_getElem this) hb2]
        exact ⟨rfl, rfl⟩
      refine ⟨?_, ?_, ?_, ?_⟩
      · intro k a b hk ha hb2
        obtain ⟨y, hy, e1, _⟩ := get k b hb2
        rw [e1]; exact hc.others k a y hk ha hy
      · intro k a b h; rw [hfin] at h; cases h
      · intro k b h1 h2 h3 h4 hb2
        obtain ⟨y, hy, e1, _⟩ := get k b hb2
        rw [e1]; exact hc.last k y h1 h2 h3 h4 hy
      · intro k a b hn ha hb2
        obtain ⟨y, hy, _, e1⟩ := get k b hb2
        rw [e1]; exact hc.waits k a y hn ha hy
    · exact hc
  · rw [if_neg hfin]
    refine ⟨?_, ?_, ?_, ?_⟩
    · intro k a b _ ha hb2; exact (h0 k a b ha hb2).1
    · intro k a b _ ha hb2; exact h0 k a b ha hb2
    · intro k b h; exact absurd h hfin
    · intro k a b _ ha hb2; exact (h0 k a b ha hb2).2


/-- The close of a word leaves the latches alone, but for a parked wave. -/
theorem close_latches (w : Wave) (v : View) (i : Instr) (m : Bool) (hp : w.park = none) :
    EachSlice (fun _ a b => b.latches = a.latches) w (w.close v i m) := by
  have h0 : EachSlice (fun _ a b => b.latches = a.latches) w (w.modSlice v.iss.leader fun k => { k with win := v.windowAfter i k.win }) :=
    (eachSlice_modSlice w _ _).mono fun k x y h => by subst h; split <;> rfl
  have adv : ∀ (w : Wave) m x, EachSlice (fun _ a b => b.latches = a.latches) w (w.advance v m x) := by
    intro w m x
    unfold Wave.advance
    have h1 : EachSlice (fun _ a b => b.latches = a.latches) w (if m then w else w.modSlices v.slices fun _ s => { s with pc := v.iss.next }) := by
      split
      · exact (eachSlice_refl w).mono fun k x y h => by subst h; rfl
      · exact (eachSlice_modSlices w _ _).mono fun k x y h => by subst h; split <;> rfl
    have hl : (if m then w else w.modSlices v.slices fun _ s => { s with pc := v.iss.next }).slices.length = w.slices.length := by
      split <;> simp [modSlices_length]
    cases x with
    | none => exact h1
    | some q =>
      refine EachSlice.trans h1 (EachSlice.trans (eachSlice_modSlices _ _ _) (eachSlice_modSlice _ _ _) (modSlices_length _ _ _)
        (T := fun _ a b => b.latches = a.latches) ?_) hl ?_
      · intro k x y z e1 e2
        have aux : ∀ (f : Slice → Slice) (hf : ∀ x, (f x).latches = x.latches) (c : Prop) [Decidable c] (x : Slice),
            (if c then f x else x).latches = x.latches := by
          intro f hf c _ x; split
          · exact hf x
          · rfl
        have e3 : y.latches = x.latches := by rw [e1]; exact aux (fun s => { s with pc := q }) (fun _ => rfl) _ x
        rw [e2, ← e3]
        by_cases hk : k = v.iss.leader
        · rw [if_pos hk]
        · rw [if_neg hk]
      · intro k x y z e1 e2; rw [e2, e1]
  unfold Wave.close
  split
  · dsimp only
    rw [if_neg]
    · refine EachSlice.trans h0 (adv _ _ _) (modSlice_length _ _ _) ?_
      intro k x y z e1 e2; rw [e2, e1]
    · rw [show (Wave.advance _ v _ _).park = w.park from by rw [advance_only _ v _ _]; rfl, hp]
      simp
  · exact h0

/-- What a register word may have done to its wave before it closes. -/
structure WaveEffect (v : View) (w : Wave) : Prop where
  wave : w = { v.now with vregs := w.vregs, sregs := w.sregs, preds := w.preds, fpflags := w.fpflags, slices := w.slices }
  lengths : w.slices.length = v.now.slices.length ∧ w.vregs.length = v.now.vregs.length ∧ w.sregs.length = v.now.sregs.length
    ∧ w.preds.length = v.now.preds.length
  slice : EachSlice (fun _ a b => b = { a with latches := b.latches }) v.now w

/-- What every register word does beside its result. -/
theorem register_word {s s1 : State} {v : View} {i : Instr} {f : Wave → Wave} (hv : s.view = some v)
    (hp : s1.pkg = s.pkg.modWave v.iss.core v.iss.slot f) (hc : s1.clk = s.clk) (ha : s1.agenda = s.agenda) (hi : s1.images = s.images)
    (he : WaveEffect v (f v.now)) :
    ∃ w, RegisterWord s (s1.finish v i false) v i w ∧ w.vregs = (f v.now).vregs ∧ w.sregs = (f v.now).sregs ∧ w.preds = (f v.now).preds
      ∧ w.fpflags = (f v.now).fpflags
      ∧ (v.now.park = none → EachSlice (fun _ a b => b.latches = a.latches) (f v.now) w) := by
  have hw := (view_spec hv).2.1
  have hcl := close_only (f v.now) v i false
  refine ⟨(f v.now).close v i false, ⟨outside_finish s s1 v i false f hw hp hc ha hi, ?_, ?_, close_counters _ _ _ he.slice he.lengths.1⟩, ?_, ?_, ?_, ?_, ?_⟩
  · rw [finish_issuer]
    unfold State.issuer
    rw [hp, wave?_modWave]
    simp [hw]
  · refine ⟨?_, ?_, ?_⟩
    · rw [hcl]
      have := he.wave
      generalize (f v.now).close v i false = c
      generalize f v.now = w at this
      rw [this]
    · rw [close_length]
      refine ⟨he.lengths.1, ?_, ?_, ?_⟩ <;> rw [hcl]
      exacts [he.lengths.2.1, he.lengths.2.2.1, he.lengths.2.2.2]
    · exact EachSlice.trans he.slice (close_slice _ _ _ _) he.lengths.1 fun _ x y z h1 h2 => SliceKept.trans (show SliceKept x y by
        rw [h1]; rfl) h2
  · rw [hcl]
  · rw [hcl]
  · rw [hcl]
  · rw [hcl]
  · intro hpk
    exact close_latches _ _ _ _ (by rw [he.wave]; exact hpk)

/-- A word that passes its checks and is done. -/
theorem word_done {s s1 : State} {v : View} {i : Instr} {f : View → State → Out} (h : Issues s v i) (hf : f v s = .done s1) :
    s.word i f = .next (s1.finish v i false) := by
  have hc : (if v.iss.checked = true then none else v.check i) = none := by
    rcases h.2 with h2 | h2 <;> simp [h2]
  unfold State.word
  rw [h.1]
  simp only [hc, hf]

/-- The latch entries of a producer. -/
theorem pushLatch_get (w : Wave) (l p q : Nat) (f : Nat → LatchVal) :
    EachSlice (fun k a b => b = { a with latches := if k ∈ w.party l then (insertLatch { val := f k, packet := p, seq := q } a.latches).take 4 else a.latches })
      w (w.pushLatch l p q f) :=
  (eachSlice_modSlices w _ _).mono fun k x y h => by subst h; split <;> simp [*]

theorem effect_push (v : View) (p q : Nat) (f : Nat → LatchVal) (g : Wave → Wave)
    (hg : ∀ w : Wave, g w = { w with vregs := (g w).vregs, sregs := (g w).sregs, preds := (g w).preds, fpflags := (g w).fpflags })
    (hl : ∀ w : Wave, (g w).vregs.length = w.vregs.length ∧ (g w).sregs.length = w.sregs.length ∧ (g w).preds.length = w.preds.length) :
    WaveEffect v (g (v.now.pushLatch v.iss.leader p q f)) := by
  have hs : (g (v.now.pushLatch v.iss.leader p q f)).slices = (v.now.pushLatch v.iss.leader p q f).slices := by rw [hg]
  refine ⟨?_, ⟨?_, hl _⟩, ?_⟩
  · rw [hg]; rfl
  · rw [hs]; exact modSlices_length _ _ _
  · intro k a b ha hb
    rw [hs] at hb
    rw [pushLatch_get _ _ _ _ _ k a b ha hb]

theorem setV_v (w : Wave) (d : Nat) (act : LaneMask) (f : Nat → Word) (r j : Nat) (hr : r < w.vregs.length) (hj : j < 128) :
    (w.setV d act f).v r j = if r = d ∧ act.getLsbD j = true then f j else w.v r j := by
  unfold Wave.v Wave.setV
  by_cases h : r = d
  · subst h
    rw [modAt_getD_self _ _ _ _ hr]
    simp only [mergeLanes, true_and]
    rw [List.getD_eq_getElem?_getD, List.getElem?_map, List.getElem?_range hj]
    rfl
  · simp only [modAt_getD _ _ _ _ _ h, h, false_and, if_false]

theorem setS_s (w : Wave) (d : Nat) (x : Quad) (n : Nat) (hn : n < w.sregs.length) : (w.setS d x).s n = if n = d then x else w.s n := by
  unfold Wave.s Wave.setS setAt
  by_cases h : n = d
  · subst h; rw [modAt_getD_self _ _ _ _ hn, if_pos rfl]
  · simp only [modAt_getD _ _ _ _ _ h, h, if_false]

theorem bit1_cases (k : BitVec 1) : k = 0 ∨ k = 1 := by
  rcases k with ⟨⟨n, hn⟩⟩
  have : n = 0 ∨ n = 1 := by omega
  rcases this with rfl | rfl
  · left; rfl
  · right; rfl

theorem tabulate_eq {α : Type} (d : α) (f : Nat → α) (j : Nat) (hj : j < 128) : tabulate d f j = f j := by
  simp [tabulate, List.getD_eq_getElem?_getD, List.getElem?_map, List.getElem?_range hj]

/-- A latch entry made from a table is one made from its function. -/
theorem lanes4 {α : Type} (act : LaneMask) (z : α) (f g : Nat → α) (h : ∀ j, j < 128 → act.getLsbD j = true → f j = g j) (k : Nat) :
    ((List.range 4).map fun i => if act.getLsbD (4 * k + i) then f (4 * k + i) else z) =
      (List.range 4).map fun i => if act.getLsbD (4 * k + i) then g (4 * k + i) else z := by
  apply List.map_congr_left
  intro i _
  by_cases hj : 4 * k + i < 128
  · split
    · next hc => exact h _ hj hc
    · rfl
  · rw [BitVec.getLsbD_of_ge _ _ (by omega)]; simp

theorem latched_of (v : View) (f : Nat → LatchVal) (w1 w : Wave)
    (h1 : w1.slices = (v.now.pushLatch v.iss.leader v.win.packet (4 * v.win.packet + v.iss.pslot) f).slices)
    (h2 : v.now.park = none → EachSlice (fun _ a b => b.latches = a.latches) w1 w) : Latched v (some f) w := by
  intro hp k a b ha hb
  have h3 := h2 hp
  have hl : w1.slices.length = v.now.slices.length := by rw [h1]; exact modSlices_length _ _ _
  have hk : k < w1.slices.length := by rw [hl]; exact (List.getElem?_eq_some_iff.1 ha).1
  have e1 := h3 k _ b (List.getElem?_eq_getElem hk) hb
  have e2 := pushLatch_get v.now v.iss.leader v.win.packet (4 * v.win.packet + v.iss.pslot) f k a _ ha (by
    rw [← h1]; exact List.getElem?_eq_getElem hk)
  rw [e1, e2]

/-- A word that leaves a vector result: in the latches, and in register d unless K keeps it. -/
theorem vector_word {s : State} {v : View} {i : Instr} {keep : BitVec 1} {d : Nat} {f r : Nat → Word} {F : View → State → Out}
    (he : exec i s = s.word i F) (h : Issues s v i) (hF : F v s = .done (s.produce v (keep = 1) d (.vec r))) (hr : ∀ j, j < 128 → v.active j = true → r j = f j) :
    VectorWrite s v i keep d f := by
  let g : Wave → Wave := fun w =>
    let w := w.pushLatch v.iss.leader v.win.packet (4 * v.win.packet + v.iss.pslot) ((Result.vec r).latch v.act)
    if keep = 1 then w else w.setV d v.act r
  have hg : WaveEffect v (g v.now) := by
    apply effect_push v _ _ _ (fun w => if keep = 1 then w else w.setV d v.act r)
    · intro w; split <;> rfl
    · intro w; split
      · exact ⟨rfl, rfl, rfl⟩
      · exact ⟨modAt_length _ _ _, rfl, rfl⟩
  obtain ⟨w, hw, e1, e2, e3, e4, e5⟩ := register_word (s1 := s.produce v (decide (keep = 1)) d (.vec r)) (i := i) (f := g) h.1
    (by simp only [State.produce, State.onWave, State.modWave, g]; congr; funext w; by_cases hk : keep = 1 <;> simp [hk]) rfl rfl rfl hg
  refine ⟨_, w, by rw [he]; exact word_done h hF, hw, ?_, ?_, ?_, ?_, ?_⟩
  · intro q j hq hj
    have e6 : w.v q j = (g v.now).v q j := by unfold Wave.v; rw [e1]
    rw [e6]
    rcases bit1_cases keep with hk | hk
    · subst hk
      have : g v.now = (v.now.pushLatch v.iss.leader v.win.packet (4 * v.win.packet + v.iss.pslot)
          ((Result.vec r).latch v.act)).setV d v.act r := rfl
      rw [this]
      refine (setV_v _ _ _ _ _ _ (by exact hq) hj).trans ?_
      simp only [true_and]
      show (if q = d ∧ v.active j = true then r j else v.now.v q j) = _
      split
      · next hc => rw [hr j hj hc.2]
      · rfl
    · subst hk; rfl
  · rw [SameScalars, e2]; simp only [g]; split <;> rfl
  · rw [SamePredicates, e3]; simp only [g]; split <;> rfl
  · rw [SameFlags, e4]; simp only [g]; split <;> rfl
  · have := latched_of v ((Result.vec r).latch v.act) (g v.now) w (by simp only [g]; split <;> rfl) e5
    have e7 : ((Result.vec r).latch v.act) = fun k => LatchVal.vec ((List.range 4).map fun l => if v.active (4 * k + l) then f (4 * k + l) else 0) := by
      funext k
      exact congrArg LatchVal.vec (lanes4 v.act 0 _ _ hr k)
    rwa [e7] at this

theorem execVec_spec {s : State} {v : View} {i : Instr} {keep : BitVec 1} {d : BitVec 7} {f : View → Nat → Word}
    (he : exec i s = execVec i keep d f s) (h : Issues s v i) : VectorResult s v i keep d (f v) :=
  vector_word (F := fun v s => .done (s.produce v (keep = 1) d.toNat (.vec (tabulate 0 (f v))))) he h rfl fun j hj _ => tabulate_eq 0 (f v) j hj

theorem modAt_modAt {α : Type} (l : List α) (i : Nat) (f g : α → α) : modAt (modAt l i f) i g = modAt l i fun x => g (f x) := by
  induction l generalizing i with
  | nil => rfl
  | cons x l ih => cases i <;> simp [modAt, ih]

theorem modWave_modWave (p : Package) (c k : Nat) (f g : Wave → Wave) : (p.modWave c k f).modWave c k g = p.modWave c k fun w => g (f w) := by
  simp only [Package.modWave, Package.modCtx, Package.modCore, modAt_modAt, Option.map_map, Function.comp_def]

theorem pair_lanes (w : Wave) (d : Nat) (act : LaneMask) (f : Nat → Quad) (r j : Nat) (hr : r < w.vregs.length) (hj : j < 128) :
    (w.setPair d act f).v r j = if r = d ∧ act.getLsbD j = true then (f j).setWidth 32
      else if r = d + 1 ∧ act.getLsbD j = true then ((f j) >>> 32).setWidth 32 else w.v r j := by
  unfold Wave.setPair
  rw [setV_v _ _ _ _ _ _ (by rw [show (w.setV d act fun j => (f j).setWidth 32).vregs.length = w.vregs.length from modAt_length _ _ _]; exact hr) hj,
    setV_v _ _ _ _ _ _ hr hj]
  by_cases h1 : r = d
  · subst h1; simp
  · simp [h1]

theorem execPair_spec {s : State} {v : View} {i : Instr} {keep : BitVec 1} {d : BitVec 7} {f : View → Nat → Quad}
    (he : exec i s = execPair i keep d f s) (h : Issues s v i) : PairResult s v i keep d (f v) := by
  let g : Wave → Wave := fun w =>
    let w := w.pushLatch v.iss.leader v.win.packet (4 * v.win.packet + v.iss.pslot) ((Result.pair (tabulate 0 (f v))).latch v.act)
    if keep = 1 then w else w.setPair d.toNat v.act (tabulate 0 (f v))
  have hg : WaveEffect v (g v.now) := by
    apply effect_push v _ _ _ (fun w => if keep = 1 then w else w.setPair d.toNat v.act (tabulate 0 (f v)))
    · intro w; split <;> rfl
    · intro w; split
      · exact ⟨rfl, rfl, rfl⟩
      · exact ⟨(modAt_length _ _ _).trans (modAt_length _ _ _), rfl, rfl⟩
  obtain ⟨w, hw, e1, e2, e3, e4, e5⟩ := register_word (s1 := s.produce v (decide (keep = 1)) d.toNat (.pair (tabulate 0 (f v)))) (i := i) (f := g) h.1
    (by simp only [State.produce, State.onWave, State.modWave, g]; congr; funext w; by_cases hk : keep = 1 <;> simp [hk]) rfl rfl rfl hg
  refine ⟨_, w, by rw [he]; exact word_done h rfl, hw, ?_, ?_, ?_, ?_, ?_⟩
  · intro r j hr hj
    have e6 : w.v r j = (g v.now).v r j := by unfold Wave.v; rw [e1]
    rw [e6]
    rcases bit1_cases keep with hk | hk
    · subst hk
      have : g v.now = (v.now.pushLatch v.iss.leader v.win.packet (4 * v.win.packet + v.iss.pslot)
          ((Result.pair (tabulate 0 (f v))).latch v.act)).setPair d.toNat v.act (tabulate 0 (f v)) := rfl
      rw [this]
      refine (pair_lanes _ _ _ _ _ _ (by exact hr) hj).trans ?_
      rw [tabulate_eq _ _ _ hj]
      simp only [true_and]
      rfl
    · subst hk; rfl
  · rw [SameScalars, e2]; simp only [g]; split <;> rfl
  · rw [SamePredicates, e3]; simp only [g]; split <;> rfl
  · rw [SameFlags, e4]; simp only [g]; split <;> rfl
  · have := latched_of v ((Result.pair (tabulate 0 (f v))).latch v.act) (g v.now) w (by simp only [g]; split <;> rfl) e5
    have e7 : ((Result.pair (tabulate 0 (f v))).latch v.act) = fun k => LatchVal.pair ((List.range 4).map fun l => if v.active (4 * k + l) then f v (4 * k + l) else 0) := by
      funext k
      exact congrArg LatchVal.pair (lanes4 v.act 0 _ _ (fun j hj _ => tabulate_eq 0 (f v) j hj) k)
    rwa [e7] at this

/-- A word that leaves one scalar and a latch entry. -/
theorem scalar_word {s s1 : State} {v : View} {i : Instr} {keep : BitVec 1} {d : BitVec 7} {x : Quad} {F : View → State → Out} {pipe : Pipe}
    (he : exec i s = s.word i F) (h : Issues s v i) (hF : F v s = .done s1) (hc : s1.clk = s.clk) (ha : s1.agenda = s.agenda)
    (hi : s1.images = s.images)
    (hp : s1.pkg = s.pkg.modWave v.iss.core v.iss.slot fun w =>
      let w := w.pushLatch v.iss.leader v.win.packet (4 * v.win.packet + v.iss.pslot) ((Result.scalar x).latch v.act)
      if (decide (keep = 0) && Stands v pipe d.toNat) = true then w.setS d.toNat x else w) :
    ScalarResult s v i pipe keep d x := by
  generalize hwr : (decide (keep = 0) && Stands v pipe d.toNat) = wr at hp
  let g : Wave → Wave := fun w =>
    let w := w.pushLatch v.iss.leader v.win.packet (4 * v.win.packet + v.iss.pslot) ((Result.scalar x).latch v.act)
    if wr = true then w.setS d.toNat x else w
  have hg : WaveEffect v (g v.now) := by
    apply effect_push v _ _ _ (fun w => if wr = true then w.setS d.toNat x else w)
    · intro w; split <;> rfl
    · intro w; split
      · exact ⟨rfl, modAt_length _ _ _, rfl⟩
      · exact ⟨rfl, rfl, rfl⟩
  obtain ⟨w, hw, e1, e2, e3, e4, e5⟩ := register_word (s1 := s1) (i := i) (f := g) h.1 hp hc ha hi hg
  refine ⟨_, w, by rw [he]; exact word_done h hF, hw, ?_, ?_, ?_, ?_, ?_⟩
  · intro n hn
    have e6 : w.s n = (g v.now).s n := by unfold Wave.s; rw [e2]
    rw [e6, hwr]
    by_cases hb : wr = true
    · have : g v.now = (v.now.pushLatch v.iss.leader v.win.packet (4 * v.win.packet + v.iss.pslot)
          ((Result.scalar x).latch v.act)).setS d.toNat x := by simp only [g, hb, if_true]
      rw [this]
      refine (setS_s _ _ _ _ (by exact hn)).trans ?_
      simp only [hb, true_and]
      rfl
    · have : g v.now = v.now.pushLatch v.iss.leader v.win.packet (4 * v.win.packet + v.iss.pslot) ((Result.scalar x).latch v.act) := by
        simp only [g, hb]; rfl
      rw [this, if_neg (by simp [hb])]; rfl
  · rw [SameVectors, e1]; simp only [g]; split <;> rfl
  · rw [SamePredicates, e3]; simp only [g]; split <;> rfl
  · rw [SameFlags, e4]; simp only [g]; split <;> rfl
  · exact latched_of v ((Result.scalar x).latch v.act) (g v.now) w (by simp only [g]; split <;> rfl) e5

theorem stands_S (v : View) (d : Nat) : (v.iss.wrote.contains d || v.iss.wrote.contains (d + 64)) = !Stands v .S d := by simp [Stands]

theorem stands_V (v : View) (d : Nat) : v.iss.wrote.contains (d + 64) = !Stands v .V d := by simp [Stands]

/-- An S-pipe producer. -/
theorem scalarS_word {s : State} {v : View} {i : Instr} {keep : BitVec 1} {d : BitVec 7} {x : Quad} {F : View → State → Out}
    (he : exec i s = s.word i F) (h : Issues s v i)
    (hF : F v s = .done (if keep = 1 then s.produce v true d.toNat (.scalar x) else (s.produce v true d.toNat (.scalar x)).writeS v d.toNat x)) :
    ScalarResult s v i .S keep d x := by
  have e : ∀ k : BitVec 1, (decide (k = 0)) = !decide (k = 1) := fun k => by rcases bit1_cases k with h | h <;> subst h <;> rfl
  refine scalar_word he h hF ?_ ?_ ?_ ?_
  · split
    · rfl
    · unfold State.writeS; split <;> rfl
  · split
    · rfl
    · unfold State.writeS; split <;> rfl
  · split
    · rfl
    · unfold State.writeS; split <;> rfl
  · rw [e]
    by_cases hk : keep = 1
    · simp only [hk, if_true, State.produce, State.onWave, State.modWave, decide_true, Bool.not_true, Bool.false_and, Bool.false_eq_true, if_false]
    · simp only [hk, if_false, State.writeS, stands_S, decide_false, Bool.not_false, Bool.true_and]
      cases Stands v .S d.toNat
      · rfl
      · simp only [Bool.not_true, Bool.false_eq_true, if_false, State.onWave, State.modWave, State.produce, modWave_modWave, if_true]

theorem execScalar_spec {s : State} {v : View} {i : Instr} {keep : BitVec 1} {d : BitVec 7} {f : View → Quad}
    (he : exec i s = execScalar i keep d f s) (h : Issues s v i) : ScalarResult s v i .S keep d (f v) := by
  refine scalarS_word (F := fun v s =>
    let x := f v
    let s := s.produce v true d.toNat (.scalar x)
    .done (if keep = 1 then s else s.writeS v d.toNat x)) he h rfl

/-- A word that writes scalars and no latch. -/
theorem scalars_word {s s1 : State} {v : View} {i : Instr} {x : Nat → Option Quad} {F : View → State → Out} {g : Wave → Wave}
    (he : exec i s = s.word i F) (h : Issues s v i) (hF : F v s = .done s1) (hc : s1.clk = s.clk) (ha : s1.agenda = s.agenda)
    (hi : s1.images = s.images) (hp : s1.pkg = s.pkg.modWave v.iss.core v.iss.slot g)
    (hg : g v.now = { v.now with sregs := (g v.now).sregs }) (hl : (g v.now).sregs.length = v.now.sregs.length)
    (hx : ∀ n, n < v.now.sregs.length → (g v.now).s n = (x n).getD (v.now.s n)) : ScalarsWritten s v i x := by
  have hs : (g v.now).slices = v.now.slices := by rw [hg]
  have heff : WaveEffect v (g v.now) := by
    refine ⟨?_, ⟨by rw [hs], ?_, hl, ?_⟩, ?_⟩
    · rw [hg]
    · rw [hg]
    · rw [hg]
    · intro k a b hka hkb; rw [hs, hka] at hkb; cases hkb; rfl
  obtain ⟨w, hw, e1, e2, e3, e4, e5⟩ := register_word (s1 := s1) (i := i) (f := g) h.1 hp hc ha hi heff
  refine ⟨_, w, by rw [he]; exact word_done h hF, hw, ?_, ?_, ?_, ?_, ?_⟩
  · intro n hn
    have e6 : w.s n = (g v.now).s n := by unfold Wave.s; rw [e2]
    rw [e6, hx n hn]
  · rw [SameVectors, e1, hg]
  · rw [SamePredicates, e3, hg]
  · rw [SameFlags, e4, hg]
  · intro hpk k a b hka hkb
    exact e5 hpk k a b (by rw [hs]; exact hka) hkb

theorem laneMask_get (p : Nat → Bool) (j : Nat) (hj : j < 128) : (laneMask p).getLsbD j = p j := by
  have key : ∀ (n : Nat) (k : Nat) (q : Nat → Bool),
      ((List.range' k n).foldr (fun j m => 2 * m + (if q j then 1 else 0)) 0).testBit j = (decide (j < n) && q (k + j)) := by
    intro n
    induction n generalizing j with
    | zero => intro k q; simp
    | succ n ih =>
      intro k q
      rw [List.range'_succ, List.foldr_cons]
      cases j with
      | zero => simp [Nat.testBit_zero]; split <;> simp_all
      | succ j =>
        rw [Nat.testBit_succ]
        have : (2 * List.foldr (fun j m => 2 * m + if q j = true then 1 else 0) 0 (List.range' (k + 1) n) + if q k = true then 1 else 0) / 2 =
            List.foldr (fun j m => 2 * m + if q j = true then 1 else 0) 0 (List.range' (k + 1) n) := by split <;> omega
        rw [this]
        by_cases hj' : j < 128
        · rw [ih j hj' (k + 1) q]
          simp [Nat.add_assoc, Nat.add_comm 1 j]
        · omega
  unfold laneMask
  rw [BitVec.getLsbD_ofNat, List.range_eq_range', key 128 0 p]
  simp [hj]

theorem setP_p (w : Wave) (d : Nat) (act x : LaneMask) (n j : Nat) (hn : n < w.preds.length) (hj : j < 128) :
    ((w.setP d act x).p n).getLsbD j = if n ≠ 0 ∧ n = d ∧ act.getLsbD j = true then x.getLsbD j else (w.p n).getLsbD j := by
  unfold Wave.p Wave.setP
  by_cases h0 : n = 0
  · subst h0; simp
  by_cases hd : d = 0
  · subst hd; simp [h0]
  simp only [h0, hd, if_false]
  by_cases h : n = d
  · subst h
    rw [modAt_getD_self _ _ _ _ hn]
    simp only [BitVec.getLsbD_or, BitVec.getLsbD_and, BitVec.getLsbD_not, hj]
    cases act.getLsbD j <;> simp [h0]
  · rw [modAt_getD _ _ _ _ _ h]; simp [h]

theorem execPred_spec {s : State} {v : View} {i : Instr} {d : BitVec 3} {f : View → Nat → Bool}
    (he : exec i s = execPred i d f s) (h : Issues s v i) : PredicateResult s v i d (f v) := by
  let g : Wave → Wave := fun w => w.setP d.toNat v.act (laneMask (f v))
  have hs : (g v.now).slices = v.now.slices := by simp only [g, Wave.setP]; split <;> rfl
  have hg : WaveEffect v (g v.now) := by
    refine ⟨?_, ⟨?_, ?_, ?_, ?_⟩, ?_⟩
    · simp only [g, Wave.setP]; split <;> rfl
    · rw [hs]
    · simp only [g, Wave.setP]; split <;> rfl
    · simp only [g, Wave.setP]; split <;> rfl
    · simp only [g, Wave.setP]; split
      · rfl
      · exact modAt_length _ _ _
    · intro k a b ha hb; rw [hs, ha] at hb; cases hb; rfl
  obtain ⟨w, hw, e1, e2, e3, e4, e5⟩ := register_word (s1 := s.onWave v g) (i := i) (f := g) h.1 rfl rfl rfl rfl hg
  refine ⟨_, w, by rw [he]; exact word_done h rfl, hw, ?_, ?_, ?_, ?_, ?_⟩
  · intro n j hn hj
    have e6 : w.p n = (g v.now).p n := by unfold Wave.p; rw [e3]
    rw [e6]
    refine (setP_p _ _ _ _ _ _ hn hj).trans ?_
    rw [laneMask_get _ _ hj]; rfl
  · rw [SameVectors, e1]; simp only [g, Wave.setP]; split <;> rfl
  · rw [SameScalars, e2]; simp only [g, Wave.setP]; split <;> rfl
  · rw [SameFlags, e4]; simp only [g, Wave.setP]; split <;> rfl
  · intro hp k a b ha hb
    exact e5 hp k a b (by rw [hs]; exact ha) hb

theorem allFlags_get (v : View) (f : Nat → Flagged) (n : Nat) : (v.allFlags f).getLsbD n = RaisedBy v f n := by
  have key : ∀ (l : List Nat) (z : BitVec 5), (l.foldl (fun fl j => fl ||| (f j).flags) z).getLsbD n = (z.getLsbD n || l.any fun j => (f j).flags.getLsbD n) := by
    intro l
    induction l with
    | nil => simp
    | cons x l ih => intro z; rw [List.foldl_cons, ih]; simp [Bool.or_assoc]
  unfold View.allFlags View.lanes lanesOf RaisedBy
  rw [key, show (0 : BitVec 5).getLsbD n = false from BitVec.getLsbD_zero]
  simp only [Bool.false_or, List.any_filter, View.active]

/-- A word that leaves a vector of results with flags. -/
theorem fp_word {s : State} {v : View} {i : Instr} {keep : BitVec 1} {d : BitVec 7} {f : Nat → Flagged} {r : Nat → Word} {fl : BitVec 5}
    {F : View → State → Out} (he : exec i s = s.word i F) (h : Issues s v i)
    (hF : F v s = .done ((s.produce v (keep = 1) d.toNat (.vec r)).raiseFlags v fl))
    (hr : ∀ j, j < 128 → v.active j = true → r j = BitVec.ofNat 32 (f j).bits)
    (hfl : ∀ n, fl.getLsbD n = (decide (n < 5) && RaisedBy v f n)) : FlaggedResult s v i keep d f := by
  let g : Wave → Wave := fun w =>
    let w := w.pushLatch v.iss.leader v.win.packet (4 * v.win.packet + v.iss.pslot) ((Result.vec r).latch v.act)
    let w := if keep = 1 then w else w.setV d.toNat v.act r
    { w with fpflags := w.fpflags ||| fl }
  have hg : WaveEffect v (g v.now) := by
    apply effect_push v _ _ _ (fun w =>
      let w := if keep = 1 then w else w.setV d.toNat v.act r
      { w with fpflags := w.fpflags ||| fl })
    · intro w; by_cases hk : keep = 1
      · simp only [hk, if_true]
      · simp only [hk, if_false]; rfl
    · intro w; by_cases hk : keep = 1
      · dsimp only; rw [if_pos hk]; exact ⟨rfl, rfl, rfl⟩
      · dsimp only; rw [if_neg hk]; exact ⟨modAt_length _ _ _, rfl, rfl⟩
  obtain ⟨w, hw, e1, e2, e3, e4, e5⟩ := register_word
    (s1 := (s.produce v (decide (keep = 1)) d.toNat (.vec r)).raiseFlags v fl) (i := i) (f := g) h.1
    (by
      simp only [State.produce, State.raiseFlags, State.modCur, State.onWave, State.modWave, modWave_modWave, g]
      congr; funext w; by_cases hk : keep = 1 <;> simp [hk]) rfl rfl rfl hg
  refine ⟨_, w, by rw [he]; exact word_done h hF, hw, ?_, ?_, ?_, ?_, ?_⟩
  · intro q j hq hj
    have e6 : w.v q j = (g v.now).v q j := by unfold Wave.v; rw [e1]
    rw [e6]
    rcases bit1_cases keep with hk | hk
    · subst hk
      have : (g v.now).v q j = ((v.now.pushLatch v.iss.leader v.win.packet (4 * v.win.packet + v.iss.pslot)
          ((Result.vec r).latch v.act)).setV d.toNat v.act r).v q j := rfl
      rw [this]
      refine (setV_v _ _ _ _ _ _ (by exact hq) hj).trans ?_
      simp only [true_and]
      show (if q = d.toNat ∧ v.active j = true then r j else v.now.v q j) = _
      split
      · next hc => rw [hr j hj hc.2]
      · rfl
    · subst hk; rfl
  · rw [SameScalars, e2]; simp only [g]; split <;> rfl
  · rw [SamePredicates, e3]; simp only [g]; split <;> rfl
  · intro n
    have e8 : (g v.now).fpflags = v.now.fpflags ||| fl := by simp only [g]; split <;> rfl
    rw [e4, e8, BitVec.getLsbD_or, hfl]
  · have := latched_of v ((Result.vec r).latch v.act) (g v.now) w (by simp only [g]; split <;> rfl) e5
    have e7 : ((Result.vec r).latch v.act) = fun k => LatchVal.vec ((List.range 4).map fun l => if v.active (4 * k + l) then BitVec.ofNat 32 (f (4 * k + l)).bits else 0) := by
      funext k
      exact congrArg LatchVal.vec (lanes4 v.act 0 _ _ hr k)
    rwa [e7] at this

theorem raised_flags (v : View) (f : Nat → Flagged) (n : Nat) :
    (v.allFlags (tabulate { bits := 0 } f)).getLsbD n = (decide (n < 5) && RaisedBy v f n) := by
  rw [allFlags_get]
  have : RaisedBy v (tabulate { bits := 0 } f) n = RaisedBy v f n := by
    unfold RaisedBy
    have : ∀ l : List Nat, (∀ j ∈ l, j < 128) →
        (l.any fun j => v.active j && ((tabulate { bits := 0 } f) j).flags.getLsbD n) = l.any fun j => v.active j && (f j).flags.getLsbD n := by
      intro l
      induction l with
      | nil => intro _; rfl
      | cons x l ih =>
        intro hx
        rw [List.any_cons, List.any_cons, ih fun j hj => hx j (List.mem_cons_of_mem _ hj), tabulate_eq _ _ _ (hx x List.mem_cons_self)]
    exact this _ fun j hj => List.mem_range.1 hj
  rw [this]
  by_cases h5 : n < 5
  · simp [h5]
  · simp only [h5, decide_false, Bool.false_and]
    unfold RaisedBy
    rw [List.any_eq_false]
    intro j _
    rw [BitVec.getLsbD_of_ge _ _ (by omega)]; simp

theorem execFp_spec {s : State} {v : View} {i : Instr} {keep : BitVec 1} {d : BitVec 7} {f : View → Nat → Flagged}
    (he : exec i s = execFp i keep d f s) (h : Issues s v i) : FlaggedResult s v i keep d (f v) := by
  let F : View → State → Out := fun v s =>
    .done ((s.produce v (keep = 1) d.toNat (.vec fun j => BitVec.ofNat 32 (tabulate { bits := 0 } (f v) j).bits)).raiseFlags v
      (v.allFlags (tabulate { bits := 0 } (f v))))
  have he2 : exec i s = s.word i F := he
  have hF : F v s = .done ((s.produce v (keep = 1) d.toNat (.vec fun j => BitVec.ofNat 32 (tabulate { bits := 0 } (f v) j).bits)).raiseFlags v
      (v.allFlags (tabulate { bits := 0 } (f v)))) := rfl
  exact fp_word he2 h hF (fun j hj _ => by rw [tabulate_eq _ _ _ hj]) (raised_flags v (f v))

theorem execFpPair_spec {s : State} {v : View} {i : Instr} {keep : BitVec 1} {d : BitVec 7} {f : View → Nat → Flagged}
    (he : exec i s = execFpPair i keep d f s) (h : Issues s v i) : FlaggedPairResult s v i keep d (f v) := by
  let tb := tabulate { bits := 0 } (f v)
  let r : Nat → Quad := fun j => BitVec.ofNat 64 (tb j).bits
  let g : Wave → Wave := fun w =>
    let w := w.pushLatch v.iss.leader v.win.packet (4 * v.win.packet + v.iss.pslot) ((Result.pair r).latch v.act)
    let w := if keep = 1 then w else w.setPair d.toNat v.act r
    { w with fpflags := w.fpflags ||| v.allFlags tb }
  have hg : WaveEffect v (g v.now) := by
    apply effect_push v _ _ _ (fun w =>
      let w := if keep = 1 then w else w.setPair d.toNat v.act r
      { w with fpflags := w.fpflags ||| v.allFlags tb })
    · intro w; by_cases hk : keep = 1
      · simp only [hk, if_true]
      · simp only [hk, if_false]; rfl
    · intro w; by_cases hk : keep = 1
      · dsimp only; rw [if_pos hk]; exact ⟨rfl, rfl, rfl⟩
      · dsimp only; rw [if_neg hk]; exact ⟨(modAt_length _ _ _).trans (modAt_length _ _ _), rfl, rfl⟩
  obtain ⟨w, hw, e1, e2, e3, e4, e5⟩ := register_word
    (s1 := (s.produce v (decide (keep = 1)) d.toNat (.pair r)).raiseFlags v (v.allFlags tb)) (i := i) (f := g) h.1
    (by
      simp only [State.produce, State.raiseFlags, State.modCur, State.onWave, State.modWave, modWave_modWave, g]
      congr; funext w; by_cases hk : keep = 1 <;> simp [hk]) rfl rfl rfl hg
  have hr : ∀ j, j < 128 → r j = BitVec.ofNat 64 (f v j).bits := fun j hj => by simp only [r, tb, tabulate_eq _ _ _ hj]
  refine ⟨_, w, by rw [he]; exact word_done h rfl, hw, ?_, ?_, ?_, ?_, ?_⟩
  · intro q j hq hj
    have e6 : w.v q j = (g v.now).v q j := by unfold Wave.v; rw [e1]
    rw [e6]
    rcases bit1_cases keep with hk | hk
    · subst hk
      have : (g v.now).v q j = ((v.now.pushLatch v.iss.leader v.win.packet (4 * v.win.packet + v.iss.pslot)
          ((Result.pair r).latch v.act)).setPair d.toNat v.act r).v q j := rfl
      rw [this]
      refine (pair_lanes _ _ _ _ _ _ (by exact hq) hj).trans ?_
      rw [hr j hj]
      simp only [true_and]
      rfl
    · subst hk; rfl
  · rw [SameScalars, e2]; simp only [g]; split <;> rfl
  · rw [SamePredicates, e3]; simp only [g]; split <;> rfl
  · intro n
    have e8 : (g v.now).fpflags = v.now.fpflags ||| v.allFlags tb := by simp only [g]; split <;> rfl
    rw [e4, e8, BitVec.getLsbD_or, raised_flags]
  · have := latched_of v ((Result.pair r).latch v.act) (g v.now) w (by simp only [g]; split <;> rfl) e5
    have e7 : ((Result.pair r).latch v.act) = fun k => LatchVal.pair ((List.range 4).map fun l => if v.active (4 * k + l) then BitVec.ofNat 64 (f v (4 * k + l)).bits else 0) := by
      funext k
      exact congrArg LatchVal.pair (lanes4 v.act 0 _ _ (fun j hj _ => hr j hj) k)
    rwa [e7] at this

end Sys2Proof.Machine
end

