-- ==== Sys2Proof/Laws/Effects.lean ====
section
/-! SUPPORT. What a word does whose effect goes beyond the registers of its wave: one lemma each for a word that performs, for one that waits and for
one that traps (Sys2Proof/Machine/Issue.lean). -/

namespace Sys2Proof.Machine

/-- The close of a word. -/
theorem closed_close (u : Wave) (v : View) (i : Instr) (m : Bool) : Closed v m u (u.close v i m) := by
  refine ⟨close_only _ _ _ _, close_length _ _ _ _, close_slice _ _ _ _, fun hp => close_latches _ _ _ _ hp, ?_⟩
  intro hb k a b ha hb2
  have h0 : EachSlice (fun _ a b => b.blocked = a.blocked ∧ b.pc = a.pc) u
      (u.modSlice v.iss.leader fun k => { k with win := v.windowAfter i k.win }) :=
    (eachSlice_modSlice u _ _).mono fun k x y h => by subst h; split <;> exact ⟨rfl, rfl⟩
  have l0 : (u.modSlice v.iss.leader fun k => { k with win := v.windowAfter i k.win }).slices.length = u.slices.length := modSlice_length _ _ _
  revert hb2
  unfold Wave.close
  dsimp only
  rw [blockedAt_win, hb]
  generalize (u.modSlice v.iss.leader fun k => { k with win := v.windowAfter i k.win }) = w0 at h0 l0
  intro hb2
  by_cases hfin : v.iss.final = true
  · rw [if_pos hfin] at hb2
    have s1 : EachSlice (fun k a b => b = if (m || v.iss.moved) = true then a else if k ∈ v.slices then { a with pc := v.iss.next } else a) w0
        (w0.advance v (m || v.iss.moved) (Option.map Blocked.word none)) := by
      show EachSlice _ w0 (if (m || v.iss.moved) = true then w0 else w0.modSlices v.slices fun _ s => { s with pc := v.iss.next })
      cases (m || v.iss.moved)
      · simpa using eachSlice_modSlices w0 v.slices fun _ s => { s with pc := v.iss.next }
      · simpa using eachSlice_refl w0
    have l1 : (w0.advance v (m || v.iss.moved) (Option.map Blocked.word none)).slices.length = w0.slices.length := advance_length _ _ _ _
    generalize w0.advance v (m || v.iss.moved) (Option.map Blocked.word none) = w1 at s1 l1 hb2
    have s2 : EachSlice (fun _ a b => b.blocked = a.blocked ∧ b.pc = a.pc) w1 (if w1.park.isSome = true then w1.clearLatches else w1) := by
      split
      · exact (eachSlice_clearLatches w1).mono fun _ x y h => by subst h; exact ⟨rfl, rfl⟩
      · exact (eachSlice_refl w1).mono fun _ x y h => by subst h; exact ⟨rfl, rfl⟩
    have s3 := EachSlice.trans h0 (EachSlice.trans s1 s2 l1 (T := fun k a b => b.blocked = a.blocked ∧
        b.pc = if (m || v.iss.moved) = true then a.pc else if k ∈ v.slices then v.iss.next else a.pc) (by
      intro k x y z h1 h2
      rw [h2.1, h2.2, h1]
      split
      · exact ⟨rfl, rfl⟩
      · split <;> exact ⟨rfl, rfl⟩)) l0 (T := fun k a b => b.blocked = a.blocked ∧
        b.pc = if (m || v.iss.moved) = true then a.pc else if k ∈ v.slices then v.iss.next else a.pc) (by
      intro k x y z h1 h2; rw [h2.1, h2.2, h1.1, h1.2]; exact ⟨rfl, rfl⟩)
    obtain ⟨e1, e2⟩ := s3 k a b ha hb2
    refine ⟨e1, ?_⟩
    rw [e2]
    cases m <;> cases v.iss.moved <;> simp [hfin]
  · rw [if_neg hfin] at hb2
    obtain ⟨e1, e2⟩ := h0 k a b ha hb2
    exact ⟨e1, by rw [e2, if_neg (by simp [hfin])]⟩

/-- A word that performs. -/
theorem performs_finish {s s1 : State} {v : View} {i : Instr} {m : Bool} {p : Package} {f : Wave → Wave} {x : Wave}
    (hw : p.wave? v.iss.core v.iss.slot = some x)
    (hp : s1.pkg = p.modWave v.iss.core v.iss.slot f) (hc : s1.clk = s.clk) (ha : s1.agenda = s.agenda) (hi : s1.images = s.images) :
    ∃ w, Outside { s with pkg := p } (s1.finish v i m) v i ∧ (s1.finish v i m).issuer v = some w ∧ Closed v m (f x) w := by
  refine ⟨(f x).close v i m, ?_, ?_, closed_close _ _ _ _⟩
  · exact outside_finish' { s with pkg := p } s1 v i m f x hw hp hc ha hi
  · rw [finish_issuer]
    unfold State.issuer
    rw [hp, wave?_modWave]
    simp [hw]

theorem wave?_modCast (p : Package) (c k c' k' : Nat) (f : Cast → Cast) : (p.modCast c k f).wave? c' k' = p.wave? c' k' := by
  unfold Package.wave? Package.modCast Package.modCtx Package.modCore
  simp only [modAt_get?]
  split <;> [cases p.cores[c']? <;> rfl; rfl]

theorem modAt_id {α : Type} (l : List α) (i : Nat) : modAt l i (fun x => x) = l := by
  induction l generalizing i with
  | nil => rfl
  | cons x l ih => cases i <;> simp [modAt, ih]

theorem modWave_id (p : Package) (c k : Nat) : (p.modWave c k fun w => w) = p := by
  unfold Package.modWave Package.modCtx Package.modCore
  have h2 : (fun q : Core => { q with ctx := { q.ctx with waves := modAt q.ctx.waves k (·.map fun w => w) } }) = fun q => q := by
    funext q; simp [modAt_id]
  rw [h2, modAt_id]

/-- A word whose meaning is done. -/
theorem performs_done {s s1 : State} {v : View} {i : Instr} {F : View → State → Out} {p : Package} {f : Wave → Wave} {x : Wave}
    (he : exec i s = s.word i F) (h : Issues s v i) (hF : F v s = .done s1) (hw : p.wave? v.iss.core v.iss.slot = some x)
    (hp : s1.pkg = p.modWave v.iss.core v.iss.slot f) (hc : s1.clk = s.clk) (ha : s1.agenda = s.agenda) (hi : s1.images = s.images) :
    Performs s v i false p (f x) := by
  obtain ⟨w, h1, h2, h3⟩ := performs_finish (i := i) (m := false) hw hp hc ha hi
  exact ⟨_, w, by rw [he]; exact word_done h hF, h1, h2, h3⟩

/-- A word that sets the counters itself. -/
theorem performs_jump {s s1 : State} {v : View} {i : Instr} {F : View → State → Out} {p : Package} {f : Wave → Wave} {x : Wave}
    (he : exec i s = s.word i F) (h : Issues s v i) (hF : F v s = .jump s1) (hw : p.wave? v.iss.core v.iss.slot = some x)
    (hp : s1.pkg = p.modWave v.iss.core v.iss.slot f) (hc : s1.clk = s.clk) (ha : s1.agenda = s.agenda) (hi : s1.images = s.images) :
    Performs s v i true p (f x) := by
  obtain ⟨w, h1, h2, h3⟩ := performs_finish (i := i) (m := true) hw hp hc ha hi
  refine ⟨_, w, ?_, h1, h2, h3⟩
  have hch : (if v.iss.checked = true then none else v.check i) = none := by
    rcases h.2 with h2 | h2 <;> simp [h2]
  rw [he]
  unfold State.word
  rw [h.1]
  simp only [hch, hF]

/-- A word that traps. -/
theorem traps_word {s : State} {v : View} {i : Instr} {F : View → State → Out} {t : Trap}
    (he : exec i s = s.word i F) (h : Issues s v i) (hF : F v s = .trap t) : Traps s v i t := by
  have hch : (if v.iss.checked = true then none else v.check i) = none := by
    rcases h.2 with h2 | h2 <;> simp [h2]
  unfold Traps
  rw [he]
  unfold State.word
  rw [h.1]
  simp only [hch, hF]

/-- A word that waits. -/
theorem waits_block {s s1 : State} {v : View} {i : Instr} {F : View → State → Out} {p : Package} {f : Wave → Wave} {x : Wave} {op : BlockOp}
    (he : exec i s = s.word i F) (h : Issues s v i) (hF : F v s = .block s1 op) (hw : p.wave? v.iss.core v.iss.slot = some x)
    (hp : s1.pkg = p.modWave v.iss.core v.iss.slot f) (hc : s1.clk = s.clk) (ha : s1.agenda = s.agenda) (hi : s1.images = s.images)
    (hl : v.iss.leader < (f x).slices.length) : Waits s v i p (f x) op := by
  let B : Slice → Slice := fun k =>
    { k with blocked := some { op := op, word := v.iss.word, slices := v.slices, resume := v.slices.map fun _ => v.iss.next } }
  let u : Wave := (f x).modSlice v.iss.leader B
  have hub : u.slices[v.iss.leader]? = ((f x).slices[v.iss.leader]?).map B := by
    show ((f x).modSlice v.iss.leader B).slices[v.iss.leader]? = _
    rw [modSlice_get?, if_pos rfl]
  have ulen : u.slices.length = (f x).slices.length := modSlice_length _ _ _
  -- the state after the party is blocked
  have hp2 : (s1.blockParty v op).pkg = p.modWave v.iss.core v.iss.slot fun w => (f w).modSlice v.iss.leader B := by
    show s1.pkg.modWave v.iss.core v.iss.slot (fun w => w.modSlice v.iss.leader B) = _
    rw [hp, modWave_modWave]
  obtain ⟨w, h1, h2, h3⟩ := performs_finish (s := s) (s1 := s1.blockParty v op) (i := i) (m := false) (f := fun w => (f w).modSlice v.iss.leader B) hw hp2
    hc ha hi
  have hex : exec i s = .next ((s1.blockParty v op).finish v i false) := by
    have hch : (if v.iss.checked = true then none else v.check i) = none := by
      rcases h.2 with h2 | h2 <;> simp [h2]
    rw [he]
    unfold State.word
    rw [h.1]
    simp only [hch, hF]
  have hwc : w = u.close v i false := by
    have e : (((s1.blockParty v op).finish v i false).issuer v) = some (u.close v i false) := by
      rw [finish_issuer]
      unfold State.issuer
      rw [hp2, wave?_modWave]
      simp only [and_self, if_true, hw, Option.map_some]
      rfl
    rw [h2] at e
    exact Option.some.inj e
  -- the leader's slice of u
  obtain ⟨a0, ha0⟩ : ∃ a0, (f x).slices[v.iss.leader]? = some a0 := ⟨_, List.getElem?_eq_getElem hl⟩
  have hua : u.slices[v.iss.leader]? = some (B a0) := by rw [hub, ha0]; rfl
  have hbu : u.blockedAt v.iss.leader = some { op := op, word := v.iss.word, slices := v.slices, resume := v.slices.map fun _ => v.iss.next } := by
    unfold Wave.blockedAt; rw [hua]; rfl
  -- what the close makes of each slice
  have key : EachSlice (fun k a b => SliceKept a b ∧ (k ≠ v.iss.leader → b.blocked = a.blocked)
        ∧ (k = v.iss.leader → ∃ c, b.blocked = some c ∧ c.op = op ∧ c.word = v.iss.word ∧ c.count = 0)
        ∧ (v.iss.final = true → k ∈ v.slices → b.leader.toNat = v.iss.leader → b.pc = v.iss.word)) (f x) w := by
    rw [hwc]
    have g0 : EachSlice (fun k a b => b = if k = v.iss.leader then B a else a) (f x) u := eachSlice_modSlice _ _ _
    have g1 : EachSlice (fun k a b => b = if k = v.iss.leader then { a with win := v.windowAfter i a.win } else a) u
        (u.modSlice v.iss.leader fun k => { k with win := v.windowAfter i k.win }) := eachSlice_modSlice _ _ _
    have g01 := EachSlice.trans g0 g1 ulen (T := fun k a b => b = if k = v.iss.leader then { B a with win := v.windowAfter i a.win } else a) (by
      intro k a b c h4 h5; subst h5; subst h4; split <;> rfl)
    have l01 : (u.modSlice v.iss.leader fun k => { k with win := v.windowAfter i k.win }).slices.length = (f x).slices.length := by
      rw [modSlice_length, ulen]
    have start : EachSlice (fun k a b => SliceKept a b ∧ (k ≠ v.iss.leader → b.blocked = a.blocked)
        ∧ (k = v.iss.leader → ∃ c, b.blocked = some c ∧ c.op = op ∧ c.word = v.iss.word ∧ c.count = 0)) (f x)
        (u.modSlice v.iss.leader fun k => { k with win := v.windowAfter i k.win }) := g01.mono (by
      intro k a b h4
      subst h4
      by_cases hk : k = v.iss.leader
      · simp only [hk, if_true]
        exact ⟨rfl, fun hn => absurd rfl hn, fun _ => ⟨_, rfl, rfl, rfl, rfl⟩⟩
      · simp only [hk, if_false]
        exact ⟨rfl, fun _ => trivial, fun hn => absurd hn (by simp)⟩)
    unfold Wave.close
    dsimp only
    rw [blockedAt_win, hbu]
    generalize hw0 : (u.modSlice v.iss.leader fun k => { k with win := v.windowAfter i k.win }) = w0 at start l01
    by_cases hfin : v.iss.final = true
    · rw [if_pos hfin]
      simp only [Option.map_some, Bool.false_or]
      -- the counters of the party's issuing slices go back to the word
      have adv : EachSlice (fun k a b => SliceKept a b ∧ (k ≠ v.iss.leader → b.blocked = a.blocked)
          ∧ (k = v.iss.leader → (∃ c, a.blocked = some c ∧ c.op = op ∧ c.word = v.iss.word ∧ c.count = 0) →
              ∃ c, b.blocked = some c ∧ c.op = op ∧ c.word = v.iss.word ∧ c.count = 0)
          ∧ (k ∈ v.slices → b.leader.toNat = v.iss.leader → b.pc = v.iss.word)) w0
          (w0.advance v v.iss.moved (some v.iss.word)) := by
        unfold Wave.advance
        dsimp only
        have s1 : EachSlice (fun k a b => b = if v.iss.moved = true then a else if k ∈ v.slices then { a with pc := v.iss.next } else a) w0
            (if v.iss.moved = true then w0 else w0.modSlices v.slices fun _ s => { s with pc := v.iss.next }) := by
          cases v.iss.moved
          · simpa using eachSlice_modSlices w0 v.slices fun _ s => { s with pc := v.iss.next }
          · simpa using eachSlice_refl w0
        have l1 : (if v.iss.moved = true then w0 else w0.modSlices v.slices fun _ s => { s with pc := v.iss.next }).slices.length = w0.slices.length := by
          split <;> simp [modSlices_length]
        generalize (if v.iss.moved = true then w0 else w0.modSlices v.slices fun _ s => { s with pc := v.iss.next }) = w1 at s1 l1
        generalize hks : (List.filter (fun k => ((w1.slices[k]?).map fun s => decide (s.leader.toNat = v.iss.leader)).getD false) v.slices) = ks
        have hin : ∀ (k : Nat) (y : Slice), w1.slices[k]? = some y → (k ∈ ks ↔ k ∈ v.slices ∧ y.leader.toNat = v.iss.leader) := by
          intro k y hy; rw [← hks, List.mem_filter, hy]; simp
        intro k a b hka hkb
        have hkl : k < w0.slices.length := (List.getElem?_eq_some_iff.1 hka).1
        have hk1 : k < w1.slices.length := by rw [l1]; exact hkl
        have e1 := s1 k a _ hka (List.getElem?_eq_getElem hk1)
        generalize hy : w1.slices[k] = y at e1
        have hy' : w1.slices[k]? = some y := by rw [List.getElem?_eq_getElem hk1, hy]
        have hk2 : k < (w1.modSlices ks fun _ s => { s with pc := v.iss.word }).slices.length := by rw [modSlices_length]; exact hk1
        have e2 := eachSlice_modSlices w1 ks (fun _ s => { s with pc := v.iss.word }) k y _ hy' (List.getElem?_eq_getElem hk2)
        have e3 := eachSlice_modSlice _ v.iss.leader _ k _ b (List.getElem?_eq_getElem hk2) hkb
        generalize (w1.modSlices ks fun _ s => { s with pc := v.iss.word }).slices[k] = z at e2 e3
        have yk : SliceKept a y ∧ y.blocked = a.blocked := by
          rw [e1]; split
          · exact ⟨rfl, rfl⟩
          · split <;> exact ⟨rfl, rfl⟩
        have zk : SliceKept y z ∧ z.blocked = y.blocked ∧ z.pc = if k ∈ ks then v.iss.word else y.pc := by
          rw [e2]; split <;> exact ⟨rfl, rfl, rfl⟩
        refine ⟨yk.1.trans (zk.1.trans ?_), ?_, ?_, ?_⟩
        · rw [e3]; split <;> rfl
        · intro hn; rw [e3, if_neg hn, zk.2.1, yk.2]
        · intro hk4 hex
          obtain ⟨c, hc1, hc2⟩ := hex
          rw [e3, if_pos hk4]
          refine ⟨{ c with slices := ks, resume := ks.map fun k => ((w1.slices[k]?).map Slice.pc).getD 0 }, ?_, hc2⟩
          show (z.blocked.map fun b => { b with slices := ks, resume := ks.map fun k => ((w1.slices[k]?).map Slice.pc).getD 0 }) = _
          rw [zk.2.1, yk.2, hc1]
          rfl
        · intro hk4 hld
          have hzl : b.leader = y.leader := by
            have : b.leader = z.leader := by rw [e3]; split <;> rfl
            rw [this]; rw [e2]; split <;> rfl
          have hbp : b.pc = z.pc := by rw [e3]; split <;> rfl
          rw [hbp, zk.2.2, if_pos]
          rw [hin k y hy']
          exact ⟨hk4, by rw [← hzl]; exact hld⟩
      have l2 : (w0.advance v v.iss.moved (some v.iss.word)).slices.length = w0.slices.length := advance_length _ _ _ _
      generalize w0.advance v v.iss.moved (some v.iss.word) = w2 at adv l2
      have tail : EachSlice (fun _ a b => SliceKept a b ∧ b.blocked = a.blocked ∧ b.pc = a.pc) w2 (if w2.park.isSome = true then w2.clearLatches else w2) := by
        split
        · exact (eachSlice_clearLatches w2).mono fun _ x y h => by subst h; exact ⟨rfl, rfl, rfl⟩
        · exact (eachSlice_refl w2).mono fun _ x y h => by subst h; exact ⟨rfl, rfl, rfl⟩
      refine EachSlice.trans start (EachSlice.trans adv tail l2 (T := fun k a b => SliceKept a b ∧ (k ≠ v.iss.leader → b.blocked = a.blocked)
          ∧ (k = v.iss.leader → (∃ c, a.blocked = some c ∧ c.op = op ∧ c.word = v.iss.word ∧ c.count = 0) →
              ∃ c, b.blocked = some c ∧ c.op = op ∧ c.word = v.iss.word ∧ c.count = 0)
          ∧ (k ∈ v.slices → b.leader.toNat = v.iss.leader → b.pc = v.iss.word)) ?_) l01 ?_
      · intro k a b c q1 q2
        refine ⟨q1.1.trans q2.1, fun hn => by rw [q2.2.1, q1.2.1 hn], fun hk4 hx => by rw [q2.2.1]; exact q1.2.2.1 hk4 hx, fun hk4 hld => ?_⟩
        rw [q2.2.2]
        apply q1.2.2.2 hk4
        rw [q2.1] at hld
        exact hld
      · intro k a b c q1 q2
        exact ⟨q1.1.trans q2.1, fun hn => by rw [q2.2.1 hn, q1.2.1 hn], fun hk4 => q2.2.2.1 hk4 (q1.2.2 hk4), fun _ => q2.2.2.2⟩
    · rw [if_neg hfin]
      exact start.mono fun k a b q => ⟨q.1, q.2.1, q.2.2, fun hf => absurd hf hfin⟩
  have wl : w.slices.length = (f x).slices.length := by rw [hwc, close_length, ulen]
  obtain ⟨b0, hb0⟩ : ∃ b0, w.slices[v.iss.leader]? = some b0 := ⟨_, List.getElem?_eq_getElem (by rw [wl]; exact hl)⟩
  obtain ⟨c, hc1, hc2, hc3, hc4⟩ := (key _ _ _ ha0 hb0).2.2.1 rfl
  refine ⟨_, w, c, hex, h1, h2, ?_, wl, fun k a b ha hb => ⟨(key k a b ha hb).1, (key k a b ha hb).2.1⟩, ?_, hc2, hc3, hc4, ?_⟩
  · rw [hwc, close_only u v i false]
    rfl
  · unfold Wave.blockedAt; rw [hb0]; exact hc1
  · intro hfin k y hk hy hld
    have hkl : k < (f x).slices.length := by rw [← wl]; exact (List.getElem?_eq_some_iff.1 hy).1
    exact (key k _ y (List.getElem?_eq_getElem hkl) hy).2.2.2 hfin hk hld

theorem SlicesBecome.refl (a : Wave) : SlicesBecome a a fun _ x y => y = x :=
  ⟨rfl, rfl, fun k x y hx hy => by rw [hx] at hy; cases hy; rfl⟩

theorem SlicesBecome.mono {a b : Wave} {R S : Nat → Slice → Slice → Prop} (h1 : SlicesBecome a b R) (h : ∀ k x y, R k x y → S k x y) : SlicesBecome a b S :=
  ⟨h1.1, h1.2.1, fun k x y hx hy => h k x y (h1.2.2 k x y hx hy)⟩

theorem SlicesBecome.trans {a b c : Wave} {R S T : Nat → Slice → Slice → Prop} (h1 : SlicesBecome a b R) (h2 : SlicesBecome b c S)
    (h : ∀ k x y z, R k x y → S k y z → T k x z) : SlicesBecome a c T := by
  refine ⟨by rw [h2.1, h1.1], h2.2.1.trans h1.2.1, fun k x z hx hz => ?_⟩
  have hk : k < b.slices.length := by rw [h1.2.1]; exact (List.getElem?_eq_some_iff.1 hx).1
  exact h k x _ z (h1.2.2 k x _ hx (List.getElem?_eq_getElem hk)) (h2.2.2 k _ z (List.getElem?_eq_getElem hk) hz)

theorem slices_mod (a : Wave) (ks : List Nat) (f : Nat → Slice → Slice) :
    SlicesBecome a (a.modSlices ks f) fun k x y => y = if k ∈ ks then f k x else x := by
  refine ⟨rfl, modSlices_length _ _ _, fun k x y hx hy => ?_⟩
  rw [modSlices_get?, hx] at hy
  split at hy <;> (cases hy; simp [*])

theorem slices_modSlice (w : Wave) (k : Nat) (f : Slice → Slice) : SlicesBecome w (w.modSlice k f) fun n x y => y = if n = k then f x else x := by
  refine ⟨rfl, modSlice_length _ _ _, fun n x y hx hy => ?_⟩
  rw [modSlice_get?, hx] at hy
  split at hy <;> (cases hy; simp [*])

theorem goTo_send (v : View) (pc : Quad) : GoTo v (v.now.sendTo v.slices pc) pc := slices_mod _ _ _

theorem party_slices (w w' : Wave) (l : Nat) (h : SlicesBecome w w' fun _ x y => y.live = x.live ∧ y.leader = x.leader) : w'.party l = w.party l := by
  unfold Wave.party Wave.liveSlices
  have hlen := h.2.1
  have : ∀ n (a b : List Slice), a.length = b.length → (∀ (k : Nat) (x y : Slice), a[k]? = some x → b[k]? = some y → y.live = x.live ∧ y.leader = x.leader) →
      (b.zipIdx n).filterMap (fun q => if (q.1.live && decide (q.1.leader.toNat = l)) = true then some q.2 else none) =
      (a.zipIdx n).filterMap (fun q => if (q.1.live && decide (q.1.leader.toNat = l)) = true then some q.2 else none) := by
    intro n a
    induction a generalizing n with
    | nil => intro b hl _; have : b = [] := List.length_eq_zero_iff.1 hl.symm; rw [this]
    | cons x a ih =>
      intro b hl hb
      cases b with
      | nil => simp at hl
      | cons y b =>
        have h0 := hb 0 x y rfl rfl
        rw [List.zipIdx_cons, List.zipIdx_cons, List.filterMap_cons, List.filterMap_cons,
          ih (n + 1) b (by simpa using hl) (fun k x y hx hy => hb (k + 1) x y hx hy)]
        simp only [h0.1, h0.2]
  exact this 0 w.slices w'.slices hlen.symm h.2.2

theorem divide_slices (w : Wave) (go stay : List Nat) (win : Window) :
    SlicesBecome w (w.divide go stay win) fun k x y =>
      (y.leader = if go = [] ∨ stay = [] then x.leader else if k ∈ stay then leaderOf stay else if k ∈ go then leaderOf go else x.leader)
        ∧ { y with leader := x.leader, win := x.win } = x := by
  unfold Wave.divide
  by_cases hc : go.isEmpty = true ∨ stay.isEmpty = true
  · rw [if_pos (by simpa using hc)]
    refine (SlicesBecome.refl w).mono fun k x y h => ?_
    subst h
    exact ⟨by rw [if_pos (by simpa [List.isEmpty_iff] using hc)], rfl⟩
  · rw [if_neg (by simpa using hc)]
    dsimp only
    have hne : ¬ (go = [] ∨ stay = []) := by simpa [List.isEmpty_iff] using hc
    simp only [hne, if_false]
    have one : ∀ (w : Wave) (ks : List Nat), SlicesBecome w ((w.modSlices ks fun _ s => { s with leader := leaderOf ks }).modSlice (leaderOf ks).toNat fun s => { s with win := win })
        fun k x y => (y.leader = if k ∈ ks then leaderOf ks else x.leader) ∧ { y with leader := x.leader, win := x.win } = x := by
      intro w ks
      refine (slices_mod w ks _).trans (slices_modSlice _ _ _) fun k x y z h1 h2 => ?_
      subst h1; subst h2
      split <;> split <;> exact ⟨rfl, rfl⟩
    refine (one w go).trans (one _ stay) fun k x y z h1 h2 => ?_
    refine ⟨?_, ?_⟩
    · rw [h2.1, h1.1]
    · have e1 := h1.2; have e2 := h2.2
      rw [← e1, ← e2]

end Sys2Proof.Machine
end

