-- ==== Sys2Proof/Laws/Memory.lean ====
section
/-! SUPPORT. The laws of memory: a read after a write, and the canonical form, which every memory operation keeps. -/

namespace Sys2Proof.Machine

/-- The canonical form from an address on is one from any lower address on. -/
theorem Memory.wfFrom_mono {lo lo' : Nat} (m : Memory) (h : Memory.wfFrom lo m = true) (hl : lo' ≤ lo) : Memory.wfFrom lo' m = true := by
  cases m with
  | nil => rfl
  | cons p m =>
    obtain ⟨x, b⟩ := p
    simp only [Memory.wfFrom, Bool.and_eq_true, decide_eq_true_eq] at h ⊢
    exact ⟨⟨by omega, h.1.2⟩, h.2⟩

/-- Dropping cells keeps the canonical form. -/
theorem Memory.filter_wfFrom (p : Host.Cell → Bool) : ∀ (m : Memory) (lo : Nat), Memory.wfFrom lo m = true → Memory.wfFrom lo (m.filter p) = true := by
  intro m
  induction m with
  | nil => intro lo h; exact h
  | cons q m ih =>
    intro lo h
    obtain ⟨x, y⟩ := q
    simp only [Memory.wfFrom, Bool.and_eq_true, decide_eq_true_eq] at h
    rw [List.filter_cons]
    split
    · simp only [Memory.wfFrom, Bool.and_eq_true, decide_eq_true_eq]
      exact ⟨h.1, ih _ h.2⟩
    · exact Memory.wfFrom_mono _ (ih _ h.2) (by omega)

/-- Dropping cells keeps it. -/
theorem Memory.filter_wf (m : Memory) (p : Host.Cell → Bool) (h : m.wf = true) : Memory.wf (m.filter p) = true :=
  Memory.filter_wfFrom p m 0 h

/-- Listing a cell that is not listed keeps the canonical form. -/
theorem Memory.insert_wfFrom {lo : Nat} (m : Memory) (a : Nat) (b : Byte) (hb : b ≠ 0) (h : Memory.wfFrom lo m = true) (ha : lo ≤ a)
    (hm : ∀ c ∈ m, c.1 ≠ a) : Memory.wfFrom lo (m.insert a b) = true := by
  induction m generalizing lo with
  | nil =>
    simp only [Memory.insert, Memory.wfFrom, Bool.and_eq_true, decide_eq_true_eq, and_true]
    exact ⟨ha, hb⟩
  | cons p m ih =>
    obtain ⟨x, y⟩ := p
    have hx : x ≠ a := hm (x, y) (by simp)
    simp only [Memory.wfFrom, Bool.and_eq_true, decide_eq_true_eq] at h
    unfold Memory.insert
    split
    · simp only [Memory.wfFrom, Bool.and_eq_true, decide_eq_true_eq]
      exact ⟨⟨ha, hb⟩, ⟨by omega, h.1.2⟩, h.2⟩
    · simp only [Memory.wfFrom, Bool.and_eq_true, decide_eq_true_eq]
      exact ⟨h.1, ih h.2 (by omega) fun c hc => hm c (by simp [hc])⟩

/-- A write keeps the canonical form of a memory. -/
theorem Memory.write_wf (m : Memory) (a : Nat) (b : Byte) (h : m.wf = true) : (m.write a b).wf = true := by
  unfold Memory.write
  dsimp only
  split
  · exact Memory.filter_wf m _ h
  · next hb => exact Memory.insert_wfFrom _ a b hb (Memory.filter_wf m _ h) (Nat.zero_le _) (by intro c hc; simpa using (List.mem_filter.1 hc).2)

/-- Consecutive writes keep it. -/
theorem Memory.writeList_wf (m : Memory) (a : Nat) (l : List Byte) (h : m.wf = true) : (m.writeList a l).wf = true := by
  induction l generalizing m a with
  | nil => exact h
  | cons b l ih => exact ih _ _ (Memory.write_wf m a b h)

/-- Writes of pairs keep it. -/
theorem Memory.writePairs_wf (m : Memory) (l : List (Nat × Byte)) (h : m.wf = true) : (m.writePairs l).wf = true := by
  induction l generalizing m with
  | nil => exact h
  | cons p l ih => exact ih _ (Memory.write_wf m p.1 p.2 h)

/-- A read after a cell that is not listed is. -/
theorem Memory.read_insert (m : Memory) (a k : Nat) (b : Byte) (hm : ∀ c ∈ m, c.1 ≠ a) : (m.insert a b).read k = if k = a then b else m.read k := by
  induction m with
  | nil => rfl
  | cons p m ih =>
    obtain ⟨x, y⟩ := p
    have hx : x ≠ a := hm (x, y) (by simp)
    unfold Memory.insert
    split
    · rfl
    · simp only [Memory.read]
      by_cases hk : k = x
      · rw [if_pos hk, if_pos hk, if_neg (by omega)]
      · rw [if_neg hk, if_neg hk]; exact ih fun c hc => hm c (by simp [hc])

/-- A read of what is left when the cells of an address are dropped. -/
theorem Memory.read_drop (m : Memory) (a k : Nat) : Memory.read (m.filter fun c => c.1 ≠ a) k = if k = a then 0 else m.read k := by
  induction m with
  | nil => simp [Memory.read]
  | cons p m ih =>
    obtain ⟨x, y⟩ := p
    rw [List.filter_cons]
    by_cases hx : x = a
    · rw [if_neg (by simp [hx]), ih]
      by_cases hk : k = a
      · rw [if_pos hk, if_pos hk]
      · rw [if_neg hk, if_neg hk]; conv => rhs; unfold Memory.read
        rw [if_neg (by omega)]
    · rw [if_pos (by simp [hx])]
      simp only [Memory.read]
      by_cases hk : k = x
      · rw [if_pos hk, if_pos hk, if_neg (by omega)]
      · rw [if_neg hk, if_neg hk]; exact ih

/-- A read after a write gives the value written, and every other byte is as it was. -/
theorem Memory.read_write (m : Memory) (a k : Nat) (b : Byte) : (m.write a b).read k = if k = a then b else m.read k := by
  unfold Memory.write
  dsimp only
  split
  · next hb => rw [Memory.read_drop, hb]
  · rw [Memory.read_insert _ _ _ _ (by intro c hc; simpa using (List.mem_filter.1 hc).2), Memory.read_drop]
    by_cases hk : k = a <;> simp [hk]

/-- A read after consecutive writes. -/
theorem Memory.read_writeList (m : Memory) (a k : Nat) (l : List Byte) :
    (m.writeList a l).read k = if a ≤ k ∧ k < a + l.length then l.getD (k - a) 0 else m.read k := by
  induction l generalizing m a with
  | nil => rw [if_neg (by simp)]; rfl
  | cons b l ih =>
    unfold Memory.writeList
    rw [ih, Memory.read_write]
    simp only [List.length_cons]
    by_cases h1 : k = a
    · subst h1; rw [if_neg (by omega), if_pos rfl, if_pos (by omega)]; simp
    · by_cases h2 : a + 1 ≤ k ∧ k < a + 1 + l.length
      · rw [if_pos h2, if_pos (by omega), show k - a = (k - (a + 1)) + 1 from by omega, List.getD_cons_succ]
      · rw [if_neg h2, if_neg h1, if_neg (by omega)]

/-- A read after writes of pairs: the last pair of the address decides. -/
theorem Memory.read_writePairs (m : Memory) (l : List (Nat × Byte)) (k : Nat) :
    (m.writePairs l).read k = ((l.reverse.find? fun p => p.1 = k).map Prod.snd).getD (m.read k) := by
  induction l generalizing m with
  | nil => rfl
  | cons p l ih =>
    obtain ⟨a, b⟩ := p
    unfold Memory.writePairs
    rw [ih, Memory.read_write, List.reverse_cons, List.find?_append]
    cases hf : l.reverse.find? fun p => decide (p.1 = k) with
    | some q => rfl
    | none =>
      by_cases hk : k = a
      · subst hk; simp
      · simp [hk, Ne.symm hk]

/-- DRAM lists nothing at reset. -/
theorem reset_dram_wf : Memory.wf State.reset.pkg.dram = true := rfl

end Sys2Proof.Machine
end

