-- ==== Sys2Proof/Laws/Shapes.lean ====
section
/-! SUPPORT. The shapes in which the statements speak of register words, branches and united waves: one lemma for each shared form, cited for each instruction of it. -/

namespace Sys2Proof

open Machine

theorem modWave_const (p : Package) (c k : Nat) (w : Wave) (f : Wave → Wave) (h : p.wave? c k = some w) : p.modWave c k f = p.modWave c k fun _ => f w := by
  unfold Package.modWave Package.modCtx Package.modCore
  congr 1
  apply List.ext_getElem?
  intro n
  rw [modAt_get?, modAt_get?]
  split
  · next hn =>
    subst hn
    unfold Package.wave? at h
    cases hc : p.cores[n]? with
    | none => rfl
    | some q =>
      rw [hc] at h
      simp only [Option.bind_some] at h
      simp only [Option.map_some]
      congr 2
      congr 1
      apply List.ext_getElem?
      intro m
      rw [modAt_get?, modAt_get?]
      split
      · next hm =>
        subst hm
        cases hx : q.ctx.waves[m]? with
        | none => rfl
        | some y =>
          rw [hx] at h
          simp only [Option.join_some] at h
          subst h
          rfl
      · rfl
  · rfl

open Machine in
theorem eachLane2 {i : VR → Instr} {f g : Word → Word → Word} (he : ∀ s w, exec (i w) s = execVR (i w) w g s) (h : ∀ a b, g a b = f a b) :
    EachLane2 i f := by
  have : g = f := by funext a b; exact h a b
  subst this
  intro s v w hi
  exact execVec_spec (f := fun v j => g (v.vec w.a.toNat j) (v.vec w.b.toNat j)) (he s w) hi

theorem eachLane1 {i : VR1 → Instr} {f g : Word → Word} (he : ∀ s w, exec (i w) s = execVR1 (i w) w g s) (h : ∀ a, g a = f a) :
    EachLane1 i f := by
  have : g = f := by funext a; exact h a
  subst this
  intro s v w hi
  exact execVec_spec (f := fun v j => g (v.vec w.a.toNat j)) (he s w) hi

theorem eachLaneImm {i : VI → Instr} {f g : Word → BitVec 7 → Word} (he : ∀ s w, exec (i w) s = execVI (i w) w g s) (h : ∀ a b, g a b = f a b) :
    EachLaneImm i f := by
  have : g = f := by funext a b; exact h a b
  subst this
  intro s v w hi
  exact execVec_spec (f := fun v j => g (v.vec w.a.toNat j) w.i) (he s w) hi

theorem scalar2 {i : VR → Instr} {f g : Quad → Quad → Quad} (he : ∀ s w, exec (i w) s = execSA (i w) w g s) (h : ∀ a b, g a b = f a b) :
    Scalar2 i f := by
  have : g = f := by funext a b; exact h a b
  subst this
  intro s v w hi
  exact execScalar_spec (f := fun v => g (v.sc w.a.toNat) (v.sc w.b.toNat)) (he s w) hi

theorem scalarImm {i : SI → Instr} {f g : Quad → BitVec 8 → Quad} (he : ∀ s w, exec (i w) s = execSI (i w) w g s) (h : ∀ a b, g a b = f a b) :
    ScalarImm i f := by
  have : g = f := by funext a b; exact h a b
  subst this
  intro s v w hi
  exact execScalar_spec (f := fun v => g (v.sc w.a.toNat) w.i) (he s w) hi

theorem combine_eq (m : BitVec 2) (o c : Bool) : combine m o c = Combined m o c := by
  rcases m with ⟨⟨n, hn⟩⟩
  have : n = 0 ∨ n = 1 ∨ n = 2 ∨ n = 3 := by omega
  rcases this with rfl | rfl | rfl | rfl <;> rfl

theorem compares {i : VP → Instr} {f g : Word → Word → Bool} (he : ∀ s w, exec (i w) s = execCmp32 (i w) w g s) (h : ∀ a b, g a b = f a b) :
    Compares i f := by
  have : g = f := by funext a b; exact h a b
  subst this
  intro s v w hi
  have := execPred_spec (f := fun v j => combine w.m (v.predAt w.d.toNat j) (g (v.vec w.a.toNat j) (v.vec w.b.toNat j))) (he s w) hi
  simpa only [combine_eq] using this

theorem comparesPair {i : VP → Instr} {f g : Quad → Quad → Bool} (he : ∀ s w, exec (i w) s = execCmp64 (i w) w g s) (h : ∀ a b, g a b = f a b) :
    ComparesPair i f := by
  have : g = f := by funext a b; exact h a b
  subst this
  intro s v w hi
  have := execPred_spec (f := fun v j => combine w.m (v.predAt w.d.toNat j) (g (v.pair w.a.toNat j) (v.pair w.b.toNat j))) (he s w) hi
  simpa only [combine_eq] using this

theorem tests {i : VP1 → Instr} {f g : Word → Bool} (he : ∀ s w, exec (i w) s = execCompare (i w) w.d w.m (fun v j => g (v.vec w.a.toNat j)) s) (h : ∀ a, g a = f a) :
    Tests i f := by
  have : g = f := by funext a; exact h a
  subst this
  intro s v w hi
  have := execPred_spec (f := fun v j => combine w.m (v.predAt w.d.toNat j) (g (v.vec w.a.toNat j))) (he s w) hi
  simpa only [combine_eq] using this

theorem testsPair {i : VP1 → Instr} {f g : Quad → Bool} (he : ∀ s w, exec (i w) s = execCompare (i w) w.d w.m (fun v j => g (v.pair w.a.toNat j)) s) (h : ∀ a, g a = f a) :
    TestsPair i f := by
  have : g = f := by funext a; exact h a
  subst this
  intro s v w hi
  have := execPred_spec (f := fun v j => combine w.m (v.predAt w.d.toNat j) (g (v.pair w.a.toNat j))) (he s w) hi
  simpa only [combine_eq] using this

open Machine in
theorem eachFloat2 {i : VR → Instr} {f g : Nat → Nat → Flagged} (he : ∀ s w, exec (i w) s = execVF (i w) w g s)
    (h : ∀ a b, a < 2 ^ 32 → b < 2 ^ 32 → g a b = f a b) : EachFloat2 i f := by
  intro s v w hi
  have e : ∀ j, g (v.vec w.a.toNat j).toNat (v.vec w.b.toNat j).toNat = f (v.vec w.a.toNat j).toNat (v.vec w.b.toNat j).toNat :=
    fun j => h _ _ (BitVec.isLt _) (BitVec.isLt _)
  have := execFp_spec (f := fun v j => g (v.vec w.a.toNat j).toNat (v.vec w.b.toNat j).toNat) (he s w) hi
  simpa only [e] using this

theorem eachFloat1 {i : VR1 → Instr} {f g : Nat → Flagged} (he : ∀ s w, exec (i w) s = execVF1 (i w) w g s)
    (h : ∀ a, a < 2 ^ 32 → g a = f a) : EachFloat1 i f := by
  intro s v w hi
  have e : ∀ j, g (v.vec w.a.toNat j).toNat = f (v.vec w.a.toNat j).toNat := fun j => h _ (BitVec.isLt _)
  have := execFp_spec (f := fun v j => g (v.vec w.a.toNat j).toNat) (he s w) hi
  simpa only [e] using this

theorem eachFloat3 {i : VR → Instr} {f g : Nat → Nat → Nat → Flagged} (he : ∀ s w, exec (i w) s = execVHf (i w) w g s)
    (h : ∀ d a b, d < 2 ^ 32 → a < 2 ^ 32 → b < 2 ^ 32 → g d a b = f d a b) : EachFloat3 i f := by
  intro s v w hi
  have e : ∀ j, g (v.src.v w.d.toNat j).toNat (v.vec w.a.toNat j).toNat (v.vec w.b.toNat j).toNat = f (v.src.v w.d.toNat j).toNat (v.vec w.a.toNat j).toNat (v.vec w.b.toNat j).toNat :=
    fun j => h _ _ _ (BitVec.isLt _) (BitVec.isLt _) (BitVec.isLt _)
  have := execFp_spec (f := fun v j => g (v.src.v w.d.toNat j).toNat (v.vec w.a.toNat j).toNat (v.vec w.b.toNat j).toNat) (he s w) hi
  simpa only [e] using this

theorem eachDouble2 {i : VR → Instr} {f g : Nat → Nat → Flagged} (he : ∀ s w, exec (i w) s = execVDf (i w) w g s)
    (h : ∀ a b, a < 2 ^ 64 → b < 2 ^ 64 → g a b = f a b) : EachDouble2 i f := by
  intro s v w hi
  have e : ∀ j, g (v.pair w.a.toNat j).toNat (v.pair w.b.toNat j).toNat = f (v.pair w.a.toNat j).toNat (v.pair w.b.toNat j).toNat :=
    fun j => h _ _ (BitVec.isLt _) (BitVec.isLt _)
  have := execFpPair_spec (f := fun v j => g (v.pair w.a.toNat j).toNat (v.pair w.b.toNat j).toNat) (he s w) hi
  simpa only [e] using this

theorem eachDouble1 {i : VR1 → Instr} {f g : Nat → Flagged} (he : ∀ s w, exec (i w) s = execVD1 (i w) w g s)
    (h : ∀ a, a < 2 ^ 64 → g a = f a) : EachDouble1 i f := by
  intro s v w hi
  have e : ∀ j, g (v.pair w.a.toNat j).toNat = f (v.pair w.a.toNat j).toNat := fun j => h _ (BitVec.isLt _)
  have := execFpPair_spec (f := fun v j => g (v.pair w.a.toNat j).toNat) (he s w) hi
  simpa only [e] using this

theorem branches {s : State} {v : View} {i : Instr} {b : Bool} {c : Prop} {t : Quad} {F : View → State → Out}
    (he : exec i s = s.word i F) (h : Issues s v i) (hF : F v s = branch s v b t) (hb : (b = true) ↔ c) : Branches s v i c t := by
  have hv := view_spec h.1
  refine ⟨fun hc => ⟨_, performs_jump (s1 := s.onWave v fun w => w.sendTo v.slices t) he h (by rw [hF, hb.2 hc]; simp only [branch, if_true]) (f := fun w => w.sendTo v.slices t) hv.2.1 rfl rfl rfl rfl, goTo_send _ _⟩, fun hc => ?_⟩
  have : b = false := by cases b; rfl; exact absurd (hb.1 rfl) hc
  exact performs_done (s1 := s) he h (by rw [hF, this]; simp only [branch, Bool.false_eq_true, if_false]) (f := fun w => w) hv.2.1 (by rw [modWave_id]) rfl rfl rfl

theorem linked {s : State} {v : View} {i : Instr} {t : Quad} {F : View → State → Out}
    (he : exec i s = s.word i F) (h : Issues s v i) (hF : F v s = branch (s.link v) v true t) : ∃ u, Performs s v i true s.pkg u
      ∧ u = { v.now with slices := u.slices, sregs := u.sregs }
      ∧ (∀ n, n < v.now.sregs.length → u.s n = if n = 63 ∧ Stands v .S n = true then v.iss.next else v.now.s n)
      ∧ GoTo v { u with sregs := v.now.sregs } t := by
  have hv := view_spec h.1
  let f : Wave → Wave := fun w => (if Stands v .S 63 = true then w.setS 63 v.iss.next else w).sendTo v.slices t
  refine ⟨f v.now, performs_jump (s1 := (s.link v).onWave v fun w => w.sendTo v.slices t) he h (by rw [hF]; simp only [branch, if_true]) (f := f) hv.2.1 ?_ ?_ ?_ ?_, ?_, ?_, ?_⟩
  · unfold State.link State.writeS
    simp only [stands_S, f]
    cases Stands v .S 63
    · rfl
    · simp only [Bool.not_true, Bool.false_eq_true, if_false, State.onWave, State.modWave, modWave_modWave, if_true]
  · unfold State.link State.writeS; split <;> rfl
  · unfold State.link State.writeS; split <;> rfl
  · unfold State.link State.writeS; split <;> rfl
  · simp only [f]; split <;> rfl
  · intro n hn
    simp only [f]
    by_cases c : Stands v .S 63 = true
    · simp only [c, if_true]
      show (v.now.setS 63 v.iss.next).s n = _
      rw [setS_s _ _ _ _ hn]
      by_cases hn : n = 63
      · subst hn; simp [c]
      · simp [hn]
    · rw [if_neg c]
      show v.now.s n = _
      rw [if_neg]
      rintro ⟨rfl, h2⟩; exact c h2
  · have : ({ f v.now with sregs := v.now.sregs } : Wave) = v.now.sendTo v.slices t := by simp only [f]; split <;> rfl
    rw [this]; exact goTo_send _ _

theorem scalarBranch {i : BC → Instr} {c : Quad → Quad → Prop} {f : Quad → Quad → Bool}
    (he : ∀ s w, exec (i w) s = execBS (i w) w.a.toNat w.b.toNat w.o f s) (h : ∀ a b, (f a b = true) ↔ c a b) : ScalarBranch i c := by
  intro s v w hi
  exact branches (F := fun v s => branch s v (f (v.src.s w.a.toNat) (v.src.s w.b.toNat)) (v.target w.o)) (he s w) hi rfl (h _ _)

theorem scalarTest {i : BC1 → Instr} {c : Quad → Prop} {f : Quad → Quad → Bool}
    (he : ∀ s w, exec (i w) s = execBS (i w) w.a.toNat w.a.toNat w.o f s) (h : ∀ a, (f a a = true) ↔ c a) : ScalarTest i c := by
  intro s v w hi
  exact branches (F := fun v s => branch s v (f (v.src.s w.a.toNat) (v.src.s w.a.toNat)) (v.target w.o)) (he s w) hi rfl (h _)

theorem live_mem (w : Wave) (p : Slice → Bool) (k : Nat) : k ∈ w.liveSlices p ↔ ∃ x, w.slices[k]? = some x ∧ x.live = true ∧ p x = true := by
  unfold Wave.liveSlices
  rw [List.mem_filterMap]
  constructor
  · rintro ⟨⟨x, n⟩, hm, hx⟩
    have hx2 : (x.live && p x) = true ∧ n = k := by
      cases hb : (x.live && p x)
      · simp [hb] at hx
      · simp only [hb, if_true, Option.some.injEq] at hx; exact ⟨rfl, hx⟩
    obtain ⟨h1, rfl⟩ := hx2
    rw [List.mem_zipIdx_iff_getElem?] at hm
    rw [Bool.and_eq_true] at h1
    exact ⟨x, hm, h1.1, h1.2⟩
  · rintro ⟨x, hx, h1, h2⟩
    exact ⟨(x, k), List.mem_zipIdx_iff_getElem?.2 hx, by simp [h1, h2]⟩

theorem stacked_iff (v : View) : v.stacked = true ↔ ∃ k x, k ∈ v.slices ∧ v.now.slices[k]? = some x ∧ x.stack ≠ [] := by
  unfold View.stacked
  rw [List.any_eq_true]
  constructor
  · rintro ⟨k, hk, hb⟩
    cases hx : v.now.slices[k]? with
    | none => rw [hx] at hb; simp at hb
    | some x => rw [hx] at hb; exact ⟨k, x, hk, hx, by simpa [List.isEmpty_iff] using hb⟩
  · rintro ⟨k, x, hk, hx, hs⟩
    exact ⟨k, hk, by rw [hx]; simpa [List.isEmpty_iff] using hs⟩

theorem regangAt_iff (w : Wave) (l : Nat) (x : Quad) : w.regangAt l x = true ↔ ∃ b, w.blockedAt l = some b ∧ b.op = .regang ∧ b.word = x := by
  unfold Wave.regangAt
  cases h : w.blockedAt l with
  | none => simp
  | some b => simp

theorem ready_iff (w : Wave) (x : Quad) (me : Option Nat) (mine : List Nat) : w.regangReady x me mine = true ↔
    (∀ k y, w.slices[k]? = some y → y.live = true → k ∈ mine ∨ y.pc = x)
      ∧ ∀ l, l ∈ w.leaders → me ≠ some l → ∃ b, w.blockedAt l = some b ∧ b.op = .regang ∧ b.word = x := by
  unfold Wave.regangReady
  rw [Bool.and_eq_true, List.all_eq_true, List.all_eq_true]
  apply and_congr
  · constructor
    · intro h k y hy hl
      have := h k ((live_mem w _ k).2 ⟨y, hy, hl, rfl⟩)
      rw [hy] at this
      simpa using this
    · intro h k hk
      obtain ⟨y, hy, hl, _⟩ := (live_mem w _ k).1 hk
      have := h k y hy hl
      rw [hy]; simpa using this
  · apply forall_congr'; intro l; apply imp_congr_right; intro _
    rw [Bool.or_eq_true, decide_eq_true_eq, regangAt_iff, or_iff_not_imp_left]

theorem unite_slices (a : Wave) (ks : List Nat) (win : Window) (hl : (leaderOf ks).toNat ∈ ks) :
    SlicesBecome a (a.unite ks win) fun k p q =>
      q = if k ∈ ks then { p with leader := leaderOf ks, blocked := none, late := none, latches := q.latches, win := q.win } else p := by
  unfold Wave.unite
  refine (slices_mod _ _ _).trans (slices_modSlice _ _ _) fun k x y z h1 h2 => ?_
  subst h1; subst h2
  by_cases hk : k ∈ ks
  · simp only [hk, if_true]
    split <;> rfl
  · simp only [hk, if_false]
    rw [if_neg]; intro e; rw [e] at hk; exact hk hl

theorem foldl_min_mem (l : List Nat) (z : Nat) : l.foldl min z = z ∨ l.foldl min z ∈ l := by
  induction l generalizing z with
  | nil => exact .inl rfl
  | cons x l ih =>
    rw [List.foldl_cons]
    rcases ih (min z x) with h | h
    · rw [h]
      rcases Nat.le_total z x with h2 | h2
      · left; omega
      · right; rw [Nat.min_eq_right h2]; exact List.mem_cons_self
    · right; exact List.mem_cons_of_mem _ h

theorem foldl_min_le (l : List Nat) (z : Nat) : l.foldl min z ≤ z ∧ ∀ x ∈ l, l.foldl min z ≤ x := by
  induction l generalizing z with
  | nil => exact ⟨le_refl _, fun _ h => by simp at h⟩
  | cons x l ih =>
    rw [List.foldl_cons]
    have := ih (min z x)
    refine ⟨by omega, fun y hy => ?_⟩
    rcases List.mem_cons.1 hy with rfl | hy
    · have := this.1; omega
    · exact this.2 y hy

theorem leaderOf_mem (ks : List Nat) (n : Nat) (hn : n ∈ ks) (hmin : ∀ k ∈ ks, n ≤ k) (h : n < 32) : leaderOf ks = BitVec.ofNat 5 n := by
  unfold leaderOf
  have h1 := foldl_min_le ks 31
  have h2 := h1.2 n hn
  rcases foldl_min_mem ks 31 with h3 | h3
  · have : n = 31 := by omega
    rw [h3, this]
  · have := hmin _ h3
    congr 1; omega

theorem goOn_slices (a : Wave) (ks : List Nat) (x : Quad) : SlicesBecome a (a.goOn ks x) fun k p q =>
    q = if k ∈ ks then { p with mask := 15, pc := x + 4 } else p := slices_mod _ _ _

theorem liveOf (a b : Wave) (h : SlicesBecome a b fun _ x y => y.live = x.live) (p : Nat) : (∃ y, b.slices[p]? = some y ∧ y.live = true) ↔ ∃ x, a.slices[p]? = some x ∧ x.live = true := by
  constructor
  · rintro ⟨y, hy, hl⟩
    have hk : p < a.slices.length := by rw [← h.2.1]; exact (List.getElem?_eq_some_iff.1 hy).1
    exact ⟨_, List.getElem?_eq_getElem hk, by rw [← h.2.2 p _ y (List.getElem?_eq_getElem hk) hy]; exact hl⟩
  · rintro ⟨x, hx, hl⟩
    have hk : p < b.slices.length := by rw [h.2.1]; exact (List.getElem?_eq_some_iff.1 hx).1
    exact ⟨_, List.getElem?_eq_getElem hk, by rw [h.2.2 p x _ hx (List.getElem?_eq_getElem hk)]; exact hl⟩

theorem regangAll_unites (a : Wave) (x : Quad) (win : Window) : Unites a (a.regangAll x win) x := by
  -- with no live slice, the leader's window alone can change
  unfold Wave.regangAll
  have h1 := goOn_slices a a.liveSlices x
  have h2 : SlicesBecome (a.goOn a.liveSlices x) ((a.goOn a.liveSlices x).unite a.liveSlices win) fun k p q =>
      q = if k ∈ a.liveSlices then { p with leader := leaderOf a.liveSlices, blocked := none, late := none, latches := q.latches, win := q.win } else { p with win := q.win } := by
    unfold Wave.unite
    refine (slices_mod _ _ _).trans (slices_modSlice _ _ _) fun k x y z h1 h2 => ?_
    subst h1; subst h2
    by_cases hk : k ∈ a.liveSlices
    · simp only [hk, if_true]; split <;> rfl
    · simp only [hk, if_false]; split <;> rfl
  have h0 : SlicesBecome a a fun k p q => q = p ∧ (k ∈ a.liveSlices ↔ p.live = true) :=
    ⟨rfl, rfl, fun k p q hp hq => by
      rw [hp] at hq; cases hq
      refine ⟨rfl, (live_mem a _ k).trans ⟨?_, fun h => ⟨p, hp, h, rfl⟩⟩⟩
      rintro ⟨y, hy, hl, _⟩
      rw [hp] at hy; cases hy; exact hl⟩
  have h3 := (h0.trans h1 (T := fun k p q => q = (if k ∈ a.liveSlices then { p with mask := 15, pc := x + 4 } else p) ∧ (k ∈ a.liveSlices ↔ p.live = true)) (by
    rintro k p q r ⟨rfl, e⟩ rfl; exact ⟨rfl, e⟩)).trans h2 (T := fun k p q =>
      q = if p.live then { p with mask := 15, pc := x + 4, leader := leaderOf a.liveSlices, blocked := none, late := none, latches := q.latches, win := q.win }
        else { p with win := q.win }) (by
    rintro k p q r ⟨rfl, e⟩ e2
    by_cases hk : k ∈ a.liveSlices
    · rw [if_pos hk, if_pos hk] at e2
      rw [if_pos (e.1 hk)]; exact e2
    · rw [if_neg hk, if_neg hk] at e2
      rw [if_neg (fun h => hk (e.2 h))]; exact e2)
  refine ⟨?_, h3.2.1, h3.2.2⟩
  have := h3.1
  rw [this]

end Sys2Proof
end

