-- ==== Sys2Proof/Laws/Scratch.lean ====
section
/-! SUPPORT. The scratchpad: the checks of an access, its full-empty effects, what a load writes and what a store leaves, and how a blocked party goes on. -/

namespace Sys2Proof

open Machine

theorem lowest_lane {P : Nat → Bool} {n j : Nat} (hj : j < n) (h : P j = true) (hl : ∀ k, k < j → P k = false) :
    ((List.range n).filter P).head? = some j := by
  rw [List.head?_filter, List.find?_range_eq_some]
  exact ⟨h, List.mem_range.2 hj, fun k hk => by simp [hl k hk]⟩

theorem mem_lanes (v : View) (j : Nat) : j ∈ v.lanes ↔ j < 128 ∧ v.active j = true := by
  unfold View.lanes lanesOf View.active; rw [List.mem_filter, List.mem_range]

theorem lane_trap (v : View) (cause : Cause) (addr : Nat → Quad) (P : LaneAddr → Bool) (j : Nat) (hj : j < 128) (ha : v.active j = true)
    (hP : P { lane := j, addr := addr j } = true) (hl : ∀ k, k < j → v.active k = true → ¬ P { lane := k, addr := addr k } = true) :
    ∃ m : LaneMask, laneTrap cause ((v.lanes.map fun j => ({ lane := j, addr := addr j } : LaneAddr)).filter P) = some { cause := cause, addr := addr j, lanes := some m }
      ∧ ∀ k, k < 128 → (m.getLsbD k = true ↔ v.active k = true ∧ P { lane := k, addr := addr k } = true) := by
  let f := fun j => ({ lane := j, addr := addr j } : LaneAddr)
  have h1 : ((v.lanes.map f).filter P).head? = some (f j) := by
    rw [List.filter_map, List.head?_map]
    unfold View.lanes lanesOf
    rw [List.filter_filter, lowest_lane hj]
    · rfl
    · simp only [Function.comp, f, Bool.and_eq_true]; exact ⟨hP, ha⟩
    · intro k hk
      rw [Bool.eq_false_iff]; simp only [Function.comp, f, Bool.and_eq_true, ne_eq]
      rintro ⟨q1, q2⟩; exact hl k hk q2 q1
  cases hq : (v.lanes.map f).filter P with
  | nil => rw [hq] at h1; simp at h1
  | cons l r =>
    rw [hq] at h1
    simp only [List.head?_cons, Option.some.injEq] at h1
    refine ⟨laneMask fun k => (l :: r).any fun x => x.lane = k, ?_, ?_⟩
    · simp only [laneTrap, h1, f]
    · intro k hk
      rw [laneMask_get _ _ hk, ← hq, List.any_eq_true]
      constructor
      · rintro ⟨x, hx, hxk⟩
        rw [List.mem_filter, List.mem_map] at hx
        obtain ⟨⟨y, hy, rfl⟩, hp⟩ := hx
        have : y = k := of_decide_eq_true hxk
        subst this
        exact ⟨((mem_lanes v y).1 hy).2, hp⟩
      · rintro ⟨h2, h3⟩
        exact ⟨f k, List.mem_filter.2 ⟨List.mem_map.2 ⟨k, (mem_lanes v k).2 ⟨hk, h2⟩, rfl⟩, h3⟩, decide_eq_true rfl⟩

theorem lane_none (v : View) (cause : Cause) (addr : Nat → Quad) (P : LaneAddr → Bool) (h : NoLane v fun j => P { lane := j, addr := addr j } = true) :
    laneTrap cause ((v.lanes.map fun j => ({ lane := j, addr := addr j } : LaneAddr)).filter P) = none := by
  have : (v.lanes.map fun j => ({ lane := j, addr := addr j } : LaneAddr)).filter P = [] := by
    rw [List.filter_eq_nil_iff]
    intro l hl
    obtain ⟨j, hj, rfl⟩ := List.mem_map.1 hl
    have := (mem_lanes v j).1 hj
    exact h j this.1 this.2
  rw [this]; rfl

theorem granules_one (a size : Nat) (h : a % size = 0) (hs : size = 2 ∨ size = 4 ∨ size = 8 ∨ size = 16) : granulesOf a size = [a / 16] := by
  unfold granulesOf
  rw [if_neg (by omega)]
  have : (a + size - 1) / 16 - a / 16 + 1 = 1 := by rcases hs with rfl | rfl | rfl | rfl <;> omega
  rw [this]; simp

theorem size_cases (z : BitVec 2) : 2 ^ (z.toNat + 1) = 2 ∨ 2 ^ (z.toNat + 1) = 4 ∨ 2 ^ (z.toNat + 1) = 8 ∨ 2 ^ (z.toNat + 1) = 16 := by
  have := z.isLt
  have : z.toNat = 0 ∨ z.toNat = 1 ∨ z.toNat = 2 ∨ z.toNat = 3 := by omega
  rcases this with h | h | h | h <;> rw [h] <;> simp

theorem spAddr_eq (v : View) (w : MS) (size j : Nat) : v.spAddr w size j = LaneAddress v w.b.toNat w.a.toNat w.m.toNat size j := by
  unfold View.spAddr LaneAddress
  dsimp only
  split
  · next h => rw [if_pos h]
  · next h => rw [if_neg (by omega), if_pos h]
  · next h1 h2 => rw [if_neg h1, if_neg h2]

def scratchF (w : MS) (store : Bool) (v : View) (s : State) : Out :=
    let size := 2 ^ (w.z.toNat + 1)
    let lanes := v.lanes.map fun j => ({ lane := j, addr := v.spAddr w size j } : LaneAddr)
    let x := (s.pkg.core v.iss.core).ctx
    match x.spCheck v.cast size (!store && w.e = 0) lanes with
    | some t => .trap t
    | none =>
      let a : FeAccess := { store := store, fe := w.e.toNat, size := size, reg := w.v.toNat, lanes := lanes, data := if store then lanes.map fun l => v.dataBytes w.v.toNat size l.lane else ([] : List (List Byte)) }
      if x.commits v.cast a then .done (s.modPkg fun p => p.spCommit v.iss.core v.iss.slot v.iss.leader v.cast a)
      else .block s (.fullEmpty a)

theorem sp_access (s : State) (v : View) (i : Instr) (w : MS) (store : Bool) (he : exec i s = s.word i (scratchF w store)) (h : Issues s v i)
    (body : Prop) (tagged : Prop) (ht : tagged ↔ (!store && decide (w.e = 0)) = false)
    (hb : ∀ lanes : List LaneAddr, lanes = v.lanes.map (fun j => { lane := j, addr := LaneAddress v w.b.toNat w.a.toNat w.m.toNat (2 ^ (w.z.toNat + 1)) j }) →
      (NoLane v fun j : Nat => (LaneAddress v w.b.toNat w.a.toNat w.m.toNat (2 ^ (w.z.toNat + 1)) j).toNat % 2 ^ (w.z.toNat + 1) ≠ 0) →
      (let a : FeAccess := { store := store, fe := w.e.toNat, size := 2 ^ (w.z.toNat + 1), reg := w.v.toNat, lanes := lanes, data := if store then lanes.map fun l => v.dataBytes w.v.toNat (2 ^ (w.z.toNat + 1)) l.lane else ([] : List (List Byte)) }
       scratchF w store v s = if (s.pkg.core v.iss.core).ctx.commits v.cast a then .done (s.modPkg fun p => p.spCommit v.iss.core v.iss.slot v.iss.leader v.cast a)
        else .block s (.fullEmpty a)) → body) :
    SpAccess s v i (2 ^ (w.z.toNat + 1)) tagged (LaneAddress v w.b.toNat w.a.toNat w.m.toNat (2 ^ (w.z.toNat + 1))) body := by
  unfold SpAccess
  extract_lets mis late tag
  have hsz := size_cases w.z
  let size := 2 ^ (w.z.toNat + 1)
  let addr := LaneAddress v w.b.toNat w.a.toNat w.m.toNat size
  let lanes := v.lanes.map fun j => ({ lane := j, addr := addr j } : LaneAddr)
  have hl : (v.lanes.map fun j => ({ lane := j, addr := v.spAddr w (2 ^ (w.z.toNat + 1)) j } : LaneAddr)) = lanes := by
    show _ = List.map _ _
    congr 1; funext j; rw [spAddr_eq]
  let x := (s.pkg.core v.iss.core).ctx
  have hF : ∀ t, x.spCheck v.cast size (!store && decide (w.e = 0)) lanes = some t → scratchF w store v s = .trap t := by
    intro t hq; unfold scratchF; dsimp only; rw [hl]
    have : (s.pkg.core v.iss.core).ctx.spCheck v.cast (2 ^ (w.z.toNat + 1)) (!store && decide (w.e = 0)) lanes = some t := hq
    rw [this]
  have hN : x.spCheck v.cast size (!store && decide (w.e = 0)) lanes = none →
      (let a : FeAccess := { store := store, fe := w.e.toNat, size := 2 ^ (w.z.toNat + 1), reg := w.v.toNat, lanes := lanes, data := if store then lanes.map fun l => v.dataBytes w.v.toNat (2 ^ (w.z.toNat + 1)) l.lane else ([] : List (List Byte)) }
       scratchF w store v s = if (s.pkg.core v.iss.core).ctx.commits v.cast a then .done (s.modPkg fun p => p.spCommit v.iss.core v.iss.slot v.iss.leader v.cast a)
        else .block s (.fullEmpty a)) := by
    intro hq; dsimp only
    unfold scratchF; dsimp only; rw [hl]
    have : (s.pkg.core v.iss.core).ctx.spCheck v.cast (2 ^ (w.z.toNat + 1)) (!store && decide (w.e = 0)) lanes = none := hq
    rw [this]
  have touch : ∀ (j : Nat) (p : Nat → Bool), ¬ mis j → x.touches v.cast (addr j).toNat size p = p (tag j) := by
    intro j p hm
    unfold CoreCtx.touches
    rw [granules_one _ _ (by simpa [mis] using hm) hsz]; simp; rfl
  have n1 : NoLane v mis → laneTrap .misalign (lanes.filter fun l => l.addr.toNat % size ≠ 0) = none := fun q =>
    lane_none v _ addr _ fun j h1 h2 h3 => q j h1 h2 (of_decide_eq_true h3)
  have n2 : NoLane v late → laneTrap .spRange (lanes.filter fun l => v.cast.spsize.toNat < l.addr.toNat + size) = none := fun q =>
    lane_none v _ addr _ fun j h1 h2 h3 => q j h1 h2 (of_decide_eq_true h3)
  have n3 : NoLane v mis → (NoLane v fun j => tag j = 1) → laneTrap .barrierClobber (lanes.filter fun l => x.touches v.cast l.addr.toNat size (· = 1)) = none := fun q0 q =>
    lane_none v _ addr _ fun j h1 h2 => by
      dsimp only; rw [touch j _ (q0 j h1 h2)]; simpa using q j h1 h2
  have n4 : NoLane v mis → (NoLane v fun j => 2 ≤ tag j) → laneTrap .queueState (lanes.filter fun l => x.touches v.cast l.addr.toNat size (2 ≤ ·)) = none := fun q0 q =>
    lane_none v _ addr _ fun j h1 h2 => by
      dsimp only; rw [touch j _ (q0 j h1 h2)]; simpa using q j h1 h2
  refine ⟨?_, ?_, ?_, ?_, ?_⟩
  · intro j hj ha hP hlow
    obtain ⟨m, hm, hm2⟩ := lane_trap v .misalign addr (fun l => l.addr.toNat % size ≠ 0) j hj ha (decide_eq_true hP) (fun k hk1 hk2 hk3 => hlow k hk1 hk2 (of_decide_eq_true hk3))
    refine ⟨m, traps_word he h (hF _ ?_), fun k hk => (hm2 k hk).trans (and_congr_right fun _ => decide_eq_true_iff)⟩
    unfold CoreCtx.spCheck
    have hm' : laneTrap .misalign (lanes.filter fun l => l.addr.toNat % size ≠ 0) = _ := hm
    rw [hm']; rfl
  · intro h1 j hj ha hP hlow
    obtain ⟨m, hm, hm2⟩ := lane_trap v .spRange addr (fun l => v.cast.spsize.toNat < l.addr.toNat + size) j hj ha (decide_eq_true hP) (fun k hk1 hk2 hk3 => hlow k hk1 hk2 (of_decide_eq_true hk3))
    refine ⟨m, traps_word he h (hF _ ?_), fun k hk => (hm2 k hk).trans (and_congr_right fun _ => decide_eq_true_iff)⟩
    unfold CoreCtx.spCheck
    have hm' : laneTrap .spRange (lanes.filter fun l => v.cast.spsize.toNat < l.addr.toNat + size) = _ := hm
    rw [n1 h1, hm']; rfl
  · intro h1 h2 h3 j hj ha hP hlow
    obtain ⟨m, hm, hm2⟩ := lane_trap v .barrierClobber addr (fun l => x.touches v.cast l.addr.toNat size (· = 1)) j hj ha
      (by dsimp only; rw [touch j _ (h1 j hj ha)]; simpa using hP)
      (by intro k hk1 hk2; dsimp only; rw [touch k _ (h1 k (by omega) hk2)]; simpa using hlow k hk1 hk2)
    refine ⟨m, traps_word he h (hF _ ?_), fun k hk => (hm2 k hk).trans ?_⟩
    · unfold CoreCtx.spCheck
      have hm' : laneTrap .barrierClobber (lanes.filter fun l => x.touches v.cast l.addr.toNat size (· = 1)) = _ := hm
      rw [n1 h1, n2 h2, if_neg (by rw [ht.1 h3]; simp), hm']; rfl
    · dsimp only
      constructor
      · rintro ⟨a1, a2⟩; exact ⟨a1, by rw [touch k _ (h1 k hk a1)] at a2; simpa using a2⟩
      · rintro ⟨a1, a2⟩; exact ⟨a1, by rw [touch k _ (h1 k hk a1)]; simpa using a2⟩
  · intro h1 h2 h3 h4 j hj ha hP hlow
    obtain ⟨m, hm, hm2⟩ := lane_trap v .queueState addr (fun l => x.touches v.cast l.addr.toNat size (2 ≤ ·)) j hj ha
      (by dsimp only; rw [touch j _ (h1 j hj ha)]; simpa using hP)
      (by intro k hk1 hk2; dsimp only; rw [touch k _ (h1 k (by omega) hk2)]; simpa using hlow k hk1 hk2)
    refine ⟨m, traps_word he h (hF _ ?_), fun k hk => (hm2 k hk).trans ?_⟩
    · unfold CoreCtx.spCheck
      have hm' : laneTrap .queueState (lanes.filter fun l => x.touches v.cast l.addr.toNat size (2 ≤ ·)) = _ := hm
      rw [n1 h1, n2 h2, if_neg (by rw [ht.1 h3]; simp), n3 h1 h4, hm']; rfl
    · dsimp only
      constructor
      · rintro ⟨a1, a2⟩; exact ⟨a1, by rw [touch k _ (h1 k hk a1)] at a2; simpa using a2⟩
      · rintro ⟨a1, a2⟩; exact ⟨a1, by rw [touch k _ (h1 k hk a1)]; simpa using a2⟩
  · intro h1 h2 h3
    refine hb lanes rfl h1 (hN ?_)
    unfold CoreCtx.spCheck
    rw [n1 h1, n2 h2]
    split
    · rfl
    · next hp =>
      have ht' : tagged := ht.2 (by simpa using hp)
      rw [n3 h1 fun j a b q => h3 ht' j a b (by omega), n4 h1 fun j a b q => h3 ht' j a b (by omega)]; rfl

theorem mem_setInsert (l : List Nat) (a n : Nat) : n ∈ setInsert l a ↔ n = a ∨ n ∈ l := by
  induction l with
  | nil => simp [setInsert]
  | cons x l ih =>
    unfold setInsert
    split
    · simp
    · split
      · next h => subst h; simp
      · simp [ih, or_left_comm]

theorem mem_foldInsert (l acc : List Nat) (n : Nat) : n ∈ l.foldl setInsert acc ↔ n ∈ acc ∨ n ∈ l := by
  induction l generalizing acc with
  | nil => simp
  | cons x l ih => rw [List.foldl_cons, ih, mem_setInsert]; simp [or_assoc, or_comm, or_left_comm]

theorem mem_granules (a : FeAccess) (n : Nat) : n ∈ a.granules ↔ ∃ x ∈ a.lanes, n ∈ granulesOf x.addr.toNat a.size := by
  unfold FeAccess.granules
  suffices h : ∀ (l : List LaneAddr) (acc : List Nat), n ∈ l.foldl (fun l x => (granulesOf x.addr.toNat a.size).foldl setInsert l) acc ↔
      n ∈ acc ∨ ∃ x ∈ l, n ∈ granulesOf x.addr.toNat a.size by simpa using h a.lanes []
  intro l
  induction l with
  | nil => simp
  | cons x l ih => intro acc; rw [List.foldl_cons, ih, mem_foldInsert]; simp [or_assoc]

theorem mem_gran1 (v : View) (addr : Nat → Quad) (size : Nat) (hs : size = 2 ∨ size = 4 ∨ size = 8 ∨ size = 16)
    (hm : NoLane v fun j => (addr j).toNat % size ≠ 0) (a : FeAccess) (ha : a.size = size) (hl : a.lanes = v.lanes.map fun j => { lane := j, addr := addr j }) (n : Nat) :
    n ∈ a.granules ↔ ∃ j, j < 128 ∧ v.active j = true ∧ (addr j).toNat / 16 = n := by
  rw [mem_granules, hl, ha]
  constructor
  · rintro ⟨x, hx, hn⟩
    obtain ⟨j, hj, rfl⟩ := List.mem_map.1 hx
    have hj' := (mem_lanes v j).1 hj
    rw [granules_one _ _ (by simpa using hm j hj'.1 hj'.2) hs] at hn
    exact ⟨j, hj'.1, hj'.2, (List.mem_singleton.1 hn).symm⟩
  · rintro ⟨j, h1, h2, h3⟩
    refine ⟨_, List.mem_map.2 ⟨j, (mem_lanes v j).2 ⟨h1, h2⟩, rfl⟩, ?_⟩
    rw [granules_one _ _ (by simpa using hm j h1 h2) hs]; simpa using h3.symm

theorem setFe_fe (x : CoreCtx) (c : Cast) (g n : Nat) (b : Bool) : n ∈ (x.setFe c g b).fe ↔ if b then n = c.granule g ∨ n ∈ x.fe else n ∈ x.fe ∧ n ≠ c.granule g := by
  unfold CoreCtx.setFe; dsimp only
  cases b
  · simp
  · simp [mem_setInsert]

theorem foldFe (c : Cast) (b : Bool) (gs : List Nat) (x : CoreCtx) (n : Nat) :
    n ∈ (gs.foldl (fun x g => x.setFe c g b) x).fe ↔ if b then (n ∈ x.fe ∨ ∃ g ∈ gs, c.granule g = n) else (n ∈ x.fe ∧ ¬ ∃ g ∈ gs, c.granule g = n) := by
  induction gs generalizing x with
  | nil => cases b <;> simp
  | cons g gs ih =>
    rw [List.foldl_cons, ih]
    cases b
    · simp only [Bool.false_eq_true, if_false, setFe_fe, List.mem_cons, exists_eq_or_imp, not_or]
      constructor
      · rintro ⟨⟨h1, h2⟩, h3⟩; exact ⟨h1, fun q => h2 q.symm, h3⟩
      · rintro ⟨h1, h2, h3⟩; exact ⟨⟨h1, fun q => h2 q.symm⟩, h3⟩
    · simp only [if_true, setFe_fe, List.mem_cons, exists_eq_or_imp]
      constructor
      · rintro ((h | h) | h); exacts [.inr (.inl h.symm), .inl h, .inr (.inr h)]
      · rintro (h | h | h); exacts [.inl (.inr h), .inl (.inl h.symm), .inr h]

theorem foldFe_rest (c : Cast) (b : Bool) (gs : List Nat) (x : CoreCtx) :
    gs.foldl (fun x g => x.setFe c g b) x = { x with fe := (gs.foldl (fun x g => x.setFe c g b) x).fe } := by
  induction gs generalizing x with
  | nil => rfl
  | cons g gs ih =>
    rw [List.foldl_cons, ih]; rfl

theorem setElems_v (es : List (Nat × Nat × Word)) (w : Wave) (r j : Nat) (hr : r < w.vregs.length) (hj : j < 128) :
    (w.setElems es).v r j = ((es.reverse.find? fun e => e.1 = r ∧ e.2.1 = j).map fun e => e.2.2).getD (w.v r j) := by
  induction es generalizing w with
  | nil => rfl
  | cons e es ih =>
    have : w.setElems (e :: es) = Wave.setElems { w with vregs := modAt w.vregs e.1 fun old => (List.range 128).map fun j => if j = e.2.1 then e.2.2 else old.getD j 0 } es := rfl
    rw [this, ih _ (by simpa [modAt_length] using hr), List.reverse_cons, List.find?_append]
    have hv : Wave.v { w with vregs := modAt w.vregs e.1 fun old => (List.range 128).map fun j => if j = e.2.1 then e.2.2 else old.getD j 0 } r j =
        if e.1 = r ∧ e.2.1 = j then e.2.2 else w.v r j := by
      unfold Wave.v
      dsimp only
      by_cases h1 : r = e.1
      · rw [h1, modAt_getD_self _ _ _ _ (by omega)]
        rw [List.getD_eq_getElem _ _ (by simpa using hj)]
        by_cases h2 : j = e.2.1
        · simp [h2]
        · simp [h2, Ne.symm h2]
      · rw [modAt_getD _ _ _ _ _ h1, if_neg (by rintro ⟨h, _⟩; exact h1 h.symm)]
    cases hf : es.reverse.find? fun e => decide (e.1 = r ∧ e.2.1 = j) with
    | some q => simp
    | none =>
      simp only [Option.none_or, hv]
      by_cases h : e.1 = r ∧ e.2.1 = j
      · simp [h]
      · rw [if_neg h, List.find?_cons_of_neg (by simpa using h)]; simp

theorem setElems_rest (es : List (Nat × Nat × Word)) (w : Wave) : w.setElems es = { w with vregs := (w.setElems es).vregs } := by
  induction es generalizing w with
  | nil => rfl
  | cons e es ih =>
    have : w.setElems (e :: es) = Wave.setElems { w with vregs := modAt w.vregs e.1 fun old => (List.range 128).map fun j => if j = e.2.1 then e.2.2 else old.getD j 0 } es := rfl
    rw [this, ih]

/-- Elements that agree. -/
theorem setElems_at (es : List (Nat × Nat × Word)) (w : Wave) (r j : Nat) (hr : r < w.vregs.length) (hj : j < 128) (x : Word) (h1 : (r, j, x) ∈ es)
    (h2 : ∀ e ∈ es, e.1 = r → e.2.1 = j → e.2.2 = x) : (w.setElems es).v r j = x := by
  rw [setElems_v _ _ _ _ hr hj]
  cases hf : es.reverse.find? fun e => decide (e.1 = r ∧ e.2.1 = j) with
  | none => rw [List.find?_eq_none] at hf; exact absurd (hf (r, j, x) (by simpa using h1)) (by simp)
  | some q =>
    have a := List.find?_some hf
    have b := List.mem_of_find?_eq_some hf
    have := of_decide_eq_true a
    simp [h2 q (by simpa using b) this.1 this.2]

theorem setElems_not (es : List (Nat × Nat × Word)) (w : Wave) (r j : Nat) (hr : r < w.vregs.length) (hj : j < 128)
    (h2 : ∀ e ∈ es, ¬ (e.1 = r ∧ e.2.1 = j)) : (w.setElems es).v r j = w.v r j := by
  rw [setElems_v _ _ _ _ hr hj]
  rw [List.find?_eq_none.2]
  · rfl
  · intro e he; simpa using h2 e (by simpa using he)

theorem regs_mem (r j : Nat) (m : Memory) (p size : Nat) (hs : size = 2 ∨ size = 4 ∨ size = 8 ∨ size = 16) (e : Nat × Nat × Word) :
    e ∈ regsOfBytes r j (m.readList p size) ↔ ∃ k, 4 * k < size ∧ e = (r + k, j, BitVec.ofNat 32 (ofLe (m.readList (p + 4 * k) (min 4 size)))) := by
  unfold regsOfBytes
  have hl : (m.readList p size).length = size := by unfold Memory.readList; simp
  rw [List.mem_map, hl]
  have ht : ∀ k, 4 * k < size → ((m.readList p size).drop (4 * k)).take 4 = m.readList (p + 4 * k) (min 4 size) := by
    intro k hk
    unfold Memory.readList
    apply List.ext_getElem
    · simp; omega
    · intro i h1 h2; simp; congr 1; omega
  constructor
  · rintro ⟨k, hk, rfl⟩
    have : 4 * k < size := by have := List.mem_range.1 hk; omega
    exact ⟨k, this, by rw [ht k this]⟩
  · rintro ⟨k, hk, rfl⟩
    exact ⟨k, List.mem_range.2 (by omega), by rw [ht k hk]⟩

theorem poison_due (v : View) (w : Wave) (x : CoreCtx) (a : FeAccess) (addr : Nat → Quad) (hst : a.store = false)
    (hl : a.lanes = v.lanes.map fun j => { lane := j, addr := addr j }) (P : Nat → Prop)
    (hP : ∀ j, j < 128 → v.active j = true → ((granulesOf (addr j).toNat a.size).any (fun g => x.poisoned v.cast g) = true ↔ P j)) :
    PoisonDue v w (w.loaded x v.cast a v.iss.leader) addr P := by
  have hpl : x.poisonedLanes v.cast a = (v.lanes.map fun j => ({ lane := j, addr := addr j } : LaneAddr)).filter fun l => (granulesOf l.addr.toNat a.size).any fun g => x.poisoned v.cast g := by
    unfold CoreCtx.poisonedLanes; rw [hst, hl]; rfl
  have hdue : (w.loaded x v.cast a v.iss.leader).due = w.due ++ ((laneTrap .poison (x.poisonedLanes v.cast a)).map fun t => ({ cause := .poison, addr := t.addr, lanes := t.lanes.getD 0, leader := v.iss.leader } : AsyncTrap)).toList := by
    unfold Wave.loaded
    rw [if_neg (by simp [hst])]
    dsimp only
    split
    · next h => rw [h]; rw [setElems_rest]; simp [laneTrap]
    · next l r h => rw [h]; simp only [laneTrap]; rw [setElems_rest]; simp
  constructor
  · intro h
    rw [hdue, hpl, lane_none v _ addr _ (fun j h1 h2 h3 => h j h1 h2 ((hP j h1 h2).1 h3))]; simp
  · intro j h1 h2 h3 h4
    obtain ⟨m, hm, hm2⟩ := lane_trap v .poison addr (fun l => (granulesOf l.addr.toNat a.size).any fun g => x.poisoned v.cast g) j h1 h2 ((hP j h1 h2).2 h3)
      (fun k hk1 hk2 hk3 => h4 k hk1 hk2 ((hP k (by omega) hk2).1 hk3))
    refine ⟨m, ?_, fun k hk => (hm2 k hk).trans ?_⟩
    · rw [hdue, hpl, hm]; rfl
    · constructor
      · rintro ⟨a1, a2⟩; exact ⟨a1, (hP k hk a1).1 a2⟩
      · rintro ⟨a1, a2⟩; exact ⟨a1, (hP k hk a1).2 a2⟩

theorem acquire_rest (w : Wave) : w.acquireCast = { w with fence := w.acquireCast.fence } := by
  unfold Wave.acquireCast; split <;> [rfl; (split <;> rfl)]

theorem commit_pkg (s : State) (v : View) (a : FeAccess) :
    (s.modPkg fun p => p.spCommit v.iss.core v.iss.slot v.iss.leader v.cast a).pkg =
      (s.pkg.modCtx v.iss.core fun x => x.commit v.cast a).modWave v.iss.core v.iss.slot fun w =>
        if a.store || decide (a.fe = 0) then w.loaded (s.pkg.core v.iss.core).ctx v.cast a v.iss.leader
        else (w.loaded (s.pkg.core v.iss.core).ctx v.cast a v.iss.leader).acquireCast := by
  unfold State.modPkg Package.spCommit Package.modWave Package.modCtx Package.modCore
  simp only [modAt_modAt]
  congr 2
  funext q
  have h : ∀ (x : CoreCtx) (W : List (Option Wave)), ({ x with waves := W } : CoreCtx).commit v.cast a = { x.commit v.cast a with waves := W } := by
    intro x W
    unfold CoreCtx.commit
    dsimp only
    have h2 : ∀ (b : Bool) (gs : List Nat) (y : CoreCtx), gs.foldl (fun x g => x.setFe v.cast g b) { y with waves := W } = { gs.foldl (fun x g => x.setFe v.cast g b) y with waves := W } := by
      intro b gs
      induction gs with
      | nil => intro y; rfl
      | cons g gs ih => intro y; rw [List.foldl_cons, List.foldl_cons, ← ih]; rfl
    rcases Bool.eq_false_or_eq_true a.store with hst | hst <;> rw [hst] <;> simp only [Bool.false_eq_true, if_false, if_true] <;>
      rcases hfa : a.feAfter with _ | b <;> simp only [] <;> first | rfl | exact h2 b a.granules (x.spWrite v.cast _) | exact h2 b a.granules x
  rw [h]
  have h3 : (q.ctx.commit v.cast a).waves = q.ctx.waves := by
    have := h q.ctx q.ctx.waves
    conv_lhs => rw [show q.ctx.commit v.cast a = { q.ctx.commit v.cast a with waves := q.ctx.waves } from this]
  rw [h3]

theorem mem_contains (l : List Nat) (n : Nat) : l.contains n = true ↔ n ∈ l := List.contains_iff_mem

theorem ld_commits (v : View) (x : CoreCtx) (addr : Nat → Quad) (size : Nat) (hs : size = 2 ∨ size = 4 ∨ size = 8 ∨ size = 16)
    (hm : NoLane v fun j => (addr j).toNat % size ≠ 0) (a : FeAccess) (ha : a.size = size) (hl : a.lanes = v.lanes.map fun j => { lane := j, addr := addr j })
    (hst : a.store = false) : x.commits v.cast a = true ↔ (a.fe = 0 ∨ NoLane v fun j => v.cast.granule ((addr j).toNat / 16) ∉ x.fe) := by
  unfold CoreCtx.commits
  rw [hst]; simp only [Bool.false_eq_true, if_false, Bool.or_eq_true, decide_eq_true_eq, List.all_eq_true]
  refine or_congr_right ?_
  constructor
  · intro h j h1 h2 h3
    exact h3 ((mem_contains _ _).1 (h _ ((mem_gran1 v addr size hs hm a ha hl _).2 ⟨j, h1, h2, rfl⟩)))
  · intro h g hg
    obtain ⟨j, h1, h2, rfl⟩ := (mem_gran1 v addr size hs hm a ha hl g).1 hg
    exact (mem_contains _ _).2 (Classical.not_not.1 (h j h1 h2))

theorem st_commits (v : View) (x : CoreCtx) (addr : Nat → Quad) (size : Nat) (hs : size = 2 ∨ size = 4 ∨ size = 8 ∨ size = 16)
    (hm : NoLane v fun j => (addr j).toNat % size ≠ 0) (a : FeAccess) (ha : a.size = size) (hl : a.lanes = v.lanes.map fun j => { lane := j, addr := addr j })
    (hst : a.store = true) : x.commits v.cast a = true ↔ (a.fe ≠ 2 ∨ NoLane v fun j => v.cast.granule ((addr j).toNat / 16) ∈ x.fe) := by
  unfold CoreCtx.commits
  rw [hst]; simp only [if_true, Bool.or_eq_true, decide_eq_true_eq, List.all_eq_true]
  refine or_congr_right ?_
  constructor
  · intro h j h1 h2 h3
    have := h _ ((mem_gran1 v addr size hs hm a ha hl _).2 ⟨j, h1, h2, rfl⟩)
    have h4 := (mem_contains _ _).2 h3
    unfold CoreCtx.full at this
    rw [h4] at this; simp at this
  · intro h g hg
    obtain ⟨j, h1, h2, rfl⟩ := (mem_gran1 v addr size hs hm a ha hl g).1 hg
    have := h j h1 h2
    unfold CoreCtx.full
    have this : ¬ v.cast.granule ((addr j).toNat / 16) ∈ x.fe := this
    rw [← mem_contains] at this; simpa using this

theorem e2 (e : BitVec 2) : (e = 0 ↔ e.toNat = 0) ∧ (e = 2 ↔ e.toNat = 2) ∧ (e = 3 ↔ e.toNat = 3) ∧ e.toNat < 4 := by
  refine ⟨?_, ?_, ?_, e.isLt⟩ <;> rw [← BitVec.toNat_inj] <;> rfl

theorem loaded_v (v : View) (w : Wave) (x : CoreCtx) (a : FeAccess) (addr : Nat → Quad) (size : Nat) (hs : size = 2 ∨ size = 4 ∨ size = 8 ∨ size = 16)
    (hm : NoLane v fun j => (addr j).toNat % size ≠ 0) (ha : a.size = size) (hst : a.store = false)
    (hl : a.lanes = v.lanes.map fun j => { lane := j, addr := addr j }) (r j : Nat) (hr : r < w.vregs.length) (hj : j < 128) :
    (w.loaded x v.cast a v.iss.leader).v r j = if v.active j = true ∧ ¬ v.cast.granule ((addr j).toNat / 16) ∈ x.spPoison ∧ a.reg ≤ r ∧ 4 * (r - a.reg) < size then
        BitVec.ofNat 32 (ofLe (Memory.readList x.sp (v.cast.spPlace (addr j).toNat + 4 * (r - a.reg)) (min 4 size)))
      else w.v r j := by
  let es := (a.lanes.filter fun l => !(x.poisonedLanes v.cast a).contains l).flatMap fun l => regsOfBytes a.reg l.lane (x.spRead v.cast l.addr.toNat a.size)
  have he : (w.loaded x v.cast a v.iss.leader).v r j = (w.setElems es).v r j := by
    unfold Wave.loaded; rw [if_neg (by simp [hst])]; dsimp only; split <;> rfl
  rw [he]
  have hbad : ∀ j, j < 128 → v.active j = true → ((x.poisonedLanes v.cast a).contains ({ lane := j, addr := addr j } : LaneAddr) = true ↔ v.cast.granule ((addr j).toNat / 16) ∈ x.spPoison) := by
    intro j h1 h2
    unfold CoreCtx.poisonedLanes
    rw [hst, hl, ha]
    simp only [Bool.false_eq_true, if_false, List.contains_iff_mem, List.mem_filter]
    rw [granules_one _ _ (by simpa using hm j h1 h2) hs]
    simp only [List.any_cons, List.any_nil, Bool.or_false, CoreCtx.poisoned, mem_contains]
    exact ⟨fun q => q.2, fun q => ⟨List.mem_map.2 ⟨j, (mem_lanes v j).2 ⟨h1, h2⟩, rfl⟩, q⟩⟩
  have hmem : ∀ e, e ∈ es ↔ ∃ j, j < 128 ∧ v.active j = true ∧ ¬ v.cast.granule ((addr j).toNat / 16) ∈ x.spPoison ∧
      ∃ k, 4 * k < size ∧ e = (a.reg + k, j, BitVec.ofNat 32 (ofLe (Memory.readList x.sp (v.cast.spPlace (addr j).toNat + 4 * k) (min 4 size)))) := by
    intro e
    show e ∈ List.flatMap _ _ ↔ _
    rw [List.mem_flatMap]
    constructor
    · rintro ⟨l, h1, h2⟩
      rw [List.mem_filter, hl] at h1
      obtain ⟨h1, h3⟩ := h1
      obtain ⟨j, hj, rfl⟩ := List.mem_map.1 h1
      have hj' := (mem_lanes v j).1 hj
      refine ⟨j, hj'.1, hj'.2, ?_, ?_⟩
      · intro q; rw [(hbad j hj'.1 hj'.2).2 q] at h3; simp at h3
      · rw [ha] at h2; exact (regs_mem _ _ _ _ _ hs e).1 h2
    · rintro ⟨j, h1, h2, h3, h4⟩
      refine ⟨{ lane := j, addr := addr j }, List.mem_filter.2 ⟨by rw [hl]; exact List.mem_map.2 ⟨j, (mem_lanes v j).2 ⟨h1, h2⟩, rfl⟩, ?_⟩, ?_⟩
      · rw [Bool.not_eq_true', Bool.eq_false_iff]; intro q; exact h3 ((hbad j h1 h2).1 q)
      · rw [ha]; exact (regs_mem _ _ _ _ _ hs e).2 h4
  split
  · next h =>
    obtain ⟨h1, h2, h3, h4⟩ := h
    refine setElems_at es w r j hr hj _ ((hmem _).2 ⟨j, hj, h1, h2, r - a.reg, h4, by rw [show a.reg + (r - a.reg) = r from by omega]⟩) ?_
    intro e he' e1 e2
    obtain ⟨j', _, _, _, k, _, rfl⟩ := (hmem e).1 he'
    dsimp only at e1 e2 ⊢
    subst e2
    rw [show r - a.reg = k from by omega]
  · next h =>
    refine setElems_not es w r j hr hj ?_
    rintro e he' ⟨e1, e2⟩
    obtain ⟨j', h1, h2, h3, k, h4, rfl⟩ := (hmem e).1 he'
    dsimp only at e1 e2
    subst e2
    exact h ⟨h2, h3, by omega, by rw [show r - a.reg = k from by omega]; exact h4⟩

theorem keyed_mem (a : Nat) (l : List Byte) (b : Nat × Byte) : b ∈ keyed a l ↔ ∃ i, i < l.length ∧ b = (a + i, l.getD i 0) := by
  unfold keyed
  rw [List.mem_map]
  constructor
  · rintro ⟨x, hx, rfl⟩
    obtain ⟨y, i⟩ := x
    rw [List.mem_zipIdx_iff_getElem?] at hx
    obtain ⟨hi, he⟩ := List.getElem?_eq_some_iff.1 hx
    exact ⟨i, hi, by rw [List.getD_eq_getElem _ _ hi, he]⟩
  · rintro ⟨i, hi, rfl⟩
    exact ⟨(l[i], i), List.mem_zipIdx_iff_getElem?.2 (List.getElem?_eq_getElem hi), by rw [List.getD_eq_getElem _ _ hi]⟩

/-- The last of the pairs of ascending lanes that names a place is the highest covering lane's. -/
theorem last_pair (act : Nat → Bool) (place : Nat → Nat) (data : Nat → List Byte) (size : Nat) (hd : ∀ j, (data j).length = size) (n j : Nat)
    (ha : act j = true) (h1 : place j ≤ n) (h2 : n < place j + size) (N : Nat) (hN : j < N)
    (hi : ∀ k, j < k → k < N → ¬ (act k = true ∧ place k ≤ n ∧ n < place k + size)) :
    ((((List.range N).filter act).flatMap fun j => keyed (place j) (data j)).reverse.find? fun p => p.1 = n).map Prod.snd = some ((data j).getD (n - place j) 0) := by
  induction N with
  | zero => omega
  | succ N ih =>
    rw [List.range_succ, List.filter_append, List.flatMap_append, List.reverse_append, List.find?_append]
    by_cases hj : j = N
    · subst hj
      have hf : (List.filter act [j]) = [j] := by simp [ha]
      rw [hf]
      simp only [List.flatMap_cons, List.flatMap_nil, List.append_nil]
      cases hq : ((keyed (place j) (data j)).reverse.find? fun p => decide (p.1 = n)) with
      | none =>
        rw [List.find?_eq_none] at hq
        exact absurd (hq (n, (data j).getD (n - place j) 0) (by rw [List.mem_reverse, keyed_mem]; exact ⟨n - place j, by rw [hd]; omega, by rw [show place j + (n - place j) = n from by omega]⟩)) (by simp)
      | some q =>
        have e1 : q.1 = n := by simpa using List.find?_some hq
        have e2 := List.mem_of_find?_eq_some hq
        rw [List.mem_reverse, keyed_mem] at e2
        obtain ⟨i, _, rfl⟩ := e2
        dsimp only at e1
        simp only [Option.some_or, Option.map_some]
        rw [show n - place j = i from by omega]
    · have hno : ((List.flatMap (fun j => keyed (place j) (data j)) (List.filter act [N])).reverse.find? fun p => decide (p.1 = n)) = none := by
        rw [List.find?_eq_none]
        intro q hq
        rw [List.mem_reverse, List.mem_flatMap] at hq
        obtain ⟨k, hk, hq⟩ := hq
        rw [List.mem_filter] at hk
        have : k = N := by simpa using hk.1
        subst this
        rw [keyed_mem] at hq
        obtain ⟨i, hi2, rfl⟩ := hq
        rw [hd] at hi2
        intro q
        have q := of_decide_eq_true q
        dsimp only at q
        exact hi k (by omega) (by omega) ⟨hk.2, by omega, by omega⟩
      rw [hno, Option.none_or]
      exact ih (by omega) fun k hk1 hk2 => hi k hk1 (by omega)

theorem dataBytes_length (v : View) (r size j : Nat) : (v.dataBytes r size j).length = size := by
  unfold View.dataBytes View.bytes leBytes
  split
  · simp
  · split
    · next h => simp [h]
    · simp

theorem zip_self {α β : Type} (l : List α) (g : α → β) : l.zip (l.map g) = l.map fun x => (x, g x) := by
  induction l with
  | nil => rfl
  | cons x l ih => simp [ih]

theorem stores_eq (v : View) (addr : Nat → Quad) (g : Nat → List Byte) (c : Cast) :
    ((((v.lanes.map fun j => ({ lane := j, addr := addr j } : LaneAddr)).zip ((v.lanes.map fun j => ({ lane := j, addr := addr j } : LaneAddr)).map fun l => g l.lane)).flatMap
      fun l => keyed l.1.addr.toNat l.2).map fun b => (c.spPlace b.1, b.2)) = ((List.range 128).filter v.active).flatMap fun j => keyed (c.spPlace (addr j).toNat) (g j) := by
  rw [zip_self, List.map_map, List.flatMap_map, List.map_flatMap]
  show List.flatMap _ v.lanes = List.flatMap _ v.lanes
  congr 1
  funext j
  unfold keyed
  simp only [Function.comp, List.map_map]
  congr 1
  funext b
  simp [Cast.spPlace, Nat.add_assoc]

theorem mem_stores (v : View) (addr : Nat → Quad) (g : Nat → List Byte) (size : Nat) (hg : ∀ j, (g j).length = size) (b : Nat) :
    (∃ p ∈ ((v.lanes.map fun j => ({ lane := j, addr := addr j } : LaneAddr)).zip ((v.lanes.map fun j => ({ lane := j, addr := addr j } : LaneAddr)).map fun l => g l.lane)).flatMap
      (fun l => keyed l.1.addr.toNat l.2), p.1 = b) ↔ ∃ j, j < 128 ∧ v.active j = true ∧ (addr j).toNat ≤ b ∧ b < (addr j).toNat + size := by
  rw [zip_self, List.map_map, List.flatMap_map]
  constructor
  · rintro ⟨p, hp, rfl⟩
    rw [List.mem_flatMap] at hp
    obtain ⟨j, hj, hp⟩ := hp
    simp only [Function.comp, keyed_mem, hg] at hp
    obtain ⟨i, hi, rfl⟩ := hp
    have := (mem_lanes v j).1 hj
    exact ⟨j, this.1, this.2, by simp, by simpa using hi⟩
  · rintro ⟨j, h1, h2, h3, h4⟩
    refine ⟨(b, (g j).getD (b - (addr j).toNat) 0), ?_, rfl⟩
    rw [List.mem_flatMap]
    refine ⟨j, (mem_lanes v j).2 ⟨h1, h2⟩, ?_⟩
    simp only [Function.comp, keyed_mem, hg]
    exact ⟨b - (addr j).toNat, by omega, by rw [show (addr j).toNat + (b - (addr j).toNat) = b from by omega]⟩

theorem spWrite_poison (x : CoreCtx) (c : Cast) (bytes : List (Nat × Byte)) (n : Nat) :
    n ∈ (x.spWrite c bytes).spPoison ↔ n ∈ x.spPoison ∧ ¬ ∃ g, c.granule g = n ∧ ∀ i, i < 16 → ∃ p ∈ bytes, p.1 = 16 * g + i := by
  unfold CoreCtx.spWrite
  dsimp only
  rw [List.mem_filter]
  refine and_congr_right fun _ => ?_
  rw [Bool.not_eq_true', Bool.eq_false_iff, ne_eq, mem_contains, List.mem_map]
  refine not_congr ?_
  constructor
  · rintro ⟨g, hg, rfl⟩
    rw [List.mem_filter, List.all_eq_true] at hg
    refine ⟨g, rfl, fun i hi => ?_⟩
    obtain ⟨p, hp, h⟩ := List.any_eq_true.1 (hg.2 i (List.mem_range.2 hi))
    exact ⟨p, hp, of_decide_eq_true h⟩
  · rintro ⟨g, rfl, h⟩
    refine ⟨g, List.mem_filter.2 ⟨?_, ?_⟩, rfl⟩
    · obtain ⟨p, hp, hp2⟩ := h 0 (by omega)
      have : ∀ (l : List (Nat × Byte)) (acc : List Nat), (g ∈ acc ∨ ∃ p ∈ l, p.1 / 16 = g) → g ∈ l.foldl (fun l b => setInsert l (b.1 / 16)) acc := by
        intro l
        induction l with
        | nil => rintro acc (h | ⟨p, h, _⟩) <;> [exact h; simp at h]
        | cons q l ih =>
          rintro acc h
          rw [List.foldl_cons]
          refine ih _ ?_
          rcases h with h | ⟨p, h, e⟩
          · left; rw [mem_setInsert]; right; exact h
          · rcases List.mem_cons.1 h with rfl | h
            · left; rw [mem_setInsert]; left; exact e.symm
            · right; exact ⟨p, h, e⟩
      exact this bytes [] (.inr ⟨p, hp, by omega⟩)
    · rw [List.all_eq_true]
      intro i hi
      obtain ⟨p, hp, e⟩ := h i (List.mem_range.1 hi)
      exact List.any_eq_true.2 ⟨p, hp, decide_eq_true e⟩

theorem goesOn_endWait (w : Wave) (leader : Nat) (b : Blocked) (h : w.blockedAt leader = some b) : GoesOn w (w.endWait leader) leader b := by
  unfold GoesOn Wave.endWait Wave.unblock
  rw [h]
  dsimp only
  have key : ∀ (l : List (Nat × Quad)) (u : Wave), SlicesBecome u (l.foldl (fun w p => w.modSlice p.1 fun s => { s with pc := p.2 }) u)
      fun k x y => y = { x with pc := ((l.reverse.find? fun p => p.1 = k).map Prod.snd).getD x.pc } := by
    intro l
    induction l with
    | nil => intro u; exact SlicesBecome.refl u
    | cons p l ih =>
      intro u
      rw [List.foldl_cons]
      refine SlicesBecome.trans (slices_modSlice u p.1 _) (ih _) ?_
      intro k x y z h1 h2
      rw [List.reverse_cons, List.find?_append]
      rw [h2, h1]
      cases hq : (l.reverse.find? fun q => decide (q.1 = k)) with
      | some q => split <;> simp
      | none =>
        by_cases hk : k = p.1
        · simp [hk]
        · simp [hk, Ne.symm hk]
  have h1 := key (b.slices.zip b.resume) w
  have h2 := slices_modSlice ((b.slices.zip b.resume).foldl (fun w p => w.modSlice p.1 fun s => { s with pc := p.2 }) w) leader fun s => { s with blocked := none, late := b.late.or s.late }
  obtain ⟨a1, a2, a3⟩ := SlicesBecome.trans h1 h2 (T := fun k x y => y = { x with pc := (((b.slices.zip b.resume).reverse.find? fun p => p.1 = k).map Prod.snd).getD x.pc, blocked := if k = leader then none else x.blocked, late := if k = leader then b.late.or x.late else x.late })
    (by intro k x y z e1 e2; rw [e2, e1]; split <;> rfl)
  refine ⟨?_, a2, a3⟩
  rw [a1]

end Sys2Proof
end

