-- ==== Sys2Proof/Laws/Requests.lean ====
section
/-! SUPPORT. The issue of requests: what sending one changes, the checks of a memory word, and which lanes its requests cover. -/

namespace Sys2Proof

open Machine

structure Like (core slot : Nat) (b p : Package) (w : Wave) : Prop where
  package : p = { b with cores := p.cores, companies := p.companies, stage := p.stage, due := p.due }
  ncomp : p.companies.length = b.companies.length
  cores : ∀ c, c ≠ core → p.core c = b.core c
  here : p.core core = { b.core core with
    l1 := (p.core core).l1, tlb := (p.core core).tlb, replies := (p.core core).replies, ctx := { (b.core core).ctx with waves := modAt (b.core core).ctx.waves slot (·.map fun _ => w) } }
  wave : p.wave? core slot = some w
  companies : ∀ m, p.company m = { b.company m with
    inq := (p.company m).inq, stalled := (p.company m).stalled, stageWait := (p.company m).stageWait, tlb := (p.company m).tlb }
  stages : ∀ n, p.stageAt n = { b.stageAt n with heldReqs := (p.stageAt n).heldReqs }

theorem Like.lt {core slot : Nat} {b p : Package} {w : Wave} (h : Like core slot b p w) : core < p.cores.length := core_lt_of_wave? h.wave

theorem modWaves_id (l : List (Option Wave)) (n : Nat) (w : Wave) (h : l[n]? = some (some w)) : modAt l n (·.map fun _ => w) = l := by
  apply List.ext_getElem?
  intro k
  rw [modAt_get?]
  split
  · next hk => subst hk; rw [h]; rfl
  · rfl

theorem wave?_some {p : Package} {c k : Nat} {w : Wave} (h : p.wave? c k = some w) : (p.core c).ctx.waves[k]? = some (some w) := by
  have hl := core_lt_of_wave? h
  unfold Package.wave? at h
  unfold Package.core
  rw [List.getD_eq_getElem _ _ hl]
  rw [List.getElem?_eq_getElem hl] at h
  simp only [Option.bind_some] at h
  cases hx : (p.cores[c]).ctx.waves[k]? with
  | none => rw [hx] at h; simp at h
  | some y => rw [hx] at h; simp only [Option.join_some] at h; rw [h]

theorem wave?_core {p : Package} {c k : Nat} (hl : c < p.cores.length) : p.wave? c k = ((p.core c).ctx.waves[k]?).join := by
  unfold Package.wave? Package.core
  rw [List.getD_eq_getElem _ _ hl, List.getElem?_eq_getElem hl]; rfl

theorem Like.refl {core slot : Nat} {b : Package} {w : Wave} (h : b.wave? core slot = some w) : Like core slot b b w :=
  ⟨rfl, rfl, fun _ _ => rfl, by rw [modWaves_id _ _ _ (wave?_some h)], h, fun _ => rfl, fun _ => rfl⟩

theorem Like.modCore {core slot : Nat} {b p : Package} {w : Wave} (h : Like core slot b p w) (f : Core → Core)
    (hf : ∀ c, f c = { c with l1 := (f c).l1, tlb := (f c).tlb, replies := (f c).replies }) : Like core slot b (p.modCore core f) w := by
  have hc : (p.modCore core f).core core = f (p.core core) := core_modCore_self _ _ _ h.lt
  refine ⟨?_, h.ncomp, fun c hc => (core_modCore_ne _ _ _ _ hc).trans (h.cores c hc), ?_, ?_, fun m => h.companies m, fun n => h.stages n⟩
  · conv_lhs => unfold Package.modCore; rw [h.package]
    rfl
  · rw [hc, hf, h.here]
  · rw [wave?_core (by rw [cores_modCore]; exact h.lt), hc, hf]
    rw [← wave?_core h.lt]; exact h.wave

theorem Like.modWave {core slot : Nat} {b p : Package} {w : Wave} (h : Like core slot b p w) (f : Wave → Wave) :
    Like core slot b (p.modWave core slot f) (f w) := by
  have hc : (p.modWave core slot f).core core = { p.core core with ctx := { (p.core core).ctx with waves := modAt (p.core core).ctx.waves slot (·.map f) } } :=
    core_modWave_self _ _ _ _ h.lt
  refine ⟨?_, h.ncomp, fun c hc => (core_modWave_ne _ _ _ _ _ hc).trans (h.cores c hc), ?_, ?_, fun m => h.companies m, fun n => h.stages n⟩
  · conv_lhs => unfold Package.modWave Package.modCtx Package.modCore; rw [h.package]
    rfl
  · rw [hc, h.here]
    dsimp only
    rw [modAt_modAt]
    congr 2
    congr 1
    funext x
    cases x <;> rfl
  · rw [wave?_modWave, if_pos ⟨rfl, rfl⟩, h.wave]; rfl

theorem Like.later {core slot : Nat} {b p : Package} {w : Wave} (h : Like core slot b p w) (t : DueAt) (e : Instr) : Like core slot b (p.later t e) w := by
  refine ⟨?_, h.ncomp, h.cores, h.here, h.wave, h.companies, h.stages⟩
  conv_lhs => unfold Package.later; rw [h.package]
  rfl

theorem company_modCompany (p : Package) (m n : Nat) (f : Company → Company) (h : f {} = {} ∨ m < p.companies.length) : (p.modCompany m f).company n = if n = m then f (p.company m) else p.company n := by
  split
  · next hn =>
    subst hn
    by_cases hl : n < p.companies.length
    · exact company_modCompany_self _ _ _ hl
    · have : f {} = {} := h.resolve_right hl
      have e1 : (p.modCompany n f).company n = {} := by
        unfold Package.company Package.modCompany; rw [List.getD_eq_getElem?_getD, modAt_get?, if_pos rfl, List.getElem?_eq_none (by omega)]; rfl
      have e2 : p.company n = {} := by unfold Package.company; rw [List.getD_eq_getElem?_getD, List.getElem?_eq_none (by omega)]; rfl
      rw [e1, e2, this]
  · next hn => exact company_modCompany_ne _ _ _ _ hn

theorem Like.modCompany {core slot : Nat} {b p : Package} {w : Wave} (h : Like core slot b p w) (m : Nat) (f : Company → Company)
    (hf : ∀ c, f c = { c with inq := (f c).inq, stalled := (f c).stalled, stageWait := (f c).stageWait, tlb := (f c).tlb }) : Like core slot b (p.modCompany m f) w := by
  refine ⟨?_, (modAt_length _ _ _).trans h.ncomp, h.cores, h.here, h.wave, ?_, h.stages⟩
  · conv_lhs => unfold Package.modCompany; rw [h.package]
    rfl
  · intro n
    by_cases hl : m < p.companies.length
    · rw [company_modCompany _ _ _ _ (.inr hl)]
      split
      · next hn => subst hn; rw [hf, h.companies n]
      · exact h.companies n
    · have : (p.modCompany m f).company n = p.company n := by
        unfold Package.company Package.modCompany
        rw [List.getD_eq_getElem?_getD, List.getD_eq_getElem?_getD, modAt_get?]
        split
        · next hn => subst hn; rw [List.getElem?_eq_none (by omega)]; rfl
        · rfl
      rw [this]; exact h.companies n

theorem stageAt_modStage (p : Package) (i n : Nat) (f : Stage → Stage) : (p.modStage i f).stageAt n = if n = i ∧ n < p.stage.length then f (p.stageAt n) else p.stageAt n := by
  unfold Package.stageAt Package.modStage
  rw [List.getD_eq_getElem?_getD, List.getD_eq_getElem?_getD, modAt_get?]
  by_cases hn : n = i
  · subst hn
    by_cases hl : n < p.stage.length
    · rw [if_pos rfl, if_pos ⟨rfl, hl⟩, List.getElem?_eq_getElem hl]; rfl
    · rw [if_pos rfl, if_neg (by omega), List.getElem?_eq_none (by omega)]; rfl
  · rw [if_neg hn, if_neg (by omega)]

theorem Like.modStage {core slot : Nat} {b p : Package} {w : Wave} (h : Like core slot b p w) (i : Nat) (f : Stage → Stage)
    (hf : ∀ c, f c = { c with heldReqs := (f c).heldReqs }) : Like core slot b (p.modStage i f) w := by
  refine ⟨?_, h.ncomp, h.cores, h.here, h.wave, h.companies, ?_⟩
  · conv_lhs => unfold Package.modStage; rw [h.package]
    rfl
  · intro n
    rw [stageAt_modStage]
    split
    · rw [hf, h.stages n]
    · exact h.stages n

theorem Like.cancel {core slot : Nat} {b p : Package} {w : Wave} (h : Like core slot b p w) (t : Nat → Bool) : Like core slot b (p.cancelFills core t) w := by
  unfold Package.cancelFills
  extract_lets f g hm
  have h1 : Like core slot b (p.modCore core fun c => { c with replies := c.replies.map g }) w := h.modCore _ fun _ => rfl
  obtain ⟨a1, a2, a3, a4, a5, a6, a7⟩ := h1
  have e : ({ p with companies := p.companies.map hm, stage := p.stage.map (fun s : Stage => { s with heldReqs := s.heldReqs.map f }), cores := modAt p.cores core fun c => { c with replies := c.replies.map g } } : Package)
    = { (p.modCore core fun c => { c with replies := c.replies.map g }) with companies := p.companies.map hm, stage := p.stage.map (fun s : Stage => { s with heldReqs := s.heldReqs.map f }) } := rfl
  rw [e]
  refine ⟨?_, ?_, a3, a4, a5, ?_, ?_⟩
  · conv_lhs => rw [a1]
  · simp only [List.length_map]; exact h.ncomp
  · intro m
    have : Package.company { (p.modCore core fun c => { c with replies := c.replies.map g }) with companies := p.companies.map hm, stage := p.stage.map (fun s : Stage => { s with heldReqs := s.heldReqs.map f }) } m = hm (p.company m) := by
      unfold Package.company
      show (p.companies.map hm).getD m {} = _
      rw [List.getD_eq_getElem?_getD, List.getD_eq_getElem?_getD, List.getElem?_map]
      cases p.companies[m]? <;> rfl
    rw [this, h.companies m]
  · intro n
    have : Package.stageAt { (p.modCore core fun c => { c with replies := c.replies.map g }) with companies := p.companies.map hm, stage := p.stage.map (fun s : Stage => { s with heldReqs := s.heldReqs.map f }) } n = (fun s : Stage => { s with heldReqs := s.heldReqs.map f }) (p.stageAt n) := by
      unfold Package.stageAt
      show (p.stage.map (fun s : Stage => { s with heldReqs := s.heldReqs.map f })).getD n ({} : Stage) = _
      rw [List.getD_eq_getElem?_getD, List.getD_eq_getElem?_getD, List.getElem?_map]
      cases p.stage[n]? <;> rfl
    rw [this, h.stages n]

theorem Like.note {core slot : Nat} {b p : Package} {w : Wave} (h : Like core slot b p w) (part : Nat) (va : Quad) : Like core slot b (p.noteXlate core part va) w := by
  unfold Package.noteXlate
  split
  · exact h
  · dsimp only
    split
    · exact h.modCore _ fun _ => rfl
    · split
      · exact (h.modCompany _ _ fun _ => rfl).modCore _ fun _ => rfl
      · exact h

theorem Like.home {core slot : Nat} {b p : Package} {w : Wave} (h : Like core slot b p w) (line : Nat) : p.homeOf line = b.homeOf line := by
  unfold Package.homeOf; dsimp only; rw [h.stages]

theorem Like.cast? {core slot : Nat} {b p : Package} {w : Wave} (h : Like core slot b p w) (hb : core < b.cores.length) (k : Nat) : p.cast? core k = b.cast? core k := by
  have : ∀ q : Package, core < q.cores.length → q.cast? core k = ((q.core core).ctx.casts[k]?).join := by
    intro q hq; unfold Package.cast? Package.core; rw [List.getD_eq_getElem _ _ hq, List.getElem?_eq_getElem hq]; rfl
  rw [this p h.lt, this b hb, h.here]

theorem Like.key {core slot : Nat} {b p : Package} {w w0 : Wave} (h : Like core slot b p w) (hb : b.wave? core slot = some w0) (h1 : w.waveId = w0.waveId) (h2 : w.cast = w0.cast) :
    p.keyOf core slot = b.keyOf core slot := by
  unfold Package.keyOf
  rw [h.wave, hb]
  simp only [Option.bind_some, Option.map_some, Option.getD_some, h1, h2, h.cast? (core_lt_of_wave? hb)]

theorem find_putSet (c : CacheSet) (l : List CacheSet) (i : Nat) : (putSet c l).find? (fun x => x.index = i) = if i = c.index then some c else l.find? fun x => x.index = i := by
  induction l with
  | nil => by_cases h : i = c.index <;> simp [putSet, h, Ne.symm]
  | cons x l ih =>
    unfold putSet
    split
    · by_cases h : i = c.index
      · simp [h]
      · rw [if_neg h, List.find?_cons_of_neg]; simpa using Ne.symm h
    · split
      · next hx =>
        by_cases h : i = c.index
        · simp [h]
        · rw [if_neg h, List.find?_cons_of_neg (by simpa using Ne.symm h), List.find?_cons_of_neg (by simp; omega)]
      · next h1 h2 =>
        by_cases hx : x.index = i
        · rw [List.find?_cons_of_pos (by simpa using hx), if_neg (by omega), List.find?_cons_of_pos (by simpa using hx)]
        · rw [List.find?_cons_of_neg (by simpa using hx), ih, List.find?_cons_of_neg (by simpa using hx)]

theorem getSet_putSet (c : CacheSet) (l : List CacheSet) (n i : Nat) : getSet (putSet c l) n i = if i = c.index then c else getSet l n i := by
  unfold getSet; rw [find_putSet]; split <;> rfl

theorem getSet_index (l : List CacheSet) (n i : Nat) : (getSet l n i).index = i := by
  unfold getSet
  cases h : l.find? fun c => decide (c.index = i) with
  | none => rfl
  | some c => exact by simpa using List.find?_some h

theorem l1Find_touch (c : Core) (a line : Nat) : (c.l1Touch a).l1Find line = c.l1Find line := by
  unfold Core.l1Touch
  dsimp only
  split
  · next k hk =>
    unfold Core.l1Find
    dsimp only
    rw [getSet_putSet]
    have hi : ((getSet c.l1 8 (a % 128)).touch 0 8 k).index = a % 128 := by unfold CacheSet.touch; exact getSet_index _ _ _
    rw [hi]
    split
    · next h => rw [h]; rfl
    · rfl
  · rfl

theorem requests_congr {p q : Package} (h1 : p.companies = q.companies) (h2 : p.stage = q.stage) : Requests p = Requests q := by unfold Requests; rw [h1, h2]

theorem requests_cancel (p : Package) (c : Nat) (t : Nat → Bool) (r : Req) (h : r ∈ Requests p) :
    r ∈ Requests (p.cancelFills c t) ∨ { r with body := r.body.noFill } ∈ Requests (p.cancelFills c t) := by
  have key : ∀ (l : List Req) (f : Req → Req), (f r = r ∨ f r = { r with body := r.body.noFill }) → r ∈ l → r ∈ l.map f ∨ { r with body := r.body.noFill } ∈ l.map f := by
    intro l f hf hr
    rcases hf with hf | hf
    · left; rw [← hf]; exact List.mem_map_of_mem hr
    · right; rw [← hf]; exact List.mem_map_of_mem hr
  let f := fun r : Req => if r.key.core = c && t r.line then { r with body := r.body.noFill } else r
  have hf : f r = r ∨ f r = { r with body := r.body.noFill } := by show (if _ then _ else _) = _ ∨ (if _ then _ else _) = _; split <;> simp
  unfold Requests at h ⊢
  rw [List.mem_append, List.mem_flatMap, List.mem_flatMap] at h
  simp only [List.mem_append, List.mem_flatMap]
  rcases h with ⟨m, hm, hr⟩ | ⟨m, hm, hr⟩
  · have := key m.inq f hf hr
    rcases this with h | h
    · left; left; exact ⟨_, List.mem_map_of_mem hm, h⟩
    · right; left; exact ⟨_, List.mem_map_of_mem hm, h⟩
  · have := key m.heldReqs f hf hr
    rcases this with h | h
    · left; right; exact ⟨_, List.mem_map_of_mem hm, h⟩
    · right; right; exact ⟨_, List.mem_map_of_mem hm, h⟩

theorem flat_modAt {α : Type} (l : List α) (i : Nat) (f : α → α) (g : α → List Req) (hf : ∀ x y, y ∈ g x → y ∈ g (f x)) (r : Req) (h : r ∈ l.flatMap g) :
    r ∈ (modAt l i f).flatMap g := by
  rw [List.mem_flatMap] at h ⊢
  obtain ⟨x, hx, hr⟩ := h
  obtain ⟨n, hn, rfl⟩ := List.getElem_of_mem hx
  by_cases hi : n = i
  · refine ⟨f l[n], ?_, hf _ _ hr⟩
    apply List.mem_of_getElem? (i := n)
    rw [modAt_get?, if_pos hi, List.getElem?_eq_getElem hn]; rfl
  · refine ⟨l[n], ?_, hr⟩
    apply List.mem_of_getElem? (i := n)
    rw [modAt_get?, if_neg hi, List.getElem?_eq_getElem hn]

theorem flat_modAt_self {α : Type} (l : List α) (i : Nat) (f : α → α) (g : α → List Req) (r : Req) (hi : i < l.length) (h : ∀ x, r ∈ g (f x)) :
    r ∈ (modAt l i f).flatMap g := by
  rw [List.mem_flatMap]
  refine ⟨f l[i], ?_, h _⟩
  apply List.mem_of_getElem? (i := i)
  rw [modAt_get?, if_pos rfl, List.getElem?_eq_getElem hi]; rfl

theorem requests_send (k : Clock) (p : Package) (late : Nat) (r : Req) (hl : p.homeOf r.line < p.companies.length) :
    (∃ t, { r with arrives := t, sent := k.mcyc } ∈ Requests (p.sendReq k late r)) ∧ ∀ x, x ∈ Requests p → x ∈ Requests (p.sendReq k late r) := by
  unfold Package.sendReq
  dsimp only
  split
  · next h =>
    have hs : p.homeOf r.line / 8 < p.stage.length := by
      rcases Nat.lt_or_ge (p.homeOf r.line / 8) p.stage.length with q | q
      · exact q
      · unfold Package.stageAt at h; rw [List.getD_eq_getElem?_getD, List.getElem?_eq_none (by omega)] at h; simp at h
    constructor
    · refine ⟨r.arrives, ?_⟩
      unfold Requests; rw [List.mem_append]; right
      exact flat_modAt_self _ _ _ _ _ hs fun x => by simp
    · intro x hx
      unfold Requests at hx ⊢
      rw [List.mem_append] at hx ⊢
      rcases hx with hx | hx
      · exact .inl hx
      · right; refine flat_modAt p.stage _ _ Stage.heldReqs ?_ _ hx
        intro x y h; exact List.mem_append_left _ h
  · constructor
    · let t := k.meshFrom + late + p.oneWay r.key.core (p.homeOf r.line) r.line
      let t := ((p.company (p.homeOf r.line)).inq.filter fun x => x.key.core = r.key.core && x.line = r.line).foldl (fun t x => max t x.arrives) t
      refine ⟨t + p.slotWait r.part t, ?_⟩
      unfold Requests; rw [List.mem_append]; left
      exact flat_modAt_self _ _ _ _ _ hl fun x => List.mem_append_right _ (List.mem_singleton.2 rfl)
    · intro x hx
      unfold Requests at hx ⊢
      rw [List.mem_append] at hx ⊢
      rcases hx with hx | hx
      · left; refine flat_modAt p.companies _ _ Company.inq ?_ _ hx
        intro x y h; exact List.mem_append_left _ h
      · exact .inr hx

theorem requests_note (p : Package) (c part : Nat) (va : Quad) (x : Req) (h : x ∈ Requests p) : x ∈ Requests (p.noteXlate c part va) := by
  unfold Package.noteXlate
  split
  · exact h
  · dsimp only
    split
    · exact h
    · split
      · unfold Requests at h ⊢
        rw [List.mem_append] at h ⊢
        rcases h with h | h
        · left; refine flat_modAt p.companies _ _ Company.inq ?_ _ h
          intro x y h; exact h
        · exact .inr h
      · exact h

/-- A request of the word is on its way. -/
def HasReq (p : Package) (key : WaveKey) (leader part id line : Nat) (st : Option LaunchKey) (b : ReqBody) : Prop :=
  ∃ r, r ∈ Requests p ∧ r.key = key ∧ r.leader = leader ∧ r.part = part ∧ r.id = id ∧ r.line = line ∧ r.staged = st ∧ (r.body = b ∨ r.body = b.noFill)

theorem noFill2 (b : ReqBody) : b.noFill.noFill = b.noFill := by cases b <;> rfl

theorem HasReq.cancel {p : Package} {key : WaveKey} {leader part id line : Nat} {st : Option LaunchKey} {b : ReqBody} (h : HasReq p key leader part id line st b) (c : Nat) (t : Nat → Bool) :
    HasReq (p.cancelFills c t) key leader part id line st b := by
  obtain ⟨r, hr, h1, h2, h3, h4, h5, h6, h7⟩ := h
  rcases requests_cancel p c t r hr with q | q
  · exact ⟨r, q, h1, h2, h3, h4, h5, h6, h7⟩
  · refine ⟨_, q, h1, h2, h3, h4, h5, h6, .inr ?_⟩
    rcases h7 with h7 | h7 <;> simp only [h7, noFill2]

theorem HasReq.mono {p q : Package} {key : WaveKey} {leader part id line : Nat} {st : Option LaunchKey} {b : ReqBody} (h : HasReq p key leader part id line st b)
    (hm : ∀ x, x ∈ Requests p → x ∈ Requests q) : HasReq q key leader part id line st b := by
  obtain ⟨r, hr, h'⟩ := h; exact ⟨r, hm r hr, h'⟩

theorem HasReq.congr {p q : Package} {key : WaveKey} {leader part id line : Nat} {st : Option LaunchKey} {b : ReqBody} (h : HasReq p key leader part id line st b)
    (h1 : q.companies = p.companies) (h2 : q.stage = p.stage) : HasReq q key leader part id line st b :=
  h.mono fun x hx => by rw [requests_congr h1 h2]; exact hx

def Plain (c : Bool) (r : Bool) (x : ReqBody) : Prop := x.counted = c ∧ x.returns = r ∧ ((∃ a b d e, x = .load a b d e) ∨ (∃ l, x = .pref l) ∨ ∀ (k : Core) (n : Nat), k.l1Load n x = none)

theorem l1_like {core slot : Nat} {b p : Package} {w : Wave} (h : Like core slot b p w) (line : Nat) (ord : Bool) (x : ReqBody) : Like core slot b (p.l1Effect core line ord x) w := by
  unfold Package.l1Effect
  split
  · exact h
  · exact h
  · split
    · exact (h.modCore _ fun _ => by unfold Core.l1Drop; dsimp only; split <;> rfl).cancel _
    · exact h
  · split
    · exact (h.modCore _ fun _ => by unfold Core.l1Drop; dsimp only; split <;> rfl).cancel _
    · split
      · exact (h.modCore _ fun _ => by unfold Core.l1Store; dsimp only; split <;> [rfl; (split <;> rfl)]).cancel _
      · exact h.cancel _
  · exact (h.modCore _ fun _ => by unfold Core.l1Drop; dsimp only; split <;> rfl).cancel _

theorem l1_has {p : Package} {core : Nat} {key : WaveKey} {leader part id line' : Nat} {st : Option LaunchKey} {b : ReqBody} (h : HasReq p key leader part id line' st b)
    (line : Nat) (ord : Bool) (x : ReqBody) : HasReq (p.l1Effect core line ord x) key leader part id line' st b := by
  unfold Package.l1Effect
  split
  · exact h
  · exact h
  · split
    · exact (h.congr (q := p.modCore core _) rfl rfl).cancel _ _
    · exact h
  · split
    · exact (h.congr (q := p.modCore core _) rfl rfl).cancel _ _
    · split
      · exact (h.congr (q := p.modCore core _) rfl rfl).cancel _ _
      · exact h.cancel _ _
  · exact (h.congr (q := p.modCore core _) rfl rfl).cancel _ _

theorem send_like {core slot : Nat} {b p : Package} {w : Wave} (h : Like core slot b p w) (k : Clock) (late : Nat) (r : Req) : Like core slot b (p.sendReq k late r) w := by
  unfold Package.sendReq
  dsimp only
  split
  · exact h.modStage _ _ fun _ => rfl
  · exact (h.modCompany _ _ fun _ => rfl).later _ _

theorem requests_send2 (k : Clock) (p : Package) (late : Nat) (r : Req) : ∀ x, x ∈ Requests p → x ∈ Requests (p.sendReq k late r) := by
  intro z hz
  unfold Package.sendReq
  dsimp only
  unfold Requests at hz ⊢
  split
  · rw [List.mem_append] at hz ⊢
    rcases hz with hz | hz
    · exact .inl hz
    · right; refine flat_modAt p.stage _ _ Stage.heldReqs ?_ _ hz
      intro x y h; exact List.mem_append_left _ h
  · rw [List.mem_append] at hz ⊢
    rcases hz with hz | hz
    · left; refine flat_modAt p.companies _ _ Company.inq ?_ _ hz
      intro x y h; exact List.mem_append_left _ h
    · exact .inr hz

theorem l1Load_congr (c c' : Core) (line : Nat) (x : ReqBody) (h : c.l1Find line = c'.l1Find line) : c.l1Load line x = c'.l1Load line x := by
  cases x with
  | load n r l f => unfold Core.l1Load; simp only [h]
  | pref l => cases l <;> unfold Core.l1Load <;> simp only [h]
  | _ => rfl

/-- The counted requests of a wave grow by n (R231). -/
def Counted (w u : Wave) (n : Nat) : Prop :=
  u.outst = BitVec.ofNat 12 (min 4095 (w.outst.toNat + n)) ∧ u.outstMore.length = w.outstMore.length + (w.outst.toNat + n - 4095)

theorem Counted.zero (w u : Wave) (h1 : u.outst = w.outst) (h2 : u.outstMore = w.outstMore) : Counted w u 0 := by
  have := w.outst.isLt
  refine ⟨?_, by rw [h2]; omega⟩
  rw [h1, Nat.add_zero, Nat.min_eq_right (by omega), BitVec.ofNat_toNat, BitVec.setWidth_eq]

theorem Counted.add {w u x : Wave} {n m : Nat} (h1 : Counted w u n) (h2 : Counted u x m) : Counted w x (n + m) := by
  obtain ⟨a1, a2⟩ := h1
  obtain ⟨b1, b2⟩ := h2
  have hu : u.outst.toNat = min 4095 (w.outst.toNat + n) := by rw [a1, BitVec.toNat_ofNat, Nat.mod_eq_of_lt (by omega)]
  have := w.outst.isLt
  refine ⟨?_, ?_⟩
  · rw [b1, hu]; congr 1; omega
  · rw [b2, a2, hu]; omega

theorem Counted.congr {w u w' u' : Wave} {n : Nat} (h : Counted w u n) (h1 : w'.outst = w.outst) (h2 : w'.outstMore = w.outstMore) (h3 : u'.outst = u.outst) (h4 : u'.outstMore = u.outstMore) :
    Counted w' u' n := by
  unfold Counted; rw [h1, h2, h3, h4]; exact h

theorem sendCounted_counted (w : Wave) (own : Bool) : Counted w (w.sendCounted own) 1 := by
  have := w.outst.isLt
  unfold Counted Wave.sendCounted
  split
  · next h => simp [h]
  · next h =>
    have h' : w.outst.toNat ≠ 4095 := fun q => h (BitVec.eq_of_toNat_eq q)
    refine ⟨?_, ?_⟩
    · apply BitVec.eq_of_toNat_eq
      rw [BitVec.toNat_ofNat, BitVec.toNat_add]; simp; omega
    · show w.outstMore.length = _; omega

theorem sendCounted_rest (w : Wave) (own : Bool) :
    w.sendCounted own = { w with outst := (w.sendCounted own).outst, outl := (w.sendCounted own).outl, outstMore := (w.sendCounted own).outstMore } := by
  unfold Wave.sendCounted; split <;> rfl

theorem issue_one (k : Clock) (core slot leader id late : Nat) (c : Cast) (b p : Package) (w0 w : Wave) (line : Nat) (x : ReqBody) (cf rf : Bool)
    (hb : b.wave? core slot = some w0) (hl : Like core slot b p w) (h1 : w.waveId = w0.waveId) (h2 : w.cast = w0.cast) (hx : Plain cf rf x)
    (hh : (p.core core).l1Load line x = (b.core core).l1Load line x) :
    ∃ w', Like core slot b (p.issueReq k core slot leader id late c line x).1 w'
      ∧ w' = { w with vregs := (w.setElems (((b.core core).l1Load line x).getD [])).vregs, outst := w'.outst, outl := w'.outl, outstMore := w'.outstMore }
      ∧ Counted w w' (if cf = true ∧ (b.core core).l1Load line x = none then 1 else 0)
      ∧ (p.issueReq k core slot leader id late c line x).2 = (decide ((b.core core).l1Load line x = none) && rf)
      ∧ ((b.core core).l1Load line x = none → b.homeOf line < b.companies.length →
          HasReq (p.issueReq k core slot leader id late c line x).1 (b.keyOf core slot) leader c.partition id line c.launchKey x)
      ∧ (∀ key l y, HasReq p key leader c.partition id l c.launchKey y → HasReq (p.issueReq k core slot leader id late c line x).1 key leader c.partition id l c.launchKey y)
      ∧ ((∃ a b d e, x = .load a b d e) ∨ (∃ l, x = .pref l) → ∀ m, ((p.issueReq k core slot leader id late c line x).1.core core).l1Find m = (p.core core).l1Find m) := by
  unfold Package.issueReq
  rw [hh]
  cases hq : (b.core core).l1Load line x with
  | some regs =>
    dsimp only
    refine ⟨w.setElems regs, (hl.modCore _ fun _ => ?_).modWave _, ?_, ?_, ?_, ?_, ?_, ?_⟩
    · unfold Core.l1Touch; dsimp only; split <;> rfl
    · rw [setElems_rest]; rfl
    · rw [if_neg (by simp)]; exact Counted.zero _ _ (by rw [setElems_rest]) (by rw [setElems_rest])
    · simp
    · intro h; simp at h
    · intro key l y h; exact h.congr rfl rfl
    · intro _ m
      rw [core_modWave_self _ _ _ _ (by rw [cores_modCore]; exact hl.lt), core_modCore_self _ _ _ hl.lt]
      exact l1Find_touch _ _ _
  | none =>
    dsimp only
    obtain ⟨hx1, hx2, hx3⟩ := hx
    let p1 := p.l1Effect core line c.ordered x
    have hl1 : Like core slot b p1 w := l1_like hl _ _ _
    let g : Wave → Wave := fun w => w.sendCounted (decide (p.homeOf line / 8 = stageOf core))
    have hg : ∀ w : Wave, g w = { w with outst := (g w).outst, outl := (g w).outl, outstMore := (g w).outstMore } := fun w => sendCounted_rest w _
    let w' : Wave := if cf then g w else w
    let p2 := if x.counted = true then p1.modWave core slot g else p1
    have hl2 : Like core slot b p2 w' := by
      show Like core slot b (if x.counted = true then p1.modWave core slot g else p1) (if cf = true then g w else w)
      rw [hx1]; cases cf
      · exact hl1
      · exact hl1.modWave g
    have hk : p2.keyOf core slot = b.keyOf core slot := hl2.key hb (by show (if cf = true then g w else w).waveId = _; cases cf <;> [exact h1; (show (g w).waveId = _; rw [hg]; exact h1)]) (by show (if cf = true then g w else w).cast = _; cases cf <;> [exact h2; (show (g w).cast = _; rw [hg]; exact h2)])
    have hlen : p2.companies.length = b.companies.length := hl2.ncomp
    refine ⟨w', send_like hl2 _ _ _, ?_, ?_, ?_, ?_, ?_, ?_⟩
    · show (if cf = true then g w else w) = { w with vregs := w.vregs, outst := (if cf = true then g w else w).outst, outl := (if cf = true then g w else w).outl, outstMore := (if cf = true then g w else w).outstMore }
      cases cf <;> [rfl; exact hg w]
    · show Counted w (if cf = true then g w else w) _
      cases cf <;> [exact Counted.zero _ _ rfl rfl; exact sendCounted_counted w _]
    · simp [hx2]
    · intro _ hhome
      obtain ⟨⟨t, ht⟩, _⟩ := requests_send k p2 late { key := p2.keyOf core slot, leader := leader, part := c.partition, id := id, line := line, own := decide (p.homeOf line / 8 = stageOf core), staged := c.launchKey, arrives := 0, body := x }
        (by show p2.homeOf line < _; rw [hl2.home, hlen]; exact hhome)
      exact ⟨_, ht, hk, rfl, rfl, rfl, rfl, rfl, .inl rfl⟩
    · intro key l y h
      have h3 : HasReq p2 key leader c.partition id l c.launchKey y := by
        have := l1_has (core := core) h line c.ordered x
        show HasReq (if x.counted = true then p1.modWave core slot g else p1) _ _ _ _ _ _ _
        split
        · exact this.congr rfl rfl
        · exact this
      exact h3.mono (requests_send2 k p2 late _)
    · intro hlp m
      have e1 : p1 = p := by
        show p.l1Effect core line c.ordered x = p
        rcases hlp with ⟨a1, a2, a3, a4, rfl⟩ | ⟨l, rfl⟩ <;> rfl
      have e2 : ∀ q : Package, core < q.cores.length → ∀ r, ((q.sendReq k late r).core core).l1Find m = (q.core core).l1Find m := by
        intro q hq r
        unfold Package.sendReq; dsimp only; split <;> rfl
      show ((Package.sendReq k p2 late _).core core).l1Find m = _
      rw [e2 p2 hl2.lt]
      show ((if x.counted = true then p1.modWave core slot g else p1).core core).l1Find m = _
      rw [e1]
      split
      · rw [core_modWave_self _ _ _ _ hl.lt]; rfl
      · rfl

theorem issue_fold (k : Clock) (core slot leader id late : Nat) (c : Cast) (b : Package) (w0 : Wave) (cf rf : Bool) (hb : b.wave? core slot = some w0) :
    ∀ (L : List (Nat × ReqBody)) (p : Package) (w : Wave) (n : Nat), Like core slot b p w → w.waveId = w0.waveId → w.cast = w0.cast →
      (∀ x ∈ L, Plain cf rf x.2) →
      (((∀ x ∈ L, (∃ a b d e, x.2 = .load a b d e) ∨ ∃ l, x.2 = .pref l) ∧ ∀ m, (p.core core).l1Find m = (b.core core).l1Find m) ∨ ∀ x ∈ L, ∀ (k : Core) (n : Nat), k.l1Load n x.2 = none) →
      let q := L.foldl (fun (q : Package × Nat) (r : Nat × ReqBody) => ((q.1.issueReq k core slot leader id late c r.1 r.2).1, if (q.1.issueReq k core slot leader id late c r.1 r.2).2 then q.2 + 1 else q.2)) (p, n)
      ∃ w' m, Like core slot b q.1 w'
        ∧ w' = { w with vregs := (w.setElems (L.flatMap fun x => ((b.core core).l1Load x.1 x.2).getD [])).vregs, outst := w'.outst, outl := w'.outl, outstMore := w'.outstMore }
        ∧ Counted w w' (if cf then m else 0) ∧ q.2 = n + (if rf then m else 0)
        ∧ (0 < m ↔ ∃ x ∈ L, (b.core core).l1Load x.1 x.2 = none)
        ∧ (∀ x ∈ L, (b.core core).l1Load x.1 x.2 = none → b.homeOf x.1 < b.companies.length → HasReq q.1 (b.keyOf core slot) leader c.partition id x.1 c.launchKey x.2)
        ∧ (∀ key l y, HasReq p key leader c.partition id l c.launchKey y → HasReq q.1 key leader c.partition id l c.launchKey y) := by
  intro L
  induction L with
  | nil =>
    intro p w n hl h1 h2 _ _
    refine ⟨w, 0, hl, rfl, ?_, ?_, ?_, ?_, fun _ _ _ h => h⟩
    · cases cf <;> exact Counted.zero _ _ rfl rfl
    · cases rf <;> simp
    · simp
    · simp
  | cons x L ih =>
    intro p w n hl h1 h2 hP hh
    have hx : (p.core core).l1Load x.1 x.2 = (b.core core).l1Load x.1 x.2 := by
      rcases hh with hh | hh
      · exact l1Load_congr _ _ _ _ (hh.2 _)
      · rw [hh x (by simp), hh x (by simp)]
    obtain ⟨w1, a1, a2, a3, a4, a5, a6, a7⟩ := issue_one k core slot leader id late c b p w0 w x.1 x.2 cf rf hb hl h1 h2 (hP x (by simp)) hx
    rw [List.foldl_cons]
    obtain ⟨w2, m, b1, b2, b3, b4, b5, b6, b7⟩ := ih _ w1 (if (p.issueReq k core slot leader id late c x.1 x.2).2 then n + 1 else n) a1 (by rw [a2]; exact h1) (by rw [a2]; exact h2)
      (fun y hy => hP y (by simp [hy])) (by
        rcases hh with hh | hh
        · left; exact ⟨fun y hy => hh.1 y (by simp [hy]), fun z => (a7 (hh.1 x (by simp)) z).trans (hh.2 z)⟩
        · right; exact fun y hy => hh y (by simp [hy]))
    refine ⟨w2, m + (if (b.core core).l1Load x.1 x.2 = none then 1 else 0), b1, ?_, ?_, ?_, ?_, ?_, ?_⟩
    · rw [b2, a2]
      have : ∀ (w : Wave) (e f : List (Nat × Nat × Word)) (o : BitVec 12) (ol : BitVec 12) (om : List Bool),
          (Wave.setElems { w with vregs := (w.setElems e).vregs, outst := o, outl := ol, outstMore := om } f).vregs = (w.setElems (e ++ f)).vregs := by
        intro w e f o ol om
        have h0 : w.setElems (e ++ f) = (w.setElems e).setElems f := by unfold Wave.setElems; rw [List.foldl_append]
        rw [h0]
        have h1 : ∀ (f : List (Nat × Nat × Word)) (a b : Wave), a.vregs = b.vregs → (a.setElems f).vregs = (b.setElems f).vregs := by
          intro f
          induction f with
          | nil => intro a b h; exact h
          | cons z f ih => intro a b h; exact ih _ _ (by simp [h])
        exact h1 f _ _ rfl
      simp only [this, List.flatMap_cons]
    · have := a3.add b3
      convert this using 1
      cases cf
      · simp
      · simp only [true_and, if_true]; omega
    · rw [b4, a4]
      by_cases hn : (b.core core).l1Load x.1 x.2 = none
      · simp only [hn, decide_true, Bool.true_and, if_true]; cases rf <;> simp <;> omega
      · simp only [hn, decide_false, Bool.false_and, if_false]; simp
    · constructor
      · intro h
        by_cases hn : (b.core core).l1Load x.1 x.2 = none
        · exact ⟨x, by simp, hn⟩
        · rw [if_neg hn] at h
          obtain ⟨y, hy, h⟩ := b5.1 (by omega)
          exact ⟨y, by simp [hy], h⟩
      · rintro ⟨y, hy, h⟩
        rcases List.mem_cons.1 hy with rfl | hy
        · rw [if_pos h]; omega
        · have := b5.2 ⟨y, hy, h⟩; omega
    · intro y hy h hh2
      rcases List.mem_cons.1 hy with rfl | hy
      · exact b7 _ _ _ (a5 h hh2)
      · exact b6 y hy h hh2
    · intro key l y h; exact b7 _ _ _ (a6 _ _ _ h)

theorem note_fold (core slot part : Nat) (b : Package) (w : Wave) : ∀ (l : List Elem) (p : Package), Like core slot b p w → Like core slot b (l.foldl (fun (p : Package) (e : Elem) => p.noteXlate core part e.va) p) w := by
  intro l
  induction l with
  | nil => intro p h; exact h
  | cons e l ih => intro p h; exact ih _ (h.note part e.va)

theorem note_l1 (p : Package) (core part : Nat) (va : Quad) (hc : core < p.cores.length) : ((p.noteXlate core part va).core core).l1 = (p.core core).l1 ∧ (p.noteXlate core part va).cores.length = p.cores.length := by
  unfold Package.noteXlate
  split
  · exact ⟨rfl, rfl⟩
  · dsimp only
    split
    · rw [core_modCore_self _ _ _ hc, cores_modCore]; exact ⟨rfl, rfl⟩
    · split
      · unfold Package.coreFill
        rw [core_modCore_self _ _ _ (by exact hc), cores_modCore]; exact ⟨rfl, rfl⟩
      · exact ⟨rfl, rfl⟩

theorem note_l1s (core part : Nat) : ∀ (l : List Elem) (p : Package), core < p.cores.length → ((l.foldl (fun (p : Package) (e : Elem) => p.noteXlate core part e.va) p).core core).l1 = (p.core core).l1 := by
  intro l
  induction l with
  | nil => intro p _; rfl
  | cons e l ih => intro p h; rw [List.foldl_cons, ih _ (by rw [(note_l1 p core part e.va h).2]; exact h), (note_l1 p core part e.va h).1]

theorem setElems_vregs (f : List (Nat × Nat × Word)) : ∀ (a b : Wave), a.vregs = b.vregs → (a.setElems f).vregs = (b.setElems f).vregs := by
  induction f with
  | nil => intro a b h; exact h
  | cons z f ih => intro a b h; exact ih _ _ (by simp [h])

theorem setElems_length (f : List (Nat × Nat × Word)) : ∀ (a : Wave), (a.setElems f).vregs.length = a.vregs.length := by
  induction f with
  | nil => intro a; rfl
  | cons z f ih => intro a; exact (ih _).trans (modAt_length _ _ _)

theorem perform_mem (s : State) (v : View) (hv : s.pkg.wave? v.iss.core v.iss.slot = some v.now) (op : MemOp) (dev : List Elem) (cf rf : Bool) (hit : Nat → Prop)
    (hP : ∀ x ∈ devRequests (memKind op.instr) dev, Plain cf rf x.2)
    (hK : (∀ x ∈ devRequests (memKind op.instr) dev, (∃ a b d e, x.2 = .load a b d e) ∨ ∃ l, x.2 = .pref l) ∨ ∀ x ∈ devRequests (memKind op.instr) dev, ∀ (k : Core) (n : Nat), k.l1Load n x.2 = none)
    (hhit : ∀ x ∈ devRequests (memKind op.instr) dev, ((s.pkg.core v.iss.core).l1Load x.1 x.2 = none ↔ ¬ hit x.1))
    (place : Nat → Option Nat) (carries : Nat → Nat → ReqBody → Prop) (hc : ∀ j a b, carries j a b → carries j a b.noFill)
    (hcov : ∀ j a, j < 128 → v.active j = true → place j = some a → ∃ x ∈ devRequests (memKind op.instr) dev, x.1 = a / 128 ∧ carries j a x.2)
    (hback : ∀ x ∈ devRequests (memKind op.instr) dev, ∃ j a, j < 128 ∧ v.active j = true ∧ place j = some a ∧ x.1 = a / 128)
    (got : Nat → Nat → Option Word)
    (hgot : ∀ r j, r < v.now.vregs.length → j < 128 → (v.now.setElems ((devRequests (memKind op.instr) dev).flatMap fun x => ((s.pkg.core v.iss.core).l1Load x.1 x.2).getD [])).v r j = (got r j).getD (v.now.v r j))
    (hrf : (memKind op.instr).dest = none ∨ rf = true) :
    ∃ p u, Sent s v p u place hit carries cf (memKind op.instr).dest got
      ∧ p.wave? v.iss.core v.iss.slot = some v.now
      ∧ s.pkg.performMem s.clk v.iss.core v.iss.slot v.iss.leader v.cast op dev [] = p.modWave v.iss.core v.iss.slot fun _ => u := by
  let core := v.iss.core
  let slot := v.iss.slot
  have hl0 : Like core slot s.pkg s.pkg v.now := Like.refl hv
  let late := if dev.any fun e => s.pkg.viaTlb v.cast.partition e.va && ((s.pkg.core core).tlb.lookup v.cast.partition false e.va).isNone then 24 else 0
  let p1 := (dev ++ []).foldl (fun (p : Package) (e : Elem) => p.noteXlate core v.cast.partition e.va) s.pkg
  have hl1 : Like core slot s.pkg p1 v.now := note_fold _ _ _ _ _ _ _ hl0
  have hid : ((p1.wave? core slot).map Wave.nextId).getD 0 = v.now.nextId := by rw [hl1.wave]; rfl
  let p2 := p1.modWave core slot fun w => { w with nextId := w.nextId + 1 }
  let w2 : Wave := { v.now with nextId := v.now.nextId + 1 }
  have hl2 : Like core slot s.pkg p2 w2 := hl1.modWave fun w => { w with nextId := w.nextId + 1 }
  have hf2 : ∀ m, (p2.core core).l1Find m = (s.pkg.core core).l1Find m := by
    intro m
    have e : (p2.core core).l1 = (s.pkg.core core).l1 := by
      show ((p1.modWave core slot _).core core).l1 = _
      rw [core_modWave_self _ _ _ _ hl1.lt]
      exact note_l1s core v.cast.partition (dev ++ []) s.pkg hl0.lt
    unfold Core.l1Find; rw [e]
  let L := devRequests (memKind op.instr) dev
  obtain ⟨w3, m, a1, a2, a3, a4, a5, a6, _⟩ := issue_fold s.clk core slot v.iss.leader v.now.nextId late v.cast s.pkg v.now cf rf hv L p2 w2 0 hl2 rfl rfl hP
    (hK.imp_left fun h => ⟨h, hf2⟩)
  let q := L.foldl (fun (q : Package × Nat) (r : Nat × ReqBody) => ((q.1.issueReq s.clk core slot v.iss.leader v.now.nextId late v.cast r.1 r.2).1, if (q.1.issueReq s.clk core slot v.iss.leader v.now.nextId late v.cast r.1 r.2).2 then q.2 + 1 else q.2)) (p2, 0)
  have hpm : s.pkg.performMem s.clk core slot v.iss.leader v.cast op dev [] = match (memKind op.instr).dest with
      | some (r, n) => if q.2 = 0 then q.1 else q.1.modWave core slot fun w => { w with pending := w.pending ++ [{ id := v.now.nextId, first := r, count := n, left := q.2 }] }
      | none => q.1 := by
    have hh : hostGroups (memKind op.instr) [] = [] := by
      unfold hostGroups; split <;> rfl
    unfold Package.performMem
    dsimp only
    rw [hh]
    show (match (memKind op.instr).dest with
      | some (r, n) => _
      | none => _) = _
    simp only [List.foldl_nil]
    rw [show ((List.foldl (fun (p : Package) (e : Elem) => p.noteXlate core v.cast.partition e.va) s.pkg (dev ++ [])).wave? core slot) = p1.wave? core slot from rfl, hid]
    cases (memKind op.instr).dest with
    | none => rfl
    | some d => rfl
  let pend : List Pending := match (memKind op.instr).dest with
      | some (r, c) => if m = 0 then [] else [{ id := v.now.nextId, first := r, count := c, left := m }]
      | none => []
  let u : Wave := { w3 with pending := w3.pending ++ pend }
  let f : Wave → Wave := fun w => { w with pending := w.pending ++ pend }
  have hfin : s.pkg.performMem s.clk core slot v.iss.leader v.cast op dev [] = q.1.modWave core slot f := by
    rw [hpm]
    have hid2 : q.1.modWave core slot (fun w => { w with pending := w.pending ++ [] }) = q.1 := by simp only [List.append_nil]; exact modWave_id _ _ _
    have ha4 : q.2 = 0 + (if rf then m else 0) := a4
    cases hd : (memKind op.instr).dest with
    | none => dsimp only; show q.1 = q.1.modWave core slot fun w => { w with pending := w.pending ++ pend }; simp only [pend, hd]; exact hid2.symm
    | some d =>
      have hr : rf = true := hrf.resolve_left (by rw [hd]; simp)
      rw [hr] at ha4
      have ha4 : q.2 = m := by simpa using ha4
      dsimp only
      show _ = q.1.modWave core slot fun w => { w with pending := w.pending ++ pend }
      simp only [pend, hd, ha4]
      split
      · exact hid2.symm
      · rfl
  have hlq : Like core slot s.pkg q.1 w3 := a1
  have hw3 : w3.pending = v.now.pending := by rw [a2]
  let P : Package := q.1.modWave core slot fun _ => v.now
  have hlP : Like core slot s.pkg P v.now := hlq.modWave fun _ => v.now
  have hvr : w3.vregs = (v.now.setElems (L.flatMap fun x => ((s.pkg.core core).l1Load x.1 x.2).getD [])).vregs := by
    rw [a2]; exact setElems_vregs _ _ _ rfl
  refine ⟨P, u, ?_, hlP.wave, ?_⟩
  · refine ⟨?_, ⟨m, ?_, ?_, ?_⟩, ⟨?_, ?_⟩, ?_, hlP.package, hlP.cores, ?_, hlP.companies⟩
    · intro j a hj ha hp hh hhome
      obtain ⟨x, hx, hx1, hx2⟩ := hcov j a hj ha hp
      obtain ⟨r, h0, h1, h2, h3, h4, h5, h6, h7⟩ := a6 x hx ((hhit x hx).2 (by rw [hx1]; exact hh)) (by rw [hx1]; exact hhome)
      refine ⟨r, ?_, h1, h2, h3, h4, by rw [h5, hx1], h6, ?_⟩
      · rw [requests_congr (p := P) (q := q.1) rfl rfl]; exact h0
      · rcases h7 with h7 | h7 <;> rw [h7]
        · exact hx2
        · exact hc _ _ _ hx2
    · rw [a5]
      constructor
      · rintro ⟨x, hx, hn⟩
        obtain ⟨j, a, h1, h2, h3, h4⟩ := hback x hx
        exact ⟨j, a, h1, h2, h3, by rw [← h4]; exact (hhit x hx).1 hn⟩
      · rintro ⟨j, a, h1, h2, h3, h4⟩
        obtain ⟨x, hx, hx1, _⟩ := hcov j a h1 h2 h3
        exact ⟨x, hx, (hhit x hx).2 (by rw [hx1]; exact h4)⟩
    · exact a3
    · show w3.pending ++ pend = _
      refine (congrArg (· ++ pend) hw3).trans (congrArg (v.now.pending ++ ·) ?_)
      simp only [pend]
      all_goals (rcases (memKind op.instr).dest with _ | ⟨r, c⟩ <;> rfl)
    · show w3.vregs.length = _
      rw [hvr, setElems_length]
    · intro r j hr hj
      rw [← hgot r j hr hj]
      show (w3.vregs.getD r []).getD j 0 = _
      rw [hvr]; rfl
    · show ({ w3 with pending := w3.pending ++ pend } : Wave) = { v.now with vregs := w3.vregs, outst := w3.outst, outl := w3.outl, outstMore := w3.outstMore, pending := w3.pending ++ pend, nextId := v.now.nextId + 1 }
      rw [hw3]
      have e1 := congrArg (fun z : Wave => ({ z with pending := v.now.pending ++ pend } : Wave)) a2
      have e2 : w3.vregs = (w2.setElems (L.flatMap fun x => ((s.pkg.core core).l1Load x.1 x.2).getD [])).vregs := by
        have := congrArg (fun z : Wave => z.vregs) a2
        exact this
      refine e1.trans ?_
      rw [e2]
    · have := hlP.here
      rw [modWaves_id _ _ _ (wave?_some hv)] at this
      exact this
  · rw [hfin]
    show _ = (q.1.modWave core slot fun _ => v.now).modWave core slot fun _ => u
    rw [modWave_modWave]
    rw [modWave_const q.1 core slot w3 f hlq.wave]

def elemOf (addr : Nat → Quad) (data cmp : Nat → List Byte) (j : Nat) : Elem := { lane := j, va := addr j, place := 0, data := data j, cmp := cmp j }

theorem elems_eq (v : View) (i : Instr) (addr : Nat → Quad) (data cmp : Nat → List Byte) :
    MemOp.elems { instr := i, lanes := v.lanes.map (fun j => { lane := j, addr := addr j }), data := v.lanes.map data, cmp := v.lanes.map cmp } = v.lanes.map (elemOf addr data cmp) := by
  unfold MemOp.elems
  apply List.ext_getElem
  · simp
  · intro n h1 h2
    simp at h1 h2 ⊢
    simp [elemOf, h1]

theorem filter_la (v : View) (i : Instr) (p : Package) (core part : Nat) (w : Waiter) (wr : Bool) (addr : Nat → Quad) (data cmp : Nat → List Byte) (Q : Elem × Xlate → Bool) (Q' : LaneAddr → Bool)
    (hQ : ∀ j, Q (elemOf addr data cmp j, p.xlate core part w (addr j) wr false) = Q' { lane := j, addr := addr j }) :
    (((v.lanes.map (elemOf addr data cmp)).map fun e => (e, p.xlate core part w e.va wr false)).filter Q).map (fun y => y.1.la) =
      (v.lanes.map fun j => ({ lane := j, addr := addr j } : LaneAddr)).filter Q' := by
  rw [List.map_map, List.filter_map, List.filter_map, List.map_map]
  have : (Q ∘ (fun e : Elem => (e, p.xlate core part w e.va wr false)) ∘ elemOf addr data cmp) = Q' ∘ fun j => ({ lane := j, addr := addr j } : LaneAddr) := by
    funext j; exact hQ j
  rw [this]
  rfl

theorem head_lane (v : View) (addr : Nat → Quad) (k : Nat) (hk : k < 128) (ha : v.active k = true) (hl : ∀ l, l < k → v.active l = false) :
    (v.lanes.map fun j => ({ lane := j, addr := addr j } : LaneAddr)).head? = some { lane := k, addr := addr k } := by
  rw [List.head?_map]
  show Option.map _ ((List.range 128).filter v.active).head? = _
  rw [lowest_lane hk ha (fun l h => hl l h)]; rfl

theorem exists_low (v : View) (j : Nat) (hj : j < 128) (ha : v.active j = true) : ∃ k, k < 128 ∧ v.active k = true ∧ ∀ l, l < k → v.active l = false := by
  induction j using Nat.strongRecOn with
  | _ j ih =>
    by_cases h : ∃ l, l < j ∧ v.active l = true
    · obtain ⟨l, h1, h2⟩ := h; exact ih l h1 (by omega) h2
    · refine ⟨j, hj, ha, fun l hl => ?_⟩
      rw [Bool.eq_false_iff]; intro q; exact h ⟨l, hl, q⟩

def memF (i : Instr) (addr : View → Nat → Quad) (data cmp : View → Nat → List Byte) (v : View) (s : State) : Out :=
    let op : MemOp := { instr := i, lanes := v.lanes.map (fun j => { lane := j, addr := addr v j }),
                        data := v.lanes.map (data v), cmp := v.lanes.map (cmp v) }
    let k := memKind i
    match s.pkg.memCheck v.iss.core v.waiter v.cast op with
    | .trap t => .trap t
    | .walk pages => .hold (.walk pages)
    | .go dev host page =>
      let run := s.modPkg fun p => p.performMem s.clk v.iss.core v.iss.slot v.iss.leader v.cast op dev host
      match page with
      | [] => .done run
      | l :: _ =>
        if v.windowStart.isSome then .hold (.page l.addr v.act k.writes false)
        else
          let lanes := laneMask fun j => page.any fun x => x.lane = j
          let left := op.elems.filter fun e => page.any fun x => x.lane = e.lane
          let rest : MemOp := { instr := i, lanes := left.map Elem.la, data := left.map Elem.data, cmp := left.map Elem.cmp }
          let r : Park := { word := v.iss.word, lanes := lanes, op := some rest, leader := v.iss.leader, slices := v.slices }
          .done (run.parkFor v r v.iss.word l.addr lanes false k.writes false v.iss.pslot)

theorem memCheck_eq (p : Package) (core : Nat) (w : Waiter) (c : Cast) (op : MemOp) (h : (memKind op.instr).hint = false) : p.memCheck core w c op =
    match laneTrap .misalign (misaligned (memKind op.instr) op.lanes) with
    | some t => .trap t
    | none =>
      let x := op.elems.map fun e => (e, p.xlate core c.partition w e.va (memKind op.instr).writes false)
      if !(x.filter fun y => decide (y.2 = .walk)).isEmpty then .walk ((x.filter fun y => decide (y.2 = .walk)).map fun y => (y.1.va, (memKind op.instr).writes, false))
      else
        match (laneTrap .access ((x.filter fun y => decide (y.2 = .access) || (isHostVa y.1.va && !(memKind op.instr).hostOk)).map fun y => y.1.la)).or
            (laneTrap ((memKind op.instr).ownCause.getD .ownership) (unowned (memKind op.instr) c op.lanes)) with
        | some t => .trap t
        | none => .go (x.filterMap fun y => match y.2 with
    | .dev a => some { y.1 with place := a }
    | _ => none) (x.filterMap fun y => match y.2 with
    | .host a => if (memKind op.instr).hostOk then some { y.1 with place := a } else none
    | _ => none) ((x.filter fun y => decide (y.2 = .page)).map fun y => y.1.la) := by
  unfold Package.memCheck Package.sortLanes
  dsimp only
  rw [h]
  simp only [List.isEmpty_map, List.map_map]
  rfl

theorem mem_checks (s : State) (v : View) (i : Instr) (addr : View → Nat → Quad) (data cmp : View → Nat → List Byte) (hint : (memKind i).hint = false) (hs : Issues s v i)
    (he : ∀ s, exec i s = s.word i (memF i addr data cmp)) (hit : Nat → Prop) (carries : Nat → Nat → ReqBody → Prop) (cf : Bool) (got : (Nat → Option Nat) → Nat → Nat → Option Word)
    (hgo : ∀ dev, dev = v.lanes.filterMap (fun j => (DevicePlace s v (memKind i).writes (addr v j)).map fun a => { elemOf (addr v) (data v) (cmp v) j with place := a }) →
      (NoLane v fun j => DevicePlace s v (memKind i).writes (addr v j) = none) →
      ((memKind i).oneLine = true → ∀ j k a b, j < 128 → k < 128 → v.active j = true → v.active k = true → DevicePlace s v (memKind i).writes (addr v j) = some a → DevicePlace s v (memKind i).writes (addr v k) = some b → a / 128 = b / 128) →
      ∃ p u, Sent s v p u (fun j => DevicePlace s v (memKind i).writes (addr v j)) hit carries cf (memKind i).dest (got fun j => DevicePlace s v (memKind i).writes (addr v j))
        ∧ p.wave? v.iss.core v.iss.slot = some v.now
        ∧ s.pkg.performMem s.clk v.iss.core v.iss.slot v.iss.leader v.cast { instr := i, lanes := v.lanes.map (fun j => { lane := j, addr := addr v j }), data := v.lanes.map (data v), cmp := v.lanes.map (cmp v) } dev [] = p.modWave v.iss.core v.iss.slot fun _ => u) :
    MemWord s v i (memKind i).size (memKind i).writes (memKind i).hostOk (memKind i).oneLine (memKind i).ownCause (addr v) hit carries cf (memKind i).dest got := by
  let op : MemOp := { instr := i, lanes := v.lanes.map (fun j => { lane := j, addr := addr v j }), data := v.lanes.map (data v), cmp := v.lanes.map (cmp v) }
  have hop : op.elems = v.lanes.map (elemOf (addr v) (data v) (cmp v)) := elems_eq v i (addr v) (data v) (cmp v)
  have hFt : ∀ t, s.pkg.memCheck v.iss.core v.waiter v.cast op = .trap t → memF i addr data cmp v s = .trap t := by
    intro t hr
    unfold memF
    dsimp only
    rw [show s.pkg.memCheck v.iss.core v.waiter v.cast { instr := i, lanes := v.lanes.map (fun j => { lane := j, addr := addr v j }), data := v.lanes.map (data v), cmp := v.lanes.map (cmp v) } = .trap t from hr]
  have hFg : ∀ dev, s.pkg.memCheck v.iss.core v.waiter v.cast op = .go dev [] [] → memF i addr data cmp v s = .done (s.modPkg fun p => p.performMem s.clk v.iss.core v.iss.slot v.iss.leader v.cast op dev []) := by
    intro dev hr
    unfold memF
    dsimp only
    rw [show s.pkg.memCheck v.iss.core v.waiter v.cast { instr := i, lanes := v.lanes.map (fun j => { lane := j, addr := addr v j }), data := v.lanes.map (data v), cmp := v.lanes.map (cmp v) } = .go dev [] [] from hr]
  unfold MemWord
  extract_lets x mis denied unowned place
  let P1 : LaneAddr → Bool := fun l => decide (l.addr.toNat % (memKind i).size ≠ 0) || ((memKind i).oneLine && decide (l.addr.toNat / 128 ≠ ((op.lanes.head?.map LaneAddr.addr).getD 0).toNat / 128))
  have hP1 : ∀ j, j < 128 → v.active j = true → (P1 { lane := j, addr := addr v j } = true ↔ mis j) := by
    intro j hj ha
    obtain ⟨k, hk1, hk2, hk3⟩ := exists_low v j hj ha
    show (_ || _) = true ↔ _
    rw [show op.lanes.head? = some { lane := k, addr := addr v k } from head_lane v (addr v) k hk1 hk2 hk3]
    simp only [Option.map_some, Option.getD_some, Bool.or_eq_true, Bool.and_eq_true, decide_eq_true_eq]
    refine or_congr Iff.rfl ?_
    constructor
    · rintro ⟨h1, h2⟩; exact ⟨h1, k, hk1, hk2, hk3, h2⟩
    · rintro ⟨h1, k', hk1', hk2', hk3', h2⟩
      have : k' = k := by
        rcases Nat.lt_trichotomy k' k with h | h | h
        · rw [hk3 k' h] at hk2'; simp at hk2'
        · exact h
        · rw [hk3' k h] at hk2; simp at hk2
      subst this; exact ⟨h1, h2⟩
  have hmisd : misaligned (memKind i) op.lanes = (v.lanes.map fun j => ({ lane := j, addr := addr v j } : LaneAddr)).filter P1 := rfl
  let xs := op.elems.map fun e => (e, s.pkg.xlate v.iss.core v.cast.partition v.waiter e.va (memKind i).writes false)
  have hwalk : (NoLane v fun j => x j = .walk) → (xs.filter fun y => y.2 = .walk) = [] := by
    intro h
    rw [List.filter_eq_nil_iff]
    intro y hy
    show ¬ (decide (y.2 = .walk)) = true
    simp only [xs, hop, List.mem_map] at hy
    obtain ⟨e, ⟨j, hj, rfl⟩, rfl⟩ := hy
    have := (mem_lanes v j).1 hj
    intro q; exact h j this.1 this.2 (of_decide_eq_true q)
  let P2 : LaneAddr → Bool := fun l => decide (s.pkg.xlate v.iss.core v.cast.partition v.waiter l.addr (memKind i).writes false = .access) || (isHostVa l.addr && !(memKind i).hostOk)
  have hden : ((xs.filter fun y => decide (y.2 = .access) || (isHostVa y.1.va && !(memKind i).hostOk)).map fun y => y.1.la) = (v.lanes.map fun j => ({ lane := j, addr := addr v j } : LaneAddr)).filter P2 := by
    show ((List.map _ op.elems).filter _).map _ = _
    rw [hop]
    exact filter_la v i s.pkg v.iss.core v.cast.partition v.waiter (memKind i).writes (addr v) (data v) (cmp v) _ P2 fun j => rfl
  have hP2 : ∀ j, (P2 { lane := j, addr := addr v j } = true ↔ denied j) := by
    intro j
    show (_ || _) = true ↔ _
    simp only [Bool.or_eq_true, Bool.and_eq_true, decide_eq_true_eq, Bool.not_eq_true']
    rfl
  let P3 : LaneAddr → Bool := fun l => v.cast.ordered && !v.cast.owns l.addr (memKind i).size
  have hun : ∀ c, (memKind i).ownCause = some c → Machine.unowned (memKind i) v.cast op.lanes = (v.lanes.map fun j => ({ lane := j, addr := addr v j } : LaneAddr)).filter P3 := by
    intro c hc
    unfold Machine.unowned
    show _ = op.lanes.filter P3
    rw [hc]
    cases ho : v.cast.ordered
    · simp [P3, ho]
    · simp [P3, ho]
  have hun0 : (memKind i).ownCause = none → Machine.unowned (memKind i) v.cast op.lanes = [] := by
    intro hc; unfold Machine.unowned; rw [hc]; simp
  have hP3 : ∀ j, (P3 { lane := j, addr := addr v j } = true ↔ unowned j) := by
    intro j
    show (_ && _) = true ↔ _
    simp only [Bool.and_eq_true, Bool.not_eq_true']
    rfl
  have hmc := memCheck_eq s.pkg v.iss.core v.waiter v.cast op hint
  have n1 : NoLane v mis → laneTrap .misalign (misaligned (memKind i) op.lanes) = none := fun q => by
    rw [hmisd]; exact lane_none v _ (addr v) P1 fun j h1 h2 h3 => q j h1 h2 ((hP1 j h1 h2).1 h3)
  have n2 : NoLane v denied → laneTrap .access ((xs.filter fun y => decide (y.2 = .access) || (isHostVa y.1.va && !(memKind i).hostOk)).map fun y => y.1.la) = none := fun q => by
    rw [hden]; exact lane_none v _ (addr v) P2 fun j h1 h2 h3 => q j h1 h2 ((hP2 j).1 h3)
  have hL : ∀ (P : LaneAddr → Bool) (R : Nat → Prop) (c : Cause) (_ : ∀ j, j < 128 → v.active j = true → (P { lane := j, addr := addr v j } = true ↔ R j))
      (_ : ∀ t, laneTrap c ((v.lanes.map fun j => ({ lane := j, addr := addr v j } : LaneAddr)).filter P) = some t → s.pkg.memCheck v.iss.core v.waiter v.cast op = .trap t),
      LanesTrap s v i c (addr v) R := by
    intro P R c hPR hT j hj ha hR hlow
    obtain ⟨m, hm, hm2⟩ := lane_trap v c (addr v) P j hj ha ((hPR j hj ha).2 hR) (fun k hk1 hk2 hk3 => hlow k hk1 hk2 ((hPR k (by omega) hk2).1 hk3))
    refine ⟨m, traps_word (he s) hs (hFt _ (hT _ hm)), fun k hk => (hm2 k hk).trans ?_⟩
    constructor
    · rintro ⟨a1, a2⟩; exact ⟨a1, (hPR k hk a1).1 a2⟩
    · rintro ⟨a1, a2⟩; exact ⟨a1, (hPR k hk a1).2 a2⟩
  refine ⟨?_, ?_, ?_, ?_⟩
  · refine hL P1 mis .misalign hP1 fun t ht => ?_
    rw [hmc, show misaligned (memKind op.instr) op.lanes = _ from hmisd, ht]
  · intro h1 h2
    refine hL P2 denied .access (fun j _ _ => hP2 j) fun t ht => ?_
    rw [hmc, show laneTrap .misalign (misaligned (memKind op.instr) op.lanes) = none from n1 h1]
    dsimp only
    have hw : (op.elems.map fun e => (e, s.pkg.xlate v.iss.core v.cast.partition v.waiter e.va (memKind op.instr).writes false)).filter (fun y => decide (y.2 = .walk)) = [] := hwalk h2
    rw [hw]
    have hd : ((op.elems.map fun e => (e, s.pkg.xlate v.iss.core v.cast.partition v.waiter e.va (memKind op.instr).writes false)).filter fun y => decide (y.2 = .access) || (isHostVa y.1.va && !(memKind op.instr).hostOk)).map (fun y => y.1.la) = _ := hden
    rw [hd, ht]
    simp
  · intro c hc h1 h2 h3
    refine hL P3 unowned c (fun j _ _ => hP3 j) fun t ht => ?_
    rw [hmc, show laneTrap .misalign (misaligned (memKind op.instr) op.lanes) = none from n1 h1]
    dsimp only
    have hw : (op.elems.map fun e => (e, s.pkg.xlate v.iss.core v.cast.partition v.waiter e.va (memKind op.instr).writes false)).filter (fun y => decide (y.2 = .walk)) = [] := hwalk h2
    rw [hw]
    have hd : laneTrap .access (((op.elems.map fun e => (e, s.pkg.xlate v.iss.core v.cast.partition v.waiter e.va (memKind op.instr).writes false)).filter fun y => decide (y.2 = .access) || (isHostVa y.1.va && !(memKind op.instr).hostOk)).map (fun y => y.1.la)) = none := n2 h3
    rw [hd, show (memKind op.instr).ownCause = some c from hc, show Machine.unowned (memKind op.instr) v.cast op.lanes = _ from hun c hc]
    simp only [Option.getD_some]
    rw [ht]
    simp
  · intro h1 hd2 h2 h3 h4
    have hplace : ∀ j, j < 128 → v.active j = true → ∃ a, x j = .dev a ∧ place j = some a := by
      intro j hj ha
      have this : place j ≠ none := h2 j hj ha
      have hx : place j = (match x j with | .dev a => some a | _ => none) := rfl
      rw [hx] at this ⊢
      cases hq : x j with
      | dev a => exact ⟨a, rfl, rfl⟩
      | _ => rw [hq] at this; simp at this
    have hw2 : NoLane v fun j => x j = .walk := by
      intro j h1 h2 h3; obtain ⟨a, e, _⟩ := hplace j h1 h2; rw [e] at h3; simp at h3
    obtain ⟨p, u, hs1, hs2, hs3⟩ := hgo _ rfl h2 h4
    refine ⟨p, u, ?_, hs1⟩
    refine performs_done (f := fun _ => u) (he s) hs (hFg (v.lanes.filterMap (fun j => (DevicePlace s v (memKind i).writes (addr v j)).map fun a => { elemOf (addr v) (data v) (cmp v) j with place := a })) ?_) hs2 hs3 rfl rfl rfl
    rw [hmc, show laneTrap .misalign (misaligned (memKind op.instr) op.lanes) = none from n1 h1]
    dsimp only
    have hw : (op.elems.map fun e => (e, s.pkg.xlate v.iss.core v.cast.partition v.waiter e.va (memKind op.instr).writes false)).filter (fun y => decide (y.2 = .walk)) = [] := hwalk hw2
    rw [hw]
    have hd : laneTrap .access (((op.elems.map fun e => (e, s.pkg.xlate v.iss.core v.cast.partition v.waiter e.va (memKind op.instr).writes false)).filter fun y => decide (y.2 = .access) || (isHostVa y.1.va && !(memKind op.instr).hostOk)).map (fun y => y.1.la)) = none := n2 hd2
    rw [hd]
    have hu : laneTrap ((memKind op.instr).ownCause.getD .ownership) (Machine.unowned (memKind op.instr) v.cast op.lanes) = none := by
      show laneTrap ((memKind i).ownCause.getD .ownership) (Machine.unowned (memKind i) v.cast op.lanes) = none
      cases hc : (memKind i).ownCause with
      | none => rw [hun0 hc]; rfl
      | some c =>
        rw [hun c hc]
        refine lane_none v _ (addr v) P3 fun j q1 q2 q3 => ?_
        rcases h3 with h3 | h3
        · rw [hc] at h3; simp at h3
        · exact h3 j q1 q2 ((hP3 j).1 q3)
    rw [hu]
    simp only [List.isEmpty_nil, Bool.not_true, Bool.false_eq_true, if_false, Option.none_or]
    congr 1
    · rw [hop, List.map_map]
      rw [List.filterMap_map]
      apply List.filterMap_congr
      intro j hj
      have hj' := (mem_lanes v j).1 hj
      obtain ⟨a, e1, e2⟩ := hplace j hj'.1 hj'.2
      have e2 : DevicePlace s v (memKind i).writes (addr v j) = some a := e2
      have e1 : s.pkg.xlate v.iss.core v.cast.partition v.waiter (elemOf (addr v) (data v) (cmp v) j).va (memKind op.instr).writes false = .dev a := e1
      simp only [Function.comp, e1, e2, Option.map_some]
    · rw [List.filterMap_eq_nil_iff]
      intro y hy
      rw [hop, List.map_map, List.mem_map] at hy
      obtain ⟨j, hj, rfl⟩ := hy
      have hj' := (mem_lanes v j).1 hj
      obtain ⟨a, e1, e2⟩ := hplace j hj'.1 hj'.2
      have e1 : s.pkg.xlate v.iss.core v.cast.partition v.waiter (elemOf (addr v) (data v) (cmp v) j).va (memKind op.instr).writes false = .dev a := e1
      simp only [Function.comp, e1]
    · rw [List.map_eq_nil_iff, List.filter_eq_nil_iff]
      intro y hy
      rw [hop, List.map_map, List.mem_map] at hy
      obtain ⟨j, hj, rfl⟩ := hy
      have hj' := (mem_lanes v j).1 hj
      obtain ⟨a, e1, e2⟩ := hplace j hj'.1 hj'.2
      have e1 : s.pkg.xlate v.iss.core v.cast.partition v.waiter (elemOf (addr v) (data v) (cmp v) j).va (memKind op.instr).writes false = .dev a := e1
      simp [Function.comp, e1]

theorem keys_mem {α : Type} (f : α → Nat) : ∀ (l : List α) (acc : List Nat), (∀ x ∈ l, f x ∈ l.foldl (fun ks x => if ks.contains (f x) then ks else ks ++ [f x]) acc)
    ∧ (∀ k ∈ acc, k ∈ l.foldl (fun ks x => if ks.contains (f x) then ks else ks ++ [f x]) acc)
    ∧ (∀ k ∈ l.foldl (fun ks x => if ks.contains (f x) then ks else ks ++ [f x]) acc, k ∈ acc ∨ ∃ x ∈ l, f x = k) := by
  intro l
  induction l with
  | nil => intro acc; exact ⟨by simp, by simp, fun k hk => .inl hk⟩
  | cons y l ih =>
    intro acc
    rw [List.foldl_cons]
    have hy : f y ∈ (if acc.contains (f y) then acc else acc ++ [f y]) := by
      split
      · next h => exact List.contains_iff_mem.1 h
      · simp
    have hsub : ∀ k ∈ acc, k ∈ (if acc.contains (f y) then acc else acc ++ [f y]) := by intro k hk; split <;> simp [hk]
    have hback : ∀ k ∈ (if acc.contains (f y) then acc else acc ++ [f y]), k ∈ acc ∨ k = f y := by
      intro k hk; split at hk
      · exact .inl hk
      · simpa using hk
    obtain ⟨a, b, c⟩ := ih (if acc.contains (f y) then acc else acc ++ [f y])
    refine ⟨?_, fun k hk => b _ (hsub k hk), ?_⟩
    · intro x hx
      rcases List.mem_cons.1 hx with rfl | hx
      · exact b _ hy
      · exact a x hx
    · intro k hk
      rcases c k hk with h | ⟨x, hx, h⟩
      · rcases hback k h with h | h
        · exact .inl h
        · exact .inr ⟨y, by simp, h.symm⟩
      · exact .inr ⟨x, by simp [hx], h⟩

theorem groupBy_cover {α : Type} (f : α → Nat) (l : List α) (x : α) (h : x ∈ l) : ∃ g ∈ groupBy f l, x ∈ g ∧ ∀ y ∈ g, f y = f x := by
  unfold groupBy
  refine ⟨l.filter fun y => f y = f x, List.mem_map.2 ⟨f x, (keys_mem f l []).1 x h, rfl⟩, by simp [h], ?_⟩
  intro y hy; simpa using (List.mem_filter.1 hy).2

theorem groupBy_back {α : Type} (f : α → Nat) (l : List α) (g : List α) (h : g ∈ groupBy f l) : ∃ x ∈ l, x ∈ g ∧ ∀ y ∈ g, f y = f x ∧ y ∈ l := by
  unfold groupBy at h
  obtain ⟨k, hk, rfl⟩ := List.mem_map.1 h
  rcases (keys_mem f l []).2.2 k hk with h | ⟨x, hx, rfl⟩
  · simp at h
  · refine ⟨x, hx, by simp [hx], fun y hy => ?_⟩
    obtain ⟨h1, h2⟩ := List.mem_filter.1 hy
    exact ⟨by simpa using h2, h1⟩

theorem gang_cover (l : List Elem) (x : Elem) (h : x ∈ l) (hl : x.lane < 128) : ∃ g ∈ byGangLine l, x ∈ g ∧ ∀ y ∈ g, y.place / 128 = x.place / 128 := by
  unfold byGangLine
  obtain ⟨g, h1, h2, h3⟩ := groupBy_cover (fun e : Elem => e.place / 128) (l.filter fun e => e.lane / 32 = x.lane / 32) x (by simp [h])
  exact ⟨g, List.mem_flatMap.2 ⟨x.lane / 32, List.mem_range.2 (by omega), h1⟩, h2, h3⟩

theorem gang_back (l : List Elem) (g : List Elem) (h : g ∈ byGangLine l) : ∃ x ∈ l, x ∈ g ∧ ∀ y ∈ g, y.place / 128 = x.place / 128 ∧ y ∈ l := by
  unfold byGangLine at h
  obtain ⟨n, _, h⟩ := List.mem_flatMap.1 h
  obtain ⟨x, h1, h2, h3⟩ := groupBy_back _ _ _ h
  exact ⟨x, (List.mem_filter.1 h1).1, h2, fun y hy => ⟨(h3 y hy).1, (List.mem_filter.1 (h3 y hy).2).1⟩⟩

theorem line_of (g : List Elem) (x : Elem) (h : x ∈ g) (hs : ∀ y ∈ g, y.place / 128 = x.place / 128) : lineOfGroup g = x.place / 128 := by
  unfold lineOfGroup
  cases g with
  | nil => simp at h
  | cons y g => exact hs y (by simp)

/-- The lanes that translate, as elements. -/
def devElems (v : View) (place : Nat → Option Nat) (addr : Nat → Quad) (data cmp : Nat → List Byte) : List Elem :=
  v.lanes.filterMap fun j => (place j).map fun a => { elemOf addr data cmp j with place := a }

theorem mem_dev (v : View) (place : Nat → Option Nat) (addr : Nat → Quad) (data cmp : Nat → List Byte) (e : Elem) :
    e ∈ devElems v place addr data cmp ↔ ∃ j a, j < 128 ∧ v.active j = true ∧ place j = some a ∧ e = { lane := j, va := addr j, place := a, data := data j, cmp := cmp j } := by
  unfold devElems
  rw [List.mem_filterMap]
  constructor
  · rintro ⟨j, hj, h⟩
    have := (mem_lanes v j).1 hj
    cases hp : place j with
    | none => rw [hp] at h; simp at h
    | some a => rw [hp] at h; simp at h; exact ⟨j, a, this.1, this.2, hp, h.symm⟩
  · rintro ⟨j, a, h1, h2, h3, rfl⟩
    exact ⟨j, (mem_lanes v j).2 ⟨h1, h2⟩, by rw [h3]; rfl⟩

/-- The requests of a kind cover its lanes: each names the line of a lane, and each lane is in one. -/
structure Covers (v : View) (k : MemKind) (place : Nat → Option Nat) (addr : Nat → Quad) (data cmp : Nat → List Byte) (carries : Nat → Nat → ReqBody → Prop) : Prop where
  cover : ∀ j a, j < 128 → v.active j = true → place j = some a → ∃ x ∈ devRequests k (devElems v place addr data cmp), x.1 = a / 128 ∧ carries j a x.2
  back : ∀ x ∈ devRequests k (devElems v place addr data cmp), ∃ j a, j < 128 ∧ v.active j = true ∧ place j = some a ∧ x.1 = a / 128

/-- From groups of one line each. -/
theorem covers_of (v : View) (k : MemKind) (place : Nat → Option Nat) (addr : Nat → Quad) (data cmp : Nat → List Byte) (carries : Nat → Nat → ReqBody → Prop)
    (G : List (List Elem)) (body : List Elem → ReqBody) (hk : devRequests k (devElems v place addr data cmp) = G.map fun g => (lineOfGroup g, body g))
    (hc : ∀ e, e ∈ devElems v place addr data cmp → ∃ g ∈ G, e ∈ g ∧ ∀ y ∈ g, y.place / 128 = e.place / 128)
    (hb : ∀ g ∈ G, ∃ e, e ∈ devElems v place addr data cmp ∧ e ∈ g ∧ ∀ y ∈ g, y.place / 128 = e.place / 128)
    (hcar : ∀ g ∈ G, ∀ j a, ({ lane := j, va := addr j, place := a, data := data j, cmp := cmp j } : Elem) ∈ g → carries j a (body g)) :
    Covers v k place addr data cmp carries := by
  constructor
  · intro j a h1 h2 h3
    obtain ⟨g, hg, he, hs⟩ := hc _ ((mem_dev v place addr data cmp _).2 ⟨j, a, h1, h2, h3, rfl⟩)
    refine ⟨(lineOfGroup g, body g), by rw [hk]; exact List.mem_map.2 ⟨g, hg, rfl⟩, line_of g _ he hs, hcar g hg j a he⟩
  · intro x hx
    rw [hk] at hx
    obtain ⟨g, hg, rfl⟩ := List.mem_map.1 hx
    obtain ⟨e, he, he2, hs⟩ := hb g hg
    obtain ⟨j, a, h1, h2, h3, rfl⟩ := (mem_dev v place addr data cmp e).1 he
    exact ⟨j, a, h1, h2, h3, line_of g _ he2 hs⟩

theorem dev_lane (v : View) (place : Nat → Option Nat) (addr : Nat → Quad) (data cmp : Nat → List Byte) (e : Elem) (h : e ∈ devElems v place addr data cmp) : e.lane < 128 := by
  obtain ⟨j, a, h1, _, _, rfl⟩ := (mem_dev v place addr data cmp e).1 h; exact h1

theorem gang_covers (v : View) (k : MemKind) (place : Nat → Option Nat) (addr : Nat → Quad) (data cmp : Nat → List Byte) (carries : Nat → Nat → ReqBody → Prop)
    (body : List Elem → ReqBody) (hk : ∀ l, devRequests k l = (byGangLine l).map fun g => (lineOfGroup g, body g))
    (hcar : ∀ (g : List Elem) j a, ({ lane := j, va := addr j, place := a, data := data j, cmp := cmp j } : Elem) ∈ g → carries j a (body g)) :
    Covers v k place addr data cmp carries :=
  covers_of v k place addr data cmp carries _ body (hk _) (fun e he => gang_cover _ e he (dev_lane v place addr data cmp e he))
    (fun g hg => by obtain ⟨x, h1, h2, h3⟩ := gang_back _ g hg; exact ⟨x, h1, h2, fun y hy => (h3 y hy).1⟩) fun g _ => hcar g

theorem line_covers (v : View) (k : MemKind) (place : Nat → Option Nat) (addr : Nat → Quad) (data cmp : Nat → List Byte) (carries : Nat → Nat → ReqBody → Prop)
    (body : List Elem → ReqBody) (hk : ∀ l, devRequests k l = (groupBy (fun e => e.place / 128) l).map fun g => (lineOfGroup g, body g))
    (hcar : ∀ (g : List Elem) j a, ({ lane := j, va := addr j, place := a, data := data j, cmp := cmp j } : Elem) ∈ g → carries j a (body g)) :
    Covers v k place addr data cmp carries :=
  covers_of v k place addr data cmp carries _ body (hk _) (fun e he => groupBy_cover _ _ e he)
    (fun g hg => by obtain ⟨x, h1, h2, h3⟩ := groupBy_back _ _ g hg; exact ⟨x, h1, h2, fun y hy => (h3 y hy).1⟩) fun g _ => hcar g

theorem place_covers (v : View) (k : MemKind) (place : Nat → Option Nat) (addr : Nat → Quad) (data cmp : Nat → List Byte) (carries : Nat → Nat → ReqBody → Prop)
    (body : List Elem → ReqBody) (hk : ∀ l, devRequests k l = (groupBy Elem.place l).map fun g => (lineOfGroup g, body g))
    (hcar : ∀ (g : List Elem) j a, ({ lane := j, va := addr j, place := a, data := data j, cmp := cmp j } : Elem) ∈ g → (∀ y ∈ g, y.place = a) → carries j a (body g)) :
    Covers v k place addr data cmp carries := by
  constructor
  · intro j a h1 h2 h3
    obtain ⟨g, hg, he, hs⟩ := groupBy_cover Elem.place _ _ ((mem_dev v place addr data cmp _).2 ⟨j, a, h1, h2, h3, rfl⟩)
    refine ⟨(lineOfGroup g, body g), by rw [hk]; exact List.mem_map.2 ⟨g, hg, rfl⟩, line_of g _ he (fun y hy => by rw [hs y hy]), hcar g j a he hs⟩
  · intro x hx
    rw [hk] at hx
    obtain ⟨g, hg, rfl⟩ := List.mem_map.1 hx
    obtain ⟨e, he, he2, hs⟩ := groupBy_back _ _ g hg
    obtain ⟨j, a, h1, h2, h3, rfl⟩ := (mem_dev v place addr data cmp e).1 he
    exact ⟨j, a, h1, h2, h3, line_of g _ he2 (fun y hy => by rw [(hs y hy).1])⟩

theorem all_covers (v : View) (k : MemKind) (place : Nat → Option Nat) (addr : Nat → Quad) (data cmp : Nat → List Byte) (carries : Nat → Nat → ReqBody → Prop)
    (body : List Elem → ReqBody) (hk : ∀ l, devRequests k l = if l.isEmpty then [] else [(lineOfGroup l, body l)])
    (hone : ∀ j k a b, j < 128 → k < 128 → v.active j = true → v.active k = true → place j = some a → place k = some b → a / 128 = b / 128)
    (hcar : ∀ (g : List Elem) j a, ({ lane := j, va := addr j, place := a, data := data j, cmp := cmp j } : Elem) ∈ g → carries j a (body g)) :
    Covers v k place addr data cmp carries := by
  have hsame : ∀ e, e ∈ devElems v place addr data cmp → ∀ y ∈ devElems v place addr data cmp, y.place / 128 = e.place / 128 := by
    intro e he y hy
    obtain ⟨j, a, h1, h2, h3, rfl⟩ := (mem_dev v place addr data cmp e).1 he
    obtain ⟨j', a', h1', h2', h3', rfl⟩ := (mem_dev v place addr data cmp y).1 hy
    exact hone _ _ _ _ h1' h1 h2' h2 h3' h3
  refine covers_of v k place addr data cmp carries (if (devElems v place addr data cmp).isEmpty then [] else [devElems v place addr data cmp]) body ?_ ?_ ?_ fun g _ => hcar g
  · rw [hk]; split <;> rfl
  · intro e he
    have : (devElems v place addr data cmp).isEmpty = false := by rw [Bool.eq_false_iff]; intro h; rw [List.isEmpty_iff] at h; rw [h] at he; simp at he
    rw [this]
    exact ⟨_, by simp, he, hsame e he⟩
  · intro g hg
    split at hg
    · simp at hg
    · next h =>
      have : g = devElems v place addr data cmp := by simpa using hg
      subst this
      cases hq : devElems v place addr data cmp with
      | nil => rw [hq] at h; simp at h
      | cons e l => exact ⟨e, by simp, by simp, fun y hy => by rw [← hq] at hy; exact hsame e (by rw [hq]; simp) y hy⟩

/-- A memory word whose kind never reads the first-level cache. -/
theorem mem_word (s : State) (v : View) (i : Instr) (k : MemKind) (hki : memKind i = k) (addr : View → Nat → Quad) (data cmp : View → Nat → List Byte) (hint : k.hint = false) (hs : Issues s v i)
    (he : ∀ s, exec i s = s.word i (memF i addr data cmp)) (carries : Nat → Nat → ReqBody → Prop) (cf rf : Bool)
    (hcov : (k.oneLine = true → ∀ j l a b, j < 128 → l < 128 → v.active j = true → v.active l = true → DevicePlace s v k.writes (addr v j) = some a → DevicePlace s v k.writes (addr v l) = some b → a / 128 = b / 128) →
      Covers v k (fun j => DevicePlace s v k.writes (addr v j)) (addr v) (data v) (cmp v) carries)
    (hpl : ∀ l, ∀ x ∈ devRequests k l, x.2.counted = cf ∧ x.2.returns = rf ∧ ∀ (c : Core) (n : Nat), c.l1Load n x.2 = none)
    (hnf : ∀ j a b, carries j a b → carries j a b.noFill) (hrf : k.dest = none ∨ rf = true) :
    MemWord s v i k.size k.writes k.hostOk k.oneLine k.ownCause (addr v) (fun _ => False) carries cf k.dest fun _ _ _ => none := by
  subst hki
  refine mem_checks s v i addr data cmp hint hs he (fun _ => False) carries cf (fun _ _ _ => none) ?_
  intro dev hdev _ hone
  have hC := hcov hone
  have hd : dev = devElems v (fun j => DevicePlace s v (memKind i).writes (addr v j)) (addr v) (data v) (cmp v) := hdev
  rw [hd]
  refine perform_mem s v (view_spec hs.1).2.1 { instr := i, lanes := v.lanes.map (fun j => { lane := j, addr := addr v j }), data := v.lanes.map (data v), cmp := v.lanes.map (cmp v) } _ cf rf (fun _ => False) ?_ ?_ ?_ _ carries hnf hC.cover hC.back _ ?_ hrf
  · intro x hx; have := hpl _ x hx; exact ⟨this.1, this.2.1, .inr (.inr this.2.2)⟩
  · right; intro x hx; exact (hpl _ x hx).2.2
  · intro x hx; simp [(hpl _ x hx).2.2]
  · intro r j hr hj
    have : (devRequests (memKind i) (devElems v (fun j => DevicePlace s v (memKind i).writes (addr v j)) (addr v) (data v) (cmp v))).flatMap (fun x => ((s.pkg.core v.iss.core).l1Load x.1 x.2).getD []) = [] := by
      rw [List.flatMap_eq_nil_iff]; intro x hx; rw [(hpl _ x hx).2.2]; rfl
    show (v.now.setElems ((devRequests (memKind i) (devElems v (fun j => DevicePlace s v (memKind i).writes (addr v j)) (addr v) (data v) (cmp v))).flatMap (fun x => ((s.pkg.core v.iss.core).l1Load x.1 x.2).getD []))).v r j = _
    rw [this]; rfl

theorem size_if (t : BitVec 2) : (if t = 1 then 8 else if t = 2 then 16 else 4) = atomSize t.toNat := by
  have : t = 0 ∨ t = 1 ∨ t = 2 ∨ t = 3 := by
    rcases t with ⟨⟨n, hn⟩⟩
    have : n = 0 ∨ n = 1 ∨ n = 2 ∨ n = 3 := by omega
    rcases this with rfl | rfl | rfl | rfl <;> simp
  rcases this with rfl | rfl | rfl | rfl <;> rfl

end Sys2Proof
end

