-- ==== Sys2Proof/Laws/State.lean ====
section
/-! SUPPORT. What each update of the state leaves alone: one lemma for each update and field. -/

namespace Sys2Proof.Machine

/-! `Wave.setV`. -/

@[simp] theorem Wave.setV_waveId (w : Wave) (r : Nat) (act : LaneMask) (f : Nat → Word) : (w.setV r act f).waveId = w.waveId := rfl
@[simp] theorem Wave.setV_cast (w : Wave) (r : Nat) (act : LaneMask) (f : Nat → Word) : (w.setV r act f).cast = w.cast := rfl
@[simp] theorem Wave.setV_role (w : Wave) (r : Nat) (act : LaneMask) (f : Nat → Word) : (w.setV r act f).role = w.role := rfl
@[simp] theorem Wave.setV_regbase (w : Wave) (r : Nat) (act : LaneMask) (f : Nat → Word) : (w.setV r act f).regbase = w.regbase := rfl
@[simp] theorem Wave.setV_sregs (w : Wave) (r : Nat) (act : LaneMask) (f : Nat → Word) : (w.setV r act f).sregs = w.sregs := rfl
@[simp] theorem Wave.setV_preds (w : Wave) (r : Nat) (act : LaneMask) (f : Nat → Word) : (w.setV r act f).preds = w.preds := rfl
@[simp] theorem Wave.setV_slices (w : Wave) (r : Nat) (act : LaneMask) (f : Nat → Word) : (w.setV r act f).slices = w.slices := rfl
@[simp] theorem Wave.setV_turn (w : Wave) (r : Nat) (act : LaneMask) (f : Nat → Word) : (w.setV r act f).turn = w.turn := rfl
@[simp] theorem Wave.setV_tiles (w : Wave) (r : Nat) (act : LaneMask) (f : Nat → Word) : (w.setV r act f).tiles = w.tiles := rfl
@[simp] theorem Wave.setV_promo (w : Wave) (r : Nat) (act : LaneMask) (f : Nat → Word) : (w.setV r act f).promo = w.promo := rfl
@[simp] theorem Wave.setV_fpflags (w : Wave) (r : Nat) (act : LaneMask) (f : Nat → Word) : (w.setV r act f).fpflags = w.fpflags := rfl
@[simp] theorem Wave.setV_waitlimit (w : Wave) (r : Nat) (act : LaneMask) (f : Nat → Word) : (w.setV r act f).waitlimit = w.waitlimit := rfl
@[simp] theorem Wave.setV_limit (w : Wave) (r : Nat) (act : LaneMask) (f : Nat → Word) : (w.setV r act f).limit = w.limit := rfl
@[simp] theorem Wave.setV_countRead (w : Wave) (r : Nat) (act : LaneMask) (f : Nat → Word) : (w.setV r act f).countRead = w.countRead := rfl
@[simp] theorem Wave.setV_epc (w : Wave) (r : Nat) (act : LaneMask) (f : Nat → Word) : (w.setV r act f).epc = w.epc := rfl
@[simp] theorem Wave.setV_trapcause (w : Wave) (r : Nat) (act : LaneMask) (f : Nat → Word) : (w.setV r act f).trapcause = w.trapcause := rfl
@[simp] theorem Wave.setV_trapaddr (w : Wave) (r : Nat) (act : LaneMask) (f : Nat → Word) : (w.setV r act f).trapaddr = w.trapaddr := rfl
@[simp] theorem Wave.setV_traplanes (w : Wave) (r : Nat) (act : LaneMask) (f : Nat → Word) : (w.setV r act f).traplanes = w.traplanes := rfl
@[simp] theorem Wave.setV_park (w : Wave) (r : Nat) (act : LaneMask) (f : Nat → Word) : (w.setV r act f).park = w.park := rfl
@[simp] theorem Wave.setV_outst (w : Wave) (r : Nat) (act : LaneMask) (f : Nat → Word) : (w.setV r act f).outst = w.outst := rfl
@[simp] theorem Wave.setV_outl (w : Wave) (r : Nat) (act : LaneMask) (f : Nat → Word) : (w.setV r act f).outl = w.outl := rfl
@[simp] theorem Wave.setV_outstMore (w : Wave) (r : Nat) (act : LaneMask) (f : Nat → Word) : (w.setV r act f).outstMore = w.outstMore := rfl
@[simp] theorem Wave.setV_settling (w : Wave) (r : Nat) (act : LaneMask) (f : Nat → Word) : (w.setV r act f).settling = w.settling := rfl
@[simp] theorem Wave.setV_hostOut (w : Wave) (r : Nat) (act : LaneMask) (f : Nat → Word) : (w.setV r act f).hostOut = w.hostOut := rfl
@[simp] theorem Wave.setV_fence (w : Wave) (r : Nat) (act : LaneMask) (f : Nat → Word) : (w.setV r act f).fence = w.fence := rfl
@[simp] theorem Wave.setV_nextCopy (w : Wave) (r : Nat) (act : LaneMask) (f : Nat → Word) : (w.setV r act f).nextCopy = w.nextCopy := rfl
@[simp] theorem Wave.setV_held (w : Wave) (r : Nat) (act : LaneMask) (f : Nat → Word) : (w.setV r act f).held = w.held := rfl
@[simp] theorem Wave.setV_syncwait (w : Wave) (r : Nat) (act : LaneMask) (f : Nat → Word) : (w.setV r act f).syncwait = w.syncwait := rfl
@[simp] theorem Wave.setV_joinNext (w : Wave) (r : Nat) (act : LaneMask) (f : Nat → Word) : (w.setV r act f).joinNext = w.joinNext := rfl
@[simp] theorem Wave.setV_arrivedAt (w : Wave) (r : Nat) (act : LaneMask) (f : Nat → Word) : (w.setV r act f).arrivedAt = w.arrivedAt := rfl
@[simp] theorem Wave.setV_due (w : Wave) (r : Nat) (act : LaneMask) (f : Nat → Word) : (w.setV r act f).due = w.due := rfl
@[simp] theorem Wave.setV_pending (w : Wave) (r : Nat) (act : LaneMask) (f : Nat → Word) : (w.setV r act f).pending = w.pending := rfl
@[simp] theorem Wave.setV_nextId (w : Wave) (r : Nat) (act : LaneMask) (f : Nat → Word) : (w.setV r act f).nextId = w.nextId := rfl
@[simp] theorem Wave.setV_commands (w : Wave) (r : Nat) (act : LaneMask) (f : Nat → Word) : (w.setV r act f).commands = w.commands := rfl
@[simp] theorem Wave.setV_promoted (w : Wave) (r : Nat) (act : LaneMask) (f : Nat → Word) : (w.setV r act f).promoted = w.promoted := rfl
@[simp] theorem Wave.setV_starve (w : Wave) (r : Nat) (act : LaneMask) (f : Nat → Word) : (w.setV r act f).starve = w.starve := rfl
@[simp] theorem Wave.setV_promoHeld (w : Wave) (r : Nat) (act : LaneMask) (f : Nat → Word) : (w.setV r act f).promoHeld = w.promoHeld := rfl
@[simp] theorem Wave.setV_readySince (w : Wave) (r : Nat) (act : LaneMask) (f : Nat → Word) : (w.setV r act f).readySince = w.readySince := rfl
@[simp] theorem Wave.setV_startAt (w : Wave) (r : Nat) (act : LaneMask) (f : Nat → Word) : (w.setV r act f).startAt = w.startAt := rfl

/-! `Wave.setPair`. -/

@[simp] theorem Wave.setPair_waveId (w : Wave) (r : Nat) (act : LaneMask) (f : Nat → Quad) : (w.setPair r act f).waveId = w.waveId := rfl
@[simp] theorem Wave.setPair_cast (w : Wave) (r : Nat) (act : LaneMask) (f : Nat → Quad) : (w.setPair r act f).cast = w.cast := rfl
@[simp] theorem Wave.setPair_role (w : Wave) (r : Nat) (act : LaneMask) (f : Nat → Quad) : (w.setPair r act f).role = w.role := rfl
@[simp] theorem Wave.setPair_regbase (w : Wave) (r : Nat) (act : LaneMask) (f : Nat → Quad) : (w.setPair r act f).regbase = w.regbase := rfl
@[simp] theorem Wave.setPair_sregs (w : Wave) (r : Nat) (act : LaneMask) (f : Nat → Quad) : (w.setPair r act f).sregs = w.sregs := rfl
@[simp] theorem Wave.setPair_preds (w : Wave) (r : Nat) (act : LaneMask) (f : Nat → Quad) : (w.setPair r act f).preds = w.preds := rfl
@[simp] theorem Wave.setPair_slices (w : Wave) (r : Nat) (act : LaneMask) (f : Nat → Quad) : (w.setPair r act f).slices = w.slices := rfl
@[simp] theorem Wave.setPair_turn (w : Wave) (r : Nat) (act : LaneMask) (f : Nat → Quad) : (w.setPair r act f).turn = w.turn := rfl
@[simp] theorem Wave.setPair_tiles (w : Wave) (r : Nat) (act : LaneMask) (f : Nat → Quad) : (w.setPair r act f).tiles = w.tiles := rfl
@[simp] theorem Wave.setPair_promo (w : Wave) (r : Nat) (act : LaneMask) (f : Nat → Quad) : (w.setPair r act f).promo = w.promo := rfl
@[simp] theorem Wave.setPair_fpflags (w : Wave) (r : Nat) (act : LaneMask) (f : Nat → Quad) : (w.setPair r act f).fpflags = w.fpflags := rfl
@[simp] theorem Wave.setPair_waitlimit (w : Wave) (r : Nat) (act : LaneMask) (f : Nat → Quad) : (w.setPair r act f).waitlimit = w.waitlimit := rfl
@[simp] theorem Wave.setPair_limit (w : Wave) (r : Nat) (act : LaneMask) (f : Nat → Quad) : (w.setPair r act f).limit = w.limit := rfl
@[simp] theorem Wave.setPair_countRead (w : Wave) (r : Nat) (act : LaneMask) (f : Nat → Quad) : (w.setPair r act f).countRead = w.countRead := rfl
@[simp] theorem Wave.setPair_epc (w : Wave) (r : Nat) (act : LaneMask) (f : Nat → Quad) : (w.setPair r act f).epc = w.epc := rfl
@[simp] theorem Wave.setPair_trapcause (w : Wave) (r : Nat) (act : LaneMask) (f : Nat → Quad) : (w.setPair r act f).trapcause = w.trapcause := rfl
@[simp] theorem Wave.setPair_trapaddr (w : Wave) (r : Nat) (act : LaneMask) (f : Nat → Quad) : (w.setPair r act f).trapaddr = w.trapaddr := rfl
@[simp] theorem Wave.setPair_traplanes (w : Wave) (r : Nat) (act : LaneMask) (f : Nat → Quad) : (w.setPair r act f).traplanes = w.traplanes := rfl
@[simp] theorem Wave.setPair_park (w : Wave) (r : Nat) (act : LaneMask) (f : Nat → Quad) : (w.setPair r act f).park = w.park := rfl
@[simp] theorem Wave.setPair_outst (w : Wave) (r : Nat) (act : LaneMask) (f : Nat → Quad) : (w.setPair r act f).outst = w.outst := rfl
@[simp] theorem Wave.setPair_outl (w : Wave) (r : Nat) (act : LaneMask) (f : Nat → Quad) : (w.setPair r act f).outl = w.outl := rfl
@[simp] theorem Wave.setPair_outstMore (w : Wave) (r : Nat) (act : LaneMask) (f : Nat → Quad) : (w.setPair r act f).outstMore = w.outstMore := rfl
@[simp] theorem Wave.setPair_settling (w : Wave) (r : Nat) (act : LaneMask) (f : Nat → Quad) : (w.setPair r act f).settling = w.settling := rfl
@[simp] theorem Wave.setPair_hostOut (w : Wave) (r : Nat) (act : LaneMask) (f : Nat → Quad) : (w.setPair r act f).hostOut = w.hostOut := rfl
@[simp] theorem Wave.setPair_fence (w : Wave) (r : Nat) (act : LaneMask) (f : Nat → Quad) : (w.setPair r act f).fence = w.fence := rfl
@[simp] theorem Wave.setPair_nextCopy (w : Wave) (r : Nat) (act : LaneMask) (f : Nat → Quad) : (w.setPair r act f).nextCopy = w.nextCopy := rfl
@[simp] theorem Wave.setPair_held (w : Wave) (r : Nat) (act : LaneMask) (f : Nat → Quad) : (w.setPair r act f).held = w.held := rfl
@[simp] theorem Wave.setPair_syncwait (w : Wave) (r : Nat) (act : LaneMask) (f : Nat → Quad) : (w.setPair r act f).syncwait = w.syncwait := rfl
@[simp] theorem Wave.setPair_joinNext (w : Wave) (r : Nat) (act : LaneMask) (f : Nat → Quad) : (w.setPair r act f).joinNext = w.joinNext := rfl
@[simp] theorem Wave.setPair_arrivedAt (w : Wave) (r : Nat) (act : LaneMask) (f : Nat → Quad) : (w.setPair r act f).arrivedAt = w.arrivedAt := rfl
@[simp] theorem Wave.setPair_due (w : Wave) (r : Nat) (act : LaneMask) (f : Nat → Quad) : (w.setPair r act f).due = w.due := rfl
@[simp] theorem Wave.setPair_pending (w : Wave) (r : Nat) (act : LaneMask) (f : Nat → Quad) : (w.setPair r act f).pending = w.pending := rfl
@[simp] theorem Wave.setPair_nextId (w : Wave) (r : Nat) (act : LaneMask) (f : Nat → Quad) : (w.setPair r act f).nextId = w.nextId := rfl
@[simp] theorem Wave.setPair_commands (w : Wave) (r : Nat) (act : LaneMask) (f : Nat → Quad) : (w.setPair r act f).commands = w.commands := rfl
@[simp] theorem Wave.setPair_promoted (w : Wave) (r : Nat) (act : LaneMask) (f : Nat → Quad) : (w.setPair r act f).promoted = w.promoted := rfl
@[simp] theorem Wave.setPair_starve (w : Wave) (r : Nat) (act : LaneMask) (f : Nat → Quad) : (w.setPair r act f).starve = w.starve := rfl
@[simp] theorem Wave.setPair_promoHeld (w : Wave) (r : Nat) (act : LaneMask) (f : Nat → Quad) : (w.setPair r act f).promoHeld = w.promoHeld := rfl
@[simp] theorem Wave.setPair_readySince (w : Wave) (r : Nat) (act : LaneMask) (f : Nat → Quad) : (w.setPair r act f).readySince = w.readySince := rfl
@[simp] theorem Wave.setPair_startAt (w : Wave) (r : Nat) (act : LaneMask) (f : Nat → Quad) : (w.setPair r act f).startAt = w.startAt := rfl

/-! `Wave.setS`. -/

@[simp] theorem Wave.setS_waveId (w : Wave) (n : Nat) (x : Quad) : (w.setS n x).waveId = w.waveId := rfl
@[simp] theorem Wave.setS_cast (w : Wave) (n : Nat) (x : Quad) : (w.setS n x).cast = w.cast := rfl
@[simp] theorem Wave.setS_role (w : Wave) (n : Nat) (x : Quad) : (w.setS n x).role = w.role := rfl
@[simp] theorem Wave.setS_regbase (w : Wave) (n : Nat) (x : Quad) : (w.setS n x).regbase = w.regbase := rfl
@[simp] theorem Wave.setS_vregs (w : Wave) (n : Nat) (x : Quad) : (w.setS n x).vregs = w.vregs := rfl
@[simp] theorem Wave.setS_preds (w : Wave) (n : Nat) (x : Quad) : (w.setS n x).preds = w.preds := rfl
@[simp] theorem Wave.setS_slices (w : Wave) (n : Nat) (x : Quad) : (w.setS n x).slices = w.slices := rfl
@[simp] theorem Wave.setS_turn (w : Wave) (n : Nat) (x : Quad) : (w.setS n x).turn = w.turn := rfl
@[simp] theorem Wave.setS_tiles (w : Wave) (n : Nat) (x : Quad) : (w.setS n x).tiles = w.tiles := rfl
@[simp] theorem Wave.setS_promo (w : Wave) (n : Nat) (x : Quad) : (w.setS n x).promo = w.promo := rfl
@[simp] theorem Wave.setS_fpflags (w : Wave) (n : Nat) (x : Quad) : (w.setS n x).fpflags = w.fpflags := rfl
@[simp] theorem Wave.setS_waitlimit (w : Wave) (n : Nat) (x : Quad) : (w.setS n x).waitlimit = w.waitlimit := rfl
@[simp] theorem Wave.setS_limit (w : Wave) (n : Nat) (x : Quad) : (w.setS n x).limit = w.limit := rfl
@[simp] theorem Wave.setS_countRead (w : Wave) (n : Nat) (x : Quad) : (w.setS n x).countRead = w.countRead := rfl
@[simp] theorem Wave.setS_epc (w : Wave) (n : Nat) (x : Quad) : (w.setS n x).epc = w.epc := rfl
@[simp] theorem Wave.setS_trapcause (w : Wave) (n : Nat) (x : Quad) : (w.setS n x).trapcause = w.trapcause := rfl
@[simp] theorem Wave.setS_trapaddr (w : Wave) (n : Nat) (x : Quad) : (w.setS n x).trapaddr = w.trapaddr := rfl
@[simp] theorem Wave.setS_traplanes (w : Wave) (n : Nat) (x : Quad) : (w.setS n x).traplanes = w.traplanes := rfl
@[simp] theorem Wave.setS_park (w : Wave) (n : Nat) (x : Quad) : (w.setS n x).park = w.park := rfl
@[simp] theorem Wave.setS_outst (w : Wave) (n : Nat) (x : Quad) : (w.setS n x).outst = w.outst := rfl
@[simp] theorem Wave.setS_outl (w : Wave) (n : Nat) (x : Quad) : (w.setS n x).outl = w.outl := rfl
@[simp] theorem Wave.setS_outstMore (w : Wave) (n : Nat) (x : Quad) : (w.setS n x).outstMore = w.outstMore := rfl
@[simp] theorem Wave.setS_settling (w : Wave) (n : Nat) (x : Quad) : (w.setS n x).settling = w.settling := rfl
@[simp] theorem Wave.setS_hostOut (w : Wave) (n : Nat) (x : Quad) : (w.setS n x).hostOut = w.hostOut := rfl
@[simp] theorem Wave.setS_fence (w : Wave) (n : Nat) (x : Quad) : (w.setS n x).fence = w.fence := rfl
@[simp] theorem Wave.setS_nextCopy (w : Wave) (n : Nat) (x : Quad) : (w.setS n x).nextCopy = w.nextCopy := rfl
@[simp] theorem Wave.setS_held (w : Wave) (n : Nat) (x : Quad) : (w.setS n x).held = w.held := rfl
@[simp] theorem Wave.setS_syncwait (w : Wave) (n : Nat) (x : Quad) : (w.setS n x).syncwait = w.syncwait := rfl
@[simp] theorem Wave.setS_joinNext (w : Wave) (n : Nat) (x : Quad) : (w.setS n x).joinNext = w.joinNext := rfl
@[simp] theorem Wave.setS_arrivedAt (w : Wave) (n : Nat) (x : Quad) : (w.setS n x).arrivedAt = w.arrivedAt := rfl
@[simp] theorem Wave.setS_due (w : Wave) (n : Nat) (x : Quad) : (w.setS n x).due = w.due := rfl
@[simp] theorem Wave.setS_pending (w : Wave) (n : Nat) (x : Quad) : (w.setS n x).pending = w.pending := rfl
@[simp] theorem Wave.setS_nextId (w : Wave) (n : Nat) (x : Quad) : (w.setS n x).nextId = w.nextId := rfl
@[simp] theorem Wave.setS_commands (w : Wave) (n : Nat) (x : Quad) : (w.setS n x).commands = w.commands := rfl
@[simp] theorem Wave.setS_promoted (w : Wave) (n : Nat) (x : Quad) : (w.setS n x).promoted = w.promoted := rfl
@[simp] theorem Wave.setS_starve (w : Wave) (n : Nat) (x : Quad) : (w.setS n x).starve = w.starve := rfl
@[simp] theorem Wave.setS_promoHeld (w : Wave) (n : Nat) (x : Quad) : (w.setS n x).promoHeld = w.promoHeld := rfl
@[simp] theorem Wave.setS_readySince (w : Wave) (n : Nat) (x : Quad) : (w.setS n x).readySince = w.readySince := rfl
@[simp] theorem Wave.setS_startAt (w : Wave) (n : Nat) (x : Quad) : (w.setS n x).startAt = w.startAt := rfl

/-! `Wave.setP`. -/

@[simp] theorem Wave.setP_waveId (w : Wave) (n : Nat) (act x : LaneMask) : (w.setP n act x).waveId = w.waveId := by unfold Wave.setP; split <;> rfl
@[simp] theorem Wave.setP_cast (w : Wave) (n : Nat) (act x : LaneMask) : (w.setP n act x).cast = w.cast := by unfold Wave.setP; split <;> rfl
@[simp] theorem Wave.setP_role (w : Wave) (n : Nat) (act x : LaneMask) : (w.setP n act x).role = w.role := by unfold Wave.setP; split <;> rfl
@[simp] theorem Wave.setP_regbase (w : Wave) (n : Nat) (act x : LaneMask) : (w.setP n act x).regbase = w.regbase := by unfold Wave.setP; split <;> rfl
@[simp] theorem Wave.setP_sregs (w : Wave) (n : Nat) (act x : LaneMask) : (w.setP n act x).sregs = w.sregs := by unfold Wave.setP; split <;> rfl
@[simp] theorem Wave.setP_vregs (w : Wave) (n : Nat) (act x : LaneMask) : (w.setP n act x).vregs = w.vregs := by unfold Wave.setP; split <;> rfl
@[simp] theorem Wave.setP_slices (w : Wave) (n : Nat) (act x : LaneMask) : (w.setP n act x).slices = w.slices := by unfold Wave.setP; split <;> rfl
@[simp] theorem Wave.setP_turn (w : Wave) (n : Nat) (act x : LaneMask) : (w.setP n act x).turn = w.turn := by unfold Wave.setP; split <;> rfl
@[simp] theorem Wave.setP_tiles (w : Wave) (n : Nat) (act x : LaneMask) : (w.setP n act x).tiles = w.tiles := by unfold Wave.setP; split <;> rfl
@[simp] theorem Wave.setP_promo (w : Wave) (n : Nat) (act x : LaneMask) : (w.setP n act x).promo = w.promo := by unfold Wave.setP; split <;> rfl
@[simp] theorem Wave.setP_fpflags (w : Wave) (n : Nat) (act x : LaneMask) : (w.setP n act x).fpflags = w.fpflags := by unfold Wave.setP; split <;> rfl
@[simp] theorem Wave.setP_waitlimit (w : Wave) (n : Nat) (act x : LaneMask) : (w.setP n act x).waitlimit = w.waitlimit := by unfold Wave.setP; split <;> rfl
@[simp] theorem Wave.setP_limit (w : Wave) (n : Nat) (act x : LaneMask) : (w.setP n act x).limit = w.limit := by unfold Wave.setP; split <;> rfl
@[simp] theorem Wave.setP_countRead (w : Wave) (n : Nat) (act x : LaneMask) : (w.setP n act x).countRead = w.countRead := by unfold Wave.setP; split <;> rfl
@[simp] theorem Wave.setP_epc (w : Wave) (n : Nat) (act x : LaneMask) : (w.setP n act x).epc = w.epc := by unfold Wave.setP; split <;> rfl
@[simp] theorem Wave.setP_trapcause (w : Wave) (n : Nat) (act x : LaneMask) : (w.setP n act x).trapcause = w.trapcause := by unfold Wave.setP; split <;> rfl
@[simp] theorem Wave.setP_trapaddr (w : Wave) (n : Nat) (act x : LaneMask) : (w.setP n act x).trapaddr = w.trapaddr := by unfold Wave.setP; split <;> rfl
@[simp] theorem Wave.setP_traplanes (w : Wave) (n : Nat) (act x : LaneMask) : (w.setP n act x).traplanes = w.traplanes := by unfold Wave.setP; split <;> rfl
@[simp] theorem Wave.setP_park (w : Wave) (n : Nat) (act x : LaneMask) : (w.setP n act x).park = w.park := by unfold Wave.setP; split <;> rfl
@[simp] theorem Wave.setP_outst (w : Wave) (n : Nat) (act x : LaneMask) : (w.setP n act x).outst = w.outst := by unfold Wave.setP; split <;> rfl
@[simp] theorem Wave.setP_outl (w : Wave) (n : Nat) (act x : LaneMask) : (w.setP n act x).outl = w.outl := by unfold Wave.setP; split <;> rfl
@[simp] theorem Wave.setP_outstMore (w : Wave) (n : Nat) (act x : LaneMask) : (w.setP n act x).outstMore = w.outstMore := by unfold Wave.setP; split <;> rfl
@[simp] theorem Wave.setP_settling (w : Wave) (n : Nat) (act x : LaneMask) : (w.setP n act x).settling = w.settling := by unfold Wave.setP; split <;> rfl
@[simp] theorem Wave.setP_hostOut (w : Wave) (n : Nat) (act x : LaneMask) : (w.setP n act x).hostOut = w.hostOut := by unfold Wave.setP; split <;> rfl
@[simp] theorem Wave.setP_fence (w : Wave) (n : Nat) (act x : LaneMask) : (w.setP n act x).fence = w.fence := by unfold Wave.setP; split <;> rfl
@[simp] theorem Wave.setP_nextCopy (w : Wave) (n : Nat) (act x : LaneMask) : (w.setP n act x).nextCopy = w.nextCopy := by unfold Wave.setP; split <;> rfl
@[simp] theorem Wave.setP_held (w : Wave) (n : Nat) (act x : LaneMask) : (w.setP n act x).held = w.held := by unfold Wave.setP; split <;> rfl
@[simp] theorem Wave.setP_syncwait (w : Wave) (n : Nat) (act x : LaneMask) : (w.setP n act x).syncwait = w.syncwait := by unfold Wave.setP; split <;> rfl
@[simp] theorem Wave.setP_joinNext (w : Wave) (n : Nat) (act x : LaneMask) : (w.setP n act x).joinNext = w.joinNext := by unfold Wave.setP; split <;> rfl
@[simp] theorem Wave.setP_arrivedAt (w : Wave) (n : Nat) (act x : LaneMask) : (w.setP n act x).arrivedAt = w.arrivedAt := by unfold Wave.setP; split <;> rfl
@[simp] theorem Wave.setP_due (w : Wave) (n : Nat) (act x : LaneMask) : (w.setP n act x).due = w.due := by unfold Wave.setP; split <;> rfl
@[simp] theorem Wave.setP_pending (w : Wave) (n : Nat) (act x : LaneMask) : (w.setP n act x).pending = w.pending := by unfold Wave.setP; split <;> rfl
@[simp] theorem Wave.setP_nextId (w : Wave) (n : Nat) (act x : LaneMask) : (w.setP n act x).nextId = w.nextId := by unfold Wave.setP; split <;> rfl
@[simp] theorem Wave.setP_commands (w : Wave) (n : Nat) (act x : LaneMask) : (w.setP n act x).commands = w.commands := by unfold Wave.setP; split <;> rfl
@[simp] theorem Wave.setP_promoted (w : Wave) (n : Nat) (act x : LaneMask) : (w.setP n act x).promoted = w.promoted := by unfold Wave.setP; split <;> rfl
@[simp] theorem Wave.setP_starve (w : Wave) (n : Nat) (act x : LaneMask) : (w.setP n act x).starve = w.starve := by unfold Wave.setP; split <;> rfl
@[simp] theorem Wave.setP_promoHeld (w : Wave) (n : Nat) (act x : LaneMask) : (w.setP n act x).promoHeld = w.promoHeld := by unfold Wave.setP; split <;> rfl
@[simp] theorem Wave.setP_readySince (w : Wave) (n : Nat) (act x : LaneMask) : (w.setP n act x).readySince = w.readySince := by unfold Wave.setP; split <;> rfl
@[simp] theorem Wave.setP_startAt (w : Wave) (n : Nat) (act x : LaneMask) : (w.setP n act x).startAt = w.startAt := by unfold Wave.setP; split <;> rfl

/-! `Wave.modSlice`. -/

@[simp] theorem Wave.modSlice_waveId (w : Wave) (k : Nat) (f : Slice → Slice) : (w.modSlice k f).waveId = w.waveId := rfl
@[simp] theorem Wave.modSlice_cast (w : Wave) (k : Nat) (f : Slice → Slice) : (w.modSlice k f).cast = w.cast := rfl
@[simp] theorem Wave.modSlice_role (w : Wave) (k : Nat) (f : Slice → Slice) : (w.modSlice k f).role = w.role := rfl
@[simp] theorem Wave.modSlice_regbase (w : Wave) (k : Nat) (f : Slice → Slice) : (w.modSlice k f).regbase = w.regbase := rfl
@[simp] theorem Wave.modSlice_sregs (w : Wave) (k : Nat) (f : Slice → Slice) : (w.modSlice k f).sregs = w.sregs := rfl
@[simp] theorem Wave.modSlice_vregs (w : Wave) (k : Nat) (f : Slice → Slice) : (w.modSlice k f).vregs = w.vregs := rfl
@[simp] theorem Wave.modSlice_preds (w : Wave) (k : Nat) (f : Slice → Slice) : (w.modSlice k f).preds = w.preds := rfl
@[simp] theorem Wave.modSlice_turn (w : Wave) (k : Nat) (f : Slice → Slice) : (w.modSlice k f).turn = w.turn := rfl
@[simp] theorem Wave.modSlice_tiles (w : Wave) (k : Nat) (f : Slice → Slice) : (w.modSlice k f).tiles = w.tiles := rfl
@[simp] theorem Wave.modSlice_promo (w : Wave) (k : Nat) (f : Slice → Slice) : (w.modSlice k f).promo = w.promo := rfl
@[simp] theorem Wave.modSlice_fpflags (w : Wave) (k : Nat) (f : Slice → Slice) : (w.modSlice k f).fpflags = w.fpflags := rfl
@[simp] theorem Wave.modSlice_waitlimit (w : Wave) (k : Nat) (f : Slice → Slice) : (w.modSlice k f).waitlimit = w.waitlimit := rfl
@[simp] theorem Wave.modSlice_limit (w : Wave) (k : Nat) (f : Slice → Slice) : (w.modSlice k f).limit = w.limit := rfl
@[simp] theorem Wave.modSlice_countRead (w : Wave) (k : Nat) (f : Slice → Slice) : (w.modSlice k f).countRead = w.countRead := rfl
@[simp] theorem Wave.modSlice_epc (w : Wave) (k : Nat) (f : Slice → Slice) : (w.modSlice k f).epc = w.epc := rfl
@[simp] theorem Wave.modSlice_trapcause (w : Wave) (k : Nat) (f : Slice → Slice) : (w.modSlice k f).trapcause = w.trapcause := rfl
@[simp] theorem Wave.modSlice_trapaddr (w : Wave) (k : Nat) (f : Slice → Slice) : (w.modSlice k f).trapaddr = w.trapaddr := rfl
@[simp] theorem Wave.modSlice_traplanes (w : Wave) (k : Nat) (f : Slice → Slice) : (w.modSlice k f).traplanes = w.traplanes := rfl
@[simp] theorem Wave.modSlice_park (w : Wave) (k : Nat) (f : Slice → Slice) : (w.modSlice k f).park = w.park := rfl
@[simp] theorem Wave.modSlice_outst (w : Wave) (k : Nat) (f : Slice → Slice) : (w.modSlice k f).outst = w.outst := rfl
@[simp] theorem Wave.modSlice_outl (w : Wave) (k : Nat) (f : Slice → Slice) : (w.modSlice k f).outl = w.outl := rfl
@[simp] theorem Wave.modSlice_outstMore (w : Wave) (k : Nat) (f : Slice → Slice) : (w.modSlice k f).outstMore = w.outstMore := rfl
@[simp] theorem Wave.modSlice_settling (w : Wave) (k : Nat) (f : Slice → Slice) : (w.modSlice k f).settling = w.settling := rfl
@[simp] theorem Wave.modSlice_hostOut (w : Wave) (k : Nat) (f : Slice → Slice) : (w.modSlice k f).hostOut = w.hostOut := rfl
@[simp] theorem Wave.modSlice_fence (w : Wave) (k : Nat) (f : Slice → Slice) : (w.modSlice k f).fence = w.fence := rfl
@[simp] theorem Wave.modSlice_nextCopy (w : Wave) (k : Nat) (f : Slice → Slice) : (w.modSlice k f).nextCopy = w.nextCopy := rfl
@[simp] theorem Wave.modSlice_held (w : Wave) (k : Nat) (f : Slice → Slice) : (w.modSlice k f).held = w.held := rfl
@[simp] theorem Wave.modSlice_syncwait (w : Wave) (k : Nat) (f : Slice → Slice) : (w.modSlice k f).syncwait = w.syncwait := rfl
@[simp] theorem Wave.modSlice_joinNext (w : Wave) (k : Nat) (f : Slice → Slice) : (w.modSlice k f).joinNext = w.joinNext := rfl
@[simp] theorem Wave.modSlice_arrivedAt (w : Wave) (k : Nat) (f : Slice → Slice) : (w.modSlice k f).arrivedAt = w.arrivedAt := rfl
@[simp] theorem Wave.modSlice_due (w : Wave) (k : Nat) (f : Slice → Slice) : (w.modSlice k f).due = w.due := rfl
@[simp] theorem Wave.modSlice_pending (w : Wave) (k : Nat) (f : Slice → Slice) : (w.modSlice k f).pending = w.pending := rfl
@[simp] theorem Wave.modSlice_nextId (w : Wave) (k : Nat) (f : Slice → Slice) : (w.modSlice k f).nextId = w.nextId := rfl
@[simp] theorem Wave.modSlice_commands (w : Wave) (k : Nat) (f : Slice → Slice) : (w.modSlice k f).commands = w.commands := rfl
@[simp] theorem Wave.modSlice_promoted (w : Wave) (k : Nat) (f : Slice → Slice) : (w.modSlice k f).promoted = w.promoted := rfl
@[simp] theorem Wave.modSlice_starve (w : Wave) (k : Nat) (f : Slice → Slice) : (w.modSlice k f).starve = w.starve := rfl
@[simp] theorem Wave.modSlice_promoHeld (w : Wave) (k : Nat) (f : Slice → Slice) : (w.modSlice k f).promoHeld = w.promoHeld := rfl
@[simp] theorem Wave.modSlice_readySince (w : Wave) (k : Nat) (f : Slice → Slice) : (w.modSlice k f).readySince = w.readySince := rfl
@[simp] theorem Wave.modSlice_startAt (w : Wave) (k : Nat) (f : Slice → Slice) : (w.modSlice k f).startAt = w.startAt := rfl

/-! `Wave.modSlices`. -/

@[simp] theorem Wave.modSlices_waveId (w : Wave) (ks : List Nat) (f : Nat → Slice → Slice) : (w.modSlices ks f).waveId = w.waveId := rfl
@[simp] theorem Wave.modSlices_cast (w : Wave) (ks : List Nat) (f : Nat → Slice → Slice) : (w.modSlices ks f).cast = w.cast := rfl
@[simp] theorem Wave.modSlices_role (w : Wave) (ks : List Nat) (f : Nat → Slice → Slice) : (w.modSlices ks f).role = w.role := rfl
@[simp] theorem Wave.modSlices_regbase (w : Wave) (ks : List Nat) (f : Nat → Slice → Slice) : (w.modSlices ks f).regbase = w.regbase := rfl
@[simp] theorem Wave.modSlices_sregs (w : Wave) (ks : List Nat) (f : Nat → Slice → Slice) : (w.modSlices ks f).sregs = w.sregs := rfl
@[simp] theorem Wave.modSlices_vregs (w : Wave) (ks : List Nat) (f : Nat → Slice → Slice) : (w.modSlices ks f).vregs = w.vregs := rfl
@[simp] theorem Wave.modSlices_preds (w : Wave) (ks : List Nat) (f : Nat → Slice → Slice) : (w.modSlices ks f).preds = w.preds := rfl
@[simp] theorem Wave.modSlices_turn (w : Wave) (ks : List Nat) (f : Nat → Slice → Slice) : (w.modSlices ks f).turn = w.turn := rfl
@[simp] theorem Wave.modSlices_tiles (w : Wave) (ks : List Nat) (f : Nat → Slice → Slice) : (w.modSlices ks f).tiles = w.tiles := rfl
@[simp] theorem Wave.modSlices_promo (w : Wave) (ks : List Nat) (f : Nat → Slice → Slice) : (w.modSlices ks f).promo = w.promo := rfl
@[simp] theorem Wave.modSlices_fpflags (w : Wave) (ks : List Nat) (f : Nat → Slice → Slice) : (w.modSlices ks f).fpflags = w.fpflags := rfl
@[simp] theorem Wave.modSlices_waitlimit (w : Wave) (ks : List Nat) (f : Nat → Slice → Slice) : (w.modSlices ks f).waitlimit = w.waitlimit := rfl
@[simp] theorem Wave.modSlices_limit (w : Wave) (ks : List Nat) (f : Nat → Slice → Slice) : (w.modSlices ks f).limit = w.limit := rfl
@[simp] theorem Wave.modSlices_countRead (w : Wave) (ks : List Nat) (f : Nat → Slice → Slice) : (w.modSlices ks f).countRead = w.countRead := rfl
@[simp] theorem Wave.modSlices_epc (w : Wave) (ks : List Nat) (f : Nat → Slice → Slice) : (w.modSlices ks f).epc = w.epc := rfl
@[simp] theorem Wave.modSlices_trapcause (w : Wave) (ks : List Nat) (f : Nat → Slice → Slice) : (w.modSlices ks f).trapcause = w.trapcause := rfl
@[simp] theorem Wave.modSlices_trapaddr (w : Wave) (ks : List Nat) (f : Nat → Slice → Slice) : (w.modSlices ks f).trapaddr = w.trapaddr := rfl
@[simp] theorem Wave.modSlices_traplanes (w : Wave) (ks : List Nat) (f : Nat → Slice → Slice) : (w.modSlices ks f).traplanes = w.traplanes := rfl
@[simp] theorem Wave.modSlices_park (w : Wave) (ks : List Nat) (f : Nat → Slice → Slice) : (w.modSlices ks f).park = w.park := rfl
@[simp] theorem Wave.modSlices_outst (w : Wave) (ks : List Nat) (f : Nat → Slice → Slice) : (w.modSlices ks f).outst = w.outst := rfl
@[simp] theorem Wave.modSlices_outl (w : Wave) (ks : List Nat) (f : Nat → Slice → Slice) : (w.modSlices ks f).outl = w.outl := rfl
@[simp] theorem Wave.modSlices_outstMore (w : Wave) (ks : List Nat) (f : Nat → Slice → Slice) : (w.modSlices ks f).outstMore = w.outstMore := rfl
@[simp] theorem Wave.modSlices_settling (w : Wave) (ks : List Nat) (f : Nat → Slice → Slice) : (w.modSlices ks f).settling = w.settling := rfl
@[simp] theorem Wave.modSlices_hostOut (w : Wave) (ks : List Nat) (f : Nat → Slice → Slice) : (w.modSlices ks f).hostOut = w.hostOut := rfl
@[simp] theorem Wave.modSlices_fence (w : Wave) (ks : List Nat) (f : Nat → Slice → Slice) : (w.modSlices ks f).fence = w.fence := rfl
@[simp] theorem Wave.modSlices_nextCopy (w : Wave) (ks : List Nat) (f : Nat → Slice → Slice) : (w.modSlices ks f).nextCopy = w.nextCopy := rfl
@[simp] theorem Wave.modSlices_held (w : Wave) (ks : List Nat) (f : Nat → Slice → Slice) : (w.modSlices ks f).held = w.held := rfl
@[simp] theorem Wave.modSlices_syncwait (w : Wave) (ks : List Nat) (f : Nat → Slice → Slice) : (w.modSlices ks f).syncwait = w.syncwait := rfl
@[simp] theorem Wave.modSlices_joinNext (w : Wave) (ks : List Nat) (f : Nat → Slice → Slice) : (w.modSlices ks f).joinNext = w.joinNext := rfl
@[simp] theorem Wave.modSlices_arrivedAt (w : Wave) (ks : List Nat) (f : Nat → Slice → Slice) : (w.modSlices ks f).arrivedAt = w.arrivedAt := rfl
@[simp] theorem Wave.modSlices_due (w : Wave) (ks : List Nat) (f : Nat → Slice → Slice) : (w.modSlices ks f).due = w.due := rfl
@[simp] theorem Wave.modSlices_pending (w : Wave) (ks : List Nat) (f : Nat → Slice → Slice) : (w.modSlices ks f).pending = w.pending := rfl
@[simp] theorem Wave.modSlices_nextId (w : Wave) (ks : List Nat) (f : Nat → Slice → Slice) : (w.modSlices ks f).nextId = w.nextId := rfl
@[simp] theorem Wave.modSlices_commands (w : Wave) (ks : List Nat) (f : Nat → Slice → Slice) : (w.modSlices ks f).commands = w.commands := rfl
@[simp] theorem Wave.modSlices_promoted (w : Wave) (ks : List Nat) (f : Nat → Slice → Slice) : (w.modSlices ks f).promoted = w.promoted := rfl
@[simp] theorem Wave.modSlices_starve (w : Wave) (ks : List Nat) (f : Nat → Slice → Slice) : (w.modSlices ks f).starve = w.starve := rfl
@[simp] theorem Wave.modSlices_promoHeld (w : Wave) (ks : List Nat) (f : Nat → Slice → Slice) : (w.modSlices ks f).promoHeld = w.promoHeld := rfl
@[simp] theorem Wave.modSlices_readySince (w : Wave) (ks : List Nat) (f : Nat → Slice → Slice) : (w.modSlices ks f).readySince = w.readySince := rfl
@[simp] theorem Wave.modSlices_startAt (w : Wave) (ks : List Nat) (f : Nat → Slice → Slice) : (w.modSlices ks f).startAt = w.startAt := rfl

/-! `Wave.clearLatches`. -/

@[simp] theorem Wave.clearLatches_waveId (w : Wave)  : (w.clearLatches).waveId = w.waveId := rfl
@[simp] theorem Wave.clearLatches_cast (w : Wave)  : (w.clearLatches).cast = w.cast := rfl
@[simp] theorem Wave.clearLatches_role (w : Wave)  : (w.clearLatches).role = w.role := rfl
@[simp] theorem Wave.clearLatches_regbase (w : Wave)  : (w.clearLatches).regbase = w.regbase := rfl
@[simp] theorem Wave.clearLatches_sregs (w : Wave)  : (w.clearLatches).sregs = w.sregs := rfl
@[simp] theorem Wave.clearLatches_vregs (w : Wave)  : (w.clearLatches).vregs = w.vregs := rfl
@[simp] theorem Wave.clearLatches_preds (w : Wave)  : (w.clearLatches).preds = w.preds := rfl
@[simp] theorem Wave.clearLatches_turn (w : Wave)  : (w.clearLatches).turn = w.turn := rfl
@[simp] theorem Wave.clearLatches_tiles (w : Wave)  : (w.clearLatches).tiles = w.tiles := rfl
@[simp] theorem Wave.clearLatches_promo (w : Wave)  : (w.clearLatches).promo = w.promo := rfl
@[simp] theorem Wave.clearLatches_fpflags (w : Wave)  : (w.clearLatches).fpflags = w.fpflags := rfl
@[simp] theorem Wave.clearLatches_waitlimit (w : Wave)  : (w.clearLatches).waitlimit = w.waitlimit := rfl
@[simp] theorem Wave.clearLatches_limit (w : Wave)  : (w.clearLatches).limit = w.limit := rfl
@[simp] theorem Wave.clearLatches_countRead (w : Wave)  : (w.clearLatches).countRead = w.countRead := rfl
@[simp] theorem Wave.clearLatches_epc (w : Wave)  : (w.clearLatches).epc = w.epc := rfl
@[simp] theorem Wave.clearLatches_trapcause (w : Wave)  : (w.clearLatches).trapcause = w.trapcause := rfl
@[simp] theorem Wave.clearLatches_trapaddr (w : Wave)  : (w.clearLatches).trapaddr = w.trapaddr := rfl
@[simp] theorem Wave.clearLatches_traplanes (w : Wave)  : (w.clearLatches).traplanes = w.traplanes := rfl
@[simp] theorem Wave.clearLatches_park (w : Wave)  : (w.clearLatches).park = w.park := rfl
@[simp] theorem Wave.clearLatches_outst (w : Wave)  : (w.clearLatches).outst = w.outst := rfl
@[simp] theorem Wave.clearLatches_outl (w : Wave)  : (w.clearLatches).outl = w.outl := rfl
@[simp] theorem Wave.clearLatches_outstMore (w : Wave)  : (w.clearLatches).outstMore = w.outstMore := rfl
@[simp] theorem Wave.clearLatches_settling (w : Wave)  : (w.clearLatches).settling = w.settling := rfl
@[simp] theorem Wave.clearLatches_hostOut (w : Wave)  : (w.clearLatches).hostOut = w.hostOut := rfl
@[simp] theorem Wave.clearLatches_fence (w : Wave)  : (w.clearLatches).fence = w.fence := rfl
@[simp] theorem Wave.clearLatches_nextCopy (w : Wave)  : (w.clearLatches).nextCopy = w.nextCopy := rfl
@[simp] theorem Wave.clearLatches_held (w : Wave)  : (w.clearLatches).held = w.held := rfl
@[simp] theorem Wave.clearLatches_syncwait (w : Wave)  : (w.clearLatches).syncwait = w.syncwait := rfl
@[simp] theorem Wave.clearLatches_joinNext (w : Wave)  : (w.clearLatches).joinNext = w.joinNext := rfl
@[simp] theorem Wave.clearLatches_arrivedAt (w : Wave)  : (w.clearLatches).arrivedAt = w.arrivedAt := rfl
@[simp] theorem Wave.clearLatches_due (w : Wave)  : (w.clearLatches).due = w.due := rfl
@[simp] theorem Wave.clearLatches_pending (w : Wave)  : (w.clearLatches).pending = w.pending := rfl
@[simp] theorem Wave.clearLatches_nextId (w : Wave)  : (w.clearLatches).nextId = w.nextId := rfl
@[simp] theorem Wave.clearLatches_commands (w : Wave)  : (w.clearLatches).commands = w.commands := rfl
@[simp] theorem Wave.clearLatches_promoted (w : Wave)  : (w.clearLatches).promoted = w.promoted := rfl
@[simp] theorem Wave.clearLatches_starve (w : Wave)  : (w.clearLatches).starve = w.starve := rfl
@[simp] theorem Wave.clearLatches_promoHeld (w : Wave)  : (w.clearLatches).promoHeld = w.promoHeld := rfl
@[simp] theorem Wave.clearLatches_readySince (w : Wave)  : (w.clearLatches).readySince = w.readySince := rfl
@[simp] theorem Wave.clearLatches_startAt (w : Wave)  : (w.clearLatches).startAt = w.startAt := rfl

/-! `Package.modCore`. -/

@[simp] theorem Package.modCore_straps (p : Package) (c : Nat) (f : Core → Core) : (p.modCore c f).straps = p.straps := rfl
@[simp] theorem Package.modCore_stages (p : Package) (c : Nat) (f : Core → Core) : (p.modCore c f).stages = p.stages := rfl
@[simp] theorem Package.modCore_companies (p : Package) (c : Nat) (f : Core → Core) : (p.modCore c f).companies = p.companies := rfl
@[simp] theorem Package.modCore_stage (p : Package) (c : Nat) (f : Core → Core) : (p.modCore c f).stage = p.stage := rfl
@[simp] theorem Package.modCore_vaults (p : Package) (c : Nat) (f : Core → Core) : (p.modCore c f).vaults = p.vaults := rfl
@[simp] theorem Package.modCore_parts (p : Package) (c : Nat) (f : Core → Core) : (p.modCore c f).parts = p.parts := rfl
@[simp] theorem Package.modCore_gates (p : Package) (c : Nat) (f : Core → Core) : (p.modCore c f).gates = p.gates := rfl
@[simp] theorem Package.modCore_ports (p : Package) (c : Nat) (f : Core → Core) : (p.modCore c f).ports = p.ports := rfl
@[simp] theorem Package.modCore_win (p : Package) (c : Nat) (f : Core → Core) : (p.modCore c f).win = p.win := rfl
@[simp] theorem Package.modCore_dram (p : Package) (c : Nat) (f : Core → Core) : (p.modCore c f).dram = p.dram := rfl
@[simp] theorem Package.modCore_dramPoison (p : Package) (c : Nat) (f : Core → Core) : (p.modCore c f).dramPoison = p.dramPoison := rfl
@[simp] theorem Package.modCore_dramErr (p : Package) (c : Nat) (f : Core → Core) : (p.modCore c f).dramErr = p.dramErr := rfl
@[simp] theorem Package.modCore_casts (p : Package) (c : Nat) (f : Core → Core) : (p.modCore c f).casts = p.casts := rfl
@[simp] theorem Package.modCore_nextEntry (p : Package) (c : Nat) (f : Core → Core) : (p.modCore c f).nextEntry = p.nextEntry := rfl
@[simp] theorem Package.modCore_tickets (p : Package) (c : Nat) (f : Core → Core) : (p.modCore c f).tickets = p.tickets := rfl
@[simp] theorem Package.modCore_cueIn (p : Package) (c : Nat) (f : Core → Core) : (p.modCore c f).cueIn = p.cueIn := rfl
@[simp] theorem Package.modCore_cueStaged (p : Package) (c : Nat) (f : Core → Core) : (p.modCore c f).cueStaged = p.cueStaged := rfl
@[simp] theorem Package.modCore_answers (p : Package) (c : Nat) (f : Core → Core) : (p.modCore c f).answers = p.answers := rfl
@[simp] theorem Package.modCore_dcIn (p : Package) (c : Nat) (f : Core → Core) : (p.modCore c f).dcIn = p.dcIn := rfl
@[simp] theorem Package.modCore_dcWaiters (p : Package) (c : Nat) (f : Core → Core) : (p.modCore c f).dcWaiters = p.dcWaiters := rfl
@[simp] theorem Package.modCore_due (p : Package) (c : Nat) (f : Core → Core) : (p.modCore c f).due = p.due := rfl
@[simp] theorem Package.modCore_hostWrites (p : Package) (c : Nat) (f : Core → Core) : (p.modCore c f).hostWrites = p.hostWrites := rfl
@[simp] theorem Package.modCore_faults (p : Package) (c : Nat) (f : Core → Core) : (p.modCore c f).faults = p.faults := rfl
@[simp] theorem Package.modCore_pcie (p : Package) (c : Nat) (f : Core → Core) : (p.modCore c f).pcie = p.pcie := rfl
@[simp] theorem Package.modCore_reads (p : Package) (c : Nat) (f : Core → Core) : (p.modCore c f).reads = p.reads := rfl
@[simp] theorem Package.modCore_readQ (p : Package) (c : Nat) (f : Core → Core) : (p.modCore c f).readQ = p.readQ := rfl
@[simp] theorem Package.modCore_atsInv (p : Package) (c : Nat) (f : Core → Core) : (p.modCore c f).atsInv = p.atsInv := rfl
@[simp] theorem Package.modCore_planeOp (p : Package) (c : Nat) (f : Core → Core) : (p.modCore c f).planeOp = p.planeOp := rfl
@[simp] theorem Package.modCore_sent (p : Package) (c : Nat) (f : Core → Core) : (p.modCore c f).sent = p.sent := rfl
@[simp] theorem Package.modCore_teldrop (p : Package) (c : Nat) (f : Core → Core) : (p.modCore c f).teldrop = p.teldrop := rfl
@[simp] theorem Package.modCore_current (p : Package) (c : Nat) (f : Core → Core) : (p.modCore c f).current = p.current := rfl
@[simp] theorem Package.modCore_errors (p : Package) (c : Nat) (f : Core → Core) : (p.modCore c f).errors = p.errors := rfl
@[simp] theorem Package.modCore_frames (p : Package) (c : Nat) (f : Core → Core) : (p.modCore c f).frames = p.frames := rfl
@[simp] theorem Package.modCore_stopcause (p : Package) (c : Nat) (f : Core → Core) : (p.modCore c f).stopcause = p.stopcause := rfl
@[simp] theorem Package.modCore_stopReq (p : Package) (c : Nat) (f : Core → Core) : (p.modCore c f).stopReq = p.stopReq := rfl

/-! `Package.modCtx`. -/

@[simp] theorem Package.modCtx_straps (p : Package) (c : Nat) (f : CoreCtx → CoreCtx) : (p.modCtx c f).straps = p.straps := rfl
@[simp] theorem Package.modCtx_stages (p : Package) (c : Nat) (f : CoreCtx → CoreCtx) : (p.modCtx c f).stages = p.stages := rfl
@[simp] theorem Package.modCtx_companies (p : Package) (c : Nat) (f : CoreCtx → CoreCtx) : (p.modCtx c f).companies = p.companies := rfl
@[simp] theorem Package.modCtx_stage (p : Package) (c : Nat) (f : CoreCtx → CoreCtx) : (p.modCtx c f).stage = p.stage := rfl
@[simp] theorem Package.modCtx_vaults (p : Package) (c : Nat) (f : CoreCtx → CoreCtx) : (p.modCtx c f).vaults = p.vaults := rfl
@[simp] theorem Package.modCtx_parts (p : Package) (c : Nat) (f : CoreCtx → CoreCtx) : (p.modCtx c f).parts = p.parts := rfl
@[simp] theorem Package.modCtx_gates (p : Package) (c : Nat) (f : CoreCtx → CoreCtx) : (p.modCtx c f).gates = p.gates := rfl
@[simp] theorem Package.modCtx_ports (p : Package) (c : Nat) (f : CoreCtx → CoreCtx) : (p.modCtx c f).ports = p.ports := rfl
@[simp] theorem Package.modCtx_win (p : Package) (c : Nat) (f : CoreCtx → CoreCtx) : (p.modCtx c f).win = p.win := rfl
@[simp] theorem Package.modCtx_dram (p : Package) (c : Nat) (f : CoreCtx → CoreCtx) : (p.modCtx c f).dram = p.dram := rfl
@[simp] theorem Package.modCtx_dramPoison (p : Package) (c : Nat) (f : CoreCtx → CoreCtx) : (p.modCtx c f).dramPoison = p.dramPoison := rfl
@[simp] theorem Package.modCtx_dramErr (p : Package) (c : Nat) (f : CoreCtx → CoreCtx) : (p.modCtx c f).dramErr = p.dramErr := rfl
@[simp] theorem Package.modCtx_casts (p : Package) (c : Nat) (f : CoreCtx → CoreCtx) : (p.modCtx c f).casts = p.casts := rfl
@[simp] theorem Package.modCtx_nextEntry (p : Package) (c : Nat) (f : CoreCtx → CoreCtx) : (p.modCtx c f).nextEntry = p.nextEntry := rfl
@[simp] theorem Package.modCtx_tickets (p : Package) (c : Nat) (f : CoreCtx → CoreCtx) : (p.modCtx c f).tickets = p.tickets := rfl
@[simp] theorem Package.modCtx_cueIn (p : Package) (c : Nat) (f : CoreCtx → CoreCtx) : (p.modCtx c f).cueIn = p.cueIn := rfl
@[simp] theorem Package.modCtx_cueStaged (p : Package) (c : Nat) (f : CoreCtx → CoreCtx) : (p.modCtx c f).cueStaged = p.cueStaged := rfl
@[simp] theorem Package.modCtx_answers (p : Package) (c : Nat) (f : CoreCtx → CoreCtx) : (p.modCtx c f).answers = p.answers := rfl
@[simp] theorem Package.modCtx_dcIn (p : Package) (c : Nat) (f : CoreCtx → CoreCtx) : (p.modCtx c f).dcIn = p.dcIn := rfl
@[simp] theorem Package.modCtx_dcWaiters (p : Package) (c : Nat) (f : CoreCtx → CoreCtx) : (p.modCtx c f).dcWaiters = p.dcWaiters := rfl
@[simp] theorem Package.modCtx_due (p : Package) (c : Nat) (f : CoreCtx → CoreCtx) : (p.modCtx c f).due = p.due := rfl
@[simp] theorem Package.modCtx_hostWrites (p : Package) (c : Nat) (f : CoreCtx → CoreCtx) : (p.modCtx c f).hostWrites = p.hostWrites := rfl
@[simp] theorem Package.modCtx_faults (p : Package) (c : Nat) (f : CoreCtx → CoreCtx) : (p.modCtx c f).faults = p.faults := rfl
@[simp] theorem Package.modCtx_pcie (p : Package) (c : Nat) (f : CoreCtx → CoreCtx) : (p.modCtx c f).pcie = p.pcie := rfl
@[simp] theorem Package.modCtx_reads (p : Package) (c : Nat) (f : CoreCtx → CoreCtx) : (p.modCtx c f).reads = p.reads := rfl
@[simp] theorem Package.modCtx_readQ (p : Package) (c : Nat) (f : CoreCtx → CoreCtx) : (p.modCtx c f).readQ = p.readQ := rfl
@[simp] theorem Package.modCtx_atsInv (p : Package) (c : Nat) (f : CoreCtx → CoreCtx) : (p.modCtx c f).atsInv = p.atsInv := rfl
@[simp] theorem Package.modCtx_planeOp (p : Package) (c : Nat) (f : CoreCtx → CoreCtx) : (p.modCtx c f).planeOp = p.planeOp := rfl
@[simp] theorem Package.modCtx_sent (p : Package) (c : Nat) (f : CoreCtx → CoreCtx) : (p.modCtx c f).sent = p.sent := rfl
@[simp] theorem Package.modCtx_teldrop (p : Package) (c : Nat) (f : CoreCtx → CoreCtx) : (p.modCtx c f).teldrop = p.teldrop := rfl
@[simp] theorem Package.modCtx_current (p : Package) (c : Nat) (f : CoreCtx → CoreCtx) : (p.modCtx c f).current = p.current := rfl
@[simp] theorem Package.modCtx_errors (p : Package) (c : Nat) (f : CoreCtx → CoreCtx) : (p.modCtx c f).errors = p.errors := rfl
@[simp] theorem Package.modCtx_frames (p : Package) (c : Nat) (f : CoreCtx → CoreCtx) : (p.modCtx c f).frames = p.frames := rfl
@[simp] theorem Package.modCtx_stopcause (p : Package) (c : Nat) (f : CoreCtx → CoreCtx) : (p.modCtx c f).stopcause = p.stopcause := rfl
@[simp] theorem Package.modCtx_stopReq (p : Package) (c : Nat) (f : CoreCtx → CoreCtx) : (p.modCtx c f).stopReq = p.stopReq := rfl

/-! `Package.modWave`. -/

@[simp] theorem Package.modWave_straps (p : Package) (c k : Nat) (f : Wave → Wave) : (p.modWave c k f).straps = p.straps := rfl
@[simp] theorem Package.modWave_stages (p : Package) (c k : Nat) (f : Wave → Wave) : (p.modWave c k f).stages = p.stages := rfl
@[simp] theorem Package.modWave_companies (p : Package) (c k : Nat) (f : Wave → Wave) : (p.modWave c k f).companies = p.companies := rfl
@[simp] theorem Package.modWave_stage (p : Package) (c k : Nat) (f : Wave → Wave) : (p.modWave c k f).stage = p.stage := rfl
@[simp] theorem Package.modWave_vaults (p : Package) (c k : Nat) (f : Wave → Wave) : (p.modWave c k f).vaults = p.vaults := rfl
@[simp] theorem Package.modWave_parts (p : Package) (c k : Nat) (f : Wave → Wave) : (p.modWave c k f).parts = p.parts := rfl
@[simp] theorem Package.modWave_gates (p : Package) (c k : Nat) (f : Wave → Wave) : (p.modWave c k f).gates = p.gates := rfl
@[simp] theorem Package.modWave_ports (p : Package) (c k : Nat) (f : Wave → Wave) : (p.modWave c k f).ports = p.ports := rfl
@[simp] theorem Package.modWave_win (p : Package) (c k : Nat) (f : Wave → Wave) : (p.modWave c k f).win = p.win := rfl
@[simp] theorem Package.modWave_dram (p : Package) (c k : Nat) (f : Wave → Wave) : (p.modWave c k f).dram = p.dram := rfl
@[simp] theorem Package.modWave_dramPoison (p : Package) (c k : Nat) (f : Wave → Wave) : (p.modWave c k f).dramPoison = p.dramPoison := rfl
@[simp] theorem Package.modWave_dramErr (p : Package) (c k : Nat) (f : Wave → Wave) : (p.modWave c k f).dramErr = p.dramErr := rfl
@[simp] theorem Package.modWave_casts (p : Package) (c k : Nat) (f : Wave → Wave) : (p.modWave c k f).casts = p.casts := rfl
@[simp] theorem Package.modWave_nextEntry (p : Package) (c k : Nat) (f : Wave → Wave) : (p.modWave c k f).nextEntry = p.nextEntry := rfl
@[simp] theorem Package.modWave_tickets (p : Package) (c k : Nat) (f : Wave → Wave) : (p.modWave c k f).tickets = p.tickets := rfl
@[simp] theorem Package.modWave_cueIn (p : Package) (c k : Nat) (f : Wave → Wave) : (p.modWave c k f).cueIn = p.cueIn := rfl
@[simp] theorem Package.modWave_cueStaged (p : Package) (c k : Nat) (f : Wave → Wave) : (p.modWave c k f).cueStaged = p.cueStaged := rfl
@[simp] theorem Package.modWave_answers (p : Package) (c k : Nat) (f : Wave → Wave) : (p.modWave c k f).answers = p.answers := rfl
@[simp] theorem Package.modWave_dcIn (p : Package) (c k : Nat) (f : Wave → Wave) : (p.modWave c k f).dcIn = p.dcIn := rfl
@[simp] theorem Package.modWave_dcWaiters (p : Package) (c k : Nat) (f : Wave → Wave) : (p.modWave c k f).dcWaiters = p.dcWaiters := rfl
@[simp] theorem Package.modWave_due (p : Package) (c k : Nat) (f : Wave → Wave) : (p.modWave c k f).due = p.due := rfl
@[simp] theorem Package.modWave_hostWrites (p : Package) (c k : Nat) (f : Wave → Wave) : (p.modWave c k f).hostWrites = p.hostWrites := rfl
@[simp] theorem Package.modWave_faults (p : Package) (c k : Nat) (f : Wave → Wave) : (p.modWave c k f).faults = p.faults := rfl
@[simp] theorem Package.modWave_pcie (p : Package) (c k : Nat) (f : Wave → Wave) : (p.modWave c k f).pcie = p.pcie := rfl
@[simp] theorem Package.modWave_reads (p : Package) (c k : Nat) (f : Wave → Wave) : (p.modWave c k f).reads = p.reads := rfl
@[simp] theorem Package.modWave_readQ (p : Package) (c k : Nat) (f : Wave → Wave) : (p.modWave c k f).readQ = p.readQ := rfl
@[simp] theorem Package.modWave_atsInv (p : Package) (c k : Nat) (f : Wave → Wave) : (p.modWave c k f).atsInv = p.atsInv := rfl
@[simp] theorem Package.modWave_planeOp (p : Package) (c k : Nat) (f : Wave → Wave) : (p.modWave c k f).planeOp = p.planeOp := rfl
@[simp] theorem Package.modWave_sent (p : Package) (c k : Nat) (f : Wave → Wave) : (p.modWave c k f).sent = p.sent := rfl
@[simp] theorem Package.modWave_teldrop (p : Package) (c k : Nat) (f : Wave → Wave) : (p.modWave c k f).teldrop = p.teldrop := rfl
@[simp] theorem Package.modWave_current (p : Package) (c k : Nat) (f : Wave → Wave) : (p.modWave c k f).current = p.current := rfl
@[simp] theorem Package.modWave_errors (p : Package) (c k : Nat) (f : Wave → Wave) : (p.modWave c k f).errors = p.errors := rfl
@[simp] theorem Package.modWave_frames (p : Package) (c k : Nat) (f : Wave → Wave) : (p.modWave c k f).frames = p.frames := rfl
@[simp] theorem Package.modWave_stopcause (p : Package) (c k : Nat) (f : Wave → Wave) : (p.modWave c k f).stopcause = p.stopcause := rfl
@[simp] theorem Package.modWave_stopReq (p : Package) (c k : Nat) (f : Wave → Wave) : (p.modWave c k f).stopReq = p.stopReq := rfl

/-! `Package.modCast`. -/

@[simp] theorem Package.modCast_straps (p : Package) (c k : Nat) (f : Cast → Cast) : (p.modCast c k f).straps = p.straps := rfl
@[simp] theorem Package.modCast_stages (p : Package) (c k : Nat) (f : Cast → Cast) : (p.modCast c k f).stages = p.stages := rfl
@[simp] theorem Package.modCast_companies (p : Package) (c k : Nat) (f : Cast → Cast) : (p.modCast c k f).companies = p.companies := rfl
@[simp] theorem Package.modCast_stage (p : Package) (c k : Nat) (f : Cast → Cast) : (p.modCast c k f).stage = p.stage := rfl
@[simp] theorem Package.modCast_vaults (p : Package) (c k : Nat) (f : Cast → Cast) : (p.modCast c k f).vaults = p.vaults := rfl
@[simp] theorem Package.modCast_parts (p : Package) (c k : Nat) (f : Cast → Cast) : (p.modCast c k f).parts = p.parts := rfl
@[simp] theorem Package.modCast_gates (p : Package) (c k : Nat) (f : Cast → Cast) : (p.modCast c k f).gates = p.gates := rfl
@[simp] theorem Package.modCast_ports (p : Package) (c k : Nat) (f : Cast → Cast) : (p.modCast c k f).ports = p.ports := rfl
@[simp] theorem Package.modCast_win (p : Package) (c k : Nat) (f : Cast → Cast) : (p.modCast c k f).win = p.win := rfl
@[simp] theorem Package.modCast_dram (p : Package) (c k : Nat) (f : Cast → Cast) : (p.modCast c k f).dram = p.dram := rfl
@[simp] theorem Package.modCast_dramPoison (p : Package) (c k : Nat) (f : Cast → Cast) : (p.modCast c k f).dramPoison = p.dramPoison := rfl
@[simp] theorem Package.modCast_dramErr (p : Package) (c k : Nat) (f : Cast → Cast) : (p.modCast c k f).dramErr = p.dramErr := rfl
@[simp] theorem Package.modCast_casts (p : Package) (c k : Nat) (f : Cast → Cast) : (p.modCast c k f).casts = p.casts := rfl
@[simp] theorem Package.modCast_nextEntry (p : Package) (c k : Nat) (f : Cast → Cast) : (p.modCast c k f).nextEntry = p.nextEntry := rfl
@[simp] theorem Package.modCast_tickets (p : Package) (c k : Nat) (f : Cast → Cast) : (p.modCast c k f).tickets = p.tickets := rfl
@[simp] theorem Package.modCast_cueIn (p : Package) (c k : Nat) (f : Cast → Cast) : (p.modCast c k f).cueIn = p.cueIn := rfl
@[simp] theorem Package.modCast_cueStaged (p : Package) (c k : Nat) (f : Cast → Cast) : (p.modCast c k f).cueStaged = p.cueStaged := rfl
@[simp] theorem Package.modCast_answers (p : Package) (c k : Nat) (f : Cast → Cast) : (p.modCast c k f).answers = p.answers := rfl
@[simp] theorem Package.modCast_dcIn (p : Package) (c k : Nat) (f : Cast → Cast) : (p.modCast c k f).dcIn = p.dcIn := rfl
@[simp] theorem Package.modCast_dcWaiters (p : Package) (c k : Nat) (f : Cast → Cast) : (p.modCast c k f).dcWaiters = p.dcWaiters := rfl
@[simp] theorem Package.modCast_due (p : Package) (c k : Nat) (f : Cast → Cast) : (p.modCast c k f).due = p.due := rfl
@[simp] theorem Package.modCast_hostWrites (p : Package) (c k : Nat) (f : Cast → Cast) : (p.modCast c k f).hostWrites = p.hostWrites := rfl
@[simp] theorem Package.modCast_faults (p : Package) (c k : Nat) (f : Cast → Cast) : (p.modCast c k f).faults = p.faults := rfl
@[simp] theorem Package.modCast_pcie (p : Package) (c k : Nat) (f : Cast → Cast) : (p.modCast c k f).pcie = p.pcie := rfl
@[simp] theorem Package.modCast_reads (p : Package) (c k : Nat) (f : Cast → Cast) : (p.modCast c k f).reads = p.reads := rfl
@[simp] theorem Package.modCast_readQ (p : Package) (c k : Nat) (f : Cast → Cast) : (p.modCast c k f).readQ = p.readQ := rfl
@[simp] theorem Package.modCast_atsInv (p : Package) (c k : Nat) (f : Cast → Cast) : (p.modCast c k f).atsInv = p.atsInv := rfl
@[simp] theorem Package.modCast_planeOp (p : Package) (c k : Nat) (f : Cast → Cast) : (p.modCast c k f).planeOp = p.planeOp := rfl
@[simp] theorem Package.modCast_sent (p : Package) (c k : Nat) (f : Cast → Cast) : (p.modCast c k f).sent = p.sent := rfl
@[simp] theorem Package.modCast_teldrop (p : Package) (c k : Nat) (f : Cast → Cast) : (p.modCast c k f).teldrop = p.teldrop := rfl
@[simp] theorem Package.modCast_current (p : Package) (c k : Nat) (f : Cast → Cast) : (p.modCast c k f).current = p.current := rfl
@[simp] theorem Package.modCast_errors (p : Package) (c k : Nat) (f : Cast → Cast) : (p.modCast c k f).errors = p.errors := rfl
@[simp] theorem Package.modCast_frames (p : Package) (c k : Nat) (f : Cast → Cast) : (p.modCast c k f).frames = p.frames := rfl
@[simp] theorem Package.modCast_stopcause (p : Package) (c k : Nat) (f : Cast → Cast) : (p.modCast c k f).stopcause = p.stopcause := rfl
@[simp] theorem Package.modCast_stopReq (p : Package) (c k : Nat) (f : Cast → Cast) : (p.modCast c k f).stopReq = p.stopReq := rfl

/-! `Package.modCompany`. -/

@[simp] theorem Package.modCompany_straps (p : Package) (m : Nat) (f : Company → Company) : (p.modCompany m f).straps = p.straps := rfl
@[simp] theorem Package.modCompany_stages (p : Package) (m : Nat) (f : Company → Company) : (p.modCompany m f).stages = p.stages := rfl
@[simp] theorem Package.modCompany_cores (p : Package) (m : Nat) (f : Company → Company) : (p.modCompany m f).cores = p.cores := rfl
@[simp] theorem Package.modCompany_stage (p : Package) (m : Nat) (f : Company → Company) : (p.modCompany m f).stage = p.stage := rfl
@[simp] theorem Package.modCompany_vaults (p : Package) (m : Nat) (f : Company → Company) : (p.modCompany m f).vaults = p.vaults := rfl
@[simp] theorem Package.modCompany_parts (p : Package) (m : Nat) (f : Company → Company) : (p.modCompany m f).parts = p.parts := rfl
@[simp] theorem Package.modCompany_gates (p : Package) (m : Nat) (f : Company → Company) : (p.modCompany m f).gates = p.gates := rfl
@[simp] theorem Package.modCompany_ports (p : Package) (m : Nat) (f : Company → Company) : (p.modCompany m f).ports = p.ports := rfl
@[simp] theorem Package.modCompany_win (p : Package) (m : Nat) (f : Company → Company) : (p.modCompany m f).win = p.win := rfl
@[simp] theorem Package.modCompany_dram (p : Package) (m : Nat) (f : Company → Company) : (p.modCompany m f).dram = p.dram := rfl
@[simp] theorem Package.modCompany_dramPoison (p : Package) (m : Nat) (f : Company → Company) : (p.modCompany m f).dramPoison = p.dramPoison := rfl
@[simp] theorem Package.modCompany_dramErr (p : Package) (m : Nat) (f : Company → Company) : (p.modCompany m f).dramErr = p.dramErr := rfl
@[simp] theorem Package.modCompany_casts (p : Package) (m : Nat) (f : Company → Company) : (p.modCompany m f).casts = p.casts := rfl
@[simp] theorem Package.modCompany_nextEntry (p : Package) (m : Nat) (f : Company → Company) : (p.modCompany m f).nextEntry = p.nextEntry := rfl
@[simp] theorem Package.modCompany_tickets (p : Package) (m : Nat) (f : Company → Company) : (p.modCompany m f).tickets = p.tickets := rfl
@[simp] theorem Package.modCompany_cueIn (p : Package) (m : Nat) (f : Company → Company) : (p.modCompany m f).cueIn = p.cueIn := rfl
@[simp] theorem Package.modCompany_cueStaged (p : Package) (m : Nat) (f : Company → Company) : (p.modCompany m f).cueStaged = p.cueStaged := rfl
@[simp] theorem Package.modCompany_answers (p : Package) (m : Nat) (f : Company → Company) : (p.modCompany m f).answers = p.answers := rfl
@[simp] theorem Package.modCompany_dcIn (p : Package) (m : Nat) (f : Company → Company) : (p.modCompany m f).dcIn = p.dcIn := rfl
@[simp] theorem Package.modCompany_dcWaiters (p : Package) (m : Nat) (f : Company → Company) : (p.modCompany m f).dcWaiters = p.dcWaiters := rfl
@[simp] theorem Package.modCompany_due (p : Package) (m : Nat) (f : Company → Company) : (p.modCompany m f).due = p.due := rfl
@[simp] theorem Package.modCompany_hostWrites (p : Package) (m : Nat) (f : Company → Company) : (p.modCompany m f).hostWrites = p.hostWrites := rfl
@[simp] theorem Package.modCompany_faults (p : Package) (m : Nat) (f : Company → Company) : (p.modCompany m f).faults = p.faults := rfl
@[simp] theorem Package.modCompany_pcie (p : Package) (m : Nat) (f : Company → Company) : (p.modCompany m f).pcie = p.pcie := rfl
@[simp] theorem Package.modCompany_reads (p : Package) (m : Nat) (f : Company → Company) : (p.modCompany m f).reads = p.reads := rfl
@[simp] theorem Package.modCompany_readQ (p : Package) (m : Nat) (f : Company → Company) : (p.modCompany m f).readQ = p.readQ := rfl
@[simp] theorem Package.modCompany_atsInv (p : Package) (m : Nat) (f : Company → Company) : (p.modCompany m f).atsInv = p.atsInv := rfl
@[simp] theorem Package.modCompany_planeOp (p : Package) (m : Nat) (f : Company → Company) : (p.modCompany m f).planeOp = p.planeOp := rfl
@[simp] theorem Package.modCompany_sent (p : Package) (m : Nat) (f : Company → Company) : (p.modCompany m f).sent = p.sent := rfl
@[simp] theorem Package.modCompany_teldrop (p : Package) (m : Nat) (f : Company → Company) : (p.modCompany m f).teldrop = p.teldrop := rfl
@[simp] theorem Package.modCompany_current (p : Package) (m : Nat) (f : Company → Company) : (p.modCompany m f).current = p.current := rfl
@[simp] theorem Package.modCompany_errors (p : Package) (m : Nat) (f : Company → Company) : (p.modCompany m f).errors = p.errors := rfl
@[simp] theorem Package.modCompany_frames (p : Package) (m : Nat) (f : Company → Company) : (p.modCompany m f).frames = p.frames := rfl
@[simp] theorem Package.modCompany_stopcause (p : Package) (m : Nat) (f : Company → Company) : (p.modCompany m f).stopcause = p.stopcause := rfl
@[simp] theorem Package.modCompany_stopReq (p : Package) (m : Nat) (f : Company → Company) : (p.modCompany m f).stopReq = p.stopReq := rfl

/-! `Package.modStage`. -/

@[simp] theorem Package.modStage_straps (p : Package) (i : Nat) (f : Stage → Stage) : (p.modStage i f).straps = p.straps := rfl
@[simp] theorem Package.modStage_stages (p : Package) (i : Nat) (f : Stage → Stage) : (p.modStage i f).stages = p.stages := rfl
@[simp] theorem Package.modStage_cores (p : Package) (i : Nat) (f : Stage → Stage) : (p.modStage i f).cores = p.cores := rfl
@[simp] theorem Package.modStage_companies (p : Package) (i : Nat) (f : Stage → Stage) : (p.modStage i f).companies = p.companies := rfl
@[simp] theorem Package.modStage_vaults (p : Package) (i : Nat) (f : Stage → Stage) : (p.modStage i f).vaults = p.vaults := rfl
@[simp] theorem Package.modStage_parts (p : Package) (i : Nat) (f : Stage → Stage) : (p.modStage i f).parts = p.parts := rfl
@[simp] theorem Package.modStage_gates (p : Package) (i : Nat) (f : Stage → Stage) : (p.modStage i f).gates = p.gates := rfl
@[simp] theorem Package.modStage_ports (p : Package) (i : Nat) (f : Stage → Stage) : (p.modStage i f).ports = p.ports := rfl
@[simp] theorem Package.modStage_win (p : Package) (i : Nat) (f : Stage → Stage) : (p.modStage i f).win = p.win := rfl
@[simp] theorem Package.modStage_dram (p : Package) (i : Nat) (f : Stage → Stage) : (p.modStage i f).dram = p.dram := rfl
@[simp] theorem Package.modStage_dramPoison (p : Package) (i : Nat) (f : Stage → Stage) : (p.modStage i f).dramPoison = p.dramPoison := rfl
@[simp] theorem Package.modStage_dramErr (p : Package) (i : Nat) (f : Stage → Stage) : (p.modStage i f).dramErr = p.dramErr := rfl
@[simp] theorem Package.modStage_casts (p : Package) (i : Nat) (f : Stage → Stage) : (p.modStage i f).casts = p.casts := rfl
@[simp] theorem Package.modStage_nextEntry (p : Package) (i : Nat) (f : Stage → Stage) : (p.modStage i f).nextEntry = p.nextEntry := rfl
@[simp] theorem Package.modStage_tickets (p : Package) (i : Nat) (f : Stage → Stage) : (p.modStage i f).tickets = p.tickets := rfl
@[simp] theorem Package.modStage_cueIn (p : Package) (i : Nat) (f : Stage → Stage) : (p.modStage i f).cueIn = p.cueIn := rfl
@[simp] theorem Package.modStage_cueStaged (p : Package) (i : Nat) (f : Stage → Stage) : (p.modStage i f).cueStaged = p.cueStaged := rfl
@[simp] theorem Package.modStage_answers (p : Package) (i : Nat) (f : Stage → Stage) : (p.modStage i f).answers = p.answers := rfl
@[simp] theorem Package.modStage_dcIn (p : Package) (i : Nat) (f : Stage → Stage) : (p.modStage i f).dcIn = p.dcIn := rfl
@[simp] theorem Package.modStage_dcWaiters (p : Package) (i : Nat) (f : Stage → Stage) : (p.modStage i f).dcWaiters = p.dcWaiters := rfl
@[simp] theorem Package.modStage_due (p : Package) (i : Nat) (f : Stage → Stage) : (p.modStage i f).due = p.due := rfl
@[simp] theorem Package.modStage_hostWrites (p : Package) (i : Nat) (f : Stage → Stage) : (p.modStage i f).hostWrites = p.hostWrites := rfl
@[simp] theorem Package.modStage_faults (p : Package) (i : Nat) (f : Stage → Stage) : (p.modStage i f).faults = p.faults := rfl
@[simp] theorem Package.modStage_pcie (p : Package) (i : Nat) (f : Stage → Stage) : (p.modStage i f).pcie = p.pcie := rfl
@[simp] theorem Package.modStage_reads (p : Package) (i : Nat) (f : Stage → Stage) : (p.modStage i f).reads = p.reads := rfl
@[simp] theorem Package.modStage_readQ (p : Package) (i : Nat) (f : Stage → Stage) : (p.modStage i f).readQ = p.readQ := rfl
@[simp] theorem Package.modStage_atsInv (p : Package) (i : Nat) (f : Stage → Stage) : (p.modStage i f).atsInv = p.atsInv := rfl
@[simp] theorem Package.modStage_planeOp (p : Package) (i : Nat) (f : Stage → Stage) : (p.modStage i f).planeOp = p.planeOp := rfl
@[simp] theorem Package.modStage_sent (p : Package) (i : Nat) (f : Stage → Stage) : (p.modStage i f).sent = p.sent := rfl
@[simp] theorem Package.modStage_teldrop (p : Package) (i : Nat) (f : Stage → Stage) : (p.modStage i f).teldrop = p.teldrop := rfl
@[simp] theorem Package.modStage_current (p : Package) (i : Nat) (f : Stage → Stage) : (p.modStage i f).current = p.current := rfl
@[simp] theorem Package.modStage_errors (p : Package) (i : Nat) (f : Stage → Stage) : (p.modStage i f).errors = p.errors := rfl
@[simp] theorem Package.modStage_frames (p : Package) (i : Nat) (f : Stage → Stage) : (p.modStage i f).frames = p.frames := rfl
@[simp] theorem Package.modStage_stopcause (p : Package) (i : Nat) (f : Stage → Stage) : (p.modStage i f).stopcause = p.stopcause := rfl
@[simp] theorem Package.modStage_stopReq (p : Package) (i : Nat) (f : Stage → Stage) : (p.modStage i f).stopReq = p.stopReq := rfl

/-! `Package.modVault`. -/

@[simp] theorem Package.modVault_straps (p : Package) (i : Nat) (f : Vault → Vault) : (p.modVault i f).straps = p.straps := rfl
@[simp] theorem Package.modVault_stages (p : Package) (i : Nat) (f : Vault → Vault) : (p.modVault i f).stages = p.stages := rfl
@[simp] theorem Package.modVault_cores (p : Package) (i : Nat) (f : Vault → Vault) : (p.modVault i f).cores = p.cores := rfl
@[simp] theorem Package.modVault_companies (p : Package) (i : Nat) (f : Vault → Vault) : (p.modVault i f).companies = p.companies := rfl
@[simp] theorem Package.modVault_stage (p : Package) (i : Nat) (f : Vault → Vault) : (p.modVault i f).stage = p.stage := rfl
@[simp] theorem Package.modVault_parts (p : Package) (i : Nat) (f : Vault → Vault) : (p.modVault i f).parts = p.parts := rfl
@[simp] theorem Package.modVault_gates (p : Package) (i : Nat) (f : Vault → Vault) : (p.modVault i f).gates = p.gates := rfl
@[simp] theorem Package.modVault_ports (p : Package) (i : Nat) (f : Vault → Vault) : (p.modVault i f).ports = p.ports := rfl
@[simp] theorem Package.modVault_win (p : Package) (i : Nat) (f : Vault → Vault) : (p.modVault i f).win = p.win := rfl
@[simp] theorem Package.modVault_dram (p : Package) (i : Nat) (f : Vault → Vault) : (p.modVault i f).dram = p.dram := rfl
@[simp] theorem Package.modVault_dramPoison (p : Package) (i : Nat) (f : Vault → Vault) : (p.modVault i f).dramPoison = p.dramPoison := rfl
@[simp] theorem Package.modVault_dramErr (p : Package) (i : Nat) (f : Vault → Vault) : (p.modVault i f).dramErr = p.dramErr := rfl
@[simp] theorem Package.modVault_casts (p : Package) (i : Nat) (f : Vault → Vault) : (p.modVault i f).casts = p.casts := rfl
@[simp] theorem Package.modVault_nextEntry (p : Package) (i : Nat) (f : Vault → Vault) : (p.modVault i f).nextEntry = p.nextEntry := rfl
@[simp] theorem Package.modVault_tickets (p : Package) (i : Nat) (f : Vault → Vault) : (p.modVault i f).tickets = p.tickets := rfl
@[simp] theorem Package.modVault_cueIn (p : Package) (i : Nat) (f : Vault → Vault) : (p.modVault i f).cueIn = p.cueIn := rfl
@[simp] theorem Package.modVault_cueStaged (p : Package) (i : Nat) (f : Vault → Vault) : (p.modVault i f).cueStaged = p.cueStaged := rfl
@[simp] theorem Package.modVault_answers (p : Package) (i : Nat) (f : Vault → Vault) : (p.modVault i f).answers = p.answers := rfl
@[simp] theorem Package.modVault_dcIn (p : Package) (i : Nat) (f : Vault → Vault) : (p.modVault i f).dcIn = p.dcIn := rfl
@[simp] theorem Package.modVault_dcWaiters (p : Package) (i : Nat) (f : Vault → Vault) : (p.modVault i f).dcWaiters = p.dcWaiters := rfl
@[simp] theorem Package.modVault_due (p : Package) (i : Nat) (f : Vault → Vault) : (p.modVault i f).due = p.due := rfl
@[simp] theorem Package.modVault_hostWrites (p : Package) (i : Nat) (f : Vault → Vault) : (p.modVault i f).hostWrites = p.hostWrites := rfl
@[simp] theorem Package.modVault_faults (p : Package) (i : Nat) (f : Vault → Vault) : (p.modVault i f).faults = p.faults := rfl
@[simp] theorem Package.modVault_pcie (p : Package) (i : Nat) (f : Vault → Vault) : (p.modVault i f).pcie = p.pcie := rfl
@[simp] theorem Package.modVault_reads (p : Package) (i : Nat) (f : Vault → Vault) : (p.modVault i f).reads = p.reads := rfl
@[simp] theorem Package.modVault_readQ (p : Package) (i : Nat) (f : Vault → Vault) : (p.modVault i f).readQ = p.readQ := rfl
@[simp] theorem Package.modVault_atsInv (p : Package) (i : Nat) (f : Vault → Vault) : (p.modVault i f).atsInv = p.atsInv := rfl
@[simp] theorem Package.modVault_planeOp (p : Package) (i : Nat) (f : Vault → Vault) : (p.modVault i f).planeOp = p.planeOp := rfl
@[simp] theorem Package.modVault_sent (p : Package) (i : Nat) (f : Vault → Vault) : (p.modVault i f).sent = p.sent := rfl
@[simp] theorem Package.modVault_teldrop (p : Package) (i : Nat) (f : Vault → Vault) : (p.modVault i f).teldrop = p.teldrop := rfl
@[simp] theorem Package.modVault_current (p : Package) (i : Nat) (f : Vault → Vault) : (p.modVault i f).current = p.current := rfl
@[simp] theorem Package.modVault_errors (p : Package) (i : Nat) (f : Vault → Vault) : (p.modVault i f).errors = p.errors := rfl
@[simp] theorem Package.modVault_frames (p : Package) (i : Nat) (f : Vault → Vault) : (p.modVault i f).frames = p.frames := rfl
@[simp] theorem Package.modVault_stopcause (p : Package) (i : Nat) (f : Vault → Vault) : (p.modVault i f).stopcause = p.stopcause := rfl
@[simp] theorem Package.modVault_stopReq (p : Package) (i : Nat) (f : Vault → Vault) : (p.modVault i f).stopReq = p.stopReq := rfl

/-! `Package.modPart`. -/

@[simp] theorem Package.modPart_straps (p : Package) (k : Nat) (f : Partition → Partition) : (p.modPart k f).straps = p.straps := rfl
@[simp] theorem Package.modPart_stages (p : Package) (k : Nat) (f : Partition → Partition) : (p.modPart k f).stages = p.stages := rfl
@[simp] theorem Package.modPart_cores (p : Package) (k : Nat) (f : Partition → Partition) : (p.modPart k f).cores = p.cores := rfl
@[simp] theorem Package.modPart_companies (p : Package) (k : Nat) (f : Partition → Partition) : (p.modPart k f).companies = p.companies := rfl
@[simp] theorem Package.modPart_stage (p : Package) (k : Nat) (f : Partition → Partition) : (p.modPart k f).stage = p.stage := rfl
@[simp] theorem Package.modPart_vaults (p : Package) (k : Nat) (f : Partition → Partition) : (p.modPart k f).vaults = p.vaults := rfl
@[simp] theorem Package.modPart_gates (p : Package) (k : Nat) (f : Partition → Partition) : (p.modPart k f).gates = p.gates := rfl
@[simp] theorem Package.modPart_ports (p : Package) (k : Nat) (f : Partition → Partition) : (p.modPart k f).ports = p.ports := rfl
@[simp] theorem Package.modPart_win (p : Package) (k : Nat) (f : Partition → Partition) : (p.modPart k f).win = p.win := rfl
@[simp] theorem Package.modPart_dram (p : Package) (k : Nat) (f : Partition → Partition) : (p.modPart k f).dram = p.dram := rfl
@[simp] theorem Package.modPart_dramPoison (p : Package) (k : Nat) (f : Partition → Partition) : (p.modPart k f).dramPoison = p.dramPoison := rfl
@[simp] theorem Package.modPart_dramErr (p : Package) (k : Nat) (f : Partition → Partition) : (p.modPart k f).dramErr = p.dramErr := rfl
@[simp] theorem Package.modPart_casts (p : Package) (k : Nat) (f : Partition → Partition) : (p.modPart k f).casts = p.casts := rfl
@[simp] theorem Package.modPart_nextEntry (p : Package) (k : Nat) (f : Partition → Partition) : (p.modPart k f).nextEntry = p.nextEntry := rfl
@[simp] theorem Package.modPart_tickets (p : Package) (k : Nat) (f : Partition → Partition) : (p.modPart k f).tickets = p.tickets := rfl
@[simp] theorem Package.modPart_cueIn (p : Package) (k : Nat) (f : Partition → Partition) : (p.modPart k f).cueIn = p.cueIn := rfl
@[simp] theorem Package.modPart_cueStaged (p : Package) (k : Nat) (f : Partition → Partition) : (p.modPart k f).cueStaged = p.cueStaged := rfl
@[simp] theorem Package.modPart_answers (p : Package) (k : Nat) (f : Partition → Partition) : (p.modPart k f).answers = p.answers := rfl
@[simp] theorem Package.modPart_dcIn (p : Package) (k : Nat) (f : Partition → Partition) : (p.modPart k f).dcIn = p.dcIn := rfl
@[simp] theorem Package.modPart_dcWaiters (p : Package) (k : Nat) (f : Partition → Partition) : (p.modPart k f).dcWaiters = p.dcWaiters := rfl
@[simp] theorem Package.modPart_due (p : Package) (k : Nat) (f : Partition → Partition) : (p.modPart k f).due = p.due := rfl
@[simp] theorem Package.modPart_hostWrites (p : Package) (k : Nat) (f : Partition → Partition) : (p.modPart k f).hostWrites = p.hostWrites := rfl
@[simp] theorem Package.modPart_faults (p : Package) (k : Nat) (f : Partition → Partition) : (p.modPart k f).faults = p.faults := rfl
@[simp] theorem Package.modPart_pcie (p : Package) (k : Nat) (f : Partition → Partition) : (p.modPart k f).pcie = p.pcie := rfl
@[simp] theorem Package.modPart_reads (p : Package) (k : Nat) (f : Partition → Partition) : (p.modPart k f).reads = p.reads := rfl
@[simp] theorem Package.modPart_readQ (p : Package) (k : Nat) (f : Partition → Partition) : (p.modPart k f).readQ = p.readQ := rfl
@[simp] theorem Package.modPart_atsInv (p : Package) (k : Nat) (f : Partition → Partition) : (p.modPart k f).atsInv = p.atsInv := rfl
@[simp] theorem Package.modPart_planeOp (p : Package) (k : Nat) (f : Partition → Partition) : (p.modPart k f).planeOp = p.planeOp := rfl
@[simp] theorem Package.modPart_sent (p : Package) (k : Nat) (f : Partition → Partition) : (p.modPart k f).sent = p.sent := rfl
@[simp] theorem Package.modPart_teldrop (p : Package) (k : Nat) (f : Partition → Partition) : (p.modPart k f).teldrop = p.teldrop := rfl
@[simp] theorem Package.modPart_current (p : Package) (k : Nat) (f : Partition → Partition) : (p.modPart k f).current = p.current := rfl
@[simp] theorem Package.modPart_errors (p : Package) (k : Nat) (f : Partition → Partition) : (p.modPart k f).errors = p.errors := rfl
@[simp] theorem Package.modPart_frames (p : Package) (k : Nat) (f : Partition → Partition) : (p.modPart k f).frames = p.frames := rfl
@[simp] theorem Package.modPart_stopcause (p : Package) (k : Nat) (f : Partition → Partition) : (p.modPart k f).stopcause = p.stopcause := rfl
@[simp] theorem Package.modPart_stopReq (p : Package) (k : Nat) (f : Partition → Partition) : (p.modPart k f).stopReq = p.stopReq := rfl

/-! `Package.modGate`. -/

@[simp] theorem Package.modGate_straps (p : Package) (g : Nat) (f : Gate → Gate) : (p.modGate g f).straps = p.straps := rfl
@[simp] theorem Package.modGate_stages (p : Package) (g : Nat) (f : Gate → Gate) : (p.modGate g f).stages = p.stages := rfl
@[simp] theorem Package.modGate_cores (p : Package) (g : Nat) (f : Gate → Gate) : (p.modGate g f).cores = p.cores := rfl
@[simp] theorem Package.modGate_companies (p : Package) (g : Nat) (f : Gate → Gate) : (p.modGate g f).companies = p.companies := rfl
@[simp] theorem Package.modGate_stage (p : Package) (g : Nat) (f : Gate → Gate) : (p.modGate g f).stage = p.stage := rfl
@[simp] theorem Package.modGate_vaults (p : Package) (g : Nat) (f : Gate → Gate) : (p.modGate g f).vaults = p.vaults := rfl
@[simp] theorem Package.modGate_parts (p : Package) (g : Nat) (f : Gate → Gate) : (p.modGate g f).parts = p.parts := rfl
@[simp] theorem Package.modGate_ports (p : Package) (g : Nat) (f : Gate → Gate) : (p.modGate g f).ports = p.ports := rfl
@[simp] theorem Package.modGate_win (p : Package) (g : Nat) (f : Gate → Gate) : (p.modGate g f).win = p.win := rfl
@[simp] theorem Package.modGate_dram (p : Package) (g : Nat) (f : Gate → Gate) : (p.modGate g f).dram = p.dram := rfl
@[simp] theorem Package.modGate_dramPoison (p : Package) (g : Nat) (f : Gate → Gate) : (p.modGate g f).dramPoison = p.dramPoison := rfl
@[simp] theorem Package.modGate_dramErr (p : Package) (g : Nat) (f : Gate → Gate) : (p.modGate g f).dramErr = p.dramErr := rfl
@[simp] theorem Package.modGate_casts (p : Package) (g : Nat) (f : Gate → Gate) : (p.modGate g f).casts = p.casts := rfl
@[simp] theorem Package.modGate_nextEntry (p : Package) (g : Nat) (f : Gate → Gate) : (p.modGate g f).nextEntry = p.nextEntry := rfl
@[simp] theorem Package.modGate_tickets (p : Package) (g : Nat) (f : Gate → Gate) : (p.modGate g f).tickets = p.tickets := rfl
@[simp] theorem Package.modGate_cueIn (p : Package) (g : Nat) (f : Gate → Gate) : (p.modGate g f).cueIn = p.cueIn := rfl
@[simp] theorem Package.modGate_cueStaged (p : Package) (g : Nat) (f : Gate → Gate) : (p.modGate g f).cueStaged = p.cueStaged := rfl
@[simp] theorem Package.modGate_answers (p : Package) (g : Nat) (f : Gate → Gate) : (p.modGate g f).answers = p.answers := rfl
@[simp] theorem Package.modGate_dcIn (p : Package) (g : Nat) (f : Gate → Gate) : (p.modGate g f).dcIn = p.dcIn := rfl
@[simp] theorem Package.modGate_dcWaiters (p : Package) (g : Nat) (f : Gate → Gate) : (p.modGate g f).dcWaiters = p.dcWaiters := rfl
@[simp] theorem Package.modGate_due (p : Package) (g : Nat) (f : Gate → Gate) : (p.modGate g f).due = p.due := rfl
@[simp] theorem Package.modGate_hostWrites (p : Package) (g : Nat) (f : Gate → Gate) : (p.modGate g f).hostWrites = p.hostWrites := rfl
@[simp] theorem Package.modGate_faults (p : Package) (g : Nat) (f : Gate → Gate) : (p.modGate g f).faults = p.faults := rfl
@[simp] theorem Package.modGate_pcie (p : Package) (g : Nat) (f : Gate → Gate) : (p.modGate g f).pcie = p.pcie := rfl
@[simp] theorem Package.modGate_reads (p : Package) (g : Nat) (f : Gate → Gate) : (p.modGate g f).reads = p.reads := rfl
@[simp] theorem Package.modGate_readQ (p : Package) (g : Nat) (f : Gate → Gate) : (p.modGate g f).readQ = p.readQ := rfl
@[simp] theorem Package.modGate_atsInv (p : Package) (g : Nat) (f : Gate → Gate) : (p.modGate g f).atsInv = p.atsInv := rfl
@[simp] theorem Package.modGate_planeOp (p : Package) (g : Nat) (f : Gate → Gate) : (p.modGate g f).planeOp = p.planeOp := rfl
@[simp] theorem Package.modGate_sent (p : Package) (g : Nat) (f : Gate → Gate) : (p.modGate g f).sent = p.sent := rfl
@[simp] theorem Package.modGate_teldrop (p : Package) (g : Nat) (f : Gate → Gate) : (p.modGate g f).teldrop = p.teldrop := rfl
@[simp] theorem Package.modGate_current (p : Package) (g : Nat) (f : Gate → Gate) : (p.modGate g f).current = p.current := rfl
@[simp] theorem Package.modGate_errors (p : Package) (g : Nat) (f : Gate → Gate) : (p.modGate g f).errors = p.errors := rfl
@[simp] theorem Package.modGate_frames (p : Package) (g : Nat) (f : Gate → Gate) : (p.modGate g f).frames = p.frames := rfl
@[simp] theorem Package.modGate_stopcause (p : Package) (g : Nat) (f : Gate → Gate) : (p.modGate g f).stopcause = p.stopcause := rfl
@[simp] theorem Package.modGate_stopReq (p : Package) (g : Nat) (f : Gate → Gate) : (p.modGate g f).stopReq = p.stopReq := rfl

/-! `Package.later`. -/

@[simp] theorem Package.later_straps (p : Package) (t : DueAt) (ev : Instr) : (p.later t ev).straps = p.straps := rfl
@[simp] theorem Package.later_stages (p : Package) (t : DueAt) (ev : Instr) : (p.later t ev).stages = p.stages := rfl
@[simp] theorem Package.later_cores (p : Package) (t : DueAt) (ev : Instr) : (p.later t ev).cores = p.cores := rfl
@[simp] theorem Package.later_companies (p : Package) (t : DueAt) (ev : Instr) : (p.later t ev).companies = p.companies := rfl
@[simp] theorem Package.later_stage (p : Package) (t : DueAt) (ev : Instr) : (p.later t ev).stage = p.stage := rfl
@[simp] theorem Package.later_vaults (p : Package) (t : DueAt) (ev : Instr) : (p.later t ev).vaults = p.vaults := rfl
@[simp] theorem Package.later_parts (p : Package) (t : DueAt) (ev : Instr) : (p.later t ev).parts = p.parts := rfl
@[simp] theorem Package.later_gates (p : Package) (t : DueAt) (ev : Instr) : (p.later t ev).gates = p.gates := rfl
@[simp] theorem Package.later_ports (p : Package) (t : DueAt) (ev : Instr) : (p.later t ev).ports = p.ports := rfl
@[simp] theorem Package.later_win (p : Package) (t : DueAt) (ev : Instr) : (p.later t ev).win = p.win := rfl
@[simp] theorem Package.later_dram (p : Package) (t : DueAt) (ev : Instr) : (p.later t ev).dram = p.dram := rfl
@[simp] theorem Package.later_dramPoison (p : Package) (t : DueAt) (ev : Instr) : (p.later t ev).dramPoison = p.dramPoison := rfl
@[simp] theorem Package.later_dramErr (p : Package) (t : DueAt) (ev : Instr) : (p.later t ev).dramErr = p.dramErr := rfl
@[simp] theorem Package.later_casts (p : Package) (t : DueAt) (ev : Instr) : (p.later t ev).casts = p.casts := rfl
@[simp] theorem Package.later_nextEntry (p : Package) (t : DueAt) (ev : Instr) : (p.later t ev).nextEntry = p.nextEntry := rfl
@[simp] theorem Package.later_tickets (p : Package) (t : DueAt) (ev : Instr) : (p.later t ev).tickets = p.tickets := rfl
@[simp] theorem Package.later_cueIn (p : Package) (t : DueAt) (ev : Instr) : (p.later t ev).cueIn = p.cueIn := rfl
@[simp] theorem Package.later_cueStaged (p : Package) (t : DueAt) (ev : Instr) : (p.later t ev).cueStaged = p.cueStaged := rfl
@[simp] theorem Package.later_answers (p : Package) (t : DueAt) (ev : Instr) : (p.later t ev).answers = p.answers := rfl
@[simp] theorem Package.later_dcIn (p : Package) (t : DueAt) (ev : Instr) : (p.later t ev).dcIn = p.dcIn := rfl
@[simp] theorem Package.later_dcWaiters (p : Package) (t : DueAt) (ev : Instr) : (p.later t ev).dcWaiters = p.dcWaiters := rfl
@[simp] theorem Package.later_hostWrites (p : Package) (t : DueAt) (ev : Instr) : (p.later t ev).hostWrites = p.hostWrites := rfl
@[simp] theorem Package.later_faults (p : Package) (t : DueAt) (ev : Instr) : (p.later t ev).faults = p.faults := rfl
@[simp] theorem Package.later_pcie (p : Package) (t : DueAt) (ev : Instr) : (p.later t ev).pcie = p.pcie := rfl
@[simp] theorem Package.later_reads (p : Package) (t : DueAt) (ev : Instr) : (p.later t ev).reads = p.reads := rfl
@[simp] theorem Package.later_readQ (p : Package) (t : DueAt) (ev : Instr) : (p.later t ev).readQ = p.readQ := rfl
@[simp] theorem Package.later_atsInv (p : Package) (t : DueAt) (ev : Instr) : (p.later t ev).atsInv = p.atsInv := rfl
@[simp] theorem Package.later_planeOp (p : Package) (t : DueAt) (ev : Instr) : (p.later t ev).planeOp = p.planeOp := rfl
@[simp] theorem Package.later_sent (p : Package) (t : DueAt) (ev : Instr) : (p.later t ev).sent = p.sent := rfl
@[simp] theorem Package.later_teldrop (p : Package) (t : DueAt) (ev : Instr) : (p.later t ev).teldrop = p.teldrop := rfl
@[simp] theorem Package.later_current (p : Package) (t : DueAt) (ev : Instr) : (p.later t ev).current = p.current := rfl
@[simp] theorem Package.later_errors (p : Package) (t : DueAt) (ev : Instr) : (p.later t ev).errors = p.errors := rfl
@[simp] theorem Package.later_frames (p : Package) (t : DueAt) (ev : Instr) : (p.later t ev).frames = p.frames := rfl
@[simp] theorem Package.later_stopcause (p : Package) (t : DueAt) (ev : Instr) : (p.later t ev).stopcause = p.stopcause := rfl
@[simp] theorem Package.later_stopReq (p : Package) (t : DueAt) (ev : Instr) : (p.later t ev).stopReq = p.stopReq := rfl

/-! `Package.count`. -/

@[simp] theorem Package.count_straps (p : Package) (i m : Nat) : (p.count i m).straps = p.straps := rfl
@[simp] theorem Package.count_stages (p : Package) (i m : Nat) : (p.count i m).stages = p.stages := rfl
@[simp] theorem Package.count_cores (p : Package) (i m : Nat) : (p.count i m).cores = p.cores := rfl
@[simp] theorem Package.count_companies (p : Package) (i m : Nat) : (p.count i m).companies = p.companies := rfl
@[simp] theorem Package.count_stage (p : Package) (i m : Nat) : (p.count i m).stage = p.stage := rfl
@[simp] theorem Package.count_vaults (p : Package) (i m : Nat) : (p.count i m).vaults = p.vaults := rfl
@[simp] theorem Package.count_parts (p : Package) (i m : Nat) : (p.count i m).parts = p.parts := rfl
@[simp] theorem Package.count_gates (p : Package) (i m : Nat) : (p.count i m).gates = p.gates := rfl
@[simp] theorem Package.count_ports (p : Package) (i m : Nat) : (p.count i m).ports = p.ports := rfl
@[simp] theorem Package.count_win (p : Package) (i m : Nat) : (p.count i m).win = p.win := rfl
@[simp] theorem Package.count_dram (p : Package) (i m : Nat) : (p.count i m).dram = p.dram := rfl
@[simp] theorem Package.count_dramPoison (p : Package) (i m : Nat) : (p.count i m).dramPoison = p.dramPoison := rfl
@[simp] theorem Package.count_dramErr (p : Package) (i m : Nat) : (p.count i m).dramErr = p.dramErr := rfl
@[simp] theorem Package.count_casts (p : Package) (i m : Nat) : (p.count i m).casts = p.casts := rfl
@[simp] theorem Package.count_nextEntry (p : Package) (i m : Nat) : (p.count i m).nextEntry = p.nextEntry := rfl
@[simp] theorem Package.count_tickets (p : Package) (i m : Nat) : (p.count i m).tickets = p.tickets := rfl
@[simp] theorem Package.count_cueIn (p : Package) (i m : Nat) : (p.count i m).cueIn = p.cueIn := rfl
@[simp] theorem Package.count_cueStaged (p : Package) (i m : Nat) : (p.count i m).cueStaged = p.cueStaged := rfl
@[simp] theorem Package.count_answers (p : Package) (i m : Nat) : (p.count i m).answers = p.answers := rfl
@[simp] theorem Package.count_dcIn (p : Package) (i m : Nat) : (p.count i m).dcIn = p.dcIn := rfl
@[simp] theorem Package.count_dcWaiters (p : Package) (i m : Nat) : (p.count i m).dcWaiters = p.dcWaiters := rfl
@[simp] theorem Package.count_due (p : Package) (i m : Nat) : (p.count i m).due = p.due := rfl
@[simp] theorem Package.count_hostWrites (p : Package) (i m : Nat) : (p.count i m).hostWrites = p.hostWrites := rfl
@[simp] theorem Package.count_faults (p : Package) (i m : Nat) : (p.count i m).faults = p.faults := rfl
@[simp] theorem Package.count_pcie (p : Package) (i m : Nat) : (p.count i m).pcie = p.pcie := rfl
@[simp] theorem Package.count_reads (p : Package) (i m : Nat) : (p.count i m).reads = p.reads := rfl
@[simp] theorem Package.count_readQ (p : Package) (i m : Nat) : (p.count i m).readQ = p.readQ := rfl
@[simp] theorem Package.count_atsInv (p : Package) (i m : Nat) : (p.count i m).atsInv = p.atsInv := rfl
@[simp] theorem Package.count_planeOp (p : Package) (i m : Nat) : (p.count i m).planeOp = p.planeOp := rfl
@[simp] theorem Package.count_sent (p : Package) (i m : Nat) : (p.count i m).sent = p.sent := rfl
@[simp] theorem Package.count_teldrop (p : Package) (i m : Nat) : (p.count i m).teldrop = p.teldrop := rfl
@[simp] theorem Package.count_current (p : Package) (i m : Nat) : (p.count i m).current = p.current := rfl
@[simp] theorem Package.count_frames (p : Package) (i m : Nat) : (p.count i m).frames = p.frames := rfl
@[simp] theorem Package.count_stopcause (p : Package) (i m : Nat) : (p.count i m).stopcause = p.stopcause := rfl
@[simp] theorem Package.count_stopReq (p : Package) (i m : Nat) : (p.count i m).stopReq = p.stopReq := rfl

/-! `State.modPkg`. -/

@[simp] theorem State.modPkg_clk (s : State) (f : Package → Package) : (s.modPkg f).clk = s.clk := rfl
@[simp] theorem State.modPkg_cur (s : State) (f : Package → Package) : (s.modPkg f).cur = s.cur := rfl
@[simp] theorem State.modPkg_agenda (s : State) (f : Package → Package) : (s.modPkg f).agenda = s.agenda := rfl
@[simp] theorem State.modPkg_images (s : State) (f : Package → Package) : (s.modPkg f).images = s.images := rfl

/-! `State.modWave`. -/

@[simp] theorem State.modWave_clk (s : State) (c k : Nat) (f : Wave → Wave) : (s.modWave c k f).clk = s.clk := rfl
@[simp] theorem State.modWave_cur (s : State) (c k : Nat) (f : Wave → Wave) : (s.modWave c k f).cur = s.cur := rfl
@[simp] theorem State.modWave_agenda (s : State) (c k : Nat) (f : Wave → Wave) : (s.modWave c k f).agenda = s.agenda := rfl
@[simp] theorem State.modWave_images (s : State) (c k : Nat) (f : Wave → Wave) : (s.modWave c k f).images = s.images := rfl

end Sys2Proof.Machine
end

