-- ==== Sys2Proof/Tests/Slice0.lean ====
section
/-! SUPPORT. The tests: the checks of `wellFormed` on ill-formed words, decoding of words written out from the opcode table's fields,
single steps, and for every obligation with hypotheses a concrete state that meets them (for one with several clauses, a state for
each clause, at the edges of its range where it has any). Each expected value is the spec's, computed by hand. -/

namespace Sys2Proof.Tests

open Machine

set_option Elab.async false
set_option linter.unusedVariables false

theorem test_illFormed_roundingMode : ([.vcvtF32I32 ⟨0, 0, 8, 16, 5, 0⟩, .frint ⟨0, 0, 8, 16, 7⟩, .vcvtE4m3F32 ⟨0, 0, 8, 16, 0, 5, 0⟩] : List Instr).all (fun i => !i.wellFormed) = true := by decide +kernel

theorem test_illFormed_shiftAmount : ([.vshli ⟨0, 0, 8, 16, 32⟩, .vsrai ⟨0, 0, 8, 16, 127⟩, .vshl64i ⟨0, 0, 8, 16, 64⟩, .vshr64i ⟨0, 0, 8, 16, 127⟩, .sshli ⟨0, 0, 8, 16, 64⟩, .ssrai ⟨0, 0, 8, 16, 128⟩] : List Instr).all (fun i => !i.wellFormed) = true := by decide +kernel

theorem test_illFormed_controlRegister : ([.movc ⟨0, 0, 10, 0x00C⟩, .movc ⟨0, 0, 10, 0x013⟩, .movc ⟨0, 0, 10, 0x036⟩, .movcw ⟨0, 10, 0⟩, .movcw ⟨0, 10, 0x020⟩] : List Instr).all (fun i => !i.wellFormed) = true := by decide +kernel

theorem test_illFormed_scratchForm : ([.lds ⟨0, 8, 16, 4, 1, 0, 3⟩, .lds ⟨0, 8, 16, 4, 1, 3, 0⟩, .sts ⟨0, 8, 16, 4, 1, 0, 3⟩] : List Instr).all (fun i => !i.wellFormed) = true := by decide +kernel

theorem test_illFormed_atomicType : ([.amadd ⟨0, 8, 16, 4, 2, 0⟩, .amfmax ⟨0, 8, 16, 4, 2, 0⟩, .amswap ⟨0, 8, 16, 4, 3, 0⟩, .amcas ⟨0, 8, 16, 4, 3, 0⟩, .stred ⟨0, 8, 16, 4, 3⟩] : List Instr).all (fun i => !i.wellFormed) = true := by decide +kernel

theorem test_illFormed_fence : ([.fence ⟨0, 5, 1⟩, .fence ⟨0, 0, 0⟩] : List Instr).all (fun i => !i.wellFormed) = true := by decide +kernel

theorem test_illFormed_deferMatch : ([.mdefer ⟨0, 3, 4, 8, 6, 0⟩] : List Instr).all (fun i => !i.wellFormed) = true := by decide +kernel

theorem test_illFormed_pairOperand : ([.vadd64 ⟨0, 0, 8, 17, 24⟩, .vadd64 ⟨0, 0, 9, 16, 24⟩, .vadd64 ⟨0, 0, 124, 16, 24⟩] : List Instr).all (fun i => !i.wellFormed) = true := by decide +kernel

theorem test_illFormed_quadOperand : ([.lds ⟨0, 9, 16, 4, 3, 0, 0⟩, .lds ⟨0, 10, 16, 4, 3, 0, 0⟩, .sts ⟨0, 10, 16, 4, 3, 0, 0⟩, .lds ⟨0, 124, 16, 4, 3, 0, 0⟩] : List Instr).all (fun i => !i.wellFormed) = true := by decide +kernel

theorem test_illFormed_scalarOperand : ([.sadd ⟨0, 0, 8, 64, 24⟩, .sadd ⟨0, 0, 64, 16, 24⟩, .sadd ⟨0, 0, 8, 16, 123⟩] : List Instr).all (fun i => !i.wellFormed) = true := by decide +kernel

theorem test_illFormed_scalarPair : ([.ptos ⟨0, 2, 9⟩, .hostmsg ⟨0, 11, 3⟩, .hostmsg ⟨0, 64, 3⟩] : List Instr).all (fun i => !i.wellFormed) = true := by decide +kernel

theorem test_illFormed_vectorDestination : ([.vadd ⟨0, 0, 124, 16, 24⟩, .vadd ⟨0, 0, 127, 16, 24⟩] : List Instr).all (fun i => !i.wellFormed) = true := by decide +kernel

theorem test_illFormed_predicateDestination : ([.vcmpI32Lt ⟨0, 0, 0, 16, 24⟩, .pset ⟨0, 0⟩] : List Instr).all (fun i => !i.wellFormed) = true := by decide +kernel

theorem test_illFormed_keptDestination : ([.vadd ⟨0, 1, 8, 16, 24⟩, .fmac ⟨0, 1, 1, 16, 24⟩] : List Instr).all (fun i => !i.wellFormed) = true := by decide +kernel

theorem test_wellFormed_edges_0 : ([.vcvtF32I32 ⟨0, 0, 8, 16, 4, 0⟩, .vshli ⟨0, 0, 8, 16, 31⟩, .vshl64i ⟨0, 0, 8, 16, 63⟩, .sshli ⟨0, 0, 8, 16, 63⟩, .movc ⟨0, 0, 10, 0x00B⟩, .movcw ⟨0, 10, 0x031⟩, .lds ⟨0, 8, 16, 4, 1, 2, 2⟩, .sts ⟨0, 8, 16, 4, 1, 3, 2⟩, .amadd ⟨0, 8, 16, 4, 3, 0⟩, .amcas ⟨0, 8, 16, 4, 2, 0⟩] : List Instr).all Instr.wellFormed = true := by decide +kernel

theorem test_wellFormed_edges_1 : ([.fence ⟨0, 4, 3⟩, .stred ⟨0, 8, 16, 4, 2⟩, .mdefer ⟨0, 3, 4, 8, 5, 0⟩, .vadd64 ⟨0, 0, 122, 125, 24⟩, .sadd ⟨0, 0, 63, 63, 124⟩, .ptos ⟨0, 2, 62⟩, .vadd ⟨0, 0, 123, 127, 24⟩, .vcmpI32Lt ⟨0, 7, 0, 16, 24⟩, .vadd ⟨0, 1, 0, 16, 24⟩] : List Instr).all Instr.wellFormed = true := by decide +kernel

/-! Words of every family, from the fields of their rows in spec/opcode_table.json (R63, R64, R112, Tables 3.2 and 3.3). -/

theorem test_decode_vadd : decode 0xC0001030#32 = .ok (.vadd ⟨1, 1, 0, 2, 3⟩) := by decide +kernel

theorem test_decode_saddi : decode 0x18142080#32 = .ok (.saddi ⟨0, 0, 5, 4, 16⟩) := by decide +kernel

theorem test_decode_vmul : decode 0x0017E862#32 = .ok (.vmul ⟨0, 0, 5, 125, 6⟩) := by decide +kernel

theorem test_decode_vadds : decode 0x002858CA#32 = .ok (.vadds ⟨0, 0, 10, 11, 12⟩) := by decide +kernel

theorem test_decode_vcmpI32Lt : decode 0x04D08142#32 = .ok (.vcmpI32Lt ⟨0, 3, 1, 4, 5⟩) := by decide +kernel

theorem test_decode_vsplati : decode 0x102407BC#32 = .ok (.vsplati ⟨0, 0, 9, 123⟩) := by decide +kernel

theorem test_decode_vsel : decode 0x1204103B#32 = .ok (.vsel ⟨0, 0, 1, 2, 3, 3⟩) := by decide +kernel

theorem test_decode_pand : decode 0x149C0000#32 = .ok (.pand ⟨0, 2, 3, 4⟩) := by decide +kernel

theorem test_decode_sli : decode 0x1A0DFFFF#32 = .ok (.sli ⟨0, 0, 3, 131071⟩) := by decide +kernel

theorem test_decode_movc : decode 0x1C142000#32 = .ok (.movc ⟨0, 0, 5, 32⟩) := by decide +kernel

theorem test_decode_movcw : decode 0x1C1C1810#32 = .ok (.movcw ⟨0, 7, 24⟩) := by decide +kernel

theorem test_decode_fmac : decode 0x06102863#32 = .ok (.fmac ⟨0, 0, 4, 5, 6⟩) := by decide +kernel

theorem test_decode_dadd : decode 0x082050C0#32 = .ok (.dadd ⟨0, 0, 8, 10, 12⟩) := by decide +kernel

theorem test_decode_vcvtE4m3F32 : decode 0x0C204C42#32 = .ok (.vcvtE4m3F32 ⟨0, 0, 8, 9, 2, 0, 1⟩) := by decide +kernel

theorem test_decode_vcmpF32Lt : decode 0x04806111#32 = .ok (.vcmpF32Lt ⟨0, 2, 0, 3, 4⟩) := by decide +kernel

theorem test_decode_fredadd : decode 0x0E081809#32 = .ok (.fredadd ⟨0, 0, 2, 3⟩) := by decide +kernel

theorem test_decode_vxchg : decode 0x0E2858CF#32 = .ok (.vxchg ⟨0, 10, 11, 12⟩) := by decide +kernel

theorem test_decode_b : decode 0x1FFFFFFD#32 = .ok (.b ⟨0, 33554429⟩) := by decide +kernel

theorem test_decode_bl : decode 0x20000006#32 = .ok (.bl ⟨0, 6⟩) := by decide +kernel

theorem test_decode_bsLt : decode 0x2220ABF8#32 = .ok (.bsLt ⟨0, 4, 5, 1016⟩) := by decide +kernel

theorem test_decode_bpSplit : decode 0x24400003#32 = .ok (.bpSplit ⟨0, 1, 3⟩) := by decide +kernel

theorem test_decode_nop : decode 0x26000007#32 = .ok (.nop ⟨0⟩) := by decide +kernel

theorem test_decode_tret : decode 0x28000011#32 = .ok (.tret ⟨0, 1⟩) := by decide +kernel

theorem test_decode_attachTry : decode 0x2A143070#32 = .ok (.attachTry ⟨0, 5, 6, 7⟩) := by decide +kernel

theorem test_decode_binit : decode 0x2A003073#32 = .ok (.binit ⟨0, 6, 7⟩) := by decide +kernel

theorem test_decode_lds : decode 0x2C203230#32 = .ok (.lds ⟨0, 8, 6, 4, 1, 2, 0⟩) := by decide +kernel

theorem test_decode_sts : decode 0x2E201271#32 = .ok (.sts ⟨0, 8, 2, 4, 3, 2, 1⟩) := by decide +kernel

theorem test_decode_ldc : decode 0x3021400E#32 = .ok (.ldc ⟨0, 8, 20, 3, 2⟩) := by decide +kernel

theorem test_decode_stc : decode 0x32285FFF#32 = .ok (.stc ⟨0, 10, 5, 1023, 3⟩) := by decide +kernel

theorem test_decode_ldg : decode 0x34203256#32 = .ok (.ldg ⟨0, 8, 6, 4, 2, 2, 1, 2⟩) := by decide +kernel

theorem test_decode_amfadd : decode 0x38083251#32 = .ok (.amfadd ⟨0, 2, 6, 4, 0, 1⟩) := by decide +kernel

theorem test_decode_lr : decode 0x3A184891#32 = .ok (.lr ⟨0, 6, 9, 1, 1⟩) := by decide +kernel

theorem test_decode_fence : decode 0x3A000081#32 = .ok (.fence ⟨0, 1, 1⟩) := by decide +kernel

theorem test_decode_mmap : decode 0x3C020012#32 = .ok (.mmap ⟨0, 0, 1, 0, 0, 1⟩) := by decide +kernel

theorem test_decode_mdefer : decode 0x3C462253#32 = .ok (.mdefer ⟨0, 2, 3, 8, 4, 5⟩) := by decide +kernel

theorem test_decode_copy : decode 0x3E2450C0#32 = .ok (.copy ⟨0, 9, 10, 12⟩) := by decide +kernel

theorem test_decode_engwait : decode 0x3E344801#32 = .ok (.engwait ⟨0, 13, 9⟩) := by decide +kernel

theorem test_decode_dcset : decode 0x3E00205A#32 = .ok (.dcset ⟨0, 4, 5⟩) := by decide +kernel

theorem test_decode_qinit : decode 0x3E002052#32 = .ok (.qinit ⟨0, 4, 5⟩) := by decide +kernel

theorem test_decode_qpush : decode 0x3E182083#32 = .ok (.qpush ⟨0, 6, 4, 8⟩) := by decide +kernel

theorem test_decode_qpop : decode 0x3E242004#32 = .ok (.qpop ⟨0, 9, 4⟩) := by decide +kernel

theorem test_decode_rwait : decode 0x3E2820B7#32 = .ok (.rwait ⟨0, 10, 4, 11⟩) := by decide +kernel

theorem test_decode_cueemit : decode 0x3E3068E9#32 = .ok (.cueemit ⟨0, 12, 13, 14⟩) := by decide +kernel

theorem test_decode_tdesc : decode 0x1C200020#32 = .ok (.tdesc ⟨0, 8, 0⟩) := by decide +kernel

theorem test_decode_perfreq : decode 0x1C140040#32 = .ok (.perfreq ⟨0, 5⟩) := by decide +kernel

theorem test_decode_waitst : decode 0x3A000070#32 = .ok (.waitst ⟨0⟩) := by decide +kernel

theorem test_decode_ckpt : decode 0x28000004#32 = .ok (.ckpt ⟨0⟩) := by decide +kernel

theorem test_decode_stopnow : decode 0x28000075#32 = .ok (.stopnow ⟨0, 7⟩) := by decide +kernel

theorem test_decode_bsync : decode 0x2A143006#32 = .ok (.bsync ⟨0, 5, 6⟩) := by decide +kernel

theorem test_decode_stred : decode 0x3A103930#32 = .ok (.stred ⟨0, 4, 7, 2, 0⟩) := by decide +kernel

theorem test_decode_amcas : decode 0x382029CC#32 = .ok (.amcas ⟨0, 8, 5, 3, 2, 0⟩) := by decide +kernel

theorem test_decode_detach : decode 0x2A000002#32 = .ok (.detach ⟨0⟩) := by decide +kernel

theorem test_decode_mwait : decode 0x3C000006#32 = .ok (.mwait ⟨0⟩) := by decide +kernel

theorem test_decode_dcdec : decode 0x3E00206B#32 = .ok (.dcdec ⟨0, 4, 6⟩) := by decide +kernel

theorem test_decode_dcwait : decode 0x3E1C200C#32 = .ok (.dcwait ⟨0, 7, 4⟩) := by decide +kernel

theorem test_decode_attachWait : decode 0x2A143071#32 = .ok (.attachWait ⟨0, 5, 6, 7⟩) := by decide +kernel

theorem test_decode_exit : decode 0x26000006#32 = .ok (.exit ⟨0⟩) := by decide +kernel

theorem test_decode_reservedOp : decode 0x2600000F#32 = .error .illegalOp := by decide +kernel

theorem test_decode_reservedField : decode 0x26000016#32 = .error .illegalOperand := by decide +kernel

/-! States for the tests: the wave of `State.withFetchWord`, with a word in issue, and small changes of it. -/

/-- A package that runs, with one wave in slot 0 of core 0. -/
def running : State :=
  { State.reset with pkg := (State.reset.pkg.modPart 0 Partition.forFetch).modCore 0 fun k => k.forFetch 0 }

/-- That wave's party issues the word at its counter. -/
def issuing : State :=
  { running with cur := some { core := 0, slot := 0, leader := 0, word := 0x10000, pslot := 0, epc := 0x10000, next := 0x10004, raw := 0, packet := [none, none, none] } }

/-- The wave changed. -/
def withWave (f : Wave → Wave) : State := { issuing with pkg := issuing.pkg.modWave 0 0 f }

/-- The core's part of its cast changed, and the wave. -/
def withCtx (f : CoreCtx → CoreCtx) (g : Wave → Wave) : State := { issuing with pkg := (issuing.pkg.modCtx 0 f).modWave 0 0 g }

/-- A scalar register set. -/
def sc (n : Nat) (x : Quad) (w : Wave) : Wave := w.setS n x

/-- The wave in handler mode. -/
def handler (w : Wave) : Wave := { w with slices := w.slices.map fun x => { x with hmode := true } }

/-- A vector latch in every slice. -/
def latched : State := withWave fun w => { w with slices := w.slices.map fun x => { x with latches := [{ val := .vec [1, 2, 3, 4], packet := x.win.packet, seq := 0 }] } }

/-- Tile registers 3 and 4 with 8 and 16 rows. -/
def tiled : State := withWave fun w => { w with tiles := (w.tiles.set 3 (64 * 2 ^ 25 + 4 * 2 ^ 32 + 7 * 2 ^ 18)).set 4 (64 * 2 ^ 25 + 4 * 2 ^ 32 + 15 * 2 ^ 18) }

/-- A barrier in the last granule. -/
def withBar (b : Bar) (f : Wave → Wave) : State := withCtx (fun x => (x.setBar fetchCast 32767 b).setTag fetchCast 32767 1) f

/-- A cast in ordered mode. -/
def withOrdered (f : Wave → Wave) : State :=
  { issuing with pkg := (issuing.pkg.modCast 0 0 fun c => { c with ordered := true }).modWave 0 0 f }

/-- A queue with its control word in granule 0 and its elements in granules 2 and 3. -/
def queueCtx (q : Nat) (x : CoreCtx) : CoreCtx :=
  ((((x.spWrite fetchCast (keyed 0 (leBytes 16 q))).setTag fetchCast 0 3).setTag fetchCast 2 2).setTag fetchCast 3 2)

/-- A wave that issues with such a queue. -/
def withQueue (q : Nat) (f : Wave → Wave) : State := withCtx (queueCtx q) f

/-- The wave's party waits. -/
def waitingIn (s : State) (op : BlockOp) : State :=
  { s with pkg := s.pkg.modWave 0 0 fun w => w.modSlice 0 fun x =>
      { x with blocked := some { op := op, word := 0x10000, slices := List.range 32, resume := List.replicate 32 0x10004 } } }

/-- The wave of the running package waits. -/
def waiting (op : BlockOp) : State := waitingIn running op

/-- A word passes its checks, and a condition on what it sees holds. -/
def Meets (s : State) (i : Instr) (P : State → View → Bool) : Bool :=
  match s.view with
  | some v => (v.check i).isNone && P s v
  | none => false

theorem meets (s : State) (i : Instr) (P : State → View → Bool) (h : Meets s i P = true) : ∃ v, Issues s v i ∧ P s v = true := by
  unfold Meets at h
  split at h
  · next v hv =>
    simp only [Bool.and_eq_true, Option.isNone_iff_eq_none] at h
    exact ⟨v, ⟨hv, .inr h.1⟩, h.2⟩
  · cases h

/-- Every word of a list issues. -/
theorem issues_all (s : State) (l : List Instr) (h : (l.all fun i => Meets s i fun _ _ => true) = true) : ∀ i ∈ l, ∃ v, Issues s v i := by
  intro i hi
  obtain ⟨v, hv, -⟩ := meets s i _ (List.all_eq_true.mp h i hi)
  exact ⟨v, hv⟩

/-- The end of the bytes of a tile and of its scales, as TDESC checks them. -/
def TileEnd (x : Nat) : Nat := 16 * bits x 0 15 + 16 * bits x 32 10 * bits x 18 7 + 64
def ScalesEnd (x : Nat) : Nat := 16 * bits x 42 15 + (if bits x 57 2 = 1 then 4 * (bits x 18 7 + 1) else 4)

/-- The address operand names a barrier, of which a condition holds. -/
def AtBar (s : State) (v : View) (P : Bar → Bool) : Bool :=
  let a := (v.sc 16).toNat
  decide (a % 16 = 0 ∧ a + 16 ≤ v.cast.spsize.toNat ∧ (s.pkg.core v.iss.core).ctx.tag v.cast (a / 16) = 1 ∧ v.iss.leader < v.now.slices.length)
    && P ((s.pkg.core v.iss.core).ctx.bar v.cast (a / 16))

/-- The address operand names a queue of a mode, of whose control word a condition holds. -/
def AtQueue (s : State) (v : View) (phased : Bool) (P : Nat → Bool) : Bool :=
  let a := (v.sc 16).toNat
  let q := GranuleWord (s.pkg.core 0).ctx v.cast a
  decide (a % 16 = 0 ∧ a + 16 ≤ v.cast.spsize.toNat ∧ (s.pkg.core 0).ctx.tag v.cast (a / 16) = 3 ∧ decide (bits q 29 1 = 1) = phased
    ∧ v.iss.leader < v.now.slices.length) && P q

/-- The element of a queue of one granule carries its tag. -/
def ElementTagged1 (s : State) (v : View) (q n : Nat) : Bool :=
  decide (bits q 26 3 = 0 ∧ (s.pkg.core 0).ctx.tag v.cast (bits q 0 15 + n % bits q 15 11) = 2)

/-- The wave of a state waits for `op`. -/
def WaitsIn (s : State) (op : BlockOp) : Bool :=
  match s.pkg.wave? 0 0 with
  | some w => decide ((w.blockedAt 0).map Blocked.op = some op ∧ w.sole = 0) && (s.pkg.cast? 0 w.cast).isSome
  | none => false

def Waits0 (op : BlockOp) : Bool := WaitsIn (waiting op) op

/-- It waits at a queue of whose control word a condition holds. -/
def QueueWaits (op : BlockOp) (q : Nat) (P : Nat → Bool) : Bool :=
  let s := waitingIn { running with pkg := running.pkg.modCtx 0 (queueCtx q) } op
  WaitsIn s op && P (GranuleWord (s.pkg.core 0).ctx fetchCast 0)
    && decide ((s.pkg.core 0).ctx.tag fetchCast 0 = 3 ∧ (s.pkg.core 0).ctx.tag fetchCast 2 = 2 ∧ (s.pkg.core 0).ctx.tag fetchCast 3 = 2)

/-! States for the events. -/

/-- The running package changed. -/
def onPkg (f : Package → Package) : State := { running with pkg := f running.pkg }

/-- Core 0, company 0, partition 0, gate g, port 0 and node 1 of partition 0 of the running package changed. -/
def onCore (f : Core → Core) : State := onPkg fun p => p.modCore 0 f
def onCompany (f : Company → Company) : State := onPkg fun p => p.modCompany 0 f
def onPart (f : Partition → Partition) : State := onPkg fun p => p.modPart 0 f
def onGate (g : Nat) (f : Gate → Gate) : State := onPkg fun p => p.modGate g f
def onPort (f : HousePort → HousePort) : State := onPkg fun p => p.modPort 0 f
def onNode (f : Node → Node) : State := onPart fun q => { q with nodes := tabSet q.nodes 1 (f {}) }
def onWin (f : Window0 → Window0) : State := onPkg fun p => { p with win := f p.win }
def onRecov (f : Recovery → Recovery) : State := onPart fun q => { q with recov := true, recovery := f q.recovery }

/-- The state at the boundary of a reference tick. -/
def atTick (n : Nat) (s : State) : State :=
  { s with clk := { s.clk with rtick := n, mcyc := 64 * n, vcyc := 48 * n, companies := List.replicate 32 (100 * n) } }

/-- The state between two boundaries. -/
def between (s : State) : State := { s with clk := { s.clk with mcyc := 1 } }

/-- The state frozen. -/
def frozen (s : State) : State := { s with clk := { s.clk with run := .frozen } }

/-- A valid node with a queue of 8 records. -/
def goodNode (n : Node) : Node := EntryWith (EntryWith n 248 8 1) 32 4 8

/-- A second wave, in slot 1. -/
def twoWaves (f : Wave → Wave) (p : Package) : Package :=
  p.modCtx 0 fun x => { x with waves := setAt x.waves 1 ((p.wave? 0 0).map fun w => f { w with waveId := 1 }) }

/-- The key of the wave. -/
def key0 : WaveKey := running.pkg.keyOf 0 0

/-- The key of the second wave. -/
def key1 : WaveKey := { key0 with slot := 1, waveId := 1 }

/-- A request, a reply, a walk, a bind record and a cast entry. -/
def req0 : Req := { key := key0, leader := 0, part := 0, id := 0, line := 0, own := true, staged := none, arrives := 0, body := .cflush false }
def reply0 (b : ReplyBody) : Reply := { key := key0, leader := 0, arrives := 0, body := b }
def walk0 : Walk := { part := 0, va := 0, write := false, fetch := false, waiters := [.wave 0 0], started := false, marked := false, end_ := none, ended := false }
def bind0 (op : BindOp) : Bind :=
  { op := op, arrives := 0, entry := 0, slots := [1], castid := 0, partition := 0, node := 1, castindex := 0, launchid := 0, sprow := 120, rows := 0, regbase := 0,
    units := 1, batchn := 1, batchpos := 0, cogroup := 1 }
def entry0 (st : CastState) : CastEntry :=
  { id := 0, part := 0, node := 1, launchid := 0, castindex := 0, batchn := 1, batchpos := 0, castid := some 0, state := st }

/-- The record of a collective. -/
def coll0 : Coll := { cast := 0, num := 0, head := 0, ctl := 0, members := [0], arrived := [], pos := none, finishing := false }
def pos0 : CopyPos :=
  { slices := [⟨0, 0, [], false⟩], recAddr := 0x20000, ord := 0, body := none, elem := 0, granule := none, bytes := [], go := false, landed := false, paused := false,
    denied := false, host := none, hostWait := false, ackAt := 0 }

/-- Page tables of four levels whose last entry asks for a first touch (R342), and a fault record. -/
def tables : State :=
  let p : Package := running.pkg.modPart 0 fun q => { q with ctx := { q.ctx with atroot := 0x100000 } }
  let put := fun (p : Package) (pa x : Nat) => { p with dram := Memory.writeList p.dram ((p.placeOf pa).getD 0) (leBytes 8 x) }
  { running with pkg := { put (put (put (put p 0x100000 0x101001) 0x101000 0x102001) 0x102000 0x103001) 0x103000 0x14 with
      faults := [⟨0, 0, 0, none, 0, 0, false, false⟩] } }

/-- The walk of those tables for address 0: the last entry's place. -/
def tableStep (s : State) (lev pa : Nat) : Option Nat :=
  match s.pkg.placeOf pa with
  | none => none
  | some a => match s.pkg.pteStep 0 0 false false lev (ofLe (s.pkg.readBytes a 8)) with
    | .next t => some t
    | _ => none

/-- The issuing wave after one step from reset with a word placed. -/
noncomputable def waveAfter (w : Nat) (P : Wave → Bool) : Bool :=
  match step (State.reset.withFetchWord 32 w) with
  | .next t => (t.pkg.wave? 0 0).any P
  | _ => false

/-- SLI s3, -1 writes all ones (R126). -/
theorem test_step_sli : waveAfter 0x1A0DFFFF (fun w => decide (w.s 3 = BitVec.allOnes 64)) = true := by decide +kernel

/-- VSPLATI v9, -5 sign-extends its immediate into every lane (R116, Table 6.3). -/
theorem test_step_vsplati : waveAfter 0x102407BC (fun w => decide (w.v 9 0 = 0xFFFFFFFB ∧ w.v 9 127 = 0xFFFFFFFB)) = true := by decide +kernel

/-- B -3 goes three words back from its own address (R152). -/
theorem test_step_b : waveAfter 0x1FFFFFFD (fun w => decide (w.slices.map Slice.pc = List.replicate 32 0xFFF4)) = true := by decide +kernel

/-- BL +6 goes six words on and keeps the address of the next word in s63 (R152, Table 8.2). -/
theorem test_step_bl : waveAfter 0x20000006 (fun w => decide (w.slices.map Slice.pc = List.replicate 32 0x10018 ∧ w.s 63 = 0x10004)) = true := by decide +kernel

/-! Every word that an obligation speaks of issues in some state that meets its hypotheses. -/

theorem test_issue_IntegerDivision : ∀ i ∈ ([.vdiv ⟨0, 0, 8, 16, 24⟩, .vdivu ⟨0, 0, 8, 16, 24⟩, .vrem ⟨0, 0, 8, 16, 24⟩, .vremu ⟨0, 0, 8, 16, 24⟩, .sdiv ⟨0, 0, 8, 16, 24⟩, .sdivu ⟨0, 0, 8, 16, 24⟩, .srem ⟨0, 0, 8, 16, 24⟩, .sremu ⟨0, 0, 8, 16, 24⟩] : List Instr), ∃ v, Issues issuing v i :=
  issues_all _ _ (by decide +kernel)

theorem test_issue_VectorIntegersAndCompares_0 : ∀ i ∈ ([.vadd ⟨0, 0, 8, 16, 24⟩, .vsub ⟨0, 0, 8, 16, 24⟩, .vmul ⟨0, 0, 8, 16, 24⟩, .vmulh ⟨0, 0, 8, 16, 24⟩, .vmulhu ⟨0, 0, 8, 16, 24⟩, .vmad ⟨0, 0, 8, 16, 24⟩, .vmin ⟨0, 0, 8, 16, 24⟩, .vmax ⟨0, 0, 8, 16, 24⟩, .vminu ⟨0, 0, 8, 16, 24⟩, .vmaxu ⟨0, 0, 8, 16, 24⟩, .vadds ⟨0, 0, 8, 16, 24⟩, .vsubs ⟨0, 0, 8, 16, 24⟩, .vcmpI32Eq ⟨0, 1, 0, 16, 24⟩, .vcmpI32Ne ⟨0, 1, 0, 16, 24⟩, .vcmpI32Lt ⟨0, 1, 0, 16, 24⟩, .vcmpI32Le ⟨0, 1, 0, 16, 24⟩] : List Instr), ∃ v, Issues issuing v i :=
  issues_all _ _ (by decide +kernel)

theorem test_issue_VectorIntegersAndCompares_1 : ∀ i ∈ ([.vcmpI32Ltu ⟨0, 1, 0, 16, 24⟩, .vcmpI32Leu ⟨0, 1, 0, 16, 24⟩, .vcmpI32Eqz ⟨0, 1, 0, 16⟩, .vcmpI32Nez ⟨0, 1, 0, 16⟩, .vcmpI64Eq ⟨0, 1, 0, 16, 24⟩, .vcmpI64Ne ⟨0, 1, 0, 16, 24⟩, .vcmpI64Lt ⟨0, 1, 0, 16, 24⟩, .vcmpI64Le ⟨0, 1, 0, 16, 24⟩, .vcmpI64Ltu ⟨0, 1, 0, 16, 24⟩, .vcmpI64Leu ⟨0, 1, 0, 16, 24⟩, .vcmpI64Eqz ⟨0, 1, 0, 16⟩, .vcmpI64Nez ⟨0, 1, 0, 16⟩] : List Instr), ∃ v, Issues issuing v i :=
  issues_all _ _ (by decide +kernel)

theorem test_issue_VectorLogicAndImmediates_0 : ∀ i ∈ ([.vand ⟨0, 0, 8, 16, 24⟩, .vor ⟨0, 0, 8, 16, 24⟩, .vxor ⟨0, 0, 8, 16, 24⟩, .vandn ⟨0, 0, 8, 16, 24⟩, .vshl ⟨0, 0, 8, 16, 24⟩, .vshr ⟨0, 0, 8, 16, 24⟩, .vsra ⟨0, 0, 8, 16, 24⟩, .vrol ⟨0, 0, 8, 16, 24⟩, .vpopc ⟨0, 0, 8, 16⟩, .vclz ⟨0, 0, 8, 16⟩, .vbrev ⟨0, 0, 8, 16⟩, .vadd64 ⟨0, 0, 8, 16, 24⟩, .vsub64 ⟨0, 0, 8, 16, 24⟩, .vmulw ⟨0, 0, 8, 16, 24⟩, .vshl64 ⟨0, 0, 8, 16, 24⟩, .vshr64 ⟨0, 0, 8, 16, 24⟩] : List Instr), ∃ v, Issues issuing v i :=
  issues_all _ _ (by decide +kernel)

theorem test_issue_VectorLogicAndImmediates_1 : ∀ i ∈ ([.vaddi ⟨0, 0, 8, 16, 16⟩, .vmuli ⟨0, 0, 8, 16, 16⟩, .vandi ⟨0, 0, 8, 16, 16⟩, .vori ⟨0, 0, 8, 16, 16⟩, .vxori ⟨0, 0, 8, 16, 16⟩, .vshli ⟨0, 0, 8, 16, 16⟩, .vshri ⟨0, 0, 8, 16, 16⟩, .vsrai ⟨0, 0, 8, 16, 16⟩, .vmini ⟨0, 0, 8, 16, 16⟩, .vmaxi ⟨0, 0, 8, 16, 16⟩, .vshl64i ⟨0, 0, 8, 16, 16⟩, .vshr64i ⟨0, 0, 8, 16, 16⟩, .vsplati ⟨0, 0, 8, 16⟩, .viota ⟨0, 0, 8, 16⟩] : List Instr), ∃ v, Issues issuing v i :=
  issues_all _ _ (by decide +kernel)

theorem test_issue_ScalarArithmeticWords_0 : ∀ i ∈ ([.sadd ⟨0, 0, 8, 16, 24⟩, .ssub ⟨0, 0, 8, 16, 24⟩, .smul ⟨0, 0, 8, 16, 24⟩, .smulhu ⟨0, 0, 8, 16, 24⟩, .sand ⟨0, 0, 8, 16, 24⟩, .sor ⟨0, 0, 8, 16, 24⟩, .sxor ⟨0, 0, 8, 16, 24⟩, .sshl ⟨0, 0, 8, 16, 24⟩, .sshr ⟨0, 0, 8, 16, 24⟩, .ssra ⟨0, 0, 8, 16, 24⟩, .sslt ⟨0, 0, 8, 16, 24⟩, .ssltu ⟨0, 0, 8, 16, 24⟩, .saddi ⟨0, 0, 8, 16, 9⟩, .sandi ⟨0, 0, 8, 16, 9⟩, .sori ⟨0, 0, 8, 16, 9⟩, .sxori ⟨0, 0, 8, 16, 9⟩] : List Instr), ∃ v, Issues issuing v i :=
  issues_all _ _ (by decide +kernel)

theorem test_issue_ScalarArithmeticWords_1 : ∀ i ∈ ([.sshli ⟨0, 0, 8, 16, 9⟩, .sshri ⟨0, 0, 8, 16, 9⟩, .ssrai ⟨0, 0, 8, 16, 9⟩, .sslti ⟨0, 0, 8, 16, 9⟩, .sli ⟨0, 0, 8, 5⟩] : List Instr), ∃ v, Issues issuing v i :=
  issues_all _ _ (by decide +kernel)

theorem test_issue_FloatingPointWords_0 : ∀ i ∈ ([.fadd ⟨0, 0, 8, 16, 24⟩, .fsub ⟨0, 0, 8, 16, 24⟩, .fmul ⟨0, 0, 8, 16, 24⟩, .fmac ⟨0, 0, 8, 16, 24⟩, .fnmac ⟨0, 0, 8, 16, 24⟩, .fmin ⟨0, 0, 8, 16, 24⟩, .fmax ⟨0, 0, 8, 16, 24⟩, .fdiv ⟨0, 0, 8, 16, 24⟩, .fsqrt ⟨0, 0, 8, 16⟩, .frcpe ⟨0, 0, 8, 16⟩, .frsqe ⟨0, 0, 8, 16⟩, .fsgnj ⟨0, 0, 8, 16, 24⟩, .fsgnjn ⟨0, 0, 8, 16, 24⟩, .fsgnjx ⟨0, 0, 8, 16, 24⟩, .fclass ⟨0, 0, 8, 16⟩, .fscale ⟨0, 0, 8, 16, 24⟩] : List Instr), ∃ v, Issues issuing v i :=
  issues_all _ _ (by decide +kernel)

theorem test_issue_FloatingPointWords_1 : ∀ i ∈ ([.dadd ⟨0, 0, 8, 16, 24⟩, .dsub ⟨0, 0, 8, 16, 24⟩, .dmul ⟨0, 0, 8, 16, 24⟩, .dmac ⟨0, 0, 8, 16, 24⟩, .dnmac ⟨0, 0, 8, 16, 24⟩, .dmin ⟨0, 0, 8, 16, 24⟩, .dmax ⟨0, 0, 8, 16, 24⟩, .ddiv ⟨0, 0, 8, 16, 24⟩, .dsqrt ⟨0, 0, 8, 16⟩, .drcpe ⟨0, 0, 8, 16⟩, .drsqe ⟨0, 0, 8, 16⟩, .dsgnj ⟨0, 0, 8, 16, 24⟩, .dsgnjn ⟨0, 0, 8, 16, 24⟩, .dsgnjx ⟨0, 0, 8, 16, 24⟩, .dclass ⟨0, 0, 8, 16⟩, .dscale ⟨0, 0, 8, 16, 24⟩] : List Instr), ∃ v, Issues issuing v i :=
  issues_all _ _ (by decide +kernel)

theorem test_issue_FloatingPointWords_2 : ∀ i ∈ ([.hadd2 ⟨0, 0, 8, 16, 24⟩, .hsub2 ⟨0, 0, 8, 16, 24⟩, .hmul2 ⟨0, 0, 8, 16, 24⟩, .hmac2 ⟨0, 0, 8, 16, 24⟩, .hmin2 ⟨0, 0, 8, 16, 24⟩, .hmax2 ⟨0, 0, 8, 16, 24⟩, .badd2 ⟨0, 0, 8, 16, 24⟩, .bsub2 ⟨0, 0, 8, 16, 24⟩, .bmul2 ⟨0, 0, 8, 16, 24⟩, .bmac2 ⟨0, 0, 8, 16, 24⟩, .bmin2 ⟨0, 0, 8, 16, 24⟩, .bmax2 ⟨0, 0, 8, 16, 24⟩, .hdot2 ⟨0, 0, 8, 16, 24⟩, .bdot2 ⟨0, 0, 8, 16, 24⟩, .qdot4 ⟨0, 0, 8, 16, 24⟩, .idot4 ⟨0, 0, 8, 16, 24⟩] : List Instr), ∃ v, Issues issuing v i :=
  issues_all _ _ (by decide +kernel)

theorem test_issue_FloatingPointWords_3 : ∀ i ∈ ([.vcmpF32Eq ⟨0, 1, 0, 16, 24⟩, .vcmpF32Lt ⟨0, 1, 0, 16, 24⟩, .vcmpF32Le ⟨0, 1, 0, 16, 24⟩, .vcmpF32Ne ⟨0, 1, 0, 16, 24⟩, .vcmpF32Un ⟨0, 1, 0, 16, 24⟩, .vcmpF32Ord ⟨0, 1, 0, 16, 24⟩, .vcmpF32Isnan ⟨0, 1, 0, 16⟩, .vcmpF32Isinf ⟨0, 1, 0, 16⟩, .vcmpF64Eq ⟨0, 1, 0, 16, 24⟩, .vcmpF64Lt ⟨0, 1, 0, 16, 24⟩, .vcmpF64Le ⟨0, 1, 0, 16, 24⟩, .vcmpF64Ne ⟨0, 1, 0, 16, 24⟩, .vcmpF64Un ⟨0, 1, 0, 16, 24⟩, .vcmpF64Ord ⟨0, 1, 0, 16, 24⟩, .vcmpF64Isnan ⟨0, 1, 0, 16⟩, .vcmpF64Isinf ⟨0, 1, 0, 16⟩] : List Instr), ∃ v, Issues issuing v i :=
  issues_all _ _ (by decide +kernel)

theorem test_issue_Conversions_0 : ∀ i ∈ ([.vcvtF32I32 ⟨0, 0, 8, 16, 0, 0⟩, .vcvtF32U32 ⟨0, 0, 8, 16, 0, 0⟩, .vcvtI32F32 ⟨0, 0, 8, 16, 0⟩, .vcvtU32F32 ⟨0, 0, 8, 16, 0⟩, .vcvtF32F64 ⟨0, 0, 8, 16, 0, 0⟩, .vcvtF64F32 ⟨0, 0, 8, 16⟩, .vcvtF64I32 ⟨0, 0, 8, 16⟩, .vcvtF64U32 ⟨0, 0, 8, 16⟩, .vcvtI32F64 ⟨0, 0, 8, 16, 0⟩, .vcvtU32F64 ⟨0, 0, 8, 16, 0⟩, .vcvtF64I64 ⟨0, 0, 8, 16, 0, 0⟩, .vcvtI64F64 ⟨0, 0, 8, 16, 0⟩, .vcvtF32I64 ⟨0, 0, 8, 16, 0, 0⟩, .vcvtI64F32 ⟨0, 0, 8, 16, 0⟩, .frint ⟨0, 0, 8, 16, 0⟩, .drint ⟨0, 0, 8, 16, 0⟩] : List Instr), ∃ v, Issues issuing v i :=
  issues_all _ _ (by decide +kernel)

theorem test_issue_Conversions_1 : ∀ i ∈ ([.vcvtF16F32 ⟨0, 0, 8, 16, 0, 0, 0⟩, .vcvtF32F16 ⟨0, 0, 8, 16, 0⟩, .vcvtBf16F32 ⟨0, 0, 8, 16, 0, 0, 0⟩, .vcvtF32Bf16 ⟨0, 0, 8, 16, 0⟩, .vcvtE4m3F32 ⟨0, 0, 8, 16, 0, 0, 0⟩, .vcvtE5m2F32 ⟨0, 0, 8, 16, 0, 0, 0⟩, .vcvtF32E4m3 ⟨0, 0, 8, 16, 0⟩, .vcvtF32E5m2 ⟨0, 0, 8, 16, 0⟩, .vcvtF16E4m3 ⟨0, 0, 8, 16, 0⟩, .vcvtF16E5m2 ⟨0, 0, 8, 16, 0⟩] : List Instr), ∃ v, Issues issuing v i :=
  issues_all _ _ (by decide +kernel)

theorem test_issue_MovesAndPredicates_0 : ∀ i ∈ ([.vmov ⟨0, 0, 8, 16⟩, .vbcs ⟨0, 0, 8, 16⟩, .vgetl ⟨0, 0, 8, 16, 24⟩, .vsetl ⟨0, 0, 8, 16, 24⟩, .vmovxr ⟨0, 0, 8, 16⟩, .vmovxw ⟨0, 0, 8, 16⟩, .vlane ⟨0, 0, 8⟩, .vsel ⟨0, 0, 8, 16, 24, 1⟩, .pand ⟨0, 1, 2, 3⟩, .por ⟨0, 1, 2, 3⟩, .pxor ⟨0, 1, 2, 3⟩, .pandn ⟨0, 1, 2, 3⟩, .pnot ⟨0, 1, 2⟩, .pset ⟨0, 1⟩, .pclr ⟨0, 1⟩, .pfroms ⟨0, 1, 10⟩] : List Instr), ∃ v, Issues issuing v i :=
  issues_all _ _ (by decide +kernel)

theorem test_issue_MovesAndPredicates_1 : ∀ i ∈ ([.ptos ⟨0, 2, 10⟩, .pcount ⟨0, 2, 10⟩, .pexec ⟨0, 2⟩] : List Instr), ∃ v, Issues issuing v i :=
  issues_all _ _ (by decide +kernel)

theorem test_issue_CrossLaneWords : ∀ i ∈ ([.vperm ⟨0, 0, 8, 16, 24⟩, .vbcl ⟨0, 0, 8, 16, 24⟩, .vrotl ⟨0, 0, 8, 16, 24⟩, .vxorl ⟨0, 0, 8, 16, 24⟩, .vupl ⟨0, 0, 8, 16, 24⟩, .vdnl ⟨0, 0, 8, 16, 24⟩, .iredadd ⟨0, 0, 8, 16⟩, .iredmin ⟨0, 0, 8, 16⟩, .iredmax ⟨0, 0, 8, 16⟩, .fredmin ⟨0, 0, 8, 16⟩, .fredmax ⟨0, 0, 8, 16⟩, .fredadd ⟨0, 0, 8, 16⟩, .iscan ⟨0, 0, 8, 16⟩, .fscan ⟨0, 0, 8, 16⟩, .vcompact ⟨0, 0, 8, 16, 1⟩] : List Instr), ∃ v, Issues issuing v i :=
  issues_all _ _ (by decide +kernel)

theorem test_issue_ControlRegisters : ∀ i ∈ ([.movc ⟨0, 0, 10, 24⟩, .copy ⟨0, 8, 16, 24⟩, .movcw ⟨0, 10, 24⟩] : List Instr), ∃ v, Issues issuing v i :=
  issues_all _ _ (by decide +kernel)

theorem test_issue_ScalarBuildTilesAndRequests : ∀ i ∈ ([.shi ⟨0, 8, 5⟩, .tdescr ⟨0, 10, 0⟩, .tdesc ⟨0, 10, 0⟩, .perfreq ⟨0, 10⟩] : List Instr), ∃ v, Issues issuing v i :=
  issues_all _ _ (by decide +kernel)

theorem test_issue_BranchesAndJumps : ∀ i ∈ ([.b ⟨0, 4⟩, .bl ⟨0, 4⟩, .bsEq ⟨0, 5, 6, 4⟩, .bsNe ⟨0, 5, 6, 4⟩, .bsLt ⟨0, 5, 6, 4⟩, .bsGe ⟨0, 5, 6, 4⟩, .bsLtu ⟨0, 5, 6, 4⟩, .bsGeu ⟨0, 5, 6, 4⟩, .bsZ ⟨0, 5, 4⟩, .bsNz ⟨0, 5, 4⟩, .jr ⟨0, 10⟩, .jlr ⟨0, 10⟩] : List Instr), ∃ v, Issues issuing v i :=
  issues_all _ _ (by decide +kernel)

theorem test_issue_PredicateBranches : ∀ i ∈ ([.bpAll ⟨0, 1, 4⟩, .bpAny ⟨0, 1, 4⟩, .bpUni ⟨0, 1, 4⟩, .bpSplit ⟨0, 1, 4⟩] : List Instr), ∃ v, Issues issuing v i :=
  issues_all _ _ (by decide +kernel)

theorem test_issue_JoinWord : ∀ i ∈ ([.join ⟨0⟩] : List Instr), ∃ v, Issues issuing v i :=
  issues_all _ _ (by decide +kernel)

theorem test_issue_RegangAndFlow : ∀ i ∈ ([.regangAll ⟨0⟩, .regangAny ⟨0⟩, .yield ⟨0⟩, .nop ⟨0⟩, .sleep ⟨0, 3⟩, .exit ⟨0⟩] : List Instr), ∃ v, Issues issuing v i :=
  issues_all _ _ (by decide +kernel)

theorem test_issue_SystemWordsAndTrapEntry : ∀ i ∈ ([.trap ⟨0, 10⟩, .brk ⟨0, 3⟩, .hostmsg ⟨0, 10, 3⟩, .ckpt ⟨0⟩, .stopnow ⟨0, 3⟩] : List Instr), ∃ v, Issues issuing v i :=
  issues_all _ _ (by decide +kernel)

theorem test_issue_TrapReturn_handler : ∀ i ∈ ([.tret ⟨0, 0⟩] : List Instr), ∃ v, Issues (withWave handler) v i :=
  issues_all _ _ (by decide +kernel)

theorem test_issue_BarrierWords : ∀ i ∈ ([.barrive ⟨0, 8, 16⟩, .bwait ⟨0, 8, 16, 24⟩, .bsync ⟨0, 8, 16⟩, .binit ⟨0, 16, 24⟩, .bkill ⟨0, 16⟩, .bquery ⟨0, 8, 16⟩] : List Instr), ∃ v, Issues issuing v i :=
  issues_all _ _ (by decide +kernel)

theorem test_issue_MembershipWords : ∀ i ∈ ([.attachTry ⟨0, 8, 16, 24⟩, .attachWait ⟨0, 8, 16, 24⟩, .detach ⟨0⟩] : List Instr), ∃ v, Issues issuing v i :=
  issues_all _ _ (by decide +kernel)

theorem test_issue_ScratchLoads : ∀ i ∈ ([.lds ⟨0, 8, 16, 4, 1, 0, 0⟩] : List Instr), ∃ v, Issues issuing v i :=
  issues_all _ _ (by decide +kernel)

theorem test_issue_ScratchStores : ∀ i ∈ ([.sts ⟨0, 8, 16, 4, 1, 0, 0⟩] : List Instr), ∃ v, Issues issuing v i :=
  issues_all _ _ (by decide +kernel)

theorem test_issue_Exchange : ∀ i ∈ ([.vxchg ⟨0, 8, 16, 24⟩] : List Instr), ∃ v, Issues issuing v i :=
  issues_all _ _ (by decide +kernel)

theorem test_issue_GlobalLoadsAndStores : ∀ i ∈ ([.ldc ⟨0, 8, 6, 4, 2⟩, .stc ⟨0, 8, 6, 4, 2⟩, .ldg ⟨0, 8, 16, 4, 2, 2, 0, 0⟩, .stg ⟨0, 8, 16, 4, 2, 2, 0, 0⟩] : List Instr), ∃ v, Issues issuing v i :=
  issues_all _ _ (by decide +kernel)

theorem test_issue_AtomicWords : ∀ i ∈ ([.amadd ⟨0, 8, 16, 4, 0, 0⟩, .amsmin ⟨0, 8, 16, 4, 0, 0⟩, .amsmax ⟨0, 8, 16, 4, 0, 0⟩, .amumin ⟨0, 8, 16, 4, 0, 0⟩, .amumax ⟨0, 8, 16, 4, 0, 0⟩, .amand ⟨0, 8, 16, 4, 0, 0⟩, .amor ⟨0, 8, 16, 4, 0, 0⟩, .amxor ⟨0, 8, 16, 4, 0, 0⟩, .amswap ⟨0, 8, 16, 4, 0, 0⟩, .amcas ⟨0, 8, 16, 4, 0, 0⟩, .amfadd ⟨0, 8, 16, 4, 0, 0⟩, .amfmin ⟨0, 8, 16, 4, 0, 0⟩, .amfmax ⟨0, 8, 16, 4, 0, 0⟩] : List Instr), ∃ v, Issues issuing v i :=
  issues_all _ _ (by decide +kernel)

theorem test_issue_ReservedAndHintWords : ∀ i ∈ ([.lr ⟨0, 8, 16, 4, 0⟩, .sc ⟨0, 8, 16, 4, 0⟩, .stred ⟨0, 8, 16, 4, 0⟩, .pref ⟨0, 16, 4, 0⟩, .cflush ⟨0, 16, 4, 0⟩] : List Instr), ∃ v, Issues issuing v i :=
  issues_all _ _ (by decide +kernel)

theorem test_issue_OrderingWords : ∀ i ∈ ([.fence ⟨0, 0, 1⟩, .cinv ⟨0⟩, .waitst ⟨0⟩] : List Instr), ∃ v, Issues issuing v i :=
  issues_all _ _ (by decide +kernel)

theorem test_issue_MatrixWordsAndArray_tiled : ∀ i ∈ ([.mma ⟨0, 3, 4, 8⟩, .mmaz ⟨0, 3, 4, 8⟩, .mmap ⟨0, 3, 4, 8, 0, 0⟩, .mdefer ⟨0, 3, 4, 8, 0, 0⟩, .msave ⟨0, 3, 8⟩, .mload ⟨0, 3, 8⟩] : List Instr), ∃ v, Issues tiled v i :=
  issues_all _ _ (by decide +kernel)

theorem test_issue_MatrixWordsAndArray : ∀ i ∈ ([.mwait ⟨0⟩] : List Instr), ∃ v, Issues issuing v i :=
  issues_all _ _ (by decide +kernel)

theorem test_issue_QueueAndRingWords : ∀ i ∈ ([.qinit ⟨0, 16, 24⟩, .qpush ⟨0, 8, 16, 24⟩, .qtrypush ⟨0, 8, 16, 24⟩, .qpop ⟨0, 8, 16⟩, .qtrypop ⟨0, 8, 16, 24⟩, .rwait ⟨0, 8, 16, 24⟩, .radv ⟨0, 8, 16, 24⟩] : List Instr), ∃ v, Issues issuing v i :=
  issues_all _ _ (by decide +kernel)

theorem test_issue_CopyProgress : ∀ i ∈ ([.engwait ⟨0, 8, 16⟩] : List Instr), ∃ v, Issues issuing v i :=
  issues_all _ _ (by decide +kernel)

theorem test_issue_CueAndDependenceWords : ∀ i ∈ ([.cueemit ⟨0, 8, 16, 24⟩, .dcset ⟨0, 16, 24⟩, .dcdec ⟨0, 16, 24⟩, .dcwait ⟨0, 8, 16⟩] : List Instr), ∃ v, Issues issuing v i :=
  issues_all _ _ (by decide +kernel)

/-! The clauses of the word statements: in each a state that meets its hypotheses. -/

theorem test_witness_moves_0 : ([(Meets (issuing) (.vgetl ⟨0, 0, 8, 123, 24⟩) fun s v => true),
    (Meets (latched) (.vgetl ⟨0, 0, 8, 124, 24⟩) fun s v => decide (v.src.party v.iss.leader ≠ [])),
    (Meets (withWave (sc 16 255)) (.vmovxr ⟨0, 0, 8, 16⟩) fun s v => decide ((v.sc 16).toNat < v.cast.regcount.toNat)),
    (Meets (withWave (sc 16 256)) (.vmovxr ⟨0, 0, 8, 16⟩) fun s v => !decide ((v.sc 16).toNat < v.cast.regcount.toNat)),
    (Meets (withWave (sc 8 255)) (.vmovxw ⟨0, 0, 8, 16⟩) fun s v => decide ((v.sc 8).toNat < v.cast.regcount.toNat)),
    (Meets (withWave (sc 8 256)) (.vmovxw ⟨0, 0, 8, 16⟩) fun s v => !decide ((v.sc 8).toNat < v.cast.regcount.toNat)),
    (Meets (issuing) (.vmovxw ⟨0, 1, 0, 16⟩) fun s v => true),
    (Meets (withWave (sc 24 127)) (.vsetl ⟨0, 0, 8, 16, 24⟩) fun s v => v.active 127 && decide ((v.sc 24).toNat % 128 = 127)),
    (Meets (withWave fun w => sc 24 127 ((fun w => { w with slices := modAt w.slices 31 fun x => { x with leader := 31, pc := 0x10008 } }) w)) (.vsetl ⟨0, 0, 8, 16, 24⟩) fun s v => !v.active 127 && decide ((v.sc 24).toNat % 128 = 127))] : List Bool).all id = true := by decide +kernel

theorem test_witness_control_registers_0 : ([(Meets (issuing) (.movc ⟨0, 0, 10, 24⟩) fun s v => decide (s.pkg.cast? v.iss.core v.src.cast = some v.cast)),
    (Meets (issuing) (.movcw ⟨0, 10, 0x019⟩) fun s v => true),
    (Meets (issuing) (.movcw ⟨0, 10, 0x030⟩) fun s v => true),
    (Meets (issuing) (.movcw ⟨0, 10, 0x031⟩) fun s v => true),
    (Meets (issuing) (.movc ⟨0, 0, 10, 0x004⟩) fun s v => (s.pkg.cast? v.iss.core v.src.cast).isSome),
    (Meets (issuing) (.movc ⟨0, 1, 0, 0x004⟩) fun s v => (s.pkg.cast? v.iss.core v.src.cast).isSome),
    (Meets (issuing) (.movc ⟨0, 0, 10, 0x010⟩) fun s v => decide (s.clk.num = 0) && (s.pkg.cast? v.iss.core v.src.cast).isSome)] : List Bool).all id = true := by decide +kernel

theorem test_witness_tiles_0 : ([(Meets (withWave (sc 10 (64 * 2 ^ 25 + 3 * 2 ^ 32))) (.tdesc ⟨0, 10, 1⟩) fun s v => decide (bits (v.sc 10).toNat 59 5 ≠ 0 ∨ 5 ≤ bits (v.sc 10).toNat 15 3 ∨ bits (v.sc 10).toNat 57 2 = 3 ∨ bits (v.sc 10).toNat 25 7 ≠ 64 ∨ bits (v.sc 10).toNat 32 10 < 4)),
    (Meets (withWave (sc 10 (64 * 2 ^ 25 + 4 * 2 ^ 32 + 32767))) (.tdesc ⟨0, 10, 1⟩) fun s v => !decide (bits (v.sc 10).toNat 59 5 ≠ 0 ∨ 5 ≤ bits (v.sc 10).toNat 15 3 ∨ bits (v.sc 10).toNat 57 2 = 3 ∨ bits (v.sc 10).toNat 25 7 ≠ 64 ∨ bits (v.sc 10).toNat 32 10 < 4) && decide (v.cast.spsize.toNat < TileEnd (v.sc 10).toNat)),
    (Meets (withWave (sc 10 (64 * 2 ^ 25 + 4 * 2 ^ 32 + 32764))) (.tdesc ⟨0, 10, 1⟩) fun s v => !decide (bits (v.sc 10).toNat 59 5 ≠ 0 ∨ 5 ≤ bits (v.sc 10).toNat 15 3 ∨ bits (v.sc 10).toNat 57 2 = 3 ∨ bits (v.sc 10).toNat 25 7 ≠ 64 ∨ bits (v.sc 10).toNat 32 10 < 4) && decide (TileEnd (v.sc 10).toNat = v.cast.spsize.toNat)),
    (Meets (withWave (sc 10 (64 * 2 ^ 25 + 4 * 2 ^ 32 + 2 ^ 57 + 32767 * 2 ^ 42 + 4 * 2 ^ 18))) (.tdesc ⟨0, 10, 1⟩) fun s v => !decide (bits (v.sc 10).toNat 59 5 ≠ 0 ∨ 5 ≤ bits (v.sc 10).toNat 15 3 ∨ bits (v.sc 10).toNat 57 2 = 3 ∨ bits (v.sc 10).toNat 25 7 ≠ 64 ∨ bits (v.sc 10).toNat 32 10 < 4) && decide (TileEnd (v.sc 10).toNat ≤ v.cast.spsize.toNat ∧ bits (v.sc 10).toNat 57 2 ≠ 0 ∧ v.cast.spsize.toNat < ScalesEnd (v.sc 10).toNat)),
    (Meets (withWave (sc 10 (64 * 2 ^ 25 + 4 * 2 ^ 32 + 2 ^ 57 + 32767 * 2 ^ 42 + 3 * 2 ^ 18))) (.tdesc ⟨0, 10, 1⟩) fun s v => !decide (bits (v.sc 10).toNat 59 5 ≠ 0 ∨ 5 ≤ bits (v.sc 10).toNat 15 3 ∨ bits (v.sc 10).toNat 57 2 = 3 ∨ bits (v.sc 10).toNat 25 7 ≠ 64 ∨ bits (v.sc 10).toNat 32 10 < 4) && decide (TileEnd (v.sc 10).toNat ≤ v.cast.spsize.toNat ∧ ScalesEnd (v.sc 10).toNat = v.cast.spsize.toNat))] : List Bool).all id = true := by decide +kernel

theorem test_witness_branches_0 : ([(Meets (withWave (sc 10 3)) (.jr ⟨0, 10⟩) fun s v => decide ((v.sc 10).toNat % 4 ≠ 0)),
    (Meets (withWave (sc 10 4)) (.jr ⟨0, 10⟩) fun s v => decide ((v.sc 10).toNat % 4 = 0)),
    (Meets (withWave (sc 10 3)) (.jlr ⟨0, 10⟩) fun s v => decide ((v.sc 10).toNat % 4 ≠ 0)),
    (Meets (withWave (sc 10 4)) (.jlr ⟨0, 10⟩) fun s v => decide ((v.sc 10).toNat % 4 = 0))] : List Bool).all id = true := by decide +kernel

theorem test_witness_predicate_branches_0 : ([(Meets (issuing) (.bpUni ⟨0, 0, 4⟩) fun s v => true),
    (Meets (withWave (fun w => { w with preds := w.preds.set 1 (BitVec.allOnes 128) })) (.bpUni ⟨0, 1, 4⟩) fun s v => ((List.range 128).all fun j => !v.active j || v.predAt 1 j)),
    (Meets (issuing) (.bpUni ⟨0, 1, 4⟩) fun s v => ((List.range 128).all fun j => !v.active j || !v.predAt 1 j)),
    (Meets (withWave (fun w => { w with preds := w.preds.set 1 1 })) (.bpUni ⟨0, 1, 4⟩) fun s v => !((List.range 128).all fun j => !v.active j || v.predAt 1 j) && !((List.range 128).all fun j => !v.active j || !v.predAt 1 j)),
    (Meets (issuing) (.bpSplit ⟨0, 0, 4⟩) fun s v => true),
    (Meets (withWave fun w => { w with preds := w.preds.set 1 1, slices := modAt w.slices 0 fun x => { x with stack := List.replicate 5 ⟨0, 15⟩ } }) (.bpSplit ⟨0, 1, 4⟩) fun s v => (v.now.slices[0]?).any fun x => v.slices.contains 0 && v.sliceTrue 1 0 ≠ 0 && v.sliceTrue 1 0 ≠ x.mask && 4 < x.stack.length),
    (Meets (withWave fun w => { w with preds := w.preds.set 1 1, slices := modAt w.slices 0 fun x => { x with stack := List.replicate 4 ⟨0, 15⟩ } }) (.bpSplit ⟨0, 1, 4⟩) fun s v => (v.now.slices[0]?).any fun x => v.slices.contains 0 && v.sliceTrue 1 0 ≠ 0 && v.sliceTrue 1 0 ≠ x.mask && x.stack.length = 4 && (List.range 32).all fun k => k = 0 || v.sliceTrue 1 k = 0)] : List Bool).all id = true := by decide +kernel

theorem test_witness_regang_0 : ([(Meets (withWave (fun w => { w with slices := modAt w.slices 31 fun x => { x with stack := [⟨0, 15⟩] } })) (.regangAll ⟨0⟩) fun s v => v.slices.any fun k => (v.now.slices[k]?).any fun x => x.stack ≠ []),
    (Meets (withWave (fun w => { w with slices := modAt w.slices 31 fun x => { x with stack := [⟨0, 15⟩] } })) (.regangAny ⟨0⟩) fun s v => v.slices.any fun k => (v.now.slices[k]?).any fun x => x.stack ≠ []),
    (Meets (issuing) (.regangAll ⟨0⟩) fun s v => v.now.leaders.all fun l => l = v.iss.leader),
    (Meets (withWave (fun w => { w with slices := modAt w.slices 31 fun x => { x with leader := 31, pc := 0x10008 } })) (.regangAll ⟨0⟩) fun s v => decide (v.now.leaders = [0, 31] ∧ v.now.blockedAt 31 = none ∧ v.iss.leader < v.now.slices.length)),
    (Meets (withWave (fun w => { w with slices := modAt w.slices 31 fun x => { x with leader := 31, pc := 0x10008 } })) (.regangAny ⟨0⟩) fun s v => decide (0 ∈ v.slices ∧ v.slices.length = 31 ∧ v.now.issueCounter 31 = some 0x10008)),
    (Meets (withWave (fun w => { w with slices := modAt w.slices 31 fun x => { x with leader := 31, pc := 0x10008 } })) (.exit ⟨0⟩) fun s v => decide (31 ∉ v.slices)),
    (Meets (issuing) (.exit ⟨0⟩) fun s v => decide (v.slices.length = 32))] : List Bool).all id = true := by decide +kernel

theorem test_witness_system_0 : ([(Meets (issuing) (.hostmsg ⟨0, 10, 3⟩) fun s v => decide (v.iss.leader < v.now.slices.length)),
    (decide (((running.pkg.modCast 0 0 fun c => { c with trappc := 0 }).cast? 0 0).map Cast.trappc = some 0 ∧ (running.pkg.wave? 0 0).isSome)),
    (decide (((running.pkg.modCast 0 0 fun c => { c with trappc := 1 }).cast? 0 0).map Cast.trappc = some 1 ∧ (running.pkg.wave? 0 0).isSome)),
    (Meets (withWave handler) (.tret ⟨0, 0⟩) fun s v => true)] : List Bool).all id = true := by decide +kernel

theorem test_witness_barriers_0 : ([(Meets (withWave (sc 16 8)) (.barrive ⟨0, 8, 16⟩) fun s v => decide ((v.sc 16).toNat % 16 ≠ 0)),
    (Meets (withWave (sc 16 524288)) (.barrive ⟨0, 8, 16⟩) fun s v => decide ((v.sc 16).toNat % 16 = 0 ∧ v.cast.spsize.toNat < (v.sc 16).toNat + 16)),
    (Meets (withWave (sc 16 524272)) (.barrive ⟨0, 8, 16⟩) fun s v => decide ((v.sc 16).toNat + 16 = v.cast.spsize.toNat ∧ (s.pkg.core 0).ctx.tag v.cast 32767 ≠ 1)),
    (Meets (withWave (sc 16 8)) (.bwait ⟨0, 8, 16, 24⟩) fun s v => decide ((v.sc 16).toNat % 16 ≠ 0)),
    (Meets (withWave (sc 16 524288)) (.bwait ⟨0, 8, 16, 24⟩) fun s v => decide ((v.sc 16).toNat % 16 = 0 ∧ v.cast.spsize.toNat < (v.sc 16).toNat + 16)),
    (Meets (withWave (sc 16 524272)) (.bwait ⟨0, 8, 16, 24⟩) fun s v => decide ((v.sc 16).toNat + 16 = v.cast.spsize.toNat ∧ (s.pkg.core 0).ctx.tag v.cast 32767 ≠ 1)),
    (Meets (withWave (sc 16 8)) (.bsync ⟨0, 8, 16⟩) fun s v => decide ((v.sc 16).toNat % 16 ≠ 0)),
    (Meets (withWave (sc 16 524288)) (.bsync ⟨0, 8, 16⟩) fun s v => decide ((v.sc 16).toNat % 16 = 0 ∧ v.cast.spsize.toNat < (v.sc 16).toNat + 16)),
    (Meets (withWave (sc 16 524272)) (.bsync ⟨0, 8, 16⟩) fun s v => decide ((v.sc 16).toNat + 16 = v.cast.spsize.toNat ∧ (s.pkg.core 0).ctx.tag v.cast 32767 ≠ 1)),
    (Meets (withWave (sc 16 8)) (.bkill ⟨0, 16⟩) fun s v => decide ((v.sc 16).toNat % 16 ≠ 0))] : List Bool).all id = true := by decide +kernel

theorem test_witness_barriers_1 : ([(Meets (withWave (sc 16 524288)) (.bkill ⟨0, 16⟩) fun s v => decide ((v.sc 16).toNat % 16 = 0 ∧ v.cast.spsize.toNat < (v.sc 16).toNat + 16)),
    (Meets (withWave (sc 16 524272)) (.bkill ⟨0, 16⟩) fun s v => decide ((v.sc 16).toNat + 16 = v.cast.spsize.toNat ∧ (s.pkg.core 0).ctx.tag v.cast 32767 ≠ 1)),
    (Meets (withWave (sc 16 8)) (.bquery ⟨0, 8, 16⟩) fun s v => decide ((v.sc 16).toNat % 16 ≠ 0)),
    (Meets (withWave (sc 16 524288)) (.bquery ⟨0, 8, 16⟩) fun s v => decide ((v.sc 16).toNat % 16 = 0 ∧ v.cast.spsize.toNat < (v.sc 16).toNat + 16)),
    (Meets (withWave (sc 16 524272)) (.bquery ⟨0, 8, 16⟩) fun s v => decide ((v.sc 16).toNat + 16 = v.cast.spsize.toNat ∧ (s.pkg.core 0).ctx.tag v.cast 32767 ≠ 1)),
    (Meets (withBar { phase := 5, arrived := 1, expected := 2, nextexp := 2, track := false, killed := true, owned := false, kend := false, owner := 0 } (sc 16 524272)) (.barrive ⟨0, 8, 16⟩) fun s v => AtBar s v fun b => b.killed),
    (Meets (withBar { phase := 5, arrived := 1, expected := 2, nextexp := 2, track := false, killed := true, owned := false, kend := false, owner := 0 } (sc 16 524272)) (.bwait ⟨0, 8, 16, 24⟩) fun s v => AtBar s v fun b => b.killed),
    (Meets (withBar { phase := 5, arrived := 1, expected := 2, nextexp := 2, track := false, killed := true, owned := false, kend := false, owner := 0 } (sc 16 524272)) (.bsync ⟨0, 8, 16⟩) fun s v => AtBar s v fun b => b.killed),
    (Meets (withBar { phase := 5, arrived := 2, expected := 2, nextexp := 2, track := false, killed := false, owned := false, kend := false, owner := 0 } (sc 16 524272)) (.barrive ⟨0, 8, 16⟩) fun s v => AtBar s v fun b => decide (b.track = false ∧ b.expected ≤ b.arrived)),
    (Meets (withBar { phase := 5, arrived := 1, expected := 2, nextexp := 2, track := false, killed := false, owned := false, kend := false, owner := 0 } (sc 16 524272)) (.barrive ⟨0, 8, 16⟩) fun s v => AtBar s v fun b => decide (b.track = false ∧ b.arrived + 1 = b.expected))] : List Bool).all id = true := by decide +kernel

theorem test_witness_barriers_2 : ([(Meets (withBar { phase := 5, arrived := 1, expected := 2, nextexp := 2, track := true, killed := false, owned := false, kend := false, owner := 0 } (fun w => { (sc 16 524272 w) with joinNext := [32767] })) (.barrive ⟨0, 8, 16⟩) fun s v => AtBar s v fun b => b.track && v.src.joinNext.contains 32767),
    (Meets (withBar { phase := 5, arrived := 1, expected := 2, nextexp := 2, track := true, killed := false, owned := false, kend := false, owner := 0 } (fun w => { (sc 16 524272 w) with arrivedAt := [⟨32767, 5⟩] })) (.barrive ⟨0, 8, 16⟩) fun s v => AtBar s v fun b => b.track && v.src.arrivedAt.contains ⟨32767, b.phase⟩),
    (Meets (withBar { phase := 5, arrived := 1, expected := 2, nextexp := 2, track := true, killed := false, owned := false, kend := false, owner := 0 } (sc 16 524272)) (.barrive ⟨0, 8, 16⟩) fun s v => AtBar s v fun b => b.track && v.src.joinNext.isEmpty && v.src.arrivedAt.isEmpty),
    (Meets (withBar { phase := 5, arrived := 2, expected := 2, nextexp := 2, track := false, killed := false, owned := false, kend := false, owner := 0 } (sc 16 524272)) (.bsync ⟨0, 8, 16⟩) fun s v => AtBar s v fun b => decide (b.track = false ∧ b.expected ≤ b.arrived)),
    (Meets (withBar { phase := 5, arrived := 1, expected := 2, nextexp := 2, track := false, killed := false, owned := false, kend := false, owner := 0 } (sc 16 524272)) (.bsync ⟨0, 8, 16⟩) fun s v => AtBar s v fun b => decide (b.track = false ∧ b.arrived + 1 = b.expected)),
    (Meets (withBar { phase := 5, arrived := 1, expected := 2, nextexp := 2, track := true, killed := false, owned := false, kend := false, owner := 0 } (fun w => { (sc 16 524272 w) with joinNext := [32767] })) (.bsync ⟨0, 8, 16⟩) fun s v => AtBar s v fun b => b.track && v.src.joinNext.contains 32767),
    (Meets (withBar { phase := 5, arrived := 1, expected := 2, nextexp := 2, track := true, killed := false, owned := false, kend := false, owner := 0 } (fun w => { (sc 16 524272 w) with arrivedAt := [⟨32767, 5⟩] })) (.bsync ⟨0, 8, 16⟩) fun s v => AtBar s v fun b => b.track && v.src.arrivedAt.contains ⟨32767, b.phase⟩),
    (Meets (withBar { phase := 5, arrived := 1, expected := 2, nextexp := 2, track := true, killed := false, owned := false, kend := false, owner := 0 } (sc 16 524272)) (.bsync ⟨0, 8, 16⟩) fun s v => AtBar s v fun b => b.track && v.src.joinNext.isEmpty && v.src.arrivedAt.isEmpty),
    (Meets (withBar { phase := 5, arrived := 1, expected := 2, nextexp := 2, track := false, killed := false, owned := false, kend := false, owner := 0 } (fun w => sc 24 (4) (sc 16 524272 w))) (.bwait ⟨0, 8, 16, 24⟩) fun s v => AtBar s v fun b => decide ((b.phase - (v.sc 24).setWidth 32).toNat = 1)),
    (Meets (withBar { phase := 5, arrived := 1, expected := 2, nextexp := 2, track := false, killed := false, owned := false, kend := false, owner := 0 } (fun w => sc 24 (5) (sc 16 524272 w))) (.bwait ⟨0, 8, 16, 24⟩) fun s v => AtBar s v fun b => decide ((b.phase - (v.sc 24).setWidth 32).toNat = 0))] : List Bool).all id = true := by decide +kernel

theorem test_witness_barriers_3 : ([(Meets (withBar { phase := 5, arrived := 1, expected := 2, nextexp := 2, track := false, killed := false, owned := false, kend := false, owner := 0 } (fun w => sc 24 (5 - 2 ^ 31) (sc 16 524272 w))) (.bwait ⟨0, 8, 16, 24⟩) fun s v => AtBar s v fun b => decide ((b.phase - (v.sc 24).setWidth 32).toNat = 2 ^ 31)),
    (Meets (withBar { phase := 5, arrived := 1, expected := 2, nextexp := 2, track := false, killed := false, owned := false, kend := false, owner := 0 } (fun w => { (sc 16 524272 w) with syncwait := some ⟨32767, 4⟩ })) (.bsync ⟨0, 8, 16⟩) fun s v => AtBar s v fun b => (v.src.syncwait.any fun r => r.granule = 32767 && (b.phase - r.phase).toNat = 1)),
    (Meets (withBar { phase := 5, arrived := 1, expected := 2, nextexp := 2, track := false, killed := false, owned := false, kend := false, owner := 0 } (fun w => { (sc 16 524272 w) with syncwait := some ⟨32767, 5⟩ })) (.bsync ⟨0, 8, 16⟩) fun s v => AtBar s v fun b => (v.src.syncwait.any fun r => r.granule = 32767 && (b.phase - r.phase).toNat = 0)),
    (Meets (withWave (sc 16 8)) (.binit ⟨0, 16, 24⟩) fun s v => decide ((v.sc 16).toNat % 16 ≠ 0)),
    (Meets (withWave (sc 16 524288)) (.binit ⟨0, 16, 24⟩) fun s v => decide ((v.sc 16).toNat % 16 = 0 ∧ v.cast.spsize.toNat < (v.sc 16).toNat + 16)),
    (Meets (withCtx (fun x => x.setTag fetchCast 0 2) id) (.binit ⟨0, 16, 24⟩) fun s v => decide (2 ≤ (s.pkg.core 0).ctx.tag v.cast 0)),
    (Meets (withWave (sc 24 (0))) (.binit ⟨0, 16, 24⟩) fun s v => decide ((s.pkg.core 0).ctx.tag v.cast 0 < 2 ∧ (bits (v.sc 24).toNat 19 45 ≠ 0 ∨ (bits (v.sc 24).toNat 16 1 = 1 ∧ bits (v.sc 24).toNat 0 16 ≠ 0) ∨ (bits (v.sc 24).toNat 16 1 = 0 ∧ bits (v.sc 24).toNat 0 16 = 0)))),
    (Meets (withWave (sc 24 (65537))) (.binit ⟨0, 16, 24⟩) fun s v => decide ((s.pkg.core 0).ctx.tag v.cast 0 < 2 ∧ (bits (v.sc 24).toNat 19 45 ≠ 0 ∨ (bits (v.sc 24).toNat 16 1 = 1 ∧ bits (v.sc 24).toNat 0 16 ≠ 0) ∨ (bits (v.sc 24).toNat 16 1 = 0 ∧ bits (v.sc 24).toNat 0 16 = 0)))),
    (Meets (withWave (sc 24 (2 ^ 19 + 1))) (.binit ⟨0, 16, 24⟩) fun s v => decide ((s.pkg.core 0).ctx.tag v.cast 0 < 2 ∧ (bits (v.sc 24).toNat 19 45 ≠ 0 ∨ (bits (v.sc 24).toNat 16 1 = 1 ∧ bits (v.sc 24).toNat 0 16 ≠ 0) ∨ (bits (v.sc 24).toNat 16 1 = 0 ∧ bits (v.sc 24).toNat 0 16 = 0)))),
    (Meets (withBar { phase := 5, arrived := 1, expected := 2, nextexp := 2, track := false, killed := false, owned := true, kend := false, owner := 1 } (fun w => sc 24 1 (sc 16 524272 w))) (.binit ⟨0, 16, 24⟩) fun s v => AtBar s v fun b => decide (¬ (bits (v.sc 24).toNat 19 45 ≠ 0 ∨ (bits (v.sc 24).toNat 16 1 = 1 ∧ bits (v.sc 24).toNat 0 16 ≠ 0) ∨ (bits (v.sc 24).toNat 16 1 = 0 ∧ bits (v.sc 24).toNat 0 16 = 0))) && b.owned && decide (b.owner ≠ v.src.waveId.toNat))] : List Bool).all id = true := by decide +kernel

theorem test_witness_barriers_4 : ([(Meets (withWave (sc 24 (1))) (.binit ⟨0, 16, 24⟩) fun s v => decide (¬ (bits (v.sc 24).toNat 19 45 ≠ 0 ∨ (bits (v.sc 24).toNat 16 1 = 1 ∧ bits (v.sc 24).toNat 0 16 ≠ 0) ∨ (bits (v.sc 24).toNat 16 1 = 0 ∧ bits (v.sc 24).toNat 0 16 = 0)) ∧ (s.pkg.core 0).ctx.tag v.cast 0 = 0)),
    (Meets (withWave (sc 24 (2 ^ 16))) (.binit ⟨0, 16, 24⟩) fun s v => decide (¬ (bits (v.sc 24).toNat 19 45 ≠ 0 ∨ (bits (v.sc 24).toNat 16 1 = 1 ∧ bits (v.sc 24).toNat 0 16 ≠ 0) ∨ (bits (v.sc 24).toNat 16 1 = 0 ∧ bits (v.sc 24).toNat 0 16 = 0)) ∧ (s.pkg.core 0).ctx.tag v.cast 0 = 0)),
    (Meets (withBar { phase := 5, arrived := 1, expected := 2, nextexp := 2, track := false, killed := false, owned := true, kend := false, owner := 1 } (sc 16 524272)) (.bkill ⟨0, 16⟩) fun s v => AtBar s v fun b => b.owned && decide (b.owner ≠ v.src.waveId.toNat)),
    (Meets (withBar { phase := 5, arrived := 1, expected := 2, nextexp := 2, track := false, killed := false, owned := true, kend := false, owner := 0 } (sc 16 524272)) (.bkill ⟨0, 16⟩) fun s v => AtBar s v fun b => b.owned && decide (b.owner = v.src.waveId.toNat)),
    (decide (((waiting (.bquery 0 8)).pkg.wave? 0 0).any fun w => (w.blockedAt w.sole).any fun b => b.op = .bquery 0 8))] : List Bool).all id = true := by decide +kernel

theorem test_witness_membership_0 : ([(Meets (withWave (sc 24 128)) (.attachTry ⟨0, 8, 16, 24⟩) fun s v => decide (bits (v.sc 24).toNat 7 1 ≠ 0 ∨ bits (v.sc 24).toNat 0 7 = 0)),
    (Meets (withWave fun w => sc 24 1 (sc 16 0x10002 w)) (.attachTry ⟨0, 8, 16, 24⟩) fun s v => decide (bits (v.sc 24).toNat 7 1 = 0 ∧ bits (v.sc 24).toNat 11 53 = 0 ∧ bits (v.sc 24).toNat 0 7 ≠ 0 ∧ (v.sc 16).toNat % 4 ≠ 0)),
    (Meets (withWave fun w => sc 24 1 (sc 16 0x10040 w)) (.attachTry ⟨0, 8, 16, 24⟩) fun s v => decide (bits (v.sc 24).toNat 7 1 = 0 ∧ bits (v.sc 24).toNat 11 53 = 0 ∧ bits (v.sc 24).toNat 0 7 ≠ 0 ∧ (v.sc 16).toNat % 4 = 0) && !v.cast.inCode (v.sc 16)),
    (Meets (withWave fun w => sc 24 1 (sc 16 0x1003C w)) (.attachTry ⟨0, 8, 16, 24⟩) fun s v => decide (bits (v.sc 24).toNat 7 1 = 0 ∧ bits (v.sc 24).toNat 11 53 = 0 ∧ bits (v.sc 24).toNat 0 7 ≠ 0 ∧ (v.sc 16).toNat % 4 = 0 ∧ v.iss.leader < v.now.slices.length) && v.cast.inCode (v.sc 16)),
    (Meets (withWave (sc 24 128)) (.attachWait ⟨0, 8, 16, 24⟩) fun s v => decide (bits (v.sc 24).toNat 7 1 ≠ 0 ∨ bits (v.sc 24).toNat 0 7 = 0)),
    (Meets (withWave fun w => sc 24 1 (sc 16 0x10002 w)) (.attachWait ⟨0, 8, 16, 24⟩) fun s v => decide (bits (v.sc 24).toNat 7 1 = 0 ∧ bits (v.sc 24).toNat 11 53 = 0 ∧ bits (v.sc 24).toNat 0 7 ≠ 0 ∧ (v.sc 16).toNat % 4 ≠ 0)),
    (Meets (withWave fun w => sc 24 1 (sc 16 0x10040 w)) (.attachWait ⟨0, 8, 16, 24⟩) fun s v => decide (bits (v.sc 24).toNat 7 1 = 0 ∧ bits (v.sc 24).toNat 11 53 = 0 ∧ bits (v.sc 24).toNat 0 7 ≠ 0 ∧ (v.sc 16).toNat % 4 = 0) && !v.cast.inCode (v.sc 16)),
    (Meets (withWave fun w => sc 24 1 (sc 16 0x1003C w)) (.attachWait ⟨0, 8, 16, 24⟩) fun s v => decide (bits (v.sc 24).toNat 7 1 = 0 ∧ bits (v.sc 24).toNat 11 53 = 0 ∧ bits (v.sc 24).toNat 0 7 ≠ 0 ∧ (v.sc 16).toNat % 4 = 0 ∧ v.iss.leader < v.now.slices.length) && v.cast.inCode (v.sc 16))] : List Bool).all id = true := by decide +kernel

theorem test_witness_scratch_0 : ([(Meets (withWave (sc 1 2)) (.lds ⟨0, 8, 0, 1, 1, 0, 2⟩) fun s v => v.active 0 && decide ((LaneAddress v 1 0 2 4 0).toNat % 4 ≠ 0)),
    (Meets (withWave (sc 1 524288)) (.lds ⟨0, 8, 0, 1, 1, 0, 2⟩) fun s v => v.active 0 && decide ((LaneAddress v 1 0 2 4 0).toNat % 4 = 0 ∧ v.cast.spsize.toNat < (LaneAddress v 1 0 2 4 0).toNat + 4)),
    (Meets (withCtx (fun x => x.setTag fetchCast 0 1) id) (.lds ⟨0, 8, 0, 1, 1, 1, 2⟩) fun s v => v.active 0 && decide ((s.pkg.core 0).ctx.tag v.cast ((LaneAddress v 1 0 2 4 0).toNat / 16) = 1)),
    (Meets (withCtx (fun x => x.setTag fetchCast 0 2) id) (.lds ⟨0, 8, 0, 1, 1, 1, 2⟩) fun s v => v.active 0 && decide ((s.pkg.core 0).ctx.tag v.cast ((LaneAddress v 1 0 2 4 0).toNat / 16) = 2)),
    (Meets (withWave (sc 1 524284)) (.lds ⟨0, 8, 0, 1, 1, 0, 2⟩) fun s v => decide ((LaneAddress v 1 0 2 4 0).toNat + 4 = v.cast.spsize.toNat ∧ v.iss.leader < v.now.slices.length)),
    (Meets (withCtx (fun x => { x with fe := [0] }) id) (.lds ⟨0, 8, 0, 1, 1, 1, 2⟩) fun s v => decide ((s.pkg.core 0).ctx.tag v.cast 0 = 0 ∧ (s.pkg.core 0).ctx.fe = [0] ∧ v.cast.granule 0 = 0)),
    (Meets (withCtx (fun x => { x with fe := [] }) id) (.lds ⟨0, 8, 0, 1, 1, 1, 2⟩) fun s v => decide ((s.pkg.core 0).ctx.tag v.cast 0 = 0 ∧ (s.pkg.core 0).ctx.fe = [] ∧ v.cast.granule 0 = 0)),
    (Meets (withWave (sc 1 2)) (.sts ⟨0, 8, 0, 1, 1, 0, 2⟩) fun s v => v.active 0 && decide ((LaneAddress v 1 0 2 4 0).toNat % 4 ≠ 0)),
    (Meets (withWave (sc 1 524288)) (.sts ⟨0, 8, 0, 1, 1, 0, 2⟩) fun s v => v.active 0 && decide ((LaneAddress v 1 0 2 4 0).toNat % 4 = 0 ∧ v.cast.spsize.toNat < (LaneAddress v 1 0 2 4 0).toNat + 4)),
    (Meets (withCtx (fun x => x.setTag fetchCast 0 1) id) (.sts ⟨0, 8, 0, 1, 1, 1, 2⟩) fun s v => v.active 0 && decide ((s.pkg.core 0).ctx.tag v.cast ((LaneAddress v 1 0 2 4 0).toNat / 16) = 1))] : List Bool).all id = true := by decide +kernel

theorem test_witness_scratch_1 : ([(Meets (withCtx (fun x => x.setTag fetchCast 0 2) id) (.sts ⟨0, 8, 0, 1, 1, 1, 2⟩) fun s v => v.active 0 && decide ((s.pkg.core 0).ctx.tag v.cast ((LaneAddress v 1 0 2 4 0).toNat / 16) = 2)),
    (Meets (withWave (sc 1 524284)) (.sts ⟨0, 8, 0, 1, 1, 0, 2⟩) fun s v => decide ((LaneAddress v 1 0 2 4 0).toNat + 4 = v.cast.spsize.toNat ∧ v.iss.leader < v.now.slices.length)),
    (Meets (withCtx (fun x => { x with fe := [0] }) id) (.sts ⟨0, 8, 0, 1, 1, 2, 2⟩) fun s v => decide ((s.pkg.core 0).ctx.tag v.cast 0 = 0 ∧ (s.pkg.core 0).ctx.fe = [0] ∧ v.cast.granule 0 = 0)),
    (Meets (withCtx (fun x => { x with fe := [] }) id) (.sts ⟨0, 8, 0, 1, 1, 2, 2⟩) fun s v => decide ((s.pkg.core 0).ctx.tag v.cast 0 = 0 ∧ (s.pkg.core 0).ctx.fe = [] ∧ v.cast.granule 0 = 0)),
    (Meets (withCtx (fun x => { x with spPoison := [0] }) id) (.lds ⟨0, 8, 0, 1, 1, 0, 2⟩) fun s v => decide ((s.pkg.core 0).ctx.spPoison = [0])),
    (decide (((waiting (.fullEmpty { store := false, fe := 1, size := 4, reg := 8, lanes := [⟨0, 0⟩], data := [] })).pkg.wave? 0 0).any fun w => (w.blockedAt 0).isSome))] : List Bool).all id = true := by decide +kernel

theorem test_witness_exchange_0 : ([(Meets (withWave (sc 24 1)) (.vxchg ⟨0, 8, 16, 24⟩) fun s v => decide ((v.sc 24).toNat % 256 = 1 ∧ (s.pkg.core 1).ctx.waves.all Option.isNone)),
    (Meets ({ issuing with pkg := (withWave (sc 24 256)).pkg.modCtx 0 fun x => { x with waves := setAt x.waves 1 ((running.pkg.wave? 0 0).map fun w => { w with waveId := 1 }) } }) (.vxchg ⟨0, 8, 16, 24⟩) fun s v => decide ((v.sc 24).toNat % 256 = v.iss.core ∧ v.iss.leader < v.now.slices.length) && ((s.pkg.core 0).ctx.waves[1]?).any fun o => o.any fun x => decide (x.waveId.toNat = (v.sc 24).toNat / 256 % 64 ∧ x.cast = v.src.cast)),
    (Waits0 (.xchg { operand := 256, partner := key1, tag := 0, dest := 8, snapshot := [], act := 0 } (some ([], 0)))),
    (Waits0 (.xchg { operand := 256, partner := key1, tag := 0, dest := 8, snapshot := [], act := 0 } none))] : List Bool).all id = true := by decide +kernel

theorem test_witness_memory_0 : ([(Meets (withWave (sc 6 2)) (.ldc ⟨0, 8, 6, 0, 2⟩) fun s v => v.active 0 && decide ((LineAddress v ⟨0, 8, 6, 0, 2⟩ 0).toNat % 4 ≠ 0)),
    (Meets (withWave (sc 6 (2 ^ 47))) (.ldc ⟨0, 8, 6, 0, 2⟩) fun s v => v.active 0 && decide ((LineAddress v ⟨0, 8, 6, 0, 2⟩ 0).toNat % 4 = 0 ∧ s.pkg.xlate 0 0 (.wave 0 0) (LineAddress v ⟨0, 8, 6, 0, 2⟩ 0) false false = .access)),
    (Meets (withWave (sc 6 0x20000)) (.ldc ⟨0, 8, 6, 0, 2⟩) fun s v => (List.range 128).all fun j => (DevicePlace s v false (LineAddress v ⟨0, 8, 6, 0, 2⟩ j)).isSome && decide ((LineAddress v ⟨0, 8, 6, 0, 2⟩ j).toNat % 4 = 0)),
    (Meets (withWave (sc 6 2)) (.stc ⟨0, 8, 6, 0, 2⟩) fun s v => v.active 0 && decide ((LineAddress v ⟨0, 8, 6, 0, 2⟩ 0).toNat % 4 ≠ 0)),
    (Meets (withWave (sc 6 (2 ^ 47))) (.stc ⟨0, 8, 6, 0, 2⟩) fun s v => v.active 0 && decide ((LineAddress v ⟨0, 8, 6, 0, 2⟩ 0).toNat % 4 = 0 ∧ s.pkg.xlate 0 0 (.wave 0 0) (LineAddress v ⟨0, 8, 6, 0, 2⟩ 0) true false = .access)),
    (Meets (withWave (sc 6 0x20000)) (.stc ⟨0, 8, 6, 0, 2⟩) fun s v => (List.range 128).all fun j => (DevicePlace s v true (LineAddress v ⟨0, 8, 6, 0, 2⟩ j)).isSome && decide ((LineAddress v ⟨0, 8, 6, 0, 2⟩ j).toNat % 4 = 0)),
    (Meets (withOrdered (sc 6 0x20000)) (.stc ⟨0, 8, 6, 0, 2⟩) fun s v => v.active 0 && v.cast.ordered && !v.cast.owns (LineAddress v ⟨0, 8, 6, 0, 2⟩ 0) 4),
    (Meets (withWave (sc 4 2)) (.ldg ⟨0, 8, 16, 4, 2, 2, 0, 0⟩) fun s v => v.active 0 && decide ((IndexedAddress v ⟨0, 8, 16, 4, 2, 2, 0, 0⟩ 0).toNat % 4 ≠ 0)),
    (Meets (withWave (sc 4 (2 ^ 47))) (.ldg ⟨0, 8, 16, 4, 2, 2, 0, 0⟩) fun s v => v.active 0 && decide ((IndexedAddress v ⟨0, 8, 16, 4, 2, 2, 0, 0⟩ 0).toNat % 4 = 0 ∧ s.pkg.xlate 0 0 (.wave 0 0) (IndexedAddress v ⟨0, 8, 16, 4, 2, 2, 0, 0⟩ 0) false false = .access)),
    (Meets (withWave (sc 4 0x20000)) (.ldg ⟨0, 8, 16, 4, 2, 2, 0, 0⟩) fun s v => (List.range 128).all fun j => (DevicePlace s v false (IndexedAddress v ⟨0, 8, 16, 4, 2, 2, 0, 0⟩ j)).isSome && decide ((IndexedAddress v ⟨0, 8, 16, 4, 2, 2, 0, 0⟩ j).toNat % 4 = 0))] : List Bool).all id = true := by decide +kernel

theorem test_witness_memory_1 : ([(Meets (withWave (sc 4 2)) (.stg ⟨0, 8, 16, 4, 2, 2, 0, 0⟩) fun s v => v.active 0 && decide ((IndexedAddress v ⟨0, 8, 16, 4, 2, 2, 0, 0⟩ 0).toNat % 4 ≠ 0)),
    (Meets (withWave (sc 4 (2 ^ 47))) (.stg ⟨0, 8, 16, 4, 2, 2, 0, 0⟩) fun s v => v.active 0 && decide ((IndexedAddress v ⟨0, 8, 16, 4, 2, 2, 0, 0⟩ 0).toNat % 4 = 0 ∧ s.pkg.xlate 0 0 (.wave 0 0) (IndexedAddress v ⟨0, 8, 16, 4, 2, 2, 0, 0⟩ 0) true false = .access)),
    (Meets (withWave (sc 4 0x20000)) (.stg ⟨0, 8, 16, 4, 2, 2, 0, 0⟩) fun s v => (List.range 128).all fun j => (DevicePlace s v true (IndexedAddress v ⟨0, 8, 16, 4, 2, 2, 0, 0⟩ j)).isSome && decide ((IndexedAddress v ⟨0, 8, 16, 4, 2, 2, 0, 0⟩ j).toNat % 4 = 0)),
    (Meets (withWave (sc 4 2)) (.amadd ⟨0, 8, 16, 4, 0, 0⟩) fun s v => v.active 0 && decide ((LaneIndexAddress v 4 16 0).toNat % 4 ≠ 0)),
    (Meets (withWave (sc 4 (2 ^ 47))) (.amadd ⟨0, 8, 16, 4, 0, 0⟩) fun s v => v.active 0 && decide ((LaneIndexAddress v 4 16 0).toNat % 4 = 0 ∧ s.pkg.xlate 0 0 (.wave 0 0) (LaneIndexAddress v 4 16 0) true false = .access)),
    (Meets (withWave (sc 4 0x20000)) (.amadd ⟨0, 8, 16, 4, 0, 0⟩) fun s v => (List.range 128).all fun j => (DevicePlace s v true (LaneIndexAddress v 4 16 j)).isSome && decide ((LaneIndexAddress v 4 16 j).toNat % 4 = 0)),
    (Meets (withOrdered (sc 4 0x20000)) (.amadd ⟨0, 8, 16, 4, 0, 0⟩) fun s v => v.active 0 && v.cast.ordered && !v.cast.owns (LaneIndexAddress v 4 16 0) 4),
    (Meets (withWave (sc 4 2)) (.lr ⟨0, 8, 16, 4, 0⟩) fun s v => v.active 0 && decide ((LaneIndexAddress v 4 16 0).toNat % 4 ≠ 0)),
    (Meets (withWave (sc 4 (2 ^ 47))) (.lr ⟨0, 8, 16, 4, 0⟩) fun s v => v.active 0 && decide ((LaneIndexAddress v 4 16 0).toNat % 4 = 0 ∧ s.pkg.xlate 0 0 (.wave 0 0) (LaneIndexAddress v 4 16 0) true false = .access)),
    (Meets (withWave (sc 4 0x20000)) (.lr ⟨0, 8, 16, 4, 0⟩) fun s v => (List.range 128).all fun j => (DevicePlace s v true (LaneIndexAddress v 4 16 j)).isSome && decide ((LaneIndexAddress v 4 16 j).toNat % 4 = 0))] : List Bool).all id = true := by decide +kernel

theorem test_witness_memory_2 : ([(Meets (withOrdered (sc 4 0x20000)) (.lr ⟨0, 8, 16, 4, 0⟩) fun s v => v.active 0 && v.cast.ordered && !v.cast.owns (LaneIndexAddress v 4 16 0) 4),
    (Meets (withWave (sc 4 2)) (.sc ⟨0, 8, 16, 4, 0⟩) fun s v => v.active 0 && decide ((LaneIndexAddress v 4 16 0).toNat % 4 ≠ 0)),
    (Meets (withWave (sc 4 (2 ^ 47))) (.sc ⟨0, 8, 16, 4, 0⟩) fun s v => v.active 0 && decide ((LaneIndexAddress v 4 16 0).toNat % 4 = 0 ∧ s.pkg.xlate 0 0 (.wave 0 0) (LaneIndexAddress v 4 16 0) true false = .access)),
    (Meets (withWave (sc 4 0x20000)) (.sc ⟨0, 8, 16, 4, 0⟩) fun s v => (List.range 128).all fun j => (DevicePlace s v true (LaneIndexAddress v 4 16 j)).isSome && decide ((LaneIndexAddress v 4 16 j).toNat % 4 = 0)),
    (Meets (withOrdered (sc 4 0x20000)) (.sc ⟨0, 8, 16, 4, 0⟩) fun s v => v.active 0 && v.cast.ordered && !v.cast.owns (LaneIndexAddress v 4 16 0) 4),
    (Meets (withWave (sc 4 2)) (.stred ⟨0, 8, 16, 4, 0⟩) fun s v => v.active 0 && decide ((LaneIndexAddress v 4 16 0).toNat % 4 ≠ 0)),
    (Meets (withWave (sc 4 (2 ^ 47))) (.stred ⟨0, 8, 16, 4, 0⟩) fun s v => v.active 0 && decide ((LaneIndexAddress v 4 16 0).toNat % 4 = 0 ∧ s.pkg.xlate 0 0 (.wave 0 0) (LaneIndexAddress v 4 16 0) true false = .access)),
    (Meets (withWave (sc 4 0x20000)) (.stred ⟨0, 8, 16, 4, 0⟩) fun s v => (List.range 128).all fun j => (DevicePlace s v true (LaneIndexAddress v 4 16 j)).isSome && decide ((LaneIndexAddress v 4 16 j).toNat % 4 = 0)),
    (Meets (withOrdered (sc 4 0x20000)) (.stred ⟨0, 8, 16, 4, 0⟩) fun s v => v.active 0 && v.cast.ordered && !v.cast.owns (LaneIndexAddress v 4 16 0) 4),
    (Meets (withWave (sc 4 2)) (.pref ⟨0, 16, 4, 0⟩) fun s v => (List.range 128).all fun j => s.pkg.xlate 0 0 (.wave 0 0) (LaneIndexAddress v 4 16 j) false false ≠ .walk)] : List Bool).all id = true := by decide +kernel

theorem test_witness_memory_3 : ([(Meets (withWave (sc 4 2)) (.cflush ⟨0, 16, 4, 0⟩) fun s v => (List.range 128).all fun j => s.pkg.xlate 0 0 (.wave 0 0) (LaneIndexAddress v 4 16 j) false false ≠ .walk)] : List Bool).all id = true := by decide +kernel

theorem test_witness_ordering_0 : ([(Meets (issuing) (.waitst ⟨0⟩) fun s v => decide (v.now.outst = 0)),
    (Meets (withWave fun w => { w with outst := 1 }) (.waitst ⟨0⟩) fun s v => decide (v.now.outst ≠ 0 ∧ v.iss.leader < v.now.slices.length)),
    (Meets (issuing) (.fence ⟨0, 3, 2⟩) fun s v => s.pkg.stages.getLsbD 1),
    (Waits0 .waitst)] : List Bool).all id = true := by decide +kernel

theorem test_witness_matrix_0 : ([(Meets (issuing) (.mwait ⟨0⟩) fun s v => decide (v.src.commands = 0)),
    (Meets (withWave fun w => { w with commands := 1 }) (.mwait ⟨0⟩) fun s v => decide (v.src.commands ≠ 0 ∧ v.iss.leader < v.now.slices.length)),
    (Waits0 .mwait),
    (Meets (tiled) (.mdefer ⟨0, 3, 4, 8, 0, 0⟩) fun s v => decide ((s.pkg.core 0).ctx.follow.getD 0 none = none)),
    (Meets ({ tiled with pkg := tiled.pkg.modCtx 0 fun x => { x with follow := setAt x.follow 0 (some ⟨{ key := key0, kind := .mma, acc := 0, ta := 0, tb := 0 }, false⟩) } }) (.mdefer ⟨0, 3, 4, 8, 0, 0⟩) fun s v => ((s.pkg.core 0).ctx.follow.getD 0 none).isSome)] : List Bool).all id = true := by decide +kernel

theorem test_witness_queues_0 : ([(Meets (withWave (sc 16 8)) (.qpush ⟨0, 8, 16, 24⟩) fun s v => decide ((v.sc 16).toNat % 16 ≠ 0)),
    (Meets (withWave (sc 16 524288)) (.qpush ⟨0, 8, 16, 24⟩) fun s v => decide (v.cast.spsize.toNat < (v.sc 16).toNat + 16)),
    (Meets (withWave (sc 16 524272)) (.qpush ⟨0, 8, 16, 24⟩) fun s v => decide ((v.sc 16).toNat + 16 = v.cast.spsize.toNat ∧ (s.pkg.core 0).ctx.tag v.cast 32767 ≠ 3)),
    (Meets (withWave (sc 16 8)) (.qtrypush ⟨0, 8, 16, 24⟩) fun s v => decide ((v.sc 16).toNat % 16 ≠ 0)),
    (Meets (withWave (sc 16 524288)) (.qtrypush ⟨0, 8, 16, 24⟩) fun s v => decide (v.cast.spsize.toNat < (v.sc 16).toNat + 16)),
    (Meets (withWave (sc 16 524272)) (.qtrypush ⟨0, 8, 16, 24⟩) fun s v => decide ((v.sc 16).toNat + 16 = v.cast.spsize.toNat ∧ (s.pkg.core 0).ctx.tag v.cast 32767 ≠ 3)),
    (Meets (withWave (sc 16 8)) (.qpop ⟨0, 8, 16⟩) fun s v => decide ((v.sc 16).toNat % 16 ≠ 0)),
    (Meets (withWave (sc 16 524288)) (.qpop ⟨0, 8, 16⟩) fun s v => decide (v.cast.spsize.toNat < (v.sc 16).toNat + 16)),
    (Meets (withWave (sc 16 524272)) (.qpop ⟨0, 8, 16⟩) fun s v => decide ((v.sc 16).toNat + 16 = v.cast.spsize.toNat ∧ (s.pkg.core 0).ctx.tag v.cast 32767 ≠ 3)),
    (Meets (withWave (sc 16 8)) (.qtrypop ⟨0, 8, 16, 24⟩) fun s v => decide ((v.sc 16).toNat % 16 ≠ 0))] : List Bool).all id = true := by decide +kernel

theorem test_witness_queues_1 : ([(Meets (withWave (sc 16 524288)) (.qtrypop ⟨0, 8, 16, 24⟩) fun s v => decide (v.cast.spsize.toNat < (v.sc 16).toNat + 16)),
    (Meets (withWave (sc 16 524272)) (.qtrypop ⟨0, 8, 16, 24⟩) fun s v => decide ((v.sc 16).toNat + 16 = v.cast.spsize.toNat ∧ (s.pkg.core 0).ctx.tag v.cast 32767 ≠ 3)),
    (Meets (withWave (sc 16 8)) (.rwait ⟨0, 8, 16, 24⟩) fun s v => decide ((v.sc 16).toNat % 16 ≠ 0)),
    (Meets (withWave (sc 16 524288)) (.rwait ⟨0, 8, 16, 24⟩) fun s v => decide (v.cast.spsize.toNat < (v.sc 16).toNat + 16)),
    (Meets (withWave (sc 16 524272)) (.rwait ⟨0, 8, 16, 24⟩) fun s v => decide ((v.sc 16).toNat + 16 = v.cast.spsize.toNat ∧ (s.pkg.core 0).ctx.tag v.cast 32767 ≠ 3)),
    (Meets (withWave (sc 16 8)) (.radv ⟨0, 8, 16, 24⟩) fun s v => decide ((v.sc 16).toNat % 16 ≠ 0)),
    (Meets (withWave (sc 16 524288)) (.radv ⟨0, 8, 16, 24⟩) fun s v => decide (v.cast.spsize.toNat < (v.sc 16).toNat + 16)),
    (Meets (withWave (sc 16 524272)) (.radv ⟨0, 8, 16, 24⟩) fun s v => decide ((v.sc 16).toNat + 16 = v.cast.spsize.toNat ∧ (s.pkg.core 0).ctx.tag v.cast 32767 ≠ 3)),
    (Meets (withQueue (2 + 2 * 2 ^ 15 + 2 * 2 ^ 30 + 2 ^ 112) id) (.qpush ⟨0, 8, 16, 24⟩) fun s v => AtQueue s v false fun q => decide (bits q 112 16 = 1) && ElementTagged1 s v q (bits q 96 16)),
    (Meets (withQueue (2 + 2 * 2 ^ 15 + 2 * 2 ^ 30) id) (.qpush ⟨0, 8, 16, 24⟩) fun s v => AtQueue s v false fun q => decide (bits q 112 16 = 0))] : List Bool).all id = true := by decide +kernel

theorem test_witness_queues_2 : ([(Meets (withQueue (2 + 2 * 2 ^ 15 + 2 * 2 ^ 30 + 2 ^ 112) id) (.qtrypush ⟨0, 8, 16, 24⟩) fun s v => AtQueue s v false fun q => decide (bits q 112 16 = 1) && ElementTagged1 s v q (bits q 96 16)),
    (Meets (withQueue (2 + 2 * 2 ^ 15 + 2 * 2 ^ 30) id) (.qtrypush ⟨0, 8, 16, 24⟩) fun s v => AtQueue s v false fun q => decide (bits q 112 16 = 0)),
    (Meets (withQueue (2 + 2 * 2 ^ 15 + 2 * 2 ^ 30 + 2 ^ 96) id) (.qpop ⟨0, 8, 16⟩) fun s v => AtQueue s v false fun q => decide (bits q 96 16 ≠ bits q 80 16) && ElementTagged1 s v q (bits q 80 16)),
    (Meets (withQueue (2 + 2 * 2 ^ 15 + 2 * 2 ^ 30) id) (.qpop ⟨0, 8, 16⟩) fun s v => AtQueue s v false fun q => decide (bits q 96 16 = bits q 80 16)),
    (Meets (withQueue (2 + 2 * 2 ^ 15 + 2 * 2 ^ 30 + 2 ^ 96) id) (.qtrypop ⟨0, 8, 16, 24⟩) fun s v => AtQueue s v false fun q => decide (bits q 96 16 ≠ bits q 80 16) && ElementTagged1 s v q (bits q 80 16)),
    (Meets (withQueue (2 + 2 * 2 ^ 15 + 2 * 2 ^ 30) id) (.qtrypop ⟨0, 8, 16, 24⟩) fun s v => AtQueue s v false fun q => decide (bits q 96 16 = bits q 80 16)),
    (Meets (withQueue (2 + 2 * 2 ^ 15 + 2 ^ 29) (sc 24 2)) (.rwait ⟨0, 8, 16, 24⟩) fun s v => AtQueue s v true fun q => decide (bits q 15 11 = bits (v.sc 24).toNat 0 16)),
    (Meets (withQueue (2 + 2 * 2 ^ 15 + 2 ^ 29) (sc 24 (2 ^ 17))) (.rwait ⟨0, 8, 16, 24⟩) fun s v => AtQueue s v true fun _ => decide (2 ^ 17 ≤ (v.sc 24).toNat)),
    (Meets (withQueue (2 + 2 * 2 ^ 15 + 2 ^ 29) (sc 24 1)) (.rwait ⟨0, 8, 16, 24⟩) fun s v => AtQueue s v true fun q => decide (bits (v.sc 24).toNat 0 16 < bits q 15 11) && decide (decide (v.cast.granule (bits q 0 15 + bits (v.sc 24).toNat 0 16) ∈ (s.pkg.core 0).ctx.fe) = decide (bits (v.sc 24).toNat 16 1 = 1))),
    (Meets (withQueue (2 + 2 * 2 ^ 15 + 2 ^ 29) (sc 24 (2 ^ 16))) (.rwait ⟨0, 8, 16, 24⟩) fun s v => AtQueue s v true fun q => decide (bits (v.sc 24).toNat 0 16 < bits q 15 11) && !decide (decide (v.cast.granule (bits q 0 15 + bits (v.sc 24).toNat 0 16) ∈ (s.pkg.core 0).ctx.fe) = decide (bits (v.sc 24).toNat 16 1 = 1)))] : List Bool).all id = true := by decide +kernel

theorem test_witness_queues_3 : ([(Meets (withQueue (2 + 2 * 2 ^ 15 + 2 ^ 29) (sc 24 2)) (.radv ⟨0, 8, 16, 24⟩) fun s v => AtQueue s v true fun q => decide (bits q 15 11 = bits (v.sc 24).toNat 0 16)),
    (Meets (withQueue (2 + 2 * 2 ^ 15 + 2 ^ 29) (sc 24 (2 ^ 18))) (.radv ⟨0, 8, 16, 24⟩) fun s v => AtQueue s v true fun _ => decide (2 ^ 18 ≤ (v.sc 24).toNat)),
    (Meets (withQueue (2 + 2 * 2 ^ 15 + 2 ^ 29) (sc 24 1)) (.radv ⟨0, 8, 16, 24⟩) fun s v => AtQueue s v true fun q => decide (bits (v.sc 24).toNat 0 16 < bits q 15 11) && decide (decide (v.cast.granule (bits q 0 15 + bits (v.sc 24).toNat 0 16) ∈ (s.pkg.core 0).ctx.fe) = decide (bits (v.sc 24).toNat 16 1 = 1))),
    (Meets (withQueue (2 + 2 * 2 ^ 15 + 2 ^ 29) (sc 24 (2 ^ 16))) (.radv ⟨0, 8, 16, 24⟩) fun s v => AtQueue s v true fun q => decide (bits (v.sc 24).toNat 0 16 < bits q 15 11) && !decide (decide (v.cast.granule (bits q 0 15 + bits (v.sc 24).toNat 0 16) ∈ (s.pkg.core 0).ctx.fe) = decide (bits (v.sc 24).toNat 16 1 = 1))),
    (Meets (withQueue (2 + 2 * 2 ^ 15 + 2 ^ 29) (sc 24 (2 ^ 17))) (.radv ⟨0, 8, 16, 24⟩) fun s v => AtQueue s v true fun q => decide (bits (v.sc 24).toNat 17 1 = 1) && decide (decide (v.cast.granule (bits q 0 15 + bits (v.sc 24).toNat 0 16) ∈ (s.pkg.core 0).ctx.fe) = decide (bits (v.sc 24).toNat 16 1 = 1))),
    (Meets (withWave (sc 16 8)) (.qinit ⟨0, 16, 24⟩) fun s v => decide ((v.sc 16).toNat % 16 ≠ 0)),
    (Meets (withWave (sc 16 524288)) (.qinit ⟨0, 16, 24⟩) fun s v => decide (v.cast.spsize.toNat < (v.sc 16).toNat + 16)),
    (Meets (withCtx (fun x => x.setTag fetchCast 0 1) id) (.qinit ⟨0, 16, 24⟩) fun s v => decide ((s.pkg.core 0).ctx.tag v.cast 0 = 1)),
    (Meets (issuing) (.qinit ⟨0, 16, 24⟩) fun s v => decide ((s.pkg.core 0).ctx.tag v.cast 0 ≠ 1 ∧ (2 ^ 46 ≤ (v.sc 24).toNat ∨ bits (v.sc 24).toNat 15 11 = 0 ∨ 1024 < bits (v.sc 24).toNat 15 11 ∨ 6 ≤ bits (v.sc 24).toNat 26 3 ∨ (bits (v.sc 24).toNat 29 1 = 1 ∧ (bits (v.sc 24).toNat 26 3 ≠ 0 ∨ bits (v.sc 24).toNat 30 16 ≠ 0)) ∨ (bits (v.sc 24).toNat 29 1 = 0 ∧ (bits (v.sc 24).toNat 30 16 = 0 ∨ bits (v.sc 24).toNat 15 11 < bits (v.sc 24).toNat 30 16))))),
    (Meets (withWave (sc 24 (32767 + 2 * 2 ^ 15 + 2 * 2 ^ 30))) (.qinit ⟨0, 16, 24⟩) fun s v => decide (¬ (2 ^ 46 ≤ (v.sc 24).toNat ∨ bits (v.sc 24).toNat 15 11 = 0 ∨ 1024 < bits (v.sc 24).toNat 15 11 ∨ 6 ≤ bits (v.sc 24).toNat 26 3 ∨ (bits (v.sc 24).toNat 29 1 = 1 ∧ (bits (v.sc 24).toNat 26 3 ≠ 0 ∨ bits (v.sc 24).toNat 30 16 ≠ 0)) ∨ (bits (v.sc 24).toNat 29 1 = 0 ∧ (bits (v.sc 24).toNat 30 16 = 0 ∨ bits (v.sc 24).toNat 15 11 < bits (v.sc 24).toNat 30 16))) ∧ v.cast.spsize.toNat < 16 * (bits (v.sc 24).toNat 0 15 + bits (v.sc 24).toNat 15 11 * 2 ^ bits (v.sc 24).toNat 26 3)))] : List Bool).all id = true := by decide +kernel

theorem test_witness_queues_4 : ([(Meets (withWave (sc 24 (2 * 2 ^ 15 + 2 * 2 ^ 30))) (.qinit ⟨0, 16, 24⟩) fun s v => decide (¬ (2 ^ 46 ≤ (v.sc 24).toNat ∨ bits (v.sc 24).toNat 15 11 = 0 ∨ 1024 < bits (v.sc 24).toNat 15 11 ∨ 6 ≤ bits (v.sc 24).toNat 26 3 ∨ (bits (v.sc 24).toNat 29 1 = 1 ∧ (bits (v.sc 24).toNat 26 3 ≠ 0 ∨ bits (v.sc 24).toNat 30 16 ≠ 0)) ∨ (bits (v.sc 24).toNat 29 1 = 0 ∧ (bits (v.sc 24).toNat 30 16 = 0 ∨ bits (v.sc 24).toNat 15 11 < bits (v.sc 24).toNat 30 16))) ∧ bits (v.sc 24).toNat 0 15 = 0)),
    (Meets (withWave (sc 24 (2 + 2 * 2 ^ 15 + 2 * 2 ^ 30))) (.qinit ⟨0, 16, 24⟩) fun s v => decide (¬ (2 ^ 46 ≤ (v.sc 24).toNat ∨ bits (v.sc 24).toNat 15 11 = 0 ∨ 1024 < bits (v.sc 24).toNat 15 11 ∨ 6 ≤ bits (v.sc 24).toNat 26 3 ∨ (bits (v.sc 24).toNat 29 1 = 1 ∧ (bits (v.sc 24).toNat 26 3 ≠ 0 ∨ bits (v.sc 24).toNat 30 16 ≠ 0)) ∨ (bits (v.sc 24).toNat 29 1 = 0 ∧ (bits (v.sc 24).toNat 30 16 = 0 ∨ bits (v.sc 24).toNat 15 11 < bits (v.sc 24).toNat 30 16))) ∧ 0 < bits (v.sc 24).toNat 0 15) && (List.range 8).all fun n => decide ((s.pkg.core 0).ctx.tag v.cast n = 0)),
    (Meets (withWave (sc 24 (2 + 2 * 2 ^ 15 + 2 ^ 29))) (.qinit ⟨0, 16, 24⟩) fun s v => decide (¬ (2 ^ 46 ≤ (v.sc 24).toNat ∨ bits (v.sc 24).toNat 15 11 = 0 ∨ 1024 < bits (v.sc 24).toNat 15 11 ∨ 6 ≤ bits (v.sc 24).toNat 26 3 ∨ (bits (v.sc 24).toNat 29 1 = 1 ∧ (bits (v.sc 24).toNat 26 3 ≠ 0 ∨ bits (v.sc 24).toNat 30 16 ≠ 0)) ∨ (bits (v.sc 24).toNat 29 1 = 0 ∧ (bits (v.sc 24).toNat 30 16 = 0 ∨ bits (v.sc 24).toNat 15 11 < bits (v.sc 24).toNat 30 16))) ∧ 0 < bits (v.sc 24).toNat 0 15) && (List.range 8).all fun n => decide ((s.pkg.core 0).ctx.tag v.cast n = 0)),
    (QueueWaits (.qpush 0 (List.replicate 128 0) 8) (2 + 2 * 2 ^ 15 + 2 * 2 ^ 30 + 2 ^ 112) fun q => decide (bits q 112 16 ≠ 0)),
    (QueueWaits (.qpush 0 (List.replicate 128 0) 8) (2 + 2 * 2 ^ 15 + 2 * 2 ^ 30) fun q => decide (bits q 112 16 = 0)),
    (QueueWaits (.qpop 0 8) (2 + 2 * 2 ^ 15 + 2 * 2 ^ 30 + 2 ^ 96) fun q => decide (bits q 96 16 ≠ bits q 80 16)),
    (QueueWaits (.qpop 0 8) (2 + 2 * 2 ^ 15 + 2 * 2 ^ 30) fun q => decide (bits q 96 16 = bits q 80 16)),
    (QueueWaits (.rwait 0 1 false 8) (2 + 2 * 2 ^ 15 + 2 ^ 29) fun q => decide (decide (bits q 0 15 + 1 ∈ ([] : List Nat)) = false)),
    (QueueWaits (.rwait 0 1 true 8) (2 + 2 * 2 ^ 15 + 2 ^ 29) fun q => decide (decide (bits q 0 15 + 1 ∈ ([] : List Nat)) ≠ true))] : List Bool).all id = true := by decide +kernel

theorem test_witness_copies_0 : ([(Meets (withWave (sc 16 1)) (.copy ⟨0, 8, 16, 24⟩) fun s v => decide ((v.sc 16).toNat % 64 ≠ 0)),
    (Meets (withWave (sc 17 (2 ^ 30))) (.copy ⟨0, 8, 16, 24⟩) fun s v => decide ((v.sc 16).toNat % 64 = 0 ∧ 2 ^ 30 ≤ (v.sc 17).toNat)),
    (Meets ({ withWave (sc 17 (2 ^ 25 + 1023 * 2 ^ 10)) with pkg := (withWave (sc 17 (2 ^ 25 + 1023 * 2 ^ 10))).pkg.modCast 0 0 fun c => { c with spsize := 16368 } }) (.copy ⟨0, 8, 16, 24⟩) fun s v => decide (bits (v.sc 17).toNat 25 1 = 1 ∧ v.cast.spsize.toNat < 16 * bits (v.sc 17).toNat 10 15 + 16)),
    (Meets (issuing) (.copy ⟨0, 8, 16, 24⟩) fun s v => decide ((s.pkg.core 0).ctx.colls[0]? = some none ∧ (v.sc 17).toNat < 2 ^ 30)),
    (Meets (withCtx (fun x => { x with colls := setAt x.colls 0 (some { cast := 0, num := 0, head := 0, ctl := 0, members := [0, 1], arrived := [], pos := none, finishing := false }) }) id) (.copy ⟨0, 8, 16, 24⟩) fun s v => ((s.pkg.core 0).ctx.colls[0]?).any fun o => o.any fun k => decide (k.cast = v.now.cast ∧ k.num = v.now.nextCopy)),
    (Meets (withCtx (fun x => { x with colls := List.replicate 16 (some { cast := 1, num := 0, head := 0, ctl := 0, members := [], arrived := [], pos := none, finishing := false }) }) id) (.copy ⟨0, 8, 16, 24⟩) fun s v => decide (v.iss.leader < v.now.slices.length) && (s.pkg.core 0).ctx.colls.all fun o => o.any fun k => decide (k.cast ≠ v.now.cast)),
    (Waits0 (.create ⟨0, 0, 0, 8⟩) && decide (((List.replicate 16 none) : List (Option Coll)).length ≤ 16)),
    (Waits0 (.create ⟨0, 0, 0, 8⟩) && decide (((List.replicate 16 (some { cast := 1, num := 0, head := 0, ctl := 0, members := [], arrived := [], pos := none, finishing := false })) : List (Option Coll)).length ≤ 16)),
    (Waits0 (.create ⟨0, 0, 0, 8⟩) && decide ((([some { cast := 0, num := 0, head := 0, ctl := 0, members := [0, 1], arrived := [], pos := none, finishing := false }]) : List (Option Coll)).length ≤ 16)),
    (Meets ({ issuing with pkg := issuing.pkg.modCast 0 0 fun c => { c with cdone := 1, ring := [(0, ⟨0, 0⟩)] } }) (.engwait ⟨0, 8, 16⟩) fun s v => decide ((v.cast.cdone - (v.sc 16).setWidth 32 - 1).toNat < 2 ^ 31))] : List Bool).all id = true := by decide +kernel

theorem test_witness_copies_1 : ([(Meets (issuing) (.engwait ⟨0, 8, 16⟩) fun s v => decide (2 ^ 31 ≤ (v.cast.cdone - (v.sc 16).setWidth 32 - 1).toNat ∧ v.iss.leader < v.now.slices.length)),
    (Meets (issuing) (.copy ⟨0, 8, 16, 24⟩) fun s v => s.pkg.recordFor v.iss.core v.now.cast v.now.nextCopy),
    (Meets (withCtx (fun x => { x with colls := List.replicate 16 (some { cast := 1, num := 0, head := 0, ctl := 0, members := [], arrived := [], pos := none, finishing := false }) }) id) (.copy ⟨0, 8, 16, 24⟩) fun s v => !(s.pkg.recordFor v.iss.core v.now.cast v.now.nextCopy) && decide (v.iss.leader < v.now.slices.length)),
    (let s := running; (s.pkg.wave? 0 0).isSome && ((s.pkg.core 0).cq.all Option.isNone && decide ((s.pkg.core 0).ctx.colls[0]? = some none))),
    (let s := let t := running; { t with pkg := t.pkg.modCore 0 fun k => { k with cq := setAt k.cq 3 (some { key := key0, num := 0, args := none }) } }; decide ((s.pkg.core 0).cq = [none, none, none, some { key := key0, num := 0, args := none }]) && (decide ((s.pkg.core 0).ctx.colls[0]? = some none))),
    (let s := let t := running; { t with pkg := t.pkg.modCore 0 fun k => { k with cq := setAt k.cq 3 (some { key := key0, num := 0, args := some ⟨0, 0, 0, 8⟩ }) } }; decide ((s.pkg.core 0).cq = [none, none, none, some { key := key0, num := 0, args := some ⟨0, 0, 0, 8⟩ }]) && (decide ((s.pkg.core 0).ctx.colls[0]? = some none))),
    (let s := { running with pkg := running.pkg.modCtx 0 fun x => { x with colls := setAt x.colls 0 (some { cast := 0, num := 0, head := 0, ctl := 0, members := [0, 1], arrived := [], pos := none, finishing := false }) } }; (s.pkg.wave? 0 0).isSome && (((s.pkg.core 0).ctx.colls[0]?.join).any fun k => decide (k.cast = 0 ∧ k.num = 0))),
    (let s := let t := { running with pkg := running.pkg.modCtx 0 fun x => { x with colls := setAt x.colls 0 (some { cast := 0, num := 0, head := 0, ctl := 0, members := [0, 1], arrived := [], pos := none, finishing := false }) } }; { t with pkg := t.pkg.modCore 0 fun k => { k with cq := setAt k.cq 3 (some { key := key0, num := 0, args := some ⟨0, 0, 0, 8⟩ }) } }; decide ((s.pkg.core 0).cq = [none, none, none, some { key := key0, num := 0, args := some ⟨0, 0, 0, 8⟩ }]) && (((s.pkg.core 0).ctx.colls[0]?.join).any fun k => decide (k.cast = 0 ∧ k.num = 0))),
    (let s := { running with pkg := running.pkg.modCtx 0 fun x => { x with colls := List.replicate 16 (some { cast := 1, num := 0, head := 0, ctl := 0, members := [], arrived := [], pos := none, finishing := false }) } }; (s.pkg.wave? 0 0).isSome && ((s.pkg.core 0).ctx.colls.all fun o => o.any fun k => decide (k.cast ≠ 0))),
    (let s := let t := { running with pkg := running.pkg.modCtx 0 fun x => { x with colls := List.replicate 16 (some { cast := 1, num := 0, head := 0, ctl := 0, members := [], arrived := [], pos := none, finishing := false }) } }; { t with pkg := t.pkg.modCore 0 fun k => { k with cq := setAt k.cq 3 (some { key := key0, num := 0, args := some ⟨0, 0, 0, 8⟩ }) } }; decide ((s.pkg.core 0).cq = [none, none, none, some { key := key0, num := 0, args := some ⟨0, 0, 0, 8⟩ }]) && ((s.pkg.core 0).ctx.colls.all fun o => o.any fun k => decide (k.cast ≠ 0)))] : List Bool).all id = true := by decide +kernel

theorem test_witness_copies_2 : ([(let s := waiting (.create ⟨0, 0, 0, 8⟩); WaitsIn s (.create ⟨0, 0, 0, 8⟩) && s.pkg.recordFor 0 0 0),
    (let t := waiting (.create ⟨0, 0, 0, 8⟩); let s : State := { t with pkg := t.pkg.modCtx 0 fun x => { x with colls := List.replicate 16 (some { cast := 1, num := 0, head := 0, ctl := 0, members := [], arrived := [], pos := none, finishing := false }) } }; WaitsIn s (.create ⟨0, 0, 0, 8⟩) && !s.pkg.recordFor 0 0 0)] : List Bool).all id = true := by decide +kernel

theorem test_witness_cues_0 : ([(Meets (withWave (sc 24 8)) (.cueemit ⟨0, 8, 16, 24⟩) fun s v => decide ((v.sc 24).toNat % 16 ≠ 0)),
    (Meets (withWave (sc 24 524240)) (.cueemit ⟨0, 8, 16, 24⟩) fun s v => decide ((v.sc 24).toNat % 16 = 0 ∧ v.cast.spsize.toNat < (v.sc 24).toNat + 64)),
    (Meets (withWave (sc 24 524224)) (.cueemit ⟨0, 8, 16, 24⟩) fun s v => decide ((v.sc 24).toNat % 16 = 0 ∧ (v.sc 24).toNat + 64 = v.cast.spsize.toNat ∧ v.iss.leader < v.now.slices.length)),
    (Meets (withWave (sc 16 1023)) (.dcset ⟨0, 16, 24⟩) fun s v => decide (1023 ≤ (v.sc 16).toNat)),
    (Meets (withWave (sc 16 1023)) (.dcdec ⟨0, 16, 24⟩) fun s v => decide (1023 ≤ (v.sc 16).toNat)),
    (Meets (withWave fun w => sc 24 (2 ^ 37) (sc 16 1022 w)) (.dcset ⟨0, 16, 24⟩) fun s v => decide (2 ^ 37 ≤ (v.sc 24).toNat)),
    (Meets (withWave fun w => sc 24 (2 ^ 37 - 1) (sc 16 1022 w)) (.dcset ⟨0, 16, 24⟩) fun s v => decide ((v.sc 16).toNat < 1023 ∧ (v.sc 24).toNat < 2 ^ 37)),
    (Meets (withWave fun w => sc 24 (0) (sc 16 1022 w)) (.dcdec ⟨0, 16, 24⟩) fun s v => decide ((v.sc 24).toNat = 0 ∨ 2 ^ 24 ≤ (v.sc 24).toNat)),
    (Meets (withWave fun w => sc 24 (2 ^ 24) (sc 16 1022 w)) (.dcdec ⟨0, 16, 24⟩) fun s v => decide ((v.sc 24).toNat = 0 ∨ 2 ^ 24 ≤ (v.sc 24).toNat)),
    (Meets (withWave fun w => sc 24 (1) (sc 16 1022 w)) (.dcdec ⟨0, 16, 24⟩) fun s v => decide ((v.sc 16).toNat < 1023 ∧ 0 < (v.sc 24).toNat ∧ (v.sc 24).toNat < 2 ^ 24))] : List Bool).all id = true := by decide +kernel

theorem test_witness_cues_1 : ([(Meets (withWave fun w => sc 24 (2 ^ 24 - 1) (sc 16 1022 w)) (.dcdec ⟨0, 16, 24⟩) fun s v => decide ((v.sc 16).toNat < 1023 ∧ 0 < (v.sc 24).toNat ∧ (v.sc 24).toNat < 2 ^ 24)),
    (Meets (withWave (sc 16 1023)) (.dcwait ⟨0, 8, 16⟩) fun s v => decide (1023 ≤ (v.sc 16).toNat)),
    (Meets (withWave (sc 16 1022)) (.dcwait ⟨0, 8, 16⟩) fun s v => decide ((v.sc 16).toNat < 1023 ∧ v.iss.leader < v.now.slices.length)),
    (Waits0 (.cueemit 0 [] 8 true)),
    (Waits0 (.dcwait 0 8))] : List Bool).all id = true := by decide +kernel

theorem test_witness_barrier_steps_0 : ([(let s := (fun t : State => { t with pkg := (t.pkg.modCtx 0 fun x => x.setBar fetchCast 32767 { phase := 5, arrived := 1, expected := 2, nextexp := 2, track := false, killed := true, owned := false, kend := false, owner := 0 }).modWave 0 0 fun w => { w with held := none } }) (waiting (.bwait 524272 4 false 8)); let b := (s.pkg.core 0).ctx.bar fetchCast 32767; (s.pkg.wave? 0 0).any fun w => decide (w.leaders.filterMap (w.barWait? 32767) = [(8, some 4, false)]) && (w.barLeader? 32767).isSome && decide (w.held = none ∧ b.killed = true)),
    (let s := (fun t : State => { t with pkg := (t.pkg.modCtx 0 fun x => x.setBar fetchCast 32767 { phase := 5, arrived := 1, expected := 2, nextexp := 2, track := false, killed := false, owned := false, kend := false, owner := 0 }).modWave 0 0 fun w => { w with held := none } }) (waiting (.bwait 524272 4 false 8)); let b := (s.pkg.core 0).ctx.bar fetchCast 32767; (s.pkg.wave? 0 0).any fun w => decide (w.leaders.filterMap (w.barWait? 32767) = [(8, some 4, false)]) && (w.barLeader? 32767).isSome && decide (w.held = none ∧ b.killed = false ∧ 1 ≤ (b.phase - 4).toNat ∧ (b.phase - 4).toNat ≤ 2 ^ 31)),
    (let s := (fun t : State => { t with pkg := (t.pkg.modCtx 0 fun x => x.setBar fetchCast 32767 { phase := 5, arrived := 1, expected := 2, nextexp := 2, track := false, killed := false, owned := false, kend := false, owner := 0 }).modWave 0 0 fun w => { w with held := none } }) (waiting (.bwait 524272 5 false 8)); let b := (s.pkg.core 0).ctx.bar fetchCast 32767; (s.pkg.wave? 0 0).any fun w => decide (w.leaders.filterMap (w.barWait? 32767) = [(8, some 5, false)]) && (w.barLeader? 32767).isSome && decide (w.held = none ∧ b.killed = false ∧ (b.phase - 5).toNat = 0)),
    (let s := (fun t : State => { t with pkg := (t.pkg.modCtx 0 fun x => x.setBar fetchCast 32767 { phase := 5, arrived := 1, expected := 2, nextexp := 2, track := false, killed := false, owned := false, kend := false, owner := 0 }).modWave 0 0 fun w => { w with held := none } }) (waiting (.bwait 524272 (6 : BitVec 32) false 8)); let b := (s.pkg.core 0).ctx.bar fetchCast 32767; (s.pkg.wave? 0 0).any fun w => decide (w.leaders.filterMap (w.barWait? 32767) = [(8, some (6 : BitVec 32), false)]) && (w.barLeader? 32767).isSome && decide (w.held = none ∧ b.killed = false ∧ 2 ^ 31 < (b.phase - 6).toNat)),
    (let s := (fun t : State => { t with pkg := (t.pkg.modCtx 0 fun x => x.setBar fetchCast 32767 { phase := 5, arrived := 1, expected := 2, nextexp := 2, track := false, killed := true, owned := false, kend := false, owner := 0 }).modWave 0 0 fun w => { w with held := none } }) (waiting (.arrive 524272 false 8)); let b := (s.pkg.core 0).ctx.bar fetchCast 32767; (s.pkg.wave? 0 0).any fun w => decide (w.leaders.filterMap (w.barWait? 32767) = [(8, none, false)]) && (w.barLeader? 32767).isSome && decide (w.held = none ∧ b.killed = true)),
    (let s := (fun t : State => { t with pkg := (t.pkg.modCtx 0 fun x => x.setBar fetchCast 32767 { phase := 5, arrived := 1, expected := 2, nextexp := 2, track := false, killed := false, owned := false, kend := false, owner := 0 }).modWave 0 0 fun w => { w with held := none, syncwait := some ⟨32767, 4⟩ } }) (waiting (.arrive 524272 true 8)); let b := (s.pkg.core 0).ctx.bar fetchCast 32767; (s.pkg.wave? 0 0).any fun w => decide (w.leaders.filterMap (w.barWait? 32767) = [(8, none, true)]) && (w.barLeader? 32767).isSome && decide (w.held = none ∧ b.killed = false ∧ w.syncwait = some ⟨32767, 4⟩ ∧ (b.phase - 4).toNat = 1)),
    (let s := (fun t : State => { t with pkg := (t.pkg.modCtx 0 fun x => x.setBar fetchCast 32767 { phase := 5, arrived := 1, expected := 2, nextexp := 2, track := false, killed := false, owned := false, kend := false, owner := 0 }).modWave 0 0 fun w => { w with held := none, syncwait := some ⟨32767, 5⟩ } }) (waiting (.arrive 524272 true 8)); let b := (s.pkg.core 0).ctx.bar fetchCast 32767; (s.pkg.wave? 0 0).any fun w => decide (w.leaders.filterMap (w.barWait? 32767) = [(8, none, true)]) && (w.barLeader? 32767).isSome && decide (w.held = none ∧ b.killed = false ∧ w.syncwait = some ⟨32767, 5⟩ ∧ (b.phase - 5).toNat = 0)),
    (let s := (fun t : State => { t with pkg := (t.pkg.modCtx 0 fun x => x.setBar fetchCast 32767 { phase := 5, arrived := 1, expected := 2, nextexp := 2, track := true, killed := false, owned := false, kend := false, owner := 0 }).modWave 0 0 fun w => { w with held := none, joinNext := [32767] } }) (waiting (.arrive 524272 false 8)); let b := (s.pkg.core 0).ctx.bar fetchCast 32767; (s.pkg.wave? 0 0).any fun w => decide (w.leaders.filterMap (w.barWait? 32767) = [(8, none, false)]) && (w.barLeader? 32767).isSome && decide (w.held = none ∧ b.track = true ∧ 32767 ∈ w.joinNext ∧ w.syncwait = none)),
    (let s := (fun t : State => { t with pkg := (t.pkg.modCtx 0 fun x => x.setBar fetchCast 32767 { phase := 5, arrived := 2, expected := 2, nextexp := 2, track := false, killed := false, owned := false, kend := false, owner := 0 }).modWave 0 0 fun w => { w with held := none } }) (waiting (.arrive 524272 false 8)); let b := (s.pkg.core 0).ctx.bar fetchCast 32767; (s.pkg.wave? 0 0).any fun w => decide (w.leaders.filterMap (w.barWait? 32767) = [(8, none, false)]) && (w.barLeader? 32767).isSome && decide (w.held = none ∧ b.track = false ∧ b.expected ≤ b.arrived ∧ w.syncwait = none)),
    (let s := (fun t : State => { t with pkg := (t.pkg.modCtx 0 fun x => x.setBar fetchCast 32767 { phase := 5, arrived := 1, expected := 2, nextexp := 2, track := false, killed := false, owned := false, kend := false, owner := 0 }).modWave 0 0 fun w => { w with held := none } }) (waiting (.arrive 524272 false 8)); let b := (s.pkg.core 0).ctx.bar fetchCast 32767; (s.pkg.wave? 0 0).any fun w => decide (w.leaders.filterMap (w.barWait? 32767) = [(8, none, false)]) && (w.barLeader? 32767).isSome && decide (w.held = none ∧ b.track = false ∧ b.arrived < b.expected ∧ w.syncwait = none))] : List Bool).all id = true := by decide +kernel

theorem test_witness_barrier_steps_1 : ([(let s := (fun t : State => { t with pkg := (t.pkg.modCtx 0 fun x => x.setBar fetchCast 32767 { phase := 5, arrived := 1, expected := 2, nextexp := 2, track := true, killed := false, owned := false, kend := false, owner := 0 }).modWave 0 0 fun w => { w with held := none } }) (waiting (.arrive 524272 false 8)); let b := (s.pkg.core 0).ctx.bar fetchCast 32767; (s.pkg.wave? 0 0).any fun w => decide (w.leaders.filterMap (w.barWait? 32767) = [(8, none, false)]) && (w.barLeader? 32767).isSome && decide (w.held = none ∧ b.track = true ∧ w.joinNext = [] ∧ w.arrivedAt = [] ∧ w.syncwait = none)),
    (let s := (fun t : State => { t with pkg := (t.pkg.modCtx 0 fun x => x.setBar fetchCast 32767 { phase := 5, arrived := 1, expected := 2, nextexp := 2, track := true, killed := false, owned := false, kend := false, owner := 0 }).modWave 0 0 fun w => { w with held := none, joinNext := [32767] } }) (waiting (.arrive 524272 true 8)); let b := (s.pkg.core 0).ctx.bar fetchCast 32767; (s.pkg.wave? 0 0).any fun w => decide (w.leaders.filterMap (w.barWait? 32767) = [(8, none, true)]) && (w.barLeader? 32767).isSome && decide (w.held = none ∧ b.track = true ∧ 32767 ∈ w.joinNext ∧ w.syncwait = none)),
    (let s := (fun t : State => { t with pkg := (t.pkg.modCtx 0 fun x => x.setBar fetchCast 32767 { phase := 5, arrived := 2, expected := 2, nextexp := 2, track := false, killed := false, owned := false, kend := false, owner := 0 }).modWave 0 0 fun w => { w with held := none } }) (waiting (.arrive 524272 true 8)); let b := (s.pkg.core 0).ctx.bar fetchCast 32767; (s.pkg.wave? 0 0).any fun w => decide (w.leaders.filterMap (w.barWait? 32767) = [(8, none, true)]) && (w.barLeader? 32767).isSome && decide (w.held = none ∧ b.track = false ∧ b.expected ≤ b.arrived ∧ w.syncwait = none)),
    (let s := (fun t : State => { t with pkg := (t.pkg.modCtx 0 fun x => x.setBar fetchCast 32767 { phase := 5, arrived := 1, expected := 2, nextexp := 2, track := false, killed := false, owned := false, kend := false, owner := 0 }).modWave 0 0 fun w => { w with held := none } }) (waiting (.arrive 524272 true 8)); let b := (s.pkg.core 0).ctx.bar fetchCast 32767; (s.pkg.wave? 0 0).any fun w => decide (w.leaders.filterMap (w.barWait? 32767) = [(8, none, true)]) && (w.barLeader? 32767).isSome && decide (w.held = none ∧ b.track = false ∧ b.arrived < b.expected ∧ w.syncwait = none)),
    (let s := (fun t : State => { t with pkg := (t.pkg.modCtx 0 fun x => x.setBar fetchCast 32767 { phase := 5, arrived := 1, expected := 2, nextexp := 2, track := true, killed := false, owned := false, kend := false, owner := 0 }).modWave 0 0 fun w => { w with held := none } }) (waiting (.arrive 524272 true 8)); let b := (s.pkg.core 0).ctx.bar fetchCast 32767; (s.pkg.wave? 0 0).any fun w => decide (w.leaders.filterMap (w.barWait? 32767) = [(8, none, true)]) && (w.barLeader? 32767).isSome && decide (w.held = none ∧ b.track = true ∧ w.joinNext = [] ∧ w.arrivedAt = [] ∧ w.syncwait = none)),
    (let s := running; (List.range 64).all fun n => n = 0 || (((s.pkg.core 0).ctx.waves[n]?).any Option.isNone))] : List Bool).all id = true := by decide +kernel

/-! The clauses of the event statements: in each a state that meets its hypotheses. -/

theorem test_witness_matrix_events_0 : ([(let s := onCore fun k => { k with arrayQ := List.replicate 5 { key := key0, kind := .mma, acc := 0, ta := 0, tb := 0, steps := 64, done := 70 }, arrayAt := 0 }; decide (((s.pkg.core 0).arrayQ.filter fun m => 0 < m.start + m.steps).length = 5 ∧ s.clk.companies.getD 0 0 = 0)),
    (let s := onPkg fun p => (p.modCtx 0 fun x => { x with follow := setAt x.follow 7 (some ⟨{ key := key0, kind := .mma, acc := 0, ta := 0, tb := 0 }, false⟩) }).modCore 0 fun k => { k with arrayQ := List.replicate 5 { key := key0, kind := .mma, acc := 0, ta := 0, tb := 0, steps := 64, done := 70 }, arrayAt := 0 }; decide (((s.pkg.core 0).arrayQ.filter fun m => 0 < m.start + m.steps).length = 5 ∧ s.clk.companies.getD 0 0 = 0 ∧ ((s.pkg.core 0).ctx.follow.getD 7 none).isSome)),
    (let s := onCore fun k => { k with arrayQ := [], arrayAt := 1 }; decide ((s.pkg.core 0).arrayAt = 1 ∧ s.clk.companies.getD 0 0 = 0)),
    (let s := onPkg fun p => (p.modCtx 0 fun x => { x with follow := setAt x.follow 7 (some ⟨{ key := key0, kind := .mma, acc := 0, ta := 0, tb := 0 }, false⟩) }).modCore 0 fun k => { k with arrayQ := [], arrayAt := 1 }; decide ((s.pkg.core 0).arrayAt = 1 ∧ s.clk.companies.getD 0 0 = 0 ∧ ((s.pkg.core 0).ctx.follow.getD 7 none).isSome)),
    (let s := running; (List.range 4).all fun b => ((s.pkg.core 0).xq.getD b []).isEmpty),
    (let s := onCore fun k => { k with arrayQ := List.replicate 4 { key := key0, kind := .mma, acc := 0, ta := 0, tb := 0, steps := 64, done := 70 }, xq := [[], [], [], [{ key := key0, kind := .mma, acc := 0, ta := 0, tb := 0 }]] }; decide (((s.pkg.core 0).arrayQ.filter fun m => 0 < m.start + m.steps).length = 4 ∧ s.clk.companies.getD 0 0 = 0 ∧ (s.pkg.core 0).arrayAt = 0 ∧ ((s.pkg.core 0).xq.getD 3 []).head? = some { key := key0, kind := .mma, acc := 0, ta := 0, tb := 0 } ∧ (s.pkg.core 0).xq.take 3 = [[], [], []])),
    (let s := onCore fun k => { k with arrayQ := [{ key := key0, kind := .mma, acc := 0, ta := 0, tb := 0, steps := 64, done := 70 }] }; decide (((s.pkg.core 0).arrayQ.all fun m => decide (0 < m.done)) = true ∧ s.clk.companies.getD 0 0 = 0)),
    (let s := onCore fun k => { k with arrayQ := [{ key := key0, kind := .mma, acc := 0, ta := 0, tb := 0, steps := 64, done := 70 }, { key := key0, kind := .mma, acc := 0, ta := 0, tb := 0 }] }; decide ((s.pkg.core 0).arrayQ = [{ key := key0, kind := .mma, acc := 0, ta := 0, tb := 0, steps := 64, done := 70 }, { key := key0, kind := .mma, acc := 0, ta := 0, tb := 0 }] ∧ s.clk.companies.getD 0 0 = 0 ∧ key0.core = 0 ∧ (s.pkg.waveOf? key0).isSome)),
    (let s := running; decide ((s.pkg.core 0).ctx.follow.getD 0 none = none)),
    (let s := onPkg fun p => p.modCtx 0 fun x => { x with follow := setAt x.follow 7 (some ⟨{ key := key0, kind := .mma, acc := 0, ta := 0, tb := 0 }, false⟩) }; decide (((s.pkg.core 0).ctx.follow.getD 7 none).isSome ∧ (s.pkg.core 0).arrayQ = [] ∧ (s.pkg.core 0).arrayAt = 0))] : List Bool).all id = true := by decide +kernel

theorem test_witness_matrix_products_0 : ([(let s := running; decide ((s.pkg.waveOf? key0).isSome ∧ (s.pkg.cast? 0 0).isSome ∧ key0.core = 0 ∧ (bits (64 * 2 ^ 25 + 4 * 2 ^ 32 + 7 * 2 ^ 18) 18 7 + 1) % 8 = 0 ∧ (bits (64 * 2 ^ 25 + 4 * 2 ^ 32 + 15 * 2 ^ 18) 18 7 + 1) % 16 = 0 ∧ bits (64 * 2 ^ 25 + 4 * 2 ^ 32 + 7 * 2 ^ 18) 15 3 ≤ 4 ∧ (s.pkg.core 0).ctx.spPoison = [] ∧ ((s.pkg.wave? 0 0).any fun w => decide (255 + 1 ≤ w.vregs.length)) = true))] : List Bool).all id = true := by decide +kernel

theorem test_witness_copy_progress_0 : ([(let s := atTick 1 (onPkg fun p => p.modCtx 0 fun x => { x with readyOrder := [(0, 1)], colls := setAt x.colls 0 (some coll0) }); decide ((s.pkg.core 0).ctx.readyOrder = [(0, 1)] ∧ 1 ≤ s.clk.companies.getD 0 0 ∧ (s.pkg.core 0).ctx.running.length = 4 ∧ (s.pkg.core 0).ctx.running[0]? = some none ∧ (s.pkg.coll? 0 0).map Coll.pos = some none)),
    (let s := running; decide ((s.pkg.core 0).ctx.running.getD 0 none = none)),
    (let s := onPkg fun p => p.modCtx 0 fun x => { x with running := setAt x.running 0 (some 0), colls := setAt x.colls 0 (some { coll0 with pos := some { pos0 with paused := true }, finishing := false }) }; decide ((s.pkg.core 0).ctx.running.getD 0 none = some 0 ∧ ((s.pkg.coll? 0 0).bind Coll.pos).map CopyPos.paused = some true)),
    (let s := onPkg fun p => p.modCtx 0 fun x => { x with running := setAt x.running 0 (some 0), colls := setAt x.colls 0 (some { coll0 with pos := some { pos0 with toLand := [(0, [])] }, finishing := false }) }; decide ((s.pkg.core 0).ctx.running.getD 0 none = some 0 ∧ ((s.pkg.coll? 0 0).bind Coll.pos).map CopyPos.toLand = some [(0, [])])),
    (let s := onPkg fun p => p.modCtx 0 fun x => { x with running := setAt x.running 0 (some 0), colls := setAt x.colls 0 (some { coll0 with pos := some pos0, finishing := false }) }; (s.pkg.cast? 0 0).isSome && match s.pkg.xlate 0 0 (.copy 0 0) 0x20000 false false, s.pkg.cast? 0 0 with | .dev place, some c => !s.pkg.ahead 0 (place / 128) && !(s.pkg.engineBytes c place 64).2 | _, _ => false),
    (let s := onPkg fun p => p.modCtx 0 fun x => { x with running := setAt x.running 0 (some 0), colls := setAt x.colls 0 (some { coll0 with pos := some { pos0 with paused := true }, finishing := false }) }; decide (s.pkg.walksOver 0 (.copy 0 0) = true ∧ ((s.pkg.coll? 0 0).bind Coll.pos).isSome)),
    (let s := onCompany fun c => { c with walks := [{ walk0 with waiters := [.copy 0 0] }] }; decide (s.pkg.walksOver 0 (.copy 0 0) = false)),
    (let s := onPkg fun p => p.modCtx 0 fun x => { x with running := setAt x.running 0 (some 0), colls := setAt x.colls 0 (some { coll0 with pos := some pos0, finishing := false }) }; decide ((s.pkg.coll? 0 0).map Coll.finishing = some false ∧ (s.pkg.cast? 0 0).isSome)),
    (let s := onPkg fun p => p.modCtx 0 fun x => { x with running := setAt x.running 0 (some 0), colls := setAt x.colls 0 (some { coll0 with pos := some pos0, finishing := true }) }; decide ((s.pkg.coll? 0 0).map Coll.finishing = some true ∧ ((s.pkg.coll? 0 0).bind Coll.pos).map CopyPos.ackAt = some s.clk.mcyc))] : List Bool).all id = true := by decide +kernel

theorem test_witness_answers_0 : ([(let s := running; decide (s.pkg.answers = [])),
    (let s := waitingIn (onPkg fun p => { p with answers := [(key0, 0, 0, 0)] }) (.cueemit 0 [] 8 true); WaitsIn s (.cueemit 0 [] 8 true) && decide (key0.core = 0 ∧ key0.slot = 0 ∧ s.pkg.answers = [(key0, 0, s.clk.mcyc, 0)] ∧ (s.pkg.waveOf? key0).isSome)),
    (let s := waitingIn (onPkg fun p => { p with answers := [(key0, 0, 0, 0)] }) (.dcwait 0 8); WaitsIn s (.dcwait 0 8) && decide (key0.core = 0 ∧ key0.slot = 0 ∧ s.pkg.answers = [(key0, 0, s.clk.mcyc, 0)] ∧ (s.pkg.waveOf? key0).isSome))] : List Bool).all id = true := by decide +kernel

theorem test_witness_cue_unit_0 : ([(let s := running; decide (s.pkg.cueIn = [] ∧ s.pkg.dcIn = [] ∧ s.pkg.dcWaiters = [])),
    (let s := onPkg fun p => { p with cueIn := [(0, .emit key0 0 0 2 1 [] none)] }; decide (s.pkg.cueIn = [(s.clk.mcyc, .emit key0 0 0 2 1 [] none)] ∧ (s.pkg.node 0 1).valid = false)),
    (let s := onPkg fun p => { (p.modPart 0 fun q => { q with nodes := tabSet (tabSet q.nodes 1 (EntryWith (EntryWith (EntryWith (goodNode {}) 32 4 0) 36 4 256) 80 2 2)) 2 (goodNode {}) }) with cueIn := [(0, .emit key0 0 0 2 1 [] none)] }; decide ((s.pkg.node 0 1).valid = true ∧ (s.pkg.node 0 1).fault = false ∧ 2 ∈ (s.pkg.node 0 1).prods ∧ (s.pkg.node 0 2).valid = true ∧ (s.pkg.node 0 1).cqcap ≤ ((s.pkg.node 0 1).cqtail - (s.pkg.node 0 1).cqhead).toNat + (s.pkg.node 0 1).cqres)),
    (let s := onPkg fun p => { (p.modPart 0 fun q => { q with nodes := tabSet (tabSet q.nodes 1 (EntryWith (EntryWith (EntryWith (goodNode {}) 32 4 1) 36 4 256) 80 2 2)) 2 (goodNode {}) }) with cueIn := [(0, .emit key0 0 0 2 1 [] none)] }; decide ((s.pkg.node 0 1).valid = true ∧ (s.pkg.node 0 1).fault = false ∧ 2 ∈ (s.pkg.node 0 1).prods ∧ (s.pkg.node 0 2).valid = true ∧ (s.pkg.node 0 1).cqcap > ((s.pkg.node 0 1).cqtail - (s.pkg.node 0 1).cqhead).toNat + (s.pkg.node 0 1).cqres)),
    (let s := onPkg fun p => { p with dcIn := [(0, .dec 0 0 0 1022 1)] }; decide (s.pkg.dcIn = [(s.clk.mcyc, .dec 0 0 0 1022 1)] ∧ 0 < s.pkg.parts.length ∧ (s.pkg.dcAt 0 1022).tv = false)),
    (let s := onPkg fun p => { p with dcIn := [(0, .set 0 0 0 1022 1 0 true)] }; decide (s.pkg.dcIn = [(s.clk.mcyc, .set 0 0 0 1022 1 0 true)] ∧ 0 < s.pkg.parts.length)),
    (let s := running; decide (s.pkg.batchSize 0 1 = 0 ∧ s.pkg.mayRetire 0 1 = false)),
    (let s := onNode fun n => { goodNode n with cqtail := 1 }; decide (s.pkg.batchSize 0 1 = 1 ∧ 0 < s.pkg.parts.length)),
    (let s := onNode fun n => { goodNode n with closed := true }; decide (s.pkg.mayRetire 0 1 = true)),
    (let s := onNode goodNode; decide ((s.pkg.node 0 1).recsz = 16 ∧ (s.pkg.node 0 1).valid = true ∧ (s.pkg.node 0 1).prodcnt = 0 ∧ (s.pkg.node 0 1).fault = false ∧ (s.pkg.node 0 1).closed = false ∧ (s.pkg.node 0 1).full = false))] : List Bool).all id = true := by decide +kernel

theorem test_witness_cue_unit_1 : ([(let s := onNode fun n => { goodNode n with open_ := true }; decide ((s.pkg.node 0 1).open_ = true ∧ (1 : Quad).getLsbD 0 = true)),
    (let s := running; decide ((s.pkg.node 0 1).open_ = false ∧ (s.pkg.node 0 1).valid = false ∧ (1 : Quad).getLsbD 0 = true))] : List Bool).all id = true := by decide +kernel

theorem test_witness_traps_and_clock_0 : ([(let s := waiting .regang; WaitsIn s .regang && (s.pkg.wave? 0 0).any fun w => decide (w.limit ≠ 0)),
    (let s := let t := waiting .regang; { t with pkg := t.pkg.modWave 0 0 fun w => { w with waitlimit := 1, limit := 1, slices := modAt w.slices 0 fun x => { x with blocked := x.blocked.map fun b => { b with count := 2 } } } }; WaitsIn s .regang && (s.pkg.wave? 0 0).any fun w => decide (w.limit.toNat < ((w.blockedAt 0).map Blocked.count).getD 0) && BlockOp.timed .regang),
    (let s := running; (s.pkg.wave? 0 0).any fun w => decide (w.due = [])),
    (let s := onPkg fun p => p.modWave 0 0 fun w => { w with due := [{ cause := .poison, addr := 0, lanes := 1, leader := 31 }], slices := modAt w.slices 31 fun x => { x with leader := 31, live := false } }; (s.pkg.wave? 0 0).any fun w => !w.handling && decide (w.park = none ∧ w.due ≠ [] ∧ (w.slices[31]?).map Slice.leader = some 31 ∧ w.party 31 = [])),
    (let s := onPkg fun p => p.modWave 0 0 fun w => { w with due := [{ cause := .poison, addr := 0, lanes := 1, leader := 0 }] }; (s.pkg.wave? 0 0).any fun w => !w.handling && decide (w.park = none ∧ w.party 0 ≠ [] ∧ w.blockedAt 0 = none ∧ (w.issueCounter 0).isSome) && !s.pkg.midWindow 0 0 0),
    (let s := onPkg fun p => p.modWave 0 0 fun w => { w with starve := 255 }; (s.pkg.wave? 0 0).any fun w => decide (w.starve < 256) && (s.pkg.cast? 0 0).isSome),
    (let s := onPkg fun p => p.modWave 0 0 fun w => { w with starve := 256 }; (s.pkg.wave? 0 0).any fun w => decide (w.starve = 256) && (s.pkg.cast? 0 0).isSome)] : List Bool).all id = true := by decide +kernel

theorem test_witness_meetings_0 : ([(let s := waiting (.xchg { operand := 256, partner := key1, tag := 0, dest := 8, snapshot := [], act := 0 } none); WaitsIn s (.xchg { operand := 256, partner := key1, tag := 0, dest := 8, snapshot := [], act := 0 } none) && decide ((s.pkg.core 0).tokens = [])),
    (let s := let t := waiting (.xchg { operand := 256, partner := key1, tag := 0, dest := 8, snapshot := [], act := 0 } none); { t with pkg := let p := twoWaves (fun w => w.modSlice 0 fun x => { x with blocked := x.blocked.map fun b => { b with op := .xchg { operand := 0, partner := key0, tag := 0, dest := 8, snapshot := [], act := 0 } none } }) t.pkg; p.modCore 0 fun k => { k with tokens := [⟨key0, 0, key1, 0, 0⟩, ⟨key1, 0, key0, 0, 1⟩] } }; WaitsIn s (.xchg { operand := 256, partner := key1, tag := 0, dest := 8, snapshot := [], act := 0 } none) && decide ((((s.pkg.wave? 0 1).bind fun w => w.blockedAt 0).map Blocked.op) = some (.xchg { operand := 0, partner := key0, tag := 0, dest := 8, snapshot := [], act := 0 } none)) && decide ((s.pkg.core 0).tokens.map (fun t => (t.src.waveId.toNat, t.dst.waveId.toNat)) = [(0, 1), (1, 0)] ∧ ((s.pkg.core 0).tokens.map Token.src) = [s.pkg.keyOf 0 0, s.pkg.keyOf 0 1])),
    (let s := running; (s.pkg.wave? 0 0).any fun w => decide (w.fence = none)),
    (let s := onPkg fun p => p.modWave 0 0 fun w => { w with fence := some { kind := .rel, scope := 1, stages := 0 }, outst := 1 }; (s.pkg.wave? 0 0).any fun w => decide (w.outst ≠ 0 ∧ w.pending = [])),
    (let s := onPkg fun p => p.modWave 0 0 fun w => { w with fence := some { kind := .rel, scope := 1, stages := 0 } }; (s.pkg.wave? 0 0).any fun w => decide (w.outst = 0 ∧ w.pending = [] ∧ w.fence.isSome)),
    (let s := onPkg fun p => p.modWave 0 0 fun w => { w with fence := some { kind := .acq, scope := 1, stages := 0 } }; (s.pkg.wave? 0 0).any fun w => decide (w.pending = [] ∧ w.fence.map Fence.kind = some .acq)),
    (let s := waitingIn (onPkg fun p => p.modWave 0 0 fun w => { w with fence := some { kind := .rel, scope := 3, stages := 0, implied := true } }) (.cueemit 0 [] 8 false); WaitsIn s (.cueemit 0 [] 8 false) && (s.pkg.wave? 0 0).any fun w => decide (w.pending = [] ∧ w.outl = 0 ∧ w.fence.map (fun f => (f.implied, f.ready, f.stages)) = some (true, s.clk.mcyc, 0))),
    (let s := let t := waiting (.xchg { operand := 256, partner := key1, tag := 0, dest := 8, snapshot := [], act := 0 } none); { t with pkg := t.pkg.modCore 0 fun k => { k with tokens := [⟨key1, 0, key0, 1, 0⟩] } }; WaitsIn s (.xchg { operand := 256, partner := key1, tag := 0, dest := 8, snapshot := [], act := 0 } none) && (s.pkg.core 0).tokens.all fun t => decide (t.tag ≠ 0))] : List Bool).all id = true := by decide +kernel

theorem test_witness_membership_events_0 : ([(let s := waitingIn (onPkg fun p => p.modCast 0 0 fun c => { c with maxw := 1 }) (.attach { entry := 0x10000, n := 1, role := .general, now := true, dest := 8, due := 1 } true); WaitsIn s (.attach { entry := 0x10000, n := 1, role := .general, now := true, dest := 8, due := 1 } true) && (s.pkg.cast? 0 0).any fun c => let x := (s.pkg.core 0).ctx; let cyc := s.clk.companies.getD 0 0; decide (cyc < 1)),
    (let s := waitingIn (onPkg fun p => p.modCast 0 0 fun c => { c with maxw := 1 }) (.attach { entry := 0x10000, n := 1, role := .general, now := true, dest := 8, due := 0 } true); WaitsIn s (.attach { entry := 0x10000, n := 1, role := .general, now := true, dest := 8, due := 0 } true) && (s.pkg.cast? 0 0).any fun c => let x := (s.pkg.core 0).ctx; let cyc := s.clk.companies.getD 0 0; decide (c.nwaves.toNat + 1 = c.maxw + 1 ∧ cyc = 0)),
    (let s := waitingIn (onPkg fun p => p.modCast 0 0 fun c => { c with maxw := 65 }) (.attach { entry := 0x10000, n := 64, role := .general, now := true, dest := 8, due := 0 } true); WaitsIn s (.attach { entry := 0x10000, n := 64, role := .general, now := true, dest := 8, due := 0 } true) && (s.pkg.cast? 0 0).any fun c => let x := (s.pkg.core 0).ctx; let cyc := s.clk.companies.getD 0 0; decide (c.nwaves.toNat + 64 = c.maxw ∧ (x.waves.filter Option.isNone).length < 64)),
    (let s := waitingIn (onPkg fun p => p.modCast 0 0 fun c => { c with maxw := 10 }) (.attach { entry := 0x10000, n := 9, role := .copy, now := true, dest := 8, due := 0 } true); WaitsIn s (.attach { entry := 0x10000, n := 9, role := .copy, now := true, dest := 8, due := 0 } true) && (s.pkg.cast? 0 0).any fun c => let x := (s.pkg.core 0).ctx; let cyc := s.clk.companies.getD 0 0; decide (c.nwaves.toNat + 9 ≤ c.maxw ∧ 9 ≤ (x.waves.filter Option.isNone).length ∧ x.rolesOk .copy 9 = false)),
    (let s := waitingIn (onPkg fun p => p.modCast 0 0 fun c => { c with maxw := 10 }) (.attach { entry := 0x10000, n := 9, role := .general, now := true, dest := 8, due := 0 } true); WaitsIn s (.attach { entry := 0x10000, n := 9, role := .general, now := true, dest := 8, due := 0 } true) && (s.pkg.cast? 0 0).any fun c => let x := (s.pkg.core 0).ctx; let cyc := s.clk.companies.getD 0 0; decide (c.nwaves.toNat + 9 ≤ c.maxw ∧ 9 ≤ (x.waves.filter Option.isNone).length ∧ x.rolesOk .general 9 = true ∧ freeRuns x.units (c.regcount.toNat / 8) 0 9 = none)),
    (let s := waitingIn (onPkg fun p => p.modCast 0 0 fun c => { c with maxw := 9 }) (.attach { entry := 0x10000, n := 8, role := .general, now := true, dest := 8, due := 0 } true); WaitsIn s (.attach { entry := 0x10000, n := 8, role := .general, now := true, dest := 8, due := 0 } true) && (s.pkg.cast? 0 0).any fun c => let x := (s.pkg.core 0).ctx; let cyc := s.clk.companies.getD 0 0; decide (c.nwaves.toNat + 8 ≤ c.maxw ∧ 8 ≤ (x.waves.filter Option.isNone).length ∧ x.rolesOk .general 8 = true ∧ (freeRuns x.units (c.regcount.toNat / 8) 0 8).isSome)),
    (let s := running; decide ((s.pkg.core 0).ctx.cycleVictim 0 = none)),
    (let s := let t := waiting (.attach { entry := 0x10000, n := 1, role := .general, now := true, dest := 8, due := 0 } true); { t with pkg := (twoWaves (fun w => { w with cast := 1 }) t.pkg).modCtx 0 fun x => { x with casts := setAt x.casts 1 (some { fetchCast with castindex := 1 }), units := List.replicate 128 (some 0) ++ List.replicate 128 (some 1) } }; WaitsIn s (.attach { entry := 0x10000, n := 1, role := .general, now := true, dest := 8, due := 0 } true) && decide (((s.pkg.core 0).ctx.cycleVictim 0).map Prod.fst = some 1 ∧ (((s.pkg.wave? 0 1).bind fun w => w.blockedAt w.sole)).isSome)),
    (let s := waiting (.released 8 0 false false 1); WaitsIn s (.released 8 0 false false 1) && decide (s.clk.companies.getD 0 0 < 1) && (List.range 64).all fun k => k = 0 || (s.pkg.wave? 0 k).isNone),
    (let s := waiting (.released 8 0 false false 0); WaitsIn s (.released 8 0 false false 0) && decide (s.clk.companies.getD 0 0 = 0) && (List.range 64).all fun k => k = 0 || (s.pkg.wave? 0 k).isNone)] : List Bool).all id = true := by decide +kernel

theorem test_witness_membership_events_1 : ([(let s := waiting (.released 8 0 true false 0); WaitsIn s (.released 8 0 true false 0) && decide (s.clk.companies.getD 0 0 = 0) && (List.range 64).all fun k => k = 0 || (s.pkg.wave? 0 k).isNone),
    (let s := running; decide (255 < s.pkg.cores.length))] : List Bool).all id = true := by decide +kernel

theorem test_witness_home_0 : ([(let s := running; decide ((s.pkg.lineNow 0).data.length = 128 ∧ ([(0, 1), (127, 2)] : List (Nat × Byte)).Pairwise fun a b => a.1 ≠ b.1))] : List Bool).all id = true := by decide +kernel

theorem test_witness_memory_events_0 : ([(let s := running; decide ((s.pkg.company 0).inq = [] ∧ (s.pkg.company 0).fills = [] ∧ (s.pkg.core 0).replies = [])),
    (let s := onPkg fun p => (p.touchLine 0 0).modCompany 0 fun c => { c with inq := [req0] }; decide (0 < s.pkg.companies.length ∧ (s.pkg.company 0).inq = [req0] ∧ req0.arrives = s.clk.mcyc ∧ s.pkg.homeOf 0 = 0 ∧ (s.pkg.company 0).stageWait = [] ∧ (s.pkg.company 0).stalled = [] ∧ (s.pkg.l2Find 0).isSome = true)),
    (let s := atTick 1 (onCompany fun c => { c with fills := [(0, 64)], stalled := [req0] }); decide ((s.pkg.company 0).fills = [(req0.line, s.clk.mcyc)] ∧ (s.pkg.company 0).stalled = [req0] ∧ s.clk.mcyc ≠ 0)),
    (let s := onCore fun k => { k with replies := [reply0 (.ack true)] }; decide ((s.pkg.core 0).replies = [reply0 (.ack true)] ∧ (reply0 (.ack true)).arrives = s.clk.mcyc ∧ (s.pkg.waveOf? key0).isSome ∧ (reply0 (.ack true)).body.isData = false ∧ (s.pkg.core 0).l1 = [])),
    (let s := onCore fun k => { k with replies := [reply0 (.hostAck)] }; decide ((s.pkg.core 0).replies = [reply0 (.hostAck)] ∧ (reply0 (.hostAck)).arrives = s.clk.mcyc ∧ (s.pkg.waveOf? key0).isSome ∧ (reply0 (.hostAck)).body.isData = false ∧ (s.pkg.core 0).l1 = [])),
    (let s := onCore fun k => { k with replies := [reply0 (.poison [⟨127, 0⟩] false)] }; decide ((s.pkg.core 0).replies = [reply0 (.poison [⟨127, 0⟩] false)] ∧ (reply0 (.poison [⟨127, 0⟩] false)).arrives = s.clk.mcyc ∧ (s.pkg.waveOf? key0).isSome ∧ (reply0 (.poison [⟨127, 0⟩] false)).body.isData = false ∧ (s.pkg.core 0).l1 = [])),
    (let s := onCore fun k => { k with replies := [reply0 (.data 0 [(8, 127, 1)] [] none none)] }; decide ((s.pkg.core 0).replies = [reply0 (.data 0 [(8, 127, 1)] [] none none)] ∧ (reply0 (.data 0 [(8, 127, 1)] [] none none)).arrives = s.clk.mcyc ∧ (s.pkg.waveOf? key0).isSome ∧ (reply0 (.data 0 [(8, 127, 1)] [] none none)).body.isData = true ∧ (s.pkg.core 0).l1 = [])),
    (let s := onCore fun k => { k with replies := [reply0 (.data 0 [] [] (some { line := 0, data := [] }) none)] }; decide ((s.pkg.core 0).replies = [reply0 (.data 0 [] [] (some { line := 0, data := [] }) none)] ∧ (reply0 (.data 0 [] [] (some { line := 0, data := [] }) none)).arrives = s.clk.mcyc ∧ (s.pkg.waveOf? key0).isSome ∧ (reply0 (.data 0 [] [] (some { line := 0, data := [] }) none)).body.isData = true ∧ (s.pkg.core 0).l1 = [])),
    (let s := running; decide (s.pkg.pcieWait? 0 = none)),
    (let s := onPkg fun p => { p with pcie := [(0, .load key0 0 0 4 8 [⟨0, 0⟩] 0)] }; decide (s.pkg.pcieWait? 0 = some (.load key0 0 0 4 8 [⟨0, 0⟩] 0)))] : List Bool).all id = true := by decide +kernel

theorem test_witness_memory_events_1 : ([(let s := onPkg fun p => { p with pcie := [(0, .atomic key0 0 0 0 0 0 0 0 [] [] false 8)] }; decide (s.pkg.pcieWait? 0 = some (.atomic key0 0 0 0 0 0 0 0 [] [] false 8) ∧ (s.pkg.waveOf? key0).isSome)),
    (let s := onCore fun k => { k with replies := [{ reply0 (.ack true) with arrives := 1 }] }; decide (((s.pkg.core 0).replies.all fun r => decide (r.due.isSome ∨ s.clk.mcyc < r.arrives)) = true)),
    (let s := onCore fun k => { k with replies := [reply0 (.ack true)] }; (((s.pkg.core 0).replies.head?).any fun r => decide (r.due = none ∧ r.arrives ≤ s.clk.mcyc ∧ r.body.isData = false)) && s.clk.atEdge (s.pkg.company 0).level && decide ((s.pkg.company 0).readAt ≠ s.clk.cycleOf 0 + 1) && ((s.pkg.cores.take 8).all fun c => c.replies.all fun x => decide (x.arrives = 0)) && ((s.pkg.core 0).replies.all fun q => q.due.all fun d => decide (s.clk.cycleOf 0 < d))),
    (let s := let t := onCore fun k => { k with replies := [reply0 (.ack true)] }; { t with pkg := t.pkg.modCompany 0 fun m => { m with readAt := 1 } }; (((s.pkg.core 0).replies.head?).any fun r => decide (r.due = none ∧ r.arrives ≤ s.clk.mcyc ∧ r.body.isData = false)) && decide ((s.pkg.company 0).readAt = s.clk.cycleOf 0 + 1) && ((s.pkg.core 0).replies.all fun q => q.due.all fun d => decide (s.clk.cycleOf 0 < d))),
    (let s := onCore fun k => { k with replies := [reply0 (.hostAck)] }; (((s.pkg.core 0).replies.head?).any fun r => decide (r.due = none ∧ r.arrives ≤ s.clk.mcyc ∧ r.body.isData = false)) && s.clk.atEdge (s.pkg.company 0).level && decide ((s.pkg.company 0).readAt ≠ s.clk.cycleOf 0 + 1) && ((s.pkg.cores.take 8).all fun c => c.replies.all fun x => decide (x.arrives = 0)) && ((s.pkg.core 0).replies.all fun q => q.due.all fun d => decide (s.clk.cycleOf 0 < d))),
    (let s := let t := onCore fun k => { k with replies := [reply0 (.hostAck)] }; { t with pkg := t.pkg.modCompany 0 fun m => { m with readAt := 1 } }; (((s.pkg.core 0).replies.head?).any fun r => decide (r.due = none ∧ r.arrives ≤ s.clk.mcyc ∧ r.body.isData = false)) && decide ((s.pkg.company 0).readAt = s.clk.cycleOf 0 + 1) && ((s.pkg.core 0).replies.all fun q => q.due.all fun d => decide (s.clk.cycleOf 0 < d))),
    (let s := onCore fun k => { k with replies := [reply0 (.poison [⟨127, 0⟩] true)] }; (((s.pkg.core 0).replies.head?).any fun r => decide (r.due = none ∧ r.arrives ≤ s.clk.mcyc ∧ r.body.isData = false)) && s.clk.atEdge (s.pkg.company 0).level && decide ((s.pkg.company 0).readAt ≠ s.clk.cycleOf 0 + 1) && ((s.pkg.cores.take 8).all fun c => c.replies.all fun x => decide (x.arrives = 0)) && ((s.pkg.core 0).replies.all fun q => q.due.all fun d => decide (s.clk.cycleOf 0 < d))),
    (let s := let t := onCore fun k => { k with replies := [reply0 (.poison [⟨127, 0⟩] true)] }; { t with pkg := t.pkg.modCompany 0 fun m => { m with readAt := 1 } }; (((s.pkg.core 0).replies.head?).any fun r => decide (r.due = none ∧ r.arrives ≤ s.clk.mcyc ∧ r.body.isData = false)) && decide ((s.pkg.company 0).readAt = s.clk.cycleOf 0 + 1) && ((s.pkg.core 0).replies.all fun q => q.due.all fun d => decide (s.clk.cycleOf 0 < d))),
    (let s := onCore fun k => { k with replies := [reply0 (.data 0 [(8, 127, 1)] [] none none)] }; (((s.pkg.core 0).replies.head?).any fun r => decide (r.due = none ∧ r.arrives ≤ s.clk.mcyc ∧ r.body.isData = true)) && s.clk.atEdge (s.pkg.company 0).level && decide ((s.pkg.company 0).readAt ≠ s.clk.cycleOf 0 + 1) && ((s.pkg.cores.take 8).all fun c => c.replies.all fun x => decide (x.arrives = 0)) && ((s.pkg.core 0).replies.all fun q => q.due.all fun d => decide (s.clk.cycleOf 0 < d))),
    (let s := let t := onCore fun k => { k with replies := [reply0 (.data 0 [(8, 127, 1)] [] none none)] }; { t with pkg := t.pkg.modCompany 0 fun m => { m with readAt := 1 } }; (((s.pkg.core 0).replies.head?).any fun r => decide (r.due = none ∧ r.arrives ≤ s.clk.mcyc ∧ r.body.isData = true)) && decide ((s.pkg.company 0).readAt = s.clk.cycleOf 0 + 1) && ((s.pkg.core 0).replies.all fun q => q.due.all fun d => decide (s.clk.cycleOf 0 < d)))] : List Bool).all id = true := by decide +kernel

theorem test_witness_memory_events_2 : ([(let s := onPkg fun p => (p.modCore 0 fun k => { k with replies := [reply0 (.ack true)] }).modWave 0 0 fun w => { w with outst := 2, outl := 1, outstMore := [] }; (((s.pkg.core 0).replies.head?).any fun r => decide (r.due = none ∧ r.arrives ≤ s.clk.mcyc ∧ r.body.isData = false)) && (s.pkg.waveOf? key0).any fun w => decide (w.outst = 2 ∧ w.outstMore = [])),
    (let s := onPkg fun p => (p.modCore 0 fun k => { k with replies := [reply0 (.ack true)] }).modWave 0 0 fun w => { w with outst := 1, outl := 1, outstMore := [] }; (((s.pkg.core 0).replies.head?).any fun r => decide (r.due = none ∧ r.arrives ≤ s.clk.mcyc ∧ r.body.isData = false)) && (s.pkg.waveOf? key0).any fun w => decide (w.outst = 1 ∧ w.outstMore = [])),
    (let s := onPkg fun p => (p.modCore 0 fun k => { k with replies := [reply0 (.ack true)] }).modWave 0 0 fun w => { w with outst := 4095, outl := 1, outstMore := [true] }; (((s.pkg.core 0).replies.head?).any fun r => decide (r.due = none ∧ r.arrives ≤ s.clk.mcyc ∧ r.body.isData = false)) && (s.pkg.waveOf? key0).any fun w => decide (w.outst = 4095 ∧ w.outstMore = [true])),
    (let s := onPkg fun p => (p.modCore 0 fun k => { k with replies := [reply0 (.ack true)] }).modWave 0 0 fun w => { w with outst := 4095, outl := 1, outstMore := [false] }; (((s.pkg.core 0).replies.head?).any fun r => decide (r.due = none ∧ r.arrives ≤ s.clk.mcyc ∧ r.body.isData = false)) && (s.pkg.waveOf? key0).any fun w => decide (w.outst = 4095 ∧ w.outstMore = [false])),
    (let s := onCore fun k => { k with replies := [{ reply0 (.data 0 [(8, 127, 1)] [] (none) none) with due := some 0 }] }; decide (((s.pkg.core 0).replies.map Reply.due) = [some 0] ∧ s.clk.cycleOf 0 = 0 ∧ (s.pkg.waveOf? key0).isSome)),
    (let s := onCore fun k => { k with replies := [{ reply0 (.data 0 [(8, 127, 1)] [] (some { line := 0, data := [] }) none) with due := some 0 }] }; decide (((s.pkg.core 0).replies.map Reply.due) = [some 0] ∧ s.clk.cycleOf 0 = 0 ∧ (s.pkg.waveOf? key0).isSome)),
    (let s := running; decide (0 ∉ s.pkg.reads)),
    (let s := onPkg fun p => { p with reads := [0] }; decide (0 ∈ s.pkg.reads ∧ s.pkg.readQ = [])),
    (let s := onPkg fun p => { p with reads := [0], readQ := [.readReply 0 []] }; decide (0 ∈ s.pkg.reads ∧ s.pkg.readQ = [.readReply 0 []]))] : List Bool).all id = true := by decide +kernel

theorem test_witness_ordering_events_0 : ([(let s := running; decide ((s.pkg.stageAt 3).markers = [] ∧ s.pkg.gatherReady 3 = none ∧ s.pkg.ticket? 0 = none ∧ (s.pkg.company 0).releases = [])),
    (let s := onPkg fun p => p.modStage 3 fun x => { x with markers := [⟨0, 0, 1, 0, 0⟩] }; decide ((s.pkg.stageAt 3).markers = [⟨0, 0, 1, s.clk.mcyc, 0⟩] ∧ 3 < s.pkg.stage.length ∧ (s.pkg.stageAt 3).gather = [])),
    (let s := onPkg fun p => p.modStage 3 fun x => { x with markers := [⟨0, 0, 1, 0, 0⟩], gather := [⟨0, 0, 1, 0, 0⟩] }; decide ((s.pkg.stageAt 3).markers = [⟨0, 0, 1, s.clk.mcyc, 0⟩] ∧ (s.pkg.stageAt 3).gather = [⟨0, 0, 1, 0, 0⟩])),
    (let s := onPkg fun p => (p.modStage 3 fun x => { x with gather := [⟨0, 0, 3, 0, 0⟩] }).modWave 0 0 fun w => { w with fence := some { kind := .rel, scope := 3, stages := 8 } }; decide (s.pkg.gatherReady 3 = some ⟨0, 0, 3, 0, 0⟩ ∧ ((s.pkg.wave? 0 0).bind Wave.fence).isSome)),
    (let s := onPkg fun p => { p with tickets := setAt p.tickets 63 (some { part := 0, node := 1, launchid := 0, tknext := 0, tkpend := 1, killed := false, reported := 0 }), casts := [] }; decide (s.pkg.ticket? 63 = some { part := 0, node := 1, launchid := 0, tknext := 0, tkpend := 1, killed := false, reported := 0 })),
    (let s := onPkg fun p => { p with tickets := setAt p.tickets 63 (some { part := 0, node := 1, launchid := 0, tknext := 0, tkpend := 0, killed := false, reported := 0 }), casts := [entry0 (.gone false)] }; decide (s.pkg.ticket? 63 = some { part := 0, node := 1, launchid := 0, tknext := 0, tkpend := 0, killed := false, reported := 0 } ∧ (s.pkg.ticket? 63).map (fun x => s.pkg.goneCast x.key) = some (some false))),
    (let s := atTick 1 (onPkg fun p => { p with tickets := setAt p.tickets 63 (some { part := 0, node := 1, launchid := 0, tknext := 0, tkpend := 0, killed := false, reported := 63 }), casts := [] }); decide (s.pkg.ticket? 63 = some { part := 0, node := 1, launchid := 0, tknext := 0, tkpend := 0, killed := false, reported := 63 } ∧ 63 < s.clk.mcyc)),
    (let s := onCompany fun c => { c with releases := [(⟨0, 1, 0, 0⟩, false, 0)] }; decide ((s.pkg.company 0).releases = [(⟨0, 1, 0, 0⟩, false, s.clk.mcyc)] ∧ s.pkg.ticketIdx ⟨0, 1, 0, 0⟩ = none)),
    (let s := onPkg fun p => { p with tickets := setAt p.tickets 63 (some { part := 0, node := 1, launchid := 0, tknext := 0, tkpend := 0, killed := false, reported := 0 }), casts := [entry0 (.gone false)] }; decide ((s.pkg.ticket? 63).map (fun x => (s.pkg.goneCast x.key, s.pkg.castInFlight x.key)) = some (some false, false))),
    (let s := onPkg fun p => { (p.modCompany 0 fun c => { c with inq := [{ req0 with staged := some ⟨0, 1, 0, 0⟩ }] }) with tickets := setAt p.tickets 63 (some { part := 0, node := 1, launchid := 0, tknext := 0, tkpend := 0, killed := false, reported := 0 }), casts := [entry0 (.gone false)] }; decide ((s.pkg.ticket? 63).map (fun x => s.pkg.castInFlight x.key) = some true))] : List Bool).all id = true := by decide +kernel

theorem test_witness_ordering_events_1 : ([(let s := atTick 1 (onPkg fun p => { p with tickets := setAt p.tickets 63 (some { part := 0, node := 1, launchid := 0, tknext := 0, tkpend := 0, killed := false, reported := 63 }) }); decide (s.pkg.ticket? 63 = some { part := 0, node := 1, launchid := 0, tknext := 0, tkpend := 0, killed := false, reported := 63 } ∧ 63 < s.clk.mcyc) && ((List.range 32).all fun m => (s.pkg.company m).stageWait.isEmpty))] : List Bool).all id = true := by decide +kernel

theorem test_witness_vaults_0 : ([(let s := running; decide ((s.pkg.vault 255).q = [] ∧ 255 < s.pkg.vaults.length)),
    (let s := onPkg fun p => p.modVault 255 fun v => { v with refpos := 100, q := [⟨0, 0, 0, false⟩] }; decide ((s.pkg.vault 255).burst = false ∧ (s.pkg.vault 255).q = [⟨0, 0, 0, false⟩]) && !(s.pkg.vault 255).quiet && s.pkg.vaultServes 255 0),
    (let s := onPkg fun p => p.modVault 255 fun v => { v with burst := true }; decide ((s.pkg.vault 255).burst = true)),
    (let s := onPkg fun p => p.modVault 255 fun v => { v with turnFrom := 16 }; decide (s.clk.mcyc < (s.pkg.vault 255).turnFrom)),
    (let s := onPkg fun p => (p.modPart 7 fun q => { q with valid := true }).modVault 255 fun v => { v with refpos := 100, q := [⟨0, 0, 7, false⟩, ⟨0, 0, 0, false⟩], turn := 0 }; decide ((s.pkg.vault 255).burst = false ∧ (s.pkg.vault 255).turnFrom ≤ s.clk.mcyc ∧ (s.pkg.vault 255).q[1]? = some ⟨0, 0, 0, false⟩) && !(s.pkg.vault 255).quiet && s.pkg.vaultServes 255 0 && !s.pkg.vaultServes 255 7),
    (let s := onPkg fun p => (p.modPart 7 fun q => { q with valid := true }).modVault 255 fun v => { v with refpos := 100, q := [⟨0, 0, 7, false⟩, ⟨0, 0, 0, true⟩], turn := 0 }; decide ((s.pkg.vault 255).burst = false ∧ (s.pkg.vault 255).turnFrom ≤ s.clk.mcyc ∧ (s.pkg.vault 255).q[1]? = some ⟨0, 0, 0, true⟩) && !(s.pkg.vault 255).quiet && s.pkg.vaultServes 255 0 && !s.pkg.vaultServes 255 7),
    (let s := onPkg fun p => p.modVault 255 fun v => { v with turn := 1 }; decide ((s.pkg.vault 255).turn ≠ 0)),
    (let s := onPkg fun p => p.modVault 255 fun v => { v with turn := 1 }; decide ((s.pkg.vault 255).turn = 1)),
    (let s := onPkg fun p => { p with dramErr := [] }; decide ((s.pkg.badLayers (255 * (Config.vaultSpan / 64))).length = 0 ∧ (s.pkg.vault 255).scrubptr = 0 ∧ 255 < s.pkg.vaults.length)),
    (let s := onPkg fun p => { p with dramErr := [(255 * (Config.vaultSpan / 64), [3])] }; decide ((s.pkg.badLayers (255 * (Config.vaultSpan / 64))).length = 1 ∧ (s.pkg.vault 255).scrubptr = 0 ∧ 255 < s.pkg.vaults.length))] : List Bool).all id = true := by decide +kernel

theorem test_witness_vaults_1 : ([(let s := onPkg fun p => { p with dramErr := [(255 * (Config.vaultSpan / 64), [3, 4])] }; decide ((s.pkg.badLayers (255 * (Config.vaultSpan / 64))).length = 2 ∧ (s.pkg.vault 255).scrubptr = 0 ∧ 255 < s.pkg.vaults.length)),
    (let s := running; decide (s.clk.run = .running)),
    (let s := frozen running; decide (s.clk.run = .frozen))] : List Bool).all id = true := by decide +kernel

theorem test_witness_walks_0 : ([(let e := 0; decide (3 ≤ 3 ∧ bits e 0 1 = 0)),
    (let e := 16; decide (0 ≤ 3 ∧ bits e 0 1 = 0 ∧ bits e 4 1 = 1)),
    (let e := 1 + 32; decide (3 ≤ 3 ∧ bits e 5 3 ≠ 0)),
    (let e := 1 + 2; decide (3 ≤ 3 ∧ bits e 1 1 = 1)),
    (let e := 1 + 2 + 2 ^ 16; decide (2 ≤ 3 ∧ bits e 1 1 = 1 ∧ bits e 8 40 * 256 % 2 ^ 30 ≠ 0)),
    (let e := 1 + 2 + 2 ^ 30; decide (2 ≤ 3 ∧ bits e 1 1 = 1 ∧ bits e 48 16 = 0 ∧ bits e 5 3 = 0 ∧ bits e 8 40 * 256 % 2 ^ 30 = 0)),
    (let e := 1; decide (0 ≤ 3 ∧ bits e 1 1 = 0 ∧ bits e 0 1 = 1)),
    (let e := 1 + 2 ^ 12; decide (3 ≤ 3 ∧ bits e 1 1 = 0 ∧ bits e 0 1 = 1 ∧ bits e 8 40 * 256 % 4096 = 0)),
    (let s := running; decide ((s.pkg.company 0).walks = [] ∧ (s.pkg.core 0).shoot = [] ∧ s.pkg.atsInv = [])),
    (let s := onCompany fun c => { c with walks := [walk0] }; decide ((s.pkg.company 0).walks = [walk0] ∧ walk0.started = false ∧ walk0.marked = false))] : List Bool).all id = true := by decide +kernel

theorem test_witness_walks_1 : ([(let s := onCompany fun c => { c with walks := [{ walk0 with started := true, marked := true }] }; decide ((s.pkg.company 0).walks.all (fun w => w.started && w.marked && !w.ended) = true)),
    (let s := waitingIn (onCompany fun c => { c with walks := [{ walk0 with started := true, end_ := some (.entry { part := 0, ats := false, size := 16, va := 0, frame := 0, w := true, x := true }) }] }) (.translate [(0, false, false)]); WaitsIn s (.translate [(0, false, false)]) && decide ((s.pkg.company 0).walks.map Walk.end_ = [some (.entry { part := 0, ats := false, size := 16, va := 0, frame := 0, w := true, x := true })]) && (s.pkg.wave? 0 0).any fun w => decide (w.park = none ∧ w.leaders = [w.sole])),
    (let s := running; decide (255 < s.pkg.cores.length ∧ 255 / 8 < s.pkg.companies.length)),
    (let s := onCore fun k => { k with shoot := [⟨0, 0, 65536, false, [], 0, []⟩] }; decide ((s.pkg.core 0).shoot.map Shootdown.removed = [false])),
    (let s := onCore fun k => { k with shoot := [⟨0, 0, 65536, true, [], 0, []⟩] }; decide ((s.pkg.core 0).shoot = [⟨0, 0, 65536, true, [], 0, []⟩])),
    (let s := onPkg fun p => (p.modCore 0 fun k => { k with shoot := [⟨0, 0, 65536, true, [(0, 1)], 0, []⟩] }).modCompany 0 fun c => { c with inq := [req0] }; decide (s.pkg.olderInFlight 0 0 1 = true)),
    (let s := onPkg fun p => { p with atsInv := [⟨0, 0, 12, 64, false, [], [], []⟩] }; decide (s.pkg.atsInv.map AtsInv.removed = [false])),
    (let s := onPkg fun p => { p with atsInv := [⟨0, 0, 12, 64, true, [], [], []⟩] }; decide (s.pkg.atsInv.map AtsInv.removed = [true])),
    (let s := onCompany fun c => { c with walks := [walk0] }; decide ((s.pkg.company 0).walks = [walk0] ∧ 0 < s.pkg.companies.length)),
    (let s := onCompany fun c => { c with walks := List.replicate 8 { walk0 with started := true, readAt := 5 } }; decide (((s.pkg.company 0).walks.filter fun w => w.started && !w.ended).length = 8 ∧ ((s.pkg.company 0).walks.all fun w => decide (s.clk.mcyc < w.readAt)) = true))] : List Bool).all id = true := by decide +kernel

theorem test_witness_walks_2 : ([(let s := onCompany fun c => { c with walks := [{ walk0 with started := true, table := 2 ^ 46 }] }; decide (((s.pkg.company 0).walks.all fun w => w.started && !w.ended && w.end_.isNone && decide (w.readAt ≤ s.clk.mcyc ∧ w.level ≤ 3)) = true ∧ s.pkg.placeOf (2 ^ 46) = none)),
    (let s := let t := tables; { t with pkg := t.pkg.modCompany 0 fun c => { c with walks := [{ walk0 with started := true, level := 3, table := 0x100000 }] } }; decide ((s.pkg.company 0).walks.map Walk.level = [3]) && (match s.pkg.placeOf 0x100000 with | some a => (match s.pkg.pteStep 0 0 false false 3 (ofLe (s.pkg.readBytes a 8)) with | .next _ => !false | .stop _ => false) | none => false)),
    (let s := let t := tables; { t with pkg := t.pkg.modCompany 0 fun c => { c with walks := [{ walk0 with started := true, level := 0, table := 0x103000 }] } }; decide ((s.pkg.company 0).walks.map Walk.level = [0]) && (match s.pkg.placeOf 0x103000 with | some a => (match s.pkg.pteStep 0 0 false false 0 (ofLe (s.pkg.readBytes a 8)) with | .next _ => !true | .stop _ => true) | none => false)),
    (let s := onCompany fun c => { c with walks := [{ walk0 with started := true, end_ := some .page, readAt := 9 }] }; decide (((s.pkg.company 0).walks.all fun w => decide (s.clk.mcyc < w.readAt)) = true)),
    (let s := onCompany fun c => { c with walks := [{ walk0 with started := true, marked := true, end_ := some .page }] }; decide (((s.pkg.company 0).walks.all fun w => w.started && !w.ended && w.end_.isSome && w.marked && decide (w.readAt ≤ s.clk.mcyc)) = true)),
    (let s := onCompany fun c => { c with walks := [{ walk0 with started := true, waiters := [], end_ := some (.entry { part := 0, ats := false, size := 16, va := 0, frame := 0, w := true, x := true }) }] }; decide ((s.pkg.company 0).walks.map (fun w => (w.started, w.ended, w.marked, w.end_, w.waiters)) = [(true, false, false, some (.entry { part := 0, ats := false, size := 16, va := 0, frame := 0, w := true, x := true }), [])] ∧ 0 < s.pkg.companies.length)),
    (let s := waitingIn (onCompany fun c => { c with walks := [{ walk0 with started := true, end_ := some (.entry { part := 0, ats := false, size := 16, va := 0, frame := 0, w := true, x := true }) }] }) (.translate [(0, false, false)]); WaitsIn s (.translate [(0, false, false)]) && decide ((s.pkg.company 0).walks.map Walk.waiters = [[.wave 0 0]])),
    (let s := onPkg fun p => { (p.modCore 0 fun k => { k with shoot := [⟨0, 0, 65536, true, [(0, 0)], 0, []⟩] }) with pcie := [] }; decide (s.pkg.olderInFlight 0 0 0 = false ∧ (s.pkg.core 0).shoot.map (fun x => (x.copyAck, x.tags)) = [(0, [])] ∧ s.pkg.pcie.map Prod.fst = [] ∧ s.clk.mcyc = 0)),
    (let s := onPkg fun p => { p with atsInv := [⟨0, 0, 12, 64, true, [(0, 0, 0)], [(0, 0)], []⟩], pcie := [] }; decide (s.pkg.olderInFlight 0 0 0 = false ∧ s.pkg.atsInv.map (fun x => (x.copyAcks, x.tags)) = [([(0, 0)], [])] ∧ s.pkg.pcie.map Prod.fst = [])),
    (let s := onPkg fun p => { (p.modCore 0 fun k => { k with shoot := [⟨0, 0, 65536, true, [(0, 0)], 5, []⟩] }) with pcie := [] }; decide (s.pkg.olderInFlight 0 0 0 = false ∧ (s.pkg.core 0).shoot.map (fun x => (x.copyAck, x.tags)) = [(5, [])] ∧ s.pkg.pcie.map Prod.fst = [] ∧ s.clk.mcyc = 0))] : List Bool).all id = true := by decide +kernel

theorem test_witness_walks_3 : ([(let s := onPkg fun p => { p with atsInv := [⟨0, 0, 12, 64, true, [(0, 0, 0)], [(0, 5)], []⟩], pcie := [] }; decide (s.pkg.olderInFlight 0 0 0 = false ∧ s.pkg.atsInv.map (fun x => (x.copyAcks, x.tags)) = [([(0, 5)], [])] ∧ s.pkg.pcie.map Prod.fst = [])),
    (let s := onPkg fun p => { (p.modCore 0 fun k => { k with shoot := [⟨0, 0, 65536, true, [(0, 0)], 0, [9]⟩] }) with pcie := [(9, .cue 0 0 0)] }; decide (s.pkg.olderInFlight 0 0 0 = false ∧ (s.pkg.core 0).shoot.map (fun x => (x.copyAck, x.tags)) = [(0, [9])] ∧ s.pkg.pcie.map Prod.fst = [9] ∧ s.clk.mcyc = 0)),
    (let s := onPkg fun p => { p with atsInv := [⟨0, 0, 12, 64, true, [(0, 0, 0)], [(0, 0)], [9]⟩], pcie := [(9, .cue 0 0 0)] }; decide (s.pkg.olderInFlight 0 0 0 = false ∧ s.pkg.atsInv.map (fun x => (x.copyAcks, x.tags)) = [([(0, 0)], [9])] ∧ s.pkg.pcie.map Prod.fst = [9])),
    (let s := onCompany fun c => { c with walks := [walk0] }; decide (Shootdown.meets ⟨0, 0, 65536, false, [], 0, []⟩ walk0 = true ∧ (s.pkg.company 0).walks[0]? = some walk0)),
    (let s := onPkg fun p => p.modCompany 0 fun c => c.tlbFill { part := 0, ats := false, size := 16, va := 0, frame := 0, w := true, x := true }; decide ((tabGet (s.pkg.company 0).tlb 0).isSome = true)),
    (let s := onPkg fun p => { p with pcie := [(0, .ats 0 0 0 false false [])] }; decide (s.pkg.pcie[0]? = some (0, .ats 0 0 0 false false [])))] : List Bool).all id = true := by decide +kernel

theorem test_witness_faults_0 : ([(let s := running; decide (s.pkg.faults = [] ∧ s.pkg.pcieWait? 0 = none ∧ ((s.pkg.wave? 0 0).map Wave.park) = some none)),
    (let s := onPkg fun p => { p with faults := [⟨0, 0, 0, none, 0, 0, false, false⟩] }; decide (s.pkg.faults.map FaultRecord.copy = [none])),
    (let s := onPkg fun p => { p with faults := [⟨0, 0, 0, some 0, 0, 0, false, false⟩] }; decide (s.pkg.faults.map FaultRecord.copy = [some 0])),
    (let s := tables; decide (((tableStep s 3 (s.pkg.part 0).ctx.atroot.toNat).bind fun t => (tableStep s 2 t).bind fun t => tableStep s 1 t) = some 0x103000 ∧ ((s.pkg.placeOf 0x103000).map fun a => ofLe (s.pkg.readBytes a 8)) = some 0x14 ∧ s.pkg.faults.map FaultRecord.copy = [none] ∧ s.pkg.frames = [])),
    (let s := onPkg fun p => p.modWave 0 0 fun w => { w with park := some ⟨0x10000, 1, none, 0, [0]⟩ }; decide (((s.pkg.wave? 0 0).bind Wave.park) = some ⟨0x10000, 1, none, 0, [0]⟩)),
    (let s := onPkg fun p => p.modWave 0 0 fun w => { w with park := some ⟨0x10000, 1, (some { instr := .ldc ⟨0, 8, 6, 0, 2⟩, lanes := [⟨0, 2 ^ 47⟩], data := [[]], cmp := [[]] }), 0, [0]⟩ }; (match s.pkg.cast? 0 0 with | some c => (match s.pkg.memCheck 0 (.wave 0 0) { c with ordered := false } { instr := .ldc ⟨0, 8, 6, 0, 2⟩, lanes := [⟨0, 2 ^ 47⟩], data := [[]], cmp := [[]] } with | .trap _ => true | _ => false) | none => false)),
    (let s := onPkg fun p => p.modWave 0 0 fun w => { w with park := some ⟨0x10000, 1, (some { instr := .ldc ⟨0, 8, 6, 0, 2⟩, lanes := [⟨0, 0x20000⟩], data := [[]], cmp := [[]] }), 0, [0]⟩ }; (match s.pkg.cast? 0 0 with | some c => (match s.pkg.memCheck 0 (.wave 0 0) { c with ordered := false } { instr := .ldc ⟨0, 8, 6, 0, 2⟩, lanes := [⟨0, 0x20000⟩], data := [[]], cmp := [[]] } with | .go _ _ [] => true | _ => false) | none => false)),
    (let s := onPkg fun p => { p with pcie := [(0, .ats 0 0 0 false true [.wave 0 0])] }; decide (s.pkg.pcieWait? 0 = some (.ats 0 0 0 false true [.wave 0 0]))),
    (let s := onPkg fun p => { p with pcie := [(0, .ats 0 0 0 false false [.wave 0 0])] }; decide (s.pkg.pcieWait? 0 = some (.ats 0 0 0 false false [.wave 0 0]))),
    (let s := onPkg fun p => { p with pcie := [(0, .prg 0 0 0 false [.wave 0 0])] }; decide (s.pkg.pcieWait? 0 = some (.prg 0 0 0 false [.wave 0 0]) ∧ s.pkg.pcie.length ≤ 64))] : List Bool).all id = true := by decide +kernel

theorem test_witness_faults_1 : ([(let s := onPkg fun p => { p with faults := [⟨5, 0, 0, none, 0, 0, false, false⟩] }; (s.pkg.faults.all fun r => decide (s.clk.mcyc < r.arrives))),
    (let s := onPkg fun p => { p with faults := [⟨0, 9, 0, none, 0, 0, false, false⟩, ⟨0, 8, 0, none, 0, 0, false, false⟩] }; decide (s.pkg.faults.map (fun r => (r.arrives, r.core)) = [(0, 9), (0, 8)] ∧ (s.pkg.faults[1]?).map FaultRecord.copy = some (none) ∧ (s.pkg.placeOf 0x100000).isSome)),
    (let s := onPkg fun p => { p with faults := [⟨0, 9, 0, none, 0, 0, false, false⟩, ⟨0, 8, 0, some 0, 0, 0, false, false⟩] }; decide (s.pkg.faults.map (fun r => (r.arrives, r.core)) = [(0, 9), (0, 8)] ∧ (s.pkg.faults[1]?).map FaultRecord.copy = some (some 0) ∧ (s.pkg.placeOf 0x100000).isSome)),
    (let s := tables; decide (s.pkg.touchVault 0 = some 0 ∧ s.pkg.frames = [] ∧ s.pkg.inService 0 0 = false ∧ (s.pkg.faults.map FaultRecord.core) = [0] ∧ s.pkg.stages.getLsbD 0 = true)),
    (let s := let t := tables; { t with pkg := { t.pkg with frames := [(0, 0)] } }; decide (s.pkg.frames = [(0, 0)] ∧ s.pkg.touchVault 0 = some 0)),
    (let s := tables; decide (s.pkg.touchVault 0 ≠ some 1)),
    (let s := let t := tables; { t with pkg := { t.pkg with win := { t.pkg.win with svcsize := 65536 } } }; decide (s.pkg.inService 0 0 = true)),
    (let s := running; decide (s.pkg.touchVault 255 = some 255)),
    (let s := onPkg fun p => { p with pcie := [(0, .ats 0 0 0 true false [.wave 0 0])] }; decide (s.pkg.pcieWait? 0 = some (.ats 0 0 0 true false [.wave 0 0]))),
    (let s := onPkg fun p => { p with pcie := [(0, .ats 0 0 0 true true [])] }; decide (s.pkg.pcieWait? 0 = some (.ats 0 0 0 true true [])))] : List Bool).all id = true := by decide +kernel

theorem test_witness_faults_2 : ([(let s := onPkg fun p => { p with pcie := [(0, .ats 0 0 0 true false [])] }; decide (s.pkg.pcieWait? 0 = some (.ats 0 0 0 true false [])))] : List Bool).all id = true := by decide +kernel

theorem test_witness_placement_0 : ([(let s := State.reset; (List.range 8).all fun k => !(s.pkg.part k).valid),
    (let s := onPkg fun p => { ((p.modVault 0 fun v => { v with vclass := 0 }).modPart 0 fun q => { q with nodes := tabSet q.nodes 1 ({ EntryWith (goodNode {}) 40 8 (1 + 8 * 2 ^ 7 + 8 * 2 ^ 16) with checked := true }) }) with casts := [entry0 .pending] }; decide ((s.pkg.part 0).valid = true ∧ s.pkg.cores.length = 256 ∧ s.pkg.planeOp = none ∧ (s.pkg.part 0).recovery.stopping = false ∧ (s.pkg.part 0).recovery.resumeAt = none ∧ (s.pkg.node 0 1).checked = true ∧ s.pkg.casts = [entry0 .pending] ∧ (s.pkg.node 0 1).cog = 0 ∧ (s.pkg.part 0).ordPend = false ∧ s.pkg.heldLaunch (entry0 .pending).key = false) && ((List.range 8).all fun j => j = 0 || !(s.pkg.part j).valid) && (match s.pkg.candidates 0 with | c :: _ => (match s.pkg.tryCore (s.pkg.want (entry0 .pending)) c with | .ok _ => true | .error _ => false) | [] => false)),
    (let s := onPkg fun p => { ((p.modVault 0 fun v => { v with vclass := 0 }).modPart 0 fun q => { q with nodes := tabSet q.nodes 1 ({ EntryWith (goodNode {}) 40 8 (9 + 8 * 2 ^ 7 + 256 * 2 ^ 16) with checked := true }) }) with casts := [entry0 .pending] }; decide ((s.pkg.part 0).valid = true ∧ s.pkg.cores.length = 256 ∧ s.pkg.planeOp = none ∧ (s.pkg.part 0).recovery.stopping = false ∧ (s.pkg.part 0).recovery.resumeAt = none ∧ (s.pkg.node 0 1).checked = true ∧ s.pkg.casts = [entry0 .pending] ∧ (s.pkg.node 0 1).cog = 0 ∧ (s.pkg.part 0).ordPend = false ∧ s.pkg.heldLaunch (entry0 .pending).key = false) && ((s.pkg.candidates 0).length = 8 && (s.pkg.candidates 0).all fun c => (match s.pkg.tryCore (s.pkg.want (entry0 .pending)) c with | .ok _ => false | .error r => decide (r = 2)))),
    (let s := running; decide ((s.pkg.core 0).binds = [])),
    (let s := atTick 1 (onPkg fun p => { (p.modCore 0 fun k => { k with binds := [{ bind0 .launch with slots := [0] }] }) with casts := [entry0 (.placed 0 none)] }); (s.pkg.core 0).binds.all (fun b => decide (b.arrives < s.clk.mcyc)) && decide (s.pkg.casts.map CastEntry.id = (s.pkg.core 0).binds.map Bind.entry) && (match (s.pkg.company 0).gating with | .running _ => true | _ => false) && ((s.pkg.core 0).ctx.waves[0]?).any Option.isSome),
    (let s := atTick 1 (onPkg fun p => { (p.modCore 0 fun k => { k with binds := [{ bind0 .launch with units := 257 }] }) with casts := [entry0 (.placed 0 none)] }); (s.pkg.core 0).binds.all (fun b => decide (b.arrives < s.clk.mcyc)) && decide (s.pkg.casts.map CastEntry.id = (s.pkg.core 0).binds.map Bind.entry) && (match (s.pkg.company 0).gating with | .running _ => true | _ => false) && decide ((s.pkg.core 0).ctx.units.length < 257 ∧ (s.pkg.core 0).ctx.waves[1]? = some none)),
    (let s := atTick 1 (onPkg fun p => { (p.modCore 0 fun k => { k with binds := [{ bind0 .launch with sprow := 127, rows := 1 }] }) with casts := [entry0 (.placed 0 none)] }); (s.pkg.core 0).binds.all (fun b => decide (b.arrives < s.clk.mcyc)) && decide (s.pkg.casts.map CastEntry.id = (s.pkg.core 0).binds.map Bind.entry) && (match (s.pkg.company 0).gating with | .running _ => true | _ => false) && decide ((s.pkg.core 0).ctx.waves[1]? = some none ∧ (s.pkg.core 0).ctx.units[0]? = some none) && (s.pkg.core 0).ctx.casts.any fun o => o.any fun c => decide (c.sprow ≤ 127 ∧ 127 < c.sprow + c.rows)),
    (let s := atTick 1 (onPkg fun p => { (p.modCore 0 fun k => { k with binds := [{ bind0 .launch with arrives := 63 }] }) with casts := [entry0 (.placed 0 none)] }); (s.pkg.core 0).binds.all (fun b => decide (b.arrives < s.clk.mcyc)) && decide (s.pkg.casts.map CastEntry.id = (s.pkg.core 0).binds.map Bind.entry) && (match (s.pkg.company 0).gating with | .running _ => true | _ => false) && decide ((s.pkg.core 0).ctx.waves[1]? = some none ∧ (s.pkg.core 0).ctx.units[0]? = some none ∧ 1 ≤ (s.pkg.core 0).ctx.units.length ∧ 0 < s.pkg.cores.length ∧ 0 < s.pkg.parts.length ∧ 1 < (s.pkg.core 0).ctx.waves.length ∧ findIdx? Option.isNone (s.pkg.core 0).ctx.casts = some 1)),
    (let s := atTick 1 (onPkg fun p => { (p.modCore 0 fun k => { k with binds := [{ bind0 .resume with arrives := 63 }] }) with casts := [entry0 (.placed 0 (some { cast := fetchCast, waves := [fetchWave 0], sp := [], fe := [], tags := [], poison := [], colls := [], follow := [], deferred := [] }))] }); (s.pkg.core 0).binds.all (fun b => decide (b.arrives < s.clk.mcyc)) && decide (s.pkg.casts.map CastEntry.id = (s.pkg.core 0).binds.map Bind.entry) && (match (s.pkg.company 0).gating with | .running _ => true | _ => false) && decide ((s.pkg.core 0).ctx.waves[1]? = some none ∧ (s.pkg.core 0).ctx.units[0]? = some none ∧ 1 ≤ (s.pkg.core 0).ctx.units.length ∧ 0 < s.pkg.cores.length ∧ 0 < s.pkg.parts.length ∧ 1 < (s.pkg.core 0).ctx.waves.length ∧ findIdx? Option.isNone (s.pkg.core 0).ctx.casts = some 1) && decide ((fetchWave 0).fence = none ∧ (fetchWave 0).park = none)),
    (let s := onPkg fun p => { ((p.modVault 0 fun v => { v with vclass := 0 }).modPart 0 fun q => { q with nodes := tabSet q.nodes 1 ({ EntryWith (EntryWith (goodNode {}) 40 8 (1 + 8 * 2 ^ 7 + 8 * 2 ^ 16)) 248 8 3 with checked := true }) }) with casts := [entry0 .pending] }; decide ((s.pkg.part 0).valid = true ∧ s.pkg.cores.length = 256 ∧ s.pkg.planeOp = none ∧ (s.pkg.part 0).recovery.stopping = false ∧ (s.pkg.part 0).recovery.resumeAt = none ∧ (s.pkg.node 0 1).checked = true ∧ s.pkg.casts = [entry0 .pending] ∧ (s.pkg.node 0 1).cog = 0 ∧ (s.pkg.part 0).ordPend = false ∧ s.pkg.heldLaunch (entry0 .pending).key = false ∧ (s.pkg.node 0 1).fault = true))] : List Bool).all id = true := by decide +kernel

theorem test_witness_placement_1 : ([(let s := onPkg fun p => { ((p.modVault 0 fun v => { v with vclass := 0 }).modPart 0 fun q => { q with nodes := tabSet q.nodes 1 ({ EntryWith (goodNode {}) 40 8 (1 + 8 * 2 ^ 7 + 8 * 2 ^ 16) with checked := true }) }) with casts := [entry0 .pending] }; decide ((s.pkg.part 0).valid = true ∧ s.pkg.cores.length = 256 ∧ s.pkg.planeOp = none ∧ (s.pkg.part 0).recovery.stopping = false ∧ (s.pkg.part 0).recovery.resumeAt = none ∧ (s.pkg.node 0 1).checked = true ∧ s.pkg.casts = [entry0 .pending] ∧ (s.pkg.node 0 1).cog = 0 ∧ (s.pkg.part 0).ordPend = false ∧ s.pkg.heldLaunch (entry0 .pending).key = false ∧ (s.pkg.node 0 1).fault = false)),
    (let s := let t := atTick 1 (onPkg fun p => { (p.modCore 0 fun k => { k with binds := [{ bind0 .launch with arrives := 63, recs := [] }] }) with casts := [entry0 (.placed 0 none)] }); { t with pkg := let p := t.pkg; p.modPart 0 fun q => { q with nodes := tabSet q.nodes 1 (EntryWith (goodNode {}) 24 8 (2 ^ 64 - 2 ^ 40)) } }; (s.pkg.core 0).binds.all (fun b => decide (b.arrives < s.clk.mcyc)) && decide (s.pkg.casts.map CastEntry.id = (s.pkg.core 0).binds.map Bind.entry) && (match (s.pkg.company 0).gating with | .running _ => true | _ => false) && decide ((s.pkg.core 0).ctx.waves[1]? = some none ∧ (s.pkg.core 0).ctx.units[0]? = some none ∧ 1 ≤ (s.pkg.core 0).ctx.units.length ∧ 0 < s.pkg.cores.length ∧ 0 < s.pkg.parts.length ∧ 1 < (s.pkg.core 0).ctx.waves.length ∧ findIdx? Option.isNone (s.pkg.core 0).ctx.casts = some 1) && decide (isHostVa (BitVec.ofNat 64 (s.pkg.node 0 1).cqbase) = true ∧ ((s.pkg.core 0).binds.all fun b => decide (0 < b.batchn)) = true)),
    (let s := let t := atTick 1 (onPkg fun p => { (p.modCore 0 fun k => { k with binds := [{ bind0 .launch with arrives := 63, recs := [(0, List.replicate 16 0)] }] }) with casts := [entry0 (.placed 0 none)] }); { t with pkg := let p := t.pkg; p.modPart 0 fun q => { q with nodes := tabSet q.nodes 1 (EntryWith (goodNode {}) 24 8 (2 ^ 64 - 2 ^ 40)) } }; (s.pkg.core 0).binds.all (fun b => decide (b.arrives < s.clk.mcyc)) && decide (s.pkg.casts.map CastEntry.id = (s.pkg.core 0).binds.map Bind.entry) && (match (s.pkg.company 0).gating with | .running _ => true | _ => false) && decide ((s.pkg.core 0).ctx.waves[1]? = some none ∧ (s.pkg.core 0).ctx.units[0]? = some none ∧ 1 ≤ (s.pkg.core 0).ctx.units.length ∧ 0 < s.pkg.cores.length ∧ 0 < s.pkg.parts.length ∧ 1 < (s.pkg.core 0).ctx.waves.length ∧ findIdx? Option.isNone (s.pkg.core 0).ctx.casts = some 1) && decide (isHostVa (BitVec.ofNat 64 (s.pkg.node 0 1).cqbase) = true ∧ ((s.pkg.core 0).binds.all fun b => decide (b.batchn = 1 ∧ b.recs.map Prod.fst = [0])) = true)),
    (let s := atTick 1 (onPkg fun p => { (p.modCore 0 fun k => { k with binds := [{ bind0 .launch with arrives := 63 }] }) with casts := [entry0 (.placed 0 none)] }); decide (isHostVa (BitVec.ofNat 64 (s.pkg.node 0 1).cqbase) = false))] : List Bool).all id = true := by decide +kernel

theorem test_witness_exits_0 : ([(let s := atTick 1 (onPkg fun p => { (p.modCore 0 fun k => { k with binds := [{ bind0 .preempt with arrives := 63 }] }) with casts := [entry0 (.resident 0 0)] }); (s.pkg.core 0).binds.all (fun b => decide (b.arrives < s.clk.mcyc)) && decide (s.pkg.casts.map CastEntry.id = (s.pkg.core 0).binds.map Bind.entry) && (match (s.pkg.company 0).gating with | .running _ => true | _ => false) && decide (findIdx? (fun c : Option Cast => c.any fun x => x.castid = 0) (s.pkg.core 0).ctx.casts = some 0 ∧ 0 < s.pkg.cores.length)),
    (let s := atTick 1 (onPkg fun p => { (p.modCore 0 fun k => { k with binds := [{ bind0 .kill with arrives := 63 }] }) with casts := [entry0 (.resident 0 0)] }); (s.pkg.core 0).binds.all (fun b => decide (b.arrives < s.clk.mcyc)) && decide (s.pkg.casts.map CastEntry.id = (s.pkg.core 0).binds.map Bind.entry) && (match (s.pkg.company 0).gating with | .running _ => true | _ => false) && decide (findIdx? (fun c : Option Cast => c.any fun x => x.castid = 0) (s.pkg.core 0).ctx.casts = some 0 ∧ 0 < s.pkg.cores.length)),
    (let s := onPkg fun p => { (p.modCast 0 0 fun c => { c with stopping := none }) with casts := [entry0 (.resident 0 0)] }; decide ((s.pkg.cast? 0 0).map Cast.stopping = some (none) ∧ s.pkg.casts = [entry0 (.resident 0 0)])),
    (let s := onPkg fun p => { (p.modCast 0 0 fun c => { c with stopping := some 0 }) with casts := [entry0 (.resident 0 0)] }; decide ((s.pkg.cast? 0 0).map Cast.stopping = some (some 0) ∧ s.pkg.casts = [entry0 (.resident 0 0)] ∧ s.pkg.castSafe 0 0 = true ∧ s.pkg.enginesQuiet s.clk 0 0 = true)),
    (let s := onPkg fun p => (p.modCast 0 0 fun c => { c with stopping := some 0 }).modWave 0 0 fun w => { w with outst := 1 }; decide (s.pkg.castSafe 0 0 = false ∧ (s.pkg.cast? 0 0).map Cast.stopping = some (some 0))),
    (let s := running; decide (s.pkg.casts = [] ∧ 7 < s.pkg.parts.length)),
    (let s := onPkg fun p => { p with casts := [entry0 (.resident 0 0)] }; decide (s.pkg.casts = [entry0 (.resident 0 0)] ∧ (entry0 (.resident 0 0)).castid = some (BitVec.ofNat 14 0)))] : List Bool).all id = true := by decide +kernel

theorem test_witness_epoch_0 : ([(let s := State.reset; decide (s.clk.rtick = 0)),
    (let s := atTick 249 running; decide (s.clk.rtick % 250 ≠ 0)),
    (let s := atTick 250 running; decide (s.clk.rtick ≠ 0 ∧ s.clk.rtick % 250 = 0 ∧ s.pkg.companies.length = 32 ∧ s.pkg.vaults.length = 256) && ((List.range 32).all fun m => (s.pkg.recovOf m).isNone))] : List Bool).all id = true := by decide +kernel

theorem test_witness_power_0 : ([(let s := atTick 10 (onCompany fun c => { c with gating := .gated }); decide ((s.pkg.company 0).gatedNow = true)),
    (let s := running; decide ((s.pkg.company 0).gatedNow = false ∧ (s.pkg.company 0).vnow = (s.pkg.company 0).vtarget ∧ (s.pkg.company 0).seq = none)),
    (let s := atTick 10 (onCompany fun c => { c with vnow := 350 }); decide ((s.pkg.company 0).gatedNow = false ∧ (s.pkg.company 0).vnow ≠ (s.pkg.company 0).vtarget ∧ (s.pkg.company 0).seq = none)),
    (let s := atTick 10 (onCompany fun c => { c with seq := some ⟨36, 37, 10⟩ }); decide ((s.pkg.company 0).gatedNow = false ∧ (s.pkg.company 0).seq = some ⟨36, 37, s.clk.rtick⟩)),
    (let s := atTick 10 (onCompany fun c => { c with seq := some ⟨36, 4, 10⟩ }); decide ((s.pkg.company 0).gatedNow = false ∧ (s.pkg.company 0).seq = some ⟨36, 4, s.clk.rtick⟩)),
    (let s := let t := State.reset; { t with pkg := t.pkg.modCompany 0 fun c => { c with gating := .running 1249 } }; ((s.pkg.cores.take 8).all fun c => c.binds.isEmpty && c.ctx.casts.all Option.isNone) && decide ((s.pkg.company 0).gating = .running 1249)),
    (let s := let t := State.reset; { t with pkg := t.pkg.modCompany 0 fun c => { c with gating := .running 1250 } }; ((s.pkg.cores.take 8).all fun c => c.binds.isEmpty && c.ctx.casts.all Option.isNone) && decide ((s.pkg.company 0).gating = .running 1250)),
    (let s := atTick 10 (onCompany fun c => { c with gating := .running 1250 }); !((s.pkg.cores.take 8).all fun c => c.binds.isEmpty && c.ctx.casts.all Option.isNone)),
    (let s := atTick 10 (onCompany fun c => { c with gating := .gating 10 }); decide ((s.pkg.company 0).gating = .gating 10 ∧ s.clk.mcyc < 64 * 11 ∧ (s.pkg.core 0).binds = [])),
    (let s := atTick 11 (onCompany fun c => { c with gating := .gating 10 }); decide ((s.pkg.company 0).gating = .gating 10 ∧ s.clk.mcyc = 64 * 11 ∧ (s.pkg.core 0).binds = []))] : List Bool).all id = true := by decide +kernel

theorem test_witness_power_1 : ([(let s := atTick 11 (onPkg fun p => (p.modCompany 0 fun c => { c with gating := .gating 10 }).modCore 7 fun k => { k with binds := [{ bind0 .launch with arrives := 704 }] }); decide (((s.pkg.core 7).binds.all fun b => decide (b.arrives ≤ 64 * 11)) = true ∧ (s.pkg.core 7).binds ≠ [] ∧ s.clk.mcyc = 64 * 11)),
    (let s := atTick 10 (onCompany fun c => { c with gating := .waking 640 }); decide ((s.pkg.company 0).gating = .waking 640 ∧ 640 = s.clk.mcyc)),
    (let s := atTick 10 (onCompany fun c => { c with gating := .waking 641 }); decide ((s.pkg.company 0).gating = .waking 641 ∧ s.clk.mcyc < 641))] : List Bool).all id = true := by decide +kernel

theorem test_witness_recovery_0 : ([(let s := atTick 9 (onRecov fun r => { r with resumeAt := some 10 }); decide ((s.pkg.recov 0).resumeAt = some 10 ∧ 0 < s.pkg.parts.length ∧ s.clk.rtick < 10)),
    (let s := atTick 10 (onRecov fun r => { r with resumeAt := some 10 }); decide ((s.pkg.recov 0).resumeAt = some 10 ∧ 0 < s.pkg.parts.length ∧ s.clk.rtick = 10)),
    (let s := running; decide ((s.pkg.recov 0).resumeAt = none ∧ (s.pkg.recov 0).stopping = false ∧ (s.pkg.part 0).recov = false)),
    (let s := atTick 249 (onRecov id); decide ((s.pkg.recov 0).resumeAt = none ∧ (s.pkg.recov 0).stopping = false ∧ (s.pkg.part 0).recov = true ∧ (s.pkg.part 0).valid = true ∧ (s.pkg.recov 0).errorOffset = none ∧ s.pkg.planeOp = none ∧ s.clk.rtick % 250 ≠ 0)),
    (let s := atTick 250 (onRecov id); decide ((s.pkg.recov 0).resumeAt = none ∧ (s.pkg.recov 0).stopping = false ∧ (s.pkg.part 0).recov = true ∧ (s.pkg.part 0).valid = true ∧ (s.pkg.recov 0).errorOffset = none ∧ s.pkg.planeOp = none ∧ s.clk.mcyc % 64 = 0 ∧ s.clk.rtick % 250 = 0)),
    (let s := atTick 250 (let t := onRecov fun r => { r with stopping := true }; { t with pkg := t.pkg.modCast 0 0 fun c => { c with stopping := some 3 } }); decide ((s.pkg.recov 0).resumeAt = none ∧ (s.pkg.recov 0).stopping = true ∧ s.clk.mcyc % 64 = 0 ∧ s.pkg.cueQuiet 0 = true) && ((s.pkg.partCores 0).all fun c => s.pkg.coreHalted s.clk c)),
    (let s := onRecov fun r => { r with taken := true, rolling := some 0 }; decide ((s.pkg.recov 0).taken = true ∧ (s.pkg.recov 0).rolling = some s.clk.rtick ∧ s.clk.mcyc % 64 = 0)),
    (let s := onRecov fun r => { r with taken := true }; decide ((s.pkg.recov 0).taken = true ∧ (s.pkg.recov 0).rolling = none ∧ (s.pkg.recov 0).errorOffset = none ∧ s.clk.mcyc % 64 = 0)),
    (let s := between (onRecov fun r => { r with taken := true }); decide ((s.pkg.recov 0).rolling = none ∧ (s.pkg.recov 0).errorOffset = none ∧ s.clk.mcyc % 64 ≠ 0)),
    (let s := onRecov fun r => { r with taken := true, errorOffset := some (1, [5]) }; decide ((s.pkg.recov 0).errorOffset = some (1, [5]) ∧ 5 ∈ [5] ∧ s.clk.mcyc < (s.pkg.recov 0).rpmcyc + 1 ∧ (s.pkg.recov 0).liveHeld = [] ∧ s.pkg.casts = []))] : List Bool).all id = true := by decide +kernel

theorem test_witness_recovery_1 : ([(let s := running; decide ((s.pkg.recov 0).inject = [] ∧ (s.pkg.recov 0).errorOffset = none ∧ (s.pkg.part 0).recov = false ∧ s.pkg.validParts = [0] ∧ s.clk.run = .running)),
    (let s := onRecov fun r => { r with inject := [(0, 14, .current 1)] }; decide ((s.pkg.recov 0).inject = [(s.clk.mcyc, 14, .current 1)] ∧ (s.pkg.recov 0).errorOffset = none)),
    (let s := onRecov fun r => { r with errorOffset := some (0, []) }; decide ((s.pkg.recov 0).inject = [] ∧ (s.pkg.recov 0).errorOffset = some (s.clk.mcyc, []) ∧ (s.pkg.recov 0).rpmcyc = 0 ∧ (s.pkg.recov 0).resumeAt = none ∧ (s.pkg.recov 0).rolling = none ∧ (s.pkg.recov 0).liveHeld = [])),
    (let s := let t := onRecov fun r => { r with taken := true }; { t with pkg := t.pkg.modCompany 0 fun c => { c with inq := [req0] } }; decide (s.pkg.validParts = [0] ∧ (s.pkg.part 0).recov = true ∧ (s.pkg.recov 0).taken = true ∧ s.pkg.wantsLine 0 0 = true)),
    (let s := frozen running; decide (s.clk.run = .frozen))] : List Bool).all id = true := by decide +kernel

theorem test_witness_partitions_0 : ([(let s := State.reset; decide ((0 : Quad).getLsbD 32 = false)),
    (let s := running; !((List.range 8).all fun j => !(s.pkg.part j).valid || decide (j = 1) || decide ((1) &&& (s.pkg.part j).companies = 0))),
    (let s := running; ((List.range 8).all fun j => !(s.pkg.part j).valid || decide (j = 7) || decide ((2) &&& (s.pkg.part j).companies = 0)) && decide ((2 ^ 32 + 2 : Quad).getLsbD 32 = true ∧ (2 ^ 32 + 2 : Quad).setWidth 32 = (2 : BitVec 32) ∧ s.pkg.casts = [] ∧ s.pkg.planeOp = none ∧ 7 < s.pkg.parts.length)),
    (let s := onPkg fun p => { p with casts := [entry0 (.resident 0 0)] }; decide (s.pkg.casts = [entry0 (.resident 0 0)] ∧ (2 : BitVec 32) ≠ (s.pkg.part 0).companies)),
    (let s := onPkg fun p => { (p.modPart 0 fun q => { q with swapped := true }) with casts := [entry0 (.resident 0 0)] }; decide ((s.pkg.part 0).swapped = true ∧ s.pkg.planeOp = none ∧ s.pkg.casts = [entry0 (.resident 0 0)] ∧ (s.pkg.part 0).companies = 1)),
    (let s := onPkg fun p => { p with planeOp := some { out := 0, in_ := 1, mask := 1, dram := false, startedAt := none } }; decide (s.pkg.planeOp = some { out := 0, in_ := 1, mask := 1, dram := false, startedAt := none } ∧ ({ out := 0, in_ := 1, mask := 1, dram := false, startedAt := none } : PlaneOp).in_ = 1)),
    (let s := running; decide ((s.pkg.part 0).valid = true ∧ (s.pkg.part 0).companies = (2 ^ 32 + 1 : Quad).setWidth 32 ∧ (2 ^ 32 + 1 : Quad).getLsbD 32 = true ∧ s.pkg.planeOp = none ∧ s.pkg.casts = [] ∧ 7 < s.pkg.parts.length)),
    (let s := onPkg fun p => { (p.modCast 0 0 fun c => { c with stopping := some 3 }) with planeOp := some { out := 0, in_ := 1, mask := 1, dram := false, startedAt := none } }; decide (s.pkg.planeOp = some { out := 0, in_ := 1, mask := 1, dram := false, startedAt := none } ∧ s.clk.mcyc % 64 = 0 ∧ 1 < s.pkg.parts.length) && ((s.pkg.maskCores 1).all fun c => s.pkg.coreHalted s.clk c)),
    (let s := atTick 15 (onPkg fun p => { p with planeOp := some { out := 0, in_ := 1, mask := 1, dram := false, startedAt := some 0 } }); decide (s.pkg.planeOp = some { out := 0, in_ := 1, mask := 1, dram := false, startedAt := some 0 } ∧ s.clk.rtick < 0 + 16)),
    (let s := atTick 16 (onPkg fun p => { p with planeOp := some { out := 0, in_ := 1, mask := 1, dram := false, startedAt := some 0 } }); decide (s.pkg.planeOp = some { out := 0, in_ := 1, mask := 1, dram := false, startedAt := some 0 } ∧ s.clk.rtick = 0 + 16))] : List Bool).all id = true := by decide +kernel

theorem test_witness_partitions_1 : ([(let s := between running; decide (s.clk.mcyc % 64 ≠ 0)),
    (let s := running; decide (s.clk.mcyc % 64 = 0 ∧ s.pkg.present 3 = true ∧ (s.pkg.company 31).retired = false ∧ (s.pkg.company 30).retired = false ∧ (s.pkg.stageAt 3).retiring = none)),
    (let s := onPkg fun p => p.modCompany 31 fun c => { c with retired := true }; decide ((s.pkg.company 31).retired = true)),
    (let s := onPkg fun p => (List.range 7).foldl (fun (p : Package) m => p.modCompany m fun c => { c with retired := true }) p; decide ((s.pkg.company 7).retired = false ∧ ((List.range 7).all fun m => (s.pkg.company m).retired) = true ∧ (s.pkg.stageAt 0).retiring = none)),
    (let s := onPkg fun p => p.modStage 3 fun x => { x with retiring := some 7 }; decide ((s.pkg.stageAt 3).retiring = some 7 ∧ s.clk.mcyc % 64 = 0 ∧ (s.pkg.company 31).inq = [] ∧ (s.pkg.company 31).stalled = [] ∧ (s.pkg.company 31).fills = [] ∧ (s.pkg.company 31).releases = [] ∧ (s.pkg.company 31).staged = [] ∧ (s.pkg.company 31).stageWait = [] ∧ (s.pkg.stageAt 3).heldReqs = [])),
    (let s := onPkg fun p => (p.modStage 3 fun x => { x with retiring := some 7 }).modCompany 31 fun c => { c with inq := [req0] }; decide ((s.pkg.stageAt 3).retiring = some 7 ∧ (s.pkg.company 31).inq ≠ []))] : List Bool).all id = true := by decide +kernel

theorem test_witness_gates_0 : ([(let s := running; decide ((Arrival.current 1).liveWrite? = none ∧ (Arrival.current 1).payload.length ≤ 64 ∧ s.clk.run = .running ∧ s.pkg.win.gatemodeCur = 0 ∧ 14 < s.pkg.gates.length ∧ (s.pkg.gate 14).ingress = [] ∧ (s.pkg.gate 14).digests = [] ∧ s.pkg.arrivalPart (Arrival.current 1) = none ∧ s.pkg.logging 14 = false)),
    (let s := State.reset; decide ((0x200 : Nat) ∈ [0x200, 0x208, 0x210, 0x220, 0x228, 0x300, 0x308, 0x310] ∧ 0x5D8 < 0x5E0 ∧ (leBytes 8 1).length = 8)),
    (let s := onWin fun w => { w with gatemodeCur := 2 }; decide (s.pkg.win.gatemodeCur = 2)),
    (let s := onPkg fun p => { (p.modGate 12 fun x => { x with logsize := 2 }) with win := { p.win with gatemodeCur := 1, logen := 32767, svcsize := 65536 } }; decide (s.pkg.logging 12 = true ∧ (s.pkg.gate 12).ingress = [] ∧ s.pkg.win.lossy.getLsbD 12 = false ∧ ((s.pkg.gate 12).loghead - (s.pkg.gate 12).logtail).toNat < 2)),
    (let s := onPkg fun p => { (p.modGate 12 fun x => { x with logsize := 2, loghead := 2 }) with win := { p.win with gatemodeCur := 1, logen := 32767, svcsize := 65536 } }; decide (s.pkg.logging 12 = true ∧ (s.pkg.gate 12).ingress = [] ∧ s.pkg.win.lossy.getLsbD 12 = false ∧ 2 = ((s.pkg.gate 12).loghead - (s.pkg.gate 12).logtail).toNat)),
    (let s := onPkg fun p => { (p.modGate 13 fun x => { x with logsize := 2 }) with win := { p.win with gatemodeCur := 1, logen := 32767, svcsize := 65536 } }; decide (s.pkg.logging 13 = true ∧ (s.pkg.gate 13).ingress = [] ∧ s.pkg.win.lossy.getLsbD 13 = false ∧ ((s.pkg.gate 13).loghead - (s.pkg.gate 13).logtail).toNat < 2)),
    (let s := onPkg fun p => { (p.modGate 13 fun x => { x with logsize := 2, loghead := 2 }) with win := { p.win with gatemodeCur := 1, logen := 32767, svcsize := 65536 } }; decide (s.pkg.logging 13 = true ∧ (s.pkg.gate 13).ingress = [] ∧ s.pkg.win.lossy.getLsbD 13 = false ∧ 2 = ((s.pkg.gate 13).loghead - (s.pkg.gate 13).logtail).toNat)),
    (let s := onPkg fun p => { (p.modGate 12 fun x => { x with logsize := 2, loghead := 2 }) with win := { p.win with gatemodeCur := 1, logen := 32767, svcsize := 65536, lossy := 4096 } }; decide (s.pkg.logging 12 = true ∧ s.pkg.win.lossy.getLsbD 12 = true ∧ 2 ≤ ((s.pkg.gate 12).loghead - (s.pkg.gate 12).logtail).toNat)),
    (let s := running; decide (s.pkg.injecting 12 = false)),
    (let s := let t := onPkg fun p => { (p.modGate 12 fun x => { x with logsize := 2, loghead := 1 }) with win := { p.win with gatemodeCur := 2, logen := 32767, svcsize := 65536 } }; { t with pkg := t.pkg.paWrite 128 (List.replicate 12 0 ++ [64, 128, 0, 0] ++ List.replicate 112 0) }; decide (s.pkg.injecting 12 = true ∧ (s.pkg.gate 12).loghead ≠ (s.pkg.gate 12).logtail ∧ ofLe ((s.pkg.ringEntry 12).take 8) = s.clk.mcyc ∧ ofLe (((s.pkg.ringEntry 12).drop 12).take 1) = 0x40 ∧ (s.pkg.gate 12).digests = []))] : List Bool).all id = true := by decide +kernel

theorem test_witness_gates_1 : ([(let s := let t := onPkg fun p => { (p.modGate 12 fun x => { x with logsize := 2, loghead := 1 }) with win := { p.win with gatemodeCur := 2, logen := 32767, svcsize := 65536 } }; { t with pkg := t.pkg.paWrite 128 (List.replicate 12 0 ++ [34, 127, 0, 0] ++ List.replicate 112 0) }; decide (s.pkg.injecting 12 = true ∧ (s.pkg.gate 12).loghead ≠ (s.pkg.gate 12).logtail ∧ ofLe ((s.pkg.ringEntry 12).take 8) = s.clk.mcyc ∧ ofLe (((s.pkg.ringEntry 12).drop 12).take 1) ≠ 0x40 ∧ ofLe (((s.pkg.ringEntry 12).drop 13).take 1) < 128)),
    (let s := let t := onPkg fun p => { (p.modGate 12 fun x => { x with logsize := 2, loghead := 1 }) with win := { p.win with gatemodeCur := 2, logen := 32767, svcsize := 65536 } }; { t with pkg := t.pkg.paWrite 128 (List.replicate 12 0 ++ [34, 128, 0, 0] ++ List.replicate 112 0) }; decide (s.pkg.injecting 12 = true ∧ (s.pkg.gate 12).loghead ≠ (s.pkg.gate 12).logtail ∧ ofLe ((s.pkg.ringEntry 12).take 8) = s.clk.mcyc ∧ ofLe (((s.pkg.ringEntry 12).drop 12).take 1) = 0x22 ∧ ofLe (((s.pkg.ringEntry 12).drop 13).take 1) = 128 ∧ parseArrival 0x22 0 (((s.pkg.ringEntry 12).drop 96).take 32) ((s.pkg.gate 12).partialData ++ []) = some (.current 0)))] : List Bool).all id = true := by decide +kernel

theorem test_witness_outbound_0 : ([(let s := running; decide (0 < s.pkg.gates.length ∧ 12 - 1 < s.pkg.ports.length ∧ s.pkg.win.gatemodeCur ≠ 2 ∧ (Egress.readReply 0 []).isWrite = false ∧ (s.pkg.gate 12).digests = [] ∧ s.pkg.injecting 12 = false ∧ s.pkg.logging 12 = false)),
    (let s := onGate 0 fun x => { x with eghigh := 1 }; decide ((Egress.memWrite 1 0 0 []).isWrite = true ∧ (s.pkg.gate 0).egseq + 1 = (s.pkg.gate 0).eghigh)),
    (let s := onPkg fun p => { (p.modGate 12 fun x => { x with logsize := 2 }) with win := { p.win with gatemodeCur := 2, logen := 32767, svcsize := 65536 } }; decide (s.pkg.injecting 12 = true ∧ (s.pkg.gate 12).digests = [])),
    (let s := onPkg fun p => { (p.modGate 12 fun x => { x with logsize := 2, loghead := 2, digests := List.replicate 15 [] }) with win := { p.win with gatemodeCur := 1, logen := 32767, svcsize := 65536 } }; decide (s.pkg.injecting 12 = false ∧ s.pkg.logging 12 = true ∧ (s.pkg.gate 12).logsize.toNat ≤ ((s.pkg.gate 12).loghead - (s.pkg.gate 12).logtail).toNat ∧ (s.pkg.gate 12).digests.length = 15)),
    (let s := onPkg fun p => { (p.modGate 12 fun x => { x with logsize := 2, loghead := 2, digests := List.replicate 16 [] }) with win := { p.win with gatemodeCur := 1, logen := 32767, svcsize := 65536 } }; decide (s.pkg.injecting 12 = false ∧ s.pkg.logging 12 = true ∧ (s.pkg.gate 12).logsize.toNat ≤ ((s.pkg.gate 12).loghead - (s.pkg.gate 12).logtail).toNat ∧ (s.pkg.gate 12).digests.length = 16)),
    (let s := onPkg fun p => { (p.modGate 12 fun x => { x with logsize := 2 }) with win := { p.win with gatemodeCur := 1, logen := 32767, svcsize := 65536 } }; decide ((s.pkg.gate 12).digests = [] ∧ s.pkg.injecting 12 = false ∧ s.pkg.logging 12 = true ∧ ((s.pkg.gate 12).loghead - (s.pkg.gate 12).logtail).toNat < (s.pkg.gate 12).logsize.toNat)),
    (let s := onPart fun q => { q with hmqSize := 2, hmqHead := 1, hmqBuf := [⟨2, 0, 0, 0, 0, 0, 0, 0, 0⟩] }; decide ((s.pkg.part 0).hmqEnabled = true ∧ (s.pkg.part 0).hmqRoom = true ∧ (s.pkg.part 0).hmqBuf = [⟨2, 0, 0, 0, 0, 0, 0, 0, 0⟩])),
    (let s := onPart fun q => { q with hmqSize := 2, hmqHead := 2, hmqBuf := [⟨2, 0, 0, 0, 0, 0, 0, 0, 0⟩] }; decide ((s.pkg.part 0).hmqEnabled = true ∧ (s.pkg.part 0).hmqRoom = false ∧ (s.pkg.part 0).hmqBuf = [⟨2, 0, 0, 0, 0, 0, 0, 0, 0⟩])),
    (let s := running; decide ((s.pkg.part 0).hmqBuf = [] ∧ (s.pkg.firstHostmsg 0).isNone)),
    (let s := let t := waiting (.hostmsg 1 2 3 true); { t with pkg := t.pkg.modPart 0 fun q => { q with hmqSize := 2 } }; WaitsIn s (.hostmsg 1 2 3 true) && decide ((s.pkg.part 0).hmqBuf = [] ∧ (s.pkg.firstHostmsg 0).isSome ∧ (s.pkg.part 0).hmqRoom = true))] : List Bool).all id = true := by decide +kernel

theorem test_witness_outbound_1 : ([(let s := let t := waiting (.hostmsg 1 2 3 true); { t with pkg := t.pkg.modPart 0 fun q => { q with hmqSize := 0 } }; WaitsIn s (.hostmsg 1 2 3 true) && decide ((s.pkg.part 0).hmqBuf = [] ∧ (s.pkg.firstHostmsg 0).isSome ∧ (s.pkg.part 0).hmqEnabled = false))] : List Bool).all id = true := by decide +kernel

theorem test_witness_house_0 : ([(let s := running; decide (0 < s.pkg.ports.length ∧ (s.pkg.port 0).reorder = [] ∧ (({ seq := 1023, ack := 0, typ := 1, tag := 5, pa := 0, payload := [] } : Flit).seq - (s.pkg.port 0).expect).toNat < 1024)),
    (let s := running; decide (0 < s.pkg.ports.length ∧ (s.pkg.port 0).reorder = [] ∧ (({ seq := 1024, ack := 0, typ := 1, tag := 5, pa := 0, payload := [] } : Flit).seq - (s.pkg.port 0).expect).toNat = 1024)),
    (let s := running; decide ((s.pkg.port 0).window = [] ∧ (s.pkg.port 0).reorder = [] ∧ (s.pkg.port 0).origin = [])),
    (let s := onPort fun x => { x with window := [({ seq := 7, ack := 0, typ := 1, tag := 5, pa := 0, payload := [] } : Flit)] }; decide ((s.pkg.port 0).window = [({ seq := 7, ack := 0, typ := 1, tag := 5, pa := 0, payload := [] } : Flit)] ∧ ({ seq := 7, ack := 0, typ := 1, tag := 5, pa := 0, payload := [] } : Flit).seq.toNat = 7)),
    (let s := (onPort fun x => { x with reorder := [({ seq := 0, ack := 0, typ := 1, tag := 5, pa := 0, payload := [] } : Flit)] }); decide ((s.pkg.port 0).reorder = [({ seq := 0, ack := 0, typ := 1, tag := 5, pa := 0, payload := [] } : Flit)] ∧ ({ seq := 0, ack := 0, typ := 1, tag := 5, pa := 0, payload := [] } : Flit).seq = (s.pkg.port 0).expect ∧ 1 < s.pkg.gates.length ∧ s.clk.run = RunState.running ∧ s.pkg.win.gatemodeCur = 0 ∧ (s.pkg.gate 1).ingress = [] ∧ (s.pkg.gate 1).digests = [])),
    (let s := frozen (onPort fun x => { x with reorder := [({ seq := 0, ack := 0, typ := 1, tag := 5, pa := 0, payload := [] } : Flit)] }); decide ((s.pkg.port 0).reorder = [({ seq := 0, ack := 0, typ := 1, tag := 5, pa := 0, payload := [] } : Flit)] ∧ ({ seq := 0, ack := 0, typ := 1, tag := 5, pa := 0, payload := [] } : Flit).seq = (s.pkg.port 0).expect ∧ 1 < s.pkg.gates.length ∧ s.clk.run = RunState.frozen ∧ s.pkg.win.gatemodeCur = 0 ∧ (s.pkg.gate 1).ingress = [] ∧ (s.pkg.gate 1).digests = [])),
    (let s := onPort fun x => { x with origin := [(1, ({ seq := 0, ack := 0, typ := 1, tag := 5, pa := 0, payload := [] } : Flit))] }; decide ((s.pkg.port 0).origin = [(1, ({ seq := 0, ack := 0, typ := 1, tag := 5, pa := 0, payload := [] } : Flit))] ∧ ({ seq := 0, ack := 0, typ := 1, tag := 5, pa := 0, payload := [] } : Flit).tag = 5))] : List Bool).all id = true := by decide +kernel

theorem test_witness_run_control_0 : ([(let s := running; decide (s.pkg.win.stopat.getLsbD 63 = false ∧ s.clk.run = .running)),
    (let s := atTick 5 (onWin fun w => { w with stopat := 2 ^ 63 + 5 }); decide (s.pkg.win.stopat.getLsbD 63 = true ∧ s.clk.run = .running ∧ StopCounter s s.pkg.win.stopat = StopCount s.pkg.win.stopat)),
    (let s := atTick 4 running; decide (((2 ^ 63 + 5 : Quad) &&& ~~~(0x1F#64 <<< 58)).getLsbD 63 = true ∧ StopCounter s ((2 ^ 63 + 5 : Quad) &&& ~~~(0x1F#64 <<< 58)) < StopCount ((2 ^ 63 + 5 : Quad) &&& ~~~(0x1F#64 <<< 58)))),
    (let s := atTick 5 running; decide (((2 ^ 63 + 5 : Quad) &&& ~~~(0x1F#64 <<< 58)).getLsbD 63 = true ∧ StopCount ((2 ^ 63 + 5 : Quad) &&& ~~~(0x1F#64 <<< 58)) = StopCounter s ((2 ^ 63 + 5 : Quad) &&& ~~~(0x1F#64 <<< 58)))),
    (let s := frozen running; decide (s.clk.run = .frozen ∧ s.pkg.stopcause ≠ .hardFailure ∧ s.images = [] ∧ s.pkg.win.tabsize.toNat < s.pkg.tabBytes)),
    (let s := frozen (onPkg fun p => { p with stopcause := .hardFailure }); decide (s.clk.run = .frozen ∧ s.pkg.stopcause = .hardFailure)),
    (let s := frozen (onWin fun w => { w with tabsize := 1280 * 2 ^ 20, tabhost := true }); decide (s.pkg.win.tabsize.toNat = s.pkg.tabBytes ∧ s.pkg.win.tabhost = true)),
    (let s := frozen { running with images := [{ host := false, base := 0, size := 0, cells := [], dram := false, pkg := running.pkg, clk := running.clk }] }; decide (s.clk.run = .frozen ∧ s.images.map Image.base = [s.pkg.win.tabbase] ∧ s.images.map Image.host = [s.pkg.win.tabhost]) && (s.images.all fun i => s.pkg.imageGood i)),
    (decide (([0, 1, 2, 3].filter fun x => x = 3).length = 1 ∧ stageSetOk (strapSet [0, 1, 2, 3]) = true ∧ 1 < ([0, 0].filter fun x => x = 0).length))] : List Bool).all id = true := by decide +kernel

theorem test_witness_host_window_0 : ([(let s := running; decide (s.pkg.win.tabbusy = false ∧ (s.pkg.gate 0).ingress = [] ∧ (s.pkg.gate 0).digests = [] ∧ s.pkg.win.gatemodeCur ≠ 1)),
    (let s := onWin fun w => { w with tabbusy := true }; decide (s.pkg.win.tabbusy = true)),
    (let s := running; decide ((s.pkg.part 0).hmqSize.toNat =  ((s.pkg.part 0).hmqHead - 0).toNat)),
    (let s := running; decide ((s.pkg.part 0).hmqSize.toNat <  ((s.pkg.part 0).hmqHead - (0 - 1)).toNat)),
    (let s := onWin fun w => { w with svcsize := 65536 }; decide (s.pkg.win.svc = (0, 65536)))] : List Bool).all id = true := by decide +kernel

theorem test_witness_step_0 : ([(let s := State.reset.withFetchWord 32 0x26000007; (match s.agenda with | [.issue 0 0 0] => true | _ => false) && decide (s.clk.run = .running) && ((({ s with cur := none, agenda := [] } : State).readyChain 0 0 0).isSome) && (match s.pkg.wave? 0 0, s.pkg.cast? 0 0 with | some w, some c => (match w.issueCounter 0 with | some pc => (match s.pkg.fetch 0 0 c (w.activeOf (w.issuing 0)) pc with | .word x => !x.getLsbD 31 && (match decode x with | .ok (.nop _) => true | _ => false) | _ => false) | none => false) | _, _ => false)),
    (let s := let t := State.reset.withFetchWord 32 0x26000007; { t with agenda := [], pkg := { (t.pkg.modCore 0 fun k => { k with sweep := 4, picks := [some (0, 0), none, none, none] }) with vaults := List.replicate 256 { refpos := 50 } } }; (match ({ s with cur := none } : State).choose with | .issue 0 0 0 p => (p.wave? 0 0).any fun w => decide (w.park = none ∧ w.blockedAt 0 = none ∧ w.issuing 0 ≠ []) | _ => false)),
    (let s := onPkg fun p => { p with due := [⟨.now, .placementPass⟩] }; (match ({ s with cur := none } : State).choose with | .event _ _ => true | _ => false)),
    (let s := frozen State.reset; (match ({ s with cur := none } : State).choose with | .go _ => true | _ => false)),
    (Instr.external (.powerOnReset []))] : List Bool).all id = true := by decide +kernel

theorem test_witness_completes_0 : ([(let s := onCompany fun c => { c with walks := [walk0] }; decide ((s.pkg.company 0).walks = [walk0] ∧ walk0.started = false ∧ walk0.marked = false)),
    (let s := onCompany fun c => { c with walks := [{ walk0 with started := true, marked := true, end_ := some .page }] }; decide (((s.pkg.company 0).walks.all fun w => w.started && !w.ended && w.end_.isSome && w.marked && decide (w.readAt ≤ s.clk.mcyc)) = true ∧ (s.pkg.company 0).walks.length = 1)),
    (let s := onCore fun k => { k with shoot := [⟨0, 0, 65536, false, [], 0, []⟩] }; decide ((s.pkg.core 0).shoot.map Shootdown.removed = [false] ∧ 0 < s.pkg.cores.length)),
    (let s := onCore fun k => { k with shoot := [⟨0, 0, 65536, true, [], 0, []⟩] }; decide ((s.pkg.core 0).shoot = [⟨0, 0, 65536, true, [], 0, []⟩] ∧ s.pkg.pcie = [] ∧ 0 ≤ s.clk.mcyc)),
    (let s := onPkg fun p => { p with atsInv := [⟨0, 0, 12, 64, false, [], [], []⟩] }; decide (s.pkg.atsInv = [⟨0, 0, 12, 64, false, [], [], []⟩])),
    (let s := onPkg fun p => { p with atsInv := [⟨0, 0, 12, 64, true, [], [], []⟩] }; decide (s.pkg.atsInv = [⟨0, 0, 12, 64, true, [], [], []⟩])),
    (let s := running; ((List.range 8).all fun j => !(s.pkg.part j).valid || decide (j = 7) || decide ((2) &&& (s.pkg.part j).companies = 0)) && decide ((2 ^ 32 + 2 : Quad).getLsbD 32 = true ∧ 7 < s.pkg.parts.length ∧ s.pkg.planeOp = none) && ((s.pkg.casts.all fun e => decide (e.part ≠ 7)))),
    (let s := running; decide ((s.pkg.part 0).valid = true ∧ (s.pkg.part 0).recov = false ∧ (s.pkg.part 0).companies = (2 ^ 32 + 1 : Quad).setWidth 32 ∧ (2 ^ 32 + 1 : Quad).getLsbD 35 = false ∧ s.pkg.planeOp = none ∧ 7 < s.pkg.parts.length) && ((s.pkg.casts.all fun e => decide (e.part ≠ 7))) && ((s.pkg.maskCores 1).all fun c => decide ((s.pkg.core c).plane = .empty))),
    (let s := let t := State.reset; { t with pkg := { t.pkg with planeOp := some { out := 0, in_ := 1, mask := 1, dram := true, startedAt := none } } }; decide (s.pkg.planeOp = some { out := 0, in_ := 1, mask := 1, dram := true, startedAt := none } ∧ s.clk.mcyc % 64 = 0 ∧ 1 < s.pkg.parts.length) && ((s.pkg.casts.all fun e => decide (e.part ≠ 0))) && ((s.pkg.maskCores 1).all fun c => (s.pkg.core c).binds.isEmpty && (s.pkg.core c).residents.isEmpty && decide ((s.pkg.core c).plane = .empty))),
    (let s := atTick 16 (let t := State.reset; { t with pkg := { t.pkg with planeOp := some { out := 0, in_ := 1, mask := 1, dram := false, startedAt := some 0 } } }); decide (s.pkg.planeOp.map PlaneOp.startedAt = some (some 0) ∧ 0 + 16 ≤ s.clk.rtick) && ((s.pkg.maskCores 1).all fun c => (s.pkg.core c).ctx.deferred.isEmpty && (s.pkg.core c).ctx.waves.all Option.isNone))] : List Bool).all id = true := by decide +kernel

theorem test_witness_completes_1 : ([(let s := atTick 16 (let t := running; { t with pkg := { t.pkg with planeOp := some { out := 0, in_ := 1, mask := 2, dram := false, startedAt := some 0 } } }); decide (s.pkg.planeOp.map PlaneOp.startedAt = some (some 0) ∧ 0 + 16 ≤ s.clk.rtick) && ((s.pkg.maskCores 2).all fun c => (s.pkg.core c).ctx.deferred.isEmpty && (s.pkg.core c).ctx.waves.all Option.isNone)),
    (let s := running; decide (s.clk.mcyc % 64 = 0 ∧ s.pkg.present 3 = true ∧ (s.pkg.company 31).retired = false ∧ (s.pkg.company 30).retired = false ∧ (s.pkg.stageAt 3).retiring = none)),
    (let s := onPkg fun p => p.modStage 3 fun x => { x with retiring := some 7 }; decide ((s.pkg.stageAt 3).retiring = some 7 ∧ s.clk.mcyc % 64 = 0 ∧ (s.pkg.company 31).inq = [] ∧ (s.pkg.company 31).stalled = [] ∧ (s.pkg.company 31).fills = [] ∧ (s.pkg.company 31).releases = [] ∧ (s.pkg.company 31).staged = [] ∧ (s.pkg.company 31).stageWait = [] ∧ (s.pkg.company 31).l2 = [] ∧ (s.pkg.stageAt 3).heldReqs = [] ∧ (s.pkg.stageAt 3).retireQ = []))] : List Bool).all id = true := by decide +kernel

/-! Hypotheses that speak of every gate, port, company or edge. -/

/-- Nothing is held at reset (the register writes of R369 and R372). -/
theorem test_nothingHeld_reset : NothingHeld State.reset := by
  constructor
  · intro g
    have hg : State.reset.pkg.gates.all (fun x => x.ingress.isEmpty) = true := by decide +kernel
    simp only [Package.gate, List.getD_eq_getElem?_getD]
    cases he : State.reset.pkg.gates[g]? with
    | none => rfl
    | some x => exact List.isEmpty_iff.mp (List.all_eq_true.mp hg x (List.mem_of_getElem? he))
  · intro i
    have hp : State.reset.pkg.ports.all (fun x => x.reorder.isEmpty) = true := by decide +kernel
    simp only [Package.port, List.getD_eq_getElem?_getD]
    cases he : State.reset.pkg.ports[i]? with
    | none => rfl
    | some x => exact List.isEmpty_iff.mp (List.all_eq_true.mp hp x (List.mem_of_getElem? he))

/-- The same of the package stopped. -/
theorem test_nothingHeld_frozen : NothingHeld (frozen State.reset) := test_nothingHeld_reset

/-- No partition re-executes at the start of an epoch. -/
theorem test_noRecovery_epoch (m : Nat) : (atTick 250 running).pkg.recovOf m = none := by
  have h : ∀ k ∈ List.range 8, ((atTick 250 running).pkg.part k).recov = false := by decide +kernel
  unfold Package.recovOf
  rw [List.find?_eq_none]
  intro k hk
  simp [h k hk]

/-- No company waits for a ticket. -/
theorem test_noStageWait_reset (m : Nat) : (State.reset.pkg.company m).stageWait = [] := by
  have hc : State.reset.pkg.companies.all (fun x => x.stageWait.isEmpty) = true := by decide +kernel
  simp only [Package.company, List.getD_eq_getElem?_getD]
  cases he : State.reset.pkg.companies[m]? with
  | none => rfl
  | some x => exact List.isEmpty_iff.mp (List.all_eq_true.mp hc x (List.mem_of_getElem? he))

end Sys2Proof.Tests
end

section
/-! SUPPORT. The host window, the gate registers, run control and the resets (Sys2Proof/Machine/Gates.lean, Control.lean): what each of their events makes of
the package, and the statements about them. -/

namespace Sys2Proof.Machine

/-! What `exec` makes of the rows of the host window, of the gate registers and of run control. -/

theorem exec_hostWindowWrite (off : Nat) (x : Quad) (s : State) :
    exec (.hostWindowWrite off x) s = .next { s with pkg := hostWindowAt off x s.clk s.pkg } := rfl

theorem exec_logtailWrite (g : Nat) (x : Quad) (s : State) : exec (.logtailWrite g x) s = .next { s with pkg := logtailAt g x s.clk s.pkg } := rfl

theorem exec_gatemodeWrite (x : Quad) (s : State) : exec (.gatemodeWrite x) s = .next { s with pkg := gatemodeAt x s.clk s.pkg } := rfl

theorem exec_statusClear (x : Quad) (s : State) : exec (.statusClear x) s = .next { s with pkg := statusClearAt x s.clk s.pkg } := rfl

theorem exec_replaybrkClear (x : Quad) (s : State) : exec (.replaybrkClear x) s = .next { s with pkg := replaybrkAt x s.pkg } := rfl

theorem exec_hmqtailWrite (k : Nat) (x : Quad) (s : State) : exec (.hmqtailWrite k x) s = .next { s with pkg := hmqtailAt k x s.pkg } := rfl

theorem exec_windowWrite (off : Nat) (x : Quad) (s : State) : exec (.windowWrite off x) s =
    .next { s with pkg := if accessOk off 8 true then s.pkg.hostWindow s.clk off x (liveRegister off) else s.pkg } := rfl

theorem exec_windowRead (off : Nat) (s : State) : exec (.windowRead off) s =
    .next { s with pkg := s.pkg.later .now (.egressTransaction 14 (.mgmt (leBytes 8 (if accessOk off 8 false then s.pkg.windowValue s.clk off else 0)))) } := rfl

theorem exec_serviceRegionAccess (off len : Nat) (data : List Byte) (s : State) :
    exec (.serviceRegionAccess off len data) s = .next { s with pkg := serviceAccess off len data s.pkg } := rfl

theorem exec_stopatStop (s : State) : exec .stopatStop s = .next (stopatStopAt s) := rfl

theorem exec_stopatWrite (x : Quad) (s : State) : exec (.stopatWrite x) s = .next { s with pkg := stopatWriteAt x s.clk s.pkg } := rfl

theorem exec_take (s : State) : exec .take s = .next (takeAt s) := rfl

theorem exec_restore (s : State) : exec .restore s = .next (restoreAt s) := rfl

theorem exec_thaw (s : State) : exec .thaw s = .next (thawAt s) := rfl

theorem exec_freeze (s : State) : exec .freeze s = .next (freezeAt s) := rfl

theorem exec_reset (s : State) : exec .reset s = .next (resetAt s) := rfl

theorem exec_powerOnReset (straps : List Nat) (s : State) : exec (.powerOnReset straps) s = .next (powerOnAt straps s) := rfl

/-! Units of the package that are all alike. -/

theorem getD_of_forall_mem {α : Type} {P : α → Prop} {l : List α} {d : α} (hd : P d) (h : ∀ x ∈ l, P x) (i : Nat) : P (l.getD i d) := by
  rw [List.getD_eq_getElem?_getD]
  cases hx : l[i]? with
  | none => exact hd
  | some x => exact h x (List.mem_of_getElem? hx)

theorem getD_replicate_self {α : Type} (n i : Nat) (d : α) : (List.replicate n d).getD i d = d := by
  rw [List.getD_eq_getElem?_getD, List.getElem?_getD_replicate_default_eq]

/-! Gates that withhold nothing, and a change of mode (R55, R322, R324). -/

theorem drainGate_of_ingress_nil {p : Package} {g : Nat} (k : Clock) (h : (p.gate g).ingress = []) : p.drainGate k g = p := by
  simp [Package.drainGate, h, Package.drainFrom]

theorem flushDigests_of_digests_nil {p : Package} {g : Nat} (k : Clock) (h : (p.gate g).digests = []) : p.flushDigests k g = p := by
  simp [Package.flushDigests, h]

/-- Where no gate withholds anything and no port waits to deliver, there is nothing to drain. -/
theorem drainAll_of_nothing_held {p : Package} (k : Clock) (hg : ∀ g, (p.gate g).ingress = []) (hp : ∀ i, (p.port i).reorder = []) :
    p.drainAll k = p := by
  apply List.foldl_fixed'
  intro g
  have hr : (p.ports.getD (g - 1) {}).reorder = [] := hp (g - 1)
  simp only [drainGate_of_ingress_nil k (hg g), hr, List.isEmpty_nil, Bool.not_true, Bool.and_false, Bool.false_eq_true, if_false]

/-- A change of a gate keeps, at every gate, what it does not touch. -/
theorem gate_modGate_kept {α : Type} (φ : Gate → α) {f : Gate → Gate} (hf : ∀ x, φ (f x) = φ x) (p : Package) (g g' : Nat) :
    φ ((p.modGate g f).gate g') = φ (p.gate g') := by
  simp only [Package.gate, Package.modGate, List.getD_eq_getElem?_getD, modAt_get?]
  split
  · cases p.gates[g']? <;> simp [hf]
  · rfl

/-- What the entry of a mode does to a gate: PASS leaves it, and RECORD has it log again. -/
def Gate.enter (m : Nat) (x : Gate) : Gate :=
  if m = 0 then x
  else { x with off := if m = 1 then false else x.off, egdig := List.replicate 32 0, egcount := 0, digests := [], partialData := [] }

theorem Gate.enter_kept (m : Nat) (x : Gate) : (x.enter m).ingress = x.ingress ∧ (x.enter m).loghead = x.loghead ∧ (x.enter m).logtail = x.logtail := by
  unfold Gate.enter
  split <;> exact ⟨rfl, rfl, rfl⟩

theorem enterMode_current {p : Package} {m : Nat} (h : p.win.gatemodeCur = m) : p.enterMode m = p := if_pos h

theorem enterMode_other {p : Package} {m : Nat} (h : p.win.gatemodeCur ≠ m) :
    p.enterMode m = { p with win := { p.win with gatemodeCur := m }, gates := p.gates.map (Gate.enter m) } := if_neg h

/-- A mode is entered: CUR takes it, and beside CUR only the gates change. -/
theorem enterMode_eq (p : Package) (m : Nat) :
    p.enterMode m = { p with win := { p.win with gatemodeCur := m }, gates := (p.enterMode m).gates } := by
  by_cases h : p.win.gatemodeCur = m
  · rw [enterMode_current h, ← h]
  · rw [enterMode_other h]

theorem enterMode_gates_same {p : Package} {m : Nat} (h : m = p.win.gatemodeCur ∨ m = 0) : (p.enterMode m).gates = p.gates := by
  by_cases hc : p.win.gatemodeCur = m
  · rw [enterMode_current hc]
  · obtain rfl := h.resolve_left fun e => hc e.symm
    rw [enterMode_other hc]
    exact List.map_id p.gates

/-- What a gate logs, and what it withholds, outlasts a change of mode. -/
theorem enterMode_gate_kept (p : Package) (m g : Nat) : ((p.enterMode m).gate g).ingress = (p.gate g).ingress
    ∧ ((p.enterMode m).gate g).loghead = (p.gate g).loghead ∧ ((p.enterMode m).gate g).logtail = (p.gate g).logtail := by
  by_cases hc : p.win.gatemodeCur = m
  · rw [enterMode_current hc]
    exact ⟨rfl, rfl, rfl⟩
  · simp only [enterMode_other hc, Package.gate, List.getD_eq_getElem?_getD, List.getElem?_map]
    cases p.gates[g]? with
    | none => exact ⟨rfl, rfl, rfl⟩
    | some x => exact x.enter_kept m

theorem enterMode_gate_record {p : Package} {g : Nat} (h : p.win.gatemodeCur ≠ 1) (hg : g < p.gates.length) : (p.enterMode 1).gate g =
    { p.gate g with off := false, egdig := List.replicate 32 0, egcount := 0, digests := [], partialData := [] } := by
  simp [enterMode_other h, Gate.enter, Package.gate, List.getD_eq_getElem?_getD, List.getElem?_eq_getElem hg]

/-- A write of LOGTAIL at a gate that withholds nothing frees entries of its ring, and lets a port go on (R319, R374). -/
theorem logtailAt_of_nothing_held {p : Package} {g : Nat} (x : Quad) (k : Clock) (hi : (p.gate g).ingress = []) (hd : (p.gate g).digests = []) :
    logtailAt g x k p =
      let q := p.modGate g fun y => { y with logtail := x.setWidth 32 }
      if 1 ≤ g ∧ g ≤ 12 then q.later .now (.houseFlitDeliver (g - 1)) else q := by
  have hi' := gate_modGate_kept Gate.ingress (f := fun y => { y with logtail := x.setWidth 32 }) (fun _ => rfl) p g g
  have hd' := gate_modGate_kept Gate.digests (f := fun y => { y with logtail := x.setWidth 32 }) (fun _ => rfl) p g g
  simp only [logtailAt, flushDigests_of_digests_nil k (hd'.trans hd), drainGate_of_ingress_nil k (hi'.trans hi), Bool.and_eq_true, decide_eq_true_eq]

/-- PASS and RECORD are entered at once (R55): with nothing withheld, that is all. -/
theorem gatemodeAt_entered {k : Clock} {p : Package} {x : Quad} (hm : x.toNat % 4 < 2) (hg : ∀ g, (p.gate g).ingress = [])
    (hp : ∀ i, (p.port i).reorder = []) :
    gatemodeAt x k p = ({ p with win := { p.win with gatemodeReq := x.toNat % 4 } } : Package).enterMode (x.toNat % 4) := by
  rw [gatemodeAt, if_neg (by omega), if_neg (by omega)]
  apply drainAll_of_nothing_held
  · intro g
    exact (enterMode_gate_kept _ _ g).1.trans (hg g)
  · intro i
    rw [enterMode_eq]
    exact hp i

/-! The registers of the host window (R90, R91, Table 21.3). -/

theorem ofNat_div_two_pow_eq_setWidth (x : Quad) (lo : Nat) : BitVec.ofNat 15 (x.toNat / 2 ^ lo) = (x >>> lo).setWidth 15 := by
  apply BitVec.eq_of_toNat_eq
  simp [Nat.shiftRight_eq_div_pow]

theorem hostWindowAt_logen {k : Clock} {p : Package} (x : Quad) (hg : ∀ g, (p.gate g).ingress = []) (hp : ∀ i, (p.port i).reorder = []) :
    hostWindowAt 0x208 x k p =
      { p with win := { p.win with logen := x.setWidth 15, lossy := (x >>> 16).setWidth 15, digest := (x >>> 32).setWidth 15 } } := by
  have h0 : BitVec.ofNat 15 (x.toNat / 2 ^ 0) = x.setWidth 15 := ofNat_div_two_pow_eq_setWidth x 0
  simp only [hostWindowAt, if_pos, h0, ofNat_div_two_pow_eq_setWidth]
  exact drainAll_of_nothing_held k hg hp

theorem hostWindowAt_tabctl (x : Quad) (k : Clock) (p : Package) : hostWindowAt 0x300 x k p = tabctlAt x p := rfl

theorem tabctlAt_of_busy {p : Package} (x : Quad) (h : p.win.tabbusy = true) : tabctlAt x p = p := by
  simp [tabctlAt, h]

/-- The operation of TABCTL that a value of OP starts. -/
def tabOperation : Nat → Instr
  | 1 => .take
  | 2 => .restore
  | 3 => .thaw
  | 4 => .freeze
  | _ => .reset

theorem tabctlAt_of_operation {p : Package} {x : Quad} (hb : p.win.tabbusy = false) (h1 : 1 ≤ x.toNat % 16) (h5 : x.toNat % 16 ≤ 5) :
    tabctlAt x p = { p with
      win := { p.win with tabop := x.toNat % 16, tabdram := x.getLsbD 4, tabhost := x.getLsbD 5, stopen := x.getLsbD 8, tabbusy := true, taberr := 0 },
      due := p.due ++ [{ at_ := .now, ev := tabOperation (x.toNat % 16) }] } := by
  have hop : bits x.toNat 0 4 = x.toNat % 16 := by simp [bits]
  simp only [tabctlAt, hb, hop, h1, h5, decide_true, Bool.and_self, Bool.not_true, Bool.false_eq_true, if_true, if_false]
  rfl

theorem tabOperation_lookup {op : Nat} (h1 : 1 ≤ op) (h5 : op ≤ 5) :
    [(1, Instr.take), (2, .restore), (3, .thaw), (4, .freeze), (5, .reset)].lookup op = some (tabOperation op) := by
  interval_cases op <;> rfl

theorem hostWindowAt_hmqBase {k : Nat} (hk : k < 8) (x : Quad) (clk : Clock) (p : Package) :
    hostWindowAt (0x800 + 32 * k) x clk p = p.modPart k fun q => { q with hmqBase := x } := by
  have hi : (0x800 + 32 * k - 0x800) / 32 = k := by omega
  simp only [hostWindowAt, Bool.and_eq_true, decide_eq_true_eq, hi]
  repeat rw [if_neg (by omega)]
  rw [if_pos (by omega)]

theorem hostWindowAt_outside {off : Nat} (h : off < 0x100 ∨ 0x900 ≤ off) (x : Quad) (k : Clock) (p : Package) : hostWindowAt off x k p = p := by
  simp only [hostWindowAt, Bool.and_eq_true, decide_eq_true_eq]
  repeat rw [if_neg (by omega)]

theorem accessOk_eight (off : Nat) (write : Bool) : accessOk off 8 write = decide (off % 8 = 0) := by
  simp [accessOk]

theorem liveRegister_iff (off : Nat) : liveRegister off = true ↔ LiveRegister off := by
  simp [liveRegister, LiveRegister]

/-- A write of a live register waits for the next tick boundary. -/
theorem hostWindow_live (k : Clock) (p : Package) (off : Nat) (x : Quad) : p.hostWindow k off x true =
    { p with hostWrites := p.hostWrites ++ (windowRows off x).map fun ev => { tick := k.rtick + 1, ev := ev } } := rfl

/-- A stamped write waits for the first tick boundary that has not passed. -/
theorem hostWindow_stamped (k : Clock) (p : Package) (off : Nat) (x : Quad) : p.hostWindow k off x false =
    { p with hostWrites := p.hostWrites ++ (windowRows off x).map fun ev => { tick := (k.mcyc + 63) / 64, ev := ev } } := rfl

/-! The service region (R321). -/

/-- An access of BAR 4: refused, a read, or a write of what lies inside the region. -/
theorem serviceAccess_eq (off len : Nat) (data : List Byte) (p : Package) :
    serviceAccess off len data p =
      let n := if data = [] then len else data.length
      if n = 0 ∨ 512 < n ∨ off % 4 ≠ 0 ∨ n % 4 ≠ 0 then { p with sent := p.sent ++ [(0, .unsupportedRequest 0)] }
      else if data = [] then { p with sent := p.sent ++ [(0, .readReply 0 ((List.range n).map fun i =>
        if off + i < p.win.svc.2 then (p.paRead (p.win.svc.1 + off + i) 1).headD 0 else 0))] }
      else if p.win.svc.2 ≤ off then p
      else p.paWrite (p.win.svc.1 + off) (data.take (p.win.svc.2 - off)) := by
  have hok : ∀ n, ((!(decide (0 < n) && decide (n ≤ 512) && decide (off % 4 = 0) && decide (n % 4 = 0))) = true)
      ↔ (n = 0 ∨ 512 < n ∨ off % 4 ≠ 0 ∨ n % 4 ≠ 0) := by
    intro n
    simp only [Bool.not_eq_true', Bool.and_eq_false_iff, decide_eq_false_iff_not]
    omega
  simp only [serviceAccess, hok, List.isEmpty_iff]

/-! STOPAT (Table 21.2): its fields, and the counter that it names. -/

theorem bits_eq_toNat_extractLsb' (x : Quad) (lo w : Nat) : bits x.toNat lo w = (x.extractLsb' lo w).toNat := by
  simp [bits, BitVec.extractLsb'_toNat, Nat.shiftRight_eq_div_pow]

/-- A field keeps its value under a mask whose bits are 1 there. -/
theorem bits_and_of_ones {x m : Quad} {lo w : Nat} (h : m.extractLsb' lo w = BitVec.allOnes w) : bits (x &&& m).toNat lo w = bits x.toNat lo w := by
  rw [bits_eq_toNat_extractLsb', bits_eq_toNat_extractLsb', BitVec.extractLsb'_and, h, BitVec.and_allOnes]

/-- A STOPAT value without its reserved bits, which stay 0 (R90). -/
def stopFields (x : Quad) : Quad := x &&& ~~~(0x1F#64 <<< 58)

theorem stopDomain_stopFields (x : Quad) : stopDomain (stopFields x) = stopDomain x := bits_and_of_ones (by decide)

theorem stopIndex_stopFields (x : Quad) : stopIndex (stopFields x) = stopIndex x := bits_and_of_ones (by decide)

theorem stopCount_stopFields (x : Quad) : stopCount (stopFields x) = stopCount x := bits_and_of_ones (by decide)

theorem counter_stopFields (k : Clock) (x : Quad) : k.counter (stopFields x) = k.counter x := by
  simp only [Clock.counter, stopDomain_stopFields, stopIndex_stopFields]

theorem stopIdle_stopFields (p : Package) (x : Quad) : p.stopIdle (stopFields x) = p.stopIdle x := by
  simp only [Package.stopIdle, stopDomain_stopFields, stopIndex_stopFields]

theorem stopDomain_eq (x : Quad) : stopDomain x = (x >>> 56).toNat % 4 := by
  simp [stopDomain, bits, Nat.shiftRight_eq_div_pow]

theorem stopIndex_eq (x : Quad) : stopIndex x = (x >>> 51).toNat % 32 := by
  simp [stopIndex, bits, Nat.shiftRight_eq_div_pow]

theorem stopCount_eq (x : Quad) : stopCount x = StopCount x := by
  simp [stopCount, bits, StopCount]

theorem counter_eq_stopCounter (s : State) (x : Quad) : s.clk.counter x = StopCounter s x := by
  simp only [Clock.counter, StopCounter, ← stopDomain_eq, ← stopIndex_eq]
  split <;> simp_all [Clock.cycleOf]

theorem stopIdle_iff (p : Package) (x : Quad) : p.stopIdle x = true ↔ (x >>> 56).toNat % 4 = 3
    ∧ (p.present ((x >>> 51).toNat % 32 / 8) = false ∨ (p.company ((x >>> 51).toNat % 32)).gatedNow = true) := by
  rw [← stopDomain_eq, ← stopIndex_eq]
  simp [Package.stopIdle]

theorem disarm_eq (w : Window0) : w.disarm = { w with stopat := w.stopat &&& 0x7FFFFFFFFFFFFFFF#64 } := rfl

theorem stopatStopAt_idle {s : State} (h : s.pkg.win.stopat.getLsbD 63 = false ∨ s.clk.run = .frozen
    ∨ StopCounter s s.pkg.win.stopat ≠ StopCount s.pkg.win.stopat) : stopatStopAt s = s := by
  simp only [stopatStopAt, Window0.stopArmed, counter_eq_stopCounter, stopCount_eq]
  rw [if_pos]
  simpa [or_assoc] using h

theorem stopatStopAt_stop {s : State} (ha : s.pkg.win.stopat.getLsbD 63 = true) (hr : s.clk.run = .running)
    (hc : StopCounter s s.pkg.win.stopat = StopCount s.pkg.win.stopat) :
    stopatStopAt s = ({ s with pkg := { s.pkg with win := s.pkg.win.disarm, stopReq := [] } }).freezeNow .stopat := by
  simp [stopatStopAt, Window0.stopArmed, counter_eq_stopCounter, stopCount_eq, ha, hr, hc]

/-- A write of STOPAT by its fields alone: late where it is armed and its COUNT is not ahead (R367). -/
theorem stopatWriteAt_eq (x : Quad) (k : Clock) (p : Package) : stopatWriteAt x k p =
    let w := { p.win with stopat := stopFields x }
    if (stopFields x).getLsbD 63 = true ∧ (stopCount (stopFields x) ≤ k.counter (stopFields x) ∨ p.stopIdle (stopFields x) = true)
    then { p with win := { w.disarm with stoplate := true, lateAt := k.mcyc + 1 } } else { p with win := w } := by
  simp only [stopCount_stopFields, counter_stopFields, stopIdle_stopFields]
  refine if_congr ?_ rfl rfl
  simp only [Window0.stopArmed, stopFields, Bool.and_eq_true, Bool.or_eq_true, decide_eq_true_eq]

/-! Operations of TABCTL (R371 to R373). -/

theorem endOp_eq (p : Package) (err : Nat) : p.endOp err = OpOver p err := rfl

theorem thawAt_absent {s : State} (h : s.pkg.stages = 0) : thawAt s = s := if_pos h

theorem thawAt_running {s : State} (hs : s.pkg.stages ≠ 0) (hr : s.clk.run = .running) : thawAt s = { s with pkg := OpOver s.pkg 2 } := by
  simp only [thawAt, hs, hr, ne_eq, reduceCtorEq, not_false_eq_true, if_true, if_false, endOp_eq]

/-- After a hard failure only a reset ends the stop (R387). -/
theorem thawAt_failed {s : State} (hs : s.pkg.stages ≠ 0) (hf : s.clk.run = .frozen) (hc : s.pkg.stopcause = .hardFailure) :
    thawAt s = { s with pkg := OpOver s.pkg 4 } := by
  simp only [thawAt, hs, hf, hc, ne_eq, not_true_eq_false, if_true, if_false, endOp_eq]

theorem thawAt_runs {s : State} (hs : s.pkg.stages ≠ 0) (hf : s.clk.run = .frozen) (hc : s.pkg.stopcause ≠ .hardFailure) :
    thawAt s = { s with clk := { s.clk with run := .running }, pkg := (s.pkg.drainAll { s.clk with run := .running }).endOp 0 } := by
  simp only [thawAt, hs, hf, hc, ne_eq, not_true_eq_false, if_false]

theorem tabInService_eq_false_iff (p : Package) : p.tabInService = false
    ↔ p.win.tabbase.toNat < p.win.svc.1 ∨ p.win.svc.1 + p.win.svc.2 < p.win.tabbase.toNat + p.win.tabsize.toNat := by
  simp only [Package.tabInService, Bool.and_eq_false_iff, decide_eq_false_iff_not, not_le]

/-- The region that TABBASE and TABSIZE give is too small for a tableau, or not in the service region (R371). -/
def Package.RegionShort (p : Package) : Prop :=
  p.win.tabsize.toNat < p.tabBytes ∨ (p.win.tabhost = false
    ∧ (p.win.tabbase.toNat < p.win.svc.1 ∨ p.win.svc.1 + p.win.svc.2 < p.win.tabbase.toNat + p.win.tabsize.toNat))

theorem regionShort_iff (p : Package) :
    (decide (p.win.tabsize.toNat < p.tabBytes) || (!p.win.tabhost && !p.tabInService)) = true ↔ p.RegionShort := by
  simp only [Package.RegionShort, Bool.or_eq_true, Bool.and_eq_true, Bool.not_eq_true', decide_eq_true_eq, tabInService_eq_false_iff]

theorem takeAt_short {s : State} (hf : s.clk.run = .frozen) (h : s.pkg.RegionShort) : takeAt s = { s with pkg := OpOver s.pkg 1 } := by
  have hb := (regionShort_iff s.pkg).mpr h
  simp only [takeAt, hf, ne_eq, not_true_eq_false, if_false, hb, if_true, endOp_eq]

theorem takeAt_image {s : State} (hf : s.clk.run = .frozen) (h : ¬ s.pkg.RegionShort) : takeAt s = { s with
    pkg := OpOver s.pkg 0, images := s.images.filter (fun j => !(j.host = s.pkg.win.tabhost && j.base = s.pkg.win.tabbase)) ++ [s.imageNow] } := by
  have hb := mt (regionShort_iff s.pkg).mp h
  simp only [takeAt, hf, ne_eq, not_true_eq_false, if_false, hb, Bool.false_eq_true, endOp_eq]

/-- The image at TABBASE, in the memory that TABCTL names. -/
def State.imageAt (s : State) : Option Image :=
  s.images.find? fun i => decide (i.host = s.pkg.win.tabhost) && decide (i.base = s.pkg.win.tabbase)

theorem restoreAt_none {s : State} (hf : s.clk.run = .frozen) (h : ∀ i, s.imageAt = some i → s.pkg.imageGood i = false) :
    restoreAt s = { s with pkg := OpOver s.pkg 3 } := by
  unfold State.imageAt at h
  cases hi : s.images.find? fun i => decide (i.host = s.pkg.win.tabhost) && decide (i.base = s.pkg.win.tabbase) with
  | none => simp only [restoreAt, hf, ne_eq, not_true_eq_false, if_false, hi, endOp_eq]
  | some i => simp only [restoreAt, hf, ne_eq, not_true_eq_false, if_false, hi, h i hi, Bool.false_eq_true, endOp_eq]

theorem restoreAt_image {s : State} {i : Image} (hf : s.clk.run = .frozen) (h : s.imageAt = some i) (hg : s.pkg.imageGood i = true) :
    restoreAt s = { s with pkg := s.pkg.restoreFrom i, clk := { i.clk with run := .frozen } } := by
  unfold State.imageAt at h
  simp only [restoreAt, hf, ne_eq, not_true_eq_false, if_false, h, hg, if_true]

/-- What a restore puts in place of the image's package. -/
theorem restoreFrom_eq (p : Package) (i : Image) : ∃ gates vaults, p.restoreFrom i = OpOver { i.pkg with
    straps := p.straps, gates := gates, sent := p.sent, vaults := vaults, dram := if i.dram then i.pkg.dram else p.dram,
    dramPoison := if i.dram then i.pkg.dramPoison else p.dramPoison, dramErr := p.dramErr,
    win := { (i.pkg.keepR367 p).win with tabbusy := true, gatemodeCur := p.win.gatemodeReq } } 0 := by
  unfold Package.restoreFrom
  simp only [endOp_eq]
  rw [enterMode_eq]
  exact ⟨_, _, rfl⟩

theorem hostKeeps_keepR367 (new old : Package) : HostKeeps old.win (new.keepR367 old).win := ⟨rfl, rfl, rfl, rfl, rfl, rfl, rfl, rfl, rfl⟩

/-! The straps (R3). -/

theorem strapConflict_iff (straps : List Nat) : strapConflict straps = true ↔ ∃ i, i < 4 ∧ 1 < (straps.filter fun x => x = i).length := by
  simp [strapConflict]

/-- Setting the bits of the indices that meet a condition, one after another. -/
theorem getLsbD_foldl_setBits {c : Nat → Prop} [DecidablePred c] {i : Nat} (hi : i < 4) (l : List Nat) (m : BitVec 4) :
    (l.foldl (fun (m : BitVec 4) j => if c j then m ||| BitVec.ofNat 4 (2 ^ j) else m) m).getLsbD i = true ↔ m.getLsbD i = true ∨ i ∈ l ∧ c i := by
  induction l generalizing m with
  | nil => simp
  | cons j l ih =>
    rw [List.foldl_cons, ih]
    have hbit : (BitVec.ofNat 4 (2 ^ j)).getLsbD i = decide (j = i) := by
      rw [BitVec.getLsbD_ofNat, Nat.testBit_two_pow]
      simp [hi]
    by_cases hc : c j
    · rw [if_pos hc, BitVec.getLsbD_or, hbit, Bool.or_eq_true, decide_eq_true_eq, List.mem_cons, or_assoc]
      grind
    · rw [if_neg hc, List.mem_cons]
      grind

theorem strapSet_getLsbD (straps : List Nat) {i : Nat} (hi : i < 4) :
    (strapSet straps).getLsbD i = true ↔ (straps.filter fun x => x = i).length = 1 := by
  rw [strapSet, getLsbD_foldl_setBits hi]
  simp [hi]

theorem strapStages_eq_zero_iff (straps : List Nat) : strapStages straps = 0 ↔ ¬ stageSetOk (strapSet straps) = true := by
  unfold strapStages
  split
  · next h =>
    refine ⟨fun h0 => ?_, fun hn => absurd h hn⟩
    rw [h0] at h
    exact absurd h (by decide)
  · next h => simp [h]

/-- Every stage that stops in reset reports it once (R3). -/
theorem strapReports_length (straps : List Nat) : (strapReports straps).length =
    if stageSetOk (strapSet straps) = true then (straps.filter fun i => decide (¬ (straps.filter fun x => x = i).length = 1)).length else straps.length := by
  rw [List.length_eq_length_filter_add (l := straps) fun i => decide ((straps.filter fun x => x = i).length = 1)]
  by_cases h : stageSetOk (strapSet straps) = true <;> simp only [strapReports, h]
  · simp
  · simp [Nat.add_comm]

theorem mem_strapReports {straps : List Nat} {x : Nat × Egress} (h : x ∈ strapReports straps) :
    x = (14, .mgmt (Config.strapReport 0)) ∨ x = (14, .mgmt (Config.strapReport 1)) := by
  rcases List.mem_append.mp h with h | h
  · obtain ⟨_, _, rfl⟩ := List.mem_map.mp h
    exact .inl rfl
  · split at h
    · cases h
    · obtain ⟨_, _, rfl⟩ := List.mem_map.mp h
      exact .inr rfl

/-! The resets (R3, R373). -/

/-- What a held reset makes of a package before REQ is entered: reset values, but for the registers of R367 and the service region. -/
def Package.heldReset (p : Package) : Package :=
  let q := (Package.fresh (strapStages p.straps)).keepR367 p
  ({ q with dram := p.regionCells p.win.svc.1 p.win.svc.2, win := { q.win with tabop := 0 }, stopcause := .heldReset,
            gates := q.gates.map fun g : Gate => { g with logtail := 0 } } : Package).strapped p.straps

theorem resetAt_eq (s : State) : resetAt s =
    { s with clk := { run := .frozen }, pkg := s.pkg.heldReset.enterMode s.pkg.win.gatemodeReq } := rfl

theorem hostKeeps_heldReset (p : Package) : HostKeeps p.win p.heldReset.win := ⟨rfl, rfl, rfl, rfl, rfl, rfl, rfl, rfl, rfl⟩

/-- Every ring starts at 0. -/
theorem gate_heldReset (p : Package) (g : Nat) : (p.heldReset.gate g).loghead = 0 ∧ (p.heldReset.gate g).logtail = 0 := by
  refine getD_of_forall_mem (P := fun x : Gate => x.loghead = 0 ∧ x.logtail = 0) ⟨rfl, rfl⟩ ?_ g
  intro x hx
  obtain ⟨y, hy, rfl⟩ := List.mem_map.mp hx
  obtain ⟨⟨a, b⟩, hab, rfl⟩ := List.mem_map.mp hy
  obtain rfl : a = {} := List.eq_of_mem_replicate (List.of_mem_zip hab).1
  exact ⟨rfl, rfl⟩

theorem powerOnAt_running_iff (straps : List Nat) (s : State) :
    (powerOnAt straps s).clk.run = .running ↔ stageSetOk (strapSet straps) = true := by
  have h : (powerOnAt straps s).clk.run = if strapStages straps = 0 then .frozen else .running := rfl
  rw [h, ← not_not (a := stageSetOk (strapSet straps) = true), ← strapStages_eq_zero_iff]
  split
  · next h => exact iff_of_false RunState.noConfusion (not_not.mpr h)
  · next h => exact iff_of_true rfl h

/-- Cores at their reset values hold nothing. -/
theorem slots_of_fresh_cores {p : Package} (h : p.cores = List.replicate 256 {}) (core slot : Nat) :
    p.wave? core slot = none ∧ p.cast? core slot = none := by
  simp only [Package.wave?, Package.cast?, h, List.getElem?_replicate]
  split
  · simp only [Option.bind_some, List.getElem?_replicate]
    constructor <;> split <;> rfl
  · exact ⟨rfl, rfl⟩

theorem part_reset (k : Nat) : State.reset.pkg.part k = {} := getD_replicate_self 8 k ({} : Partition)

theorem company_reset (m : Nat) : State.reset.pkg.company m = {} := getD_replicate_self 32 m ({} : Company)

theorem gate_reset (g : Nat) : State.reset.pkg.gate g = {} := getD_replicate_self 15 g ({} : Gate)

/-- The clock of every reset: all counters 0, at an edge of the reference tick. -/
theorem clockOk_start (r : RunState) : ClockOk { run := r } := by
  simp [ClockOk]

/-! The statements. -/

/-- Settles O59: every unit at its reset values, field by field, and the clock at its start. -/
theorem resetState : Obligations.ResetState := by
  unfold Obligations.ResetState
  refine ⟨⟨rfl, rfl, rfl, rfl, fun m => getD_replicate_self 32 m 0, rfl, rfl, rfl, rfl, rfl, rfl, ?_, slots_of_fresh_cores rfl, ?_, ?_, rfl, rfl, rfl⟩,
    clockOk_start .running, ?_⟩
  · intro k
    rw [part_reset]
    exact ⟨rfl, rfl, rfl, rfl⟩
  · intro m
    rw [company_reset]
    exact ⟨rfl, rfl⟩
  · intro g
    rw [gate_reset]
    exact ⟨rfl, rfl, rfl⟩
  · intro i hi
    cases hi

/-- Settles O55, row by row: what each write makes of the package is an equation above; where nothing is withheld, nothing is drained. -/
theorem hostWindowAndGateRegisters : Obligations.HostWindowAndGateRegisters := by
  unfold Obligations.HostWindowAndGateRegisters
  refine ⟨fun s x => ?window, fun s k x => ?queue, fun s off x => ?access, fun s off len data => ?service, fun s g x hi hd => ?logtail,
    fun s x => ?gatemode⟩
  case window =>
    refine ⟨rfl, rfl, rfl, rfl, fun h => ?_, fun hb => ?_, fun hb h1 h5 => ⟨tabOperation (x.toNat % 16), ?_, tabOperation_lookup h1 h5⟩, fun k hk => ?_,
      fun off h => ?_, fun h1 h2 h3 => ?_, ⟨_, rfl, rfl, fun h => ?_, fun h => ?_, fun h => ?_⟩, fun h => ?_, fun h => ?_⟩
    · rw [exec_hostWindowWrite, hostWindowAt_logen x h.1 h.2]
    · rw [exec_hostWindowWrite, hostWindowAt_tabctl, tabctlAt_of_busy x hb]
    · rw [exec_hostWindowWrite, hostWindowAt_tabctl, tabctlAt_of_operation hb h1 h5]
    · rw [exec_hostWindowWrite, hostWindowAt_hmqBase hk]
    · rw [exec_hostWindowWrite, hostWindowAt_outside h]
    · simp [exec_statusClear, statusClearAt, h1, h2, h3]
    · simp [h]
    · simp [h]
    · simp [h]
    · rw [exec_replaybrkClear, replaybrkAt, if_pos h]
    · rw [exec_replaybrkClear, replaybrkAt, if_neg h]
  case queue =>
    refine ⟨fun h => ?_, fun h => ?_, rfl⟩
    · rw [exec_hmqtailWrite, hmqtailAt, if_pos h]
    · rw [exec_hmqtailWrite, hmqtailAt, if_neg (Nat.not_lt.mpr h)]
      simp only [Package.egress, Bool.and_eq_true, decide_eq_true_eq]
  case access =>
    refine ⟨fun h => ?_, fun h hl => ?_, fun h hl => ?_, ?_, rfl⟩
    · rw [exec_windowWrite, accessOk_eight, decide_eq_false h, if_neg Bool.false_ne_true]
    · rw [exec_windowWrite, accessOk_eight, decide_eq_true h, if_pos rfl, (liveRegister_iff off).mpr hl, hostWindow_live]
    · rw [exec_windowWrite, accessOk_eight, decide_eq_true h, if_pos rfl, Bool.eq_false_iff.mpr (mt (liveRegister_iff off).mp hl), hostWindow_stamped]
    · simp only [exec_windowRead, accessOk_eight, decide_eq_true_eq]
  case service =>
    simp only [exec_serviceRegionAccess, serviceAccess_eq]
    refine ⟨fun h => ?_, fun h he => ?_, fun h he ho => ?_, fun h he ho => ?_⟩
    · rw [if_pos h]
    · rw [if_neg h, if_pos he]
    · rw [if_neg h, if_neg he, if_pos ho]
    · rw [if_neg h, if_neg he, if_neg (Nat.not_le.mpr ho)]
  case logtail =>
    rw [exec_logtailWrite, logtailAt_of_nothing_held x s.clk hi hd]
  case gatemode =>
    refine ⟨fun h => ?_, fun h => ?_, fun hm hn => ⟨_, exec_gatemodeWrite x s, ?_⟩⟩
    · rw [exec_gatemodeWrite, gatemodeAt, if_pos h]
    · rw [exec_gatemodeWrite, gatemodeAt, if_neg (by omega), if_pos h, h]
    · rw [gatemodeAt_entered hm hn.1 hn.2]
      refine ⟨?_, ?_, fun h => enterMode_gates_same h, fun h hc g hg => ⟨_, rfl, ?_⟩⟩
      · rw [enterMode_eq]
      · rw [enterMode_eq]
      · rw [h]
        exact enterMode_gate_record hc hg

/-- Settles O54, event by event: STOPAT by its fields, the operations of TABCTL by the check that ends them, the resets by what the straps make of a
fresh package. -/
theorem runControl : Obligations.RunControl := by
  unfold Obligations.RunControl
  refine ⟨fun s => ⟨fun h => ?_, fun ha hr hc => ?_⟩, fun s x => ?stopat, fun s => ?tabctl, fun s straps => ?power⟩
  · rw [exec_stopatStop, stopatStopAt_idle h]
  · rw [exec_stopatStop, stopatStopAt_stop ha hr hc]
    rfl
  case stopat =>
    simp only [exec_stopatWrite, stopatWriteAt_eq, stopCount_eq, counter_eq_stopCounter, stopIdle_iff]
    refine ⟨fun ha hl => ?_, fun h => ?_⟩
    · rw [if_pos ⟨ha, hl⟩]
      rfl
    · rw [if_neg fun hl => ?_]
      · rfl
      · rcases h with h | h
        · exact Bool.false_ne_true (h.symm.trans hl.1)
        · exact h hl.2
  case tabctl =>
    refine ⟨fun h => ?_, fun h => ?_, fun h => ?_, fun hr hs => ?_, fun hr => ⟨?_, ?_⟩, fun hf hs hc => ?_, fun hf hs hc hn => ?_,
      ⟨fun hf h => ?_, fun hf h => ?_, fun hf h => ?_, fun i hf h hg => ?_⟩, ?reset, rfl⟩
    · simp [exec_freeze, freezeAt, endOp_eq, h]
    · simp [exec_freeze, freezeAt, endOp_eq, h, State.freezeNow]
    · rw [exec_thaw, thawAt_absent h]
    · rw [exec_thaw, thawAt_running hs hr]
    · simp [exec_take, takeAt, endOp_eq, hr]
    · simp [exec_restore, restoreAt, endOp_eq, hr]
    · rw [exec_thaw, thawAt_failed hs hf hc]
    · rw [exec_thaw, thawAt_runs hs hf hc, drainAll_of_nothing_held _ hn.1 hn.2, endOp_eq]
    · rw [exec_take, takeAt_short hf h]
    · exact ⟨_, s.imageNow, (exec_take s).trans (congrArg _ (takeAt_image hf h)), rfl, rfl, rfl, rfl, rfl, rfl, rfl⟩
    · rw [exec_restore, restoreAt_none hf h]
    · obtain ⟨gates, vaults, he⟩ := restoreFrom_eq s.pkg i
      refine ⟨_, (exec_restore s).trans (congrArg _ (restoreAt_image hf h hg)), rfl, rfl, ?_⟩
      simp only [he]
      exact ⟨rfl, rfl, rfl, rfl, hostKeeps_keepR367 i.pkg s.pkg, rfl⟩
    case reset =>
      refine ⟨_, (exec_reset s).trans (congrArg _ (resetAt_eq s)), rfl, rfl, ?_⟩
      rw [enterMode_eq]
      refine ⟨rfl, rfl, rfl, strapConflict_iff _, rfl, rfl, rfl, hostKeeps_heldReset s.pkg, rfl, fun g => ?_, rfl⟩
      obtain ⟨-, hhead, htail⟩ := enterMode_gate_kept s.pkg.heldReset s.pkg.win.gatemodeReq g
      obtain ⟨hhead0, htail0⟩ := gate_heldReset s.pkg g
      exact ⟨hhead.trans hhead0, htail.trans htail0⟩
  case power =>
    refine ⟨_, exec_powerOnReset straps s, rfl, rfl, rfl, fun m => getD_replicate_self 32 m 0, rfl, rfl, rfl, rfl, strapConflict_iff straps,
      powerOnAt_running_iff straps s, rfl, ⟨strapReports straps, rfl, strapReports_length straps, fun x => mem_strapReports⟩,
      fun hr i hi => ?_, fun hf => ?_⟩
    · have hst : (powerOnAt straps s).pkg.stages = strapSet straps := if_pos ((powerOnAt_running_iff straps s).mp hr)
      rw [hst, strapSet_getLsbD straps hi]
    · exact (strapStages_eq_zero_iff straps).mpr fun hok => absurd (hf.symm.trans ((powerOnAt_running_iff straps s).mpr hok)) (by decide)

end Sys2Proof.Machine
end

section
/-! SUPPORT. The clocks (R22, R365, R366, R372): which functions of the model leave them alone, that an edge and a run control keep them in agreement, and
the statement that every step does. -/

namespace Sys2Proof.Machine

/-! Functions of a state that move neither its clock nor the clock of an image. -/

@[simp] theorem clocksAgree_ite (c : Prop) [Decidable c] (s t : State) :
    ClocksAgree (if c then s else t) ↔ if c then ClocksAgree s else ClocksAgree t := by
  split <;> rfl

@[simp] theorem clocksAgree_setCur (s : State) (q : Option Issue) : ClocksAgree { s with cur := q } ↔ ClocksAgree s := Iff.rfl

@[simp] theorem clocksAgree_setPkg (s : State) (p : Package) : ClocksAgree { s with pkg := p } ↔ ClocksAgree s := Iff.rfl

@[simp] theorem clocksAgree_setAgenda (s : State) (l : List Turn) : ClocksAgree { s with agenda := l } ↔ ClocksAgree s := Iff.rfl

@[simp] theorem clocksAgree_modPkg (s : State) (f : Package → Package) : ClocksAgree (s.modPkg f) ↔ ClocksAgree s := Iff.rfl

@[simp] theorem clocksAgree_modWave (s : State) (core slot : Nat) (f : Wave → Wave) : ClocksAgree (s.modWave core slot f) ↔ ClocksAgree s := Iff.rfl

@[simp] theorem clocksAgree_modCur (s : State) (f : Issue → Issue) : ClocksAgree (s.modCur f) ↔ ClocksAgree s := Iff.rfl

@[simp] theorem clocksAgree_onWave (s : State) (v : View) (f : Wave → Wave) : ClocksAgree (s.onWave v f) ↔ ClocksAgree s := Iff.rfl

@[simp] theorem clocksAgree_onCtx (s : State) (v : View) (f : CoreCtx → CoreCtx) : ClocksAgree (s.onCtx v f) ↔ ClocksAgree s := Iff.rfl

@[simp] theorem clocksAgree_onUnit (s : State) (v : View) (e : BarrierEvent) : ClocksAgree (s.onUnit v e) ↔ ClocksAgree s := Iff.rfl

@[simp] theorem clocksAgree_produce (s : State) (v : View) (keep : Bool) (d : Nat) (r : Result) :
    ClocksAgree (s.produce v keep d r) ↔ ClocksAgree s := Iff.rfl

@[simp] theorem clocksAgree_writeX (s : State) (v : View) (d : Nat) (x : Quad) : ClocksAgree (s.writeX v d x) ↔ ClocksAgree s := Iff.rfl

@[simp] theorem clocksAgree_writeS (s : State) (v : View) (d : Nat) (x : Quad) : ClocksAgree (s.writeS v d x) ↔ ClocksAgree s := by simp [State.writeS]

@[simp] theorem clocksAgree_writeV (s : State) (v : View) (d : Nat) (x : Quad) : ClocksAgree (s.writeV v d x) ↔ ClocksAgree s := by simp [State.writeV]

@[simp] theorem clocksAgree_raiseFlags (s : State) (v : View) (fl : BitVec 5) : ClocksAgree (s.raiseFlags v fl) ↔ ClocksAgree s := Iff.rfl

@[simp] theorem clocksAgree_noteCount (s : State) (v : View) (keep : Bool) (d : Nat) (x : Quad) :
    ClocksAgree (s.noteCount v keep d x) ↔ ClocksAgree s := Iff.rfl

@[simp] theorem clocksAgree_movcw (s : State) (v : View) (n : Nat) (x : Quad) : ClocksAgree (s.movcw v n x) ↔ ClocksAgree s := by
  unfold State.movcw
  split <;> simp

@[simp] theorem clocksAgree_link (s : State) (v : View) : ClocksAgree (s.link v) ↔ ClocksAgree s := by simp [State.link]

@[simp] theorem clocksAgree_exit (s : State) (v : View) : ClocksAgree (s.exit v) ↔ ClocksAgree s := Iff.rfl

@[simp] theorem clocksAgree_sendDc (s : State) (v : View) (u : DcUpdate) : ClocksAgree (s.sendDc v u) ↔ ClocksAgree s := Iff.rfl

@[simp] theorem clocksAgree_sendCommand (s : State) (v : View) (cmd : MmCmd) : ClocksAgree (s.sendCommand v cmd) ↔ ClocksAgree s := Iff.rfl

@[simp] theorem clocksAgree_parkFor (s : State) (v : View) (r : Park) (epc addr : Quad) (lanes : LaneMask) (window write fetch : Bool) (slot : Nat) :
    ClocksAgree (s.parkFor v r epc addr lanes window write fetch slot) ↔ ClocksAgree s := Iff.rfl

/-! How a word ends. -/

@[simp] theorem clocksAgree_blockParty (s : State) (v : View) (op : BlockOp) : ClocksAgree (s.blockParty v op) ↔ ClocksAgree s := Iff.rfl

@[simp] theorem clocksAgree_trapNow (s : State) (v : View) (t : Trap) (slot : Nat) : ClocksAgree (s.trapNow v t slot) ↔ ClocksAgree s := Iff.rfl

@[simp] theorem clocksAgree_finish (s : State) (v : View) (i : Instr) (moved : Bool) : ClocksAgree (s.finish v i moved) ↔ ClocksAgree s := by
  simp [State.finish]

@[simp] theorem clocksAgree_raise (s : State) (v : View) (t : Trap) : ClocksAgree (s.raise v t) ↔ ClocksAgree s := by simp [State.raise]

@[simp] theorem clocksAgree_holdNow (s : State) (v : View) (h : Hold) (slot : Nat) : ClocksAgree (s.holdNow v h slot) ↔ ClocksAgree s := by
  cases h <;> simp [State.holdNow]

@[simp] theorem clocksAgree_holdWord (s : State) (v : View) (h : Hold) : ClocksAgree (s.holdWord v h) ↔ ClocksAgree s := by simp [State.holdWord]

/-! The fetch of a chain, and what follows an issue. -/

@[simp] theorem clocksAgree_deferControl (s : State) (word : Quad) (raw : Word) : ClocksAgree (s.deferControl word raw) ↔ ClocksAgree s := by
  unfold State.deferControl
  split <;> simp

@[simp] theorem clocksAgree_noteFetch (s : State) (core part : Nat) (l : List Quad) : ClocksAgree (s.noteFetch core part l) ↔ ClocksAgree s := Iff.rfl

@[simp] theorem clocksAgree_settleWalks (core slot leader : Nat) (s : State) : ClocksAgree (settleWalks core slot leader s) ↔ ClocksAgree s := by
  simp [settleWalks]

/-! The start of a company cycle. -/

@[simp] theorem clocksAgree_beginBay (s : State) (core bay : Nat) : ClocksAgree (s.beginBay core bay) ↔ ClocksAgree s := clocksAgree_modPkg s _

theorem beginCycle_agrees {s : State} (hs : ClocksAgree s) (core : Nat) : ClocksAgree (s.beginCycle core) := by
  unfold State.beginCycle
  rw [clocksAgree_modPkg]
  exact List.foldlRecOn (motive := ClocksAgree) _ _ hs fun t ht bay _ => (clocksAgree_beginBay t core bay).mpr ht

/-! The meaning of a word. -/

/-- A state that the effect of a word leads to has clocks in agreement. -/
def Out.Agrees : Out → Prop
  | .done t | .jump t | .after t _ | .block t _ => ClocksAgree t
  | .trap _ | .hold _ => True

@[simp] theorem Out.agrees_done (t : State) : (Out.done t).Agrees ↔ ClocksAgree t := Iff.rfl
@[simp] theorem Out.agrees_jump (t : State) : (Out.jump t).Agrees ↔ ClocksAgree t := Iff.rfl
@[simp] theorem Out.agrees_after (t : State) (tr : Trap) : (Out.after t tr).Agrees ↔ ClocksAgree t := Iff.rfl
@[simp] theorem Out.agrees_block (t : State) (op : BlockOp) : (Out.block t op).Agrees ↔ ClocksAgree t := Iff.rfl
@[simp] theorem Out.agrees_trap (tr : Trap) : (Out.trap tr).Agrees := trivial
@[simp] theorem Out.agrees_hold (h : Hold) : (Out.hold h).Agrees := trivial

@[simp] theorem Out.agrees_ite (c : Prop) [Decidable c] (a b : Out) : (if c then a else b).Agrees ↔ if c then a.Agrees else b.Agrees := by
  split <;> rfl

/-- A next state has clocks in agreement. -/
def NextAgrees (o : Host.Outcome State Fault Refusal) : Prop := ∀ t, o = .next t → ClocksAgree t

@[simp] theorem nextAgrees_next (t : State) : NextAgrees (.next t) ↔ ClocksAgree t := by simp [NextAgrees]

@[simp] theorem nextAgrees_fault (r : Fault) : NextAgrees (.fault r) := by simp [NextAgrees]

section
variable {s : State} (hs : ClocksAgree s)
include hs

theorem word_agrees {i : Instr} {f : View → State → Out} (hf : ∀ v, (f v s).Agrees) : NextAgrees (s.word i f) := by
  unfold State.word
  split
  · simp
  · next v _ =>
    split
    · simp [hs]
    · have ho := hf v
      generalize f v s = o at ho
      cases o with
      | done | jump | after | block => simpa using ho
      | trap | hold => simp [hs]

theorem branch_agrees (v : View) (taken : Bool) (target : Quad) : (branch s v taken target).Agrees := by simp [branch, hs]

theorem event_agrees (f : Clock → Package → Package) : NextAgrees (s.event f) := by simpa [State.event]

theorem execVec_agrees (i : Instr) (keep : BitVec 1) (d : BitVec 7) (f : View → Nat → Word) : NextAgrees (execVec i keep d f s) :=
  word_agrees hs fun v => by simpa

theorem execPair_agrees (i : Instr) (keep : BitVec 1) (d : BitVec 7) (f : View → Nat → Quad) : NextAgrees (execPair i keep d f s) :=
  word_agrees hs fun v => by simpa

theorem execScalar_agrees (i : Instr) (keep : BitVec 1) (d : BitVec 7) (f : View → Quad) : NextAgrees (execScalar i keep d f s) :=
  word_agrees hs fun v => by simp [hs]

theorem execPred_agrees (i : Instr) (d : BitVec 3) (f : View → Nat → Bool) : NextAgrees (execPred i d f s) :=
  word_agrees hs fun v => by simpa

theorem execFp_agrees (i : Instr) (keep : BitVec 1) (d : BitVec 7) (f : View → Nat → Flagged) : NextAgrees (execFp i keep d f s) :=
  word_agrees hs fun v => by simpa

theorem execFpPair_agrees (i : Instr) (keep : BitVec 1) (d : BitVec 7) (f : View → Nat → Flagged) : NextAgrees (execFpPair i keep d f s) :=
  word_agrees hs fun v => by simpa

theorem execReduce_agrees (i : Instr) (w : VR1) (f : Nat → Nat → Nat) : NextAgrees (execReduce i w f s) :=
  word_agrees hs fun v => by simpa

theorem execBS_agrees (i : Instr) (a b : Nat) (o : BitVec 10) (c : Quad → Quad → Bool) : NextAgrees (execBS i a b o c s) :=
  word_agrees hs fun v => branch_agrees hs v _ _

theorem execBP_agrees (i : Instr) (w : BQ) (c : LaneMask → LaneMask → Bool) : NextAgrees (execBP i w c s) :=
  word_agrees hs fun v => branch_agrees hs v _ _

theorem execScratch_agrees (i : Instr) (w : MS) (store : Bool) : NextAgrees (execScratch i w store s) :=
  word_agrees hs fun v => by
    dsimp only
    split <;> simp [hs]

theorem execBar_agrees {i : Instr} {a : BitVec 7} {f : View → State → Quad → Bar → Out} (hf : ∀ v addr b, (f v s addr b).Agrees) :
    NextAgrees (execBar i a f s) :=
  word_agrees hs fun v => by
    dsimp only
    split
    · trivial
    · exact hf _ _ _

theorem execQueue_agrees {i : Instr} {a : BitVec 7} {phased : Bool} {f : View → State → CoreCtx → Quad → Out}
    (hf : ∀ v x addr, (f v s x addr).Agrees) : NextAgrees (execQueue i a phased f s) :=
  word_agrees hs fun v => by
    dsimp only
    split
    · trivial
    · exact hf _ _ _

theorem execATTACH_agrees (i : Instr) (w : R3) (wait : Bool) : NextAgrees (execATTACH i w wait s) :=
  word_agrees hs fun v => by
    dsimp only
    split <;> simp [hs]

theorem execMem_agrees (i : Instr) (addr : View → Nat → Quad) (data cmp : View → Nat → List Byte) : NextAgrees (execMem i addr data cmp s) :=
  word_agrees hs fun v => by
    dsimp only
    split
    · trivial
    · trivial
    · split <;> simp [hs]

theorem execMatrix_agrees (i : Instr) (kind : MmKind) (acc ta tb : Nat) : NextAgrees (execMatrix i kind acc ta tb s) :=
  word_agrees hs fun v => by simpa

end

/-! Run control (R3, R367 to R373). -/

/-- STATUS.RUN says nothing of the counters. -/
theorem freezeNow_agrees {s : State} (hs : ClocksAgree s) (c : StopCause) : ClocksAgree (s.freezeNow c) := hs

theorem stopatStopAt_agrees {s : State} (hs : ClocksAgree s) : ClocksAgree (stopatStopAt s) := by
  unfold stopatStopAt
  dsimp only
  split
  · exact hs
  · exact freezeNow_agrees (by simpa) .stopat

theorem hardfailFreezeAt_agrees {s : State} (hs : ClocksAgree s) : ClocksAgree (hardfailFreezeAt s) := by
  simp [hardfailFreezeAt, hs, freezeNow_agrees]

theorem freezeAt_agrees {s : State} (hs : ClocksAgree s) : ClocksAgree (freezeAt s) := by
  simp [freezeAt, hs, freezeNow_agrees]

/-- The image of a TAKE holds the clock of its moment (R371). -/
theorem takeAt_agrees {s : State} (hs : ClocksAgree s) : ClocksAgree (takeAt s) := by
  obtain ⟨hclk, himages⟩ := hs
  unfold takeAt
  dsimp only
  split_ifs
  · exact ⟨hclk, himages⟩
  · exact ⟨hclk, himages⟩
  · refine ⟨hclk, fun i hi => ?_⟩
    rcases List.mem_append.mp hi with hi | hi
    · exact himages i (List.mem_of_mem_filter hi)
    · rw [List.mem_singleton.mp hi]
      exact hclk

/-- A RESTORE brings back the clock of an image that is held (R372). -/
theorem restoreAt_agrees {s : State} (hs : ClocksAgree s) : ClocksAgree (restoreAt s) := by
  unfold restoreAt
  dsimp only
  split
  · exact hs
  · split
    · exact hs
    · next i hi =>
      split
      · exact ⟨hs.2 i (List.mem_of_find?_eq_some hi), hs.2⟩
      · exact hs

theorem thawAt_agrees {s : State} (hs : ClocksAgree s) : ClocksAgree (thawAt s) := by
  unfold thawAt
  dsimp only
  split_ifs <;> exact hs

theorem resetAt_agrees {s : State} (hs : ClocksAgree s) : ClocksAgree (resetAt s) := ⟨clockOk_start .frozen, hs.2⟩

theorem powerOnAt_agrees {s : State} (hs : ClocksAgree s) (straps : List Nat) : ClocksAgree (powerOnAt straps s) :=
  ⟨clockOk_start _, fun i hi => hs.2 i (List.mem_of_mem_filter hi)⟩

/-! A clock edge (R22, R23, R366). -/

/-- A place num / den of a reference tick, no later than the boundary that ends it. -/
def InTick (x : Nat × Nat) : Prop := 0 < x.2 ∧ x.1 ≤ x.2

theorem passed_lt {n num den : Nat} (hn : 0 < n) (h : num < den) : passed n num den < n :=
  Nat.div_lt_of_lt_mul (by rw [Nat.mul_comm den]; exact Nat.mul_lt_mul_of_pos_left h hn)

/-- The next edge of a domain, which is its last of the tick at the latest. -/
theorem inTick_next {n num den : Nat} (hn : 0 < n) (h : num < den) : InTick (passed n num den + 1, n) := ⟨hn, passed_lt hn h⟩

theorem inTick_earlier {x y : Nat × Nat} (hx : InTick x) (hy : InTick y) : InTick (earlier x y) := by
  unfold earlier
  split <;> assumption

theorem nextPlace_inTick {s : State} (h : s.clk.num < s.clk.den) : InTick s.nextPlace := by
  unfold State.nextPlace
  refine List.foldlRecOn (motive := InTick) _ _ (inTick_earlier (inTick_next (by decide) h) (inTick_next (by decide) h)) ?_
  intro x hx n hn
  obtain ⟨m, -, rfl⟩ := List.mem_map.mp hn
  exact inTick_earlier hx (inTick_next (Nat.add_pos_left (by decide) _) h)

/-- At a boundary every counter has the edges of a whole tick more, and before it those that have passed. -/
theorem clockOk_advance {k : Clock} {x : Nat × Nat} (hx : InTick x) (ms : List Nat) : ClockOk (k.advance x ms) := by
  obtain ⟨num, den⟩ := x
  obtain ⟨hden, hle⟩ : 0 < den ∧ num ≤ den := hx
  by_cases h : num = den
  · subst h
    simp only [ClockOk, Clock.advance, passed, if_true, Nat.mul_div_cancel _ hden]
    omega
  · simp [ClockOk, Clock.advance, passed, h, lt_of_le_of_ne hle h]

theorem stopAtEdge_agrees {s : State} (hs : ClocksAgree s) (before : Clock) (companies : List Nat) (mesh dry : Bool) :
    ClocksAgree (s.stopAtEdge before companies mesh dry) := by
  unfold State.stopAtEdge
  dsimp only
  split
  · exact stopatStopAt_agrees hs
  · split
    · exact freezeNow_agrees (by simpa) .stopnow
    · split
      · exact freezeNow_agrees hs .emptyRing
      · exact hs

theorem edge_agrees {s : State} (hs : ClocksAgree s) : ClocksAgree s.edge := by
  unfold State.edge
  apply stopAtEdge_agrees
  exact ⟨clockOk_advance (nextPlace_inTick hs.1.1) _, hs.2⟩

/-! The meaning of every instruction. -/

/-- Run control sets the clock as its lemma says; a word ends as `State.word` says, and any other row is an event, which changes the package only. -/
theorem exec_agrees {s : State} (hs : ClocksAgree s) (i : Instr) : NextAgrees (exec i s) := by
  unfold exec
  cases i
  case vadd | vsub | vmul | vmulh | vmulhu | vmin | vmax | vminu | vmaxu | vadds | vsubs | vdiv | vdivu | vrem | vremu | vand | vor | vxor | vandn |
      vshl | vshr | vsra | vrol | vmad | vperm | vbcl | vrotl | vxorl | vupl | vdnl | vsplati | viota | vbcs | vlane | vsel | vpopc | vclz |
      vbrev | vmov | vaddi | vmuli | vandi | vori | vxori | vshli | vshri | vsrai | vmini | vmaxi =>
    exact execVec_agrees hs _ _ _ _
  case vadd64 | vsub64 | vmulw | vshl64 | vshr64 | vshl64i | vshr64i =>
    exact execPair_agrees hs _ _ _ _
  case vcmpI32Eqz | vcmpI32Nez | vcmpI64Eqz | vcmpI64Nez | vcmpF32Isnan | vcmpF32Isinf | vcmpF64Isnan | vcmpF64Isinf | vcmpI32Eq | vcmpI32Ne |
      vcmpI32Lt | vcmpI32Le | vcmpI32Ltu | vcmpI32Leu | vcmpI64Eq | vcmpI64Ne | vcmpI64Lt | vcmpI64Le | vcmpI64Ltu | vcmpI64Leu | vcmpF32Eq |
      vcmpF32Lt | vcmpF32Le | vcmpF32Ne | vcmpF32Un | vcmpF32Ord | vcmpF64Eq | vcmpF64Lt | vcmpF64Le | vcmpF64Ne | vcmpF64Un | vcmpF64Ord | pand |
      por | pxor | pandn | pnot | pset | pclr | pfroms =>
    exact execPred_agrees hs _ _ _
  case fadd | fsub | fmul | fmin | fmax | fdiv | fsgnj | fsgnjn | fsgnjx | fmac | fnmac | fscale | vcvtF32I32 | vcvtF32U32 | vcvtI32F32 |
      vcvtU32F32 | vcvtF32F64 | vcvtI32F64 | vcvtU32F64 | vcvtF32I64 | frint | vcvtF16F32 | vcvtF32F16 | vcvtBf16F32 | vcvtF32Bf16 | vcvtE4m3F32 |
      vcvtE5m2F32 | vcvtF32E4m3 | vcvtF32E5m2 | vcvtF16E4m3 | vcvtF16E5m2 | fsqrt | frcpe | frsqe | fclass | hadd2 | hsub2 | hmul2 | hmac2 | hmin2 |
      hmax2 | badd2 | bsub2 | bmul2 | bmac2 | bmin2 | bmax2 | hdot2 | bdot2 | qdot4 | idot4 =>
    exact execFp_agrees hs _ _ _ _
  case dadd | dsub | dmul | dmin | dmax | ddiv | dsgnj | dsgnjn | dsgnjx | dmac | dnmac | dscale | vcvtF64F32 | vcvtF64I32 | vcvtF64U32 |
      vcvtF64I64 | vcvtI64F64 | vcvtI64F32 | drint | dsqrt | drcpe | drsqe | dclass =>
    exact execFpPair_agrees hs _ _ _ _
  case iredadd | iredmin | iredmax | fredmin | fredmax =>
    exact execReduce_agrees hs _ _ _
  case sadd | ssub | smul | smulhu | sdiv | sdivu | srem | sremu | sand | sor | sxor | sshl | sshr | ssra | sslt | ssltu | saddi | sandi | sori |
      sxori | sshli | sshri | ssrai | sslti | sli =>
    exact execScalar_agrees hs _ _ _ _
  case bsEq | bsNe | bsLt | bsGe | bsLtu | bsGeu | bsZ | bsNz =>
    exact execBS_agrees hs _ _ _ _ _
  case bpAll | bpAny =>
    exact execBP_agrees hs _ _ _
  case lds | sts =>
    exact execScratch_agrees hs _ _ _
  case ldc | stc | ldg | stg | lr | sc | stred | pref | cflush | amadd | amsmin | amsmax | amumin | amumax | amand | amor | amxor | amswap | amcas |
      amfadd | amfmin | amfmax =>
    exact execMem_agrees hs _ _ _ _
  case mma | mmaz | mmap | msave | mload =>
    exact execMatrix_agrees hs _ _ _ _ _
  case attachTry | attachWait =>
    exact execATTACH_agrees hs _ _ _
  case barrive | bwait | bsync | bkill | bquery =>
    exact execBar_agrees hs fun v addr b => by simp [hs]
  case qpush =>
    exact execQueue_agrees hs fun v x addr => by
      dsimp only
      split <;> simp [hs]
  case qpop | qtrypush | qtrypop | rwait | radv =>
    exact execQueue_agrees hs fun v x addr => by
      split <;> simp [hs]
  case fredadd | iscan | fscan | vcompact | vgetl | vsetl | ptos | pexec | pcount | shi | movc | movcw | tdescr | perfreq | b | bl | bpSplit |
      bpUni | jr | jlr | join | regangAll | regangAny | yield | exit | nop | sleep | trap | tret | brk | hostmsg | ckpt | stopnow | detach |
      mdefer | mwait | fence | cinv | waitst | engwait =>
    exact word_agrees hs fun v => by simp [hs, branch_agrees]
  case vmovxr =>
    exact word_agrees hs fun v => by
      split <;> simp [hs]
  case vmovxw =>
    exact word_agrees hs fun v => by
      dsimp only
      split
      · simpa
      · split <;> simp [hs]
  case vxchg | tdesc | binit | copy | qinit | cueemit | dcset | dcdec | dcwait =>
    exact word_agrees hs fun v => by
      dsimp only
      split <;> simp [hs]
  case hardfailFreeze => exact (nextAgrees_next _).mpr (hardfailFreezeAt_agrees hs)
  case stopatStop => exact (nextAgrees_next _).mpr (stopatStopAt_agrees hs)
  case take => exact (nextAgrees_next _).mpr (takeAt_agrees hs)
  case restore => exact (nextAgrees_next _).mpr (restoreAt_agrees hs)
  case thaw => exact (nextAgrees_next _).mpr (thawAt_agrees hs)
  case freeze => exact (nextAgrees_next _).mpr (freezeAt_agrees hs)
  case reset => exact (nextAgrees_next _).mpr (resetAt_agrees hs)
  case powerOnReset straps => exact (nextAgrees_next _).mpr (powerOnAt_agrees hs straps)
  all_goals exact event_agrees hs _

/-! The issue of a chain, for any meaning of words that keeps the clocks in agreement. -/

theorem closeChain_agrees {before after : State} (hb : ClocksAgree before) (ha : ClocksAgree after) (v : View) :
    ClocksAgree (closeChain before after v) := by
  unfold closeChain
  split
  · exact ha
  · split <;> simp [hb, ha]

theorem lateChain_start_agrees {s : State} {core slot leader : Nat} {w : Wave} {c : Cast} {l : Late} {n : NextChain}
    (h : s.lateChain core slot leader w c l = some n) : ClocksAgree n.start ↔ ClocksAgree s := by
  obtain ⟨v, -, rfl⟩ := Option.map_eq_some_iff.mp h
  simp

theorem nextChain_start_agrees {s : State} {core slot leader : Nat} {n : NextChain} (h : s.nextChain core slot leader = some n) :
    ClocksAgree n.start ↔ ClocksAgree s := by
  unfold State.nextChain at h
  split at h
  · cases h
  · split at h
    · split at h
      · cases h
      · split at h
        · exact lateChain_start_agrees h
        · obtain ⟨v, -, rfl⟩ := Option.map_eq_some_iff.mp h
          simp
    · cases h

section
variable {run : Instr → State → Host.Outcome State Fault Refusal} (hrun : ∀ (i : Instr) (s : State), ClocksAgree s → NextAgrees (run i s))
include hrun

theorem runChain_agrees (l : List ChainWord) {s : State} (hs : ClocksAgree s) : NextAgrees (runChain run l s) := by
  induction l generalizing s with
  | nil => simpa [runChain]
  | cons c l ih =>
    unfold runChain
    split
    · simpa
    · next i _ =>
      have hi : ClocksAgree (s.modCur fun q => { q with word := c.addr, pslot := c.slot, raw := c.raw, final := l.isEmpty }) := hs
      split
      · next t ht => exact ih (by simp [hs, hrun _ _ hi t ht])
      · exact hrun _ _ hi

theorem issueChain_agrees (core slot leader : Nat) {s : State} (hs : ClocksAgree s) : NextAgrees (issueChain run core slot leader s) := by
  unfold issueChain
  split
  · simpa
  · next n hn =>
    have hstart : ClocksAgree n.start := (nextChain_start_agrees hn).mpr hs
    split
    · simpa
    · simpa
    · split
      · next t ht => simpa using closeChain_agrees hstart (hrun _ _ hstart t ht) n.view
      · exact hrun _ _ hstart
    · split
      · simpa
      · dsimp only
        split
        · next t ht => simpa using closeChain_agrees hstart (runChain_agrees hrun _ (by simpa) t ht) n.view
        · exact runChain_agrees hrun _ (by simpa)

theorem issueNext_agrees (core slot leader : Nat) {s : State} (hs : ClocksAgree s) : NextAgrees (issueNext run core slot leader s) := by
  have h := issueChain_agrees hrun core slot leader hs
  unfold issueNext
  split
  · next t ht => simpa using h t ht
  · exact h

end

/-! The choice of the next step. -/

/-- A change of the machine's own leads to a state with clocks in agreement; an event and an issue are choices that move no clock. -/
def Choice.Agrees : Choice → Prop
  | .go t => ClocksAgree t
  | .event _ _ | .issue _ _ _ _ => True

/-- A choice that a search may find agrees. -/
def MayAgree (o : Option Choice) : Prop := ∀ c, o = some c → c.Agrees

theorem mayAgree_none : MayAgree none := fun _ h => by cases h

theorem mayAgree_some {c : Choice} (h : c.Agrees) : MayAgree (some c) := fun _ h' => by cases h'; exact h

theorem MayAgree.or {a b : Option Choice} (ha : MayAgree a) (hb : MayAgree b) : MayAgree (a.or b) := by
  cases a with
  | none => exact hb
  | some c => exact ha

theorem mayAgree_map {α : Type} {f : α → Choice} (hf : ∀ x, (f x).Agrees) (o : Option α) : MayAgree (o.map f) := by
  cases o with
  | none => exact mayAgree_none
  | some x => exact mayAgree_some (hf x)

theorem mayAgree_events {α : Type} (f : α → Instr) (p : Package) (o : Option α) : MayAgree (o.map fun x => Choice.event (f x) p) :=
  mayAgree_map (f := fun x => .event (f x) p) (fun _ => trivial) o

theorem mayAgree_findSome? {α : Type} {f : α → Option Choice} (hf : ∀ x, MayAgree (f x)) (l : List α) : MayAgree (l.findSome? f) := by
  intro c hc
  obtain ⟨x, -, hx⟩ := List.exists_of_findSome?_eq_some hc
  exact hf x c hx

theorem mayAgree_ite {p : Prop} [Decidable p] {a b : Option Choice} (ha : MayAgree a) (hb : MayAgree b) : MayAgree (if p then a else b) := by
  split <;> assumption

theorem getD_agrees {o : Option Choice} {c : Choice} (ho : MayAgree o) (hc : c.Agrees) : (o.getD c).Agrees := by
  cases o with
  | none => exact hc
  | some d => exact ho d rfl

theorem takeDue_agrees (k : Clock) (p : Package) (ranks : List Nat) : MayAgree (p.takeDue k ranks) := by
  refine mayAgree_findSome? (fun r => ?_) ranks
  split
  · exact mayAgree_none
  · exact mayAgree_events _ _ _

theorem takeControl_agrees (p : Package) : MayAgree p.takeControl := by
  unfold Package.takeControl
  split
  · exact mayAgree_none
  · exact mayAgree_events _ _ _

theorem takeWrite_agrees (k : Clock) (p : Package) (live : Bool) : MayAgree (p.takeWrite k live) := by
  unfold Package.takeWrite
  dsimp only
  split
  · exact mayAgree_none
  · exact mayAgree_events _ _ _

theorem slotWork_agrees (s : State) (core slot : Nat) : MayAgree (s.slotWork core slot) := by
  unfold State.slotWork
  dsimp only
  split
  · exact mayAgree_none
  · split
    · exact mayAgree_some trivial
    · split
      · exact mayAgree_some trivial
      · exact mayAgree_none

section
variable {s : State} (hs : ClocksAgree s)
include hs

theorem coreWork_agrees (core : Nat) : MayAgree (s.coreWork core) := by
  unfold State.coreWork
  refine mayAgree_ite mayAgree_none (mayAgree_ite (mayAgree_some (beginCycle_agrees hs core)) ?_)
  refine .or ?_ (.or ?_ (.or ?_ ?_))
  · exact mayAgree_ite (mayAgree_events _ _ _) mayAgree_none
  · exact mayAgree_ite (mayAgree_some trivial) mayAgree_none
  · exact mayAgree_findSome? (slotWork_agrees s core) _
  · exact mayAgree_events _ _ _

theorem chooseRunning_agrees : s.chooseRunning.Agrees := by
  have hdue := takeDue_agrees s.clk s.pkg
  have hwrite := takeWrite_agrees s.clk s.pkg
  refine getD_agrees (((((((((((takeControl_agrees s.pkg).or (hwrite true)).or (hdue [0])).or ?epoch).or ?arrive).or ?inject).or (hdue [1, 2, 3])).or
    (hwrite false)).or ?wake).or (((hdue [4]).or ?work).or ?host))) (edge_agrees hs)
  case epoch => exact mayAgree_ite ((hwrite false).or (hdue [5])) mayAgree_none
  case arrive => exact mayAgree_map (f := fun q => .go { s with pkg := q }) (fun _ => hs) _
  case inject | wake => exact mayAgree_events _ _ _
  case work => exact mayAgree_findSome? (coreWork_agrees hs) _
  case host => exact mayAgree_ite (mayAgree_events _ _ _) mayAgree_none

theorem chooseFrozen_agrees : s.chooseFrozen.Agrees := getD_agrees ((takeControl_agrees _).or (takeWrite_agrees _ _ _)) hs

theorem choose_agrees : s.choose.Agrees := by
  unfold State.choose
  split
  · exact chooseFrozen_agrees hs
  · exact chooseRunning_agrees hs

/-! The step. -/

theorem takeTurn_agrees (turn : Turn) : NextAgrees (s.takeTurn turn) := by
  cases turn with
  | event ev =>
    simp only [State.takeTurn]
    split
    · exact exec_agrees hs ev
    · simpa
  | issue core slot leader =>
    simp only [State.takeTurn]
    split
    · exact issueNext_agrees (fun i _ h => exec_agrees h i) core slot leader hs
    · simpa
  | error e => simpa [State.takeTurn]

theorem takeChoice_agrees {c : Choice} (hc : c.Agrees) : NextAgrees (s.takeChoice c) := by
  cases c with
  | event ev p => exact exec_agrees (s := { s with pkg := p }) hs ev
  | issue core slot leader p => exact issueNext_agrees (fun i _ h => exec_agrees h i) core slot leader (s := { s with pkg := p }) hs
  | go t => exact (nextAgrees_next t).mpr hc

theorem step_agrees : NextAgrees (step s) := by
  unfold step
  dsimp only
  split
  · exact takeTurn_agrees (by simpa) _
  · exact takeChoice_agrees (by simpa) (choose_agrees (by simpa))

end

/-- Settles O60: an edge and a run control put the clock where its counters say, and nothing else moves a clock. -/
theorem clockKept : Obligations.ClockKept := by
  unfold Obligations.ClockKept
  exact fun s t hs ht => step_agrees hs t ht

end Sys2Proof.Machine
end

section
/-! SUPPORT. What the accessors of a package say after an update: one lemma for each accessor and update that the statements of the execution model need. -/

namespace Sys2Proof.Machine

/-- An update of a core that keeps its wave slots keeps every wave. -/
theorem wave?_modCore {f : Core → Core} (hf : ∀ x, (f x).ctx.waves = x.ctx.waves) (p : Package) (c c' k : Nat) :
    (p.modCore c f).wave? c' k = p.wave? c' k := by
  simp only [Package.wave?, Package.modCore, modAt_get?]
  split
  · cases p.cores[c']? <;> simp [hf]
  · rfl

/-- An update of a core that keeps its cast slots keeps every cast. -/
theorem cast?_modCore {f : Core → Core} (hf : ∀ x, (f x).ctx.casts = x.ctx.casts) (p : Package) (c c' k : Nat) :
    (p.modCore c f).cast? c' k = p.cast? c' k := by
  simp only [Package.cast?, Package.modCore, modAt_get?]
  split
  · cases p.cores[c']? <;> simp [hf]
  · rfl

theorem wave?_modCtx {f : CoreCtx → CoreCtx} (hf : ∀ x, (f x).waves = x.waves) (p : Package) (c c' k : Nat) :
    (p.modCtx c f).wave? c' k = p.wave? c' k :=
  wave?_modCore (f := fun k => { k with ctx := f k.ctx }) (fun x => hf x.ctx) p c c' k

/-- Who a wave is depends on the waves and the casts alone. -/
theorem keyOf_congr {p q : Package} (hw : ∀ c k, q.wave? c k = p.wave? c k) (hc : ∀ c k, q.cast? c k = p.cast? c k) (c k : Nat) :
    q.keyOf c k = p.keyOf c k := by
  simp only [Package.keyOf, hw, hc]

theorem waveOf?_congr {p q : Package} (hw : ∀ c k, q.wave? c k = p.wave? c k) (hc : ∀ c k, q.cast? c k = p.cast? c k) (key : WaveKey) :
    q.waveOf? key = p.waveOf? key := by
  simp only [Package.waveOf?, keyOf_congr hw hc, hw]

theorem wave?_of_waveOf? {p : Package} {key : WaveKey} {w : Wave} (h : p.waveOf? key = some w) : p.wave? key.core key.slot = some w := by
  unfold Package.waveOf? at h
  split at h
  · exact h
  · cases h

theorem modCore_modCore (p : Package) (c : Nat) (f g : Core → Core) : (p.modCore c f).modCore c g = p.modCore c fun k => g (f k) := by
  simp only [Package.modCore, modAt_modAt]

/-! The first index at which a test holds. -/

theorem findIdx?_eq_none_iff {α : Type} {q : α → Bool} {l : List α} : findIdx? q l = none ↔ ∀ x ∈ l, q x = false := by
  induction l with
  | nil => simp [findIdx?]
  | cons x l ih => cases hq : q x <;> simp [findIdx?, hq, ih]

theorem findIdx?_eq_some_iff {α : Type} {q : α → Bool} {l : List α} {i : Nat} :
    findIdx? q l = some i ↔ (∃ x, l[i]? = some x ∧ q x = true) ∧ ∀ j x, j < i → l[j]? = some x → q x = false := by
  induction l generalizing i with
  | nil => simp [findIdx?]
  | cons y l ih =>
    cases hq : q y with
    | true => cases i with
      | zero => simp [findIdx?, hq]
      | succ i =>
        simp only [findIdx?, hq, if_true, Option.some.injEq, Nat.zero_ne_add_one, false_iff]
        rintro ⟨-, h⟩
        exact absurd (h 0 y (by omega) rfl) (by simp [hq])
    | false => cases i with
      | zero => simp [findIdx?, hq]
      | succ i =>
        simp only [findIdx?, hq, Bool.false_eq_true, if_false, Option.map_eq_some_iff, Nat.add_right_cancel_iff, exists_eq_right, ih,
          List.getElem?_cons_succ]
        refine and_congr_right fun _ => ⟨fun h j x hj hx => ?_, fun h j x hj hx => h (j + 1) x (by omega) hx⟩
        cases j with
        | zero => cases hx; exact hq
        | succ j => exact h j x (by omega) hx

end Sys2Proof.Machine
end

section
/-! SUPPORT. The matrix words, and the array that takes, completes and follows commands (Sys2Proof/Machine/Matrix.lean: R44, R75, R175 to R185). -/

namespace Sys2Proof.Machine

theorem exec_matrixCommandAccept (core : Nat) (s : State) :
    exec (.matrixCommandAccept core) s = .next { s with pkg := matrixAcceptAt core s.clk s.pkg } := rfl

theorem exec_matrixCommandComplete (core : Nat) (s : State) :
    exec (.matrixCommandComplete core) s = .next { s with pkg := matrixCompleteAt core s.clk s.pkg } := rfl

theorem exec_followSlotFire (core fslot : Nat) (s : State) :
    exec (.followSlotFire core fslot) s = .next { s with pkg := followFireAt core fslot s.clk s.pkg } := rfl

theorem exec_mwaitComplete (core slot leader : Nat) (s : State) :
    exec (.mwaitComplete core slot leader) s = .next { s with pkg := mwaitCompleteAt core slot leader s.pkg } := rfl

theorem exec_mdefer (w : MMD) (s : State) : exec (.mdefer w) s = s.word (.mdefer w) fun v s =>
    let cmd := v.command s (.mdefer w.s.toNat w.y.toNat) w.v.toNat w.a.toNat w.b.toNat
    if ((s.pkg.core v.iss.core).ctx.follow.getD w.s.toNat none).isSome then .done (s.sendCommand v cmd)
    else .done ((s.sendCommand v { cmd with armed := true }).modPkg fun p => p.modCtx v.iss.core fun x => x.arm w.s.toNat w.y.toNat cmd) := rfl

theorem exec_mwait (w : C0) (s : State) :
    exec (.mwait w) s = s.word (.mwait w) fun v s => if v.src.commands = 0 then .done s else .block s .mwait := rfl

/-! The words. -/

/-- The package in which a command has joined the X pipe of its bay. -/
def Package.queueCommand (p : Package) (core slot : Nat) (cmd : MmCmd) : Package :=
  p.modCore core fun k => { k with xq := modAt k.xq (slot / 16) fun q => q ++ [cmd] }

theorem sendCommand_pkg (s : State) (v : View) (cmd : MmCmd) : (s.sendCommand v cmd).pkg =
    (s.pkg.queueCommand v.iss.core v.iss.slot cmd).modWave v.iss.core v.iss.slot fun w => { w with commands := w.commands + 1 } := by
  simp only [State.sendCommand, State.onWave, State.modWave, State.modPkg, Package.queueCommand, Package.modWave, Package.modCtx, modCore_modCore]

theorem issuer_now {s : State} {v : View} {i : Instr} (h : Issues s v i) : s.pkg.wave? v.iss.core v.iss.slot = some v.now := (view_spec h.1).2.1

theorem wave?_queueCommand (p : Package) (core slot c k : Nat) (cmd : MmCmd) : (p.queueCommand core slot cmd).wave? c k = p.wave? c k :=
  wave?_modCore (f := fun x => { x with xq := modAt x.xq (slot / 16) fun q => q ++ [cmd] }) (fun _ => rfl) p core c k

theorem sendCommand_performs {s : State} {v : View} {i : Instr} {F : View → State → Out} {cmd : MmCmd} (he : exec i s = s.word i F)
    (h : Issues s v i) (hF : F v s = .done (s.sendCommand v cmd)) :
    Performs s v i false (s.pkg.queueCommand v.iss.core v.iss.slot cmd) { v.now with commands := v.now.commands + 1 } :=
  performs_done he h hF ((wave?_queueCommand ..).trans (issuer_now h)) (sendCommand_pkg s v cmd) rfl rfl rfl

theorem execMatrix_queues {s : State} {v : View} {i : Instr} {kind : MmKind} {acc ta tb : Nat} (he : exec i s = execMatrix i kind acc ta tb s)
    (h : Issues s v i) : QueuesCommand s v i kind acc ta tb :=
  sendCommand_performs he h rfl

/-- The kind that an MDEFER arms (Table 9.2). -/
theorem deferKind_eq (n : Nat) : deferKind n = match n with
    | 0 => .mma
    | 1 => .mmaz
    | n => .mmap (decide (n ≠ 2 ∧ n ≠ 4)) (decide (4 ≤ n)) := by
  match n with
  | 0 | 1 | 2 | 3 | 4 => rfl
  | n + 5 => simp [deferKind]

/-- An MDEFER that finds its follow slot free arms it as it issues (R409). -/
theorem mdefer_arms {s : State} {v : View} {w : MMD} (h : Issues s v (.mdefer w))
    (hs : (s.pkg.core v.iss.core).ctx.follow.getD w.s.toNat none = none) :
    let cmd := v.command s (.mdefer w.s.toNat w.y.toNat) w.v.toNat w.a.toNat w.b.toNat
    Performs s v (.mdefer w) false
      ((s.pkg.queueCommand v.iss.core v.iss.slot { cmd with armed := true }).modCtx v.iss.core fun x => x.arm w.s.toNat w.y.toNat cmd)
      { v.now with commands := v.now.commands + 1 } := by
  intro cmd
  refine performs_done (f := fun u => { u with commands := u.commands + 1 }) (exec_mdefer w s) h (if_neg (by simp only [hs, Option.isSome_none, Bool.false_eq_true, not_false_eq_true])) ?_ ?_ rfl rfl rfl
  · rw [wave?_modCtx (f := fun x => x.arm w.s.toNat w.y.toNat cmd) (fun _ => rfl), wave?_queueCommand, issuer_now h]
  · simp only [State.modPkg, sendCommand_pkg, Package.modWave, Package.modCtx, modCore_modCore, CoreCtx.arm, cmd]

/-- MWAIT waits for no command, or for those that its wave has outstanding (R185). -/
theorem mwait_performs {s : State} {v : View} {w : C0} (h : Issues s v (.mwait w)) (hc : v.src.commands = 0) :
    Performs s v (.mwait w) false s.pkg v.now :=
  performs_done (f := fun u => u) (exec_mwait w s) h (if_pos hc) (issuer_now h) (modWave_id _ _ _).symm rfl rfl rfl

theorem mwait_waits {s : State} {v : View} {w : C0} (h : Issues s v (.mwait w)) (hc : v.src.commands ≠ 0) (hl : v.iss.leader < v.now.slices.length) :
    Waits s v (.mwait w) s.pkg v.now .mwait :=
  waits_block (f := fun u => u) (exec_mwait w s) h (if_neg hc) (issuer_now h) (modWave_id _ _ _).symm rfl rfl rfl hl

theorem EndsWhen.congr {i : Nat → Nat → Nat → Instr} {op : BlockOp} {P Q : Wave → Prop} (h : EndsWhen i op P) (e : ∀ w, P w ↔ Q w) : EndsWhen i op Q := by
  intro s core slot leader w b hw hb hop
  simpa only [e] using h s core slot leader w b hw hb hop

theorem mwaitComplete_endsWhen : EndsWhen .mwaitComplete .mwait fun w => w.commands = 0 := by
  intro s core slot leader w b hw hb hop
  obtain ⟨op, word, slices, resume, count, late⟩ := b
  obtain rfl : op = .mwait := hop
  constructor
  · intro hc
    simp only [exec_mwaitComplete, mwaitCompleteAt, hw, hb, hc, if_false]
  · intro hc
    refine ⟨w.endWait leader, ?_, goesOn_endWait w leader _ hb⟩
    simp only [OnWave, exec_mwaitComplete, mwaitCompleteAt, hw, hb, hc, if_true]
    rw [modWave_const _ _ _ _ _ hw]

end Sys2Proof.Machine
end

section
namespace Sys2Proof.Machine

/-! The rotation (R44). -/

theorem slotBay_spec {waiting special : Nat → Bool} {ptr s b : Nat} (hs : s < 5) (h : slotBay waiting special ptr s = some b) :
    b < 4 ∧ (waiting b = true ∨ special b = true) := by
  unfold slotBay at h
  split at h
  · have hb := List.mem_of_find?_eq_some h
    simp only [List.mem_map, List.mem_range] at hb
    obtain ⟨i, -, rfl⟩ := hb
    exact ⟨Nat.mod_lt _ (by omega), .inr (List.find?_some h)⟩
  · next h4 =>
    split at h
    · next hw =>
      cases h
      exact ⟨by have : s ≠ 4 := h4; omega, .inl hw⟩
    · cases h

theorem grantBay_eq_none {waiting special : Nat → Bool} (hw : ∀ b, b < 4 → waiting b = false) (hs : ∀ b, b < 4 → special b = false) (cyc ptr : Nat) :
    grantBay cyc waiting special ptr = none := by
  simp only [grantBay, List.findSome?_eq_none_iff, List.mem_map, List.mem_range, Option.map_eq_none_iff]
  rintro s ⟨i, -, rfl⟩
  cases h : slotBay waiting special ptr ((cyc + i) % 5) with
  | none => rfl
  | some b =>
    obtain ⟨hb, h | h⟩ := slotBay_spec (Nat.mod_lt _ (by omega)) h
    · simp [hw b hb] at h
    · simp [hs b hb] at h

/-- The rotation grants the one bay that waits, whatever the slot of the cycle. -/
theorem grantBay_of_only {waiting special : Nat → Bool} {bay : Nat} (hb : bay < 4) (hbay : waiting bay = true)
    (hw : ∀ b, b < 4 → b ≠ bay → waiting b = false) (hs : ∀ b, b < 4 → b ≠ bay → special b = false) (cyc ptr : Nat) :
    ∃ ptr', grantBay cyc waiting special ptr = some (bay, ptr') := by
  cases h : grantBay cyc waiting special ptr with
  | none =>
    simp only [grantBay, List.findSome?_eq_none_iff, List.mem_map, List.mem_range, Option.map_eq_none_iff] at h
    have := h bay ⟨(bay + 4 * (cyc % 5)) % 5, Nat.mod_lt _ (by omega), by omega⟩
    rw [slotBay, if_pos hbay] at this
    · cases this
    · exact fun h4 => by omega
  | some r =>
    obtain ⟨s, hs', hr⟩ := List.exists_of_findSome?_eq_some h
    simp only [List.mem_map, List.mem_range] at hs'
    obtain ⟨i, -, rfl⟩ := hs'
    obtain ⟨b, hsb, rfl⟩ := Option.map_eq_some_iff.1 hr
    obtain ⟨hb4, hor⟩ := slotBay_spec (Nat.mod_lt _ (by omega)) hsb
    obtain rfl : b = bay := by
      by_contra hne
      rcases hor with hor | hor
      · simp [hw b hb4 hne] at hor
      · simp [hs b hb4 hne] at hor
    exact ⟨_, rfl⟩

/-! The array takes, completes and follows. -/

theorem arrayRoom_iff (k : Core) (cyc : Nat) :
    k.arrayRoom cyc = true ↔ (k.arrayQ.filter fun m => cyc < m.start + m.steps).length < 5 ∧ k.arrayAt ≠ cyc + 1 := by
  simp only [Core.arrayRoom, Bool.and_eq_true, decide_eq_true_eq]

theorem matrixAcceptAt_full {core : Nat} {k : Clock} {p : Package} (h : ¬ (p.core core).arrayRoom (k.cycleOf (companyOf core)) = true) :
    matrixAcceptAt core k p = p := by
  simp only [matrixAcceptAt, h, Bool.not_false, if_true]

theorem xhead_eq_none {k : Core} {b : Nat} (h : k.xq.getD b [] = []) : k.xhead b = none := by rw [Core.xhead, h]; rfl

theorem matrixAcceptAt_empty {core : Nat} {k : Clock} {p : Package} (h : ∀ b, b < 4 → (p.core core).xq.getD b [] = []) :
    matrixAcceptAt core k p = p := by
  have hn : ∀ b, b < 4 → (p.core core).xhead b = none := fun b hb => xhead_eq_none (h b hb)
  have hg := grantBay_eq_none (waiting := fun b => ((p.core core).xhead b).isSome)
    (special := fun b => ((p.core core).xhead b).any fun m => (p.waveOf? m.key).any fun w => w.role = .matrix)
    (fun b hb => by simp [hn b hb]) (fun b hb => by simp [hn b hb]) (k.cycleOf (companyOf core)) (p.core core).mmPtr
  simp only [matrixAcceptAt, hg, ite_self]

/-- The array takes the head command of the one bay that has one (R44). -/
theorem matrixAcceptAt_only {core bay : Nat} {k : Clock} {p : Package} {cmd : MmCmd} (hr : (p.core core).arrayRoom (k.cycleOf (companyOf core)) = true)
    (hb : bay < 4) (hh : (p.core core).xhead bay = some cmd) (ho : ∀ b, b < 4 → b ≠ bay → (p.core core).xq.getD b [] = []) :
    ∃ ptr, matrixAcceptAt core k p =
      (p.modCore core fun c => { c with xq := modAt c.xq bay List.tail, mmPtr := ptr, arrayAt := k.cycleOf (companyOf core) + 1 }).takeCommand core
        (k.cycleOf (companyOf core)) cmd := by
  have hn : ∀ b, b < 4 → b ≠ bay → (p.core core).xhead b = none := fun b hb hne => xhead_eq_none (ho b hb hne)
  obtain ⟨ptr, hg⟩ := grantBay_of_only (waiting := fun b => ((p.core core).xhead b).isSome)
    (special := fun b => ((p.core core).xhead b).any fun m => (p.waveOf? m.key).any fun w => w.role = .matrix) hb (by simp [hh])
    (fun b hb hne => by simp [hn b hb hne]) (fun b hb hne => by simp [hn b hb hne]) (k.cycleOf (companyOf core)) (p.core core).mmPtr
  exact ⟨ptr, by simp only [matrixAcceptAt, hr, hg, hh, Bool.not_true, Bool.false_eq_true, if_false]⟩

/-- Nothing completes while every command of the array still runs. -/
theorem matrixCompleteAt_none {core : Nat} {k : Clock} {p : Package} (h : ∀ m ∈ (p.core core).arrayQ, k.cycleOf (companyOf core) < m.done) :
    matrixCompleteAt core k p = p := by
  have hf : findIdx? (fun m : MmCmd => decide (m.done ≤ k.cycleOf (companyOf core))) (p.core core).arrayQ = none :=
    findIdx?_eq_none_iff.2 fun m hm => by simpa using h m hm
  simp only [matrixCompleteAt, hf, Option.bind_none]

/-- Writing scratchpad bytes and their full-empty bits leaves the rest of a core's context. -/
theorem landSave_scratch (x : CoreCtx) (cmd : MmCmd) : ScratchChange x (x.landSave cmd) := by
  unfold CoreCtx.landSave
  split
  · dsimp only
    rw [foldFe_rest]
    rfl
  · rfl

theorem landSave_waves (x : CoreCtx) (cmd : MmCmd) : (x.landSave cmd).waves = x.waves := by rw [landSave_scratch x cmd]

theorem landSave_casts (x : CoreCtx) (cmd : MmCmd) : (x.landSave cmd).casts = x.casts := by rw [landSave_scratch x cmd]

/-- The package after a command has left the array, its save area written (R183, R184). -/
def Package.commandLeaves (p : Package) (core i : Nat) (cmd : MmCmd) : Package :=
  p.modCore core fun c => { c with arrayQ := c.arrayQ.eraseIdx i, ctx := c.ctx.landSave cmd }

theorem wave?_commandLeaves (p : Package) (core i : Nat) (cmd : MmCmd) (c k : Nat) : (p.commandLeaves core i cmd).wave? c k = p.wave? c k :=
  wave?_modCore (fun x => landSave_waves x.ctx cmd) p core c k

theorem cast?_commandLeaves (p : Package) (core i : Nat) (cmd : MmCmd) (c k : Nat) : (p.commandLeaves core i cmd).cast? c k = p.cast? c k :=
  cast?_modCore (fun x => landSave_casts x.ctx cmd) p core c k

/-- The oldest command whose time has come is complete (R183, R353). -/
theorem matrixCompleteAt_done {core i : Nat} {k : Clock} {p : Package} {cmd : MmCmd} {w : Wave} (hi : (p.core core).arrayQ[i]? = some cmd)
    (hd : cmd.done ≤ k.cycleOf (companyOf core)) (ho : ∀ j m, j < i → (p.core core).arrayQ[j]? = some m → k.cycleOf (companyOf core) < m.done)
    (hw : p.waveOf? cmd.key = some w) :
    ∃ prio, matrixCompleteAt core k p =
      ((p.commandLeaves core i cmd).modWave core cmd.key.slot Wave.commandOver).charge core w.cast prio cmd.charge := by
  have hf : findIdx? (fun m : MmCmd => decide (m.done ≤ k.cycleOf (companyOf core))) (p.core core).arrayQ = some i :=
    findIdx?_eq_some_iff.2 ⟨⟨cmd, hi, by simpa using hd⟩, fun j m hj hm => by simpa using ho j m hj hm⟩
  have hq : (p.commandLeaves core i cmd).waveOf? cmd.key = some w :=
    (waveOf?_congr (wave?_commandLeaves p core i cmd) (cast?_commandLeaves p core i cmd) _).trans hw
  refine ⟨(((p.commandLeaves core i cmd).cast? core w.cast).map Cast.prio).getD 0, ?_⟩
  unfold Package.commandLeaves at *
  simp only [matrixCompleteAt, hf, Option.bind_some, hi, Option.map_some, hq]

theorem followFireAt_none {core fslot : Nat} {k : Clock} {p : Package} (h : (p.core core).ctx.follow.getD fslot none = none) :
    followFireAt core fslot k p = p := by
  simp only [followFireAt, h]

/-- An armed slot fires into an array with room, and is free (R182). -/
theorem followFireAt_room {core fslot : Nat} {k : Clock} {p : Package} {f : Follow} (h : (p.core core).ctx.follow.getD fslot none = some f)
    (hr : (p.core core).arrayRoom (k.cycleOf (companyOf core)) = true) : followFireAt core fslot k p =
      (p.modCore core fun c => { c with arrayAt := k.cycleOf (companyOf core) + 1, ctx := { c.ctx with follow := setAt c.ctx.follow fslot none } }).takeCommand
        core (k.cycleOf (companyOf core)) f.cmd := by
  simp only [followFireAt, h, hr, Bool.not_true, Bool.false_eq_true, if_false]

theorem followFireAt_full {core fslot : Nat} {k : Clock} {p : Package} {f : Follow} (h : (p.core core).ctx.follow.getD fslot none = some f)
    (hr : ¬ (p.core core).arrayRoom (k.cycleOf (companyOf core)) = true) : followFireAt core fslot k p =
      (p.modCtx core fun x => { x with follow := setAt x.follow fslot (some { f with fired := true }) }).later
        (.company (companyOf core) (k.cycleOf (companyOf core) + 1)) (.followSlotFire core fslot) := by
  simp only [followFireAt, h, hr, Bool.not_false, if_true]

end Sys2Proof.Machine

open Sys2Proof Sys2Proof.Machine in
/-- Settles O27: each word by the command that it queues, and each event by what the array makes of its commands. -/
theorem matrixWordsAndArray : Obligations.MatrixWordsAndArray := by
  refine ⟨fun s v w h => execMatrix_queues rfl h, fun s v w h => execMatrix_queues rfl h, fun s v w h => execMatrix_queues rfl h, ?_,
    fun s v w h => execMatrix_queues rfl h, fun s v w h => execMatrix_queues rfl h,
    fun s v w h => ⟨mwait_performs h, mwait_waits h⟩, mwaitComplete_endsWhen.congr fun _ => (and_iff_left ⟨?_, ?_, ?_⟩).symm⟩
  · intro s v w h
    refine ⟨fun hs => sendCommand_performs (exec_mdefer w s) h (if_pos (Option.isSome_iff_ne_none.2 hs)), fun hs => ?_⟩
    have := mdefer_arms h hs
    simp only [CoreCtx.arm, deferKind_eq] at this
    exact this
  · intro s core bay cmd
    refine ⟨fun hr => ?_, fun he => ?_, fun hr hb hh ho => ?_⟩
    · rw [exec_matrixCommandAccept, matrixAcceptAt_full (mt (arrayRoom_iff _ _).1 hr)]
    · rw [exec_matrixCommandAccept, matrixAcceptAt_empty he]
    · obtain ⟨ptr, hp⟩ := matrixAcceptAt_only ((arrayRoom_iff _ _).2 hr) hb hh ho
      exact ⟨ptr, by rw [exec_matrixCommandAccept, hp]; rfl⟩
  · intro s core
    refine ⟨fun hn => by rw [exec_matrixCommandComplete, matrixCompleteAt_none hn], fun i cmd w hi hd ho hk hw => ?_⟩
    obtain ⟨prio, hp⟩ := matrixCompleteAt_done hi hd ho hw
    have hlt : core < s.pkg.cores.length := hk ▸ core_lt_of_wave? (wave?_of_waveOf? hw)
    have hq : core < (s.pkg.commandLeaves core i cmd).cores.length := by rwa [Package.commandLeaves, cores_modCore]
    have hcore : (s.pkg.commandLeaves core i cmd).core core = { s.pkg.core core with arrayQ := (s.pkg.core core).arrayQ.eraseIdx i, ctx := (s.pkg.core core).ctx.landSave cmd } :=
      core_modCore_self _ _ _ hlt
    refine ⟨_, by rw [exec_matrixCommandComplete, hp], ?_, ?_, ?_, ?_⟩
    · rw [core_charge_self _ _ _ _ _ (by rwa [cores_modWave]), core_modWave_self _ _ _ _ hq, hcore]
    · rw [core_charge_self _ _ _ _ _ (by rwa [cores_modWave]), core_modWave_self _ _ _ _ hq, hcore]
    · rw [core_charge_self _ _ _ _ _ (by rwa [cores_modWave]), core_modWave_self _ _ _ _ hq, hcore]
    · rw [wave?_charge, wave?_modWave, if_pos ⟨rfl, rfl⟩, wave?_commandLeaves, ← hk, wave?_of_waveOf? hw]
      rfl
  · intro s core fslot
    refine ⟨fun hn => by rw [exec_followSlotFire, followFireAt_none hn], fun f hf hr => ?_, fun f hf hr => ?_⟩
    · rw [exec_followSlotFire, followFireAt_room hf ((arrayRoom_iff _ _).2 hr)]
      rfl
    · rw [exec_followSlotFire, followFireAt_full hf (mt (arrayRoom_iff _ _).1 hr)]
      rfl
end

section
/-! SUPPORT. Partitions and nodes after an update, and what a write to memory leaves alone (Sys2Proof/Machine/Memory.lean, Cue.lean). -/

namespace Sys2Proof.Machine

/-! Tables keyed by a number. -/

theorem tabGet_tabSet {α : Type} (l : List (Nat × α)) (k j : Nat) (x : α) : tabGet (tabSet l k x) j = if j = k then some x else tabGet l j := by
  induction l with
  | nil => simp [tabSet, tabGet]
  | cons e l ih =>
    obtain ⟨i, y⟩ := e
    unfold tabSet
    split
    · simp [tabGet]
    · split
      · next h =>
        subst h
        simp only [tabGet]
        split <;> rfl
      · simp only [tabGet, ih]
        split
        · next h => subst h; rw [if_neg (fun e => by simp_all)]
        · rfl

/-! Partitions and nodes. -/

theorem part_modPart (p : Package) (k j : Nat) (f : Partition → Partition) :
    (p.modPart k f).part j = if j = k ∧ k < p.parts.length then f (p.part k) else p.part j := by
  simp only [Package.part, Package.modPart]
  split
  · next h =>
    obtain ⟨rfl, h⟩ := h
    exact modAt_getD_self _ _ _ _ h
  · next h =>
    simp only [List.getD_eq_getElem?_getD, modAt_get?]
    split
    · next hk =>
      subst hk
      rw [List.getElem?_eq_none (by simpa using h)]
      rfl
    · rfl

theorem parts_modPart_length (p : Package) (k : Nat) (f : Partition → Partition) : (p.modPart k f).parts.length = p.parts.length := modAt_length _ _ _

theorem part_of_length_le {p : Package} {k : Nat} (h : p.parts.length ≤ k) : p.part k = {} := by
  rw [Package.part, List.getD_eq_getElem?_getD, List.getElem?_eq_none h]
  rfl

/-- A partition changed as it stands is changed to a value. -/
theorem modPart_const (p : Package) (k : Nat) (f g : Partition → Partition) (h : f (p.part k) = g (p.part k)) : p.modPart k f = p.modPart k g := by
  simp only [Package.modPart]
  congr 1
  apply List.ext_getElem?
  intro n
  rw [modAt_get?, modAt_get?]
  split
  · next hn =>
    subst hn
    cases hx : p.parts[n]? with
    | none => rfl
    | some q =>
      have hq : p.part n = q := by rw [Package.part, List.getD_eq_getElem?_getD, hx]; rfl
      rw [hq] at h
      simp only [Option.map_some, h]
  · rfl

theorem node_modNode (p : Package) (k node j m : Nat) (f : Node → Node) :
    (p.modNode k node f).node j m = if j = k ∧ m = node ∧ k < p.parts.length then f (p.node k node) else p.node j m := by
  by_cases hj : j = k ∧ k < p.parts.length
  · obtain ⟨rfl, hlt⟩ := hj
    simp only [Package.node, Package.modNode, part_modPart, hlt, and_self, if_true, tabGet_tabSet, true_and, and_true]
    split <;> rfl
  · rw [if_neg (fun h => hj ⟨h.1, h.2.2⟩)]
    simp only [Package.node, Package.modNode, part_modPart, if_neg hj]

theorem node_modNode_self {p : Package} {k : Nat} (h : k < p.parts.length) (node : Nat) (f : Node → Node) :
    (p.modNode k node f).node k node = f (p.node k node) := by
  rw [node_modNode, if_pos ⟨rfl, rfl, h⟩]

/-- The node of a partition that is not there is an entry never written. -/
theorem lt_parts_of_node_valid {p : Package} {k node : Nat} (h : (p.node k node).valid = true) : k < p.parts.length := by
  by_contra hk
  rw [Package.node, part_of_length_le (Nat.le_of_not_lt hk)] at h
  change Node.valid {} = true at h
  exact absurd h (by decide)

/-- A change of a node writes it back as a whole. -/
theorem modNode_withNode (s : State) (k node : Nat) (f : Node → Node) :
    { s with pkg := s.pkg.modNode k node f } = WithNode s k node (f (s.pkg.node k node)) := by
  simp only [WithNode, Package.modNode]
  rw [modPart_const s.pkg k _ (fun q => { q with nodes := tabSet q.nodes node (f (s.pkg.node k node)) }) rfl]

/-! What a write to memory leaves alone. -/

/-- Beside memory and its homes, the package is as before: no partition but for its journal, and what was due is due. -/
structure MemoryOnly (p q : Package) : Prop where
  rest : q = { p with companies := q.companies, vaults := q.vaults, parts := q.parts, dram := q.dram, dramPoison := q.dramPoison,
                      dramErr := q.dramErr, errors := q.errors, due := q.due }
  nparts : q.parts.length = p.parts.length
  part : ∀ k, q.part k = { p.part k with recovery := (q.part k).recovery }
  due : ∃ l, q.due = p.due ++ l

theorem MemoryOnly.refl (p : Package) : MemoryOnly p p := ⟨rfl, rfl, fun _ => rfl, [], (List.append_nil _).symm⟩

theorem MemoryOnly.trans {p q r : Package} (h1 : MemoryOnly p q) (h2 : MemoryOnly q r) : MemoryOnly p r := by
  refine ⟨?_, h2.nparts.trans h1.nparts, fun k => ?_, ?_⟩
  · have h := h2.rest
    rw [h1.rest] at h
    exact h
  · have h := h2.part k
    rw [h1.part k] at h
    exact h
  · obtain ⟨a, ha⟩ := h1.due
    obtain ⟨b, hb⟩ := h2.due
    exact ⟨a ++ b, by rw [hb, ha, List.append_assoc]⟩

/-- A change that leaves every partition as it is. -/
theorem MemoryOnly.of_parts {p q : Package} (h : q = { p with companies := q.companies, vaults := q.vaults, dram := q.dram, dramPoison := q.dramPoison, dramErr := q.dramErr, errors := q.errors, due := q.due })
    (hd : ∃ l, q.due = p.due ++ l) : MemoryOnly p q := by
  have hp : q.parts = p.parts := by rw [h]
  refine ⟨?_, by rw [hp], fun k => ?_, hd⟩
  · rw [hp]; exact h
  · simp only [Package.part, hp]

theorem MemoryOnly.modCompany (p : Package) (m : Nat) (f : Company → Company) : MemoryOnly p (p.modCompany m f) :=
  .of_parts rfl ⟨[], (List.append_nil _).symm⟩

theorem MemoryOnly.modVault (p : Package) (v : Nat) (f : Vault → Vault) : MemoryOnly p (p.modVault v f) :=
  .of_parts rfl ⟨[], (List.append_nil _).symm⟩

theorem MemoryOnly.later (p : Package) (t : DueAt) (e : Instr) : MemoryOnly p (p.later t e) := .of_parts rfl ⟨_, rfl⟩

theorem MemoryOnly.count (p : Package) (i m : Nat) : MemoryOnly p (p.count i m) := .of_parts rfl ⟨[], (List.append_nil _).symm⟩

theorem MemoryOnly.writeSector (p : Package) (x : Line) (h : Nat) : MemoryOnly p (p.writeSector x h) :=
  .of_parts rfl ⟨[], (List.append_nil _).symm⟩

theorem MemoryOnly.ite {p q r : Package} {c : Prop} [Decidable c] (h1 : MemoryOnly p q) (h2 : MemoryOnly p r) : MemoryOnly p (if c then q else r) := by
  split
  · exact h1
  · exact h2

/-- A change of a partition's recovery state alone. -/
theorem MemoryOnly.modRecovery (p : Package) (k : Nat) (f : Recovery → Recovery) :
    MemoryOnly p (p.modPart k fun q => { q with recovery := f q.recovery }) := by
  refine ⟨rfl, parts_modPart_length _ _ _, fun j => ?_, [], (List.append_nil _).symm⟩
  rw [part_modPart]
  split
  · next h => rw [h.1]
  · rfl

theorem MemoryOnly.foldl {α : Type} {f : Package → α → Package} (h : ∀ p a, MemoryOnly p (f p a)) (l : List α) (p : Package) : MemoryOnly p (l.foldl f p) :=
  List.foldlRecOn (motive := MemoryOnly p) l f (.refl p) fun q hq a _ => hq.trans (h q a)

theorem MemoryOnly.journal (p : Package) (part line : Nat) : MemoryOnly p (p.journal part line) := by
  unfold Package.journal
  dsimp only
  split
  · have h := (MemoryOnly.modRecovery p part fun r => { r with journal := r.journal ++ [{ line := line, old := (p.lineNow line).data, poison := (p.lineNow line).poison }] }).trans (.modCompany _ (p.homeOf line) fun k => { k with filter := k.filter ++ [(part, line)] })
    exact .ite (h.trans (.modRecovery _ part fun r => { r with requested := true })) h
  · exact .refl p

theorem MemoryOnly.errorReaches (p : Package) (part unit : Nat) : MemoryOnly p (p.errorReaches part unit) := .ite (.later ..) (.refl p)

theorem MemoryOnly.decodeBlock (p : Package) (part sector : Nat) : MemoryOnly p (p.decodeBlock part sector) := by
  unfold Package.decodeBlock
  dsimp only
  split
  · exact .refl p
  · exact .count ..
  · exact (MemoryOnly.count ..).trans (.errorReaches ..)

theorem MemoryOnly.queueWrite (p : Package) (part : Nat) (x : Line) : MemoryOnly p (p.queueWrite part x) :=
  .ite (.refl p) ((MemoryOnly.modVault ..).trans (.later ..))

theorem MemoryOnly.writeBack (p : Package) (part : Nat) (x : Line) : MemoryOnly p (p.writeBack part x) := by
  unfold Package.writeBack
  have h0 := MemoryOnly.ite (c := x.dirty.getLsbD 0 = true) (.writeSector p x 0) (.refl p)
  dsimp only
  exact (h0.trans (.ite (.writeSector ..) (.refl _))).trans (.queueWrite ..)

theorem MemoryOnly.touchLine (p : Package) (part line : Nat) : MemoryOnly p (p.touchLine part line) := by
  unfold Package.touchLine
  dsimp only
  split
  · exact .ite (.modCompany ..) (.refl p)
  · refine .ite (.refl p) (MemoryOnly.trans ?_ (.modCompany ..))
    have hd := (MemoryOnly.decodeBlock p part (sectorOf line 0)).trans (.decodeBlock _ part (sectorOf line 1))
    split
    · exact hd.trans (.writeBack ..)
    · exact hd

theorem MemoryOnly.putLine (p : Package) (x : Line) : MemoryOnly p (p.putLine x) := by
  unfold Package.putLine
  dsimp only
  split
  · exact .modCompany ..
  · exact (MemoryOnly.writeSector ..).trans (.writeSector ..)

theorem MemoryOnly.storeLine (p : Package) (part line : Nat) (bytes : List (Nat × Byte)) : MemoryOnly p (p.storeLine part line bytes) :=
  (((MemoryOnly.journal ..).trans (.modCompany ..)).trans (.touchLine ..)).trans (.putLine ..)

theorem MemoryOnly.storeBytes (p : Package) (part : Nat) (bytes : List (Nat × Byte)) : MemoryOnly p (p.storeBytes part bytes) :=
  .foldl (fun _ _ => .storeLine ..) _ p

theorem MemoryOnly.agentWrite (p : Package) (part va : Nat) (l : List Byte) : MemoryOnly p (p.agentWrite part va l) :=
  .ite (.later ..) (.storeBytes ..)

section
variable {p q : Package} (h : MemoryOnly p q)
include h

theorem MemoryOnly.node (k n : Nat) : q.node k n = p.node k n := by
  unfold Package.node
  rw [h.part k]

theorem MemoryOnly.dcAt (k n : Nat) : q.dcAt k n = p.dcAt k n := by
  unfold Package.dcAt
  rw [h.part k]

theorem MemoryOnly.cores : q.cores = p.cores := by rw [h.rest]

theorem MemoryOnly.casts : q.casts = p.casts := by rw [h.rest]

theorem MemoryOnly.cueIn : q.cueIn = p.cueIn := by rw [h.rest]

theorem MemoryOnly.dcIn : q.dcIn = p.dcIn := by rw [h.rest]

theorem MemoryOnly.answers : q.answers = p.answers := by rw [h.rest]

theorem MemoryOnly.tickets : q.tickets = p.tickets := by rw [h.rest]

end

end Sys2Proof.Machine
end

section
/-! SUPPORT. The cue unit, the dependence counters, batches, retirement and the node table (Sys2Proof/Machine/Cue.lean: R39, R40, R305 to R309, R327,
R363, R379 to R382). -/

namespace Sys2Proof.Machine

theorem exec_cueAppend (s : State) : exec .cueAppend s = .next { s with pkg := cueAppendAt s.clk s.pkg } := rfl

theorem exec_dcUpdate (s : State) : exec .dcUpdate s = .next { s with pkg := dcUpdateAt s.clk s.pkg } := rfl

theorem exec_batchFormation (part node : Nat) (s : State) :
    exec (.batchFormation part node) s = .next { s with pkg := batchFormationAt part node s.clk s.pkg } := rfl

theorem exec_nodeRetirement (part node : Nat) (s : State) :
    exec (.nodeRetirement part node) s = .next { s with pkg := nodeRetirementAt part node s.clk s.pkg } := rfl

theorem exec_cuePush (k node : Nat) (data : List Byte) (s : State) :
    exec (.cuePush k node data) s = .next { s with pkg := s.pkg.hostCue s.clk k node data } := rfl

theorem exec_cueClose (k node : Nat) (x : Quad) (s : State) :
    exec (.cueClose k node x) s = .next { s with pkg := cueCloseAt k node x s.clk s.pkg } := rfl

theorem exec_nodeCommit (k node : Nat) (x : Quad) (s : State) : exec (.nodeCommit k node x) s = .next { s with pkg := nodeCommitAt k node x s.pkg } := rfl

theorem exec_nodeWithdraw (k node : Nat) (s : State) : exec (.nodeWithdraw k node) s = .next { s with pkg := nodeWithdrawAt k node s.pkg } := rfl

theorem exec_nodeEntryWrite (k node off : Nat) (x : Quad) (s : State) :
    exec (.nodeEntryWrite k node off x) s = .next { s with pkg := nodeEntryWriteAt k node off x s.pkg } := rfl

theorem exec_nodercClear (k node : Nat) (s : State) :
    exec (.nodercClear k node) s = .next { s with pkg := s.pkg.modNode k node fun n => { n with noderc := 0 } } := rfl

/-! A record enters a queue (R39, R305). -/

/-- The check of a node schedules at most its next batch and its retirement (R308). -/
theorem checkNode_memoryOnly (t : Clock) (p : Package) (k node : Nat) : MemoryOnly p (p.checkNode t k node) := by
  unfold Package.checkNode
  have h := MemoryOnly.ite (c := (p.batchSize k node = 0 || p.due.contains { at_ := .mesh (t.mcyc + 1), ev := .batchFormation k node }) = true) (.refl p)
    (.later p (.mesh (t.mcyc + 1)) (.batchFormation k node))
  exact .ite (h.trans (.later ..)) h

/-- A node that has received a record: a launch starts where none was open (R39). -/
def Node.received (n : Node) : Node :=
  let n := if n.open_ then n
    else { n with open_ := true, retired := false, launchid := n.launches, launches := n.launches + 1, batches := 0 }
  { n with cqtail := n.cqtail + 1 }

theorem Node.received_spec (n : Node) : n.received.cqtail = n.cqtail + 1 ∧ n.received.open_ = true ∧ n.received.cqhead = n.cqhead
    ∧ n.received.cqdrop = n.cqdrop ∧ n.received.launchid = if n.open_ then n.launchid else n.launches := by
  unfold Node.received
  cases h : n.open_ <;> simp [h]

theorem append_eq (t : Clock) (p : Package) (k node : Nat) (record : List Byte) : p.append t k node record =
    ((p.agentWrite k ((p.node k node).slotVa (p.node k node).cqtail.toNat) (record.take (p.node k node).recsz)).modNode k node Node.received).checkNode
      t k node := rfl

/-- An append writes memory and its node: what the cue unit holds beside stays. -/
theorem append_kept (t : Clock) (p : Package) (k node : Nat) (record : List Byte) :
    (p.append t k node record).cueIn = p.cueIn ∧ (p.append t k node record).answers = p.answers := by
  have hw := MemoryOnly.agentWrite p k ((p.node k node).slotVa (p.node k node).cqtail.toNat) (record.take (p.node k node).recsz)
  rw [append_eq]
  exact ⟨(checkNode_memoryOnly ..).cueIn.trans hw.cueIn, (checkNode_memoryOnly ..).answers.trans hw.answers⟩

theorem node_append {p : Package} {k : Nat} (h : k < p.parts.length) (t : Clock) (node : Nat) (record : List Byte) :
    (p.append t k node record).node k node = (p.node k node).received := by
  have hw := MemoryOnly.agentWrite p k ((p.node k node).slotVa (p.node k node).cqtail.toNat) (record.take (p.node k node).recsz)
  rw [append_eq, (checkNode_memoryOnly ..).node, node_modNode_self (hw.nparts ▸ h), hw.node]

/-! Arrivals at the cue unit (R306, R307). -/

theorem filter_later_eq_self {α : Type} {l : List (Nat × α)} {n : Nat} (h : ∀ a ∈ l, n < a.1) : (l.filter fun a => n < a.1) = l :=
  List.filter_eq_self.2 fun a ha => decide_eq_true (h a ha)

theorem filter_here_eq_nil {α : Type} {l : List (Nat × α)} {n : Nat} (h : ∀ a ∈ l, n < a.1) : (l.filter fun a => a.1 ≤ n) = [] :=
  List.filter_eq_nil_iff.2 fun a ha => by simpa using h a ha

theorem cueAppendAt_none {t : Clock} {p : Package} (h : ∀ a ∈ p.cueIn, t.mcyc < a.1) : cueAppendAt t p = p := by
  simp only [cueAppendAt, filter_here_eq_nil h, filter_later_eq_self h]
  rfl

theorem cueAppendAt_one {t : Clock} {p : Package} {at_ : Nat} {a : CueArrival} (h : at_ ≤ t.mcyc) (hc : p.cueIn = [(at_, a)]) :
    cueAppendAt t p = ({ p with cueIn := [] } : Package).takeCue t a := by
  have h1 : (p.cueIn.filter fun a => a.1 ≤ t.mcyc) = [(at_, a)] := by simp [hc, h]
  have h2 : (p.cueIn.filter fun a => t.mcyc < a.1) = [] := by simp [hc, h]
  simp only [cueAppendAt, h1, h2]
  rfl

/-- The status of a CUEEMIT in the terms of R306: a node without producers has this one not among them. -/
theorem emitStatus_eq (p : Package) (part from_ : Nat) (node : Quad) :
    let n := p.node part node.toNat
    p.emitStatus part from_ node =
      if 4096 ≤ node.toNat ∨ n.valid = false ∨ n.fault = true ∨ from_ ∉ n.prods ∨ (p.node part from_).valid = false then 1
      else if n.cqcap ≤ (n.cqtail - n.cqhead).toNat + n.cqres then 2 else 0 := by
  intro n
  have hp : n.prodcnt = 0 → from_ ∉ n.prods := fun h => by simp [Node.prods, h]
  refine if_congr ?_ rfl (if_congr decide_eq_true_iff rfl rfl)
  simp only [Bool.or_eq_true, decide_eq_true_eq, Bool.not_eq_true', List.contains_eq_mem, decide_eq_false_iff_not]
  tauto

/-- A CUEEMIT that arrives is answered after the transit and one cycle; one that is refused changes nothing more, and one that stands at once is appended. -/
theorem takeCue_emit (t : Clock) (p : Package) (key : WaveKey) (leader part from_ : Nat) (node : Quad) (record : List Byte) (staged : Option LaunchKey) :
    let status := p.emitStatus part from_ node
    let at_ := t.mcyc + p.transit key.core + 1
    ∃ q, p.takeCue t (.emit key leader part from_ node record staged) =
        ({ q with answers := q.answers ++ [(key, leader, at_, BitVec.ofNat 64 status)] } : Package).later (.mesh at_) (.cueemitAnswer key.core key.slot leader)
      ∧ q.cueIn = p.cueIn ∧ (status ≠ 0 → q = p) ∧ (status = 0 → staged = none → q = p.append t part node.toNat record) := by
  intro status at_
  refine ⟨_, rfl, ?_, fun h => if_pos h, fun h hl => ?_⟩
  · change Package.cueIn (if status ≠ 0 then _ else _) = _
    split
    · rfl
    · split
      · exact (append_kept ..).1
      · split <;> rfl
  · subst hl
    exact if_neg (not_not.2 h)

/-! Dependence counters (R379 to R382). -/

theorem dcAt_setDc {p : Package} {k : Nat} (h : k < p.parts.length) (n : Nat) (c : DepCounter) : (p.setDc k n c).dcAt k n = c := by
  simp only [Package.dcAt, Package.setDc, part_modPart, h, and_self, if_true, tabGet_tabSet, Option.getD_some]

/-- The answers to waiting parties change no counter and no arrival. -/
theorem dcAnswer_kept (t : Clock) (p : Package) (fresh : List (WaveKey × Nat)) :
    (p.dcAnswer t fresh).parts = p.parts ∧ (p.dcAnswer t fresh).dcIn = p.dcIn := by
  unfold Package.dcAnswer
  exact List.foldlRecOn (motive := fun q : Package => q.parts = p.parts ∧ q.dcIn = p.dcIn) _ _ ⟨rfl, rfl⟩ fun q hq _ _ => hq

theorem dcAt_dcAnswer (t : Clock) (p : Package) (fresh : List (WaveKey × Nat)) (k n : Nat) : (p.dcAnswer t fresh).dcAt k n = p.dcAt k n := by
  simp only [Package.dcAt, Package.part, (dcAnswer_kept t p fresh).1]

theorem dcAnswer_none {p : Package} (t : Clock) (fresh : List (WaveKey × Nat)) (h : p.dcWaiters = []) : p.dcAnswer t fresh = p := by
  simp only [Package.dcAnswer, h, List.filter_nil, List.foldl_nil]
  rw [← h]

theorem dcUpdateAt_none {t : Clock} {p : Package} (hc : ∀ a ∈ p.cueIn, t.mcyc < a.1) (hd : ∀ a ∈ p.dcIn, t.mcyc < a.1) (hw : p.dcWaiters = []) :
    dcUpdateAt t p = p := by
  simp only [dcUpdateAt, cueAppendAt_none hc, filter_here_eq_nil hd, filter_later_eq_self hd]
  exact dcAnswer_none t _ hw

/-- One update that makes no cue due: it is applied, and then the waits are answered. -/
theorem dcUpdateAt_one {t : Clock} {p q : Package} {at_ : Nat} {u : DcUpdate} (hc : ∀ a ∈ p.cueIn, t.mcyc < a.1) (h : at_ ≤ t.mcyc)
    (hd : p.dcIn = [(at_, u)]) (hu : Package.dcApply ({ p with dcIn := [] }, []) u = (q, [])) : ∃ fresh, dcUpdateAt t p = q.dcAnswer t fresh := by
  have h1 : (p.dcIn.filter fun a => a.1 ≤ t.mcyc) = [(at_, u)] := by simp [hd, h]
  have h2 : (p.dcIn.filter fun a => t.mcyc < a.1) = [] := by simp [hd, h]
  have h3 : byRank DcUpdate.rank ([(at_, u)].map Prod.snd) = [u] := rfl
  simp only [dcUpdateAt, cueAppendAt_none hc, h1, h2, h3, List.foldl_cons, List.foldl_nil, hu]
  exact ⟨_, rfl⟩

/-- A counter without a target node goes down, to 0 at least, and no cue is due (R381). -/
theorem dcApply_dec {p : Package} {part n : Nat} (core slot amount : Nat) (hlt : part < p.parts.length) (ht : (p.dcAt part n).tv = false) :
    ∃ q, Package.dcApply (p, []) (.dec core slot part n amount) = (q, []) ∧ q.dcIn = p.dcIn
      ∧ q.dcAt part n = { p.dcAt part n with count := (p.dcAt part n).count - amount } := by
  refine ⟨(p.dcDown part n amount).1, ?_, ?_, ?_⟩
  · simp only [Package.dcApply, Package.dcDown, ht, Bool.and_false, Bool.false_eq_true, if_false]
  · simp only [Package.dcDown, Package.setDc, Package.modPart_dcIn]
    split <;> rfl
  · simp only [Package.dcDown]
    exact dcAt_setDc (by split <;> exact hlt) _ _

/-! Batches and retirement (R39, R40, R308). -/

theorem batchFormationAt_none {k node : Nat} {p : Package} (h : p.batchSize k node = 0) (t : Clock) : batchFormationAt k node t p = p := if_pos h

theorem takeTicket_eq (p : Package) (key : LaunchKey) : ∃ x, p.takeTicket key = { p with tickets := x } := by
  unfold Package.takeTicket
  split
  · exact ⟨p.tickets, rfl⟩
  · split
    · exact ⟨p.tickets, rfl⟩
    · exact ⟨_, rfl⟩

/-- The cast entry of the next batch of a node (R40). -/
def Package.batchEntry (p : Package) (k node : Nat) : CastEntry :=
  let n := p.node k node
  { id := p.nextEntry, part := k, node := node, launchid := n.launchid, castindex := n.batches, batchn := p.batchSize k node,
    batchpos := (n.cqhead.toNat + n.cqform.toNat) % max n.cqcap 1, castid := none, state := .pending }

/-- A node from whose records a batch of a size has been formed (R40). -/
def Node.batched (b : Nat) (n : Node) : Node := { n with cqform := n.cqform + BitVec.ofNat 7 b, batches := n.batches + 1 }

/-- A batch joins the prompter's table, and its records are counted at the node (R40). -/
theorem batchFormationAt_some {k node : Nat} {p : Package} (hlt : k < p.parts.length) (h : p.batchSize k node ≠ 0) (t : Clock) :
    (batchFormationAt k node t p).casts = p.casts ++ [p.batchEntry k node]
      ∧ (batchFormationAt k node t p).node k node = (p.node k node).batched (p.batchSize k node) := by
  obtain ⟨q, hq, htk⟩ : ∃ q : Package, batchFormationAt k node t p = q.checkNode t k node ∧ ∃ x, q =
      { ({ p with casts := p.casts ++ [p.batchEntry k node], nextEntry := p.nextEntry + 1 } : Package).modNode k node
        (Node.batched (p.batchSize k node)) with tickets := x } := by
    refine ⟨_, if_neg h, ?_⟩
    dsimp only
    split
    · exact takeTicket_eq ..
    · exact ⟨_, rfl⟩
  obtain ⟨x, rfl⟩ := htk
  rw [hq]
  exact ⟨(checkNode_memoryOnly ..).casts, ((checkNode_memoryOnly ..).node ..).trans
    (node_modNode_self (p := { p with casts := p.casts ++ [p.batchEntry k node], nextEntry := p.nextEntry + 1 }) hlt node (Node.batched (p.batchSize k node)))⟩

/-- A node whose launch is over (R39). -/
def Node.retire (n : Node) : Node := { n with open_ := false, retired := true, closed := false }

theorem nodeRetirementAt_not {k node : Nat} {p : Package} (h : p.mayRetire k node = false) (t : Clock) : nodeRetirementAt k node t p = p := by
  rw [nodeRetirementAt, h]
  rfl

theorem nodeRetirementAt_node {k node : Nat} {p : Package} (hlt : k < p.parts.length) (h : p.mayRetire k node = true) (t : Clock) :
    (nodeRetirementAt k node t p).node k node = (p.node k node).retire := by
  simp only [nodeRetirementAt, h, Bool.not_true, Bool.false_eq_true, if_false]
  rw [(MemoryOnly.foldl (fun q m => checkNode_memoryOnly t q k m) _ _).node]
  exact node_modNode_self hlt node Node.retire

/-! Host records and close records (R309). -/

/-- The node of a root queue that can take a record of a length (R309). -/
def Node.takes (n : Node) (len : Nat) : Prop :=
  len = n.recsz ∧ n.valid = true ∧ n.prodcnt = 0 ∧ n.fault = false ∧ n.closed = false ∧ n.full = false

theorem Node.not_takes {n : Node} {len : Nat} (h : len ≠ n.recsz ∨ n.valid = false ∨ n.prodcnt ≠ 0 ∨ n.fault = true ∨ n.closed = true ∨ n.full = true) :
    ¬ n.takes len := by
  rintro ⟨h1, h2, h3, h4, h5, h6⟩
  simp [h1, h2, h3, h4, h5, h6] at h

theorem hostCue_refused {t : Clock} {p : Package} {k node : Nat} {data : List Byte} (h : ¬ (p.node k node).takes data.length) :
    p.hostCue t k node data = p.modNode k node fun n => { n with cqdrop := min 65535 (n.cqdrop + 1) } := by
  refine if_neg fun hc => h ?_
  simpa [Node.root, Node.takes, and_assoc] using hc

theorem hostCue_taken {t : Clock} {p : Package} {k node : Nat} {data : List Byte} (h : (p.node k node).takes data.length) :
    p.hostCue t k node data = p.append t k node data := by
  obtain ⟨h1, h2, h3, h4, h5, h6⟩ := h
  exact if_pos (by simp [Node.root, h1, h2, h3, h4, h5, h6])

theorem cueCloseAt_refused {k node : Nat} {x : Quad} {p : Package} (t : Clock)
    (h : x ≠ 1 ∨ (p.node k node).valid = false ∨ (p.node k node).prodcnt ≠ 0 ∨ (p.node k node).fault = true) : cueCloseAt k node x t p = p := by
  refine if_neg fun hc => ?_
  simp only [Node.root, Bool.and_eq_true, decide_eq_true_eq, Bool.not_eq_true', and_assoc] at hc
  obtain ⟨h1, h2, h3, h4⟩ := hc
  simp [h1, h2, h3, h4] at h

theorem cueCloseAt_taken {k node : Nat} {x : Quad} {p : Package} {t : Clock} (hx : x = 1) (hv : (p.node k node).valid = true)
    (hr : (p.node k node).prodcnt = 0) (hf : (p.node k node).fault = false) :
    cueCloseAt k node x t p = (p.modNode k node fun n => { n with closed := true }).checkNode t k node :=
  if_pos (by simp [Node.root, hx, hv, hr, hf])

end Sys2Proof.Machine

open Sys2Proof Sys2Proof.Machine in
/-- Settles O34, event by event: what the cue unit takes, what a node forms and retires, and what the host writes. -/
theorem cueUnitAndNodes : Obligations.CueUnitAndNodes := by
  refine ⟨?_, ?_, ?_, ?_, ?_, ?_, ?_, ?_, ?_, ?_, ?_, ?_, ?_, ?_, ?_, ?_⟩
  · intro s h
    rw [exec_cueAppend, cueAppendAt_none h]
  · intro s at_ leader part from_ key node record l hat hc n back status
    have hst : ({ s.pkg with cueIn := [] } : Package).emitStatus part from_ node = status := emitStatus_eq _ part from_ node
    obtain ⟨q, hq, hcue, hne, hap⟩ := takeCue_emit s.clk { s.pkg with cueIn := [] } key leader part from_ node record l
    rw [hst] at hq hne hap
    refine ⟨_, by rw [exec_cueAppend, cueAppendAt_one hat hc, hq], ?_, hcue, ?_, fun h => ?_, fun h hl => ?_⟩
    · exact List.mem_append_right _ (List.mem_singleton.2 rfl)
    · exact List.mem_append_right _ (List.mem_singleton.2 rfl)
    · rw [hne h]
      exact ⟨rfl, rfl⟩
    · have hlt : part < s.pkg.parts.length := by
        refine lt_parts_of_node_valid (node := node.toNat) ?_
        by_contra hv
        have h1 : status = 1 := if_pos (.inr (.inl (Bool.eq_false_iff.2 hv)))
        omega
      obtain ⟨h1, h2, h3, -, h5⟩ := n.received_spec
      rw [hap h hl]
      exact ⟨_, node_append (p := { s.pkg with cueIn := [] }) hlt s.clk node.toNat record, h1, h2, h3, h5⟩
  · intro s hc hd hw
    rw [exec_dcUpdate, dcUpdateAt_none hc hd hw]
  · intro s at_ core slot part n amount hc hat hlt hd ht
    obtain ⟨q, hq, hin, hdc⟩ := dcApply_dec (p := { s.pkg with dcIn := [] }) (part := part) (n := n) core slot amount hlt ht
    obtain ⟨fresh, hf⟩ := dcUpdateAt_one hc hat hd hq
    refine ⟨_, by rw [exec_dcUpdate, hf], (dcAnswer_kept ..).2.trans hin, (dcAt_dcAnswer ..).trans hdc⟩
  · intro s at_ core slot part n count target tv hc hat hlt hd
    obtain ⟨fresh, hf⟩ := dcUpdateAt_one hc hat hd rfl
    refine ⟨_, by rw [exec_dcUpdate, hf], (dcAnswer_kept ..).2.trans rfl, (dcAt_dcAnswer ..).trans (dcAt_setDc (p := { s.pkg with dcIn := [] }) hlt _ _)⟩
  · intro s part node h
    rw [exec_batchFormation, batchFormationAt_none h]
  · intro s part node b hlt hb hne n
    subst hb
    obtain ⟨hc, hn⟩ := batchFormationAt_some hlt hne s.clk
    exact ⟨_, _, rfl, hc, rfl, rfl, rfl, rfl, rfl, rfl, hn⟩
  · intro s part node h
    rw [exec_nodeRetirement, nodeRetirementAt_not h]
  · intro s part node h hlt
    exact ⟨_, rfl, nodeRetirementAt_node hlt h s.clk⟩
  · intro s k node data n h
    rw [exec_cuePush, hostCue_refused (Node.not_takes h), modNode_withNode]
  · intro s k node data hlt n h1 h2 h3 h4 h5 h6
    obtain ⟨r1, r2, -, r4, -⟩ := n.received_spec
    refine ⟨_, by rw [exec_cuePush, hostCue_taken ⟨h1, h2, h3, h4, h5, h6⟩], ?_⟩
    rw [node_append hlt]
    exact ⟨r1, r2, r4⟩
  · intro s k node x n
    refine ⟨fun h => ?_, fun hlt hx hv hr hf => ?_⟩
    · rw [exec_cueClose, cueCloseAt_refused s.clk h]
    · refine ⟨_, by rw [exec_cueClose, cueCloseAt_taken hx hv hr hf], ?_⟩
      rw [(checkNode_memoryOnly ..).node, node_modNode_self hlt]
  · intro s k node x n
    have hig : (n.open_ || !x.getLsbD 0) = true ↔ n.open_ = true ∨ x.getLsbD 0 = false := by simp
    refine ⟨fun h => ?_, fun ho hx => ?_⟩
    · rw [exec_nodeCommit, nodeCommitAt, if_pos (hig.2 h)]
    · rw [exec_nodeCommit, nodeCommitAt, if_neg (mt hig.1 (not_or.2 ⟨Bool.eq_false_iff.1 ho, fun h => Bool.eq_false_iff.1 h hx⟩)), modNode_withNode]
      rfl
  · intro s k node n
    refine ⟨fun h => ?_, fun ho => ?_⟩
    · rw [exec_nodeWithdraw, nodeWithdrawAt, if_pos h]
    · have hc : n.ctrl / 2 * 2 = n.ctrl - n.ctrl % 2 := by omega
      rw [exec_nodeWithdraw, nodeWithdrawAt, if_neg (by simpa using ho), modNode_withNode, ← hc]
      rfl
  · intro s k node off x n ignored
    have hig : (n.open_ || n.valid || decide (248 ≤ off) || decide (off % 8 ≠ 0)) = true ↔ ignored := by
      simp [ignored, or_assoc]
    refine ⟨fun h => ?_, fun h => ?_⟩
    · rw [exec_nodeEntryWrite, nodeEntryWriteAt, if_pos (hig.2 h)]
    · rw [exec_nodeEntryWrite, nodeEntryWriteAt, if_neg (mt hig.1 h), modNode_withNode]
      rfl
  · intro s k node
    rw [exec_nodercClear, modNode_withNode]
end

section
/-! SUPPORT. A trap that falls due for a party whose chain has a word left (Sys2Proof/Machine/Events.lean: R152, R160). What the delivery waits for stands at
the leader of the party as it is now, and not at the slice for which the trap fell due. -/

namespace Sys2Proof.Machine

/-- A control word that its chain has put off. -/
def leftWord : Late :=
  { word := 65540, epc := 65536, next := 65544, slices := [0, 1], sregs := [], preds := [], latches := [], win := {}, raw := 0, wrote := [] }

/-- A wave of one party of two slices, led by slice 0, that has a word of its chain left; POISON is due for the party of slice 1. -/
def leftWave : Wave :=
  { newWave 0 0 .general [0] 8 65536 [] 0 0 with
    slices := [{ pc := 65536, late := some leftWord }, { pc := 65536 }]
    due := [{ cause := .poison, addr := 0, lanes := 16, leader := 1 }] }

/-- The wave alone on core 0, its cast with a trap handler. -/
def leftState : State :=
  { State.reset with pkg := { State.reset.pkg with
      cores := [{ ctx := { casts := [some { fetchCast with trappc := 65560 }], waves := [some leftWave] } }] } }

/-- How many traps are due for the wave in slot 0 of core 0. -/
def trapsDue (o : Host.Outcome State Fault Refusal) : Nat :=
  match o with
  | .next t => ((t.pkg.wave? 0 0).map fun w => w.due.length).getD 0
  | _ => 0

/-- The word that is left comes before the trap: nothing is delivered. -/
theorem leftState_waits : trapsDue (exec (.trapDelivery 0 0) leftState) = 1 := by decide

theorem leftState_midWindow : leftState.pkg.midWindow 0 0 0 = false := by decide

end Sys2Proof.Machine

open Sys2Proof Sys2Proof.Machine in
/-- Refutes O35: the third clause asks the slice for which the trap fell due, where that is not its party's leader, whether a word of the chain is left. -/
theorem not_trapsAndWaveClock : ¬ Obligations.TrapsAndWaveClock := by
  rintro ⟨-, -, h, -⟩
  obtain ⟨-, h⟩ := h leftState 0 0 0 leftWave { cause := .poison, addr := 0, lanes := 16, leader := 1 } [] { pc := 65536 } rfl (by decide) rfl rfl rfl rfl
  have hd := h 65536 (by decide) rfl (by decide) leftState_midWindow rfl
  exact absurd ((congrArg trapsDue hd).symm.trans leftState_waits) (by decide)
end

section
/-! SUPPORT. Changes that bring no wave into an empty slot, and the end of a wave among them (Sys2Proof/Machine/Ops.lean: R49, R147, R187, R222). -/

namespace Sys2Proof.Machine

/-- Every wave slot that is empty stays empty. -/
structure NoNewWaves (p q : Package) : Prop where
  empty : ∀ c k, p.wave? c k = none → q.wave? c k = none

/-- Every wave slot of a core that is empty stays empty. -/
structure Core.NoNewWaves (x y : Core) : Prop where
  empty : ∀ k : Nat, (x.ctx.waves[k]?).join = none → (y.ctx.waves[k]?).join = none

theorem Core.NoNewWaves.of_waves {x y : Core} (h : y.ctx.waves = x.ctx.waves) : x.NoNewWaves y := ⟨fun _ hk => by rw [h]; exact hk⟩

theorem NoNewWaves.refl (p : Package) : NoNewWaves p p := ⟨fun _ _ h => h⟩

theorem NoNewWaves.trans {p q r : Package} (h1 : NoNewWaves p q) (h2 : NoNewWaves q r) : NoNewWaves p r :=
  ⟨fun c k h => h2.empty c k (h1.empty c k h)⟩

theorem NoNewWaves.of_cores {p q : Package} (h : q.cores = p.cores) : NoNewWaves p q := ⟨fun _ _ hk => by simpa only [Package.wave?, h] using hk⟩

theorem NoNewWaves.count (p : Package) (i m : Nat) : NoNewWaves p (p.count i m) := .of_cores rfl

theorem NoNewWaves.modCore {f : Core → Core} (hf : ∀ x : Core, x.NoNewWaves (f x)) (p : Package) (c : Nat) : NoNewWaves p (p.modCore c f) := by
  refine ⟨fun c' k h => ?_⟩
  simp only [Package.wave?, Package.modCore, modAt_get?] at h ⊢
  split
  · cases hc : p.cores[c']? with
    | none => rfl
    | some x => exact (hf x).empty k (by simpa [hc] using h)
  · exact h

theorem NoNewWaves.mapCores {f : Core → Core} (hf : ∀ x : Core, x.NoNewWaves (f x)) (p : Package) : NoNewWaves p { p with cores := p.cores.map f } := by
  refine ⟨fun c k h => ?_⟩
  simp only [Package.wave?, List.getElem?_map] at h ⊢
  cases hc : p.cores[c]? with
  | none => rfl
  | some x => exact (hf x).empty k (by simpa [hc] using h)

theorem NoNewWaves.foldl {α : Type} {f : Package → α → Package} (h : ∀ p a, NoNewWaves p (f p a)) (l : List α) (p : Package) :
    NoNewWaves p (l.foldl f p) :=
  List.foldlRecOn (motive := NoNewWaves p) l f (.refl p) fun q hq a _ => hq.trans (h q a)

theorem NoNewWaves.ite {p q r : Package} {c : Prop} [Decidable c] (h1 : NoNewWaves p q) (h2 : NoNewWaves p r) : NoNewWaves p (if c then q else r) := by
  split
  · exact h1
  · exact h2

theorem NoNewWaves.modWave (p : Package) (c k : Nat) (f : Wave → Wave) : NoNewWaves p (p.modWave c k f) := by
  refine ⟨fun c' k' h => ?_⟩
  rw [wave?_modWave, h]
  split <;> rfl

theorem NoNewWaves.modCtx {f : CoreCtx → CoreCtx} (hf : ∀ x, (f x).waves = x.waves) (p : Package) (c : Nat) : NoNewWaves p (p.modCtx c f) :=
  .modCore (fun x => .of_waves (hf x.ctx)) p c

theorem NoNewWaves.modCast (p : Package) (c k : Nat) (f : Cast → Cast) : NoNewWaves p (p.modCast c k f) :=
  ⟨fun _ _ h => (wave?_modCast ..).trans h⟩

/-! Tokens, traps and partners of a wave that ends. -/

theorem admitTokens_ctx (n : Nat) (k : Core) : (Core.admitTokens n k).1.ctx = k.ctx := by
  induction n generalizing k with
  | zero => rfl
  | succ n ih =>
    unfold Core.admitTokens
    split
    · split
      · rfl
      · exact ih _
    · rfl

theorem tryMatches_cores (p : Package) (l : List Token) : (p.tryMatches l).cores = p.cores :=
  List.foldlRecOn (motive := fun q : Package => q.cores = p.cores) l _ rfl fun _ hq _ _ => hq

theorem NoNewWaves.withdrawTokens (p : Package) (key : WaveKey) : NoNewWaves p (p.withdrawTokens key) :=
  (NoNewWaves.mapCores (f := fun k => (k.keepTokens fun t => t.src ≠ key).1) (fun _ => .of_waves (by rw [Core.keepTokens, admitTokens_ctx])) p).trans
    (.of_cores (tryMatches_cores _ _))

theorem NoNewWaves.removeWave (p : Package) (core slot : Nat) : NoNewWaves p (p.removeWave core slot) := by
  unfold Package.removeWave
  split
  · exact .refl p
  · dsimp only
    have hr : ∀ q : Package, (p.withdrawTokens (p.keyOf core slot)).cores = q.cores → NoNewWaves p q :=
      fun q h => (NoNewWaves.withdrawTokens p (p.keyOf core slot)).trans (.of_cores h.symm)
    refine .trans (.trans (hr _ ?_) (.modCore (fun x => ?_) _ core)) (.modCore (fun x => ⟨fun k hk => ?_⟩) _ core)
    · rfl
    · exact .of_waves rfl
    · dsimp only
      rw [setAt, modAt_get?]
      split
      · cases x.ctx.waves[k]? <;> rfl
      · exact hk

theorem NoNewWaves.dropTraps (p : Package) (core : Nat) (w : Wave) : NoNewWaves p (p.dropTraps core w) :=
  .foldl (fun _ _ => .count ..) _ p

theorem NoNewWaves.tellPartners (p : Package) (key : WaveKey) : NoNewWaves p (p.tellPartners key) := by
  refine .mapCores (fun x => ⟨fun k hk => ?_⟩) p
  rw [Core.tellPartners, List.getElem?_map]
  cases hx : x.ctx.waves[k]? with
  | none => rfl
  | some o =>
    rw [hx] at hk
    cases o with
    | none => rfl
    | some w => cases hk

/-! The exit of a cast. -/

theorem NoNewWaves.later (p : Package) (t : DueAt) (ev : Instr) : NoNewWaves p (p.later t ev) := .of_cores rfl

theorem NoNewWaves.modPart (p : Package) (i : Nat) (f : Partition → Partition) : NoNewWaves p (p.modPart i f) := .of_cores rfl

theorem NoNewWaves.collFree (p : Package) (core i : Nat) : NoNewWaves p (p.collFree core i) := by
  unfold Package.collFree
  refine .trans (.trans ?_ (.modCtx (fun x => ?_) _ core)) (.later ..)
  · exact .of_cores rfl
  · rfl

theorem NoNewWaves.collAbort (p : Package) (core part i : Nat) : NoNewWaves p (p.collAbort core part i) := by
  unfold Package.collAbort
  split
  · exact .refl p
  · next c _ =>
    have h1 : NoNewWaves p (p.copyDone core part c 1) := .ite (.refl p) (.of_cores rfl)
    have h2 : ∀ q : Package, NoNewWaves q (q.disarm core c) := by
      intro q
      unfold Package.disarm
      split
      · exact .refl q
      · split
        · exact .refl q
        · next f _ _ _ _ =>
          have h := NoNewWaves.modCtx (f := fun k => { k with follow := setAt k.follow f none }) (fun _ => rfl) q core
          exact .ite (h.trans (.modWave ..)) h
    have h3 : ∀ q : Package, NoNewWaves q (q.collStatus core c 1 0) := by
      intro q
      unfold Package.collStatus
      have h : NoNewWaves q (q.modCast core c.cast fun k => { k with cdone := k.cdone + 1, ring := ((c.num, { kind := 1, code := 0 }) :: k.ring).take 8 }) :=
        .modCast ..
      dsimp only
      split
      · exact h
      · exact h.trans (.foldl (fun _ _ => .modWave ..) _ _)
    exact ((h1.trans (h2 _)).trans (h3 _)).trans (.collFree _ core i)

theorem releaseDemands_cores (l : List (Nat × Nat)) (p : Package) :
    (l.foldl (fun p d => p.modVault d.1 fun v => { v with resv := v.resv - d.2 }) p).cores = p.cores :=
  List.foldlRecOn (motive := fun q : Package => q.cores = p.cores) l _ rfl fun _ hq _ _ => hq

theorem NoNewWaves.dropEvents (p : Package) (core cslot : Nat) : NoNewWaves p (p.dropEvents core cslot) :=
  (NoNewWaves.modCore (f := fun k => { k with barrier := (p.core core).barrier.filter fun e => e.castOf ≠ cslot }) (fun _ => .of_waves rfl) p core).trans
    (.foldl (fun _ _ => .count ..) _ _)

theorem NoNewWaves.exitCast (p : Package) (core cslot : Nat) (killed : Bool) : NoNewWaves p (p.exitCast core cslot killed) := by
  unfold Package.exitCast
  split
  · exact .refl p
  · next c _ =>
    extract_lets aborted dropped inRows cleared gone demands released left
    have hAborted : NoNewWaves p aborted := by
      refine .foldl (fun q i => ?_) _ p
      split
      · exact .ite (.collAbort ..) (.refl q)
      · exact .refl q
    have hCleared : NoNewWaves dropped cleared := by
      refine .modCtx (fun _ => ?_) dropped core
      rfl
    have hReleased : NoNewWaves cleared released := .of_cores (releaseDemands_cores _ cleared)
    have hLeft : ∀ q : Package, NoNewWaves q (({ q with casts := q.casts.map gone } : Package).later .now (.nodeRetirement c.partition c.node)) :=
      fun _ => .of_cores rfl
    exact ((hAborted.trans (.dropEvents ..)).trans (hCleared.trans hReleased)).trans ((hLeft released).trans (.modPart ..))

theorem NoNewWaves.endWave (p : Package) (core slot : Nat) : NoNewWaves p (p.endWave core slot) := by
  unfold Package.endWave
  split
  · exact .refl p
  · split
    · exact .refl p
    · next w _ _ _ _ =>
      have h := ((NoNewWaves.removeWave p core slot).trans (.dropTraps _ core w)).trans (.tellPartners _ (p.keyOf core slot))
      refine .ite (h.trans (.exitCast ..)) (h.trans (.modCore (fun x => ?_) _ core))
      exact .of_waves rfl

end Sys2Proof.Machine
end

section
/-! SUPPORT. ATTACH decisions, cycle breaking, barrier release and the failure of a bank (Sys2Proof/Machine/Barrier.lean, Scratchpad.lean: R47, R52, R218,
R224, R337, R338). -/

namespace Sys2Proof.Machine

theorem exec_attachWaitRetry (core slot : Nat) (s : State) :
    exec (.attachWaitRetry core slot) s = .next { s with pkg := s.pkg.decideAttach core slot (s.clk.cycleOf (companyOf core)) } := rfl

theorem exec_attachCycleBreak (core : Nat) (s : State) :
    exec (.attachCycleBreak core) s = .next { s with pkg := s.pkg.breakAttachCycle core (s.clk.cycleOf (companyOf core)) } := rfl

theorem exec_barrierRelease (core : Nat) (s : State) :
    exec (.barrierRelease core) s = .next { s with pkg := barrierReleaseAt core s.clk s.pkg } := rfl

/-! A wait that ends. -/

theorem endWait_blockedAt (w : Wave) (l : Nat) : (w.endWait l).blockedAt l = none := by
  cases hb : w.blockedAt l with
  | none =>
    have : (w.endWait l).slices = w.slices := by simp only [Wave.endWait, Wave.unblock, hb]
    rwa [Wave.blockedAt, this]
  | some b =>
    obtain ⟨-, hl, hs⟩ := goesOn_endWait w l b hb
    unfold Wave.blockedAt at hb ⊢
    cases hx : w.slices[l]? with
    | none => rw [hx] at hb; cases hb
    | some x =>
      have hlt : l < (w.endWait l).slices.length := hl ▸ (List.getElem?_eq_some_iff.1 hx).1
      rw [List.getElem?_eq_getElem hlt, Option.bind_some, hs l x _ hx (List.getElem?_eq_getElem hlt)]
      exact if_pos rfl

theorem endWait_sregs (w : Wave) (l : Nat) : (w.endWait l).sregs = w.sregs := by
  cases hb : w.blockedAt l with
  | none => simp only [Wave.endWait, Wave.unblock, hb]
  | some b => rw [(goesOn_endWait w l b hb).1]

/-- A wave whose party has taken a status and goes on (R60). -/
theorem goesOn_status {w : Wave} {l : Nat} {b : Blocked} (h : w.blockedAt l = some b) (d : Nat) (x : Quad) :
    GoesOn (w.setS d x) ((w.setS d x).endWait l) l b :=
  goesOn_endWait _ _ _ h

/-! The decision on an ATTACH (R337). -/

/-- The answer to a blocked ATTACH: its status, and its wave goes on. -/
def Package.answerAttach (p : Package) (core slot : Nat) (a : AttachArgs) (code nwaves : Nat) : Package :=
  p.modWave core slot fun w => (w.setS a.dest (attachStatus code nwaves)).endWait w.sole

section
variable {p : Package} {core slot cyc : Nat} {w : Wave} {c : Cast} {b : Blocked} {a : AttachArgs} {wait : Bool} (hw : p.wave? core slot = some w)
  (hc : p.cast? core w.cast = some c) (hb : w.blockedAt w.sole = some b) (ho : b.op = .attach a wait)
include hw hc hb ho

theorem decideAttach_early (h : cyc < a.due) : p.decideAttach core slot cyc = p := by
  obtain ⟨op, word, slices, resume, count, late⟩ := b
  obtain rfl : op = .attach a wait := ho
  simp only [Package.decideAttach, hw, hc, hb, h, if_true]

theorem decideAttach_waits {code : Nat} (hd : (p.core core).ctx.attachDecide c a w.cast = .error code) (hwait : wait = true ∧ code ≠ 3) :
    p.decideAttach core slot cyc = p := by
  obtain ⟨op, word, slices, resume, count, late⟩ := b
  obtain rfl : op = .attach a wait := ho
  simp [Package.decideAttach, hw, hc, hb, hd, hwait]

theorem decideAttach_refused {code : Nat} (h : a.due ≤ cyc) (hd : (p.core core).ctx.attachDecide c a w.cast = .error code)
    (hwait : ¬ (wait = true ∧ code ≠ 3)) : p.decideAttach core slot cyc = p.answerAttach core slot a code c.nwaves.toNat := by
  obtain ⟨op, word, slices, resume, count, late⟩ := b
  obtain rfl : op = .attach a wait := ho
  have hif : ¬ (wait && decide (code ≠ 3)) = true := by simpa using hwait
  simp only [Package.decideAttach, hw, hc, hb, hd, Nat.not_lt.2 h, if_false, if_neg hif, Package.answerAttach]

theorem decideAttach_granted {runs : List Nat} (h : a.due ≤ cyc) (hd : (p.core core).ctx.attachDecide c a w.cast = .ok runs) :
    p.decideAttach core slot cyc =
      (p.attachGrant core w.cast c a w.waveId runs (cyc + 4)).answerAttach core slot a 0 (c.nwaves.toNat + a.n) := by
  obtain ⟨op, word, slices, resume, count, late⟩ := b
  obtain rfl : op = .attach a wait := ho
  simp only [Package.decideAttach, hw, hc, hb, hd, Nat.not_lt.2 h, if_false, Package.answerAttach]

end

/-! The new waves of a grant (R332, R337) take slots that were free. -/

theorem pickSlot_free {ws : List (Option Wave)} {s : Nat} (h : pickSlot ws = some s) : ws[s]? = some none := by
  obtain ⟨b, -, hs⟩ := Option.bind_eq_some_iff.1 h
  obtain ⟨j, hj, rfl⟩ := Option.map_eq_some_iff.1 hs
  obtain ⟨⟨o, ho, hn⟩, -⟩ := findIdx?_eq_some_iff.1 hj
  obtain rfl := Option.isNone_iff_eq_none.1 hn
  rw [List.getElem?_take] at ho
  split at ho
  · rwa [List.getElem?_drop] at ho
  · cases ho

theorem addWave_kept {x : CoreCtx} {k : Nat} {w : Wave} (h : x.waves[k]? = some (some w)) (cslot : Nat) (c : Cast) (a : AttachArgs) (issuer : BitVec 6)
    (rank unit : Nat) (joins : List Nat) (start : Nat) :
    (x.addWave cslot c a issuer rank unit joins start).waves[k]? = some (some w) ∧ (x.addWave cslot c a issuer rank unit joins start).casts = x.casts := by
  unfold CoreCtx.addWave
  split
  · exact ⟨h, rfl⟩
  · next s hs =>
    refine ⟨?_, rfl⟩
    have hne : k ≠ s := by
      rintro rfl
      rw [pickSlot_free hs] at h
      cases h
    dsimp only
    rw [setAt, modAt_get?, if_neg hne, h]

theorem spWrite_kept (x : CoreCtx) (c : Cast) (bytes : List (Nat × Byte)) :
    (x.spWrite c bytes).waves = x.waves ∧ (x.spWrite c bytes).casts = x.casts := ⟨rfl, rfl⟩

theorem setBar_kept (x : CoreCtx) (c : Cast) (g : Nat) (b : Bar) : (x.setBar c g b).waves = x.waves ∧ (x.setBar c g b).casts = x.casts := by
  unfold CoreCtx.setBar
  exact spWrite_kept ..

theorem joinBarriers_kept (x : CoreCtx) (c : Cast) (n : Nat) (now : Bool) :
    (x.joinBarriers c n now).waves = x.waves ∧ (x.joinBarriers c n now).casts = x.casts := by
  refine List.foldlRecOn (motive := fun y : CoreCtx => y.waves = x.waves ∧ y.casts = x.casts) _ _ ⟨rfl, rfl⟩ fun y hy g _ => ?_
  dsimp only
  split
  · exact ⟨(setBar_kept ..).1.trans hy.1, (setBar_kept ..).2.trans hy.2⟩
  · exact hy

theorem wave?_modCtx_of {p : Package} {c k : Nat} {w : Wave} {f : CoreCtx → CoreCtx} (h : p.wave? c k = some w)
    (hf : (f (p.core c).ctx).waves[k]? = some (some w)) : (p.modCtx c f).wave? c k = some w := by
  have hlt := core_lt_of_wave? h
  rw [wave?_core (by rwa [Package.modCtx, cores_modCore]), Package.modCtx, core_modCore_self _ _ _ hlt, hf]
  rfl

theorem cast?_core {p : Package} {c k : Nat} (hl : c < p.cores.length) : p.cast? c k = ((p.core c).ctx.casts[k]?).join := by
  unfold Package.cast? Package.core
  rw [List.getD_eq_getElem _ _ hl, List.getElem?_eq_getElem hl]
  rfl

theorem cast?_modCast_self (p : Package) (c k : Nat) (f : Cast → Cast) : (p.modCast c k f).cast? c k = (p.cast? c k).map f := by
  simp only [Package.cast?, Package.modCast, Package.modCtx, Package.modCore, modAt_get?, if_true]
  cases p.cores[c]? with
  | none => rfl
  | some x =>
    simp only [Option.map_some, Option.bind_some, modAt_get?, if_true]
    cases x.ctx.casts[k]? with
    | none => rfl
    | some y => cases y <;> rfl

/-- A grant changes no wave that was there, and NWAVES of its cast alone (R47). -/
theorem attachGrant_kept {p : Package} {core slot cslot : Nat} {w : Wave} {c : Cast} (hw : p.wave? core slot = some w)
    (hc : p.cast? core cslot = some c) (a : AttachArgs) (issuer : BitVec 6) (runs : List Nat) (start : Nat) :
    (p.attachGrant core cslot c a issuer runs start).wave? core slot = some w
      ∧ (p.attachGrant core cslot c a issuer runs start).cast? core cslot = some { c with nwaves := c.nwaves + BitVec.ofNat 7 a.n } := by
  have hlt := core_lt_of_wave? hw
  have hx := List.foldlRecOn (motive := fun y : CoreCtx => y.waves[slot]? = some (some w) ∧ y.casts = (p.core core).ctx.casts) runs.zipIdx
    (fun (x : CoreCtx) (r : Nat × Nat) => x.addWave cslot c a issuer r.2 r.1 ((p.core core).ctx.tracking c) start) ⟨wave?_some hw, rfl⟩
    fun y hy r _ => ⟨(addWave_kept hy.1 ..).1, ((addWave_kept hy.1 ..).2).trans hy.2⟩
  unfold Package.attachGrant
  dsimp only
  constructor
  · rw [wave?_modCast]
    exact wave?_modCtx_of hw (by rw [(joinBarriers_kept ..).1]; exact hx.1)
  · rw [cast?_modCast_self, cast?_core (by rwa [Package.modCtx, cores_modCore]), Package.modCtx, core_modCore_self _ _ _ hlt]
    dsimp only
    rw [(joinBarriers_kept ..).2, hx.2, ← cast?_core hlt, hc]
    rfl

/-! The release of waves (R218, R221). -/

theorem releaseWave_not {p : Package} {core cyc slot : Nat} (h : ∀ (w : Wave) (b : Blocked) (d : Nat) (x : Quad) (ends sync : Bool) (due : Nat),
    p.wave? core slot = some w → w.blockedAt w.sole = some b → b.op = .released d x ends sync due → cyc < due) : p.releaseWave core cyc slot = p := by
  unfold Package.releaseWave
  split
  · rfl
  · next w hw =>
    split
    · next hb => exact if_pos (h w _ _ _ _ _ _ hw hb rfl)
    · rfl

/-- Where one slot alone has a wave whose release has come, and its release brings no other, that is all. -/
theorem barrierReleaseAt_one {core slot : Nat} {k : Clock} {p q : Package} (hs : slot < 64)
    (hq : p.releaseWave core (k.cycleOf (companyOf core)) slot = q)
    (hp : ∀ i, i ≠ slot → p.releaseWave core (k.cycleOf (companyOf core)) i = p)
    (hq' : ∀ i, i ≠ slot → q.releaseWave core (k.cycleOf (companyOf core)) i = q) : barrierReleaseAt core k p = q := by
  obtain ⟨l, r, hl, hsl, hsr⟩ : ∃ l r, List.range 64 = l ++ slot :: r ∧ slot ∉ l ∧ slot ∉ r := by
    obtain ⟨l, r, h⟩ := List.append_of_mem (List.mem_range.2 hs)
    have hn := h ▸ (List.nodup_range (n := 64))
    rw [List.nodup_middle, List.nodup_cons, List.mem_append, not_or] at hn
    exact ⟨l, r, h, hn.1⟩
  have hfix : ∀ (x : Package) (l : List Nat), slot ∉ l → (∀ i, i ≠ slot → x.releaseWave core (k.cycleOf (companyOf core)) i = x) →
      l.foldl (fun p s => p.releaseWave core (k.cycleOf (companyOf core)) s) x = x := by
    intro x l hn hx
    refine List.foldlRecOn (motive := fun y => y = x) l _ rfl fun y hy i hi => ?_
    rw [hy, hx i (fun e => hn (e ▸ hi))]
  rw [barrierReleaseAt, hl, List.foldl_append, List.foldl_cons, hfix p l hsl hp, hq, hfix q r hsr hq']

/-- A released wave that does not end takes its status and goes on, with an acquire at cast scope (R218, R258). -/
def Wave.released (w : Wave) (d : Nat) (x : Quad) (sync : Bool) : Wave :=
  { ((w.setS d x).endWait w.sole).acquireCast with syncwait := if sync then none else w.syncwait }

theorem endWait_fence (w : Wave) (l : Nat) : (w.endWait l).fence = w.fence ∧ (w.endWait l).pending = w.pending := by
  cases hb : w.blockedAt l with
  | none => simp only [Wave.endWait, Wave.unblock, hb, and_self]
  | some b =>
    rw [(goesOn_endWait w l b hb).1]
    exact ⟨rfl, rfl⟩

theorem acquireCast_fence_congr {a b : Wave} (hf : a.fence = b.fence) (hp : a.pending = b.pending) : a.acquireCast.fence = b.acquireCast.fence := by
  unfold Wave.acquireCast
  rw [hf, hp]
  cases b.fence with
  | some f => rfl
  | none =>
    dsimp only
    split
    · exact hf
    · rfl

theorem released_spec {w : Wave} {b : Blocked} (h : w.blockedAt w.sole = some b) (d : Nat) (x : Quad) (sync : Bool) :
    ∃ z, GoesOn (w.setS d x) z w.sole b
      ∧ w.released d x sync = { z with fence := w.acquireCast.fence, syncwait := if sync then none else w.syncwait } := by
  refine ⟨_, goesOn_status h d x, ?_⟩
  obtain ⟨hf, hp⟩ := endWait_fence (w.setS d x) w.sole
  rw [Wave.released, acquire_rest, acquireCast_fence_congr (b := w) hf hp]

theorem releaseWave_goes {p : Package} {core slot cyc d due : Nat} {x : Quad} {sync : Bool} {w : Wave} {b : Blocked} (hw : p.wave? core slot = some w)
    (hb : w.blockedAt w.sole = some b) (ho : b.op = .released d x false sync due) (h : due ≤ cyc) :
    p.releaseWave core cyc slot = p.modWave core slot fun _ => w.released d x sync := by
  obtain ⟨op, word, slices, resume, count, late⟩ := b
  obtain rfl : op = .released d x false sync due := ho
  rw [← modWave_const _ _ _ _ (fun w => w.released d x sync) hw]
  simp only [Package.releaseWave, hw, hb, Nat.not_lt.2 h, if_false, Bool.false_eq_true]
  rw [modWave_const _ _ _ _ _ hw, modWave_const _ _ _ _ (fun w => w.released d x sync) hw]
  rfl

theorem releaseWave_ends {p : Package} {core slot cyc d due : Nat} {x : Quad} {sync : Bool} {w : Wave} {b : Blocked} (hw : p.wave? core slot = some w)
    (hb : w.blockedAt w.sole = some b) (ho : b.op = .released d x true sync due) (h : due ≤ cyc) :
    p.releaseWave core cyc slot = p.endWave core slot := by
  obtain ⟨op, word, slices, resume, count, late⟩ := b
  obtain rfl : op = .released d x true sync due := ho
  simp only [Package.releaseWave, hw, hb, Nat.not_lt.2 h, if_false, if_true]

/-! The failure of a bank (R224). -/

theorem mem_groupGranules {rel group i : Nat} : i ∈ groupGranules rel group ↔ i < 256 ∧ (i ^^^ (rel % 256)) / 16 = group := by
  simp only [groupGranules, List.mem_filter, List.mem_range, decide_eq_true_eq]

theorem mem_foldl_setInsert_map (f : Nat → Nat) (l acc : List Nat) (n : Nat) :
    n ∈ l.foldl (fun l i => setInsert l (f i)) acc ↔ n ∈ acc ∨ ∃ i ∈ l, n = f i := by
  induction l generalizing acc with
  | nil => simp
  | cons i l ih =>
    rw [List.foldl_cons, ih, mem_setInsert]
    simp only [List.mem_cons, exists_eq_or_imp]
    tauto

/-- A failed row as its cast counts it: from the cast's first row (R224). -/
def CoreCtx.rowInCast (x : CoreCtx) (row : Nat) : Nat :=
  match x.castOfRow row with
  | some c => row - c.sprow
  | none => row

/-- The failed granules that a bank failure adds (R224). -/
def CoreCtx.failGranules (x : CoreCtx) (row : Nat) (failed : List Nat) : CoreCtx :=
  { x with spPoison := failed.foldl (fun l i => setInsert l (256 * row + i)) x.spPoison }

theorem mem_failGranules (x : CoreCtx) (row : Nat) (failed : List Nat) (n : Nat) :
    n ∈ (x.failGranules row failed).spPoison ↔ n ∈ x.spPoison ∨ ∃ i ∈ failed, n = 256 * row + i :=
  mem_foldl_setInsert_map ..

theorem errorReaches_core (p : Package) (part unit c : Nat) : (p.errorReaches part unit).core c = p.core c := by
  unfold Package.errorReaches
  split <;> rfl

/-- Beside the failed granules of a core, a bank failure counts an error and may call for a rollback. -/
theorem bankFailureAt_core (core row group : Nat) (p : Package) : (bankFailureAt core row group p).core core =
    (p.modCtx core fun x => x.failGranules row (groupGranules ((p.core core).ctx.rowInCast row) group)).core core := by
  unfold bankFailureAt CoreCtx.rowInCast
  cases (p.core core).ctx.castOfRow row with
  | none => rfl
  | some c => exact errorReaches_core ..

end Sys2Proof.Machine

open Sys2Proof Sys2Proof.Machine in
/-- Settles O37: each answer to a request by the decision on it, and the release of a wave by what the waves of the other slots wait for. -/
theorem membershipEvents : Obligations.MembershipEvents := by
  refine ⟨?_, ?_, ?_, ?_, ?_, ?_, ?_⟩
  · intro s core slot w c b a wait hw hc hb ho x cyc size refused
    have hcyc : s.clk.cycleOf (companyOf core) = cyc := rfl
    have href : ∀ code, a.due ≤ cyc → (s.pkg.core core).ctx.attachDecide c a w.cast = .error code → refused code := by
      intro code hd he
      dsimp only [refused]
      split
      · next hwait => rw [exec_attachWaitRetry, hcyc, decideAttach_waits hw hc hb ho he hwait]
      · next hwait =>
        refine ⟨_, ?_, goesOn_status hb a.dest (attachStatus code c.nwaves.toNat)⟩
        rw [OnWave, exec_attachWaitRetry, hcyc, decideAttach_refused hw hc hb ho hd he hwait, Package.answerAttach, modWave_const _ _ _ _ _ hw]
    refine ⟨fun h => ?_, fun hd h1 => ?_, fun hd h1 h2 => ?_, fun hd h1 h2 h3 => ?_, fun hd h1 h2 h3 h4 => ?_, fun runs hd h1 h2 h3 h4 => ?_⟩
    · rw [exec_attachWaitRetry, hcyc, decideAttach_early hw hc hb ho h]
    · exact href 3 hd (if_pos h1)
    · exact href 1 hd (by rw [CoreCtx.attachDecide, if_neg (Nat.not_lt.2 h1), if_pos h2])
    · exact href 2 hd (by rw [CoreCtx.attachDecide, if_neg (Nat.not_lt.2 h1), if_neg (Nat.not_lt.2 h2), h3]; rfl)
    · refine href 4 hd ?_
      rw [CoreCtx.attachDecide, if_neg (Nat.not_lt.2 h1), if_neg (Nat.not_lt.2 h2), h3, h4]
      rfl
    · have hok : (s.pkg.core core).ctx.attachDecide c a w.cast = .ok runs := by
        rw [CoreCtx.attachDecide, if_neg (Nat.not_lt.2 h1), if_neg (Nat.not_lt.2 h2), h3, h4]
        rfl
      obtain ⟨hgw, hgc⟩ := attachGrant_kept hw hc a w.waveId runs (cyc + 4)
      have hstep : exec (.attachWaitRetry core slot) s = .next { s with
          pkg := (s.pkg.attachGrant core w.cast c a w.waveId runs (cyc + 4)).answerAttach core slot a 0 (c.nwaves.toNat + a.n) } := by
        rw [exec_attachWaitRetry, hcyc, decideAttach_granted hw hc hb ho hd hok]
      refine ⟨_, (w.setS a.dest (attachStatus 0 (c.nwaves.toNat + a.n))).endWait w.sole, hstep, ?_, fun hlt => ?_, endWait_blockedAt .., ?_⟩
      · rw [Package.answerAttach, wave?_modWave, if_pos ⟨rfl, rfl⟩]
        exact congrArg _ hgw
      · rw [Wave.s, endWait_sregs]
        refine (setS_s w a.dest _ a.dest hlt).trans ?_
        rw [if_pos rfl, attachStatus, Nat.zero_add]
      · rw [Package.answerAttach, cast?_modWave]
        exact hgc
  · intro s core h
    rw [exec_attachCycleBreak, Package.breakAttachCycle, show (s.pkg.core core).ctx.cycleVictim (s.clk.cycleOf (companyOf core)) = none from h]
  · intro s core slot a c w b h hw hb
    refine ⟨_, ?_, goesOn_status hb a.dest (attachStatus 5 c.nwaves.toNat)⟩
    rw [OnWave, exec_attachCycleBreak, Package.breakAttachCycle,
      show (s.pkg.core core).ctx.cycleVictim (s.clk.cycleOf (companyOf core)) = some (slot, a, c) from h]
    dsimp only
    rw [modWave_const _ _ _ _ _ hw]
  · intro s core h
    have hfix : barrierReleaseAt core s.clk s.pkg = s.pkg :=
      List.foldlRecOn (motive := fun q => q = s.pkg) _ _ rfl fun q hq i _ => by rw [hq]; exact releaseWave_not (h i)
    rw [exec_barrierRelease, hfix]
  · intro s core slot w b d x sync due hs hw hb ho hdue hoth
    obtain ⟨z, hz, hu⟩ := released_spec hb d x sync
    refine ⟨z, w.released d x sync, ?_, hz, hu⟩
    rw [OnWave, exec_barrierRelease]
    refine congrArg _ (congrArg (fun q => ({ s with pkg := q } : State)) ?_)
    refine barrierReleaseAt_one hs (releaseWave_goes hw hb ho hdue) (fun i hi => releaseWave_not fun w b d x e y due => hoth i w b d x e y due hi)
      fun i hi => releaseWave_not fun w b d x e y due hwi => ?_
    rw [wave?_modWave, if_neg (fun e => hi e.2)] at hwi
    exact hoth i w b d x e y due hi hwi
  · intro s core slot w b d x sync due hs hw hb ho hdue hoth
    rw [exec_barrierRelease]
    refine congrArg _ (congrArg (fun q => ({ s with pkg := q } : State)) ?_)
    refine barrierReleaseAt_one hs (releaseWave_ends hw hb ho hdue) (fun i hi => releaseWave_not fun w b d x e y due hwi => ?_)
      fun i hi => releaseWave_not fun w b d x e y due hwi => ?_
    · rw [hoth i hi] at hwi
      cases hwi
    · rw [(NoNewWaves.endWave s.pkg core slot).empty core i (hoth i hi)] at hwi
      cases hwi
  · intro s core row group hlt
    refine ⟨_, rfl, fun n => ?_, ?_⟩
    · change n ∈ ((bankFailureAt core row group s.pkg).core core).ctx.spPoison ↔ _
      rw [bankFailureAt_core, Package.modCtx, core_modCore_self _ _ _ hlt]
      dsimp only
      rw [mem_failGranules]
      simp only [mem_groupGranules]
      refine or_congr_right ⟨?_, ?_⟩
      · rintro ⟨i, ⟨hi, hg⟩, rfl⟩
        exact ⟨i, hi, rfl, hg⟩
      · rintro ⟨i, hi, rfl, hg⟩
        exact ⟨i, ⟨hi, hg⟩, rfl⟩
    · change ((bankFailureAt core row group s.pkg).core core).ctx.sp = _
      rw [bankFailureAt_core, Package.modCtx, core_modCore_self _ _ _ hlt]
      rfl
end

section
/-! SUPPORT. Flush markers, gather entries and the ticket unit, one lemma for each thing an event does (Sys2Proof/Machine/Order.lean: R260, R263, R377, R378). -/

namespace Sys2Proof.Machine

theorem exec_flushMarkerArrival (stage : Nat) (s : State) :
    exec (.flushMarkerArrival stage) s = .next { s with pkg := flushMarkerAt stage s.clk s.pkg } := rfl

theorem exec_gatherReply (stage : Nat) (s : State) : exec (.gatherReply stage) s = .next { s with pkg := gatherReplyAt stage s.clk s.pkg } := rfl

theorem exec_ticketRelease (i : Nat) (s : State) : exec (.ticketRelease i) s = .next { s with pkg := ticketReleaseAt i s.clk s.pkg } := rfl

theorem exec_ticketAdvance (i : Nat) (s : State) : exec (.ticketAdvance i) s = .next { s with pkg := ticketAdvanceAt i s.clk s.pkg } := rfl

theorem exec_sliceReleaseApply (m : Nat) (s : State) : exec (.sliceReleaseApply m) s = .next { s with pkg := sliceReleaseAt m s.clk s.pkg } := rfl

/-! An element changed as it stands is changed to a value. -/

theorem modAt_congr {α : Type} {l : List α} {i : Nat} {f g : α → α} (h : ∀ x, l[i]? = some x → f x = g x) : modAt l i f = modAt l i g := by
  apply List.ext_getElem?
  intro n
  rw [modAt_get?, modAt_get?]
  split
  · next hn =>
    subst hn
    cases hx : l[n]? with
    | none => rfl
    | some x => rw [Option.map_some, Option.map_some, h x hx]
  · rfl

theorem modStage_congr {p : Package} {i : Nat} {f g : Stage → Stage} (h : f (p.stageAt i) = g (p.stageAt i)) : p.modStage i f = p.modStage i g := by
  rw [Package.modStage, Package.modStage, modAt_congr]
  intro x hx
  have : p.stageAt i = x := by rw [Package.stageAt, List.getD_eq_getElem?_getD, hx]; rfl
  rwa [this] at h

theorem modCompany_congr {p : Package} {m : Nat} {f g : Company → Company} (h : f (p.company m) = g (p.company m)) :
    p.modCompany m f = p.modCompany m g := by
  rw [Package.modCompany, Package.modCompany, modAt_congr]
  intro x hx
  have : p.company m = x := by rw [Package.company, List.getD_eq_getElem?_getD, hx]; rfl
  rwa [this] at h

/-! Flush markers (R260). -/

/-- A stage takes a marker: its path bit is set in the entry of its fence, which it makes where there is none (R260). -/
def Stage.takeMarker (x : Stage) (i : Nat) (m : Marker) : Stage :=
  let bit := BitVec.ofNat 2 (2 ^ m.path)
  let mine := fun g : Gather => g.core = m.core && g.slot = m.slot
  { x with
    markers := x.markers.eraseIdx i
    gather := if x.gather.any mine then x.gather.map fun g => if mine g then { g with paths := g.paths ||| bit } else g
      else x.gather ++ [{ core := m.core, slot := m.slot, paths := bit, from_ := stageOf m.core, sent := m.sent }] }

theorem flushMarkerAt_none {p : Package} {stage : Nat} {k : Clock} (h : ∀ m ∈ (p.stageAt stage).markers, k.mcyc < m.arrives) :
    flushMarkerAt stage k p = p := by
  have hn : (p.stageAt stage).nextMarker k.mcyc = none :=
    findIdx?_eq_none_iff.2 fun m hm => by simp [Nat.not_le.2 (h m hm)]
  rw [flushMarkerAt, hn]
  rfl

theorem hasRoom_of_short {x : Stage} (h : x.gather.length < 256) (m : Marker) : x.hasRoom m = true := by
  have := List.length_filter_le (fun g : Gather => decide (g.from_ = stageOf m.core)) x.gather
  unfold Stage.hasRoom
  rw [Bool.or_eq_true]
  exact Or.inr (decide_eq_true (by omega))

/-- With room for every fence, the first marker is taken once it has arrived. -/
theorem nextMarker_head {x : Stage} {m : Marker} {l : List Marker} {t : Nat} (hm : x.markers = m :: l) (ha : m.arrives ≤ t)
    (h : x.gather.length < 256) : x.nextMarker t = some 0 := by
  rw [Stage.nextMarker, findIdx?_eq_some_iff]
  refine ⟨⟨m, by rw [hm]; rfl, ?_⟩, fun j _ hj => absurd hj (Nat.not_lt_zero j)⟩
  simp [hasRoom_of_short h, ha]

theorem flushMarkerAt_head {p : Package} {stage : Nat} {k : Clock} {m : Marker} {l : List Marker} (hm : (p.stageAt stage).markers = m :: l)
    (ha : m.arrives ≤ k.mcyc) (h : (p.stageAt stage).gather.length < 256) :
    flushMarkerAt stage k p = p.modStage stage fun _ => (p.stageAt stage).takeMarker 0 m := by
  have hi : (p.stageAt stage).markers[0]? = some m := by rw [hm]; rfl
  rw [flushMarkerAt]
  dsimp only
  rw [nextMarker_head hm ha h, Option.bind_some, hi]
  exact modStage_congr rfl

theorem takeMarker_new {x : Stage} {m : Marker} {l : List Marker} (hm : x.markers = m :: l) (hg : x.gather = []) :
    x.takeMarker 0 m =
      { x with markers := l, gather := [{ core := m.core, slot := m.slot, paths := BitVec.ofNat 2 (2 ^ m.path), from_ := m.core / 64, sent := m.sent }] } := by
  rw [Stage.takeMarker, hm, hg]
  rfl

theorem takeMarker_known {x : Stage} {m : Marker} {l : List Marker} {g : Gather} (hm : x.markers = m :: l) (hg : x.gather = [g])
    (hc : g.core = m.core) (hs : g.slot = m.slot) :
    x.takeMarker 0 m = { x with markers := l, gather := [{ g with paths := g.paths ||| BitVec.ofNat 2 (2 ^ m.path) }] } := by
  simp only [Stage.takeMarker, hm, hg, hc, hs, List.any_cons, List.map_cons, List.map_nil, decide_true, Bool.and_self, Bool.true_or, if_true,
    List.eraseIdx_cons_zero]

/-! Gather entries (R260). -/

theorem gatherReplyAt_none {p : Package} {stage : Nat} (h : p.gatherReady stage = none) (k : Clock) : gatherReplyAt stage k p = p := by
  rw [gatherReplyAt, h]

/-- What a stage hears of a reply: the stage's bit is cleared, and the fence may end 60 mesh cycles later (R260, Table 13.3). -/
def Fence.heard (f : Fence) (stage t : Nat) : Fence := { f with stages := f.stages &&& ~~~BitVec.ofNat 4 (2 ^ stage), ready := max f.ready t }

/-- The reply of a gather entry: the entry is freed, its fence hears of the stage, and may be performed when the reply is there (R260). -/
def Package.gathered (p : Package) (stage : Nat) (g : Gather) (t : Nat) : Package :=
  ((p.modStage stage fun s => { s with gather := s.gather.filter fun x => !(x.core = g.core && x.slot = g.slot) }).modWave g.core g.slot
    fun w => { w with fence := w.fence.map fun f => f.heard stage t }).later (.mesh t) (.fencePerformed g.core g.slot)

theorem gatherReplyAt_eq {p : Package} {stage : Nat} {g : Gather} (h : p.gatherReady stage = some g) (k : Clock) :
    gatherReplyAt stage k p =
      if (((p.gathered stage g (k.mcyc + 60)).stageAt stage).nextMarker k.mcyc).isSome then
        (p.gathered stage g (k.mcyc + 60)).later .now (.flushMarkerArrival stage)
      else p.gathered stage g (k.mcyc + 60) := by
  rw [gatherReplyAt, h]
  rfl

theorem gathered_wave {p : Package} {g : Gather} {w : Wave} {f : Fence} (hw : p.wave? g.core g.slot = some w) (hf : w.fence = some f) (stage t : Nat) :
    (p.gathered stage g t).wave? g.core g.slot = some { w with fence := some (f.heard stage t) } := by
  refine (wave?_modWave ..).trans ?_
  rw [if_pos ⟨rfl, rfl⟩]
  refine (congrArg _ hw).trans ?_
  rw [Option.map_some, hf]
  rfl

theorem gathered_due (p : Package) (stage : Nat) (g : Gather) (t : Nat) :
    { at_ := .mesh t, ev := .fencePerformed g.core g.slot } ∈ (p.gathered stage g t).due :=
  List.mem_append_right _ (List.mem_singleton.2 rfl)

theorem gatherReplyAt_some {p : Package} {stage : Nat} {g : Gather} {w : Wave} {f : Fence} (h : p.gatherReady stage = some g)
    (hw : p.wave? g.core g.slot = some w) (hf : w.fence = some f) (k : Clock) :
    (gatherReplyAt stage k p).wave? g.core g.slot = some { w with fence := some (f.heard stage (k.mcyc + 60)) }
      ∧ { at_ := .mesh (k.mcyc + 60), ev := .fencePerformed g.core g.slot } ∈ (gatherReplyAt stage k p).due := by
  rw [gatherReplyAt_eq h]
  split
  · exact ⟨gathered_wave hw hf stage _, List.mem_append_left _ (gathered_due ..)⟩
  · exact ⟨gathered_wave hw hf stage _, gathered_due ..⟩

/-! The release of an ordered cast (R263, R378). -/

theorem ticketReleaseAt_none {p : Package} {i : Nat} (h : p.ticket? i = none) (k : Clock) : ticketReleaseAt i k p = p := by
  rw [ticketReleaseAt, h]

theorem ticketReleaseAt_waits {p : Package} {i : Nat} {x : Ticket} (hx : p.ticket? i = some x)
    (h : p.goneCast x.key = none ∨ x.tkpend ≠ 0 ∨ p.castInFlight x.key = true) (k : Clock) : ticketReleaseAt i k p = p := by
  unfold ticketReleaseAt
  rw [hx]
  dsimp only
  split
  · rfl
  · next killed hk =>
    have h' := h.resolve_left (by rw [hk]; exact Option.some_ne_none _)
    rw [if_pos (by simpa using h')]

theorem ticket?_setTicket {p : Package} {i : Nat} {x : Ticket} (hx : p.ticket? i = some x) (y : Option Ticket) :
    ((setAt p.tickets i y)[i]?).join = y := by
  unfold Package.ticket? at hx
  rw [setAt, modAt_get?, if_pos rfl]
  cases hi : p.tickets[i]? with
  | none => rw [hi] at hx; cases hx
  | some z => rfl

theorem mem_companyMask {l : List Nat} (z : BitVec 32) {n : Nat} (hn : n < 32) :
    (l.foldl (fun x m => x ||| BitVec.ofNat 32 (2 ^ m)) z).getLsbD n = true ↔ z.getLsbD n = true ∨ n ∈ l := by
  induction l generalizing z with
  | nil => simp
  | cons m l ih =>
    rw [List.foldl_cons, ih]
    simp only [BitVec.getLsbD_or, BitVec.getLsbD_ofNat, Nat.testBit_two_pow, hn, decide_true, Bool.true_and, Bool.or_eq_true, decide_eq_true_eq,
      List.mem_cons, or_assoc, eq_comm (a := n) (b := m)]

theorem mem_presentCompanies {p : Package} {m : Nat} (hm : m < 32) : m ∈ p.presentCompanies ↔ p.stages.getLsbD (m / 8) = true := by
  simp only [Package.presentCompanies, List.mem_filter, List.mem_range, hm, true_and, Package.present]

theorem ticketReleaseAt_goes {p : Package} {i : Nat} {x : Ticket} {killed : Bool} (hx : p.ticket? i = some x) (hk : p.goneCast x.key = some killed)
    (h0 : x.tkpend = 0) (hf : p.castInFlight x.key = false) (k : Clock) :
    (ticketReleaseAt i k p).ticket? i = some { x with
        tkpend := p.presentCompanies.foldl (fun x m => x ||| BitVec.ofNat 32 (2 ^ m)) 0, killed := killed, reported := 0 }
      ∧ (k.mcyc, .release x.key killed) ∈ (ticketReleaseAt i k p).cueIn := by
  have hgo : (x.tkpend ≠ 0 || p.castInFlight x.key) = false := by simp [h0, hf]
  unfold ticketReleaseAt
  rw [hx]
  dsimp only
  rw [hk]
  dsimp only
  rw [if_neg (by rw [hgo]; exact Bool.false_ne_true)]
  refine ⟨?_, List.mem_append_right _ (List.mem_singleton.2 rfl)⟩
  refine Eq.trans (congrArg (fun l : List (Option Ticket) => (l[i]?).join) (?_ : _ = setAt p.tickets i _)) (ticket?_setTicket hx _)
  exact List.foldlRecOn (motive := fun q : Package => q.tickets = setAt p.tickets i _) p.presentCompanies _ rfl fun _ hq _ _ => hq

theorem ticketAdvanceAt_none {p : Package} {i : Nat} (h : p.ticket? i = none) (k : Clock) : ticketAdvanceAt i k p = p := by
  rw [ticketAdvanceAt, h]

theorem ticketAdvanceAt_waits {p : Package} {i : Nat} {x : Ticket} {k : Clock} (hx : p.ticket? i = some x)
    (h : x.reported = 0 ∨ x.tkpend ≠ 0 ∨ k.mcyc ≤ x.reported) : ticketAdvanceAt i k p = p := by
  rw [ticketAdvanceAt, hx]
  dsimp only
  rw [if_pos (by simpa [or_assoc] using h)]

/-- With no request held at a full staging region, the retry changes no ticket. -/
theorem retryStaged_tickets {p : Package} (h : ∀ m, (p.company m).stageWait = []) (k : Clock) : (p.retryStaged k).tickets = p.tickets := by
  refine (List.foldlRecOn (motive := fun q : Package => q.tickets = p.tickets ∧ ∀ m, (q.company m).stageWait = []) _ _ ⟨rfl, h⟩
    fun q hq m _ => ?_).1
  obtain ⟨ht, hs⟩ := hq
  dsimp only
  rw [hs m]
  refine ⟨ht, fun n => ?_⟩
  rw [List.foldl_nil, company_modCompany _ _ _ _ (Or.inl rfl)]
  split
  · rfl
  · exact hs n

theorem ticketAdvanceAt_goes {p : Package} {i : Nat} {x : Ticket} {k : Clock} (hx : p.ticket? i = some x) (hr : x.reported ≠ 0) (h0 : x.tkpend = 0)
    (hk : x.reported < k.mcyc) (hs : ∀ m, (p.company m).stageWait = []) :
    (ticketAdvanceAt i k p).ticket? i =
      (let y := { x with tknext := x.tknext + 1, killed := false, early := false, reported := 0 }
      if p.ticketOver y then none else some y) := by
  unfold ticketAdvanceAt
  rw [hx]
  dsimp only
  rw [if_neg (by simp [hr, h0, hk])]
  refine (congrArg (fun l : List (Option Ticket) => (l[i]?).join) (retryStaged_tickets ?_ k)).trans ?_
  · exact hs
  · exact ticket?_setTicket hx _

/-! A slice applies a release (R263). -/

theorem applyStaged_memoryOnly (p : Package) (m : Nat) (key : LaunchKey) (discard : Bool) : MemoryOnly p (p.applyStaged m key discard) := by
  unfold Package.applyStaged
  refine .ite (.modCompany ..) ((MemoryOnly.modCompany ..).trans (.foldl (fun q s => ?_) _ _))
  exact .ite (.refl q) (.storeLine ..)

theorem sliceReleaseAt_none {p : Package} {m : Nat} {k : Clock} (h : ∀ r ∈ (p.company m).releases, k.mcyc < r.2.2) : sliceReleaseAt m k p = p := by
  have hn : findIdx? (fun r : LaunchKey × Bool × Nat => decide (r.2.2 ≤ k.mcyc)) (p.company m).releases = none :=
    findIdx?_eq_none_iff.2 fun r hr => decide_eq_false (Nat.not_le.2 (h r hr))
  rw [sliceReleaseAt]
  dsimp only
  rw [hn]
  rfl

theorem sliceReleaseAt_one {p : Package} {m at_ : Nat} {key : LaunchKey} {killed : Bool} {k : Clock}
    (h : (p.company m).releases = [(key, killed, at_)]) (ha : at_ ≤ k.mcyc) (ht : p.ticketIdx key = none) :
    sliceReleaseAt m k p = (p.modCompany m fun c => { c with releases := [] }).applyStaged m key killed := by
  have hr : (p.modCompany m fun c => { c with releases := c.releases.eraseIdx 0 }) = p.modCompany m fun c => { c with releases := [] } :=
    modCompany_congr (by rw [h]; rfl)
  have hi : ((p.modCompany m fun c => { c with releases := [] }).applyStaged m key killed).ticketIdx key = none := by
    rw [Package.ticketIdx, ((MemoryOnly.modCompany ..).trans (applyStaged_memoryOnly ..)).tickets]
    exact ht
  rw [sliceReleaseAt, h]
  simp only [findIdx?, ha, decide_true, if_true, Option.bind_some, List.getElem?_cons_zero, Option.map_some, hr, hi]

end Sys2Proof.Machine

open Sys2Proof Sys2Proof.Machine in
/-- Settles O40: what each event finds that keeps it from acting, and what it does where it acts. -/
theorem orderingEvents : Obligations.OrderingEvents := by
  refine ⟨fun s stage h => ?_, fun s stage m l hm ha _ hg => ?_, fun s stage m l g hm ha hg hc hs => ?_, fun s stage h => ?_,
    fun s stage g w f h hw hf => ⟨_, exec_gatherReply stage s, gatherReplyAt_some h hw hf s.clk⟩, fun s i h => ?_, fun s i x hx => ⟨fun h => ?_, ?_, fun h => ?_, ?_⟩,
    fun s m h => ?_, fun s m key killed at_ h ha ht => ?_, fun s k v => rfl⟩
  · rw [exec_flushMarkerArrival, flushMarkerAt_none h]
  · rw [exec_flushMarkerArrival, flushMarkerAt_head hm ha (by simp [hg]), takeMarker_new hm hg]
    exact congrArg (fun q => Host.Outcome.next ({ s with pkg := q } : State)) (modStage_congr rfl)
  · rw [exec_flushMarkerArrival, flushMarkerAt_head hm ha (by simp [hg]), takeMarker_known hm hg hc hs]
    exact congrArg (fun q => Host.Outcome.next ({ s with pkg := q } : State)) (modStage_congr rfl)
  · rw [exec_gatherReply, gatherReplyAt_none h]
  · rw [exec_ticketRelease, exec_ticketAdvance, ticketReleaseAt_none h, ticketAdvanceAt_none h]
    exact ⟨rfl, rfl⟩
  · rw [exec_ticketRelease, ticketReleaseAt_waits hx h]
  · intro killed hk h0 hf
    obtain ⟨hy, hcue⟩ := ticketReleaseAt_goes hx hk h0 hf s.clk
    refine ⟨_, _, exec_ticketRelease i s, hy, rfl, fun m hm => ?_, hcue⟩
    rw [mem_companyMask _ hm, ← mem_presentCompanies hm]
    simp
  · rw [exec_ticketAdvance, ticketAdvanceAt_waits hx h]
  · exact fun hr h0 hk hs => ⟨_, exec_ticketAdvance i s, ticketAdvanceAt_goes hx hr h0 hk hs⟩
  · rw [exec_sliceReleaseApply, sliceReleaseAt_none h]
  · rw [exec_sliceReleaseApply, sliceReleaseAt_one h ha ht]
end

section
/-! SUPPORT. The placement pass with one waiting batch (Sys2Proof/Machine/Sched.lean: R331 to R334). -/

namespace Sys2Proof.Machine

theorem exec_placementPass (s : State) : exec .placementPass s = .next { s with pkg := placementAt s.clk s.pkg } := rfl

theorem validParts_none {p : Package} (h : ∀ k, k < 8 → (p.part k).valid = false) : p.validParts = [] := by
  rw [Package.validParts, List.filter_eq_nil_iff]
  intro k hk
  rw [h k (List.mem_range.1 hk)]
  exact Bool.false_ne_true

theorem validParts_one {p : Package} {k : Nat} (h : ∀ j, j < 8 → ((p.part j).valid = true ↔ j = k)) (hk : k < 8) : p.validParts = [k] := by
  have hf : p.validParts = (List.range 8).filter (· == k) :=
    List.filter_congr fun j hj => Bool.eq_iff_iff.2 ((h j (List.mem_range.1 hj)).trans beq_iff_eq.symm)
  rw [hf, List.filter_beq, List.count_eq_one_of_mem List.nodup_range (List.mem_range.2 hk)]
  rfl

/-! Reservations (R333) and entries. -/

theorem reserve_rest (p : Package) (ds : List (Nat × Nat)) (add : Bool) : p.reserve ds add = { p with vaults := (p.reserve ds add).vaults } := by
  refine List.foldlRecOn (motive := fun q : Package => q = { p with vaults := q.vaults }) ds _ rfl fun q hq d _ => ?_
  dsimp only [Package.modVault]
  rw [hq]

theorem modEntry_one {p : Package} {e : CastEntry} (h : p.casts = [e]) (f : CastEntry → CastEntry) :
    p.modEntry e.id f = { p with casts := [f e] } := by
  simp only [Package.modEntry, h, List.map_cons, List.map_nil, if_true]

theorem entry?_one {p : Package} {e : CastEntry} (h : p.casts = [e]) : p.entry? e.id = some e := by
  simp only [Package.entry?, h, List.find?_cons, decide_true]

/-! The node checks of a pass (R328) leave what has been checked. -/

theorem checkEntry_checked {p : Package} {k node : Nat} (h : (p.node k node).checked = true) (t : Clock) : p.checkEntry t k node = p := by
  unfold Package.checkEntry
  simp only [h, Bool.or_true, if_true]

theorem checkEntries_checked {p : Package} {k : Nat} (h : ∀ x ∈ (p.part k).nodes, (p.node k x.1).checked = true) (t : Clock) :
    ((p.part k).nodes.map Prod.fst).foldl (fun q node => q.checkEntry t k node) p = p := by
  refine List.foldlRecOn (motive := fun q => q = p) _ _ rfl fun q hq n hn => ?_
  obtain ⟨x, hx, rfl⟩ := List.mem_map.1 hn
  rw [hq, checkEntry_checked (h x hx)]

/-! One batch that waits, of no co-group, not ordered, not starving (R331, R334). -/

/-- The batch is the only cast of the package, and nothing but the checks of Table 18.6 decides on it. -/
structure LoneBatch (p : Package) (e : CastEntry) : Prop where
  casts : p.casts = [e]
  state : e.state = .pending
  refused : e.refused < 63
  cog : (p.node e.part e.node).cog = 0
  ordPend : (p.part e.part).ordPend = false
  held : p.heldLaunch e.key = false

section
variable {p : Package} {e : CastEntry} (h : LoneBatch p e)
include h

theorem LoneBatch.ctx? : e.ctx? = none := by rw [CastEntry.ctx?, h.state]

theorem LoneBatch.waiting : e.waiting = true := by rw [CastEntry.waiting, h.state]

theorem LoneBatch.not_keptOut : p.keptOut e = false := by
  have hs : p.starving e.part = [] := by
    have := h.refused
    rw [Package.starving, h.casts, List.filter_eq_nil_iff]
    intro x hx
    rw [List.mem_singleton.1 hx]
    simp only [Bool.and_eq_true, decide_eq_true_eq, not_and]
    omega
  rw [Package.keptOut, hs, List.any_nil, Bool.and_false]

theorem LoneBatch.not_ordered : p.nextOrdered e.part = false := by
  have hl : p.liveCast e.part = false := by simp [Package.liveCast, h.casts, h.state]
  rw [Package.nextOrdered, hl, if_neg Bool.false_ne_true, h.ordPend]

theorem LoneBatch.ticketFor : p.ticketFor e = true := by simp [Package.ticketFor, h.not_ordered]

theorem LoneBatch.withTicket : p.withTicket e = p := by
  rw [Package.withTicket, h.not_ordered, if_pos (by simp)]

theorem LoneBatch.passEntry_fault (hf : (p.node e.part e.node).fault = true) (t : Clock) :
    passEntry t { pkg := p, held := [], seen := [] } e.id = { pkg := p, held := [], seen := [] } := by
  simp only [passEntry, entry?_one h.casts, h.waiting, h.state, hf, decide_true, Bool.or_true, Bool.and_self, if_true]

theorem LoneBatch.passEntry_pkg (hf : (p.node e.part e.node).fault = false) (t : Clock) :
    (passEntry t { pkg := p, held := [], seen := [] } e.id).pkg = p.passSingle t e := by
  simp [passEntry, entry?_one h.casts, h.waiting, h.state, hf, h.not_keptOut, h.ticketFor, h.cog]

/-- What a pass makes of the batch of a partition that nothing keeps from placing. -/
theorem LoneBatch.passPart (hp : p.planeOp = none) (hs : (p.part e.part).recovery.stopping = false) (hr : (p.part e.part).recovery.resumeAt = none)
    (hn : ∀ x ∈ (p.part e.part).nodes, (p.node e.part x.1).checked = true) (t : Clock) :
    p.passPart t e.part = (passEntry t { pkg := p, held := [], seen := [] } e.id).pkg := by
  have hw : p.casts.filter (fun x => x.part = e.part && x.waiting) = [e] := by simp [h.casts, h.waiting]
  rw [Package.passPart, checkEntries_checked hn]
  dsimp only
  rw [hp, hs, hr, hw]
  rfl

theorem LoneBatch.passSingle_refused {c r : Nat} (hc : (p.candidates e.part)[0]? = some c) (hr : p.tryCore (p.want e) c = .error r)
    (hall : ∀ d ∈ p.candidates e.part, ∃ r, p.tryCore (p.want e) d = .error r) (t : Clock) : p.passSingle t e =
      { p.refuseNode t e.part e.node r with casts := [{ e with refused := if 1 ≤ r ∧ r ≤ 4 then e.refused + 1 else 0 }] } := by
  have hfit : p.firstFit (p.want e) (p.candidates e.part) = none := by
    refine List.findSome?_eq_none_iff.2 fun d hd => ?_
    obtain ⟨r', hr'⟩ := hall d hd
    rw [hr']
  have hreason : p.firstReason (p.want e) (p.candidates e.part) = some r := by
    rw [Package.firstReason, List.head?_eq_getElem?, hc, Option.bind_some, hr]
  have hq : p.refuse t e r =
      { p.refuseNode t e.part e.node r with casts := [{ e with refused := if 1 ≤ r ∧ r ≤ 4 then e.refused + 1 else 0 }] } := by
    rw [Package.refuse, modEntry_one (p := p.refuseNode t e.part e.node r) h.casts]
    simp only [Bool.and_eq_true, decide_eq_true_eq]
  have hrest : (p.refuse t e r).afterRefusal t e (p.candidates e.part) = p.refuse t e r := by
    have hheld : (p.refuse t e r).heldLaunch e.key = false := h.held
    have hlow : ¬ 64 ≤ (if 1 ≤ r ∧ r ≤ 4 then e.refused + 1 else 0) := by
      have := h.refused
      split <;> omega
    have he : ((p.refuse t e r).entry? e.id).any (fun x => decide (64 ≤ x.refused)) = false := by
      rw [hq]
      simp only [Package.entry?, List.find?_cons, decide_true, Option.any_some, decide_eq_false hlow]
    rw [Package.afterRefusal, Package.precedes, hheld, Bool.and_false, he, Bool.and_false]
    rfl
  rw [Package.passSingle, hfit, hreason]
  exact hrest.trans hq

theorem LoneBatch.passSingle_fits {i c : Nat} {spot : Spot} (hc : (p.candidates e.part)[i]? = some c) (hs : p.tryCore (p.want e) c = .ok spot)
    (hb : ∀ j d, j < i → (p.candidates e.part)[j]? = some d → ∃ r, p.tryCore (p.want e) d = .error r) (t : Clock) :
    p.passSingle t e = p.place t e c spot e.cogroup := by
  have hfit : p.firstFit (p.want e) (p.candidates e.part) = some (c, spot) := by
    obtain ⟨hlt, hget⟩ := List.getElem?_eq_some_iff.1 hc
    refine List.findSome?_eq_some_iff.2 ⟨(p.candidates e.part).take i, c, (p.candidates e.part).drop (i + 1), ?_, by rw [hs], fun d hd => ?_⟩
    · rw [← hget, List.cons_getElem_drop_succ, List.take_append_drop]
    · obtain ⟨j, hj, hjd⟩ := List.mem_take_iff_getElem.1 hd
      obtain ⟨r, hr⟩ := hb j d (by omega) (List.getElem?_eq_some_iff.2 ⟨by omega, hjd⟩)
      rw [hr]
  rw [Package.passSingle, hfit, h.withTicket]

end

/-! The LAUNCH record of a placed batch (R329). -/

/-- A batch that goes to a core. -/
def CastEntry.placedOn (e : CastEntry) (p : Package) (core : Nat) (s : Spot) : CastEntry :=
  { e with castid := some (e.castid.getD p.freeCastid), state := .placed core none, demands := s.demands, refused := 0 }

theorem place_eq {p : Package} {e : CastEntry} (h : LoneBatch p e) (t : Clock) (core : Nat) (s : Spot) :
    p.place t e core s e.cogroup =
      ({ p with vaults := (p.reserve s.demands true).vaults, casts := [e.placedOn p core s] } : Package).sendBind t core
        ((e.placedOn p core s).bind .launch s) := by
  rw [Package.place, h.ctx?, modEntry_one (p := p.reserve s.demands true) (by rw [reserve_rest]; exact h.casts), reserve_rest]
  rfl

theorem core_sendBind {p : Package} {core : Nat} (h : core < p.cores.length) (t : Clock) (b : Bind) :
    ((p.sendBind t core b).core core).binds = (p.core core).binds ++ [{ b with arrives := t.mcyc + p.transit core }] := by
  have := core_modCore_self p core (fun c => { c with binds := c.binds ++ [{ b with arrives := t.mcyc + p.transit core }] }) h
  exact congrArg Core.binds this

/-! Candidates are cores (R331). -/

theorem mem_insertRank {α : Type} {rank : α → Nat} {x y : α} {l : List α} : x ∈ insertRank rank y l ↔ x = y ∨ x ∈ l := by
  induction l with
  | nil => simp [insertRank]
  | cons z l ih =>
    unfold insertRank
    split
    · simp only [List.mem_cons]
    · simp only [List.mem_cons, ih, or_left_comm]

theorem mem_byRank {α : Type} {rank : α → Nat} {x : α} {l : List α} : x ∈ byRank rank l ↔ x ∈ l := by
  have hacc : ∀ a : List α, x ∈ l.foldl (fun a y => insertRank rank y a) a ↔ x ∈ a ∨ x ∈ l := by
    induction l with
    | nil => simp
    | cons y l ih => exact fun a => by rw [List.foldl_cons, ih, mem_insertRank, List.mem_cons, or_assoc, or_left_comm]
  exact (hacc []).trans (by simp)

theorem lt_of_candidate {p : Package} {k i c : Nat} (h : (p.candidates k)[i]? = some c) : c < 256 := by
  have hm : c ∈ p.partCores k := mem_byRank.1 (List.mem_of_getElem? h)
  exact List.mem_range.1 (List.mem_filter.1 hm).1

end Sys2Proof.Machine
end

section
/-! SUPPORT. Bind records at a core (Sys2Proof/Machine/Sched.lean: R329, R330): what is applied, what is found taken, and what goes back. -/

namespace Sys2Proof.Machine

theorem exec_launch (core : Nat) (s : State) : exec (.launch core) s = .next { s with pkg := launchAt core s.clk s.pkg } := rfl

theorem exec_resume (core : Nat) (s : State) : exec (.resume core) s = .next { s with pkg := resumeAt core s.clk s.pkg } := rfl

/-! The record that is applied (R329, R341). -/

theorem no_record {s : State} {core : Nat} {op : BindOp} (h : NoRecordOf s core op) :
    (s.pkg.arrivedBind s.clk core).any (fun b => decide (b.op = op)) = false := by
  cases hb : s.pkg.arrivedBind s.clk core with
  | none => rfl
  | some b => exact decide_eq_false (h b hb)

theorem launchAt_other {s : State} {core : Nat} (h : NoRecordOf s core .launch) : launchAt core s.clk s.pkg = s.pkg := by
  rw [launchAt, no_record h, Bool.not_false, if_pos rfl]

theorem resumeAt_other {s : State} {core : Nat} (h : NoRecordOf s core .resume) : resumeAt core s.clk s.pkg = s.pkg := by
  rw [resumeAt, no_record h, Bool.not_false, if_pos rfl]

theorem any_modAt {α : Type} {l : List α} {f : α → α} {g : α → Bool} (h : ∀ x, g (f x) = g x) (i : Nat) : (modAt l i f).any g = l.any g := by
  induction l generalizing i with
  | nil => rfl
  | cons x l ih => cases i <;> simp only [modAt, List.any_cons, h, ih]

section
variable {s : State} {core : Nat} {b : Bind} {q : Package} (h : Applies s core b q)
include h

theorem Applies.arrived : s.pkg.arrivedBind s.clk core = some b := h.1

theorem Applies.takeBind : s.pkg.takeBind s.clk core = (q, some b) := by
  have harr := h.arrived
  obtain ⟨-, ⟨n, hn⟩, rfl⟩ := h
  rw [Package.takeBind, harr]
  dsimp only
  rw [hn]

theorem Applies.lt : core < s.pkg.cores.length := by
  by_contra hlt
  have hb := h.arrived
  rw [Package.arrivedBind, Package.core, List.getD_eq_default _ _ (Nat.le_of_not_lt hlt)] at hb
  cases hb

theorem Applies.casts : q.casts = s.pkg.casts := by rw [h.2.2]; rfl

theorem Applies.part (k : Nat) : q.part k = s.pkg.part k := by rw [h.2.2]; rfl

theorem Applies.nparts : q.parts.length = s.pkg.parts.length := by rw [h.2.2]; rfl

theorem Applies.node (k n : Nat) : q.node k n = s.pkg.node k n := by rw [h.2.2]; rfl

theorem Applies.ncores : q.cores.length = s.pkg.cores.length := by
  rw [h.2.2, cores_modCore]
  rfl

theorem Applies.coreAt : q.core core = { s.pkg.core core with binds := (s.pkg.core core).binds.erase b } := by
  rw [h.2.2]
  exact core_modCore_self (s.pkg.modCompany (companyOf core) fun c => { c with gating := .running 0 }) core _ h.lt

theorem Applies.ctx : (q.core core).ctx = (s.pkg.core core).ctx := by rw [h.coreAt]

theorem Applies.exitBusy (castid : BitVec 14) : q.exitBusy core castid = s.pkg.exitBusy core castid := by
  have hc : ∀ g : Company → Bool, (∀ x : Company, g { x with gating := .running 0 } = g x) → q.companies.any g = s.pkg.companies.any g := fun g hg => by
    rw [h.2.2]
    exact any_modAt hg _
  have hs : q.stage = s.pkg.stage := by rw [h.2.2]; rfl
  rw [Package.exitBusy, Package.exitBusy, hc, hs, h.coreAt]
  exact fun _ => rfl

theorem Applies.taken (x : Option SavedCast) : q.taken core b x = s.pkg.taken core b x := by
  have hr : q.rowsTaken core = s.pkg.rowsTaken core := by simp only [Package.rowsTaken, h.ctx, h.exitBusy]
  simp only [Package.taken, h.ctx, hr]

theorem Applies.coming {e : CastEntry} {x : Option SavedCast} (hc : s.pkg.casts = [e]) (he : e.id = b.entry) (hs : e.state = .placed core x) :
    q.coming core b = some e := by
  rw [Package.coming, ← he, entry?_one (h.casts.trans hc), Option.filter_some, hs, if_pos (by simp)]

end

/-! What is taken (R330). -/

theorem slotTaken_iff {ws : List (Option Wave)} {l : List Nat} :
    (l.any fun i => ((ws[i]?).join).isSome) = true ↔ ∃ i w, i ∈ l ∧ ws[i]? = some (some w) := by
  simp only [List.any_eq_true, Option.isSome_iff_exists, Option.join_eq_some_iff]
  exact ⟨fun ⟨i, hi, w, hw⟩ => ⟨i, w, hi, hw⟩, fun ⟨i, w, hi, hw⟩ => ⟨i, hi, w, hw⟩⟩

theorem unitTaken_iff {us : List (Option Nat)} {i n : Nat} :
    (!unitsFree us i n) = true ↔ us.length < i + n ∨ ∃ k o, i ≤ k ∧ k < i + n ∧ us[k]? = some (some o) := by
  have hall : ((us.drop i).take n).all Option.isNone = false ↔ ∃ k o, i ≤ k ∧ k < i + n ∧ us[k]? = some (some o) := by
    rw [List.all_eq_false]
    constructor
    · rintro ⟨x, hx, hn⟩
      obtain ⟨o, rfl⟩ := Option.ne_none_iff_exists'.1 (by simpa using hn : x ≠ none)
      obtain ⟨j, hj⟩ := List.mem_iff_getElem?.1 hx
      rw [List.getElem?_take] at hj
      split at hj
      · exact ⟨i + j, o, by omega, by omega, by rwa [List.getElem?_drop] at hj⟩
      · cases hj
    · rintro ⟨k, o, h1, h2, hk⟩
      refine ⟨some o, List.mem_iff_getElem?.2 ⟨k - i, ?_⟩, by simp⟩
      rw [List.getElem?_take, if_pos (by omega), List.getElem?_drop, Nat.add_sub_cancel' h1, hk]
  rw [unitsFree, Bool.not_and, Bool.or_eq_true, Bool.not_eq_true', Bool.not_eq_true', hall, decide_eq_false_iff_not, Nat.not_le]

theorem mem_rowsTaken {p : Package} {core : Nat} {u : Nat × Nat} : u ∈ p.rowsTaken core ↔
    (∃ c : Cast, some c ∈ (p.core core).ctx.casts ∧ (c.sprow, c.rows) = u) ∨ ∃ l ∈ (p.core core).ctx.leaving, p.exitBusy core l.1 = true ∧ l.2 = u := by
  simp only [Package.rowsTaken, List.mem_append, List.mem_filterMap, List.mem_map, List.mem_filter, Option.map_eq_some_iff]
  refine or_congr ⟨?_, ?_⟩ ⟨?_, ?_⟩
  · rintro ⟨_, hc, c, rfl, rfl⟩
    exact ⟨c, hc, rfl⟩
  · rintro ⟨c, hc, rfl⟩
    exact ⟨_, hc, c, rfl, rfl⟩
  · rintro ⟨l, ⟨hl, hb⟩, rfl⟩
    exact ⟨l, hl, hb, rfl⟩
  · rintro ⟨l, hl, hb, rfl⟩
    exact ⟨l, ⟨hl, hb⟩, rfl⟩

theorem rowTaken_iff {p : Package} {core row rows : Nat} :
    ((List.range rows).any fun i => !rowFree (p.rowsTaken core) (row + i)) = true ↔ ∃ r, row ≤ r ∧ r < row + rows
      ∧ ((∃ c : Cast, some c ∈ (p.core core).ctx.casts ∧ c.sprow ≤ r ∧ r < c.sprow + c.rows)
        ∨ ∃ l, l ∈ (p.core core).ctx.leaving ∧ p.exitBusy core l.1 = true ∧ l.2.1 ≤ r ∧ r < l.2.1 + l.2.2) := by
  have hfree : ∀ r, (!rowFree (p.rowsTaken core) r) = true ↔
      (∃ c : Cast, some c ∈ (p.core core).ctx.casts ∧ c.sprow ≤ r ∧ r < c.sprow + c.rows)
        ∨ ∃ l, l ∈ (p.core core).ctx.leaving ∧ p.exitBusy core l.1 = true ∧ l.2.1 ≤ r ∧ r < l.2.1 + l.2.2 := by
    intro r
    simp only [rowFree, Bool.not_not, List.any_eq_true, mem_rowsTaken, Bool.and_eq_true, decide_eq_true_eq]
    constructor
    · rintro ⟨_, ⟨c, hc, rfl⟩ | ⟨l, hl, hb, rfl⟩, h1, h2⟩
      · exact .inl ⟨c, hc, h1, h2⟩
      · exact .inr ⟨l, hl, hb, h1, h2⟩
    · rintro (⟨c, hc, h1, h2⟩ | ⟨l, hl, hb, h1, h2⟩)
      · exact ⟨_, .inl ⟨c, hc, rfl⟩, h1, h2⟩
      · exact ⟨_, .inr ⟨l, hl, hb, rfl⟩, h1, h2⟩
  simp only [List.any_eq_true, List.mem_range, hfree]
  constructor
  · rintro ⟨i, hi, hr⟩
    exact ⟨row + i, by omega, by omega, hr⟩
  · rintro ⟨r, h1, h2, hr⟩
    exact ⟨r - row, by omega, by rwa [Nat.add_sub_cancel' h1]⟩

/-- A saved context without collectives and armed follow slots finds no more taken than a new cast (R330). -/
theorem taken_eq {p : Package} {core : Nat} {b : Bind} {x : Option SavedCast} (hx : ∀ c ∈ x, c.colls = [] ∧ c.follow = []) :
    p.taken core b x = if (b.slots.any fun i => (((p.core core).ctx.waves[i]?).join).isSome) = true then some 1
      else if (!unitsFree (p.core core).ctx.units b.regbase b.units) = true then some 2
      else if ((List.range b.rows).any fun i => !rowFree (p.rowsTaken core) (b.sprow + i)) = true then some 3 else none := by
  cases x with
  | none => rfl
  | some c =>
    obtain ⟨hc, hf⟩ := hx c rfl
    simp [Package.taken, hc, hf]

theorem taken_of_takenFirst {s : State} {core : Nat} {b : Bind} {reason : Nat} {x : Option SavedCast} (h : TakenFirst s core b reason)
    (hx : ∀ c ∈ x, c.colls = [] ∧ c.follow = []) : s.pkg.taken core b x = if reason = 0 then none else some reason := by
  unfold TakenFirst at h
  dsimp only at h
  rw [← slotTaken_iff, ← unitTaken_iff, ← rowTaken_iff] at h
  rw [taken_eq hx]
  rcases h with ⟨rfl, h1⟩ | ⟨rfl, h1, h2⟩ | ⟨rfl, h1, h2, h3⟩ | ⟨rfl, h1, h2, h3⟩
  · rw [if_pos h1]; rfl
  · rw [if_neg h1, if_pos h2]; rfl
  · rw [if_neg h1, if_neg h2, if_pos h3]; rfl
  · rw [if_neg h1, if_neg h2, if_neg h3]; rfl

/-! A record goes back (R330). -/

theorem wakeBinds_rest (t : Clock) (p : Package) (core : Nat) : p.wakeBinds t core = { p with due := (p.wakeBinds t core).due } := by
  refine List.foldlRecOn (motive := fun q : Package => q = { p with due := q.due }) _ _ rfl fun q hq b _ => ?_
  dsimp only [Package.later]
  rw [hq]

theorem returnBind_one {p : Package} {b : Bind} {e : CastEntry} {core : Nat} (hc : p.casts = [e]) (he : e.id = b.entry) (hs : e.state = .placed core none)
    (t : Clock) (reason : Nat) : p.returnBind t b reason =
      ({ p with vaults := (p.reserve e.demands false).vaults, casts := [{ e with state := .pending, demands := [], castid := none }] } : Package).refuseNode t
        e.part e.node reason := by
  have hx : e.ctx? = none := by rw [CastEntry.ctx?, hs]
  rw [Package.returnBind, ← he, entry?_one hc]
  dsimp only
  rw [modEntry_one (p := p.reserve e.demands false) (by rw [reserve_rest]; exact hc), reserve_rest]
  dsimp only
  rw [hx]

/-- A LAUNCH record that finds nothing taken: it waits for the records of its batch, or its cast is set up (R41, R330). -/
def Package.launchOrRead (t : Clock) (q : Package) (core : Nat) (b : Bind) : Package :=
  match q.ringReads t core b with
  | some r => r.modCore core fun c => { c with binds := b :: c.binds }
  | none => (q.launchOn t core b).wakeBinds t core

section
variable {s : State} {core : Nat} {b : Bind} {q : Package} (h : Applies s core b q)
include h

/-- A LAUNCH record that is applied, up to what it finds taken. -/
theorem launchAt_applies {e : CastEntry} (ho : b.op = .launch) (hc : s.pkg.casts = [e]) (he : e.id = b.entry) (hs : e.state = .placed core none)
    {reason : Nat} (ht : TakenFirst s core b reason) : launchAt core s.clk s.pkg =
      if reason ≠ 0 then (q.returnBind s.clk b reason).wakeBinds s.clk core
      else q.launchOrRead s.clk core b := by
  have hgo : (!(s.pkg.arrivedBind s.clk core).any fun b => decide (b.op = .launch)) = false := by simp [h.arrived, ho]
  have htk : q.taken core b none = if reason = 0 then none else some reason :=
    (h.taken none).trans (taken_of_takenFirst ht fun _ hm => by cases hm)
  rw [launchAt, hgo, if_neg Bool.false_ne_true, h.takeBind]
  dsimp only
  rw [h.coming hc he hs]
  dsimp only
  rw [htk]
  by_cases hr : reason = 0
  · rw [if_pos hr, if_neg (not_not.2 hr)]
    rfl
  · rw [if_neg hr, if_pos hr]

theorem resumeAt_applies {e : CastEntry} {x : SavedCast} (ho : b.op = .resume) (hc : s.pkg.casts = [e]) (he : e.id = b.entry)
    (hs : e.state = .placed core (some x)) (ht : TakenFirst s core b 0) (hcolls : x.colls = []) (hfollow : x.follow = []) :
    resumeAt core s.clk s.pkg = q.resumeOn s.clk core b x := by
  have hgo : (!(s.pkg.arrivedBind s.clk core).any fun b => decide (b.op = .resume)) = false := by simp [h.arrived, ho]
  have htk : q.taken core b (some x) = none := by
    refine (h.taken _).trans (taken_of_takenFirst ht fun c hm => ?_)
    obtain rfl : x = c := Option.some.inj hm
    exact ⟨hcolls, hfollow⟩
  have hx : e.ctx? = some x := by rw [CastEntry.ctx?, hs]
  rw [resumeAt, hgo, if_neg Bool.false_ne_true, h.takeBind]
  dsimp only
  rw [h.coming hc he hs, Option.bind_some, hx]
  dsimp only
  rw [htk]

end

/-! Records of a ring in host space are read first (R41, R189). -/

/-- One record of a batch is asked for, unless it has been. -/
def Package.askRecord (t : Clock) (core : Nat) (b : Bind) (n : Node) (p : Package) (i : Nat) : Package :=
  if p.pcie.any fun x => x.2 = .cue core b.entry i then p
  else (p.takeTag b.partition (.cue core b.entry i)).1.later (.mesh (t.mcyc + p.hostWay core))
    (.egressTransaction 0 (.memRead (b.partition + 1) ((p.takeTag b.partition (.cue core b.entry i)).1.part b.partition).ctx.pasid.toNat
      (n.slotVa (b.batchpos + i) % 2 ^ 47) n.recsz (p.takeTag b.partition (.cue core b.entry i)).2))

/-- The records of a batch that are not here yet. -/
def Bind.missing (b : Bind) : List Nat := (List.range b.batchn).filter fun i => !b.recs.any fun r => r.1 = i

theorem mem_missing {b : Bind} {i : Nat} : i ∈ b.missing ↔ i < b.batchn ∧ ∀ x ∈ b.recs, x.1 ≠ i := by
  simp only [Bind.missing, List.mem_filter, List.mem_range, Bool.not_eq_true', List.any_eq_false, decide_eq_true_eq, ne_eq]

theorem ringReads_none {t : Clock} {p : Package} {core : Nat} {b : Bind}
    (h : isHostVa (BitVec.ofNat 64 (p.node b.partition b.node).cqbase) = false ∨ b.missing = []) : p.ringReads t core b = none := by
  rw [Package.ringReads]
  refine if_pos ?_
  rcases h with h | h
  · rw [h]; rfl
  · rw [show (List.range b.batchn).filter (fun i => !b.recs.any fun r => r.1 = i) = [] from h, List.isEmpty_nil, Bool.or_true]

theorem ringReads_some {p : Package} {b : Bind} (hh : isHostVa (BitVec.ofNat 64 (p.node b.partition b.node).cqbase) = true) (hm : b.missing ≠ [])
    (t : Clock) (core : Nat) : p.ringReads t core b = some (b.missing.foldl (Package.askRecord t core b (p.node b.partition b.node)) p) := by
  have hgo : ¬ (!isHostVa (BitVec.ofNat 64 (p.node b.partition b.node).cqbase) || b.missing.isEmpty) = true := by simp [hh, hm]
  exact if_neg hgo

/-- Asking for a record changes no core and no cast; the record has been asked for then, and what had been asked for still is. -/
theorem askRecord_asks (t : Clock) (core : Nat) (b : Bind) (n : Node) (p : Package) (i : Nat) :
    (p.askRecord t core b n i).cores = p.cores ∧ (p.askRecord t core b n i).casts = p.casts
      ∧ (∃ tag, (tag, PcieWait.cue core b.entry i) ∈ (p.askRecord t core b n i).pcie) ∧ p.pcie ⊆ (p.askRecord t core b n i).pcie := by
  unfold Package.askRecord
  split
  · next hany =>
    obtain ⟨⟨tag, w⟩, hx, hw⟩ := List.any_eq_true.1 hany
    obtain rfl : w = .cue core b.entry i := of_decide_eq_true hw
    exact ⟨rfl, rfl, ⟨tag, hx⟩, fun _ h => h⟩
  · exact ⟨rfl, rfl, ⟨_, List.mem_append_right _ (List.mem_singleton.2 rfl)⟩, fun _ h => List.mem_append_left _ h⟩

theorem askRecords_ask (t : Clock) (core : Nat) (b : Bind) (n : Node) (l : List Nat) (p : Package) :
    (l.foldl (Package.askRecord t core b n) p).cores = p.cores ∧ (l.foldl (Package.askRecord t core b n) p).casts = p.casts
      ∧ p.pcie ⊆ (l.foldl (Package.askRecord t core b n) p).pcie
      ∧ ∀ i ∈ l, ∃ tag, (tag, PcieWait.cue core b.entry i) ∈ (l.foldl (Package.askRecord t core b n) p).pcie := by
  induction l generalizing p with
  | nil => exact ⟨rfl, rfl, fun _ h => h, fun _ h => by cases h⟩
  | cons i l ih =>
    obtain ⟨h1, h2, ⟨tag, htag⟩, h3⟩ := askRecord_asks t core b n p i
    obtain ⟨g1, g2, g3, g4⟩ := ih (p.askRecord t core b n i)
    refine ⟨g1.trans h1, g2.trans h2, fun _ hx => g3 (h3 hx), fun j hj => ?_⟩
    rcases List.mem_cons.1 hj with rfl | hjl
    · exact ⟨tag, g3 htag⟩
    · exact g4 j hjl

end Sys2Proof.Machine
end

section
/-! SUPPORT. A cast that is launched or resumed on a core (Sys2Proof/Machine/Sched.lean: R41, R330, R335). -/

namespace Sys2Proof.Machine

/-! Writing several elements of a list, one after another. -/

section
variable {α β : Type} {k : α → Nat} {v : α → β} {l : List α} {j : Nat}

theorem foldl_setAt_other (h : ∀ y ∈ l, k y ≠ j) (ws : List β) : (l.foldl (fun ws y => setAt ws (k y) (v y)) ws)[j]? = ws[j]? := by
  refine List.foldlRecOn (motive := fun x : List β => x[j]? = ws[j]?) l _ rfl fun x hx y hy => ?_
  rw [setAt, modAt_get?, if_neg (fun e => h y hy e.symm)]
  exact hx

theorem foldl_setAt_mem {b : β} (hy : ∃ y ∈ l, k y = j) (h : ∀ z ∈ l, k z = j → v z = b) {ws : List β} (hj : j < ws.length) :
    (l.foldl (fun ws y => setAt ws (k y) (v y)) ws)[j]? = some b := by
  induction l generalizing ws with
  | nil => obtain ⟨y, hy, -⟩ := hy; cases hy
  | cons z l ih =>
    rw [List.foldl_cons]
    by_cases hl : ∃ x ∈ l, k x = j
    · exact ih hl (fun z hz => h z (List.mem_cons_of_mem _ hz)) (by rwa [setAt, modAt_length])
    · obtain ⟨y, hyl, hyj⟩ := hy
      have hz : k z = j := by
        rcases List.mem_cons.1 hyl with rfl | hyl
        · exact hyj
        · exact absurd ⟨y, hyl, hyj⟩ hl
      rw [foldl_setAt_other (fun x hx hxj => hl ⟨x, hx, hxj⟩), setAt, modAt_get?, if_pos hz.symm, List.getElem?_eq_getElem hj, Option.map_some,
        h z List.mem_cons_self hz]

end

theorem index_unique {l : List Nat} (hn : l.Nodup) {i i' j : Nat} (h : l[i]? = some j) (h' : l[i']? = some j) : i = i' :=
  (List.getElem?_inj (List.getElem?_eq_some_iff.1 h).1 hn).1 (h.trans h'.symm)

/-! The context of a core that takes a cast. -/

/-- The units of the waves of a cast that a record brings, taken for its cast slot (R330). -/
def Bind.takeUnits (b : Bind) (cslot : Nat) (us : List (Option Nat)) : List (Option Nat) :=
  b.slots.zipIdx.foldl (fun us s => (b.unitsOf s.2).foldl (fun us u => setAt us u (some cslot)) us) us

theorem takeUnits_get {b : Bind} {cslot i j u : Nat} (hi : i < b.slots.length) (hj : j < b.units / max b.slots.length 1)
    (hu : u = b.regbase + i * (b.units / max b.slots.length 1) + j) {us : List (Option Nat)} (hlt : u < us.length) :
    (b.takeUnits cslot us)[u]? = some (some cslot) := by
  rw [Bind.takeUnits, ← List.foldl_flatMap]
  refine foldl_setAt_mem (k := id) ⟨u, List.mem_flatMap.2 ⟨(b.slots[i], i), List.mem_zipIdx_iff_getElem?.2 (List.getElem?_eq_getElem hi), ?_⟩, rfl⟩
    (fun _ _ _ => rfl) hlt
  exact List.mem_map.2 ⟨j, List.mem_range.2 hj, hu.symm⟩

theorem writeBatch_kept (x : CoreCtx) (c : Cast) (l : List Byte) :
    (x.writeBatch c l).waves = x.waves ∧ (x.writeBatch c l).casts = x.casts ∧ (x.writeBatch c l).units = x.units :=
  List.foldlRecOn (motive := fun y : CoreCtx => y.waves = x.waves ∧ y.casts = x.casts ∧ y.units = x.units) _ _ ⟨rfl, rfl, rfl⟩ fun _ hy _ _ => hy

/-- The context after a LAUNCH: the rows cleared, the batch written, the cast in its slot, its waves in theirs (R41, R330). -/
def CoreCtx.launched (x : CoreCtx) (b : Bind) (c : Cast) (bytes : List Byte) (cslot : Nat) (wave : Nat → Wave) : CoreCtx :=
  let y := (x.clearRows b.sprow b.rows).writeBatch c bytes
  { y with
    casts := setAt y.casts cslot (some c)
    waves := b.slots.zipIdx.foldl (fun ws s => setAt ws s.1 (some (wave s.2))) y.waves
    units := b.takeUnits cslot y.units }

section
variable (x : CoreCtx) (b : Bind) (c : Cast) (bytes : List Byte) (cslot : Nat) (wave : Nat → Wave)

theorem launched_cast (h : cslot < x.casts.length) : ((x.launched b c bytes cslot wave).casts[cslot]?).join = some c := by
  have hx : ((x.clearRows b.sprow b.rows).writeBatch c bytes).casts = x.casts := (writeBatch_kept ..).2.1
  rw [CoreCtx.launched, hx, setAt, modAt_get?, if_pos rfl, List.getElem?_eq_getElem h]
  rfl

theorem launched_wave (hn : b.slots.Nodup) {i j : Nat} (hij : b.slots[i]? = some j) (hj : j < x.waves.length) :
    (x.launched b c bytes cslot wave).waves[j]? = some (some (wave i)) := by
  have hx : ((x.clearRows b.sprow b.rows).writeBatch c bytes).waves = x.waves := (writeBatch_kept ..).1
  rw [CoreCtx.launched, hx]
  refine foldl_setAt_mem (k := Prod.fst) (v := fun s : Nat × Nat => some (wave s.2)) ⟨(j, i), List.mem_zipIdx_iff_getElem?.2 hij, rfl⟩
    (fun z hz hzj => ?_) hj
  have hz' := List.mem_zipIdx_iff_getElem?.1 hz
  rw [hzj] at hz'
  rw [index_unique hn hz' hij]

theorem launched_wave_other {j : Nat} (hj : j ∉ b.slots) : (x.launched b c bytes cslot wave).waves[j]? = x.waves[j]? := by
  have hx : ((x.clearRows b.sprow b.rows).writeBatch c bytes).waves = x.waves := (writeBatch_kept ..).1
  rw [CoreCtx.launched, hx]
  refine foldl_setAt_other (k := Prod.fst) (v := fun s : Nat × Nat => some (wave s.2)) (fun z hz e => hj ?_) _
  rw [← e]
  exact List.mem_of_getElem? (List.mem_zipIdx_iff_getElem?.1 hz)

theorem launched_unit {i j u : Nat} (hi : i < b.slots.length) (hj : j < b.units / max b.slots.length 1)
    (hu : u = b.regbase + i * (b.units / max b.slots.length 1) + j) (hlt : u < x.units.length) :
    (x.launched b c bytes cslot wave).units[u]? = some (some cslot) := by
  have hx : ((x.clearRows b.sprow b.rows).writeBatch c bytes).units = x.units := (writeBatch_kept ..).2.2
  rw [CoreCtx.launched, hx]
  exact takeUnits_get hi hj hu hlt

end

/-- A new wave, as the reads of registers see it (Table 4.2, R41). -/
theorem newWave_reads (i cslot : Nat) (role : Role) (units : List Nat) (regs : Nat) (entry a0 a1 a2 a3 : Quad) (nextCopy : BitVec 32) (start : Nat) :
    let w := newWave i cslot role units regs entry [a0, a1, a2, a3] nextCopy start
    w.s 0 = a0 ∧ w.s 1 = a1 ∧ w.s 2 = a2 ∧ w.s 3 = a3 ∧ (∀ r, 4 ≤ r → w.s r = 0) ∧ w.p 0 = BitVec.allOnes 128 ∧ w.waitlimit = 2 ^ 32
      ∧ (∀ r k, w.v r k = 0) ∧ ∀ x : Slice, x ∈ w.slices → x.pc = entry ∧ x.mask = 15 ∧ x.live = true := by
  refine ⟨rfl, rfl, rfl, rfl, fun r hr => ?_, rfl, rfl, fun r k => ?_, fun x hx => ?_⟩
  · obtain ⟨r, rfl⟩ := Nat.exists_eq_add_of_le' hr
    change (List.replicate 60 (0 : Quad)).getD r 0 = 0
    rw [getD_replicate_self]
  · have hv : ∀ l ∈ List.replicate regs (List.replicate 128 (0 : Word)), l.getD k 0 = 0 := fun l hl => by
      rw [List.eq_of_mem_replicate hl, getD_replicate_self]
    change ((List.replicate regs (List.replicate 128 (0 : Word))).getD r []).getD k 0 = 0
    rw [List.getD_eq_getElem?_getD (l := List.replicate regs _)]
    cases hr : (List.replicate regs (List.replicate 128 (0 : Word)))[r]? with
    | none => rfl
    | some l => exact hv l (List.mem_of_getElem? hr)
  · obtain rfl := List.eq_of_mem_replicate hx
    exact ⟨rfl, rfl, rfl⟩

/-! A launch on a core (R330). -/

theorem l1Clear_cores (p : Package) (core : Nat) : (p.l1Clear core).cores.length = p.cores.length ∧ ∀ c, ((p.l1Clear core).core c).ctx = (p.core c).ctx := by
  refine ⟨(modAt_length ..).trans (modAt_length ..), fun c => ?_⟩
  unfold Package.l1Clear Package.cancelFills Package.core Package.modCore
  dsimp only
  rw [List.getD_eq_getElem?_getD, List.getD_eq_getElem?_getD, modAt_get?, modAt_get?]
  split
  · cases p.cores[c]? <;> rfl
  · rfl

theorem core_modCtx_ctx {p : Package} {core : Nat} (h : core < p.cores.length) (f : CoreCtx → CoreCtx) : ((p.modCtx core f).core core).ctx = f (p.core core).ctx := by
  rw [Package.modCtx, core_modCore_self _ _ _ h]

/-- Waves and casts of a core are those of its context. -/
theorem wave?_of_ctx {p q : Package} {core : Nat} (hp : core < p.cores.length) (hq : core < q.cores.length) {j : Nat}
    (h : (q.core core).ctx.waves[j]? = (p.core core).ctx.waves[j]?) : q.wave? core j = p.wave? core j := by
  rw [wave?_core hq, wave?_core hp, h]

/-- Wave `i` of a launched cast (R41, R330). -/
def Package.launchWave (t : Clock) (p : Package) (core : Nat) (b : Bind) (cslot i : Nat) : Wave :=
  let n := p.node b.partition b.node
  newWave i cslot (roleOf (n.roleOf i)) (b.unitsOf i) n.regs (BitVec.ofNat 64 (n.codebase + n.entryoff))
    [BitVec.ofNat 64 b.batchn, BitVec.ofNat 64 n.recsz, 0, BitVec.ofNat 64 b.node] 0 (t.cycleOf (companyOf core) + b.rows + 1)

/-- A launch but for the check of its node. -/
def Package.setUp (t : Clock) (p : Package) (core : Nat) (b : Bind) (cslot : Nat) : Package :=
  (((p.modCtx core fun x => x.launched b (p.launchCast t b) (p.batchBytes b) cslot (p.launchWave t core b cslot)).l1Clear core).modEntry b.entry
    fun e => { e with state := .resident core cslot }).modNode b.partition b.node
      fun n => { n with cqhead := n.cqhead + BitVec.ofNat 32 b.batchn, cqform := n.cqform - BitVec.ofNat 7 b.batchn }

theorem settleOrder_dead {p : Package} {k : Nat} (h : p.liveCast k = false) :
    p.settleOrder k = p.modPart k fun q => { q with ordCur := q.ordPend } := by
  rw [Package.settleOrder, h, if_neg Bool.false_ne_true]

theorem node_settleOrder (p : Package) (k j n : Nat) : (p.settleOrder k).node j n = p.node j n := by
  unfold Package.settleOrder
  split
  · rfl
  · rw [Package.node, part_modPart]
    split
    · next h => rw [h.1]; rfl
    · rfl

theorem settleOrder_cores (p : Package) (k : Nat) : (p.settleOrder k).cores = p.cores := by
  unfold Package.settleOrder
  split <;> rfl

theorem settleOrder_casts (p : Package) (k : Nat) : (p.settleOrder k).casts = p.casts := by
  unfold Package.settleOrder
  split <;> rfl

theorem settleOrder_nparts (p : Package) (k : Nat) : (p.settleOrder k).parts.length = p.parts.length := by
  unfold Package.settleOrder
  split
  · rfl
  · exact parts_modPart_length ..

theorem modEntry_casts {p : Package} {e : CastEntry} (h : p.casts = [e]) (f : CastEntry → CastEntry) : (p.modEntry e.id f).casts = [f e] := by
  rw [modEntry_one h]

section
variable {p : Package} {core cslot : Nat} {b : Bind} (t : Clock)

theorem setUp_cores_length : (p.setUp t core b cslot).cores.length = p.cores.length :=
  (l1Clear_cores ..).1.trans (cores_modCore ..)

theorem setUp_ctx (h : core < p.cores.length) : ((p.setUp t core b cslot).core core).ctx =
    (p.core core).ctx.launched b (p.launchCast t b) (p.batchBytes b) cslot (p.launchWave t core b cslot) :=
  ((l1Clear_cores ..).2 core).trans (core_modCtx_ctx h _)

theorem setUp_casts {e : CastEntry} (hc : p.casts = [e]) (he : e.id = b.entry) :
    (p.setUp t core b cslot).casts = [{ e with state := .resident core cslot }] := by
  rw [Package.setUp, ← he]
  refine modEntry_casts ?_ _
  exact hc

theorem setUp_node (h : b.partition < p.parts.length) :
    ((p.setUp t core b cslot).node b.partition b.node).cqhead = (p.node b.partition b.node).cqhead + BitVec.ofNat 32 b.batchn := by
  refine (congrArg Node.cqhead (node_modNode_self ?_ ..)).trans ?_
  · exact h
  · rfl

end

section
variable {p : Package} {core cslot : Nat} {b : Bind} (t : Clock) (hs : findIdx? Option.isNone (p.core core).ctx.casts = some cslot)
include hs

theorem launchOn_eq : p.launchOn t core b = ((p.settleOrder b.partition).setUp t core b cslot).checkNode t b.partition b.node := by
  have hs' : findIdx? Option.isNone ((p.settleOrder b.partition).core core).ctx.casts = some cslot := by
    rwa [Package.core, settleOrder_cores]
  have : p.launchOn t core b = ((p.settleOrder b.partition).setUp t core b
    ((findIdx? Option.isNone ((p.settleOrder b.partition).core core).ctx.casts).getD 0)).checkNode t b.partition b.node := rfl
  rw [this, hs', Option.getD_some]

theorem launchOn_cores : (p.launchOn t core b).cores = ((p.settleOrder b.partition).setUp t core b cslot).cores := by
  rw [launchOn_eq t hs, (checkNode_memoryOnly ..).cores]

theorem launchOn_ctx (h : core < p.cores.length) : ((p.launchOn t core b).core core).ctx = (p.core core).ctx.launched b
    ((p.settleOrder b.partition).launchCast t b) ((p.settleOrder b.partition).batchBytes b) cslot ((p.settleOrder b.partition).launchWave t core b cslot) := by
  rw [Package.core, launchOn_cores t hs]
  refine (setUp_ctx t (by rwa [settleOrder_cores])).trans ?_
  rw [show (p.settleOrder b.partition).core core = p.core core by rw [Package.core, Package.core, settleOrder_cores]]

theorem launchOn_casts {e : CastEntry} (hc : p.casts = [e]) (he : e.id = b.entry) :
    (p.launchOn t core b).casts = [{ e with state := .resident core cslot }] := by
  rw [launchOn_eq t hs, (checkNode_memoryOnly ..).casts, setUp_casts t (by rw [settleOrder_casts, hc]) he]

theorem launchOn_node (h : b.partition < p.parts.length) :
    ((p.launchOn t core b).node b.partition b.node).cqhead = (p.node b.partition b.node).cqhead + BitVec.ofNat 32 b.batchn := by
  rw [launchOn_eq t hs, (checkNode_memoryOnly ..).node, setUp_node t (by rwa [settleOrder_nparts]), node_settleOrder]

end

/-! A resumption on a core (R335). -/

/-- A saved wave in its place again. -/
def Bind.placeWave (b : Bind) (cslot start : Nat) (w : Wave × Nat) : Wave := { w.1 with cast := cslot, regbase := b.unitsOf w.2, startAt := start }

/-- The waves of a saved context take the slots of the record. -/
def Bind.placeWaves (b : Bind) (cslot start : Nat) (saved : List Wave) (ws : List (Option Wave)) : List (Option Wave) :=
  (saved.zipIdx.zip b.slots).foldl (fun ws y => setAt ws y.2 (some (b.placeWave cslot start y.1))) ws

section
variable {b : Bind} {cslot start : Nat} {saved : List Wave} {ws : List (Option Wave)}

theorem placeWaves_get (hn : b.slots.Nodup) {i j : Nat} {w : Wave} (hj : b.slots[i]? = some j) (hw : saved[i]? = some w) (hlt : j < ws.length) :
    (b.placeWaves cslot start saved ws)[j]? = some (some (b.placeWave cslot start (w, i))) := by
  have hget : (saved.zipIdx.zip b.slots)[i]? = some ((w, i), j) := by
    rw [List.getElem?_zip_eq_some]
    refine ⟨?_, hj⟩
    rw [List.getElem?_zipIdx, hw]
    simp
  refine foldl_setAt_mem (k := Prod.snd) (v := fun y : (Wave × Nat) × Nat => some (b.placeWave cslot start y.1)) ⟨_, List.mem_of_getElem? hget, rfl⟩
    (fun z hz hzj => ?_) hlt
  obtain ⟨i', hi'⟩ := List.mem_iff_getElem?.1 hz
  have hi := (List.getElem?_zip_eq_some.1 hi').2
  rw [hzj] at hi
  rw [index_unique hn hi hj, hget] at hi'
  rw [← Option.some.inj hi']

theorem placeWaves_other {j : Nat} (hj : j ∉ b.slots) : (b.placeWaves cslot start saved ws)[j]? = ws[j]? := by
  refine foldl_setAt_other (k := Prod.snd) (v := fun y : (Wave × Nat) × Nat => some (b.placeWave cslot start y.1)) (fun z hz e => hj ?_) _
  rw [← e]
  exact (List.of_mem_zip hz).2

end

/-- The cast of a saved context on its new core (R335). -/
def Package.resumeCast (t : Clock) (p : Package) (b : Bind) (x : SavedCast) : Cast :=
  { x.cast with sprow := b.sprow, rows := b.rows, own := (p.node b.partition b.node).ownRanges, cchg := 0, stopping := none, resident := t.rtick }

/-- What a resumption makes of the waves and the casts of its core. -/
structure Resumes (t : Clock) (p : Package) (core : Nat) (b : Bind) (x : SavedCast) (cslot : Nat) (f : CoreCtx → CoreCtx) : Prop where
  waves : ∀ y, (f y).waves = b.placeWaves cslot (t.cycleOf (companyOf core) + 1) x.waves y.waves
  casts : ∀ y, (f y).casts = setAt y.casts cslot (some (p.resumeCast t b x))

/-- A wave that is not parked, without a fence to issue again, is left as it is (R267). -/
theorem reviveWave_none {p : Package} {core slot : Nat} (h : ∀ w, p.wave? core slot = some w → w.park = none) (t : Clock) :
    p.reviveWave t core slot none = p := by
  unfold Package.reviveWave
  split
  · rfl
  · next w hw =>
    dsimp only
    rw [h w hw, Option.isSome_none, if_neg Bool.false_ne_true]

theorem reviveWaves_none {p : Package} {core : Nat} {l : List Nat} (h : ∀ i ∈ l, ∀ w, p.wave? core i = some w → w.park = none) (t : Clock) :
    l.foldl (fun (p : Package) i => p.reviveWave t core i
      (((p.wave? core i).bind fun w => ([] : List (BitVec 6 × Fence)).find? fun f => f.1 = w.waveId).map Prod.snd)) p = p := by
  refine List.foldlRecOn (motive := fun q => q = p) l _ rfl fun q hq i hi => ?_
  subst hq
  have hf : (((q.wave? core i).bind fun w => ([] : List (BitVec 6 × Fence)).find? fun f => f.1 = w.waveId).map Prod.snd) = none := by
    cases q.wave? core i <;> rfl
  rw [hf, reviveWave_none (h i hi)]

/-- A resumption without fences, collectives and held requests. -/
theorem resumeOn_plain {p : Package} {core cslot : Nat} {b : Bind} {x : SavedCast} (t : Clock) (hcolls : x.colls = []) (hdef : x.deferred = [])
    (hfences : x.fences = []) (hs : findIdx? Option.isNone (p.core core).ctx.casts = some cslot) :
    ∃ f, Resumes t p core b x cslot f ∧
      ((∀ i ∈ b.slots, ∀ w, (((p.modCtx core f).l1Clear core).modEntry b.entry fun e => { e with state := .resident core cslot, ctxpa := 0 }).wave? core i = some w
          → w.park = none) →
        p.resumeOn t core b x = ((p.modCtx core f).l1Clear core).modEntry b.entry fun e => { e with state := .resident core cslot, ctxpa := 0 }) := by
  refine ⟨?_, ?_, fun hpark => ?eq⟩
  case eq =>
    unfold Package.resumeOn
    rw [hs, hcolls, hdef, hfences]
    exact reviveWaves_none hpark t
  exact ⟨fun _ => rfl, fun _ => rfl⟩

end Sys2Proof.Machine
end

section
/-! SUPPORT. What a placement pass, a LAUNCH record and a RESUME record make of the package, each for one cast (R330, R331). -/

namespace Sys2Proof.Machine

/-! The placement pass. -/

section
variable {s : State} {e : CastEntry} (h : LoneBatch s.pkg e) (hv : ∀ j, j < 8 → ((s.pkg.part j).valid = true ↔ j = e.part)) (hk : e.part < 8)
  (hp : s.pkg.planeOp = none) (hs : (s.pkg.part e.part).recovery.stopping = false) (hr : (s.pkg.part e.part).recovery.resumeAt = none)
  (hn : ∀ x ∈ (s.pkg.part e.part).nodes, (s.pkg.node e.part x.1).checked = true)
include h hv hk hp hs hr hn

theorem placementAt_fault (hf : (s.pkg.node e.part e.node).fault = true) : placementAt s.clk s.pkg = s.pkg := by
  rw [placementAt, validParts_one hv hk, List.foldl_cons, List.foldl_nil, h.passPart hp hs hr hn, h.passEntry_fault hf]

theorem placementAt_single (hf : (s.pkg.node e.part e.node).fault = false) : placementAt s.clk s.pkg = s.pkg.passSingle s.clk e := by
  rw [placementAt, validParts_one hv hk, List.foldl_cons, List.foldl_nil, h.passPart hp hs hr hn, h.passEntry_pkg hf]

end

/-- The record of a placed batch, its core and what is due (R329). -/
theorem place_spec {p : Package} {e : CastEntry} (h : LoneBatch p e) {core : Nat} (hc : core < p.cores.length) (t : Clock) (spot : Spot) :
    ((p.place t e core spot e.cogroup).core core).binds =
        (p.core core).binds ++ [{ (e.placedOn p core spot).bind .launch spot with arrives := t.mcyc + p.transit core }]
      ∧ (p.place t e core spot e.cogroup).due = p.due ++ [{ at_ := .mesh (t.mcyc + p.transit core + 1), ev := .launch core }]
      ∧ (p.place t e core spot e.cogroup).casts = [e.placedOn p core spot] := by
  rw [place_eq h]
  exact ⟨core_sendBind hc t _, rfl, rfl⟩

/-- A refusal is noted at the node (Table 18.2). -/
theorem refuseNode_withNode (s : State) (k node reason : Nat) : { s with pkg := s.pkg.refuseNode s.clk k node reason } =
    WithNode s k node (EntryWith (EntryWith (s.pkg.node k node) 250 1 reason) 252 4 s.clk.rtick) :=
  modNode_withNode s k node fun n => (n.put 250 1 reason).put 252 4 s.clk.rtick

theorem refuseNode_node {p : Package} {k : Nat} (h : k < p.parts.length) (t : Clock) (node reason : Nat) :
    (p.refuseNode t k node reason).node k node = EntryWith (EntryWith (p.node k node) 250 1 reason) 252 4 t.rtick :=
  node_modNode_self h node _

/-! The LAUNCH record. -/

theorem wakeBinds_node (t : Clock) (p : Package) (core k n : Nat) : (p.wakeBinds t core).node k n = p.node k n := by
  rw [wakeBinds_rest]
  rfl

theorem wakeBinds_cores (t : Clock) (p : Package) (core : Nat) : (p.wakeBinds t core).cores = p.cores := by rw [wakeBinds_rest]

theorem wakeBinds_casts (t : Clock) (p : Package) (core : Nat) : (p.wakeBinds t core).casts = p.casts := by rw [wakeBinds_rest]

section
variable {s : State} {core : Nat} {b : Bind} {q : Package} (h : Applies s core b q) {e : CastEntry} (hc : s.pkg.casts = [e]) (he : e.id = b.entry)
  (hs : e.state = .placed core none)
include h hc he hs

theorem launch_goes_back {reason : Nat} (ho : b.op = .launch) (ht : TakenFirst s core b reason) (hr : reason ≠ 0) :
    (launchAt core s.clk s.pkg).casts = [{ e with state := .pending, demands := [], castid := none }] ∧ (launchAt core s.clk s.pkg).cores = q.cores
      ∧ (e.part < s.pkg.parts.length → (launchAt core s.clk s.pkg).node e.part e.node =
          EntryWith (EntryWith (s.pkg.node e.part e.node) 250 1 reason) 252 4 s.clk.rtick) := by
  have hq := returnBind_one (h.casts.trans hc) he hs s.clk reason
  rw [launchAt_applies h ho hc he hs ht, if_pos hr]
  refine ⟨?_, ?_, fun hlt => ?_⟩
  · rw [wakeBinds_casts, hq]
    rfl
  · rw [wakeBinds_cores, hq]
    rfl
  · rw [wakeBinds_node, hq, refuseNode_node (h.nparts ▸ hlt), ← h.node]
    rfl

theorem launch_reads {i : Nat} (ho : b.op = .launch) (ht : TakenFirst s core b 0)
    (hh : isHostVa (BitVec.ofNat 64 (s.pkg.node b.partition b.node).cqbase) = true) (hi : i < b.batchn) (hm : ∀ x ∈ b.recs, x.1 ≠ i) :
    (launchAt core s.clk s.pkg).casts = s.pkg.casts ∧ b ∈ ((launchAt core s.clk s.pkg).core core).binds
      ∧ ((launchAt core s.clk s.pkg).core core).ctx = (s.pkg.core core).ctx
      ∧ ∀ i, i < b.batchn → (∀ x ∈ b.recs, x.1 ≠ i) → ∃ tag, (tag, PcieWait.cue core b.entry i) ∈ (launchAt core s.clk s.pkg).pcie := by
  have hmiss : b.missing ≠ [] := List.ne_nil_of_mem (mem_missing.2 ⟨hi, hm⟩)
  obtain ⟨hcores, hcasts, -, hask⟩ := askRecords_ask s.clk core b (q.node b.partition b.node) b.missing q
  rw [launchAt_applies h ho hc he hs ht, if_neg (not_not.2 rfl), Package.launchOrRead, ringReads_some (by rwa [h.node]) hmiss]
  dsimp only
  have hself : ((b.missing.foldl (Package.askRecord s.clk core b (q.node b.partition b.node)) q).modCore core
      fun c => { c with binds := b :: c.binds }).core core = { q.core core with binds := b :: (q.core core).binds } := by
    rw [core_modCore_self _ _ _ (by rw [hcores, h.ncores]; exact h.lt), Package.core, hcores]
    rfl
  rw [hself]
  exact ⟨hcasts.trans h.casts, List.mem_cons_self, h.ctx, fun i hi hm => hask i (mem_missing.2 ⟨hi, hm⟩)⟩

theorem launch_stays {cslot : Nat} (ho : b.op = .launch) (ht : TakenFirst s core b 0)
    (hring : isHostVa (BitVec.ofNat 64 (s.pkg.node b.partition b.node).cqbase) = false ∨ b.missing = [])
    (hcs : findIdx? Option.isNone (s.pkg.core core).ctx.casts = some cslot) (hpart : b.partition < s.pkg.parts.length) :
    (launchAt core s.clk s.pkg).casts = [{ e with state := .resident core cslot }]
      ∧ (launchAt core s.clk s.pkg).cores.length = s.pkg.cores.length
      ∧ ((launchAt core s.clk s.pkg).core core).ctx = (s.pkg.core core).ctx.launched b ((q.settleOrder b.partition).launchCast s.clk b)
          ((q.settleOrder b.partition).batchBytes b) cslot ((q.settleOrder b.partition).launchWave s.clk core b cslot)
      ∧ ((launchAt core s.clk s.pkg).node b.partition b.node).cqhead = (s.pkg.node b.partition b.node).cqhead + BitVec.ofNat 32 b.batchn := by
  have hcs' : findIdx? Option.isNone (q.core core).ctx.casts = some cslot := by rwa [h.ctx]
  rw [launchAt_applies h ho hc he hs ht, if_neg (not_not.2 rfl), Package.launchOrRead, ringReads_none (by rwa [h.node])]
  dsimp only
  rw [wakeBinds_casts, wakeBinds_node, wakeBinds_cores, Package.core, wakeBinds_cores, ← h.ctx, ← h.node]
  refine ⟨launchOn_casts s.clk hcs' (h.casts.trans hc) he, ?_, launchOn_ctx s.clk hcs' (h.ncores ▸ h.lt), launchOn_node s.clk hcs' (h.nparts ▸ hpart)⟩
  rw [launchOn_cores s.clk hcs', setUp_cores_length, settleOrder_cores, h.ncores]

omit he in
/-- With its only cast on its way, a partition takes the pending ordered mode (R56). -/
theorem launch_ordCur (k : Nat) (hk : k < s.pkg.parts.length) : ((q.settleOrder k).part k).ordCur = (s.pkg.part k).ordPend := by
  have hl : q.liveCast k = false := by simp [Package.liveCast, h.casts, hc, hs]
  rw [settleOrder_dead hl, part_modPart, if_pos ⟨rfl, h.nparts ▸ hk⟩, ← h.part]

end

/-! The RESUME record. -/

theorem resume_stays {s : State} {core cslot : Nat} {b : Bind} {q : Package} {e : CastEntry} {x : SavedCast} (h : Applies s core b q) (ho : b.op = .resume)
    (hc : s.pkg.casts = [e]) (he : e.id = b.entry) (hs : e.state = .placed core (some x)) (ht : TakenFirst s core b 0) (hcolls : x.colls = [])
    (hfollow : x.follow = []) (hdef : x.deferred = []) (hfences : x.fences = []) (hn : b.slots.Nodup) (hlen : b.slots.length = x.waves.length)
    (hpark : ∀ w ∈ x.waves, w.park = none) (hlt : ∀ i ∈ b.slots, i < (s.pkg.core core).ctx.waves.length)
    (hcs : findIdx? Option.isNone (s.pkg.core core).ctx.casts = some cslot) :
    ∃ f, Resumes s.clk q core b x cslot f ∧ (resumeAt core s.clk s.pkg).casts = [{ e with state := .resident core cslot, ctxpa := 0 }]
      ∧ (resumeAt core s.clk s.pkg).cores.length = s.pkg.cores.length ∧ ((resumeAt core s.clk s.pkg).core core).ctx = f (s.pkg.core core).ctx := by
  have hqlt : core < q.cores.length := h.ncores ▸ h.lt
  obtain ⟨f, hf, heq⟩ := resumeOn_plain (cslot := cslot) (b := b) s.clk hcolls hdef hfences (by rwa [h.ctx])
  have hctx : (((q.modCtx core f).l1Clear core).core core).ctx = f (q.core core).ctx := ((l1Clear_cores ..).2 core).trans (core_modCtx_ctx hqlt f)
  have hncores : ((q.modCtx core f).l1Clear core).cores.length = q.cores.length := (l1Clear_cores ..).1.trans (cores_modCore ..)
  have hback : resumeAt core s.clk s.pkg =
      ((q.modCtx core f).l1Clear core).modEntry b.entry fun e => { e with state := .resident core cslot, ctxpa := 0 } := by
    rw [resumeAt_applies h ho hc he hs ht hcolls hfollow]
    refine heq fun j hj w hw => ?_
    obtain ⟨i, hi⟩ := List.mem_iff_getElem?.1 hj
    have hix : i < x.waves.length := hlen ▸ (List.getElem?_eq_some_iff.1 hi).1
    change ((q.modCtx core f).l1Clear core).wave? core j = some w at hw
    rw [wave?_core (hncores ▸ hqlt), hctx, hf.waves, placeWaves_get hn hi (List.getElem?_eq_getElem hix) (by rw [h.ctx]; exact hlt j hj)] at hw
    obtain rfl := Option.some.inj hw
    exact hpark x.waves[i] (List.getElem_mem hix)
  refine ⟨f, hf, ?_, ?_, ?_⟩
  · rw [hback, ← he]
    exact modEntry_casts (h.casts.trans hc) _
  · rw [hback]
    exact hncores.trans h.ncores
  · rw [hback, ← h.ctx]
    exact hctx

end Sys2Proof.Machine

open Sys2Proof Sys2Proof.Machine in
/-- Settles O44: a pass over one waiting batch, and a record that is applied, first by what they find and then by the package they leave. -/
theorem placement : Obligations.Placement := by
  refine ⟨fun s h => ?_, ?_, fun s core => ⟨fun h => ?_, fun h => ?_⟩, ?_, ?_, ?_, ?_⟩
  · rw [exec_placementPass, placementAt, validParts_none h]
    rfl
  · rintro s _ e hv hk hlen hp hs hr hn hc rfl hst href hcog hord hheld
    have h : LoneBatch s.pkg e := ⟨hc, hst, href, hcog, hord, hheld⟩
    refine ⟨fun hf => ?_, fun hf => ⟨fun i c spot hi hok hbefore => ?_, fun c r hc0 hr0 hall => ?_⟩⟩
    · rw [exec_placementPass, placementAt_fault h hv hk hp hs hr hn hf]
    · obtain ⟨hb, hd, hcasts⟩ := place_spec h (hlen ▸ lt_of_candidate hi) s.clk spot
      have hplace := (placementAt_single h hv hk hp hs hr hn hf).trans (h.passSingle_fits hi hok hbefore s.clk)
      refine ⟨{ s with pkg := s.pkg.place s.clk e c spot e.cogroup }, _, ?_, hb, rfl, rfl, rfl, rfl, rfl, rfl, rfl, rfl, hd, _, hcasts, rfl, rfl⟩
      rw [exec_placementPass, hplace]
    · rw [exec_placementPass, placementAt_single h hv hk hp hs hr hn hf, h.passSingle_refused hc0 hr0 hall, ← refuseNode_withNode]
  · rw [exec_launch, launchAt_other h]
  · rw [exec_resume, resumeAt_other h]
  · intro s core b q e reason h ho hc he hs ht hr
    exact ⟨_, exec_launch core s, launch_goes_back h hc he hs ho ht hr⟩
  · intro s core cslot b q e h ho hc he hs ht hlt hpart hnodup hslots hcs n hring
    have hring' : isHostVa (BitVec.ofNat 64 n.cqbase) = false ∨ b.missing = [] := by
      refine hring.imp_right fun ⟨_, hall⟩ => List.eq_nil_iff_forall_not_mem.2 fun i hi => ?_
      obtain ⟨hib, hno⟩ := mem_missing.1 hi
      obtain ⟨x, hx, hxi⟩ := hall i hib
      exact hno x hx hxi
    obtain ⟨hcasts, hncores, hctx, hhead⟩ := launch_stays h hc he hs ho ht hring' hcs hpart
    have hlt' : core < (launchAt core s.clk s.pkg).cores.length := hncores ▸ hlt
    have hnode : (q.settleOrder b.partition).node b.partition b.node = n := (node_settleOrder ..).trans (h.node ..)
    have hcslot : cslot < (s.pkg.core core).ctx.casts.length := by
      obtain ⟨⟨_, hget, -⟩, -⟩ := findIdx?_eq_some_iff.1 hcs
      exact (List.getElem?_eq_some_iff.1 hget).1
    refine ⟨_, (q.settleOrder b.partition).launchCast s.clk b, exec_launch core s, hcasts, ?_, rfl, rfl, rfl, rfl, rfl, rfl, ?_, rfl, rfl, ?_, ?_, rfl,
      launch_ordCur h hc hs b.partition hpart, fun i j hij => ?_, fun j hj => ?_, fun i j u hi hj hu hul => ?_, hhead⟩
    · exact (cast?_core hlt').trans (by rw [hctx]; exact launched_cast _ _ _ _ _ _ hcslot)
    · rw [Package.launchCast, hnode]
    · rw [Package.launchCast, hnode]
    · rw [Package.launchCast, hnode]
    · refine ⟨(q.settleOrder b.partition).launchWave s.clk core b cslot i, ?_, rfl, rfl, ?_, ?_⟩
      · refine (wave?_core hlt').trans ?_
        rw [hctx, launched_wave _ _ _ _ _ _ hnodup hij (hslots j (List.mem_of_getElem? hij))]
        rfl
      · rw [Package.launchWave, hnode]
        rfl
      · rw [Package.launchWave, hnode]
        exact newWave_reads ..
    · refine wave?_of_ctx hlt hlt' ?_
      rw [hctx, launched_wave_other _ _ _ _ _ _ hj]
    · change ((launchAt core s.clk s.pkg).core core).ctx.units[u]? = _
      rw [hctx, launched_unit _ _ _ _ _ _ hi hj hu hul]
  · rintro s core b q e h ho hc he hs ht hlt hh ⟨i, hi, hm⟩
    obtain ⟨hcasts, hb, hctx, hask⟩ := launch_reads h hc he hs ho ht hh hi hm
    exact ⟨_, exec_launch core s, hcasts, hb, hctx, fun i hi hm _ => hask i hi hm⟩
  · intro s core cslot b q e x h ho hc he hs ht hcolls hfollow hdef hfences hlt hnodup hlen hwaves hslots hcs
    obtain ⟨f, hf, hcasts, hncores, hctx⟩ := resume_stays h ho hc he hs ht hcolls hfollow hdef hfences hnodup hlen (fun w hw => (hwaves w hw).2) hslots hcs
    have hlt' : core < (resumeAt core s.clk s.pkg).cores.length := hncores ▸ hlt
    have hcslot : cslot < (s.pkg.core core).ctx.casts.length := by
      obtain ⟨⟨_, hget, -⟩, -⟩ := findIdx?_eq_some_iff.1 hcs
      exact (List.getElem?_eq_some_iff.1 hget).1
    refine ⟨_, q.resumeCast s.clk b x, exec_resume core s, hcasts, ?_, rfl, fun i j w hij hw => ?_, fun j hj => ?_⟩
    · refine (cast?_core hlt').trans ?_
      rw [hctx, hf.casts, setAt, modAt_get?, if_pos rfl, List.getElem?_eq_getElem hcslot]
      rfl
    · refine ⟨b.placeWave cslot (s.clk.cycleOf (companyOf core) + 1) (w, i), (wave?_core hlt').trans ?_, rfl⟩
      rw [hctx, hf.waves, placeWaves_get hnodup hij hw (hslots j (List.mem_of_getElem? hij))]
      rfl
    · refine wave?_of_ctx hlt hlt' ?_
      rw [hctx, hf.waves, placeWaves_other hj]
end

section
/-! SUPPORT. A party that has a word of its chain left (Sys2Proof/Machine/Issue.lean: R74, R254). Its turn runs that word, and the word at its counter only
after it. -/

namespace Sys2Proof.Machine

theorem exec_nop (w : C0) (s : State) : exec (.nop w) s = s.word (.nop w) fun _ s => .done s := rfl

/-! The word that a state has in issue. -/

/-- The bits of the word in issue after a step. -/
def issuedRaw (o : Host.Outcome State Fault Refusal) : Option Word :=
  match o with
  | .next t => t.cur.map Issue.raw
  | _ => none

theorem finish_raw (s : State) (v : View) (i : Instr) (moved : Bool) : (s.finish v i moved).cur.map Issue.raw = s.cur.map Issue.raw := by
  unfold State.finish
  dsimp only
  split <;> exact Option.map_map ..

theorem settleWalks_cur (core slot leader : Nat) (s : State) : (settleWalks core slot leader s).cur = s.cur := by
  unfold settleWalks
  split <;> rfl

theorem issuedRaw_afterIssue (core slot leader : Nat) (o : Host.Outcome State Fault Refusal) : issuedRaw (AfterIssue core slot leader o) = issuedRaw o := by
  cases o with
  | next t => exact congrArg (Option.map Issue.raw) (settleWalks_cur core slot leader t)
  | fault r => rfl
  | refused r => rfl

/-- A NOP leaves itself in issue, where it can be issued at all. -/
theorem issuedRaw_nop (w : C0) (s : State) : issuedRaw (exec (.nop w) s) = none ∨ issuedRaw (exec (.nop w) s) = s.cur.map Issue.raw := by
  rw [exec_nop, State.word]
  cases s.view with
  | none => exact .inl rfl
  | some v =>
    right
    dsimp only
    split
    · rfl
    · exact finish_raw s v _ _

/-! A chain of WAITST and EXIT at 0x10000, and a NOP after it: the wait is over, and EXIT is still to come. -/

/-- The EXIT that its chain has put off. -/
def deferredExit : Late :=
  { word := 0x10004, epc := 0x10000, next := 0x10008, slices := List.range 32, sregs := (fetchWave 0).sregs, preds := (fetchWave 0).preds,
    latches := List.replicate 32 [], win := {}, raw := 0x26000006, wrote := [] }

/-- The wave that has issued the chain: its counters are past it. -/
def deferredWave : Wave :=
  { fetchWave 0 with slices := { pc := 0x10008, late := some deferredExit } :: List.replicate 31 { pc := 0x10008 } }

/-- The wave alone on core 0, with the three words in memory. -/
def deferredState : State :=
  let s := State.reset.withFetchWord 96 0x2600000726000006BA000070
  { s with pkg := s.pkg.modWave 0 0 fun _ => deferredWave }

theorem deferredState_ready : (({ deferredState with cur := none, agenda := [] } : State).readyChain 0 0 0).isSome = true := by decide +kernel

theorem deferredState_fetch :
    deferredState.pkg.fetch 0 0 fetchCast (deferredWave.activeOf (deferredWave.issuing 0)) 0x10008 = .word 0x26000007 := by decide +kernel

/-- The step runs the EXIT. -/
theorem deferredState_step : issuedRaw (step deferredState) = some 0x26000006 := by decide +kernel

end Sys2Proof.Machine

open Sys2Proof Sys2Proof.Machine in
/-- Refutes O56: the first clause does not ask that no word of the party's chain is left, and such a word comes before the one at the counter (R74). -/
theorem not_stepRunsWord : ¬ Obligations.StepRunsWord := by
  rintro ⟨h, -⟩
  obtain ⟨t, ⟨q, ht, -, -, -, -, -, -, hraw, -⟩, hstep⟩ := h deferredState 0 0 0 [] deferredWave fetchCast 0x10008 0x26000007 (.nop { c := 0 }) rfl rfl
    deferredState_ready (by decide +kernel) (by decide +kernel) (by decide +kernel) deferredState_fetch (by decide) (by decide +kernel)
  have hcur : t.cur.map Issue.raw = some 0x26000007 := by rw [ht, ← hraw]; rfl
  have hexit := (congrArg issuedRaw hstep).symm.trans deferredState_step
  rw [issuedRaw_afterIssue] at hexit
  rcases issuedRaw_nop { c := 0 } t with hn | hn
  · rw [hn] at hexit
    cases hexit
  · rw [hn, hcur] at hexit
    exact absurd hexit (by decide)
end

section
/-! SUPPORT. Words as bits (Sys2Proof/Decode.lean, Tables 3.2 and 3.3). A layout owns the bits of its fields: what it reads from a word are these bits, and
it reads back what it has written. A code that keeps off these bits can be added to them and taken away again, and a read of other bits sees the code alone.
Nothing here speaks of a single instruction. -/

namespace Sys2Proof

/-! Bits of a number. -/

theorem or_eq_add_of_and_eq_zero {a b : Nat} (h : a &&& b = 0) : a ||| b = a + b := by
  have hadd := BitVec.add_eq_or_of_and_eq_zero (BitVec.ofNat (a + b) a) (BitVec.ofNat (a + b) b) (by rw [← BitVec.ofNat_and, h])
  have hlt : a + b < 2 ^ (a + b) := Nat.lt_two_pow_self
  have hor : a ||| b < 2 ^ (a + b) := Nat.or_lt_two_pow (by omega) (by omega)
  rw [← BitVec.ofNat_add, ← BitVec.ofNat_or] at hadd
  have hnat := congrArg BitVec.toNat hadd
  rw [BitVec.toNat_ofNat, BitVec.toNat_ofNat, Nat.mod_eq_of_lt hlt, Nat.mod_eq_of_lt hor] at hnat
  exact hnat.symm

theorem and_add_and {n a b : Nat} (h : a &&& b = 0) : (n &&& a) + (n &&& b) = n &&& (a + b) := by
  rw [← or_eq_add_of_and_eq_zero h, Nat.and_or_distrib_left, or_eq_add_of_and_eq_zero]
  rw [Nat.and_assoc, Nat.and_left_comm a, ← Nat.and_assoc, h, Nat.and_zero]

/-- The `k` bits of n from bit `p`, in their place. -/
theorem field_eq_and (n p k : Nat) : n / 2 ^ p % 2 ^ k * 2 ^ p = n &&& (2 ^ k - 1) * 2 ^ p := by
  apply Nat.eq_of_testBit_eq
  intro j
  rw [Nat.testBit_and, Nat.testBit_mul_two_pow, Nat.testBit_mul_two_pow, Nat.testBit_mod_two_pow, Nat.testBit_div_two_pow, Nat.testBit_two_pow_sub_one]
  by_cases h : p ≤ j
  · simp [h, Bool.and_comm]
  · simp [h]

/-! Fields, each given by its lowest bit and its width. -/

/-- The bits of word n in the fields, in their places. -/
def placed : List (Nat × Nat) → Nat → Nat
  | [], _ => 0
  | [(p, k)], n => n / 2 ^ p % 2 ^ k * 2 ^ p
  | (p, k) :: g :: fs, n => placed (g :: fs) n + n / 2 ^ p % 2 ^ k * 2 ^ p

/-- The number whose set bits are those of the fields, where these lie apart. -/
def maskOf : List (Nat × Nat) → Nat
  | [] => 0
  | (p, k) :: fs => maskOf fs + (2 ^ k - 1) * 2 ^ p

/-- No two of the fields share a bit. -/
def apart : List (Nat × Nat) → Bool
  | [] => true
  | (p, k) :: fs => maskOf fs &&& (2 ^ k - 1) * 2 ^ p == 0 && apart fs

theorem placed_cons (p k : Nat) (fs : List (Nat × Nat)) (n : Nat) : placed ((p, k) :: fs) n = placed fs n + n / 2 ^ p % 2 ^ k * 2 ^ p := by
  cases fs with
  | nil => exact (Nat.zero_add _).symm
  | cons g fs => rfl

theorem placed_eq_and (n : Nat) {fs : List (Nat × Nat)} (h : apart fs = true) : placed fs n = n &&& maskOf fs := by
  induction fs with
  | nil => exact (Nat.and_zero n).symm
  | cons f fs ih =>
    obtain ⟨p, k⟩ := f
    simp only [apart, Bool.and_eq_true, beq_iff_eq] at h
    obtain ⟨hf, hfs⟩ := h
    rw [placed_cons, maskOf, ih hfs, field_eq_and, and_add_and hf]

/-! Layouts. -/

/-- `ofNat` reads the bits of `mask` from a word and no others, and `toNat` writes what `ofNat` reads back. -/
structure Layout {α : Type} (ofNat : Nat → α) (toNat : α → Nat) (mask : Nat) : Prop where
  toNat_ofNat : ∀ n, toNat (ofNat n) = n &&& mask
  ofNat_toNat : ∀ w, ofNat (toNat w) = w

namespace Layout

variable {α : Type} {ofNat : Nat → α} {toNat : α → Nat} {mask : Nat}

theorem of_fields (fs : List (Nat × Nat)) (hfs : apart fs = true ∧ maskOf fs = mask) (hplaced : ∀ n, toNat (ofNat n) = placed fs n)
    (hback : ∀ w, ofNat (toNat w) = w) : Layout ofNat toNat mask :=
  ⟨fun n => by rw [hplaced, placed_eq_and n hfs.1, hfs.2], hback⟩

section
variable (hL : Layout ofNat toNat mask)
include hL

theorem toNat_and (w : α) : toNat w &&& mask = toNat w := by
  rw [← hL.toNat_ofNat, hL.ofNat_toNat]

theorem ofNat_and (n : Nat) : ofNat (n &&& mask) = ofNat n := by
  rw [← hL.toNat_ofNat, hL.ofNat_toNat]

theorem or_toNat {e : Nat} (he : e &&& mask = 0) (w : α) : e ||| toNat w = e + toNat w := by
  apply or_eq_add_of_and_eq_zero
  rw [← hL.toNat_and w, Nat.and_left_comm, he, Nat.and_zero]

/-- The fields are read back from under the code of the row. -/
theorem ofNat_add {e : Nat} (he : e &&& mask = 0) (w : α) : ofNat (e + toNat w) = w := by
  rw [← hL.ofNat_and, ← hL.or_toNat he, Nat.and_or_distrib_right, he, Nat.zero_or, hL.toNat_and, hL.ofNat_toNat]

/-- Bits that belong to no field are those of the code. -/
theorem read_add {e P Q : Nat} (he : e &&& mask = 0) (hP : 2 ^ P.log2 = P) (hQ : 2 ^ Q.log2 = Q) (hm : mask &&& (Q - 1) * P = 0) (w : α) :
    (e + toNat w) / P % Q = e / P % Q := by
  have hfield : (e + toNat w) / P % Q * P = e / P % Q * P := by
    rw [← hP, ← hQ, field_eq_and, field_eq_and, hP, hQ, ← hL.or_toNat he, Nat.and_or_distrib_right, ← hL.toNat_and w, Nat.and_assoc, hm,
      Nat.and_zero, Nat.or_zero]
  exact Nat.eq_of_mul_eq_mul_right (hP ▸ Nat.two_pow_pos _) hfield

theorem add_lt {e : Nat} (he : e &&& mask = 0) (hlt : e < 2 ^ 32) (hmask : mask < 2 ^ 32) (w : α) : e + toNat w < 2 ^ 32 := by
  rw [← hL.or_toNat he, ← hL.toNat_and w]
  exact Nat.or_lt_two_pow hlt (Nat.and_lt_two_pow _ hmask)

/-- What can be read from a code with fields added to it. -/
theorem word_add {e : Nat} (he : e &&& mask = 0) (hlt : e < 2 ^ 32) (hmask : mask < 2 ^ 32) (w : α) :
    e + toNat w < 2 ^ 32 ∧ ofNat (e + toNat w) = w
    ∧ ∀ {P Q : Nat}, 2 ^ P.log2 = P → 2 ^ Q.log2 = Q → mask &&& (Q - 1) * P = 0 → (e + toNat w) / P % Q = e / P % Q :=
  ⟨hL.add_lt he hlt hmask w, hL.ofNat_add he w, fun hP hQ hm => hL.read_add he hP hQ hm w⟩

/-- A word is a code and the fields of the layout just where its other bits are those of the code. -/
theorem add_eq_iff {n : Nat} (hn : n < 2 ^ 32) (gs : List (Nat × Nat))
    (h : apart gs = true ∧ mask &&& maskOf gs = 0 ∧ mask + maskOf gs = 2 ^ 32 - 1) (e : Nat) : e + toNat (ofNat n) = n ↔ placed gs n = e := by
  obtain ⟨hgs, hdisjoint, hcover⟩ := h
  have hsum : toNat (ofNat n) + placed gs n = n := by
    rw [hL.toNat_ofNat, placed_eq_and n hgs, and_add_and hdisjoint, hcover, Nat.and_two_pow_sub_one_eq_mod, Nat.mod_eq_of_lt hn]
  omega

end

end Layout

/-! The layouts of Table 3.2, each with the bits it owns. -/

theorem VR.layout : Layout VR.ofNat VR.toNat 0xC1FFFFF0 :=
  .of_fields [(4, 7), (11, 7), (18, 7), (30, 1), (31, 1)] (by decide) (fun _ => rfl)
    fun ⟨c, k, d, a, b⟩ => by simp only [VR.ofNat, VR.toNat, VR.mk.injEq, ← BitVec.toNat_inj, BitVec.toNat_ofNat]; omega

theorem VR1.layout : Layout VR1.ofNat VR1.toNat 0xC1FFF800 :=
  .of_fields [(11, 7), (18, 7), (30, 1), (31, 1)] (by decide) (fun _ => rfl)
    fun ⟨c, k, d, a⟩ => by simp only [VR1.ofNat, VR1.toNat, VR1.mk.injEq, ← BitVec.toNat_inj, BitVec.toNat_ofNat]; omega

theorem VP.layout : Layout VP.ofNat VP.toNat 0x81FFFFC0 :=
  .of_fields [(6, 7), (13, 7), (20, 2), (22, 3), (31, 1)] (by decide) (fun _ => rfl)
    fun ⟨c, d, m, a, b⟩ => by simp only [VP.ofNat, VP.toNat, VP.mk.injEq, ← BitVec.toNat_inj, BitVec.toNat_ofNat]; omega

theorem VP1.layout : Layout VP1.ofNat VP1.toNat 0x81FFE000 :=
  .of_fields [(13, 7), (20, 2), (22, 3), (31, 1)] (by decide) (fun _ => rfl)
    fun ⟨c, d, m, a⟩ => by simp only [VP1.ofNat, VP1.toNat, VP1.mk.injEq, ← BitVec.toNat_inj, BitVec.toNat_ofNat]; omega

theorem VCRS.layout : Layout VCRS.ofNat VCRS.toNat 0xC1FFF81E :=
  .of_fields [(1, 1), (2, 3), (11, 7), (18, 7), (30, 1), (31, 1)] (by decide) (fun _ => rfl)
    fun ⟨c, k, d, a, r, s⟩ => by simp only [VCRS.ofNat, VCRS.toNat, VCRS.mk.injEq, ← BitVec.toNat_inj, BitVec.toNat_ofNat]; omega

theorem VCR.layout : Layout VCR.ofNat VCR.toNat 0xC1FFF81C :=
  .of_fields [(2, 3), (11, 7), (18, 7), (30, 1), (31, 1)] (by decide) (fun _ => rfl)
    fun ⟨c, k, d, a, r⟩ => by simp only [VCR.ofNat, VCR.toNat, VCR.mk.injEq, ← BitVec.toNat_inj, BitVec.toNat_ofNat]; omega

theorem VCRSH.layout : Layout VCRSH.ofNat VCRSH.toNat 0xC1FFF81F :=
  .of_fields [(0, 1), (1, 1), (2, 3), (11, 7), (18, 7), (30, 1), (31, 1)] (by decide) (fun _ => rfl)
    fun ⟨c, k, d, a, r, s, h⟩ => by simp only [VCRSH.ofNat, VCRSH.toNat, VCRSH.mk.injEq, ← BitVec.toNat_inj, BitVec.toNat_ofNat]; omega

theorem VCH.layout : Layout VCH.ofNat VCH.toNat 0xC1FFF801 :=
  .of_fields [(0, 1), (11, 7), (18, 7), (30, 1), (31, 1)] (by decide) (fun _ => rfl)
    fun ⟨c, k, d, a, h⟩ => by simp only [VCH.ofNat, VCH.toNat, VCH.mk.injEq, ← BitVec.toNat_inj, BitVec.toNat_ofNat]; omega

theorem VCJRS.layout : Layout VCJRS.ofNat VCJRS.toNat 0xC1FFF87E :=
  .of_fields [(1, 1), (2, 3), (5, 2), (11, 7), (18, 7), (30, 1), (31, 1)] (by decide) (fun _ => rfl)
    fun ⟨c, k, d, a, j, r, s⟩ => by simp only [VCJRS.ofNat, VCJRS.toNat, VCJRS.mk.injEq, ← BitVec.toNat_inj, BitVec.toNat_ofNat]; omega

theorem VCJ.layout : Layout VCJ.ofNat VCJ.toNat 0xC1FFF860 :=
  .of_fields [(5, 2), (11, 7), (18, 7), (30, 1), (31, 1)] (by decide) (fun _ => rfl)
    fun ⟨c, k, d, a, j⟩ => by simp only [VCJ.ofNat, VCJ.toNat, VCJ.mk.injEq, ← BitVec.toNat_inj, BitVec.toNat_ofNat]; omega

theorem VRP.layout : Layout VRP.ofNat VRP.toNat 0xC1FFF870 :=
  .of_fields [(4, 3), (11, 7), (18, 7), (30, 1), (31, 1)] (by decide) (fun _ => rfl)
    fun ⟨c, k, d, a, p⟩ => by simp only [VRP.ofNat, VRP.toNat, VRP.mk.injEq, ← BitVec.toNat_inj, BitVec.toNat_ofNat]; omega

theorem R3.layout : Layout R3.ofNat R3.toNat 0x81FFFFF0 :=
  .of_fields [(4, 7), (11, 7), (18, 7), (31, 1)] (by decide) (fun _ => rfl)
    fun ⟨c, d, a, b⟩ => by simp only [R3.ofNat, R3.toNat, R3.mk.injEq, ← BitVec.toNat_inj, BitVec.toNat_ofNat]; omega

theorem VI.layout : Layout VI.ofNat VI.toNat 0xC1FFFFF0 :=
  .of_fields [(4, 7), (11, 7), (18, 7), (30, 1), (31, 1)] (by decide) (fun _ => rfl)
    fun ⟨c, k, d, a, i⟩ => by simp only [VI.ofNat, VI.toNat, VI.mk.injEq, ← BitVec.toNat_inj, BitVec.toNat_ofNat]; omega

theorem VI0.layout : Layout VI0.ofNat VI0.toNat 0xC1FC07F0 :=
  .of_fields [(4, 7), (18, 7), (30, 1), (31, 1)] (by decide) (fun _ => rfl)
    fun ⟨c, k, d, i⟩ => by simp only [VI0.ofNat, VI0.toNat, VI0.mk.injEq, ← BitVec.toNat_inj, BitVec.toNat_ofNat]; omega

theorem VR0.layout : Layout VR0.ofNat VR0.toNat 0xC1FC0000 :=
  .of_fields [(18, 7), (30, 1), (31, 1)] (by decide) (fun _ => rfl)
    fun ⟨c, k, d⟩ => by simp only [VR0.ofNat, VR0.toNat, VR0.mk.injEq, ← BitVec.toNat_inj, BitVec.toNat_ofNat]; omega

theorem VRS.layout : Layout VRS.ofNat VRS.toNat 0xC1FFFFF7 :=
  .of_fields [(0, 3), (4, 7), (11, 7), (18, 7), (30, 1), (31, 1)] (by decide) (fun _ => rfl)
    fun ⟨c, k, d, a, b, p⟩ => by simp only [VRS.ofNat, VRS.toNat, VRS.mk.injEq, ← BitVec.toNat_inj, BitVec.toNat_ofNat]; omega

theorem PR3.layout : Layout PR3.ofNat PR3.toNat 0x81FF0000 :=
  .of_fields [(16, 3), (19, 3), (22, 3), (31, 1)] (by decide) (fun _ => rfl)
    fun ⟨c, d, a, b⟩ => by simp only [PR3.ofNat, PR3.toNat, PR3.mk.injEq, ← BitVec.toNat_inj, BitVec.toNat_ofNat]; omega

theorem PR2.layout : Layout PR2.ofNat PR2.toNat 0x81F80000 :=
  .of_fields [(19, 3), (22, 3), (31, 1)] (by decide) (fun _ => rfl)
    fun ⟨c, d, a⟩ => by simp only [PR2.ofNat, PR2.toNat, PR2.mk.injEq, ← BitVec.toNat_inj, BitVec.toNat_ofNat]; omega

theorem PR1.layout : Layout PR1.ofNat PR1.toNat 0x81C00000 :=
  .of_fields [(22, 3), (31, 1)] (by decide) (fun _ => rfl)
    fun ⟨c, d⟩ => by simp only [PR1.ofNat, PR1.toNat, PR1.mk.injEq, ← BitVec.toNat_inj, BitVec.toNat_ofNat]; omega

theorem PRDS.layout : Layout PRDS.ofNat PRDS.toNat 0x81C0FE00 :=
  .of_fields [(9, 7), (22, 3), (31, 1)] (by decide) (fun _ => rfl)
    fun ⟨c, d, s⟩ => by simp only [PRDS.ofNat, PRDS.toNat, PRDS.mk.injEq, ← BitVec.toNat_inj, BitVec.toNat_ofNat]; omega

theorem PRAS.layout : Layout PRAS.ofNat PRAS.toNat 0x8038FE00 :=
  .of_fields [(9, 7), (19, 3), (31, 1)] (by decide) (fun _ => rfl)
    fun ⟨c, a, s⟩ => by simp only [PRAS.ofNat, PRAS.toNat, PRAS.mk.injEq, ← BitVec.toNat_inj, BitVec.toNat_ofNat]; omega

theorem PRA.layout : Layout PRA.ofNat PRA.toNat 0x80380000 :=
  .of_fields [(19, 3), (31, 1)] (by decide) (fun _ => rfl)
    fun ⟨c, a⟩ => by simp only [PRA.ofNat, PRA.toNat, PRA.mk.injEq, ← BitVec.toNat_inj, BitVec.toNat_ofNat]; omega

theorem SI.layout : Layout SI.ofNat SI.toNat 0xC1FFFFF8 :=
  .of_fields [(3, 8), (11, 7), (18, 7), (30, 1), (31, 1)] (by decide) (fun _ => rfl)
    fun ⟨c, k, d, a, i⟩ => by simp only [SI.ofNat, SI.toNat, SI.mk.injEq, ← BitVec.toNat_inj, BitVec.toNat_ofNat]; omega

theorem SKK.layout : Layout SKK.ofNat SKK.toNat 0xC1FDFFFF :=
  .of_fields [(0, 17), (18, 7), (30, 1), (31, 1)] (by decide) (fun _ => rfl)
    fun ⟨c, k, d, i⟩ => by simp only [SKK.ofNat, SKK.toNat, SKK.mk.injEq, ← BitVec.toNat_inj, BitVec.toNat_ofNat]; omega

theorem SKN.layout : Layout SKN.ofNat SKN.toNat 0x81FDFFFF :=
  .of_fields [(0, 17), (18, 7), (31, 1)] (by decide) (fun _ => rfl)
    fun ⟨c, d, i⟩ => by simp only [SKN.ofNat, SKN.toNat, SKN.mk.injEq, ← BitVec.toNat_inj, BitVec.toNat_ofNat]; omega

theorem CTK.layout : Layout CTK.ofNat CTK.toNat 0xC1FFFF00 :=
  .of_fields [(8, 10), (18, 7), (30, 1), (31, 1)] (by decide) (fun _ => rfl)
    fun ⟨c, k, s, n⟩ => by simp only [CTK.ofNat, CTK.toNat, CTK.mk.injEq, ← BitVec.toNat_inj, BitVec.toNat_ofNat]; omega

theorem CTN.layout : Layout CTN.ofNat CTN.toNat 0x81FFFF00 :=
  .of_fields [(8, 10), (18, 7), (31, 1)] (by decide) (fun _ => rfl)
    fun ⟨c, s, n⟩ => by simp only [CTN.ofNat, CTN.toNat, CTN.mk.injEq, ← BitVec.toNat_inj, BitVec.toNat_ofNat]; omega

theorem CTT.layout : Layout CTT.ofNat CTT.toNat 0x81FC0F00 :=
  .of_fields [(8, 4), (18, 7), (31, 1)] (by decide) (fun _ => rfl)
    fun ⟨c, s, t⟩ => by simp only [CTT.ofNat, CTT.toNat, CTT.mk.injEq, ← BitVec.toNat_inj, BitVec.toNat_ofNat]; omega

theorem S1.layout : Layout S1.ofNat S1.toNat 0x81FC0000 :=
  .of_fields [(18, 7), (31, 1)] (by decide) (fun _ => rfl)
    fun ⟨c, s⟩ => by simp only [S1.ofNat, S1.toNat, S1.mk.injEq, ← BitVec.toNat_inj, BitVec.toNat_ofNat]; omega

theorem BJ.layout : Layout BJ.ofNat BJ.toNat 0x81FFFFFF :=
  .of_fields [(0, 25), (31, 1)] (by decide) (fun _ => rfl)
    fun ⟨c, o⟩ => by simp only [BJ.ofNat, BJ.toNat, BJ.mk.injEq, ← BitVec.toNat_inj, BitVec.toNat_ofNat]; omega

theorem BC.layout : Layout BC.ofNat BC.toNat 0x81FFE3FF :=
  .of_fields [(0, 10), (13, 6), (19, 6), (31, 1)] (by decide) (fun _ => rfl)
    fun ⟨c, a, b, o⟩ => by simp only [BC.ofNat, BC.toNat, BC.mk.injEq, ← BitVec.toNat_inj, BitVec.toNat_ofNat]; omega

theorem BC1.layout : Layout BC1.ofNat BC1.toNat 0x81F803FF :=
  .of_fields [(0, 10), (19, 6), (31, 1)] (by decide) (fun _ => rfl)
    fun ⟨c, a, o⟩ => by simp only [BC1.ofNat, BC1.toNat, BC1.mk.injEq, ← BitVec.toNat_inj, BitVec.toNat_ofNat]; omega

theorem BQ.layout : Layout BQ.ofNat BQ.toNat 0x81CFFFFF :=
  .of_fields [(0, 20), (22, 3), (31, 1)] (by decide) (fun _ => rfl)
    fun ⟨c, p, o⟩ => by simp only [BQ.ofNat, BQ.toNat, BQ.mk.injEq, ← BitVec.toNat_inj, BitVec.toNat_ofNat]; omega

theorem C0.layout : Layout C0.ofNat C0.toNat 0x80000000 :=
  .of_fields [(31, 1)] (by decide) (fun _ => rfl)
    fun ⟨c⟩ => by simp only [C0.ofNat, C0.toNat, C0.mk.injEq, ← BitVec.toNat_inj, BitVec.toNat_ofNat]; omega

theorem FI.layout : Layout FI.ofNat FI.toNat 0x8003FFF0 :=
  .of_fields [(4, 14), (31, 1)] (by decide) (fun _ => rfl)
    fun ⟨c, i⟩ => by simp only [FI.ofNat, FI.toNat, FI.mk.injEq, ← BitVec.toNat_inj, BitVec.toNat_ofNat]; omega

theorem FH.layout : Layout FH.ofNat FH.toNat 0x80000010 :=
  .of_fields [(4, 1), (31, 1)] (by decide) (fun _ => rfl)
    fun ⟨c, h⟩ => by simp only [FH.ofNat, FH.toNat, FH.mk.injEq, ← BitVec.toNat_inj, BitVec.toNat_ofNat]; omega

theorem FSI.layout : Layout FSI.ofNat FSI.toNat 0x81FFFFF0 :=
  .of_fields [(4, 14), (18, 7), (31, 1)] (by decide) (fun _ => rfl)
    fun ⟨c, s, i⟩ => by simp only [FSI.ofNat, FSI.toNat, FSI.mk.injEq, ← BitVec.toNat_inj, BitVec.toNat_ofNat]; omega

theorem RAB.layout : Layout RAB.ofNat RAB.toNat 0x8003FFF0 :=
  .of_fields [(4, 7), (11, 7), (31, 1)] (by decide) (fun _ => rfl)
    fun ⟨c, a, b⟩ => by simp only [RAB.ofNat, RAB.toNat, RAB.mk.injEq, ← BitVec.toNat_inj, BitVec.toNat_ofNat]; omega

theorem R2.layout : Layout R2.ofNat R2.toNat 0x81FFF800 :=
  .of_fields [(11, 7), (18, 7), (31, 1)] (by decide) (fun _ => rfl)
    fun ⟨c, d, a⟩ => by simp only [R2.ofNat, R2.toNat, R2.mk.injEq, ← BitVec.toNat_inj, BitVec.toNat_ofNat]; omega

theorem RA.layout : Layout RA.ofNat RA.toNat 0x8003F800 :=
  .of_fields [(11, 7), (31, 1)] (by decide) (fun _ => rfl)
    fun ⟨c, a⟩ => by simp only [RA.ofNat, RA.toNat, RA.mk.injEq, ← BitVec.toNat_inj, BitVec.toNat_ofNat]; omega

theorem MS.layout : Layout MS.ofNat MS.toNat 0x81FFFFFF :=
  .of_fields [(0, 3), (3, 2), (5, 2), (7, 4), (11, 7), (18, 7), (31, 1)] (by decide) (fun _ => rfl)
    fun ⟨c, v, a, b, z, e, m⟩ => by simp only [MS.ofNat, MS.toNat, MS.mk.injEq, ← BitVec.toNat_inj, BitVec.toNat_ofNat]; omega

theorem MC.layout : Layout MC.ofNat MC.toNat 0x81FFFFFF :=
  .of_fields [(0, 2), (2, 10), (12, 6), (18, 7), (31, 1)] (by decide) (fun _ => rfl)
    fun ⟨c, v, b, o, e⟩ => by simp only [MC.ofNat, MC.toNat, MC.mk.injEq, ← BitVec.toNat_inj, BitVec.toNat_ofNat]; omega

theorem MG.layout : Layout MG.ofNat MG.toNat 0x81FFFFFF :=
  .of_fields [(0, 2), (2, 1), (3, 2), (5, 2), (7, 4), (11, 7), (18, 7), (31, 1)] (by decide) (fun _ => rfl)
    fun ⟨c, v, i, b, e, w, g, s⟩ => by simp only [MG.ofNat, MG.toNat, MG.mk.injEq, ← BitVec.toNat_inj, BitVec.toNat_ofNat]; omega

theorem AT.layout : Layout AT.ofNat AT.toNat 0x81FFFF87 :=
  .of_fields [(0, 1), (1, 2), (7, 4), (11, 7), (18, 7), (31, 1)] (by decide) (fun _ => rfl)
    fun ⟨c, v, i, b, t, n⟩ => by simp only [AT.ofNat, AT.toNat, AT.mk.injEq, ← BitVec.toNat_inj, BitVec.toNat_ofNat]; omega

theorem MXF.layout : Layout MXF.ofNat MXF.toNat 0x8000078F :=
  .of_fields [(0, 4), (7, 4), (31, 1)] (by decide) (fun _ => rfl)
    fun ⟨c, s, f⟩ => by simp only [MXF.ofNat, MXF.toNat, MXF.mk.injEq, ← BitVec.toNat_inj, BitVec.toNat_ofNat]; omega

theorem MXW.layout : Layout MXW.ofNat MXW.toNat 0x81FFFF81 :=
  .of_fields [(0, 1), (7, 4), (11, 7), (18, 7), (31, 1)] (by decide) (fun _ => rfl)
    fun ⟨c, v, i, b, w⟩ => by simp only [MXW.ofNat, MXW.toNat, MXW.mk.injEq, ← BitVec.toNat_inj, BitVec.toNat_ofNat]; omega

theorem MXT.layout : Layout MXT.ofNat MXT.toNat 0x81FFFF83 :=
  .of_fields [(0, 2), (7, 4), (11, 7), (18, 7), (31, 1)] (by decide) (fun _ => rfl)
    fun ⟨c, v, i, b, t⟩ => by simp only [MXT.ofNat, MXT.toNat, MXT.mk.injEq, ← BitVec.toNat_inj, BitVec.toNat_ofNat]; omega

theorem MXL.layout : Layout MXL.ofNat MXL.toNat 0x8003FF81 :=
  .of_fields [(0, 1), (7, 4), (11, 7), (31, 1)] (by decide) (fun _ => rfl)
    fun ⟨c, i, b, l⟩ => by simp only [MXL.ofNat, MXL.toNat, MXL.mk.injEq, ← BitVec.toNat_inj, BitVec.toNat_ofNat]; omega

theorem MXN.layout : Layout MXN.ofNat MXN.toNat 0x8003FF81 :=
  .of_fields [(0, 1), (7, 4), (11, 7), (31, 1)] (by decide) (fun _ => rfl)
    fun ⟨c, i, b, n⟩ => by simp only [MXN.ofNat, MXN.toNat, MXN.mk.injEq, ← BitVec.toNat_inj, BitVec.toNat_ofNat]; omega

theorem MM.layout : Layout MM.ofNat MM.toNat 0x81FFFC00 :=
  .of_fields [(10, 7), (17, 4), (21, 4), (31, 1)] (by decide) (fun _ => rfl)
    fun ⟨c, a, b, v⟩ => by simp only [MM.ofNat, MM.toNat, MM.mk.injEq, ← BitVec.toNat_inj, BitVec.toNat_ofNat]; omega

theorem MMLF.layout : Layout MMLF.ofNat MMLF.toNat 0x81FFFC30 :=
  .of_fields [(4, 1), (5, 1), (10, 7), (17, 4), (21, 4), (31, 1)] (by decide) (fun _ => rfl)
    fun ⟨c, a, b, v, l, f⟩ => by simp only [MMLF.ofNat, MMLF.toNat, MMLF.mk.injEq, ← BitVec.toNat_inj, BitVec.toNat_ofNat]; omega

theorem MMD.layout : Layout MMD.ofNat MMD.toNat 0x81FFFFF0 :=
  .of_fields [(4, 3), (7, 3), (10, 7), (17, 4), (21, 4), (31, 1)] (by decide) (fun _ => rfl)
    fun ⟨c, a, b, v, y, s⟩ => by simp only [MMD.ofNat, MMD.toNat, MMD.mk.injEq, ← BitVec.toNat_inj, BitVec.toNat_ofNat]; omega

theorem MMA1.layout : Layout MMA1.ofNat MMA1.toNat 0x81E1FC00 :=
  .of_fields [(10, 7), (21, 4), (31, 1)] (by decide) (fun _ => rfl)
    fun ⟨c, a, v⟩ => by simp only [MMA1.ofNat, MMA1.toNat, MMA1.mk.injEq, ← BitVec.toNat_inj, BitVec.toNat_ofNat]; omega

end Sys2Proof
end

section
/-! SUPPORT. Every word that a format decodes is the encoding of what it decodes to (Sys2Proof/Decode.lean): the word is its layout's fields and the bits that the
row fixes, and the decoder has checked these. -/

namespace Sys2Proof

/-- Where `r` is an instruction, its word is n. -/
def Encodes (n : Nat) (r : Except DecodeErr Instr) : Prop :=
  ∀ i, r = .ok i → encodeNat i = some n

theorem encodes_ok {n : Nat} {i : Instr} : Encodes n (.ok i) ↔ encodeNat i = some n :=
  ⟨fun h => h i rfl, fun h _ hi => Except.ok.inj hi ▸ h⟩

theorem encodes_error {n : Nat} {e : DecodeErr} : Encodes n (.error e) ↔ True :=
  iff_true_intro fun _ hi => nomatch hi

theorem encodes_zeros {n : Nat} {p : Bool} {i : Instr} : Encodes n (zeros p i) ↔ (p = true → encodeNat i = some n) := by
  cases p with
  | false => exact iff_of_true (encodes_error.mpr trivial) fun h => nomatch h
  | true => exact encodes_ok.trans (by simp only [forall_const])

/-- The code of VADD is 0. -/
theorem encodeNat_vadd (w : VR) : encodeNat (.vadd w) = some (0 + w.toNat) :=
  congrArg some (Nat.zero_add _).symm

theorem encodes_decodeVIA {n : Nat} (hn : n < 2 ^ 32) (hmajor : n / 33554432 % 32 = 0) : Encodes n (decodeVIA n) := by
  have hVR := VR.layout.add_eq_iff hn [(0, 4), (25, 5)] (by decide)
  unfold decodeVIA
  split
  all_goals simp only [encodes_ok, encodeNat_vadd, imp_false] at *
  all_goals refine congrArg some ?_
  all_goals simp only [hVR, placed, Nat.reducePow]
  all_goals omega

theorem encodes_decodeVIB {n : Nat} (hn : n < 2 ^ 32) (hmajor : n / 33554432 % 32 = 1) : Encodes n (decodeVIB n) := by
  have hVR := VR.layout.add_eq_iff hn [(0, 4), (25, 5)] (by decide)
  have hVR1 := VR1.layout.add_eq_iff hn [(0, 4), (4, 7), (25, 5)] (by decide)
  unfold decodeVIB
  split
  all_goals simp only [encodes_ok, encodes_zeros, beq_iff_eq, imp_false] at *
  all_goals intros
  all_goals refine congrArg some ?_
  all_goals simp only [hVR, hVR1, placed, Nat.reducePow]
  all_goals omega

theorem encodes_decodeVCMP {n : Nat} (hn : n < 2 ^ 32) (hmajor : n / 33554432 % 32 = 2) : Encodes n (decodeVCMP n) := by
  have hVP := VP.layout.add_eq_iff hn [(0, 6), (25, 5), (30, 1)] (by decide)
  have hVP1 := VP1.layout.add_eq_iff hn [(0, 6), (6, 7), (25, 5), (30, 1)] (by decide)
  unfold decodeVCMP
  split
  all_goals simp only [encodes_zeros, encodes_error, Bool.and_eq_true, beq_iff_eq]
  all_goals intros
  all_goals refine congrArg some ?_
  all_goals simp only [hVP, hVP1, placed, Nat.reducePow]
  all_goals omega

theorem encodes_decodeVF {n : Nat} (hn : n < 2 ^ 32) (hmajor : n / 33554432 % 32 = 3) : Encodes n (decodeVF n) := by
  have hVR := VR.layout.add_eq_iff hn [(0, 4), (25, 5)] (by decide)
  have hVR1 := VR1.layout.add_eq_iff hn [(0, 4), (4, 7), (25, 5)] (by decide)
  unfold decodeVF
  split
  all_goals simp only [encodes_ok, encodes_zeros, beq_iff_eq, imp_false] at *
  all_goals intros
  all_goals refine congrArg some ?_
  all_goals simp only [hVR, hVR1, placed, Nat.reducePow]
  all_goals omega

theorem encodes_decodeVD {n : Nat} (hn : n < 2 ^ 32) (hmajor : n / 33554432 % 32 = 4) : Encodes n (decodeVD n) := by
  have hVR := VR.layout.add_eq_iff hn [(0, 4), (25, 5)] (by decide)
  have hVR1 := VR1.layout.add_eq_iff hn [(0, 4), (4, 7), (25, 5)] (by decide)
  unfold decodeVD
  split
  all_goals simp only [encodes_ok, encodes_zeros, beq_iff_eq, imp_false] at *
  all_goals intros
  all_goals refine congrArg some ?_
  all_goals simp only [hVR, hVR1, placed, Nat.reducePow]
  all_goals omega

theorem encodes_decodeVH {n : Nat} (hn : n < 2 ^ 32) (hmajor : n / 33554432 % 32 = 5) : Encodes n (decodeVH n) := by
  have hVR := VR.layout.add_eq_iff hn [(0, 4), (25, 5)] (by decide)
  unfold decodeVH
  split
  all_goals simp only [encodes_ok, imp_false] at *
  all_goals refine congrArg some ?_
  all_goals simp only [hVR, placed, Nat.reducePow]
  all_goals omega

theorem encodes_decodeVCVT {n : Nat} (hn : n < 2 ^ 32) (hmajor : n / 33554432 % 32 = 6) : Encodes n (decodeVCVT n) := by
  have hVCRS := VCRS.layout.add_eq_iff hn [(0, 1), (5, 6), (25, 5)] (by decide)
  have hVCR := VCR.layout.add_eq_iff hn [(0, 2), (5, 6), (25, 5)] (by decide)
  have hVR1 := VR1.layout.add_eq_iff hn [(0, 5), (5, 6), (25, 5)] (by decide)
  have hVCRSH := VCRSH.layout.add_eq_iff hn [(5, 6), (25, 5)] (by decide)
  have hVCH := VCH.layout.add_eq_iff hn [(1, 4), (5, 6), (25, 5)] (by decide)
  have hVCJRS := VCJRS.layout.add_eq_iff hn [(0, 1), (7, 4), (25, 5)] (by decide)
  have hVCJ := VCJ.layout.add_eq_iff hn [(0, 5), (7, 4), (25, 5)] (by decide)
  unfold decodeVCVT
  split
  all_goals simp only [encodes_ok, encodes_zeros, encodes_error, beq_iff_eq]
  all_goals intros
  all_goals refine congrArg some ?_
  all_goals simp only [hVCRS, hVCR, hVR1, hVCRSH, hVCH, hVCJRS, hVCJ, placed, Nat.reducePow]
  all_goals omega

theorem encodes_decodeVX {n : Nat} (hn : n < 2 ^ 32) (hmajor : n / 33554432 % 32 = 7) : Encodes n (decodeVX n) := by
  have hVR := VR.layout.add_eq_iff hn [(0, 4), (25, 5)] (by decide)
  have hVR1 := VR1.layout.add_eq_iff hn [(0, 4), (4, 7), (25, 5)] (by decide)
  have hVRP := VRP.layout.add_eq_iff hn [(0, 4), (7, 4), (25, 5)] (by decide)
  have hR3 := R3.layout.add_eq_iff hn [(0, 4), (25, 5), (30, 1)] (by decide)
  unfold decodeVX
  split
  all_goals simp only [encodes_ok, encodes_zeros, beq_iff_eq, imp_false] at *
  all_goals intros
  all_goals refine congrArg some ?_
  all_goals simp only [hVR, hVR1, hVRP, hR3, placed, Nat.reducePow]
  all_goals omega

theorem encodes_decodeVIM {n : Nat} (hn : n < 2 ^ 32) (hmajor : n / 33554432 % 32 = 8) : Encodes n (decodeVIM n) := by
  have hVI := VI.layout.add_eq_iff hn [(0, 4), (25, 5)] (by decide)
  have hVI0 := VI0.layout.add_eq_iff hn [(0, 4), (11, 7), (25, 5)] (by decide)
  unfold decodeVIM
  split
  all_goals simp only [encodes_ok, encodes_zeros, encodes_error, beq_iff_eq]
  all_goals intros
  all_goals refine congrArg some ?_
  all_goals simp only [hVI, hVI0, placed, Nat.reducePow]
  all_goals omega

theorem encodes_decodeVMV {n : Nat} (hn : n < 2 ^ 32) (hmajor : n / 33554432 % 32 = 9) : Encodes n (decodeVMV n) := by
  have hVR1 := VR1.layout.add_eq_iff hn [(0, 4), (4, 7), (25, 5)] (by decide)
  have hVR := VR.layout.add_eq_iff hn [(0, 4), (25, 5)] (by decide)
  have hVR0 := VR0.layout.add_eq_iff hn [(0, 4), (4, 14), (25, 5)] (by decide)
  have hVRS := VRS.layout.add_eq_iff hn [(3, 1), (25, 5)] (by decide)
  unfold decodeVMV
  split
  all_goals simp only [encodes_ok, encodes_zeros, encodes_error, beq_iff_eq]
  all_goals intros
  all_goals refine congrArg some ?_
  all_goals simp only [hVR1, hVR, hVR0, hVRS, placed, Nat.reducePow]
  all_goals omega

theorem encodes_decodePRD {n : Nat} (hn : n < 2 ^ 32) (hmajor : n / 33554432 % 32 = 10) : Encodes n (decodePRD n) := by
  have hPR3 := PR3.layout.add_eq_iff hn [(0, 4), (4, 12), (25, 5), (30, 1)] (by decide)
  have hPR2 := PR2.layout.add_eq_iff hn [(0, 4), (4, 15), (25, 5), (30, 1)] (by decide)
  have hPR1 := PR1.layout.add_eq_iff hn [(0, 4), (4, 18), (25, 5), (30, 1)] (by decide)
  have hPRDS := PRDS.layout.add_eq_iff hn [(0, 4), (4, 5), (16, 6), (25, 5), (30, 1)] (by decide)
  have hPRAS := PRAS.layout.add_eq_iff hn [(0, 4), (4, 5), (16, 3), (22, 3), (25, 5), (30, 1)] (by decide)
  have hPRA := PRA.layout.add_eq_iff hn [(0, 4), (4, 15), (22, 3), (25, 5), (30, 1)] (by decide)
  unfold decodePRD
  split
  all_goals simp only [encodes_zeros, encodes_error, Bool.and_eq_true, beq_iff_eq]
  all_goals intros
  all_goals refine congrArg some ?_
  all_goals simp only [hPR3, hPR2, hPR1, hPRDS, hPRAS, hPRA, placed, Nat.reducePow]
  all_goals omega

theorem encodes_decodeSA {n : Nat} (hn : n < 2 ^ 32) (hmajor : n / 33554432 % 32 = 11) : Encodes n (decodeSA n) := by
  have hVR := VR.layout.add_eq_iff hn [(0, 4), (25, 5)] (by decide)
  unfold decodeSA
  split
  all_goals simp only [encodes_ok, imp_false] at *
  all_goals refine congrArg some ?_
  all_goals simp only [hVR, placed, Nat.reducePow]
  all_goals omega

theorem encodes_decodeSI {n : Nat} (hn : n < 2 ^ 32) (hmajor : n / 33554432 % 32 = 12) : Encodes n (decodeSI n) := by
  have hSI := SI.layout.add_eq_iff hn [(0, 3), (25, 5)] (by decide)
  unfold decodeSI
  split
  all_goals simp only [encodes_ok, imp_false] at *
  all_goals refine congrArg some ?_
  all_goals simp only [hSI, placed, Nat.reducePow]
  all_goals omega

theorem encodes_decodeSK {n : Nat} (hn : n < 2 ^ 32) (hmajor : n / 33554432 % 32 = 13) : Encodes n (decodeSK n) := by
  have hSKK := SKK.layout.add_eq_iff hn [(17, 1), (25, 5)] (by decide)
  have hSKN := SKN.layout.add_eq_iff hn [(17, 1), (25, 5), (30, 1)] (by decide)
  unfold decodeSK
  split
  all_goals simp only [encodes_ok, encodes_zeros, beq_iff_eq, imp_false] at *
  all_goals intros
  all_goals refine congrArg some ?_
  all_goals simp only [hSKK, hSKN, placed, Nat.reducePow]
  all_goals omega

theorem encodes_decodeCTL {n : Nat} (hn : n < 2 ^ 32) (hmajor : n / 33554432 % 32 = 14) : Encodes n (decodeCTL n) := by
  have hCTK := CTK.layout.add_eq_iff hn [(0, 4), (4, 4), (25, 5)] (by decide)
  have hCTN := CTN.layout.add_eq_iff hn [(0, 4), (4, 4), (25, 5), (30, 1)] (by decide)
  have hCTT := CTT.layout.add_eq_iff hn [(0, 4), (4, 4), (12, 6), (25, 5), (30, 1)] (by decide)
  have hS1 := S1.layout.add_eq_iff hn [(0, 4), (4, 4), (8, 10), (25, 5), (30, 1)] (by decide)
  unfold decodeCTL
  split
  all_goals simp only [encodes_zeros, encodes_error, Bool.and_eq_true, beq_iff_eq]
  all_goals intros
  all_goals refine congrArg some ?_
  all_goals simp only [hCTK, hCTN, hCTT, hS1, placed, Nat.reducePow]
  all_goals omega

theorem encodes_decodeB {n : Nat} (hn : n < 2 ^ 32) (hmajor : n / 33554432 % 32 = 15) : Encodes n (decodeB n) := by
  have hBJ := BJ.layout.add_eq_iff hn [(25, 5), (30, 1)] (by decide)
  unfold decodeB
  simp only [encodes_zeros, beq_iff_eq]
  intro hk
  refine congrArg some ?_
  simp only [hBJ, placed, Nat.reducePow]
  omega

theorem encodes_decodeBL {n : Nat} (hn : n < 2 ^ 32) (hmajor : n / 33554432 % 32 = 16) : Encodes n (decodeBL n) := by
  have hBJ := BJ.layout.add_eq_iff hn [(25, 5), (30, 1)] (by decide)
  unfold decodeBL
  simp only [encodes_zeros, beq_iff_eq]
  intro hk
  refine congrArg some ?_
  simp only [hBJ, placed, Nat.reducePow]
  omega

theorem encodes_decodeBS {n : Nat} (hn : n < 2 ^ 32) (hmajor : n / 33554432 % 32 = 17) : Encodes n (decodeBS n) := by
  have hBC := BC.layout.add_eq_iff hn [(10, 3), (25, 5), (30, 1)] (by decide)
  have hBC1 := BC1.layout.add_eq_iff hn [(10, 3), (13, 6), (25, 5), (30, 1)] (by decide)
  unfold decodeBS
  split
  all_goals simp only [encodes_zeros, Bool.and_eq_true, beq_iff_eq, imp_false] at *
  all_goals intros
  all_goals refine congrArg some ?_
  all_goals simp only [hBC, hBC1, placed, Nat.reducePow]
  all_goals omega

theorem encodes_decodeBP {n : Nat} (hn : n < 2 ^ 32) (hmajor : n / 33554432 % 32 = 18) : Encodes n (decodeBP n) := by
  have hBQ := BQ.layout.add_eq_iff hn [(20, 2), (25, 5), (30, 1)] (by decide)
  unfold decodeBP
  split
  all_goals simp only [encodes_zeros, beq_iff_eq, imp_false] at *
  all_goals intros
  all_goals refine congrArg some ?_
  all_goals simp only [hBQ, placed, Nat.reducePow]
  all_goals omega

theorem encodes_decodeFLW {n : Nat} (hn : n < 2 ^ 32) (hmajor : n / 33554432 % 32 = 19) : Encodes n (decodeFLW n) := by
  have hS1 := S1.layout.add_eq_iff hn [(0, 4), (4, 14), (25, 5), (30, 1)] (by decide)
  have hC0 := C0.layout.add_eq_iff hn [(0, 4), (4, 21), (25, 5), (30, 1)] (by decide)
  have hFI := FI.layout.add_eq_iff hn [(0, 4), (18, 7), (25, 5), (30, 1)] (by decide)
  unfold decodeFLW
  split
  all_goals simp only [encodes_zeros, encodes_error, Bool.and_eq_true, beq_iff_eq]
  all_goals intros
  all_goals refine congrArg some ?_
  all_goals simp only [hS1, hC0, hFI, placed, Nat.reducePow]
  all_goals omega

theorem encodes_decodeSYS {n : Nat} (hn : n < 2 ^ 32) (hmajor : n / 33554432 % 32 = 20) : Encodes n (decodeSYS n) := by
  have hS1 := S1.layout.add_eq_iff hn [(0, 4), (4, 14), (25, 5), (30, 1)] (by decide)
  have hFH := FH.layout.add_eq_iff hn [(0, 4), (5, 20), (25, 5), (30, 1)] (by decide)
  have hFI := FI.layout.add_eq_iff hn [(0, 4), (18, 7), (25, 5), (30, 1)] (by decide)
  have hFSI := FSI.layout.add_eq_iff hn [(0, 4), (25, 5), (30, 1)] (by decide)
  have hC0 := C0.layout.add_eq_iff hn [(0, 4), (4, 21), (25, 5), (30, 1)] (by decide)
  unfold decodeSYS
  split
  all_goals simp only [encodes_zeros, encodes_error, Bool.and_eq_true, beq_iff_eq]
  all_goals intros
  all_goals refine congrArg some ?_
  all_goals simp only [hS1, hFH, hFI, hFSI, hC0, placed, Nat.reducePow]
  all_goals omega

theorem encodes_decodeCST {n : Nat} (hn : n < 2 ^ 32) (hmajor : n / 33554432 % 32 = 21) : Encodes n (decodeCST n) := by
  have hR3 := R3.layout.add_eq_iff hn [(0, 4), (25, 5), (30, 1)] (by decide)
  have hC0 := C0.layout.add_eq_iff hn [(0, 4), (4, 21), (25, 5), (30, 1)] (by decide)
  have hRAB := RAB.layout.add_eq_iff hn [(0, 4), (18, 7), (25, 5), (30, 1)] (by decide)
  have hR2 := R2.layout.add_eq_iff hn [(0, 4), (4, 7), (25, 5), (30, 1)] (by decide)
  have hRA := RA.layout.add_eq_iff hn [(0, 4), (4, 7), (18, 7), (25, 5), (30, 1)] (by decide)
  unfold decodeCST
  split
  all_goals simp only [encodes_zeros, encodes_error, Bool.and_eq_true, beq_iff_eq]
  all_goals intros
  all_goals refine congrArg some ?_
  all_goals simp only [hR3, hC0, hRAB, hR2, hRA, placed, Nat.reducePow]
  all_goals omega

theorem encodes_decodeLDS {n : Nat} (hn : n < 2 ^ 32) (hmajor : n / 33554432 % 32 = 22) : Encodes n (decodeLDS n) := by
  have hMS := MS.layout.add_eq_iff hn [(25, 5), (30, 1)] (by decide)
  unfold decodeLDS
  simp only [encodes_zeros, beq_iff_eq]
  intro hk
  refine congrArg some ?_
  simp only [hMS, placed, Nat.reducePow]
  omega

theorem encodes_decodeSTS {n : Nat} (hn : n < 2 ^ 32) (hmajor : n / 33554432 % 32 = 23) : Encodes n (decodeSTS n) := by
  have hMS := MS.layout.add_eq_iff hn [(25, 5), (30, 1)] (by decide)
  unfold decodeSTS
  simp only [encodes_zeros, beq_iff_eq]
  intro hk
  refine congrArg some ?_
  simp only [hMS, placed, Nat.reducePow]
  omega

theorem encodes_decodeLDC {n : Nat} (hn : n < 2 ^ 32) (hmajor : n / 33554432 % 32 = 24) : Encodes n (decodeLDC n) := by
  have hMC := MC.layout.add_eq_iff hn [(25, 5), (30, 1)] (by decide)
  unfold decodeLDC
  simp only [encodes_zeros, beq_iff_eq]
  intro hk
  refine congrArg some ?_
  simp only [hMC, placed, Nat.reducePow]
  omega

theorem encodes_decodeSTC {n : Nat} (hn : n < 2 ^ 32) (hmajor : n / 33554432 % 32 = 25) : Encodes n (decodeSTC n) := by
  have hMC := MC.layout.add_eq_iff hn [(25, 5), (30, 1)] (by decide)
  unfold decodeSTC
  simp only [encodes_zeros, beq_iff_eq]
  intro hk
  refine congrArg some ?_
  simp only [hMC, placed, Nat.reducePow]
  omega

theorem encodes_decodeLDG {n : Nat} (hn : n < 2 ^ 32) (hmajor : n / 33554432 % 32 = 26) : Encodes n (decodeLDG n) := by
  have hMG := MG.layout.add_eq_iff hn [(25, 5), (30, 1)] (by decide)
  unfold decodeLDG
  simp only [encodes_zeros, beq_iff_eq]
  intro hk
  refine congrArg some ?_
  simp only [hMG, placed, Nat.reducePow]
  omega

theorem encodes_decodeSTG {n : Nat} (hn : n < 2 ^ 32) (hmajor : n / 33554432 % 32 = 27) : Encodes n (decodeSTG n) := by
  have hMG := MG.layout.add_eq_iff hn [(25, 5), (30, 1)] (by decide)
  unfold decodeSTG
  simp only [encodes_zeros, beq_iff_eq]
  intro hk
  refine congrArg some ?_
  simp only [hMG, placed, Nat.reducePow]
  omega

theorem encodes_decodeATM {n : Nat} (hn : n < 2 ^ 32) (hmajor : n / 33554432 % 32 = 28) : Encodes n (decodeATM n) := by
  have hAT := AT.layout.add_eq_iff hn [(3, 4), (25, 5), (30, 1)] (by decide)
  unfold decodeATM
  split
  all_goals simp only [encodes_zeros, encodes_error, beq_iff_eq]
  all_goals intros
  all_goals refine congrArg some ?_
  all_goals simp only [hAT, placed, Nat.reducePow]
  all_goals omega

theorem encodes_decodeMEM {n : Nat} (hn : n < 2 ^ 32) (hmajor : n / 33554432 % 32 = 29) : Encodes n (decodeMEM n) := by
  have hMXF := MXF.layout.add_eq_iff hn [(4, 3), (11, 14), (25, 5), (30, 1)] (by decide)
  have hMXW := MXW.layout.add_eq_iff hn [(1, 3), (4, 3), (25, 5), (30, 1)] (by decide)
  have hMXT := MXT.layout.add_eq_iff hn [(2, 2), (4, 3), (25, 5), (30, 1)] (by decide)
  have hMXL := MXL.layout.add_eq_iff hn [(1, 3), (4, 3), (18, 7), (25, 5), (30, 1)] (by decide)
  have hC0 := C0.layout.add_eq_iff hn [(0, 4), (4, 3), (7, 18), (25, 5), (30, 1)] (by decide)
  have hMXN := MXN.layout.add_eq_iff hn [(1, 3), (4, 3), (18, 7), (25, 5), (30, 1)] (by decide)
  unfold decodeMEM
  split
  all_goals simp only [encodes_zeros, Bool.and_eq_true, beq_iff_eq, imp_false] at *
  all_goals intros
  all_goals refine congrArg some ?_
  all_goals simp only [hMXF, hMXW, hMXT, hMXL, hC0, hMXN, placed, Nat.reducePow]
  all_goals omega

theorem encodes_decodeMMA {n : Nat} (hn : n < 2 ^ 32) (hmajor : n / 33554432 % 32 = 30) : Encodes n (decodeMMA n) := by
  have hMM := MM.layout.add_eq_iff hn [(0, 4), (4, 6), (25, 5), (30, 1)] (by decide)
  have hMMLF := MMLF.layout.add_eq_iff hn [(0, 4), (6, 4), (25, 5), (30, 1)] (by decide)
  have hMMD := MMD.layout.add_eq_iff hn [(0, 4), (25, 5), (30, 1)] (by decide)
  have hMMA1 := MMA1.layout.add_eq_iff hn [(0, 4), (4, 6), (17, 4), (25, 5), (30, 1)] (by decide)
  have hC0 := C0.layout.add_eq_iff hn [(0, 4), (4, 21), (25, 5), (30, 1)] (by decide)
  unfold decodeMMA
  split
  all_goals simp only [encodes_zeros, encodes_error, Bool.and_eq_true, beq_iff_eq]
  all_goals intros
  all_goals refine congrArg some ?_
  all_goals simp only [hMM, hMMLF, hMMD, hMMA1, hC0, placed, Nat.reducePow]
  all_goals omega

theorem encodes_decodeENG {n : Nat} (hn : n < 2 ^ 32) (hmajor : n / 33554432 % 32 = 31) : Encodes n (decodeENG n) := by
  have hR3 := R3.layout.add_eq_iff hn [(0, 4), (25, 5), (30, 1)] (by decide)
  have hR2 := R2.layout.add_eq_iff hn [(0, 4), (4, 7), (25, 5), (30, 1)] (by decide)
  have hRAB := RAB.layout.add_eq_iff hn [(0, 4), (18, 7), (25, 5), (30, 1)] (by decide)
  unfold decodeENG
  split
  all_goals simp only [encodes_zeros, encodes_error, Bool.and_eq_true, beq_iff_eq]
  all_goals intros
  all_goals refine congrArg some ?_
  all_goals simp only [hR3, hR2, hRAB, placed, Nat.reducePow]
  all_goals omega

/-- Each major number has its format (Table 3.3). -/
theorem encodes_decodeNat {n : Nat} (hn : n < 2 ^ 32) : Encodes n (decodeNat n) := by
  unfold decodeNat
  split
  next h => exact encodes_decodeVIA hn h
  next h => exact encodes_decodeVIB hn h
  next h => exact encodes_decodeVCMP hn h
  next h => exact encodes_decodeVF hn h
  next h => exact encodes_decodeVD hn h
  next h => exact encodes_decodeVH hn h
  next h => exact encodes_decodeVCVT hn h
  next h => exact encodes_decodeVX hn h
  next h => exact encodes_decodeVIM hn h
  next h => exact encodes_decodeVMV hn h
  next h => exact encodes_decodePRD hn h
  next h => exact encodes_decodeSA hn h
  next h => exact encodes_decodeSI hn h
  next h => exact encodes_decodeSK hn h
  next h => exact encodes_decodeCTL hn h
  next h => exact encodes_decodeB hn h
  next h => exact encodes_decodeBL hn h
  next h => exact encodes_decodeBS hn h
  next h => exact encodes_decodeBP hn h
  next h => exact encodes_decodeFLW hn h
  next h => exact encodes_decodeSYS hn h
  next h => exact encodes_decodeCST hn h
  next h => exact encodes_decodeLDS hn h
  next h => exact encodes_decodeSTS hn h
  next h => exact encodes_decodeLDC hn h
  next h => exact encodes_decodeSTC hn h
  next h => exact encodes_decodeLDG hn h
  next h => exact encodes_decodeSTG hn h
  next h => exact encodes_decodeATM hn h
  next h => exact encodes_decodeMEM hn h
  next h => exact encodes_decodeMMA hn h
  next =>
    simp only [imp_false] at *
    exact encodes_decodeENG hn (by omega)

end Sys2Proof
end

section
/-! SUPPORT. Every instruction is decoded from its word (Sys2Proof/Decode.lean), format by format: the decoder's reads outside the fields see the code of the
row, and its reads of the fields see what was written there. -/

namespace Sys2Proof

/-- The word of i, if it has one, decodes to i. -/
def RoundTrips (i : Instr) : Prop :=
  ∀ x, encode i = some x → decode x = .ok i

theorem RoundTrips.of_word {i : Instr} {n : Nat} (hword : encodeNat i = some n) (h : n < 2 ^ 32 ∧ decodeNat n = .ok i) : RoundTrips i := by
  intro x hx
  obtain ⟨hlt, hdecode⟩ := h
  rw [encode, hword] at hx
  rw [← Option.some.inj hx, decode, BitVec.toNat_ofNat, Nat.mod_eq_of_lt hlt, hdecode]

/-- An event has no word. -/
theorem RoundTrips.of_event {i : Instr} (hevent : encodeNat i = none) : RoundTrips i := by
  intro x hx
  rw [encode, hevent] at hx
  cases hx

theorem roundTrips_vadd (w : VR) : RoundTrips (.vadd w) := by
  refine .of_word (encodeNat_vadd w) ?_
  simp (disch := decide) only [true_and, decodeNat, decodeVIA, VR.layout.word_add]

theorem roundTrips_VIA :
    ∀ w : VR, RoundTrips (.vsub w) ∧ RoundTrips (.vmul w) ∧ RoundTrips (.vmulh w) ∧ RoundTrips (.vmulhu w) ∧ RoundTrips (.vmad w) ∧ RoundTrips (.vmin w)
      ∧ RoundTrips (.vmax w) ∧ RoundTrips (.vminu w) ∧ RoundTrips (.vmaxu w) ∧ RoundTrips (.vadds w) ∧ RoundTrips (.vsubs w) ∧ RoundTrips (.vdiv w)
      ∧ RoundTrips (.vdivu w) ∧ RoundTrips (.vrem w) ∧ RoundTrips (.vremu w) := by
  intro w
  and_intros
  all_goals refine .of_word rfl ?_
  all_goals simp (disch := decide) only [true_and, decodeNat, decodeVIA, VR.layout.word_add]

theorem roundTrips_VIB :
    (∀ w : VR, RoundTrips (.vand w) ∧ RoundTrips (.vor w) ∧ RoundTrips (.vxor w) ∧ RoundTrips (.vandn w) ∧ RoundTrips (.vshl w) ∧ RoundTrips (.vshr w)
      ∧ RoundTrips (.vsra w) ∧ RoundTrips (.vrol w) ∧ RoundTrips (.vadd64 w) ∧ RoundTrips (.vsub64 w) ∧ RoundTrips (.vmulw w) ∧ RoundTrips (.vshl64 w)
      ∧ RoundTrips (.vshr64 w))
    ∧ ∀ w : VR1, RoundTrips (.vpopc w) ∧ RoundTrips (.vclz w) ∧ RoundTrips (.vbrev w) := by
  refine ⟨fun w => ?_, fun w => ?_⟩
  all_goals and_intros
  all_goals refine .of_word rfl ?_
  all_goals simp (disch := decide) only [true_and, decodeNat, decodeVIB, VR.layout.word_add, VR1.layout.word_add]
  all_goals rfl

theorem roundTrips_VCMP :
    (∀ w : VP, RoundTrips (.vcmpI32Eq w) ∧ RoundTrips (.vcmpI32Ne w) ∧ RoundTrips (.vcmpI32Lt w) ∧ RoundTrips (.vcmpI32Le w) ∧ RoundTrips (.vcmpI32Ltu w)
      ∧ RoundTrips (.vcmpI32Leu w) ∧ RoundTrips (.vcmpI64Eq w) ∧ RoundTrips (.vcmpI64Ne w) ∧ RoundTrips (.vcmpI64Lt w) ∧ RoundTrips (.vcmpI64Le w)
      ∧ RoundTrips (.vcmpI64Ltu w) ∧ RoundTrips (.vcmpI64Leu w) ∧ RoundTrips (.vcmpF32Eq w) ∧ RoundTrips (.vcmpF32Lt w) ∧ RoundTrips (.vcmpF32Le w)
      ∧ RoundTrips (.vcmpF32Ne w) ∧ RoundTrips (.vcmpF32Un w) ∧ RoundTrips (.vcmpF32Ord w) ∧ RoundTrips (.vcmpF64Eq w) ∧ RoundTrips (.vcmpF64Lt w)
      ∧ RoundTrips (.vcmpF64Le w) ∧ RoundTrips (.vcmpF64Ne w) ∧ RoundTrips (.vcmpF64Un w) ∧ RoundTrips (.vcmpF64Ord w))
    ∧ ∀ w : VP1, RoundTrips (.vcmpI32Eqz w) ∧ RoundTrips (.vcmpI32Nez w) ∧ RoundTrips (.vcmpI64Eqz w) ∧ RoundTrips (.vcmpI64Nez w)
      ∧ RoundTrips (.vcmpF32Isnan w) ∧ RoundTrips (.vcmpF32Isinf w) ∧ RoundTrips (.vcmpF64Isnan w) ∧ RoundTrips (.vcmpF64Isinf w) := by
  refine ⟨fun w => ?_, fun w => ?_⟩
  all_goals and_intros
  all_goals refine .of_word rfl ?_
  all_goals simp (disch := decide) only [true_and, decodeNat, decodeVCMP, VP.layout.word_add, VP1.layout.word_add]
  all_goals rfl

theorem roundTrips_VF :
    (∀ w : VR, RoundTrips (.fadd w) ∧ RoundTrips (.fsub w) ∧ RoundTrips (.fmul w) ∧ RoundTrips (.fmac w) ∧ RoundTrips (.fnmac w) ∧ RoundTrips (.fmin w)
      ∧ RoundTrips (.fmax w) ∧ RoundTrips (.fdiv w) ∧ RoundTrips (.fsgnj w) ∧ RoundTrips (.fsgnjn w) ∧ RoundTrips (.fsgnjx w)
      ∧ RoundTrips (.fscale w))
    ∧ ∀ w : VR1, RoundTrips (.fsqrt w) ∧ RoundTrips (.frcpe w) ∧ RoundTrips (.frsqe w) ∧ RoundTrips (.fclass w) := by
  refine ⟨fun w => ?_, fun w => ?_⟩
  all_goals and_intros
  all_goals refine .of_word rfl ?_
  all_goals simp (disch := decide) only [true_and, decodeNat, decodeVF, VR.layout.word_add, VR1.layout.word_add]
  all_goals rfl

theorem roundTrips_VD :
    (∀ w : VR, RoundTrips (.dadd w) ∧ RoundTrips (.dsub w) ∧ RoundTrips (.dmul w) ∧ RoundTrips (.dmac w) ∧ RoundTrips (.dnmac w) ∧ RoundTrips (.dmin w)
      ∧ RoundTrips (.dmax w) ∧ RoundTrips (.ddiv w) ∧ RoundTrips (.dsgnj w) ∧ RoundTrips (.dsgnjn w) ∧ RoundTrips (.dsgnjx w)
      ∧ RoundTrips (.dscale w))
    ∧ ∀ w : VR1, RoundTrips (.dsqrt w) ∧ RoundTrips (.drcpe w) ∧ RoundTrips (.drsqe w) ∧ RoundTrips (.dclass w) := by
  refine ⟨fun w => ?_, fun w => ?_⟩
  all_goals and_intros
  all_goals refine .of_word rfl ?_
  all_goals simp (disch := decide) only [true_and, decodeNat, decodeVD, VR.layout.word_add, VR1.layout.word_add]
  all_goals rfl

theorem roundTrips_VH :
    ∀ w : VR, RoundTrips (.hadd2 w) ∧ RoundTrips (.hsub2 w) ∧ RoundTrips (.hmul2 w) ∧ RoundTrips (.hmac2 w) ∧ RoundTrips (.hmin2 w)
      ∧ RoundTrips (.hmax2 w) ∧ RoundTrips (.badd2 w) ∧ RoundTrips (.bsub2 w) ∧ RoundTrips (.bmul2 w) ∧ RoundTrips (.bmac2 w) ∧ RoundTrips (.bmin2 w)
      ∧ RoundTrips (.bmax2 w) ∧ RoundTrips (.hdot2 w) ∧ RoundTrips (.bdot2 w) ∧ RoundTrips (.qdot4 w) ∧ RoundTrips (.idot4 w) := by
  intro w
  and_intros
  all_goals refine .of_word rfl ?_
  all_goals simp (disch := decide) only [true_and, decodeNat, decodeVH, VR.layout.word_add]

theorem roundTrips_VCVT :
    (∀ w : VCRS, RoundTrips (.vcvtF32I32 w) ∧ RoundTrips (.vcvtF32U32 w) ∧ RoundTrips (.vcvtF32F64 w) ∧ RoundTrips (.vcvtF64I64 w)
      ∧ RoundTrips (.vcvtF32I64 w))
    ∧ (∀ w : VCR, RoundTrips (.vcvtI32F32 w) ∧ RoundTrips (.vcvtU32F32 w) ∧ RoundTrips (.vcvtI32F64 w) ∧ RoundTrips (.vcvtU32F64 w)
      ∧ RoundTrips (.vcvtI64F64 w) ∧ RoundTrips (.vcvtI64F32 w) ∧ RoundTrips (.frint w) ∧ RoundTrips (.drint w))
    ∧ (∀ w : VR1, RoundTrips (.vcvtF64F32 w) ∧ RoundTrips (.vcvtF64I32 w) ∧ RoundTrips (.vcvtF64U32 w))
    ∧ (∀ w : VCRSH, RoundTrips (.vcvtF16F32 w) ∧ RoundTrips (.vcvtBf16F32 w))
    ∧ ∀ w : VCH, RoundTrips (.vcvtF32F16 w) ∧ RoundTrips (.vcvtF32Bf16 w) ∧ RoundTrips (.vcvtF16E4m3 w) ∧ RoundTrips (.vcvtF16E5m2 w) := by
  refine ⟨fun w => ?_, fun w => ?_, fun w => ?_, fun w => ?_, fun w => ?_⟩
  all_goals and_intros
  all_goals refine .of_word rfl ?_
  all_goals simp (disch := decide) only [true_and, decodeNat, decodeVCVT, VCRS.layout.word_add, VCR.layout.word_add, VR1.layout.word_add,
    VCRSH.layout.word_add, VCH.layout.word_add]
  all_goals rfl

theorem roundTrips_VX :
    (∀ w : VR, RoundTrips (.vperm w) ∧ RoundTrips (.vbcl w) ∧ RoundTrips (.vrotl w) ∧ RoundTrips (.vxorl w) ∧ RoundTrips (.vupl w) ∧ RoundTrips (.vdnl w))
    ∧ (∀ w : VR1, RoundTrips (.iredadd w) ∧ RoundTrips (.iredmin w) ∧ RoundTrips (.iredmax w) ∧ RoundTrips (.fredadd w) ∧ RoundTrips (.fredmin w)
      ∧ RoundTrips (.fredmax w) ∧ RoundTrips (.iscan w) ∧ RoundTrips (.fscan w))
    ∧ (∀ w : VRP, RoundTrips (.vcompact w))
    ∧ ∀ w : R3, RoundTrips (.vxchg w) := by
  refine ⟨fun w => ?_, fun w => ?_, fun w => ?_, fun w => ?_⟩
  all_goals and_intros
  all_goals refine .of_word rfl ?_
  all_goals simp (disch := decide) only [true_and, decodeNat, decodeVX, VR.layout.word_add, VR1.layout.word_add, VRP.layout.word_add,
    R3.layout.word_add]
  all_goals rfl

theorem roundTrips_VIM :
    (∀ w : VI, RoundTrips (.vaddi w) ∧ RoundTrips (.vmuli w) ∧ RoundTrips (.vandi w) ∧ RoundTrips (.vori w) ∧ RoundTrips (.vxori w)
      ∧ RoundTrips (.vshli w) ∧ RoundTrips (.vshri w) ∧ RoundTrips (.vsrai w) ∧ RoundTrips (.vmini w) ∧ RoundTrips (.vmaxi w)
      ∧ RoundTrips (.vshl64i w) ∧ RoundTrips (.vshr64i w))
    ∧ ∀ w : VI0, RoundTrips (.vsplati w) ∧ RoundTrips (.viota w) := by
  refine ⟨fun w => ?_, fun w => ?_⟩
  all_goals and_intros
  all_goals refine .of_word rfl ?_
  all_goals simp (disch := decide) only [true_and, decodeNat, decodeVIM, VI.layout.word_add, VI0.layout.word_add]
  all_goals rfl

theorem roundTrips_VMV :
    (∀ w : VR1, RoundTrips (.vmov w) ∧ RoundTrips (.vbcs w) ∧ RoundTrips (.vmovxr w) ∧ RoundTrips (.vmovxw w))
    ∧ (∀ w : VR, RoundTrips (.vgetl w) ∧ RoundTrips (.vsetl w))
    ∧ ∀ w : VR0, RoundTrips (.vlane w) := by
  refine ⟨fun w => ?_, fun w => ?_, fun w => ?_⟩
  all_goals and_intros
  all_goals refine .of_word rfl ?_
  all_goals simp (disch := decide) only [true_and, decodeNat, decodeVMV, VR1.layout.word_add, VR.layout.word_add, VR0.layout.word_add]
  all_goals rfl

theorem roundTrips_PRD :
    (∀ w : PR3, RoundTrips (.pand w) ∧ RoundTrips (.por w) ∧ RoundTrips (.pxor w) ∧ RoundTrips (.pandn w))
    ∧ (∀ w : PR2, RoundTrips (.pnot w))
    ∧ (∀ w : PR1, RoundTrips (.pset w) ∧ RoundTrips (.pclr w))
    ∧ (∀ w : PRDS, RoundTrips (.pfroms w))
    ∧ (∀ w : PRAS, RoundTrips (.ptos w) ∧ RoundTrips (.pcount w))
    ∧ ∀ w : PRA, RoundTrips (.pexec w) := by
  refine ⟨fun w => ?_, fun w => ?_, fun w => ?_, fun w => ?_, fun w => ?_, fun w => ?_⟩
  all_goals and_intros
  all_goals refine .of_word rfl ?_
  all_goals simp (disch := decide) only [true_and, decodeNat, decodePRD, PR3.layout.word_add, PR2.layout.word_add, PR1.layout.word_add,
    PRDS.layout.word_add, PRAS.layout.word_add, PRA.layout.word_add]
  all_goals rfl

theorem roundTrips_SA :
    ∀ w : VR, RoundTrips (.sadd w) ∧ RoundTrips (.ssub w) ∧ RoundTrips (.smul w) ∧ RoundTrips (.smulhu w) ∧ RoundTrips (.sdiv w) ∧ RoundTrips (.sdivu w)
      ∧ RoundTrips (.srem w) ∧ RoundTrips (.sremu w) ∧ RoundTrips (.sand w) ∧ RoundTrips (.sor w) ∧ RoundTrips (.sxor w) ∧ RoundTrips (.sshl w)
      ∧ RoundTrips (.sshr w) ∧ RoundTrips (.ssra w) ∧ RoundTrips (.sslt w) ∧ RoundTrips (.ssltu w) := by
  intro w
  and_intros
  all_goals refine .of_word rfl ?_
  all_goals simp (disch := decide) only [true_and, decodeNat, decodeSA, VR.layout.word_add]

theorem roundTrips_SI :
    ∀ w : SI, RoundTrips (.saddi w) ∧ RoundTrips (.sandi w) ∧ RoundTrips (.sori w) ∧ RoundTrips (.sxori w) ∧ RoundTrips (.sshli w) ∧ RoundTrips (.sshri w)
      ∧ RoundTrips (.ssrai w) ∧ RoundTrips (.sslti w) := by
  intro w
  and_intros
  all_goals refine .of_word rfl ?_
  all_goals simp (disch := decide) only [true_and, decodeNat, decodeSI, SI.layout.word_add]

theorem roundTrips_SK :
    (∀ w : SKK, RoundTrips (.sli w))
    ∧ ∀ w : SKN, RoundTrips (.shi w) := by
  refine ⟨fun w => ?_, fun w => ?_⟩
  all_goals refine .of_word rfl ?_
  all_goals simp (disch := decide) only [true_and, decodeNat, decodeSK, SKK.layout.word_add, SKN.layout.word_add]
  all_goals rfl

theorem roundTrips_CTL :
    (∀ w : CTK, RoundTrips (.movc w))
    ∧ (∀ w : CTN, RoundTrips (.movcw w))
    ∧ (∀ w : CTT, RoundTrips (.tdesc w) ∧ RoundTrips (.tdescr w))
    ∧ ∀ w : S1, RoundTrips (.perfreq w) := by
  refine ⟨fun w => ?_, fun w => ?_, fun w => ?_, fun w => ?_⟩
  all_goals and_intros
  all_goals refine .of_word rfl ?_
  all_goals simp (disch := decide) only [true_and, decodeNat, decodeCTL, CTK.layout.word_add, CTN.layout.word_add, CTT.layout.word_add,
    S1.layout.word_add]
  all_goals rfl

theorem roundTrips_B_BL :
    ∀ w : BJ, RoundTrips (.b w) ∧ RoundTrips (.bl w) := by
  intro w
  and_intros
  all_goals refine .of_word rfl ?_
  all_goals simp (disch := decide) only [true_and, decodeNat, decodeB, decodeBL, BJ.layout.word_add]
  all_goals rfl

theorem roundTrips_BS :
    (∀ w : BC, RoundTrips (.bsEq w) ∧ RoundTrips (.bsNe w) ∧ RoundTrips (.bsLt w) ∧ RoundTrips (.bsGe w) ∧ RoundTrips (.bsLtu w) ∧ RoundTrips (.bsGeu w))
    ∧ ∀ w : BC1, RoundTrips (.bsZ w) ∧ RoundTrips (.bsNz w) := by
  refine ⟨fun w => ?_, fun w => ?_⟩
  all_goals and_intros
  all_goals refine .of_word rfl ?_
  all_goals simp (disch := decide) only [true_and, decodeNat, decodeBS, BC.layout.word_add, BC1.layout.word_add]
  all_goals rfl

theorem roundTrips_BP :
    ∀ w : BQ, RoundTrips (.bpSplit w) ∧ RoundTrips (.bpAll w) ∧ RoundTrips (.bpAny w) ∧ RoundTrips (.bpUni w) := by
  intro w
  and_intros
  all_goals refine .of_word rfl ?_
  all_goals simp (disch := decide) only [true_and, decodeNat, decodeBP, BQ.layout.word_add]
  all_goals rfl

theorem roundTrips_FLW :
    (∀ w : S1, RoundTrips (.jr w) ∧ RoundTrips (.jlr w))
    ∧ (∀ w : C0, RoundTrips (.join w) ∧ RoundTrips (.regangAll w) ∧ RoundTrips (.regangAny w) ∧ RoundTrips (.yield w) ∧ RoundTrips (.exit w)
      ∧ RoundTrips (.nop w))
    ∧ ∀ w : FI, RoundTrips (.sleep w) := by
  refine ⟨fun w => ?_, fun w => ?_, fun w => ?_⟩
  all_goals and_intros
  all_goals refine .of_word rfl ?_
  all_goals simp (disch := decide) only [true_and, decodeNat, decodeFLW, S1.layout.word_add, C0.layout.word_add, FI.layout.word_add]
  all_goals rfl

theorem roundTrips_SYS :
    (∀ w : S1, RoundTrips (.trap w))
    ∧ (∀ w : FH, RoundTrips (.tret w))
    ∧ (∀ w : FI, RoundTrips (.brk w) ∧ RoundTrips (.stopnow w))
    ∧ (∀ w : FSI, RoundTrips (.hostmsg w))
    ∧ ∀ w : C0, RoundTrips (.ckpt w) := by
  refine ⟨fun w => ?_, fun w => ?_, fun w => ?_, fun w => ?_, fun w => ?_⟩
  all_goals and_intros
  all_goals refine .of_word rfl ?_
  all_goals simp (disch := decide) only [true_and, decodeNat, decodeSYS, S1.layout.word_add, FH.layout.word_add, FI.layout.word_add,
    FSI.layout.word_add, C0.layout.word_add]
  all_goals rfl

theorem roundTrips_CST :
    (∀ w : R3, RoundTrips (.attachTry w) ∧ RoundTrips (.attachWait w) ∧ RoundTrips (.bwait w))
    ∧ (∀ w : C0, RoundTrips (.detach w))
    ∧ (∀ w : RAB, RoundTrips (.binit w))
    ∧ (∀ w : R2, RoundTrips (.barrive w) ∧ RoundTrips (.bsync w) ∧ RoundTrips (.bquery w))
    ∧ ∀ w : RA, RoundTrips (.bkill w) := by
  refine ⟨fun w => ?_, fun w => ?_, fun w => ?_, fun w => ?_, fun w => ?_⟩
  all_goals and_intros
  all_goals refine .of_word rfl ?_
  all_goals simp (disch := decide) only [true_and, decodeNat, decodeCST, R3.layout.word_add, C0.layout.word_add, RAB.layout.word_add,
    R2.layout.word_add, RA.layout.word_add]
  all_goals rfl

theorem roundTrips_LDS_STS :
    ∀ w : MS, RoundTrips (.lds w) ∧ RoundTrips (.sts w) := by
  intro w
  and_intros
  all_goals refine .of_word rfl ?_
  all_goals simp (disch := decide) only [true_and, decodeNat, decodeLDS, decodeSTS, MS.layout.word_add]
  all_goals rfl

theorem roundTrips_LDC_STC :
    ∀ w : MC, RoundTrips (.ldc w) ∧ RoundTrips (.stc w) := by
  intro w
  and_intros
  all_goals refine .of_word rfl ?_
  all_goals simp (disch := decide) only [true_and, decodeNat, decodeLDC, decodeSTC, MC.layout.word_add]
  all_goals rfl

theorem roundTrips_LDG_STG :
    ∀ w : MG, RoundTrips (.ldg w) ∧ RoundTrips (.stg w) := by
  intro w
  and_intros
  all_goals refine .of_word rfl ?_
  all_goals simp (disch := decide) only [true_and, decodeNat, decodeLDG, decodeSTG, MG.layout.word_add]
  all_goals rfl

theorem roundTrips_ATM :
    ∀ w : AT, RoundTrips (.amadd w) ∧ RoundTrips (.amsmin w) ∧ RoundTrips (.amsmax w) ∧ RoundTrips (.amumin w) ∧ RoundTrips (.amumax w)
      ∧ RoundTrips (.amand w) ∧ RoundTrips (.amor w) ∧ RoundTrips (.amxor w) ∧ RoundTrips (.amswap w) ∧ RoundTrips (.amcas w) ∧ RoundTrips (.amfadd w)
      ∧ RoundTrips (.amfmin w) ∧ RoundTrips (.amfmax w) := by
  intro w
  and_intros
  all_goals refine .of_word rfl ?_
  all_goals simp (disch := decide) only [true_and, decodeNat, decodeATM, AT.layout.word_add]
  all_goals rfl

theorem roundTrips_MEM :
    (∀ w : MXF, RoundTrips (.fence w))
    ∧ (∀ w : MXW, RoundTrips (.lr w) ∧ RoundTrips (.sc w))
    ∧ (∀ w : MXT, RoundTrips (.stred w))
    ∧ (∀ w : MXL, RoundTrips (.pref w))
    ∧ (∀ w : C0, RoundTrips (.cinv w) ∧ RoundTrips (.waitst w))
    ∧ ∀ w : MXN, RoundTrips (.cflush w) := by
  refine ⟨fun w => ?_, fun w => ?_, fun w => ?_, fun w => ?_, fun w => ?_, fun w => ?_⟩
  all_goals and_intros
  all_goals refine .of_word rfl ?_
  all_goals simp (disch := decide) only [true_and, decodeNat, decodeMEM, MXF.layout.word_add, MXW.layout.word_add, MXT.layout.word_add,
    MXL.layout.word_add, C0.layout.word_add, MXN.layout.word_add]
  all_goals rfl

theorem roundTrips_MMA :
    (∀ w : MM, RoundTrips (.mma w) ∧ RoundTrips (.mmaz w))
    ∧ (∀ w : MMLF, RoundTrips (.mmap w))
    ∧ (∀ w : MMD, RoundTrips (.mdefer w))
    ∧ (∀ w : MMA1, RoundTrips (.msave w) ∧ RoundTrips (.mload w))
    ∧ ∀ w : C0, RoundTrips (.mwait w) := by
  refine ⟨fun w => ?_, fun w => ?_, fun w => ?_, fun w => ?_, fun w => ?_⟩
  all_goals and_intros
  all_goals refine .of_word rfl ?_
  all_goals simp (disch := decide) only [true_and, decodeNat, decodeMMA, MM.layout.word_add, MMLF.layout.word_add, MMD.layout.word_add,
    MMA1.layout.word_add, C0.layout.word_add]
  all_goals rfl

theorem roundTrips_ENG :
    (∀ w : R3, RoundTrips (.copy w) ∧ RoundTrips (.qpush w) ∧ RoundTrips (.qtrypush w) ∧ RoundTrips (.qtrypop w) ∧ RoundTrips (.rwait w)
      ∧ RoundTrips (.radv w) ∧ RoundTrips (.cueemit w))
    ∧ (∀ w : R2, RoundTrips (.engwait w) ∧ RoundTrips (.qpop w) ∧ RoundTrips (.dcwait w))
    ∧ ∀ w : RAB, RoundTrips (.qinit w) ∧ RoundTrips (.dcset w) ∧ RoundTrips (.dcdec w) := by
  refine ⟨fun w => ?_, fun w => ?_, fun w => ?_⟩
  all_goals and_intros
  all_goals refine .of_word rfl ?_
  all_goals simp (disch := decide) only [true_and, decodeNat, decodeENG, R3.layout.word_add, R2.layout.word_add, RAB.layout.word_add]
  all_goals rfl

/-! Two kinds of rows have a field within the minor number: the byte j of the conversions of E4M3 and E5M2, and the predicate of VSEL. -/

theorem decodeVCVT_byte :
    (∀ {n : Nat}, n / 128 % 16 = 8 → decodeVCVT n = zeros (n / 1 % 2 == 0) (.vcvtE4m3F32 (.ofNat n)))
    ∧ (∀ {n : Nat}, n / 128 % 16 = 9 → decodeVCVT n = zeros (n / 1 % 2 == 0) (.vcvtE5m2F32 (.ofNat n)))
    ∧ (∀ {n : Nat}, n / 128 % 16 = 10 → decodeVCVT n = zeros (n / 1 % 32 == 0) (.vcvtF32E4m3 (.ofNat n)))
    ∧ (∀ {n : Nat}, n / 128 % 16 = 11 → decodeVCVT n = zeros (n / 1 % 32 == 0) (.vcvtF32E5m2 (.ofNat n))) := by
  and_intros
  all_goals
    intro n h
    have hminor : n / 32 % 64 = 4 * (n / 128 % 16) + n / 32 % 4 := by omega
    have hj : n / 32 % 4 < 4 := Nat.mod_lt _ (by decide)
    generalize n / 32 % 4 = j at hminor hj
    rw [decodeVCVT, hminor, h]
    interval_cases j <;> rfl

theorem decodeVMV_vsel {n : Nat} (h : n / 8 % 2 = 1) : decodeVMV n = .ok (.vsel (.ofNat n)) := by
  have hminor : n / 1 % 16 = 8 * (n / 8 % 2) + n % 8 := by omega
  have hp : n % 8 < 8 := Nat.mod_lt _ (by decide)
  generalize n % 8 = p at hminor hp
  rw [decodeVMV, hminor, h]
  interval_cases p <;> rfl

theorem roundTrips_byte :
    (∀ w : VCJRS, RoundTrips (.vcvtE4m3F32 w) ∧ RoundTrips (.vcvtE5m2F32 w)) ∧ ∀ w : VCJ, RoundTrips (.vcvtF32E4m3 w) ∧ RoundTrips (.vcvtF32E5m2 w) := by
  obtain ⟨h8, h9, h10, h11⟩ := decodeVCVT_byte
  refine ⟨fun w => ⟨.of_word rfl ?_, .of_word rfl ?_⟩, fun w => ⟨.of_word rfl ?_, .of_word rfl ?_⟩⟩
  all_goals simp (disch := decide) only [true_and, decodeNat, VCJRS.layout.word_add, VCJ.layout.word_add]
  · rw [h8] <;> simp (disch := decide) only [VCJRS.layout.word_add]
    all_goals rfl
  · rw [h9] <;> simp (disch := decide) only [VCJRS.layout.word_add]
    all_goals rfl
  · rw [h10] <;> simp (disch := decide) only [VCJ.layout.word_add]
    all_goals rfl
  · rw [h11] <;> simp (disch := decide) only [VCJ.layout.word_add]
    all_goals rfl

theorem roundTrips_vsel (w : VRS) : RoundTrips (.vsel w) := by
  refine .of_word rfl ?_
  simp (disch := decide) only [true_and, decodeNat, VRS.layout.word_add]
  rw [decodeVMV_vsel] <;> simp (disch := decide) only [VRS.layout.word_add]

/-- Every instruction is in one of the formats above, and an event has no word. -/
theorem roundTrips (i : Instr) : RoundTrips i := by
  cases i
  all_goals try exact .of_event rfl
  all_goals simp only [roundTrips_vadd, roundTrips_VIA, roundTrips_VIB, roundTrips_VCMP, roundTrips_VF, roundTrips_VD, roundTrips_VH, roundTrips_VCVT,
    roundTrips_VX, roundTrips_VIM, roundTrips_VMV, roundTrips_PRD, roundTrips_SA, roundTrips_SI, roundTrips_SK, roundTrips_CTL, roundTrips_B_BL,
    roundTrips_BS, roundTrips_BP, roundTrips_FLW, roundTrips_SYS, roundTrips_CST, roundTrips_LDS_STS, roundTrips_LDC_STC, roundTrips_LDG_STG,
    roundTrips_ATM, roundTrips_MEM, roundTrips_MMA, roundTrips_ENG, roundTrips_byte, roundTrips_vsel]

/-- A word that decodes is the encoding of what it decodes to. -/
theorem encode_of_decode {x : Word} {i : Instr} (h : decode x = .ok i) : encode i = some x := by
  rw [encode, encodes_decodeNat x.isLt i h, Option.map_some, BitVec.ofNat_toNat, BitVec.setWidth_eq]

end Sys2Proof

open Sys2Proof in
/-- Settles O58: for each format, what the decoder has checked and what it has read make up the word, and each code leaves its fields alone. -/
theorem decodeAndEncodeAgree : Obligations.DecodeAndEncodeAgree :=
  ⟨roundTrips, fun _ _ => encode_of_decode⟩

open Sys2Proof in
/-- Settles O57: a word that is the encoding of an instruction decodes to it (O58); the two bad words are refused by evaluation. -/
theorem wordsDecode : Obligations.WordsDecode := by
  have hmac : decode 0x06102863#32 = .ok (.fmac { c := 0, k := 0, d := 4, a := 5, b := 6 }) := roundTrips _ _ (by decide)
  have hnext : decode 0x06102862#32 = .ok (.fmul { c := 0, k := 0, d := 4, a := 5, b := 6 }) := roundTrips _ _ (by decide)
  refine ⟨roundTrips _ _ (by decide), roundTrips _ _ (by decide), hmac, roundTrips _ _ (by decide), ?_, by decide +kernel, by decide +kernel⟩
  rw [hmac, hnext]
  decide
end

section
/-! SUPPORT. Integer division (Sys2Proof/Machine/VectorInt.lean, Scalar.lean: R94): the quotients and remainders by the cases of Table 5.2. -/

namespace Sys2Proof.Machine

/-- The one quotient that does not fit: the most negative number by −1 wraps to itself. -/
theorem ofInt_tdiv_neg_one_of_most_negative {w : Nat} (hw : 0 < w) {a : BitVec w} (ha : a.toInt = -2 ^ (w - 1)) :
    BitVec.ofInt w (a.toInt.tdiv (-1)) = a := by
  have hmin : a = BitVec.intMin w := by
    apply BitVec.eq_of_toInt_eq
    rw [ha, BitVec.toInt_intMin_of_pos hw]
  rw [Int.tdiv_neg, Int.tdiv_one, BitVec.ofInt_neg, BitVec.ofInt_toInt, hmin, BitVec.neg_intMin]

theorem divS_eq {w : Nat} (hw : 0 < w) (a b : BitVec w) :
    divS a b = if b = 0 then -1 else if a.toInt = -2 ^ (w - 1) ∧ b.toInt = -1 then a else BitVec.ofInt w (a.toInt.tdiv b.toInt) := by
  rw [divS, ← BitVec.neg_one_eq_allOnes]
  split
  · rfl
  · split
    · next h =>
      obtain ⟨ha, hb⟩ := h
      rw [hb, ofInt_tdiv_neg_one_of_most_negative hw ha]
    · rfl

theorem divU_eq {w : Nat} (a b : BitVec w) : divU a b = if b = 0 then -1 else BitVec.ofNat w (a.toNat / b.toNat) := by
  rw [divU, ← BitVec.neg_one_eq_allOnes]
  rfl

/-- A remainder by −1 is 0, so the case of the most negative number needs no rule of its own. -/
theorem remS_eq {w : Nat} (a b : BitVec w) :
    remS a b = if b = 0 then a else if a.toInt = -2 ^ (w - 1) ∧ b.toInt = -1 then 0 else BitVec.ofInt w (a.toInt.tmod b.toInt) := by
  rw [remS]
  split
  · rfl
  · split
    · next h =>
      rw [h.2, Int.tmod_neg, Int.tmod_one]
      rfl
    · rfl

end Sys2Proof.Machine

open Sys2Proof Sys2Proof.Machine in
/-- Settles O1: each word is its shape with the model's quotient or remainder, which Table 5.2 gives case by case. -/
theorem integerDivision : Obligations.IntegerDivision :=
  ⟨eachLane2 (fun _ _ => rfl) (divS_eq (by decide)), eachLane2 (fun _ _ => rfl) divU_eq, eachLane2 (fun _ _ => rfl) remS_eq,
    eachLane2 (fun _ _ => rfl) fun _ _ => rfl, scalar2 (fun _ _ => rfl) (divS_eq (by decide)), scalar2 (fun _ _ => rfl) divU_eq,
    scalar2 (fun _ _ => rfl) remS_eq, scalar2 (fun _ _ => rfl) fun _ _ => rfl⟩
end

section
/-! SUPPORT. The floating-point words (Sys2Proof/Machine/Flags.lean, VectorFp.lean: R95 to R108, R129 to R137, R141): the fields of an encoding, the halves
and bytes of a lane, the dots, and the statement about them. -/

namespace Sys2Proof.Machine

/-! What `exec` makes of the rows whose operation the statement writes in another form. -/

theorem exec_fsgnj (s : State) (w : VR) : exec (.fsgnj w) s = execVF (.fsgnj w) w (fun a b => fmtF32.signed a (fmtF32.signOf b)) s := rfl

theorem exec_fsgnjn (s : State) (w : VR) : exec (.fsgnjn w) s = execVF (.fsgnjn w) w (fun a b => fmtF32.signed a (!fmtF32.signOf b)) s := rfl

theorem exec_fsgnjx (s : State) (w : VR) : exec (.fsgnjx w) s = execVF (.fsgnjx w) w (fun a b => fmtF32.signed a (fmtF32.signOf a != fmtF32.signOf b)) s := rfl

theorem exec_fclass (s : State) (w : VR1) : exec (.fclass w) s = execVF1 (.fclass w) w (fun a => plain (fmtF32.classOf a)) s := rfl

theorem exec_dsgnj (s : State) (w : VR) : exec (.dsgnj w) s = execVDf (.dsgnj w) w (fun a b => fmtF64.signed a (fmtF64.signOf b)) s := rfl

theorem exec_dsgnjn (s : State) (w : VR) : exec (.dsgnjn w) s = execVDf (.dsgnjn w) w (fun a b => fmtF64.signed a (!fmtF64.signOf b)) s := rfl

theorem exec_dsgnjx (s : State) (w : VR) : exec (.dsgnjx w) s = execVDf (.dsgnjx w) w (fun a b => fmtF64.signed a (fmtF64.signOf a != fmtF64.signOf b)) s := rfl

theorem exec_dclass (s : State) (w : VR1) : exec (.dclass w) s = execVD1 (.dclass w) w (fun a => plain (fmtF64.classOf a)) s := rfl

theorem exec_hdot2 (s : State) (w : VR) : exec (.hdot2 w) s = execVHf (.hdot2 w) w (fun d a b => fmtF32.dot fmtF16 fmtF16 d (pairsOf 2 half a b)) s := rfl

theorem exec_bdot2 (s : State) (w : VR) : exec (.bdot2 w) s = execVHf (.bdot2 w) w (fun d a b => fmtF32.dot fmtBF16 fmtBF16 d (pairsOf 2 half a b)) s := rfl

theorem exec_qdot4 (s : State) (w : VR) : exec (.qdot4 w) s = execVHf (.qdot4 w) w (fun d a b => fmtF32.dot fmtE4M3 fmtE4M3 d (pairsOf 4 byteOf a b)) s := rfl

/-! The fields of an encoding (Table 5.4), in a format with infinities. -/

theorem Fmt.signBit_eq (f : Fmt) : f.signBit = 2 ^ f.mbits * 2 ^ f.ebits := by rw [Fmt.signBit, Nat.pow_add, Nat.mul_comm]

theorem Fmt.mag_div (f : Fmt) (x : Nat) : x % f.signBit / 2 ^ f.mbits = x / 2 ^ f.mbits % 2 ^ f.ebits := by
  rw [f.signBit_eq, Nat.mod_mul_right_div_self]

theorem Fmt.mag_mod (f : Fmt) (x : Nat) : x % f.signBit % 2 ^ f.mbits = x % 2 ^ f.mbits := by
  rw [f.signBit_eq, Nat.mod_mul_right_mod]

/-- Above the largest finite value stands the all-ones exponent alone. -/
theorem Fmt.maxMag_lt_iff {f : Fmt} (hf : f.noInf = false) (he : 0 < f.ebits) (x : Nat) :
    f.maxMag < x % f.signBit ↔ x / 2 ^ f.mbits % 2 ^ f.ebits = 2 ^ f.ebits - 1 := by
  have hE : 2 ≤ 2 ^ f.ebits := Nat.one_lt_two_pow he.ne'
  have htop : 0 < f.top := Nat.mul_pos (by omega) (Nat.two_pow_pos _)
  have hlt : x / 2 ^ f.mbits % 2 ^ f.ebits < 2 ^ f.ebits := Nat.mod_lt _ (Nat.two_pow_pos _)
  have hle : f.top ≤ x % f.signBit ↔ 2 ^ f.ebits - 1 ≤ x / 2 ^ f.mbits % 2 ^ f.ebits := by
    rw [Fmt.top, ← Nat.le_div_iff_mul_le (Nat.two_pow_pos _), f.mag_div]
  simp only [Fmt.maxMag, hf, Bool.false_eq_true, if_false]
  omega

/-- The value of an encoding by its exponent and fraction fields. -/
theorem Fmt.value_eq {f : Fmt} (hf : f.noInf = false) (he : 0 < f.ebits) (x : Nat) :
    f.value x =
      let neg : Bool := x / f.signBit % 2 = 1
      let ex := x / 2 ^ f.mbits % 2 ^ f.ebits
      let fr := x % 2 ^ f.mbits
      if ex = 2 ^ f.ebits - 1 then (if fr = 0 then .inf neg else .nan)
      else if ex = 0 then (if fr = 0 then .zero neg else .fin neg fr f.qmin)
      else .fin neg (2 ^ f.mbits + fr) (f.qmin + (ex : Int) - 1) := by
  simp only [Fmt.value, Fmt.maxMag_lt_iff hf he, f.mag_div, f.mag_mod, hf, Bool.not_false, Bool.true_and, decide_eq_true_eq]

/-- FCLASS and DCLASS (Table 7.2): the classes by the fields. -/
theorem Fmt.classOf_eq {f : Fmt} (hf : f.noInf = false) (he : 0 < f.ebits) (x : Nat) : f.classOf x = ClassMask f.ebits f.mbits x := by
  have hfr : x % 2 ^ f.mbits < 2 ^ f.mbits := Nat.mod_lt _ (Nat.two_pow_pos _)
  simp only [Fmt.classOf, Fmt.value_eq hf he, ClassMask]
  generalize x / 2 ^ f.mbits % 2 ^ f.ebits = ex
  generalize x % 2 ^ f.mbits = fr at hfr
  rw [f.signBit_eq, ← Nat.pow_add, Nat.add_comm f.mbits]
  by_cases htop : ex = 2 ^ f.ebits - 1
  · by_cases hfr0 : fr = 0 <;> simp [htop, hfr0]
  · simp only [if_neg htop]
    by_cases hex : ex = 0
    · by_cases hfr0 : fr = 0 <;> simp [hex, hfr0, Nat.not_le.2 hfr]
    · simp [hex]

/-! The sign of an encoding (R130). -/

theorem Fmt.signOf_toNat (f : Fmt) (a : Nat) : (f.signOf a).toNat = a / f.signBit % 2 := by
  have h2 : a / f.signBit % 2 < 2 := Nat.mod_lt _ (by decide)
  simp only [Fmt.signOf]
  interval_cases a / f.signBit % 2 <;> rfl

theorem Fmt.signed_eq (f : Fmt) (a : Nat) (neg : Bool) : f.signed a neg = { bits := neg.toNat * f.signBit + a % f.signBit } := by
  cases neg <;> simp [Fmt.signed, Fmt.pack, plain]

theorem bool_toNat_not (a : Bool) : (!a).toNat = 1 - a.toNat := by
  cases a <;> rfl

theorem bool_toNat_bne (a b : Bool) : (a != b).toNat = (a.toNat + b.toNat) % 2 := by
  cases a <;> cases b <;> rfl

/-! Halves and bytes of a lane. -/

theorem half_zero (x : Nat) : half x 0 = x % 2 ^ 16 := by simp [half]

theorem half_one {x : Nat} (h : x < 2 ^ 32) : half x 1 = x / 2 ^ 16 := by
  simp only [half]
  omega

theorem half_eq (x e : Nat) : half x e = x / 2 ^ (16 * e) % 2 ^ 16 := by
  rw [half, Nat.pow_mul]
  rfl

theorem byteOf_eq (x e : Nat) : byteOf x e = x / 2 ^ (8 * e) % 2 ^ 8 := by
  rw [byteOf, Nat.pow_mul]
  rfl

/-- A byte of a lane, as a signed number and as the statement writes it. -/
theorem ofInt_byteOf (x : Word) (e : Nat) : BitVec.ofInt 32 (BitVec.ofNat 8 (byteOf x.toNat e)).toInt = ByteOf x e := by
  have h : BitVec.ofNat 8 (byteOf x.toNat e) = (x >>> (8 * e)).setWidth 8 := by
    apply BitVec.eq_of_toNat_eq
    simp [byteOf_eq, Nat.shiftRight_eq_div_pow]
  rw [h]
  rfl

/-! The dots (R108). -/

/-- One step of a dot, onto what has been accumulated. -/
def Fmt.dotOnto (f g : Fmt) (acc : Flagged) (p : Nat × Nat) : Flagged :=
  let r := f.dotStep g g acc.bits p.1 p.2
  { bits := r.bits, flags := r.flags ||| acc.flags }

theorem dot_eq_foldl (f g : Fmt) (c : Nat) (l : List (Nat × Nat)) : f.dot g g c l = l.foldl (f.dotOnto g) { bits := c } := rfl

theorem foldl_dotOnto {el : Nat → Nat → Nat} {w : Nat} (hel : ∀ x e, el x e = x / 2 ^ (w * e) % 2 ^ w) (g : Fmt) (a b : Nat) (l : List Nat)
    (acc : Flagged) : (l.map fun e => (el a e, el b e)).foldl (fmtF32.dotOnto g) acc =
      { bits := (DotSteps g l w acc.bits a b).bits, flags := (DotSteps g l w acc.bits a b).flags ||| acc.flags } := by
  induction l generalizing acc with
  | nil => simp [DotSteps]
  | cons e l ih =>
    rw [List.map_cons, List.foldl_cons, ih]
    simp only [DotSteps, Fmt.dotOnto, Fmt.dotStep, hel, ← BitVec.or_assoc]
    rw [BitVec.or_comm (DotSteps ..).flags]

theorem dot_eq_dotSteps {el : Nat → Nat → Nat} {w : Nat} (hel : ∀ x e, el x e = x / 2 ^ (w * e) % 2 ^ w) (g : Fmt) (n d a b : Nat) :
    fmtF32.dot g g d (pairsOf n el a b) = DotSteps g (List.range n) w d a b := by
  rw [dot_eq_foldl, pairsOf, foldl_dotOnto hel]
  simp

/-! IDOT4 (R137), which raises no flag. -/

/-- A word whose results carry no flag leaves FPFLAGS as it was. -/
theorem FlaggedResult.vectorResult {s : State} {v : View} {i : Instr} {keep : BitVec 1} {d : BitVec 7} {f : Nat → Flagged}
    (h : FlaggedResult s v i keep d f) (hf : ∀ j, (f j).flags = 0) : VectorResult s v i keep d fun j => BitVec.ofNat 32 (f j).bits := by
  obtain ⟨t, w, ht, hword, hvec, hsc, hpred, hflags, hlatch⟩ := h
  refine ⟨t, w, ht, hword, hvec, hsc, hpred, ?_, hlatch⟩
  apply BitVec.eq_of_getLsbD_eq
  intro n _
  rw [hflags n]
  simp [RaisedBy, hf]

theorem ofNat_idot4_bits (d a b : Word) : BitVec.ofNat 32 (idot4 d.toNat a.toNat b.toNat).bits =
    d + (ByteOf a 0 * ByteOf b 0 + ByteOf a 1 * ByteOf b 1 + ByteOf a 2 * ByteOf b 2 + ByteOf a 3 * ByteOf b 3) := by
  have hsum : (List.range 4) = [0, 1, 2, 3] := rfl
  simp only [idot4, plain, pairsOf, hsum, List.map_cons, List.map_nil, List.sum_cons, List.sum_nil, add_zero, BitVec.ofNat_toNat,
    BitVec.setWidth_eq, BitVec.ofInt_add, BitVec.ofInt_mul, ofInt_byteOf, BitVec.ofInt_natCast, ← add_assoc]

theorem idot4_result {s : State} {v : View} {w : VR} (h : Issues s v (.idot4 w)) : VectorResult s v (.idot4 w) w.k w.d fun j =>
    BitVec.ofNat 32 (idot4 (v.src.v w.d.toNat j).toNat (v.vec w.a.toNat j).toNat (v.vec w.b.toNat j).toNat).bits :=
  FlaggedResult.vectorResult (execFp_spec (f := fun v j => idot4 (v.dv w.d j) (v.fv w.a j) (v.fv w.b j)) rfl h) fun _ => rfl

/-! The sign injections, the classes and FSCALE, as the statement writes them. -/

section
variable {f : Fmt} {S : Nat} (hS : f.signBit = S) (a b : Nat)
include hS

theorem signed_signOf : f.signed a (f.signOf b) = { bits := b / S % 2 * S + a % S } := by
  rw [f.signed_eq, f.signOf_toNat, hS]

theorem signed_not_signOf : f.signed a (!f.signOf b) = { bits := (1 - b / S % 2) * S + a % S } := by
  rw [f.signed_eq, bool_toNat_not, f.signOf_toNat, hS]

theorem signed_bne_signOf : f.signed a (f.signOf a != f.signOf b) = { bits := (a / S + b / S) % 2 * S + a % S } := by
  rw [f.signed_eq, bool_toNat_bne, f.signOf_toNat, f.signOf_toNat, ← Nat.add_mod, hS]

end

theorem fmtF32_signBit : fmtF32.signBit = 2 ^ 31 := rfl

theorem fmtF64_signBit : fmtF64.signBit = 2 ^ 63 := rfl

theorem plain_classOf {f : Fmt} (hf : f.noInf = false) (he : 0 < f.ebits) (x : Nat) : plain (f.classOf x) = { bits := ClassMask f.ebits f.mbits x } := by
  rw [Fmt.classOf_eq hf he, plain]

theorem fscale_result : EachFloat2 .fscale fun a b => fmtF32.roundTo 0 false ((fmtF32.value a).scale (BitVec.ofNat 32 b).toInt) := by
  intro s v w h
  simp only [BitVec.ofNat_toNat, BitVec.setWidth_eq]
  exact execFp_spec (f := fun v j => fmtF32.scale (v.fv w.a j) (v.vec w.b.toNat j).toInt) rfl h

/-! The shapes of Sys2Proof/Laws/Shapes.lean for a word whose meaning is the statement's function. -/

theorem eachFloat2_of_exec {i : VR → Instr} {f : Nat → Nat → Flagged} (he : ∀ s w, exec (i w) s = execVF (i w) w f s) : EachFloat2 i f :=
  eachFloat2 he fun _ _ _ _ => rfl

theorem eachFloat1_of_exec {i : VR1 → Instr} {f : Nat → Flagged} (he : ∀ s w, exec (i w) s = execVF1 (i w) w f s) : EachFloat1 i f :=
  eachFloat1 he fun _ _ => rfl

theorem eachFloat3_of_exec {i : VR → Instr} {f : Nat → Nat → Nat → Flagged} (he : ∀ s w, exec (i w) s = execVHf (i w) w f s) : EachFloat3 i f :=
  eachFloat3 he fun _ _ _ _ _ _ => rfl

theorem eachDouble2_of_exec {i : VR → Instr} {f : Nat → Nat → Flagged} (he : ∀ s w, exec (i w) s = execVDf (i w) w f s) : EachDouble2 i f :=
  eachDouble2 he fun _ _ _ _ => rfl

theorem eachDouble1_of_exec {i : VR1 → Instr} {f : Nat → Flagged} (he : ∀ s w, exec (i w) s = execVD1 (i w) w f s) : EachDouble1 i f :=
  eachDouble1 he fun _ _ => rfl

theorem eachDouble3_of_exec {i : VR → Instr} {f : Nat → Nat → Nat → Flagged}
    (he : ∀ s w, exec (i w) s = execFpPair (i w) w.k w.d (fun v j => f (v.dp w.d j) (v.fp w.a j) (v.fp w.b j)) s) : EachDouble3 i f := by
  intro s v w hi
  exact execFpPair_spec (f := fun v j => f (v.dp w.d j) (v.fp w.a j) (v.fp w.b j)) (he s w) hi

theorem eachHalves_of_exec {i : VR → Instr} {f : Nat → Nat → Nat → Flagged} (he : ∀ s w, exec (i w) s = execVHf (i w) w (halves f) s) : EachHalves i f := by
  refine eachFloat3 he fun d a b hd ha hb => ?_
  simp only [halves, half_zero, half_one hd, half_one ha, half_one hb]
  rfl

theorem compares_of_exec {i : VP → Instr} {f : Word → Word → Bool} (he : ∀ s w, exec (i w) s = execCmp32 (i w) w f s) : Compares i f :=
  compares he fun _ _ => rfl

theorem comparesPair_of_exec {i : VP → Instr} {f : Quad → Quad → Bool} (he : ∀ s w, exec (i w) s = execCmp64 (i w) w f s) : ComparesPair i f :=
  comparesPair he fun _ _ => rfl

theorem tests_of_exec {i : VP1 → Instr} {f : Word → Bool}
    (he : ∀ s w, exec (i w) s = execCompare (i w) w.d w.m (fun v j => f (v.vec w.a.toNat j)) s) : Tests i f :=
  tests he fun _ => rfl

theorem testsPair_of_exec {i : VP1 → Instr} {f : Quad → Bool}
    (he : ∀ s w, exec (i w) s = execCompare (i w) w.d w.m (fun v j => f (v.pair w.a.toNat j)) s) : TestsPair i f :=
  testsPair he fun _ => rfl

end Sys2Proof.Machine

open Sys2Proof Sys2Proof.Machine in
/-- Settles O5: each word is its shape with the model's operation, which is the statement's but for the sign injections, the classes, the halves and the
dots; these are brought to its form by the lemmas above. -/
theorem floatingPointWords : Obligations.FloatingPointWords := by
  refine ⟨?fadd, ?fsub, ?fmul, ?fmac, ?fnmac, ?fmin, ?fmax, ?fdiv, ?fsqrt, ?frcpe, ?frsqe, ?fsgnj, ?fsgnjn, ?fsgnjx, ?fclass, ?fscale,
    ?dadd, ?dsub, ?dmul, ?dmac, ?dnmac, ?dmin, ?dmax, ?ddiv, ?dsqrt, ?drcpe, ?drsqe, ?dsgnj, ?dsgnjn, ?dsgnjx, ?dclass, ?dscale,
    ?hadd2, ?hsub2, ?hmul2, ?hmac2, ?hmin2, ?hmax2, ?badd2, ?bsub2, ?bmul2, ?bmac2, ?bmin2, ?bmax2, ?hdot2, ?bdot2, ?qdot4, ?idot4,
    ?f32Eq, ?f32Lt, ?f32Le, ?f32Ne, ?f32Un, ?f32Ord, ?f32Isnan, ?f32Isinf,
    ?f64Eq, ?f64Lt, ?f64Le, ?f64Ne, ?f64Un, ?f64Ord, ?f64Isnan, ?f64Isinf⟩
  -- VF
  case fadd | fsub | fmul | fmin | fmax | fdiv => exact eachFloat2_of_exec fun _ _ => rfl
  case fmac | fnmac => exact eachFloat3_of_exec fun _ _ => rfl
  case fsqrt | frcpe | frsqe => exact eachFloat1_of_exec fun _ _ => rfl
  case fsgnj => exact eachFloat2 exec_fsgnj fun a b _ _ => signed_signOf fmtF32_signBit a b
  case fsgnjn => exact eachFloat2 exec_fsgnjn fun a b _ _ => signed_not_signOf fmtF32_signBit a b
  case fsgnjx => exact eachFloat2 exec_fsgnjx fun a b _ _ => signed_bne_signOf fmtF32_signBit a b
  case fclass => exact eachFloat1 exec_fclass fun a _ => plain_classOf (f := fmtF32) rfl (by decide) a
  case fscale => exact fscale_result
  -- VD
  case dadd | dsub | dmul | dmin | dmax | ddiv => exact eachDouble2_of_exec fun _ _ => rfl
  case dmac | dnmac => exact eachDouble3_of_exec fun _ _ => rfl
  case dsqrt | drcpe | drsqe => exact eachDouble1_of_exec fun _ _ => rfl
  case dsgnj => exact eachDouble2 exec_dsgnj fun a b _ _ => signed_signOf fmtF64_signBit a b
  case dsgnjn => exact eachDouble2 exec_dsgnjn fun a b _ _ => signed_not_signOf fmtF64_signBit a b
  case dsgnjx => exact eachDouble2 exec_dsgnjx fun a b _ _ => signed_bne_signOf fmtF64_signBit a b
  case dclass => exact eachDouble1 exec_dclass fun a _ => plain_classOf (f := fmtF64) rfl (by decide) a
  case dscale => exact fun s v w h => execFpPair_spec (f := fun v j => fmtF64.scale (v.fp w.a j) (v.vec w.b.toNat j).toInt) rfl h
  -- VH
  case hadd2 | hsub2 | hmul2 | hmac2 | hmin2 | hmax2 | badd2 | bsub2 | bmul2 | bmac2 | bmin2 | bmax2 => exact eachHalves_of_exec fun _ _ => rfl
  case hdot2 => exact eachFloat3 exec_hdot2 fun d a b _ _ _ => dot_eq_dotSteps half_eq fmtF16 2 d a b
  case bdot2 => exact eachFloat3 exec_bdot2 fun d a b _ _ _ => dot_eq_dotSteps half_eq fmtBF16 2 d a b
  case qdot4 => exact eachFloat3 exec_qdot4 fun d a b _ _ _ => dot_eq_dotSteps byteOf_eq fmtE4M3 4 d a b
  case idot4 => exact fun s v w h => by simpa only [ofNat_idot4_bits] using idot4_result h
  -- VCMP
  case f32Eq | f32Lt | f32Le | f32Ne | f32Un | f32Ord => exact compares_of_exec fun _ _ => rfl
  case f32Isnan | f32Isinf => exact tests_of_exec fun _ _ => rfl
  case f64Eq | f64Lt | f64Le | f64Ne | f64Un | f64Ord => exact comparesPair_of_exec fun _ _ => rfl
  case f64Isnan | f64Isinf => exact testsPair_of_exec fun _ _ => rfl
end

section
/-! SUPPORT. Integer vector arithmetic and compares (Sys2Proof/Machine/VectorInt.lean: R93, R114, R121): each operation of the model as the operation on numbers
that its table gives. -/

namespace Sys2Proof.Machine

/-! Minima, maxima and saturation (R93, R114). -/

theorem minS_eq {w : Nat} (a b : BitVec w) : minS a b = if a.toInt ≤ b.toInt then a else b := by
  simp only [minS, BitVec.slt_iff_toInt_lt, ← Int.not_le, ite_not]

theorem maxS_eq {w : Nat} (a b : BitVec w) : maxS a b = if a.toInt ≤ b.toInt then b else a := by
  rcases Int.lt_trichotomy a.toInt b.toInt with h | h | h
  · rw [maxS, if_pos (BitVec.slt_iff_toInt_lt.2 h), if_pos h.le]
  · rw [BitVec.eq_of_toInt_eq h, maxS, ite_self, ite_self]
  · rw [maxS, if_neg (mt BitVec.slt_iff_toInt_lt.1 h.asymm), if_neg h.not_ge]

theorem minU_eq {w : Nat} (a b : BitVec w) : minU a b = if a.toNat ≤ b.toNat then a else b := by
  simp only [minU, BitVec.ult_iff_lt, BitVec.lt_def, ← Nat.not_le, ite_not]

theorem maxU_eq {w : Nat} (a b : BitVec w) : maxU a b = if a.toNat ≤ b.toNat then b else a := by
  rcases Nat.lt_trichotomy a.toNat b.toNat with h | h | h
  · rw [maxU, if_pos (BitVec.ult_iff_lt.2 h), if_pos h.le]
  · rw [BitVec.eq_of_toNat_eq h, maxU, ite_self, ite_self]
  · rw [maxU, if_neg (mt BitVec.ult_iff_lt.1 h.asymm), if_neg h.not_ge]

theorem clamp32_eq (x : Int) : clamp32 x = BitVec.ofInt 32 (max (-2 ^ 31) (min (2 ^ 31 - 1) x)) := rfl

theorem mulhS_eq (a b : Word) : mulhS a b = BitVec.ofInt 32 (a.toInt * b.toInt / 2 ^ 32) := rfl

theorem mulhU_eq (a b : Word) : mulhU a b = BitVec.ofNat 32 (a.toNat * b.toNat / 2 ^ 32) := rfl

theorem mul_eq_ofNat {w : Nat} (a b : BitVec w) : a * b = BitVec.ofNat w (a.toNat * b.toNat) := rfl

/-! The shapes of words whose operation is the statement's own. -/

theorem eachLane2_of_exec {i : VR → Instr} {f : Word → Word → Word} (he : ∀ s w, exec (i w) s = execVR (i w) w f s) : EachLane2 i f :=
  eachLane2 he fun _ _ => rfl

theorem vmad_result {s : State} {v : View} {w : VR} (h : Issues s v (.vmad w)) :
    VectorResult s v (.vmad w) w.k w.d fun j => v.vec w.a.toNat j * v.vec w.b.toNat j + v.src.v w.d.toNat j :=
  execVec_spec (f := fun v j => v.vec w.a.toNat j * v.vec w.b.toNat j + v.src.v w.d.toNat j) rfl h

end Sys2Proof.Machine

open Sys2Proof Sys2Proof.Machine in
/-- Settles O2: each word is its shape with the model's operation, which the lemmas above write on the numbers that the operands denote. -/
theorem vectorIntegersAndCompares : Obligations.VectorIntegersAndCompares := by
  refine ⟨?vadd, ?vsub, ?vmul, ?vmulh, ?vmulhu, ?vmad, ?vmin, ?vmax, ?vminu, ?vmaxu, ?vadds, ?vsubs,
    ?i32Eq, ?i32Ne, ?i32Lt, ?i32Le, ?i32Ltu, ?i32Leu, ?i32Eqz, ?i32Nez, ?i64Eq, ?i64Ne, ?i64Lt, ?i64Le, ?i64Ltu, ?i64Leu, ?i64Eqz, ?i64Nez⟩
  -- VIA
  case vadd | vsub => exact eachLane2_of_exec fun _ _ => rfl
  case vmul => exact eachLane2 (g := (· * ·)) (fun _ _ => rfl) mul_eq_ofNat
  case vmulh => exact eachLane2 (g := mulhS) (fun _ _ => rfl) mulhS_eq
  case vmulhu => exact eachLane2 (g := mulhU) (fun _ _ => rfl) mulhU_eq
  case vmad => exact fun _ _ _ => vmad_result
  case vmin => exact eachLane2 (g := minS) (fun _ _ => rfl) minS_eq
  case vmax => exact eachLane2 (g := maxS) (fun _ _ => rfl) maxS_eq
  case vminu => exact eachLane2 (g := minU) (fun _ _ => rfl) minU_eq
  case vmaxu => exact eachLane2 (g := maxU) (fun _ _ => rfl) maxU_eq
  case vadds => exact eachLane2 (g := fun a b => clamp32 (a.toInt + b.toInt)) (fun _ _ => rfl) fun _ _ => clamp32_eq _
  case vsubs => exact eachLane2 (g := fun a b => clamp32 (a.toInt - b.toInt)) (fun _ _ => rfl) fun _ _ => clamp32_eq _
  -- VCMP
  case i32Eq | i32Lt | i32Le | i32Ltu | i32Leu => exact compares_of_exec fun _ _ => rfl
  case i32Ne => exact compares (g := (· != ·)) (fun _ _ => rfl) fun _ _ => decide_not.symm
  case i32Eqz => exact tests_of_exec fun _ _ => rfl
  case i32Nez => exact tests (g := (· != 0)) (fun _ _ => rfl) fun _ => decide_not.symm
  case i64Eq | i64Lt | i64Le | i64Ltu | i64Leu => exact comparesPair_of_exec fun _ _ => rfl
  case i64Ne => exact comparesPair (g := (· != ·)) (fun _ _ => rfl) fun _ _ => decide_not.symm
  case i64Eqz => exact testsPair_of_exec fun _ _ => rfl
  case i64Nez => exact testsPair (g := (· != 0)) (fun _ _ => rfl) fun _ => decide_not.symm
end

section
/-! SUPPORT. The logic, the shifts, the pairs and the immediates of the vector pipe, and the scalar words (Sys2Proof/Machine/VectorInt.lean, Scalar.lean: R115,
R116, R124 to R126): each operation of the model as the one its table gives. -/

namespace Sys2Proof.Machine

/-! Logic, shifts and bit counts (R115). -/

theorem rotateLeft_eq (a : Word) (n : Nat) : a.rotateLeft (n % 32) = (a <<< (n % 32)) ||| (a >>> (32 - n % 32)) := by
  rw [BitVec.rotateLeft_def, Nat.mod_mod]

theorem popc32_eq (a : Word) : popc32 a = BitVec.ofNat 32 ((List.range 32).countP fun i => a.getLsbD i) := by
  rw [popc32, List.countP_eq_length_filter]

/-- A list passes a test up to the first element that fails it. -/
theorem length_takeWhile_of_first {α : Type} {p : α → Bool} {l : List α} {n : Nat} (hn : n < l.length) (h : p l[n] = false)
    (hlt : ∀ (j : Nat) (hj : j < n), p l[j] = true) : (l.takeWhile p).length = n := by
  have hfirst : l.findIdx (fun x => !p x) = n := (List.findIdx_eq hn).2 ⟨by simp [h], fun j hj => by simp [hlt j hj]⟩
  rw [List.takeWhile_eq_take_findIdx_not, hfirst, List.length_take, Nat.min_eq_left hn.le]

theorem clz32_eq (a : Word) : clz32 a = BitVec.ofNat 32 (if a = 0 then 32 else 31 - Nat.log2 a.toNat) := by
  rw [clz32]
  split
  · next h => subst h; rfl
  · next h =>
    have h0 : a.toNat ≠ 0 := fun h' => h (BitVec.eq_of_toNat_eq h')
    have hlog : a.toNat.log2 < 32 := (Nat.log2_lt h0).2 a.isLt
    congr 1
    refine length_takeWhile_of_first (by simp; omega) ?_ fun j hj => ?_
    · simp only [List.getElem_map, List.getElem_range]
      rw [show 31 - (31 - a.toNat.log2) = a.toNat.log2 by omega, ← BitVec.testBit_toNat, Nat.testBit_log2 h0]
      rfl
    · simp only [List.getElem_map, List.getElem_range]
      rw [← BitVec.testBit_toNat, Nat.testBit_eq_false_of_lt (Nat.lt_log2_self.trans_le (Nat.pow_le_pow_right (by decide) (by omega)))]
      rfl

/-- Bits that are shifted in from the low end stand in reverse order. -/
theorem testBit_foldl_bits (p : Nat → Bool) (n k : Nat) :
    ((List.range n).foldl (fun m i => 2 * m + if p i then 1 else 0) 0).testBit k = (decide (k < n) && p (n - 1 - k)) := by
  have hbit (m : Nat) (b : Bool) : (2 * m + if b then 1 else 0) = Nat.bit b m := by cases b <;> rfl
  simp only [hbit]
  induction n generalizing k with
  | zero => simp
  | succ n ih =>
    rw [List.range_succ, List.foldl_append, List.foldl_cons, List.foldl_nil]
    cases k with
    | zero => simp
    | succ k =>
      rw [Nat.testBit_bit_succ, ih, Nat.add_sub_cancel, Nat.sub_sub, Nat.add_comm 1 k]
      simp only [Nat.add_lt_add_iff_right]

theorem getLsbD_brev32 (a : Word) {k : Nat} (hk : k < 32) : (brev32 a).getLsbD k = a.getLsbD (31 - k) := by
  rw [brev32, BitVec.getLsbD_ofNat, testBit_foldl_bits]
  simp [hk]

theorem mulWide_eq (a b : Word) : mulWide a b = a.signExtend 64 * b.signExtend 64 := BitVec.ofInt_mul _ _

/-! Immediates (R116, R125). -/

theorem toInt_immWord (i : BitVec 7) : (immWord i).toInt = i.toInt := BitVec.toInt_signExtend_of_le (by decide)

theorem minS_immWord (a : Word) (i : BitVec 7) : minS a (immWord i) = if a.toInt ≤ i.toInt then a else i.signExtend 32 := by
  rw [minS_eq, toInt_immWord]
  rfl

theorem maxS_immWord (a : Word) (i : BitVec 7) : maxS a (immWord i) = if a.toInt ≤ i.toInt then i.signExtend 32 else a := by
  rw [maxS_eq, toInt_immWord]
  rfl

theorem ofNat_add_immWord (j : Nat) (i : BitVec 7) : BitVec.ofNat 32 j + immWord i = BitVec.ofInt 32 ((j : Int) + i.toInt) := by
  rw [BitVec.ofInt_add, BitVec.ofInt_natCast]
  rfl

theorem bitQ_slt (a b : Quad) : bitQ (a.slt b) = if a.toInt < b.toInt then 1 else 0 := by
  simp only [bitQ, BitVec.slt_iff_toInt_lt]

theorem bitQ_ult (a b : Quad) : bitQ (a.ult b) = if a.toNat < b.toNat then 1 else 0 := by
  simp only [bitQ, BitVec.ult_iff_lt, BitVec.lt_def]

theorem bitQ_slt_immQuad (a : Quad) (i : BitVec 8) : bitQ (a.slt (immQuad i)) = if a.toInt < i.toInt then 1 else 0 := by
  rw [bitQ_slt, immQuad, BitVec.toInt_signExtend_of_le (by decide)]

/-! The shapes of words whose operation is the statement's own. -/

theorem eachLane1_of_exec {i : VR1 → Instr} {f : Word → Word} (he : ∀ s w, exec (i w) s = execVR1 (i w) w f s) : EachLane1 i f :=
  eachLane1 he fun _ => rfl

theorem eachLaneImm_of_exec {i : VI → Instr} {f : Word → BitVec 7 → Word} (he : ∀ s w, exec (i w) s = execVI (i w) w f s) : EachLaneImm i f :=
  eachLaneImm he fun _ _ => rfl

theorem scalar2_of_exec {i : VR → Instr} {f : Quad → Quad → Quad} (he : ∀ s w, exec (i w) s = execSA (i w) w f s) : Scalar2 i f :=
  scalar2 he fun _ _ => rfl

theorem scalarImm_of_exec {i : SI → Instr} {f : Quad → BitVec 8 → Quad} (he : ∀ s w, exec (i w) s = execSI (i w) w f s) : ScalarImm i f :=
  scalarImm he fun _ _ => rfl

theorem eachPair2_of_exec {i : VR → Instr} {f : Quad → Quad → Quad}
    (he : ∀ s w, exec (i w) s = execPair (i w) w.k w.d (fun v j => f (v.pair w.a.toNat j) (v.pair w.b.toNat j)) s) : EachPair2 i f :=
  fun s _ w h => execPair_spec (f := fun v j => f (v.pair w.a.toNat j) (v.pair w.b.toNat j)) (he s w) h

theorem eachPairBy_of_exec {i : VR → Instr} {f : Quad → Word → Quad}
    (he : ∀ s w, exec (i w) s = execPair (i w) w.k w.d (fun v j => f (v.pair w.a.toNat j) (v.vec w.b.toNat j)) s) : EachPairBy i f :=
  fun s _ w h => execPair_spec (f := fun v j => f (v.pair w.a.toNat j) (v.vec w.b.toNat j)) (he s w) h

theorem eachPairImm_of_exec {i : VI → Instr} {f : Quad → BitVec 7 → Quad}
    (he : ∀ s w, exec (i w) s = execPair (i w) w.k w.d (fun v j => f (v.pair w.a.toNat j) w.i) s) : EachPairImm i f :=
  fun s _ w h => execPair_spec (f := fun v j => f (v.pair w.a.toNat j) w.i) (he s w) h

theorem vbrev_result {s : State} {v : View} {w : VR1} (h : Issues s v (.vbrev w)) :
    VectorResult s v (.vbrev w) w.k w.d fun j => brev32 (v.vec w.a.toNat j) :=
  execVec_spec (f := fun v j => brev32 (v.vec w.a.toNat j)) rfl h

theorem vmulw_result {s : State} {v : View} {w : VR} (h : Issues s v (.vmulw w)) :
    PairResult s v (.vmulw w) w.k w.d fun j => (v.vec w.a.toNat j).signExtend 64 * (v.vec w.b.toNat j).signExtend 64 := by
  simp only [← mulWide_eq]
  exact execPair_spec (f := fun v j => mulWide (v.vec w.a.toNat j) (v.vec w.b.toNat j)) rfl h

theorem vsplati_result {s : State} {v : View} {w : VI0} (h : Issues s v (.vsplati w)) :
    VectorResult s v (.vsplati w) w.k w.d fun _ => w.i.signExtend 32 :=
  execVec_spec (f := fun _ _ => immWord w.i) rfl h

theorem viota_result {s : State} {v : View} {w : VI0} (h : Issues s v (.viota w)) :
    VectorResult s v (.viota w) w.k w.d fun j => BitVec.ofInt 32 ((j : Int) + w.i.toInt) := by
  simp only [← ofNat_add_immWord]
  exact execVec_spec (f := fun _ j => BitVec.ofNat 32 j + immWord w.i) rfl h

end Sys2Proof.Machine

open Sys2Proof Sys2Proof.Machine in
/-- Settles O3: each word is its shape with the model's operation, which is the statement's but for the rotation, the bit counts, the reversal, the wide
product and the signed comparisons with an immediate; these are brought to its form by the lemmas above. -/
theorem vectorLogicAndImmediates : Obligations.VectorLogicAndImmediates := by
  refine ⟨?vand, ?vor, ?vxor, ?vandn, ?vshl, ?vshr, ?vsra, ?vrol, ?vpopc, ?vclz, ?vbrev, ?vadd64, ?vsub64, ?vmulw, ?vshl64, ?vshr64,
    ?vaddi, ?vmuli, ?vandi, ?vori, ?vxori, ?vshli, ?vshri, ?vsrai, ?vmini, ?vmaxi, ?vshl64i, ?vshr64i, ?vsplati, ?viota⟩
  -- VIB
  case vand | vor | vxor | vandn | vshl | vshr | vsra => exact eachLane2_of_exec fun _ _ => rfl
  case vrol => exact eachLane2 (g := fun a b => a.rotateLeft (amount5 b)) (fun _ _ => rfl) fun a b => rotateLeft_eq a b.toNat
  case vpopc => exact eachLane1 (g := popc32) (fun _ _ => rfl) popc32_eq
  case vclz => exact eachLane1 (g := clz32) (fun _ _ => rfl) clz32_eq
  case vbrev => exact fun s v w h => ⟨_, vbrev_result h, fun _ _ hk => getLsbD_brev32 _ hk⟩
  case vadd64 | vsub64 => exact eachPair2_of_exec fun _ _ => rfl
  case vmulw => exact fun _ _ _ => vmulw_result
  case vshl64 | vshr64 => exact eachPairBy_of_exec fun _ _ => rfl
  -- VIM
  case vaddi | vmuli | vandi | vori | vxori | vshli | vshri | vsrai => exact eachLaneImm_of_exec fun _ _ => rfl
  case vmini => exact eachLaneImm (g := fun a i => minS a (immWord i)) (fun _ _ => rfl) minS_immWord
  case vmaxi => exact eachLaneImm (g := fun a i => maxS a (immWord i)) (fun _ _ => rfl) maxS_immWord
  case vshl64i | vshr64i => exact eachPairImm_of_exec fun _ _ => rfl
  case vsplati => exact fun _ _ _ => vsplati_result
  case viota => exact fun _ _ _ => viota_result

open Sys2Proof Sys2Proof.Machine in
/-- Settles O4: each word is its shape with the model's operation, which is the statement's but for the comparisons. -/
theorem scalarArithmeticWords : Obligations.ScalarArithmeticWords := by
  refine ⟨?sadd, ?ssub, ?smul, ?smulhu, ?sand, ?sor, ?sxor, ?sshl, ?sshr, ?ssra, ?sslt, ?ssltu,
    ?saddi, ?sandi, ?sori, ?sxori, ?sshli, ?sshri, ?ssrai, ?sslti, ?sli⟩
  -- SA
  case sadd | ssub | smul | smulhu | sand | sor | sxor | sshl | sshr | ssra => exact scalar2_of_exec fun _ _ => rfl
  case sslt => exact scalar2 (g := fun a b => bitQ (a.slt b)) (fun _ _ => rfl) bitQ_slt
  case ssltu => exact scalar2 (g := fun a b => bitQ (a.ult b)) (fun _ _ => rfl) bitQ_ult
  -- SI and SLI
  case saddi | sandi | sori | sxori | sshli | sshri | ssrai => exact scalarImm_of_exec fun _ _ => rfl
  case sslti => exact scalarImm (g := fun a i => bitQ (a.slt (immQuad i))) (fun _ _ => rfl) bitQ_slt_immQuad
  case sli => exact fun _ _ w h => execScalar_spec (f := fun _ => immQuad w.i) rfl h
end

section
/-! SUPPORT. Scalar writes beside the latches (Sys2Proof/Machine/Issue.lean: R84, R113): what the wave holds after a write from the S pipe or the V pipe, and
the words whose whole result such writes are. -/

namespace Sys2Proof.Machine

/-- A wave after a write of scalar d that stands only on a condition. -/
def Wave.setSIf (w : Wave) (c : Bool) (d : Nat) (x : Quad) : Wave := if c then w.setS d x else w

theorem setSIf_only (w : Wave) (c : Bool) (d : Nat) (x : Quad) : w.setSIf c d x = { w with sregs := (w.setSIf c d x).sregs } := by
  cases c <;> rfl

theorem setSIf_length (w : Wave) (c : Bool) (d : Nat) (x : Quad) : (w.setSIf c d x).sregs.length = w.sregs.length := by
  cases c
  · rfl
  · exact modAt_length _ _ _

theorem setSIf_s (w : Wave) (c : Bool) (d : Nat) (x : Quad) {n : Nat} (hn : n < w.sregs.length) :
    (w.setSIf c d x).s n = if n = d ∧ c = true then x else w.s n := by
  cases c
  · simp [Wave.setSIf]
  · simpa [Wave.setSIf] using setS_s w d x n hn

theorem setSIf_s_stands (w : Wave) (v : View) (pipe : Pipe) (d : Nat) (x : Quad) {n : Nat} (hn : n < w.sregs.length) :
    (w.setSIf (Stands v pipe d) d x).s n = if n = d ∧ Stands v pipe n = true then x else w.s n := by
  rw [setSIf_s _ _ _ _ hn]
  exact if_congr (and_congr_right fun h => by rw [h]) rfl rfl

theorem modWave_setSIf_false (p : Package) (c k d : Nat) (x : Quad) : p.modWave c k (fun w => w.setSIf false d x) = p := modWave_id p c k

theorem pkg_writeS (s : State) (v : View) (d : Nat) (x : Quad) :
    (s.writeS v d x).pkg = s.pkg.modWave v.iss.core v.iss.slot fun w => w.setSIf (Stands v .S d) d x := by
  rw [State.writeS, stands_S]
  cases Stands v .S d
  · exact (modWave_setSIf_false ..).symm
  · rfl

theorem pkg_writeV (s : State) (v : View) (d : Nat) (x : Quad) :
    (s.writeV v d x).pkg = s.pkg.modWave v.iss.core v.iss.slot fun w => w.setSIf (Stands v .V d) d x := by
  rw [State.writeV, stands_V]
  cases Stands v .V d
  · exact (modWave_setSIf_false ..).symm
  · rfl

@[simp] theorem clk_writeS (s : State) (v : View) (d : Nat) (x : Quad) : (s.writeS v d x).clk = s.clk := by unfold State.writeS; split <;> rfl
@[simp] theorem agenda_writeS (s : State) (v : View) (d : Nat) (x : Quad) : (s.writeS v d x).agenda = s.agenda := by unfold State.writeS; split <;> rfl
@[simp] theorem images_writeS (s : State) (v : View) (d : Nat) (x : Quad) : (s.writeS v d x).images = s.images := by unfold State.writeS; split <;> rfl
@[simp] theorem clk_writeV (s : State) (v : View) (d : Nat) (x : Quad) : (s.writeV v d x).clk = s.clk := by unfold State.writeV; split <;> rfl
@[simp] theorem agenda_writeV (s : State) (v : View) (d : Nat) (x : Quad) : (s.writeV v d x).agenda = s.agenda := by unfold State.writeV; split <;> rfl
@[simp] theorem images_writeV (s : State) (v : View) (d : Nat) (x : Quad) : (s.writeV v d x).images = s.images := by unfold State.writeV; split <;> rfl

section
variable {s s1 : State} {v : View} {i : Instr} {F : View → State → Out} {d : Nat} {x : Quad}

/-- A word whose result is one scalar, with no latch entry. -/
theorem scalar_written {pipe : Pipe} (he : exec i s = s.word i F) (h : Issues s v i) (hF : F v s = .done s1) (hc : s1.clk = s.clk)
    (ha : s1.agenda = s.agenda) (hi : s1.images = s.images)
    (hp : s1.pkg = s.pkg.modWave v.iss.core v.iss.slot fun w => w.setSIf (Stands v pipe d) d x) :
    ScalarsWritten s v i fun n => if n = d ∧ Stands v pipe n = true then some x else none := by
  refine scalars_word he h hF hc ha hi hp (setSIf_only _ _ _ _) (setSIf_length _ _ _ _) fun n hn => ?_
  rw [setSIf_s_stands _ _ _ _ _ hn]
  split <;> rfl

theorem scalarS_written (he : exec i s = s.word i F) (h : Issues s v i) (hF : F v s = .done (s.writeS v d x)) :
    ScalarsWritten s v i fun n => if n = d ∧ Stands v .S n = true then some x else none :=
  scalar_written he h hF (clk_writeS ..) (agenda_writeS ..) (images_writeS ..) (pkg_writeS ..)

theorem scalarV_written (he : exec i s = s.word i F) (h : Issues s v i) (hF : F v s = .done (s.writeV v d x)) :
    ScalarsWritten s v i fun n => if n = d ∧ Stands v .V n = true then some x else none :=
  scalar_written he h hF (clk_writeV ..) (agenda_writeV ..) (images_writeV ..) (pkg_writeV ..)

/-- A word whose result is a pair of scalars, with no latch entry. -/
theorem scalarsV_written {y : Quad} (he : exec i s = s.word i F) (h : Issues s v i)
    (hF : F v s = .done ((s.writeV v d x).writeV v (d + 1) y)) :
    ScalarsWritten s v i fun n => if n = d ∧ Stands v .V n = true then some x else if n = d + 1 ∧ Stands v .V n = true then some y else none := by
  have hlen : (v.now.setSIf (Stands v .V d) d x).sregs.length = v.now.sregs.length := setSIf_length _ _ _ _
  refine scalars_word (g := fun w => (w.setSIf (Stands v .V d) d x).setSIf (Stands v .V (d + 1)) (d + 1) y) he h hF (by simp) (by simp) (by simp)
    (by rw [pkg_writeV, pkg_writeV, modWave_modWave]) ?_ ?_ fun n hn => ?_
  · rw [setSIf_only, setSIf_only v.now]
  · rw [setSIf_length, hlen]
  · rw [setSIf_s_stands _ _ _ _ _ (hlen ▸ hn), setSIf_s_stands _ _ _ _ _ hn]
    by_cases hd : n = d
    · simp only [hd, true_and, Nat.ne_of_lt (Nat.lt_succ_self d), false_and, if_false]
      split <;> rfl
    · simp only [hd, false_and, if_false]
      split <;> rfl

/-- A V-pipe producer of a scalar. -/
theorem scalarV_word {keep : BitVec 1} {d : BitVec 7} (he : exec i s = s.word i F) (h : Issues s v i)
    (hF : F v s = .done (if keep = 1 then s.produce v true d.toNat (.scalar x) else (s.produce v true d.toNat (.scalar x)).writeV v d.toNat x)) :
    ScalarResult s v i .V keep d x := by
  rcases bit1_cases keep with rfl | rfl
  · refine scalar_word he h hF (by simp; rfl) (by simp; rfl) (by simp; rfl) ?_
    rw [if_neg (by decide), pkg_writeV]
    exact modWave_modWave ..
  · exact scalar_word he h hF rfl rfl rfl rfl

end

end Sys2Proof.Machine
end

section
/-! SUPPORT. The moves and the predicate words (Sys2Proof/Machine/VectorInt.lean: R117 to R120, R122, R123). -/

namespace Sys2Proof.Machine

/-! What `exec` makes of the words that are no shared shape. -/

theorem exec_vgetl (w : VR) (s : State) : exec (.vgetl w) s = s.word (.vgetl w) fun v s =>
    let x : Quad := if w.a.toNat < 124 then (v.src.v w.a.toNat ((v.sc w.b.toNat).toNat % 128)).setWidth 64
      else if (v.src.party v.iss.leader).contains ((v.sc w.b.toNat).toNat % 128 / 4) then (v.vec w.a.toNat ((v.sc w.b.toNat).toNat % 128)).setWidth 64 else 0
    .done (if w.k = 1 then s.produce v true w.d.toNat (.scalar x) else (s.produce v true w.d.toNat (.scalar x)).writeV v w.d.toNat x) := rfl

theorem exec_vmovxr (w : VR1) (s : State) : exec (.vmovxr w) s = s.word (.vmovxr w) fun v s =>
    match v.indexReg (v.sc w.a.toNat) with
    | none => .trap regidxTrap
    | some x => .done (s.produce v (w.k = 1) w.d.toNat (.vec (tabulate 0 fun j => v.src.v x j))) := rfl

theorem exec_vmovxw (w : VR1) (s : State) : exec (.vmovxw w) s = s.word (.vmovxw w) fun v s =>
    if w.k = 1 then .done (s.produce v true 0 (.vec (tabulate 0 fun j => v.vec w.a.toNat j)))
    else match v.indexReg (v.sc w.d.toNat) with
      | none => .trap regidxTrap
      | some x => .done (s.produce v false x (.vec (tabulate 0 fun j => v.vec w.a.toNat j))) := rfl

theorem exec_ptos (w : PRAS) (s : State) : exec (.ptos w) s = s.word (.ptos w) fun v s =>
    .done ((s.writeV v w.s.toNat ((v.pred w.a.toNat &&& v.act).setWidth 64)).writeV v (w.s.toNat + 1) (((v.pred w.a.toNat &&& v.act) >>> 64).setWidth 64)) :=
  rfl

theorem exec_pcount (w : PRAS) (s : State) : exec (.pcount w) s = s.word (.pcount w) fun v s =>
    .done (s.writeV v w.s.toNat (BitVec.ofNat 64 (popcount (v.pred w.a.toNat &&& v.act)))) := rfl

theorem indexReg_of_lt {v : View} {x : Quad} (h : x.toNat < v.cast.regcount.toNat) : v.indexReg x = some x.toNat := if_pos h

theorem indexReg_of_le {v : View} {x : Quad} (h : v.cast.regcount.toNat ≤ x.toNat) : v.indexReg x = none := if_neg h.not_gt

theorem rank_eq (v : View) (j : Nat) : v.rank j = (List.range j).countP fun k => v.active k := by
  rw [View.rank, List.countP_eq_length_filter]
  rfl

section
variable {s : State} {v : View}

theorem vbcs_result {w : VR1} (h : Issues s v (.vbcs w)) : VectorResult s v (.vbcs w) w.k w.d fun _ => (v.sc w.a.toNat).setWidth 32 :=
  execVec_spec (f := fun v _ => (v.sc w.a.toNat).setWidth 32) rfl h

theorem vgetl_result {w : VR} (h : Issues s v (.vgetl w)) :
    ScalarResult s v (.vgetl w) .V w.k w.d
      (if w.a.toNat < 124 then (v.src.v w.a.toNat ((v.sc w.b.toNat).toNat % 128)).setWidth 64
        else if (v.src.party v.iss.leader).contains ((v.sc w.b.toNat).toNat % 128 / 4) then (v.vec w.a.toNat ((v.sc w.b.toNat).toNat % 128)).setWidth 64 else 0) :=
  scalarV_word (exec_vgetl w s) h rfl

/-! VSETL (R117, R118): one lane of d, if it is active. -/

/-- The register that VSETL leaves in the latches: d with the lane replaced. -/
def View.laneSet (v : View) (w : VR) (j : Nat) : Word :=
  if j = (v.sc w.b.toNat).toNat % 128 then (v.sc w.a.toNat).setWidth 32 else v.src.v w.d.toNat j

/-- The lane that VSETL writes, if it is active. -/
def View.laneNamed (v : View) (w : VR) : LaneMask := v.act &&& laneMask fun j => j = (v.sc w.b.toNat).toNat % 128

/-- A wave with the write of VSETL made, unless K keeps it. -/
def View.setLane (v : View) (w : VR) (y : Wave) : Wave :=
  if w.k = 1 then y else y.setV w.d.toNat (v.laneNamed w) fun _ => (v.sc w.a.toNat).setWidth 32

/-- A wave with the latch entry of VSETL. -/
def View.latchLane (v : View) (w : VR) (y : Wave) : Wave :=
  y.pushLatch v.iss.leader v.win.packet (4 * v.win.packet + v.iss.pslot) ((Result.vec (tabulate 0 (v.laneSet w))).latch v.act)

/-- The state that VSETL leaves before the word is closed. -/
def State.putLane (s : State) (v : View) (w : VR) : State :=
  let t := s.produce v true w.d.toNat (.vec (tabulate 0 (v.laneSet w)))
  if w.k = 1 then t else t.onWave v fun y => y.setV w.d.toNat (v.laneNamed w) fun _ => (v.sc w.a.toNat).setWidth 32

theorem exec_vsetl (w : VR) (s : State) : exec (.vsetl w) s = s.word (.vsetl w) fun v s => .done (s.putLane v w) := rfl

theorem putLane_kept (s : State) (v : View) (w : VR) :
    (s.putLane v w).clk = s.clk ∧ (s.putLane v w).agenda = s.agenda ∧ (s.putLane v w).images = s.images := by
  unfold State.putLane
  dsimp only
  split <;> exact ⟨rfl, rfl, rfl⟩

theorem pkg_putLane (s : State) (v : View) (w : VR) :
    (s.putLane v w).pkg = s.pkg.modWave v.iss.core v.iss.slot fun y => v.setLane w (v.latchLane w y) := by
  unfold State.putLane View.setLane
  dsimp only
  split
  · rfl
  · exact modWave_modWave ..

theorem laneNamed_getLsbD (v : View) (w : VR) {j : Nat} (hj : j < 128) :
    (v.laneNamed w).getLsbD j = true ↔ j = (v.sc w.b.toNat).toNat % 128 ∧ v.active ((v.sc w.b.toNat).toNat % 128) = true := by
  rw [View.laneNamed, BitVec.getLsbD_and, laneMask_get _ _ hj, Bool.and_eq_true, decide_eq_true_eq, and_comm]
  exact and_congr_right fun e => by rw [e, View.active]

theorem setLane_only (v : View) (w : VR) (y : Wave) : v.setLane w y = { y with vregs := (v.setLane w y).vregs } := by
  unfold View.setLane
  split <;> rfl

theorem setLane_length (v : View) (w : VR) (y : Wave) : (v.setLane w y).vregs.length = y.vregs.length := by
  unfold View.setLane
  split
  · rfl
  · exact modAt_length _ _ _

theorem setLane_v (v : View) (w : VR) (y : Wave) {r j : Nat} (hr : r < y.vregs.length) (hj : j < 128) :
    (v.setLane w y).v r j =
      if w.k = 0 ∧ r = w.d.toNat ∧ j = (v.sc w.b.toNat).toNat % 128 ∧ v.active ((v.sc w.b.toNat).toNat % 128) = true then (v.sc w.a.toNat).setWidth 32
      else y.v r j := by
  rw [View.setLane]
  rcases bit1_cases w.k with hk | hk
  · simp only [hk, true_and]
    exact (setV_v _ _ _ _ _ _ hr hj).trans (if_congr (and_congr_right fun _ => laneNamed_getLsbD v w hj) rfl rfl)
  · rw [if_pos hk, if_neg fun h0 => by simp [hk] at h0]

theorem setLane_effect (v : View) (w : VR) : WaveEffect v (v.setLane w (v.latchLane w v.now)) :=
  effect_push v _ _ _ (v.setLane w) (fun y => by rw [setLane_only]) fun y => ⟨setLane_length v w y, by rw [setLane_only], by rw [setLane_only]⟩

theorem latch_laneSet (v : View) (w : VR) : (Result.vec (tabulate 0 (v.laneSet w))).latch v.act = fun k => .vec ((List.range 4).map fun l =>
    if v.active (4 * k + l) then v.laneSet w (4 * k + l) else 0) :=
  funext fun k => congrArg LatchVal.vec (lanes4 v.act 0 _ _ (fun j hj _ => tabulate_eq 0 _ j hj) k)

theorem vsetl_result {w : VR} (h : Issues s v (.vsetl w)) :
    ∃ t u, exec (.vsetl w) s = .next t ∧ RegisterWord s t v (.vsetl w) u
      ∧ (∀ r j, r < v.now.vregs.length → j < 128 → u.v r j =
          if w.k = 0 ∧ r = w.d.toNat ∧ j = (v.sc w.b.toNat).toNat % 128 ∧ v.active ((v.sc w.b.toNat).toNat % 128) = true then (v.sc w.a.toNat).setWidth 32
          else v.now.v r j)
      ∧ SameScalars v u ∧ SamePredicates v u ∧ SameFlags v u
      ∧ Latched v (some fun k => .vec ((List.range 4).map fun l => if v.active (4 * k + l) then v.laneSet w (4 * k + l) else 0)) u := by
  obtain ⟨hclk, hagenda, himages⟩ := putLane_kept s v w
  obtain ⟨u, hu, hvregs, hsregs, hpreds, hflags, hlatches⟩ :=
    register_word (i := .vsetl w) h.1 (pkg_putLane s v w) hclk hagenda himages (setLane_effect v w)
  rw [setLane_only] at hsregs hpreds hflags
  refine ⟨_, u, (exec_vsetl w s).trans (word_done h rfl), hu, fun r j hr hj => ?_, hsregs, hpreds, hflags, ?_⟩
  · rw [Wave.v, hvregs]
    exact setLane_v v w (v.latchLane w v.now) hr hj
  · rw [← latch_laneSet]
    exact latched_of v _ _ u (by rw [setLane_only]; rfl) hlatches

/-! VMOVXR and VMOVXW (R119). -/

theorem vmovxr_result {w : VR1} (h : Issues s v (.vmovxr w)) (hx : (v.sc w.a.toNat).toNat < v.cast.regcount.toNat) :
    VectorResult s v (.vmovxr w) w.k w.d fun j => v.src.v (v.sc w.a.toNat).toNat j :=
  vector_word (exec_vmovxr w s) h (by simp only [indexReg_of_lt hx]) fun j hj _ => tabulate_eq 0 _ j hj

theorem vmovxr_traps {w : VR1} (h : Issues s v (.vmovxr w)) (hx : v.cast.regcount.toNat ≤ (v.sc w.a.toNat).toNat) :
    Traps s v (.vmovxr w) regidxTrap :=
  traps_word (exec_vmovxr w s) h (by simp only [indexReg_of_le hx])

theorem vmovxw_result {w : VR1} (h : Issues s v (.vmovxw w)) (hk : w.k = 0) (hx : (v.sc w.d.toNat).toNat < v.cast.regcount.toNat) :
    VectorWrite s v (.vmovxw w) 0 (v.sc w.d.toNat).toNat fun j => v.vec w.a.toNat j :=
  have hk1 : w.k ≠ 1 := by simp [hk]
  vector_word (exec_vmovxw w s) h (by simp only [if_neg hk1, indexReg_of_lt hx]; rfl) fun j hj _ => tabulate_eq 0 _ j hj

theorem vmovxw_traps {w : VR1} (h : Issues s v (.vmovxw w)) (hk : w.k = 0) (hx : v.cast.regcount.toNat ≤ (v.sc w.d.toNat).toNat) :
    Traps s v (.vmovxw w) regidxTrap :=
  have hk1 : w.k ≠ 1 := by simp [hk]
  traps_word (exec_vmovxw w s) h (by simp only [if_neg hk1, indexReg_of_le hx])

theorem vmovxw_latch {w : VR1} (h : Issues s v (.vmovxw w)) (hk : w.k = 1) : VectorWrite s v (.vmovxw w) 1 0 fun j => v.vec w.a.toNat j :=
  vector_word (exec_vmovxw w s) h (if_pos hk) fun j hj _ => tabulate_eq 0 _ j hj

theorem vlane_result {w : VR0} (h : Issues s v (.vlane w)) :
    VectorResult s v (.vlane w) w.k w.d fun j => BitVec.ofNat 32 (j + 65536 * (List.range j).countP fun k => v.active k) := by
  simp only [← rank_eq]
  exact execVec_spec (f := fun v j => BitVec.ofNat 32 (j + 65536 * v.rank j)) rfl h

theorem vsel_result {w : VRS} (h : Issues s v (.vsel w)) :
    VectorResult s v (.vsel w) w.k w.d fun j => if v.predAt w.p.toNat j then v.vec w.a.toNat j else v.vec w.b.toNat j :=
  execVec_spec (f := fun v j => if v.predAt w.p.toNat j then v.vec w.a.toNat j else v.vec w.b.toNat j) rfl h

/-! PTOS, PCOUNT and PEXEC (R122, R123). -/

theorem ptos_result {w : PRAS} (h : Issues s v (.ptos w)) :
    ∃ m : LaneMask, (∀ j, j < 128 → m.getLsbD j = (v.predAt w.a.toNat j && v.active j)) ∧
      ScalarsWritten s v (.ptos w) fun n =>
        if n = w.s.toNat ∧ Stands v .V n = true then some (m.setWidth 64)
        else if n = w.s.toNat + 1 ∧ Stands v .V n = true then some ((m >>> 64).setWidth 64) else none :=
  ⟨v.pred w.a.toNat &&& v.act, fun _ _ => BitVec.getLsbD_and, scalarsV_written (exec_ptos w s) h rfl⟩

theorem popcount_and_act (v : View) (p : Nat) :
    popcount (v.pred p &&& v.act) = (List.range 128).countP fun j => v.predAt p j && v.active j := by
  rw [popcount, lanesOf, List.countP_eq_length_filter]
  simp only [BitVec.getLsbD_and]
  rfl

theorem pcount_result {w : PRAS} (h : Issues s v (.pcount w)) :
    ScalarsWritten s v (.pcount w) fun n => if n = w.s.toNat ∧ Stands v .V n = true then
      some (BitVec.ofNat 64 ((List.range 128).countP fun j => v.predAt w.a.toNat j && v.active j)) else none := by
  simp only [← popcount_and_act]
  exact scalarV_written (exec_pcount w s) h rfl

/-- The lanes of slice k in a mask of the wave. -/
theorem getLsbD_slice_lanes (m : LaneMask) (k : Nat) {i : Nat} (hi : i < 4) :
    (BitVec.ofNat 4 (m.toNat / 2 ^ (4 * k))).getLsbD i = m.getLsbD (4 * k + i) := by
  rw [BitVec.getLsbD_ofNat, Nat.testBit_div_two_pow, BitVec.testBit_toNat, Nat.add_comm]
  simp only [hi, decide_true, Bool.true_and]

/-- A slice after PEXEC on a predicate: the mask loses the lanes without it. -/
def View.narrow (v : View) (p k : Nat) (x : Slice) : Slice := { x with mask := x.mask &&& BitVec.ofNat 4 ((v.pred p).toNat / 2 ^ (4 * k)) }

theorem exec_pexec (w : PRA) (s : State) : exec (.pexec w) s = s.word (.pexec w) fun v s =>
    .done (s.onWave v fun y => y.modSlices v.slices (v.narrow w.a.toNat)) := rfl

theorem narrow_mask (v : View) (p k : Nat) (x : Slice) {i : Nat} (hi : i < 4) :
    (v.narrow p k x).mask.getLsbD i = (x.mask.getLsbD i && v.predAt p (4 * k + i)) := by
  rw [View.narrow, BitVec.getLsbD_and, getLsbD_slice_lanes _ _ hi]
  rfl

theorem pexec_performs {w : PRA} (h : Issues s v (.pexec w)) :
    Performs s v (.pexec w) false s.pkg (v.now.modSlices v.slices (v.narrow w.a.toNat)) :=
  performs_done (f := fun y => y.modSlices v.slices (v.narrow w.a.toNat)) (exec_pexec w s) h rfl (issuer_now h) rfl rfl rfl rfl

theorem pexec_slices (v : View) (p k : Nat) {a b : Slice} (ha : v.now.slices[k]? = some a)
    (hb : (v.now.modSlices v.slices (v.narrow p)).slices[k]? = some b) :
    b = { a with mask := b.mask }
      ∧ ∀ i, i < 4 → b.mask.getLsbD i = (a.mask.getLsbD i && (decide (k ∉ v.slices) || v.predAt p (4 * k + i))) := by
  have hslice : b = if k ∈ v.slices then v.narrow p k a else a := eachSlice_modSlices v.now v.slices (v.narrow p) k a b ha hb
  by_cases hk : k ∈ v.slices
  · rw [if_pos hk] at hslice
    subst hslice
    exact ⟨rfl, fun i hi => by simp only [narrow_mask v p k a hi, hk, not_true_eq_false, decide_false, Bool.false_or]⟩
  · rw [if_neg hk] at hslice
    subst hslice
    exact ⟨rfl, fun i _ => by simp only [hk, not_false_eq_true, decide_true, Bool.true_or, Bool.and_true]⟩

end

end Sys2Proof.Machine

open Sys2Proof Sys2Proof.Machine in
/-- Settles O7: the moves and the predicate minors are their shapes; the indexed moves, the lane words and the words that write scalars or masks are the
lemmas above. -/
theorem movesAndPredicates : Obligations.MovesAndPredicates := by
  refine ⟨?vmov, ?vbcs, ?vgetlReg, ?vgetlLatch, ?vsetl, ?vmovxr, ?vmovxrTrap, ?vmovxw, ?vmovxwTrap, ?vmovxwLatch, ?vlane, ?vsel,
    ?pand, ?por, ?pxor, ?pandn, ?pnot, ?pset, ?pclr, ?pfroms, ?ptos, ?pcount, ?pexec⟩
  -- VMV
  case vmov => exact eachLane1 (g := id) (fun _ _ => rfl) fun _ => rfl
  case vbcs => exact fun _ _ _ => vbcs_result
  case vgetlReg => exact fun s v w h ha => by simpa only [if_pos ha] using vgetl_result h
  case vgetlLatch => exact fun s v w h ha => by simpa only [if_neg ha.not_gt, List.contains_iff_mem] using vgetl_result h
  case vsetl => exact fun _ _ _ => vsetl_result
  case vmovxr => exact fun _ _ _ => vmovxr_result
  case vmovxrTrap => exact fun _ _ _ => vmovxr_traps
  case vmovxw => exact fun _ _ _ => vmovxw_result
  case vmovxwTrap => exact fun _ _ _ => vmovxw_traps
  case vmovxwLatch => exact fun _ _ _ => vmovxw_latch
  case vlane => exact fun _ _ _ => vlane_result
  case vsel => exact fun _ _ _ => vsel_result
  -- PRD
  case pand => exact fun s v w h => execPred_spec (f := fun v j => v.predAt w.a.toNat j && v.predAt w.b.toNat j) rfl h
  case por => exact fun s v w h => execPred_spec (f := fun v j => v.predAt w.a.toNat j || v.predAt w.b.toNat j) rfl h
  case pxor => exact fun s v w h => execPred_spec (f := fun v j => v.predAt w.a.toNat j != v.predAt w.b.toNat j) rfl h
  case pandn => exact fun s v w h => execPred_spec (f := fun v j => v.predAt w.a.toNat j && !v.predAt w.b.toNat j) rfl h
  case pnot => exact fun s v w h => execPred_spec (f := fun v j => !v.predAt w.a.toNat j) rfl h
  case pset => exact fun s v w h => execPred_spec (f := fun _ _ => true) rfl h
  case pclr => exact fun s v w h => execPred_spec (f := fun _ _ => false) rfl h
  case pfroms => exact fun s v w h => execPred_spec (f := fun v j => (v.src.s (w.s.toNat + j / 64)).getLsbD (j % 64)) rfl h
  case ptos => exact fun _ _ _ => ptos_result
  case pcount => exact fun _ _ _ => pcount_result
  case pexec => exact fun s v w h => ⟨_, pexec_performs h, rfl, modSlices_length _ _ _, fun k _ _ => pexec_slices v w.a.toNat k⟩
end

section
/-! SUPPORT. SHI, the tile registers and PERFREQ (Sys2Proof/Machine/Scalar.lean: R126, R170, R171, R359). -/

namespace Sys2Proof.Machine

theorem shiftLeft_or_setWidth (x : Quad) (i : BitVec 17) : x <<< 17 ||| i.setWidth 64 = BitVec.ofNat 64 (x.toNat * 2 ^ 17 + i.toNat) := by
  rw [← Nat.shiftLeft_eq, Nat.shiftLeft_add_eq_or_of_lt i.isLt, BitVec.ofNat_or, BitVec.ofNat_toNat]
  rfl

theorem exec_shi (w : SKN) (s : State) : exec (.shi w) s = s.word (.shi w) fun v s =>
    .done (s.writeS v w.d.toNat (v.src.s w.d.toNat <<< 17 ||| w.i.setWidth 64)) := rfl

theorem exec_tdescr (w : CTT) (s : State) : exec (.tdescr w) s = s.word (.tdescr w) fun v s =>
    .done (s.writeS v w.s.toNat (v.src.tiles.getD w.t.toNat 0)) := rfl

theorem exec_tdesc (w : CTT) (s : State) : exec (.tdesc w) s = s.word (.tdesc w) fun v s =>
    match v.tdescTrap (v.sc w.s.toNat) with
    | some t => .trap t
    | none => .done (s.onWave v fun y => { y with tiles := setAt y.tiles w.t.toNat (v.sc w.s.toNat) }) := rfl

theorem exec_perfreq (w : S1) (s : State) : exec (.perfreq w) s = s.word (.perfreq w) fun v s =>
    .done (s.modPkg fun p => p.modCast v.iss.core v.src.cast fun c => c.request (s.clk.rtick / 250) (perfRequest (v.sc w.s.toNat))) := rfl

/-! The checks of TDESC (R171, Table 9.1), over the number that the scalar holds. -/

/-- The fields that TDESC refuses. -/
def TileRefused (x : Nat) : Prop := bits x 59 5 ≠ 0 ∨ 5 ≤ bits x 15 3 ∨ bits x 57 2 = 3 ∨ bits x 25 7 ≠ 64 ∨ bits x 32 10 < 4

/-- One past the last byte of the tile. -/
def tileLimit (x : Nat) : Nat := 16 * bits x 0 15 + 16 * bits x 32 10 * bits x 18 7 + 64

/-- One past the last byte of the scales of a tile that has them. -/
def scaleLimit (x : Nat) : Nat := 16 * bits x 42 15 + (if bits x 57 2 = 1 then 4 * (bits x 18 7 + 1) else 4)

theorem tileRefused_iff (t : Quad) :
    (bits t.toNat 59 5 ≠ 0 || 5 ≤ tileFmt t || tileScaleMode t = 3 || !tileValid t || tilePitch t < 4) = true ↔ TileRefused t.toNat := by
  simp only [tileValid, Bool.or_eq_true, Bool.not_eq_true', decide_eq_true_eq, decide_eq_false_iff_not, or_assoc]
  rfl

theorem tileEnd_eq (t : Quad) : tileEnd t = tileLimit t.toNat := by
  rw [tileEnd, tileRows, Nat.add_sub_cancel]
  rfl

theorem scaleEnd_eq {t : Quad} (h : ¬ TileRefused t.toNat) (hm : bits t.toNat 57 2 ≠ 0) : scaleEnd t = scaleLimit t.toNat := by
  have hlt : bits t.toNat 57 2 < 4 := Nat.mod_lt _ (by decide)
  have h3 : bits t.toNat 57 2 ≠ 3 := fun h3 => h (.inr (.inr (.inl h3)))
  rw [scaleEnd, scaleLimit, tileScaleMode]
  by_cases h1 : bits t.toNat 57 2 = 1
  · rw [if_pos h1, if_pos h1]
    rfl
  · rw [if_neg h1, if_neg h1, if_pos (by omega)]
    rfl

section
variable {v : View} {t : Quad}

theorem tdescTrap_refused (h : TileRefused t.toNat) : v.tdescTrap t = some v.operandTrap := if_pos ((tileRefused_iff t).2 h)

theorem tdescTrap_tile (h : ¬ TileRefused t.toNat) (hsize : v.cast.spsize.toNat < tileLimit t.toNat) :
    v.tdescTrap t = some { cause := .spRange, addr := BitVec.ofNat 64 (tileLimit t.toNat) } := by
  rw [← tileEnd_eq] at hsize ⊢
  exact (if_neg (mt (tileRefused_iff t).1 h)).trans (if_pos hsize)

theorem tdescTrap_fits (h : ¬ TileRefused t.toNat) (hsize : tileLimit t.toNat ≤ v.cast.spsize.toNat) :
    v.tdescTrap t = if bits t.toNat 57 2 ≠ 0 ∧ v.cast.spsize.toNat < scaleLimit t.toNat
      then some { cause := .spRange, addr := BitVec.ofNat 64 (scaleLimit t.toNat) } else none := by
  rw [← tileEnd_eq] at hsize
  refine (if_neg (mt (tileRefused_iff t).1 h)).trans ((if_neg hsize.not_gt).trans ?_)
  by_cases hm : bits t.toNat 57 2 = 0
  · simp [tileScaleMode, hm]
  · simp [tileScaleMode, hm, scaleEnd_eq h hm]

end

section
variable {s : State} {v : View}

theorem tdesc_traps {w : CTT} {t : Trap} (h : Issues s v (.tdesc w)) (ht : v.tdescTrap (v.sc w.s.toNat) = some t) : Traps s v (.tdesc w) t :=
  traps_word (exec_tdesc w s) h (by simp only [ht])

theorem tdesc_performs {w : CTT} (h : Issues s v (.tdesc w)) (ht : v.tdescTrap (v.sc w.s.toNat) = none) :
    Performs s v (.tdesc w) false s.pkg { v.now with tiles := setAt v.now.tiles w.t.toNat (v.sc w.s.toNat) } :=
  performs_done (s1 := s.onWave v fun y => { y with tiles := setAt y.tiles w.t.toNat (v.sc w.s.toNat) })
    (f := fun y => { y with tiles := setAt y.tiles w.t.toNat (v.sc w.s.toNat) }) (exec_tdesc w s) h (by simp only [ht]) (issuer_now h) rfl rfl rfl rfl

end

/-! Requests for a level (R359). -/

theorem perfRequest_eq (x : Quad) : perfRequest x = if x.toNat % 256 = 255 then 255 else BitVec.ofNat 8 (min (x.toNat % 256) 56) := by
  have hx : (x.setWidth 8).toNat = x.toNat % 256 := BitVec.toNat_setWidth ..
  have h255 : x.setWidth 8 = 255 ↔ x.toNat % 256 = 255 := by
    rw [← hx, ← BitVec.toNat_inj]
    rfl
  rw [perfRequest]
  refine if_congr h255 rfl ?_
  rw [hx]
  split
  · next h => rw [Nat.min_eq_right h.le]; rfl
  · next h => rw [Nat.min_eq_left (Nat.not_lt.1 h), ← hx, BitVec.ofNat_toNat, BitVec.setWidth_eq]

theorem perfRank_lt_iff (c q : BitVec 8) : perfRank c < perfRank q ↔ q ≠ 255 ∧ (c = 255 ∨ c.toNat < q.toNat) := by
  by_cases hq : q = 255
  · simp [perfRank, hq]
  · rw [show perfRank q = q.toNat + 1 from if_neg hq]
    by_cases hc : c = 255
    · rw [show perfRank c = 0 from if_pos hc]
      exact ⟨fun _ => ⟨hq, .inl hc⟩, fun _ => Nat.succ_pos _⟩
    · rw [show perfRank c = c.toNat + 1 from if_neg hc, Nat.add_lt_add_iff_right]
      exact ⟨fun h => ⟨hq, .inr h⟩, fun h => h.2.resolve_left hc⟩

theorem request_perfRequest (c : Cast) (n : Nat) (x : Quad) : c.request n (perfRequest x) =
    (let r := x.toNat % 256
     let q : BitVec 8 := if r = 255 then 255 else BitVec.ofNat 8 (min r 56)
     let above := q ≠ 255 ∧ (c.req = 255 ∨ c.req.toNat < q.toNat)
     if c.reqEpoch = n + 1 then { c with req := if above then q else c.req } else { c with req := q, reqEpoch := n + 1 }) := by
  simp only [Cast.request, perfRank_lt_iff, ← perfRequest_eq]

theorem perfreq_performs {s : State} {v : View} {w : S1} (h : Issues s v (.perfreq w)) :
    Performs s v (.perfreq w) false
      (s.pkg.modCast v.iss.core v.src.cast fun c => c.request (s.clk.rtick / 250) (perfRequest (v.sc w.s.toNat))) v.now :=
  performs_done (f := fun y => y) (exec_perfreq w s) h rfl ((wave?_modCast ..).trans (issuer_now h)) (modWave_id ..).symm rfl rfl rfl

end Sys2Proof.Machine

open Sys2Proof Sys2Proof.Machine in
/-- Settles O10: SHI and TDESCR write one scalar; TDESC goes by the cases of its checks; a request is the model's with its rank written out. -/
theorem scalarBuildTilesAndRequests : Obligations.ScalarBuildTilesAndRequests := by
  refine ⟨?shi, ?tdescr, ?tdesc, ?perfreq⟩
  case shi => exact fun s v w h => by simpa only [shiftLeft_or_setWidth] using scalarS_written (exec_shi w s) h rfl
  case tdescr => exact fun s v w h => scalarS_written (exec_tdescr w s) h rfl
  case tdesc =>
    intro s v w h x bad tile scales past
    refine ⟨fun hbad => tdesc_traps h (tdescTrap_refused hbad), fun hok hsize => tdesc_traps h (tdescTrap_tile hok hsize),
      fun hok hsize hpast => tdesc_traps h ((tdescTrap_fits hok hsize).trans (if_pos hpast)),
      fun hok hsize hpast => ⟨_, tdesc_performs h ((tdescTrap_fits hok hsize).trans (if_neg hpast)), rfl, fun k => modAt_get? _ _ _ _⟩⟩
  case perfreq => exact fun s v w h => by simpa only [request_perfRequest] using perfreq_performs h
end

section
/-! SUPPORT. The conversions (Sys2Proof/Machine/VectorFp.lean: R138 to R140, Table 7.3): integer operands as exact values, and the field of a lane that a
merging conversion replaces. -/

namespace Sys2Proof.Machine

/-! A word with flagged results, by a function that agrees with the model's. -/

section
variable {s : State} {v : View} {i : Instr} {keep : BitVec 1} {d : BitVec 7} {f : Nat → Flagged} {g : View → Nat → Flagged}

theorem FlaggedResult.congr {f' : Nat → Flagged} (h : FlaggedResult s v i keep d f') (hf : ∀ j, f' j = f j) : FlaggedResult s v i keep d f := by
  obtain rfl : f' = f := funext hf
  exact h

theorem flagged_of_exec (he : exec i s = execFp i keep d g s) (h : Issues s v i) (hg : ∀ j, g v j = f j) : FlaggedResult s v i keep d f :=
  (execFp_spec he h).congr hg

theorem flaggedPair_of_exec (he : exec i s = execFpPair i keep d g s) (h : Issues s v i) (hg : ∀ j, g v j = f j) : FlaggedPairResult s v i keep d f := by
  obtain rfl : g v = f := funext hg
  exact execFpPair_spec he h

end

/-- A signed operand is the number that its element denotes. -/
theorem sintOf_toNat {w : Nat} (x : BitVec w) : sintOf w x.toNat = exactInt x.toInt := by
  rw [sintOf, BitVec.ofNat_toNat, BitVec.setWidth_eq]

/-! Fields of a lane (R139). -/

/-- A field replaced: what stands above it, the new field, what stands below it. -/
theorem mergeField_eq (n e d x : Nat) :
    mergeField n e d x = d / 2 ^ (8 * n * (e + 1)) * 2 ^ (8 * n * (e + 1)) + x * 2 ^ (8 * n * e) + d % 2 ^ (8 * n * e) := by
  have hfield : 256 ^ n = 2 ^ (8 * n) := by rw [Nat.pow_mul]
  have hbelow : 256 ^ (n * e) = 2 ^ (8 * n * e) := by rw [Nat.pow_mul, hfield, ← Nat.pow_mul]
  have hupto : 2 ^ (8 * n * (e + 1)) = 2 ^ (8 * n * e) * 2 ^ (8 * n) := by rw [Nat.mul_succ, Nat.pow_add]
  simp only [mergeField, hfield, hbelow, hupto, ← Nat.div_div_eq_div_mul]
  generalize 2 ^ (8 * n * e) = b
  generalize 2 ^ (8 * n) = m
  have hd : d = d / b / m * (b * m) + d / b % m * b + d % b :=
    calc d = b * (m * (d / b / m) + d / b % m) + d % b := by rw [Nat.div_add_mod, Nat.div_add_mod]
      _ = _ := by ring
  omega

theorem mergeInto_eq {m n : Nat} (hm : m = 8 * n) (e d : Nat) (r : Flagged) : mergeInto n e d r = FieldReplaced m e d r := by
  rw [mergeInto, FieldReplaced, mergeField_eq, hm]

theorem byteOf_two_mul (x h : Nat) : byteOf x (2 * h) = x / 2 ^ (16 * h) % 256 := by
  rw [byteOf_eq, ← Nat.mul_assoc]
  rfl

theorem byteOf_two_mul_add_one (x h : Nat) : byteOf x (2 * h + 1) = x / 2 ^ (16 * h + 8) % 256 := by
  rw [byteOf_eq, Nat.mul_succ, ← Nat.mul_assoc]
  rfl

/-- A half of bytes widened to two halves, without flags. -/
theorem widen_bytes (g : Fmt) (x h : Nat) :
    plain ((widen g fmtF16 (byteOf x (2 * h))).bits + 65536 * (widen g fmtF16 (byteOf x (2 * h + 1))).bits) =
      { bits := (fmtF16.roundTo 0 false (g.value (x / 2 ^ (16 * h) % 256))).bits
          + 65536 * (fmtF16.roundTo 0 false (g.value (x / 2 ^ (16 * h + 8) % 256))).bits } := by
  rw [byteOf_two_mul, byteOf_two_mul_add_one]
  rfl

theorem widen_half (g f : Fmt) (x e : Nat) : widen g f (half x e) = { bits := (f.roundTo 0 false (g.value (x / 2 ^ (16 * e) % 2 ^ 16))).bits } := by
  rw [half_eq]
  rfl

theorem widen_byteOf (g f : Fmt) (x e : Nat) : widen g f (byteOf x e) = { bits := (f.roundTo 0 false (g.value (x / 2 ^ (8 * e) % 2 ^ 8))).bits } := by
  rw [byteOf_eq]
  rfl

end Sys2Proof.Machine

open Sys2Proof Sys2Proof.Machine in
/-- Settles O6: each word is its shape with the model's rounding; the lemmas above write signed operands, halves, bytes and merged fields as the statement
does. -/
theorem conversions : Obligations.Conversions := by
  refine ⟨?f32I32, ?f32U32, ?i32F32, ?u32F32, ?f32F64, ?f64F32, ?f64I32, ?f64U32, ?i32F64, ?u32F64, ?f64I64, ?i64F64, ?f32I64, ?i64F32, ?frint, ?drint,
    ?f16F32, ?f32F16, ?bf16F32, ?f32Bf16, ?e4m3F32, ?e5m2F32, ?f32E4m3, ?f32E5m2, ?f16E4m3, ?f16E5m2⟩
  -- codes 0x00 to 0x0F
  case f32U32 | i32F32 | u32F32 | f32F64 | i32F64 | u32F64 | frint => exact fun _ _ _ h => flagged_of_exec rfl h fun _ => rfl
  case f64F32 | f64U32 | i64F64 | i64F32 | drint => exact fun _ _ _ h => flaggedPair_of_exec rfl h fun _ => rfl
  case f32I32 | f32I64 => exact fun _ _ _ h => flagged_of_exec rfl h fun _ => congrArg _ (sintOf_toNat _)
  case f64I32 => exact fun _ _ _ h => flaggedPair_of_exec rfl h fun _ => congrArg (fun x => plain (fmtF64.rne x).bits) (sintOf_toNat _)
  case f64I64 => exact fun _ _ _ h => flaggedPair_of_exec rfl h fun _ => congrArg _ (sintOf_toNat _)
  -- codes 0x10 to 0x31
  case f16F32 | bf16F32 => exact fun _ _ _ h => flagged_of_exec rfl h fun _ => mergeInto_eq (n := 2) rfl _ _ _
  case e4m3F32 | e5m2F32 => exact fun _ _ _ h => flagged_of_exec rfl h fun _ => mergeInto_eq (n := 1) rfl _ _ _
  case f32F16 | f32Bf16 => exact fun _ _ _ h => flagged_of_exec rfl h fun _ => widen_half _ _ _ _
  case f32E4m3 | f32E5m2 => exact fun _ _ _ h => flagged_of_exec rfl h fun _ => widen_byteOf _ _ _ _
  case f16E4m3 | f16E5m2 => exact fun _ _ _ h => flagged_of_exec rfl h fun _ => widen_bytes _ _ _
end

section
/-! SUPPORT. Trees and scans over lanes (Sys2Proof/Machine/Flags.lean, CrossLane.lean: R109, R110, R142 to R144): the tree by its nodes, the scan as a left
fold of nodes, and what the cross-lane words make of the active lanes. -/

namespace Sys2Proof.Machine

/-! The tree of R109. -/

section
variable {α : Type} (f : α → α → α)

theorem treeOver_succ (leaf : Nat → Option α) (n i : Nat) :
    TreeOver f leaf (n + 1) i = treeNode f (TreeOver f leaf n (2 * i)) (TreeOver f leaf n (2 * i + 1)) := by
  rw [TreeOver]
  cases TreeOver f leaf n (2 * i) <;> cases TreeOver f leaf n (2 * i + 1) <;> rfl

/-- One level joins the leaves two by two. -/
theorem treeLevel_map_range (m : Nat) (g : Nat → Option α) :
    treeLevel f ((List.range (2 * m)).map g) = (List.range m).map fun i => treeNode f (g (2 * i)) (g (2 * i + 1)) := by
  induction m generalizing g with
  | zero => rfl
  | succ m ih =>
    have hpair : (List.range (2 * (m + 1))).map g = g 0 :: g 1 :: (List.range (2 * m)).map fun i => g (i + 2) := by
      rw [Nat.mul_succ, List.range_succ_eq_map, List.range_succ_eq_map]
      simp only [List.map_cons, List.map_map]
      rfl
    rw [hpair, treeLevel, ih, List.range_succ_eq_map, List.map_cons, List.map_map]
    rfl

theorem treeLevels_map_range (leaf : Nat → Option α) (n m : Nat) :
    (List.range n).foldl (fun l _ => treeLevel f l) ((List.range (2 ^ n * m)).map leaf) = (List.range m).map (TreeOver f leaf n) := by
  induction n generalizing m with
  | zero => rw [Nat.pow_zero, Nat.one_mul]; rfl
  | succ n ih =>
    rw [List.range_succ, List.foldl_append, Nat.pow_succ, Nat.mul_assoc, ih, List.foldl_cons, List.foldl_nil, treeLevel_map_range]
    exact List.map_congr_left fun i _ => (treeOver_succ f leaf n i).symm

theorem treeReduce_map_range (leaf : Nat → Option α) : treeReduce f ((List.range 128).map leaf) = TreeOver f leaf 7 0 := by
  rw [treeReduce, show 128 = 2 ^ 7 * 1 from rfl, treeLevels_map_range]
  rfl

theorem treeOver_eq_none {leaf : Nat → Option α} (h : ∀ j, leaf j = none) (n i : Nat) : TreeOver f leaf n i = none := by
  induction n generalizing i with
  | zero => exact h i
  | succ n ih => rw [treeOver_succ, ih, ih]; rfl

theorem treeNode_none (o : Option α) : treeNode f o none = o := by
  cases o <;> rfl

/-! The scan of R110. -/

/-- At a lane that takes part the scan holds the fold of what is present up to it; elsewhere it holds nothing. -/
theorem scanFrom_getElem? (run : Option α) (l : List (Option α)) (j : Nat) :
    (scanFrom f run l)[j]? = l[j]?.map fun o => o.bind fun _ => (l.take (j + 1)).foldl (treeNode f) run := by
  fun_induction scanFrom f run l generalizing j with
  | case1 => rfl
  | case2 run l ih => cases j <;> simp [treeNode_none, ih]
  | case3 x l ih => cases j <;> simp [treeNode, ih]
  | case4 r x l y ih => cases j <;> simp [treeNode, y, ih]

theorem scanFrom_map_range (leaf : Nat → Option α) (n : Nat) :
    scanFrom f none ((List.range n).map leaf) =
      (List.range n).map fun j => (leaf j).bind fun _ => ((List.range (j + 1)).map leaf).foldl (treeNode f) none := by
  apply List.ext_getElem?
  intro j
  rw [scanFrom_getElem?, List.getElem?_map, List.getElem?_map]
  by_cases hj : j < n
  · rw [List.getElem?_range hj, ← List.map_take, List.take_range, Nat.min_eq_left hj]
    rfl
  · rw [List.getElem?_eq_none (by simpa using hj)]
    rfl

/-- What a scan of a register holds at a lane that takes part. -/
theorem scanFrom_getD_of_some {leaf : Nat → Option α} {j : Nat} {x : α} (hj : j < 128) (h : leaf j = some x) :
    (scanFrom f none ((List.range 128).map leaf)).getD j none = ((List.range (j + 1)).map leaf).foldl (treeNode f) none := by
  rw [scanFrom_map_range, List.getD_eq_getElem?_getD, List.getElem?_map, List.getElem?_range hj]
  simp [h]

/-- A left fold that starts with the first element; `d` where there is none. -/
def foldFirst (d : α) : List α → α
  | [] => d
  | x :: l => l.foldl f x

section
variable (p : Nat → Bool) (x : Nat → α) (l : List Nat)

/-- The fold of nodes over leaves that some lanes have is the fold over those lanes. -/
theorem foldl_treeNode_some (r : α) :
    (l.map fun j => if p j then some (x j) else none).foldl (treeNode f) (some r) = some (((l.filter p).map x).foldl f r) := by
  induction l generalizing r with
  | nil => rfl
  | cons j l ih => by_cases hp : p j = true <;> simp [hp, treeNode, ih]

theorem getD_foldl_treeNode (d : α) :
    ((l.map fun j => if p j then some (x j) else none).foldl (treeNode f) none).getD d = foldFirst f d ((l.filter p).map x) := by
  induction l with
  | nil => rfl
  | cons j l ih =>
    by_cases hp : p j = true
    · simp [hp, treeNode, foldl_treeNode_some, foldFirst]
    · simpa [hp, treeNode] using ih

end

end

/-! Sums modulo 2³² (R109, R110): the bits of a node are the sum of the bits of its children. -/

/-- The word of a node of a sum, 0 where nothing is present. -/
def sumWord (o : Option Nat) : Word := BitVec.ofNat 32 (o.getD 0)

/-- The addition of IREDADD and ISCAN. -/
def addMod32 (a b : Nat) : Nat := (a + b) % 4294967296

@[simp] theorem sumWord_none : sumWord none = 0 := rfl

@[simp] theorem sumWord_some (a : Nat) : sumWord (some a) = BitVec.ofNat 32 a := rfl

theorem sumWord_treeNode (a b : Option Nat) : sumWord (treeNode addMod32 a b) = sumWord a + sumWord b := by
  cases a <;> cases b
  case some.some a b => exact (BitVec.eq_of_toNat_eq (Nat.mod_mod ..)).trans (BitVec.ofNat_add a b)
  all_goals simp [treeNode]

/-- The leaves below a node are those below its left child and those below its right child. -/
theorem range'_halves (n i : Nat) :
    List.range' (2 ^ (n + 1) * i) (2 ^ (n + 1)) = List.range' (2 ^ n * (2 * i)) (2 ^ n) ++ List.range' (2 ^ n * (2 * i + 1)) (2 ^ n) := by
  rw [Nat.mul_succ, List.range'_append_1, Nat.pow_succ, Nat.mul_assoc, Nat.mul_two]

theorem sumWord_treeOver (leaf : Nat → Option Nat) (n i : Nat) :
    sumWord (TreeOver addMod32 leaf n i) = ((List.range' (2 ^ n * i) (2 ^ n)).map fun j => sumWord (leaf j)).sum := by
  induction n generalizing i with
  | zero => simp [TreeOver]
  | succ n ih => rw [treeOver_succ, sumWord_treeNode, ih, ih, range'_halves, List.map_append, List.sum_append]

theorem sumWord_foldl (l : List (Option Nat)) (run : Option Nat) : sumWord (l.foldl (treeNode addMod32) run) = sumWord run + (l.map sumWord).sum := by
  induction l generalizing run with
  | nil => simp
  | cons o l ih => simp [ih, sumWord_treeNode, add_assoc]

theorem sum_sumWord (p : Nat → Bool) (x : Nat → Nat) (l : List Nat) :
    (l.map fun j => sumWord (if p j then some (x j) else none)).sum = BitVec.ofNat 32 ((l.filter p).map x).sum := by
  induction l with
  | nil => rfl
  | cons j l ih => by_cases hp : p j = true <;> simp [hp, ih, BitVec.ofNat_add]

/-! The leaves of a word (R143): the source in the active lanes. -/

/-- A leaf of an integer word. -/
def View.leaf (v : View) (c : BitVec 7) (j : Nat) : Option Nat := if v.active j then some (v.whole c.toNat j).toNat else none

/-- A leaf of a floating-point word. -/
def View.floatLeaf (v : View) (c : BitVec 7) (j : Nat) : Option Flagged := if v.active j then some { bits := (v.whole c.toNat j).toNat } else none

theorem floatLeaf_of_active {v : View} {c : BitVec 7} {j : Nat} (h : v.active j = true) :
    v.floatLeaf c j = some { bits := (v.whole c.toNat j).toNat } := if_pos h

theorem floatLeaf_of_inactive {v : View} {c : BitVec 7} {j : Nat} (h : ¬ v.active j = true) : v.floatLeaf c j = none := if_neg h

theorem leaves_eq (v : View) (c : BitVec 7) : v.leaves c = (List.range 128).map (v.leaf c) := rfl

theorem leaves_plain (v : View) (c : BitVec 7) : (v.leaves c).map (Option.map plain) = (List.range 128).map (v.floatLeaf c) := by
  rw [leaves_eq, List.map_map]
  refine List.map_congr_left fun j _ => ?_
  simp only [Function.comp, View.leaf, View.floatLeaf]
  split <;> rfl

theorem active_lt {v : View} {j : Nat} (h : v.active j = true) : j < 128 := by
  by_contra hj
  simp [View.active, BitVec.getLsbD_of_ge _ _ (Nat.not_lt.1 hj)] at h

theorem scanAt_eq (l : List (Option Nat)) {j : Nat} (hj : j < 128) : scanAt l j = sumWord (l.getD j none) := tabulate_eq 0 _ j hj

theorem allFlags_raised (v : View) (f : Nat → Flagged) (n : Nat) : (v.allFlags f).getLsbD n = (decide (n < 5) && RaisedBy v f n) := by
  rw [← allFlags_get]
  by_cases hn : n < 5
  · simp [hn]
  · simp [hn, BitVec.getLsbD_of_ge _ _ (Nat.not_lt.1 hn)]

/-- A result that every active lane takes raises its flags, if it has any only where some lane is active. -/
theorem raised_of_const {v : View} {r : Flagged} (h : r.flags ≠ 0 → ∃ j, v.active j = true) (n : Nat) :
    r.flags.getLsbD n = (decide (n < 5) && RaisedBy v (fun _ => r) n) := by
  cases hr : r.flags.getLsbD n with
  | false => simp [RaisedBy, hr]
  | true =>
    obtain ⟨j, hj⟩ := h fun h0 => by simp [h0] at hr
    have hany : RaisedBy v (fun _ => r) n = true := List.any_eq_true.2 ⟨j, List.mem_range.2 (active_lt hj), by simp [hj, hr]⟩
    simp [hany, BitVec.lt_of_getLsbD hr]

/-! What `exec` makes of the words that are no shared shape. -/

theorem exec_fredadd (w : VR1) (s : State) : exec (.fredadd w) s = s.word (.fredadd w) fun v s =>
    let r := (treeReduce (Flagged.addStep fmtF32) ((v.leaves w.a).map (Option.map plain))).getD (plain 0)
    .done ((s.produce v (w.k = 1) w.d.toNat (.vec fun _ => BitVec.ofNat 32 r.bits)).raiseFlags v r.flags) := rfl

theorem exec_iscan (w : VR1) (s : State) : exec (.iscan w) s = s.word (.iscan w) fun v s =>
    .done (s.produce v (w.k = 1) w.d.toNat (.vec (scanAt (scanFrom addMod32 none (v.leaves w.a))))) := rfl

theorem exec_fscan (w : VR1) (s : State) : exec (.fscan w) s = s.word (.fscan w) fun v s =>
    let l := scanFrom (Flagged.addStep fmtF32) none ((v.leaves w.a).map (Option.map plain))
    let fl := l.foldl (fun f x => f ||| ((x.map Flagged.flags).getD 0)) 0
    .done ((s.produce v (w.k = 1) w.d.toNat (.vec (scanAt (l.map (Option.map Flagged.bits))))).raiseFlags v fl) := rfl

theorem exec_vcompact (w : VRP) (s : State) : exec (.vcompact w) s = s.word (.vcompact w) fun v s =>
    .done (s.produce v (w.k = 1) w.d.toNat (.vec (tabulate 0 fun j =>
      match (v.compact w.p.toNat)[v.rank j]? with
      | some q => v.whole w.a.toNat q
      | none => v.src.v w.d.toNat j))) := rfl

section
variable {s : State} {v : View}

/-! Reductions (R143). -/

theorem reduce_result {i : Instr} {w : VR1} {f : Nat → Nat → Nat} (he : exec i s = execReduce i w f s) (h : Issues s v i) :
    VectorResult s v i w.k w.d fun _ => BitVec.ofNat 32 ((TreeOver f (v.leaf w.a) 7 0).getD 0) :=
  vector_word he h rfl fun _ _ _ => by rw [leaves_eq, treeReduce_map_range]

theorem reduces_of_exec {i : VR1 → Instr} {f g : Nat → Nat → Nat} (he : ∀ s w, exec (i w) s = execReduce (i w) w g s) (h : ∀ a b, g a b = f a b) :
    Reduces i f := by
  obtain rfl : g = f := funext fun a => funext (h a)
  exact fun s v w hi => reduce_result (he s w) hi

theorem sle32_iff (a b : Nat) : sle32 a b = true ↔ (BitVec.ofNat 32 a).toInt ≤ (BitVec.ofNat 32 b).toInt := BitVec.sle_iff_toInt_le

theorem iredadd_result {w : VR1} (h : Issues s v (.iredadd w)) : VectorResult s v (.iredadd w) w.k w.d fun _ =>
    BitVec.ofNat 32 (((List.range 128).filter fun k => v.active k).map fun k => (v.whole w.a.toNat k).toNat).sum := by
  have hsum : BitVec.ofNat 32 ((TreeOver addMod32 (v.leaf w.a) 7 0).getD 0) =
      BitVec.ofNat 32 (((List.range 128).filter fun k => v.active k).map fun k => (v.whole w.a.toNat k).toNat).sum := by
    rw [← sum_sumWord, List.range_eq_range']
    exact sumWord_treeOver (v.leaf w.a) 7 0
  simpa only [hsum] using reduce_result (f := addMod32) rfl h

theorem fredadd_result {w : VR1} (h : Issues s v (.fredadd w)) : FlaggedResult s v (.fredadd w) w.k w.d fun _ =>
    (TreeOver (Flagged.addStep fmtF32) (v.floatLeaf w.a) 7 0).getD { bits := 0 } := by
  rw [← treeReduce_map_range, ← leaves_plain]
  refine fp_word (exec_fredadd w s) h rfl (fun _ _ _ => rfl) (raised_of_const fun hfl => ?_)
  by_contra hnone
  rw [leaves_plain, treeReduce_map_range, treeOver_eq_none] at hfl
  · exact hfl rfl
  · exact fun j => if_neg fun hj => hnone ⟨j, hj⟩

/-! Scans (R110, R143). -/

theorem iscan_result {w : VR1} (h : Issues s v (.iscan w)) : VectorResult s v (.iscan w) w.k w.d fun j =>
    BitVec.ofNat 32 (((List.range (j + 1)).filter fun k => v.active k).map fun k => (v.whole w.a.toNat k).toNat).sum := by
  refine vector_word (exec_iscan w s) h rfl fun j hj hact => ?_
  rw [scanAt_eq _ hj, leaves_eq]
  refine (congrArg sumWord (scanFrom_getD_of_some _ hj (if_pos hact))).trans ((sumWord_foldl _ _).trans ?_)
  rw [List.map_map, sumWord_none, zero_add, ← sum_sumWord]
  rfl

/-- What FSCAN leaves in a lane: the sum in ascending order of what is active up to it. -/
def View.fscanned (v : View) (c : BitVec 7) (j : Nat) : Flagged :=
  foldFirst (Flagged.addStep fmtF32) { bits := 0 } (((List.range (j + 1)).filter fun k => v.active k).map fun k => { bits := (v.whole c.toNat k).toNat })

theorem getD_foldl_floatLeaf (v : View) (c : BitVec 7) (j : Nat) :
    (((List.range (j + 1)).map (v.floatLeaf c)).foldl (treeNode (Flagged.addStep fmtF32)) none).getD { bits := 0 } = v.fscanned c j :=
  getD_foldl_treeNode ..

theorem scan_flags (v : View) (c : BitVec 7) :
    (scanFrom (Flagged.addStep fmtF32) none ((List.range 128).map (v.floatLeaf c))).foldl (fun f x => f ||| ((x.map Flagged.flags).getD 0)) 0 =
      v.allFlags (v.fscanned c) := by
  rw [scanFrom_map_range, List.foldl_map, View.allFlags, View.lanes, lanesOf, List.foldl_filter]
  congr 1
  funext fl j
  change _ = if v.active j = true then _ else _
  by_cases hact : v.active j = true
  · rw [floatLeaf_of_active hact, if_pos hact]
    rw [← getD_foldl_floatLeaf]
    exact congrArg (fl ||| ·) (Option.getD_map Flagged.flags { bits := 0 } _)
  · rw [floatLeaf_of_inactive hact, if_neg hact]
    exact BitVec.or_zero

theorem fscan_result {w : VR1} (h : Issues s v (.fscan w)) : FlaggedResult s v (.fscan w) w.k w.d (v.fscanned w.a) := by
  refine fp_word (exec_fscan w s) h rfl (fun j hj hact => ?_) fun n => ?_
  · rw [scanAt_eq _ hj, leaves_plain]
    refine (congrArg sumWord ((List.getD_map (f := Option.map Flagged.bits) ..).trans
      (congrArg (Option.map Flagged.bits) (scanFrom_getD_of_some _ hj (floatLeaf_of_active hact))))).trans ?_
    rw [← getD_foldl_floatLeaf]
    exact congrArg (BitVec.ofNat 32) (Option.getD_map Flagged.bits { bits := 0 } _)
  · rw [leaves_plain, scan_flags, allFlags_raised]

/-! Moves and compaction (R142, R144). -/

theorem vrotl_result {w : VR} (h : Issues s v (.vrotl w)) :
    VectorResult s v (.vrotl w) w.k w.d fun j => v.whole w.a.toNat ((j + (v.sc w.b.toNat).toNat) % 128) := by
  simp only [← Nat.add_mod_mod _ (v.sc w.b.toNat).toNat]
  exact execVec_spec (f := fun v j => v.whole w.a.toNat ((j + v.laneArg w.b) % 128)) rfl h

theorem vcompact_result {w : VRP} (h : Issues s v (.vcompact w)) : VectorResult s v (.vcompact w) w.k w.d fun j =>
    match ((List.range 128).filter fun q => v.active q && v.predAt w.p.toNat q)[(List.range j).countP fun k => v.active k]? with
    | some q => v.whole w.a.toNat q
    | none => v.src.v w.d.toNat j := by
  refine vector_word (exec_vcompact w s) h rfl fun j hj _ => ?_
  have hlanes : v.compact w.p.toNat = (List.range 128).filter fun q => v.active q && v.predAt w.p.toNat q := by
    rw [View.compact, View.lanes, lanesOf, List.filter_filter]
    simp only [Bool.and_comm]
    rfl
  rw [tabulate_eq _ _ _ hj, hlanes, rank_eq]

end

end Sys2Proof.Machine

open Sys2Proof Sys2Proof.Machine in
/-- Settles O8: the moves are their shapes; a reduction is the tree over the active lanes and a scan the fold over them, integer sums being sums of words. -/
theorem crossLaneWords : Obligations.CrossLaneWords := by
  refine ⟨?vperm, ?vbcl, ?vrotl, ?vxorl, ?vupl, ?vdnl, ?iredadd, ?iredmin, ?iredmax, ?fredmin, ?fredmax, ?fredadd, ?iscan, ?fscan, ?vcompact⟩
  case vrotl => exact fun _ _ _ => vrotl_result
  case vperm | vbcl | vxorl | vupl | vdnl => exact fun _ _ _ h => execVec_spec rfl h
  case iredadd => exact fun _ _ _ => iredadd_result
  case iredmin | iredmax => exact reduces_of_exec (fun _ _ => rfl) fun a b => if_congr (sle32_iff a b) rfl rfl
  case fredmin | fredmax => exact reduces_of_exec (fun _ _ => rfl) fun _ _ => rfl
  case fredadd => exact fun _ _ _ => fredadd_result
  case iscan => exact fun _ _ _ => iscan_result
  case fscan =>
    refine fun s v w h => (fscan_result h).congr fun j => ?_
    rw [View.fscanned]
    generalize List.map _ _ = l
    cases l <;> rfl
  case vcompact => exact fun _ _ _ => vcompact_result
end

section
/-! SUPPORT. Exchange tokens that meet and fences that are performed (Sys2Proof/Machine/CrossLane.lean, Order.lean: R146 to R148, R255, R256, R306): what
each of their events makes of the waits, the tokens, the first-level cache and the cue unit. -/

namespace Sys2Proof.Machine

theorem event_next {i : Instr} {s : State} {f : Clock → Package → Package} {p : Package} (he : exec i s = s.event f) (h : f s.clk s.pkg = p) :
    exec i s = .next { s with pkg := p } := by
  rw [he, ← h, State.event]

/-! Waits in an exchange (R145 to R147). -/

section
variable {w : Wave} {leader : Nat} {b : Blocked} {x : XchgArgs}

theorem xchgWaiting_of_waits (h : XchgWaits w leader b x) : w.xchgWaiting leader = some x := by
  obtain ⟨op, word, slices, resume, count, late⟩ := b
  obtain ⟨hb, rfl⟩ := h
  rw [Wave.xchgWaiting, hb]

/-- A matched exchange holds the lanes of the other side. -/
theorem blockedAt_matchXchg (h : XchgWaits w leader b x) (lanes : List Word) (act : LaneMask) :
    (w.matchXchg leader lanes act).blockedAt leader = some { b with op := .xchg x (some (lanes, act)) } := by
  obtain ⟨op, word, slices, resume, count, late⟩ := b
  obtain ⟨hb, rfl⟩ := h
  obtain ⟨y, hy, hblocked⟩ := Option.bind_eq_some_iff.1 hb
  simp only [Wave.blockedAt, Wave.matchXchg, modSlice_get?, if_true, hy, hblocked, Option.map_some, Option.bind_some]

end

/-! Tokens that enter a table (R147). -/

/-- The events in which tokens look for their pairs. -/
def matchEvents (l : List Token) : List Due := l.map fun t => { at_ := .now, ev := .vxchgMatch t.src.core t.src.slot t.leader }

theorem tryMatches_eq (p : Package) (l : List Token) : p.tryMatches l = { p with due := p.due ++ matchEvents l } := by
  induction l generalizing p with
  | nil => simp [Package.tryMatches, matchEvents]
  | cons t l ih =>
    change (p.later .now _).tryMatches l = _
    rw [ih]
    simp [Package.later, matchEvents]

theorem keepTokens_eq (p : Package) (keep : Token → Bool) : p.keepTokens keep =
    { p with cores := p.cores.map fun k => (k.keepTokens keep).1,
             due := p.due ++ matchEvents (p.cores.flatMap fun k => (k.keepTokens keep).2) } := tryMatches_eq _ _

theorem wave?_keepTokens (p : Package) (keep : Token → Bool) (c k : Nat) : (p.keepTokens keep).wave? c k = p.wave? c k := by
  rw [keepTokens_eq]
  simp only [Package.wave?, List.getElem?_map]
  cases p.cores[c]? with
  | none => rfl
  | some q =>
    simp only [Option.map_some, Option.bind_some]
    rw [Core.keepTokens, admitTokens_ctx]

theorem company_keepTokens (p : Package) (keep : Token → Bool) (m : Nat) : (p.keepTokens keep).company m = p.company m := by
  rw [keepTokens_eq]
  rfl

theorem waveOf?_keyOf (p : Package) (c k : Nat) : p.waveOf? (p.keyOf c k) = p.wave? c k := if_pos rfl

/-! Tokens that meet (R146, R148). -/

theorem vxchgMatchAt_unmatched {p : Package} {core slot leader : Nat} {w : Wave} {b : Blocked} {x : XchgArgs} (hw : p.wave? core slot = some w)
    (hx : XchgWaits w leader b x) (ht : ∀ t, t ∈ (p.core core).tokens → t.src ≠ x.partner ∨ t.dst ≠ p.keyOf core slot ∨ t.tag ≠ x.tag) (k : Clock) :
    vxchgMatchAt core slot leader k p = p := by
  have hnone : (p.core core).token? x.partner (p.keyOf core slot) x.tag = none :=
    List.find?_eq_none.2 fun t hmem => by
      have hother := ht t hmem
      simp only [Bool.and_eq_true, decide_eq_true_eq]
      tauto
  simp only [vxchgMatchAt, hw, xchgWaiting_of_waits hx, hnone]

/-- Two parties wait in exchanges with each other, and the oldest tokens of both directions, `t1` from the first wave and `t2` from the second, are
theirs. -/
structure TokensMet (p : Package) (core slot leader slot2 leader2 : Nat) (w w2 : Wave) (b b2 : Blocked) (x x2 : XchgArgs) (t1 t2 : Token) : Prop where
  wave : p.wave? core slot = some w
  waits : XchgWaits w leader b x
  wave2 : p.wave? x.partner.core slot2 = some w2
  waits2 : XchgWaits w2 leader2 b2 x2
  apart : ¬ (core = x.partner.core ∧ slot = slot2)
  partner : x.partner = p.keyOf x.partner.core slot2
  back : (p.core core).token? x.partner (p.keyOf core slot) x.tag = some t2
  backLeader : t2.leader = leader2
  forth : (p.core x.partner.core).token? (p.keyOf core slot) x.partner x.tag = some t1
  forthLeader : t1.leader = leader

/-- A package with the lanes of two exchanges moved and their tokens gone. -/
def Package.exchanged (p : Package) (core slot leader slot2 leader2 : Nat) (x x2 : XchgArgs) (t1 t2 : Token) : Package :=
  ((p.modWave core slot fun w => w.matchXchg leader x2.snapshot x2.act).modWave x.partner.core slot2
    fun w => w.matchXchg leader2 x.snapshot x.act).keepTokens fun t => t ≠ t2 && t ≠ t1

theorem company_exchanged (p : Package) (core slot leader slot2 leader2 : Nat) (x x2 : XchgArgs) (t1 t2 : Token) (m : Nat) :
    (p.exchanged core slot leader slot2 leader2 x x2 t1 t2).company m = p.company m := company_keepTokens ..

theorem cycleFrom_exchanged (p : Package) (core slot leader slot2 leader2 : Nat) (x x2 : XchgArgs) (t1 t2 : Token) (k : Clock) (m : Nat) :
    k.cycleFrom (p.exchanged core slot leader slot2 leader2 x x2 t1 t2) m = k.cycleFrom p m := by
  rw [Clock.cycleFrom, Clock.cycleFrom, company_exchanged]

theorem due_exchanged (p : Package) (core slot leader slot2 leader2 : Nat) (x x2 : XchgArgs) (t1 t2 : Token) :
    ∃ l, (p.exchanged core slot leader slot2 leader2 x x2 t1 t2).due = p.due ++ matchEvents l :=
  ⟨_, congrArg Package.due (keepTokens_eq _ _)⟩

/-- The oldest token of a direction is one of that direction. -/
theorem src_of_token? {c : Core} {src dst : WaveKey} {tag : Nat} {t : Token} (h : c.token? src dst tag = some t) : t.src = src := by
  have hfound := List.find?_some h
  simp only [Bool.and_eq_true, decide_eq_true_eq] at hfound
  obtain ⟨⟨hsrc, -⟩, -⟩ := hfound
  exact hsrc

section
variable {p : Package} {core slot leader slot2 leader2 : Nat} {w w2 : Wave} {b b2 : Blocked} {x x2 : XchgArgs} {t1 t2 : Token}
  (h : TokensMet p core slot leader slot2 leader2 w w2 b b2 x x2 t1 t2)
include h

theorem TokensMet.slot2_eq : t2.src.slot = slot2 := by
  rw [src_of_token? h.back, h.partner]
  rfl

theorem TokensMet.partner_wave : p.waveOf? x.partner = some w2 := by
  rw [h.partner, waveOf?_keyOf, h.wave2]

theorem vxchgMatchAt_of_met (k : Clock) :
    vxchgMatchAt core slot leader k p =
      let q := p.exchanged core slot leader slot2 leader2 x x2 t1 t2
      let n := (p.company (companyOf core)).level
      let n2 := (p.company (companyOf x.partner.core)).level
      let hops := hopsBetween core x.partner.core
      (q.later (.company (companyOf core) (k.cycleFrom q (companyOf core) + xchgLatency n n2 hops)) (.vxchgComplete core slot leader)).later
        (.company (companyOf x.partner.core) (k.cycleFrom q (companyOf x.partner.core) + xchgLatency n2 n hops))
        (.vxchgComplete x.partner.core slot2 leader2) := by
  simp only [vxchgMatchAt, h.wave, xchgWaiting_of_waits h.waits, h.back, h.forth, h.forthLeader, h.backLeader, h.partner_wave, Option.bind_some,
    xchgWaiting_of_waits h.waits2, h.slot2_eq, Package.exchanged]

theorem TokensMet.wave_exchanged :
    (p.exchanged core slot leader slot2 leader2 x x2 t1 t2).wave? core slot = some (w.matchXchg leader x2.snapshot x2.act) := by
  rw [Package.exchanged, wave?_keepTokens, wave?_modWave, if_neg h.apart, wave?_modWave, if_pos ⟨rfl, rfl⟩, h.wave]
  rfl

theorem TokensMet.wave2_exchanged :
    (p.exchanged core slot leader slot2 leader2 x x2 t1 t2).wave? x.partner.core slot2 = some (w2.matchXchg leader2 x.snapshot x.act) := by
  have hapart : ¬ (x.partner.core = core ∧ slot2 = slot) := fun he => h.apart ⟨he.1.symm, he.2.symm⟩
  rw [Package.exchanged, wave?_keepTokens, wave?_modWave, if_pos ⟨rfl, rfl⟩, wave?_modWave, if_neg hapart, h.wave2]
  rfl

end

theorem mem_matchEvents {l : List Token} {d : Due} (h : d ∈ matchEvents l) : ∃ c i j, d = { at_ := .now, ev := .vxchgMatch c i j } := by
  obtain ⟨t, -, rfl⟩ := List.mem_map.1 h
  exact ⟨_, _, _, rfl⟩

/-! The end of a fence (R255, R256, R306). -/

section
variable {w : Wave} {f : Fence} {t : Nat}

/-- What a release waits for, by its scope (Table 13.3). -/
theorem releaseDone_iff : w.releaseDone f t = true ↔
    w.uncommitted false = false ∧ (f.scope = 0 ∨ (f.scope < 3 ∧ w.outst = 0)
      ∨ (3 ≤ f.scope ∧ w.outl = 0 ∧ f.stages = 0 ∧ f.ready ≤ t ∧ (3 < f.scope → w.hostOut = 0))) := by
  rw [Wave.releaseDone, Bool.and_eq_true, Bool.not_eq_true']
  refine and_congr_right fun _ => ?_
  rcases f.scope with _ | _ | _ | _ | n <;> simp [and_assoc]

theorem releases_eq_false_iff : f.kind.releases = false ↔ f.kind = .acq := by
  cases f.kind <;> simp [FenceKind.releases]

theorem acquires_iff : f.kind.acquires = true ↔ f.kind ≠ .rel := by
  cases f.kind <;> simp [FenceKind.acquires]

theorem fenceDone_iff (hf : w.fence = some f) : w.fenceDone t = true ↔ FenceOver w f t := by
  rw [Wave.fenceDone, hf, FenceOver]
  simp only [Bool.and_eq_true, Bool.or_eq_true, Bool.not_eq_true', releases_eq_false_iff, releaseDone_iff, List.isEmpty_iff, and_assoc]
  exact and_congr_right fun _ => and_comm

end

theorem l1Clear_rest (p : Package) (core : Nat) :
    p.l1Clear core = { p with cores := (p.l1Clear core).cores, companies := (p.l1Clear core).companies, stage := (p.l1Clear core).stage } := rfl

/-- Cancelled fills change replies of the core, and nothing of its L1. -/
theorem cores_cancelFills (p : Package) (core : Nat) (test : Nat → Bool) :
    ∃ f : Core → Core, (p.cancelFills core test).cores = (p.modCore core f).cores ∧ ∀ c, (f c).l1 = c.l1 := ⟨_, rfl, fun _ => rfl⟩

theorem l1_l1Clear {p : Package} {core : Nat} (h : core < p.cores.length) : ((p.l1Clear core).core core).l1 = [] := by
  obtain ⟨f, hcores, hl1⟩ := cores_cancelFills (p.modCore core fun c => { c with l1 := [] }) core fun _ => true
  have hcore : (p.l1Clear core).core core = f { p.core core with l1 := [] } := by
    rw [← core_modCore_self p core (fun c => { c with l1 := [] }) h, ← core_modCore_self _ _ f (by rwa [cores_modCore])]
    exact congrArg (·.getD core {}) hcores
  rw [hcore, hl1]

/-- An L1 that is emptied leaves every other core and the waves of its own. -/
theorem like_l1Clear {p : Package} {core slot : Nat} {w : Wave} (h : p.wave? core slot = some w) : Like core slot p (p.l1Clear core) w :=
  ((Like.refl h).modCore _ fun _ => rfl).cancel _

/-- The package of a fence that is over, before its wave goes on: an acquire at company scope or wider has emptied the L1 of its core. -/
def Package.afterFence (p : Package) (core : Nat) (f : Fence) : Package := if f.kind.acquires && 1 ≤ f.scope then p.l1Clear core else p

/-- A wave whose CUEEMIT has its release performed. -/
def Wave.cueReleased (w : Wave) : Wave :=
  { w with
    fence := none
    slices := w.slices.map fun s => { s with blocked := s.blocked.map fun b => match b.op with
      | .cueemit node rec_ dest _ => { b with op := .cueemit node rec_ dest true }
      | _ => b } }

section
variable {p : Package} {core slot : Nat} {w : Wave} {f : Fence} (hw : p.wave? core slot = some w)
include hw

theorem wave?_afterFence : (p.afterFence core f).wave? core slot = some w := by
  rw [Package.afterFence]
  split
  · exact (like_l1Clear hw).wave
  · exact hw

theorem fencePerformedAt_no_fence (hf : w.fence = none) (k : Clock) : fencePerformedAt core slot k p = p := by
  simp only [fencePerformedAt, hw, hf]

theorem fencePerformedAt_not_over {k : Clock} (hf : w.fence = some f) (hover : ¬ FenceOver w f k.mcyc) : fencePerformedAt core slot k p = p := by
  have hdone : w.fenceDone k.mcyc = false := Bool.eq_false_iff.2 fun h => hover ((fenceDone_iff hf).1 h)
  simp only [fencePerformedAt, hw, hf, hdone, Bool.not_false, if_true]

theorem fencePerformedAt_word {k : Clock} (hf : w.fence = some f) (hover : FenceOver w f k.mcyc) (himp : f.implied = false) :
    fencePerformedAt core slot k p = (p.afterFence core f).modWave core slot fun _ => { w with fence := none } := by
  rw [← modWave_const _ _ _ _ (fun w => { w with fence := none }) (wave?_afterFence hw)]
  simp only [fencePerformedAt, hw, hf, (fenceDone_iff hf).2 hover, himp, Bool.not_true, Bool.false_eq_true, if_false]
  rfl

theorem fencePerformedAt_cue {k : Clock} (hf : w.fence = some f) (hover : FenceOver w f k.mcyc) (himp : f.implied = true) (hrel : f.kind = .rel) :
    fencePerformedAt core slot k p = (p.modWave core slot Wave.cueReleased).sendCue k core slot := by
  simp only [fencePerformedAt, hw, hf, (fenceDone_iff hf).2 hover, himp, hrel, FenceKind.acquires, Bool.false_and, Bool.not_true, Bool.false_eq_true,
    if_false, if_true]
  rfl

/-- What a fence that is over has done before its wave goes on. -/
theorem afterFence_spec : if f.kind ≠ .rel ∧ 1 ≤ f.scope then
      p.afterFence core f = { p with cores := (p.afterFence core f).cores, companies := (p.afterFence core f).companies, stage := (p.afterFence core f).stage }
        ∧ ((p.afterFence core f).core core).l1 = [] ∧ ∀ c, c ≠ core → (p.afterFence core f).core c = p.core c
    else p.afterFence core f = p := by
  have hcond : (f.kind.acquires && decide (1 ≤ f.scope)) = true ↔ f.kind ≠ .rel ∧ 1 ≤ f.scope := by
    rw [Bool.and_eq_true, acquires_iff, decide_eq_true_eq]
  split
  · next hacq =>
    rw [Package.afterFence, if_pos (hcond.2 hacq)]
    exact ⟨l1Clear_rest p core, l1_l1Clear (core_lt_of_wave? hw), (like_l1Clear hw).cores⟩
  · next hacq => exact if_neg (mt hcond.1 hacq)

end

/-! The record of a CUEEMIT whose release has been performed (R306). -/

theorem party_cueReleased (w : Wave) (l : Nat) : w.cueReleased.party l = w.party l :=
  party_slices w { w with slices := w.cueReleased.slices } l ⟨rfl, List.length_map _, fun k x y hx hy => by
    simp only [Wave.cueReleased, List.getElem?_map, hx, Option.map_some, Option.some.injEq] at hy
    subst hy
    exact ⟨rfl, rfl⟩⟩

theorem sole_cueReleased (w : Wave) : w.cueReleased.sole = w.sole := by
  simp only [Wave.sole, Wave.leaders, party_cueReleased]

section
variable {p : Package} {core slot : Nat} {w : Wave} {c : Cast} {b : Blocked} {node : Quad} {rec_ : List Byte} {d : Nat} {sent : Bool}

theorem blockedAt_cueReleased {l : Nat} (hb : w.blockedAt l = some b) (ho : b.op = .cueemit node rec_ d sent) :
    w.cueReleased.blockedAt l = some { b with op := .cueemit node rec_ d true } := by
  obtain ⟨y, hy, hblocked⟩ := Option.bind_eq_some_iff.1 hb
  simp only [Wave.blockedAt, Wave.cueReleased, List.getElem?_map, hy, hblocked, ho, Option.map_some, Option.bind_some]

theorem sendCue_of_wave (hw : p.wave? core slot = some w) (hb : w.blockedAt w.sole = some b) (ho : b.op = .cueemit node rec_ d sent)
    (hc : p.cast? core w.cast = some c) (k : Clock) : p.sendCue k core slot =
      { p with
        cueIn := p.cueIn ++ [(k.mcyc + p.transit core, .emit (p.keyOf core slot) w.sole c.partition c.node node rec_ c.launchKey)]
        due := p.due ++ [{ at_ := .mesh (k.mcyc + p.transit core), ev := .cueAppend }] } := by
  obtain ⟨op, word, slices, resume, count, late⟩ := b
  obtain rfl : op = .cueemit node rec_ d sent := ho
  simp only [Package.sendCue, hw, hb, hc]
  rfl

/-- A release before a CUEEMIT that is over sends the record (R306). -/
theorem fencePerformedAt_sends {k : Clock} {f : Fence} (hw : p.wave? core slot = some w) (hf : w.fence = some f) (hover : FenceOver w f k.mcyc)
    (himp : f.implied = true) (hrel : f.kind = .rel) (hb : w.blockedAt w.sole = some b) (ho : b.op = .cueemit node rec_ d sent)
    (hc : p.cast? core w.cast = some c) :
    (fencePerformedAt core slot k p).wave? core slot = some w.cueReleased
      ∧ (fencePerformedAt core slot k p).cueIn =
        p.cueIn ++ [(k.mcyc + p.transit core, .emit (p.keyOf core slot) w.sole c.partition c.node node rec_ c.launchKey)] := by
  have hwave : (p.modWave core slot Wave.cueReleased).wave? core slot = some w.cueReleased := by
    rw [wave?_modWave, if_pos ⟨rfl, rfl⟩, hw]
    rfl
  have hblocked := blockedAt_cueReleased hb ho
  rw [← sole_cueReleased] at hblocked
  have hcast : (p.modWave core slot Wave.cueReleased).cast? core w.cueReleased.cast = some c := (cast?_modWave ..).trans hc
  rw [fencePerformedAt_cue hw hf hover himp hrel, sendCue_of_wave hwave hblocked rfl hcast]
  refine ⟨hwave, ?_⟩
  dsimp only
  rw [((Like.refl hw).modWave Wave.cueReleased).key hw rfl rfl, sole_cueReleased]
  rfl

end

end Sys2Proof.Machine

open Sys2Proof Sys2Proof.Machine in
/-- Settles O36: an exchange without the partner's token stays as it is, tokens that have met move the lanes of both sides, and a fence changes nothing
until its conditions hold; then the L1 is emptied or the record is sent as its kind says. -/
theorem meetingEvents : Obligations.MeetingEvents := by
  refine ⟨?unmatched, ?met, ?fence⟩
  case unmatched =>
    intro s core slot leader w b x hw hx ht
    exact event_next rfl (vxchgMatchAt_unmatched hw hx ht s.clk)
  case met =>
    intro s core slot leader slot2 leader2 w w2 b b2 x x2 t1 t2 core2 hw hx hw2 hx2 hapart hpartner hback hl2 hforth hl1
    have hmet : TokensMet s.pkg core slot leader slot2 leader2 w w2 b b2 x x2 t1 t2 :=
      ⟨hw, hx, hw2, hx2, hapart, hpartner, hback, hl2, hforth, hl1⟩
    obtain ⟨l, hdue⟩ := due_exchanged s.pkg core slot leader slot2 leader2 x x2 t1 t2
    refine ⟨_, _, _, matchEvents l, event_next rfl (vxchgMatchAt_of_met hmet s.clk), hmet.wave_exchanged,
      hmet.wave2_exchanged, blockedAt_matchXchg hx _ _, blockedAt_matchXchg hx2 _ _, fun d => mem_matchEvents, ?_⟩
    simp only [Package.later, hdue, cycleFrom_exchanged, List.append_assoc]
    rfl
  case fence =>
    intro s core slot w hw
    refine ⟨?noFence, ?notOver, ?word, ?cue⟩
    case noFence => exact fun hf => event_next rfl (fencePerformedAt_no_fence hw hf s.clk)
    case notOver => exact fun f hf hover => event_next rfl (fencePerformedAt_not_over hw hf hover)
    case word => exact fun f hf hover himp => ⟨_, event_next rfl (fencePerformedAt_word hw hf hover himp), afterFence_spec hw⟩
    case cue =>
      intro f b c node rec_ d sent hf hover himp hrel hb ho hc
      obtain ⟨hwave, hcue⟩ := fencePerformedAt_sends hw hf hover himp hrel hb ho hc
      exact ⟨_, _, event_next rfl rfl, hwave, rfl, hcue⟩
end

section
/-! SUPPORT. What MMA and MMAZ make of an accumulator block (Sys2Proof/Machine/Matrix.lean: R172, R174, R177). -/

namespace Sys2Proof.Machine

/-! Block registers (R174). -/

/-- Elements of a list replaced one after another from a place on: each changes once, the others stay. -/
theorem foldl_modAt_range {α : Type} (g : Nat → α → α) (a t : Nat) (l : List α) (r : Nat) :
    ((List.range t).foldl (fun l k => modAt l (a + k) (g k)) l)[r]? = if a ≤ r ∧ r < a + t then l[r]?.map (g (r - a)) else l[r]? := by
  induction t with
  | zero => rw [if_neg (by omega)]; rfl
  | succ t ih =>
    rw [List.range_succ, List.foldl_append, List.foldl_cons, List.foldl_nil, modAt_get?, ih]
    by_cases hr : r = a + t
    · subst hr
      rw [if_pos rfl, if_neg (by omega), if_pos (by omega), Nat.add_sub_cancel_left]
    · rw [if_neg hr]
      exact if_congr (by omega) rfl rfl

/-- Only vector registers of a wave change with a block. -/
theorem setBlock_eq (w : Wave) (acc m n : Nat) (f : Nat → Nat → Word → Word) : w.setBlock acc m n f =
    { w with vregs := (List.range (m / 8 * (n / 16))).foldl (fun l k => modAt l (acc + k) (blockReg n k f)) w.vregs } :=
  List.foldl_hom (f := fun l => ({ w with vregs := l } : Wave)) fun _ _ => rfl

theorem blockReg_getD (n k : Nat) (f : Nat → Nat → Word → Word) (old : List Word) {l : Nat} (hl : l < 128) :
    (blockReg n k f old).getD l 0 = f (outputOf n k l).1 (outputOf n k l).2 (old.getD l 0) := by
  simp [blockReg, List.getD_eq_getElem?_getD, hl]

theorem v_setBlock (w : Wave) (acc m n : Nat) (f : Nat → Nat → Word → Word) {r l : Nat} (hr : r < w.vregs.length) (hl : l < 128) :
    (w.setBlock acc m n f).v r l = if acc ≤ r ∧ r < acc + m / 8 * (n / 16)
      then f (outputOf n (r - acc) l).1 (outputOf n (r - acc) l).2 (w.v r l) else w.v r l := by
  simp only [Wave.v, setBlock_eq, List.getD_eq_getElem?_getD (l := List.foldl ..), foldl_modAt_range]
  split
  · rw [List.getElem?_eq_getElem hr, Option.map_some, Option.getD_some, blockReg_getD _ _ _ _ hl, List.getD_eq_getElem _ _ hr]
  · simp only [List.getD_eq_getElem?_getD]

/-- A register of the block holds results that the tiles have a row and a column for. -/
theorem outputOf_lt {m n k l : Nat} (hm : m % 8 = 0) (hn : n % 16 = 0) (hk : k < m / 8 * (n / 16)) (hl : l < 128) :
    (outputOf n k l).1 < m ∧ (outputOf n k l).2 < n := by
  have hpos : 0 < n / 16 := Nat.pos_of_mul_pos_left (Nat.zero_lt_of_lt hk)
  have hrow : k / (n / 16) < m / 8 := (Nat.div_lt_iff_lt_mul hpos).2 hk
  have hcol : k % (n / 16) < n / 16 := Nat.mod_lt _ hpos
  simp only [outputOf]
  omega

/-! Rows of a tile (R172). -/

theorem take_drop_readList (m : Memory) (a : Nat) {d k n : Nat} (h : d + k ≤ n) :
    ((Memory.readList m a n).drop d).take k = Memory.readList m (a + d) k := by
  simp only [Memory.readList, ← List.map_drop, ← List.map_take]
  apply List.ext_getElem
  · simp; omega
  · intro i _ _
    simp [Nat.add_assoc]

theorem tileRow_eq (x : CoreCtx) (c : Cast) (t : Quad) (r : Nat) :
    x.tileRow c t r = (List.range (64 / fmtSize (bits t.toNat 15 3))).map (TileElement x c t r) := by
  refine List.map_congr_left fun k hk => ?_
  rw [List.mem_range, tileFmt] at hk
  have hfit : k * fmtSize (tileFmt t) + fmtSize (tileFmt t) ≤ 64 := by
    rw [← Nat.succ_mul]
    exact Nat.mul_le_of_le_div _ _ _ hk
  rw [CoreCtx.spRead, take_drop_readList _ _ hfit]
  simp only [TileElement, Cast.spPlace, tileRowAt, tileRowAt.tileBase', tileFmt, Nat.add_assoc]

theorem getD_tileRowsOf (x : CoreCtx) (c : Cast) (t : Quad) {r : Nat} (hr : r < tileRows t) : (x.tileRowsOf c t).getD r [] = x.tileRow c t r := by
  simp [CoreCtx.tileRowsOf, List.getD_eq_getElem?_getD, hr]

/-! Poison. -/

/-- A row takes four granules from its first on. -/
theorem mem_granulesOf_row {t : Quad} {r g : Nat} (h : g ∈ granulesOf (tileRowAt t r) 64) :
    ∃ i, i < 4 ∧ g = bits t.toNat 0 15 + bits t.toNat 32 10 * r + i := by
  simp only [granulesOf, tileRowAt, tileRowAt.tileBase', if_neg (show ¬ 64 = 0 by decide), List.mem_map, List.mem_range, Nat.mul_assoc] at h
  obtain ⟨i, hi, rfl⟩ := h
  exact ⟨i, by omega, by omega⟩

theorem rowPoisoned_of_clean {x : CoreCtx} {c : Cast} {t : Quad} (h : TileClean x c t) {r : Nat} (hr : r < tileRows t) : x.rowPoisoned c t r = false := by
  rw [CoreCtx.rowPoisoned, List.any_eq_false]
  intro g hg
  obtain ⟨i, hi, rfl⟩ := mem_granulesOf_row hg
  simpa [CoreCtx.poisoned] using h r i (Nat.le_of_lt_succ hr) hi

theorem map_badRow_of_clean {x : CoreCtx} {c : Cast} {t : Quad} (h : TileClean x c t) :
    ((List.range (tileRows t)).map fun r => x.rowPoisoned c t r || (false && x.scalePoisoned c t r)) = List.replicate (tileRows t) false := by
  refine List.eq_replicate_iff.2 ⟨by simp, fun b hb => ?_⟩
  obtain ⟨r, hr, rfl⟩ := List.mem_map.1 hb
  rw [rowPoisoned_of_clean h (List.mem_range.1 hr)]
  rfl

section
variable {x : CoreCtx} {c : Cast} {ta tb : Quad}

theorem mmaIn_badA (ha : TileClean x c ta) : (x.mmaIn c ta tb false).badA = List.replicate (tileRows ta) false := map_badRow_of_clean ha

theorem mmaIn_badB (hb : TileClean x c tb) : (x.mmaIn c ta tb false).badB = List.replicate (tileRows tb) false := map_badRow_of_clean hb

theorem mmaIn_clean (ha : TileClean x c ta) (hb : TileClean x c tb) (i j : Nat) : (x.mmaIn c ta tb false).clean i j = true := by
  simp [MmaIn.clean, mmaIn_badA ha, mmaIn_badB hb]

theorem mmaIn_poison (ha : TileClean x c ta) (hb : TileClean x c tb) (w : Wave) : (x.mmaIn c ta tb false).poison ta w = w := by
  simp [MmaIn.poison, mmaIn_badA ha, mmaIn_badB hb]

end

/-! The sum of products (R177). -/

@[simp] theorem mmaIn_m (x : CoreCtx) (c : Cast) (ta tb : Quad) (scales : Bool) : (x.mmaIn c ta tb scales).m = tileRows ta := rfl
@[simp] theorem mmaIn_n (x : CoreCtx) (c : Cast) (ta tb : Quad) (scales : Bool) : (x.mmaIn c ta tb scales).n = tileRows tb := rfl

/-- The running sum does not depend on the flags raised along the way. -/
theorem mmaDot_eq (fa fb : Fmt) (c : Nat) (a b : List Nat) :
    mmaDot fa fb c a b = (a.zip b).foldl (fun acc p => (fmtF32.dotStep fa fb acc p.1 p.2).bits) c :=
  (List.foldl_hom (f := Flagged.bits) fun _ _ => rfl).symm

theorem mmaIn_sum (x : CoreCtx) (c : Cast) {ta tb : Quad} (hs : fmtSize (bits ta.toNat 15 3) = fmtSize (bits tb.toNat 15 3)) {i j : Nat}
    (hi : i < tileRows ta) (hj : j < tileRows tb) (old : Nat) : (x.mmaIn c ta tb false).sum i j old = MatrixSum x c ta tb i j old := by
  simp only [MmaIn.sum, CoreCtx.mmaIn, getD_tileRowsOf x c ta hi, getD_tileRowsOf x c tb hj, tileRow_eq, ← hs, mmaDot_eq, List.zip_map',
    List.foldl_map]
  rfl

/-! The wave of a command. -/

/-- MMA and MMAZ on clean tiles: the sum in each register of the block, from the old value or from +0. -/
theorem v_runMma {x : CoreCtx} {c : Cast} {ta tb : Quad} (hm : tileRows ta % 8 = 0) (hn : tileRows tb % 16 = 0)
    (hs : fmtSize (bits ta.toNat 15 3) = fmtSize (bits tb.toNat 15 3)) (ha : TileClean x c ta) (hb : TileClean x c tb) (w : Wave) (acc : Nat)
    (zero : Bool) {r l : Nat} (hr : r < w.vregs.length) (hl : l < 128) :
    (w.runMma (x.mmaIn c ta tb false) acc zero).v r l = if acc ≤ r ∧ r < acc + tileRows ta / 8 * (tileRows tb / 16)
      then BitVec.ofNat 32 (MatrixSum x c ta tb (outputOf (tileRows tb) (r - acc) l).1 (outputOf (tileRows tb) (r - acc) l).2
        (if zero then 0 else (w.v r l).toNat))
      else w.v r l := by
  rw [Wave.runMma, v_setBlock w acc _ _ _ hr hl, mmaIn_m, mmaIn_n]
  refine ite_congr rfl (fun hin => ?_) fun _ => rfl
  obtain ⟨hi, hj⟩ := outputOf_lt hm hn (show r - acc < tileRows ta / 8 * (tileRows tb / 16) by omega) hl
  rw [if_pos (mmaIn_clean ha hb _ _), mmaIn_sum x c hs hi hj]

theorem runMma_rest (w : Wave) (q : MmaIn) (acc : Nat) (zero : Bool) : w.runMma q acc zero = { w with vregs := (w.runMma q acc zero).vregs } := by
  rw [Wave.runMma, setBlock_eq]

/-- MMA and MMAZ change the vector registers of their wave, and nothing else where the tiles are clean. -/
theorem runCmd_mma {x seen : CoreCtx} {w : Wave} {c : Cast} {cmd : MmCmd} (hk : cmd.kind = .mma ∨ cmd.kind = .mmaz)
    (ha : TileClean seen c cmd.ta) (hb : TileClean seen c cmd.tb) :
    x.runCmd seen w c cmd = .ok (x, w.runMma (seen.mmaIn c cmd.ta cmd.tb false) cmd.acc (decide (cmd.kind ≠ .mma)), []) := by
  rcases hk with hk | hk <;> simp [CoreCtx.runCmd, hk, mmaIn_poison ha hb]

theorem wave?_setWave {p : Package} {core slot : Nat} {w : Wave} (h : p.wave? core slot = some w) (u : Wave) :
    (p.modCtx core fun _ => { (p.core core).ctx with waves := setAt (p.core core).ctx.waves slot (some u) }).wave? core slot = some u := by
  simp only [Package.wave?, Option.join_eq_some_iff, Option.bind_eq_some_iff] at h
  obtain ⟨k, hk, hs⟩ := h
  have hcore : p.core core = k := by rw [Package.core, List.getD_eq_getElem?_getD, hk]; rfl
  simp [Package.wave?, Package.modCtx, Package.modCore, modAt_get?, setAt, hk, hcore, hs]

/-- A command that the array performs leaves its wave as the command makes it. -/
theorem takeCommand_wave {p : Package} {core : Nat} {cmd : MmCmd} {w u : Wave} {c : Cast} {out : List Byte} (hkey : cmd.key.core = core)
    (hw : p.waveOf? cmd.key = some w) (hc : p.cast? core w.cast = some c)
    (hr : (p.core core).ctx.runCmd (p.core core).arrayView w c cmd = .ok ((p.core core).ctx, u, out)) (cyc : Nat) :
    (p.takeCommand core cyc cmd).wave? core cmd.key.slot = some u := by
  have hset := wave?_setWave (hkey ▸ wave?_of_waveOf? hw) u
  simp only [Package.takeCommand, hw, hc, hr]
  split
  · exact hset
  · exact (wave?_modCore (f := fun k => { k with arrayQ := k.arrayQ ++ _ }) (fun _ => rfl) _ core core cmd.key.slot).trans hset

end Sys2Proof.Machine

open Sys2Proof Sys2Proof.Machine in
/-- Settles O28: the array performs the command on the clean tiles that it sees, and each register of the block takes the sum of its row and column. -/
theorem matrixProducts : Obligations.MatrixProducts := by
  intro p core cyc cmd w c hk hkey hw hc x m n hm hn _ _ hs ha hb
  refine ⟨_, takeCommand_wave hkey hw hc (runCmd_mma hk ha hb) cyc, runMma_rest .., fun r l hr hl => ?_⟩
  rw [v_runMma hm hn hs ha hb w _ _ hr hl]
  simp only [decide_not, Bool.not_eq_true', decide_eq_false_iff_not, ite_not]
  rfl
end

section
/-! SUPPORT. The company walker (Sys2Proof/Machine/Address.lean: R342 to R347, Table 19.1): where an entry lies and what it says, and what PAGE_WALK and
WALK_COMPLETE make of the oldest walk. -/

namespace Sys2Proof.Machine

theorem exec_pageWalk (m : Nat) (s : State) : exec (.pageWalk m) s = .next { s with pkg := pageWalkAt m s.clk s.pkg } := rfl

theorem exec_walkComplete (m : Nat) (s : State) : exec (.walkComplete m) s = .next { s with pkg := walkCompleteAt m s.clk s.pkg } := rfl

/-! What an access of a slice leaves alone. -/

/-- Beside DRAM, the vaults, what the slices hold, the error counters and the events that are due, the package is as before. -/
structure SlicesOnly (p q : Package) : Prop where
  rest : q = { p with companies := q.companies, vaults := q.vaults, dram := q.dram, dramPoison := q.dramPoison, dramErr := q.dramErr,
                      errors := q.errors, due := q.due }
  ncompanies : q.companies.length = p.companies.length
  company : ∀ m, q.company m = { p.company m with l2 := (q.company m).l2 }

theorem SlicesOnly.refl (p : Package) : SlicesOnly p p := ⟨rfl, rfl, fun _ => rfl⟩

theorem SlicesOnly.trans {p q r : Package} (h1 : SlicesOnly p q) (h2 : SlicesOnly q r) : SlicesOnly p r := by
  refine ⟨?_, h2.ncompanies.trans h1.ncompanies, fun m => ?_⟩
  · have h := h2.rest
    rw [h1.rest] at h
    exact h
  · have h := h2.company m
    rw [h1.company m] at h
    exact h

/-- A change that leaves every company as it is. -/
theorem SlicesOnly.of_companies {p q : Package} (h : q = { p with vaults := q.vaults, dram := q.dram, dramPoison := q.dramPoison, dramErr := q.dramErr, errors := q.errors, due := q.due }) :
    SlicesOnly p q := by
  have hc : q.companies = p.companies := by rw [h]
  refine ⟨?_, by rw [hc], fun m => ?_⟩
  · rw [hc]; exact h
  · simp only [Package.company, hc]

theorem SlicesOnly.ite {p q r : Package} {c : Prop} [Decidable c] (h1 : SlicesOnly p q) (h2 : SlicesOnly p r) : SlicesOnly p (if c then q else r) := by
  split
  · exact h1
  · exact h2

theorem SlicesOnly.foldl {α : Type} {f : Package → α → Package} (h : ∀ p a, SlicesOnly p (f p a)) (l : List α) (p : Package) : SlicesOnly p (l.foldl f p) :=
  List.foldlRecOn (motive := SlicesOnly p) l f (.refl p) fun q hq a _ => hq.trans (h q a)

theorem SlicesOnly.setL2 (p : Package) (m : Nat) (f : Company → List CacheSet) : SlicesOnly p (p.modCompany m fun c => { c with l2 := f c }) := by
  refine ⟨rfl, modAt_length .., fun n => ?_⟩
  by_cases hn : n = m
  · subst hn
    by_cases hlt : n < p.companies.length
    · rw [company_modCompany_self _ _ _ hlt]
    · simp [Package.company, Package.modCompany, List.getD_eq_getElem?_getD, modAt_get?, List.getElem?_eq_none (Nat.le_of_not_lt hlt)]
  · rw [company_modCompany_ne _ _ _ _ hn]

theorem SlicesOnly.later (p : Package) (t : DueAt) (e : Instr) : SlicesOnly p (p.later t e) := .of_companies rfl

theorem SlicesOnly.writeBack (p : Package) (part : Nat) (x : Line) : SlicesOnly p (p.writeBack part x) := by
  have sector (q : Package) (h : Nat) : SlicesOnly q (q.writeSector x h) := .of_companies rfl
  have queue (q : Package) : SlicesOnly q (q.queueWrite part x) := .ite (.refl q) (.of_companies rfl)
  exact ((SlicesOnly.ite (sector p 0) (.refl p)).trans (.ite (sector _ 1) (.refl _))).trans (queue _)

theorem SlicesOnly.decodeBlock (p : Package) (part sector : Nat) : SlicesOnly p (p.decodeBlock part sector) := by
  have count (i m : Nat) : SlicesOnly p (p.count i m) := .of_companies rfl
  unfold Package.decodeBlock
  dsimp only
  split
  · exact .refl p
  · exact count ..
  · exact (count ..).trans (.ite (.later ..) (.refl _))

theorem SlicesOnly.touchLine (p : Package) (part line : Nat) : SlicesOnly p (p.touchLine part line) := by
  unfold Package.touchLine
  dsimp only
  split
  · exact .ite (.setL2 ..) (.refl p)
  · refine .ite (.refl p) (SlicesOnly.trans ?_ (.setL2 ..))
    have hd := (SlicesOnly.decodeBlock p part (sectorOf line 0)).trans (.decodeBlock _ part (sectorOf line 1))
    split
    · exact hd.trans (.writeBack ..)
    · exact hd

theorem SlicesOnly.walks {p q : Package} (h : SlicesOnly p q) (m : Nat) : (q.company m).walks = (p.company m).walks := by rw [h.company m]

/-! The entry of a level (R342, R343). -/

theorem placeOf_entry (p : Package) (table : Nat) (va : Quad) (lev : Nat) : p.placeOf (table + 8 * levelIndex va lev) = EntryPlace p table va lev :=
  match lev with
  | 0 | 1 | 2 | _ + 3 => rfl

theorem walkWay_eq (p : Package) (m table : Nat) (va : Quad) (lev : Nat) : p.walkWay m table lev va = EntryWay p m table va lev := by
  rw [Package.walkWay, placeOf_entry]
  rfl

theorem entryWay_none {p : Package} {table lev : Nat} {va : Quad} (h : EntryPlace p table va lev = none) (m : Nat) : EntryWay p m table va lev = 0 := by
  rw [EntryWay, h]

theorem leafSize_eq (lev : Nat) : leafSize lev = if lev = 0 then 16 else if lev = 1 then 21 else 30 :=
  match lev with
  | 0 | 1 | _ + 2 => rfl

theorem tableBytes_below {lev : Nat} (hlev : lev ≤ 3) : lev ≠ 0 → tableBytes (lev - 1) = if lev = 1 then 256 else if lev = 2 then 4096 else 4096 := by
  rcases lev with _ | _ | _ | _ | n
  · exact fun h => absurd rfl h
  · exact fun _ => rfl
  · exact fun _ => rfl
  · exact fun _ => rfl
  · omega

theorem bit_eq_zero_or_one (x lo : Nat) : bits x lo 1 = 0 ∨ bits x lo 1 = 1 := Nat.mod_two_eq_zero_or_one _

section
variable (p : Package) (part : Nat) (va : Quad) (write fetch : Bool) {lev e : Nat}

theorem pteStep_absent (h : bits e 0 1 = 0) :
    p.pteStep part va write fetch lev e = .stop (if bits e 4 1 = 1 ∧ lev ≠ 0 then .access else .page) := by
  by_cases hc : bits e 4 1 = 1 ∧ lev ≠ 0 <;> simp [Package.pteStep, h, hc]

theorem pteStep_reserved (h : bits e 0 1 = 1) (hr : bits e 48 16 ≠ 0 ∨ bits e 5 3 ≠ 0) : p.pteStep part va write fetch lev e = .stop .access := by
  simp [Package.pteStep, h, hr]

theorem pteStep_badLeaf (h : bits e 0 1 = 1) (hl : bits e 1 1 = 1) (hbad : lev = 3 ∨ bits e 8 40 * 256 % 2 ^ leafSize lev ≠ 0) :
    p.pteStep part va write fetch lev e = .stop .access := by
  by_cases hr : bits e 48 16 ≠ 0 ∨ bits e 5 3 ≠ 0
  · exact pteStep_reserved p part va write fetch h hr
  · simp [Package.pteStep, h, hl, hr, hbad]

theorem pteStep_leaf (h : bits e 0 1 = 1) (hr : ¬ (bits e 48 16 ≠ 0 ∨ bits e 5 3 ≠ 0)) (hl : bits e 1 1 = 1) (hlev : lev < 3)
    (ha : bits e 8 40 * 256 % 2 ^ leafSize lev = 0) : p.pteStep part va write fetch lev e =
    .stop (if (write = true ∧ bits e 2 1 = 0) ∨ (fetch = true ∧ bits e 3 1 = 0) ∨ p.placeOf (bits e 8 40 * 256 + va.toNat % 2 ^ leafSize lev) = none then .access
      else .entry { part := part, ats := false, size := leafSize lev, va := vaPage va (leafSize lev), frame := bits e 8 40 * 256,
                    w := decide (bits e 2 1 = 1), x := decide (bits e 3 1 = 1) }) := by
  have hne : lev ≠ 3 := by omega
  have hw : bits e 2 1 = 0 ↔ ¬ bits e 2 1 = 1 := by have := bit_eq_zero_or_one e 2; omega
  have hx : bits e 3 1 = 0 ↔ ¬ bits e 3 1 = 1 := by have := bit_eq_zero_or_one e 3; omega
  split
  · next hdenied =>
    rw [hw, hx] at hdenied
    rcases hdenied with hd | hd | hp
    · simp [Package.pteStep, Package.entryXlate, h, hr, hl, hne, ha, hd]
    · simp [Package.pteStep, Package.entryXlate, h, hr, hl, hne, ha, hd]
    · by_cases hd : (write = true ∧ ¬ bits e 2 1 = 1) ∨ fetch = true ∧ ¬ bits e 3 1 = 1 <;>
        simp [Package.pteStep, Package.entryXlate, Package.devOrAccess, h, hr, hl, hne, ha, hd, hp]
  · next hgranted =>
    rw [hw, hx, ← or_assoc, not_or] at hgranted
    obtain ⟨hd, hplace⟩ := hgranted
    obtain ⟨place, hp⟩ := Option.ne_none_iff_exists'.1 hplace
    simp [Package.pteStep, Package.entryXlate, Package.devOrAccess, h, hr, hl, hne, ha, hd, hp]

theorem pteStep_badTable (h : bits e 0 1 = 1) (hl : bits e 1 1 = 0) (hbad : lev = 0 ∨ bits e 8 40 * 256 % tableBytes (lev - 1) ≠ 0) :
    p.pteStep part va write fetch lev e = .stop .access := by
  by_cases hr : bits e 48 16 ≠ 0 ∨ bits e 5 3 ≠ 0
  · exact pteStep_reserved p part va write fetch h hr
  · simp [Package.pteStep, h, hl, hr, hbad]

theorem pteStep_table (h : bits e 0 1 = 1) (hr : ¬ (bits e 48 16 ≠ 0 ∨ bits e 5 3 ≠ 0)) (hl : bits e 1 1 = 0) (hlev : lev ≠ 0)
    (ha : bits e 8 40 * 256 % tableBytes (lev - 1) = 0) : p.pteStep part va write fetch lev e = .next (bits e 8 40 * 256) := by
  simp [Package.pteStep, h, hr, hl, hlev, ha]

end

/-- What the model makes of an entry is what Table 19.1 says of it. -/
theorem entrySays_pteStep (p : Package) (part : Nat) (va : Quad) (write fetch : Bool) {lev : Nat} (e : Nat) (hlev : lev ≤ 3) :
    EntrySays p part va write fetch lev e (p.pteStep part va write fetch lev e) := by
  have hbelow := tableBytes_below hlev
  unfold EntrySays
  dsimp only
  rw [← leafSize_eq lev]
  refine ⟨pteStep_absent p part va write fetch, pteStep_reserved p part va write fetch, fun h _ => pteStep_badLeaf p part va write fetch h,
    pteStep_leaf p part va write fetch, fun h _ hl hbad => pteStep_badTable p part va write fetch h hl ?_,
    fun h hr hl h0 ha => pteStep_table p part va write fetch h hr hl h0 (by rwa [hbelow h0])⟩
  by_cases h0 : lev = 0
  · exact .inl h0
  · rwa [hbelow h0]

/-! PAGE_WALK (R343, R344). -/

theorem reads_iff (s : State) (w : Walk) : w.reads s.clk.mcyc = true ↔ ReadsEntry s w := by
  simp [Walk.reads, ReadsEntry, and_assoc]

theorem company_lt_of_walks {p : Package} {m : Nat} {w : Walk} {l : List Walk} (h : (p.company m).walks = w :: l) : m < p.companies.length := by
  by_contra hm
  rw [Package.company, List.getD_eq_getElem?_getD, List.getElem?_eq_none (Nat.le_of_not_lt hm)] at h
  cases h

theorem findIdx?_head {α : Type} {q : α → Bool} {x : α} (l : List α) (h : q x = true) : findIdx? q (x :: l) = some 0 := if_pos h

/-- Where no walk reads an entry, and no miss waits or 8 walks run, nothing changes. -/
theorem pageWalkAt_idle {p : Package} {m : Nat} {k : Clock} (hr : ∀ w ∈ (p.company m).walks, w.reads k.mcyc = false)
    (hidle : (∀ w ∈ (p.company m).walks, w.started = true ∨ w.marked = true) ∨ 8 ≤ ((p.company m).walks.filter fun w => w.started && !w.ended).length) :
    pageWalkAt m k p = p := by
  rw [pageWalkAt, findIdx?_eq_none_iff.2 hr]
  dsimp only
  rcases hidle with hnone | hfull
  · rw [findIdx?_eq_none_iff.2 fun w hw => by rcases hnone w hw with h | h <;> simp [h]]
  · split
    · rfl
    · split
      · rfl
      · rw [if_pos hfull]

section
variable {p : Package} {m : Nat} {k : Clock} {w : Walk} {l : List Walk} (hw : (p.company m).walks = w :: l)
include hw

theorem pageWalkAt_begins (hl : ∀ x ∈ l, x.reads k.mcyc = false) (hs : w.started = false) (hm : w.marked = false)
    (h8 : (l.filter fun w => w.started && !w.ended).length < 8) :
    let at_ := k.mcyc + EntryWay p m (p.part w.part).ctx.atroot.toNat w.va 3
    pageWalkAt m k p = (p.modCompany m fun c =>
      { c with walks := { w with started := true, level := 3, table := (p.part w.part).ctx.atroot.toNat, readAt := at_ } :: l }).later (.mesh at_) (.pageWalk m) := by
  intro at_
  have hreads : findIdx? (fun w : Walk => w.reads k.mcyc) (w :: l) = none :=
    findIdx?_eq_none_iff.2 (List.forall_mem_cons.2 ⟨by simp [Walk.reads, hs], hl⟩)
  have hrunning : ¬ 8 ≤ ((w :: l).filter fun w => w.started && !w.ended).length := by
    rw [List.filter_cons_of_neg (by simp [hs])]
    omega
  rw [pageWalkAt, hw, hreads, findIdx?_head l (by simp [hs, hm])]
  dsimp only [List.getElem?_cons_zero]
  rw [if_neg hrunning, Package.walkBegin, walkWay_eq]
  exact congrArg (fun q : Package => q.later (.mesh at_) (.pageWalk m)) (modCompany_congr (by rw [hw]; rfl))

theorem pageWalkAt_reads (hr : w.reads k.mcyc = true) : pageWalkAt m k p = p.walkRead k m 0 w := by
  rw [pageWalkAt, hw, findIdx?_head l hr]
  rfl

theorem walkRead_unbacked (he : EntryPlace p w.table w.va w.level = none) : p.walkRead k m 0 w = (p.modCompany m fun c =>
    { c with walks := { w with end_ := some .access, readAt := k.mcyc } :: l }).later (.mesh k.mcyc) (.walkComplete m) := by
  rw [Package.walkRead, placeOf_entry, he]
  dsimp only
  rw [walkWay_eq, entryWay_none he, Nat.add_zero]
  exact congrArg (fun q : Package => q.later (.mesh k.mcyc) (.walkComplete m)) (modCompany_congr (by rw [hw]; rfl))

/-- The oldest walk changed in a package whose slices alone have changed. -/
theorem walks_modHead {q : Package} (h : SlicesOnly p q) (t : Nat) (f : Walk → Walk) :
    ((q.modCompany m fun c => { c with walks := modAt c.walks 0 fun w => { f w with readAt := t } }).company m).walks = { f w with readAt := t } :: l := by
  rw [company_modCompany_self _ _ _ (h.ncompanies ▸ company_lt_of_walks hw), h.walks, hw]
  rfl

theorem walkRead_stop {place : Nat} {e : WalkEnd} (hp : EntryPlace p w.table w.va w.level = some place)
    (he : p.pteStep w.part w.va w.write w.fetch w.level (ofLe (p.readBytes place 8)) = .stop e) :
    let t := k.mcyc + EntryWay p m w.table w.va w.level
    ((p.walkRead k m 0 w).company m).walks = { w with end_ := some e, readAt := t } :: l
      ∧ { at_ := .mesh t, ev := .walkComplete m } ∈ (p.walkRead k m 0 w).due := by
  rw [Package.walkRead, placeOf_entry, hp]
  dsimp only
  rw [he, walkWay_eq]
  exact ⟨walks_modHead hw (.touchLine p ..) _ fun w => { w with end_ := some e }, List.mem_append_right _ (List.mem_singleton_self _)⟩

theorem walkRead_next {place table : Nat} (hp : EntryPlace p w.table w.va w.level = some place)
    (he : p.pteStep w.part w.va w.write w.fetch w.level (ofLe (p.readBytes place 8)) = .next table) :
    let t := k.mcyc + EntryWay p m w.table w.va w.level + EntryWay p m table w.va (w.level - 1)
    ((p.walkRead k m 0 w).company m).walks = { w with level := w.level - 1, table := table, readAt := t } :: l
      ∧ { at_ := .mesh t, ev := .pageWalk m } ∈ (p.walkRead k m 0 w).due := by
  rw [Package.walkRead, placeOf_entry, hp]
  dsimp only
  rw [he]
  simp only [walkWay_eq]
  exact ⟨walks_modHead hw (.touchLine p ..) _ fun v => { v with level := v.level - 1, table := table }, List.mem_append_right _ (List.mem_singleton_self _)⟩

end

/-! WALK_COMPLETE (R345, R347). -/

theorem walkCompleteAt_none {p : Package} {m : Nat} {k : Clock}
    (h : ∀ w ∈ (p.company m).walks, w.started = false ∨ w.ended = true ∨ w.end_ = none ∨ k.mcyc < w.readAt) : walkCompleteAt m k p = p := by
  rw [walkCompleteAt, findIdx?_eq_none_iff.2 fun w hw => by rcases h w hw with h | h | h | h <;> simp [h]]

/-- A walk that is over: nobody waits for it in the place of a waiter that has gone. -/
def Walk.done (w : Walk) : Walk := { w with ended := true, waiters := w.waiters.filter fun x => x ≠ Waiter.nobody x.core }

/-- The package after the oldest walk of a company, `w` before `l`, has ended in a translation: both TLBs hold it. -/
def Package.filledBy (p : Package) (m : Nat) (w : Walk) (l : List Walk) (e : TlbEntry) : Package :=
  (w.waiters.foldl (fun (p : Package) (x : Waiter) => p.coreFill x.core e) (p.modCompany m fun c => c.tlbFill e)).modCompany m fun c =>
    { c with walks := (w.done :: l).filter fun k => !(k.ended && k.waiters.isEmpty) }

theorem wave?_coreFill (p : Package) (core c slot : Nat) (e : TlbEntry) : (p.coreFill core e).wave? c slot = p.wave? c slot :=
  wave?_modCore (f := fun k => { k with tlb := k.tlb.fill e }) (fun _ => rfl) p core c slot

theorem companies_coreFills (l : List Waiter) (e : TlbEntry) (p : Package) :
    (l.foldl (fun (p : Package) (x : Waiter) => p.coreFill x.core e) p).companies = p.companies :=
  List.foldlRecOn (motive := fun q : Package => q.companies = p.companies) l _ rfl fun _ hq _ _ => hq

theorem company_filledBy {p : Package} {m : Nat} (hm : m < p.companies.length) (w : Walk) (l : List Walk) (e : TlbEntry) : (p.filledBy m w l e).company m =
    { (p.company m).tlbFill e with walks := (w.done :: l).filter fun k => !(k.ended && k.waiters.isEmpty) } := by
  have hfill := companies_coreFills w.waiters e (p.modCompany m fun c => c.tlbFill e)
  rw [Package.filledBy, company_modCompany_self _ _ _ (by rw [hfill, Package.modCompany, modAt_length]; exact hm), Package.company, hfill]
  exact congrArg (fun c : Company => { c with walks := (w.done :: l).filter fun k => !(k.ended && k.waiters.isEmpty) }) (company_modCompany_self p m _ hm)

theorem filledBy_one (p : Package) (m : Nat) {w : Walk} {x : Waiter} (hx : w.waiters = [x]) (l : List Walk) (e : TlbEntry) :
    p.filledBy m w l e = ((p.modCompany m fun c => c.tlbFill e).coreFill x.core e).modCompany m fun c =>
      { c with walks := (w.done :: l).filter fun k => !(k.ended && k.waiters.isEmpty) } := by
  rw [Package.filledBy, hx]
  rfl

section
variable {p : Package} {m : Nat} {k : Clock} {w : Walk} {l : List Walk} (hw : (p.company m).walks = w :: l) (hs : w.started = true)
  (he : w.ended = false) (ht : w.readAt ≤ k.mcyc)
include hw hs he ht

theorem walkCompleteAt_marked (hend : w.end_ ≠ none) (hm : w.marked = true) : walkCompleteAt m k p =
    p.modCompany m fun c => { c with walks := { w with started := false, end_ := none } :: l } := by
  rw [walkCompleteAt, hw, findIdx?_head l (by simp [hs, he, ht, Option.isSome_iff_ne_none.2 hend])]
  dsimp only [List.getElem?_cons_zero]
  rw [if_pos hm]
  exact modCompany_congr (by rw [hw]; rfl)

/-- The oldest walk has ended in a translation: both TLBs are filled, and those that waited go on. -/
theorem walkCompleteAt_fills {e : TlbEntry} (hend : w.end_ = some (.entry e)) (hm : w.marked = false) :
    walkCompleteAt m k p = (w.waiters.foldl Package.wakeWaiter (p.filledBy m w l e)).later .now (.pageWalk m) := by
  have hfilled : ((w.waiters.foldl (fun (p : Package) (x : Waiter) => p.coreFill x.core e) (p.modCompany m fun c => c.tlbFill e)).company m).walks = w :: l := by
    rw [Package.company, companies_coreFills]
    exact (congrArg Company.walks (company_modCompany_self p m _ (company_lt_of_walks hw))).trans hw
  rw [walkCompleteAt, hw, findIdx?_head l (by simp [hs, he, ht, hend])]
  dsimp only [List.getElem?_cons_zero]
  rw [if_neg (by simp [hm]), hend]
  refine congrArg (fun q : Package => (w.waiters.foldl Package.wakeWaiter q).later .now (.pageWalk m)) (modCompany_congr ?_)
  dsimp only
  rw [hfilled, modAt]
  rfl

end

/-- A walk that nobody waits for leaves with its end. -/
theorem walkCompleteAt_alone {p : Package} {m : Nat} {k : Clock} {w : Walk} {e : TlbEntry} (hw : (p.company m).walks = [w]) (hs : w.started = true)
    (he : w.ended = false) (ht : w.readAt ≤ k.mcyc) (hend : w.end_ = some (.entry e)) (hm : w.marked = false) (hn : w.waiters = []) :
    ((walkCompleteAt m k p).company m).walks = [] ∧ ((walkCompleteAt m k p).company m).tlb = ((p.company m).tlbFill e).tlb
      ∧ (walkCompleteAt m k p).due = p.due ++ [{ at_ := .now, ev := .pageWalk m }] := by
  have hcompany := company_filledBy (company_lt_of_walks hw) w [] e
  have hleaves : [w.done].filter (fun k => !(k.ended && k.waiters.isEmpty)) = [] := by simp [Walk.done, hn]
  rw [hleaves] at hcompany
  rw [walkCompleteAt_fills hw hs he ht hend hm, hn]
  refine ⟨congrArg Company.walks hcompany, (congrArg Company.tlb hcompany).trans rfl, ?_⟩
  rw [Package.filledBy, hn]
  rfl

/-- What the end of a walk makes of a wave that waits for no other. -/
def Wave.translated (x : Wave) : Wave := x.leaders.foldl (fun x l => if (x.blockedAt l).any Blocked.isTranslate then x.unblock l else x) x

theorem blockedAt_translated {x : Wave} {b : Blocked} {k : List (Quad × Bool × Bool)} (hl : x.leaders = [x.sole]) (hb : x.blockedAt x.sole = some b)
    (ho : b.op = .translate k) : x.translated.blockedAt x.sole = none := by
  have hwaits : ((x.blockedAt x.sole).any Blocked.isTranslate) = true := by rw [hb, Option.any_some, Blocked.isTranslate, ho]
  rw [Wave.translated, hl, List.foldl_cons, List.foldl_nil, if_pos hwaits]
  exact endWait_blockedAt x x.sole

theorem wakeWaiter_wave {p : Package} {core slot : Nat} {x : Wave} (hx : p.wave? core slot = some x) (hpark : x.park = none)
    (hover : ∀ w ∈ (p.company (companyOf core)).walks, w.ended = true) : p.wakeWaiter (.wave core slot) = p.modWave core slot Wave.translated := by
  have hall : p.walksOver core (.wave core slot) = true := List.all_eq_true.2 fun w hw => by rw [hover w hw, Bool.or_true]
  rw [Package.wakeWaiter, hall, hx, Option.any_some, hpark]
  rfl

/-- The only walk of a company has ended in a translation that one wave waited for: the TLBs of its core and of its company hold it, and the wave goes on. -/
theorem walkCompleteAt_waiter {p : Package} {core slot : Nat} {k : Clock} {w : Walk} {e : TlbEntry} {x : Wave} (hw : (p.company (companyOf core)).walks = [w])
    (hs : w.started = true) (he : w.ended = false) (ht : w.readAt ≤ k.mcyc) (hend : w.end_ = some (.entry e)) (hm : w.marked = false)
    (hwait : w.waiters = [.wave core slot]) (hslot : slot < 64) (hx : p.wave? core slot = some x) (hpark : x.park = none) :
    ∃ q, walkCompleteAt (companyOf core) k p = q ∧ (q.company (companyOf core)).walks = [{ w with ended := true }] ∧ q.wave? core slot = some x.translated
      ∧ (q.core core).tlb = (p.core core).tlb.fill e ∧ (q.company (companyOf core)).tlb = ((p.company (companyOf core)).tlbFill e).tlb := by
  have hsome : Waiter.wave core slot ≠ Waiter.nobody core := by
    rw [Waiter.nobody, ne_eq, Waiter.wave.injEq]
    omega
  have hstays : [w.done].filter (fun k => !(k.ended && k.waiters.isEmpty)) = [{ w with ended := true }] := by
    simp [Walk.done, hwait, Waiter.core, hsome]
  have hcompany := company_filledBy (company_lt_of_walks hw) w [] e
  rw [hstays, hwait] at hcompany
  have hone := filledBy_one p (companyOf core) hwait [] e
  have hwave : (p.filledBy (companyOf core) w [] e).wave? core slot = some x := by
    rw [hone, wave?_modCompany, wave?_coreFill, wave?_modCompany, hx]
  have htlb : ((p.filledBy (companyOf core) w [] e).core core).tlb = (p.core core).tlb.fill e := by
    rw [hone]
    exact congrArg Core.tlb (core_modCore_self (p.modCompany (companyOf core) fun c => c.tlbFill e) core _ (core_lt_of_wave? hx))
  refine ⟨_, walkCompleteAt_fills hw hs he ht hend hm, ?_⟩
  rw [hwait, List.foldl_cons, List.foldl_nil, wakeWaiter_wave hwave hpark (by rw [hcompany]; simp)]
  refine ⟨congrArg Company.walks hcompany, ?_, ?_, (congrArg Company.tlb hcompany).trans rfl⟩
  · exact (wave?_modWave _ core slot core slot _).trans (by rw [if_pos ⟨rfl, rfl⟩, hwave]; rfl)
  · exact (congrArg Core.tlb (core_modWave_self _ core slot _ (core_lt_of_wave? hwave))).trans htlb

end Sys2Proof.Machine
end
section
/-! SUPPORT. Shootdowns and ATS invalidations (Sys2Proof/Machine/Address.lean: R202, R203, R347): what they overlap, what they mark and remove, and when they
are acknowledged. -/

namespace Sys2Proof.Machine

theorem exec_shootdown (core part va len : Nat) (s : State) :
    exec (.shootdown core part va len) s = .next { s with pkg := shootdownAt core part va len s.clk s.pkg } := rfl

theorem exec_shootdownRemoval (core : Nat) (s : State) : exec (.shootdownRemoval core) s = .next { s with pkg := shootdownRemovalAt core s.pkg } := rfl

theorem exec_shootdownAck (core : Nat) (s : State) : exec (.shootdownAck core) s = .next { s with pkg := shootdownAckAt core s.clk s.pkg } := rfl

theorem exec_atsInvalidateRequest (pasid va log2 : Nat) (s : State) :
    exec (.atsInvalidateRequest pasid va log2) s = .next { s with pkg := atsInvalidateAt pasid va log2 s.clk s.pkg } := rfl

theorem exec_atsInvalidateRemoval (s : State) : exec .atsInvalidateRemoval s = .next { s with pkg := atsRemovalNow s.pkg } := rfl

theorem exec_invalidationCompletion (s : State) : exec .invalidationCompletion s = .next { s with pkg := invalidationCompletionAt s.clk s.pkg } := rfl

/-! Entries and walks of a range. -/

theorem covers_iff (x : Shootdown) (e : TlbEntry) : x.covers e = true ↔ Shot x e := by
  have hkind : e.ats = x.host ↔ (e.ats = true ↔ 2 ^ 47 ≤ x.va) := by cases e.ats <;> simp [Shootdown.host]
  rw [Shot, ← hkind]
  simp [Shootdown.covers, TlbEntry.overlaps, and_assoc, and_left_comm]

theorem meets_iff (x : Shootdown) (w : Walk) : x.meets w = true ↔ ShotWalk x w := by
  simp [Shootdown.meets, Shootdown.host, ShotWalk, Walk.overlaps, and_assoc]

theorem setKeeps_remove {f : TlbEntry → Bool} {gone : TlbEntry → Prop} (t : TlbSet) (h : ∀ e, f e = true ↔ gone e) : SetKeeps t (t.remove f) gone := by
  refine ⟨List.length_map .., rfl, fun k e => ?_⟩
  rw [← h e, TlbSet.remove, List.getElem?_map]
  simp only [Option.map_eq_some_iff, Option.filter_eq_some_iff, Bool.not_eq_true', Bool.not_eq_true]
  exact ⟨fun ⟨_, ho, he, hf⟩ => ⟨he ▸ ho, hf⟩, fun ⟨ho, hf⟩ => ⟨_, ho, rfl, hf⟩⟩

theorem SetKeeps.congr {a b : TlbSet} {P Q : TlbEntry → Prop} (h : SetKeeps a b P) (hPQ : ∀ e, P e ↔ Q e) : SetKeeps a b Q := by
  rwa [← funext fun e => propext (hPQ e)]

theorem setKeeps_self (t : TlbSet) {gone : TlbEntry → Prop} (h : ∀ e, ¬ gone e) : SetKeeps t t gone := ⟨rfl, rfl, fun _ e => by simp [h e]⟩

theorem tabGet_map {α β : Type} (g : α → β) (l : List (Nat × α)) (i : Nat) : tabGet (l.map fun x => (x.1, g x.2)) i = (tabGet l i).map g := by
  induction l with
  | nil => rfl
  | cons x l ih =>
    rw [List.map_cons, tabGet, tabGet, ih]
    split <;> rfl

theorem tlbSet_tlbRemove {c : Company} {i : Nat} (h : (tabGet c.tlb i).isSome = true) (f : TlbEntry → Bool) :
    (c.tlbRemove f).tlbSet i = (c.tlbSet i).remove f := by
  obtain ⟨t, ht⟩ := Option.isSome_iff_exists.1 h
  have hremoved : tabGet (c.tlbRemove f).tlb i = some (t.remove f) := (tabGet_map (TlbSet.remove · f) c.tlb i).trans (by rw [ht]; rfl)
  rw [Company.tlbSet, hremoved, Company.tlbSet, ht]
  rfl

/-! The requests in flight that a range overlaps (R347). -/

theorem markAts_marks (p : Package) {ps : List Nat} {P : Nat → Prop} (h : ∀ k, k ∈ ps ↔ P k) (base len : Nat) :
    AtsMarked p.pcie (p.markAts ps base len).pcie P base len := by
  refine ⟨List.length_map .., fun n tag x hx => ?_⟩
  cases x with
  | ats core part va w m ws =>
    refine ⟨_, (List.getElem?_map ..).trans (by rw [hx]; rfl), fun hne => absurd rfl (hne core part va w m ws), fun _ _ _ _ _ _ he => ?_⟩
    cases he
    exact ⟨_, rfl, by simp [h, and_assoc]⟩
  | prg | cue | load | copy | atomic =>
    refine ⟨_, (List.getElem?_map ..).trans (by rw [hx]; rfl), fun _ => rfl, fun _ _ _ _ _ _ he => ?_⟩
    cases he

theorem mem_partsOfPasid (p : Package) (pasid k : Nat) : k ∈ p.partsOfPasid pasid ↔ k < 8 ∧ (p.part k).ctx.pasid.toNat = pasid := by
  simp [Package.partsOfPasid]

theorem markInv_marks (p : Package) (i : AtsInv) :
    AtsMarked p.pcie (p.markInv i).pcie (fun k => k < 8 ∧ (p.part k).ctx.pasid.toNat = i.pasid) (InvBase i) (2 ^ i.log2) :=
  markAts_marks p (mem_partsOfPasid p i.pasid) _ _

theorem markShot_pcie_device (p : Package) {x : Shootdown} (h : x.va < 2 ^ 47) : (p.markShot x).pcie = p.pcie := by
  rw [Package.markShot, Shootdown.host, if_neg (by simpa using h)]

theorem markShot_pcie_host (p : Package) {x : Shootdown} (h : 2 ^ 47 ≤ x.va) :
    AtsMarked p.pcie (p.markShot x).pcie (· = x.part) (x.va % 2 ^ 47) x.len := by
  rw [Package.markShot, Shootdown.host, if_pos (by simpa using h)]
  exact markAts_marks p (fun k => List.mem_singleton) _ _

/-- A shootdown marks requests to the endpoint, and changes nothing else. -/
theorem markShot_rest (p : Package) (x : Shootdown) : p.markShot x = { p with pcie := (p.markShot x).pcie } := by
  unfold Package.markShot
  split <;> rfl

/-! A shootdown arrives (R202, R347). -/

/-- What a shootdown that reaches a core makes of the package: the core, its company and the requests that it overlaps. -/
def Package.shot (p : Package) (core : Nat) (x : Shootdown) (f : Core → Core) (g : Company → Company) : Package :=
  ((p.modCore core f).modCompany (companyOf core) g).markShot x

section
variable {p : Package} {core : Nat} (x : Shootdown) (f : Core → Core) (g : Company → Company)

theorem core_shot (h : core < p.cores.length) : (p.shot core x f g).core core = f (p.core core) := by
  rw [Package.shot, markShot_rest]
  exact core_modCore_self p core f h

theorem company_shot (h : companyOf core < p.companies.length) : (p.shot core x f g).company (companyOf core) = g (p.company (companyOf core)) := by
  rw [Package.shot, markShot_rest]
  exact company_modCompany_self (p.modCore core f) _ g h

theorem due_shot : (p.shot core x f g).due = p.due := by
  rw [Package.shot, markShot_rest]
  rfl

end

/-- A walk of a shootdown's range is marked. -/
def Shootdown.mark (x : Shootdown) (w : Walk) : Walk := if x.meets w then { w with marked := true } else w

theorem mark_marked (x : Shootdown) (w : Walk) : x.mark w = { w with marked := (x.mark w).marked } ∧ ((x.mark w).marked = true ↔ w.marked = true ∨ ShotWalk x w) := by
  rw [← meets_iff x w]
  unfold Shootdown.mark
  split
  · next h => exact ⟨rfl, by simp [h]⟩
  · next h => exact ⟨rfl, by simp [h]⟩

theorem getElem?_map_mark (x : Shootdown) {l : List Walk} {n : Nat} {w : Walk} (h : l[n]? = some w) :
    ∃ b, (l.map x.mark)[n]? = some { w with marked := b } ∧ (b = true ↔ w.marked = true ∨ ShotWalk x w) := by
  obtain ⟨hmarked, hiff⟩ := mark_marked x w
  refine ⟨_, ?_, hiff⟩
  rw [← hmarked, List.getElem?_map, h, Option.map_some]

theorem shootdownAt_eq (core part va len : Nat) (k : Clock) (p : Package) :
    let x : Shootdown := { part := part, va := va, len := len, removed := false, before := [] }
    shootdownAt core part va len k p = (p.shot core x (fun c => { c with shoot := c.shoot ++ [x] }) fun c => { c with walks := c.walks.map x.mark }).later
      (.mesh (k.mcyc + 33)) (.shootdownRemoval core) := rfl

/-! The removal (R202, R347). -/

/-- A walk of a shootdown's range starts again. -/
def Shootdown.restart (x : Shootdown) (w : Walk) : Walk := if x.meets w then { w with marked := false, started := false, end_ := none } else w

/-- The first shootdown of a core after its removal. -/
def Shootdown.atRemoval (x : Shootdown) (p : Package) (core : Nat) : Shootdown :=
  { x with removed := true, before := (p.core core).requestNumbers, copyAck := (p.core core).copyAck, tags := p.copyTags (· = core) }

theorem core_lt_of_shoot {p : Package} {core : Nat} {x : Shootdown} {l : List Shootdown} (h : (p.core core).shoot = x :: l) : core < p.cores.length := by
  by_contra hc
  rw [Package.core, List.getD_eq_getElem?_getD, List.getElem?_eq_none (Nat.le_of_not_lt hc)] at h
  cases h

theorem modCore_congr {p : Package} {c : Nat} {f g : Core → Core} (h : f (p.core c) = g (p.core c)) : p.modCore c f = p.modCore c g := by
  rw [Package.modCore, Package.modCore, modAt_congr]
  intro x hx
  have : p.core c = x := by rw [Package.core, List.getD_eq_getElem?_getD, hx]; rfl
  rwa [this] at h

theorem shootdownRemovalAt_none {p : Package} {core : Nat} (h : ∀ x ∈ (p.core core).shoot, x.removed = true) : shootdownRemovalAt core p = p := by
  have hn : (p.core core).shoot.find? (fun s => !s.removed) = none := List.find?_eq_none.2 fun x hx => by simp [h x hx]
  rw [shootdownRemovalAt, hn]

theorem shootdownRemovalAt_head {p : Package} {core : Nat} {x : Shootdown} {l : List Shootdown} (h : (p.core core).shoot = x :: l) (hx : x.removed = false) :
    shootdownRemovalAt core p = ((p.shot core x (fun c => { c with tlb := c.tlb.remove x.covers, shoot := x.atRemoval p core :: l })
      fun c => { c.tlbRemove x.covers with walks := c.walks.map x.restart }).later .now (.pageWalk (companyOf core))).later .now (.shootdownAck core) := by
  have hpos : (!x.removed) = true := by rw [hx]; rfl
  rw [shootdownRemovalAt, h, List.find?_cons_of_pos (p := fun s : Shootdown => !s.removed) hpos]
  refine congrArg (fun q : Package => (((q.modCompany (companyOf core) fun c => { c.tlbRemove x.covers with walks := c.walks.map x.restart }).markShot x).later
    .now (.pageWalk (companyOf core))).later .now (.shootdownAck core)) (modCore_congr ?_)
  rw [h, findIdx?_head l hpos]
  rfl

section
variable {p : Package} {core : Nat} {x : Shootdown} {l : List Shootdown} (h : (p.core core).shoot = x :: l) (hx : x.removed = false)
include h hx

theorem core_shootdownRemovalAt : (shootdownRemovalAt core p).core core =
    { p.core core with tlb := (p.core core).tlb.remove x.covers, shoot := x.atRemoval p core :: l } := by
  rw [shootdownRemovalAt_head h hx]
  exact core_shot x _ _ (core_lt_of_shoot h)

theorem company_shootdownRemovalAt (hm : companyOf core < p.companies.length) : (shootdownRemovalAt core p).company (companyOf core) =
    { (p.company (companyOf core)).tlbRemove x.covers with walks := (p.company (companyOf core)).walks.map x.restart } := by
  rw [shootdownRemovalAt_head h hx]
  exact company_shot x _ _ hm

theorem ack_due_shootdownRemovalAt : { at_ := .now, ev := .shootdownAck core } ∈ (shootdownRemovalAt core p).due := by
  rw [shootdownRemovalAt_head h hx]
  exact List.mem_append_right _ (List.mem_singleton_self _)

end

theorem restart_of_shot {x : Shootdown} {w : Walk} (h : ShotWalk x w) : x.restart w = { w with marked := false, started := false, end_ := none } :=
  if_pos ((meets_iff x w).2 h)

theorem restart_of_not_shot {x : Shootdown} {w : Walk} (h : ¬ ShotWalk x w) : x.restart w = w := if_neg (mt (meets_iff x w).1 h)

/-! The acknowledgement (R202). -/

theorem shootdownAckAt_none {p : Package} {core : Nat} {k : Clock} (h : ∀ x ∈ (p.core core).shoot, x.removed = false) : shootdownAckAt core k p = p := by
  have hn : (p.core core).shoot.find? (fun s => s.removed) = none := List.find?_eq_none.2 fun x hx => by simp [h x hx]
  rw [shootdownAckAt, hn]

/-- Nothing that could have used the entries which a shootdown removed is in flight. -/
def Shootdown.Drained (x : Shootdown) (p : Package) (core mcyc : Nat) : Prop :=
  (∀ b, b ∈ x.before → p.olderInFlight core b.1 b.2 = false) ∧ x.copyAck ≤ mcyc ∧ ∀ w, w ∈ p.pcie → w.1 ∉ x.tags

theorem drained_iff (x : Shootdown) (p : Package) (core mcyc : Nat) :
    (x.before.any (fun b => p.olderInFlight core b.1 b.2) || decide (mcyc < x.copyAck) || p.pcie.any fun y => x.tags.contains y.1) = false
      ↔ x.Drained p core mcyc := by
  simp [Shootdown.Drained, and_assoc]

section
variable {p : Package} {core : Nat} {k : Clock} {x : Shootdown} {l : List Shootdown} (h : (p.core core).shoot = x :: l) (hx : x.removed = true)
include h hx

theorem shootdownAckAt_waits (hd : ¬ x.Drained p core k.mcyc) : shootdownAckAt core k p = p.later (.mesh (k.mcyc + 1)) (.shootdownAck core) := by
  rw [← drained_iff, Bool.not_eq_false] at hd
  rw [shootdownAckAt, h, List.find?_cons_of_pos (p := fun s : Shootdown => s.removed) hx]
  exact if_pos hd

theorem shootdownAckAt_drained (hd : x.Drained p core k.mcyc) : shootdownAckAt core k p = p.modCore core fun c => { c with shoot := l } := by
  rw [← drained_iff, ← Bool.not_eq_true] at hd
  rw [shootdownAckAt, h, List.find?_cons_of_pos (p := fun s : Shootdown => s.removed) hx]
  refine (if_neg hd).trans (modCore_congr ?_)
  rw [h, findIdx?_head l hx]
  rfl

end

/-! ATS invalidations (R203). -/

theorem atsInvalidateAt_eq (pasid va log2 : Nat) (k : Clock) (p : Package) :
    let i : AtsInv := { pasid := pasid, va := va, log2 := max 12 log2, due := k.mcyc + 64, removed := false, before := [] }
    atsInvalidateAt pasid va log2 k p = (({ p with atsInv := p.atsInv ++ [i] } : Package).markInv i).later (.mesh (k.mcyc + 65)) .atsInvalidateRemoval := rfl

/-- An entry that an invalidation removes. -/
def AtsInv.covers (i : AtsInv) (p : Package) (e : TlbEntry) : Bool := e.ats && (p.partsOfPasid i.pasid).contains e.part && e.overlaps i.range.1 i.range.2

theorem invCovers_iff (i : AtsInv) (p : Package) (e : TlbEntry) : i.covers p e = true ↔ e.ats = true ∧ e.part < 8 ∧ (p.part e.part).ctx.pasid.toNat = i.pasid
    ∧ e.va * 2 ^ e.size < InvBase i + 2 ^ i.log2 ∧ InvBase i < (e.va + 1) * 2 ^ e.size := by
  simp only [AtsInv.covers, TlbEntry.overlaps, Bool.and_eq_true, decide_eq_true_iff, List.contains_iff_mem, mem_partsOfPasid, and_assoc]
  rfl

/-- An invalidation after its removal: what it waits for. -/
def AtsInv.atRemoval (i : AtsInv) (p : Package) : AtsInv :=
  { i with removed := true, before := (p.cores.zipIdx).flatMap fun c => c.1.requestNumbers.map fun r => (c.2, r.1, r.2),
           copyAcks := (p.cores.zipIdx).map fun c => (c.2, c.1.copyAck), tags := p.copyTags fun _ => true }

theorem mem_before_atRemoval (i : AtsInv) {p : Package} {core slot : Nat} {w : Wave} (hw : p.wave? core slot = some w) :
    (core, slot, w.nextId) ∈ (i.atRemoval p).before := by
  have hlt := core_lt_of_wave? hw
  have hslot : ((p.cores[core]).ctx.waves)[slot]? = some (some w) := by
    have h := wave?_some hw
    rwa [Package.core, List.getD_eq_getElem?_getD, List.getElem?_eq_getElem hlt] at h
  refine List.mem_flatMap.2 ⟨(p.cores[core], core), List.mem_zipIdx_iff_getElem?.2 (List.getElem?_eq_getElem hlt), List.mem_map.2 ⟨(slot, w.nextId), ?_, rfl⟩⟩
  exact List.mem_filterMap.2 ⟨(some w, slot), List.mem_zipIdx_iff_getElem?.2 hslot, rfl⟩

theorem mem_copyAcks_atRemoval (i : AtsInv) {p : Package} {core : Nat} (hlt : core < p.cores.length) :
    (core, (p.core core).copyAck) ∈ (i.atRemoval p).copyAcks := by
  refine List.mem_map.2 ⟨(p.core core, core), List.mem_zipIdx_iff_getElem?.2 ?_, rfl⟩
  rw [Package.core, List.getD_eq_getElem?_getD, List.getElem?_eq_getElem hlt]
  rfl

theorem atsRemovalNow_none {p : Package} (h : ∀ i ∈ p.atsInv, i.removed = true) : atsRemovalNow p = p := by
  have hn : p.atsInv.find? (fun i => !i.removed) = none := List.find?_eq_none.2 fun x hx => by simp [h x hx]
  rw [atsRemovalNow, hn]

theorem atsRemovalNow_head {p : Package} {i : AtsInv} {l : List AtsInv} (h : p.atsInv = i :: l) (hi : i.removed = false) :
    atsRemovalNow p = ({ p.markInv i with cores := p.cores.map (fun c : Core => { c with tlb := c.tlb.remove (i.covers p) }),
                                          companies := p.companies.map (fun m : Company => m.tlbRemove (i.covers p)),
                                          atsInv := i.atRemoval p :: l } : Package).later .now .invalidationCompletion := by
  have hpos : (!i.removed) = true := by rw [hi]; rfl
  rw [atsRemovalNow, h, List.find?_cons_of_pos (p := fun i : AtsInv => !i.removed) hpos]
  dsimp only [Package.markInv, Package.markAts]
  rw [h, findIdx?_head l hpos]
  rfl

section
variable {p : Package} {i : AtsInv} {l : List AtsInv} (h : p.atsInv = i :: l) (hi : i.removed = false)
include h hi

theorem atsInv_atsRemovalNow : (atsRemovalNow p).atsInv = i.atRemoval p :: l := by
  rw [atsRemovalNow_head h hi]
  rfl

theorem due_atsRemovalNow : (atsRemovalNow p).due = p.due ++ [{ at_ := .now, ev := .invalidationCompletion }] := by
  rw [atsRemovalNow_head h hi]
  rfl

theorem pcie_atsRemovalNow : (atsRemovalNow p).pcie = (p.markInv i).pcie := by
  rw [atsRemovalNow_head h hi]
  rfl

theorem atsRemovalNow_tlb (c : Nat) : SetKeeps (p.core c).tlb ((atsRemovalNow p).core c).tlb fun e => c < p.cores.length ∧ i.covers p e = true := by
  have hcores : (atsRemovalNow p).cores = p.cores.map fun c : Core => { c with tlb := c.tlb.remove (i.covers p) } := by
    rw [atsRemovalNow_head h hi]
    rfl
  rw [Package.core, Package.core, hcores, List.getD_eq_getElem?_getD, List.getD_eq_getElem?_getD, List.getElem?_map]
  by_cases hc : c < p.cores.length
  · rw [List.getElem?_eq_getElem hc]
    exact setKeeps_remove _ fun e => by simp [hc]
  · rw [List.getElem?_eq_none (Nat.le_of_not_lt hc)]
    exact setKeeps_self _ fun e he => hc he.1

end

theorem invalidationCompletionAt_none {p : Package} {k : Clock} (h : ∀ i ∈ p.atsInv, i.removed = false) : invalidationCompletionAt k p = p := by
  have hn : p.atsInv.find? (fun i => i.removed) = none := List.find?_eq_none.2 fun x hx => by simp [h x hx]
  rw [invalidationCompletionAt, hn]

/-- Nothing that could have used the entries which an invalidation removed is in flight. -/
def AtsInv.Drained (i : AtsInv) (p : Package) (mcyc : Nat) : Prop :=
  (∀ b, b ∈ i.before → p.olderInFlight b.1 b.2.1 b.2.2 = false) ∧ (∀ a, a ∈ i.copyAcks → a.2 ≤ mcyc) ∧ ∀ w, w ∈ p.pcie → w.1 ∉ i.tags

theorem invDrained_iff (i : AtsInv) (p : Package) (mcyc : Nat) :
    (i.before.any (fun b => p.olderInFlight b.1 b.2.1 b.2.2) || (i.copyAcks.any fun a => decide (mcyc < a.2)) || p.pcie.any fun y => i.tags.contains y.1) = false
      ↔ i.Drained p mcyc := by
  simp [AtsInv.Drained, and_assoc]

section
variable {p : Package} {k : Clock} {i : AtsInv} {l : List AtsInv} (h : p.atsInv = i :: l) (hi : i.removed = true)
include h hi

theorem invalidationCompletionAt_waits (hd : ¬ i.Drained p k.mcyc) : invalidationCompletionAt k p = p.later (.mesh (k.mcyc + 1)) .invalidationCompletion := by
  rw [← invDrained_iff, Bool.not_eq_false] at hd
  rw [invalidationCompletionAt, h, List.find?_cons_of_pos (p := fun i : AtsInv => i.removed) hi]
  exact if_pos hd

theorem invalidationCompletionAt_drained (hd : i.Drained p k.mcyc) :
    invalidationCompletionAt k p = ({ p with atsInv := l } : Package).egress 0 (.invalidationCompletion i.pasid i.va) := by
  rw [← invDrained_iff, ← Bool.not_eq_true] at hd
  rw [invalidationCompletionAt, h, List.find?_cons_of_pos (p := fun i : AtsInv => i.removed) hi]
  refine (if_neg hd).trans ?_
  rw [findIdx?_head l hi]
  rfl

end

end Sys2Proof.Machine

open Sys2Proof Sys2Proof.Machine in
/-- Settles O42: what an entry says; then, event by event, what the walker makes of the oldest walk, and what a shootdown and an invalidation mark, remove and
wait for. -/
theorem walksAndInvalidations : Obligations.WalksAndInvalidations := by
  refine ⟨fun p part va write fetch lev e hlev => entrySays_pteStep p part va write fetch e hlev, ?walkIdle, ?walkBegins, ?walkReads, ?noEnd, ?marked, ?fills,
    ?arrives, ?noRemoval, ?removal, ?noAck, ?ack, ?request, ?noInvRemoval, ?invRemoval, ?noCompletion, ?completion⟩
  case walkIdle =>
    intro s m hr hidle
    rw [exec_pageWalk, pageWalkAt_idle (fun w hw => Bool.eq_false_iff.2 (mt (reads_iff s w).1 (hr w hw))) hidle]
  case walkBegins =>
    intro s m w l hw hl hs hm h8
    exact event_next rfl (pageWalkAt_begins hw (fun x hx => Bool.eq_false_iff.2 (mt (reads_iff s x).1 (hl x hx))) hs hm h8)
  case walkReads =>
    intro s m w l hw hr _
    have hread := pageWalkAt_reads hw ((reads_iff s w).2 hr)
    refine ⟨fun he => event_next rfl (hread.trans (walkRead_unbacked hw he)), fun place hp => ⟨fun e he => ?_, fun table he => ?_⟩⟩
    · exact ⟨_, event_next rfl hread, walkRead_stop hw hp he⟩
    · exact ⟨_, _, event_next rfl hread, rfl, walkRead_next hw hp he⟩
  case noEnd =>
    intro s m h
    rw [exec_walkComplete, walkCompleteAt_none h]
  case marked => exact fun s m w l hw hs he hend ht hm => event_next rfl (walkCompleteAt_marked hw hs he ht hend hm)
  case fills =>
    intro s m core slot w e x b k hw hs he hm hend ht hwait hslot hmc hx hpark hb ho hl
    subst hmc
    obtain ⟨q, hq, hwalks, hwave, htlb, hcompany⟩ := walkCompleteAt_waiter hw hs he ht hend hm hwait hslot hx hpark
    exact ⟨_, _, event_next rfl hq, hwalks, hwave, blockedAt_translated hl hb ho, htlb, hcompany⟩
  case arrives =>
    intro s core part va len hcore x
    refine ⟨_, event_next rfl (shootdownAt_eq core part va len s.clk s.pkg), core_shot x _ _ hcore, congrArg (· ++ _) (due_shot x _ _), fun hlt n w hn => ?_,
      fun hva => markShot_pcie_device (x := x) _ hva, fun hva => markShot_pcie_host (x := x) _ hva⟩
    obtain ⟨b, hb, hiff⟩ := getElem?_map_mark x hn
    exact ⟨b, (congrArg (fun c : Company => c.walks[n]?) (company_shot x _ _ hlt)).trans hb, hiff⟩
  case noRemoval =>
    intro s core h
    rw [exec_shootdownRemoval, shootdownRemovalAt_none h]
  case removal =>
    intro s core x l h hx
    have hcore := core_shootdownRemovalAt h hx
    refine ⟨_, exec_shootdownRemoval core s, congrArg Core.shoot hcore, ?_, fun hlt => ?_, ack_due_shootdownRemovalAt h hx⟩
    · simp only [hcore]
      exact setKeeps_remove _ (covers_iff x)
    · have hcompany := company_shootdownRemovalAt h hx hlt
      refine ⟨fun i _ hi => ?_, fun n w hn => ?_⟩
      · have htlb : ((shootdownRemovalAt core s.pkg).company (core / 8)).tlbSet i = ((s.pkg.company (core / 8)).tlbSet i).remove x.covers :=
          (congrArg (fun c : Company => c.tlbSet i) hcompany).trans (tlbSet_tlbRemove hi _)
        rw [htlb]
        exact setKeeps_remove _ (covers_iff x)
      · have hwalks : ((shootdownRemovalAt core s.pkg).company (core / 8)).walks[n]? = some (x.restart w) :=
          (congrArg (fun c : Company => c.walks[n]?) hcompany).trans ((List.getElem?_map ..).trans (congrArg (Option.map x.restart) hn))
        exact ⟨fun hshot => hwalks.trans (congrArg some (restart_of_shot hshot)), fun hnot => hwalks.trans (congrArg some (restart_of_not_shot hnot))⟩
  case noAck =>
    intro s core h
    rw [exec_shootdownAck, shootdownAckAt_none h]
  case ack => exact fun s core x l h hx => ⟨fun hd => event_next rfl (shootdownAckAt_waits h hx hd), fun hd => event_next rfl (shootdownAckAt_drained h hx hd)⟩
  case request =>
    exact fun s pasid va log2 => ⟨_, exec_atsInvalidateRequest pasid va log2 s, rfl, rfl, markInv_marks _ _⟩
  case noInvRemoval =>
    intro s h
    rw [exec_atsInvalidateRemoval, atsRemovalNow_none h]
  case invRemoval =>
    intro s i l h hi
    refine ⟨_, i.atRemoval s.pkg, exec_atsInvalidateRemoval s, atsInv_atsRemovalNow h hi, rfl, fun core slot w _ hw => mem_before_atRemoval i hw,
      fun core hlt => mem_copyAcks_atRemoval i hlt, fun c => (atsRemovalNow_tlb h hi c).congr fun e => and_congr_right fun _ => invCovers_iff i s.pkg e,
      ?_, due_atsRemovalNow h hi⟩
    simp only [pcie_atsRemovalNow h hi]
    exact markInv_marks s.pkg i
  case noCompletion =>
    intro s h
    rw [exec_invalidationCompletion, invalidationCompletionAt_none h]
  case completion =>
    exact fun s i l h hi => ⟨fun hd => event_next rfl (invalidationCompletionAt_waits h hi hd), fun hd => event_next rfl (invalidationCompletionAt_drained h hi hd)⟩
end

section
/-! SUPPORT. Partitions, their exchange and the retirement of a slice (Sys2Proof/Machine/Partition.lean: R228, R274, R275, R340, R351). -/

namespace Sys2Proof.Machine

theorem exec_partitionConfigure (k : Nat) (v : Quad) (ctx : AddrContext) (s : State) :
    exec (.partitionConfigure k v ctx) s = .next { s with pkg := configureAt k v ctx s.clk s.pkg } := rfl

theorem exec_partitionSwap (k : Nat) (v : Quad) (s : State) : exec (.partitionSwap k v) s = .next { s with pkg := partitionSwapAt k v s.clk s.pkg } := rfl

theorem exec_understudySwap (s : State) : exec .understudySwap s = .next { s with pkg := understudySwapAt s.clk s.pkg } := rfl

theorem exec_understudySwapEnd (s : State) : exec .understudySwapEnd s = .next { s with pkg := swapEndAt s.clk s.pkg } := rfl

theorem exec_retireSlice (stage company : Nat) (s : State) :
    exec (.retireSlice stage company) s = .next { s with pkg := retireSliceAt stage company s.clk s.pkg } := rfl

theorem exec_sliceRetireReassign (company : Nat) (s : State) :
    exec (.sliceRetireReassign company) s = .next { s with pkg := sliceReassignAt company s.clk s.pkg } := rfl

/-! What a change of the way masks leaves alone (R228). -/

theorem SlicesOnly.flushSlice (p : Package) (m : Nat) (keep : CacheSet → Nat → Bool) : SlicesOnly p (p.flushSlice m keep) := by
  unfold Package.flushSlice
  refine SlicesOnly.trans (.foldl (fun q c => .foldl (fun r w => ?_) _ q) _ p) (.setL2 _ m _)
  split
  · exact .ite (.refl r) (.writeBack ..)
  · exact .refl r

theorem SlicesOnly.repartition (p old : Package) : SlicesOnly p (p.repartition old) :=
  .ite (.refl p) (.foldl (fun q m => .flushSlice q m _) _ p)

theorem SlicesOnly.parts {p q : Package} (h : SlicesOnly p q) : q.parts = p.parts := by rw [h.rest]

theorem SlicesOnly.stage {p q : Package} (h : SlicesOnly p q) : q.stage = p.stage := by rw [h.rest]

theorem part_repartition (p old : Package) (k : Nat) : (p.repartition old).part k = p.part k := by
  rw [Package.part, (SlicesOnly.repartition p old).parts]
  rfl

/-! Masks and casts of a partition (R340). -/

theorem holdsCasts_iff (s : State) (k : Nat) : s.pkg.holdsCasts k = true ↔ HoldsCasts s k := by
  rw [Package.holdsCasts, List.any_eq_true]
  refine exists_congr fun e => and_congr_right fun _ => ?_
  rw [Bool.and_eq_true, decide_eq_true_iff]
  refine and_congr_right fun _ => ?_
  cases e.state <;> simp

theorem mem_validParts (p : Package) (k : Nat) : k ∈ p.validParts ↔ k < 8 ∧ (p.part k).valid = true := by
  simp [Package.validParts]

theorem overlaps_iff (s : State) (k : Nat) (m : BitVec 32) : s.pkg.overlaps k m = true ↔ Overlaps s k m := by
  simp only [Package.overlaps, Overlaps, List.any_eq_true, mem_validParts, Bool.and_eq_true, decide_eq_true_iff, and_assoc]

theorem swapTarget_of_swapWith {s : State} {k j : Nat} {x : Quad} (h : SwapWith s k x j) : s.pkg.swapTarget k x = some j := by
  obtain ⟨hbit, hmask, ⟨hj, hvalid, hne, hsame⟩, hfirst⟩ := h
  change cfgMask x ≠ 0 at hmask
  change (s.pkg.part j).companies = cfgMask x at hsame
  have hasks : ¬ (!x.getLsbD 32 || decide (cfgMask x = 0)) = true := by
    rw [hbit, decide_eq_false hmask]
    exact Bool.false_ne_true
  rw [Package.swapTarget, if_neg hasks, Package.validParts, List.find?_filter, List.find?_range_eq_some]
  refine ⟨by simp [hvalid, hne, hsame], List.mem_range.2 hj, fun i hi => ?_⟩
  rw [Bool.not_eq_true', Bool.eq_false_iff]
  intro hnamed
  simp only [Bool.and_eq_true, decide_eq_true_eq] at hnamed
  exact hfirst i hi ⟨by omega, hnamed⟩

/-! Configuration (R340). -/

/-- A partition with the values of a configuration. -/
def Partition.configured (q : Partition) (v : Quad) (valid : Bool) (swapped : Bool) (ctx : AddrContext) : Partition :=
  { q.setRecov (v.getLsbD 35) with companies := cfgMask v, valid := valid, swapped := swapped, ctx := ctx }

theorem part_configureAt {s : State} {k : Nat} {v : Quad} {ctx : AddrContext} (hbit : v.getLsbD 32 = true) (hk : k < 8) (hlt : k < s.pkg.parts.length)
    (hover : ¬ Overlaps s k (v.setWidth 32)) (hholds : ¬ HoldsCasts s k) (hop : s.pkg.planeOp = none) (j : Nat) :
    (configureAt k v ctx s.clk s.pkg).part j = if j = k then (s.pkg.part k).configured v true false ctx else s.pkg.part j := by
  have hbusy : s.pkg.holdsCasts k = false := Bool.eq_false_iff.2 (mt (holdsCasts_iff s k).1 hholds)
  have hfree : s.pkg.overlaps k (cfgMask v) = false := Bool.eq_false_iff.2 (mt (overlaps_iff s k _).1 hover)
  have htaken : configureAt k v ctx s.clk s.pkg =
      let q := (s.pkg.modPart k fun q => q.configured v true false ctx).repartition s.pkg
      if v.getLsbD 35 then q else q.emptyFilters k := by
    rw [configureAt]
    simp only [hbusy, hfree, hbit, hop, Bool.not_true, Bool.false_or, Bool.or_false, Bool.false_and, Bool.and_false, Option.any_none, Bool.false_eq_true, if_false,
      decide_eq_true_eq, Nat.not_le.2 hk]
    rfl
  have hparts (q : Package) : (if v.getLsbD 35 then q else q.emptyFilters k).part j = q.part j := by split <;> rfl
  rw [htaken]
  refine (hparts _).trans ?_
  rw [part_repartition, part_modPart]
  simp only [hlt, and_true]

/-! A swap is asked for (R274, R340). -/

theorem askStops_eq (l : List Nat) (p : Package) : l.foldl Package.askStop p = { p with cores := (l.foldl Package.askStop p).cores } :=
  List.foldlRecOn (motive := fun q : Package => q = { p with cores := q.cores }) l _ rfl fun q hq c _ => by
    conv_lhs => rw [hq]
    rfl

theorem partitionSwapAt_planes {s : State} {k j : Nat} {x : Quad} (h : SwapWith s k x j) (hk : k < 8) (hholds : ¬ HoldsCasts s k) (hop : s.pkg.planeOp = none)
    (hj : (s.pkg.part j).recov = false) (hx : x.getLsbD 35 = false) (hplanes : ∀ core ∈ s.pkg.maskCores (x.setWidth 32), (s.pkg.core core).plane = .empty) :
    ∃ cores, partitionSwapAt k x s.clk s.pkg =
      ({ (s.pkg.modPart k fun q => q.configured x false q.swapped (Config.addrContext k x)).repartition s.pkg with
        planeOp := some { out := j, in_ := k, mask := x.setWidth 32, dram := false, startedAt := none }, cores := cores } : Package).later .now .understudySwap := by
  have hbusy : s.pkg.holdsCasts k = false := Bool.eq_false_iff.2 (mt (holdsCasts_iff s k).1 hholds)
  have hall : ((s.pkg.maskCores (cfgMask x)).all fun c => (s.pkg.core c).plane.allows k) = true :=
    List.all_eq_true.2 fun c hc => by rw [hplanes c hc]; rfl
  have hset (q : Partition) : { q.setRecov false with companies := cfgMask x, valid := false, ctx := Config.addrContext k x } = q.configured x false q.swapped (Config.addrContext k x) := by
    rw [Partition.configured, hx]
    rfl
  rw [partitionSwapAt, swapTarget_of_swapWith h]
  simp only [hbusy, hop, hj, hx, hall, Bool.false_and, Bool.or_false, Bool.not_true, decide_eq_true_eq, Nat.not_le.2 hk, if_false, Option.isSome_none, Bool.false_eq_true,
    Bool.or_self, hset]
  rw [askStops_eq]
  exact ⟨_, rfl⟩

/-! The exchange through DRAM (R274, R340). -/

theorem parts_exchangeCore (p : Package) (o : PlaneOp) (core : Nat) : (p.exchangeCore o core).parts = p.parts := by
  unfold Package.exchangeCore
  dsimp only
  split <;> rfl

theorem parts_exchangeCores (o : PlaneOp) (l : List Nat) (p : Package) : (l.foldl (fun (p : Package) c => p.exchangeCore o c) p).parts = p.parts :=
  List.foldlRecOn (motive := fun q : Package => q.parts = p.parts) l _ rfl fun q hq c _ => (parts_exchangeCore q o c).trans hq

theorem plane_of_eq_none {x : Plane} {k : Nat} (h : ∀ c, x ≠ .context k c) : x.of k = none := by
  cases x with
  | context j c =>
    rw [Plane.of, if_neg]
    rintro rfl
    exact h c rfl
  | empty | snapshot => rfl

/-- With no cast of the leaving partition and idle cores, a swap through DRAM starts at a tick boundary. -/
theorem understudySwapAt_dram {t : Clock} {p : Package} {o : PlaneOp} (hop : p.planeOp = some o) (hstart : o.startedAt = none) (hdram : o.dram = true)
    (ht : t.mcyc % 64 = 0) (hcasts : ∀ e ∈ p.casts, e.part ≠ o.out)
    (hidle : ∀ core ∈ p.maskCores o.mask, (p.core core).binds = [] ∧ (p.core core).residents = []) : understudySwapAt t p = p.startSwap t o := by
  have hnone : (p.casts.filter fun e => e.part = o.out && (p.victim? e).isSome) = [] :=
    List.filter_eq_nil_iff.2 fun e he => by simp [hcasts e he]
  have hready : p.swapReady t o = true := by
    rw [Package.swapReady, hdram]
    refine List.all_eq_true.2 fun c hc => ?_
    rw [(hidle c hc).1, (hidle c hc).2]
    rfl
  rw [understudySwapAt, hop]
  simp only [hstart, Option.isSome_none, Bool.false_eq_true, if_false, hdram, if_true, hnone, List.foldl_nil, ht, decide_true, hready, Bool.and_self]

theorem part_startSwap (t : Clock) {p : Package} {o : PlaneOp} (hne : o.out ≠ o.in_) (hout : o.out < p.parts.length) (hin : o.in_ < p.parts.length) :
    (p.startSwap t o).part o.out = { p.part o.out with valid := false, swapped := !o.dram }
      ∧ (p.startSwap t o).part o.in_ = { p.part o.in_ with valid := true, swapped := false } := by
  have hswapped : ∃ q : Package, q.parts = p.parts ∧ ∀ k, (p.startSwap t o).part k =
      ((q.modPart o.out fun x => { x with valid := false, swapped := !o.dram }).modPart o.in_ fun x => { x with valid := true, swapped := false }).part k := by
    refine ⟨_, parts_exchangeCores o (p.maskCores o.mask) p, fun k => Eq.trans ?_ (part_repartition _ p k)⟩
    rw [Package.startSwap]
    split <;> rfl
  obtain ⟨q, hq, hpart⟩ := hswapped
  have hsame (k : Nat) : q.part k = p.part k := by rw [Package.part, hq]; rfl
  rw [hpart, hpart]
  simp only [part_modPart, parts_modPart_length, hq, hsame, hout, hin, hne, hne.symm, and_true, if_true, if_false, and_self]

theorem planeOp_startSwap (t : Clock) {p : Package} {o : PlaneOp} (hdram : o.dram = true)
    (hplanes : ∀ core ∈ p.maskCores o.mask, ∀ c, (p.core core).plane ≠ .context o.in_ c) : (p.startSwap t o).planeOp = none := by
  have hback : ((p.maskCores o.mask).any fun c => ((p.core c).plane.of o.in_).isSome) = false :=
    List.any_eq_false.2 fun c hc => by simp [plane_of_eq_none (hplanes c hc)]
  rw [Package.startSwap]
  simp only [hdram, hback, Bool.not_true, Bool.or_self, Bool.false_eq_true, if_false]

/-! The end of the exchange (R274). -/

/-- A core that holds no wave and no request of the time before its stop. -/
def Package.IdleCore (p : Package) (core : Nat) : Prop := (p.core core).ctx.deferred = [] ∧ ∀ i, p.wave? core i = none

/-- A core that goes on. -/
def Core.released (k : Core) : Core :=
  { k with stopped := false, ctx := { k.ctx with deferred := [], casts := k.ctx.casts.map (Option.map fun c : Cast => { c with stopping := none }) } }

theorem releaseCore_idle {p : Package} {core : Nat} (h : p.IdleCore core) (t : Clock) :
    p.releaseCore t core = (p.modCore core Core.released).later .now (.collectiveStart core) := by
  obtain ⟨hdeferred, hwaves⟩ := h
  have hnone (i : Nat) : (p.modCore core Core.released).wave? core i = none := (wave?_modCore (f := Core.released) (fun _ => rfl) p core core i).trans (hwaves i)
  have hrevive : (List.range 64).foldl (fun (p : Package) i => p.reviveWave t core i ((p.wave? core i).bind Wave.fence)) (p.modCore core Core.released)
      = p.modCore core Core.released := by
    refine List.foldlRecOn (motive := fun q => q = p.modCore core Core.released) _ _ rfl fun q hq i _ => ?_
    rw [hq, hnone i]
    exact reviveWave_none (fun w hw => by rw [hnone i] at hw; cases hw) t
  rw [Package.releaseCore, hdeferred]
  exact congrArg (fun q : Package => q.later .now (.collectiveStart core)) hrevive

theorem idle_of_released {p : Package} {core : Nat} (h : p.IdleCore core) (c : Nat) (t : DueAt) (e : Instr) :
    ((p.modCore c Core.released).later t e).IdleCore core := by
  refine ⟨?_, fun i => (wave?_modCore (f := Core.released) (fun _ => rfl) p c core i).trans (h.2 i)⟩
  change ((p.modCore c Core.released).core core).ctx.deferred = []
  by_cases hc : core = c
  · subst hc
    by_cases hlt : core < p.cores.length
    · rw [core_modCore_self _ _ _ hlt]
      rfl
    · rw [Package.core, List.getD_eq_getElem?_getD, List.getElem?_eq_none (by rw [cores_modCore]; omega)]
      rfl
  · rw [core_modCore_ne _ _ _ _ hc, h.1]

/-- Idle cores that go on: none is stopped any more, and no partition changes. -/
theorem releaseCores_idle (t : Clock) (l : List Nat) {p : Package} (h : ∀ core ∈ l, p.IdleCore core) :
    let q := l.foldl (fun (p : Package) c => p.releaseCore t c) p
    q.parts = p.parts ∧ q.planeOp = p.planeOp ∧ ∀ core, core < p.cores.length → core ∈ l ∨ (p.core core).stopped = false → (q.core core).stopped = false := by
  induction l generalizing p with
  | nil => exact ⟨rfl, rfl, fun core _ hs => hs.resolve_left List.not_mem_nil⟩
  | cons c l ih =>
    obtain ⟨hc, hl⟩ := List.forall_mem_cons.1 h
    obtain ⟨hparts, hop, hcores⟩ := ih fun core hcore => idle_of_released (hl core hcore) c .now (.collectiveStart c)
    rw [List.foldl_cons, releaseCore_idle hc]
    refine ⟨hparts, hop, fun core hlt hs => hcores core ((cores_modCore p c Core.released).symm ▸ hlt) ?_⟩
    by_cases hcc : core = c
    · subst hcc
      exact .inr (congrArg Core.stopped (core_modCore_self p core Core.released hlt))
    · refine hs.imp (fun hm => (List.mem_cons.1 hm).resolve_left hcc) fun hs => ?_
      exact (congrArg Core.stopped (core_modCore_ne p c core Core.released hcc)).trans hs

theorem swapEndAt_over {t : Clock} {p : Package} {o : PlaneOp} {u : Nat} (hop : p.planeOp = some o) (hstart : o.startedAt = some u) (hu : u + 16 ≤ t.rtick) :
    swapEndAt t p = (p.maskCores o.mask).foldl (fun (p : Package) c => p.releaseCore t c) { p with planeOp := none } := by
  obtain ⟨out, in_, mask, dram, startedAt⟩ := o
  cases hstart
  rw [swapEndAt, hop]
  exact if_neg (Nat.not_lt.2 hu)

/-! The retirement of a slice (R351). -/

theorem mem_liveSlices (p : Package) (stage m : Nat) : m ∈ p.liveSlices stage ↔ m < 8 ∧ (p.company (8 * stage + m)).retired = false := by
  simp [Package.liveSlices]

theorem one_lt_length_of_mem {α : Type} {l : List α} {a b : α} (ha : a ∈ l) (hb : b ∈ l) (hne : a ≠ b) : 1 < l.length := by
  match l with
  | [x] => exact absurd ((List.mem_singleton.1 ha).trans (List.mem_singleton.1 hb).symm) hne
  | _ :: _ :: _ => simp

theorem retireSliceAt_begins {s : State} {stage company : Nat} (ht : s.clk.mcyc % 64 = 0) (hthere : ¬ NoSuchSlice s stage company)
    (hnone : (s.pkg.stageAt stage).retiring = none) (hother : OtherSlice s stage company) :
    retireSliceAt stage company s.clk s.pkg = s.pkg.modStage stage fun x => { x with retiring := some company } := by
  simp only [NoSuchSlice, not_or, Nat.not_le, Bool.not_eq_true, Bool.not_eq_false] at hthere
  obtain ⟨hstage, hcompany, hpresent, hlive⟩ := hthere
  obtain ⟨m, hm, hne, hserves⟩ := hother
  have hmem : company ∈ s.pkg.liveSlices stage := (mem_liveSlices ..).2 ⟨hcompany, hlive⟩
  have hmore := one_lt_length_of_mem hmem ((mem_liveSlices ..).2 ⟨hm, hserves⟩) hne.symm
  rw [retireSliceAt, if_neg (by omega), if_neg (by simp [hpresent, hmem, hstage, hcompany]), hnone, if_neg (by simp), if_neg (by omega)]

theorem reassign_get? (m : Nat) (heirs : List Nat) (i : Nat) (l : List Nat) (n : Nat) : (reassign m heirs i l)[n]? =
    (l[n]?).map fun b => if b = m then heirs.getD ((i + ((l.take n).filter (· = m)).length) % max heirs.length 1) m else b := by
  induction l generalizing i n with
  | nil => rfl
  | cons b l ih =>
    by_cases hb : b = m
    · rw [reassign, if_pos hb]
      cases n with
      | zero => simp [hb]
      | succ n => simp [ih, hb, Nat.add_assoc, Nat.add_comm 1]
    · rw [reassign, if_neg hb]
      cases n with
      | zero => simp [hb]
      | succ n => simp [ih, hb]

/-- A slice that is retired hands its buckets to its heirs, and keeps nothing. -/
def Stage.handOn (x : Stage) (m : Nat) (heirs : List Nat) : Stage :=
  { x with buckets := reassign m heirs 0 x.buckets, retiring := none, heldReqs := [], retireQ := x.retireQ.drop 1 }

/-- A company whose slice serves nothing any more. -/
def Company.retire (c : Company) : Company := { c with l2 := [], resv := [], filter := [], staged := [], stageWait := [], retired := true }

/-- The package after the retirement of a drained slice. -/
def Package.handedOn (p : Package) (company : Nat) : Package :=
  ((p.flushSlice company fun _ _ => false).modCompany company Company.retire).modStage (company / 8) fun x => x.handOn (company % 8) (p.heirs (company / 8) (company % 8))

theorem retired_handedOn {p : Package} {company : Nat} (h : company < p.companies.length) : ((p.handedOn company).company company).retired = true :=
  congrArg Company.retired (company_modCompany_self (p.flushSlice company fun _ _ => false) company Company.retire
    ((SlicesOnly.flushSlice p company _).ncompanies.symm ▸ h))

theorem stageAt_handedOn {p : Package} {company : Nat} (h : company / 8 < p.stage.length) :
    (p.handedOn company).stageAt (company / 8) = (p.stageAt (company / 8)).handOn (company % 8) (p.heirs (company / 8) (company % 8)) := by
  have hstage : ((p.flushSlice company fun _ _ => false).modCompany company Company.retire).stage = p.stage :=
    (SlicesOnly.flushSlice p company fun _ _ => false).stage
  rw [Package.handedOn, stageAt_modStage, if_pos ⟨rfl, hstage.symm ▸ h⟩, Package.stageAt, hstage]
  rfl

theorem buckets_handOn {x : Stage} {i b : Nat} (hb : x.buckets[i]? = some b) (m : Nat) (heirs : List Nat) : (x.handOn m heirs).buckets[i]? =
    some (if b = m then heirs.getD (((x.buckets.take i).filter (· = m)).length % max heirs.length 1) m else b) := by
  rw [Stage.handOn, reassign_get?, hb, Option.map_some, Nat.zero_add]

theorem stage_lt_of_retiring {p : Package} {st m : Nat} (h : (p.stageAt st).retiring = some m) : st < p.stage.length := by
  by_contra hn
  rw [Package.stageAt, List.getD_eq_getElem?_getD, List.getElem?_eq_none (Nat.le_of_not_lt hn)] at h
  cases h

theorem sliceReassignAt_drained {p : Package} {company : Nat} {t : Clock} (hr : (p.stageAt (company / 8)).retiring = some (company % 8)) (ht : t.mcyc % 64 = 0)
    (hdrained : p.sliceDrained company = true) (hstaged : (p.company company).staged = []) (hwait : (p.company company).stageWait = [])
    (hheld : (p.stageAt (company / 8)).heldReqs = []) (hq : (p.stageAt (company / 8)).retireQ = []) :
    sliceReassignAt company t p = p.handedOn company := by
  have hstage (f : Company → Company) : ((p.flushSlice company fun _ _ => false).modCompany company f).stageAt (company / 8) = p.stageAt (company / 8) := by
    rw [Package.stageAt, Package.modCompany_stage, (SlicesOnly.flushSlice p company _).stage]
    rfl
  rw [sliceReassignAt, if_neg (by simp [hr, ht, hdrained])]
  simp only [hstage, hstaged, hwait, hheld, hq, List.append_nil, List.foldl_nil]
  rfl

end Sys2Proof.Machine

open Sys2Proof Sys2Proof.Machine in
/-- Settles O50: the walks, shootdowns and invalidations by what each event makes of the only one there is (O42's lemmas); configuration, swap and
retirement by the package that each leaves. -/
theorem walksAndPartitionsComplete : Obligations.WalksAndPartitionsComplete := by
  refine ⟨?begins, ?marked, ?fills, ?shootdown, ?removal, ?ack, ?request, ?invRemoval, ?completion, ?configure, ?swap, ?exchange, ?exchangeEnd, ?retire, ?reassign⟩
  case begins => exact fun s m w hw hs hm => event_next rfl (pageWalkAt_begins hw (fun _ hx => absurd hx List.not_mem_nil) hs hm (by simp))
  case marked => exact fun s m w hw hs he hend ht hm => event_next rfl (walkCompleteAt_marked hw hs he ht hend hm)
  case fills => exact fun s m w e _ hw hs he hm hend ht hn => ⟨_, exec_walkComplete m s, walkCompleteAt_alone hw hs he ht hend hm hn⟩
  case shootdown =>
    intro s core part va len hcore
    exact ⟨_, event_next rfl (shootdownAt_eq core part va len s.clk s.pkg), congrArg Core.shoot (core_shot _ _ _ hcore), congrArg (· ++ _) (due_shot _ _ _)⟩
  case removal =>
    intro s core x _ h hx
    have hcore := core_shootdownRemovalAt h hx
    refine ⟨_, x.atRemoval s.pkg core, exec_shootdownRemoval core s, congrArg Core.shoot hcore, rfl, rfl, rfl, rfl, ?_, ack_due_shootdownRemovalAt h hx⟩
    simp only [hcore]
    exact setKeeps_remove _ (covers_iff x)
  case ack => exact fun s core x h hx hbefore hcopy htags => event_next rfl (shootdownAckAt_drained h hx ⟨hbefore, hcopy, htags⟩)
  case request => exact fun s pasid va log2 => ⟨_, exec_atsInvalidateRequest pasid va log2 s, rfl, rfl⟩
  case invRemoval =>
    intro s i h hi
    refine ⟨_, i.atRemoval s.pkg, exec_atsInvalidateRemoval s, atsInv_atsRemovalNow h hi, rfl, rfl, rfl, rfl, fun core hcore => ?_, due_atsRemovalNow h hi⟩
    exact (atsRemovalNow_tlb h hi core).congr fun e => (and_iff_right hcore).trans (invCovers_iff i s.pkg e)
  case completion => exact fun s i h hi hbefore hcopy htags => event_next rfl (invalidationCompletionAt_drained h hi ⟨hbefore, hcopy, htags⟩)
  case configure =>
    intro s k x ctx hbit hk hlt hover hholds hop
    have hpart := part_configureAt (ctx := ctx) hbit hk hlt hover hholds hop
    have hself := (hpart k).trans (if_pos rfl)
    exact ⟨_, exec_partitionConfigure k x ctx s, congrArg Partition.companies hself, congrArg Partition.valid hself, congrArg Partition.recov hself,
      congrArg Partition.ctx hself, fun j hj => (hpart j).trans (if_neg hj)⟩
  case swap =>
    intro s k j x hwith hk hlt hholds hop hj hx hplanes
    obtain ⟨cores, hswap⟩ := partitionSwapAt_planes hwith hk hholds hop hj hx hplanes
    have hself : ((s.pkg.modPart k fun q => q.configured x false q.swapped (Config.addrContext k x)).repartition s.pkg).part k =
        (s.pkg.part k).configured x false (s.pkg.part k).swapped (Config.addrContext k x) := by
      rw [part_repartition, part_modPart, if_pos ⟨rfl, hlt⟩]
    exact ⟨_, event_next rfl hswap, rfl, congrArg Partition.companies hself, congrArg Partition.ctx hself, List.mem_append_right _ (List.mem_singleton_self _)⟩
  case exchange =>
    intro s o hop hstart hdram hne hout hin ht hcasts hidle
    obtain ⟨hleaves, hcomes⟩ := part_startSwap s.clk hne hout hin
    refine ⟨_, event_next rfl (understudySwapAt_dram hop hstart hdram ht hcasts hidle), congrArg Partition.valid hleaves,
      (congrArg Partition.swapped hleaves).trans ?_, congrArg Partition.valid hcomes, congrArg Partition.swapped hcomes, planeOp_startSwap s.clk hdram⟩
    rw [hdram]
    rfl
  case exchangeEnd =>
    intro s o u hop hstart hu hidle
    obtain ⟨hparts, hover, hcores⟩ := releaseCores_idle s.clk (s.pkg.maskCores o.mask) (p := { s.pkg with planeOp := none }) hidle
    exact ⟨_, event_next rfl (swapEndAt_over hop hstart hu), hover, hparts, fun core hcore hlt => hcores core hlt (.inl hcore)⟩
  case retire => exact fun s stage company ht hthere hnone hother => event_next rfl (retireSliceAt_begins ht hthere hnone hother)
  case reassign =>
    intro s company hlt hr ht hempty hheld hq m old heirs
    obtain ⟨hinq, hstalled, hfills, hreleases, hstaged, hwait, _⟩ := hempty
    have hdrained : s.pkg.sliceDrained company = true := by simp [Package.sliceDrained, hinq, hstalled, hfills, hreleases]
    have hstage := stageAt_handedOn (stage_lt_of_retiring hr)
    refine ⟨_, event_next rfl (sliceReassignAt_drained hr ht hdrained hstaged hwait hheld hq), retired_handedOn hlt, congrArg Stage.retiring hstage, fun i b hb => ?_⟩
    exact (congrArg (fun x : Stage => x.buckets[i]?) hstage).trans (buckets_handOn hb m heirs)
end

section
/-! SUPPORT. LDS and STS (Sys2Proof/Machine/Scratch.lean: R209 to R211, R224, R258): what a commit makes of the scratchpad and of its wave, one lemma each for a load
and for a store. -/

namespace Sys2Proof.Machine

/-! A commit beside the waves. -/

theorem commit_withWaves (x : CoreCtx) (W : List (Option Wave)) (c : Cast) (a : FeAccess) :
    ({ x with waves := W } : CoreCtx).commit c a = { x.commit c a with waves := W } := by
  have hfe : ∀ (b : Bool) (y : CoreCtx), a.granules.foldl (fun x g => x.setFe c g b) { y with waves := W } =
      { a.granules.foldl (fun x g => x.setFe c g b) y with waves := W } := fun b _ =>
    List.foldl_hom (g₁ := fun x g => x.setFe c g b) (fun y : CoreCtx => { y with waves := W }) fun _ _ => rfl
  unfold CoreCtx.commit
  cases a.feAfter with
  | none => cases a.store <;> rfl
  | some b =>
    cases a.store with
    | false => exact hfe b x
    | true => exact hfe b (x.spWrite c _)

/-- A commit at the scratchpad keeps the waves. -/
theorem commit_waves (x : CoreCtx) (c : Cast) (a : FeAccess) : (x.commit c a).waves = x.waves :=
  (congrArg CoreCtx.waves (commit_withWaves x x.waves c a) :)

/-- The wave of an access that commits (R210, R258): what a load brings, and the acquire of LDS.F and LDS.T. -/
def Wave.committed (w : Wave) (x : CoreCtx) (c : Cast) (a : FeAccess) (leader : Nat) : Wave :=
  if a.store || decide (a.fe = 0) then w.loaded x c a leader else (w.loaded x c a leader).acquireCast

theorem spCommit_eq (p : Package) (core slot leader : Nat) (c : Cast) (a : FeAccess) : p.spCommit core slot leader c a =
    (p.modCtx core fun x => x.commit c a).modWave core slot fun w => w.committed (p.core core).ctx c a leader := by
  simp only [Package.spCommit, Package.modWave, Package.modCtx, modCore_modCore, commit_withWaves, commit_waves]
  rfl

theorem wave?_commit (p : Package) (core : Nat) (c : Cast) (a : FeAccess) (n k : Nat) :
    (p.modCtx core fun x => x.commit c a).wave? n k = p.wave? n k :=
  wave?_modCtx (fun x => commit_waves x c a) p core n k

/-! What a commit makes of the scratchpad. -/

theorem commit_load {x : CoreCtx} {c : Cast} {a : FeAccess} (h : a.store = false) : x.commit c a = { x with fe := (x.commit c a).fe } := by
  unfold CoreCtx.commit
  rw [h]
  cases a.feAfter with
  | none => rfl
  | some b => exact foldFe_rest c b a.granules x

/-- The bytes that a store writes, with their addresses. -/
def FeAccess.bytes (a : FeAccess) : List (Nat × Byte) := (a.lanes.zip a.data).flatMap fun l => keyed l.1.addr.toNat l.2

theorem commit_store {x : CoreCtx} {c : Cast} {a : FeAccess} (h : a.store = true) :
    x.commit c a = { x.spWrite c a.bytes with fe := (x.commit c a).fe } := by
  unfold CoreCtx.commit
  rw [h]
  cases a.feAfter with
  | none => rfl
  | some b => exact foldFe_rest c b a.granules (x.spWrite c a.bytes)

theorem commit_fe_of_none {a : FeAccess} (h : a.feAfter = none) (x : CoreCtx) (c : Cast) : (x.commit c a).fe = x.fe := by
  unfold CoreCtx.commit
  rw [h]
  dsimp only
  split <;> rfl

theorem mem_commit_fe {a : FeAccess} {b : Bool} (h : a.feAfter = some b) (x : CoreCtx) (c : Cast) (n : Nat) : n ∈ (x.commit c a).fe ↔
    if b then n ∈ x.fe ∨ ∃ g ∈ a.granules, c.granule g = n else n ∈ x.fe ∧ ¬ ∃ g ∈ a.granules, c.granule g = n := by
  have hstored : (if a.store then x.spWrite c a.bytes else x).fe = x.fe := by split <;> rfl
  rw [← hstored, ← foldFe]
  unfold CoreCtx.commit
  rw [h]
  rfl

theorem feAfter_zero {a : FeAccess} (h : a.fe = 0) : a.feAfter = none := by
  rw [FeAccess.feAfter, h]
  cases a.store <;> rfl

theorem feAfter_load_fills {a : FeAccess} (h : a.store = false) (he : a.fe = 1) : a.feAfter = some true := by
  rw [FeAccess.feAfter, h, he]
  rfl

theorem feAfter_load_empties {a : FeAccess} (h : a.store = false) (he : 2 ≤ a.fe) : a.feAfter = some false := by
  obtain ⟨n, hn⟩ := Nat.exists_eq_add_of_le' he
  simp [FeAccess.feAfter, h, hn]

theorem feAfter_store {a : FeAccess} (h : a.store = true) (h0 : a.fe ≠ 0) : a.feAfter = some (decide (a.fe ≠ 3)) := by
  match hf : a.fe with
  | 0 => exact absurd hf h0
  | 1 | 2 | 3 | n + 4 => rw [FeAccess.feAfter, h, hf]; simp

theorem commits_load_iff {a : FeAccess} (h : a.store = false) (x : CoreCtx) (c : Cast) :
    x.commits c a = true ↔ a.fe = 0 ∨ ∀ g ∈ a.granules, c.granule g ∈ x.fe := by
  simp [CoreCtx.commits, CoreCtx.full, h]

theorem commits_store_iff {a : FeAccess} (h : a.store = true) (x : CoreCtx) (c : Cast) :
    x.commits c a = true ↔ a.fe ≠ 2 ∨ ∀ g ∈ a.granules, c.granule g ∉ x.fe := by
  simp [CoreCtx.commits, CoreCtx.full, h]

/-- A load that commits empties its granules with .T, and changes no full-empty bit otherwise. -/
theorem mem_fe_load {a : FeAccess} (h : a.store = false) {x : CoreCtx} {c : Cast} (hc : x.commits c a = true) (n : Nat) :
    n ∈ (x.commit c a).fe ↔ n ∈ x.fe ∧ ¬ (2 ≤ a.fe ∧ ∃ g ∈ a.granules, c.granule g = n) := by
  by_cases htwo : 2 ≤ a.fe
  · rw [mem_commit_fe (feAfter_load_empties h htwo), and_iff_right htwo]
    exact Iff.rfl
  · rw [and_iff_left fun hn => htwo hn.1]
    obtain h0 | h1 : a.fe = 0 ∨ a.fe = 1 := by omega
    · rw [commit_fe_of_none (feAfter_zero h0)]
    · have hfull := ((commits_load_iff h x c).1 hc).resolve_left (by omega)
      rw [mem_commit_fe (feAfter_load_fills h h1), if_pos rfl]
      exact or_iff_left_of_imp fun ⟨g, hg, hn⟩ => hn ▸ hfull g hg

theorem mem_fe_store {a : FeAccess} (h : a.store = true) (x : CoreCtx) (c : Cast) (n : Nat) : n ∈ (x.commit c a).fe ↔
    if a.fe = 0 then n ∈ x.fe else if a.fe = 3 then n ∈ x.fe ∧ ¬ ∃ g ∈ a.granules, c.granule g = n
    else n ∈ x.fe ∨ ∃ g ∈ a.granules, c.granule g = n := by
  by_cases h0 : a.fe = 0
  · rw [commit_fe_of_none (feAfter_zero h0), if_pos h0]
  · rw [mem_commit_fe (feAfter_store h h0), if_neg h0]
    by_cases h3 : a.fe = 3 <;> simp [h3]

/-! What a commit makes of its wave. -/

theorem committed_store {a : FeAccess} (h : a.store = true) (w : Wave) (x : CoreCtx) (c : Cast) (leader : Nat) : w.committed x c a leader = w := by
  simp only [Wave.committed, Wave.loaded, h, Bool.true_or, if_true]

theorem acquireCast_merges {w : Wave} {f : Fence} (h : w.fence = some f) :
    w.acquireCast.fence = some { f with kind := if f.kind = .rel then .acqrel else f.kind } := by
  rw [Wave.acquireCast, h]

theorem acquireCast_waits {w : Wave} (h : w.fence = none) :
    w.acquireCast.fence = if w.pending = [] then none else some { kind := .acq, scope := 0, stages := 0, attached := true } := by
  simp only [Wave.acquireCast, h, List.isEmpty_iff]
  split
  · exact h
  · rfl

theorem loaded_rest (w : Wave) (x : CoreCtx) (c : Cast) (a : FeAccess) (leader : Nat) : w.loaded x c a leader =
    { w with vregs := (w.loaded x c a leader).vregs, due := (w.loaded x c a leader).due } := by
  unfold Wave.loaded
  split
  · rfl
  · dsimp only
    rw [setElems_rest]
    split <;> rfl

theorem committed_load {a : FeAccess} (h : a.store = false) (w : Wave) (x : CoreCtx) (c : Cast) (leader : Nat) : w.committed x c a leader =
    { w with vregs := (w.loaded x c a leader).vregs, due := (w.loaded x c a leader).due,
             fence := if a.fe = 0 then w.fence else w.acquireCast.fence } := by
  have hfence : (w.loaded x c a leader).acquireCast.fence = w.acquireCast.fence := by
    apply acquireCast_fence_congr <;> rw [loaded_rest]
  unfold Wave.committed
  rw [h, Bool.false_or]
  by_cases hfe : a.fe = 0
  · rw [if_pos (decide_eq_true hfe), if_pos hfe, loaded_rest]
  · rw [if_neg (by simpa using hfe), if_neg hfe, acquire_rest, hfence, loaded_rest]

/-! LDS and STS (R209 to R211). -/

/-- The access of an LDS or STS over its lanes. -/
def View.access (v : View) (w : MS) (store : Bool) (lanes : List LaneAddr) : FeAccess :=
  { store := store, fe := w.e.toNat, size := 2 ^ (w.z.toNat + 1), reg := w.v.toNat, lanes := lanes,
    data := if store then lanes.map fun l => v.dataBytes w.v.toNat (2 ^ (w.z.toNat + 1)) l.lane else [] }

section
variable {s : State} {v : View} {i : Instr} {w : MS} {store : Bool} {lanes : List LaneAddr}
  (he : exec i s = s.word i (scratchF w store)) (h : Issues s v i)
  (hF : scratchF w store v s = if (s.pkg.core v.iss.core).ctx.commits v.cast (v.access w store lanes) then
    .done (s.modPkg fun p => p.spCommit v.iss.core v.iss.slot v.iss.leader v.cast (v.access w store lanes)) else .block s (.fullEmpty (v.access w store lanes)))
include he h hF

theorem scratch_performs (hc : (s.pkg.core v.iss.core).ctx.commits v.cast (v.access w store lanes) = true) :
    Performs s v i false (s.pkg.modCtx v.iss.core fun x => x.commit v.cast (v.access w store lanes))
      (v.now.committed (s.pkg.core v.iss.core).ctx v.cast (v.access w store lanes) v.iss.leader) :=
  performs_done (f := fun u => u.committed (s.pkg.core v.iss.core).ctx v.cast (v.access w store lanes) v.iss.leader) he h
    (hF.trans (if_pos hc)) ((wave?_commit ..).trans (issuer_now h)) (spCommit_eq ..) rfl rfl rfl

theorem scratch_waits (hc : ¬ (s.pkg.core v.iss.core).ctx.commits v.cast (v.access w store lanes) = true) (hl : v.iss.leader < v.now.slices.length) :
    Waits s v i s.pkg v.now (.fullEmpty (v.access w store lanes)) :=
  waits_block (f := fun u => u) he h (hF.trans (if_neg hc)) (issuer_now h) (modWave_id ..).symm rfl rfl rfl hl

end

theorem mem_access_lanes {v : View} {addr : Nat → Quad} {lanes : List LaneAddr} (hl : lanes = v.lanes.map fun j => { lane := j, addr := addr j })
    (l : LaneAddr) : l ∈ lanes ↔ l.lane < 128 ∧ v.active l.lane = true ∧ l.addr = addr l.lane := by
  rw [hl]
  simp only [List.mem_map, mem_lanes]
  constructor
  · rintro ⟨j, ⟨hj, ha⟩, rfl⟩
    exact ⟨hj, ha, rfl⟩
  · rintro ⟨hj, ha, haddr⟩
    exact ⟨l.lane, ⟨hj, ha⟩, by rw [← haddr]⟩

/-- An aligned access reads a poisoned granule if its only granule is poisoned. -/
theorem poisoned_iff {n size : Nat} (h : n % size = 0) (hs : size = 2 ∨ size = 4 ∨ size = 8 ∨ size = 16) (x : CoreCtx) (c : Cast) :
    (granulesOf n size).any (fun g => x.poisoned c g) = true ↔ c.granule (n / 16) ∈ x.spPoison := by
  rw [granules_one _ _ h hs, List.any_cons, List.any_nil, Bool.or_false]
  exact mem_contains ..

/-- The granules of an aligned access, by its lanes. -/
theorem touched_iff {v : View} {addr : Nat → Quad} {size : Nat} (hs : size = 2 ∨ size = 4 ∨ size = 8 ∨ size = 16)
    (hm : NoLane v fun j => (addr j).toNat % size ≠ 0) {a : FeAccess} (ha : a.size = size) (hl : a.lanes = v.lanes.map fun j => { lane := j, addr := addr j })
    (c : Cast) (n : Nat) :
    (∃ g ∈ a.granules, c.granule g = n) ↔ ∃ j, j < 128 ∧ v.active j = true ∧ c.granule ((addr j).toNat / 16) = n := by
  constructor
  · rintro ⟨g, hg, rfl⟩
    obtain ⟨j, hj, hact, rfl⟩ := (mem_gran1 v addr size hs hm a ha hl g).1 hg
    exact ⟨j, hj, hact, rfl⟩
  · rintro ⟨j, hj, hact, rfl⟩
    exact ⟨_, (mem_gran1 v addr size hs hm a ha hl _).2 ⟨j, hj, hact, rfl⟩, rfl⟩

/-! What the lanes of a store leave. -/

/-- The pairs that lanes in ascending order write, `size` bytes each. -/
def lanePairs (act : Nat → Bool) (place : Nat → Nat) (data : Nat → List Byte) : List (Nat × Byte) :=
  ((List.range 128).filter act).flatMap fun j => keyed (place j) (data j)

section
variable {act : Nat → Bool} {place : Nat → Nat} {data : Nat → List Byte} {size : Nat} (hd : ∀ j, (data j).length = size) (m : Memory) {n : Nat}
include hd

/-- Where lanes overlap, the highest is the last. -/
theorem read_lanePairs_covered {j : Nat} (hj : j < 128) (hc : act j = true ∧ place j ≤ n ∧ n < place j + size)
    (hlast : ∀ k, j < k → k < 128 → ¬ (act k = true ∧ place k ≤ n ∧ n < place k + size)) :
    (m.writePairs (lanePairs act place data)).read n = (data j).getD (n - place j) 0 := by
  obtain ⟨hact, hlow, hhigh⟩ := hc
  rw [Memory.read_writePairs, lanePairs, last_pair act place data size hd n j hact hlow hhigh 128 hj hlast]
  rfl

theorem read_lanePairs_uncovered (h : ∀ j, j < 128 → ¬ (act j = true ∧ place j ≤ n ∧ n < place j + size)) :
    (m.writePairs (lanePairs act place data)).read n = m.read n := by
  rw [Memory.read_writePairs, List.find?_eq_none.2]
  · rfl
  intro p hp hn
  obtain rfl : p.1 = n := by simpa using hn
  rw [List.mem_reverse, lanePairs, List.mem_flatMap] at hp
  obtain ⟨j, hj, hp⟩ := hp
  obtain ⟨hlt, hact⟩ := List.mem_filter.1 hj
  obtain ⟨k, hk, rfl⟩ := (keyed_mem ..).1 hp
  rw [hd] at hk
  exact h j (List.mem_range.1 hlt) ⟨hact, Nat.le_add_right .., Nat.add_lt_add_left hk _⟩

end

/-- A granule of a cast that lanes write whole, by the places of its bytes. -/
theorem whole_granule_iff {c : Cast} {n size : Nat} {act : Nat → Bool} {addr : Nat → Nat} :
    (∃ g, c.granule g = n ∧ ∀ i, i < 16 → ∃ j, j < 128 ∧ act j = true ∧ addr j ≤ 16 * g + i ∧ 16 * g + i < addr j + size) ↔
      ∀ i, i < 16 → ∃ j, j < 128 ∧ act j = true ∧ c.spPlace (addr j) ≤ 16 * n + i ∧ 16 * n + i < c.spPlace (addr j) + size := by
  simp only [Cast.granule, Cast.spPlace]
  constructor
  · rintro ⟨g, rfl, hg⟩ i hi
    obtain ⟨j, hj, hact, hlow, hhigh⟩ := hg i hi
    exact ⟨j, hj, hact, by omega, by omega⟩
  · intro h
    obtain ⟨j, -, -, hlow, -⟩ := h 0 (by omega)
    refine ⟨n - 256 * c.sprow, by omega, fun i hi => ?_⟩
    obtain ⟨j, hj, hact, hlow, hhigh⟩ := h i hi
    exact ⟨j, hj, hact, by omega, by omega⟩

theorem modCtx_congr {p : Package} {c : Nat} {f g : CoreCtx → CoreCtx} (h : f (p.core c).ctx = g (p.core c).ctx) : p.modCtx c f = p.modCtx c g :=
  modCore_congr (by rw [h])

end Sys2Proof.Machine

open Sys2Proof Sys2Proof.Machine in
/-- Settles O19: the checks are `sp_access`; past them a load commits where its condition holds and waits elsewhere. -/
theorem scratchLoads : Obligations.ScratchLoads := by
  intro s v w h hlt size addr x gran bad commits
  have htagged : w.e ≠ 0 ↔ (!false && decide (w.e = 0)) = false := by simp
  have hsize := size_cases w.z
  refine sp_access s v (.lds w) w false rfl h _ _ htagged fun lanes hlanes hmis hF => ?_
  let a := v.access w false lanes
  have hcommits : x.commits v.cast a = true ↔ commits :=
    (ld_commits v x addr size hsize hmis a rfl hlanes rfl).trans (or_congr_left (e2 w.e).1.symm)
  refine ⟨fun hc => ⟨v.now.committed x v.cast a v.iss.leader, (x.commit v.cast a).fe, ?performs, ?full, ?frame, ?lanes, ?poison, ?fence⟩, fun hc => ?waits⟩
  case performs =>
    have hp := scratch_performs rfl h hF (hcommits.2 hc)
    rwa [modCtx_congr (g := fun y => { y with fe := (x.commit v.cast a).fe }) (commit_load rfl)] at hp
  case full =>
    intro n
    rw [mem_fe_load (a := a) rfl (hcommits.2 hc), touched_iff hsize hmis (a := a) rfl hlanes]
    rfl
  case frame =>
    rw [committed_load (a := a) rfl]
  case lanes =>
    intro r j hr hj
    rw [committed_load rfl]
    exact loaded_v v v.now x a addr size hsize hmis rfl rfl hlanes r j hr hj
  case poison =>
    rw [committed_load (a := a) rfl]
    exact poison_due v v.now x a addr rfl hlanes bad fun j hj hact => poisoned_iff (not_not.1 (hmis j hj hact)) hsize x v.cast
  case fence =>
    have he0 : a.fe = 0 ↔ w.e = 0 := (e2 w.e).1.symm
    rw [committed_load (a := a) rfl]
    refine if_congr he0 rfl ?_
    cases hfence : v.now.fence with
    | some f => exact acquireCast_merges hfence
    | none => exact acquireCast_waits hfence
  case waits =>
    exact ⟨a, scratch_waits rfl h hF (mt hcommits.1 hc) hlt, rfl, rfl, rfl, rfl, mem_access_lanes hlanes⟩

open Sys2Proof Sys2Proof.Machine in
/-- Settles O20: the checks are `sp_access`; past them a store that commits writes the pairs of its lanes, the highest lane's last. -/
theorem scratchStores : Obligations.ScratchStores := by
  intro s v w h hlt size addr x place gran covers touched commits
  have htagged : True ↔ (!true && decide (w.e = 0)) = false := by simp
  have hsize := size_cases w.z
  refine sp_access s v (.sts w) w true rfl h _ _ htagged fun lanes hlanes hmis hF => ?_
  let a := v.access w true lanes
  obtain ⟨he0, he2, he3, -⟩ := e2 w.e
  have hcommits : x.commits v.cast a = true ↔ commits :=
    (st_commits v x addr size hsize hmis a rfl hlanes rfl).trans (or_congr_left (not_congr he2.symm))
  have hdata : ∀ j, (v.dataBytes w.v.toNat size j).length = size := dataBytes_length v w.v.toNat size
  have hsp : (x.spWrite v.cast a.bytes).sp = Memory.writePairs x.sp (lanePairs v.active place fun j => v.dataBytes w.v.toNat size j) :=
    congrArg (Memory.writePairs x.sp) (by subst hlanes; exact stores_eq v addr (v.dataBytes w.v.toNat size) v.cast)
  have hmem : ∀ b, (∃ p ∈ a.bytes, p.1 = b) ↔ ∃ j, j < 128 ∧ v.active j = true ∧ (addr j).toNat ≤ b ∧ b < (addr j).toNat + size := by
    subst hlanes
    exact mem_stores v addr (v.dataBytes w.v.toNat size) size hdata
  refine ⟨fun hc => ⟨(x.spWrite v.cast a.bytes).sp, (x.commit v.cast a).fe, (x.spWrite v.cast a.bytes).spPoison, ?performs, ?bytes, ?others, ?full, ?poison⟩, fun hc => ?waits⟩
  case performs =>
    have hp := scratch_performs rfl h hF (hcommits.2 hc)
    rwa [committed_store rfl, modCtx_congr (g := fun y => { y with
      sp := (x.spWrite v.cast a.bytes).sp, fe := (x.commit v.cast a).fe, spPoison := (x.spWrite v.cast a.bytes).spPoison }) (commit_store rfl)] at hp
  case bytes =>
    intro n j hj hc hlast
    rw [hsp]
    exact read_lanePairs_covered hdata x.sp hj hc hlast
  case others =>
    intro n hn
    rw [hsp]
    exact read_lanePairs_uncovered hdata x.sp hn
  case full =>
    intro n
    rw [mem_fe_store (a := a) rfl, touched_iff hsize hmis (a := a) rfl hlanes]
    exact iff_of_eq (if_congr he0.symm rfl (if_congr he3.symm rfl rfl))
  case poison =>
    intro n
    rw [spWrite_poison, ← whole_granule_iff]
    simp only [hmem]
  case waits =>
    exact ⟨a, scratch_waits rfl h hF (mt hcommits.1 hc) hlt, rfl, rfl, rfl, mem_access_lanes hlanes, rfl⟩
end

section
/-! SUPPORT. The commit of a blocked scratchpad access (Sys2Proof/Machine/Scratch.lean: R210, R212). -/

namespace Sys2Proof.Machine

/-! The registers of a load that reads no poisoned granule. -/

theorem mem_regsOfBytes (r j : Nat) (m : Memory) (p size : Nat) (e : Nat × Nat × Word) : e ∈ regsOfBytes r j (m.readList p size) ↔
    ∃ k, 4 * k < size ∧ e = (r + k, j, BitVec.ofNat 32 (ofLe (m.readList (p + 4 * k) (min 4 (size - 4 * k))))) := by
  have hlen : (m.readList p size).length = size := by simp [Memory.readList]
  have hword : ∀ k, ((m.readList p size).drop (4 * k)).take 4 = m.readList (p + 4 * k) (min 4 (size - 4 * k)) := by
    intro k
    refine List.ext_getElem (by simp [Memory.readList]) fun i _ _ => ?_
    simp [Memory.readList, Nat.add_assoc]
  rw [regsOfBytes, List.mem_map, hlen]
  constructor
  · rintro ⟨k, hk, rfl⟩
    rw [List.mem_range] at hk
    exact ⟨k, by omega, by rw [hword]⟩
  · rintro ⟨k, hk, rfl⟩
    exact ⟨k, List.mem_range.2 (by omega), by rw [hword]⟩

/-- The elements that a load brings: register, lane and value. -/
def FeAccess.elems (a : FeAccess) (x : CoreCtx) (c : Cast) : List (Nat × Nat × Word) :=
  a.lanes.flatMap fun l => regsOfBytes a.reg l.lane (x.spRead c l.addr.toNat a.size)

theorem mem_elems {a : FeAccess} {x : CoreCtx} {c : Cast} {e : Nat × Nat × Word} : e ∈ a.elems x c ↔ ∃ l ∈ a.lanes, ∃ k, 4 * k < a.size ∧
    e = (a.reg + k, l.lane, BitVec.ofNat 32 (ofLe (Memory.readList x.sp (c.spPlace l.addr.toNat + 4 * k) (min 4 (a.size - 4 * k))))) := by
  simp only [FeAccess.elems, List.mem_flatMap, CoreCtx.spRead, mem_regsOfBytes]

section
variable {a : FeAccess} {x : CoreCtx} {c : Cast} (h : a.store = false)
  (hp : ∀ l, l ∈ a.lanes → ∀ g, g ∈ granulesOf l.addr.toNat a.size → c.granule g ∉ x.spPoison) (w : Wave) (leader : Nat)
include h hp

theorem loaded_clean : w.loaded x c a leader = w.setElems (a.elems x c) := by
  have hbad : x.poisonedLanes c a = [] := by
    rw [CoreCtx.poisonedLanes, h]
    refine List.filter_eq_nil_iff.2 fun l hl hany => ?_
    obtain ⟨g, hg, hpois⟩ := List.any_eq_true.1 hany
    exact hp l hl g hg (List.contains_iff_mem.1 hpois)
  have hgood : a.lanes.filter (fun l => !([] : List LaneAddr).contains l) = a.lanes := List.filter_eq_self.2 fun _ _ => rfl
  simp only [Wave.loaded, h, hbad, hgood, FeAccess.elems, Bool.false_eq_true, if_false]

theorem loaded_clean_due : (w.loaded x c a leader).due = w.due := by
  rw [loaded_clean h hp, setElems_rest]

theorem loaded_clean_other {r j : Nat} (hr : r < w.vregs.length) (hj : j < 128) (hlane : ∀ l, l ∈ a.lanes → l.lane ≠ j) :
    (w.loaded x c a leader).v r j = w.v r j := by
  rw [loaded_clean h hp]
  refine setElems_not _ w r j hr hj fun e he hrj => ?_
  obtain ⟨l, hl, k, -, rfl⟩ := mem_elems.1 he
  exact hlane l hl hrj.2

theorem loaded_clean_lane (hd : a.lanes.Pairwise fun l m => l.lane ≠ m.lane) {l : LaneAddr} {k : Nat} (hl : l ∈ a.lanes) (hlt : l.lane < 128)
    (hk : 4 * k < a.size) (hr : a.reg + k < w.vregs.length) : (w.loaded x c a leader).v (a.reg + k) l.lane =
      BitVec.ofNat 32 (ofLe (Memory.readList x.sp (c.spPlace l.addr.toNat + 4 * k) (min 4 (a.size - 4 * k)))) := by
  rw [loaded_clean h hp]
  refine setElems_at _ w _ _ hr hlt _ (mem_elems.2 ⟨l, hl, k, hk, rfl⟩) fun e he hreg hlane => ?_
  obtain ⟨m, hm, n, -, rfl⟩ := mem_elems.1 he
  obtain rfl : n = k := Nat.add_left_cancel hreg
  obtain rfl : m = l := List.inj_on_of_nodup_map (List.pairwise_map.2 hd) hm hl hlane
  rfl

end

/-! The commit (R210). -/

theorem committed_kept (w : Wave) (x : CoreCtx) (c : Cast) (a : FeAccess) (leader : Nat) : w.committed x c a leader =
    { w with vregs := (w.committed x c a leader).vregs, due := (w.committed x c a leader).due, fence := (w.committed x c a leader).fence } := by
  cases h : a.store with
  | true => rw [committed_store h]
  | false => rw [committed_load h]

section
variable {p : Package} {core slot leader : Nat} {w : Wave} {c : Cast} {b : Blocked} {a : FeAccess} (hw : p.wave? core slot = some w)
  (hc : p.cast? core w.cast = some c) (hb : w.blockedAt leader = some b) (ho : b.op = .fullEmpty a)
include hw hc hb ho

theorem fullEmptyCommitAt_waits (h : ¬ (p.core core).ctx.commits c a = true) : fullEmptyCommitAt core slot leader p = p := by
  obtain ⟨op, word, slices, resume, count, late⟩ := b
  obtain rfl : op = .fullEmpty a := ho
  simp only [fullEmptyCommitAt, hw, hb, hc, if_neg h]

theorem fullEmptyCommitAt_commits (h : (p.core core).ctx.commits c a = true) : fullEmptyCommitAt core slot leader p =
    (p.modCtx core fun x => x.commit c a).modWave core slot fun _ => (w.committed (p.core core).ctx c a leader).endWait leader := by
  obtain ⟨op, word, slices, resume, count, late⟩ := b
  obtain rfl : op = .fullEmpty a := ho
  simp only [fullEmptyCommitAt, hw, hb, hc, if_pos h, spCommit_eq, modWave_modWave]
  exact modWave_const _ _ _ _ _ ((wave?_commit ..).trans hw)

end

end Sys2Proof.Machine

open Sys2Proof Sys2Proof.Machine in
/-- Settles O22: the event commits the access exactly where its condition holds; a load's registers are the elements of its lanes. -/
theorem blockedScratchAccess : Obligations.BlockedScratchAccess := by
  intro s core slot leader w c b a hw hc hb ho x ready
  have hready : ready ↔ if a.store then ∀ g ∈ a.granules, c.granule g ∉ x.fe else ∀ g ∈ a.granules, c.granule g ∈ x.fe := by
    cases hst : a.store <;> simp [ready, hst]
  refine ⟨fun hn hneeds => ?waits, fun hr => ⟨(w.committed x c a leader).endWait leader, w.committed x c a leader, ?commits, ?goesOn, committed_kept .., ?store, ?load⟩⟩
  case waits =>
    refine event_next (f := fun _ => fullEmptyCommitAt core slot leader) rfl (fullEmptyCommitAt_waits hw hc hb ho fun hcommits => hn (hready.2 ?_))
    cases hst : a.store with
    | true =>
      rw [hst] at hneeds
      exact ((commits_store_iff hst x c).1 hcommits).resolve_left (not_not.2 hneeds)
    | false =>
      rw [hst] at hneeds
      exact ((commits_load_iff hst x c).1 hcommits).resolve_left hneeds
  case commits =>
    refine event_next (f := fun _ => fullEmptyCommitAt core slot leader) rfl (fullEmptyCommitAt_commits hw hc hb ho ?_)
    rw [hready] at hr
    cases hst : a.store with
    | true => exact (commits_store_iff hst x c).2 (.inr (by rwa [hst] at hr))
    | false => exact (commits_load_iff hst x c).2 (.inr (by rwa [hst] at hr))
  case goesOn =>
    refine goesOn_endWait _ _ _ ?_
    rw [committed_kept]
    exact hb
  case store => exact fun hst => committed_store hst ..
  case load =>
    intro hst hclean
    rw [committed_load hst]
    exact ⟨loaded_clean_due hst hclean w leader, fun r j hr hj => loaded_clean_other hst hclean w leader hr hj,
      fun hd l k hl hlt hk hr => loaded_clean_lane hst hclean w leader hd hl hlt hk hr⟩
end

section
/-! SUPPORT. The barrier words as they issue (Sys2Proof/Machine/Barrier.lean: R212, R215, R216, R221): their checks, and the word that passes them. -/

namespace Sys2Proof.Machine

/-- What a word does depends on its meaning at the view of the state alone. -/
theorem word_congr {s : State} {v : View} {F G : View → State → Out} (hv : s.view = some v) (h : F v s = G v s) (i : Instr) : s.word i F = s.word i G := by
  unfold State.word
  rw [hv]
  dsimp only
  rw [h]

/-! The checks of a barrier word (R215). -/

section
variable {v : View} {x : CoreCtx} {a : Quad}

theorem barTrap_misaligned (h : a.toNat % 16 ≠ 0) (need : Bool) : v.barTrap x a need = some { cause := .misalign, addr := a } := by
  rw [View.barTrap, if_pos h]

variable (hal : a.toNat % 16 = 0)
include hal

theorem barTrap_late (h : v.cast.spsize.toNat < a.toNat + 16) (need : Bool) : v.barTrap x a need = some { cause := .spRange, addr := a } := by
  rw [View.barTrap, if_neg (not_not.2 hal), if_pos h]

variable (hin : a.toNat + 16 ≤ v.cast.spsize.toNat)
include hin

theorem barTrap_no_barrier (h : x.tag v.cast (granuleOf a) ≠ 1) : v.barTrap x a true = some { cause := .barrierState, addr := a } := by
  rw [View.barTrap, if_neg (not_not.2 hal), if_neg (Nat.not_lt.2 hin), if_pos (by simpa using h)]

theorem barTrap_queue (h : 2 ≤ x.tag v.cast (granuleOf a)) : v.barTrap x a false = some { cause := .queueState, addr := a } := by
  rw [View.barTrap, if_neg (not_not.2 hal), if_neg (Nat.not_lt.2 hin), if_neg (by simp), if_pos h]

theorem barTrap_passes {need : Bool} (hneed : need = true → x.tag v.cast (granuleOf a) = 1) (h : x.tag v.cast (granuleOf a) < 2) :
    v.barTrap x a need = none := by
  rw [View.barTrap, if_neg (not_not.2 hal), if_neg (Nat.not_lt.2 hin), if_neg, if_neg (Nat.not_le.2 h)]
  simpa using hneed

end

/-! A word at a barrier. -/

section
variable {i : Instr} {a : BitVec 7} {f : View → State → Quad → Bar → Out} {s : State} {v : View}

theorem traps_execBar {t : Trap} (he : exec i s = execBar i a f s) (h : Issues s v i)
    (ht : v.barTrap (s.pkg.core v.iss.core).ctx (v.sc a.toNat) true = some t) : Traps s v i t :=
  traps_word he h (by dsimp only; rw [ht])

theorem execBar_passes (hv : s.view = some v) (ht : v.barTrap (s.pkg.core v.iss.core).ctx (v.sc a.toNat) true = none) :
    execBar i a f s = s.word i fun _ _ => f v s (v.sc a.toNat) ((s.pkg.core v.iss.core).ctx.bar v.cast (granuleOf (v.sc a.toNat))) :=
  word_congr hv (by dsimp only; rw [ht]) i

end

theorem barrierWord_of_exec {α : Type} {i : α → Instr} {a : α → BitVec 7} {f : α → View → State → Quad → Bar → Out} {body : State → View → α → Quad → Bar → Prop}
    (he : ∀ w s, exec (i w) s = execBar (i w) (a w) (f w) s)
    (hb : ∀ s v w addr b, Issues s v (i w) → exec (i w) s = s.word (i w) (fun _ _ => f w v s addr b) → v.iss.leader < v.now.slices.length →
      body s v w addr b) : BarrierWord i a body := by
  intro s v w h addr x
  refine ⟨fun hmis => ?_, fun hal hlate => ?_, fun hal hin htag => ?_, fun hal hin htag hl => ?_⟩
  · exact traps_execBar (he w s) h (barTrap_misaligned hmis true)
  · exact traps_execBar (he w s) h (barTrap_late hal hlate true)
  · exact traps_execBar (he w s) h (barTrap_no_barrier hal hin htag)
  · have hpass : v.barTrap x addr true = none := barTrap_passes hal hin (fun _ => htag) (lt_of_eq_of_lt htag Nat.one_lt_two)
    exact hb s v w addr _ h ((he w s).trans (execBar_passes h.1 hpass)) hl

/-- A barrier word that waits for the end of its company cycle (R50). -/
theorem waits_barrier {s : State} {v : View} {i : Instr} {op : BlockOp} (h : Issues s v i) (he : exec i s = s.word i fun _ _ => .block s op)
    (hl : v.iss.leader < v.now.slices.length) : Waits s v i s.pkg v.now op :=
  waits_block (f := fun u => u) he h rfl (issuer_now h) (modWave_id ..).symm rfl rfl rfl hl

/-- A barrier word that leaves an event to the queue-and-barrier unit (R212). -/
theorem performs_onUnit {s : State} {v : View} {i : Instr} {e : BarrierEvent} (h : Issues s v i) (he : exec i s = s.word i fun _ _ => .done (s.onUnit v e)) :
    Performs s v i false (s.pkg.modCore v.iss.core fun k => { k with barrier := k.barrier ++ [e] }) v.now :=
  performs_done (f := fun u => u) he h rfl ((wave?_modCore (f := fun k => { k with barrier := k.barrier ++ [e] }) (fun _ => rfl) ..).trans (issuer_now h)) (modWave_id ..).symm rfl rfl rfl

/-! BINIT (R216). -/

/-- A BINIT's granule holds a barrier that is busy, or that another wave owns. -/
def View.initBusy (v : View) (w : RAB) (s : State) : Bool :=
  let x := (s.pkg.core v.iss.core).ctx
  let addr := v.sc w.a.toNat
  let old := x.bar v.cast (granuleOf addr)
  x.tag v.cast (granuleOf addr) = 1 && (x.barBusy v.src.cast (granuleOf addr) || (old.owned && old.owner ≠ v.src.waveId.toNat))

/-- What a BINIT does that passes the checks of its address. -/
def View.initBar (v : View) (w : RAB) (s : State) : Out :=
  let addr := v.sc w.a.toNat
  let cfg := (v.sc w.b.toNat).toNat
  if !binitConfigOk cfg then .trap v.operandTrap
  else if v.initBusy w s then .trap { cause := .barrierState, addr := addr }
  else .done (s.onUnit v (.init v.src.cast (granuleOf addr) (v.newBar cfg v.cast.nwaves.toNat).bytes))

theorem initBusy_iff (v : View) (w : RAB) (s : State) :
    let x := (s.pkg.core v.iss.core).ctx
    let g := granuleOf (v.sc w.a.toNat)
    v.initBusy w s = true ↔ x.tag v.cast g = 1 ∧
      (x.barBusy v.src.cast g = true ∨ ((x.bar v.cast g).owned = true ∧ (x.bar v.cast g).owner ≠ v.src.waveId.toNat)) := by
  simp only [View.initBusy, Bool.and_eq_true, Bool.or_eq_true, decide_eq_true_eq]

section
variable {s : State} {v : View} {w : RAB}

theorem traps_binit {t : Trap} (h : Issues s v (.binit w)) (ht : v.barTrap (s.pkg.core v.iss.core).ctx (v.sc w.a.toNat) false = some t) :
    Traps s v (.binit w) t :=
  traps_word (F := _) (show exec (.binit w) s = execBINIT w s from rfl) h (by dsimp only; rw [ht])

theorem exec_binit_passes (hv : s.view = some v) (ht : v.barTrap (s.pkg.core v.iss.core).ctx (v.sc w.a.toNat) false = none) :
    exec (.binit w) s = s.word (.binit w) fun _ _ => v.initBar w s :=
  (show exec (.binit w) s = execBINIT w s from rfl).trans (word_congr hv (by dsimp only; rw [ht]; rfl) _)

end

section
variable {v : View} {w : RAB} {s : State}

theorem initBar_wrong (hok : ¬ binitConfigOk (v.sc w.b.toNat).toNat = true) : v.initBar w s = .trap v.operandTrap := by
  simp only [View.initBar, hok, Bool.not_false, if_true]

variable (hok : binitConfigOk (v.sc w.b.toNat).toNat = true)
include hok

theorem initBar_busy (hb : v.initBusy w s = true) : v.initBar w s = .trap { cause := .barrierState, addr := v.sc w.a.toNat } := by
  simp only [View.initBar, hok, hb, Bool.not_true, Bool.false_eq_true, if_false, if_true]

theorem initBar_makes (hb : ¬ v.initBusy w s = true) : v.initBar w s =
    .done (s.onUnit v (.init v.src.cast (granuleOf (v.sc w.a.toNat)) (v.newBar (v.sc w.b.toNat).toNat v.cast.nwaves.toNat).bytes)) := by
  simp only [View.initBar, hok, hb, Bool.not_true, Bool.false_eq_true, if_false]

end

theorem binitConfigOk_iff (cfg : Nat) : binitConfigOk cfg = true ↔
    ¬ (bits cfg 19 45 ≠ 0 ∨ (bits cfg 16 1 = 1 ∧ bits cfg 0 16 ≠ 0) ∨ (¬ bits cfg 16 1 = 1 ∧ bits cfg 0 16 = 0)) := by
  by_cases htrack : bits cfg 16 1 = 1 <;> simp [binitConfigOk, htrack]

end Sys2Proof.Machine
end

section
/-! SUPPORT. The arrivals of a cycle at a barrier at which one wave of the cast waits (Sys2Proof/Machine/Barrier.lean: R50, R215, R217, R218, R221). -/

namespace Sys2Proof.Machine

/-! A fold in which one element alone acts. -/

theorem foldl_id {α β : Type} {f : β → α → β} {l : List α} {x : β} (h : ∀ i ∈ l, f x i = x) : l.foldl f x = x :=
  List.foldlRecOn (motive := fun y => y = x) l f rfl fun y hy i hi => by rw [hy, h i hi]

theorem foldl_once {α β : Type} {f : β → α → β} {l : List α} {a : α} {x y : β} (hn : l.Nodup) (ha : a ∈ l) (hx : ∀ i ∈ l, i ≠ a → f x i = x)
    (hstep : f x a = y) (hy : ∀ i ∈ l, i ≠ a → f y i = y) : l.foldl f x = y := by
  obtain ⟨l1, l2, rfl⟩ := List.append_of_mem ha
  obtain ⟨ha12, -⟩ := List.nodup_cons.1 (List.nodup_middle.1 hn)
  rw [List.mem_append, not_or] at ha12
  rw [List.foldl_append, List.foldl_cons, foldl_id fun i hi => hx i (List.mem_append_left _ hi) fun e => ha12.1 (e ▸ hi), hstep]
  exact foldl_id fun i hi => hy i (List.mem_append_right _ (List.mem_cons_of_mem _ hi)) fun e => ha12.2 (e ▸ hi)

/-! The slots of a cast. -/

theorem mem_slotsOf {x : CoreCtx} {cs k : Nat} : k ∈ x.slotsOf cs ↔ ∃ w, x.waves[k]? = some (some w) ∧ w.cast = cs := by
  rw [CoreCtx.slotsOf, List.mem_filterMap]
  constructor
  · rintro ⟨⟨_ | w, i⟩, hm, h⟩
    · cases h
    · obtain ⟨hcast, hk⟩ := (Option.ite_none_right_eq_some ..).1 h
      obtain rfl : i = k := Option.some.inj hk
      exact ⟨w, List.mem_zipIdx_iff_getElem?.1 hm, hcast⟩
  · rintro ⟨w, hw, hcast⟩
    exact ⟨(some w, k), List.mem_zipIdx_iff_getElem?.2 hw, if_pos hcast⟩

/-- Indices that a test picks from a list come once each. -/
theorem nodup_filterMap_zipIdx {α : Type} {f : α × Nat → Option Nat} (h : ∀ p k, f p = some k → p.2 = k) (l : List α) : (l.zipIdx.filterMap f).Nodup := by
  have hidx : l.zipIdx.Pairwise fun p q => p.2 < q.2 := by
    rw [← List.pairwise_map, List.zipIdx_map_snd]
    exact List.pairwise_lt_range'
  refine (hidx.filterMap (S := (· < ·)) f fun p q hpq i hi j hj => ?_).imp fun h => ne_of_lt h
  rwa [← h p i hi, ← h q j hj]

theorem nodup_slotsOf (x : CoreCtx) (cs : Nat) : (x.slotsOf cs).Nodup := by
  refine nodup_filterMap_zipIdx ?_ x.waves
  rintro ⟨_ | w, i⟩ k hk
  · cases hk
  · exact Option.some.inj ((Option.ite_none_right_eq_some ..).1 hk).2

/-! What a party waits for, after its wave has been changed. -/

/-- No party of the wave has an arrival at the barrier to be recorded. -/
def Wave.NoArrival (w : Wave) (g : Nat) : Prop := ∀ l d sync, w.barLeader? g ≠ some (l, d, none, sync)

theorem leaders_setOp (w : Wave) (l : Nat) (op : BlockOp) : (w.setOp l op).leaders = w.leaders := by
  have hparty : ∀ k, (w.setOp l op).party k = w.party k := fun k =>
    party_slices _ _ k ((slices_modSlice w l _).mono fun n x y h => by subst h; split <;> exact ⟨rfl, rfl⟩)
  simp only [Wave.leaders, hparty]

theorem blockedAt_setOp (w : Wave) (l : Nat) (op : BlockOp) (k : Nat) :
    (w.setOp l op).blockedAt k = if k = l then (w.blockedAt k).map fun b => { b with op := op } else w.blockedAt k := by
  simp only [Wave.blockedAt, Wave.setOp, modSlice_get?]
  split
  · cases w.slices[k]? <;> rfl
  · rfl

theorem barWait?_congr {u w : Wave} {k : Nat} (h : u.blockedAt k = w.blockedAt k) (g : Nat) : u.barWait? g k = w.barWait? g k := by
  simp only [Wave.barWait?, h]

/-- A party that waits for something else than an arrival to be recorded has the phase that it waits for, if it waits at a barrier. -/
theorem barWait?_phase {w : Wave} {k g : Nat} (h : ∀ b a s r, w.blockedAt k = some b → b.op ≠ .arrive a s r) {y : Nat × Option (BitVec 32) × Bool}
    (hy : w.barWait? g k = some y) : y.2.1 ≠ none := by
  unfold Wave.barWait? at hy
  split at hy
  · obtain ⟨-, hy⟩ := (Option.ite_none_right_eq_some ..).1 hy
    rw [← Option.some.inj hy]
    exact Option.some_ne_none _
  · next hb => exact absurd rfl (h _ _ _ _ hb)
  · cases hy

/-! One wave of a cast waits at a barrier. -/

/-- The wave in a slot is the only one of its cast that waits at a barrier, with one party: its leader, the register of its status, the phase that it waits
for if its arrival is recorded, and whether its word is a BSYNC. -/
structure OneWaits (x : CoreCtx) (cs g n : Nat) (w : Wave) (l d : Nat) (ph : Option (BitVec 32)) (sync : Bool) : Prop where
  wave : x.waves[n]? = some (some w)
  cast : w.cast = cs
  party : w.leaders.filterMap (w.barWait? g) = [(d, ph, sync)]
  leader : w.barLeader? g = some (l, d, ph, sync)
  others : ∀ (m : Nat) (y : Wave), m ≠ n → x.waves[m]? = some (some y) → y.cast = cs → y.barLeader? g = none

/-- A core's context with the wave of a slot replaced. -/
def CoreCtx.put (x : CoreCtx) (n : Nat) (w : Wave) : CoreCtx := { x with waves := setAt x.waves n (some w) }

theorem put_wave {x : CoreCtx} {n : Nat} {w : Wave} (h : x.waves[n]? = some (some w)) (u : Wave) (m : Nat) :
    (x.put n u).waves[m]? = if m = n then some (some u) else x.waves[m]? := by
  rw [CoreCtx.put, setAt, modAt_get?]
  split
  · next hm => rw [hm, h]; rfl
  · rfl

theorem put_self {x : CoreCtx} {n : Nat} {w : Wave} (h : x.waves[n]? = some (some w)) : x.put n w = x := by
  have hset : setAt x.waves n (some w) = x.waves := by
    refine List.ext_getElem? fun m => ?_
    rw [setAt, modAt_get?]
    split
    · next hm => rw [hm, h]; rfl
    · rfl
  rw [CoreCtx.put, hset]

theorem put_put (x : CoreCtx) (n : Nat) (u w : Wave) : (x.put n u).put n w = x.put n w := by
  simp only [CoreCtx.put, setAt, modAt_modAt]

theorem put_bar (x : CoreCtx) (n : Nat) (u : Wave) (c : Cast) (g : Nat) : (x.put n u).bar c g = x.bar c g := rfl

/-! The recording of the arrivals (R50 step 1, R217). -/

/-- The arrival of one slot's wave, recorded or held. -/
def recordSlot (g : Nat) (which : Wave → Bool) (r : CoreCtx × Bar) (s : Nat) : CoreCtx × Bar :=
  match (r.1.waves.getD s none) with
  | none => r
  | some w =>
    match w.barLeader? g with
    | some (l, d, none, sync) =>
      if !which w then r
      else if w.mustHold g r.2 then (r.1.put s { w with held := some { granule := granuleNo g, phase := r.2.phase } }, r.2)
      else (r.1.put s (w.recordArrival l d sync g r.2), { r.2 with arrived := r.2.arrived + 1 })
    | _ => r

theorem recordAll_eq (x : CoreCtx) (cs g : Nat) (b : Bar) (which : Wave → Bool) :
    x.recordAll cs g b which = (x.slotsOf cs).foldl (recordSlot g which) (x, b) := rfl

section
variable {x : CoreCtx} {b : Bar} {g k : Nat} {which : Wave → Bool} {w : Wave} (hw : x.waves[k]? = some (some w))
include hw

theorem recordSlot_none (h : w.NoArrival g) : recordSlot g which (x, b) k = (x, b) := by
  have hget : x.waves.getD k none = some w := by rw [List.getD_eq_getElem?_getD, hw]; rfl
  simp only [recordSlot, hget]
  split
  · next l d sync hl => exact absurd hl (h l d sync)
  · rfl

variable {l d : Nat} {sync : Bool} (hl : w.barLeader? g = some (l, d, none, sync)) (hwhich : which w = true)
include hl hwhich

theorem recordSlot_held (hh : w.mustHold g b = true) :
    recordSlot g which (x, b) k = (x.put k { w with held := some { granule := granuleNo g, phase := b.phase } }, b) := by
  simp [recordSlot, hw, hl, hwhich, hh]

theorem recordSlot_recorded (hh : w.mustHold g b = false) :
    recordSlot g which (x, b) k = (x.put k (w.recordArrival l d sync g b), { b with arrived := b.arrived + 1 }) := by
  simp [recordSlot, hw, hl, hwhich, hh]

end

/-- Where one wave alone of a cast may have an arrival to record, the recording is what its slot makes of it. -/
theorem recordAll_one {x y : CoreCtx} {cs g n : Nat} {b b' : Bar} {which : Wave → Bool} {w : Wave} (hw : x.waves[n]? = some (some w)) (hc : w.cast = cs)
    (hothers : ∀ (m : Nat) (u : Wave), m ≠ n → x.waves[m]? = some (some u) → u.cast = cs → u.NoArrival g)
    (hstep : recordSlot g which (x, b) n = (y, b')) (hkept : ∀ m, m ≠ n → y.waves[m]? = x.waves[m]?) :
    x.recordAll cs g b which = (y, b') := by
  refine foldl_once (nodup_slotsOf x cs) (mem_slotsOf.2 ⟨w, hw, hc⟩) (fun i hi hne => ?_) hstep fun i hi hne => ?_
  · obtain ⟨u, hu, hcu⟩ := mem_slotsOf.1 hi
    exact recordSlot_none hu (hothers i u hne hu hcu)
  · obtain ⟨u, hu, hcu⟩ := mem_slotsOf.1 hi
    exact recordSlot_none ((hkept i hne).trans hu) (hothers i u hne hu hcu)

/-! A barrier word that needs no arrival (R218, R221). -/

theorem barrierTurn_elsewhere {w : Wave} {g : Nat} (h : w.barLeader? g = none) (b : Bar) (cyc : Nat) : w.barrierTurn g b cyc = w := by
  simp only [Wave.barrierTurn, h]

theorem phaseDone_iff (now named : BitVec 32) : phaseDone now named = true ↔ 1 ≤ (now - named).toNat ∧ (now - named).toNat ≤ 2 ^ 31 := by
  rw [phaseDone, Bool.and_eq_true, decide_eq_true_eq, decide_eq_true_eq, show 2 ^ 31 = 2147483648 from rfl]

theorem barStatus_killed (p : BitVec 32) : barStatus p true = BitVec.ofNat 64 (p.toNat + 2 ^ 32 * 1) := rfl

theorem barStatus_live (p : BitVec 32) : barStatus p false = BitVec.ofNat 64 p.toNat := rfl

section
variable {w : Wave} {g l d : Nat} {b : Bar} {cyc : Nat} {sync : Bool}

theorem barrierTurn_killed {ph : Option (BitVec 32)} (hl : w.barLeader? g = some (l, d, ph, sync)) (hk : b.killed = true) (hh : ph = none → w.held = none) :
    w.barrierTurn g b cyc = w.setOp l (.released d (BitVec.ofNat 64 (b.phase.toNat + 2 ^ 32 * 1)) false sync (cyc + 4)) := by
  have hno : ¬ (ph.isNone && w.held.isSome) = true := by
    rw [Bool.and_eq_true, Option.isNone_iff_eq_none, not_and]
    intro hp
    rw [hh hp]
    exact Bool.false_ne_true
  simp only [Wave.barrierTurn, hl, hk, if_true, if_neg hno, barStatus_killed]

variable (hk : b.killed = false)
include hk

section
variable {p : BitVec 32} (hl : w.barLeader? g = some (l, d, some p, sync))
include hl

theorem barrierTurn_over (h : phaseDone b.phase p = true) :
    w.barrierTurn g b cyc = w.setOp l (.released d (BitVec.ofNat 64 (p.toNat + 2 ^ 32 * 0)) false sync (cyc + 4)) := by
  simp only [Wave.barrierTurn, hl, hk, Bool.false_eq_true, if_false, h, if_true, barStatus_live, Nat.mul_zero, Nat.add_zero]

theorem barrierTurn_waits (h : ¬ phaseDone b.phase p = true) : w.barrierTurn g b cyc = w.setOp l (.bwait (BitVec.ofNat 64 (16 * g)) p sync d) := by
  simp only [Wave.barrierTurn, hl, hk, Bool.false_eq_true, if_false, if_neg h]

end

variable (hh : w.held = none)
include hh

section
variable {r : PhaseRec} (hl : w.barLeader? g = some (l, d, none, true)) (hr : w.syncwait.filter (fun r => r.granule = granuleNo g) = some r)
include hl hr

theorem barrierTurn_again_over (h : phaseDone b.phase r.phase = true) :
    w.barrierTurn g b cyc = w.setOp l (.released d (BitVec.ofNat 64 (r.phase.toNat + 2 ^ 32 * 0)) false true (cyc + 4)) := by
  simp [Wave.barrierTurn, hl, hk, hh, hr, h, barStatus_live]

theorem barrierTurn_again_waits (h : ¬ phaseDone b.phase r.phase = true) :
    w.barrierTurn g b cyc = w.setOp l (.bwait (BitVec.ofNat 64 (16 * g)) r.phase true d) := by
  simp [Wave.barrierTurn, hl, hk, hh, hr, h]

end

theorem barrierTurn_arrives (hl : w.barLeader? g = some (l, d, none, sync)) (hr : sync = true → w.syncwait.filter (fun r => r.granule = granuleNo g) = none) :
    w.barrierTurn g b cyc = w := by
  cases sync with
  | false => simp [Wave.barrierTurn, hl, hk]
  | true => simp [Wave.barrierTurn, hl, hk, hh, hr rfl]

end

/-! An arrival (R217). -/

theorem mustHold_iff (w : Wave) (g : Nat) (b : Bar) : w.mustHold g b = true ↔
    if b.track then g ∈ w.joinNext ∨ { granule := granuleNo g, phase := b.phase } ∈ w.arrivedAt else b.expected ≤ b.arrived := by
  cases ht : b.track <;> simp [Wave.mustHold, ht]

theorem noteArrival_held {w : Wave} (h : w.held = none) (g : Nat) (b : Bar) : { w.noteArrival g b with held := none } = w.noteArrival g b := by
  have : (w.noteArrival g b).held = none := by unfold Wave.noteArrival; split <;> exact h
  rw [← this]

theorem recordArrival_barrive {w : Wave} (h : w.held = none) (l d g : Nat) (b : Bar) :
    w.recordArrival l d false g b = ((Arrived w g b).setS d (BitVec.ofNat 64 b.phase.toNat)).unblock l := by
  simp only [Wave.recordArrival, h, noteArrival_held h, barStatus_live]
  rfl

theorem recordArrival_bsync {w : Wave} (h : w.held = none) (l d g : Nat) (b : Bar) : w.recordArrival l d true g b =
    { ((Arrived w g b).setOp l (.bwait (BitVec.ofNat 64 (16 * g)) b.phase true d)) with syncwait := some { granule := granuleNo g, phase := b.phase } } := by
  simp only [Wave.recordArrival, noteArrival_held h]
  rfl

/-! The cycle at the barrier. -/

namespace OneWaits

section
variable {x : CoreCtx} {cs g n : Nat} {w : Wave} {l d : Nat} {ph : Option (BitVec 32)} {sync : Bool} (h : OneWaits x cs g n w l d ph sync)
include h

/-- No party of the wave but its leader's waits at the barrier. -/
theorem unique {k : Nat} (hk : k ∈ w.leaders) (hw : w.barWait? g k ≠ none) : k = l := by
  obtain ⟨l1, a, l2, hls, h1, ha, h2⟩ := List.filterMap_eq_cons_iff.1 h.party
  have hall : ∀ m ∈ w.leaders, w.barWait? g m ≠ none → m = a := by
    intro m hm hmw
    rw [hls, List.mem_append, List.mem_cons] at hm
    rcases hm with hm | rfl | hm
    · exact absurd (h1 m hm) hmw
    · rfl
    · exact absurd (List.filterMap_eq_nil_iff.1 h2 m hm) hmw
  obtain ⟨m, hm, hmap⟩ := List.exists_of_findSome?_eq_some h.leader
  obtain ⟨y, hy, hyl⟩ := Option.map_eq_some_iff.1 hmap
  obtain rfl : m = l := congrArg Prod.fst hyl
  rw [hall k hk hw, hall m hm (by rw [hy]; exact Option.some_ne_none y)]

/-- A party that takes up another wait than an arrival leaves none to its wave. -/
theorem noArrival_setOp {op : BlockOp} (hop : ∀ a s r, op ≠ .arrive a s r) : (w.setOp l op).NoArrival g := by
  intro k r s hk
  obtain ⟨m, hm, hmap⟩ := List.exists_of_findSome?_eq_some hk
  obtain ⟨y, hy, hyk⟩ := Option.map_eq_some_iff.1 hmap
  have hphase : y.2.1 = none := congrArg (fun z => z.2.2.1) hyk
  rw [leaders_setOp] at hm
  by_cases hml : m = l
  · refine barWait?_phase (fun b a s r hb => ?_) hy hphase
    rw [blockedAt_setOp, if_pos hml] at hb
    obtain ⟨b', -, rfl⟩ := Option.map_eq_some_iff.1 hb
    exact hop a s r
  · rw [barWait?_congr ((blockedAt_setOp ..).trans (if_neg hml))] at hy
    exact hml (h.unique hm (by rw [hy]; exact Option.some_ne_none y))

theorem turn (b : Bar) (cyc : Nat) : x.mapWaves cs (fun u => u.barrierTurn g b cyc) = x.put n (w.barrierTurn g b cyc) := by
  rw [CoreCtx.mapWaves, CoreCtx.put]
  congr 1
  refine List.ext_getElem? fun m => ?_
  rw [List.getElem?_map, setAt, modAt_get?]
  by_cases hm : m = n
  · rw [if_pos hm, hm, h.wave]
    simp only [Option.map_some, if_pos h.cast]
  · rw [if_neg hm]
    rcases hu : x.waves[m]? with _ | _ | u
    · rfl
    · rfl
    · simp only [Option.map_some]
      split
      · next hcast => rw [barrierTurn_elsewhere (h.others m u hm hu hcast)]
      · rfl

theorem put_others {u : Wave} (m : Nat) (y : Wave) (hm : m ≠ n) (hy : (x.put n u).waves[m]? = some (some y)) (hc : y.cast = cs) : y.NoArrival g := by
  rw [put_wave h.wave, if_neg hm] at hy
  rw [Wave.NoArrival, h.others m y hm hy hc]
  exact fun _ _ _ => nofun

/-- A party whose turn at the barrier ends in another wait has nothing to record. -/
theorem arriveAll_turn {c : Cast} {cyc : Nat} {op : BlockOp} (hop : ∀ a s r, op ≠ .arrive a s r)
    (ht : w.barrierTurn g (x.bar c g) cyc = w.setOp l op) : x.arriveAll cs c cyc g = x.put n (w.setOp l op) := by
  have hw : (x.put n (w.setOp l op)).waves[n]? = some (some (w.setOp l op)) := by rw [put_wave h.wave, if_pos rfl]
  have hrec := recordAll_one (b := x.bar c g) (which := fun u => u.held.isNone) hw h.cast h.put_others
    (recordSlot_none hw (h.noArrival_setOp hop)) fun _ _ => rfl
  simp only [CoreCtx.arriveAll, h.turn, ht, hrec, if_true, ite_self]

end

section
variable {x : CoreCtx} {cs g n : Nat} {w : Wave} {l d : Nat} {sync : Bool} (h : OneWaits x cs g n w l d none sync) {c : Cast} {cyc : Nat}
  (hk : (x.bar c g).killed = false) (hh : w.held = none) (hr : sync = true → w.syncwait.filter (fun r => r.granule = granuleNo g) = none)
include h hk hh hr

theorem arriveAll_record {y : CoreCtx} {b' : Bar} (hstep : recordSlot g (fun u => u.held.isNone) (x, x.bar c g) n = (y, b'))
    (hkept : ∀ m, m ≠ n → y.waves[m]? = x.waves[m]?) :
    x.arriveAll cs c cyc g = if b'.arrived = (x.bar c g).arrived then y else y.setBar c g b' := by
  have hturn : x.mapWaves cs (fun u => u.barrierTurn g (x.bar c g) cyc) = x := by
    rw [h.turn, barrierTurn_arrives hk hh h.leader hr, put_self h.wave]
  have hnone : ∀ (m : Nat) (u : Wave), m ≠ n → x.waves[m]? = some (some u) → u.cast = cs → u.NoArrival g := by
    intro m u hm hu hc
    rw [Wave.NoArrival, h.others m u hm hu hc]
    exact fun _ _ _ => nofun
  simp only [CoreCtx.arriveAll, hturn, recordAll_one h.wave h.cast hnone hstep hkept, hk, Bool.false_eq_true, if_false]

theorem arriveAll_held (hm : w.mustHold g (x.bar c g) = true) :
    x.arriveAll cs c cyc g = x.put n { w with held := some { granule := granuleNo g, phase := (x.bar c g).phase } } := by
  rw [h.arriveAll_record hk hh hr (recordSlot_held h.wave h.leader (by rw [hh]; rfl) hm) fun m hne => by rw [put_wave h.wave, if_neg hne], if_pos rfl]

theorem arriveAll_recorded (hm : w.mustHold g (x.bar c g) = false) : x.arriveAll cs c cyc g =
    (x.put n (w.recordArrival l d sync g (x.bar c g))).setBar c g { x.bar c g with arrived := (x.bar c g).arrived + 1 } := by
  rw [h.arriveAll_record hk hh hr (recordSlot_recorded h.wave h.leader (by rw [hh]; rfl) hm) fun m hne => by rw [put_wave h.wave, if_neg hne],
    if_neg (Nat.succ_ne_self _)]

end

end OneWaits

/-! BQUERY (R215). -/

/-- The answer to the BQUERY of one slot. -/
def Package.answerQuery (core : Nat) (p : Package) (s : Nat) : Package :=
  match p.wave? core s with
  | none => p
  | some w =>
    match w.blockedAt w.sole, p.cast? core w.cast with
    | some { op := .bquery a d, .. }, some c =>
      let n := ofLe ((p.core core).ctx.spRead c a.toNat 16)
      p.modWave core s fun w => ((w.setS d (BitVec.ofNat 64 n)).setS (d + 1) (BitVec.ofNat 64 (n / 2 ^ 64))).endWait w.sole
    | _, _ => p

/-- The wave of an answered BQUERY: the two halves of a granule in the registers d and d + 1, and its party goes on. -/
def Wave.answered (w : Wave) (d n : Nat) : Wave := ((w.setS d (BitVec.ofNat 64 n)).setS (d + 1) (BitVec.ofNat 64 (n / 2 ^ 64))).endWait w.sole

theorem answerQuery_modWave (core : Nat) (p : Package) (s : Nat) : ∃ f, p.answerQuery core s = p.modWave core s f := by
  unfold Package.answerQuery
  split
  · exact ⟨_, (modWave_id ..).symm⟩
  · split
    · exact ⟨_, rfl⟩
    · exact ⟨_, (modWave_id ..).symm⟩

section
variable {p : Package} {core slot : Nat} {w : Wave} {c : Cast} {b : Blocked} {a : Quad} {d : Nat} (hw : p.wave? core slot = some w)
include hw

theorem answerQuery_kept {s : Nat} (hs : s ≠ slot) : (p.answerQuery core s).wave? core slot = some w
    ∧ (∀ k, (p.answerQuery core s).cast? core k = p.cast? core k) ∧ ((p.answerQuery core s).core core).ctx.sp = (p.core core).ctx.sp := by
  obtain ⟨f, hf⟩ := answerQuery_modWave core p s
  rw [hf]
  refine ⟨?_, fun k => cast?_modWave .., ?_⟩
  · rw [wave?_modWave, if_neg fun e => hs e.2.symm, hw]
  · rw [core_modWave_self _ _ _ _ (core_lt_of_wave? hw)]

variable (hc : p.cast? core w.cast = some c) (hb : w.blockedAt w.sole = some b) (ho : b.op = .bquery a d)
include hc hb ho

theorem answerQuery_answers : (p.answerQuery core slot).wave? core slot = some (w.answered d (ofLe ((p.core core).ctx.spRead c a.toNat 16))) := by
  obtain ⟨op, word, slices, resume, count, late⟩ := b
  obtain rfl : op = .bquery a d := ho
  simp only [Package.answerQuery, hw, hb, hc, wave?_modWave, and_self, if_true, Option.map_some]
  rfl

/-- Answers to other slots change neither the bytes nor the wave. -/
theorem foldl_answerQuery {slots : List Nat} (hn : slots.Nodup) (hs : slot ∈ slots) :
    (slots.foldl (Package.answerQuery core) p).wave? core slot = some (w.answered d (ofLe ((p.core core).ctx.spRead c a.toNat 16))) := by
  obtain ⟨l, r, rfl⟩ := List.append_of_mem hs
  obtain ⟨hnot, -⟩ := List.nodup_cons.1 (List.nodup_middle.1 hn)
  rw [List.mem_append, not_or] at hnot
  obtain ⟨hwl, hcl, hspl⟩ : (l.foldl (Package.answerQuery core) p).wave? core slot = some w ∧ (l.foldl (Package.answerQuery core) p).cast? core w.cast = some c
      ∧ ((l.foldl (Package.answerQuery core) p).core core).ctx.sp = (p.core core).ctx.sp := by
    refine List.foldlRecOn (motive := fun q : Package => q.wave? core slot = some w ∧ q.cast? core w.cast = some c
      ∧ (q.core core).ctx.sp = (p.core core).ctx.sp) l (Package.answerQuery core) ⟨hw, hc, rfl⟩ fun q hq i hi => ?_
    obtain ⟨hwq, hcq, hspq⟩ := hq
    obtain ⟨hwi, hci, hspi⟩ := answerQuery_kept hwq fun e : i = slot => hnot.1 (e ▸ hi)
    exact ⟨hwi, (hci _).trans hcq, hspi.trans hspq⟩
  have hread : ((l.foldl (Package.answerQuery core) p).core core).ctx.spRead c a.toNat 16 = (p.core core).ctx.spRead c a.toNat 16 :=
    congrArg (fun m => Memory.readList m (c.spPlace a.toNat) 16) hspl
  rw [List.foldl_append, List.foldl_cons]
  refine List.foldlRecOn (motive := fun q : Package => q.wave? core slot = some (w.answered d (ofLe ((p.core core).ctx.spRead c a.toNat 16)))) r
    (Package.answerQuery core) ?_ fun q hq i hi => (answerQuery_kept hq fun e : i = slot => hnot.2 (e ▸ hi)).1
  rw [answerQuery_answers hwl hcl hb ho, hread]

theorem answerQueries_answers (hs : slot < 64) :
    (p.answerQueries core).wave? core slot = some (w.answered d (ofLe ((p.core core).ctx.spRead c a.toNat 16))) :=
  foldl_answerQuery hw hc hb ho List.nodup_range (List.mem_range.2 hs)

end

end Sys2Proof.Machine

open Sys2Proof Sys2Proof.Machine in
/-- Settles O17: the words by their checks and what they leave to the end of the cycle; there a wave's turn at the barrier ends in a wait, or its arrival is
held or recorded. -/
theorem barrierWords : Obligations.BarrierWords := by
  refine ⟨?barrive, ?bwait, ?bsync, ?arrivals, ?binit, ?bkill, ?bquery, ?answers⟩
  case barrive => exact barrierWord_of_exec (f := fun w _ s addr _ => .block s (.arrive addr false w.d.toNat)) (fun _ _ => rfl) fun _ _ _ _ _ => waits_barrier
  case bwait =>
    exact barrierWord_of_exec (f := fun w v s addr _ => .block s (.bwait addr ((v.sc w.b.toNat).setWidth 32) false w.d.toNat)) (fun _ _ => rfl)
      fun _ _ _ _ _ => waits_barrier
  case bsync => exact barrierWord_of_exec (f := fun w _ s addr _ => .block s (.arrive addr true w.d.toNat)) (fun _ _ => rfl) fun _ _ _ _ _ => waits_barrier
  case bquery => exact barrierWord_of_exec (f := fun w _ s addr _ => .block s (.bquery addr w.d.toNat)) (fun _ _ => rfl) fun _ _ _ _ _ => waits_barrier
  case bkill =>
    refine barrierWord_of_exec (f := fun _ v s addr b => if b.owned && b.owner ≠ v.src.waveId.toNat then .trap { cause := .barrierState, addr := addr }
      else .done (s.onUnit v (.kill v.src.cast (granuleOf addr)))) (fun _ _ => rfl) fun s v w addr b h he hl => ⟨fun hown hne => ?_, fun hok => ?_⟩
    · exact traps_word he h (if_pos (by simp [hown, hne]))
    · exact performs_onUnit h (he.trans (by rw [if_neg (by simpa using hok)]; rfl))
  case arrivals =>
    intro x cs g cyc n l d c w ph sync _ hw hcast hparty hl hothers b put freed onto past again held
    have h : OneWaits x cs g n w l d ph sync := ⟨hw, hcast, hparty, hl, hothers⟩
    have hpast : ∀ p, past p ↔ phaseDone b.phase p = true := fun p => (phaseDone_iff b.phase p).symm
    have hagain : ∀ r, again r → w.syncwait.filter (fun r => r.granule = granuleNo g) = some r := by
      rintro r ⟨hr, hg⟩
      exact Option.filter_eq_some_iff.2 ⟨hr, decide_eq_true hg⟩
    have hnot : (sync = true → ∀ r, ¬ again r) → sync = true → w.syncwait.filter (fun r => r.granule = granuleNo g) = none := fun hr hs =>
      Option.filter_eq_none_iff.2 fun r hw hg => hr hs r ⟨hw, of_decide_eq_true hg⟩
    have hheld : held ↔ w.mustHold g b = true := (mustHold_iff w g b).symm
    have hkilled : b.killed = true → (ph = none → w.held = none) → x.arriveAll cs c cyc g = freed b.phase 1 := fun hk hh =>
      h.arriveAll_turn (by exact fun _ _ _ => nofun) (barrierTurn_killed hl hk hh)
    refine ⟨?atKilled, ?phaseOver, ?phaseWaits, ?arrivesAtKilled, ?againOver, ?waitsAgain, ?heldBack, ?recorded, ?recordedSync⟩
    case atKilled =>
      rintro p rfl hk
      exact hkilled hk nofun
    case phaseOver =>
      rintro p rfl hk hp
      exact h.arriveAll_turn (by exact fun _ _ _ => nofun) (barrierTurn_over hk hl ((hpast p).1 hp))
    case phaseWaits =>
      rintro p rfl hk hp
      exact h.arriveAll_turn (by exact fun _ _ _ => nofun) (barrierTurn_waits hk hl (mt (hpast p).2 hp))
    case arrivesAtKilled => exact fun _ hh hk => hkilled hk fun _ => hh
    case againOver =>
      rintro r rfl hh hk rfl hr hp
      exact h.arriveAll_turn (by exact fun _ _ _ => nofun) (barrierTurn_again_over hk hh hl (hagain r hr) ((hpast r.phase).1 hp))
    case waitsAgain =>
      rintro r rfl hh hk rfl hr hp
      exact h.arriveAll_turn (by exact fun _ _ _ => nofun) (barrierTurn_again_waits hk hh hl (hagain r hr) (mt (hpast r.phase).2 hp))
    case heldBack =>
      rintro rfl hh hk hr hm
      exact h.arriveAll_held hk hh (hnot hr) (hheld.1 hm)
    case recorded =>
      rintro rfl hh hk rfl hm
      rw [h.arriveAll_recorded hk hh nofun (Bool.eq_false_iff.2 (mt hheld.2 hm)), recordArrival_barrive hh]
      rfl
    case recordedSync =>
      rintro rfl hh hk rfl hr hm
      rw [h.arriveAll_recorded hk hh (hnot fun _ => hr) (Bool.eq_false_iff.2 (mt hheld.2 hm)), recordArrival_bsync hh]
      rfl
  case binit =>
    intro s v w h addr g x cfg track wrong old busy fits n made clears
    have hpass : fits → x.tag v.cast g < 2 → exec (.binit w) s = s.word (.binit w) fun _ _ => v.initBar w s := fun hfit htag =>
      exec_binit_passes h.1 (barTrap_passes hfit.1 hfit.2 nofun htag)
    have hbusy : v.initBusy w s = true ↔ busy := initBusy_iff v w s
    have hconfig : binitConfigOk cfg = true ↔ ¬ wrong := binitConfigOk_iff cfg
    refine ⟨fun hmis => ?_, fun hal hlate => ?_, fun hfit htag => ?_, fun hfit htag hw => ?_, fun hfit htag hw hb => ?_, fun hfit htag hw hb => ?_, fun y => ?_⟩
    · exact traps_binit h (barTrap_misaligned hmis false)
    · exact traps_binit h (barTrap_late hal hlate false)
    · exact traps_binit h (barTrap_queue hfit.1 hfit.2 htag)
    · exact traps_word (hpass hfit htag) h (initBar_wrong (mt hconfig.1 (not_not.2 hw)))
    · exact traps_word (hpass hfit htag) h (initBar_busy (hconfig.2 hw) (hbusy.2 hb))
    · exact performs_onUnit h ((hpass hfit htag).trans (word_congr h.1 (initBar_makes (hconfig.2 hw) (mt hbusy.1 hb)) _))
    · rfl
  case answers =>
    intro p core slot w c b a d hs hw hc hb ho n
    exact ⟨_, answerQueries_answers hw hc hb ho hs, goesOn_endWait _ _ _ hb⟩
end

section
/-! SUPPORT. The words over global memory (Sys2Proof/Machine/Global.lean: R225 to R246): each by its kind, by the requests that its lanes are cut into, and, for a
load, by what the first-level cache gives at once. -/

namespace Sys2Proof.Machine

/-! Words that the first-level cache never serves. -/

theorem ownCause_atomic (op ty n : Nat) (ret : Bool) (r : Nat) :
    (MemKind.atomic op ty n ret r).ownCause = some (if ret = true then .orderedRet else .ownership) := rfl

theorem dest_atomic (op ty n : Nat) (ret : Bool) (r : Nat) :
    (MemKind.atomic op ty n ret r).dest = if ret = true then some (r, (n + 3) / 4) else none := by
  cases ret <;> rfl

/-- An atomic of Table 12.3 (R235 to R237): one request for each place that its lanes name. -/
theorem atomic_of_kind {i : AT → Instr} {op : Nat} {cas : Bool} {host : Nat → Bool} (hi : ∀ w, atomicWord (i w) = some (op, w))
    (he : ∀ w s, exec (i w) s = execAtom (i w) w cas s) (hhost : ∀ t n ret r, (MemKind.atomic op t n ret r).hostOk = host t) : Atomic i op cas host := by
  intro s v w h size
  have hs : size = atomSize w.t.toNat := size_if w.t
  have hk : memKind (i w) = .atomic op w.t.toNat size (w.n = 0) w.v.toNat := by unfold memKind; rw [hi, hs]
  have key := mem_word s v (i w) _ hk (fun v j => v.indexAddr w.b w.i j) (fun v => v.bytes w.v.toNat size)
    (fun v j => if cas then v.bytes (w.v.toNat + size / 4) size j else []) rfl h (fun s => (he w s).trans (by rw [hs]; rfl))
    (fun j a b => ∃ at_ lanes, b = .atomic op w.t.toNat at_ lanes (decide (w.n = 0)) w.v.toNat ∧ at_.place = a
        ∧ { lane := j, x := v.bytes w.v.toNat size j, new := if cas then v.bytes (w.v.toNat + size / 4) size j else [] } ∈ lanes)
    true (w.n = 0)
    (fun _ => place_covers _ _ _ _ _ _ _ _ (fun _ => rfl) fun g j a he hp => ⟨_, _, rfl, ?_, List.mem_map.2 ⟨_, he, rfl⟩⟩)
    (fun l x hx => ?_) ?_ ?_
  · rw [hhost, ownCause_atomic, dest_atomic] at key
    simp only [decide_eq_true_eq] at key
    exact key
  · cases g with
    | nil => cases he
    | cons e g => exact hp e (List.mem_cons_self ..)
  · obtain ⟨g, -, rfl⟩ := List.mem_map.1 hx
    exact ⟨rfl, rfl, fun _ _ => rfl⟩
  · rintro j a b ⟨at_, lanes, rfl, hb⟩
    exact ⟨at_, lanes, rfl, hb⟩
  · cases hr : decide (w.n = 0)
    · exact .inl rfl
    · exact .inr rfl


/-- A store word (R226): one request for each gang and line, with the bytes of its lanes. -/
theorem stores_of_kind {i : Instr} {e reg : Nat} {addr : View → Nat → Quad} {s : State} {v : View} (hk : memKind i = .store (2 ^ e))
    (he : ∀ s, exec i s = execMem i addr (fun v => v.dataBytes reg (2 ^ e)) noData s) (h : Issues s v i) : Stores s v i e reg (addr v) := by
  refine mem_word s v i _ hk addr (fun v => v.dataBytes reg (2 ^ e)) noData rfl h he _ true false
    (fun _ => gang_covers _ _ _ _ _ _ _ _ (fun _ => rfl) fun g j a hj => ⟨_, rfl, fun n hn => ?_⟩) (fun l x hx => ?_) ?_ (.inl rfl)
  · rw [List.mem_flatMap]
    refine ⟨_, hj, List.mem_map.2 ⟨((v.dataBytes reg (2 ^ e) j).getD n 0, n), ?_, rfl⟩⟩
    rw [List.mem_zipIdx_iff_getElem?, List.getD_eq_getElem?_getD]
    have hlen : n < (v.dataBytes reg (2 ^ e) j).length := by rwa [dataBytes_length]
    simp [hlen]
  · obtain ⟨g, -, rfl⟩ := List.mem_map.1 hx
    exact ⟨rfl, rfl, fun _ _ => rfl⟩
  · rintro j a b ⟨bytes, rfl, hb⟩
    exact ⟨bytes, rfl, hb⟩

/-! Loads, which the first-level cache may serve (R227). -/

theorem mem_regsOfBytes_iff {r lane : Nat} {bs : List Byte} {e : Nat × Nat × Word} : e ∈ regsOfBytes r lane bs ↔
    ∃ k, 4 * k < bs.length ∧ e = (r + k, lane, BitVec.ofNat 32 (ofLe ((bs.drop (4 * k)).take 4))) := by
  rw [regsOfBytes, List.mem_map]
  constructor
  · rintro ⟨k, hk, rfl⟩
    rw [List.mem_range] at hk
    exact ⟨k, by omega, rfl⟩
  · rintro ⟨k, hk, rfl⟩
    exact ⟨k, List.mem_range.2 (by omega), rfl⟩

/-- The elements that the first-level cache gives to the requests of a load. -/
def l1Given (c : Core) (k : MemKind) (dev : List Elem) : List (Nat × Nat × Word) :=
  (devRequests k dev).flatMap fun x => (c.l1Load x.1 x.2).getD []

theorem mem_l1Given {c : Core} {n r : Nat} {dev : List Elem} (hdev : ∀ e ∈ dev, e.lane < 128) {y : Nat × Nat × Word} : y ∈ l1Given c (.load n r) dev ↔
    ∃ e ∈ dev, ∃ x, c.l1Find (e.place / 128) = some x ∧ y ∈ regsOfBytes r e.lane ((x.data.drop (e.place % 128)).take n) := by
  simp only [l1Given, devRequests, List.flatMap_map, List.mem_flatMap, Core.l1Load]
  constructor
  · rintro ⟨g, hg, hy⟩
    obtain ⟨e, -, heg, hs⟩ := gang_back dev g hg
    cases hf : c.l1Find (lineOfGroup g) with
    | none => simp [hf] at hy
    | some x =>
      simp only [hf, Option.map_some, Option.getD_some, List.mem_flatMap] at hy
      obtain ⟨z, hz, hy⟩ := hy
      refine ⟨z, (hs z hz).2, x, ?_, hy⟩
      rw [(hs z hz).1, ← line_of g e heg fun w hw => (hs w hw).1, hf]
  · rintro ⟨e, he, x, hf, hy⟩
    obtain ⟨g, hg, heg, hs⟩ := gang_cover dev e he (hdev e he)
    refine ⟨g, hg, ?_⟩
    rw [line_of g e heg hs, hf]
    simp only [Option.map_some, Option.getD_some, List.mem_flatMap]
    exact ⟨e, heg, hy⟩

theorem mem_l1Given_iff {s : State} {v : View} {place : Nat → Option Nat} {addr : Nat → Quad} {data cmp : Nat → List Byte} {n reg r j : Nat} {y : Word} (hj : j < 128) :
    (r, j, y) ∈ l1Given (s.pkg.core v.iss.core) (.load n reg) (devElems v place addr data cmp) ↔ L1Elements s v reg n place r j = some y := by
  rw [mem_l1Given fun e he => dev_lane v place addr data cmp e he]
  simp only [mem_dev, mem_regsOfBytes_iff, L1Elements]
  constructor
  · rintro ⟨_, ⟨j, a, -, ha, hp, rfl⟩, x, hf, k, hk, he⟩
    obtain ⟨rfl, rfl, rfl⟩ : r = reg + k ∧ _ = j ∧ y = _ := by simpa using he
    simp_all
  · intro h
    split at h
    · cases h
    next ha =>
    split at h
    · cases h
    next a hp =>
    split at h
    · cases h
    next x hf =>
    split at h
    next hr =>
      obtain ⟨hr, hk⟩ := hr
      refine ⟨_, ⟨j, a, hj, by simpa using ha, hp, rfl⟩, x, hf, r - reg, hk, ?_⟩
      simp only [Option.some.injEq] at h
      rw [← h, Nat.add_sub_cancel' hr]
    · cases h

theorem setElems_l1Given {s : State} {v : View} {place : Nat → Option Nat} {addr : Nat → Quad} {data cmp : Nat → List Byte} {n reg r j : Nat}
    (hr : r < v.now.vregs.length) (hj : j < 128) :
    (v.now.setElems (l1Given (s.pkg.core v.iss.core) (.load n reg) (devElems v place addr data cmp))).v r j =
      (L1Elements s v reg n place r j).getD (v.now.v r j) := by
  have hmem := fun y => mem_l1Given_iff (s := s) (v := v) (place := place) (addr := addr) (data := data) (cmp := cmp) (n := n) (reg := reg) (r := r) (y := y) hj
  cases hq : L1Elements s v reg n place r j with
  | none =>
    refine setElems_not _ _ _ _ hr hj ?_
    rintro ⟨_, _, y⟩ hy ⟨rfl, rfl⟩
    rw [(hmem y).1 hy] at hq
    cases hq
  | some y =>
    refine setElems_at _ _ _ _ hr hj y ((hmem y).2 hq) ?_
    rintro ⟨_, _, z⟩ hz rfl rfl
    rw [(hmem z).1 hz] at hq
    exact Option.some.inj hq

/-- A load word (R226, R232, R233): one request for each gang and line that the first-level cache does not hold. -/
theorem loads_of_kind {i : Instr} {e reg : Nat} {addr : View → Nat → Quad} {s : State} {v : View} (hk : memKind i = .load (2 ^ e) reg)
    (he : ∀ s, exec i s = execMem i addr noData noData s) (h : Issues s v i) : Loads s v i e reg (addr v) := by
  have key := mem_checks s v i addr noData noData (by rw [hk]; rfl) h he (fun line => (s.pkg.core v.iss.core).l1Find line ≠ none)
    (fun j a b => ∃ lanes fill, b = .load (2 ^ e) reg lanes fill ∧ ∃ l ∈ lanes, l.lane = j ∧ l.place = a) false (L1Elements s v reg (2 ^ e))
  rw [hk] at key
  refine key fun dev hdev _ _ => ?_
  obtain rfl : dev = devElems v _ (addr v) (noData v) (noData v) := hdev
  have hC : Covers v (.load (2 ^ e) reg) (fun j => DevicePlace s v false (addr v j)) (addr v) (noData v) (noData v)
      fun j a b => ∃ lanes fill, b = .load (2 ^ e) reg lanes fill ∧ ∃ l ∈ lanes, l.lane = j ∧ l.place = a :=
    gang_covers _ _ _ _ _ _ _ _ (fun _ => rfl) fun g j a hj => ⟨_, _, rfl, _, List.mem_map.2 ⟨_, hj, rfl⟩, rfl, rfl⟩
  have hbody : ∀ x ∈ devRequests (.load (2 ^ e) reg) (devElems v (fun j => DevicePlace s v false (addr v j)) (addr v) (noData v) (noData v)),
      ∃ lanes, x.2 = .load (2 ^ e) reg lanes true := fun x hx => by
    obtain ⟨g, -, rfl⟩ := List.mem_map.1 hx
    exact ⟨_, rfl⟩
  have hrun := perform_mem s v (view_spec h.1).2.1
    { instr := i, lanes := v.lanes.map (fun j => { lane := j, addr := addr v j }), data := v.lanes.map (noData v), cmp := v.lanes.map (noData v) }
    (devElems v (fun j => DevicePlace s v false (addr v j)) (addr v) (noData v) (noData v)) false true
    (fun line => (s.pkg.core v.iss.core).l1Find line ≠ none)
  simp only [hk] at hrun
  refine hrun (fun x hx => ?_) (.inl fun x hx => ?_) (fun x hx => ?_) _ _ ?_ hC.cover hC.back _ (fun r j hr hj => ?_) (.inr trivial)
  · obtain ⟨lanes, hb⟩ := hbody x hx
    exact ⟨by rw [hb]; rfl, by rw [hb]; rfl, .inl ⟨_, _, _, _, hb⟩⟩
  · obtain ⟨lanes, hb⟩ := hbody x hx
    exact .inl ⟨_, _, _, _, hb⟩
  · obtain ⟨lanes, hb⟩ := hbody x hx
    rw [hb]
    simp [Core.l1Load]
  · rintro j a b ⟨lanes, fill, rfl, hl⟩
    exact ⟨lanes, false, rfl, hl⟩
  · exact setElems_l1Given hr hj

/-- An index of 8, 16 or 32 bits, or of the pair (R233). -/
theorem gatherIndex_eq (v : View) (w : MG) (j : Nat) :
    let x := (v.vec w.i.toNat j).toNat
    let z := fun n : Nat => if w.g = 1 then (BitVec.ofNat n x).signExtend 64 else (BitVec.ofNat n x).setWidth 64
    v.gatherIndex w j = if w.w = 0 then z 8 else if w.w = 1 then z 16 else if w.w = 2 then z 32 else v.pair w.i.toNat j := by
  intro x z
  have hw : ∀ n : BitVec 2, n = 0 ∨ n = 1 ∨ n = 2 ∨ n = 3 := by decide
  have hz : v.gatherIndex w j = if w.w = 3 then v.pair w.i.toNat j else z (8 * 2 ^ w.w.toNat) := rfl
  rw [hz]
  rcases hw w.w with h | h | h | h <;> rw [h] <;> rfl

theorem gatherAddr_eq (v : View) (w : MG) : v.gatherAddr w = IndexedAddress v w := by
  funext j
  rw [View.gatherAddr, gatherIndex_eq]
  rfl

/-! The reservations and STRED (R241 to R244). -/


theorem loadReserved {w : MXW} {s : State} {v : View} (h : Issues s v (.lr w)) :
    let size := if w.w = 1 then 8 else 4
    MemWord s v (.lr w) size false false true (some .orderedRet) (LaneIndexAddress v w.b w.i) (fun _ => False)
      (fun j a b => ∃ lanes, b = .lr size w.v.toNat lanes ∧ ∃ l ∈ lanes, l.lane = j ∧ l.place = a) false (some (w.v.toNat, (size + 3) / 4)) fun _ _ _ => none := by
  intro size
  refine mem_word s v (.lr w) (.lr size w.v.toNat) rfl (fun v => v.indexAddr w.b w.i) noData noData rfl h (fun _ => rfl) _ false true
    (fun hone => all_covers _ _ _ _ _ _ _ (fun l => .lr size w.v.toNat (l.map Elem.lp)) (fun _ => rfl) (hone rfl)
      fun g j a hj => ⟨_, rfl, _, List.mem_map.2 ⟨_, hj, rfl⟩, rfl, rfl⟩)
    (fun l x hx => ?_) ?_ (.inr rfl)
  · obtain ⟨-, rfl⟩ : l.isEmpty = false ∧ x = _ := by simpa [devRequests] using hx
    exact ⟨rfl, rfl, fun _ _ => rfl⟩
  · rintro j a b ⟨lanes, rfl, hl⟩
    exact ⟨lanes, rfl, hl⟩

theorem storeConditional {w : MXW} {s : State} {v : View} (h : Issues s v (.sc w)) :
    let size := if w.w = 1 then 8 else 4
    MemWord s v (.sc w) size true false true (some .orderedRet) (LaneIndexAddress v w.b w.i) (fun _ => False)
      (fun j a b => ∃ lanes data, b = .sc size w.v.toNat lanes data ∧ ∃ l, (l, v.bytes w.v.toNat size j) ∈ lanes.zip data ∧ l.lane = j ∧ l.place = a)
      true (some (w.v.toNat, (size + 3) / 4)) fun _ _ _ => none := by
  intro size
  refine mem_word s v (.sc w) (.sc size w.v.toNat) rfl (fun v => v.indexAddr w.b w.i) (fun v => v.bytes w.v.toNat size) noData rfl h (fun _ => rfl) _ true true
    (fun hone => all_covers _ _ _ _ _ _ _ (fun l => .sc size w.v.toNat (l.map Elem.lp) (l.map Elem.data)) (fun _ => rfl) (hone rfl)
      fun g j a hj => ⟨_, _, rfl, { lane := j, va := v.indexAddr w.b w.i j, place := a }, ?_, rfl, rfl⟩)
    (fun l x hx => ?_) ?_ (.inr rfl)
  · rw [List.zip_map', List.mem_map]
    exact ⟨_, hj, rfl⟩
  · obtain ⟨-, rfl⟩ : l.isEmpty = false ∧ x = _ := by simpa [devRequests] using hx
    exact ⟨rfl, rfl, fun _ _ => rfl⟩
  · rintro j a b ⟨lanes, data, rfl, hl⟩
    exact ⟨lanes, data, rfl, hl⟩

theorem storeReduction {w : MXT} {s : State} {v : View} (h : Issues s v (.stred w)) :
    let size := if w.t = 1 then 8 else 4
    MemWord s v (.stred w) size true false false (some .ownership) (LaneIndexAddress v w.b w.i) (fun _ => False)
      (fun j a b => ∃ parts, b = .stred w.t.toNat parts ∧ ∃ l, (l, v.dataBytes w.v.toNat size j) ∈ parts ∧ l.lane = j ∧ l.place = a)
      true none fun _ _ _ => none := by
  intro size
  have hsize : stredSize w.t.toNat = size := by
    have ht : w.t.toNat = 1 ↔ w.t = 1 := BitVec.toNat_inj (y := 1#2)
    simp only [stredSize, ht, size]
  refine mem_word s v (.stred w) (.stred w.t.toNat size) (by rw [← hsize]; rfl) (fun v => v.indexAddr w.b w.i) (fun v => v.dataBytes w.v.toNat size) noData rfl h
    (fun _ => by rw [← hsize]; rfl) _ true false
    (fun _ => line_covers _ _ _ _ _ _ _ (fun g => .stred w.t.toNat (g.map fun e => (e.lp, e.data))) (fun _ => rfl) fun g j a hj =>
      ⟨_, rfl, { lane := j, va := v.indexAddr w.b w.i j, place := a }, List.mem_map.2 ⟨_, hj, rfl⟩, rfl, rfl⟩)
    (fun l x hx => ?_) ?_ (.inl rfl)
  · obtain ⟨g, -, rfl⟩ := List.mem_map.1 hx
    exact ⟨rfl, rfl, fun _ _ => rfl⟩
  · rintro j a b ⟨parts, rfl, hl⟩
    exact ⟨parts, rfl, hl⟩

/-! The hints (R245, R246), whose lanes are dropped without a trap. -/

theorem memCheck_hint {p : Package} {core : Nat} {w : Waiter} {c : Cast} {op : MemOp} (h : (memKind op.instr).hint = true)
    (hw : (p.sortLanes core w c.partition op).walks = []) : p.memCheck core w c op = .go (p.sortLanes core w c.partition op).dev [] [] := by
  unfold Package.memCheck
  dsimp only
  rw [if_pos h, hw]
  rfl

/-- A hint whose lanes need no walk performs for those that lie in device memory. -/
theorem hints_of_kind {i : Instr} {k : MemKind} {addr : View → Nat → Quad} {s : State} {v : View} {hit : Nat → Prop} {carries : Nat → Nat → ReqBody → Prop}
    (hk : memKind i = k) (hint : k.hint = true) (hread : k.writes = false) (hdest : k.dest = none) (he : ∀ s, exec i s = execMem i addr noData noData s) (h : Issues s v i)
    (hcov : Covers v k (fun j => DevicePlace s v false (addr v j)) (addr v) (noData v) (noData v) carries)
    (hplain : ∀ l, ∀ x ∈ devRequests k l, Plain false false x.2)
    (hkind : ∀ l, (∀ x ∈ devRequests k l, ∃ l1, x.2 = .pref l1) ∨ ∀ x ∈ devRequests k l, ∀ (c : Core) (n : Nat), c.l1Load n x.2 = none)
    (hserved : ∀ l, ∀ x ∈ devRequests k l, ((s.pkg.core v.iss.core).l1Load x.1 x.2 = none ↔ ¬ hit x.1) ∧ ((s.pkg.core v.iss.core).l1Load x.1 x.2).getD [] = [])
    (hnf : ∀ j a b, carries j a b → carries j a b.noFill) : MemHints s v i (addr v) hit carries := by
  intro hwalk
  subst hk
  let op : MemOp := { instr := i, lanes := v.lanes.map (fun j => { lane := j, addr := addr v j }), data := v.lanes.map (noData v), cmp := v.lanes.map (noData v) }
  have hop : op.elems = v.lanes.map (elemOf (addr v) (noData v) (noData v)) := elems_eq v i (addr v) (noData v) (noData v)
  let dev := devElems v (fun j => DevicePlace s v false (addr v j)) (addr v) (noData v) (noData v)
  have hxlate : ∀ j, s.pkg.xlate v.iss.core v.cast.partition v.waiter (elemOf (addr v) (noData v) (noData v) j).va (memKind op.instr).writes false
      = s.pkg.xlate v.iss.core v.cast.partition (.wave v.iss.core v.iss.slot) (addr v j) false false := fun j =>
    congrArg (fun b => s.pkg.xlate v.iss.core v.cast.partition (.wave v.iss.core v.iss.slot) (addr v j) b false) hread
  have hwalks : (s.pkg.sortLanes v.iss.core v.waiter v.cast.partition op).walks = [] := by
    simp only [Package.sortLanes, hop, List.map_map, List.map_eq_nil_iff, List.filter_eq_nil_iff, List.mem_map]
    rintro _ ⟨j, hj, rfl⟩ hx
    obtain ⟨hlt, ha⟩ := (mem_lanes v j).1 hj
    exact hwalk j hlt ha ((hxlate j).symm.trans (of_decide_eq_true hx))
  have hdev : (s.pkg.sortLanes v.iss.core v.waiter v.cast.partition op).dev = dev := by
    simp only [Package.sortLanes, hop, List.map_map, List.filterMap_map, dev, devElems]
    refine List.filterMap_congr fun j _ => ?_
    simp only [Function.comp, hxlate, DevicePlace]
    cases s.pkg.xlate v.iss.core v.cast.partition (.wave v.iss.core v.iss.slot) (addr v j) false false <;> rfl
  have hgo := (memCheck_hint (op := op) hint hwalks).trans (by rw [hdev])
  have hnone : ((devRequests (memKind i) dev).flatMap fun x => ((s.pkg.core v.iss.core).l1Load x.1 x.2).getD []) = [] :=
    List.flatMap_eq_nil_iff.2 fun x hx => (hserved dev x hx).2
  obtain ⟨p, u, hsent, hwave, hrun⟩ := perform_mem s v (view_spec h.1).2.1 op dev false false hit (hplain dev)
    ((hkind dev).imp_left fun hb x hx => .inr (hb x hx)) (fun x hx => (hserved dev x hx).1) _ carries hnf hcov.cover hcov.back (fun _ _ => none)
    (fun r j _ _ => by rw [hnone]; rfl) (.inl hdest)
  refine ⟨p, u, performs_done (s1 := s.modPkg fun p => p.performMem s.clk v.iss.core v.iss.slot v.iss.leader v.cast op dev []) (he s) h (f := fun _ => u) ?_
    hwave hrun rfl rfl rfl, ?_⟩
  · dsimp only
    rw [hgo]
  · rwa [hdest] at hsent

theorem l1Load_pref (c : Core) (line : Nat) (l1 : Bool) : c.l1Load line (.pref l1) = if l1 = true then (c.l1Find line).map fun _ => [] else none := by
  cases l1 <;> rfl

theorem prefetch {w : MXL} {s : State} {v : View} (h : Issues s v (.pref w)) : MemHints s v (.pref w) (LaneIndexAddress v w.b w.i)
    (fun line => w.l = 1 ∧ (s.pkg.core v.iss.core).l1Find line ≠ none) fun _ _ b => ∃ l1, b = .pref l1 := by
  have hbody : ∀ l, ∀ x ∈ devRequests (.pref (decide (w.l = 1))) l, x.2 = .pref (decide (w.l = 1)) := fun l x hx => by
    obtain ⟨g, -, rfl⟩ := List.mem_map.1 hx
    rfl
  refine hints_of_kind (k := .pref (w.l = 1)) (addr := fun v => v.indexAddr w.b w.i) rfl rfl rfl rfl (fun _ => rfl) h
    (gang_covers _ _ _ _ _ _ _ _ (fun _ => rfl) fun g j a hj => ⟨_, rfl⟩) (fun l x hx => ?_) (fun l => .inl fun x hx => ⟨_, hbody l x hx⟩) (fun l x hx => ?_) ?_
  · rw [hbody l x hx]
    exact ⟨rfl, rfl, .inr (.inl ⟨_, rfl⟩)⟩
  · rw [hbody l x hx, l1Load_pref]
    by_cases hl : w.l = 1
    · rw [if_pos (decide_eq_true hl)]
      cases (s.pkg.core v.iss.core).l1Find x.1 <;> simp [hl]
    · rw [if_neg (mt of_decide_eq_true hl)]
      exact ⟨⟨fun _ hh => hl hh.1, fun _ => rfl⟩, rfl⟩
  · rintro j a b ⟨l1, rfl⟩
    exact ⟨false, rfl⟩

theorem cacheFlush {w : MXN} {s : State} {v : View} (h : Issues s v (.cflush w)) : MemHints s v (.cflush w) (LaneIndexAddress v w.b w.i) (fun _ => False)
    fun _ _ b => b = .cflush (decide (w.n = 1)) := by
  have hbody : ∀ l, ∀ x ∈ devRequests (.cflush (decide (w.n = 1))) l, x.2 = .cflush (decide (w.n = 1)) := fun l x hx => by
    obtain ⟨g, -, rfl⟩ := List.mem_map.1 hx
    rfl
  refine hints_of_kind (k := .cflush (w.n = 1)) (addr := fun v => v.indexAddr w.b w.i) rfl rfl rfl rfl (fun _ => rfl) h
    (line_covers _ _ _ _ _ _ _ _ (fun _ => rfl) fun g j a hj => rfl) (fun l x hx => ?_) (fun l => .inr fun x hx => ?_) (fun l x hx => ?_) ?_
  · rw [hbody l x hx]
    exact ⟨rfl, rfl, .inr (.inr fun _ _ => rfl)⟩
  · rw [hbody l x hx]
    exact fun _ _ => rfl
  · rw [hbody l x hx]
    simp [Core.l1Load]
  · rintro j a b rfl
    rfl

end Sys2Proof.Machine

open Sys2Proof Sys2Proof.Machine in
/-- Settles O23: a load and a store by their kind; the two forms of address are the statement's. -/
theorem globalLoadsAndStores : Obligations.GlobalLoadsAndStores := by
  refine ⟨fun s v w h => ?ldc, fun s v w h => ?stc, fun s v w h => ?ldg, fun s v w h => ?stg⟩
  case ldc => exact loads_of_kind rfl (fun _ => rfl) h
  case stc => exact stores_of_kind rfl (fun _ => rfl) h
  case ldg => rw [← gatherAddr_eq]; exact loads_of_kind rfl (fun _ => rfl) h
  case stg => rw [← gatherAddr_eq]; exact stores_of_kind rfl (fun _ => rfl) h

open Sys2Proof Sys2Proof.Machine in
/-- Settles O24: each row of Table 12.3 by its op and by what host space carries of it. -/
theorem atomicWords : Obligations.AtomicWords := by
  refine ⟨?add, ?smin, ?smax, ?umin, ?umax, ?and, ?or, ?xor, ?swap, ?cas, ?fadd, ?fmin, ?fmax⟩
  all_goals
    refine atomic_of_kind (fun _ => rfl) (fun _ _ => rfl) fun t n ret r => ?_
    simp [MemKind.hostOk]

open Sys2Proof Sys2Proof.Machine in
/-- Settles O25: the reservations and STRED as words that the first-level cache never serves, the hints as words without checks. -/
theorem reservedAndHintWords : Obligations.ReservedAndHintWords := by
  refine ⟨fun s v w h => loadReserved h, fun s v w h => storeConditional h, fun s v w h => storeReduction h, fun s v w h => prefetch h,
    fun s v w h => cacheFlush h⟩
end

section
/-! SUPPORT. FENCE, CINV and WAITST (Sys2Proof/Machine/Order.lean, Global.lean: R246, R247, R254 to R256, R260): the markers that a release sends, and the requests
whose fills an emptied first-level cache cancels. -/

namespace Sys2Proof.Machine

theorem exec_fence (w : MXF) (s : State) : exec (.fence w) s = s.word (.fence w) fun v s =>
    .done (s.modPkg fun p => p.startFence s.clk v.iss.core v.iss.slot (fenceKind w.f.toNat) w.s.toNat false v.iss.word) := rfl

theorem exec_cinv (w : C0) (s : State) : exec (.cinv w) s = s.word (.cinv w) fun v s => .done (s.modPkg fun p => p.l1Clear v.iss.core) := rfl

theorem exec_waitst (w : C0) (s : State) :
    exec (.waitst w) s = s.word (.waitst w) fun v s => if v.now.outst = 0 then .done s else .block s .waitst := rfl

theorem exec_waitstComplete (core slot leader : Nat) (s : State) :
    exec (.waitstComplete core slot leader) s = .next { s with pkg := waitstCompleteAt core slot leader s.pkg } := rfl

/-! Words whose effect is on the package alone. -/

section
variable {s : State} {v : View} {i : Instr} {F : View → State → Out} {q : Package} {op : BlockOp} (he : exec i s = s.word i F) (h : Issues s v i)
include he h

theorem performs_package (hF : F v s = .done { s with pkg := q }) (hw : q.wave? v.iss.core v.iss.slot = some v.now) : Performs s v i false q v.now :=
  performs_done (f := fun u => u) he h hF hw (modWave_id _ _ _).symm rfl rfl rfl

theorem waits_package (hF : F v s = .block { s with pkg := q } op) (hw : q.wave? v.iss.core v.iss.slot = some v.now)
    (hl : v.iss.leader < v.now.slices.length) : Waits s v i q v.now op :=
  waits_block (f := fun u => u) he h hF hw (modWave_id _ _ _).symm rfl rfl rfl hl

end

/-! The start of a fence (R254, R260). -/

/-- The markers that a fence sends to one other stage, down both paths. -/
def markersTo (k : Clock) (core slot : Nat) : List Marker :=
  [{ core := core, slot := slot, path := 0, arrives := k.mcyc + 60, sent := k.mcyc }, { core := core, slot := slot, path := 1, arrives := k.mcyc + 60, sent := k.mcyc }]

/-- The package with the markers of a fence on their way to a stage. -/
def Package.sendMarkers (k : Clock) (core slot : Nat) (p : Package) (st : Nat) : Package :=
  ((p.modStage st fun s => { s with markers := s.markers ++ markersTo k core slot }).later (.mesh (k.mcyc + 60)) (.flushMarkerArrival st)).later
    (.mesh (k.mcyc + 60)) (.flushMarkerArrival st)

/-- The stages from which a fence waits to hear. -/
def Package.peersOf (p : Package) (core : Nat) (kind : FenceKind) (scope : Nat) : List Nat :=
  if kind.releases && 3 ≤ scope then p.otherStages core else []

theorem nodup_peersOf (p : Package) (core : Nat) (kind : FenceKind) (scope : Nat) : (p.peersOf core kind scope).Nodup := by
  unfold Package.peersOf
  split
  · exact (List.nodup_range.filter _).filter _
  · exact List.nodup_nil

theorem mem_peersOf {p : Package} {core : Nat} {kind : FenceKind} {scope n : Nat} :
    n ∈ p.peersOf core kind scope ↔ (kind ≠ .acq ∧ 3 ≤ scope) ∧ n < 4 ∧ p.stages.getLsbD n = true ∧ n ≠ core / 64 := by
  have hrel : kind.releases = true ↔ kind ≠ .acq := by cases kind <;> simp [FenceKind.releases]
  unfold Package.peersOf
  split
  · next h =>
    rw [Bool.and_eq_true, hrel, decide_eq_true_eq] at h
    change n ∈ p.otherStages core ↔ _ ∧ n < 4 ∧ p.stages.getLsbD n = true ∧ n ≠ stageOf core
    simp [Package.otherStages, Package.presentStages, Package.present, h, and_comm (a := ¬ n = stageOf core)]
  · next h =>
    rw [Bool.and_eq_true, hrel, decide_eq_true_eq] at h
    simp [h]

/-- A fence's markers change the stages that they go to, and what is due. -/
theorem sendMarkers_fold (k : Clock) (core slot : Nat) (l : List Nat) (p : Package) :
    l.foldl (Package.sendMarkers k core slot) p = { p with
      stage := (l.foldl (Package.sendMarkers k core slot) p).stage, due := (l.foldl (Package.sendMarkers k core slot) p).due } :=
  List.foldlRecOn (motive := fun q : Package => q = { p with stage := q.stage, due := q.due }) l _ rfl fun q hq st _ => by
    conv_lhs => unfold Package.sendMarkers Package.later Package.modStage; rw [hq]
    rfl

theorem stageAt_sendMarkers_fold (k : Clock) (core slot : Nat) {l : List Nat} (hl : l.Nodup) (p : Package) {n : Nat} (hn : n < p.stage.length) :
    (l.foldl (Package.sendMarkers k core slot) p).stageAt n =
      if n ∈ l then { p.stageAt n with markers := (p.stageAt n).markers ++ markersTo k core slot } else p.stageAt n := by
  induction l generalizing p with
  | nil => rfl
  | cons st l ih =>
    obtain ⟨hst, hl⟩ := List.nodup_cons.1 hl
    have hone : (p.sendMarkers k core slot st).stageAt n =
        if n = st then { p.stageAt n with markers := (p.stageAt n).markers ++ markersTo k core slot } else p.stageAt n := by
      exact (stageAt_modStage p st n _).trans (if_congr (and_iff_left hn) rfl rfl)
    rw [List.foldl_cons, ih hl _ (hn.trans_eq (modAt_length ..).symm), hone]
    by_cases h : n = st
    · simp [h, hst]
    · simp [h]

theorem peersMask_getLsbD (l : List Nat) {n : Nat} (hn : n < 4) :
    (l.foldl (fun (m : BitVec 4) s => m ||| BitVec.ofNat 4 (2 ^ s)) 0).getLsbD n = true ↔ n ∈ l := by
  have h := getLsbD_foldl_setBits (c := fun _ => True) hn l 0
  simpa using h

theorem startFence_eq (k : Clock) (p : Package) (core slot : Nat) (kind : FenceKind) (scope : Nat) (implied : Bool) (word : Quad) :
    p.startFence k core slot kind scope implied word = ((p.peersOf core kind scope).foldl (Package.sendMarkers k core slot) p).modWave core slot fun w => { w with
      fence := some { kind := kind, scope := scope, stages := (p.peersOf core kind scope).foldl (fun m s => m ||| BitVec.ofNat 4 (2 ^ s)) 0, implied := implied, word := word } } := rfl

theorem fence_word {s : State} {v : View} {w : MXF} (h : Issues s v (.fence w)) :
    let kind : FenceKind := if w.f = 1 then .acq else if w.f = 2 then .rel else .acqrel
    let p := (s.pkg.peersOf v.iss.core kind w.s.toNat).foldl (Package.sendMarkers s.clk v.iss.core v.iss.slot) s.pkg
    Performs s v (.fence w) false p { v.now with fence := some { kind := kind, scope := w.s.toNat, stages := (s.pkg.peersOf v.iss.core kind w.s.toNat).foldl (fun m s => m ||| BitVec.ofNat 4 (2 ^ s)) 0, implied := false, word := v.iss.word } } := by
  intro kind p
  have hkind : fenceKind w.f.toNat = kind := by
    have hone : w.f.toNat = 1 ↔ w.f = 1 := BitVec.toNat_inj (y := 1#4)
    have htwo : w.f.toNat = 2 ↔ w.f = 2 := BitVec.toNat_inj (y := 2#4)
    unfold fenceKind
    split <;> simp_all [kind]
  have hwave : p.wave? v.iss.core v.iss.slot = some v.now := by
    rw [show p = _ from sendMarkers_fold ..]
    exact issuer_now h
  refine performs_done (exec_fence w s) h (s1 := s.modPkg fun p => p.startFence s.clk v.iss.core v.iss.slot (fenceKind w.f.toNat) w.s.toNat false v.iss.word) rfl hwave
    (f := fun u => { u with fence := _ }) ?_ rfl rfl rfl
  rw [State.modPkg, startFence_eq, hkind]

/-! An emptied first-level cache (R227, R246). -/

/-- No request of a core is still to install its line. -/
theorem noFill_of_cancelFills {p : Package} {core : Nat} {r : Req} (h : r ∈ Requests (p.cancelFills core fun _ => true)) (hr : r.key.core = core) :
    ∃ b : ReqBody, r.body = b.noFill := by
  have hmap : ∀ l : List Req, r ∈ l.map (fun r => if r.key.core = core && true then { r with body := r.body.noFill } else r) → ∃ b : ReqBody, r.body = b.noFill := by
    intro l hl
    obtain ⟨x, -, rfl⟩ := List.mem_map.1 hl
    split at hr
    · next hx => exact ⟨x.body, by rw [if_pos hx]⟩
    · next hx => exact absurd hr (by simpa using hx)
  simp only [Requests, Package.cancelFills, List.flatMap_map, List.mem_append, List.mem_flatMap] at h
  obtain ⟨m, -, hm⟩ | ⟨m, -, hm⟩ := h <;> exact hmap _ hm

theorem noFill_ne_load (b : ReqBody) (n q : Nat) (l : List LanePlace) : b.noFill ≠ .load n q l true := by
  cases b <;> simp [ReqBody.noFill]

/-! WAITST (R247). -/

theorem waitstComplete_endsWhen : EndsWhen .waitstComplete .waitst fun w => w.outst = 0 := by
  intro s core slot leader w b hw hb hop
  obtain ⟨op, word, slices, resume, count, late⟩ := b
  obtain rfl : op = .waitst := hop
  constructor
  · intro hc
    simp only [exec_waitstComplete, waitstCompleteAt, hw, hb, hc, if_false]
  · intro hc
    refine ⟨w.endWait leader, ?_, goesOn_endWait w leader _ hb⟩
    simp only [OnWave, exec_waitstComplete, waitstCompleteAt, hw, hb, hc, if_true]
    rw [modWave_const _ _ _ _ _ hw]

end Sys2Proof.Machine

open Sys2Proof Sys2Proof.Machine in
/-- Settles O26: a fence is its wave's from its issue on, and its markers are those of a release at house or system scope; an emptied cache cancels every fill of
its core; WAITST ends by its count. -/
theorem orderingWords : Obligations.OrderingWords := by
  refine ⟨fun s v w h => ?fence, fun s v w h => ?cinv, fun s v w h => ⟨fun h0 => ?go, fun h0 hl => ?wait⟩, waitstComplete_endsWhen⟩
  case fence =>
    intro kind far peer
    refine ⟨_, _, _, fence_word h, rfl, rfl, rfl, rfl, rfl, rfl, rfl, fun n hn => ?_, sendMarkers_fold .., fun n hn => ?_⟩
    · rw [peersMask_getLsbD _ hn, mem_peersOf]
    · rw [stageAt_sendMarkers_fold _ _ _ (nodup_peersOf ..) _ hn]
      exact if_congr mem_peersOf rfl rfl
  case cinv =>
    have hlike := like_l1Clear (issuer_now h)
    refine ⟨_, performs_package (exec_cinv w s) h rfl hlike.wave, l1Clear_rest .., l1_l1Clear (core_lt_of_wave? (issuer_now h)), hlike.cores,
      (l1Clear_cores ..).2 _, fun r hr hc n q l hb => ?_⟩
    obtain ⟨b, he⟩ := noFill_of_cancelFills hr hc
    exact noFill_ne_load b n q l (he.symm.trans hb)
  case go => exact performs_package (exec_waitst w s) h (if_pos h0) (issuer_now h)
  case wait => exact waits_package (exec_waitst w s) h (if_neg h0) (issuer_now h) hl
end

section
/-! SUPPORT. Numbers in the scratchpad (Sys2Proof/Machine/Ops.lean, Scratch.lean: R10, R204): what bytes written at an address read as, and the granules that a fold
of tags or full-empty bits changes. -/

namespace Sys2Proof.Machine

/-! Little-endian numbers (R10). -/

theorem length_leBytes (n v : Nat) : (leBytes n v).length = n := by simp [leBytes]

theorem leBytes_succ (n v : Nat) : leBytes (n + 1) v = BitVec.ofNat 8 v :: leBytes n (v / 256) := by
  simp [leBytes, List.range_succ_eq_map, Nat.pow_succ, Nat.div_div_eq_div_mul, Nat.mul_comm]

theorem ofLe_leBytes (n v : Nat) : ofLe (leBytes n v) = v % 256 ^ n := by
  induction n generalizing v with
  | zero => simp [leBytes, ofLe, Nat.mod_one]
  | succ n ih => rw [leBytes_succ, ofLe, ih, Nat.pow_succ', Nat.mod_mul, BitVec.toNat_ofNat]

theorem ofLe_append (l m : List Byte) : ofLe (l ++ m) = ofLe l + 256 ^ l.length * ofLe m := by
  induction l with
  | nil => simp [ofLe]
  | cons b l ih => rw [List.cons_append, ofLe, ofLe, ih, List.length_cons, Nat.pow_succ', Nat.mul_add, Nat.add_assoc, Nat.mul_assoc]

theorem ofLe_lt (l : List Byte) : ofLe l < 256 ^ l.length := by
  induction l with
  | nil => simp [ofLe]
  | cons b l ih =>
    rw [ofLe, List.length_cons, Nat.pow_succ']
    have := b.isLt
    omega

theorem length_readList (m : Memory) (a n : Nat) : (Memory.readList m a n).length = n := by simp [Memory.readList]

theorem readList_eq {m : Memory} {a n : Nat} {l : List Byte} (hl : l.length = n) (h : ∀ i, i < n → m.read (a + i) = l.getD i 0) : m.readList a n = l := by
  refine List.ext_getElem ((length_readList ..).trans hl.symm) fun i hi hi' => ?_
  rw [length_readList] at hi
  simp only [Memory.readList, List.getElem_map, List.getElem_range, h i hi]
  exact List.getD_eq_getElem _ _ hi'

theorem readList_congr {m m' : Memory} {a n : Nat} (h : ∀ k, a ≤ k → k < a + n → m'.read k = m.read k) : m'.readList a n = m.readList a n :=
  List.map_congr_left fun _ hi => h _ (Nat.le_add_right ..) (Nat.add_lt_add_left (List.mem_range.1 hi) a)

/-! Bytes written from an address of a cast on (R204). -/

theorem writePairs_keyed (m : Memory) (a : Nat) (l : List Byte) : m.writePairs (keyed a l) = m.writeList a l := by
  have key : ∀ (l : List Byte) (m : Memory) (a n : Nat), m.writePairs ((l.zipIdx n).map fun b => (a + b.2, b.1)) = m.writeList (a + n) l := by
    intro l
    induction l with
    | nil => intro m a n; rfl
    | cons b l ih =>
      intro m a n
      rw [List.zipIdx_cons, List.map_cons, Memory.writePairs, Memory.writeList, ih, Nat.add_assoc]
  exact key l m a 0

theorem sp_spWrite_keyed (x : CoreCtx) (c : Cast) (a : Nat) (l : List Byte) : (x.spWrite c (keyed a l)).sp = Memory.writeList x.sp (c.spPlace a) l := by
  have hkeys : (keyed a l).map (fun b => (c.spPlace b.1, b.2)) = keyed (c.spPlace a) l := by
    simp only [keyed, List.map_map]
    exact List.map_congr_left fun b _ => by simp [Cast.spPlace, Nat.add_assoc]
  rw [← writePairs_keyed, ← hkeys]
  rfl

theorem read_spWrite_keyed (x : CoreCtx) (c : Cast) (a : Nat) (l : List Byte) (n : Nat) : Memory.read (x.spWrite c (keyed a l)).sp n =
    if c.spPlace a ≤ n ∧ n < c.spPlace a + l.length then l.getD (n - c.spPlace a) 0 else Memory.read x.sp n := by
  rw [sp_spWrite_keyed, Memory.read_writeList]

theorem read_spWrite_keyed_outside {x : CoreCtx} {c : Cast} {a n : Nat} {l : List Byte} (h : n < c.spPlace a ∨ c.spPlace a + l.length ≤ n) :
    Memory.read (x.spWrite c (keyed a l)).sp n = Memory.read x.sp n := by
  rw [read_spWrite_keyed, if_neg (by omega)]

theorem readList_spWrite_keyed (x : CoreCtx) (c : Cast) (a : Nat) (l : List Byte) : Memory.readList (x.spWrite c (keyed a l)).sp (c.spPlace a) l.length = l :=
  readList_eq rfl fun i hi => by rw [read_spWrite_keyed, if_pos (by omega), Nat.add_sub_cancel_left]

theorem granuleWord_spWrite {x : CoreCtx} {c : Cast} {a : Nat} {l : List Byte} (hl : l.length = 16) : GranuleWord (x.spWrite c (keyed a l)) c a = ofLe l := by
  rw [GranuleWord, ← hl, readList_spWrite_keyed]

theorem granuleWord_lt (x : CoreCtx) (c : Cast) (a : Nat) : GranuleWord x c a < 2 ^ 128 := by
  have h := ofLe_lt (Memory.readList x.sp (c.spPlace a) 16)
  rw [length_readList] at h
  exact h

theorem spWrite_rest (x : CoreCtx) (c : Cast) (l : List (Nat × Byte)) :
    x.spWrite c l = { x with sp := (x.spWrite c l).sp, spPoison := (x.spWrite c l).spPoison } := rfl

/-! Granules with their tags and full-empty bits (R204, R206). -/

theorem granule_inj {c : Cast} {g h : Nat} : c.granule g = c.granule h ↔ g = h := by simp [Cast.granule]

theorem tabGet_tabErase {α : Type} (l : List (Nat × α)) (k j : Nat) : tabGet (tabErase l k) j = if j = k then none else tabGet l j := by
  induction l with
  | nil => simp [tabErase, tabGet]
  | cons e l ih =>
    obtain ⟨i, y⟩ := e
    rw [tabErase] at ih
    rw [tabErase, List.filter_cons]
    by_cases hi : i = k
    · subst hi
      rw [if_neg (by simp), ih]
      split
      · rfl
      · next h => rw [tabGet, if_neg h]
    · rw [if_pos (by simpa using hi), tabGet, tabGet, ih]
      split
      · next h => rw [if_neg (h ▸ hi)]
      · rfl

theorem tag_setTag (x : CoreCtx) (c : Cast) (g t n : Nat) : (x.setTag c g t).tag c n = if n = g then t else x.tag c n := by
  unfold CoreCtx.tag CoreCtx.setTag
  dsimp only
  split
  · next h =>
    rw [tabGet_tabErase]
    by_cases hn : n = g <;> simp [hn, granule_inj, h]
  · rw [tabGet_tabSet]
    by_cases hn : n = g <;> simp [hn, granule_inj]

/-- A list of granules takes a tag, and their full-empty bits fall (R296). -/
def CoreCtx.tagEmpty (c : Cast) (t : Nat) (x : CoreCtx) (g : Nat) : CoreCtx := (x.setTag c g t).setFe c g false

theorem tagEmpty_fold_rest (c : Cast) (t : Nat) (l : List Nat) (x : CoreCtx) :
    l.foldl (CoreCtx.tagEmpty c t) x = { x with fe := (l.foldl (CoreCtx.tagEmpty c t) x).fe, tags := (l.foldl (CoreCtx.tagEmpty c t) x).tags } :=
  List.foldlRecOn (motive := fun y : CoreCtx => y = { x with fe := y.fe, tags := y.tags }) l _ rfl fun y hy g _ => by
    conv_lhs => unfold CoreCtx.tagEmpty CoreCtx.setFe CoreCtx.setTag; rw [hy]
    rfl

theorem tag_tagEmpty_fold (c : Cast) (t : Nat) (l : List Nat) (x : CoreCtx) (n : Nat) :
    (l.foldl (CoreCtx.tagEmpty c t) x).tag c n = if n ∈ l then t else x.tag c n := by
  induction l generalizing x with
  | nil => simp
  | cons g l ih =>
    have hone : (x.tagEmpty c t g).tag c n = if n = g then t else x.tag c n := tag_setTag x c g t n
    rw [List.foldl_cons, ih, hone]
    by_cases h : n = g <;> simp [h]

theorem mem_fe_tagEmpty_fold (c : Cast) (t : Nat) (l : List Nat) (x : CoreCtx) (n : Nat) :
    n ∈ (l.foldl (CoreCtx.tagEmpty c t) x).fe ↔ n ∈ x.fe ∧ ∀ g ∈ l, n ≠ c.granule g := by
  induction l generalizing x with
  | nil => simp
  | cons g l ih =>
    have hone : n ∈ (x.tagEmpty c t g).fe ↔ n ∈ x.fe ∧ n ≠ c.granule g := setFe_fe (x.setTag c g t) c g n false
    rw [List.foldl_cons, ih, hone]
    simp [and_assoc]

end Sys2Proof.Machine
end

section
/-! SUPPORT. Scratchpad queues (Sys2Proof/Machine/Queue.lean: R294 to R299): the control word, an element that moves between the ring and a party, and the effect of
QINIT. -/

namespace Sys2Proof.Machine

/-! The control word (R294). -/

theorem bits_lt (n lo w : Nat) : bits n lo w < 2 ^ w := Nat.mod_lt _ (Nat.two_pow_pos w)

theorem qCounts_lt (q head tail allow : Nat) : (qCounts q head tail allow : Nat) < 256 ^ 16 := by
  have h : ∀ q h t l : Nat, q % 2 ^ 80 + h % 65536 * 2 ^ 80 + t % 65536 * 2 ^ 96 + l % 65536 * 2 ^ 112 < 2 ^ 128 := by omega
  exact h q head tail allow

theorem granuleWord_setQctl (x : CoreCtx) (c : Cast) (a q head tail allow : Nat) :
    GranuleWord (x.setQctl c a (qCounts q head tail allow)) c a = qCounts q head tail allow := by
  rw [CoreCtx.setQctl, granuleWord_spWrite (length_leBytes ..), ofLe_leBytes, Nat.mod_eq_of_lt (qCounts_lt ..)]

theorem fe_setQctl (x : CoreCtx) (c : Cast) (a q : Nat) : (x.setQctl c a q).fe = x.fe := rfl

theorem read_setQctl {x : CoreCtx} {c : Cast} {a q n : Nat} (h : n < c.spPlace a ∨ c.spPlace a + 16 ≤ n) :
    Memory.read (x.setQctl c a q).sp n = Memory.read x.sp n :=
  read_spWrite_keyed_outside (by rwa [length_leBytes])

/-! An element (R297). -/

/-- The first granule of the element at a count. -/
def elementAt (q count : Nat) : Nat := bits q 0 15 + count % bits q 15 11 * 2 ^ bits q 26 3

/-- The element at a count does not meet the control word, whose granule has another tag. -/
theorem ElementTagged.apart {x : CoreCtx} {c : Cast} {q count a : Nat} (h : ElementTagged x c q count) (hal : a % 16 = 0) (htag : x.tag c (a / 16) = 3) :
    c.spPlace (16 * elementAt q count) + 16 * 2 ^ bits q 26 3 ≤ c.spPlace a ∨ c.spPlace a + 16 ≤ c.spPlace (16 * elementAt q count) := by
  have hout : ¬ (elementAt q count ≤ a / 16 ∧ a / 16 < elementAt q count + 2 ^ bits q 26 3) := by
    rintro ⟨hle, hlt⟩
    have h2 := h.2 (a / 16 - elementAt q count) (by omega)
    rw [← elementAt, Nat.add_sub_cancel' hle, htag] at h2
    cases h2
  unfold Cast.spPlace
  omega

/-- The full-empty bits of an element's granules, and the new counts. -/
def CoreCtx.moveElement (x : CoreCtx) (c : Cast) (a q at_ head tail allow : Nat) (full : Bool) : CoreCtx :=
  ((List.range (2 ^ bits q 26 3)).foldl (fun (x : CoreCtx) i => x.setFe c (at_ + i) full) x).setQctl c a (qCounts q head tail allow)

section
variable (x : CoreCtx) (c : Cast) (a q at_ head tail allow : Nat) (full : Bool)

theorem setFe_range_eq (n : Nat) : (List.range n).foldl (fun (x : CoreCtx) i => x.setFe c (at_ + i) full) x =
    ((List.range n).map (at_ + ·)).foldl (fun x g => x.setFe c g full) x := by rw [List.foldl_map]

theorem setFe_range_rest (n : Nat) : (List.range n).foldl (fun (x : CoreCtx) i => x.setFe c (at_ + i) full) x =
    { x with fe := ((List.range n).foldl (fun (x : CoreCtx) i => x.setFe c (at_ + i) full) x).fe } := by
  rw [setFe_range_eq]
  exact foldFe_rest ..

theorem mem_setFe_range (n g : Nat) : g ∈ ((List.range n).foldl (fun (x : CoreCtx) i => x.setFe c (at_ + i) full) x).fe ↔
    if c.granule at_ ≤ g ∧ g < c.granule at_ + n then full = true else g ∈ x.fe := by
  have hin : (∃ h ∈ (List.range n).map (at_ + ·), c.granule h = g) ↔ c.granule at_ ≤ g ∧ g < c.granule at_ + n := by
    simp only [List.mem_map, List.mem_range, exists_exists_and_eq_and, Cast.granule]
    constructor
    · rintro ⟨i, hi, rfl⟩
      omega
    · rintro ⟨hle, hlt⟩
      exact ⟨g - (256 * c.sprow + at_), by omega, by omega⟩
  rw [setFe_range_eq, foldFe, hin]
  cases full <;> by_cases h : c.granule at_ ≤ g ∧ g < c.granule at_ + n <;> simp [h]

theorem moveElement_sp : (x.moveElement c a q at_ head tail allow full).sp = (x.setQctl c a (qCounts q head tail allow)).sp := by
  rw [CoreCtx.moveElement, setFe_range_rest]
  rfl

theorem moveElement_change : ScratchChange x (x.moveElement c a q at_ head tail allow full) := by
  rw [ScratchChange, CoreCtx.moveElement, setFe_range_rest]
  rfl

/-- An element moves where `x1` differs from `x` in the element's bytes alone. -/
theorem elementMoves_of {x x1 : CoreCtx} (hx : ScratchChange x x1) (hfe : x1.fe = x.fe)
    (hread : ∀ n, (n < c.spPlace (16 * at_) ∨ c.spPlace (16 * at_) + 16 * 2 ^ bits q 26 3 ≤ n) → Memory.read x1.sp n = Memory.read x.sp n) :
    ElementMoves x (x1.moveElement c a q at_ head tail allow full) c a q at_ head tail allow full where
  change := by
    rw [ScratchChange, moveElement_change x1 c a q at_ head tail allow full, hx]
  counts := by
    rw [GranuleWord, moveElement_sp]
    exact granuleWord_setQctl ..
  bytes n hout hel := by
    rw [moveElement_sp, read_setQctl hout, hread n hel]
  states g := by
    rw [← hfe, CoreCtx.moveElement, fe_setQctl]
    exact mem_setFe_range ..

end

theorem Memory.readList_moveElement {x : CoreCtx} {c : Cast} {a q at_ head tail allow p n : Nat} {full : Bool} (h : p + n ≤ c.spPlace a ∨ c.spPlace a + 16 ≤ p) :
    Memory.readList (x.moveElement c a q at_ head tail allow full).sp p n = Memory.readList x.sp p n :=
  readList_congr fun k hk hk' => by rw [moveElement_sp, read_setQctl (by omega)]

/-! A push (R298). -/

theorem length_flatMap_leBytes (l : List Word) : (l.flatMap fun x => leBytes 4 x.toNat).length = 4 * l.length := by
  induction l with
  | nil => rfl
  | cons x l ih => rw [List.flatMap_cons, List.length_append, ih, length_leBytes, List.length_cons]; omega

theorem lane_of_elemBytes (l : List Word) (j : Nat) (h : j < l.length) : ((l.flatMap fun x => leBytes 4 x.toNat).drop (4 * j)).take 4 = leBytes 4 (l.getD j 0).toNat := by
  induction l generalizing j with
  | nil => cases h
  | cons x l ih =>
    rw [List.flatMap_cons]
    cases j with
    | zero => rw [Nat.mul_zero, List.drop_zero]; exact List.take_left' (length_leBytes ..)
    | succ j =>
      rw [Nat.mul_succ, Nat.add_comm, ← List.drop_drop, List.drop_left' (length_leBytes ..), ih j (Nat.lt_of_succ_lt_succ h), List.getD_cons_succ]

theorem word_of_leBytes (x : Word) : BitVec.ofNat 32 (ofLe (leBytes 4 x.toNat)) = x := by
  rw [ofLe_leBytes, Nat.mod_eq_of_lt (show x.toNat < 256 ^ 4 from x.isLt), BitVec.ofNat_toNat, BitVec.setWidth_eq]

theorem push_none {x : CoreCtx} {c : Cast} {a : Nat} (elem : List Word) (h : bits (GranuleWord x c a) 112 16 = 0) : x.push c a elem = none := if_pos h

theorem push_some {x : CoreCtx} {c : Cast} {a : Nat} {elem : List Word} (hal : a % 16 = 0) (htag : x.tag c (a / 16) = 3)
    (helem : ElementTagged x c (GranuleWord x c a) (bits (GranuleWord x c a) 96 16)) (hlen : elem.length = 128) (h : bits (GranuleWord x c a) 112 16 ≠ 0) :
    ∃ y, x.push c a elem = some (y, bits (GranuleWord x c a) 96 16) ∧ Pushes x y c a (GranuleWord x c a) fun j => elem.getD j 0 := by
  have hfit : 4 * 2 ^ bits (GranuleWord x c a) 26 3 ≤ elem.length := by
    rw [hlen]
    have := Nat.pow_le_pow_right (Nat.zero_lt_two) helem.1
    omega
  have hapart := helem.apart hal htag
  generalize hq : GranuleWord x c a = q at *
  have hbytes : (elemBytes (4 * 2 ^ bits q 26 3) elem).length = 16 * 2 ^ bits q 26 3 := by
    rw [elemBytes, length_flatMap_leBytes, List.length_take_of_le hfit]
    omega
  let x1 := x.spWrite c (keyed (16 * elementAt q (bits q 96 16)) (elemBytes (4 * 2 ^ bits q 26 3) elem))
  refine ⟨x1.moveElement c a q (elementAt q (bits q 96 16)) (bits q 80 16) (bits q 96 16 + 1) (bits q 112 16 + 65535) true, ?_, ?_, fun j hj => ?_⟩
  · subst hq
    exact if_neg h
  · exact elementMoves_of c a q _ _ _ _ _ (spWrite_rest ..) rfl fun n hn => read_spWrite_keyed_outside (by rwa [hbytes])
  · change BitVec.ofNat 32 (ofLe (Memory.readList _ (c.spPlace (16 * elementAt q (bits q 96 16) + 4 * j)) 4)) = _
    have hplace : c.spPlace (16 * elementAt q (bits q 96 16) + 4 * j) = c.spPlace (16 * elementAt q (bits q 96 16)) + 4 * j := (Nat.add_assoc ..).symm
    rw [hplace, Memory.readList_moveElement (by omega), ← take_drop_readList (n := 16 * 2 ^ bits q 26 3) _ _ (by omega), ← hbytes]
    rw [readList_spWrite_keyed, elemBytes, lane_of_elemBytes _ _ (by rw [List.length_take_of_le hfit]; exact hj), word_of_leBytes]
    simp only [List.getD_eq_getElem?_getD, List.getElem?_take_of_lt hj]

/-! A pop (R299). -/

/-- The lanes that an element's bytes give. -/
def elementWords (x : CoreCtx) (c : Cast) (q : Nat) : List Word :=
  (List.range (4 * 2 ^ bits q 26 3)).map fun j => BitVec.ofNat 32 (ofLe (((x.spRead c (16 * elementAt q (bits q 80 16)) (16 * 2 ^ bits q 26 3)).drop (4 * j)).take 4))

theorem pop_none {x : CoreCtx} {c : Cast} {a : Nat} (h : bits (GranuleWord x c a) 96 16 = bits (GranuleWord x c a) 80 16) : x.pop c a = none := if_pos h

theorem pop_some {x : CoreCtx} {c : Cast} {a : Nat} (h : bits (GranuleWord x c a) 96 16 ≠ bits (GranuleWord x c a) 80 16) :
    ∃ y, x.pop c a = some (y, elementWords x c (GranuleWord x c a)) ∧ Pops x y c a (GranuleWord x c a) := by
  generalize hq : GranuleWord x c a = q at *
  refine ⟨x.moveElement c a q (elementAt q (bits q 80 16)) (bits q 80 16 + 1) (bits q 96 16) (bits q 112 16 + 1) false, ?_, ?_, fun n hn => ?_⟩
  · subst hq
    exact if_neg h
  · exact elementMoves_of c a q _ _ _ _ _ rfl rfl fun _ _ => rfl
  · rw [moveElement_sp, read_setQctl hn]

theorem elementWords_get? (x : CoreCtx) (c : Cast) (q j : Nat) : (elementWords x c q)[j]? = if j < 4 * 2 ^ bits q 26 3 then
    some (BitVec.ofNat 32 (ofLe (Memory.readList x.sp (c.spPlace (16 * elementAt q (bits q 80 16) + 4 * j)) 4))) else none := by
  have hplace : c.spPlace (16 * elementAt q (bits q 80 16) + 4 * j) = c.spPlace (16 * elementAt q (bits q 80 16)) + 4 * j := (Nat.add_assoc ..).symm
  rw [elementWords, List.getElem?_map]
  split
  · next h => rw [List.getElem?_range h, Option.map_some, CoreCtx.spRead, take_drop_readList _ _ (by omega), hplace]
  · next h => rw [List.getElem?_eq_none (by simpa using h), Option.map_none]

theorem takesElement_putElem (x : CoreCtx) (c : Cast) (q d : Nat) (w : Wave) :
    TakesElement x c q d w { w.putElem d (elementWords x c q) with fence := w.acquireCast.fence } := by
  have hrest := setElems_rest ((elementWords x c q).zipIdx.map fun e => (d, e.2, e.1)) w
  refine ⟨?_, fun r j hr hj => ?_⟩
  · rw [Wave.putElem, hrest]
  · have hword : ∀ y, (r, j, y) ∈ (elementWords x c q).zipIdx.map (fun e => (d, e.2, e.1)) ↔ r = d ∧ j < 4 * 2 ^ bits q 26 3
        ∧ y = BitVec.ofNat 32 (ofLe (Memory.readList x.sp (c.spPlace (16 * elementAt q (bits q 80 16) + 4 * j)) 4)) := by
      intro y
      simp only [List.mem_map, Prod.exists, List.mem_zipIdx_iff_getElem?, Prod.mk.injEq]
      constructor
      · rintro ⟨z, k, hz, rfl, rfl, rfl⟩
        rw [elementWords_get?] at hz
        exact ⟨rfl, by simpa [and_comm, eq_comm] using hz⟩
      · rintro ⟨rfl, hlt, rfl⟩
        exact ⟨_, j, by rw [elementWords_get?, if_pos hlt], rfl, rfl, rfl⟩
    change (w.setElems _).v r j = _
    by_cases h : r = d ∧ j < 4 * 2 ^ bits q 26 3
    · rw [if_pos h]
      refine setElems_at _ w r j hr hj _ ((hword _).2 ⟨h.1, h.2, rfl⟩) ?_
      rintro ⟨_, _, y⟩ hy rfl rfl
      exact ((hword y).1 hy).2.2
    · rw [if_neg h]
      refine setElems_not _ w r j hr hj ?_
      rintro ⟨_, _, y⟩ hy ⟨rfl, rfl⟩
      exact h ⟨((hword y).1 hy).1, ((hword y).1 hy).2.1⟩

end Sys2Proof.Machine
end

section
/-! SUPPORT. The words on queues and stage rings, at issue and where they have waited (Sys2Proof/Machine/Queue.lean: R294 to R302). -/

namespace Sys2Proof.Machine

theorem exec_qpush (w : R3) (s : State) : exec (.qpush w) s = execQueue (.qpush w) w.a false (fun v s x a =>
    match x.push v.cast a.toNat (v.allLanes w.b.toNat) with
    | some (x, tail) => .done ((s.onCtx v fun _ => x).writeX v w.d.toNat (BitVec.ofNat 64 tail))
    | none => .block s (.qpush a (v.allLanes w.b.toNat) w.d.toNat)) s := rfl

theorem exec_qtrypush (w : R3) (s : State) : exec (.qtrypush w) s = execQueue (.qtrypush w) w.a false (fun v s x a =>
    match x.push v.cast a.toNat (v.allLanes w.b.toNat) with
    | some (x, _) => .done ((s.onCtx v fun _ => x).writeX v w.d.toNat 0)
    | none => .done (s.writeX v w.d.toNat 1)) s := rfl

theorem exec_qpop (w : R2) (s : State) : exec (.qpop w) s = execQueue (.qpop w) w.a false (fun v s x a =>
    match x.pop v.cast a.toNat with
    | some (x, l) => .done ((s.onCtx v fun _ => x).onWave v fun y => (y.putElem w.d.toNat l).acquireCast)
    | none => .block s (.qpop a w.d.toNat)) s := rfl

theorem exec_qtrypop (w : R3) (s : State) : exec (.qtrypop w) s = execQueue (.qtrypop w) w.a false (fun v s x a =>
    match x.pop v.cast a.toNat with
    | some (x, l) => .done (((s.onCtx v fun _ => x).onWave v fun y => (y.putElem w.d.toNat l).acquireCast).writeX v w.b.toNat 0)
    | none => .done (s.writeX v w.b.toNat 1)) s := rfl

theorem exec_rwait (w : R3) (s : State) : exec (.rwait w) s = execQueue (.rwait w) w.a true (fun v s x a =>
    match ringSlot x v.cast a.toNat (v.sc w.b.toNat) 17 with
    | none => .trap { cause := .queueState, addr := a }
    | some (i, phase, _) =>
      if x.phase v.cast a.toNat i = phase then
        .done ((s.onWave v Wave.acquireCast).writeX v w.d.toNat (x.handle v.cast a.toNat i))
      else .block s (.rwait a i phase w.d.toNat)) s := rfl

theorem exec_radv (w : R3) (s : State) : exec (.radv w) s = execQueue (.radv w) w.a true (fun v s x a =>
    match ringSlot x v.cast a.toNat (v.sc w.b.toNat) 18 with
    | none => .trap { cause := .queueState, addr := a }
    | some (i, phase, keep) =>
      if x.phase v.cast a.toNat i ≠ phase then .trap { cause := .queueState, addr := a }
      else .done (s.onCtx v fun x => x.radv v.cast a.toNat i keep (v.sc w.d.toNat))) s := rfl

theorem exec_queueBlockedCommit (core slot leader : Nat) (s : State) :
    exec (.queueBlockedCommit core slot leader) s = .next { s with pkg := queueCommitAt core slot leader s.pkg } := rfl

theorem exec_ringWaitCommit (core slot leader : Nat) (s : State) :
    exec (.ringWaitCommit core slot leader) s = .next { s with pkg := ringCommitAt core slot leader s.pkg } := rfl

/-! The checks of a queue word (R295). -/

section
variable {v : View} {x : CoreCtx} {a : Quad}

theorem queueTrap_misaligned (h : a.toNat % 16 ≠ 0) (phased : Bool) : queueTrap v x a phased = some { cause := .misalign, addr := a } := if_pos h

variable (hal : a.toNat % 16 = 0)
include hal

theorem queueTrap_late (h : v.cast.spsize.toNat < a.toNat + 16) (phased : Bool) : queueTrap v x a phased = some { cause := .spRange, addr := a } := by
  rw [queueTrap, if_neg (not_not.2 hal), if_pos h]

variable (hin : a.toNat + 16 ≤ v.cast.spsize.toNat)
include hin

theorem queueTrap_state {phased : Bool} (h : x.tag v.cast (a.toNat / 16) ≠ 3 ∨ decide (bits (GranuleWord x v.cast a.toNat) 29 1 = 1) ≠ phased) :
    queueTrap v x a phased = some { cause := .queueState, addr := a } := by
  rw [queueTrap, if_neg (not_not.2 hal), if_neg (Nat.not_lt.2 hin), if_pos]
  rw [Bool.or_eq_true, decide_eq_true_eq, decide_eq_true_eq]
  exact h

theorem queueTrap_passes {phased : Bool} (htag : x.tag v.cast (a.toNat / 16) = 3) (hmode : decide (bits (GranuleWord x v.cast a.toNat) 29 1 = 1) = phased) :
    queueTrap v x a phased = none := by
  rw [queueTrap, if_neg (not_not.2 hal), if_neg (Nat.not_lt.2 hin), if_neg]
  rw [Bool.or_eq_true, decide_eq_true_eq, decide_eq_true_eq]
  exact fun h => h.elim (absurd htag) (absurd hmode)

end

theorem queueWord_of_exec {s : State} {v : View} {i : Instr} {r : BitVec 7} {phased : Bool} {f : View → State → CoreCtx → Quad → Out} {body : CoreCtx → Nat → Prop}
    (he : exec i s = execQueue i r phased f s) (h : Issues s v i)
    (hb : exec i s = s.word i (fun _ _ => f v s (s.pkg.core v.iss.core).ctx (v.sc r.toNat)) → (v.sc r.toNat).toNat % 16 = 0 →
      (s.pkg.core v.iss.core).ctx.tag v.cast ((v.sc r.toNat).toNat / 16) = 3 → v.iss.leader < v.now.slices.length →
      body (s.pkg.core v.iss.core).ctx (GranuleWord (s.pkg.core v.iss.core).ctx v.cast (v.sc r.toNat).toNat)) : QueueWord s v i (v.sc r.toNat) phased body := by
  refine ⟨fun hmis => ?_, fun hal hlate => ?_, fun hal hin hstate => ?_, fun hal hin htag hmode hl => ?_⟩
  · exact traps_word he h (by dsimp only; rw [queueTrap_misaligned hmis])
  · exact traps_word he h (by dsimp only; rw [queueTrap_late hal hlate])
  · exact traps_word he h (by dsimp only; rw [queueTrap_state hal hin hstate])
  · exact hb (he.trans (word_congr h.1 (by dsimp only; rw [queueTrap_passes hal hin htag hmode]) i)) hal htag hl

/-! A word that changes bytes, full-empty bits and poison of the scratchpad. -/

/-- The package with the bytes, the full-empty bits and the poison of a core's scratchpad replaced. -/
def Package.withScratch (p : Package) (core : Nat) (y : CoreCtx) : Package :=
  p.modCtx core fun x => { x with sp := y.sp, fe := y.fe, spPoison := y.spPoison }

theorem modCtx_scratchChange {p : Package} {core : Nat} {y : CoreCtx} (h : ScratchChange (p.core core).ctx y) :
    p.modCtx core (fun _ => y) = p.withScratch core y := modCtx_congr h

theorem wave?_withScratch (p : Package) (core : Nat) (y : CoreCtx) (c k : Nat) : (p.withScratch core y).wave? c k = p.wave? c k :=
  wave?_modCtx (f := fun x => { x with sp := y.sp, fe := y.fe, spPoison := y.spPoison }) (fun _ => rfl) p core c k

theorem performs_scratch {s s1 : State} {v : View} {i : Instr} {F : View → State → Out} {y : CoreCtx} {f : Wave → Wave} (he : exec i s = s.word i F) (h : Issues s v i)
    (hy : ScratchChange (s.pkg.core v.iss.core).ctx y) (hF : F v s = .done s1)
    (hp : s1.pkg = (s.pkg.modCtx v.iss.core fun _ => y).modWave v.iss.core v.iss.slot f) (hc : s1.clk = s.clk) (ha : s1.agenda = s.agenda) (hi : s1.images = s.images) :
    Performs s v i false (s.pkg.withScratch v.iss.core y) (f v.now) :=
  performs_done he h hF ((wave?_withScratch ..).trans (issuer_now h)) (hp.trans (by rw [modCtx_scratchChange hy])) hc ha hi

/-! Pushes and pops (R297 to R299). -/

theorem allLanes_getD (v : View) (r : Nat) {j : Nat} (hj : j < 128) : (v.allLanes r).getD j 0 = v.vec r j := by
  simp [View.allLanes, hj]

theorem Pushes.congr {x y : CoreCtx} {c : Cast} {a q : Nat} {f g : Nat → Word} (h : Pushes x y c a q f) (hfg : ∀ j, j < 4 * 2 ^ bits q 26 3 → f j = g j) :
    Pushes x y c a q g := ⟨h.1, fun j hj => (h.2 j hj).trans (hfg j hj)⟩

/-- What an admitted push of a register makes of the scratchpad. -/
theorem push_lanes {v : View} {x : CoreCtx} {a : Nat} (r : Nat) (hal : a % 16 = 0) (htag : x.tag v.cast (a / 16) = 3)
    (helem : ElementTagged x v.cast (GranuleWord x v.cast a) (bits (GranuleWord x v.cast a) 96 16)) (h : bits (GranuleWord x v.cast a) 112 16 ≠ 0) :
    ∃ y, x.push v.cast a (v.allLanes r) = some (y, bits (GranuleWord x v.cast a) 96 16) ∧ Pushes x y v.cast a (GranuleWord x v.cast a) fun j => v.vec r j := by
  obtain ⟨y, hy, hpush⟩ := push_some hal htag helem (show (v.allLanes r).length = 128 by simp [View.allLanes]) h
  refine ⟨y, hy, hpush.congr fun j hj => allLanes_getD v r ?_⟩
  have := Nat.pow_le_pow_right (Nat.zero_lt_two) helem.1
  omega

/-- A wave that has taken an element makes an acquire at cast scope. -/
theorem putElem_acquire (w : Wave) (d : Nat) (l : List Word) : (w.putElem d l).acquireCast = { w.putElem d l with fence := w.acquireCast.fence } := by
  have hrest : w.putElem d l = { w with vregs := (w.putElem d l).vregs } := setElems_rest ..
  rw [acquire_rest, acquireCast_fence_congr (b := w) (by rw [hrest]) (by rw [hrest])]

theorem takesElement_acquire (x : CoreCtx) (c : Cast) (q d : Nat) (w : Wave) : TakesElement x c q d w (w.putElem d (elementWords x c q)).acquireCast := by
  rw [putElem_acquire]
  exact takesElement_putElem ..

/-! The slot word of a stage ring (R301, R302). -/

theorem bits_one_eq_getLsbD (x : Quad) (k : Nat) : decide (bits x.toNat k 1 = 1) = x.getLsbD k := by
  rw [bits, Nat.pow_one, BitVec.getLsbD, Nat.testBit_eq_decide_div_mod_eq]

theorem ringSlot_wrong {x : CoreCtx} {c : Cast} {a k : Nat} {n : Quad} (h : 2 ^ k ≤ n.toNat ∨ bits (GranuleWord x c a) 15 11 ≤ bits n.toNat 0 16) :
    ringSlot x c a n k = none := by
  refine if_pos ?_
  rw [Bool.or_eq_true, decide_eq_true_eq, decide_eq_true_eq]
  exact h.imp_left fun h => (Nat.div_pos h (Nat.two_pow_pos k)).ne'

theorem ringSlot_ok {x : CoreCtx} {c : Cast} {a k : Nat} {n : Quad} (h : ¬ (2 ^ k ≤ n.toNat ∨ bits (GranuleWord x c a) 15 11 ≤ bits n.toNat 0 16)) :
    ringSlot x c a n k = some (bits n.toNat 0 16, decide (bits n.toNat 16 1 = 1), decide (bits n.toNat 17 1 = 1)) := by
  rw [bits_one_eq_getLsbD, bits_one_eq_getLsbD]
  refine if_neg ?_
  rw [Bool.or_eq_true, decide_eq_true_eq, decide_eq_true_eq]
  exact fun hq => h (hq.imp_left fun h0 => Nat.le_of_not_lt fun hlt => h0 (Nat.div_eq_of_lt hlt))

theorem phase_eq (x : CoreCtx) (c : Cast) (a slot : Nat) : x.phase c a slot = decide (c.granule (bits (GranuleWord x c a) 0 15 + slot) ∈ x.fe) := by
  rw [Bool.eq_iff_iff, decide_eq_true_eq]
  exact mem_contains ..

/-- RADV keeps the slot's bytes or writes the handle, and turns the phase (R302). -/
theorem radv_spec (x : CoreCtx) (c : Cast) (a slot : Nat) (keep : Bool) (h : Quad) :
    let g := bits (GranuleWord x c a) 0 15 + slot
    let y := x.radv c a slot keep h
    ScratchChange x y ∧ (∀ k, k ∈ y.fe ↔ if k = c.granule g then ¬ k ∈ x.fe else k ∈ x.fe) ∧ (keep = true → y.sp = x.sp ∧ y.spPoison = x.spPoison)
      ∧ (keep = false → GranuleWord y c (16 * g) = h.toNat
        ∧ ∀ k, (k < c.spPlace (16 * g) ∨ c.spPlace (16 * g) + 16 ≤ k) → Memory.read y.sp k = Memory.read x.sp k) := by
  intro g y
  have hlen : (leBytes 8 h.toNat ++ leBytes 8 0).length = 16 := by rw [List.length_append, length_leBytes, length_leBytes]
  have hfull : x.full c g = true ↔ c.granule g ∈ x.fe := mem_contains ..
  refine ⟨?_, fun k => ?_, ?_, ?_⟩
  · cases keep <;> rfl
  · have hfe : k ∈ y.fe ↔ if (!x.full c g) = true then k = c.granule g ∨ k ∈ x.fe else k ∈ x.fe ∧ k ≠ c.granule g := by
      cases keep <;> exact setFe_fe ..
    rw [hfe]
    by_cases hk : k = c.granule g
    · subst hk
      rw [← hfull]
      cases x.full c g <;> simp
    · split <;> simp [hk]
  · rintro rfl
    exact ⟨rfl, rfl⟩
  · rintro rfl
    refine ⟨?_, fun k hk => read_spWrite_keyed_outside (by rwa [hlen])⟩
    have hw := granuleWord_spWrite (x := x) (c := c) (a := 16 * g) hlen
    rw [ofLe_append, ofLe_leBytes, ofLe_leBytes, Nat.zero_mod, Nat.mul_zero, Nat.add_zero, Nat.mod_eq_of_lt (show h.toNat < 256 ^ 8 from h.isLt)] at hw
    exact hw

/-! QINIT (R294 to R296). -/

theorem bits_mod_two_pow (n : Nat) {lo w k : Nat} (h : lo + w ≤ k) : bits (n % 2 ^ k) lo w = bits n lo w := by
  refine Nat.eq_of_testBit_eq fun i => ?_
  simp only [bits, Nat.testBit_mod_two_pow, Nat.testBit_div_two_pow]
  by_cases hi : i < w
  · simp [hi, show i + lo < k by omega]
  · simp [hi]

/-- A granule of the region that a control word names (R294). -/
abbrev InRegion (q n : Nat) : Prop := bits q 0 15 ≤ n ∧ n < bits q 0 15 + bits q 15 11 * 2 ^ bits q 26 3

theorem mem_qRegion (q n : Nat) : n ∈ qRegion q ↔ InRegion q n := by
  rw [qRegion, List.mem_map]
  constructor
  · rintro ⟨i, hi, rfl⟩
    exact ⟨Nat.le_add_right _ _, Nat.add_lt_add_left (List.mem_range.1 hi) _⟩
  · exact fun h => ⟨n - bits q 0 15, List.mem_range.2 (Nat.sub_lt_left_of_lt_add h.1 h.2), Nat.add_sub_cancel' h.1⟩

/-- The region that the low bits of a configuration word name is the one that the word names. -/
theorem inRegion_mod (q n : Nat) : InRegion (q % 2 ^ 46) n ↔ InRegion q n := by
  rw [InRegion, bits_mod_two_pow _ (by decide), bits_mod_two_pow _ (by decide), bits_mod_two_pow _ (by decide)]

/-- The granules of the queue that a QINIT replaces (R296). -/
def CoreCtx.oldRegion (x : CoreCtx) (c : Cast) (a : Nat) : List Nat := if x.tag c (a / 16) = 3 then qRegion (x.qctl c a) else []

theorem mem_oldRegion (x : CoreCtx) (c : Cast) (a n : Nat) : n ∈ x.oldRegion c a ↔ x.tag c (a / 16) = 3 ∧ InRegion (GranuleWord x c a) n := by
  rw [CoreCtx.oldRegion]
  split
  next h => rw [mem_qRegion]; exact (and_iff_right h).symm
  next h => simp [h]

/-- The configuration word of QINIT is ill formed (R296). -/
def QueueConfigWrong (cfg : Nat) : Prop := 2 ^ 46 ≤ cfg ∨ bits cfg 15 11 = 0 ∨ 1024 < bits cfg 15 11 ∨ 6 ≤ bits cfg 26 3
  ∨ (bits cfg 29 1 = 1 ∧ (bits cfg 26 3 ≠ 0 ∨ bits cfg 30 16 ≠ 0)) ∨ (bits cfg 29 1 = 0 ∧ (bits cfg 30 16 = 0 ∨ bits cfg 15 11 < bits cfg 30 16))

/-- The granules of a new queue, or its control word, are in use (R296). -/
def QueueBusy (v : View) (x : CoreCtx) (a : Quad) (cfg : Nat) : Prop :=
  InRegion cfg (a.toNat / 16) ∨ (∃ n, InRegion cfg n ∧ x.tag v.cast n ≠ 0 ∧ ¬ (x.tag v.cast (a.toNat / 16) = 3 ∧ InRegion (GranuleWord x v.cast a.toNat) n))
    ∨ (x.tag v.cast (a.toNat / 16) = 3 ∧ x.queueWaited v.src.cast a = true) ∨ x.tag v.cast (a.toNat / 16) = 2

section
variable {v : View} {x : CoreCtx} {a cfg : Quad}

theorem queueConfigWrong_iff : (decide (cfg.toNat / 2 ^ 46 ≠ 0) || decide (qDepth (cfg.toNat % 2 ^ 46) = 0) || decide (1024 < qDepth (cfg.toNat % 2 ^ 46))
      || decide (6 ≤ bits (cfg.toNat % 2 ^ 46) 26 3) || (if qPhased (cfg.toNat % 2 ^ 46) then decide (bits (cfg.toNat % 2 ^ 46) 26 3 ≠ 0) || decide (qAllow0 (cfg.toNat % 2 ^ 46) ≠ 0)
        else decide (qAllow0 (cfg.toNat % 2 ^ 46) = 0) || decide (qDepth (cfg.toNat % 2 ^ 46) < qAllow0 (cfg.toNat % 2 ^ 46)))) = true ↔ QueueConfigWrong cfg.toNat := by
  have hphase : bits cfg.toNat 29 1 < 2 := bits_lt _ _ _
  rw [qPhased, qDepth, qAllow0, bits_mod_two_pow _ (by decide), bits_mod_two_pow _ (by decide), bits_mod_two_pow _ (by decide), bits_mod_two_pow _ (by decide)]
  by_cases hp : bits cfg.toNat 29 1 = 1
  · simp [QueueConfigWrong, hp, or_assoc]
  · simp [QueueConfigWrong, show bits cfg.toNat 29 1 = 0 by omega, or_assoc]

theorem queueBusy_iff : ((decide (qBase (cfg.toNat % 2 ^ 46) ≤ a.toNat / 16)
        && decide (a.toNat / 16 < qBase (cfg.toNat % 2 ^ 46) + qDepth (cfg.toNat % 2 ^ 46) * qElem (cfg.toNat % 2 ^ 46)))
      || (qRegion (cfg.toNat % 2 ^ 46)).any (fun r => decide (x.tag v.cast r ≠ 0) && !(x.oldRegion v.cast a.toNat).contains r)
      || (decide (x.tag v.cast (a.toNat / 16) = 3) && x.queueWaited v.src.cast a) || decide (x.tag v.cast (a.toNat / 16) = 2)) = true ↔ QueueBusy v x a cfg.toNat := by
  have hin : (decide (qBase (cfg.toNat % 2 ^ 46) ≤ a.toNat / 16)
        && decide (a.toNat / 16 < qBase (cfg.toNat % 2 ^ 46) + qDepth (cfg.toNat % 2 ^ 46) * qElem (cfg.toNat % 2 ^ 46))) = true ↔ InRegion cfg.toNat (a.toNat / 16) := by
    rw [Bool.and_eq_true, decide_eq_true_eq, decide_eq_true_eq]
    exact inRegion_mod ..
  rw [Bool.or_eq_true, Bool.or_eq_true, Bool.or_eq_true, hin, QueueBusy]
  simp only [List.any_eq_true, mem_qRegion, inRegion_mod, Bool.and_eq_true, decide_eq_true_eq, Bool.not_eq_true', ← Bool.not_eq_true, List.contains_iff_mem, mem_oldRegion, or_assoc]

theorem qinitTrap_misaligned (h : a.toNat % 16 ≠ 0) : qinitTrap v x a cfg = some { cause := .misalign, addr := a } := if_pos h

variable (hal : a.toNat % 16 = 0)
include hal

theorem qinitTrap_late (h : v.cast.spsize.toNat < a.toNat + 16) : qinitTrap v x a cfg = some { cause := .spRange, addr := a } := by
  rw [qinitTrap, if_neg (not_not.2 hal), if_pos h]

variable (hin : ¬ v.cast.spsize.toNat < a.toNat + 16)
include hin

theorem qinitTrap_barrier (h : x.tag v.cast (a.toNat / 16) = 1) : qinitTrap v x a cfg = some { cause := .barrierState, addr := a } := by
  rw [qinitTrap, if_neg (not_not.2 hal), if_neg hin, if_pos h]

variable (htag : x.tag v.cast (a.toNat / 16) ≠ 1)
include htag

theorem qinitTrap_operand (h : QueueConfigWrong cfg.toNat) : qinitTrap v x a cfg = some v.operandTrap := by
  rw [qinitTrap, if_neg (not_not.2 hal), if_neg hin, if_neg htag]
  exact if_pos (queueConfigWrong_iff.2 h)

variable (hok : ¬ QueueConfigWrong cfg.toNat)
include hok

/-- Past the checks of its operands, QINIT checks the region against SPSIZE and against what is in use. -/
theorem qinitTrap_region : qinitTrap v x a cfg =
    if v.cast.spsize.toNat < 16 * (bits cfg.toNat 0 15 + bits cfg.toNat 15 11 * 2 ^ bits cfg.toNat 26 3) then
      some { cause := .spRange, addr := BitVec.ofNat 64 (16 * (bits cfg.toNat 0 15 + bits cfg.toNat 15 11 * 2 ^ bits cfg.toNat 26 3)) }
    else open Classical in if QueueBusy v x a cfg.toNat then some { cause := .queueState, addr := a } else none := by
  have hstop : qBase (cfg.toNat % 2 ^ 46) + qDepth (cfg.toNat % 2 ^ 46) * qElem (cfg.toNat % 2 ^ 46)
      = bits cfg.toNat 0 15 + bits cfg.toNat 15 11 * 2 ^ bits cfg.toNat 26 3 := by
    rw [qBase, qDepth, qElem, bits_mod_two_pow _ (by decide), bits_mod_two_pow _ (by decide), bits_mod_two_pow _ (by decide)]
  rw [qinitTrap, if_neg (not_not.2 hal), if_neg hin, if_neg htag, hstop]
  refine (if_neg fun h => hok (queueConfigWrong_iff.1 h)).trans ?_
  congr 1
  by_cases hb : QueueBusy v x a cfg.toNat
  · rw [if_pos hb]
    refine if_pos ?_
    rw [← hstop]
    exact queueBusy_iff.2 hb
  · rw [if_neg hb]
    refine if_neg fun h => hb ?_
    rw [← hstop] at h
    exact queueBusy_iff.1 h

end

section
variable (x : CoreCtx) (c : Cast) (a cfg : Nat)

/-- QINIT: the tags and full-empty bits of the two regions, and then the control word's granule (R296). -/
theorem qinit_eq : x.qinit c a cfg = ((((qRegion (cfg % 2 ^ 46)).foldl (CoreCtx.tagEmpty c 2) ((x.oldRegion c a).foldl (CoreCtx.tagEmpty c 0) x)).setQctl c a
    (qCounts (cfg % 2 ^ 46) 0 0 (qAllow0 (cfg % 2 ^ 46)))).setTag c (a / 16) 3).setFe c (a / 16) true := rfl

theorem qinit_rest : x.qinit c a cfg =
    { x with sp := (x.qinit c a cfg).sp, fe := (x.qinit c a cfg).fe, spPoison := (x.qinit c a cfg).spPoison, tags := (x.qinit c a cfg).tags } := by
  have hq : ∀ (y : CoreCtx) (w : QCtl), ((y.setQctl c a w).setTag c (a / 16) 3).setFe c (a / 16) true =
      { y with sp := (((y.setQctl c a w).setTag c (a / 16) 3).setFe c (a / 16) true).sp, fe := (((y.setQctl c a w).setTag c (a / 16) 3).setFe c (a / 16) true).fe, spPoison := (((y.setQctl c a w).setTag c (a / 16) 3).setFe c (a / 16) true).spPoison, tags := (((y.setQctl c a w).setTag c (a / 16) 3).setFe c (a / 16) true).tags } :=
    fun _ _ => rfl
  rw [qinit_eq, hq, tagEmpty_fold_rest c 2, tagEmpty_fold_rest c 0]

theorem qinit_tag (n : Nat) : (x.qinit c a cfg).tag c n =
    if n = a / 16 then 3 else if InRegion cfg n then 2 else if x.tag c (a / 16) = 3 ∧ InRegion (GranuleWord x c a) n then 0 else x.tag c n := by
  have hq : ∀ (y : CoreCtx) (w : QCtl), (((y.setQctl c a w).setTag c (a / 16) 3).setFe c (a / 16) true).tag c n = if n = a / 16 then 3 else y.tag c n := by
    intro y w
    exact tag_setTag (y.setQctl c a w) c (a / 16) 3 n
  rw [qinit_eq, hq, tag_tagEmpty_fold, tag_tagEmpty_fold]
  exact if_congr Iff.rfl rfl (if_congr ((mem_qRegion ..).trans (inRegion_mod ..)) rfl (if_congr (mem_oldRegion ..) rfl rfl))

theorem qinit_fe (n : Nat) : c.granule n ∈ (x.qinit c a cfg).fe ↔
    if n = a / 16 then True else if InRegion cfg n ∨ (x.tag c (a / 16) = 3 ∧ InRegion (GranuleWord x c a) n) then False else c.granule n ∈ x.fe := by
  have hq : ∀ (y : CoreCtx) (w : QCtl), c.granule n ∈ (((y.setQctl c a w).setTag c (a / 16) 3).setFe c (a / 16) true).fe ↔ c.granule n = c.granule (a / 16) ∨ c.granule n ∈ y.fe := by
    intro y w
    exact setFe_fe ((y.setQctl c a w).setTag c (a / 16) 3) c (a / 16) (c.granule n) true
  have hout : ∀ l : List Nat, (∀ g ∈ l, c.granule n ≠ c.granule g) ↔ n ∉ l := fun l =>
    ⟨fun h hn => h n hn rfl, fun h g hg hgn => h (granule_inj.1 hgn ▸ hg)⟩
  rw [qinit_eq, hq, mem_fe_tagEmpty_fold, mem_fe_tagEmpty_fold, hout, hout, granule_inj, (mem_qRegion ..).trans (inRegion_mod ..), mem_oldRegion]
  split
  next h => simp [h]
  next h =>
    split
    next hr => exact iff_false_intro fun h' => h'.elim h fun ⟨⟨_, ho⟩, hf⟩ => hr.elim hf ho
    next hr =>
      rw [not_or] at hr
      exact ⟨fun h' => h'.elim (absurd · h) fun h' => h'.1.1, fun h' => .inr ⟨⟨h', hr.2⟩, hr.1⟩⟩

theorem qinit_read {n : Nat} (h : n < c.spPlace a ∨ c.spPlace a + 16 ≤ n) : Memory.read (x.qinit c a cfg).sp n = Memory.read x.sp n := by
  have hq : ∀ (y : CoreCtx) (w : QCtl), Memory.read (((y.setQctl c a w).setTag c (a / 16) 3).setFe c (a / 16) true).sp n = Memory.read y.sp n := by
    intro y w
    exact read_setQctl h
  rw [qinit_eq, hq, tagEmpty_fold_rest c 2, tagEmpty_fold_rest c 0]

theorem granuleWord_setQctl_marked (y : CoreCtx) (head tail allow q : Nat) :
    GranuleWord (((y.setQctl c a (qCounts q head tail allow)).setTag c (a / 16) 3).setFe c (a / 16) true) c a = qCounts q head tail allow := by
  have hsp : (((y.setQctl c a (qCounts q head tail allow)).setTag c (a / 16) 3).setFe c (a / 16) true).sp = (y.setQctl c a (qCounts q head tail allow)).sp := rfl
  rw [GranuleWord, hsp]
  exact granuleWord_setQctl y c a q head tail allow

/-- The control word that QINIT writes: the configuration, HEAD = TAIL = 0, ALLOW = ALLOW0 (R296). -/
theorem qinit_control (h : cfg < 2 ^ 46) : GranuleWord (x.qinit c a cfg) c a = cfg + bits cfg 30 16 * 2 ^ 112 := by
  rw [qinit_eq, granuleWord_setQctl_marked, Nat.mod_eq_of_lt h, qCounts, Nat.mod_eq_of_lt (h.trans (by decide)), qAllow0, Nat.mod_eq_of_lt (show bits cfg 30 16 < 65536 from bits_lt _ _ _), Nat.zero_mod, Nat.zero_mul, Nat.zero_mul,
    Nat.add_zero]

end

theorem exec_qinit (w : RAB) (s : State) : exec (.qinit w) s = s.word (.qinit w) fun v s =>
    match qinitTrap v (s.pkg.core v.iss.core).ctx (v.sc w.a.toNat) (v.sc w.b.toNat) with
    | some t => .trap t
    | none => .done (s.onCtx v fun x => x.qinit v.cast (v.sc w.a.toNat).toNat (v.sc w.b.toNat).toNat) := rfl

end Sys2Proof.Machine
end

section
/-! SUPPORT. The words on queues and rings put together (R294 to R302), and the events that commit those that wait. -/

namespace Sys2Proof.Machine

/-- QINIT past its checks. -/
theorem qinit_word {s : State} {v : View} {w : RAB} (h : Issues s v (.qinit w))
    (hF : qinitTrap v (s.pkg.core v.iss.core).ctx (v.sc w.a.toNat) (v.sc w.b.toNat) = none) :
    let y := (s.pkg.core v.iss.core).ctx.qinit v.cast (v.sc w.a.toNat).toNat (v.sc w.b.toNat).toNat
    Performs s v (.qinit w) false (s.pkg.modCtx v.iss.core fun x => { x with sp := y.sp, fe := y.fe, spPoison := y.spPoison, tags := y.tags }) v.now := by
  intro y
  have hp : s.pkg.modCtx v.iss.core (fun x => x.qinit v.cast (v.sc w.a.toNat).toNat (v.sc w.b.toNat).toNat) =
      s.pkg.modCtx v.iss.core fun x => { x with sp := y.sp, fe := y.fe, spPoison := y.spPoison, tags := y.tags } := modCtx_congr (qinit_rest ..)
  refine performs_package (exec_qinit w s) h ?_ ((wave?_modCtx (f := fun x => { x with sp := y.sp, fe := y.fe, spPoison := y.spPoison, tags := y.tags })
    (fun _ => rfl) ..).trans (issuer_now h))
  rw [hF, ← hp]
  rfl

theorem qpush_queueWord {s : State} {v : View} {w : R3} (h : Issues s v (.qpush w)) : QueueWord s v (.qpush w) (v.sc w.a.toNat) false fun x q =>
    (bits q 112 16 ≠ 0 → ElementTagged x v.cast q (bits q 96 16) → ∃ y, Performs s v (.qpush w) false (s.pkg.withScratch v.iss.core y)
        (v.now.setS w.d.toNat (BitVec.ofNat 64 (bits q 96 16))) ∧ Pushes x y v.cast (v.sc w.a.toNat).toNat q fun j => v.vec w.b.toNat j)
    ∧ (bits q 112 16 = 0 → ∃ elem, Waits s v (.qpush w) s.pkg v.now (.qpush (v.sc w.a.toNat) elem w.d.toNat)
        ∧ ∀ j, j < 128 → elem.getD j 0 = v.vec w.b.toNat j) := by
  refine queueWord_of_exec (exec_qpush w s) h fun he hal htag hl => ⟨fun hallow helem => ?_, fun hallow => ?_⟩
  · obtain ⟨y, hy, hpush⟩ := push_lanes w.b.toNat hal htag helem hallow
    exact ⟨y, performs_scratch (f := fun u => u.setS w.d.toNat _) he h hpush.1.change (by rw [hy]) (by rfl) (by rfl) (by rfl) (by rfl), hpush⟩
  · exact ⟨v.allLanes w.b.toNat, waits_package he h (by rw [push_none _ hallow]) (issuer_now h) hl, fun j hj => allLanes_getD v _ hj⟩

theorem qtrypush_queueWord {s : State} {v : View} {w : R3} (h : Issues s v (.qtrypush w)) : QueueWord s v (.qtrypush w) (v.sc w.a.toNat) false fun x q =>
    (bits q 112 16 ≠ 0 → ElementTagged x v.cast q (bits q 96 16) → ∃ y, Performs s v (.qtrypush w) false (s.pkg.withScratch v.iss.core y)
        (v.now.setS w.d.toNat 0) ∧ Pushes x y v.cast (v.sc w.a.toNat).toNat q fun j => v.vec w.b.toNat j)
    ∧ (bits q 112 16 = 0 → Performs s v (.qtrypush w) false s.pkg (v.now.setS w.d.toNat 1)) := by
  refine queueWord_of_exec (exec_qtrypush w s) h fun he hal htag _ => ⟨fun hallow helem => ?_, fun hallow => ?_⟩
  · obtain ⟨y, hy, hpush⟩ := push_lanes w.b.toNat hal htag helem hallow
    exact ⟨y, performs_scratch (f := fun u => u.setS w.d.toNat 0) he h hpush.1.change (by rw [hy]) (by rfl) (by rfl) (by rfl) (by rfl), hpush⟩
  · exact performs_done (f := fun u => u.setS w.d.toNat 1) he h (by rw [push_none _ hallow]) (issuer_now h) (by rfl) (by rfl) (by rfl) (by rfl)

theorem qpop_queueWord {s : State} {v : View} {w : R2} (h : Issues s v (.qpop w)) : QueueWord s v (.qpop w) (v.sc w.a.toNat) false fun x q =>
    (bits q 96 16 ≠ bits q 80 16 → ElementTagged x v.cast q (bits q 80 16) → ∃ y u, Performs s v (.qpop w) false (s.pkg.withScratch v.iss.core y) u
        ∧ Pops x y v.cast (v.sc w.a.toNat).toNat q ∧ TakesElement x v.cast q w.d.toNat v.now u)
    ∧ (bits q 96 16 = bits q 80 16 → Waits s v (.qpop w) s.pkg v.now (.qpop (v.sc w.a.toNat) w.d.toNat)) := by
  refine queueWord_of_exec (exec_qpop w s) h fun he hal htag hl => ⟨fun hheld helem => ?_, fun hempty => ?_⟩
  · obtain ⟨y, hy, hpop⟩ := pop_some hheld
    have htakes := takesElement_acquire (s.pkg.core v.iss.core).ctx v.cast (GranuleWord (s.pkg.core v.iss.core).ctx v.cast (v.sc w.a.toNat).toNat) w.d.toNat v.now
    generalize elementWords _ _ _ = l at hy htakes
    refine ⟨y, _, ?_, hpop, htakes⟩
    exact performs_scratch (f := fun u => (u.putElem w.d.toNat l).acquireCast) he h hpop.1.change (by rw [hy]) (by rfl) (by rfl) (by rfl) (by rfl)
  · exact waits_package he h (by rw [pop_none hempty]) (issuer_now h) hl

theorem qtrypop_queueWord {s : State} {v : View} {w : R3} (h : Issues s v (.qtrypop w)) : QueueWord s v (.qtrypop w) (v.sc w.a.toNat) false fun x q =>
    (bits q 96 16 ≠ bits q 80 16 → ElementTagged x v.cast q (bits q 80 16) →
      ∃ y u, Performs s v (.qtrypop w) false (s.pkg.withScratch v.iss.core y) (u.setS w.b.toNat 0)
        ∧ Pops x y v.cast (v.sc w.a.toNat).toNat q ∧ TakesElement x v.cast q w.d.toNat v.now u)
    ∧ (bits q 96 16 = bits q 80 16 → Performs s v (.qtrypop w) false s.pkg (v.now.setS w.b.toNat 1)) := by
  refine queueWord_of_exec (exec_qtrypop w s) h fun he hal htag _ => ⟨fun hheld helem => ?_, fun hempty => ?_⟩
  · obtain ⟨y, hy, hpop⟩ := pop_some hheld
    have htakes := takesElement_acquire (s.pkg.core v.iss.core).ctx v.cast (GranuleWord (s.pkg.core v.iss.core).ctx v.cast (v.sc w.a.toNat).toNat) w.d.toNat v.now
    generalize elementWords _ _ _ = l at hy htakes
    refine ⟨y, _, ?_, hpop, htakes⟩
    exact performs_scratch (f := fun u => ((u.putElem w.d.toNat l).acquireCast).setS w.b.toNat 0) he h hpop.1.change (by rw [hy])
      (modWave_modWave ..) (by rfl) (by rfl) (by rfl)
  · exact performs_done (f := fun u => u.setS w.b.toNat 1) he h (by rw [pop_none hempty]) (issuer_now h) (by rfl) (by rfl) (by rfl) (by rfl)

theorem rwait_queueWord {s : State} {v : View} {w : R3} (h : Issues s v (.rwait w)) : QueueWord s v (.rwait w) (v.sc w.a.toNat) true fun x q =>
    let n := (v.sc w.b.toNat).toNat
    let g := bits q 0 15 + bits n 0 16
    let turned := decide (v.cast.granule g ∈ x.fe) = decide (bits n 16 1 = 1)
    let wrong : Prop := 2 ^ 17 ≤ n ∨ bits q 15 11 ≤ bits n 0 16
    (wrong → Traps s v (.rwait w) { cause := .queueState, addr := v.sc w.a.toNat })
    ∧ (¬ wrong → turned → Performs s v (.rwait w) false s.pkg
        ({ v.now with fence := v.now.acquireCast.fence }.setS w.d.toNat (BitVec.ofNat 64 (ofLe (Memory.readList x.sp (v.cast.spPlace (16 * g)) 8)))))
    ∧ (¬ wrong → ¬ turned → Waits s v (.rwait w) s.pkg v.now (.rwait (v.sc w.a.toNat) (bits n 0 16) (decide (bits n 16 1 = 1)) w.d.toNat)) := by
  refine queueWord_of_exec (exec_rwait w s) h fun he hal htag hl => ⟨fun hwrong => ?_, fun hok hturned => ?_, fun hok hturned => ?_⟩
  · exact traps_word he h (by rw [ringSlot_wrong hwrong])
  · rw [← acquire_rest]
    refine performs_done (f := fun u => u.acquireCast.setS w.d.toNat ((s.pkg.core v.iss.core).ctx.handle v.cast (v.sc w.a.toNat).toNat (bits (v.sc w.b.toNat).toNat 0 16))) he h (by rw [ringSlot_ok hok]; dsimp only; rw [phase_eq, if_pos hturned])
      (issuer_now h) (modWave_modWave ..) (by rfl) (by rfl) (by rfl)
  · exact waits_package he h (by rw [ringSlot_ok hok]; dsimp only; rw [phase_eq, if_neg hturned]) (issuer_now h) hl

theorem radv_queueWord {s : State} {v : View} {w : R3} (h : Issues s v (.radv w)) : QueueWord s v (.radv w) (v.sc w.a.toNat) true fun x q =>
    let n := (v.sc w.b.toNat).toNat
    let g := bits q 0 15 + bits n 0 16
    let turned := decide (v.cast.granule g ∈ x.fe) = decide (bits n 16 1 = 1)
    let wrong : Prop := 2 ^ 18 ≤ n ∨ bits q 15 11 ≤ bits n 0 16 ∨ ¬ turned
    (wrong → Traps s v (.radv w) { cause := .queueState, addr := v.sc w.a.toNat })
    ∧ (¬ wrong → ∃ y : CoreCtx, Performs s v (.radv w) false (s.pkg.withScratch v.iss.core y) v.now
        ∧ (∀ k, k ∈ y.fe ↔ if k = v.cast.granule g then ¬ k ∈ x.fe else k ∈ x.fe)
        ∧ (bits n 17 1 = 1 → y.sp = x.sp ∧ y.spPoison = x.spPoison)
        ∧ (bits n 17 1 = 0 → GranuleWord y v.cast (16 * g) = (v.sc w.d.toNat).toNat
            ∧ ∀ k, (k < v.cast.spPlace (16 * g) ∨ v.cast.spPlace (16 * g) + 16 ≤ k) → Memory.read y.sp k = Memory.read x.sp k)) := by
  refine queueWord_of_exec (exec_radv w s) h fun he hal htag hl => ⟨fun hwrong => ?_, fun hok => ?_⟩
  · refine traps_word he h ?_
    by_cases hslot : 2 ^ 18 ≤ (v.sc w.b.toNat).toNat ∨ bits (GranuleWord (s.pkg.core v.iss.core).ctx v.cast (v.sc w.a.toNat).toNat) 15 11 ≤ bits (v.sc w.b.toNat).toNat 0 16
    · rw [ringSlot_wrong hslot]
    · rw [ringSlot_ok hslot]
      dsimp only
      rw [phase_eq]
      refine if_pos fun hturned => ?_
      rw [← or_assoc] at hwrong
      exact hwrong.elim hslot fun hn => hn hturned
  · rw [← or_assoc, not_or, not_not] at hok
    obtain ⟨hslot, hturned⟩ := hok
    obtain ⟨hrest, hfe, hkeep, hwrite⟩ := radv_spec (s.pkg.core v.iss.core).ctx v.cast (v.sc w.a.toNat).toNat (bits (v.sc w.b.toNat).toNat 0 16)
      (decide (bits (v.sc w.b.toNat).toNat 17 1 = 1)) (v.sc w.d.toNat)
    refine ⟨_, ?_, hfe, fun hk => hkeep (decide_eq_true hk), fun hk => hwrite (decide_eq_false (by omega))⟩
    refine performs_scratch (f := fun u => u) he h hrest (by rw [ringSlot_ok hslot]; dsimp only; rw [phase_eq, if_neg (not_not.2 hturned)]) ?_
      (by rfl) (by rfl) (by rfl)
    rw [modWave_id]
    exact modCtx_congr (f := fun x => x.radv v.cast _ _ _ _) rfl

/-! A word that has waited (R297, R301). -/

/-- A released wave that makes an acquire at cast scope as its wait ends. -/
theorem endWait_acquire {w : Wave} {l : Nat} {b : Blocked} (h : w.blockedAt l = some b) :
    GoesOn { w with fence := w.acquireCast.fence } (w.endWait l).acquireCast l b := by
  obtain ⟨hfence, hpending⟩ := endWait_fence w l
  obtain ⟨hrest, hlen, hslices⟩ := goesOn_endWait w l b h
  have hacquire : (w.endWait l).acquireCast = { w.endWait l with fence := w.acquireCast.fence } := by
    rw [acquire_rest, acquireCast_fence_congr hfence hpending]
  rw [hacquire]
  exact ⟨by conv_lhs => rw [hrest], hlen, hslices⟩

theorem putElem_blockedAt (w : Wave) (d l : Nat) (e : List Word) : (w.putElem d e).blockedAt l = w.blockedAt l := by
  have hrest : w.putElem d e = { w with vregs := (w.putElem d e).vregs } := setElems_rest ..
  rw [hrest]
  rfl

section
variable {p : Package} {core slot leader : Nat} {w : Wave} {c : Cast} {b : Blocked}
  (hw : p.wave? core slot = some w) (hc : p.cast? core w.cast = some c) (hb : w.blockedAt leader = some b)
include hw hc hb

theorem queueCommitAt_qpush {a : Quad} {elem : List Word} {d : Nat} (hop : b.op = .qpush a elem d) : queueCommitAt core slot leader p =
    match (p.core core).ctx.push c a.toNat elem with
    | some (x, tail) => (p.modCtx core fun _ => x).modWave core slot fun w => (w.setS d (BitVec.ofNat 64 tail)).endWait leader
    | none => p := by
  obtain ⟨op, word, slices, resume, count, late⟩ := b
  obtain rfl : op = .qpush a elem d := hop
  simp only [queueCommitAt, hw, hc, hb] <;> rfl

theorem queueCommitAt_qpop {a : Quad} {d : Nat} (hop : b.op = .qpop a d) : queueCommitAt core slot leader p =
    match (p.core core).ctx.pop c a.toNat with
    | some (x, l) => (p.modCtx core fun _ => x).modWave core slot fun w => ((w.putElem d l).endWait leader).acquireCast
    | none => p := by
  obtain ⟨op, word, slices, resume, count, late⟩ := b
  obtain rfl : op = .qpop a d := hop
  simp only [queueCommitAt, hw, hc, hb] <;> rfl

theorem ringCommitAt_rwait {a : Quad} {i d : Nat} {phase : Bool} (hop : b.op = .rwait a i phase d) : ringCommitAt core slot leader p =
    if (p.core core).ctx.phase c a.toNat i = phase then
      p.modWave core slot fun w => ((w.setS d ((p.core core).ctx.handle c a.toNat i)).endWait leader).acquireCast
    else p := by
  obtain ⟨op, word, slices, resume, count, late⟩ := b
  obtain rfl : op = .rwait a i phase d := hop
  simp only [ringCommitAt, hw, hc, hb]

end

end Sys2Proof.Machine

open Sys2Proof Sys2Proof.Machine in
/-- Settles O29: each word is its checks (`queueTrap`, `qinitTrap`) and then the move of an element, the slot's turn, or the new queue. -/
theorem queueAndRingWords : Obligations.QueueAndRingWords := by
  refine ⟨fun s v w h => ?_, fun _ _ _ => qpush_queueWord, fun _ _ _ => qtrypush_queueWord, fun _ _ _ => qpop_queueWord, fun _ _ _ => qtrypop_queueWord,
    fun _ _ _ => rwait_queueWord, fun _ _ _ => radv_queueWord⟩
  intro x c a cfg g stop fresh o old late wrong busy ok
  have hregion (hok : ok) (htag : x.tag c g ≠ 1) (hwrong : ¬ wrong) := qinitTrap_region (v := v) (x := x) (a := a) (cfg := v.sc w.b.toNat) hok.1 hok.2 htag hwrong
  refine ⟨fun hmis => ?_, fun hal hlate => ?_, fun hok htag => ?_, fun hok htag hwrong => ?_, fun hok htag hwrong hpast => ?_,
    fun hok htag hwrong hpast hbusy => ?_, fun hok htag hwrong hpast hbusy => ?_⟩
  · exact traps_word (exec_qinit w s) h (by rw [qinitTrap_misaligned hmis])
  · exact traps_word (exec_qinit w s) h (by rw [qinitTrap_late hal hlate])
  · exact traps_word (exec_qinit w s) h (by rw [qinitTrap_barrier hok.1 hok.2 htag])
  · exact traps_word (exec_qinit w s) h (by rw [qinitTrap_operand hok.1 hok.2 htag hwrong])
  · exact traps_word (exec_qinit w s) h (by rw [hregion hok htag hwrong, if_pos hpast])
  · exact traps_word (exec_qinit w s) h (by rw [hregion hok htag hwrong, if_neg (Nat.not_lt.2 hpast), if_pos (show QueueBusy v x a (v.sc w.b.toNat).toNat from hbusy)])
  · refine ⟨_, qinit_word h ((hregion hok htag hwrong).trans (by rw [if_neg (Nat.not_lt.2 hpast), if_neg (show ¬ QueueBusy v x a (v.sc w.b.toNat).toNat from hbusy)])), qinit_control _ _ _ _ ?_,
      fun n hn => qinit_read _ _ _ _ hn, fun n => ?_, fun n => ?_⟩
    · exact Nat.lt_of_not_le fun hle => hwrong (.inl hle)
    · exact (qinit_tag ..).trans (if_congr Iff.rfl rfl (if_congr Iff.rfl rfl (if_congr Iff.rfl rfl rfl)))
    · exact (qinit_fe ..).trans (if_congr Iff.rfl rfl (if_congr Iff.rfl rfl rfl)).to_iff

open Sys2Proof Sys2Proof.Machine in
/-- Settles O30: a commit is the word's own effect, with its wait ended; before, the queue or slot gives no answer and the event changes nothing. -/
theorem blockedQueueWords : Obligations.BlockedQueueWords := by
  intro s core slot leader w c b hw hc hb
  have hin (y : CoreCtx) : ScratchChange (s.pkg.core core).ctx y → (s.pkg.modCtx core fun _ => y).wave? core slot = some w := fun hy => by
    rw [modCtx_scratchChange hy, wave?_withScratch, hw]
  refine ⟨fun a elem d hop => ⟨fun hallow => ?_, fun hallow hal htag helem hlen => ?_⟩, fun a d hop => ⟨fun hempty => ?_, fun hheld hal htag helem => ?_⟩,
    fun a i phase d hop => ⟨fun hphase => ?_, fun hphase => ?_⟩⟩
  · rw [exec_queueBlockedCommit, queueCommitAt_qpush hw hc hb hop, push_none _ hallow]
  · obtain ⟨y, hy, hpush⟩ := push_some hal htag helem hlen hallow
    refine ⟨y, (w.setS d _).endWait leader, ?_, hpush, goesOn_status hb d _⟩
    rw [exec_queueBlockedCommit, queueCommitAt_qpush hw hc hb hop, hy]
    dsimp only
    rw [modWave_const _ _ _ _ _ (hin y hpush.1.change)]
  · rw [exec_queueBlockedCommit, queueCommitAt_qpop hw hc hb hop, pop_none hempty]
  · obtain ⟨y, hy, hpop⟩ := pop_some hheld
    have htakes := takesElement_acquire (s.pkg.core core).ctx c (GranuleWord (s.pkg.core core).ctx c a.toNat) d w
    generalize elementWords _ _ _ = l at hy htakes
    refine ⟨y, _, ((w.putElem d l).endWait leader).acquireCast, ?_, hpop, htakes, ?_⟩
    · rw [exec_queueBlockedCommit, queueCommitAt_qpop hw hc hb hop, hy]
      dsimp only
      rw [modWave_const _ _ _ _ _ (hin y hpop.1.change)]
    · rw [acquire_rest (w.putElem _ _)]
      exact endWait_acquire ((putElem_blockedAt ..).trans hb)
  · rw [exec_ringWaitCommit, ringCommitAt_rwait hw hc hb hop, phase_eq, if_neg hphase]
  · refine ⟨((w.setS d ((s.pkg.core core).ctx.handle c a.toNat i)).endWait leader).acquireCast, ?_, ?_⟩
    · rw [OnWave, exec_ringWaitCommit, ringCommitAt_rwait hw hc hb hop, phase_eq, if_pos hphase, modWave_const _ _ _ _ _ hw]
    · rw [← acquireCast_fence_congr (a := w.setS d ((s.pkg.core core).ctx.handle c a.toNat i)) (b := w) rfl rfl]
      exact endWait_acquire (w := w.setS d ((s.pkg.core core).ctx.handle c a.toNat i)) hb

end

section
/-! SUPPORT. The words that ask the cue unit, and its answers (Sys2Proof/Machine/Cue.lean: R306, R379 to R382). -/

namespace Sys2Proof.Machine

theorem exec_cueemit (w : R3) (s : State) : exec (.cueemit w) s = s.word (.cueemit w) fun v s =>
    match cueTrap v (v.sc w.b.toNat) with
    | some t => .trap t
    | none => .block (s.modPkg fun p => p.startFence s.clk v.iss.core v.iss.slot .rel 3 true v.iss.word)
        (.cueemit (v.sc w.a.toNat) ((s.pkg.core v.iss.core).ctx.spRead v.cast (v.sc w.b.toNat).toNat 64) w.d.toNat false) := rfl

theorem exec_dcset (w : RAB) (s : State) : exec (.dcset w) s = s.word (.dcset w) fun v s =>
    match dcNumber (v.sc w.a.toNat) with
    | some n =>
      if 2 ^ 37 ≤ (v.sc w.b.toNat).toNat then .trap v.operandTrap
      else .done (s.sendDc v (.set v.iss.core v.iss.slot v.cast.partition n (bits (v.sc w.b.toNat).toNat 0 24) (bits (v.sc w.b.toNat).toNat 24 12)
        ((v.sc w.b.toNat).toNat.testBit 36)))
    | none => .trap v.operandTrap := rfl

theorem exec_dcdec (w : RAB) (s : State) : exec (.dcdec w) s = s.word (.dcdec w) fun v s =>
    match dcNumber (v.sc w.a.toNat) with
    | some n =>
      if (v.sc w.b.toNat).toNat = 0 || 2 ^ 24 ≤ (v.sc w.b.toNat).toNat then .trap v.operandTrap
      else .done (s.sendDc v (.dec v.iss.core v.iss.slot v.cast.partition n (v.sc w.b.toNat).toNat))
    | none => .trap v.operandTrap := rfl

theorem exec_dcwait (w : R2) (s : State) : exec (.dcwait w) s = s.word (.dcwait w) fun v s =>
    match dcNumber (v.sc w.a.toNat) with
    | some n => .block ((s.modPkg fun p => p.forgetWait (s.pkg.keyOf v.iss.core v.iss.slot) v.iss.leader).sendDc v
        (.wait (s.pkg.keyOf v.iss.core v.iss.slot) v.iss.leader v.cast.partition n)) (.dcwait n w.d.toNat)
    | none => .trap v.operandTrap := rfl

theorem exec_cueemitAnswer (core slot leader : Nat) (s : State) :
    exec (.cueemitAnswer core slot leader) s = .next { s with pkg := cueemitAnswerAt core slot leader s.clk s.pkg } := rfl

theorem exec_dcwaitRelease (core slot leader : Nat) (s : State) :
    exec (.dcwaitRelease core slot leader) s = .next { s with pkg := dcwaitReleaseAt core slot leader s.clk s.pkg } := rfl

/-! The checks of the operands (R306, R380). -/

theorem cueTrap_misaligned {v : View} {a : Quad} (h : a.toNat % 16 ≠ 0) : cueTrap v a = some { cause := .misalign, addr := a } := if_pos h

theorem cueTrap_late {v : View} {a : Quad} (hal : a.toNat % 16 = 0) (h : v.cast.spsize.toNat < a.toNat + 64) : cueTrap v a = some { cause := .spRange, addr := a } := by
  rw [cueTrap, if_neg (not_not.2 hal), if_pos h]

theorem cueTrap_passes {v : View} {a : Quad} (hal : a.toNat % 16 = 0) (h : a.toNat + 64 ≤ v.cast.spsize.toNat) : cueTrap v a = none := by
  rw [cueTrap, if_neg (not_not.2 hal), if_neg (Nat.not_lt.2 h)]

theorem dcNumber_counter {x : Quad} (h : x.toNat < 1023) : dcNumber x = some x.toNat := if_pos h

theorem dcNumber_none {x : Quad} (h : 1023 ≤ x.toNat) : dcNumber x = none := if_neg (Nat.not_lt.2 h)

/-- CUEEMIT past its checks: a release at house scope, begun with the wait. -/
theorem cueemit_waits {s : State} {v : View} {w : R3} (h : Issues s v (.cueemit w)) (htrap : cueTrap v (v.sc w.b.toNat) = none)
    (hl : v.iss.leader < v.now.slices.length) :
    let l := s.pkg.peersOf v.iss.core .rel 3
    Waits s v (.cueemit w) (l.foldl (Package.sendMarkers s.clk v.iss.core v.iss.slot) s.pkg)
      { v.now with fence := some { kind := .rel, scope := 3, stages := l.foldl (fun m s => m ||| BitVec.ofNat 4 (2 ^ s)) 0, implied := true, word := v.iss.word } }
      (.cueemit (v.sc w.a.toNat) (Memory.readList (s.pkg.core v.iss.core).ctx.sp (v.cast.spPlace (v.sc w.b.toNat).toNat) 64) w.d.toNat false) := by
  intro l
  refine waits_block (exec_cueemit w s) h (s1 := s.modPkg fun p => p.startFence s.clk v.iss.core v.iss.slot .rel 3 true v.iss.word) (by rw [htrap]; rfl)
    ?_ (f := fun u => { u with fence := _ }) (startFence_eq ..) rfl rfl rfl hl
  rw [show l.foldl _ s.pkg = _ from sendMarkers_fold ..]
  exact issuer_now h

/-- A word whose whole effect is an update on its way to the cue unit. -/
theorem sendsUpdate_of_done {s : State} {v : View} {i : Instr} {F : View → State → Out} {u : DcUpdate} (he : exec i s = s.word i F) (h : Issues s v i)
    (hF : F v s = .done (s.sendDc v u)) : SendsUpdate s v i u :=
  performs_package he h hF (issuer_now h)

/-! An answer that has reached its party (R306, R382). -/

section
variable {s : State} {core slot leader k : Nat} {key : WaveKey} {status : Quad}

theorem takeAnswer_none (h : NoAnswer s core slot leader) : s.pkg.takeAnswer s.clk core slot leader = none := by
  have hnone : findIdx? (fun a : WaveKey × Nat × Nat × Quad => a.1.core = core && a.1.slot = slot && a.2.1 = leader && decide (a.2.2.1 ≤ s.clk.mcyc)) s.pkg.answers = none :=
    findIdx?_eq_none_iff.2 fun a ha => by
      rw [← Bool.not_eq_true]
      simpa [and_assoc] using h a ha
  simp only [Package.takeAnswer, hnone]

theorem takeAnswer_some (h : AnswerAt s core slot leader k key status) :
    s.pkg.takeAnswer s.clk core slot leader = some (key, status, { s.pkg with answers := s.pkg.answers.eraseIdx k }) := by
  obtain ⟨⟨at_, hk⟩, hmine, hfirst⟩ := h
  have hsome : findIdx? (fun a : WaveKey × Nat × Nat × Quad => a.1.core = core && a.1.slot = slot && a.2.1 = leader && decide (a.2.2.1 ≤ s.clk.mcyc)) s.pkg.answers = some k :=
    findIdx?_eq_some_iff.2 ⟨⟨_, hk, by simpa [and_assoc] using hmine _ hk⟩, fun j a hj ha => by
      rw [← Bool.not_eq_true]
      simpa [and_assoc] using hfirst j a hj ha⟩
  simp only [Package.takeAnswer, hsome, hk, Option.map_some]

/-- The answer's wave is the one that the answer is for. -/
theorem AnswerAt.wave (h : AnswerAt s core slot leader k key status) {w : Wave} (hw : s.pkg.waveOf? key = some w) :
    ({ s.pkg with answers := s.pkg.answers.eraseIdx k } : Package).wave? core slot = some w := by
  change s.pkg.wave? core slot = some w
  obtain ⟨⟨at_, hk⟩, hmine, -⟩ := h
  obtain ⟨hcore, hslot, -⟩ := hmine _ hk
  rw [← hcore, ← hslot]
  exact wave?_of_waveOf? hw

end

theorem unblock_rest (w : Wave) (l : Nat) : w.unblock l = { w with slices := (w.unblock l).slices } := by
  unfold Wave.unblock
  split
  · rfl
  · next b _ =>
    have hfold : ∀ (m : List (Nat × Quad)) (u : Wave), m.foldl (fun w p => w.modSlice p.1 fun s => { s with pc := p.2 }) u =
        { u with slices := (m.foldl (fun w p => w.modSlice p.1 fun s => { s with pc := p.2 }) u).slices } := fun m u =>
      List.foldlRecOn (motive := fun y : Wave => y = { u with slices := y.slices }) m _ rfl fun y hy p _ => by
        conv_lhs => rw [hy]
        rfl
    conv_lhs => rw [hfold]
    rfl

/-- A party that goes on from CUEEMIT keeps the promotion of its wave. -/
theorem unblock_goesOn {w : Wave} {l : Nat} {b : Blocked} (h : w.blockedAt l = some b) :
    ∃ z, GoesOn w z l b ∧ w.unblock l = { z with promoted := w.promoted, promoHeld := w.promoHeld } := by
  refine ⟨w.endWait l, goesOn_endWait w l b h, ?_⟩
  conv_lhs => rw [unblock_rest]
  rw [Wave.endWait, unblock_rest]

end Sys2Proof.Machine

open Sys2Proof Sys2Proof.Machine in
/-- Settles O33: a CUEEMIT is a release at house scope with a wait; the counter words send one update each; an answer is the first of its party's that has come. -/
theorem cueAndDependenceWords : Obligations.CueAndDependenceWords := by
  refine ⟨fun s v w h => ?emit, fun s core slot leader h => ?noEmit, fun s core slot leader k key status w b node rec_ d sent h hw hb hop => ?emitted, fun s v w h => ?set,
    fun s v w h => ?dec, fun s v w h => ?wait, fun s core slot leader h => ?noWait, fun s core slot leader k key status w b n d h hw hb hop => ?waited⟩
  case emit =>
    refine ⟨fun hmis => traps_word (exec_cueemit w s) h (by rw [cueTrap_misaligned hmis]), fun hal hlate => traps_word (exec_cueemit w s) h (by rw [cueTrap_late hal hlate]),
      fun hal hin hl => ⟨_, _, _, cueemit_waits h (cueTrap_passes hal hin) hl, rfl, rfl, rfl, rfl, rfl, fun n hn => ?_, sendMarkers_fold ..⟩⟩
    rw [peersMask_getLsbD _ hn, mem_peersOf]
    simp [hn]
  case noEmit => rw [exec_cueemitAnswer, cueemitAnswerAt, takeAnswer_none h]
  case emitted =>
    obtain ⟨op, word, slices, resume, count, late⟩ := b
    obtain rfl : op = .cueemit node rec_ d sent := hop
    obtain ⟨z, hz, hu⟩ := unblock_goesOn (w := w.setS d status) hb
    refine ⟨_, ?_, z, hz, hu⟩
    have hw' : ({ s.pkg with answers := s.pkg.answers.eraseIdx k } : Package).waveOf? key = some w := hw
    rw [exec_cueemitAnswer, cueemitAnswerAt, takeAnswer_some h]
    simp only [hw', hb]
    exact congrArg (fun q => Host.Outcome.next { s with pkg := q }) (modWave_const _ _ _ _ _ (h.wave hw))
  case set =>
    refine ⟨fun hbad => traps_word (exec_dcset w s) h ?_, fun hn hc => ?_⟩
    · rcases Nat.lt_or_ge (v.sc w.a.toNat).toNat 1023 with hn | hn
      · rw [dcNumber_counter hn]
        exact if_pos (hbad.resolve_left (Nat.not_le.2 hn))
      · rw [dcNumber_none hn]
    · have htv : (v.sc w.b.toNat).toNat.testBit 36 = decide ((v.sc w.b.toNat).toNat / 2 ^ 36 = 1) := by
        rw [Nat.testBit_eq_decide_div_mod_eq, Nat.mod_eq_of_lt (Nat.div_lt_of_lt_mul (n := 2 ^ 36) hc)]
      refine sendsUpdate_of_done (exec_dcset w s) h ?_
      rw [dcNumber_counter hn]
      dsimp only
      rw [if_neg (Nat.not_le.2 hc), htv, bits, Nat.pow_zero, Nat.div_one]
      rfl
  case dec =>
    refine ⟨fun hbad => traps_word (exec_dcdec w s) h ?_, fun hn hpos hc => sendsUpdate_of_done (exec_dcdec w s) h ?_⟩
    · rcases Nat.lt_or_ge (v.sc w.a.toNat).toNat 1023 with hn | hn
      · rw [dcNumber_counter hn]
        exact if_pos (by simpa using hbad.resolve_left (Nat.not_le.2 hn))
      · rw [dcNumber_none hn]
    · rw [dcNumber_counter hn]
      exact if_neg (by simp only [Bool.or_eq_true, decide_eq_true_eq]; omega)
  case wait =>
    refine ⟨fun hn => traps_word (exec_dcwait w s) h (by rw [dcNumber_none hn]), fun hn hl =>
      ⟨((s.modPkg fun p => p.forgetWait (s.pkg.keyOf v.iss.core v.iss.slot) v.iss.leader).sendDc v (.wait (s.pkg.keyOf v.iss.core v.iss.slot) v.iss.leader v.cast.partition (v.sc w.a.toNat).toNat)).pkg,
        ?_, ?_, rfl, fun x => ?_, fun x => ?_⟩⟩
    · exact waits_package (exec_dcwait w s) h (by rw [dcNumber_counter hn]; rfl) (issuer_now h) hl
    · exact List.mem_append_right _ (List.mem_singleton.2 rfl)
    · exact List.mem_filter.trans (and_congr_right' (by simp [imp_iff_not_or]))
    · exact List.mem_filter.trans (and_congr_right' (by simp [imp_iff_not_or]))
  case noWait => rw [exec_dcwaitRelease, dcwaitReleaseAt, takeAnswer_none h]
  case waited =>
    obtain ⟨op, word, slices, resume, count, late⟩ := b
    obtain rfl : op = .dcwait n d := hop
    refine ⟨((w.setS d status).endWait leader).acquireCast, ?_, ?_⟩
    · have hw' : ({ s.pkg with answers := s.pkg.answers.eraseIdx k } : Package).waveOf? key = some w := hw
      rw [exec_dcwaitRelease, dcwaitReleaseAt, takeAnswer_some h]
      simp only [hw', hb]
      exact congrArg (fun q => Host.Outcome.next { s with pkg := q }) (modWave_const _ _ _ _ _ (h.wave hw))
    · rw [← acquireCast_fence_congr (a := w.setS d status) (b := w) rfl rfl]
      exact endWait_acquire (w := w.setS d status) hb

end

section
/-! SUPPORT. COPY and its arrivals at the copy engine (Sys2Proof/Machine/Copy.lean: R44, R276 to R279). -/

namespace Sys2Proof.Machine

theorem exec_copy (w : R3) (s : State) : exec (.copy w) s = s.word (.copy w) fun v s =>
    match copyTrap v (v.sc w.a.toNat) (v.sc (w.a.toNat + 1)) with
    | some t => .trap t
    | none =>
      if s.pkg.recordFor v.iss.core v.now.cast v.now.nextCopy then
        .done (((s.modPkg fun p => p.sendCopy v.iss.core v.iss.slot v.now.nextCopy
            (some { head := v.sc w.a.toNat, ctl := v.sc (w.a.toNat + 1), slice := v.sc w.b.toNat, dest := w.d.toNat })).onWave v fun w =>
          { w with nextCopy := w.nextCopy + 1 }).writeX v w.d.toNat (v.now.nextCopy.setWidth 64))
      else .block s (.create { head := v.sc w.a.toNat, ctl := v.sc (w.a.toNat + 1), slice := v.sc w.b.toNat, dest := w.d.toNat }) := rfl

theorem exec_collectiveCreateRetry (core slot : Nat) (s : State) :
    exec (.collectiveCreateRetry core slot) s = .next { s with pkg := createRetryAt core slot s.pkg } := rfl

/-! The checks of COPY (R277). -/

section
variable {v : View} {head ctl : Quad}

theorem copyTrap_misaligned (h : head.toNat % 64 ≠ 0) : copyTrap v head ctl = some { cause := .misalign, addr := head } := if_pos h

variable (hal : head.toNat % 64 = 0)
include hal

theorem copyTrap_operand (h : 2 ^ 30 ≤ ctl.toNat) : copyTrap v head ctl = some v.operandTrap := by
  rw [copyTrap, if_neg (not_not.2 hal), if_pos (Nat.div_pos h (Nat.two_pow_pos 30)).ne']

/-- Past its operands, COPY checks the barrier that its control word names. -/
theorem copyTrap_barrier (h : ctl.toNat < 2 ^ 30) : copyTrap v head ctl =
    if bits ctl.toNat 25 1 = 1 ∧ v.cast.spsize.toNat < 16 * bits ctl.toNat 10 15 + 16 then
      some { cause := .spRange, addr := BitVec.ofNat 64 (16 * bits ctl.toNat 10 15) } else none := by
  rw [copyTrap, if_neg (not_not.2 hal), if_neg (not_not.2 (Nat.div_eq_of_lt h))]
  exact if_congr (by rw [Bool.and_eq_true, decide_eq_true_eq, decide_eq_true_eq]) rfl rfl

end

/-! The collective records of a core (R278, R279). -/

theorem sendCopy_eq (p : Package) (core slot : Nat) (n : BitVec 32) (a : Option CopyArgs) : p.sendCopy core slot n a =
    p.modCore core fun k => { k with cq := setAt k.cq (slot / 16) (some { key := p.keyOf core slot, num := n, args := a }) } := rfl

theorem wave?_sendCopy (p : Package) (core slot : Nat) (n : BitVec 32) (a : Option CopyArgs) (c k : Nat) : (p.sendCopy core slot n a).wave? c k = p.wave? c k :=
  wave?_modCore (f := fun k => { k with cq := setAt k.cq (slot / 16) (some { key := p.keyOf core slot, num := n, args := a }) }) (fun _ => rfl) p core c k

section
variable {p : Package} {core cast i : Nat} {n : BitVec 32}

theorem collOf_hasRecord {k : Coll} (h : HasRecord p core cast n i k) : (p.core core).ctx.collOf cast n = some i := by
  obtain ⟨hi, hcast, hnum, hfirst⟩ := h
  refine findIdx?_eq_some_iff.2 ⟨⟨_, hi, by simp [hcast, hnum]⟩, fun j x hj hx => ?_⟩
  cases x with
  | none => rfl
  | some y => simpa using hfirst j y hj hx

theorem collOf_noRecord (h : NoRecord p core cast n) : (p.core core).ctx.collOf cast n = none := by
  refine findIdx?_eq_none_iff.2 fun x hx => ?_
  obtain ⟨j, hj⟩ := List.mem_iff_getElem?.1 hx
  cases x with
  | none => rfl
  | some y => simpa using h j y hj

theorem freeColl_freeRecord (h : FreeRecord p core i) : (p.core core).ctx.freeColl = some i := by
  refine findIdx?_eq_some_iff.2 ⟨⟨_, h.1, rfl⟩, fun j x hj hx => ?_⟩
  cases x with
  | none => exact absurd hx (h.2 j hj)
  | some y => rfl

theorem freeColl_noFreeRecord (h : NoFreeRecord p core) : (p.core core).ctx.freeColl = none := by
  refine findIdx?_eq_none_iff.2 fun x hx => ?_
  obtain ⟨j, hj⟩ := List.mem_iff_getElem?.1 hx
  cases x with
  | none => exact absurd hj (h j)
  | some y => rfl

theorem recordFor_hasRecord {k : Coll} (h : HasRecord p core cast n i k) : p.recordFor core cast n = true := by
  rw [Package.recordFor, collOf_hasRecord h]
  rfl

theorem recordFor_full (h : NoRecord p core cast n) (hfull : NoFreeRecord p core) : p.recordFor core cast n = false := by
  rw [Package.recordFor, collOf_noRecord h, freeColl_noFreeRecord hfull]
  rfl

theorem promised_empty (h : (p.core core).cq.all Option.isNone = true) : p.promised core = [] := by
  have hnone : (p.core core).cq.filterMap id = [] := List.filterMap_eq_nil_iff.2 fun x hx => Option.isNone_iff_eq_none.1 (List.all_eq_true.1 h x hx)
  rw [Package.promised, hnone]
  rfl

/-- With no COPY on its way, a free record serves any collective. -/
theorem recordFor_freeRecord (hq : (p.core core).cq.all Option.isNone = true) (h : FreeRecord p core i) : p.recordFor core cast n = true := by
  have hpos : 0 < ((p.core core).ctx.colls.filter Option.isNone).length :=
    List.length_pos_iff_exists_mem.2 ⟨none, List.mem_filter.2 ⟨List.mem_of_getElem? h.1, rfl⟩⟩
  rw [Package.recordFor, freeColl_freeRecord h, promised_empty hq]
  simp [hpos]

end

/-! The readiness of a collective (R279). -/

/-- A collective all of whose members have arrived, that has not started and is not yet in the order, joins it. -/
def CoreCtx.withReady (i : Nat) (k : Coll) (x : CoreCtx) : CoreCtx :=
  if k.pos.isNone && (k.members.all fun m => k.arrived.any fun a => a.waveId = m) && !x.readyOrder.any fun r => r.1 = i then
    { x with readyOrder := x.readyOrder ++ [(i, 0)] }
  else x

theorem allArrived_iff (k : Coll) : (k.members.all fun m => k.arrived.any fun a => a.waveId = m) = true ↔ AllArrived k := by
  simp [AllArrived]

theorem withReady_rest (i : Nat) (k : Coll) (x : CoreCtx) : x.withReady i k = { x with readyOrder := (x.withReady i k).readyOrder } := by
  rw [CoreCtx.withReady]
  split <;> rfl

theorem mem_withReady (i : Nat) (k : Coll) (x : CoreCtx) :
    (∃ r, (i, r) ∈ (x.withReady i k).readyOrder) ↔ (∃ r, (i, r) ∈ x.readyOrder) ∨ (k.pos = none ∧ AllArrived k) := by
  have hany : (x.readyOrder.any fun r => r.1 = i) = true ↔ ∃ r, (i, r) ∈ x.readyOrder := by
    simp [List.any_eq_true, Prod.exists]
  rw [CoreCtx.withReady, ← allArrived_iff, ← Option.isNone_iff_eq_none, ← Bool.and_eq_true, ← hany]
  cases hl : x.readyOrder.any fun r => r.1 = i
  · cases hk : k.pos.isNone && (k.members.all fun m => k.arrived.any fun a => a.waveId = m)
    · simpa [hl] using hany
    · simp
  · simpa [hl] using hany

theorem collReady_eq {p : Package} {core i : Nat} {k : Coll} (h : (p.core core).ctx.colls[i]? = some (some k)) :
    ∃ d, p.collReady core i = { p.modCtx core fun x => x.withReady i k with due := d } := by
  have hk : (p.core core).ctx.colls.getD i none = some k := by rw [List.getD_eq_getElem?_getD, h]; rfl
  simp only [Package.collReady, hk]
  split
  next hready =>
    refine ⟨_, congrArg (fun q : Package => q.later .now (.collectiveStart core)) (modCtx_congr ?_)⟩
    exact (if_pos hready).symm
  next hready =>
    refine ⟨p.due, ?_⟩
    have hid : p.modCtx core (fun x => x.withReady i k) = p.modCtx core fun x => x := modCtx_congr (if_neg hready)
    rw [hid]
    exact congrArg (fun l => { p with cores := l }) (modAt_id p.cores core).symm

/-! An arrival (R278). -/

/-- An arrival changes its core's context: the record, and what else keeps the scratchpad. -/
theorem arrives_of_modCtx {p : Package} {core i : Nat} {w u : Wave} {k : Coll} {ends : Bool} {f : CoreCtx → CoreCtx} {d : List Due} (hin : core < p.cores.length)
    (herror : if ends then ∃ t : AsyncTrap, u = { w with due := w.due ++ [t] } ∧ t.cause = .engine ∧ t.addr = 0x209 else u = w)
    (hcolls : (f (p.core core).ctx).colls = modAt (p.core core).ctx.colls i fun _ => some k)
    (hready : (∃ r, (i, r) ∈ (f (p.core core).ctx).readyOrder) ↔ (∃ r, (i, r) ∈ (p.core core).ctx.readyOrder) ∨ (k.pos = none ∧ AllArrived k))
    (hrest : (f (p.core core).ctx).sp = (p.core core).ctx.sp ∧ (f (p.core core).ctx).fe = (p.core core).ctx.fe ∧ (f (p.core core).ctx).tags = (p.core core).ctx.tags) :
    Arrives p { p.modCtx core f with due := d } core w u i k ends := by
  have hctx : (({ p.modCtx core f with due := d } : Package).core core).ctx = f (p.core core).ctx := core_modCtx_ctx hin f
  refine ⟨herror, rfl, fun c hc => core_modCore_ne p core c _ hc, fun j => ?_, ?_, ?_⟩
  · rw [hctx, hcolls, modAt_get?]
  · rw [hctx, hready]
  · rw [hctx]
    exact hrest

theorem modCtx_modCtx (p : Package) (core : Nat) (f g : CoreCtx → CoreCtx) : (p.modCtx core f).modCtx core g = p.modCtx core fun x => g (f x) := by
  simp only [Package.modCtx, modCore_modCore]

/-- A record that an arrival has written, with the collective's readiness after it. -/
theorem arrives_collReady {p : Package} {core i : Nat} {w u : Wave} {k : Coll} {ends : Bool} {f : CoreCtx → CoreCtx} {o : Option Coll} (hin : core < p.cores.length)
    (herror : if ends then ∃ t : AsyncTrap, u = { w with due := w.due ++ [t] } ∧ t.cause = .engine ∧ t.addr = 0x209 else u = w)
    (ho : (p.core core).ctx.colls[i]? = some o) (hcolls : (f (p.core core).ctx).colls = modAt (p.core core).ctx.colls i fun _ => some k)
    (horder : (f (p.core core).ctx).readyOrder = (p.core core).ctx.readyOrder)
    (hrest : (f (p.core core).ctx).sp = (p.core core).ctx.sp ∧ (f (p.core core).ctx).fe = (p.core core).ctx.fe ∧ (f (p.core core).ctx).tags = (p.core core).ctx.tags) :
    Arrives p ((p.modCtx core f).collReady core i) core w u i k ends ∧ (∀ c s, ((p.modCtx core f).collReady core i).wave? c s = (p.modCtx core f).wave? c s)
      ∧ ∀ c s, ((p.modCtx core f).collReady core i).cast? c s = (p.modCtx core f).cast? c s := by
  have hk : ((p.modCtx core f).core core).ctx.colls[i]? = some (some k) := by
    rw [core_modCtx_ctx hin, hcolls, modAt_get?, if_pos rfl, ho]
    rfl
  have hwaves : ∀ x : CoreCtx, (x.withReady i k).waves = x.waves ∧ (x.withReady i k).casts = x.casts := fun x => by
    rw [withReady_rest]
    exact ⟨rfl, rfl⟩
  obtain ⟨d, hd⟩ := collReady_eq hk
  refine ⟨?_, fun c s => ?_, fun c s => ?_⟩
  · rw [hd, modCtx_modCtx]
    refine arrives_of_modCtx hin herror ?_ ?_ ?_
    · rw [withReady_rest]
      exact hcolls
    · rw [mem_withReady, horder]
    · rw [withReady_rest]
      exact hrest
  · rw [hd]
    exact wave?_modCtx (fun x => (hwaves x).1) (p.modCtx core f) core c s
  · rw [hd]
    exact cast?_modCore (f := fun x => { x with ctx := x.ctx.withReady i k }) (fun x => (hwaves x.ctx).2) (p.modCtx core f) core c s

/-- The core's part with a collective record replaced. -/
def CoreCtx.setColl (i : Nat) (k : Coll) (x : CoreCtx) : CoreCtx := { x with colls := modAt x.colls i fun _ => some k }

section
variable {p : Package} {core slot i : Nat} {n : BitVec 32} {a : CopyArgs} {w : Wave} (hw : p.wave? core slot = some w)
include hw

theorem arrive_joins {k : Coll} (h : HasRecord p core w.cast n i k) : p.arrive core slot n a = some
    ((if k.head = a.head ∧ k.ctl = a.ctl then p.modCtx core (CoreCtx.setColl i (Joined k a w))
      else (p.modCtx core (CoreCtx.setColl i (Joined k a w))).modWave core slot fun w => w.engineDue 9).collReady core i) := by
  have hk : p.coll? core i = some k := by rw [Package.coll?, h.1]; rfl
  have hset : ∀ f : Coll → Coll, f k = Joined k a w → p.modColl core i f = p.modCtx core (CoreCtx.setColl i (Joined k a w)) := fun f hf =>
    modCtx_congr (congrArg (fun l => { (p.core core).ctx with colls := l }) (modAt_congr fun x hx => by
      obtain rfl : some k = x := Option.some.inj (h.1.symm.trans hx)
      rw [Option.map_some, hf]))
  simp only [Package.arrive, hw, collOf_hasRecord h, hk]
  by_cases hsame : k.head = a.head ∧ k.ctl = a.ctl
  · have hb : (decide (k.head = a.head) && decide (k.ctl = a.ctl)) = true := by simpa using hsame
    rw [if_pos hsame]
    simp only [hb, if_true]
    rw [hset]
    rw [Joined, if_pos hsame]
  · have hb : (decide (k.head = a.head) && decide (k.ctl = a.ctl)) = false := by simpa using hsame
    rw [if_neg hsame]
    simp only [hb, Bool.false_eq_true, if_false]
    rw [hset]
    rw [Joined, if_neg hsame]

/-- The record that an arrival creates. -/
def Package.newColl (p : Package) (core : Nat) (w : Wave) (n : BitVec 32) (a : CopyArgs) : Coll :=
  { cast := w.cast, num := n, head := a.head, ctl := a.ctl,
    members := ((p.core core).ctx.slotsOf w.cast).filterMap fun s => (p.wave? core s).bind fun y => if y.role.copies then some y.waveId else none,
    arrived := [{ waveId := w.waveId, desc := a.slice, tiles := w.tiles }], pos := none, finishing := false }

theorem arrive_creates (h : NoRecord p core w.cast n) (hfree : FreeRecord p core i) : p.arrive core slot n a = some
    (((p.modCtx core (CoreCtx.setColl i (p.newColl core w n a))).modCast core w.cast fun k => { k with cseq := k.cseq + 1 }).collReady core i) := by
  simp only [Package.arrive, hw, collOf_noRecord h, freeColl_freeRecord hfree]
  rfl

theorem arrive_full (h : NoRecord p core w.cast n) (hfull : NoFreeRecord p core) : p.arrive core slot n a = none := by
  simp only [Package.arrive, hw, collOf_noRecord h, freeColl_noFreeRecord hfull]

end

theorem copies_iff (r : Role) : r.copies = true ↔ r = .general ∨ r = .copy := by cases r <;> simp [Role.copies]

theorem newColl_created (p : Package) {core : Nat} (hin : core < p.cores.length) (w : Wave) (n : BitVec 32) (a : CopyArgs) : CreatedRecord p core w n a (p.newColl core w n a) := by
  refine ⟨rfl, fun m => ?_⟩
  simp only [Package.newColl, List.mem_filterMap, mem_slotsOf, Option.bind_eq_some_iff, Option.ite_none_right_eq_some, Option.some.injEq, copies_iff, wave?_core hin,
    Option.join_eq_some_iff]
  constructor
  · rintro ⟨s, ⟨x, hx, hcast⟩, y, hy, hrole, hm⟩
    obtain rfl : x = y := Option.some.inj (Option.some.inj (hx.symm.trans hy))
    exact ⟨s, x, hx, hcast, hm, hrole⟩
  · rintro ⟨s, y, hy, hcast, hm, hrole⟩
    exact ⟨s, ⟨y, hy, hcast⟩, y, hy, hrole, hm⟩

end Sys2Proof.Machine
end

section
/-! SUPPORT. COPY at issue, at the engine, and where it has waited (R44, R277 to R279). -/

namespace Sys2Proof.Machine

theorem wave?_collReady (p : Package) (core i c k : Nat) : (p.collReady core i).wave? c k = p.wave? c k := by
  unfold Package.collReady
  split
  · rfl
  · split
    · exact wave?_modCtx (f := fun x => { x with readyOrder := x.readyOrder ++ [(i, 0)] }) (fun _ => rfl) p core c k
    · rfl

section
variable {p : Package} {core slot i : Nat} {n : BitVec 32} {a : CopyArgs} {w : Wave} (hw : p.wave? core slot = some w)
include hw

theorem arrive_hasRecord {k : Coll} (h : HasRecord p core w.cast n i k) : ∃ q u, p.arrive core slot n a = some q ∧ q.wave? core slot = some u
    ∧ Arrives p q core w u i (Joined k a w) (!decide (k.head = a.head ∧ k.ctl = a.ctl)) := by
  have hin := core_lt_of_wave? hw
  have hset : (p.modCtx core (CoreCtx.setColl i (Joined k a w))).wave? core slot = some w := (wave?_modCtx (f := CoreCtx.setColl i (Joined k a w)) (fun _ => rfl) ..).trans hw
  rw [arrive_joins hw h]
  by_cases hsame : k.head = a.head ∧ k.ctl = a.ctl
  · obtain ⟨harr, hwave, -⟩ := arrives_collReady (f := CoreCtx.setColl i (Joined k a w)) (w := w) (u := w) (ends := false) hin rfl h.1 rfl rfl ⟨rfl, rfl, rfl⟩
    rw [if_pos hsame, decide_eq_true hsame]
    exact ⟨_, w, rfl, (hwave _ _).trans hset, harr⟩
  · obtain ⟨harr, hwave, -⟩ := arrives_collReady (f := fun x => { x.setColl i (Joined k a w) with waves := modAt x.waves slot (·.map fun w => w.engineDue 9) })
      (w := w) (u := w.engineDue 9) (ends := true) hin ⟨_, rfl, rfl, rfl⟩ h.1 rfl rfl ⟨rfl, rfl, rfl⟩
    rw [if_neg hsame, decide_eq_false hsame, Package.modWave, modCtx_modCtx]
    refine ⟨_, w.engineDue 9, rfl, (hwave _ _).trans ?_, harr⟩
    refine (congrArg (fun q => Package.wave? q core slot) (modCtx_modCtx p core (CoreCtx.setColl i (Joined k a w)) _)).symm.trans
      ((wave?_modWave _ core slot core slot fun w => w.engineDue 9).trans ?_)
    rw [if_pos ⟨rfl, rfl⟩, hset]
    rfl

theorem arrive_freeRecord (h : NoRecord p core w.cast n) (hfree : FreeRecord p core i) : ∃ q k, p.arrive core slot n a = some q ∧ q.wave? core slot = some w
    ∧ CreatedRecord p core w n a k ∧ Arrives p q core w w i k false ∧ q.cast? core w.cast = (p.cast? core w.cast).map fun c => { c with cseq := c.cseq + 1 } := by
  have hin := core_lt_of_wave? hw
  obtain ⟨harr, hwave, hcast⟩ := arrives_collReady (k := p.newColl core w n a) (w := w) (u := w) (ends := false)
    (f := fun x => { x.setColl i (p.newColl core w n a) with casts := modAt x.casts w.cast (·.map fun k => { k with cseq := k.cseq + 1 }) }) hin rfl hfree.1 rfl rfl ⟨rfl, rfl, rfl⟩
  rw [arrive_creates hw h hfree, Package.modCast, modCtx_modCtx]
  refine ⟨_, _, rfl, (hwave _ _).trans ?_, newColl_created p hin w n a, harr, (hcast _ _).trans ?_⟩
  · exact (wave?_modCtx (f := fun x => { x.setColl i (p.newColl core w n a) with casts := modAt x.casts w.cast (·.map fun k => { k with cseq := k.cseq + 1 }) })
      (fun _ => rfl) ..).trans hw
  · refine (congrArg (fun q => Package.cast? q core w.cast) (modCtx_modCtx p core (CoreCtx.setColl i (p.newColl core w n a)) _)).symm.trans
      ((cast?_modCast_self _ core w.cast fun k => { k with cseq := k.cseq + 1 }).trans ?_)
    rw [show (p.modCtx core (CoreCtx.setColl i (p.newColl core w n a))).cast? core w.cast = p.cast? core w.cast from
      cast?_modCore (f := fun x => { x with ctx := x.ctx.setColl i (p.newColl core w n a) }) (fun _ => rfl) ..]

/-- An arrival leaves its wave as it was, or makes it fall due for ENGINE. -/
theorem arrive_wave {q : Package} (h : p.arrive core slot n a = some q) : q.wave? core slot = some w ∨ q.wave? core slot = some (w.engineDue 9) := by
  simp only [Package.arrive, hw] at h
  split at h
  next j _ =>
    split at h
    next => exact .inl (Option.some.inj h ▸ hw)
    next k _ =>
      rw [← Option.some.inj h, wave?_collReady]
      have hcoll : ∀ f, (p.modColl core j f).wave? core slot = some w := fun f =>
        (wave?_modCtx (f := fun x => { x with colls := modAt x.colls j (Option.map f) }) (fun _ => rfl) ..).trans hw
      split
      · exact .inl (hcoll _)
      · rw [wave?_modWave, if_pos ⟨rfl, rfl⟩, hcoll]
        exact .inr rfl
  next =>
    split at h
    next => cases h
    next j _ =>
      rw [← Option.some.inj h, wave?_collReady, wave?_modCast]
      exact .inl ((wave?_modCtx (f := fun x => { x with colls := setAt x.colls j _ }) (fun _ => rfl) ..).trans hw)

end

/-! The engine takes the one command that waits at an X pipe (R44). -/

section
variable {p : Package} {core bay : Nat} {m : CopyCmd} (hb : bay < 4) (hq : ∀ b, (p.core core).cq.getD b none = if b = bay then some m else none)
include hb hq

theorem copyAccept_only (k : Clock) : ∃ ptr, p.copyAccept k core =
    match (match m.args with
      | some a => p.arrive core m.key.slot m.num a
      | none => some p) with
    | some q => q.modCore core fun c => { c with cq := setAt c.cq bay none, cePtr := ptr }
    | none => p := by
  obtain ⟨ptr, hg⟩ := grantBay_of_only (waiting := fun b => ((p.core core).cq.getD b none).isSome)
    (special := fun b => ((p.core core).cq.getD b none).any fun m => (p.waveOf? m.key).any fun w => w.role = .copy) hb (by simp only [hq, if_true, Option.isSome_some])
    (fun b _ hne => by simp only [hq, if_neg hne, Option.isSome_none]) (fun b _ hne => by simp only [hq, if_neg hne, Option.any_none]) (k.cycleOf (companyOf core)) (p.core core).cePtr
  refine ⟨ptr, ?_⟩
  simp only [Package.copyAccept, hg, hq bay, if_true] <;> rfl

end

/-- A COPY past its checks, where a record is there for it. -/
theorem copy_performs {s : State} {v : View} {w : R3} (h : Issues s v (.copy w)) (htrap : copyTrap v (v.sc w.a.toNat) (v.sc (w.a.toNat + 1)) = none)
    (hfits : s.pkg.recordFor v.iss.core v.now.cast v.now.nextCopy = true) :
    Performs s v (.copy w) false (s.pkg.sendCopy v.iss.core v.iss.slot v.now.nextCopy
      (some { head := v.sc w.a.toNat, ctl := v.sc (w.a.toNat + 1), slice := v.sc w.b.toNat, dest := w.d.toNat })) (Numbered v.now w.d.toNat) := by
  refine performs_done (exec_copy w s) h (by rw [htrap]; dsimp only; rw [if_pos hfits]) ((wave?_sendCopy ..).trans (issuer_now h))
    (f := fun u => { u.setS w.d.toNat (v.now.nextCopy.setWidth 64) with nextCopy := u.nextCopy + 1 }) ?_ (by rfl) (by rfl) (by rfl)
  exact modWave_modWave ..

/-- The retry of an arrival that has found its record (R279). -/
theorem createRetryAt_arrives {p q : Package} {core slot : Nat} {w : Wave} {b : Blocked} {a : CopyArgs} (hw : p.wave? core slot = some w)
    (hb : w.blockedAt w.sole = some b) (hop : b.op = .create a) (hfits : p.recordFor core w.cast w.nextCopy = true) (hq : p.arrive core slot w.nextCopy a = some q) :
    createRetryAt core slot p = q.modWave core slot fun w => (Numbered w a.dest).endWait w.sole := by
  obtain ⟨op, word, slices, resume, count, late⟩ := b
  obtain rfl : op = .create a := hop
  simp only [createRetryAt, hw, hb, hfits, hq, Bool.not_true, Bool.false_eq_true, if_false]
  rfl

theorem createRetryAt_waits {p : Package} {core slot : Nat} {w : Wave} {b : Blocked} {a : CopyArgs} (hw : p.wave? core slot = some w)
    (hb : w.blockedAt w.sole = some b) (hop : b.op = .create a) (hfits : p.recordFor core w.cast w.nextCopy = false) : createRetryAt core slot p = p := by
  obtain ⟨op, word, slices, resume, count, late⟩ := b
  obtain rfl : op = .create a := hop
  simp only [createRetryAt, hw, hb, hfits, Bool.not_false, if_true]

end Sys2Proof.Machine

open Sys2Proof Sys2Proof.Machine in
/-- Settles O31: an arrival writes one record, and its readiness; the engine takes the one command that waits; the retry is the arrival and the end of the wait. -/
theorem copyArrivals : Obligations.CopyArrivals := by
  refine ⟨fun s v w h => ?issue, fun p core cast n => ⟨fun i k h => recordFor_hasRecord h, fun i hq h => recordFor_freeRecord hq h, recordFor_full⟩,
    fun p core slot n a w hw => ⟨fun i k h => arrive_hasRecord hw h, fun i h hfree => arrive_freeRecord hw h hfree, arrive_full hw⟩,
    fun k p core bay m hb hq => ?accept, fun s core slot w b a hw hb hop => ⟨fun hfits => ?waits, fun q z hfits hq hz => ?goes⟩⟩
  case issue =>
    refine ⟨fun hmis => traps_word (exec_copy w s) h (by rw [copyTrap_misaligned hmis]), fun hal hctl => traps_word (exec_copy w s) h (by rw [copyTrap_operand hal hctl]),
      fun hal hctl hlate => traps_word (exec_copy w s) h (by rw [copyTrap_barrier hal hctl, if_pos hlate]), ?_, ?_⟩
    · rintro ⟨hal, hctl, hlate⟩ hfits
      exact copy_performs h ((copyTrap_barrier hal hctl).trans (if_neg hlate)) hfits
    · rintro ⟨hal, hctl, hlate⟩ hfits hl
      refine waits_package (exec_copy w s) h ?_ (issuer_now h) hl
      rw [copyTrap_barrier hal hctl, if_neg hlate]
      exact if_neg (Bool.eq_false_iff.1 hfits)
  case accept =>
    obtain ⟨ptr, hptr⟩ := copyAccept_only hb hq k
    refine ⟨fun hargs => ⟨ptr, by rw [hptr, hargs]⟩, fun a q hargs harr => ⟨ptr, by rw [hptr, hargs]; dsimp only; rw [harr]⟩, fun a hargs harr => by rw [hptr, hargs]; dsimp only; rw [harr]⟩
  case waits => rw [exec_collectiveCreateRetry, createRetryAt_waits hw hb hop hfits]
  case goes =>
    refine ⟨(Numbered z a.dest).endWait z.sole, by rw [exec_collectiveCreateRetry, createRetryAt_arrives hw hb hop hfits hq, modWave_const _ _ _ _ _ hz], ?_⟩
    rcases arrive_wave hw hq with hwave | hwave <;> obtain rfl := Option.some.inj (hz.symm.trans hwave) <;> exact goesOn_endWait _ _ b hb

end

section
/-! SUPPORT. ENGWAIT and the running of a collective (Sys2Proof/Machine/Copy.lean: R44, R258, R279, R286, R289, R292). -/

namespace Sys2Proof.Machine

theorem exec_engwait (w : R2) (s : State) : exec (.engwait w) s = s.word (.engwait w) fun v s =>
    .block (s.modPkg fun p => p.sendCopy v.iss.core v.iss.slot ((v.sc w.a.toNat).setWidth 32) none)
      (match (s.pkg.cast? v.iss.core v.src.cast).filter fun c => c.copyOver ((v.sc w.a.toNat).setWidth 32) with
      | some c => .released w.d.toNat (c.copyResult ((v.sc w.a.toNat).setWidth 32)) false false (s.clk.cycleOf (companyOf v.iss.core) + 4)
      | none => .engwait ((v.sc w.a.toNat).setWidth 32) w.d.toNat) := rfl

theorem exec_collectiveStart (core : Nat) (s : State) : exec (.collectiveStart core) s = .next { s with pkg := collectiveStartAt core s.clk s.pkg } := rfl

theorem exec_copyRequestReturn (core run : Nat) (s : State) :
    exec (.copyRequestReturn core run) s = .next { s with pkg := copyRequestAt core run s.clk s.pkg } := rfl

theorem exec_copyFaultResume (core i : Nat) (s : State) : exec (.copyFaultResume core i) s = .next { s with pkg := copyFaultResumeAt core i s.pkg } := rfl

theorem exec_collectiveComplete (core i : Nat) (s : State) :
    exec (.collectiveComplete core i) s = .next { s with pkg := collectiveCompleteAt core i s.clk s.pkg } := rfl

theorem engwait_waits {s : State} {v : View} {w : R2} (h : Issues s v (.engwait w)) (hl : v.iss.leader < v.now.slices.length) {c : Cast} {op : BlockOp}
    (hc : s.pkg.cast? v.iss.core v.src.cast = some c)
    (hop : (if c.copyOver ((v.sc w.a.toNat).setWidth 32) then
        .released w.d.toNat (c.copyResult ((v.sc w.a.toNat).setWidth 32)) false false (s.clk.cycleOf (companyOf v.iss.core) + 4)
      else .engwait ((v.sc w.a.toNat).setWidth 32) w.d.toNat) = op) :
    Waits s v (.engwait w) (s.pkg.sendCopy v.iss.core v.iss.slot ((v.sc w.a.toNat).setWidth 32) none) v.now op := by
  refine waits_package (exec_engwait w s) h ?_ ((wave?_sendCopy ..).trans (issuer_now h)) hl
  rw [hc, ← hop, Option.filter_some]
  cases c.copyOver ((v.sc w.a.toNat).setWidth 32) <;> rfl

/-! A part of a core that a change of the core keeps. -/

theorem core_modCore_keeps {α : Type} {g : Core → α} {f : Core → Core} (hf : ∀ x, g (f x) = g x) (p : Package) (c c' : Nat) : g ((p.modCore c f).core c') = g (p.core c') := by
  by_cases hc : c' = c
  · subst hc
    rcases Nat.lt_or_ge c' p.cores.length with hlt | hge
    · rw [core_modCore_self _ _ _ hlt, hf]
    · have hnone (q : Package) (hq : q.cores.length = p.cores.length) : q.core c' = {} := by
        rw [Package.core, List.getD_eq_getElem?_getD, List.getElem?_eq_none (hq ▸ hge)]
        rfl
      rw [hnone _ (cores_modCore ..), hnone _ rfl]
  · rw [core_modCore_ne _ _ _ _ hc]

theorem core_lt_of_coll? {p : Package} {core i : Nat} {k : Coll} (h : p.coll? core i = some k) : core < p.cores.length := by
  by_contra hge
  rw [Package.coll?, Package.core, List.getD_eq_getElem?_getD, List.getElem?_eq_none (Nat.le_of_not_lt hge)] at h
  have hnone : ∀ x ∈ ({} : Core).ctx.colls, x = none := by decide
  cases hx : ({} : Core).ctx.colls[i]? with
  | none => exact absurd (h.symm.trans (congrArg Option.join hx)) (by simp)
  | some x =>
    rw [hnone x (List.mem_of_getElem? hx)] at hx
    exact absurd (h.symm.trans (congrArg Option.join hx)) (by simp)

theorem coll?_modCore {f : Core → Core} (hf : ∀ x, (f x).ctx.colls = x.ctx.colls) (p : Package) (c c' i : Nat) : (p.modCore c f).coll? c' i = p.coll? c' i := by
  rw [Package.coll?, core_modCore_keeps (g := fun x => x.ctx.colls) hf]
  rfl

theorem getElem?_of_coll? {p : Package} {core i : Nat} {k : Coll} (h : p.coll? core i = some k) : (p.core core).ctx.colls[i]? = some (some k) :=
  Option.join_eq_some_iff.1 h

theorem coll?_modColl {p : Package} {core i : Nat} {k : Coll} (h : p.coll? core i = some k) (f : Coll → Coll) : (p.modColl core i f).coll? core i = some (f k) := by
  rw [Package.coll?, Package.modColl, core_modCtx_ctx (core_lt_of_coll? h), modAt_get?, if_pos rfl, getElem?_of_coll? h]
  rfl

/-- A change of a collective's record, written out. -/
theorem modColl_eq {p : Package} {core i : Nat} {k : Coll} (h : p.coll? core i = some k) (f : Coll → Coll) :
    p.modColl core i f = p.modCtx core fun x => { x with colls := setAt x.colls i (some (f k)) } := by
  refine modCtx_congr (congrArg (fun l => { (p.core core).ctx with colls := l }) (modAt_congr fun x hx => ?_))
  obtain rfl : some k = x := Option.some.inj ((getElem?_of_coll? h).symm.trans hx)
  rfl

theorem coll?_charge (p : Package) (core cast prio n c i : Nat) : (p.charge core cast prio n).coll? c i = p.coll? c i :=
  (coll?_modCore (f := fun k => { k with ctx := { k.ctx with casts := modAt k.ctx.casts cast (·.map fun c => { c with cchg := satCharge (c.cchg + n) }) } })
    (fun _ => rfl) _ core c i).trans (coll?_modCore (f := fun k => { k with kchg := satCharge (k.kchg + n) }) (fun _ => rfl) _ core c i)

theorem coll?_noteXlate (p : Package) (core part : Nat) (va : Quad) (c i : Nat) : (p.noteXlate core part va).coll? c i = p.coll? c i := by
  unfold Package.noteXlate
  split
  · rfl
  · dsimp only
    split
    next k _ _ => exact coll?_modCore (f := fun c => { c with tlb := c.tlb.touch k }) (fun _ => rfl) p core c i
    next =>
      split
      · exact coll?_modCore (f := fun c => { c with tlb := c.tlb.fill _ }) (fun _ => rfl) _ core c i
      · rfl

/-! A request of a running collective (R279). -/

section
variable {p : Package} {core i : Nat} {k : Coll} {q : CopyPos} (hi : p.coll? core i = some k) (hq : k.pos = some q)
include hi hq

theorem copyAct_waits (hw : q.paused = true ∨ q.hostWait = true ∨ k.finishing = true ∨ q.toLand ≠ []) (c : Clock) : p.copyAct c core i = .wait := by
  have hb : (q.paused || q.hostWait || k.finishing || !q.toLand.isEmpty) = true := by
    simpa [or_assoc] using hw
  simp only [Package.copyAct, hi, hq]
  cases p.cast? core k.cast with
  | none => rfl
  | some y => exact if_pos hb

/-- A collective at a slice, with no record read, reads its record. -/
theorem copyAct_reads {c : Cast} {z : CopySlice} {l : List CopySlice} {place : Nat} (hc : p.cast? core k.cast = some c) (hp : q.paused = false) (hh : q.hostWait = false)
    (hf : k.finishing = false) (ht : q.toLand = []) (hs : q.slices = z :: l) (hb : q.body = none) (hx : p.xlate core c.partition (.copy core i) q.recAddr false false = .dev place)
    (ha : p.ahead core (place / 128) = false) (hpoison : (p.engineBytes c place 64).2 = false) (t : Clock) :
    p.copyAct t core i = .request ((((p.noteXlate core c.partition q.recAddr).dropWalks core (.copy core i)).charge core k.cast c.prio 8).modPos core i fun q =>
      { q with body := some (p.engineBytes c place 64).1, elem := 0, go := false, host := none, denied := false }) := by
  have hread : p.engineRead t core i c k.num q.recAddr 64 = .bytes (p.engineBytes c place 64).1 false true := by
    simp only [Package.engineRead, hx, ha, hpoison, Bool.false_eq_true, if_false]
  simp only [Package.copyAct, hi, hq, hc, hp, hh, hf, ht, hs, hb, hread, List.isEmpty_nil, Bool.or_false, Bool.not_true, Bool.false_eq_true, if_false]
  rfl

end

theorem copyRequestAt_idle {p : Package} {core run : Nat} (h : (p.core core).ctx.running.getD run none = none) (k : Clock) : copyRequestAt core run k p = p := by
  simp only [copyRequestAt, h]

theorem copyRequestAt_runs {p : Package} {core run i : Nat} (h : (p.core core).ctx.running.getD run none = some i) (k : Clock) : copyRequestAt core run k p =
    match p.copyAct k core i with
    | .wait => p
    | .step q => q
    | .request q => q := by
  simp only [copyRequestAt, h] <;> rfl

theorem copyFaultResumeAt_over {p : Package} {core i : Nat} {k : Coll} {q : CopyPos} (hi : p.coll? core i = some k) (hq : k.pos = some q)
    (h : p.walksOver core (.copy core i) = true) : copyFaultResumeAt core i p =
      p.modCtx core fun x => { x with colls := setAt x.colls i (some { k with pos := some { q with paused := false, page := none } }) } := by
  rw [copyFaultResumeAt, if_pos h, Package.modPos, modColl_eq hi, hq]
  rfl

/-! The start of a collective (R279). -/

/-- A running slot's turn at the start of collectives. -/
def Package.startSlot (core cyc : Nat) (p : Package) (j : Nat) : Package :=
  match (p.core core).ctx.running.getD j none, (p.core core).ctx.readyOrder with
  | none, r :: rest =>
    if r.2 ≤ cyc then
      (p.modCtx core fun x => { x with running := setAt x.running j (some r.1), readyOrder := rest }).modColl core r.1 fun c => { c with pos := some (c.pos.getD c.start) }
    else p
  | _, _ => p

theorem startSlot_busy {p : Package} {core cyc j : Nat} (h : (p.core core).ctx.running.getD j none ≠ none) : p.startSlot core cyc j = p := by
  obtain ⟨i, hi⟩ := Option.ne_none_iff_exists'.1 h
  simp only [Package.startSlot, hi]

theorem startSlot_nobody {p : Package} {core cyc j : Nat} (h : (p.core core).ctx.readyOrder = []) : p.startSlot core cyc j = p := by
  rw [Package.startSlot, h]
  cases (p.core core).ctx.running.getD j none <;> rfl

/-- The first ready collective starts in a free slot. -/
theorem startSlot_starts {p : Package} {core cyc j i since : Nat} {k : Coll} (hi : p.coll? core i = some k) (hpos : k.pos = none) (hr : (p.core core).ctx.readyOrder = [(i, since)])
    (hcyc : since ≤ cyc) (hfree : (p.core core).ctx.running.getD j none = none) : p.startSlot core cyc j = p.modCtx core fun x =>
      { x with readyOrder := [], running := setAt x.running j (some i), colls := setAt x.colls i (some { k with pos := some k.start }) } := by
  simp only [Package.startSlot, hfree, hr, hcyc, if_true]
  rw [modColl_eq (k := k), modCtx_modCtx, hpos]
  · rfl
  · rw [← hi]
    exact coll?_modCore (f := fun x => { x with ctx := { x.ctx with running := setAt x.ctx.running j (some i), readyOrder := [] } }) (fun _ => rfl) p core core i

/-- A fold over a range in which one index acts, those before it do nothing, and those after it do nothing once it has acted. -/
theorem foldl_range_at {β : Type} {f : β → Nat → β} {x y : β} {n j : Nat} (hj : j < n) (hx : ∀ l, l < j → f x l = x) (hstep : f x j = y) (hy : ∀ l, j < l → f y l = y) :
    (List.range n).foldl f x = y := by
  induction n with
  | zero => exact absurd hj (Nat.not_lt_zero j)
  | succ n ih =>
    rw [List.range_succ, List.foldl_append, List.foldl_cons, List.foldl_nil]
    rcases Nat.lt_succ_iff_lt_or_eq.1 hj with hlt | rfl
    · rw [ih hlt, hy n hlt]
    · rw [foldl_id fun l hl => hx l (List.mem_range.1 hl), hstep]

theorem collectiveStartAt_eq {core i since : Nat} {p : Package} (hr : (p.core core).ctx.readyOrder = [(i, since)]) (hs : since ≠ 0) (k : Clock) :
    collectiveStartAt core k p = (List.range 4).foldl (Package.startSlot core (k.cycleOf (companyOf core))) p := by
  have hid : p.modCtx core (fun x => { x with readyOrder := [(i, since)] }) = p := by
    have hsame : p.modCtx core (fun x => { x with readyOrder := [(i, since)] }) = p.modCtx core fun x => x :=
      modCtx_congr (by rw [← hr])
    rw [hsame]
    exact congrArg (fun l => { p with cores := l }) (modAt_id p.cores core)
  have hfresh : ((p.core core).ctx.readyOrder.any fun r => r.2 = 0) = false := by simp [hr, hs]
  have horder : (((p.core core).ctx.readyOrder.map fun r : Nat × Nat => if r.2 = 0 then (r.1, k.cycleOf (companyOf core) + 1) else r).foldl
      (fun l r => insertReady (p.core core).ctx r l) []) = [(i, since)] := by
    rw [hr]
    simp [hs, insertReady]
  rw [collectiveStartAt]
  simp only [hfresh, horder, hid, Bool.false_eq_true, if_false]
  rfl

/-- One ready collective, whose turn has come, starts in the first free slot. -/
theorem collectiveStartAt_starts {core i since j : Nat} {p : Package} {c : Coll} {k : Clock} (hr : (p.core core).ctx.readyOrder = [(i, since)]) (hs : since ≠ 0)
    (hcyc : since ≤ k.cycleOf (companyOf core)) (hj : j < 4) (hlen : (p.core core).ctx.running.length = 4) (hfree : (p.core core).ctx.running[j]? = some none)
    (hfirst : ∀ l, l < j → (p.core core).ctx.running[l]? ≠ some none) (hi : p.coll? core i = some c) (hpos : c.pos = none) :
    collectiveStartAt core k p = p.modCtx core fun x =>
      { x with readyOrder := [], running := setAt x.running j (some i), colls := setAt x.colls i (some { c with pos := some c.start }) } := by
  rw [collectiveStartAt_eq hr hs]
  refine foldl_range_at hj (fun l hl => startSlot_busy ?_) (startSlot_starts hi hpos hr hcyc ?_) fun l _ => startSlot_nobody ?_
  · rw [List.getD_eq_getElem?_getD, List.getElem?_eq_getElem (by omega), Option.getD_some]
    intro hnone
    exact hfirst l hl (by rw [List.getElem?_eq_getElem (by omega), hnone])
  · rw [List.getD_eq_getElem?_getD, hfree]
    rfl
  · rw [core_modCtx_ctx (core_lt_of_coll? hi)]

/-! The end of a collective (R289). -/

theorem modWaves_fold (core : Nat) (f : Wave → Wave) (l : List Nat) (p : Package) :
    ∃ g : CoreCtx → CoreCtx, (∀ x, g x = { x with waves := (g x).waves }) ∧ l.foldl (fun p s => p.modWave core s f) p = p.modCtx core g := by
  induction l generalizing p with
  | nil => exact ⟨fun x => x, fun _ => rfl, (congrArg (fun l => { p with cores := l }) (modAt_id p.cores core)).symm⟩
  | cons s l ih =>
    obtain ⟨g, hg, h⟩ := ih (p.modWave core s f)
    refine ⟨fun x => g { x with waves := modAt x.waves s (·.map f) }, fun x => hg _, ?_⟩
    rw [List.foldl_cons, h, Package.modWave, modCtx_modCtx]

/-- The status of a collective changes its cast's counts and statuses, and the waves that wait for it. -/
theorem collStatus_eq (p : Package) (core : Nat) (c : Coll) (kind code : BitVec 8) : ∃ g : CoreCtx → CoreCtx,
    (∀ x, g x = { x with waves := (g x).waves, casts := modAt x.casts c.cast (·.map fun k =>
      { k with cdone := k.cdone + 1, ring := ((c.num, { kind := kind, code := code }) :: k.ring).take 8 }) })
    ∧ p.collStatus core c kind code = p.modCtx core g := by
  unfold Package.collStatus
  dsimp only
  split
  · exact ⟨fun x => { x with casts := modAt x.casts c.cast (·.map fun k => { k with cdone := k.cdone + 1, ring := ((c.num, { kind := kind, code := code }) :: k.ring).take 8 }) },
      fun _ => rfl, rfl⟩
  · next y _ =>
    obtain ⟨g, hg, h⟩ := modWaves_fold core (fun w => w.engwaitOver y) (((p.modCast core c.cast fun k =>
      { k with cdone := k.cdone + 1, ring := ((c.num, { kind := kind, code := code }) :: k.ring).take 8 }).core core).ctx.slotsOf c.cast) (p.modCast core c.cast fun k =>
      { k with cdone := k.cdone + 1, ring := ((c.num, { kind := kind, code := code }) :: k.ring).take 8 })
    refine ⟨fun x => g { x with casts := modAt x.casts c.cast (·.map fun k => { k with cdone := k.cdone + 1, ring := ((c.num, { kind := kind, code := code }) :: k.ring).take 8 }) },
      fun x => hg _, ?_⟩
    rw [h, Package.modCast, modCtx_modCtx]

/-- A step that changes one core, and sends nothing to the cue unit. -/
structure ChangesCore (core : Nat) (f : Core → Core) (p q : Package) : Prop where
  cores : q.cores = modAt p.cores core f
  dcIn : q.dcIn = p.dcIn

theorem ChangesCore.trans {core : Nat} {f g : Core → Core} {p q r : Package} (h : ChangesCore core f p q) (h' : ChangesCore core g q r) :
    ChangesCore core (fun x => g (f x)) p r :=
  ⟨by rw [h'.cores, h.cores, modAt_modAt], h'.dcIn.trans h.dcIn⟩

theorem ChangesCore.ctx {core : Nat} {f : Core → Core} {p q : Package} (h : ChangesCore core f p q) (hin : core < p.cores.length) : q.core core = f (p.core core) := by
  rw [Package.core, h.cores]
  exact core_modCore_self p core f hin

theorem fireFollow_changes (p : Package) (core : Nat) (c : Coll) (cyc : Nat) :
    ∃ g : CoreCtx → CoreCtx, (∀ x, g x = { x with follow := (g x).follow }) ∧ ChangesCore core (fun x => { x with ctx := g x.ctx }) p (p.fireFollow core c cyc) := by
  unfold Package.fireFollow
  split
  · exact ⟨fun x => x, fun _ => rfl, (modAt_id p.cores core).symm, rfl⟩
  · next f _ => exact ⟨fun x => { x with follow := modAt x.follow f (Option.map fun y : Follow => { y with fired := true }) }, fun _ => rfl, rfl, rfl⟩

theorem collStatus_changes (p : Package) (core : Nat) (c : Coll) (kind code : BitVec 8) : ∃ g : CoreCtx → CoreCtx,
    (∀ x, g x = { x with waves := (g x).waves, casts := modAt x.casts c.cast (·.map fun k =>
      { k with cdone := k.cdone + 1, ring := ((c.num, { kind := kind, code := code }) :: k.ring).take 8 }) })
    ∧ ChangesCore core (fun x => { x with ctx := g x.ctx }) p (p.collStatus core c kind code) := by
  obtain ⟨g, hg, h⟩ := collStatus_eq p core c kind code
  exact ⟨g, hg, by rw [h]; exact ⟨rfl, rfl⟩⟩

/-- The core's part with a collective's record, running slot and place in the order freed. -/
def CoreCtx.freeRecord (i : Nat) (x : CoreCtx) : CoreCtx :=
  { x with colls := setAt x.colls i none, running := x.running.map (fun r => if r = some i then none else r), readyOrder := x.readyOrder.filter fun r : Nat × Nat => r.1 ≠ i }

theorem collFree_changes (p : Package) (core i : Nat) : ChangesCore core (fun x => { x with ctx := x.ctx.freeRecord i }) p (p.collFree core i) := ⟨rfl, rfl⟩

/-- What a completed collective tells its barrier. -/
def Coll.arrivals (k : Coll) (i : Nat) (x : CoreCtx) : List BarrierEvent :=
  match k.barrier? with
  | some g => [BarrierEvent.copyArrival k.cast g (x.runningAt i)]
  | none => []

/-- The arrival of a completed collective at its barrier. -/
def Package.tellBarrier (p : Package) (core i : Nat) (k : Coll) : Package :=
  match k.barrier? with
  | some g => p.modCore core fun x => { x with barrier := x.barrier ++ [BarrierEvent.copyArrival k.cast g (x.ctx.runningAt i)] }
  | none => p

theorem tellBarrier_changes (p : Package) (core i : Nat) (k : Coll) :
    ChangesCore core (fun x => { x with barrier := x.barrier ++ k.arrivals i x.ctx }) p (p.tellBarrier core i k) := by
  unfold Package.tellBarrier Coll.arrivals
  cases k.barrier? with
  | none =>
    simp only [List.append_nil]
    exact ⟨(modAt_id p.cores core).symm, rfl⟩
  | some g => exact ⟨rfl, rfl⟩

/-- The follow request of a collective that landed nothing. -/
def Package.tellFollow (p : Package) (core : Nat) (k : Coll) (landed : Bool) (cyc : Nat) : Package := if landed then p else p.fireFollow core k cyc

theorem tellFollow_changes (p : Package) (core : Nat) (k : Coll) (landed : Bool) (cyc : Nat) :
    ∃ g : CoreCtx → CoreCtx, (∀ x, g x = { x with follow := (g x).follow }) ∧ ChangesCore core (fun x => { x with ctx := g x.ctx }) p (p.tellFollow core k landed cyc) := by
  cases landed with
  | true => exact ⟨fun x => x, fun _ => rfl, (modAt_id p.cores core).symm, rfl⟩
  | false => exact fireFollow_changes ..

section
variable {p : Package} {core i : Nat} {k : Coll} {q : CopyPos} {c : Cast} {t : Clock} (hi : p.coll? core i = some k) (hq : k.pos = some q)
  (hc : p.cast? core k.cast = some c)
include hi hq hc

theorem collectiveCompleteAt_runs (hf : k.finishing = false) : collectiveCompleteAt core i t p = p := by
  simp only [collectiveCompleteAt, hi, hq, hc, hf, Bool.not_false, if_true]

theorem collectiveCompleteAt_ends (hf : k.finishing = true) (hack : q.ackAt ≤ t.mcyc) : collectiveCompleteAt core i t p =
    ((((p.copyDone core c.partition k 0).tellBarrier core i k).tellFollow core k q.landed (t.cycleOf (companyOf core) + 1)).collStatus core k 0 0).collFree core i := by
  simp only [collectiveCompleteAt, hi, hq, hc, hf, Nat.not_lt.2 hack, Bool.not_true, Bool.false_eq_true, if_false]
  rfl

/-- The completion of a collective: its arrival at its barrier, its status, and its record freed; its counter hears of it (R289). -/
theorem collectiveCompleteAt_changes (hf : k.finishing = true) (hack : q.ackAt ≤ t.mcyc) : ∃ f : Core → Core,
    ChangesCore core f (p.copyDone core c.partition k 0) (collectiveCompleteAt core i t p)
    ∧ ∀ x, (f x).barrier = x.barrier ++ k.arrivals i x.ctx ∧ (f x).ctx.colls = setAt x.ctx.colls i none
      ∧ (f x).ctx.casts = modAt x.ctx.casts k.cast (·.map fun y => { y with cdone := y.cdone + 1, ring := ((k.num, { kind := 0, code := 0 }) :: y.ring).take 8 }) := by
  obtain ⟨g, hg, hfollow⟩ := tellFollow_changes ((p.copyDone core c.partition k 0).tellBarrier core i k) core k q.landed (t.cycleOf (companyOf core) + 1)
  obtain ⟨g', hg', hstatus⟩ := collStatus_changes (((p.copyDone core c.partition k 0).tellBarrier core i k).tellFollow core k q.landed (t.cycleOf (companyOf core) + 1)) core k 0 0
  rw [collectiveCompleteAt_ends hi hq hc hf hack]
  refine ⟨_, (((tellBarrier_changes _ core i k).trans hfollow).trans hstatus).trans (collFree_changes _ core i), fun x => ?_⟩
  dsimp only
  rw [CoreCtx.freeRecord, hg', hg]
  exact ⟨rfl, rfl, rfl⟩

end

theorem copyDone_cores (p : Package) (core part : Nat) (k : Coll) (status : Nat) : (p.copyDone core part k status).cores = p.cores := by
  unfold Package.copyDone
  split <;> rfl

theorem mem_copyDone {p : Package} {core part : Nat} {k : Coll} {status : Nat} (h : bits k.ctl.toNat 0 10 ≠ 1023) :
    (0, DcUpdate.done core part (bits k.ctl.toNat 0 10) status) ∈ (p.copyDone core part k status).dcIn := by
  rw [Package.copyDone, if_neg (show k.counter ≠ 1023 from h)]
  exact List.mem_append_right _ (List.mem_singleton.2 rfl)

end Sys2Proof.Machine

open Sys2Proof Sys2Proof.Machine in
/-- Settles O32: ENGWAIT is a place at the X pipe and a wait; each event of a collective is one change of its record, of its running slot, or of what hears of its end. -/
theorem copyProgress : Obligations.CopyProgress := by
  refine ⟨fun s v w h hl => ?wait, fun s core i since j k hr hs hcyc hj hlen hfree hfirst hi hpos => ?start, fun s core run h => ?idle,
    fun s core run i k q hrun hi hq hw => ?waits, fun s core run i place k q c z l hrun hi hq hc hp hh hf ht hs hb hx ha hpoison => ?reads,
    fun s core i => ⟨fun h => ?walking, fun k q h hi hq => ?resumes⟩, fun s core i k q c hi hq hc => ⟨fun hf => ?runs, fun hf hack => ?ends⟩⟩
  case wait =>
    intro n status q c hc
    exact ⟨fun hover => engwait_waits h hl hc (if_pos (decide_eq_true hover)), fun hnot => engwait_waits h hl hc (if_neg fun hover => Nat.not_lt.2 hnot (of_decide_eq_true hover))⟩
  case start => rw [exec_collectiveStart, collectiveStartAt_starts hr hs hcyc hj hlen hfree hfirst hi hpos]
  case idle => rw [exec_copyRequestReturn, copyRequestAt_idle h]
  case waits => rw [exec_copyRequestReturn, copyRequestAt_runs hrun, copyAct_waits hi hq hw]
  case reads =>
    refine ⟨_, rfl, ?_⟩
    have hsame : (((s.pkg.noteXlate core c.partition q.recAddr).dropWalks core (.copy core i)).charge core k.cast c.prio 8).coll? core i = some k := by
      rw [coll?_charge]
      exact (coll?_noteXlate ..).trans hi
    rw [copyRequestAt_runs hrun, copyAct_reads hi hq hc hp hh hf ht hs hb hx ha hpoison]
    refine (coll?_modColl hsame _).trans ?_
    rw [hq]
    rfl
  case walking => rw [exec_copyFaultResume, copyFaultResumeAt, if_neg (Bool.eq_false_iff.1 h)]
  case resumes => rw [exec_copyFaultResume, copyFaultResumeAt_over hi hq h]
  case runs => rw [exec_collectiveComplete, collectiveCompleteAt_runs hi hq hc hf]
  case ends =>
    have hin : core < (s.pkg.copyDone core c.partition k 0).cores.length := by
      rw [copyDone_cores]
      exact core_lt_of_coll? hi
    have hcore : (s.pkg.copyDone core c.partition k 0).core core = s.pkg.core core := by
      rw [Package.core, copyDone_cores]
      rfl
    obtain ⟨f, hch, hf⟩ := collectiveCompleteAt_changes (t := s.clk) hi hq hc hf hack
    obtain ⟨hbar, hcolls, hcasts⟩ := hf (s.pkg.core core)
    have hend := hch.ctx hin
    rw [hcore] at hend
    refine ⟨_, rfl, ?_, fun hn => ?_, fun hb => ?_, ?_⟩
    · rw [Package.coll?, hend, hcolls, setAt, modAt_get?, if_pos rfl, getElem?_of_coll? hi]
      rfl
    · rw [show State.pkg _ = _ from rfl, hch.dcIn]
      exact mem_copyDone hn
    · rw [hend, hbar, Coll.arrivals, Coll.barrier?, if_pos hb]
      exact List.mem_append_right _ (List.mem_singleton.2 rfl)
    · have hcast : (s.pkg.core core).ctx.casts[k.cast]? = some (some c) := by
        rw [cast?_core (core_lt_of_coll? hi)] at hc
        exact Option.join_eq_some_iff.1 hc
      refine ⟨_, ?_, rfl⟩
      rw [cast?_core (by rw [hch.cores, modAt_length]; exact hin), hend, hcasts, modAt_get?, if_pos rfl, hcast]
      rfl

end

section
/-! SUPPORT. A gate and what it takes (Sys2Proof/Machine/Gates.lean: R318, R321 to R323, R385). -/

namespace Sys2Proof.Machine

theorem exec_gateAccept (g : Nat) (a : Arrival) (s : State) : exec (.gateAccept g a) s = .next { s with pkg := gateAcceptAt g a s.clk s.pkg } := rfl

theorem exec_replayInject (g : Nat) (s : State) : exec (.replayInject g) s = .next { s with pkg := replayInjectAt g s.clk s.pkg } := rfl

/-! A gate of the package. -/

theorem modGate_congr {p : Package} {g : Nat} {f f' : Gate → Gate} (h : f (p.gate g) = f' (p.gate g)) : p.modGate g f = p.modGate g f' := by
  refine congrArg (fun l => { p with gates := l }) (modAt_congr fun x hx => ?_)
  obtain rfl : p.gate g = x := by rw [Package.gate, List.getD_eq_getElem?_getD, hx]; rfl
  exact h

theorem modGate_same {p : Package} {g : Nat} {f : Gate → Gate} (h : f (p.gate g) = p.gate g) : p.modGate g f = p :=
  (modGate_congr (f' := fun x => x) h).trans (congrArg (fun l => { p with gates := l }) (modAt_id p.gates g))

theorem modGate_modGate (p : Package) (g : Nat) (f f' : Gate → Gate) : (p.modGate g f).modGate g f' = p.modGate g fun x => f' (f x) :=
  congrArg (fun l => { p with gates := l }) (modAt_modAt p.gates g f f')

theorem gate_modGate_self {p : Package} {g : Nat} (h : g < p.gates.length) (f : Gate → Gate) : (p.modGate g f).gate g = f (p.gate g) :=
  modAt_getD_self _ _ _ _ h

/-! The turn of a withheld piece (R318, R322). -/

theorem gateTurn_closed {p : Package} {g : Nat} {k : Clock} (h : k.run = .frozen ∨ p.win.gatemodeCur = 2) : p.gateTurn k g = .waits := by
  have hb : (decide (k.run = .frozen) || decide (p.win.gatemodeCur = 2)) = true := by simpa using h
  unfold Package.gateTurn
  split
  · rfl
  · exact if_pos hb

/-- A gate that takes nothing goes on withholding. -/
theorem drainGate_waits {p : Package} {g : Nat} {k : Clock} (h : p.gateTurn k g = .waits) : p.drainGate k g = p := by
  unfold Package.drainGate
  generalize List.foldl _ _ _ = n
  cases n with
  | zero => rfl
  | succ n => simp only [Package.drainFrom, h]

theorem drainGate_closed {p : Package} {g : Nat} {k : Clock} (h : k.run = .frozen ∨ p.win.gatemodeCur = 2) : p.drainGate k g = p :=
  drainGate_waits (gateTurn_closed h)

theorem pieces_eq_one {a : Arrival} (h : a.payload.length ≤ 64) : a.pieces = 1 := by
  rw [Arrival.pieces]
  omega

/-- A gate whose one piece is taken. -/
theorem drainGate_taken {p q : Package} {g : Nat} {k : Clock} {a : Arrival} (hin : (p.gate g).ingress = [(0, a)]) (hp : a.pieces = 1) (h : p.gateTurn k g = .taken q) :
    p.drainGate k g = q := by
  simp only [Package.drainGate, hin, List.map_cons, List.map_nil, List.foldl_cons, List.foldl_nil, hp, Package.drainFrom, h]

/-- A piece at a gate that runs, for no partition that executes again: it is logged where the gate logs, and its ring has room. -/
theorem gateTurn_open {p : Package} {g i : Nat} {k : Clock} {a : Arrival} {l : List (Nat × Arrival)} (hin : (p.gate g).ingress = (i, a) :: l) (hrun : k.run = .running)
    (hmode : p.win.gatemodeCur ≠ 2) (hdig : (p.gate g).digests = []) (hre : ∀ q, p.arrivalPart a = some q → (p.recov q).errorOffset = none) : p.gateTurn k g =
      if p.logging g = false then .taken (p.stampPiece k.mcyc g i a false)
      else if (p.gate g).ringFull = false then .taken (p.stampPiece k.mcyc g i a true)
      else if p.win.lossy.getLsbD g then .taken (((p.modGate g fun x => { x with off := true }).breakReplay k g 0).stampPiece k.mcyc g i a false)
      else if g = 13 then .taken ((p.modGate g fun x => { x with ingress := x.ingress.drop 1 }).count Config.errTELDROP Config.max16)
      else .waits := by
  have hopen : (decide (k.run = .frozen) || decide (p.win.gatemodeCur = 2)) = false := by simp [hrun, hmode]
  have hnone : ((p.arrivalPart a).filter fun q => decide (i = 0) && p.reexecuting q) = none := by
    cases hpart : p.arrivalPart a with
    | none => rfl
    | some q =>
      have hq : p.reexecuting q = false := Option.isSome_eq_false_iff.2 (Option.isNone_iff_eq_none.2 (hre q hpart))
      rw [Option.filter_some, hq, Bool.and_false]
      rfl
  simp only [Package.gateTurn, hin, hopen, hnone, flushDigests_of_digests_nil k hdig, hdig, List.isEmpty_nil, Bool.not_true, Bool.or_false, Bool.false_eq_true, if_false,
    Bool.not_eq_true']

theorem nextStamp_eq (x : Gate) (t : Nat) : x.nextStamp t =
    (if x.stampAt < t then t else if x.stampPiece < 4 then x.stampAt else x.stampAt + 1, if x.stampAt < t then 0 else if x.stampPiece < 4 then x.stampPiece else 0) := by
  unfold Gate.nextStamp
  split
  · rfl
  · split <;> rfl

/-- A gate that has stamped its one withheld piece. -/
def Gate.stamped (t : Nat) (y x : Gate) : Gate := { x with stampAt := (y.nextStamp t).1, stampPiece := (y.nextStamp t).2 + 1, ingress := x.ingress.drop 1 }

theorem stampPiece_last {a : Arrival} (hp : a.pieces = 1) (p : Package) (t g : Nat) (log : Bool) : p.stampPiece t g 0 a log =
    ((if log then p.writeEntry g fun seq => logEntry ((p.gate g).nextStamp t).1 seq a.kind ((p.gate g).nextStamp t).2 true (a.src g) (a.payload.take 64) a.header else p).modGate g
      ((p.gate g).stamped t)).accept ((p.gate g).nextStamp t).1 g a := by
  have hlast : decide (a.pieces ≤ 0 + 1) = true := decide_eq_true (hp.trans_le (Nat.le_refl 1))
  unfold Package.stampPiece
  simp only [hlast, Bool.not_true, Bool.false_eq_true, if_false, Nat.mul_zero, List.drop_zero, modGate_modGate]
  rfl

/-! Acceptance (R318, R385). -/

/-- A gate with an arrival that takes effect 16 mesh cycles after its stamp. -/
def Gate.withEffect (c : Nat) (a : Arrival) (x : Gate) : Gate := { x with effects := x.effects ++ [(c + 16, a)] }

section
variable {p : Package} {a : Arrival} (hats : ∀ pasid va l, a ≠ .atsInvalidate pasid va l)
include hats

theorem accept_eq (c g : Nat) : p.accept c g a = match p.arrivalPart a with
    | some k => if (p.part k).recov then (p.modGate g (Gate.withEffect c a)).modRecovery k fun r => { r with arrivals := r.arrivals ++ [(c, g, a)] }
      else p.modGate g (Gate.withEffect c a)
    | none => p.modGate g (Gate.withEffect c a) := by
  cases a with
  | atsInvalidate pasid va l => exact absurd rfl (hats pasid va l)
  | _ => rfl

theorem accept_unjournaled (h : ∀ k, p.arrivalPart a = some k → (p.part k).recov = false) (c g : Nat) : p.accept c g a = p.modGate g (Gate.withEffect c a) := by
  rw [accept_eq hats]
  cases hk : p.arrivalPart a with
  | none => rfl
  | some k => exact if_neg (Bool.eq_false_iff.1 (h k hk))

theorem accept_journaled {k : Nat} (hk : p.arrivalPart a = some k) (h : (p.part k).recov = true) (c g : Nat) :
    p.accept c g a = (p.modGate g (Gate.withEffect c a)).modRecovery k fun r => { r with arrivals := r.arrivals ++ [(c, g, a)] } := by
  rw [accept_eq hats, hk]
  exact if_pos h

end

/-! One arrival at a gate that holds nothing back (R318, R322). -/

/-- A gate that withholds an arrival. -/
def Gate.withhold (a : Arrival) (x : Gate) : Gate := { x with ingress := x.ingress ++ [(0, a)] }

/-- A gate with the stamp of one piece more, as a gate stands. -/
def Gate.restamp (t : Nat) (y x : Gate) : Gate := { x with stampAt := (y.nextStamp t).1, stampPiece := (y.nextStamp t).2 + 1 }

theorem acceptedAt_eq (s : State) (g : Nat) (a : Arrival) (x : Gate) :
    AcceptedAt s g a x = ((s.pkg.gate g).restamp s.clk.mcyc x).withEffect ((s.pkg.gate g).nextStamp s.clk.mcyc).1 a := by
  rw [Gate.restamp, nextStamp_eq]
  rfl

theorem withheld_ingress {p : Package} {g : Nat} (hg : g < p.gates.length) (hin : (p.gate g).ingress = []) (a : Arrival) :
    ((p.modGate g (Gate.withhold a)).gate g).ingress = [(0, a)] := by
  rw [gate_modGate_self hg, Gate.withhold, hin]
  rfl

section
variable {s : State} {g : Nat} {a : Arrival} (hg : g < s.pkg.gates.length) (hrun : s.clk.run = .running) (hmode : s.pkg.win.gatemodeCur ≠ 2)
  (hin : (s.pkg.gate g).ingress = []) (hdig : (s.pkg.gate g).digests = [])
  (hre : ∀ q, s.pkg.arrivalPart a = some q → (s.pkg.recov q).errorOffset = none)
include hg hrun hmode hin hdig hre

theorem gateTurn_withheld : (s.pkg.modGate g (Gate.withhold a)).gateTurn s.clk g =
    if s.pkg.logging g = false then .taken ((s.pkg.modGate g (Gate.withhold a)).stampPiece s.clk.mcyc g 0 a false)
    else if (s.pkg.gate g).ringFull = false then .taken ((s.pkg.modGate g (Gate.withhold a)).stampPiece s.clk.mcyc g 0 a true)
    else if s.pkg.win.lossy.getLsbD g then
      .taken ((((s.pkg.modGate g (Gate.withhold a)).modGate g fun x => { x with off := true }).breakReplay s.clk g 0).stampPiece s.clk.mcyc g 0 a false)
    else if g = 13 then .taken (((s.pkg.modGate g (Gate.withhold a)).modGate g fun x => { x with ingress := x.ingress.drop 1 }).count Config.errTELDROP Config.max16)
    else .waits := by
  have hself := gate_modGate_self hg (Gate.withhold a)
  have hlog : (s.pkg.modGate g (Gate.withhold a)).logging g = s.pkg.logging g := by
    unfold Package.logging Package.ringOk
    rw [hself]
    rfl
  have hfull : ((s.pkg.modGate g (Gate.withhold a)).gate g).ringFull = (s.pkg.gate g).ringFull := by
    rw [hself]
    rfl
  rw [gateTurn_open (p := s.pkg.modGate g (Gate.withhold a)) (k := s.clk) (i := 0) (a := a) (l := []) (by rw [hself, Gate.withhold, hin]; rfl) hrun hmode (by rw [hself]; exact hdig) hre, hlog, hfull]
  rfl

/-- A gate whose ring is full withholds. -/
theorem drain_withheld (hlog : s.pkg.logging g = true) (hfull : (s.pkg.gate g).ringFull = true) (hlossy : s.pkg.win.lossy.getLsbD g = false) (hne : g ≠ 13) :
    (s.pkg.modGate g (Gate.withhold a)).drainGate s.clk g = s.pkg.modGate g fun x => { x with ingress := [(0, a)] } := by
  have hturn := gateTurn_withheld hg hrun hmode hin hdig hre
  rw [if_neg (hlog.trans_ne Bool.false_ne_true.symm), if_neg (hfull.trans_ne Bool.false_ne_true.symm), if_neg (Bool.eq_false_iff.1 hlossy), if_neg hne] at hturn
  rw [drainGate_waits hturn]
  exact modGate_congr (by rw [Gate.withhold, hin]; rfl)

variable (hp : a.pieces = 1)
include hp

/-- A gate that does not log stamps an arrival and accepts it. -/
theorem drain_unlogged (hlog : s.pkg.logging g = false) : (s.pkg.modGate g (Gate.withhold a)).drainGate s.clk g =
    (s.pkg.modGate g ((s.pkg.gate g).restamp s.clk.mcyc)).accept ((s.pkg.gate g).nextStamp s.clk.mcyc).1 g a := by
  have hturn := gateTurn_withheld hg hrun hmode hin hdig hre
  rw [if_pos hlog] at hturn
  rw [drainGate_taken (withheld_ingress hg hin a) hp hturn, stampPiece_last hp, gate_modGate_self hg, if_neg Bool.false_ne_true, modGate_modGate]
  refine congrArg (fun q : Package => q.accept ((s.pkg.gate g).nextStamp s.clk.mcyc).1 g a) (modGate_congr ?_)
  simp only [Gate.stamped, Gate.withhold, Gate.restamp, hin, List.nil_append, List.drop_one, List.tail_cons]
  rfl

/-- The log entry of an arrival of one piece. -/
def Package.arrivalEntry (p : Package) (t g : Nat) (a : Arrival) : List Byte :=
  logEntry ((p.gate g).nextStamp t).1 (p.gate g).seq.toNat a.kind ((p.gate g).nextStamp t).2 true (a.src g) (a.payload.take 64) a.header

/-- The package with an entry written at LOGHEAD of a gate. -/
def Package.logWrite (p : Package) (g : Nat) (entry : List Byte) : Package :=
  p.paWrite ((p.gate g).logbase.toNat + 128 * ((p.gate g).loghead.toNat % max (p.gate g).logsize.toNat 1)) entry

/-- A gate that logs, and whose ring has room, writes the entry, and stamps and accepts. -/
theorem drain_logged (hlog : s.pkg.logging g = true) (hroom : (s.pkg.gate g).ringFull = false) : (s.pkg.modGate g (Gate.withhold a)).drainGate s.clk g =
    ((s.pkg.logWrite g (s.pkg.arrivalEntry s.clk.mcyc g a)).modGate g fun y => (s.pkg.gate g).restamp s.clk.mcyc { y with loghead := y.loghead + 1, seq := y.seq + 1 }).accept
      ((s.pkg.gate g).nextStamp s.clk.mcyc).1 g a := by
  have hturn := gateTurn_withheld hg hrun hmode hin hdig hre
  rw [if_neg (hlog.trans_ne Bool.false_ne_true.symm), if_pos hroom] at hturn
  rw [drainGate_taken (withheld_ingress hg hin a) hp hturn, stampPiece_last hp, gate_modGate_self hg, if_pos rfl]
  refine congrArg (fun q : Package => q.accept ((s.pkg.gate g).nextStamp s.clk.mcyc).1 g a) ?_
  rw [Package.writeEntry, gate_modGate_self hg, modGate_modGate,
    show ∀ n l, (s.pkg.modGate g (Gate.withhold a)).paWrite n l = (s.pkg.paWrite n l).modGate g (Gate.withhold a) from fun _ _ => rfl, modGate_modGate]
  refine modGate_congr ?_
  have hgate : ∀ n l, (s.pkg.paWrite n l).gate g = s.pkg.gate g := fun _ _ => rfl
  simp only [hgate, Gate.stamped, Gate.withhold, Gate.restamp, hin, List.nil_append, List.drop_one, List.tail_cons]
  rfl

/-- A gate whose ring is full breaks the replay under LOSSY and logs no more. -/
theorem drain_lossy (hlog : s.pkg.logging g = true) (hfull : (s.pkg.gate g).ringFull = true) (hlossy : s.pkg.win.lossy.getLsbD g = true) :
    (s.pkg.modGate g (Gate.withhold a)).drainGate s.clk g =
      ((s.pkg.breakReplay s.clk g 0).modGate g fun y => (s.pkg.gate g).restamp s.clk.mcyc { y with off := true }).accept ((s.pkg.gate g).nextStamp s.clk.mcyc).1 g a := by
  have hturn := gateTurn_withheld hg hrun hmode hin hdig hre
  rw [if_neg (hlog.trans_ne Bool.false_ne_true.symm), if_neg (hfull.trans_ne Bool.false_ne_true.symm), if_pos hlossy] at hturn
  rw [drainGate_taken (withheld_ingress hg hin a) hp hturn, stampPiece_last hp, if_neg Bool.false_ne_true, modGate_modGate,
    show ∀ f, (s.pkg.modGate g f).breakReplay s.clk g 0 = (s.pkg.breakReplay s.clk g 0).modGate g f from fun _ => rfl,
    gate_modGate_self (p := s.pkg.breakReplay s.clk g 0) hg, modGate_modGate]
  refine congrArg (fun q : Package => q.accept ((s.pkg.gate g).nextStamp s.clk.mcyc).1 g a) (modGate_congr ?_)
  have hgate : (s.pkg.breakReplay s.clk g 0).gate g = s.pkg.gate g := rfl
  simp only [hgate, Gate.stamped, Gate.withhold, Gate.restamp, hin, List.nil_append, List.drop_one, List.tail_cons]
  rfl

/-- Telemetry that finds its ring full is dropped. -/
theorem drain_dropped (hlog : s.pkg.logging g = true) (hfull : (s.pkg.gate g).ringFull = true) (hlossy : s.pkg.win.lossy.getLsbD g = false) (he : g = 13) :
    (s.pkg.modGate g (Gate.withhold a)).drainGate s.clk g = s.pkg.count Config.errTELDROP Config.max16 := by
  have hturn := gateTurn_withheld hg hrun hmode hin hdig hre
  rw [if_neg (hlog.trans_ne Bool.false_ne_true.symm), if_neg (hfull.trans_ne Bool.false_ne_true.symm), if_neg (Bool.eq_false_iff.1 hlossy), if_pos he, modGate_modGate] at hturn
  rw [drainGate_taken (withheld_ingress hg hin a) hp hturn, modGate_same]
  rw [Gate.withhold, ← hin]
  simp only [hin, List.nil_append, List.drop_one, List.tail_cons]
  rw [← hin]

end

end Sys2Proof.Machine
end

section
/-! SUPPORT. GATE_ACCEPT and REPLAY_INJECT (Sys2Proof/Machine/Gates.lean: R318, R321 to R323, R367, R385). -/

namespace Sys2Proof.Machine

/-! What a gate does with an arrival before it stamps it (R2, R321, R367). -/

theorem gatePresent_iff (s : State) (g : Nat) : s.pkg.gatePresent g = true ↔ GateThere s g := by
  simp [Package.gatePresent, Package.present, GateThere]

theorem gateAcceptAt_absent {s : State} {g : Nat} (h : ¬ GateThere s g) (a : Arrival) : gateAcceptAt g a s.clk s.pkg = s.pkg := by
  rw [← gatePresent_iff, Bool.not_eq_true] at h
  exact if_pos (by rw [h]; rfl)

section
variable {s : State} {g : Nat} (h : GateThere s g)
include h

theorem gateAcceptAt_serviceWrite (off : Nat) (data : List Byte) : gateAcceptAt g (.barWrite 0 4 off data) s.clk s.pkg = serviceAccess off data.length data s.pkg := by
  rw [← gatePresent_iff] at h
  rw [gateAcceptAt, h]
  rfl

theorem gateAcceptAt_serviceRead (off len : Nat) : gateAcceptAt g (.barRead 0 4 off len) s.clk s.pkg = serviceAccess off len [] s.pkg := by
  rw [← gatePresent_iff] at h
  rw [gateAcceptAt, h]
  rfl

theorem gateAcceptAt_live {off : Nat} {data : List Byte} (hoff : LiveRegister off) (hal : off % 8 = 0) (hlen : data.length = 8) :
    gateAcceptAt g (.barWrite 0 0 off data) s.clk s.pkg = s.pkg.hostWindow s.clk off (BitVec.ofNat 64 (ofLe data)) true := by
  have hlive : (Arrival.barWrite 0 0 off data).liveWrite? = some (off, BitVec.ofNat 64 (ofLe data)) := by
    simp only [Arrival.liveWrite?, hlen, accessOk, hal, decide_true, Bool.true_and, Bool.true_or, if_true, (liveRegister_iff off).2 hoff]
  rw [← gatePresent_iff] at h
  refine (if_neg (by rw [h]; exact Bool.false_ne_true)).trans ?_
  simp only [hlive]

/-- An arrival that is stamped is withheld first, and its gate then takes what it may. -/
theorem gateAcceptAt_stamped {a : Arrival} (ha : StampedArrival a) : gateAcceptAt g a s.clk s.pkg = (s.pkg.modGate g (Gate.withhold a)).drainGate s.clk g := by
  obtain ⟨hwrite, hread, hlive, -, -⟩ := ha
  rw [← gatePresent_iff] at h
  refine (if_neg (by rw [h]; exact Bool.false_ne_true)).trans ?_
  split
  next off data => exact absurd rfl (hwrite off data)
  next off len => exact absurd rfl (hread off len)
  next => simp only [hlive] <;> rfl

end

/-! What the acceptance of an arrival makes of its gate, as the statements say it. -/

section
variable {s : State} {g : Nat} {a : Arrival} (hats : ∀ pasid va l, a ≠ .atsInvalidate pasid va l) {p : Package} {f : Gate → Gate}
include hats

theorem restamp_accept (hkept : ∀ q, p.arrivalPart a = some q → (p.part q).recov = false) :
    (p.modGate g fun y => (s.pkg.gate g).restamp s.clk.mcyc (f y)).accept ((s.pkg.gate g).nextStamp s.clk.mcyc).1 g a = p.modGate g fun y => AcceptedAt s g a (f y) := by
  rw [accept_unjournaled (p := p.modGate g _) hats hkept, modGate_modGate]
  exact congrArg (p.modGate g) (funext fun y => (acceptedAt_eq s g a (f y)).symm)

theorem restamp_journal {k : Nat} (hk : p.arrivalPart a = some k) (h : (p.part k).recov = true) :
    (p.modGate g fun y => (s.pkg.gate g).restamp s.clk.mcyc (f y)).accept ((s.pkg.gate g).nextStamp s.clk.mcyc).1 g a =
      (p.modGate g fun y => AcceptedAt s g a (f y)).modRecovery k fun r => { r with arrivals := r.arrivals ++ [(((s.pkg.gate g).nextStamp s.clk.mcyc).1, g, a)] } := by
  rw [accept_journaled (p := p.modGate g _) hats hk h, modGate_modGate]
  exact congrArg (fun f => (p.modGate g f).modRecovery k fun r => { r with arrivals := r.arrivals ++ [(((s.pkg.gate g).nextStamp s.clk.mcyc).1, g, a)] })
    (funext fun y => (acceptedAt_eq s g a (f y)).symm)

end

theorem acceptedAt_stamp (s : State) (g : Nat) (a : Arrival) (x : Gate) : (AcceptedAt s g a x).stampAt = ((s.pkg.gate g).nextStamp s.clk.mcyc).1
    ∧ (AcceptedAt s g a x).stampPiece - 1 = ((s.pkg.gate g).nextStamp s.clk.mcyc).2 := by
  rw [acceptedAt_eq]
  exact ⟨rfl, Nat.add_sub_cancel ..⟩

/-! REPLAY_INJECT (R323, R324). -/

/-- A field of the entry at LOGHEAD of a gate. -/
def Package.entryField (p : Package) (g off len : Nat) : Nat := ofLe (((p.ringEntry g).drop off).take len)

/-- The payload of the entry at LOGHEAD of a gate. -/
def Package.entryPayload (p : Package) (g : Nat) : List Byte := ((p.ringEntry g).drop 32).take (p.entryField g 14 1)

/-- The arrival that the entry at LOGHEAD of a gate completes. -/
def Package.entryArrival (p : Package) (g : Nat) : Option Arrival :=
  parseArrival (p.entryField g 12 1) (p.entryField g 16 4) (((p.ringEntry g).drop 96).take 32) ((p.gate g).partialData ++ p.entryPayload g)

/-- The entry at LOGHEAD of a gate is due (R324). -/
def Package.EntryDue (p : Package) (t g : Nat) : Prop :=
  if p.entryField g 12 1 = 0x40 ∧ (p.gate g).digests = [] then p.entryField g 0 8 < t else p.entryField g 0 8 ≤ t

theorem entryDue_iff (p : Package) (t g : Nat) : p.entryDue t g = true ↔ p.EntryDue t g := by
  have hcond : (decide (p.entryField g 12 1 = 0x40) && (p.gate g).digests.isEmpty) = true ↔ p.entryField g 12 1 = 0x40 ∧ (p.gate g).digests = [] := by
    rw [Bool.and_eq_true, decide_eq_true_eq, List.isEmpty_iff]
  by_cases h : p.entryField g 12 1 = 0x40 ∧ (p.gate g).digests = []
  · rw [Package.EntryDue, if_pos h]
    exact (Bool.eq_iff_iff.1 (if_pos (hcond.2 h))).trans decide_eq_true_iff
  · rw [Package.EntryDue, if_neg h]
    exact (Bool.eq_iff_iff.1 (if_neg fun hb => h (hcond.1 hb))).trans decide_eq_true_iff

section
variable {p : Package} {g : Nat} {k : Clock}

/-- A gate that does not inject, whose ring is empty or whose next entry is not due does nothing. -/
theorem replayInjectAt_idle (h : p.injecting g = false ∨ (p.gate g).loghead = (p.gate g).logtail ∨ ¬ p.EntryDue k.mcyc g) : replayInjectAt g k p = p := by
  refine if_pos ?_
  rw [← entryDue_iff, Bool.not_eq_true] at h
  rw [Bool.or_eq_true, Bool.or_eq_true, Bool.not_eq_true', Bool.not_eq_true', Gate.ringEmpty, decide_eq_true_eq, or_assoc]
  exact h

variable (hinj : p.injecting g = true) (hring : (p.gate g).loghead ≠ (p.gate g).logtail) (hdue : p.EntryDue k.mcyc g)
include hinj hring hdue

theorem replayInjectAt_acts : replayInjectAt g k p =
    if p.entryField g 12 1 = 0x40 then
      if (p.gate g).digests.head? = some (p.entryPayload g) then p.modGate g fun x => { x with loghead := x.loghead + 1, digests := x.digests.drop 1 }
      else (p.modGate g fun x => { x with loghead := x.loghead + 1, digests := x.digests.drop 1 }).breakReplay k g 1
    else
      match if p.entryField g 13 1 / 128 = 1 then p.entryArrival g else none with
      | some a => ((p.modGate g fun x => { x with loghead := x.loghead + 1, partialData := if p.entryField g 13 1 / 128 = 1 then [] else (p.gate g).partialData ++ p.entryPayload g }).flitInjected
          g a).accept (p.entryField g 0 8) g a
      | none => p.modGate g fun x => { x with loghead := x.loghead + 1, partialData := if p.entryField g 13 1 / 128 = 1 then [] else (p.gate g).partialData ++ p.entryPayload g } := by
  have hno : ¬ (!p.injecting g || (p.gate g).ringEmpty || !p.entryDue k.mcyc g) = true := by
    rw [hinj, (entryDue_iff p k.mcyc g).2 hdue, Gate.ringEmpty, decide_eq_false hring]
    exact Bool.false_ne_true
  refine (if_neg hno).trans (if_congr Iff.rfl (if_congr Iff.rfl rfl rfl) ?_)
  rfl

/-- A digest that agrees. -/
theorem replayInjectAt_digest (hkind : p.entryField g 12 1 = 0x40) (h : (p.gate g).digests.head? = some (p.entryPayload g)) :
    replayInjectAt g k p = p.modGate g fun x => { x with loghead := x.loghead + 1, digests := x.digests.drop 1 } := by
  rw [replayInjectAt_acts hinj hring hdue, if_pos hkind, if_pos h]

/-- A digest that does not agree breaks the replay. -/
theorem replayInjectAt_breaks (hkind : p.entryField g 12 1 = 0x40) (h : (p.gate g).digests.head? ≠ some (p.entryPayload g)) :
    replayInjectAt g k p = (p.modGate g fun x => { x with loghead := x.loghead + 1, digests := x.digests.drop 1 }).breakReplay k g 1 := by
  rw [replayInjectAt_acts hinj hring hdue, if_pos hkind, if_neg h]

/-- A piece that is not the last of its arrival. -/
theorem replayInjectAt_piece (hkind : p.entryField g 12 1 ≠ 0x40) (h : p.entryField g 13 1 < 128) :
    replayInjectAt g k p = p.modGate g fun x => { x with loghead := x.loghead + 1, partialData := (p.gate g).partialData ++ p.entryPayload g } := by
  have hlast : ¬ p.entryField g 13 1 / 128 = 1 := by omega
  rw [replayInjectAt_acts hinj hring hdue, if_neg hkind]
  simp only [if_neg hlast]

variable (hkind : p.entryField g 12 1 ≠ 0x40) (hlo : 128 ≤ p.entryField g 13 1) (hhi : p.entryField g 13 1 < 256)
include hkind hlo hhi

theorem replayInjectAt_last : replayInjectAt g k p =
    match p.entryArrival g with
    | some a => ((p.modGate g fun x => { x with loghead := x.loghead + 1, partialData := [] }).flitInjected g a).accept (p.entryField g 0 8) g a
    | none => p.modGate g fun x => { x with loghead := x.loghead + 1, partialData := [] } := by
  have hlast : p.entryField g 13 1 / 128 = 1 := by omega
  rw [replayInjectAt_acts hinj hring hdue, if_neg hkind]
  simp only [if_pos hlast]

theorem replayInjectAt_arrival {a : Arrival} (h : p.entryArrival g = some a) : replayInjectAt g k p =
    ((p.modGate g fun x => { x with loghead := x.loghead + 1, partialData := [] }).flitInjected g a).accept (p.entryField g 0 8) g a := by
  rw [replayInjectAt_last hinj hring hdue hkind hlo hhi, h]

end

/-- No partition's recovery concerns a flit. -/
theorem accept_flit (p : Package) (c g : Nat) (f : Flit) : p.accept c g (.flit f) = p.modGate g (Gate.withEffect c (.flit f)) := rfl

theorem flitInjected_other {a : Arrival} (h : ∀ f, a ≠ .flit f) (p : Package) (g : Nat) : p.flitInjected g a = p := by
  cases a with
  | flit f => exact absurd rfl (h f)
  | _ => rfl

end Sys2Proof.Machine

open Sys2Proof Sys2Proof.Machine in
/-- Settles O51: past what passes unstamped, an arrival is the turn of one withheld piece (`gateTurn_open`), and an injected entry is one acceptance. -/
theorem gates : Obligations.Gates := by
  refine ⟨fun s g a h => ?absent, fun s g off len data h => ⟨?serviceWrite, ?serviceRead⟩, fun s g off data h hoff hal hlen => ?live, fun s g a h ha hclosed => ?closed,
    fun s g a h ha hrun hmode hg hfree hin hdig => ?stamped, fun s g k a h ha hrun hmode hg hk hrec hre hin hdig hlog => ?journaled, fun s g => ⟨fun hidle => ?idle, fun hinj hring hdue => ?acts⟩⟩
  case absent => rw [exec_gateAccept, gateAcceptAt_absent h]
  case serviceWrite => rw [exec_gateAccept, exec_serviceRegionAccess, gateAcceptAt_serviceWrite h]
  case serviceRead => rw [exec_gateAccept, exec_serviceRegionAccess, gateAcceptAt_serviceRead h]
  case live => rw [exec_gateAccept, gateAcceptAt_live h hoff hal hlen]; rfl
  case closed => exact congrArg (fun q => Host.Outcome.next { s with pkg := q }) ((gateAcceptAt_stamped h ha).trans (drainGate_closed (p := s.pkg.modGate g _) hclosed))
  case stamped =>
    obtain ⟨-, -, -, hats, hlen⟩ := id ha
    have hp := pieces_eq_one hlen
    have hre : ∀ q, s.pkg.arrivalPart a = some q → (s.pkg.recov q).errorOffset = none := fun q hq => (hfree q hq).2
    have hkept : ∀ q, s.pkg.arrivalPart a = some q → (s.pkg.part q).recov = false := fun q hq => (hfree q hq).1
    obtain ⟨hcycle, hnumber⟩ := acceptedAt_stamp s g a (s.pkg.gate g)
    rw [exec_gateAccept, gateAcceptAt_stamped h ha]
    refine ⟨fun hlog => ?_, fun hlog hroom => ?_, fun hlog hfull hlossy => ?_, fun hlog hfull hlossy hne => ?_, fun hlog hfull hlossy he => ?_⟩
    · rw [drain_unlogged hg hrun hmode hin hdig hre hp hlog]
      exact congrArg (fun q => Host.Outcome.next { s with pkg := q }) (restamp_accept (f := fun y => y) hats hkept)
    · rw [drain_logged hg hrun hmode hin hdig hre hp hlog (decide_eq_false hroom), hcycle, hnumber]
      exact congrArg (fun q => Host.Outcome.next { s with pkg := q }) (restamp_accept (f := fun y => { y with loghead := y.loghead + 1, seq := y.seq + 1 })
        (p := s.pkg.logWrite g (s.pkg.arrivalEntry s.clk.mcyc g a)) hats hkept)
    · rw [drain_lossy hg hrun hmode hin hdig hre hp hlog (decide_eq_true hfull) hlossy,
        restamp_accept (f := fun y => { y with off := true }) (p := s.pkg.breakReplay s.clk g 0) hats hkept]
      exact ⟨_, rfl, rfl, gate_modGate_self (p := s.pkg.breakReplay s.clk g 0) hg _⟩
    · rw [drain_withheld hg hrun hmode hin hdig hre hlog (decide_eq_true hfull) hlossy hne]
    · rw [drain_dropped hg hrun hmode hin hdig hre hp hlog (decide_eq_true hfull) hlossy he]
  case journaled =>
    obtain ⟨-, -, -, hats, hlen⟩ := id ha
    have hnone : ∀ q, s.pkg.arrivalPart a = some q → (s.pkg.recov q).errorOffset = none := fun q hq => by
      obtain rfl := Option.some.inj (hk.symm.trans hq)
      exact hre
    rw [exec_gateAccept, gateAcceptAt_stamped h ha, drain_unlogged hg hrun hmode hin hdig hnone (pieces_eq_one hlen) hlog, (acceptedAt_stamp s g a (s.pkg.gate g)).1]
    exact congrArg (fun q => Host.Outcome.next { s with pkg := q }) (restamp_journal (f := fun y => y) hats hk hrec)
  case idle => rw [exec_replayInject, replayInjectAt_idle hidle]
  case acts =>
    rw [exec_replayInject]
    refine ⟨fun hkind hsame => ?_, fun hkind hdiffer => ?_, fun hkind hmore => ?_, fun hkind hlo hhi => ⟨fun hnone => ?_, fun a ha hats hflit => ⟨fun hkept => ?_, fun k hk hrec => ?_⟩, fun f hf hport => ?_⟩⟩
    · rw [replayInjectAt_digest hinj hring hdue hkind hsame]
    · rw [replayInjectAt_breaks hinj hring hdue hkind hdiffer]
      exact ⟨_, rfl, rfl, rfl⟩
    · rw [replayInjectAt_piece hinj hring hdue hkind hmore]
      rfl
    · have hno : s.pkg.entryArrival g = none := Option.eq_none_iff_forall_ne_some.2 hnone
      rw [replayInjectAt_last hinj hring hdue hkind hlo hhi, hno]
    · rw [replayInjectAt_arrival hinj hring hdue hkind hlo hhi ha, flitInjected_other hflit, accept_unjournaled (p := s.pkg.modGate g _) hats hkept, modGate_modGate]
      rfl
    · rw [replayInjectAt_arrival hinj hring hdue hkind hlo hhi ha, flitInjected_other hflit, accept_journaled (p := s.pkg.modGate g _) hats hk hrec, modGate_modGate]
      rfl
    · rw [replayInjectAt_arrival hinj hring hdue hkind hlo hhi hf, accept_flit]
      exact ⟨_, rfl, congrArg HousePort.expect (modAt_getD_self _ _ _ _ hport), modAt_modAt ..⟩

end

section
/-! SUPPORT. The house links and what a peer's flits do (Sys2Proof/Machine/House.lean: R2, R314 to R316, R325, R376, R411). -/

namespace Sys2Proof.Machine

theorem exec_houseFlitReceive (port : Nat) (f : Flit) (bad : Bool) (s : State) :
    exec (.houseFlitReceive port f bad) s = .next { s with pkg := houseReceiveAt port f bad s.pkg } := rfl

theorem exec_houseResendRequest (port seq : Nat) (s : State) : exec (.houseResendRequest port seq) s = .next { s with pkg := houseResendAt port seq s.pkg } := rfl

theorem exec_houseFlitDeliver (port : Nat) (s : State) : exec (.houseFlitDeliver port) s = .next { s with pkg := houseDeliverAt port s.clk s.pkg } := rfl

theorem exec_endToEndAck (port : Nat) (f : Flit) (s : State) : exec (.endToEndAck port f) s = .next { s with pkg := endToEndAckAt port f s.pkg } := rfl

theorem exec_houseManagementFlit (port : Nat) (f : Flit) (s : State) :
    exec (.houseManagementFlit port f) s = .next { s with pkg := houseManagementAt port f s.clk s.pkg } := rfl

theorem exec_timeSyncExchange (port : Nat) (s : State) : exec (.timeSyncExchange port) s = .next { s with pkg := timeSyncAt port s.clk s.pkg } := rfl

/-! A port of the package. -/

theorem modPort_congr {p : Package} {i : Nat} {f g : HousePort → HousePort} (h : f (p.port i) = g (p.port i)) : p.modPort i f = p.modPort i g := by
  refine congrArg (fun l => { p with ports := l }) (modAt_congr fun x hx => ?_)
  obtain rfl : p.port i = x := by rw [Package.port, List.getD_eq_getElem?_getD, hx]; rfl
  exact h

theorem modPort_same {p : Package} {i : Nat} {f : HousePort → HousePort} (h : f (p.port i) = p.port i) : p.modPort i f = p :=
  (modPort_congr (g := fun x => x) h).trans (congrArg (fun l => { p with ports := l }) (modAt_id p.ports i))

theorem port_modPort_self {p : Package} {i : Nat} (h : i < p.ports.length) (f : HousePort → HousePort) : (p.modPort i f).port i = f (p.port i) :=
  modAt_getD_self _ _ _ _ h

/-! A flit received (R315). -/

theorem wants_iff (x : HousePort) (f : Flit) : x.wants f.seq = true ↔ Wanted x f := by
  simp [HousePort.wants, Wanted]

/-- A good flit at a port: the window entries that it acknowledges are freed, and it enters the reorder buffer where it is wanted. -/
def HousePort.receive (f : Flit) (x : HousePort) : HousePort :=
  if (x.acked f.ack).wants f.seq then { x.acked f.ack with reorder := x.reorder ++ [f], asks := x.asks.filter (· ≠ f.seq) } else x.acked f.ack

theorem receive_wanted {x : HousePort} {f : Flit} (h : Wanted x f) : x.receive f = { x.acked f.ack with reorder := x.reorder ++ [f], asks := x.asks.filter (· ≠ f.seq) } :=
  if_pos ((wants_iff x f).2 h)

theorem receive_unwanted {x : HousePort} {f : Flit} (h : ¬ Wanted x f) : x.receive f = x.acked f.ack :=
  if_neg fun hw => h ((wants_iff x f).1 hw)

section
variable {s : State} {port : Nat} {f : Flit}

theorem houseReceiveAt_absent (h : ¬ GateThere s (port + 1)) (bad : Bool) : houseReceiveAt port f bad s.pkg = s.pkg := by
  rw [← gatePresent_iff, Bool.not_eq_true] at h
  exact if_pos (by rw [h]; rfl)

variable (h : GateThere s (port + 1))
include h

theorem houseReceiveAt_bad : houseReceiveAt port f true s.pkg = s.pkg.modPort port fun x => if x.wants f.seq then { x with asks := x.asks ++ [f.seq] } else x := by
  rw [← gatePresent_iff] at h
  exact (if_neg (by rw [h]; exact Bool.false_ne_true)).trans (if_pos rfl)

theorem houseReceiveAt_good : houseReceiveAt port f false s.pkg = (s.pkg.modPort port (HousePort.receive f)).later .now (.houseFlitDeliver port) := by
  rw [← gatePresent_iff] at h
  exact (if_neg (by rw [h]; exact Bool.false_ne_true)).trans (if_neg Bool.false_ne_true)

theorem houseReceiveAt_asks (hw : Wanted (s.pkg.port port) f) : houseReceiveAt port f true s.pkg = s.pkg.modPort port fun x => { x with asks := x.asks ++ [f.seq] } := by
  rw [houseReceiveAt_bad h]
  exact modPort_congr (if_pos ((wants_iff _ f).2 hw))

theorem houseReceiveAt_ignores (hw : ¬ Wanted (s.pkg.port port) f) : houseReceiveAt port f true s.pkg = s.pkg := by
  rw [houseReceiveAt_bad h]
  exact modPort_same (if_neg fun hb => hw ((wants_iff _ f).1 hb))

end

/-! The delivery of the next flit in order (R315, R316). -/

section
variable {s : State} {port : Nat} {f : Flit} (hf : (s.pkg.port port).reorder.find? (fun f => decide (f.seq = (s.pkg.port port).expect)) = some f)
include hf

theorem houseDeliverAt_next : houseDeliverAt port s.clk s.pkg =
    if !(((s.pkg.modGate (port + 1) (Gate.withhold (.flit f))).drainGate s.clk (port + 1)).gate (port + 1)).ingress.isEmpty then s.pkg
    else (((s.pkg.modGate (port + 1) (Gate.withhold (.flit f))).drainGate s.clk (port + 1)).modPort port fun x =>
      { x with expect := x.expect + 1, reorder := x.reorder.filter fun y => y.seq ≠ f.seq }).later .now (.houseFlitDeliver port) := by
  simp only [houseDeliverAt, hf]
  rfl

variable (hg : port + 1 < s.pkg.gates.length)
include hg

theorem houseDeliverAt_withheld (hclosed : s.clk.run = .frozen ∨ s.pkg.win.gatemodeCur = 2) : houseDeliverAt port s.clk s.pkg = s.pkg := by
  rw [houseDeliverAt_next hf, drainGate_closed (p := s.pkg.modGate _ _) hclosed, gate_modGate_self hg]
  refine if_pos ?_
  rw [Gate.withhold]
  simp

theorem houseDeliverAt_delivered (hrun : s.clk.run = .running) (hmode : s.pkg.win.gatemodeCur = 0) (hin : (s.pkg.gate (port + 1)).ingress = [])
    (hdig : (s.pkg.gate (port + 1)).digests = []) : houseDeliverAt port s.clk s.pkg = ((s.pkg.modGate (port + 1) (AcceptedAt s (port + 1) (.flit f))).modPort port fun x =>
      { x with expect := x.expect + 1, reorder := x.reorder.filter fun y => y.seq ≠ f.seq }).later .now (.houseFlitDeliver port) := by
  have hlog : s.pkg.logging (port + 1) = false := by
    rw [Package.logging, hmode]
    rfl
  have hpieces : (Arrival.flit f).pieces = 1 := pieces_eq_one ((List.length_take_le _ _))
  have hdrain := drain_unlogged (a := .flit f) hg hrun (hmode.trans_ne (by decide)) hin hdig (fun q (h : none = some q) => by cases h) hpieces hlog
  rw [accept_flit, modGate_modGate] at hdrain
  have haccepted : (s.pkg.modGate (port + 1) (Gate.withhold (.flit f))).drainGate s.clk (port + 1) = s.pkg.modGate (port + 1) (AcceptedAt s (port + 1) (.flit f)) :=
    hdrain.trans (congrArg (s.pkg.modGate (port + 1)) (funext fun x => (acceptedAt_eq s (port + 1) (.flit f) x).symm))
  rw [houseDeliverAt_next hf, haccepted, gate_modGate_self hg]
  exact if_neg (by rw [acceptedAt_eq, Gate.withEffect, Gate.restamp, hin]; exact Bool.false_ne_true)

end

/-! Time alignment (R325). -/

theorem houseManagementAt_other {f : Flit} (h : 3 < Config.alignKind f.payload) (port : Nat) (k : Clock) (p : Package) : houseManagementAt port f k p = p := by
  rw [houseManagementAt]
  split
  case h_5 => rfl
  all_goals omega

/-- The two messages that begin an exchange leave one after the other. -/
theorem timeSyncAt_sends (port : Nat) (k : Clock) (p : Package) : timeSyncAt port k p =
    { (p.modPort port fun x => { x with leader := true, t1 := k.mcyc }) with
      due := p.due ++ [FlitSent port 7 0 (Config.alignFlit 0 0), FlitSent port 7 0 (Config.alignFlit 1 k.mcyc)] } :=
  congrArg (fun due => { (p.modPort port fun x => { x with leader := true, t1 := k.mcyc }) with due }) (List.append_assoc p.due [_] [_])

end Sys2Proof.Machine

open Sys2Proof Sys2Proof.Machine in
/-- Settles O53: a flit received is one change of its port, a flit delivered is one acceptance at its gate; the rest are the peer's accesses and the four messages. -/
theorem houseLinksAndTraffic : Obligations.HouseLinksAndTraffic := by
  refine ⟨fun s port f bad h => ?absent, fun s port f hport h => ⟨fun hw => ?asks, fun hw => ?ignores, ?receives⟩, fun s port seq => ⟨fun hn => ?noEntry, fun f hf => ?resends⟩,
    fun s port bad => ?scrub, fun s port => ⟨fun hn => ?nothing, fun f hf hg hclosed => ?withheld, fun f hf hg hport hrun hmode hin hdig => ?delivered⟩,
    fun s port f => ⟨fun hn => ?noOrigin, fun o ho => ?acks⟩, fun s port f => ⟨rfl, rfl, rfl, rfl, rfl⟩,
    fun s port f => ⟨fun hk => ?sync, fun hk => ?followUp, fun hk => ?delayRequest, fun hk => ?delayReply, fun hk => ?other⟩, fun s port => ?exchange⟩
  case absent => rw [exec_houseFlitReceive, houseReceiveAt_absent h]
  case asks => rw [exec_houseFlitReceive, houseReceiveAt_asks h hw]
  case ignores => rw [exec_houseFlitReceive, houseReceiveAt_ignores h hw]
  case receives =>
    intro kept more
    rw [exec_houseFlitReceive, houseReceiveAt_good h]
    refine ⟨_, _, rfl, port_modPort_self hport _, ?_⟩
    by_cases hw : Wanted (s.pkg.port port) f
    · rw [receive_wanted hw]
      exact ⟨rfl, rfl, rfl, rfl, rfl, fun _ => ⟨rfl, rfl⟩, fun hn => absurd hw hn⟩
    · rw [receive_unwanted hw]
      exact ⟨rfl, rfl, rfl, rfl, rfl, fun hy => absurd hy hw, fun _ => ⟨rfl, rfl⟩⟩
  case noEntry => simp only [exec_houseResendRequest, houseResendAt, hn]
  case resends => simp only [exec_houseResendRequest, houseResendAt, hf]
  case scrub => cases bad <;> rfl
  case nothing =>
    have hnone : (s.pkg.port port).reorder.find? (fun f => decide (f.seq = (s.pkg.port port).expect)) = none := List.find?_eq_none.2 fun f hf => by simpa using hn f hf
    simp only [exec_houseFlitDeliver, houseDeliverAt, hnone]
  case withheld => rw [exec_houseFlitDeliver, houseDeliverAt_withheld hf hg hclosed]
  case delivered => rw [exec_houseFlitDeliver, houseDeliverAt_delivered hf hg hrun hmode hin hdig]
  case noOrigin => simp only [exec_endToEndAck, endToEndAckAt, hn]
  case acks => simp only [exec_endToEndAck, endToEndAckAt, ho]
  case sync => simp only [exec_houseManagementFlit, houseManagementAt, hk]; rfl
  case followUp => simp only [exec_houseManagementFlit, houseManagementAt, hk]; rfl
  case delayRequest => simp only [exec_houseManagementFlit, houseManagementAt, hk]; rfl
  case delayReply => simp only [exec_houseManagementFlit, houseManagementAt, hk]; rfl
  case other =>
    rw [exec_houseManagementFlit, houseManagementAt_other hk]
  case exchange => rw [exec_timeSyncExchange, timeSyncAt_sends]

end

section
/-! SUPPORT. The epoch start (R352, R358, R360 to R362): each fold of it changes one list of the package, an element for each index, and the clearing spends at most
the tokens left. -/

namespace Sys2Proof.Machine

theorem exec_epochStart (s : State) : exec .epochStart s = .next { s with pkg := epochStartAt s.clk s.pkg } := rfl

/-! A fold in which each element changes its own place. -/

theorem foldl_untouched {α β γ ι : Type} {f : β → α → β} {key : α → ι} {view : β → ι → γ} (hother : ∀ y a j, j ≠ key a → view (f y a) j = view y j) {l : List α} {j : ι}
    (hj : j ∉ l.map key) (y : β) : view (l.foldl f y) j = view y j :=
  List.foldlRecOn (motive := fun z => view z j = view y j) l f rfl fun z hz a ha => (hother z a j fun e => hj (e ▸ List.mem_map_of_mem ha)).trans hz

theorem foldl_each {α β γ ι : Type} {f : β → α → β} {key : α → ι} {view : β → ι → γ} {R : α → γ → γ → Prop} (hself : ∀ y a, R a (view y (key a)) (view (f y a) (key a)))
    (hother : ∀ y a j, j ≠ key a → view (f y a) j = view y j) {l : List α} (hn : (l.map key).Nodup) {a : α} (ha : a ∈ l) (y : β) :
    R a (view y (key a)) (view (l.foldl f y) (key a)) := by
  obtain ⟨l1, l2, rfl⟩ := List.append_of_mem ha
  rw [List.map_append, List.map_cons] at hn
  obtain ⟨hout, -⟩ := List.nodup_cons.1 (List.nodup_middle.1 hn)
  rw [List.mem_append, not_or] at hout
  rw [List.foldl_append, List.foldl_cons, foldl_untouched hother hout.2]
  exact foldl_untouched hother hout.1 y ▸ hself _ a

/-- Two folds agree whose steps agree where an invariant of the second one holds. -/
theorem foldl_congr_of {α β : Type} {f g : β → α → β} {I : β → Prop} (hI : ∀ y a, I y → I (g y a)) (h : ∀ y a, I y → f y a = g y a) (l : List α) {y : β} (hy : I y) :
    l.foldl f y = l.foldl g y := by
  induction l generalizing y with
  | nil => rfl
  | cons a l ih => rw [List.foldl_cons, List.foldl_cons, h y a hy, ih (hI y a hy)]

/-! Elements by their place. -/

theorem companies_modCompany (p : Package) (m : Nat) (f : Company → Company) : (p.modCompany m f).companies[m]? = p.companies[m]?.map f :=
  (modAt_get? ..).trans (if_pos rfl)

theorem companies_modCompany_ne (p : Package) {m j : Nat} (f : Company → Company) (h : j ≠ m) : (p.modCompany m f).companies[j]? = p.companies[j]? :=
  (modAt_get? ..).trans (if_neg h)

theorem company_of_get? {p : Package} {m : Nat} {c : Company} (h : p.companies[m]? = some c) : p.company m = c := by
  rw [Package.company, List.getD_eq_getElem?_getD, h]
  rfl

theorem vault_of_get? {p : Package} {v : Nat} {x : Vault} (h : p.vaults[v]? = some x) : p.vault v = x := by
  rw [Package.vault, List.getD_eq_getElem?_getD, h]
  rfl

theorem get?_company {p : Package} {m : Nat} (h : m < p.companies.length) : p.companies[m]? = some (p.company m) := by
  rw [Package.company, List.getD_eq_getElem _ _ h, List.getElem?_eq_getElem h]

theorem get?_vault {p : Package} {v : Nat} (h : v < p.vaults.length) : p.vaults[v]? = some (p.vault v) := by
  rw [Package.vault, List.getD_eq_getElem _ _ h, List.getElem?_eq_getElem h]

theorem nodup_presentCompanies (p : Package) : p.presentCompanies.Nodup := List.nodup_range.filter _

theorem lt_of_presentCompany {p : Package} {m : Nat} (h : m ∈ p.presentCompanies) : m < 32 := List.mem_range.1 (List.mem_of_mem_filter h)

/-! Order by rank is a permutation. -/

theorem perm_insertRank {α : Type} (rank : α → Nat) (x : α) (l : List α) : (insertRank rank x l).Perm (x :: l) := by
  induction l with
  | nil => exact .refl _
  | cons y l ih =>
    unfold insertRank
    split
    · exact .refl _
    · exact (ih.cons y).trans (.swap x y l)

theorem perm_byRank {α : Type} (rank : α → Nat) (l : List α) : (byRank rank l).Perm l := by
  have hacc : ∀ a : List α, (l.foldl (fun a x => insertRank rank x a) a).Perm (l ++ a) := by
    induction l with
    | nil => exact fun a => .refl _
    | cons x l ih => exact fun a => (ih _).trans (((perm_insertRank rank x a).append_left l).trans List.perm_middle)
  exact (hacc []).trans (.of_eq (List.append_nil l))

/-! The classes of the vaults (R269). -/

theorem classOf_eq (temp : Nat) :
    classOf temp = if 400 ≤ temp then 4 else if 360 ≤ temp then 3 else if 320 ≤ temp then 2 else if 260 ≤ temp then 1 else 0 := by
  have hfilter : (List.range 5).filter (fun c => classBound c ≤ temp) = [0, 1, 2, 3, 4].filter fun c => classBound c ≤ temp := rfl
  rw [classOf, hfilter]
  split_ifs with h4 h3 h2 h1
  · simp [List.filter, classBound, h4, show 360 ≤ temp by omega, show 320 ≤ temp by omega, show 260 ≤ temp by omega]
  · simp [List.filter, classBound, h4, h3, show 320 ≤ temp by omega, show 260 ≤ temp by omega]
  · simp [List.filter, classBound, h4, h3, h2, show 260 ≤ temp by omega]
  · simp [List.filter, classBound, h4, h3, h2, h1]
  · simp [List.filter, classBound, h4, h3, h2, h1]

theorem classBound_mono : ∀ d ≤ 4, ∀ c ≤ d, classBound c ≤ classBound d := by decide

theorem classOf_spec (temp : Nat) : classOf temp ≤ 4 ∧ classBound (classOf temp) ≤ temp ∧ ∀ d, classOf temp < d → d ≤ 4 → temp < classBound d := by
  have habove : ∀ c, (c < 4 → temp < classBound (c + 1)) → ∀ d, c < d → d ≤ 4 → temp < classBound d := fun c h d hc hd =>
    (h (hc.trans_le hd)).trans_le (classBound_mono d hd (c + 1) hc)
  rw [classOf_eq]
  split_ifs with h4 h3 h2 h1
  · exact ⟨le_rfl, h4, habove 4 fun h => absurd h (lt_irrefl 4)⟩
  · exact ⟨by decide, h3, habove 3 fun _ => not_le.1 h4⟩
  · exact ⟨by decide, h2, habove 2 fun _ => not_le.1 h3⟩
  · exact ⟨by decide, h1, habove 1 fun _ => not_le.1 h2⟩
  · exact ⟨by decide, Nat.zero_le temp, habove 0 fun _ => not_le.1 h1⟩

theorem classStep_nextClass (cls temp : Nat) : ClassStep cls temp (nextClass cls temp) := by
  obtain ⟨hle, hbound, habove⟩ := classOf_spec temp
  exact ⟨classOf temp, hle, hbound, habove, rfl⟩

/-- A vault whose class is decided. -/
def Vault.decided (x : Vault) : Vault := { x with vclass := if x.stamped then nextClass x.vclass x.vtemp else 4, stamped := false, refpos := 0 }

theorem decideClass_eq (p : Package) (v : Nat) : ∃ es, p.decideClass v = { p.modVault v Vault.decided with errors := es } := by
  rw [Package.decideClass]
  by_cases h : (p.vault v).stamped = true
  · exact ⟨_, if_pos h⟩
  · exact ⟨_, if_neg h⟩

theorem decideAll_rest (l : List Nat) (p : Package) : ∃ vs es, l.foldl Package.decideClass p = { p with vaults := vs, errors := es } :=
  List.foldlRecOn (motive := fun q => ∃ vs es, q = { p with vaults := vs, errors := es }) l _ ⟨_, _, rfl⟩ fun q ⟨vs, es, hq⟩ v _ => by
    obtain ⟨es', h⟩ := decideClass_eq q v
    exact ⟨_, es', by rw [h, hq]; rfl⟩

theorem decideAll_vault {p : Package} {v : Nat} {l : List Nat} (hn : l.Nodup) (hv : v ∈ l) :
    (l.foldl Package.decideClass p).vaults[v]? = p.vaults[v]?.map Vault.decided := by
  refine foldl_each (key := id) (view := fun p v => p.vaults[v]?) (R := fun _ x y => y = x.map Vault.decided) (fun q v => ?_) (fun q v j hj => ?_) (by simpa using hn) hv p
  · obtain ⟨es, h⟩ := decideClass_eq q v
    rw [h]
    exact (modAt_get? ..).trans (if_pos rfl)
  · obtain ⟨es, h⟩ := decideClass_eq q v
    rw [h]
    exact (modAt_get? ..).trans (if_neg hj)

/-- No partition re-executes or keeps a recovery record: classes and grants are those decided. -/
def Package.NoRecov (p : Package) : Prop := ∀ m, p.recovOf m = none

theorem NoRecov.of_parts {p q : Package} (h : p.NoRecov) (hq : q.parts = p.parts) : q.NoRecov := fun m => by
  rw [← h m, Package.recovOf, Package.recovOf]
  simp only [Package.part, hq]

theorem takeClass_of_noRecov {p : Package} (h : p.NoRecov) (t : Clock) (v : Nat) : p.takeClass t v = p := by
  rw [Package.takeClass]
  simp only [h (companyOf v)]

theorem takeGrant_of_noRecov {p : Package} (h : p.NoRecov) (t : Clock) (m g : Nat) : p.takeGrant t m g = p.modCompany m fun c => { c with grant := g } := by
  rw [Package.takeGrant]
  simp only [h m]

theorem decideClass_noRecov (p : Package) (v : Nat) (h : p.NoRecov) : (p.decideClass v).NoRecov := by
  obtain ⟨es, he⟩ := decideClass_eq p v
  exact NoRecov.of_parts h (by rw [he]; rfl)

theorem decideAll_of_noRecov {p : Package} (h : p.NoRecov) (t : Clock) (l : List Nat) :
    l.foldl (fun (p : Package) v => (p.decideClass v).takeClass t v) p = l.foldl Package.decideClass p :=
  foldl_congr_of decideClass_noRecov (fun q v hq => takeClass_of_noRecov (decideClass_noRecov q v hq) t v) l h

/-! Bids, grants and sequences: one company each. -/

/-- A company whose bid is taken (R352, R360). -/
def Company.bade (c : Company) (lvl : Nat) : Company :=
  { c with bidlvl := lvl, bidvt := bidValue c.charge c.actc c.stallc lvl, charge := [0, 0, 0, 0], actc := 0, stallc := 0 }

/-- Only the companies of the package differ. -/
def CompaniesOnly (p q : Package) : Prop := ∃ cs, q = { p with companies := cs }

theorem CompaniesOnly.foldl {α : Type} {f : Package → α → Package} (h : ∀ p a, CompaniesOnly p (f p a)) (l : List α) (p : Package) : CompaniesOnly p (l.foldl f p) :=
  List.foldlRecOn (motive := CompaniesOnly p) l f ⟨_, rfl⟩ fun q ⟨cs, hq⟩ a _ => by
    obtain ⟨cs', h⟩ := h q a
    exact ⟨cs', by rw [h, hq]⟩

theorem bidAll_rest (l : List Nat) (p : Package) : CompaniesOnly p (l.foldl Package.bid p) := .foldl (fun _ _ => ⟨_, rfl⟩) l p

theorem bidAll_company {p : Package} {m : Nat} {l : List Nat} (hn : l.Nodup) (hm : m ∈ l) :
    ∃ lvl, (l.foldl Package.bid p).companies[m]? = p.companies[m]?.map fun c => c.bade lvl :=
  foldl_each (f := Package.bid) (key := id) (view := fun p m => p.companies[m]?) (R := fun _ x y => ∃ lvl, y = x.map fun c => c.bade lvl) (fun q m => ⟨q.bidLevel m, companies_modCompany ..⟩)
    (fun q m j hj => companies_modCompany_ne _ _ hj) (by simpa using hn) hm p

/-- The grants of the clearing taken by the companies. -/
def Package.giveGrant (p : Package) (g : Nat × Nat) : Package := p.modCompany g.1 fun c => { c with grant := g.2 }

theorem giveGrants_rest (l : List (Nat × Nat)) (p : Package) : CompaniesOnly p (l.foldl Package.giveGrant p) := .foldl (fun _ _ => ⟨_, rfl⟩) l p

theorem giveGrants_company {p : Package} {g : Nat × Nat} {l : List (Nat × Nat)} (hn : (l.map Prod.fst).Nodup) (hg : g ∈ l) :
    (l.foldl Package.giveGrant p).companies[g.1]? = p.companies[g.1]?.map fun c => { c with grant := g.2 } :=
  foldl_each (f := Package.giveGrant) (key := Prod.fst) (view := fun p m => p.companies[m]?) (R := fun g x y => y = x.map fun c => { c with grant := g.2 }) (fun _ _ => companies_modCompany ..)
    (fun _ _ _ hj => companies_modCompany_ne _ _ hj) hn hg p

theorem giveGrants_of_noRecov {p : Package} (h : p.NoRecov) (t : Clock) (l : List (Nat × Nat)) :
    l.foldl (fun (p : Package) g => p.takeGrant t g.1 g.2) p = l.foldl Package.giveGrant p :=
  foldl_congr_of (g := Package.giveGrant) (I := Package.NoRecov) (fun _ _ hq => NoRecov.of_parts hq rfl) (fun _ g hq => takeGrant_of_noRecov hq t g.1 g.2) l h

theorem startSeqs_rest (tick : Nat) (l : List Nat) (p : Package) : CompaniesOnly p (l.foldl (fun (p : Package) m => p.modCompany m fun c => c.startSeq tick) p) :=
  .foldl (fun _ _ => ⟨_, rfl⟩) l p

theorem startSeqs_company {p : Package} {m : Nat} {l : List Nat} (hn : l.Nodup) (hm : m ∈ l) (tick : Nat) :
    (l.foldl (fun (p : Package) m => p.modCompany m fun c => c.startSeq tick) p).companies[m]? = p.companies[m]?.map fun c => c.startSeq tick :=
  foldl_each (key := id) (view := fun (p : Package) m => p.companies[m]?) (R := fun _ x y => y = x.map fun c : Company => c.startSeq tick) (fun _ _ => companies_modCompany ..)
    (fun _ _ _ hj => companies_modCompany_ne _ _ hj) (by simpa using hn) hm p

/-! The clearing (R361). -/

theorem affordable_le (left : Int) (n : Nat) : affordable left n ≤ n := by
  induction n with
  | zero => exact le_rfl
  | succ n ih =>
    unfold affordable
    split
    · exact le_rfl
    · exact ih.trans (Nat.le_succ n)

/-- Tokens of a level above level 0. -/
def gradeCost (n : Nat) : Int := ((2 * n + n * n / 16 : Nat) : Int)

theorem levelCost_sub (n : Nat) : (levelCost n : Int) - (levelCost 0 : Int) = gradeCost n := by
  simp only [levelCost, gradeCost]
  omega

theorem gradeCost_affordable (left : Int) (n : Nat) : gradeCost (affordable left n) ≤ max left 0 := by
  induction n with
  | zero =>
    have hzero : gradeCost (affordable left 0) = 0 := by simp [affordable, gradeCost]
    exact hzero ▸ le_max_right left 0
  | succ n ih =>
    unfold affordable
    split
    case isTrue h => exact levelCost_sub (n + 1) ▸ h
    case isFalse => exact ih

theorem clearing_fst (p : Package) (left : Int) (l : List Nat) : (p.clearing left l).map Prod.fst = l := by
  induction l generalizing left with
  | nil => rfl
  | cons m l ih => exact congrArg (m :: ·) (ih _)

theorem clearing_le {p : Package} {left : Int} {l : List Nat} {g : Nat × Nat} (h : g ∈ p.clearing left l) : g.2 ≤ (p.company g.1).bidlvl := by
  induction l generalizing left with
  | nil => cases h
  | cons m l ih =>
    rcases List.mem_cons.1 h with rfl | h
    · exact affordable_le left _
    · exact ih h

theorem clearing_fits {p : Package} {G : Nat → Nat} {left : Int} {l : List Nat} (h : ∀ g ∈ p.clearing left l, G g.1 = g.2) :
    (l.map fun m => gradeCost (G m)).sum ≤ max left 0 := by
  induction l generalizing left with
  | nil => exact le_max_right left 0
  | cons m l ih =>
    obtain ⟨hm, hl⟩ := List.forall_mem_cons.1 h
    have hfirst := gradeCost_affordable left (p.company m).bidlvl
    have hrest := ih hl
    rw [levelCost_sub] at hrest
    rw [List.map_cons, List.sum_cons, hm]
    have hpos : 0 ≤ gradeCost (affordable left (p.company m).bidlvl) := Int.natCast_nonneg _
    simp only
    omega

/-! The refresh charge (R362), and what the prompter sees (R333). -/

theorem chargeAll_get? (p : Package) (tick i : Nat) : (p.chargeAll tick).cores[i]? = p.cores[i]?.map fun k => k.chargeRefresh tick (p.vault i).vclass := by
  rw [Package.chargeAll, List.getElem?_map, List.getElem?_zipIdx, Option.map_map]
  simp [Function.comp_def]

/-- A cast that has paid for the refresh of its core's vault. -/
def Cast.paid (c : Cast) (tick cls kchg : Nat) : Cast :=
  { c with before := { tick := tick, growok := c.growok, shrinkreq := c.shrinkreq, refrcost := c.refrcost },
           refrcost := c.refrcost + BitVec.ofNat 64 (refreshShare cls c.cchg kchg), cchg := 0 }

theorem refreshShare_eq (cls cchg kchg : Nat) : refreshShare cls cchg kchg = refreshExtra cls * cchg / kchg := by
  rw [refreshShare]
  split
  case isTrue h => rw [h, Nat.div_zero]
  case isFalse => rfl

theorem chargeAll_cast? (p : Package) (tick core cslot : Nat) :
    (p.chargeAll tick).cast? core cslot = (p.cast? core cslot).map fun c => c.paid tick (p.vault core).vclass (p.core core).kchg := by
  rw [Package.cast?, Package.cast?, chargeAll_get?, Package.core, List.getD_eq_getElem?_getD]
  cases p.cores[core]? with
  | none => rfl
  | some k =>
    simp only [Option.map_some, Option.bind_some, Core.chargeRefresh, List.getElem?_map]
    cases k.ctx.casts[cslot]? with
    | none => rfl
    | some c => rfl

theorem chargeAll_kchg (p : Package) (tick core : Nat) : ((p.chargeAll tick).core core).kchg = 0 := by
  rw [Package.core, List.getD_eq_getElem?_getD, chargeAll_get?]
  cases p.cores[core]? with
  | none => rfl
  | some k => rfl

theorem kchg_modCast (p : Package) (c k : Nat) (f : Cast → Cast) (c' : Nat) : ((p.modCast c k f).core c').kchg = (p.core c').kchg :=
  core_modCore_keeps (g := Core.kchg) (f := fun x => { x with ctx := { x.ctx with casts := modAt x.ctx.casts k (·.map f) } }) (fun _ => rfl) p c c'

/-- The cast `u` is `c` but for GROWOK and SHRINKREQ. -/
def Prompted (c u : Cast) : Prop := u = { c with growok := u.growok, shrinkreq := u.shrinkreq }

theorem cast?_modCast (p : Package) (c k c' k' : Nat) (f : Cast → Cast) :
    (p.modCast c k f).cast? c' k' = if c' = c ∧ k' = k then (p.cast? c' k').map f else p.cast? c' k' := by
  by_cases hc : c' = c
  · subst hc
    by_cases hk : k' = k
    · subst hk
      rw [if_pos ⟨rfl, rfl⟩, cast?_modCast_self]
    · rw [if_neg fun h => hk h.2]
      simp only [Package.cast?, Package.modCast, Package.modCtx, Package.modCore, modAt_get?, if_true]
      cases p.cores[c']? with
      | none => rfl
      | some x => simp only [Option.map_some, Option.bind_some, modAt_get?, if_neg hk]
  · rw [if_neg fun h => hc h.1]
    simp only [Package.cast?, Package.modCast, Package.modCtx, Package.modCore, modAt_get?, if_neg hc]

/-- The step to a package in which casts differ in GROWOK and SHRINKREQ alone. -/
structure Prompts (p q : Package) : Prop where
  rest : ∃ ks, q = { p with cores := ks }
  casts : ∀ core cslot c, p.cast? core cslot = some c → ∃ u, q.cast? core cslot = some u ∧ Prompted c u
  kchg : ∀ core, (q.core core).kchg = (p.core core).kchg

theorem Prompts.refl (p : Package) : Prompts p p := ⟨⟨_, rfl⟩, fun _ _ c h => ⟨c, h, rfl⟩, fun _ => rfl⟩

theorem Prompts.trans {p q r : Package} (h : Prompts p q) (h' : Prompts q r) : Prompts p r where
  rest := by
    obtain ⟨ks, rfl⟩ := h.rest
    obtain ⟨ks', rfl⟩ := h'.rest
    exact ⟨ks', rfl⟩
  casts core cslot c hc := by
    obtain ⟨u, hu, hcu⟩ := h.casts core cslot c hc
    obtain ⟨w, hw, huw⟩ := h'.casts core cslot u hu
    exact ⟨w, hw, huw.trans (by rw [hcu])⟩
  kchg core := (h'.kchg core).trans (h.kchg core)

theorem prompts_growShrink (p : Package) (core cslot : Nat) (demands : List (Nat × Nat)) : Prompts p (p.growShrink core cslot demands) where
  rest := ⟨_, rfl⟩
  casts c k x hx := by
    rw [Package.growShrink, cast?_modCast, hx]
    split
    · exact ⟨_, rfl, rfl⟩
    · exact ⟨x, rfl, rfl⟩
  kchg c := kchg_modCast p core cslot _ c

theorem prompts_growShrinkAll (p : Package) : Prompts p p.growShrinkAll :=
  List.foldlRecOn (motive := Prompts p) p.casts _ (.refl p) fun q hq e _ => by
    split
    case h_1 => exact hq.trans (prompts_growShrink q _ _ _)
    case h_2 => exact hq

/-! The epoch start as a whole. -/

/-- The package when the refresh is charged and the classes are decided. -/
def Package.classesIn (p : Package) (tick : Nat) : Package := (p.chargeAll tick).presentVaults.foldl Package.decideClass (p.chargeAll tick)

/-- The package when the bids are in. -/
def Package.bidsIn (p : Package) (tick : Nat) : Package := (p.classesIn tick).presentCompanies.foldl Package.bid (p.classesIn tick)

/-- The grants of the clearing. -/
def Package.grantList (p : Package) : List (Nat × Nat) := p.clearing p.tokensLeft p.clearOrder

/-- The package when the grants are given. -/
def Package.granted (p : Package) (tick : Nat) : Package := (p.bidsIn tick).grantList.foldl Package.giveGrant (p.bidsIn tick)

/-- The package when the sequences to the grants are started. -/
def Package.cleared (p : Package) (tick : Nat) : Package :=
  (p.granted tick).presentCompanies.foldl (fun (p : Package) m => p.modCompany m fun c => c.startSeq tick) (p.granted tick)

theorem classesIn_rest (p : Package) (tick : Nat) : ∃ vs es, p.classesIn tick = { p.chargeAll tick with vaults := vs, errors := es } := decideAll_rest _ _

theorem bidsIn_rest (p : Package) (tick : Nat) : CompaniesOnly (p.classesIn tick) (p.bidsIn tick) := bidAll_rest _ _

theorem granted_rest (p : Package) (tick : Nat) : CompaniesOnly (p.bidsIn tick) (p.granted tick) := giveGrants_rest _ _

theorem cleared_rest (p : Package) (tick : Nat) : CompaniesOnly (p.granted tick) (p.cleared tick) := startSeqs_rest _ _ _

theorem CompaniesOnly.presentCompanies {p q : Package} (h : CompaniesOnly p q) : q.presentCompanies = p.presentCompanies := by
  obtain ⟨_, rfl⟩ := h
  rfl

theorem CompaniesOnly.cores {p q : Package} (h : CompaniesOnly p q) : q.cores = p.cores := by
  obtain ⟨_, rfl⟩ := h
  rfl

theorem CompaniesOnly.vaults {p q : Package} (h : CompaniesOnly p q) : q.vaults = p.vaults := by
  obtain ⟨_, rfl⟩ := h
  rfl

theorem CompaniesOnly.parts {p q : Package} (h : CompaniesOnly p q) : q.parts = p.parts := by
  obtain ⟨_, rfl⟩ := h
  rfl

theorem presentCompanies_classesIn (p : Package) (tick : Nat) : (p.classesIn tick).presentCompanies = p.presentCompanies := by
  obtain ⟨vs, es, h⟩ := classesIn_rest p tick
  rw [h]
  rfl

theorem presentCompanies_bidsIn (p : Package) (tick : Nat) : (p.bidsIn tick).presentCompanies = p.presentCompanies :=
  (bidsIn_rest p tick).presentCompanies.trans (presentCompanies_classesIn p tick)

theorem presentCompanies_granted (p : Package) (tick : Nat) : (p.granted tick).presentCompanies = p.presentCompanies :=
  (granted_rest p tick).presentCompanies.trans (presentCompanies_bidsIn p tick)

theorem companies_classesIn (p : Package) (tick : Nat) : (p.classesIn tick).companies = p.companies := by
  obtain ⟨vs, es, h⟩ := classesIn_rest p tick
  rw [h]
  rfl

theorem cores_cleared (p : Package) (tick : Nat) : (p.cleared tick).cores = (p.chargeAll tick).cores := by
  obtain ⟨vs, es, h⟩ := classesIn_rest p tick
  rw [(cleared_rest p tick).cores, (granted_rest p tick).cores, (bidsIn_rest p tick).cores, h]

theorem vaults_cleared (p : Package) (tick : Nat) : (p.cleared tick).vaults = (p.classesIn tick).vaults := by
  rw [(cleared_rest p tick).vaults, (granted_rest p tick).vaults, (bidsIn_rest p tick).vaults]

theorem vault_cleared {p : Package} {v : Nat} (hlen : p.vaults.length = 256) (hv : v < 256) (hpres : p.present (v / 64) = true) (tick : Nat) :
    (p.cleared tick).vault v = (p.vault v).decided := by
  have hmem : v ∈ (p.chargeAll tick).presentVaults := List.mem_filter.2 ⟨List.mem_range.2 hv, hpres⟩
  have hdecided : (p.cleared tick).vaults[v]? = (p.chargeAll tick).vaults[v]?.map Vault.decided :=
    (congrArg (·[v]?) (vaults_cleared p tick)).trans (decideAll_vault (List.nodup_range.filter _) hmem)
  have hthere : (p.chargeAll tick).vaults[v]? = some (p.vault v) := get?_vault (hlen ▸ hv)
  exact vault_of_get? (hdecided.trans (by rw [hthere]; rfl))

/-! What a present company comes to. -/

theorem grantList_fst (p : Package) : (p.grantList.map Prod.fst).Perm p.presentCompanies := by
  rw [Package.grantList, clearing_fst]
  exact perm_byRank _ _

theorem bidsIn_company {p : Package} {m : Nat} (hm : m ∈ p.presentCompanies) (hlen : p.companies.length = 32) (tick : Nat) :
    ∃ lvl, (p.bidsIn tick).companies[m]? = some ((p.company m).bade lvl) := by
  obtain ⟨lvl, h⟩ := bidAll_company (p := p.classesIn tick) (nodup_presentCompanies _) ((presentCompanies_classesIn p tick).symm ▸ hm)
  refine ⟨lvl, h.trans ?_⟩
  rw [companies_classesIn, get?_company (hlen ▸ lt_of_presentCompany hm)]
  rfl

/-- Each present company has the grant of its entry in the clearing. -/
theorem granted_company {p : Package} {m : Nat} (hm : m ∈ p.presentCompanies) (hlen : p.companies.length = 32) (tick : Nat) :
    ∃ lvl g, (m, g) ∈ (p.bidsIn tick).grantList ∧ g ≤ lvl ∧ (p.cleared tick).company m = ({ (p.company m).bade lvl with grant := g } : Company).startSeq tick := by
  obtain ⟨lvl, hbid⟩ := bidsIn_company hm hlen tick
  have hperm := grantList_fst (p.bidsIn tick)
  rw [presentCompanies_bidsIn] at hperm
  obtain ⟨⟨m', g⟩, hg, rfl⟩ := List.mem_map.1 (hperm.mem_iff.2 hm)
  have hgrant := giveGrants_company (p := p.bidsIn tick) (hperm.nodup_iff.2 (nodup_presentCompanies p)) hg
  have hstart := startSeqs_company (p := p.granted tick) (nodup_presentCompanies _) ((presentCompanies_granted p tick).symm ▸ hm) tick
  have hle := clearing_le hg
  rw [company_of_get? hbid] at hle
  refine ⟨lvl, g, hg, hle, company_of_get? (hstart.trans ?_)⟩
  rw [Package.granted, hgrant, hbid]
  rfl

theorem startSeq_cases (c : Company) (tick : Nat) : ((c.level = c.grant ∨ c.gatedNow = true) ∧ c.startSeq tick = c)
    ∨ (c.level ≠ c.grant ∧ c.gatedNow = false ∧ c.startSeq tick = { c with seq := some { source := c.level, target := c.grant, start := tick + 1 } }) := by
  by_cases h : c.level = c.grant ∨ c.gatedNow = true
  · exact .inl ⟨h, if_pos (by simpa using h)⟩
  · rw [not_or, Bool.not_eq_true] at h
    exact .inr ⟨h.1, h.2, if_neg (by simpa using h)⟩

theorem startSeq_grant (c : Company) (tick : Nat) : (c.startSeq tick).grant = c.grant := by
  obtain ⟨-, h⟩ | ⟨-, -, h⟩ := startSeq_cases c tick
  · rw [h]
  · rw [h]

/-- The tokens left before the clearing do not depend on the bids. -/
theorem tokensLeft_bidsIn {p : Package} (hlen : p.companies.length = 32) (tick : Nat) : (p.bidsIn tick).tokensLeft = p.tokensLeft := by
  obtain ⟨vs, es, hc⟩ := classesIn_rest p tick
  obtain ⟨cs, hb⟩ := bidsIn_rest p tick
  have hgrants : p.presentCompanies.map (fun m => (levelCost ((p.bidsIn tick).company m).grant : Int)) = p.presentCompanies.map fun m => (levelCost (p.company m).grant : Int) := by
    refine List.map_congr_left fun m hm => ?_
    obtain ⟨lvl, h⟩ := bidsIn_company hm hlen tick
    rw [company_of_get? h]
    rfl
  have hstages : (p.bidsIn tick).presentStages = p.presentStages := by rw [hb, hc]; rfl
  have hwin : (p.bidsIn tick).win = p.win := by rw [hb, hc]; rfl
  have hcurrent : (p.bidsIn tick).current = p.current := by rw [hb, hc]; rfl
  simp only [Package.tokensLeft, presentCompanies_bidsIn, hgrants, hstages, hwin, hcurrent]

/-- What is granted fits the tokens left under the cap (R361). -/
theorem cleared_fits {p : Package} (hlen : p.companies.length = 32) (tick : Nat) :
    (p.presentCompanies.map fun m => gradeCost ((p.cleared tick).company m).grant).foldl (· + ·) 0 ≤ max p.tokensLeft 0 := by
  have hperm : (p.bidsIn tick).clearOrder.Perm p.presentCompanies := presentCompanies_bidsIn p tick ▸ perm_byRank _ _
  have hnodup : ((p.bidsIn tick).grantList.map Prod.fst).Nodup := by
    rw [Package.grantList, clearing_fst]
    exact hperm.nodup_iff.2 (nodup_presentCompanies p)
  have hgrant : ∀ g ∈ (p.bidsIn tick).clearing (p.bidsIn tick).tokensLeft (p.bidsIn tick).clearOrder, ((p.cleared tick).company g.1).grant = g.2 := by
    intro g hg
    have hfst : g.1 ∈ (p.bidsIn tick).clearOrder := (congrArg (g.1 ∈ ·) (clearing_fst ..)).mp (List.mem_map_of_mem hg)
    have hm : g.1 ∈ p.presentCompanies := hperm.mem_iff.1 hfst
    obtain ⟨lvl, x, hx, -, hcompany⟩ := granted_company hm hlen tick
    rw [hcompany, startSeq_grant, ← Prod.mk.inj (List.inj_on_of_nodup_map hnodup hx hg rfl) |>.2]
  rw [← List.sum_eq_foldl, ← (hperm.map _).sum_eq, ← tokensLeft_bidsIn hlen tick]
  exact clearing_fits hgrant

theorem epochStartAt_quiet {t : Clock} (h : t.rtick = 0 ∨ t.rtick % 250 ≠ 0) (p : Package) : epochStartAt t p = p :=
  if_pos (by rwa [Bool.or_eq_true, decide_eq_true_eq, decide_eq_true_eq])

theorem epochStartAt_eq {t : Clock} {p : Package} (h0 : t.rtick ≠ 0) (h : t.rtick % 250 = 0) (hrec : p.NoRecov) :
    epochStartAt t p = (p.cleared t.rtick).growShrinkAll := by
  have hon : ¬ (t.rtick = 0 || t.rtick % epochTicks ≠ 0) = true := by simp [epochTicks, h0, h]
  have hclasses : (p.chargeAll t.rtick).presentVaults.foldl (fun (p : Package) v => (p.decideClass v).takeClass t v) (p.chargeAll t.rtick) = p.classesIn t.rtick :=
    decideAll_of_noRecov (p := p.chargeAll t.rtick) (NoRecov.of_parts hrec rfl) t _
  have hparts : (p.bidsIn t.rtick).parts = p.parts := by
    obtain ⟨vs, es, hc⟩ := classesIn_rest p t.rtick
    rw [(bidsIn_rest p t.rtick).parts, hc]
    rfl
  have hgrants : (p.bidsIn t.rtick).grantList.foldl (fun (p : Package) g => p.takeGrant t g.1 g.2) (p.bidsIn t.rtick) = p.granted t.rtick :=
    giveGrants_of_noRecov (NoRecov.of_parts hrec hparts) t _
  rw [epochStartAt, if_neg hon]
  simp only [hclasses]
  exact congrArg (fun p : Package => (p.presentCompanies.foldl (fun (p : Package) m => p.modCompany m fun c => c.startSeq t.rtick) p).growShrinkAll) hgrants

end Sys2Proof.Machine

open Sys2Proof Sys2Proof.Machine in
/-- Settles O46: casts by the charge of their cores, vaults and companies by their folds, and the grants by the induction over the clearing. -/
theorem epochStart : Obligations.EpochStart := by
  refine ⟨fun s h => by rw [exec_epochStart, epochStartAt_quiet h], fun s h0 h hlen hvlen hrec => ?_⟩
  intro extra cost
  obtain ⟨⟨ks, hrest⟩, hcasts, hkchg⟩ := prompts_growShrinkAll (s.pkg.cleared s.clk.rtick)
  have hcharged := cores_cleared s.pkg s.clk.rtick
  have hvaults : ∀ v, (s.pkg.cleared s.clk.rtick).growShrinkAll.vault v = (s.pkg.cleared s.clk.rtick).vault v := fun v => by rw [hrest]; rfl
  have hcompanies : ∀ m, (s.pkg.cleared s.clk.rtick).growShrinkAll.company m = (s.pkg.cleared s.clk.rtick).company m := fun m => by rw [hrest]; rfl
  rw [exec_epochStart, epochStartAt_eq h0 h hrec]
  refine ⟨_, rfl, fun core cslot c hc => ?casts, fun core => ?charges, fun v hv hpres => ?classes, fun m hm => ?companies, ?tokens⟩
  case casts =>
    dsimp only
    have hpaid : (s.pkg.cleared s.clk.rtick).cast? core cslot = some (c.paid s.clk.rtick (s.pkg.vault core).vclass (s.pkg.core core).kchg) := by
      rw [Package.cast?, hcharged]
      exact (chargeAll_cast? s.pkg s.clk.rtick core cslot).trans (by rw [hc]; rfl)
    obtain ⟨u, hu, hprompt⟩ := hcasts core cslot _ hpaid
    refine ⟨u, hu, hprompt.trans ?_⟩
    rw [Cast.paid, refreshShare_eq]
    rfl
  case charges =>
    dsimp only
    refine (hkchg core).trans ?_
    rw [Package.core, hcharged]
    exact chargeAll_kchg s.pkg s.clk.rtick core
  case classes =>
    dsimp only
    rw [hvaults, vault_cleared hvlen hv hpres]
    exact ⟨rfl, rfl, fun hs => (congrArg (ClassStep _ _) (if_pos hs)).mpr (classStep_nextClass _ _), fun hs => if_neg (by rw [hs]; exact Bool.false_ne_true)⟩
  case companies =>
    obtain ⟨lvl, g, -, hle, hcompany⟩ := granted_company hm hlen s.clk.rtick
    dsimp only
    rw [hcompanies, hcompany]
    obtain ⟨hwhy, hsame⟩ | ⟨hdiff, -, hseq⟩ := startSeq_cases ({ (s.pkg.company m).bade lvl with grant := g } : Company) s.clk.rtick
    · rw [hsame]
      exact ⟨rfl, rfl, rfl, hle, rfl, fun hne hgated => (hwhy.elim hne fun hy => Bool.false_ne_true (hgated.symm.trans hy)).elim, fun _ => rfl⟩
    · rw [hseq]
      exact ⟨rfl, rfl, rfl, hle, rfl, fun _ _ => rfl, fun he => absurd he hdiff⟩
  case tokens =>
    simp only [hcompanies]
    exact cleared_fits hlen s.clk.rtick

end

section
/-! SUPPORT. The vault controllers (R268, R270, R272, R273): the request that is scheduled, the turns, and the bursts with their patrol. -/

namespace Sys2Proof.Machine

theorem exec_vaultRequest (v : Nat) (s : State) : exec (.vaultRequest v) s = .next { s with pkg := vaultRequestAt v s.clk s.pkg } := rfl

theorem exec_vaultTurnStart (v part : Nat) (s : State) : exec (.vaultTurnStart v part) s = .next { s with pkg := vaultTurnAt v part s.clk s.pkg } := rfl

theorem exec_refreshBurst (v : Nat) (s : State) : exec (.refreshBurst v) s = .next { s with pkg := refreshBurstAt v s.pkg } := rfl

theorem exec_frozenRefreshBurst (v : Nat) (s : State) : exec (.frozenRefreshBurst v) s = .next { s with pkg := frozenBurstAt v s.clk s.pkg } := rfl

theorem setAt_eq_set {α : Type} (l : List α) (i : Nat) (x : α) : setAt l i x = l.set i x := by
  refine List.ext_getElem? fun j => ?_
  rw [setAt, modAt_get?, List.getElem?_set]
  by_cases hj : j = i
  · subst hj
    rw [if_pos rfl, if_pos rfl]
    by_cases hlen : j < l.length
    · rw [if_pos hlen, List.getElem?_eq_getElem hlen]
      rfl
    · rw [if_neg hlen, List.getElem?_eq_none (not_lt.1 hlen)]
      rfl
  · rw [if_neg hj, if_neg (Ne.symm hj)]

theorem vault_modVault_self {p : Package} {v : Nat} (h : v < p.vaults.length) (f : Vault → Vault) : (p.modVault v f).vault v = f (p.vault v) :=
  modAt_getD_self _ _ _ _ h

/-! The request that is scheduled (R268). -/

/-- No request is scheduled: a burst or the cycles before one, or the precharge of a turn. -/
def VaultClosed (p : Package) (v mcyc : Nat) : Prop := (p.vault v).burst = true ∨ (p.vault v).quiet = true ∨ mcyc < (p.vault v).turnFrom

/-- The place in the queue of the oldest request that may be scheduled. -/
def Package.vaultPick (p : Package) (v : Nat) : Option Nat := findIdx? (fun q : VaultReq => p.vaultServes v q.part) (p.vault v).q

/-- The mesh cycle at which the data of a line come back (R268, Table 12.2). -/
def Vault.backAt (c : Vault) (line mcyc : Nat) : Nat := mcyc + if c.rows.getD (lineRow line).1 none = some (lineRow line).2 then 158 else 198

/-- A vault whose request `i`, for a line, has been scheduled. -/
def Vault.scheduled (c : Vault) (i line : Nat) : Vault := { c with q := c.q.eraseIdx i, rows := setAt c.rows (lineRow line).1 (some (lineRow line).2) }

/-- A fill that waits for a line with no time yet is given one. -/
def fillComes (line t : Nat) (f : Nat × Nat) : Nat × Nat := if f.1 = line && f.2 = 0 then (f.1, t) else f

/-- The vault looks at its queue again where one waits. -/
def Package.vaultAgain (p : Package) (v : Nat) : Package := if (p.vault v).q.isEmpty then p else p.later .now (.vaultRequest v)

/-- The fill of a slice comes with the data. -/
def Package.fillAt (p : Package) (q : VaultReq) (t : Nat) : Package :=
  if q.write then p else (p.modCompany q.company fun c => { c with fills := c.fills.map (fillComes q.line t) }).later (.mesh t) (.l2Fill q.company)

theorem vaultClosed_iff {p : Package} {v mcyc : Nat} :
    ((p.vault v).burst || (p.vault v).quiet || decide (mcyc < (p.vault v).turnFrom)) = true ↔ VaultClosed p v mcyc := by
  rw [Bool.or_eq_true, Bool.or_eq_true, decide_eq_true_eq, or_assoc, VaultClosed]

theorem vaultRequestAt_closed {p : Package} {v : Nat} {k : Clock} (h : VaultClosed p v k.mcyc) : vaultRequestAt v k p = p :=
  if_pos (vaultClosed_iff.2 h)

theorem vaultRequestAt_open {p : Package} {v : Nat} {k : Clock} (h : ¬ VaultClosed p v k.mcyc) : vaultRequestAt v k p =
    match (p.vaultPick v).bind fun i => ((p.vault v).q[i]?).map fun q => (i, q) with
    | none => p
    | some (i, q) => ((p.modVault v fun c => c.scheduled i q.line).vaultAgain v).fillAt q ((p.vault v).backAt q.line k.mcyc) :=
  if_neg fun hc => h (vaultClosed_iff.1 hc)

theorem vaultRequestAt_none {p : Package} {v : Nat} {k : Clock} (h : ∀ q ∈ (p.vault v).q, p.vaultServes v q.part = false) : vaultRequestAt v k p = p := by
  by_cases hc : VaultClosed p v k.mcyc
  · exact vaultRequestAt_closed hc
  · have hpick : p.vaultPick v = none := findIdx?_eq_none_iff.2 h
    rw [vaultRequestAt_open hc, hpick]
    rfl

theorem vaultRequestAt_picks {p : Package} {v i : Nat} {k : Clock} {r : VaultReq} (h : ¬ VaultClosed p v k.mcyc) (hr : (p.vault v).q[i]? = some r)
    (hserves : p.vaultServes v r.part = true) (hfirst : ∀ (j : Nat) (q : VaultReq), j < i → (p.vault v).q[j]? = some q → p.vaultServes v q.part = false) :
    vaultRequestAt v k p = ((p.modVault v fun c => c.scheduled i r.line).vaultAgain v).fillAt r ((p.vault v).backAt r.line k.mcyc) := by
  have hpick : p.vaultPick v = some i := findIdx?_eq_some_iff.2 ⟨⟨r, hr, hserves⟩, hfirst⟩
  rw [vaultRequestAt_open h, hpick]
  simp only [Option.bind_some, hr, Option.map_some]

/-- A vault with a request is one of the package's. -/
theorem lt_of_queued {p : Package} {v i : Nat} {r : VaultReq} (h : (p.vault v).q[i]? = some r) : v < p.vaults.length := by
  by_contra hge
  rw [Package.vault, List.getD_eq_default _ _ (not_lt.1 hge)] at h
  cases h

theorem vaultAgain_eq (p : Package) (v : Nat) :
    p.vaultAgain v = { p with due := p.due ++ if (p.vault v).q.isEmpty then [] else [{ at_ := .now, ev := .vaultRequest v }] } := by
  unfold Package.vaultAgain
  split
  · rw [List.append_nil]
  · rfl

theorem fillAt_write {q : VaultReq} (h : q.write = true) (p : Package) (t : Nat) : p.fillAt q t = p := if_pos h

theorem fillAt_read {q : VaultReq} (h : q.write = false) (p : Package) (t : Nat) :
    p.fillAt q t = (p.modCompany q.company fun c => { c with fills := c.fills.map (fillComes q.line t) }).later (.mesh t) (.l2Fill q.company) :=
  if_neg (by rw [h]; exact Bool.false_ne_true)

theorem vault_fillAt (q : VaultReq) (p : Package) (t v : Nat) : (p.fillAt q t).vault v = p.vault v := by
  unfold Package.fillAt
  split
  · rfl
  · rfl

theorem backAt_eq (c : Vault) (line mcyc : Nat) : c.backAt line mcyc = mcyc + if c.rows[(lineRow line).1]? = some (some (lineRow line).2) then 158 else 198 := by
  have hrow : c.rows.getD (lineRow line).1 none = some (lineRow line).2 ↔ c.rows[(lineRow line).1]? = some (some (lineRow line).2) := by
    rw [List.getD_eq_getElem?_getD]
    cases c.rows[(lineRow line).1]? with
    | none => simp
    | some x => simp
  rw [Vault.backAt]
  exact congrArg (mcyc + ·) (if_congr hrow rfl rfl)

theorem isEmpty_eraseIdx {α : Type} {l : List α} {i : Nat} {x : α} (h : l[i]? = some x) : (l.eraseIdx i).isEmpty = decide (l.length = 1) := by
  obtain ⟨hi, -⟩ := List.getElem?_eq_some_iff.1 h
  have hlen := List.length_eraseIdx_of_lt hi
  have hempty : (l.eraseIdx i).isEmpty = true ↔ l.length = 1 := by
    rw [List.isEmpty_iff, ← List.length_eq_zero_iff]
    omega
  exact Bool.eq_iff_iff.2 (hempty.trans decide_eq_true_iff.symm)

/-! The patrol (R270, R273). -/

/-- A vault at the start of a burst: every bank is precharged, and the patrol moves on. -/
def Vault.bursts (c : Vault) : Vault := { c with burst := true, rows := noRows, scrubptr := (c.scrubptr + 1) % vaultBlocks }

theorem refreshBurstAt_eq (v : Nat) (p : Package) : refreshBurstAt v p = (p.modVault v Vault.bursts).patrol v (p.vault v).scrubptr := rfl


/-- A vault's block as a sector of the DRAM. -/
def vaultSector (v block : Nat) : Nat := v * (Config.vaultSpan / 64) + block

theorem patrol_clean {p : Package} {v block : Nat} (h : p.badLayers (vaultSector v block) = []) : p.patrol v block = p := by
  rw [vaultSector] at h
  simp only [Package.patrol, h]

theorem patrol_corrects {p : Package} {v block l : Nat} (h : p.badLayers (vaultSector v block) = [l]) :
    p.patrol v block = ({ p with dramErr := tabErase p.dramErr (vaultSector v block) } : Package).count (Config.errDRAMCORR + v) Config.max32 := by
  rw [vaultSector] at h
  simp only [Package.patrol, h]
  rfl

theorem patrol_lost {p : Package} {v block : Nat} (h : 2 ≤ (p.badLayers (vaultSector v block)).length) :
    p.patrol v block = p.count (Config.errUNCORR + 288 + v) Config.max32 := by
  obtain ⟨a, b, l, hl⟩ : ∃ a b l, p.badLayers (vaultSector v block) = a :: b :: l := by
    match hl : p.badLayers (vaultSector v block), h with
    | a :: b :: l, _ => exact ⟨a, b, l, rfl⟩
  rw [vaultSector] at hl
  simp only [Package.patrol, hl]

/-- The patrol changes error counters and the marks of layers only. -/
theorem patrol_rest (p : Package) (v block : Nat) : ∃ es ds, p.patrol v block = { p with errors := es, dramErr := ds } := by
  unfold Package.patrol
  dsimp only
  split
  case h_1 => exact ⟨_, _, rfl⟩
  case h_2 => exact ⟨_, _, rfl⟩
  case h_3 => exact ⟨_, _, rfl⟩

end Sys2Proof.Machine

open Sys2Proof Sys2Proof.Machine in
/-- Settles O41: the queue by its first request that the vault serves, a burst by the three answers of the patrol. -/
theorem vaultEvents : Obligations.VaultEvents := by
  refine ⟨fun s v h => ?idle, fun s v i r hb hq ht hr hserves hfirst => ?serves, fun s v part => ⟨fun h => ?turnSame, fun h => ?turnOther⟩, fun s v hv => ?burst,
    fun s v => rfl, fun s v => ⟨fun h => ?running, fun h => ?frozen⟩⟩
  case idle =>
    rw [exec_vaultRequest]
    obtain h | h | h | h := h
    · rw [vaultRequestAt_closed (.inl h)]
    · rw [vaultRequestAt_closed (.inr (.inl h))]
    · rw [vaultRequestAt_closed (.inr (.inr h))]
    · rw [vaultRequestAt_none h]
  case serves =>
    intro row open_ at_ more
    have hopen : ¬ VaultClosed s.pkg v s.clk.mcyc := by
      rintro (hy | hy | hy)
      · exact Bool.false_ne_true (hb.symm.trans hy)
      · exact Bool.false_ne_true (hq.symm.trans hy)
      · exact absurd ht (not_le.2 hy)
    have hv : v < s.pkg.vaults.length := lt_of_queued hr
    have hvault := vault_modVault_self hv fun c => c.scheduled i r.line
    have hback : (s.pkg.vault v).backAt r.line s.clk.mcyc = at_ := backAt_eq _ _ _
    have hmore : (if ((s.pkg.modVault v fun c => c.scheduled i r.line).vault v).q.isEmpty then [] else [{ at_ := .now, ev := .vaultRequest v }]) = more := by
      rw [hvault, Vault.scheduled, isEmpty_eraseIdx hr]
      exact if_congr decide_eq_true_iff rfl rfl
    rw [exec_vaultRequest, vaultRequestAt_picks hopen hr hserves hfirst, vaultAgain_eq, hmore, hback]
    refine ⟨_, rfl, ?_, fun _ => ?_, fun hm => ?_⟩
    · cases hw : r.write
      · rw [fillAt_read hw, if_neg Bool.false_ne_true]
        rfl
      · rw [fillAt_write hw, if_pos rfl, List.append_nil]
        rfl
    · rw [vault_fillAt]
      exact hvault.trans (congrArg (fun l => { s.pkg.vault v with q := (s.pkg.vault v).q.eraseIdx i, rows := l }) (setAt_eq_set ..))
    · cases hw : r.write
      · rw [fillAt_read hw, if_neg Bool.false_ne_true]
        refine (congrArg Company.fills (company_modCompany_self _ _ _ hm)).trans (List.map_congr_left fun f _ => ?_)
        exact if_congr (by rw [Bool.and_eq_true, decide_eq_true_eq, decide_eq_true_eq]) rfl rfl
      · rw [fillAt_write hw, if_pos rfl]
        rfl
  case turnSame => rw [exec_vaultTurnStart, vaultTurnAt, if_pos h]
  case turnOther => rw [exec_vaultTurnStart, vaultTurnAt, if_neg h]; rfl
  case burst =>
    obtain ⟨es, ds, hrest⟩ := patrol_rest (s.pkg.modVault v Vault.bursts) v (s.pkg.vault v).scrubptr
    rw [exec_refreshBurst, refreshBurstAt_eq]
    refine ⟨_, rfl, ?_, ⟨fun hn => ?clean, fun l hl => ?corrects, fun h2 => ?lost⟩, ?_, ?_, ?_⟩
    case clean => rw [patrol_clean (p := s.pkg.modVault v Vault.bursts) hn]; exact ⟨rfl, rfl⟩
    case corrects =>
      rw [patrol_corrects (p := s.pkg.modVault v Vault.bursts) hl]
      exact ⟨rfl, congrArg (fun o : Option (List Nat) => o.getD []) ((tabGet_tabErase ..).trans (if_pos rfl))⟩
    case lost => rw [patrol_lost (p := s.pkg.modVault v Vault.bursts) h2]; exact ⟨rfl, rfl⟩
    · rw [hrest]
      exact vault_modVault_self hv _
    · rw [hrest]
      rfl
    · rw [hrest]
      rfl
    · rw [hrest]
      rfl
  case running => rw [exec_frozenRefreshBurst, frozenBurstAt, h, if_neg (by decide)]
  case frozen => rw [exec_frozenRefreshBurst, frozenBurstAt, if_pos h]

end

section
/-! SUPPORT. Configuration, swap and retirement in general (R274, R275, R340, R351): what a configuration writes, how the casts of a core stop and go on, the exchange of
one core, and the heirs of a slice. -/

namespace Sys2Proof.Machine

/-! Configuration (R340). -/

/-- A write of PARTCFG that is ignored. -/
def CfgIgnored (s : State) (k : Nat) (x : Quad) : Prop :=
  x.getLsbD 32 = false ∨ 8 ≤ k ∨ Overlaps s k (x.setWidth 32) ∨ (HoldsCasts s k ∧ x.setWidth 32 ≠ (s.pkg.part k).companies)

theorem cfgIgnored_iff (s : State) (k : Nat) (x : Quad) :
    (!x.getLsbD 32 || decide (8 ≤ k) || s.pkg.overlaps k (cfgMask x) || (s.pkg.holdsCasts k && decide (cfgMask x ≠ (s.pkg.part k).companies))) = true ↔ CfgIgnored s k x := by
  rw [Bool.or_eq_true, Bool.or_eq_true, Bool.or_eq_true, Bool.and_eq_true, Bool.not_eq_true', decide_eq_true_eq, decide_eq_true_eq, overlaps_iff, holdsCasts_iff, or_assoc, or_assoc]
  rfl

section
variable {s : State} {k : Nat} {x : Quad} {ctx : AddrContext}

theorem configureAt_ignored (h : CfgIgnored s k x) : configureAt k x ctx s.clk s.pkg = s.pkg := if_pos ((cfgIgnored_iff s k x).2 h)

variable (h : ¬ CfgIgnored s k x)
include h

theorem configureAt_waits {o : PlaneOp} (hop : s.pkg.planeOp = some o) (ho : o.in_ = k ∨ o.out = k) :
    configureAt k x ctx s.clk s.pkg = s.pkg.later (.tick (s.clk.rtick + 1)) (.partitionConfigure k x ctx) := by
  have hmine : (s.pkg.planeOp.any fun o => o.in_ = k || o.out = k) = true := by simpa [hop] using ho
  exact (if_neg (mt (cfgIgnored_iff s k x).1 h)).trans (if_pos hmine)

variable (hop : s.pkg.planeOp = none)
include hop

theorem configureAt_brings (hswapped : (s.pkg.part k).swapped = true) (hholds : HoldsCasts s k) : configureAt k x ctx s.clk s.pkg =
    ({ s.pkg with planeOp := some { out := k, in_ := k, mask := x.setWidth 32, dram := true, startedAt := none } } : Package).later .now .understudySwap := by
  have hback : ((s.pkg.part k).swapped && s.pkg.holdsCasts k) = true := by rw [hswapped, (holdsCasts_iff s k).2 hholds]; rfl
  refine (if_neg (mt (cfgIgnored_iff s k x).1 h)).trans ((if_neg ?_).trans ((if_pos hback).trans (if_neg ?_)))
  · rw [hop]; exact Bool.false_ne_true
  · rw [hop]; exact Bool.false_ne_true

theorem configureAt_writes (hfree : (s.pkg.part k).swapped = false ∨ ¬ HoldsCasts s k) : configureAt k x ctx s.clk s.pkg =
    if x.getLsbD 35 then (s.pkg.modPart k fun q => q.configured x true false ctx).repartition s.pkg
    else ((s.pkg.modPart k fun q => q.configured x true false ctx).repartition s.pkg).emptyFilters k := by
  have hback : ¬ ((s.pkg.part k).swapped && s.pkg.holdsCasts k) = true := by
    rw [Bool.and_eq_true, holdsCasts_iff, not_and_or, Bool.not_eq_true]
    exact hfree
  refine (if_neg (mt (cfgIgnored_iff s k x).1 h)).trans ((if_neg ?_).trans (if_neg hback))
  rw [hop]
  exact Bool.false_ne_true

theorem configureAt_takes (hfree : (s.pkg.part k).swapped = false ∨ ¬ HoldsCasts s k) : ∃ cs, configureAt k x ctx s.clk s.pkg =
    { (s.pkg.modPart k fun q => q.configured x true false ctx).repartition s.pkg with companies := cs } := by
  rw [configureAt_writes h hop hfree]
  split
  · exact ⟨_, rfl⟩
  · exact ⟨_, rfl⟩

end

theorem setRecov_counters (q : Partition) (on : Bool) : (q.setRecov on).recovery.rpmcyc = q.recovery.rpmcyc ∧ (q.setRecov on).recovery.rpseq = q.recovery.rpseq := by
  cases on
  · exact ⟨rfl, rfl⟩
  · exact ⟨rfl, rfl⟩

theorem cores_repartition (p old : Package) : (p.repartition old).cores = p.cores := by rw [(SlicesOnly.repartition p old).rest]

theorem part_configured {p old : Package} {k : Nat} (hlt : k < p.parts.length) (f : Partition → Partition) : ((p.modPart k f).repartition old).part k = f (p.part k) := by
  rw [part_repartition, part_modPart, if_pos ⟨rfl, hlt⟩]

theorem part_configured_ne {p old : Package} {k j : Nat} (h : j ≠ k) (f : Partition → Partition) : ((p.modPart k f).repartition old).part j = p.part j := by
  rw [part_repartition, part_modPart, if_neg fun hj => h hj.1]

/-! A swap is asked for (R340). -/

theorem swapWith_of_swapTarget {s : State} {k j : Nat} {x : Quad} (h : s.pkg.swapTarget k x = some j) : SwapWith s k x j := by
  rw [Package.swapTarget] at h
  split at h
  case isTrue => cases h
  case isFalse hasks =>
    rw [Bool.or_eq_true, not_or, Bool.not_eq_true', Bool.not_eq_false, decide_eq_true_eq] at hasks
    rw [Package.validParts, List.find?_filter, List.find?_range_eq_some] at h
    obtain ⟨hj, hlt, hfirst⟩ := h
    simp only [Bool.and_eq_true, decide_eq_true_eq] at hj
    refine ⟨hasks.1, hasks.2, ⟨List.mem_range.1 hlt, hj.1, hj.2.1, hj.2.2⟩, fun i hi hnamed => ?_⟩
    have hnot := hfirst i hi
    obtain ⟨-, hvalid, hne, hsame⟩ := hnamed
    simp [hvalid, hne, cfgMask, hsame] at hnot

/-! Casts and the stop of their cores. -/

/-- The casts of a core, and whether it is stopped. -/
def Package.castsAt (p : Package) (c : Nat) : Option (List (Option Cast) × Bool) := p.cores[c]?.map fun k => (k.ctx.casts, k.stopped)

theorem cast?_castsAt (p : Package) (c i : Nat) : p.cast? c i = ((p.castsAt c).bind fun x => x.1[i]?).join := by
  rw [Package.cast?, Package.castsAt]
  cases p.cores[c]? with
  | none => rfl
  | some k => rfl

theorem stopped_of_castsAt {p : Package} {c : Nat} {l : List (Option Cast)} {b : Bool} (h : p.castsAt c = some (l, b)) : (p.core c).stopped = b := by
  rw [Package.castsAt, Option.map_eq_some_iff] at h
  obtain ⟨k, hk, hkl⟩ := h
  rw [Package.core, List.getD_eq_getElem?_getD, hk]
  exact (Prod.mk.inj hkl).2

theorem castsAt_of_lt {p : Package} {c : Nat} (h : c < p.cores.length) : p.castsAt c = some ((p.core c).ctx.casts, (p.core c).stopped) := by
  rw [Package.castsAt, Package.core, List.getD_eq_getElem _ _ h, List.getElem?_eq_getElem h]
  rfl

theorem castsAt_modCore (p : Package) (c j : Nat) (f : Core → Core) :
    (p.modCore c f).castsAt j = if j = c then p.cores[j]?.map fun k => ((f k).ctx.casts, (f k).stopped) else p.castsAt j := by
  rw [Package.castsAt, Package.castsAt, Package.modCore, modAt_get?]
  split
  · rw [Option.map_map]
    rfl
  · rfl

/-- Neither the swap, nor the partitions, nor the casts of a core and its stop change. -/
structure CastsStay (p q : Package) : Prop where
  planeOp : q.planeOp = p.planeOp
  parts : q.parts = p.parts
  casts : ∀ c, q.castsAt c = p.castsAt c

theorem CastsStay.refl (p : Package) : CastsStay p p := ⟨rfl, rfl, fun _ => rfl⟩

theorem CastsStay.trans {p q r : Package} (h : CastsStay p q) (h' : CastsStay q r) : CastsStay p r :=
  ⟨h'.planeOp.trans h.planeOp, h'.parts.trans h.parts, fun c => (h'.casts c).trans (h.casts c)⟩

theorem CastsStay.foldl {α : Type} {f : Package → α → Package} (h : ∀ p a, CastsStay p (f p a)) (l : List α) (p : Package) : CastsStay p (l.foldl f p) :=
  List.foldlRecOn (motive := CastsStay p) l f (.refl p) fun q hq a _ => hq.trans (h q a)

theorem CastsStay.ite {p q r : Package} {c : Prop} [Decidable c] (h1 : CastsStay p q) (h2 : CastsStay p r) : CastsStay p (if c then q else r) := by
  split
  · exact h1
  · exact h2

theorem CastsStay.of_cores {p q : Package} (hc : q.cores = p.cores) (ho : q.planeOp = p.planeOp) (hp : q.parts = p.parts) : CastsStay p q :=
  ⟨ho, hp, fun c => by rw [Package.castsAt, Package.castsAt, hc]⟩

theorem CastsStay.modCore {f : Core → Core} (h : ∀ k, (f k).ctx.casts = k.ctx.casts ∧ (f k).stopped = k.stopped) (p : Package) (c : Nat) : CastsStay p (p.modCore c f) := by
  refine ⟨rfl, rfl, fun j => ?_⟩
  rw [castsAt_modCore]
  split
  · exact congrArg (Option.map · p.cores[j]?) (funext fun k => by rw [(h k).1, (h k).2])
  · rfl

theorem CastsStay.modCtx {f : CoreCtx → CoreCtx} (h : ∀ x, (f x).casts = x.casts) (p : Package) (c : Nat) : CastsStay p (p.modCtx c f) :=
  .modCore (f := fun k => { k with ctx := f k.ctx }) (fun k => ⟨h k.ctx, rfl⟩) p c

theorem CastsStay.modWave (p : Package) (c i : Nat) (f : Wave → Wave) : CastsStay p (p.modWave c i f) :=
  .modCtx (f := fun x => { x with waves := modAt x.waves i (·.map f) }) (fun _ => rfl) p c

theorem CastsStay.later (p : Package) (t : DueAt) (e : Instr) : CastsStay p (p.later t e) := .of_cores rfl rfl rfl

theorem CastsStay.sendReq (p : Package) (t : Clock) (late : Nat) (r : Req) : CastsStay p (p.sendReq t late r) :=
  .ite (.of_cores rfl rfl rfl) (.of_cores rfl rfl rfl)

theorem CastsStay.resend (p : Package) (t : Clock) (r : Req) : CastsStay p (p.resend t r) := (CastsStay.modWave ..).trans (.sendReq ..)

theorem CastsStay.startFence (p : Package) (t : Clock) (core slot : Nat) (kind : FenceKind) (scope : Nat) (implied : Bool) (word : Quad) :
    CastsStay p (p.startFence t core slot kind scope implied word) := by
  unfold Package.startFence
  dsimp only
  refine CastsStay.trans ?_ (.modWave ..)
  refine .foldl (fun _ _ => ?_) _ _
  exact .of_cores rfl rfl rfl

theorem CastsStay.reviveWave (p : Package) (t : Clock) (core slot : Nat) (fence : Option Fence) : CastsStay p (p.reviveWave t core slot fence) := by
  have hfence : CastsStay p (match fence with
      | some f => (p.startFence t core slot f.kind f.scope false f.word).modWave core slot fun w => { w with fence := w.fence.map fun g => { g with attached := f.attached } }
      | none => p) := by
    cases fence with
    | none => exact .refl p
    | some f => exact (CastsStay.startFence ..).trans (.modWave ..)
  unfold Package.reviveWave
  split
  case h_1 => exact .refl p
  case h_2 => exact hfence.trans (.ite ((CastsStay.modWave ..).trans (.of_cores rfl rfl rfl)) (.refl _))

/-! A core that goes on (R266, R274). -/

/-- What a core that goes on does besides: its held requests and its waves start again. -/
theorem releaseCore_stays (t : Clock) (p : Package) (core : Nat) : CastsStay (p.modCore core Core.released) (p.releaseCore t core) := by
  unfold Package.releaseCore
  refine CastsStay.trans (CastsStay.trans ?_ (.foldl (fun q i => .reviveWave q t core i _) _ _)) (.later ..)
  exact .foldl (fun q r => .resend q t r) _ _

/-- A cast that goes on. -/
def Cast.goesOn (c : Cast) : Cast := { c with stopping := none }

theorem castsAt_releaseCore (t : Clock) (p : Package) (core : Nat) :
    (p.releaseCore t core).castsAt core = (p.castsAt core).map fun x => (x.1.map (Option.map Cast.goesOn), false) := by
  rw [(releaseCore_stays t p core).casts, castsAt_modCore, if_pos rfl, Package.castsAt, Option.map_map]
  rfl

theorem castsAt_releaseCores (t : Clock) {l : List Nat} (hn : l.Nodup) {core : Nat} (h : core ∈ l) (p : Package) :
    (l.foldl (fun (p : Package) c => p.releaseCore t c) p).castsAt core = (p.castsAt core).map fun x => (x.1.map (Option.map Cast.goesOn), false) :=
  foldl_each (f := fun (p : Package) c => p.releaseCore t c) (key := id) (view := Package.castsAt) (R := fun _ x y => y = x.map fun x => (x.1.map (Option.map Cast.goesOn), false))
    (fun p c => castsAt_releaseCore t p c) (fun p c j hj => ((releaseCore_stays t p c).casts j).trans ((castsAt_modCore ..).trans (if_neg hj))) (by simpa using hn) h p

theorem planeOp_releaseCores (t : Clock) (l : List Nat) (p : Package) : (l.foldl (fun (p : Package) c => p.releaseCore t c) p).planeOp = p.planeOp :=
  List.foldlRecOn (motive := fun q : Package => q.planeOp = p.planeOp) l _ rfl fun q hq c _ => (releaseCore_stays t q c).planeOp.trans hq

theorem nodup_maskCores (p : Package) (m : BitVec 32) : (p.maskCores m).Nodup := List.nodup_range.filter _

/-! Casts that are asked to stop (R340). -/

/-- A cast that is asked to stop. -/
def Cast.asked (c : Cast) : Cast := if c.stopping.isNone then { c with stopping := some 2 } else c

theorem asked_eq (c : Cast) : c.asked = { c with stopping := if c.stopping = none then some 2 else c.stopping } := by
  unfold Cast.asked
  cases h : c.stopping with
  | none => rfl
  | some n => rw [if_neg (by simp), if_neg (by simp), ← h]

theorem castsAt_askStop (p : Package) (core j : Nat) :
    (p.askStop core).castsAt j = if j = core then (p.castsAt j).map fun x => (x.1.map (Option.map Cast.asked), x.2) else p.castsAt j := by
  rw [Package.askStop, Package.modCtx, castsAt_modCore, Package.castsAt, Option.map_map]
  rfl

theorem castsAt_askStops {l : List Nat} (hn : l.Nodup) {core : Nat} (h : core ∈ l) (p : Package) :
    (l.foldl Package.askStop p).castsAt core = (p.castsAt core).map fun x => (x.1.map (Option.map Cast.asked), x.2) :=
  foldl_each (f := Package.askStop) (key := id) (view := Package.castsAt) (R := fun _ x y => y = x.map fun x => (x.1.map (Option.map Cast.asked), x.2))
    (fun p c => (castsAt_askStop p c c).trans (if_pos rfl)) (fun p c j hj => (castsAt_askStop p c j).trans (if_neg hj)) (by simpa using hn) h p

theorem cast?_of_mapped {p q : Package} {core i : Nat} {f : Cast → Cast} {g : Bool → Bool} {c : Cast}
    (h : q.castsAt core = (p.castsAt core).map fun x => (x.1.map (Option.map f), g x.2)) (hc : p.cast? core i = some c) : q.cast? core i = some (f c) := by
  rw [cast?_castsAt] at hc
  rw [cast?_castsAt, h]
  cases hx : p.castsAt core with
  | none => rw [hx] at hc; cases hc
  | some x =>
    rw [hx, Option.bind_some, Option.join_eq_some_iff] at hc
    rw [Option.map_some, Option.bind_some, List.getElem?_map, hc]
    rfl

/-! Pre-emption of the leaving partition, through DRAM (R275, R335). -/

theorem preemptCast_rest (t : Clock) (p : Package) (e : CastEntry) : (p.preemptCast t e).parts = p.parts ∧ (p.preemptCast t e).planeOp = p.planeOp :=
  List.foldlRecOn (motive := fun q : Package => q.parts = p.parts ∧ q.planeOp = p.planeOp) (p.groupOf e) _ ⟨rfl, rfl⟩ fun q hq x _ => by
    split
    case h_1 => exact hq
    case h_2 => exact hq

theorem preemptCasts_rest (t : Clock) (l : List CastEntry) (p : Package) :
    (l.foldl (fun (q : Package) e => q.preemptCast t e) p).parts = p.parts ∧ (l.foldl (fun (q : Package) e => q.preemptCast t e) p).planeOp = p.planeOp :=
  List.foldlRecOn (motive := fun q : Package => q.parts = p.parts ∧ q.planeOp = p.planeOp) l _ ⟨rfl, rfl⟩ fun q hq e _ =>
    ⟨(preemptCast_rest t q e).1.trans hq.1, (preemptCast_rest t q e).2.trans hq.2⟩

/-! Cores that have halted (R335, R340). -/

theorem mem_residents {k : Core} {i : Nat} {c : Cast} (h : k.ctx.casts[i]? = some (some c)) : (i, c) ∈ k.residents :=
  List.mem_filterMap.2 ⟨(some c, i), List.mem_zipIdx_iff_getElem?.2 h, rfl⟩

/-- Every cast of a core has stopped. -/
def Core.AllStopped (k : Core) : Prop := ∀ c ∈ k.residents, c.2.stopping = some 3

theorem allStopped_of_coreHalted {t : Clock} {p : Package} {core : Nat} (h : p.coreHalted t core = true) : (p.core core).AllStopped := by
  intro c hc
  rw [Package.coreHalted, Bool.and_eq_true, List.all_eq_true] at h
  have hstop := h.2 c hc
  rw [Bool.and_eq_true, decide_eq_true_eq] at hstop
  exact hstop.1

theorem modCore_same {p : Package} {c : Nat} {f : Core → Core} (h : f (p.core c) = p.core c) : p.modCore c f = p :=
  (modCore_congr (g := fun x => x) h).trans (congrArg (fun l => { p with cores := l }) (modAt_id p.cores c))

theorem askStop_stopped {p : Package} {core : Nat} (h : (p.core core).AllStopped) : p.askStop core = p := by
  have hcasts : (p.core core).ctx.casts.map (Option.map Cast.asked) = (p.core core).ctx.casts := by
    refine (List.map_congr_left fun x hx => ?_).trans (List.map_id _)
    cases x with
    | none => rfl
    | some c =>
      obtain ⟨i, hi⟩ := List.getElem?_of_mem hx
      have hstop := h _ (mem_residents hi)
      exact congrArg some (if_neg (by rw [hstop]; exact Bool.false_ne_true))
  refine modCore_same (f := fun k => { k with ctx := { k.ctx with casts := k.ctx.casts.map (Option.map Cast.asked) } }) ?_
  rw [hcasts]

theorem stopStep_stopped {p : Package} {core : Nat} (h : (p.core core).AllStopped) : p.stopStep core = p :=
  foldl_id fun c hc => if_neg (by rw [h c hc]; simp)

theorem understudySwapAt_idle {t : Clock} {p : Package} (h : ∀ o, p.planeOp = some o → o.startedAt ≠ none) : understudySwapAt t p = p := by
  rw [understudySwapAt]
  split
  case h_1 => rfl
  case h_2 o ho => exact if_pos (Option.isSome_iff_ne_none.2 (h o ho))

/-- With every core of the mask halted, a swap through the planes starts at a tick boundary. -/
theorem understudySwapAt_planes {t : Clock} {p : Package} {o : PlaneOp} (hop : p.planeOp = some o) (hstart : o.startedAt = none) (hdram : o.dram = false)
    (ht : t.mcyc % 64 = 0) (hhalted : ∀ core ∈ p.maskCores o.mask, p.coreHalted t core = true) : understudySwapAt t p = p.startSwap t o := by
  have hstops : (p.maskCores o.mask).foldl (fun (p : Package) c => (p.askStop c).stopStep c) p = p := foldl_id fun c hc => by
    have hall := allStopped_of_coreHalted (hhalted c hc)
    rw [askStop_stopped hall, stopStep_stopped hall]
  have hready : p.swapReady t o = true := by
    rw [Package.swapReady, hdram]
    exact List.all_eq_true.2 hhalted
  rw [understudySwapAt, hop]
  simp only [hstart, Option.isSome_none, Bool.false_eq_true, if_false, hdram, hstops, ht, decide_true, hready, Bool.and_self, if_true]

/-! The exchange of one core through the planes (R89, R243, R274). -/

/-- The core after an exchange, its waiting replies aside. -/
def Core.exchanged (k : Core) (out in_ : Nat) (replies : List Reply) : Core :=
  { k with l1 := [], replies := replies, plane := .context out k.ctx.parkCasts, ctx := ((k.plane.of in_).getD {}).wakeColls, stopped := true }

theorem core_of_get? {p : Package} {c : Nat} {k : Core} (h : p.cores[c]? = some k) : p.core c = k := by
  rw [Package.core, List.getD_eq_getElem?_getD, h]
  rfl

theorem exchangeCore_self {p : Package} {o : PlaneOp} (hdram : o.dram = false) {core : Nat} {k : Core} (h : p.cores[core]? = some k) :
    ∃ rs, (p.exchangeCore o core).cores[core]? = some (k.exchanged o.out o.in_ rs) := by
  have hside : ¬ (o.dram && ((p.core core).plane.of o.in_).isNone) = true := by
    rw [hdram]
    exact Bool.false_ne_true
  rw [Package.exchangeCore, if_neg hside, core_of_get? h, hdram]
  simp only [Package.modCore, Package.l1Clear, Package.cancelFills, modAt_get?, if_true, Option.map_map]
  rw [show (p.dropCoreFaults core).cores[core]? = some k from h]
  exact ⟨_, rfl⟩

theorem exchangeCore_ne {p : Package} {o : PlaneOp} {core j : Nat} (h : j ≠ core) : (p.exchangeCore o core).cores[j]? = p.cores[j]? := by
  rw [Package.exchangeCore]
  dsimp only
  split
  · simp only [Package.modCore, Package.l1Clear, Package.cancelFills, modAt_get?, if_neg h]
    rfl
  · simp only [Package.modCore, Package.l1Clear, Package.cancelFills, modAt_get?, if_neg h]
    rfl

theorem exchangeCores {o : PlaneOp} (hdram : o.dram = false) {l : List Nat} (hn : l.Nodup) {core : Nat} (hc : core ∈ l) {p : Package} {k : Core} (hk : p.cores[core]? = some k) :
    ∃ rs, (l.foldl (fun (p : Package) c => p.exchangeCore o c) p).cores[core]? = some (k.exchanged o.out o.in_ rs) :=
  foldl_each (f := fun (p : Package) c => p.exchangeCore o c) (key := id) (view := fun (p : Package) c => p.cores[c]?)
    (R := fun _ x y => ∀ k, x = some k → ∃ rs, y = some (k.exchanged o.out o.in_ rs)) (fun _ _ _ hk => exchangeCore_self hdram hk) (fun _ _ _ hj => exchangeCore_ne hj)
    (by simpa using hn) hc p k hk

/-- A swap through the planes once it has started: the cores are exchanged, and its end is due. -/
theorem startSwap_planes (t : Clock) (p : Package) {o : PlaneOp} (hdram : o.dram = false) :
    (p.startSwap t o).planeOp = some { o with startedAt := some t.rtick } ∧ { at_ := .mesh (t.mcyc + 960), ev := .understudySwapEnd } ∈ (p.startSwap t o).due
      ∧ (p.startSwap t o).cores = ((p.maskCores o.mask).foldl (fun (p : Package) c => p.exchangeCore o c) p).cores := by
  have hplanes : (!o.dram || (p.maskCores o.mask).any fun c => ((p.core c).plane.of o.in_).isSome) = true := by
    rw [hdram]
    rfl
  rw [Package.startSwap, if_pos hplanes]
  exact ⟨rfl, List.mem_append_right _ (List.mem_singleton_self _), cores_repartition _ p⟩

/-- A context that comes back waits for no page. -/
theorem wakeColls_eq (x : CoreCtx) : x.wakeColls = { x with colls := x.wakeColls.colls } := rfl

theorem wakeColls_empty : ({} : CoreCtx).wakeColls = {} := by
  have hcolls : ({} : CoreCtx).wakeColls.colls = ({} : CoreCtx).colls := by decide
  rw [wakeColls_eq, hcolls]

theorem plane_of_context (k : Nat) (c : CoreCtx) : (Plane.context k c).of k = some c := if_pos rfl

theorem swapEndAt_idle {t : Clock} {p : Package} (h : ∀ o u, p.planeOp = some o → o.startedAt ≠ some u) : swapEndAt t p = p := by
  unfold swapEndAt
  split
  case h_1 out in_ m dram u ho => exact absurd rfl (h _ u ho)
  case h_2 => rfl

theorem swapEndAt_early {t : Clock} {p : Package} {o : PlaneOp} {u : Nat} (hop : p.planeOp = some o) (hstart : o.startedAt = some u) (hu : t.rtick < u + 16) :
    swapEndAt t p = p.later (.tick (u + 16)) .understudySwapEnd := by
  obtain ⟨out, in_, mask, dram, startedAt⟩ := o
  cases hstart
  rw [swapEndAt, hop]
  exact if_pos hu

/-! The swap that is asked for, in general (R275, R340). -/

/-- The swap of a request: through DRAM where a point, RECOV or the planes ask for it. -/
def Package.asksDram (p : Package) (k j : Nat) (x : Quad) : Bool := (p.part j).recov || x.getLsbD 35 || !(p.maskCores (cfgMask x)).all fun c => (p.core c).plane.allows k

theorem plane_allows_iff (x : Plane) (k : Nat) : x.allows k = true ↔ x = .empty ∨ ∃ c, x = .context k c := by
  cases x with
  | empty => simp [Plane.allows]
  | context j c => simp [Plane.allows]
  | snapshot c => simp [Plane.allows]

theorem asksDram_iff (p : Package) (k j : Nat) (x : Quad) : p.asksDram k j x = true ↔
    (p.part j).recov = true ∨ x.getLsbD 35 = true ∨ ¬ ∀ core ∈ p.maskCores (cfgMask x), (p.core core).plane = .empty ∨ ∃ c, (p.core core).plane = .context k c := by
  have hall : ((p.maskCores (cfgMask x)).all fun c => (p.core c).plane.allows k) = true ↔
      ∀ core ∈ p.maskCores (cfgMask x), (p.core core).plane = .empty ∨ ∃ c, (p.core core).plane = .context k c := by
    rw [List.all_eq_true]
    exact forall₂_congr fun c _ => plane_allows_iff _ k
  rw [Package.asksDram, Bool.or_eq_true, Bool.or_eq_true, or_assoc, Bool.not_eq_true', ← Bool.not_eq_true, hall]

/-- A partition whose swap is asked for. -/
def Package.swapAsked (p : Package) (k j : Nat) (x : Quad) : Package :=
  { (p.modPart k fun q => { q.setRecov (x.getLsbD 35) with companies := cfgMask x, valid := false, ctx := Config.addrContext k x }).repartition p with
    planeOp := some { out := j, in_ := k, mask := cfgMask x, dram := p.asksDram k j x, startedAt := none } }

section
variable {s : State} {k : Nat} {x : Quad}

theorem partitionSwapAt_ignored (h : (∀ j, ¬ SwapWith s k x j) ∨ 8 ≤ k ∨ (HoldsCasts s k ∧ x.setWidth 32 ≠ (s.pkg.part k).companies)) :
    partitionSwapAt k x s.clk s.pkg = s.pkg := by
  rw [partitionSwapAt]
  split
  case h_1 => rfl
  case h_2 j hj =>
    refine if_pos ?_
    rw [Bool.or_eq_true, Bool.and_eq_true, decide_eq_true_eq, decide_eq_true_eq, holdsCasts_iff]
    exact h.resolve_left fun hno => hno j (swapWith_of_swapTarget hj)

variable {j : Nat} (h : SwapWith s k x j) (hk : k < 8) (hfree : ¬ (HoldsCasts s k ∧ x.setWidth 32 ≠ (s.pkg.part k).companies))
include h hk hfree

theorem partitionSwapAt_accepts : partitionSwapAt k x s.clk s.pkg =
    if s.pkg.planeOp.isSome then s.pkg.later (.tick (s.clk.rtick + 1)) (.partitionSwap k x)
    else (if s.pkg.asksDram k j x then ((s.pkg.swapAsked k j x).casts.filter fun e => e.part = j).foldl (fun (q : Package) e => q.preemptCast s.clk e) (s.pkg.swapAsked k j x)
      else (s.pkg.maskCores (cfgMask x)).foldl Package.askStop (s.pkg.swapAsked k j x)).later .now .understudySwap := by
  have hgoes : ¬ (decide (8 ≤ k) || (s.pkg.holdsCasts k && decide (cfgMask x ≠ (s.pkg.part k).companies))) = true := by
    rw [Bool.or_eq_true, Bool.and_eq_true, decide_eq_true_eq, decide_eq_true_eq, holdsCasts_iff, not_or]
    exact ⟨not_le.2 hk, hfree⟩
  rw [partitionSwapAt, swapTarget_of_swapWith h]
  exact if_neg hgoes

end

theorem part_swapAsked {p : Package} {k : Nat} (hlt : k < p.parts.length) (j : Nat) (x : Quad) :
    (p.swapAsked k j x).part k = { (p.part k).setRecov (x.getLsbD 35) with companies := cfgMask x, valid := false, ctx := Config.addrContext k x } :=
  part_configured hlt _

theorem castsAt_swapAsked (p : Package) (k j : Nat) (x : Quad) (c : Nat) : (p.swapAsked k j x).castsAt c = p.castsAt c := by
  have hcores : (p.swapAsked k j x).cores = p.cores := cores_repartition _ p
  rw [Package.castsAt, Package.castsAt, hcores]

/-! Retirement (R351). -/

theorem noSuchSlice_iff (s : State) (stage company : Nat) :
    (decide (4 ≤ stage) || decide (8 ≤ company) || !s.pkg.present stage || !(s.pkg.liveSlices stage).contains company) = true ↔ NoSuchSlice s stage company := by
  have hlive : (!(s.pkg.liveSlices stage).contains company) = true ↔ 8 ≤ company ∨ (s.pkg.company (8 * stage + company)).retired = true := by
    rw [Bool.not_eq_true', ← Bool.not_eq_true, List.contains_iff_mem, mem_liveSlices, not_and_or, not_lt, Bool.not_eq_false]
  rw [Bool.or_eq_true, Bool.or_eq_true, Bool.or_eq_true, decide_eq_true_eq, decide_eq_true_eq, Bool.not_eq_true', hlive, NoSuchSlice]
  tauto

section
variable {s : State} {stage company : Nat}

theorem retireSliceAt_waits (ht : s.clk.mcyc % 64 ≠ 0) : retireSliceAt stage company s.clk s.pkg = s.pkg.later (.tick (s.clk.rtick + 1)) (.retireSlice stage company) := if_pos ht

variable (ht : s.clk.mcyc % 64 = 0)
include ht

theorem retireSliceAt_noSuch (h : NoSuchSlice s stage company) : retireSliceAt stage company s.clk s.pkg = s.pkg.count Config.errRETIREIGN Config.max16 :=
  (if_neg (not_not.2 ht)).trans (if_pos ((noSuchSlice_iff s stage company).2 h))

theorem retireSliceAt_last (hthere : ¬ NoSuchSlice s stage company) (hnone : (s.pkg.stageAt stage).retiring = none) (hlast : ¬ OtherSlice s stage company) :
    retireSliceAt stage company s.clk s.pkg = s.pkg.count Config.errRETIREIGN Config.max16 := by
  have honly : (s.pkg.liveSlices stage).length ≤ 1 := by
    by_contra hmore
    have hnodup : (s.pkg.liveSlices stage).Nodup := List.nodup_range.filter _
    obtain ⟨a, b, l, hl⟩ : ∃ a b l, s.pkg.liveSlices stage = a :: b :: l := by
      match hl : s.pkg.liveSlices stage with
      | a :: b :: l => exact ⟨a, b, l, rfl⟩
      | [a] => exact absurd (by rw [hl]; exact le_rfl) hmore
      | [] => exact absurd (by rw [hl]; exact Nat.zero_le 1) hmore
    rw [hl, List.nodup_cons] at hnodup
    have hserves : ∀ m ∈ s.pkg.liveSlices stage, m = company := fun m hm => by
      by_contra hne
      obtain ⟨hlt, hlive⟩ := (mem_liveSlices ..).1 hm
      exact hlast ⟨m, hlt, hne, hlive⟩
    rw [hl] at hserves
    have hab : a = b := (hserves a (by simp)).trans (hserves b (by simp)).symm
    exact hnodup.1 (hab ▸ List.mem_cons_self)
  refine (if_neg (not_not.2 ht)).trans ((if_neg (mt (noSuchSlice_iff s stage company).1 hthere)).trans ((if_neg ?_).trans (if_pos honly)))
  rw [hnone]
  exact Bool.false_ne_true

theorem retireSliceAt_queues (hthere : ¬ NoSuchSlice s stage company) (hbusy : (s.pkg.stageAt stage).retiring ≠ none) :
    retireSliceAt stage company s.clk s.pkg = s.pkg.modStage stage fun x => { x with retireQ := x.retireQ ++ [company] } :=
  (if_neg (not_not.2 ht)).trans ((if_neg (mt (noSuchSlice_iff s stage company).1 hthere)).trans (if_pos (Option.isSome_iff_ne_none.2 hbusy)))

end

/-- The slice has completed every request that it accepted. -/
theorem sliceDrained_iff (p : Package) (m : Nat) :
    p.sliceDrained m = true ↔ (p.company m).inq = [] ∧ (p.company m).stalled = [] ∧ (p.company m).fills = [] ∧ (p.company m).releases = [] := by
  simp only [Package.sliceDrained, Bool.and_eq_true, List.isEmpty_iff, and_assoc]

theorem sliceReassignAt_idle {p : Package} {company : Nat} {t : Clock}
    (h : (p.stageAt (company / 8)).retiring ≠ some (company % 8) ∨ t.mcyc % 64 ≠ 0 ∨ ¬ p.sliceDrained company = true) : sliceReassignAt company t p = p := by
  refine if_pos ?_
  rw [Bool.or_eq_true, Bool.or_eq_true, decide_eq_true_eq, decide_eq_true_eq, Bool.not_eq_true', ← Bool.not_eq_true, or_assoc]
  exact h

/-- A drained slice with nothing staged and nothing held hands its buckets on; a retirement that waited is due. -/
theorem sliceReassignAt_hands {p : Package} {company : Nat} {t : Clock} (hr : (p.stageAt (company / 8)).retiring = some (company % 8)) (ht : t.mcyc % 64 = 0)
    (hdrained : p.sliceDrained company = true) (hstaged : (p.company company).staged = []) (hwait : (p.company company).stageWait = [])
    (hheld : (p.stageAt (company / 8)).heldReqs = []) : ∃ l, sliceReassignAt company t p = { p.handedOn company with due := (p.handedOn company).due ++ l } := by
  have hstage (f : Company → Company) : ((p.flushSlice company fun _ _ => false).modCompany company f).stageAt (company / 8) = p.stageAt (company / 8) := by
    rw [Package.stageAt, Package.modCompany_stage, (SlicesOnly.flushSlice p company _).stage]
    rfl
  rw [sliceReassignAt, if_neg (by simp [hr, ht, hdrained])]
  simp only [hstage, hstaged, hwait, hheld, List.append_nil, List.foldl_nil]
  split
  case h_1 => exact ⟨_, rfl⟩
  case h_2 => exact ⟨[], by rw [List.append_nil]; rfl⟩

theorem l2_handedOn {p : Package} {company : Nat} (h : company < p.companies.length) : ((p.handedOn company).company company).l2 = [] :=
  congrArg Company.l2 (company_modCompany_self (p.flushSlice company fun _ _ => false) company Company.retire ((SlicesOnly.flushSlice p company _).ncompanies.symm ▸ h))

theorem length_reassign (m : Nat) (heirs : List Nat) (i : Nat) (l : List Nat) : (reassign m heirs i l).length = l.length := by
  induction l generalizing i with
  | nil => rfl
  | cons b l ih =>
    unfold reassign
    split
    · rw [List.length_cons, ih, List.length_cons]
    · rw [List.length_cons, ih, List.length_cons]

/-- The heirs of a slice are the live slices of its stage nearest to it. -/
theorem of_mem_heirs {p : Package} {stage m h : Nat} (hh : h ∈ p.heirs stage m) : h ≠ m ∧ h < 8 ∧ (p.company (8 * stage + h)).retired = false
    ∧ ∀ g, g < 8 → g ≠ m → (p.company (8 * stage + g)).retired = false → stopHops m h ≤ stopHops m g := by
  rw [Package.heirs, List.mem_filter, List.mem_filter, mem_liveSlices, decide_eq_true_eq, decide_eq_true_eq] at hh
  obtain ⟨⟨⟨hlt, hlive⟩, hne⟩, hbest⟩ := hh
  refine ⟨hne, hlt, hlive, fun g hg hgm hglive => ?_⟩
  rw [hbest, ← List.foldl_map]
  refine (foldl_min_le _ 100).2 _ (List.mem_map_of_mem (List.mem_filter.2 ⟨(mem_liveSlices ..).2 ⟨hg, hglive⟩, decide_eq_true hgm⟩))

end Sys2Proof.Machine

open Sys2Proof Sys2Proof.Machine in
/-- Settles O49: a configuration and a request for a swap by what they write, the exchange and its end core by core, a retirement by the slices that still serve. -/
theorem partitionsAndSlices : Obligations.PartitionsAndSlices := by
  refine ⟨fun s k x ctx => ⟨fun h => ?ignored, fun h hop hfree hlt => ?configures, fun h hop hswapped hholds => ?brings, fun o h hop ho => ?waits⟩,
    fun s k x => ⟨fun h => ?swapIgnored, fun j o h hk hfree hop => ?swapWaits, fun j h hk hlt hfree hop => ?swapAsked⟩,
    fun s h => ?noSwap, fun s o hop hstart hdram hne hout hin ht hhalted => ?exchange, fun s h => ?noEnd, fun s o u hop hstart => ⟨fun hu => ?early, fun hu => ?ends⟩,
    fun s stage company => ⟨fun ht => ?offTick, fun ht h => ?refused, fun ht hthere => ⟨fun hbusy => ?queued, fun hnone hother => ?retires⟩⟩,
    fun s company => ⟨fun h => ?notDrained, fun hr ht hdrained hlt hstaged hwait hheld => ?handsOn⟩⟩
  case ignored => rw [exec_partitionConfigure, configureAt_ignored h]
  case configures =>
    obtain ⟨hrpm, hseq⟩ := setRecov_counters (s.pkg.part k) (x.getLsbD 35)
    have hself := part_configured (old := s.pkg) hlt fun q => q.configured x true false ctx
    have hother : ∀ j, j ≠ k → ((s.pkg.modPart k fun q => q.configured x true false ctx).repartition s.pkg).part j = s.pkg.part j := fun j hj => part_configured_ne hj _
    have hcores := cores_repartition (s.pkg.modPart k fun q => q.configured x true false ctx) s.pkg
    obtain ⟨cs, htakes⟩ := configureAt_takes (ctx := ctx) h hop hfree
    exact ⟨_, event_next rfl htakes, congrArg Partition.companies hself, congrArg Partition.valid hself, congrArg Partition.swapped hself, congrArg Partition.recov hself,
      congrArg Partition.ctx hself, (congrArg (fun q => q.recovery.rpmcyc) hself).trans hrpm, (congrArg (fun q => q.recovery.rpseq) hself).trans hseq,
      (congrArg Partition.nodes hself).trans rfl, hother, hcores⟩
  case brings => rw [exec_partitionConfigure, configureAt_brings h hop hswapped hholds]
  case waits => rw [exec_partitionConfigure, configureAt_waits h hop ho]
  case swapIgnored => rw [exec_partitionSwap, partitionSwapAt_ignored h]
  case swapWaits =>
    rw [exec_partitionSwap, partitionSwapAt_accepts h hk hfree, if_pos (by rw [hop]; rfl)]
  case swapAsked =>
    intro free
    have hpart := part_swapAsked hlt j x
    have haccepts := partitionSwapAt_accepts h hk hfree
    have hfree' : ¬ s.pkg.planeOp.isSome = true := by
      rw [hop]
      exact Bool.false_ne_true
    rw [if_neg hfree'] at haccepts
    cases hdram : s.pkg.asksDram k j x
    case false =>
      rw [hdram, if_neg Bool.false_ne_true, askStops_eq] at haccepts
      refine ⟨_, _, event_next rfl haccepts, rfl, rfl, rfl, rfl, rfl, asksDram_iff s.pkg k j x, congrArg Partition.companies hpart, congrArg Partition.ctx hpart,
        congrArg Partition.valid hpart, congrArg Partition.recov hpart, List.mem_append_right _ (List.mem_singleton_self _), fun _ core i c hcore hc => ?_⟩
      have hstays := castsAt_askStops (nodup_maskCores s.pkg (cfgMask x)) hcore (s.pkg.swapAsked k j x)
      rw [castsAt_swapAsked] at hstays
      exact (cast?_of_mapped (p := s.pkg) (f := Cast.asked) (g := id) hstays hc).trans (congrArg some (asked_eq c))
    case true =>
      rw [hdram, if_pos rfl] at haccepts
      obtain ⟨hparts, hop'⟩ := preemptCasts_rest s.clk ((s.pkg.swapAsked k j x).casts.filter fun e => e.part = j) (s.pkg.swapAsked k j x)
      have hpart' := (congrArg (fun l : List Partition => l.getD k {}) hparts).trans hpart
      exact ⟨_, _, event_next rfl haccepts, hop', rfl, rfl, rfl, rfl, asksDram_iff s.pkg k j x, congrArg Partition.companies hpart', congrArg Partition.ctx hpart',
        congrArg Partition.valid hpart', congrArg Partition.recov hpart', List.mem_append_right _ (List.mem_singleton_self _),
        fun hno => absurd (hdram.symm.trans hno) (by decide)⟩
  case noSwap => rw [exec_understudySwap, understudySwapAt_idle h]
  case exchange =>
    obtain ⟨hleaves, hcomes⟩ := part_startSwap s.clk hne hout hin
    obtain ⟨hplaneOp, hdue, hcores⟩ := startSwap_planes s.clk s.pkg hdram
    refine ⟨_, event_next rfl (understudySwapAt_planes hop hstart hdram ht hhalted), hplaneOp, congrArg Partition.valid hleaves,
      (congrArg Partition.swapped hleaves).trans (by rw [hdram]; rfl), congrArg Partition.valid hcomes, congrArg Partition.swapped hcomes, hdue, fun core hcore hlt => ?_⟩
    have hk : s.pkg.cores[core]? = some (s.pkg.core core) := by
      rw [Package.core, List.getD_eq_getElem _ _ hlt, List.getElem?_eq_getElem hlt]
    obtain ⟨rs, hexchanged⟩ := exchangeCores hdram (nodup_maskCores s.pkg o.mask) hcore hk
    have hcore' : (s.pkg.startSwap s.clk o).core core = (s.pkg.core core).exchanged o.out o.in_ rs := core_of_get? (by rw [hcores, hexchanged])
    dsimp only
    rw [hcore']
    refine ⟨rfl, rfl, ⟨_, rfl, rfl⟩, fun hno => ?_, fun c hc => ?_⟩
    · rw [Core.exchanged, plane_of_eq_none hno]
      exact wakeColls_empty
    · rw [Core.exchanged, hc, plane_of_context]
      exact wakeColls_eq c
  case noEnd => rw [exec_understudySwapEnd, swapEndAt_idle h]
  case early => rw [exec_understudySwapEnd, swapEndAt_early hop hstart hu]
  case ends =>
    refine ⟨_, event_next rfl (swapEndAt_over hop hstart hu), planeOp_releaseCores .., fun core hcore hlt => ?_⟩
    have hcasts := castsAt_releaseCores s.clk (nodup_maskCores s.pkg o.mask) hcore { s.pkg with planeOp := none }
    refine ⟨stopped_of_castsAt (hcasts.trans (congrArg _ (castsAt_of_lt hlt))), fun i c hc => ?_⟩
    exact cast?_of_mapped (p := s.pkg) (f := Cast.goesOn) (g := fun _ => false) hcasts hc
  case offTick => rw [exec_retireSlice, retireSliceAt_waits ht]
  case refused =>
    rw [exec_retireSlice]
    by_cases hno : NoSuchSlice s stage company
    · rw [retireSliceAt_noSuch ht hno]
    · obtain ⟨hnone, hlast⟩ := h.resolve_left hno
      rw [retireSliceAt_last ht hno hnone hlast]
  case queued => rw [exec_retireSlice, retireSliceAt_queues ht hthere hbusy]
  case retires => rw [exec_retireSlice, retireSliceAt_begins ht hthere hnone hother]
  case notDrained =>
    rw [exec_sliceRetireReassign, sliceReassignAt_idle]
    rwa [sliceDrained_iff]
  case handsOn =>
    intro heirs
    have hstage := stageAt_handedOn (stage_lt_of_retiring hr)
    obtain ⟨l, hhands⟩ := sliceReassignAt_hands hr ht ((sliceDrained_iff s.pkg company).2 hdrained) hstaged hwait hheld
    refine ⟨_, event_next rfl hhands, retired_handedOn hlt, l2_handedOn hlt, congrArg Stage.retiring hstage, ?_, fun i b hb => ?_, fun h hh => of_mem_heirs hh⟩
    · exact (congrArg (fun x : Stage => x.buckets.length) hstage).trans (length_reassign ..)
    · exact (congrArg (fun x : Stage => x.buckets[i]?) hstage).trans (buckets_handOn hb _ heirs)

end

section
/-! SUPPORT. Recovery points, rollback and hard failures (R313, R384 to R387): the recovery state of a partition, what a rollback drops and brings back, and who is told of a
failure. -/

namespace Sys2Proof.Machine

theorem exec_recoveryPoint (k : Nat) (s : State) : exec (.recoveryPoint k) s = .next { s with pkg := recoveryPointAt k s.clk s.pkg } := rfl

theorem exec_rollback (k unit : Nat) (s : State) : exec (.rollback k unit) s = .next { s with pkg := rollbackAt k unit s.clk s.pkg } := rfl

theorem exec_arrivalJournalInject (k : Nat) (s : State) : exec (.arrivalJournalInject k) s = .next { s with pkg := journalInjectAt k s.clk s.pkg } := rfl

theorem exec_dieLinkHeaderFailure (link : Nat) (s : State) : exec (.dieLinkHeaderFailure link) s = .next { s with pkg := headerFailureAt link s.clk s.pkg } := rfl

theorem exec_dieLinkPoison (link line sector : Nat) (s : State) : exec (.dieLinkPoison link line sector) s = .next { s with pkg := dieLinkPoisonAt link line sector s.pkg } := rfl

/-! The recovery state of a partition. -/

theorem part_modRecovery {p : Package} {k : Nat} (h : k < p.parts.length) (f : Recovery → Recovery) :
    (p.modRecovery k f).part k = { p.part k with recovery := f (p.recov k) } := by
  rw [Package.modRecovery, part_modPart, if_pos ⟨rfl, h⟩]
  rfl

theorem recov_modRecovery {p : Package} {k : Nat} (h : k < p.parts.length) (f : Recovery → Recovery) : (p.modRecovery k f).recov k = f (p.recov k) :=
  congrArg Partition.recovery (part_modRecovery h f)

theorem modRecovery_congr {p : Package} {k : Nat} {f g : Recovery → Recovery} (h : f (p.recov k) = g (p.recov k)) : p.modRecovery k f = p.modRecovery k g :=
  modPart_const p k _ _ (congrArg (fun r => { p.part k with recovery := r }) h)

theorem modRecovery_same {p : Package} {k : Nat} {f : Recovery → Recovery} (h : f (p.recov k) = p.recov k) : p.modRecovery k f = p :=
  (modRecovery_congr (g := fun r => r) h).trans (congrArg (fun l => { p with parts := l }) (modAt_id p.parts k))

theorem modRecovery_modRecovery (p : Package) (k : Nat) (f g : Recovery → Recovery) : (p.modRecovery k f).modRecovery k g = p.modRecovery k fun r => g (f r) :=
  congrArg (fun l => { p with parts := l }) (modAt_modAt ..)

/-- A partition with an error noted is one of the package's. -/
theorem lt_of_errorOffset {p : Package} {k : Nat} {e : Nat × List Nat} (h : (p.recov k).errorOffset = some e) : k < p.parts.length := by
  by_contra hge
  rw [Package.recov, part_of_length_le (not_lt.1 hge)] at h
  cases h

theorem parts_modRecovery_length (p : Package) (k : Nat) (f : Recovery → Recovery) : (p.modRecovery k f).parts.length = p.parts.length := parts_modPart_length ..

theorem canRollBack_iff (p : Package) (k : Nat) : p.canRollBack k = true ↔ (p.part k).recov = true ∧ (p.recov k).taken = true := Bool.and_eq_true_iff

theorem partCores_congr {p q : Package} (k : Nat) (hp : q.parts = p.parts) (hs : q.stages = p.stages) : q.partCores k = p.partCores k := by
  simp only [Package.partCores, Package.part, Package.present, hp, hs]

theorem nodup_partCores (p : Package) (k : Nat) : (p.partCores k).Nodup := List.nodup_range.filter _

/-! A point (R384): from the request to the stop of the cores. -/

theorem parts_askStops (l : List Nat) (p : Package) : (l.foldl Package.askStop p).parts = p.parts := by rw [askStops_eq]

theorem stops_stopped {p : Package} {l : List Nat} (h : ∀ c ∈ l, (p.core c).AllStopped) : l.foldl (fun (p : Package) c => (p.askStop c).stopStep c) p = p :=
  foldl_id fun c hc => by rw [askStop_stopped (h c hc), stopStep_stopped (h c hc)]

theorem parts_releaseCores (t : Clock) (l : List Nat) (p : Package) : (l.foldl (fun (p : Package) c => p.releaseCore t c) p).parts = p.parts :=
  List.foldlRecOn (motive := fun q : Package => q.parts = p.parts) l _ rfl fun q hq c _ => (releaseCore_stays t q c).parts.trans hq

section
variable {k : Nat} {t : Clock} {p : Package}

theorem recoveryPointAt_early {u : Nat} (hresume : (p.recov k).resumeAt = some u) (hu : t.rtick < u) : recoveryPointAt k t p = p := by
  simp only [recoveryPointAt, hresume]
  exact if_neg (Nat.not_le.2 hu)

theorem recoveryPointAt_resumes {u : Nat} (hresume : (p.recov k).resumeAt = some u) (hu : u ≤ t.rtick) : recoveryPointAt k t p = p.resumePart t k := by
  simp only [recoveryPointAt, hresume]
  exact if_pos hu

variable (hresume : (p.recov k).resumeAt = none)
include hresume

theorem recoveryPointAt_takes (hstop : (p.recov k).stopping = true) (ht : t.mcyc % 64 = 0) (hcue : p.cueQuiet k = true)
    (hhalted : ∀ core ∈ p.partCores k, p.coreHalted t core = true) : recoveryPointAt k t p = p.takePoint t k := by
  have hstops := stops_stopped fun c hc => allStopped_of_coreHalted (hhalted c hc)
  simp only [recoveryPointAt, hresume, hstop, if_true, hstops, ht, decide_true, hcue, Bool.and_self, Bool.true_and, List.all_eq_true]
  exact if_pos hhalted

variable (hstop : (p.recov k).stopping = false)
include hstop

theorem mayPoint_iff : p.mayPoint k = true ↔ (p.part k).recov = true ∧ (p.part k).valid = true ∧ (p.recov k).errorOffset = none ∧ p.planeOp = none := by
  have hstop' : (p.part k).recovery.stopping = false := hstop
  have hresume' : (p.part k).recovery.resumeAt = none := hresume
  simp only [Package.mayPoint, hstop', hresume', Bool.not_false, Option.isNone_none, Bool.and_true, Bool.and_eq_true, Option.isNone_iff_eq_none, and_assoc]
  exact Iff.rfl

theorem recoveryPointAt_no (h : (p.part k).recov = false ∨ (p.part k).valid = false ∨ (p.recov k).errorOffset ≠ none ∨ p.planeOp ≠ none) : recoveryPointAt k t p = p := by
  have hno : p.mayPoint k = false := by
    rw [← Bool.not_eq_true, mayPoint_iff hresume hstop]
    rintro ⟨hrecov, hvalid, herror, hop⟩
    rw [hrecov, hvalid] at h
    simp [herror, hop] at h
  simp only [recoveryPointAt, hresume, hstop, Bool.false_eq_true, if_false, hno, Bool.not_false, if_true]

variable (hmay : p.mayPoint k = true)
include hmay

theorem recoveryPointAt_requests (h : t.mcyc % 64 ≠ 0 ∨ t.rtick % 250 ≠ 0) : recoveryPointAt k t p = p.modRecovery k fun r => { r with requested := true } := by
  have hoff : (!decide (t.mcyc % 64 = 0) || decide (t.rtick % epochTicks ≠ 0)) = true := by
    rw [Bool.or_eq_true, Bool.not_eq_true', decide_eq_false_iff_not, decide_eq_true_eq]
    exact h
  simp only [recoveryPointAt, hresume, hstop, Bool.false_eq_true, if_false, hmay, Bool.not_true]
  exact if_pos hoff

theorem recoveryPointAt_stops (ht : t.mcyc % 64 = 0) (he : t.rtick % 250 = 0) : recoveryPointAt k t p =
    (((p.partCores k).foldl Package.askStop p).modRecovery k fun r => { r with stopping := true, pointAt := t.rtick }).later .now (.recoveryPoint k) := by
  have hon : ¬ (!decide (t.mcyc % 64 = 0) || decide (t.rtick % epochTicks ≠ 0)) = true := by
    rw [Bool.or_eq_true, Bool.not_eq_true', decide_eq_false_iff_not, decide_eq_true_eq]
    exact not_or.2 ⟨not_not.2 ht, not_not.2 he⟩
  simp only [recoveryPointAt, hresume, hstop, Bool.false_eq_true, if_false, hmay, Bool.not_true]
  exact if_neg hon

end

/-! Taking the point (R384). -/

/-- A core at a point: its context goes to the planes as a snapshot. -/
def Package.snapCore (p : Package) (c : Nat) : Package := (p.planeToDram c).modCore c fun x => { x with plane := .snapshot x.ctx }

/-- The shadows of the slices and of the vault controllers are taken (R274). -/
def Package.shadowed (p : Package) : Package :=
  { p with companies := p.companies.map fun c : Company => { c with shadow := c.l2.map CacheSet.shadow },
           vaults := p.vaults.map fun v : Vault =>
             { v with shadow := { vtemp := v.vtemp, vclass := v.vclass, refpos := v.refpos, rows := v.rows, scrubptr := v.scrubptr } } }

/-- The package with the snapshots and the shadows of a point. -/
def Package.snapped (p : Package) (k : Nat) : Package := ((p.partCores k).foldl Package.snapCore p).shadowed

/-- The recovery state at a point. -/
def Recovery.atPoint (r : Recovery) (tick : Nat) : Recovery :=
  { r with rpmcyc := 64 * r.pointAt, base := 64 * r.pointAt, rpseq := r.rpseq + 1, requested := false, stopping := false, journal := [], arrivals := [], grants := [],
           classes := [], resumeAt := some (tick + 8) }

theorem takePoint_eq (t : Clock) (p : Package) (k : Nat) : p.takePoint t k =
    (((p.snapped k).modRecovery k fun r => ((p.snapped k).copyFor k r).atPoint t.rtick).emptyFilters k).later (.tick (t.rtick + 8)) (.recoveryPoint k) := rfl

/-- The planes of a core that go to DRAM: partitions stay, but for SWAPPED, and of the cores only the planes of this one change. -/
theorem planeToDram_rest (p : Package) (c : Nat) : (p.planeToDram c).parts.length = p.parts.length
    ∧ (∀ j, ∃ b, (p.planeToDram c).part j = { p.part j with swapped := b })
    ∧ ((p.planeToDram c).cores = p.cores ∨ (p.planeToDram c).cores = modAt p.cores c fun x => { x with plane := .empty }) := by
  unfold Package.planeToDram
  split
  case h_2 => exact ⟨rfl, fun j => ⟨_, rfl⟩, .inl rfl⟩
  case h_1 k x _ =>
    dsimp only
    rw [reserve_rest]
    refine ⟨parts_modPart_length .., fun j => ?_, .inr rfl⟩
    rw [part_modPart]
    split
    case isTrue h => exact ⟨false, by rw [h.1]; rfl⟩
    case isFalse => exact ⟨_, rfl⟩

theorem snapCore_part (p : Package) (c j : Nat) : ∃ b, (p.snapCore c).part j = { p.part j with swapped := b } := (planeToDram_rest p c).2.1 j

theorem snapCore_self (p : Package) (c : Nat) : (p.snapCore c).cores[c]? = p.cores[c]?.map fun x => { x with plane := .snapshot x.ctx } := by
  rw [Package.snapCore, Package.modCore, modAt_get?, if_pos rfl]
  obtain ⟨-, -, h | h⟩ := planeToDram_rest p c
  · rw [h]
  · rw [h, modAt_get?, if_pos rfl, Option.map_map]
    rfl

theorem snapCore_ne (p : Package) {c j : Nat} (hj : j ≠ c) : (p.snapCore c).cores[j]? = p.cores[j]? := by
  rw [Package.snapCore, Package.modCore, modAt_get?, if_neg hj]
  obtain ⟨-, -, h | h⟩ := planeToDram_rest p c
  · rw [h]
  · rw [h, modAt_get?, if_neg hj]

theorem snapped_part (p : Package) (k j : Nat) : ∃ b, (p.snapped k).part j = { p.part j with swapped := b } :=
  List.foldlRecOn (motive := fun q : Package => ∃ b, q.part j = { p.part j with swapped := b }) (p.partCores k) Package.snapCore ⟨_, rfl⟩ fun q ⟨b, hq⟩ c _ => by
    obtain ⟨b', h⟩ := snapCore_part q c j
    exact ⟨b', by rw [h, hq]⟩

theorem parts_snapped_length (p : Package) (k : Nat) : (p.snapped k).parts.length = p.parts.length :=
  List.foldlRecOn (motive := fun q : Package => q.parts.length = p.parts.length) (p.partCores k) Package.snapCore rfl fun q hq c _ =>
    (planeToDram_rest q c).1.trans hq

theorem snapped_core {p : Package} {k c : Nat} (hc : c ∈ p.partCores k) : (p.snapped k).cores[c]? = p.cores[c]?.map fun x => { x with plane := .snapshot x.ctx } :=
  foldl_each (f := Package.snapCore) (key := id) (view := fun (p : Package) c => p.cores[c]?) (R := fun _ x y => y = x.map fun x => { x with plane := .snapshot x.ctx })
    snapCore_self (fun p _ _ hj => snapCore_ne p hj) (by simpa using nodup_partCores p k) hc p

/-- The recovery state of a partition at its point. -/
theorem recov_takePoint {p : Package} {k : Nat} (hlt : k < p.parts.length) (t : Clock) : (p.takePoint t k).recov k = ((p.snapped k).copyFor k (p.recov k)).atPoint t.rtick := by
  obtain ⟨b, hpart⟩ := snapped_part p k k
  have hrecov : (p.snapped k).recov k = p.recov k := (congrArg Partition.recovery hpart).trans rfl
  have hself := recov_modRecovery (parts_snapped_length p k ▸ hlt) fun r => ((p.snapped k).copyFor k r).atPoint t.rtick
  rw [hrecov] at hself
  exact hself

theorem core_takePoint {p : Package} {k c : Nat} (hc : c ∈ p.partCores k) (hlt : c < p.cores.length) (t : Clock) :
    (p.takePoint t k).core c = { p.core c with plane := .snapshot (p.core c).ctx } := by
  have hthere : p.cores[c]? = some (p.core c) := by rw [Package.core, List.getD_eq_getElem _ _ hlt, List.getElem?_eq_getElem hlt]
  have hsnap := snapped_core hc
  rw [hthere] at hsnap
  exact core_of_get? hsnap

/-! What a rollback leaves in place: partitions, cast entries and the stages present (R386). -/

/-- Partitions, cast entries and the stages present are as before. -/
structure ListsStay (p q : Package) : Prop where
  parts : q.parts = p.parts
  casts : q.casts = p.casts
  stages : q.stages = p.stages

theorem ListsStay.refl (p : Package) : ListsStay p p := ⟨rfl, rfl, rfl⟩

theorem ListsStay.trans {p q r : Package} (h : ListsStay p q) (h' : ListsStay q r) : ListsStay p r :=
  ⟨h'.parts.trans h.parts, h'.casts.trans h.casts, h'.stages.trans h.stages⟩

theorem ListsStay.foldl {α : Type} {f : Package → α → Package} (h : ∀ p a, ListsStay p (f p a)) (l : List α) (p : Package) : ListsStay p (l.foldl f p) :=
  List.foldlRecOn (motive := ListsStay p) l f (.refl p) fun q hq a _ => hq.trans (h q a)

theorem putLine_aside (p : Package) (x : Line) : ListsStay p (p.putLine x) ∧ (p.putLine x).cores = p.cores := by
  unfold Package.putLine
  dsimp only
  split
  · exact ⟨⟨rfl, rfl, rfl⟩, rfl⟩
  · exact ⟨⟨rfl, rfl, rfl⟩, rfl⟩

theorem undo_aside (p : Package) (l : List JournalEntry) : ListsStay p (p.undo l) ∧ (p.undo l).cores = p.cores :=
  List.foldlRecOn (motive := fun q => ListsStay p q ∧ q.cores = p.cores) l.reverse _ ⟨.refl p, rfl⟩ fun q ⟨hq, hcores⟩ e _ => by
    obtain ⟨h, hc⟩ := putLine_aside (q.clearReservations e.line) { line := e.line, data := e.old, dirty := 3, poison := e.poison }
    have hclear : ListsStay q (q.clearReservations e.line) := ⟨rfl, rfl, rfl⟩
    exact ⟨hq.trans (hclear.trans h), hc.trans hcores⟩

/-- A core of which nothing is under way. -/
def Core.emptied (x : Core) : Core :=
  { x with xq := List.replicate 4 [], arrayQ := [], arrayAt := 0, cq := List.replicate 4 none, tokens := [], tokensWaiting := [], barrier := [], replies := [], binds := [],
           zombies := [] }

/-- What waits elsewhere for the waves of a core is dropped with the core's own. -/
def Package.emptyCore (p : Package) (c : Nat) : Package := (((List.range 64).foldl (fun (p : Package) i => p.dropMarkers c i) p).dropCoreFaults c).modCore c Core.emptied

theorem dropMarkers_aside (c : Nat) (l : List Nat) (p : Package) :
    ListsStay p (l.foldl (fun (p : Package) i => p.dropMarkers c i) p) ∧ (l.foldl (fun (p : Package) i => p.dropMarkers c i) p).cores = p.cores :=
  List.foldlRecOn (motive := fun q => ListsStay p q ∧ q.cores = p.cores) l _ ⟨.refl p, rfl⟩ fun _ ⟨hq, hcores⟩ _ _ => ⟨hq.trans ⟨rfl, rfl, rfl⟩, hcores⟩

theorem emptied_aside (p : Package) (c : Nat) :
    ListsStay p ((p.dropCoreFaults c).modCore c Core.emptied) ∧ ((p.dropCoreFaults c).modCore c Core.emptied).cores = modAt p.cores c Core.emptied :=
  ⟨⟨rfl, rfl, rfl⟩, rfl⟩

theorem emptyCore_lists (p : Package) (c : Nat) : ListsStay p (p.emptyCore c) := (dropMarkers_aside c _ p).1.trans (emptied_aside _ c).1

theorem emptyCore_cores (p : Package) (c : Nat) : (p.emptyCore c).cores = modAt p.cores c Core.emptied := by
  rw [Package.emptyCore, (emptied_aside _ c).2, (dropMarkers_aside c (List.range 64) p).2]

theorem dropFlight_eq (p : Package) (k : Nat) : ∃ q, ListsStay p q ∧ q.cores = p.cores ∧ p.dropFlight k = (p.partCores k).foldl Package.emptyCore q := by
  refine ⟨_, ?_, ?_, rfl⟩
  · exact ⟨rfl, rfl, rfl⟩
  · rfl

theorem dropFlight_lists (p : Package) (k : Nat) : ListsStay p (p.dropFlight k) := by
  obtain ⟨q, hq, -, h⟩ := dropFlight_eq p k
  rw [h]
  exact hq.trans (.foldl emptyCore_lists _ q)

theorem dropFlight_core {p : Package} {k c : Nat} (hc : c ∈ p.partCores k) : (p.dropFlight k).cores[c]? = p.cores[c]?.map Core.emptied := by
  obtain ⟨q, -, hcores, h⟩ := dropFlight_eq p k
  rw [h, ← hcores]
  refine foldl_each (f := Package.emptyCore) (key := id) (view := fun (p : Package) c => p.cores[c]?) (R := fun _ x y => y = x.map Core.emptied) (fun p c => ?_) (fun p c j hj => ?_)
    (by simpa using nodup_partCores p k) hc q
  · rw [emptyCore_cores]
    exact (modAt_get? ..).trans (if_pos rfl)
  · rw [emptyCore_cores]
    exact (modAt_get? ..).trans (if_neg hj)

/-! What a rollback brings back (R386). -/

/-- A core whose planes hold a snapshot has it back. -/
def Package.bringBack (p : Package) (c : Nat) : Package :=
  match (p.core c).plane with
  | .snapshot x => (p.modCore c fun y => { y with ctx := x }).l1Clear c
  | _ => p

theorem bringBack_lists (p : Package) (c : Nat) : ListsStay p (p.bringBack c) := by
  unfold Package.bringBack
  split
  · exact ⟨rfl, rfl, rfl⟩
  · exact .refl p

theorem bringBack_self {p : Package} {c : Nat} {k : Core} {x : CoreCtx} (hk : p.cores[c]? = some k) (hx : k.plane = .snapshot x) :
    ∃ g : Reply → Reply, (p.bringBack c).cores[c]? = some { k with ctx := x, l1 := [], replies := k.replies.map g } := by
  have hback : p.bringBack c = (p.modCore c fun y => { y with ctx := x }).l1Clear c := by rw [Package.bringBack, core_of_get? hk, hx]
  rw [hback]
  simp only [Package.modCore, Package.l1Clear, Package.cancelFills, modAt_get?, if_true, hk, Option.map_some]
  exact ⟨_, rfl⟩

theorem bringBack_ne {p : Package} {c j : Nat} (hj : j ≠ c) : (p.bringBack c).cores[j]? = p.cores[j]? := by
  unfold Package.bringBack
  split
  · simp only [Package.modCore, Package.l1Clear, Package.cancelFills, modAt_get?, if_neg hj]
  · rfl

theorem bringBacks {l : List Nat} (hn : l.Nodup) {c : Nat} (hc : c ∈ l) {p : Package} {k : Core} {x : CoreCtx} (hk : p.cores[c]? = some k) (hx : k.plane = .snapshot x) :
    ∃ g : Reply → Reply, (l.foldl Package.bringBack p).cores[c]? = some { k with ctx := x, l1 := [], replies := k.replies.map g } :=
  foldl_each (f := Package.bringBack) (key := id) (view := fun (p : Package) c => p.cores[c]?)
    (R := fun _ y z => ∀ k x, y = some k → k.plane = .snapshot x → ∃ g : Reply → Reply, z = some { k with ctx := x, l1 := [], replies := k.replies.map g })
    (fun _ _ _ _ hk hx => bringBack_self hk hx) (fun _ _ _ hj => bringBack_ne hj) (by simpa using hn) hc p k x hk hx

/-- The copies of a point beside those of its partition: the casts, the staged cues, the counts of the gates, the faults and what waits at the endpoint. -/
def Package.listsBack (p : Package) (k : Nat) (r : Recovery) : Package :=
  let now := (p.casts.filter fun e => e.part = k).flatMap CastEntry.demands
  let q := (p.reserve now false).reserve (r.casts.flatMap CastEntry.demands) true
  { q with casts := q.casts.filter (fun e => e.part ≠ k) ++ r.casts, cueStaged := q.cueStaged.filter (fun s => s.key.part ≠ k) ++ r.cueStaged,
           gates := (q.gates.zipIdx).map fun g : Gate × Nat => { g.1 with eghigh := g.1.egacked, egseq := r.egseq.getD g.2 g.1.egseq },
           faults := q.faults.filter (fun f => f.part ≠ k) ++ r.faults, pcie := q.pcie.filter (fun w => w.1 % 8 ≠ k) ++ r.pcie }

/-- A staged entry of the point goes back to its slice. -/
def Package.stageBack (p : Package) (s : Nat × Staged) : Package := p.modCompany (p.homeOf s.2.line) fun c => { c with staged := c.staged ++ [s.2] }

/-- The copies of a point that its partition holds. -/
def Partition.back (q : Partition) (r : Recovery) : Partition :=
  { q with dc := r.dc, nodes := restoredNodes r.nodes q.nodes, nextTag := r.nextTag, hmqHead := r.hmqHead, hmqTail := r.hmqTail, hmqBuf := r.hmqBuf, dropped := r.dropped }

/-- All but the partition's own copies are back. -/
def Package.restored (p : Package) (k : Nat) : Package :=
  ((p.recov k).staged.foldl Package.stageBack (((p.partCores k).foldl Package.bringBack p).listsBack k (p.recov k))).restoreTickets k (p.recov k).tickets

theorem restorePoint_eq (p : Package) (k : Nat) : p.restorePoint k = (p.restored k).modPart k fun q => q.back (p.recov k) := rfl

theorem listsBack_rest (p : Package) (k : Nat) (r : Recovery) :
    (p.listsBack k r).parts = p.parts ∧ (p.listsBack k r).cores = p.cores ∧ (p.listsBack k r).casts = p.casts.filter (fun e => e.part ≠ k) ++ r.casts := by
  unfold Package.listsBack
  dsimp only
  rw [reserve_rest (p.reserve _ false), reserve_rest p]
  exact ⟨rfl, rfl, rfl⟩

theorem restored_rest (p : Package) (k : Nat) : (p.restored k).parts = p.parts ∧ (p.restored k).cores = ((p.partCores k).foldl Package.bringBack p).cores
    ∧ (p.restored k).casts = p.casts.filter (fun e => e.part ≠ k) ++ (p.recov k).casts := by
  have hback : ListsStay p ((p.partCores k).foldl Package.bringBack p) := .foldl bringBack_lists _ p
  obtain ⟨hparts, hcores, hcasts⟩ := listsBack_rest ((p.partCores k).foldl Package.bringBack p) k (p.recov k)
  rw [hback.parts] at hparts
  rw [hback.casts] at hcasts
  exact List.foldlRecOn (motive := fun q : Package => q.parts = p.parts ∧ q.cores = _ ∧ q.casts = _) (p.recov k).staged Package.stageBack ⟨hparts, hcores, hcasts⟩ fun _ hq _ _ => hq

/-! Nodes: those of the point, with the refresh cost of now (Table 20.4). -/

/-- A node with the refresh cost of another. -/
def Node.withNoderc (x y : Node) : Node := { x with noderc := y.noderc }

theorem tabGet_mapKeyed {α : Type} (f : Nat → α → α) (l : List (Nat × α)) (n : Nat) : tabGet (l.map fun x => (x.1, f x.1 x.2)) n = (tabGet l n).map (f n) := by
  induction l with
  | nil => rfl
  | cons x l ih =>
    rw [List.map_cons, tabGet, tabGet]
    split
    case isTrue h => rw [h]; rfl
    case isFalse => exact ih

theorem tabGet_of_mem {α : Type} {l : List (Nat × α)} {x : Nat × α} (hn : (l.map Prod.fst).Nodup) (hx : x ∈ l) : tabGet l x.1 = some x.2 := by
  induction l with
  | nil => cases hx
  | cons y l ih =>
    rw [List.map_cons, List.nodup_cons] at hn
    rcases List.mem_cons.1 hx with rfl | hx
    · exact if_pos rfl
    · have hne : x.1 ≠ y.1 := fun h => hn.1 (h ▸ List.mem_map_of_mem hx)
      exact (if_neg hne).trans (ih hn.2 hx)

theorem tabGet_eq_none {α : Type} {l : List (Nat × α)} {n : Nat} (h : n ∉ l.map Prod.fst) : tabGet l n = none := by
  induction l with
  | nil => rfl
  | cons y l ih =>
    rw [List.map_cons, List.mem_cons, not_or] at h
    exact (if_neg h.1).trans (ih h.2)

/-- The node of a table. -/
def nodeOf (l : List (Nat × Node)) (n : Nat) : Node := (tabGet l n).getD {}

/-- The refresh cost of a node of now is put to its entry. -/
def putNoderc (l : List (Nat × Node)) (x : Nat × Node) : List (Nat × Node) :=
  if x.2.noderc = (nodeOf l x.1).noderc then l else tabSet l x.1 { nodeOf l x.1 with noderc := x.2.noderc }

theorem nodeOf_putNoderc (l : List (Nat × Node)) (x : Nat × Node) : nodeOf (putNoderc l x) x.1 = (nodeOf l x.1).withNoderc x.2 := by
  unfold putNoderc
  split
  case isTrue h => rw [Node.withNoderc, h]
  case isFalse => rw [nodeOf, tabGet_tabSet, if_pos rfl]; rfl

theorem nodeOf_putNoderc_ne (l : List (Nat × Node)) (x : Nat × Node) (n : Nat) (h : n ≠ x.1) : nodeOf (putNoderc l x) n = nodeOf l n := by
  unfold putNoderc
  split
  · rfl
  · rw [nodeOf, tabGet_tabSet, if_neg h]
    rfl

theorem restoredNodes_eq (old now : List (Nat × Node)) : restoredNodes old now = now.foldl putNoderc (old.map fun x => (x.1, x.2.withNoderc (nodeOf now x.1))) := rfl

theorem nodeOf_eq (l : List (Nat × Node)) (n : Nat) : nodeOf l n = (tabGet l n).getD {} := rfl

theorem nodeOf_restoredNodes {now : List (Nat × Node)} (hn : (now.map Prod.fst).Nodup) (old : List (Nat × Node)) (n : Nat) :
    nodeOf (restoredNodes old now) n = (nodeOf old n).withNoderc (nodeOf now n) := by
  have hold : (nodeOf (old.map fun x => (x.1, x.2.withNoderc (nodeOf now x.1))) n).withNoderc (nodeOf now n) = (nodeOf old n).withNoderc (nodeOf now n) := by
    rw [nodeOf, tabGet_mapKeyed (fun (n : Nat) (x : Node) => x.withNoderc (nodeOf now n)), nodeOf_eq old]
    cases tabGet old n with
    | none => rfl
    | some x => rfl
  rw [restoredNodes_eq]
  by_cases hmem : n ∈ now.map Prod.fst
  · obtain ⟨x, hx, rfl⟩ := List.mem_map.1 hmem
    have hnow : nodeOf now x.1 = x.2 := by rw [nodeOf, tabGet_of_mem hn hx]; rfl
    rw [← hold, hnow]
    exact foldl_each (f := putNoderc) (key := Prod.fst) (view := nodeOf) (R := fun x a b => b = a.withNoderc x.2) nodeOf_putNoderc nodeOf_putNoderc_ne hn hx _
  · have hnow : nodeOf now n = {} := by rw [nodeOf, tabGet_eq_none hmem]; rfl
    rw [foldl_untouched (f := putNoderc) (view := nodeOf) nodeOf_putNoderc_ne hmem, nodeOf, tabGet_mapKeyed (fun (n : Nat) (x : Node) => x.withNoderc (nodeOf now n)), hnow, nodeOf_eq old]
    cases tabGet old n with
    | none => rfl
    | some x => rfl

/-! The rollback (R386). -/

/-- The package before the copies come back: the journal is undone, and nothing of the partition is under way. -/
def Package.undone (p : Package) (k : Nat) : Package := ((p.undo (p.recov k).journal).dropFlight k).emptyFilters k

theorem undone_lists (p : Package) (k : Nat) : ListsStay p (p.undone k) := ((undo_aside p _).1.trans (dropFlight_lists _ k)).trans ⟨rfl, rfl, rfl⟩

theorem undone_core {p : Package} {k c : Nat} (hc : c ∈ p.partCores k) : (p.undone k).cores[c]? = p.cores[c]?.map Core.emptied := by
  obtain ⟨hlists, hcores⟩ := undo_aside p (p.recov k).journal
  have hmem : c ∈ (p.undo (p.recov k).journal).partCores k := partCores_congr k hlists.parts hlists.stages ▸ hc
  have hdrop := dropFlight_core hmem
  rw [hcores] at hdrop
  exact hdrop

/-- Beside what is due, a rollback is the restoration of what is left of the partition, and its recovery state that moves on. -/
theorem rollBack_eq (t : Clock) (p : Package) (k : Nat) : ∃ due, p.rollBack t k =
    { ((p.undone k).restorePoint k).modRecovery k fun r => r.shift (nextEpoch t.rtick) with due } :=
  ⟨_, rfl⟩

section
variable {p : Package} {k : Nat} (t : Clock)

theorem lists_rollBack : (p.rollBack t k).casts = ((p.undone k).restored k).casts ∧ (p.rollBack t k).cores = ((p.undone k).restored k).cores := by
  obtain ⟨due, h⟩ := rollBack_eq t p k
  rw [h]
  dsimp only
  rw [Package.modRecovery, Package.modPart_casts, Package.modPart_cores, restorePoint_eq, Package.modPart_casts, Package.modPart_cores]
  exact ⟨rfl, rfl⟩

theorem part_undone (p : Package) (k j : Nat) : (p.undone k).part j = p.part j := by rw [Package.part, (undone_lists p k).parts, Package.part]

theorem recov_undone (p : Package) (k j : Nat) : (p.undone k).recov j = p.recov j := by rw [Package.recov, part_undone, Package.recov]

theorem parts_restored_undone (p : Package) (k : Nat) : ((p.undone k).restored k).parts = p.parts := (restored_rest (p.undone k) k).1.trans (undone_lists p k).parts

theorem casts_rollBack : (p.rollBack t k).casts = p.casts.filter (fun e => e.part ≠ k) ++ (p.recov k).casts := by
  rw [(lists_rollBack t).1, (restored_rest (p.undone k) k).2.2, (undone_lists p k).casts, recov_undone]

theorem part_rollBack (hlt : k < p.parts.length) :
    (p.rollBack t k).part k = { (p.part k).back (p.recov k) with recovery := (p.recov k).shift (nextEpoch t.rtick) } := by
  obtain ⟨due, h⟩ := rollBack_eq t p k
  have hrestored : ((p.undone k).restored k).part k = p.part k := by rw [Package.part, parts_restored_undone, Package.part]
  have hback : ((p.undone k).restorePoint k).part k = (p.part k).back (p.recov k) := by
    rw [restorePoint_eq, part_modPart, if_pos ⟨rfl, (parts_restored_undone p k).symm ▸ hlt⟩, hrestored, recov_undone]
  have hlen : k < ((p.undone k).restorePoint k).parts.length := by
    rw [restorePoint_eq, parts_modPart_length, parts_restored_undone]
    exact hlt
  have hrecov : ((p.undone k).restorePoint k).recov k = p.recov k := by
    rw [Package.recov, hback]
    rfl
  have hmod := part_modRecovery hlen fun r => r.shift (nextEpoch t.rtick)
  rw [hback, hrecov] at hmod
  rw [h]
  exact hmod

theorem core_rollBack {c : Nat} {x : CoreCtx} (hc : c ∈ p.partCores k) (hlt : c < p.cores.length) (hx : (p.core c).plane = .snapshot x) :
    ∃ g : Reply → Reply, (p.rollBack t k).core c = { (p.core c).emptied with ctx := x, l1 := [], replies := (p.core c).emptied.replies.map g } := by
  have hthere : p.cores[c]? = some (p.core c) := by rw [Package.core, List.getD_eq_getElem _ _ hlt, List.getElem?_eq_getElem hlt]
  have hundone : (p.undone k).cores[c]? = some (p.core c).emptied := by
    rw [undone_core hc, hthere]
    rfl
  have hmem : c ∈ (p.undone k).partCores k := by
    rw [partCores_congr k (undone_lists p k).parts (undone_lists p k).stages]
    exact hc
  obtain ⟨g, hback⟩ := bringBacks (nodup_partCores (p.undone k) k) hmem hundone (x := x) hx
  exact ⟨g, core_of_get? (by rw [(lists_rollBack t).2, (restored_rest (p.undone k) k).2.1, hback])⟩

end

theorem nextEpoch_eq (t : Nat) : nextEpoch t = (t + 249) / 250 * 250 := by simp [nextEpoch, epochTicks]

/-- A rollback of the package as it stands, or with the error noted, is the rollback of the state. -/
theorem rolledBack_rollBack {s : State} {k : Nat} {p : Package} (hlt : k < s.pkg.parts.length) (f : Recovery → Recovery) (hp : p = s.pkg.modRecovery k f)
    (hf : ∃ e, f (s.pkg.recov k) = { s.pkg.recov k with errorOffset := e }) : RolledBack s { s with pkg := p.rollBack s.clk k } k := by
  obtain ⟨e, he⟩ := hf
  subst hp
  have hpart := part_modRecovery hlt f
  have hrecov : (s.pkg.modRecovery k f).recov k = { s.pkg.recov k with errorOffset := e } := (recov_modRecovery hlt f).trans he
  have hback := part_rollBack (p := s.pkg.modRecovery k f) s.clk (parts_modRecovery_length s.pkg k f ▸ hlt)
  have hcasts := casts_rollBack (p := s.pkg.modRecovery k f) (k := k) s.clk
  rw [hrecov] at hback hcasts
  rw [hpart] at hback
  rw [RolledBack, ← nextEpoch_eq]
  refine ⟨rfl, hcasts, (congrArg Partition.dc hback).trans rfl, fun hn n => ?_, (congrArg Partition.hmqHead hback).trans rfl, (congrArg Partition.hmqTail hback).trans rfl,
    (congrArg Partition.hmqBuf hback).trans rfl, (congrArg (fun q : Partition => q.recovery.rpmcyc) hback).trans rfl,
    (congrArg (fun q : Partition => q.recovery.rpseq) hback).trans rfl, (congrArg (fun q : Partition => q.recovery.base) hback).trans rfl,
    (congrArg (fun q : Partition => q.recovery.journal) hback).trans rfl, (congrArg (fun q : Partition => q.recovery.resumeAt) hback).trans rfl,
    (congrArg (fun q : Partition => q.recovery.rolling) hback).trans rfl, fun core x hcore hcl hx => ?_⟩
  · exact (congrArg (fun q : Partition => nodeOf q.nodes n) hback).trans (nodeOf_restoredNodes hn _ n)
  · have hmem : core ∈ (s.pkg.modRecovery k f).partCores k := by
      simp only [Package.partCores, hpart]
      exact hcore
    obtain ⟨g, hrolled⟩ := core_rollBack (p := s.pkg.modRecovery k f) s.clk hmem hcl hx
    exact ⟨congrArg (fun c : Core => c.ctx) hrolled, congrArg Core.l1 hrolled, congrArg Core.arrayQ hrolled, congrArg Core.replies hrolled⟩

/-- An error noted in a state that has noted none. -/
theorem noteError_first {r : Recovery} (h : r.errorOffset = none) (mcyc unit : Nat) : r.noteError mcyc unit = { r with errorOffset := some (mcyc - r.base, [unit]) } := by
  rw [Recovery.noteError, h]

section
variable {p : Package} {k unit : Nat} {t : Clock}

theorem rollbackAt_keeps (h : ¬ ((p.part k).recov = true ∧ (p.recov k).taken = true)) : rollbackAt k unit t p = p := by
  refine if_pos ?_
  rw [Bool.not_eq_true', ← Bool.not_eq_true, canRollBack_iff]
  exact h

variable (hback : (p.part k).recov = true ∧ (p.recov k).taken = true)
include hback

theorem cannot_not : ¬ (!p.canRollBack k) = true := by
  rw [(canRollBack_iff p k).2 hback]
  exact Bool.false_ne_true

theorem rollbackAt_due {u : Nat} (hrolling : (p.recov k).rolling = some u) (hu : u ≤ t.rtick) (ht : t.mcyc % 64 = 0) : rollbackAt k unit t p = p.rollBack t k := by
  rw [rollbackAt, if_neg (cannot_not hback)]
  simp only [hrolling]
  exact if_pos (by simp [hu, ht])

variable (hrolling : (p.recov k).rolling = none)
include hrolling

theorem rollbackAt_second {us : List Nat} {o : Nat} (herror : (p.recov k).errorOffset = some (o, us)) (hunit : unit ∈ us) (hin : t.mcyc < (p.recov k).base + o) :
    rollbackAt k unit t p = p.failPart t k unit := by
  rw [rollbackAt, if_neg (cannot_not hback)]
  simp only [hrolling]
  exact if_pos (by simp [Recovery.second, herror, hunit, hin])

variable (herror : (p.recov k).errorOffset = none)
include herror

theorem rollbackAt_first : rollbackAt k unit t p =
    if t.mcyc % 64 = 0 then (p.modRecovery k fun r => r.noteError t.mcyc unit).rollBack t k
    else ((p.modRecovery k fun r => r.noteError t.mcyc unit).modRecovery k fun r => { r with rolling := some (t.rtick + 1) }).later (.tick (t.rtick + 1)) (.rollback k unit) := by
  rw [rollbackAt, if_neg (cannot_not hback)]
  simp only [hrolling]
  exact if_neg (by simp [Recovery.second, herror])

theorem rollbackAt_notes (ht : t.mcyc % 64 ≠ 0) : rollbackAt k unit t p =
    (p.modRecovery k fun r => { r with errorOffset := some (t.mcyc - (p.recov k).base, [unit]), rolling := some (t.rtick + 1) }).later (.tick (t.rtick + 1)) (.rollback k unit) := by
  rw [rollbackAt_first hback hrolling herror, if_neg ht, modRecovery_modRecovery]
  refine congrArg (fun q : Package => q.later (.tick (t.rtick + 1)) (.rollback k unit)) (modRecovery_congr ?_)
  rw [noteError_first herror]

end

/-! A hard failure (R386, R387). -/

theorem hmqPost_rest (p : Package) (k : Nat) (e : HmqEntry) : (p.hmqPost k e).win = p.win ∧ (p.hmqPost k e).cores = p.cores ∧ ∀ j, (p.hmqPost k e).recov j = p.recov j := by
  unfold Package.hmqPost
  split
  · refine ⟨rfl, rfl, fun j => (congrArg Partition.recovery (part_modPart ..)).trans ?_⟩
    split
    case isTrue h => rw [h.1]; rfl
    case isFalse => rfl
  · refine ⟨rfl, rfl, fun j => (congrArg Partition.recovery (part_modPart ..)).trans ?_⟩
    split
    case isTrue h => rw [h.1]; rfl
    case isFalse => rfl

theorem reportFail_rest (t : Clock) (p : Package) (k unit : Nat) :
    (p.reportFail t k unit).win = { p.win with hardfail := true, failAt := t.mcyc + 1, hfpart := p.win.hfpart ||| BitVec.ofNat 8 (2 ^ k) }
      ∧ (p.reportFail t k unit).cores = p.cores ∧ ∀ j, (p.reportFail t k unit).recov j = p.recov j :=
  hmqPost_rest _ k _

/-- The partitions that are told of a failure, and those that were told before. -/
theorem reportFails_rest (t : Clock) (unit : Nat) (l : List Nat) (p : Package) :
    let q := l.foldl (fun (p : Package) k => p.reportFail t k unit) p
    q.cores = p.cores ∧ (p.win.hardfail = true → q.win.hardfail = true) ∧ ∀ j, j < 8 → (j ∈ l ∨ p.win.hfpart.getLsbD j = true) → q.win.hfpart.getLsbD j = true := by
  induction l generalizing p with
  | nil => exact ⟨rfl, id, fun j _ hj => hj.resolve_left List.not_mem_nil⟩
  | cons k l ih =>
    obtain ⟨hwin, hcores, -⟩ := reportFail_rest t p k unit
    obtain ⟨hcores', hfail, hbits⟩ := ih (p.reportFail t k unit)
    refine ⟨hcores'.trans hcores, fun _ => hfail (by rw [hwin]), fun j hj hor => hbits j hj ?_⟩
    rw [hwin]
    simp only [BitVec.getLsbD_or, BitVec.getLsbD_ofNat, Nat.testBit_two_pow, hj, decide_true, Bool.true_and, Bool.or_eq_true, decide_eq_true_eq]
    rcases hor with hmem | hset
    · rcases List.mem_cons.1 hmem with rfl | hmem
      · exact .inr (.inr rfl)
      · exact .inl hmem
    · exact .inr (.inl hset)

/-- The recovery state once the held arrivals have gone. -/
def Recovery.freed (r : Recovery) : Recovery := { r with liveHeld := [], errorOffset := none }

/-- The recovery state of a partition that has failed. -/
def Recovery.failed (r : Recovery) : Recovery := { r with taken := false, stopping := false, resumeAt := none, rolling := none, inject := [], arrivals := [] }

/-- With no live arrival held, the error is forgotten. -/
theorem freeLive_none {p : Package} {k : Nat} (h : (p.recov k).liveHeld = []) (t : Clock) : p.freeLive t k = p.modRecovery k Recovery.freed := by
  simp only [Package.freeLive, h, List.foldl_nil]
  rfl

/-- A partition without a live cast and without held arrivals fails: its point is gone, and it is told. -/
theorem failPart_rest {p : Package} {k : Nat} (hlt : k < p.parts.length) (hk : k < 8) (hheld : (p.recov k).liveHeld = []) (hcasts : ∀ e ∈ p.casts, e.part = k → e.live = false)
    (t : Clock) (unit : Nat) : ((p.failPart t k unit).recov k).taken = false ∧ ((p.failPart t k unit).recov k).errorOffset = none
      ∧ (p.failPart t k unit).win.hardfail = true ∧ (p.failPart t k unit).win.hfpart.getLsbD k = true := by
  have hnone : (p.casts.filter fun e => e.part = k && e.live) = [] := List.filter_eq_nil_iff.2 fun e he h => by
    rw [Bool.and_eq_true, decide_eq_true_eq] at h
    exact Bool.false_ne_true ((hcasts e he h.1).symm.trans h.2)
  have hfirst := recov_modRecovery hlt Recovery.failed
  have hheld' : ((p.modRecovery k Recovery.failed).recov k).liveHeld = [] := (congrArg Recovery.liveHeld hfirst).trans hheld
  have hfreed := recov_modRecovery ((parts_modRecovery_length p k Recovery.failed).symm ▸ hlt) Recovery.freed
  have hfail : p.failPart t k unit = (((p.modRecovery k Recovery.failed).modRecovery k Recovery.freed).reportFail t k unit) := by
    rw [Package.failPart, hnone, ← freeLive_none hheld']
    rfl
  obtain ⟨hwin, -, hrecov⟩ := reportFail_rest t ((p.modRecovery k Recovery.failed).modRecovery k Recovery.freed) k unit
  rw [hfail, hrecov, hfreed, hfirst, hwin]
  exact ⟨rfl, rfl, rfl, by simp only [BitVec.getLsbD_or, BitVec.getLsbD_ofNat, Nat.testBit_two_pow_self, hk, decide_true, Bool.and_self, Bool.or_true]⟩

/-! Recorded arrivals (R386). -/

/-- The next recorded arrival is due. -/
def Package.injectNext (p : Package) (k : Nat) : Package :=
  match (p.recov k).inject with
  | a :: _ => p.later (.mesh a.1) (.arrivalJournalInject k)
  | [] => p

theorem injectNext_none {p : Package} {k : Nat} (h : (p.recov k).inject = []) : p.injectNext k = p := by simp only [Package.injectNext, h]

/-- A recorded arrival is accepted at its new stamp. -/
def Package.acceptRecorded (p : Package) (a : Nat × Nat × Arrival) : Package :=
  p.modGate a.2.1 fun g => { g with effects := g.effects ++ [(a.1 + Config.stampDelay, a.2.2)] }

/-- The recovery state when the arrivals up to a mesh cycle have been accepted again. -/
def Recovery.injected (r : Recovery) (mcyc : Nat) : Recovery := { r with inject := r.inject.filter fun a => mcyc < a.1 }

/-- The recorded arrivals whose stamps have come are accepted. -/
def Package.injectDue (p : Package) (k : Nat) (t : Clock) : Package :=
  (((p.recov k).inject.filter fun a => a.1 ≤ t.mcyc).foldl Package.acceptRecorded p).modRecovery k fun r => r.injected t.mcyc

section
variable {p : Package} {k : Nat} {t : Clock}

theorem journalInjectAt_plain (h : (p.recov k).errorOffset = none) : journalInjectAt k t p = (p.injectDue k t).injectNext k := by
  simp only [journalInjectAt, h]
  rfl

theorem journalInjectAt_over {o : Nat} {us : List Nat} (h : (p.recov k).errorOffset = some (o, us)) (hresume : (p.recov k).resumeAt = none) (hrolling : (p.recov k).rolling = none)
    (hover : (p.recov k).base + o ≤ t.mcyc) : journalInjectAt k t p = ((p.injectDue k t).freeLive t k).injectNext k := by
  simp only [journalInjectAt, h]
  exact if_pos (by simp [hresume, hrolling, hover])

theorem injected_none {r : Recovery} (h : r.inject = []) (mcyc : Nat) : r.injected mcyc = r := by
  rw [Recovery.injected, h, List.filter_nil, ← h]

theorem injectDue_none (h : (p.recov k).inject = []) : p.injectDue k t = p := by
  rw [Package.injectDue, h, List.filter_nil, List.foldl_nil, modRecovery_same (injected_none h _)]

theorem injectDue_one {stamp g : Nat} {a : Arrival} (h : (p.recov k).inject = [(stamp, g, a)]) (hs : stamp ≤ t.mcyc) :
    p.injectDue k t = (p.acceptRecorded (stamp, g, a)).modRecovery k fun r => { r with inject := [] } := by
  have hdue : (p.recov k).inject.filter (fun a => a.1 ≤ t.mcyc) = [(stamp, g, a)] := by simp [h, hs]
  have hrest : (p.recov k).injected t.mcyc = { p.recov k with inject := [] } := by
    rw [Recovery.injected, h]
    simp [Nat.not_lt.2 hs]
  rw [Package.injectDue, hdue, List.foldl_cons, List.foldl_nil]
  exact modRecovery_congr (p := p.acceptRecorded (stamp, g, a)) hrest

end

/-! Die links (R313, R387). -/

theorem headerFailureAt_rolls {p : Package} {k : Nat} (hparts : p.validParts = [k]) (hback : p.canRollBack k = true) (link : Nat) (t : Clock) :
    headerFailureAt link t p = rollbackAt k (0x5000 + link % 4) t p := by
  rw [headerFailureAt, hparts]
  exact if_pos (by simp [hback])

theorem headerFailureAt_fails {p : Package} {k : Nat} (hk : k ∈ p.validParts) (hno : p.canRollBack k = false) (link : Nat) (t : Clock) : headerFailureAt link t p =
    (p.validParts.foldl (fun (p : Package) k => p.reportFail t k (0x5000 + link % 4)) { p with win := { p.win with hardfail := true, failAt := t.mcyc + 1 } }).later (.tick (t.rtick + 1))
      .hardfailFreeze := by
  refine if_neg fun h => ?_
  rw [Bool.and_eq_true, List.all_eq_true] at h
  exact Bool.false_ne_true (hno.symm.trans (h.1 k hk))

theorem dieLinkPoisonAt_poisons {p : Package} (h : ∀ k ∈ p.validParts, p.canRollBack k = false) (link line sector : Nat) : dieLinkPoisonAt link line sector p = p.poisonSector line sector := by
  have hcannot : ∀ k ∈ p.validParts.filter (fun k => p.wantsLine k line), p.canRollBack k = false := fun k hk => h k (List.mem_of_mem_filter hk)
  have hnone : (p.validParts.filter fun k => p.wantsLine k line).filter p.canRollBack = [] := List.filter_eq_nil_iff.2 fun k hk => by simp [hcannot k hk]
  rw [dieLinkPoisonAt, hnone, List.foldl_nil]
  refine if_neg ?_
  cases hks : p.validParts.filter fun k => p.wantsLine k line with
  | nil => simp
  | cons k l => simp [hcannot k (hks ▸ List.mem_cons_self)]

theorem dieLinkPoisonAt_rolls {p : Package} {k line : Nat} (hparts : p.validParts = [k]) (hback : p.canRollBack k = true) (hwants : p.wantsLine k line = true) (link sector : Nat) :
    dieLinkPoisonAt link line sector p = p.later .now (.rollback k (0x5000 + link % 4)) := by
  have hks : p.validParts.filter (fun k => p.wantsLine k line) = [k] := by
    rw [hparts]
    simp [hwants]
  have hmine : [k].filter p.canRollBack = [k] := by simp [hback]
  have hback' : (p.later .now (.rollback k (0x5000 + link % 4))).canRollBack k = true := hback
  rw [dieLinkPoisonAt, hks, hmine]
  exact if_pos (by simpa using hback')

end Sys2Proof.Machine

open Sys2Proof Sys2Proof.Machine in
/-- Settles O48: a point from its request to its snapshot, a rollback by what is dropped and brought back, the hard failures by who is told. -/
theorem recoveryAndFailure : Obligations.RecoveryAndFailure := by
  refine ⟨fun s k => ⟨fun u hr hu => ?early, fun u hlt hr hu => ?resumes, fun hr hstop h => ?noPoint, fun hr hstop hon hvalid herror hop => ⟨fun h => ?requests, fun ht he hlt => ?stops⟩,
      fun hlt hr hstop ht hcue hhalted => ?takes⟩,
    fun s k unit => ⟨fun h => ?keeps, fun hback hlt h => ?rolls, fun hback hrolling herror ht => ?notes, fun us o1 hback hlt hk hrolling herror hunit hin hheld hcasts => ?fails⟩,
    fun s k => ⟨fun hi he => ?noInject, fun stamp g a hi ht he hlt => ?injects, fun o us hi he hr hrolling ht hheld => ?freed⟩,
    fun s link k hparts hrecov htaken => ?headerRolls, fun s link k hk h => ?headerFails, fun s link line sector h => ?poisons,
    fun s link line sector k hparts hrecov htaken hwants => ?poisonRolls, fun s => ⟨fun h => ?isFrozen, fun h => ?freezes⟩⟩
  case early => rw [exec_recoveryPoint, recoveryPointAt_early hr hu]
  case resumes =>
    have hrecov := recov_modRecovery hlt fun r => { r with resumeAt := none }
    have hparts := parts_releaseCores s.clk (s.pkg.partCores k) (s.pkg.modRecovery k fun r => { r with resumeAt := none })
    refine ⟨_, event_next rfl (recoveryPointAt_resumes hr hu), ?_, fun core hcore hcl => ?_⟩
    · exact congrArg Recovery.resumeAt ((congrArg (fun l : List Partition => (l.getD k {}).recovery) hparts).trans hrecov)
    · have hcasts := castsAt_releaseCores s.clk (nodup_partCores s.pkg k) hcore (s.pkg.modRecovery k fun r => { r with resumeAt := none })
      refine ⟨stopped_of_castsAt (hcasts.trans (congrArg _ (castsAt_of_lt hcl))), fun i c hc => ⟨c.goesOn, ?_, rfl⟩⟩
      exact cast?_of_mapped (p := s.pkg) (f := Cast.goesOn) (g := fun _ => false) hcasts hc
  case noPoint => rw [exec_recoveryPoint, recoveryPointAt_no hr hstop h]
  case requests => rw [exec_recoveryPoint, recoveryPointAt_requests hr hstop ((mayPoint_iff hr hstop).2 ⟨hon, hvalid, herror, hop⟩) h]
  case stops =>
    have hlen : k < ((s.pkg.partCores k).foldl Package.askStop s.pkg).parts.length := (parts_askStops ..).symm ▸ hlt
    have hsame : ((s.pkg.partCores k).foldl Package.askStop s.pkg).recov k = s.pkg.recov k :=
      congrArg (fun l : List Partition => (l.getD k {}).recovery) (parts_askStops (s.pkg.partCores k) s.pkg)
    have hrecov := recov_modRecovery hlen fun r => { r with stopping := true, pointAt := s.clk.rtick }
    rw [hsame] at hrecov
    refine ⟨_, event_next rfl (recoveryPointAt_stops hr hstop ((mayPoint_iff hr hstop).2 ⟨hon, hvalid, herror, hop⟩) ht he), hrecov,
      List.mem_append_right _ (List.mem_singleton_self _), fun core i c hcore hc => ?_⟩
    have hasked := castsAt_askStops (nodup_partCores s.pkg k) hcore s.pkg
    exact (cast?_of_mapped (p := s.pkg) (f := Cast.asked) (g := id) hasked hc).trans (congrArg some (asked_eq c))
  case takes =>
    obtain ⟨b, hpart⟩ := snapped_part s.pkg k k
    have hrecov := recov_takePoint hlt s.clk
    rw [Package.copyFor, hpart] at hrecov
    refine ⟨_, event_next rfl (recoveryPointAt_takes hr hstop ht hcue hhalted), ?_⟩
    dsimp only
    rw [hrecov]
    refine ⟨rfl, rfl, rfl, rfl, rfl, rfl, rfl, rfl, rfl, rfl, rfl, rfl, fun core hcore hcl => ?_⟩
    rw [core_takePoint hcore hcl]
    exact ⟨rfl, rfl⟩
  case keeps => rw [exec_rollback, rollbackAt_keeps h]
  case rolls =>
    obtain ⟨⟨u, hrolling, hu⟩, ht⟩ | ⟨hrolling, herror, ht⟩ := h
    · have hsame : s.pkg = s.pkg.modRecovery k fun r => r := (modRecovery_same rfl).symm
      exact ⟨_, event_next rfl (rollbackAt_due hback hrolling hu ht), rolledBack_rollBack hlt _ hsame ⟨_, rfl⟩, fun hno => by rw [hrolling] at hno; cases hno⟩
    · have hnotes := noteError_first herror s.clk.mcyc unit
      have hfirst := rollbackAt_first (unit := unit) (t := s.clk) hback hrolling herror
      rw [if_pos ht] at hfirst
      refine ⟨_, event_next rfl hfirst, rolledBack_rollBack hlt _ rfl ⟨_, hnotes⟩, fun _ => ?_⟩
      have hpart := part_rollBack s.clk ((parts_modRecovery_length s.pkg k fun r => r.noteError s.clk.mcyc unit).symm ▸ hlt)
      rw [recov_modRecovery hlt, hnotes] at hpart
      exact (congrArg (fun q : Partition => q.recovery.errorOffset) hpart).trans rfl
  case notes => rw [exec_rollback, rollbackAt_notes hback hrolling herror ht]
  case fails =>
    obtain ⟨htaken, hoffset, hfail, hbit⟩ := failPart_rest hlt hk hheld hcasts s.clk unit
    exact ⟨_, event_next rfl (rollbackAt_second hback hrolling herror hunit hin), htaken, hoffset, hfail, hbit⟩
  case noInject => rw [exec_arrivalJournalInject, journalInjectAt_plain he, injectDue_none hi, injectNext_none hi]
  case injects =>
    have hrest := recov_modRecovery (p := s.pkg.acceptRecorded (stamp, g, a)) (k := k) hlt fun r => { r with inject := [] }
    rw [exec_arrivalJournalInject, journalInjectAt_plain he, injectDue_one hi ht, injectNext_none (congrArg Recovery.inject hrest)]
    rfl
  case freed =>
    have hfreed : s.pkg.modRecovery k Recovery.freed = s.pkg.modRecovery k fun r => { r with errorOffset := none } := by
      refine modRecovery_congr ?_
      rw [Recovery.freed, ← hheld]
    rw [exec_arrivalJournalInject, journalInjectAt_over he hr hrolling ht, injectDue_none hi, freeLive_none hheld, hfreed, injectNext_none]
    rw [recov_modRecovery (lt_of_errorOffset he)]
    exact hi
  case headerRolls => rw [exec_dieLinkHeaderFailure, exec_rollback, headerFailureAt_rolls hparts ((canRollBack_iff s.pkg k).2 ⟨hrecov, htaken⟩)]
  case headerFails =>
    have hno : s.pkg.canRollBack k = false := by
      rw [← Bool.not_eq_true, canRollBack_iff, not_and_or, Bool.not_eq_true, Bool.not_eq_true]
      exact h
    obtain ⟨hcores, hfail, hbits⟩ := reportFails_rest s.clk (0x5000 + link % 4) s.pkg.validParts { s.pkg with win := { s.pkg.win with hardfail := true, failAt := s.clk.mcyc + 1 } }
    exact ⟨_, event_next rfl (headerFailureAt_fails hk hno link s.clk), fun j hj => ⟨hfail rfl, hbits j ((mem_validParts ..).1 hj).1 (.inl hj)⟩,
      List.mem_append_right _ (List.mem_singleton_self _), hcores⟩
  case poisons =>
    rw [exec_dieLinkPoison, dieLinkPoisonAt_poisons fun k hk => ?_]
    rw [← Bool.not_eq_true, canRollBack_iff, not_and_or, Bool.not_eq_true, Bool.not_eq_true]
    exact h k hk
  case poisonRolls => rw [exec_dieLinkPoison, dieLinkPoisonAt_rolls hparts ((canRollBack_iff s.pkg k).2 ⟨hrecov, htaken⟩) hwants]
  case isFrozen => exact congrArg Host.Outcome.next (if_pos h)
  case freezes => exact congrArg Host.Outcome.next (if_neg (by rw [h]; decide))

end

section
/-! SUPPORT. The requests and replies of memory (R27, R225, R227, R231, R238, R240, R389): the request that a slice takes, the reply that a company reads, and what an
acknowledgement and returned data make of their wave. -/

namespace Sys2Proof.Machine

theorem exec_sliceRequest (m : Nat) (s : State) : exec (.sliceRequest m) s = .next { s with pkg := sliceRequestAt m s.clk s.pkg } := rfl

theorem exec_l2Fill (m : Nat) (s : State) : exec (.l2Fill m) s = .next { s with pkg := l2FillAt m s.clk s.pkg } := rfl

theorem exec_storeAck (core : Nat) (s : State) : exec (.storeAck core) s = .next { s with pkg := storeAckAt core s.clk s.pkg } := rfl

theorem exec_loadReturn (core : Nat) (s : State) : exec (.loadReturn core) s = .next { s with pkg := loadReturnAt core s.clk s.pkg } := rfl

theorem exec_hostReadCompletion (tag : Nat) (data : List Byte) (s : State) :
    exec (.hostReadCompletion tag data) s = .next { s with pkg := hostReadAt tag data s.clk s.pkg } := rfl

theorem exec_atomicopCompletion (tag : Nat) (data : List Byte) (s : State) :
    exec (.atomicopCompletion tag data) s = .next { s with pkg := atomicCompletionAt tag data s.clk s.pkg } := rfl

/-! The request that a slice takes (R238). -/

/-- The better of the earliest arrival so far and a request. -/
def earlierReq (t : Nat) (b : Option (Nat × Nat)) (r : Req × Nat) : Option (Nat × Nat) :=
  if t < r.1.arrives then b else match b with
    | some x => if r.1.arrives < x.1 then some (r.1.arrives, r.2) else b
    | none => some (r.1.arrives, r.2)

theorem firstArrived_eq (t : Nat) (l : List Req) : firstArrived t l = (l.zipIdx.foldl (earlierReq t) none).map Prod.snd := rfl

theorem firstArrived_none {t : Nat} {l : List Req} (h : ∀ r ∈ l, t < r.arrives) : firstArrived t l = none := by
  have hnone : l.zipIdx.foldl (earlierReq t) none = none := foldl_id fun r hr => if_pos (h r.1 (List.fst_mem_of_mem_zipIdx hr))
  rw [firstArrived_eq, hnone]
  rfl

theorem firstArrived_one {t : Nat} {r : Req} (h : r.arrives ≤ t) : firstArrived t [r] = some 0 := by
  have hfirst : earlierReq t none (r, 0) = some (r.arrives, 0) := if_neg (not_lt.2 h)
  rw [firstArrived_eq, List.zipIdx_singleton, List.foldl_cons, List.foldl_nil, hfirst]
  rfl

theorem sliceRequestAt_idle {p : Package} {m : Nat} {k : Clock} (h : ∀ r ∈ (p.company m).inq, k.mcyc < r.arrives) : sliceRequestAt m k p = p := by
  simp only [sliceRequestAt, firstArrived_none h]

theorem sliceRequestAt_takes {p : Package} {m : Nat} {k : Clock} {r : Req} (hinq : (p.company m).inq = [r]) (h : r.arrives ≤ k.mcyc) :
    sliceRequestAt m k p = (p.modCompany m fun c => { c with inq := [] }).takeReq k r := by
  have hrest : (p.modCompany m fun c => { c with inq := c.inq.eraseIdx 0 }) = p.modCompany m fun c => { c with inq := [] } :=
    modCompany_congr (congrArg (fun l => { p.company m with inq := l }) (by rw [hinq]; rfl))
  simp only [sliceRequestAt, hinq, firstArrived_one h, List.getElem?_cons_zero, hrest]

/-- A request that nothing keeps waiting, with its line in the slice, is applied. -/
theorem takeReq_applies {p : Package} {k : Clock} {r : Req} (hstaged : r.staged = none) (hwait : (p.company (p.homeOf r.line)).stageWait = [])
    (hstalled : ∀ x ∈ (p.company (p.homeOf r.line)).stalled, x.line ≠ r.line) (hline : (p.l2Find r.line).isSome = true) : p.takeReq k r = p.applyReq k r := by
  have hfree : ((p.company (p.homeOf r.line)).stalled.any fun x => x.line = r.line) = false := List.any_eq_false.2 fun x hx => by simpa using hstalled x hx
  simp only [Package.takeReq, hwait, List.any_nil, Bool.false_eq_true, if_false, hstaged, Bool.false_and, hline, Bool.or_true, hfree, Bool.not_false, Bool.and_self, if_true]

/-! The fill of a slice (R228). -/

theorem l2FillAt_idle {p : Package} {m : Nat} {k : Clock} (h : ∀ f ∈ (p.company m).fills, f.2 = 0 ∨ k.mcyc < f.2) : l2FillAt m k p = p := by
  have hnone : (p.company m).fills.find? (fun f => f.2 ≠ 0 && f.2 ≤ k.mcyc) = none := List.find?_eq_none.2 fun f hf hy => by
    rw [Bool.and_eq_true, decide_eq_true_eq, decide_eq_true_eq] at hy
    exact (h f hf).elim hy.1 fun hlt => absurd hy.2 (not_le.2 hlt)
  simp only [l2FillAt, hnone]

theorem l2FillAt_one {p : Package} {m at_ : Nat} {k : Clock} {r : Req} (hfills : (p.company m).fills = [(r.line, at_)]) (h0 : at_ ≠ 0) (ht : at_ ≤ k.mcyc)
    (hstalled : (p.company m).stalled = [r]) :
    l2FillAt m k p = ((p.modCompany m fun c => { c with fills := [], stalled := [] }).touchLine r.part r.line).applyReq k r := by
  have hfind : (p.company m).fills.find? (fun f => f.2 ≠ 0 && f.2 ≤ k.mcyc) = some (r.line, at_) := by
    rw [hfills]
    exact List.find?_cons_of_pos (by simp [h0, ht])
  have hmine : (p.company m).stalled.filter (fun x => x.line = r.line) = [r] := by simp [hstalled]
  have hrest : (p.modCompany m fun c => { c with fills := c.fills.filter (fun x => x.1 ≠ r.line), stalled := c.stalled.filter fun x => x.line ≠ r.line })
      = p.modCompany m fun c => { c with fills := [], stalled := [] } := by
    refine modCompany_congr ?_
    simp [hfills, hstalled]
  simp only [l2FillAt, hfind, hmine, hrest]
  rfl

/-! The first-level cache after a fill (R227). -/

theorem plruVictim_lt {w : Nat} (tree : List Bool) (l node : Nat) {base : Nat} (h : base < w) : plruVictim w tree l node base < w := by
  induction l generalizing node base with
  | zero => exact h
  | succ l ih =>
    unfold plruVictim
    split
    case isTrue hright => exact ih _ (by simpa using (Bool.and_eq_true_iff.1 hright).2)
    case isFalse => exact ih _ h

theorem lt_of_findIdx? {α : Type} {q : α → Bool} {l : List α} {i : Nat} (h : findIdx? q l = some i) : i < l.length := by
  obtain ⟨⟨x, hx, -⟩, -⟩ := findIdx?_eq_some_iff.1 h
  exact (List.getElem?_eq_some_iff.1 hx).1

theorem victim_lt {c : CacheSet} (h : c.ways.length = 8) (part : Nat) : c.victim part 0 8 < c.ways.length := by
  unfold CacheSet.victim
  split
  case h_1 k hk =>
    have hlt := lt_of_findIdx? hk
    rw [List.drop_zero, List.length_take] at hlt
    exact hlt.trans_le (Nat.min_le_right ..)
  case h_2 => exact h.symm ▸ plruVictim_lt (w := 8) _ _ _ (by decide)

/-- The way that a fill takes: its set's, and no way before it holds the line. -/
theorem fillWay {c : CacheSet} (hlen : c.ways.length = 8) (line : Nat) :
    (c.wayOf line).getD (c.victim 0 0 8) < c.ways.length
      ∧ ∀ (j : Nat) (y : Option Line), j < (c.wayOf line).getD (c.victim 0 0 8) → c.ways[j]? = some y → (y.any fun x => x.line = line) = false := by
  cases h : c.wayOf line with
  | none => exact ⟨victim_lt hlen 0, fun j y _ hy => findIdx?_eq_none_iff.1 h y (List.mem_of_getElem? hy)⟩
  | some i => exact ⟨lt_of_findIdx? h, (findIdx?_eq_some_iff.1 h).2⟩

/-- A set with a line put into a way. -/
def CacheSet.filled (c : CacheSet) (i : Nat) (x : Line) : CacheSet := ({ c with ways := setAt c.ways i (some x) } : CacheSet).touch 0 8 i

theorem filled_way {c : CacheSet} {i : Nat} {x : Line} (hlt : i < c.ways.length)
    (hbefore : ∀ (j : Nat) (y : Option Line), j < i → c.ways[j]? = some y → (y.any fun z => z.line = x.line) = false) :
    ((c.filled i x).wayOf x.line).bind (c.filled i x).at_ = some x := by
  have hat : (setAt c.ways i (some x))[i]? = some (some x) := by rw [setAt, modAt_get?, if_pos rfl, List.getElem?_eq_getElem hlt]; rfl
  have hway : (c.filled i x).wayOf x.line = some i := findIdx?_eq_some_iff.2 ⟨⟨some x, hat, by simp⟩, fun j y hj hy => by
    have hold : (setAt c.ways i (some x))[j]? = c.ways[j]? := (modAt_get? ..).trans (if_neg hj.ne)
    exact hbefore j y hj (hold.symm.trans hy)⟩
  have hline : (c.filled i x).at_ i = some x := by
    have hways : (c.filled i x).ways = setAt c.ways i (some x) := rfl
    rw [CacheSet.at_, hways, List.getD_eq_getElem?_getD, hat]
    rfl
  rw [hway, Option.bind_some, hline]

theorem l1Find_l1Fill {c : Core} (h : ∀ x ∈ c.l1, x.ways.length = 8) (x : Line) : (c.l1Fill x).l1Find x.line = some x := by
  have hlen : (getSet c.l1 8 (x.line % 128)).ways.length = 8 := by
    unfold getSet
    cases hfind : c.l1.find? fun c => decide (c.index = x.line % 128) with
    | none => rfl
    | some y => exact h y (List.mem_of_find?_eq_some hfind)
  obtain ⟨hlt, hbefore⟩ := fillWay hlen x.line
  have hset : getSet (c.l1Fill x).l1 8 (x.line % 128) =
      (getSet c.l1 8 (x.line % 128)).filled (((getSet c.l1 8 (x.line % 128)).wayOf x.line).getD ((getSet c.l1 8 (x.line % 128)).victim 0 0 8)) x :=
    (getSet_putSet ..).trans (if_pos (getSet_index c.l1 8 (x.line % 128)).symm)
  rw [Core.l1Find, hset]
  exact filled_way hlt hbefore

/-! The reply that a company reads (R389). -/

theorem canRead_iff (s : State) (core : Nat) (r : Reply) : s.pkg.canRead s.clk core r = true ↔ ReadsNow s core r := by
  rw [Package.canRead]
  simp only [Bool.and_eq_true, decide_eq_true_eq, List.all_eq_true, Bool.or_eq_true, and_assoc, ReadsNow]
  refine and_congr_right fun _ => and_congr_right fun _ => ?_
  refine ⟨fun h c x hc hx hdue => (h c hc x hx).resolve_left (by simp [hdue]), fun h c hc x hx => ?_⟩
  cases hdue : x.due with
  | none => exact .inr (h c x hc hx hdue)
  | some d => exact .inl rfl

theorem findIdx?_bind {α : Type} {q : α → Bool} {l : List α} {i : Nat} {x : α} (hi : l[i]? = some x) (hx : q x = true) (hbefore : ∀ j y, j < i → l[j]? = some y → q y = false) :
    ((findIdx? q l).bind fun i => (l[i]?).map fun r => (i, r)) = some (i, x) := by
  rw [findIdx?_eq_some_iff.2 ⟨⟨x, hi, hx⟩, hbefore⟩, Option.bind_some, hi]
  rfl

theorem nextReply_none {c : Core} {t : Nat} (h : ∀ r ∈ c.replies, r.due = none → t < r.arrives) (f : ReplyBody → Bool) : c.nextReply t f = none := by
  have hnone : findIdx? (fun r : Reply => r.due.isNone && r.arrives ≤ t && f r.body) c.replies = none := findIdx?_eq_none_iff.2 fun r hr => by
    rw [Bool.eq_false_iff]
    intro hy
    simp only [Bool.and_eq_true, Option.isNone_iff_eq_none, decide_eq_true_eq] at hy
    exact absurd hy.1.2 (not_le.2 (h r hr hy.1.1))
  rw [Core.nextReply, hnone]
  rfl

theorem landing_none {s : State} {core : Nat} (h : NoLanding s core) : (s.pkg.core core).landing (s.clk.cycleOf (companyOf core)) = none := by
  have hnone : findIdx? (fun r : Reply => r.due.any fun d => decide (d ≤ s.clk.cycleOf (companyOf core))) (s.pkg.core core).replies = none :=
    findIdx?_eq_none_iff.2 fun r hr => by
      cases hdue : r.due with
      | none => rfl
      | some d => exact decide_eq_false (not_le.2 (h r d hr hdue))
  rw [Core.landing, hnone]
  rfl

theorem landing_first {s : State} {core i : Nat} {r : Reply} (h : FirstLanding s core i r) : (s.pkg.core core).landing (s.clk.cycleOf (companyOf core)) = some (i, r) := by
  obtain ⟨hi, ⟨d, hdue, hd⟩, hbefore⟩ := h
  refine findIdx?_bind hi (by simp [hdue, hd]) fun j q hj hq => ?_
  cases hdue : q.due with
  | none => rfl
  | some e => exact decide_eq_false fun he => hbefore j q hj hq ⟨e, hdue, he⟩

/-- A reply that can be read, of a kind. -/
theorem readable_iff {t : Nat} {q : Reply} {data : Bool} :
    (q.due.isNone && decide (q.arrives ≤ t) && decide (q.body.isData = data)) = true ↔ q.due = none ∧ q.arrives ≤ t ∧ q.body.isData = data := by
  simp only [Bool.and_eq_true, Option.isNone_iff_eq_none, decide_eq_true_eq, and_assoc]

theorem nextReply_first {s : State} {core i : Nat} {r : Reply} {data : Bool} (h : FirstReply s core i r data) :
    (s.pkg.core core).nextReply s.clk.mcyc (fun b => decide (b.isData = data)) = some (i, r) := by
  obtain ⟨hi, hr, hbefore⟩ := h
  exact findIdx?_bind hi (readable_iff.2 hr) fun j q hj hq => Bool.eq_false_iff.2 fun hy => hbefore j q hj hq (readable_iff.1 hy)

theorem notData_eq : (fun b : ReplyBody => !b.isData) = fun b => decide (b.isData = false) := funext fun b => by cases b.isData <;> rfl

theorem isData_eq : ReplyBody.isData = fun b => decide (b.isData = true) := funext fun b => by cases b.isData <;> rfl

/-! What an acknowledgement makes of a wave (R231, R257). -/

/-- A slice whose HOSTMSG, if it waits, goes on to step 2 (R166). -/
def Slice.storesOver (x : Slice) : Slice := { x with blocked := x.blocked.map fun b : Blocked => { b with op := b.op.storesOver } }

theorem storesOver_eq (x : Slice) : x.storesOver = { x with blocked := x.blocked.map fun b : Blocked => { b with op := match b.op with
    | .hostmsg a b tag _ => .hostmsg a b tag true
    | o => o } } := by
  cases hb : x.blocked with
  | none => simp only [Slice.storesOver, hb, Option.map_none]
  | some b => cases hop : b.op <;> simp only [Slice.storesOver, hb, Option.map_some, hop, BlockOp.storesOver]

/-- A wave of which one request, of its stage or not, has left the count. -/
def Wave.oneLess (w : Wave) (own : Bool) : Wave := { w with outst := w.outst - 1, outl := if own then w.outl - 1 else w.outl }

theorem acked_more {w : Wave} {o : Bool} {l : List Bool} (h : w.outstMore = o :: l) (own : Bool) :
    w.acked own = ({ w.oneLess own with outstMore := l } : Wave).sendCounted o := by
  simp only [Wave.acked, h]
  rfl

theorem acked_last {w : Wave} (h : w.outstMore = []) (own : Bool) :
    w.acked own = if w.outst - 1 = 0 then { w.oneLess own with slices := w.slices.map Slice.storesOver } else w.oneLess own := by
  cases w
  subst h
  rfl

theorem acked_acked (w : Wave) (own : Bool) : Acked w (w.acked own) own := by
  refine ⟨fun o rest hne hmore => ?_, fun hnone hne => ?_, fun hnone hone => ?_⟩
  · have hroom : ¬ w.outst - 1 = 4095 := by bv_omega
    rw [acked_more hmore, Wave.sendCounted]
    refine (if_neg hroom).trans ?_
    rw [Wave.oneLess, BitVec.sub_add_cancel]
  · have hleft : ¬ w.outst - 1 = 0 := by bv_omega
    rw [acked_last hnone, if_neg hleft]
    rfl
  · have hzero : w.outst - 1 = 0 := by rw [hone]; rfl
    rw [acked_last hnone, if_pos hzero]
    refine ⟨by rw [Wave.oneLess, hzero], List.length_map .., fun k x hk => ?_⟩
    rw [List.getElem?_map, hk, Option.map_some]
    exact congrArg some (storesOver_eq x)

theorem acked_due (w : Wave) (own : Bool) : (w.acked own).due = w.due := by
  cases h : w.outstMore with
  | cons o l =>
    rw [acked_more h, Wave.sendCounted]
    split
    · rfl
    · rfl
  | nil =>
    rw [acked_last h]
    split
    · rfl
    · rfl

theorem poisonDue_some (w : Wave) (leader : Nat) {bad : List LaneAddr} (h : bad ≠ []) : ∃ t : AsyncTrap, w.poisonDue leader bad = { w with due := w.due ++ [t] } ∧ t.cause = .poison
    ∧ t.leader = leader ∧ ∀ j, j < 128 → (t.lanes.getLsbD j = true ↔ ∃ l ∈ bad, l.lane = j) := by
  cases bad with
  | nil => exact absurd rfl h
  | cons x l =>
    refine ⟨_, rfl, rfl, rfl, fun j hj => ?_⟩
    rw [laneMask_get _ j hj, List.any_eq_true]
    simp only [decide_eq_true_eq]

/-! An acknowledgement at the core. -/

theorem answer_alive {p : Package} {key : WaveKey} {w : Wave} (h : p.waveOf? key = some w) (bad : Bool) (f : Wave → Wave) :
    p.answer key bad f = p.modWave key.core key.slot fun _ => f w :=
  (if_pos (by rw [h]; rfl)).trans (modWave_const p key.core key.slot w f (wave?_of_waveOf? h))

/-- A change of replies and caches leaves every wave and its key. -/
theorem waveOf?_modCore {f : Core → Core} (hf : ∀ x, (f x).ctx = x.ctx) (p : Package) (core : Nat) (key : WaveKey) : (p.modCore core f).waveOf? key = p.waveOf? key :=
  waveOf?_congr (wave?_modCore (fun x => by rw [hf]) p core) (cast?_modCore (fun x => by rw [hf]) p core) key

section
variable {s : State} {core i : Nat} {r : Reply}

theorem storeAckAt_waits (h : FirstReply s core i r false) (hr : ¬ ReadsNow s core r) :
    storeAckAt core s.clk s.pkg = s.pkg.later (.company (companyOf core) (s.clk.cycleOf (companyOf core) + 1)) (.storeAck core) := by
  rw [storeAckAt, notData_eq, nextReply_first h]
  exact if_pos (by rwa [Bool.not_eq_true', ← Bool.not_eq_true, canRead_iff])

variable (h : FirstReply s core i r false) (hr : ReadsNow s core r)
include h hr

theorem storeAckAt_reads : storeAckAt core s.clk s.pkg =
    let p := (FifoRead s core).modCore core fun k => { k with replies := k.replies.eraseIdx i }
    match r.body with
    | .ack own => p.answer r.key false fun w => w.acked own
    | .hostAck => p.answer r.key false fun w => { w.acked false with hostOut := w.hostOut - 1 }
    | .poison lanes own => p.answer r.key true fun w => (w.acked own).poisonDue r.leader lanes
    | .data _ _ _ _ _ => p := by
  rw [storeAckAt, notData_eq, nextReply_first h]
  exact if_neg (by rw [(canRead_iff s core r).2 hr]; exact Bool.false_ne_true)

variable {w : Wave} (hw : s.pkg.waveOf? r.key = some w)
include hw

omit h hr in
/-- The answer to the wave of a reply that has been read. -/
theorem answer_taken (bad : Bool) (f : Wave → Wave) :
    ({ s with pkg := ((FifoRead s core).modCore core fun k => { k with replies := k.replies.eraseIdx i }).answer r.key bad f } : State) = ReplyTaken s core i r (f w) := by
  rw [answer_alive (w := w), ReplyTaken]
  exact (waveOf?_modCore (f := fun k => { k with replies := k.replies.eraseIdx i }) (fun _ => rfl) (FifoRead s core) core r.key).trans hw

theorem storeAck_ack {own : Bool} (hb : r.body = .ack own) : exec (.storeAck core) s = .next (ReplyTaken s core i r (w.acked own)) := by
  rw [exec_storeAck, storeAckAt_reads h hr, hb]
  exact congrArg Host.Outcome.next (answer_taken hw false _)

theorem storeAck_hostAck (hb : r.body = .hostAck) : exec (.storeAck core) s = .next (ReplyTaken s core i r { w.acked false with hostOut := w.hostOut - 1 }) := by
  rw [exec_storeAck, storeAckAt_reads h hr, hb]
  exact congrArg Host.Outcome.next (answer_taken hw false _)

theorem storeAck_poison {lanes : List LaneAddr} {own : Bool} (hb : r.body = .poison lanes own) :
    exec (.storeAck core) s = .next (ReplyTaken s core i r ((w.acked own).poisonDue r.leader lanes)) := by
  rw [exec_storeAck, storeAckAt_reads h hr, hb]
  exact congrArg Host.Outcome.next (answer_taken hw true _)

end

/-! Data that reach the registers (R27, R227, R389). -/

section
variable {s : State} {core i : Nat} {r : Reply}

theorem loadReturnAt_waits (hland : NoLanding s core) (h : FirstReply s core i r true) (hr : ¬ ReadsNow s core r) :
    loadReturnAt core s.clk s.pkg = s.pkg.later (.company (companyOf core) (s.clk.cycleOf (companyOf core) + 1)) (.loadReturn core) := by
  rw [loadReturnAt, landing_none hland, isData_eq, nextReply_first h]
  exact if_pos (by rwa [Bool.not_eq_true', ← Bool.not_eq_true, canRead_iff])

theorem loadReturnAt_reads (hland : NoLanding s core) (h : FirstReply s core i r true) (hr : ReadsNow s core r) :
    loadReturnAt core s.clk s.pkg = ((FifoRead s core).modCore core fun c =>
      { c with replies := c.replies.set i { r with due := some (s.clk.cycleOf (companyOf core) + 15) } }).later
        (.company (companyOf core) (s.clk.cycleOf (companyOf core) + 15)) (.loadReturn core) := by
  rw [loadReturnAt, landing_none hland, isData_eq, nextReply_first h]
  refine (if_neg (by rw [(canRead_iff s core r).2 hr]; exact Bool.false_ne_true)).trans (congrArg (fun p : Package => p.later _ _) (modCore_congr ?_))
  refine congrArg (fun l => { s.pkg.core core with replies := l }) ((modAt_congr fun x hx => ?_).trans (setAt_eq_set ..))
  rw [Option.some.inj (hx.symm.trans h.1)]

theorem core_lt_of_reply {p : Package} (h : (p.core core).replies[i]? = some r) : core < p.cores.length := by
  by_contra hge
  rw [Package.core, List.getD_eq_getElem?_getD, List.getElem?_eq_none (Nat.le_of_not_lt hge)] at h
  cases h

/-- A core whose reply has landed, with the line of its fill. -/
def Core.landed (i : Nat) (fill : Option Line) (c : Core) : Core :=
  match fill with
  | some x => Core.l1Fill { c with replies := c.replies.eraseIdx i } x
  | none => { c with replies := c.replies.eraseIdx i }

theorem landed_ctx (i : Nat) (fill : Option Line) (c : Core) : (c.landed i fill).ctx = c.ctx := by
  cases fill <;> rfl

theorem l1_modWave (p : Package) (c k c' : Nat) (f : Wave → Wave) : ((p.modWave c k f).core c').l1 = (p.core c').l1 := by
  rw [Package.modWave, Package.modCtx, core_modCore_keeps (g := Core.l1)]
  exact fun _ => rfl

theorem loadReturnAt_lands {w : Wave} {id : Nat} {regs : List (Nat × Nat × Word)} {fill : Option Line} (h : FirstLanding s core i r) (hw : s.pkg.waveOf? r.key = some w)
    (hb : r.body = .data id regs [] fill none) :
    loadReturnAt core s.clk s.pkg = (s.pkg.modCore core (Core.landed i fill)).modWave r.key.core r.key.slot fun _ => (w.setElems regs).returned id := by
  have halive : (s.pkg.modCore core (Core.landed i fill)).waveOf? r.key = some w := (waveOf?_modCore (landed_ctx i fill) ..).trans hw
  rw [loadReturnAt, landing_first h]
  simp only [Package.landReply, hb]
  rw [← answer_alive halive false fun w => (w.setElems regs).returned id]
  cases fill with
  | none => rfl
  | some x =>
    simp only [modCore_modCore]
    rfl

end

theorem returned_returned (w : Wave) (regs : List (Nat × Nat × Word)) (id : Nat) : Returned w ((w.setElems regs).returned id) regs :=
  ⟨setElems_length regs w, fun r j hr hj => setElems_v regs w r j hr hj⟩

theorem returned_rest (w : Wave) (regs : List (Nat × Nat × Word)) (id : Nat) :
    (w.setElems regs).returned id = { w with vregs := ((w.setElems regs).returned id).vregs, pending := ((w.setElems regs).returned id).pending } :=
  congrArg (fun x : Wave => { x with pending := ((w.setElems regs).returned id).pending }) (setElems_rest regs w)

theorem returned_pending (w : Wave) (regs : List (Nat × Nat × Word)) (id : Nat) : ((w.setElems regs).returned id).pending =
    (w.pending.map fun q => if q.id = id then { q with left := q.left - 1 } else q).filter (fun q => q.left ≠ 0) := by
  have hkeep : (w.setElems regs).pending = w.pending := by rw [setElems_rest]
  rw [← hkeep]
  rfl

/-! Answers of the host (R225, R240, R317). -/

section
variable {p : Package} {tag : Nat}

theorem readOver_absent (h : tag ∉ p.reads) : p.readOver tag = p :=
  if_pos (by simpa using h)

theorem readOver_last (h : tag ∈ p.reads) (hq : p.readQ = []) : p.readOver tag = { p with reads := p.reads.erase tag } := by
  have hmem : (!p.reads.contains tag) = false := by simpa using h
  simp only [Package.readOver, hmem, hq]
  rfl

theorem readOver_next (h : tag ∈ p.reads) {e : Egress} {rest : List Egress} (hq : p.readQ = e :: rest) :
    p.readOver tag = ({ p with reads := p.reads.erase tag, readQ := rest } : Package).later .now (.egressTransaction 0 e) := by
  have hmem : (!p.reads.contains tag) = false := by simpa using h
  simp only [Package.readOver, hmem, hq]
  rfl

theorem readOver_rest (p : Package) (tag : Nat) : ∃ reads readQ due, p.readOver tag = { p with reads := reads, readQ := readQ, due := due } := by
  by_cases h : tag ∈ p.reads
  · cases hq : p.readQ with
    | nil => exact ⟨_, _, _, readOver_last h hq⟩
    | cons e rest => exact ⟨_, _, _, readOver_next h hq⟩
  · exact ⟨_, _, _, readOver_absent h⟩

theorem pcieWait?_readOver (p : Package) (tag t : Nat) : (p.readOver tag).pcieWait? t = p.pcieWait? t := by
  obtain ⟨reads, readQ, due, he⟩ := readOver_rest p tag
  rw [he]
  rfl

theorem hostReadAt_over (h : p.pcieWait? tag = none) (data : List Byte) (k : Clock) : hostReadAt tag data k p = p.readOver tag := by
  simp only [hostReadAt, pcieWait?_readOver, h]

theorem atomicCompletionAt_none (h : p.pcieWait? tag = none) (data : List Byte) (k : Clock) : atomicCompletionAt tag data k p = p := by
  simp only [atomicCompletionAt, h]

theorem hostReadAt_load {leader id n reg base : Nat} {key : WaveKey} {lanes : List LaneAddr} (h : p.pcieWait? tag = some (.load key leader id n reg lanes base))
    (data : List Byte) (k : Clock) : hostReadAt tag data k p = ((p.readOver tag).dropTag tag).sendReply k key leader ((p.readOver tag).hostWay key.core)
      (.data id (lanes.flatMap fun l => regsOfBytes reg l.lane ((List.range n).map fun i => data.getD (l.addr.toNat - base + i) 0)) [] none none) := by
  simp only [hostReadAt, pcieWait?_readOver, h]

theorem replies_sendReply (k : Clock) (p : Package) (key : WaveKey) (leader way : Nat) (body : ReplyBody) :
    ((p.sendReply k key leader way body).core key.core).replies = (p.core key.core).replies
      ++ if key.core < p.cores.length then [{ key := key, leader := leader, arrives := k.mcyc + way, body := body }] else [] := by
  have hsent : (p.sendReply k key leader way body).core key.core = (p.modCore key.core fun c =>
    { c with replies := c.replies ++ [{ key := key, leader := leader, arrives := k.mcyc + way, body := body }] }).core key.core := rfl
  rw [hsent]
  by_cases hlt : key.core < p.cores.length
  · rw [core_modCore_self _ _ _ hlt, if_pos hlt]
  · have hnone : (p.modCore key.core fun c =>
      { c with replies := c.replies ++ [{ key := key, leader := leader, arrives := k.mcyc + way, body := body }] }).cores.length ≤ key.core := by
      rw [cores_modCore]
      exact Nat.le_of_not_lt hlt
    rw [if_neg hlt, List.append_nil, Package.core, Package.core, List.getD_eq_default _ _ hnone, List.getD_eq_default _ _ (Nat.le_of_not_lt hlt)]

theorem atomicCompletionAt_last {leader id ty addr pasid part reg : Nat} {key : WaveKey} {todo : List AtomLane} {w : Wave}
    (h : p.pcieWait? tag = some (.atomic key leader id 0 ty addr pasid part todo [] false reg)) (hw : p.waveOf? key = some w) (data : List Byte) (k : Clock) :
    atomicCompletionAt tag data k p = (p.dropTag tag).modWave key.core key.slot fun _ => { w.acked false with hostOut := w.hostOut - 1 } := by
  simp only [atomicCompletionAt, h, Bool.false_eq_true, if_false, if_true]
  exact answer_alive (p := p.dropTag tag) hw false _

end

end Sys2Proof.Machine

open Sys2Proof Sys2Proof.Machine in
/-- Settles O39: the slice and the core take the entry that the clause describes, and every answer changes its wave by one of the lemmas above. -/
theorem memoryEvents : Obligations.MemoryEvents := by
  unfold Obligations.MemoryEvents
  refine ⟨?idleSlice, ?request, ?idleFill, ?fill, ?noReply, ?waits, ?ack, ?reads, ?lands, ?noWaiter, ?hostLoad, ?atomic⟩
  case idleSlice => exact fun s m h => event_next rfl (sliceRequestAt_idle h)
  case request =>
    intro s m r hm hinq ht hstaged hhome hwait hstalled hline
    let p := s.pkg.modCompany m fun c => { c with inq := [] }
    have hself : p.company (p.homeOf r.line) = { s.pkg.company m with inq := [] } := (congrArg p.company hhome).trans (company_modCompany_self _ _ _ hm)
    have happly : p.takeReq s.clk r = p.applyReq s.clk r :=
      takeReq_applies hstaged (by rw [hself]; exact hwait) (by rw [hself]; exact hstalled) (by rw [Package.l2Find, hself, ← hhome]; exact hline)
    rw [exec_sliceRequest, sliceRequestAt_takes hinq ht, happly]
  case idleFill => exact fun s m h => event_next rfl (l2FillAt_idle h)
  case fill =>
    intro s m line at_ r hfills h0 ht hstalled hline
    subst hline
    rw [exec_l2Fill, l2FillAt_one hfills h0 ht hstalled]
  case noReply =>
    intro s core h
    refine ⟨?_, fun hland => ?_⟩
    · simp only [exec_storeAck, storeAckAt, nextReply_none h]
    · simp only [exec_loadReturn, loadReturnAt, landing_none hland, nextReply_none h]
  case waits =>
    intro s core i r data h hr hland
    cases data with
    | false => exact event_next rfl (storeAckAt_waits h hr)
    | true => exact event_next rfl (loadReturnAt_waits (hland rfl) h hr)
  case ack =>
    intro s core i r w h hr hw
    refine ⟨fun own hb => ⟨_, acked_acked w own, storeAck_ack h hr hw hb⟩, fun hb => ⟨_, acked_acked w false, storeAck_hostAck h hr hw hb⟩, fun lanes own hb hne => ?_⟩
    obtain ⟨t, hdue, hcause, hleader, hlanes⟩ := poisonDue_some (w.acked own) r.leader hne
    rw [acked_due] at hdue
    exact ⟨t, _, acked_acked w own, hdue ▸ storeAck_poison h hr hw hb, hcause, hleader, hlanes⟩
  case reads => exact fun s core i r hland h hr => event_next rfl (loadReturnAt_reads hland h hr)
  case lands =>
    intro s core i id r w regs fill h hw hb
    have hl1 : (((s.pkg.modCore core (Core.landed i fill)).modWave r.key.core r.key.slot fun _ => (w.setElems regs).returned id).core core).l1 =
        ((s.pkg.core core).landed i fill).l1 :=
      (l1_modWave ..).trans (congrArg Core.l1 (core_modCore_self _ _ _ (core_lt_of_reply h.1)))
    refine ⟨_, (w.setElems regs).returned id, event_next rfl (loadReturnAt_lands h hw hb), ?_, returned_returned w regs id,
      returned_rest w regs id, returned_pending w regs id, fun x hx hways => ⟨x, ?_, rfl⟩, fun hnone => ?_⟩
    · rw [wave?_modWave, if_pos ⟨rfl, rfl⟩, wave?_modCore fun c => by rw [landed_ctx], wave?_of_waveOf? hw]
      rfl
    · rw [Core.l1Find, hl1, hx]
      exact l1Find_l1Fill (c := { s.pkg.core core with replies := (s.pkg.core core).replies.eraseIdx i }) hways x
    · rw [hl1, hnone]
      rfl
  case noWaiter =>
    intro s tag data h
    refine ⟨?_, fun habsent => ?_, fun hmem hq => ?_, fun e rest hmem hq => ?_⟩
    · rw [exec_atomicopCompletion, atomicCompletionAt_none h]
    · rw [exec_hostReadCompletion, hostReadAt_over h, readOver_absent habsent]
    · rw [exec_hostReadCompletion, hostReadAt_over h, readOver_last hmem hq]
    · rw [exec_hostReadCompletion, hostReadAt_over h, readOver_next hmem hq]
  case hostLoad =>
    intro s tag leader id n reg base key lanes data h
    obtain ⟨reads, readQ, due, hover⟩ := readOver_rest s.pkg tag
    have hload := hostReadAt_load h data s.clk
    rw [hover] at hload
    exact ⟨_, _, event_next rfl hload, replies_sendReply .., rfl, rfl, rfl, rfl⟩
  case atomic =>
    intro s tag leader id ty addr pasid part reg key todo data w h hw
    exact ⟨_, acked_acked w false, event_next rfl (atomicCompletionAt_last h hw data s.clk)⟩
end
